-- ==== Sys2Proof/Word.lean ====
section
/-! DEFINITION. Word types of the LX-C1 and their plainest arithmetic (spec/00_scope.md R4, R5, R9). -/

namespace Sys2Proof

/-- A byte of memory. -/
abbrev Byte := BitVec 8
/-- The content of a v register, 32 bits with no type (R14). -/
abbrev Word := BitVec 32
/-- The content of an even:odd pair, low word in the even register (R11). -/
abbrev DWord := BitVec 64
/-- A 96-bit instruction word (R66). -/
abbrev IWord := BitVec 96
/-- A 64-byte fetch line, read as one little-endian value (R61). -/
abbrev Line := BitVec 512

/-- General register number v0 to v63. -/
abbrev VReg := BitVec 6
/-- Capability register number a0 to a7. -/
abbrev AReg := BitVec 3
/-- Predicate number p0 to p7; p7 reads true (R16). -/
abbrev PReg := BitVec 3
/-- Convergence register number q0 to q15. -/
abbrev QReg := BitVec 4

/-- Two's complement low 32 bits of an exact integer. -/
def w32 (x : Int) : Word := BitVec.ofInt 32 x

/-- Two's complement low 64 bits of an exact integer. -/
def w64 (x : Int) : DWord := BitVec.ofInt 64 x

end Sys2Proof
end

