-- ==== Sys2Proof/Config.lean ====
section
/-! DEFINITION. What the LX-C1 fixes as figures (spec/00_scope.md Table 0.2 and the rules cited), the free
values the spec leaves open, and the functions it takes from outside standards without defining them. -/

namespace Sys2Proof.Config

open Sys2Proof

/-! ### Free values

A free value has no body: nothing in Lean can evaluate it, so a statement about it holds for every value.
The first argument is the state's counter `freeCtr`, the second tells apart the values one step needs. -/

/-- An undefined 32-bit value (R8): a fixed-latency result read too early (R83), a lent register (R214). Log 1. -/
opaque freeWord : Nat → Nat → BitVec 32
/-- An undefined bit: an undefined predicate value (R8, R83). Log 1. -/
opaque freeBit : Nat → Nat → Bool
/-- An undefined byte: overlapping copies (R188), a lent tile (R214), an undefined engine result (R8). Log 1. -/
opaque freeByte : Nat → Nat → BitVec 8
/-- A choice between outcomes that the spec allows: whether an L1 copy still serves a plain load (R312). Log 8. -/
opaque freeHit : Nat → Nat → Bool

/-- Whether a changed block of a compressed page still fits its allocation (R302): the compression is not given. Log 1. -/
opaque freeFit : Nat → Nat → Bool

/-! ### Functions of outside standards that the spec names and does not define. Log 6. -/

/-- SHA-256 of a byte string (R264, R428). -/
opaque sha256 : List (BitVec 8) → BitVec 256
/-- The first 16 bytes of HMAC-SHA-256 under a 512-bit key slot (R401, R432). -/
opaque hmacTag : BitVec 512 → List (BitVec 8) → BitVec 128
/-- AES-256-XTS decryption of one 64-byte line: key slot, tweak, ciphertext (R401). -/
opaque xtsDecrypt : BitVec 512 → BitVec 128 → BitVec 512 → BitVec 512
/-- AES-256-XTS encryption of one 64-byte line: key slot, tweak, plaintext (R434). -/
opaque xtsEncrypt : BitVec 512 → BitVec 128 → BitVec 512 → BitVec 512
/-- AES-256 key unwrap (RFC 3394) of a wrapped key: the 512-bit slot content, or none where the wrap fails (R430). -/
opaque keyUnwrap : Nat → List (BitVec 8) → Option (BitVec 512)
/-- SLH-DSA-SHA2-128s verification of a signature over a byte string under the key a hash names (R428, R431). -/
opaque slhVerify : BitVec 256 → List (BitVec 8) → List (BitVec 8) → Bool
/-- SLH-DSA-SHA2-128s signature by the device key (R429). -/
opaque slhSign : List (BitVec 8) → List (BitVec 8)
/-- The ML-KEM-768 encapsulation key of an attestation report, by the count of reports made (R429). -/
opaque kemKey : Nat → List (BitVec 8)
/-- The hash of the vendor key held in fuses (R428). -/
opaque vendorKey : BitVec 256
/-- The serial number of the device (R429). -/
opaque serial : BitVec 64
/-- The key hashes of operators enrolled in fuses (R431). -/
opaque operatorKey : BitVec 256 → Bool
/-- The identity of the boot ROM, as it is measured (R428). -/
opaque romIdentity : List (BitVec 8)
/-- Timing replays of a core within one second above which an event is written (R419; the spec gives no figure). Log 1. -/
opaque replayThreshold : Nat
/-- CRC-64 of a flit's bytes 0 to 247 (R406; the spec names no polynomial). -/
opaque crc64 : List (BitVec 8) → BitVec 64
/-- The 240 payload bytes of a group heartbeat, by group and device (R413; the spec gives no form). -/
opaque heartbeat : Nat → Nat → BitVec 1920
/-- What a physical lane self-test finds, by partition, physical lane and the count of tests run (R418). -/
opaque laneFails : Nat → Nat → Nat → Bool

/-! ### Figures -/

/-- Clusters of the package (Table 0.2). -/
def numClusters : Nat := 80
/-- Clusters of one C-die (Table 0.2). -/
def clustersPerDie : Nat := 20
/-- Stacks of the package (Table 0.2). -/
def numStacks : Nat := 12
/-- C-dies of the package (Table 0.2). -/
def numDies : Nat := 4
/-- Ports of the fabric (Table 0.2). -/
def numPorts : Nat := 16
/-- Devices of a pod at most (Table 0.2). -/
def numDevices : Nat := 1024
/-- Lines of an instruction store (R264). -/
def istoreLines : Nat := 4096
/-- Residency table entries of a core (R265). -/
def residEntries : Nat := 64
/-- Bytes of one stack: 36 GiB (R362). -/
def stackBytes : Nat := 36 * 2 ^ 30
/-- Bytes of stacked DRAM: 432 GiB (R362). -/
def dramBytes : Nat := 12 * stackBytes
/-- Bytes of the weight store: 4 GiB (R374). -/
def wsBytes : Nat := 2 ^ 32
/-- Bundles a regroup forms at most (R236). -/
def maxBundles : Nat := 8
/-- Cycles after which a ready thread is aged (R240). -/
def agedCycles : Nat := 1024
/-- Cycles a yield lasts at most (R117). -/
def yieldCycles : Nat := 256
/-- Cycles within which a late store is performed: the spec gives none (log 5). -/
def storeCycles : Nat := 2048
/-- Cycles after which a skipped launch becomes reserving (R348). -/
def reserveCycles : Nat := 400000
/-- Pending tokens of one thread at most (R26). -/
def maxTokens : Nat := 8
/-- Operations of one q stream at most (R210). -/
def maxStream : Nat := 4
/-- Entry slots of a drover bin (R287). -/
def binSlots : Nat := 252
/-- Bins of one drover (R286). -/
def maxBins : Nat := 4096
/-- Requests an engine holds (R394). -/
def maxEngineReqs : Nat := 256
/-- Bytes of a cullet log (R284). -/
def logBytes : Nat := 65536
/-- Event log records (R425). -/
def eventLogSize : Nat := 65536
/-- Outstanding faults of a cluster (R368). -/
def maxFaults : Nat := 64
/-- Floor of DRAINLIM (R380). -/
def drainFloor : Nat := 80000
/-- Flits of a replay buffer (R407). -/
def replayFlits : Nat := 2048
/-- Records a thread may hold formed and not yet applied (R282). -/
def maxThreadRecords : Nat := 2 ^ 18

end Sys2Proof.Config
end

