-- ==== Sys2Proof/Syntax.lean ====
section
/-! DEFINITION. The steps of the LX-C1: one constructor of `Instr` for each row of spec/opcode_table.json,
164 instruction rows (spec/03_encoding.md Table 3.11) and 102 event rows (spec/95_what_each_step_holds.md). -/

namespace Sys2Proof

/-! ### Operands of instructions -/

/-- The part of an instruction word that every instruction has (R66): stall count S, guard predicate P,
guard negation PN, NF (no FPX update) and the yield hint Y. -/
structure Hdr where
  stall : BitVec 4
  pred : PReg
  neg : Bool
  nf : Bool
  yield : Bool
  deriving DecidableEq, Repr

/-- A source operand (Table 1.9): a v register, an integer constant 0 to 31, a float constant of Table 3.10,
or 0xFF, the immediate I. -/
inductive Src where
  | v (r : VReg)
  | intc (n : BitVec 5)
  | fltc (n : BitVec 5)
  | imm (x : Word)
  deriving DecidableEq, Repr

/-- A v register or an integer constant: memory indices (R72), store data (R151), SHFL B (Table 4.6). -/
inductive RC where
  | v (r : VReg)
  | c (n : BitVec 5)
  deriving DecidableEq, Repr

/-- The floating-point byte (R71). -/
structure FMod where
  rnd : BitVec 2
  ftz : Bool
  sat : Bool
  negA : Bool
  absA : Bool
  negB : Bool
  negC : Bool
  deriving DecidableEq, Repr

/-- CMP of Table 3.8. -/
inductive Cmp where
  | eq | ne | lt | le | gt | ge
  deriving DecidableEq, Repr

/-- COMB of Table 3.8 with its predicate C. -/
inductive Comb where
  | none
  | andP (c : PReg)
  | orP (c : PReg)
  | xorP (c : PReg)
  deriving DecidableEq, Repr

/-- VOTE operators (Table 4.6). -/
inductive VoteOp where
  | all | any | uni
  deriving DecidableEq, Repr

/-- SHFL operators (Table 4.6). -/
inductive ShflOp where
  | idx | up | down | xor
  deriving DecidableEq, Repr

/-- Integer operators of WRED and WSCAN; NS only with MIN and MAX (R99). -/
inductive RedOp where
  | add | min (ns : Bool) | max (ns : Bool) | and | or | xor
  deriving DecidableEq, Repr

/-- Operators of WRED and WSCAN: integer, or FP32 with FL = 1 (R99); rounding only with ADD. -/
inductive WOp where
  | int (op : RedOp)
  | fadd (rnd : BitVec 2) (ftz : Bool)
  | fmin (ftz : Bool)
  | fmax (ftz : Bool)
  deriving DecidableEq, Repr

/-- Element formats (Table 3.9). -/
inductive Fmt where
  | int8 | int16 | int32 | int64 | int4 | int2 | fp16 | bf16 | fp32 | fp64 | e4m3 | e2m1x | fp16x2 | bf16x2
  deriving DecidableEq, Repr

/-- Access widths (R72). -/
inductive Wid where
  | w8 | w16 | w32 | w64 | w128
  deriving DecidableEq, Repr

/-- Cache hints CH (R155). -/
inductive CacheHint where
  | dflt | nc | ef
  deriving DecidableEq, Repr

/-- Scopes (Table 11.3, as SCOPE fields name them). -/
inductive Scope where
  | block | device | system
  deriving DecidableEq, Repr

/-- ORD of the atomics with its SCOPE (Table 3.8). -/
inductive AOrd where
  | relaxed
  | acq (s : Scope)
  | rel (s : Scope)
  | acqRel (s : Scope)
  deriving DecidableEq, Repr

/-- Atomic operators (Table 3.8). -/
inductive AOp where
  | add | min | max | and | or | xor | exch
  deriving DecidableEq, Repr

/-- Atomic operand types (Table 3.8). -/
inductive ATy where
  | si | ns | f | h2 | b2
  deriving DecidableEq, Repr

/-- A capability address: A, B and DISP of format M (R72, R145). -/
structure CapAddr where
  a : AReg
  idx : RC
  disp : BitVec 24
  deriving DecidableEq, Repr

/-- A scratchpad or accumulator-store address: B and DISP (R72, R145). -/
structure LocAddr where
  idx : RC
  disp : BitVec 24
  deriving DecidableEq, Repr

/-- M bits of a load: width, sign extension, cache hint, acquire scope (Table 3.8, R151). -/
structure LdMod where
  wid : Wid
  sx : Bool
  ch : CacheHint
  acq : Option Scope
  deriving DecidableEq, Repr

/-- M bits of a store: width, cache hint, release scope (Table 3.8, R151). -/
structure StMod where
  wid : Wid
  ch : CacheHint
  rel : Option Scope
  deriving DecidableEq, Repr

/-- Fields of an atomic: width, operator, type, ordering (R171). -/
structure AtMod where
  wid : Wid
  op : AOp
  ty : ATy
  ord : AOrd
  deriving DecidableEq, Repr

/-- An overlay operand: an ID in I, or a v register when IND is set (R112). -/
inductive OvSel where
  | id (n : BitVec 8)
  | reg (r : VReg)
  deriving DecidableEq, Repr

/-- Source of MOV: a source operand or a q register (R98). -/
inductive MovSrc where
  | src (a : Src)
  | q (r : QReg)
  deriving DecidableEq, Repr

/-- One side of a copy: an object through a capability and an index register, or a scratchpad address
register (R184, R185). -/
inductive CpySide where
  | obj (cap : AReg) (off : VReg)
  | spad (addr : VReg)
  deriving DecidableEq, Repr

/-- COP: the combine operator of CPYS (R184). -/
inductive CopOp where
  | addI | addF | maxI | maxF
  deriving DecidableEq, Repr

/-- FENCE KIND (Table 3.8). -/
inductive FenceKind where
  | acq | rel | full
  deriving DecidableEq, Repr

/-- Operands of format Q (R74): signing q register, plane address (or P64 tile), fragment (or address pair),
tile, lane-mask register, barrier waited on and barrier arrived on. -/
structure QOps where
  q : QReg
  a : VReg
  b : VReg
  c : VReg
  mask : VReg
  bwt : Option VReg
  bar : Option VReg
  deriving DecidableEq, Repr

/-- The scopes of COMMIT (R178). -/
inductive CommitScope where
  | t | b | g | p
  deriving DecidableEq, Repr

/-! ### Operands of events -/

/-- A thread: the block slot of its block and its TIDX. -/
structure ThreadId where
  slot : Nat
  tidx : Nat
  deriving DecidableEq, Repr

/-- A mailbox or management request's header: function (0 is the PF, 1 to 16 the VFs), context, tag (R404). -/
structure Req where
  fn : Nat
  ctx : Nat
  tag : BitVec 18
  deriving DecidableEq, Repr

/-- Where the dispatcher places a block: its block slot, cluster, cores and the core and partition of each
wave (R230, R283, R347). -/
structure Placement where
  slot : Nat
  cluster : Nat
  cores : List Nat
  waves : List (Nat × Nat)
  deriving DecidableEq, Repr

/-- Arguments of request 0x01 (R396). -/
structure BulkReg where
  obj : Nat
  off : Nat
  logn : Nat
  engine : Nat
  winObj : Nat
  winOff : Nat
  winCount : Nat
  deriving DecidableEq, Repr

/-- Arguments of request 0x02 (R400), with the offset of the sealed image's header (R433). -/
structure StorageReg where
  k : Nat
  obj : Nat
  mkey : Nat
  skey : Nat
  dataOff : Nat
  tagOff : Nat
  nchunk : Nat
  imageId : BitVec 64
  hdrOff : Nat
  deriving DecidableEq, Repr

/-- Arguments of request 0x05 (R409). -/
structure BucketReg where
  idx : Nat
  cad : Nat
  ty : Nat
  opr : Nat
  obj : Nat
  off : Nat
  len : Nat
  expect : Nat
  seq : BitVec 32
  seqInc : BitVec 32
  sigen : Bool
  group : Nat
  sidx : Nat
  deriving DecidableEq, Repr

/-- Arguments of request 0x07 (R355): the capability's fields, the window stated in bytes, and the granule
it is written to. -/
structure MintReg where
  obj : Nat
  rights : BitVec 8
  cursor : Nat
  e : Nat
  lo : Nat
  len : Nat
  base : Nat
  size : Nat
  dstObj : Nat
  dstOff : Nat
  deriving DecidableEq, Repr

/-- Arguments of request 0x08 (R377): the object, the version opened, its level-1 table and leaf tables, its
frames, and the object memory it is filled from. -/
structure PublishReg where
  obj : Nat
  ver : Nat
  l1 : Nat
  leaves : List Nat
  frames : List Nat
  srcObj : Nat
  srcOff : Nat
  deriving DecidableEq, Repr

/-- A firmware edit of a table under the invalidation of R365: a page entry or an object entry. -/
inductive TableEdit where
  | page (obj pageNo : Nat) (entry : BitVec 64)
  | object (obj : Nat) (entry : BitVec 512)
  /-- HOLD of a version (R375). -/
  | hold (obj ver : Nat) (on : Bool)
  deriving DecidableEq, Repr

/-- A parameter of a context (Table 18.1, R269, R299, Table 1.5). -/
inductive CtxParam where
  | clusters (m : List Nat)
  | handler (ovid : Option (BitVec 8))
  | drainLim (n : Nat)
  | runOn (n : Nat)
  | swapLim (n : Nat)
  | hangLim (n : Nat)
  | saveArea (base bytes : Nat)
  | dumpArea (a : Option (Nat × Nat × Nat))
  | quota (n : Nat)
  | stgLim (n : Nat)
  | istoreQuota (core n : Nat)
  | step (w : Word)
  deriving DecidableEq, Repr

/-- The queues with a doorbell (R405). A fault queue goes by its context. -/
inductive QueueKind where
  | launch | bulk | fault
  deriving DecidableEq, Repr

/-- What CONTEXT_CREATE is given (R379): the bases of the object table and of the event counters, and the
functions bound to the context. -/
structure CtxNew where
  otBase : Nat
  otLen : Nat
  evBase : Nat
  fns : List Nat
  params : List CtxParam
  deriving DecidableEq, Repr

/-- A code object's overlay as registered (R264, R276): the entry's 64 bytes with the tag of SRC, and for a
public overlay the vendor's signature. -/
structure OverlayReg where
  ovid : BitVec 8
  entry : BitVec 512
  srcTag : Bool
  sig : List (BitVec 8)
  deriving DecidableEq, Repr

/-- A configuration record (R431, Table 21.6). -/
inductive ConfigSetting where
  | staging (halfGiB : Nat)
  | replayN (n : Nat)
  | plim (mW : Nat)
  | tthr (deg : Nat)
  | quota (n : Nat)
  | stgLim (n : Nat)
  | publicRegion (units : Nat)
  | istoreQuota (units : Nat)
  | ctxDefault (p : CtxParam)
  | repair (part : Nat) (lane : Option Nat)
  deriving DecidableEq, Repr

/-- A signed configuration record as written by request 0x07 (R431). -/
structure ConfigRecord where
  setting : ConfigSetting
  version : Nat
  counter : Nat
  keyHash : BitVec 256
  sig : List (BitVec 8)
  deriving DecidableEq, Repr

/-- One bulk-path entry arriving from a remote device (R288): a record or a marker as 128-bit halves. -/
structure RemoteBin where
  srcDev : Nat
  entries : List (BitVec 128)
  deriving DecidableEq, Repr

/-- One step of the part. `Hdr` comes first in every instruction; the event constructors follow UDF. -/
inductive Instr where
  -- CTL (R112)
  | nop (h : Hdr)
  | bra (h : Hdr) (off : Word)
  | brx (h : Hdr) (a : VReg)
  | call (h : Hdr) (d : VReg) (off : Word)
  | ret (h : Hdr) (a : VReg)
  | callo (h : Hdr) (d : VReg) (o : OvSel) (entry : BitVec 15)
  | jmpo (h : Hdr) (o : OvSel) (entry : BitVec 15)
  | exit (h : Hdr)
  | yield (h : Hdr)
  | trap (h : Hdr) (code : BitVec 16)
  | bkpt (h : Hdr) (code : BitVec 16)
  | twait (h : Hdr) (a : Src)
  | ovld (h : Hdr) (d : VReg) (o : OvSel)
  | ovrel (h : Hdr) (o : OvSel)
  | ovq (h : Hdr) (d : VReg) (o : OvSel)
  -- INT (R92)
  | iadd (h : Hdr) (d : VReg) (a b : Src)
  | isub (h : Hdr) (d : VReg) (a b : Src)
  | imul (h : Hdr) (d : VReg) (a b : Src)
  | imulh (h : Hdr) (ns : Bool) (d : VReg) (a b : Src)
  | imulw (h : Hdr) (ns : Bool) (d : VReg) (a b : Src)
  | imad (h : Hdr) (ns : Bool) (d : VReg) (a b c : Src)
  | imin (h : Hdr) (ns : Bool) (d : VReg) (a b : Src)
  | imax (h : Hdr) (ns : Bool) (d : VReg) (a b : Src)
  | iabs (h : Hdr) (d : VReg) (a : Src)
  | iadds (h : Hdr) (ns : Bool) (d : VReg) (a b : Src)
  | isubs (h : Hdr) (ns : Bool) (d : VReg) (a b : Src)
  | and (h : Hdr) (d : VReg) (a b : Src)
  | or (h : Hdr) (d : VReg) (a b : Src)
  | xor (h : Hdr) (d : VReg) (a b : Src)
  | andn (h : Hdr) (d : VReg) (a b : Src)
  | shl (h : Hdr) (d : VReg) (a b : Src)
  | shr (h : Hdr) (d : VReg) (a b : Src)
  | sar (h : Hdr) (d : VReg) (a b : Src)
  | bfe (h : Hdr) (ns : Bool) (d : VReg) (a b : Src)
  | bfi (h : Hdr) (d : VReg) (a b c : Src)
  | popc (h : Hdr) (d : VReg) (a : Src)
  | clz (h : Hdr) (d : VReg) (a : Src)
  | brev (h : Hdr) (d : VReg) (a : Src)
  | iadd64 (h : Hdr) (d : VReg) (a b : Src)
  | isub64 (h : Hdr) (d : VReg) (a b : Src)
  | shl64 (h : Hdr) (d : VReg) (a b : Src)
  | shr64 (h : Hdr) (d : VReg) (a b : Src)
  | sar64 (h : Hdr) (d : VReg) (a b : Src)
  -- PRD (R95 to R98)
  | cmpi (h : Hdr) (ns : Bool) (cmp : Cmp) (comb : Comb) (d : PReg) (a b : Src)
  | cmpf (h : Hdr) (ftz nan : Bool) (cmp : Cmp) (comb : Comb) (d : PReg) (a b : Src)
  | cmpd (h : Hdr) (ftz nan : Bool) (cmp : Cmp) (comb : Comb) (d : PReg) (a b : Src)
  | cmph (h : Hdr) (ftz nan : Bool) (cmp : Cmp) (comb : Comb) (d : PReg) (a b : Src)
  | pfun (h : Hdr) (d a b c : PReg) (table : BitVec 8)
  | sel (h : Hdr) (d : VReg) (a b : Src) (c : PReg)
  | mov (h : Hdr) (d : VReg) (a : MovSrc)
  | movi (h : Hdr) (d : VReg) (x : Word)
  | ptov (h : Hdr) (d : VReg)
  | vtop (h : Hdr) (a b : Src)
  | srd (h : Hdr) (d : VReg) (idx : BitVec 8)
  | swr (h : Hdr) (idx : BitVec 8) (a : RC)
  -- WAV (R99)
  | ballot (h : Hdr) (mask : Word) (d : VReg) (a : PReg)
  | vote (h : Hdr) (mask : Word) (op : VoteOp) (d : PReg) (a : PReg)
  | shfl (h : Hdr) (mask : Word) (op : ShflOp) (d : VReg) (a : Src) (b : RC)
  | wred (h : Hdr) (mask : Word) (op : WOp) (d : VReg) (a : Src)
  | wscan (h : Hdr) (mask : Word) (op : WOp) (excl : Bool) (d : VReg) (a : Src)
  | matchEq (h : Hdr) (mask : Word) (d : VReg) (a : Src)
  | wsync (h : Hdr) (mask : Word)
  -- FLT (R124)
  | fadd (h : Hdr) (m : FMod) (d : VReg) (a b : Src)
  | fsub (h : Hdr) (m : FMod) (d : VReg) (a b : Src)
  | fmul (h : Hdr) (m : FMod) (d : VReg) (a b : Src)
  | ffma (h : Hdr) (m : FMod) (d : VReg) (a b c : Src)
  | fmin (h : Hdr) (m : FMod) (d : VReg) (a b : Src)
  | fmax (h : Hdr) (m : FMod) (d : VReg) (a b : Src)
  | frcp (h : Hdr) (m : FMod) (d : VReg) (a : Src)
  | frsq (h : Hdr) (m : FMod) (d : VReg) (a : Src)
  | fsqrt (h : Hdr) (m : FMod) (d : VReg) (a : Src)
  | fdiv (h : Hdr) (m : FMod) (d : VReg) (a b : Src)
  | fexp2 (h : Hdr) (m : FMod) (d : VReg) (a : Src)
  | flog2 (h : Hdr) (m : FMod) (d : VReg) (a : Src)
  | frnd (h : Hdr) (m : FMod) (d : VReg) (a : Src)
  | fcls (h : Hdr) (m : FMod) (d : VReg) (a : Src)
  | dadd (h : Hdr) (m : FMod) (d : VReg) (a b : Src)
  | dmul (h : Hdr) (m : FMod) (d : VReg) (a b : Src)
  | dfma (h : Hdr) (m : FMod) (d : VReg) (a b c : Src)
  | dmin (h : Hdr) (m : FMod) (d : VReg) (a b : Src)
  | dmax (h : Hdr) (m : FMod) (d : VReg) (a b : Src)
  | ddiv (h : Hdr) (m : FMod) (d : VReg) (a b : Src)
  | dsqrt (h : Hdr) (m : FMod) (d : VReg) (a : Src)
  | hadd2 (h : Hdr) (m : FMod) (d : VReg) (a b : Src)
  | hmul2 (h : Hdr) (m : FMod) (d : VReg) (a b : Src)
  | hfma2 (h : Hdr) (m : FMod) (d : VReg) (a b c : Src)
  | hmin2 (h : Hdr) (m : FMod) (d : VReg) (a b : Src)
  | hmax2 (h : Hdr) (m : FMod) (d : VReg) (a b : Src)
  | badd2 (h : Hdr) (m : FMod) (d : VReg) (a b : Src)
  | bmul2 (h : Hdr) (m : FMod) (d : VReg) (a b : Src)
  | bfma2 (h : Hdr) (m : FMod) (d : VReg) (a b c : Src)
  | bmin2 (h : Hdr) (m : FMod) (d : VReg) (a b : Src)
  | bmax2 (h : Hdr) (m : FMod) (d : VReg) (a b : Src)
  -- CNV (R135)
  | cvt (h : Hdr) (m : FMod) (dfmt sfmt : Fmt) (su du : Bool) (d : VReg) (a : Src)
  | cvt2 (h : Hdr) (m : FMod) (dfmt sfmt : Fmt) (d : VReg) (a b : Src)
  | qe4 (h : Hdr) (m : FMod) (d : VReg) (a : VReg) (b : Src)
  | qe2 (h : Hdr) (m : FMod) (hi : Bool) (d : VReg) (a : VReg) (b c : Src)
  | dq (h : Hdr) (m : FMod) (dfmt sfmt : Fmt) (el : BitVec 3) (d : VReg) (a b : Src)
  | bscale (h : Hdr) (fmt : Fmt) (spec : BitVec 5) (d : VReg) (a : Src)
  -- MEM (R151)
  | ld (h : Hdr) (m : LdMod) (d : VReg) (x : CapAddr)
  | st (h : Hdr) (m : StMod) (x : CapAddr) (c : RC)
  | ldl (h : Hdr) (m : LdMod) (d : VReg) (x : LocAddr)
  | stl (h : Hdr) (m : StMod) (x : LocAddr) (c : RC)
  | lda (h : Hdr) (wid : Wid) (d : VReg) (x : LocAddr)
  | sta (h : Hdr) (wid : Wid) (x : LocAddr) (c : RC)
  | ldage (h : Hdr) (d : VReg) (x : CapAddr)
  | ldc (h : Hdr) (d : AReg) (x : CapAddr)
  | stc (h : Hdr) (x : CapAddr) (c : AReg)
  | prf (h : Hdr) (x : CapAddr)
  | cst (h : Hdr) (m : StMod) (x : CapAddr) (c : RC) (mask : VReg)
  | xld (h : Hdr) (m : LdMod) (d : VReg) (x : CapAddr) (mask : VReg)
  -- CAP (R164)
  | capoff (h : Hdr) (d a : AReg) (b : Src)
  | capadd (h : Hdr) (d a : AReg) (b : Src)
  | capnar (h : Hdr) (d a : AReg) (b : Src)
  | caprgt (h : Hdr) (d a : AReg) (b : Src)
  | capget (h : Hdr) (fld : BitVec 3) (d : VReg) (a : AReg)
  | capchk (h : Hdr) (d : PReg) (a : AReg) (b : Src)
  | capmov (h : Hdr) (d a : AReg)
  -- ATM (R171)
  | atom (h : Hdr) (m : AtMod) (d : Option VReg) (x : CapAddr) (c : RC)
  | atomf (h : Hdr) (m : AtMod) (d : VReg) (x : CapAddr) (c : RC)
  | cas (h : Hdr) (wid : Wid) (ord : AOrd) (d : VReg) (x : CapAddr) (c : RC)
  | cas128 (h : Hdr) (ord : AOrd) (d : VReg) (x : CapAddr) (c : VReg)
  | red (h : Hdr) (m : AtMod) (x : CapAddr) (c : RC)
  | redf (h : Hdr) (m : AtMod) (x : CapAddr) (c : RC)
  | atoml (h : Hdr) (m : AtMod) (d : VReg) (x : LocAddr) (c : RC)
  | casl (h : Hdr) (wid : Wid) (ord : AOrd) (d : VReg) (x : LocAddr) (c : RC)
  -- DEF (R178 to R183)
  | commitT (h : Hdr) (d : VReg)
  | commitB (h : Hdr) (d : VReg)
  | commitG (h : Hdr) (d : VReg)
  | commitP (h : Hdr) (d : VReg) (group : BitVec 16)
  | dage (h : Hdr) (x : CapAddr) (c : Src)
  | stepinc (h : Hdr) (d : Option VReg)
  | dqry (h : Hdr) (d : VReg)
  -- ASY (R184 to R193)
  | cpy (h : Hdr) (t : VReg) (dst src : CpySide) (cnt : VReg) (rsc : Scope)
  | cpyRing (h : Hdr) (t ring : VReg) (scap : AReg) (soff cnt : VReg) (rsc : Scope)
  | cpyg (h : Hdr) (t : VReg) (dst : CpySide) (scap : AReg) (soff idx cnt : VReg) (esz : BitVec 4) (rsc : Scope)
  | cpys (h : Hdr) (t : VReg) (comb : Option CopOp) (dcap : AReg) (doff : VReg) (src : CpySide) (idx cnt : VReg) (esz : BitVec 4) (rsc : Scope)
  | cpyq (h : Hdr) (t : VReg) (a : AReg) (q p : VReg)
  | rinit (h : Hdr) (x : LocAddr) (c : VReg)
  | rres (h : Hdr) (d : VReg) (x : LocAddr)
  | rpub (h : Hdr) (x : LocAddr) (c : VReg)
  | rwait (h : Hdr) (d : VReg) (x : LocAddr)
  | rrel (h : Hdr) (x : LocAddr) (c : VReg)
  -- SYN (R194 to R197)
  | binit (h : Hdr) (x : LocAddr) (c : VReg)
  | barv (h : Hdr) (d : Option VReg) (x : LocAddr)
  | bwait (h : Hdr) (x : LocAddr) (c : VReg)
  | barw (h : Hdr) (d : Option VReg) (x : LocAddr)
  | fence (h : Hdr) (kind : FenceKind) (scope : Scope)
  | grow (h : Hdr) (d : VReg) (a : Src)
  -- MTX (R218)
  | mma (h : Hdr) (fmt : Fmt) (prec : BitVec 4) (o : QOps)
  | mmb (h : Hdr) (fmt : Fmt) (prec : BitVec 4) (o : QOps)
  | mscale (h : Hdr) (fmt : Fmt) (sa sb : BitVec 2) (o : QOps)
  | mwait (h : Hdr) (d : Option VReg) (q : QReg)
  | plane (h : Hdr) (fmt : Fmt) (tr : Bool) (sg : BitVec 2) (q : QReg) (a b mask : VReg)
  | azero (h : Hdr) (p64 : Bool) (q : QReg) (a mask : VReg)
  | acvt (h : Hdr) (fmt : Fmt) (sg : BitVec 2) (q : QReg) (a b mask : VReg)
  | amovOut (h : Hdr) (p64 : Bool) (q : QReg) (a b mask : VReg)
  | amovIn (h : Hdr) (p64 : Bool) (q : QReg) (a b mask : VReg)
  | fenceo (h : Hdr)
  | bld (h : Hdr) (fmt : Fmt) (sg : BitVec 2) (d : VReg) (x : LocAddr)
  -- SYS (R121 to R123)
  | eret (h : Hdr)
  | eretSkip (h : Hdr)
  | tinfo (h : Hdr) (word : BitVec 3) (d : VReg)
  | udf (raw : IWord)
  -- issue selection and landing (R84, R133, R235, R240)
  | regroup (part : Nat)
  | threadAged (t : ThreadId)
  | yieldExpiry (t : ThreadId)
  | loadResultLand (t : ThreadId) (k : Nat)
  | xpipeComplete (t : ThreadId) (k : Nat)
  -- overlays, copies, matrix operations (R187, R210, R266, R394)
  | overlayLoadComplete (core k : Nat)
  | overlayRoomWaitEnd (core : Nat)
  | copyChunkPart (engine req chunk : Nat)
  | copyComplete (engine req : Nat)
  | matrixOpStart (slot wave : Nat) (q : QReg)
  | matrixOpComplete (slot wave : Nat) (q : QReg)
  -- faults and staging stalls (R247, R299, R370)
  | faultRecordPost (cluster k : Nat)
  | faultResume (t : ThreadId)
  | stgfullTimeout (t : ThreadId)
  | stagingRoomFreed (t : ThreadId)
  -- the record path (R283 to R294)
  | markerForm (commit : Nat)
  | logDrain (core k : Nat)
  | slotBindingNotice (die slot : Nat) (unbind : Bool)
  | binShip (die path : Nat)
  | remoteRebin (die : Nat) (bin : RemoteBin)
  | binStage (chan k stack : Nat)
  | markerApply (commit chan : Nat)
  | commitComplete (commit : Nat)
  -- launches (R339 to R352)
  | packetFetch (queue : Nat) (argObj : BitVec 24)
  | launchStart (launch lnum : Nat)
  | dispatchPass (launch : Nat) (pl : List Placement)
  | reserving (launch : Nat)
  | blockStart (slot : Nat)
  | fatalTrapEnd (launch : Nat)
  | launchComplete (launch : Nat)
  -- doorbells and mailbox (R404, R405)
  | doorbellLaunchQueue (fn k : Nat) (x : BitVec 64)
  | doorbellBulkQueue (fn k : Nat) (x : BitVec 64)
  | doorbellFaultQueue (fn k : Nat) (x : BitVec 64)
  | doorbellUnbound (fn k : Nat) (x : BitVec 64)
  | registerBulkQueue (r : Req) (x : BulkReg)
  | registerStorageWindow (r : Req) (x : StorageReg)
  | fillApertureWindow (r : Req) (k obj off : Nat)
  | registerPodGroup (r : Req) (group : Nat) (members : List Nat)
  | registerBucket (r : Req) (x : BucketReg)
  | resolve (r : Req) (obj page : Nat)
  | mintCapability (r : Req) (x : MintReg)
  | publishVersion (r : Req) (x : PublishReg)
  | registerFaultQueue (r : Req) (addr logn : Nat)
  | registerLaunchQueue (r : Req) (addr logn : Nat)
  | mailboxRefused (r : Req) (code : BitVec 8)
  -- bulk packets, aperture, storage window (R397 to R403)
  | bulkPacketFetch (queue : Nat)
  | bulkPacketComplete (engine req : Nat)
  | hostApertureRead (fn win off n : Nat)
  | hostApertureWrite (fn win off : Nat) (bytes : List (BitVec 8))
  | hostReadTimeout (k : Nat)
  | storageWindowWrite (fn off : Nat) (bytes : List (BitVec 8))
  | storageWindowRead (fn off n : Nat)
  -- fabric and collectives (R407 to R413)
  | flitReceive (port : Nat) (flit : BitVec 2048)
  | flitRetransmit (port : Nat)
  | linkDown (port : Nat) (routes : List (Nat × Nat))
  | heartbeatSend (group : Nat)
  | memberFailed (group dev : Nat)
  | bucketStep (bucket : Nat)
  | bucketExchangeStart (bucket : Nat)
  | bucketExchangeDone (bucket : Nat) (parts : List (Nat × List (BitVec 8)))
  -- firmware on tables, weight store (R365, R373, R378)
  | invalidation (ctx : Nat) (e : TableEdit)
  | migration (ctx obj page newFrame : Nat)
  | refreshWindow (die : Nat)
  | refreshWindowEnd (die : Nat)
  -- pre-emption, contexts, hangs (R379 to R393)
  | preemptRequest (ctx : Nat) (clusters : List Nat)
  | runonExpiry (t : ThreadId)
  | blockSave (slot : Nat)
  | contextSwitch (cluster : Nat) (ctx : Option Nat)
  | ptimeout (ctx : Nat)
  | swapOut (slot : Nat)
  | swapAbandon (slot : Nat)
  | blockResume (slot cluster : Nat)
  | hang (ctx : Nat)
  | contextCreate (ctx : Nat) (x : CtxNew)
  | contextDestroy (ctx : Nat)
  | queueRemove (kind : QueueKind) (queue : Nat)
  | overlayRegister (ctx : Nat) (x : OverlayReg)
  -- reliability, firmware, power (R418 to R439)
  | launchReplay (launch : Nat)
  | timingReplay (part : Nat)
  | patrolScrub (addr : Nat)
  | deviceReset
  | firmwareBoot (image sig : List (BitVec 8)) (version : Nat)
  | powerLimit (code : BitVec 8) (reading gate : Nat)
  | thermalThrottle (reading gate : Nat)
  | thermalTrip (reading : Nat)
  | tripResetTimeout
  | readEventLog (r : Req) (index : Nat)
  | readSensors (r : Req)
  | setPlim (r : Req) (mW : Nat)
  | importKey (r : Req) (slot kind : Nat) (wrapped : List (BitVec 8))
  | zeroKeySlot (r : Req) (slot : Nat)
  | attestationReport (r : Req) (nonce : BitVec 256)
  | writeConfigRecord (r : Req) (x : ConfigRecord)
  | sealRange (r : Req) (obj off nchunk skey mkey dstObj dstOff : Nat) (imageId : BitVec 64)
  | rebaseStamps (r : Req) (obj off len : Nat) (sstep : BitVec 16)
  | laneSelfTest (r : Req) (cluster : Nat)
  | readRepairMap (r : Req)
  | readStaging (r : Req)
  | managementRefused (r : Req) (code : BitVec 8)
  | throttleRelease (reading : Nat)
  | correctedErrorEvent (count store : Nat)
  | contextRecordUpdate (ctx : Nat) (p : CtxParam)
  deriving DecidableEq, Repr

end Sys2Proof
end

