-- ==== Sys2Proof/Machine/Num.lean ====
section
/-! DEFINITION. Number formats and exact arithmetic (spec/02_number_formats.md). A value is exact: NaN, an
infinity, or a signed m × 2^e; `roundTo` is the one rounding (R46). Flags are FPX bits (Table 1.3). -/

namespace Sys2Proof.Machine

open Sys2Proof

/-- Flags raised by an operation, in the layout of FPX (R19). -/
abbrev Flags := BitVec 8

def flagIX : Flags := 1
def flagUF : Flags := 2
def flagOF : Flags := 4
def flagDZ : Flags := 8
def flagIV : Flags := 16
def flagNFR : Flags := 32

/-- A flag when a condition holds. -/
def flagIf (c : Bool) (f : Flags) : Flags := if c then f else 0

/-- Rounding modes (R41). -/
inductive Rnd where
  | rn | rz | ru | rd
  deriving DecidableEq, Repr

def Rnd.ofBits (b : BitVec 2) : Rnd :=
  if b = 0 then .rn else if b = 1 then .rz else if b = 2 then .ru else .rd

/-- An exact value: NaN, ±∞, or ±m × 2^e (a signed zero when m = 0). -/
inductive Num where
  | nan
  | inf (neg : Bool)
  | fin (neg : Bool) (m : Nat) (e : Int)
  deriving DecidableEq, Repr

/-- Parameters of a floating-point format (Table 2.2): exponent bits, fraction bits, bias, whether an all-ones
exponent is special as in IEEE 754, and the largest finite magnitude maxM × 2^maxE. -/
structure FF where
  eb : Nat
  fb : Nat
  bias : Nat
  ieee : Bool
  maxM : Nat
  maxE : Int
  deriving DecidableEq, Repr

def fp64 : FF := ⟨11, 52, 1023, true, 2 ^ 53 - 1, 971⟩
def fp32 : FF := ⟨8, 23, 127, true, 2 ^ 24 - 1, 104⟩
def fp16 : FF := ⟨5, 10, 15, true, 2 ^ 11 - 1, 5⟩
def bf16 : FF := ⟨8, 7, 127, true, 2 ^ 8 - 1, 120⟩
def e4m3 : FF := ⟨4, 3, 7, false, 7, 6⟩
def e2m1 : FF := ⟨2, 1, 1, false, 3, 1⟩

/-- Smallest normal exponent. -/
def FF.emin (f : FF) : Int := 1 - f.bias
/-- Weight of the last kept bit at the smallest normal exponent. -/
def FF.qmin (f : FF) : Int := f.emin - f.fb

/-- 2^n as a natural for an integer n (0 when negative). -/
def pow2 (n : Int) : Nat := 2 ^ n.toNat

/-- The value of an encoding (R33, R35, R36 for ordinary codes). -/
def FF.decode (f : FF) (x : Nat) : Num :=
  let neg := (x >>> (f.eb + f.fb)) % 2 = 1
  let ef := (x >>> f.fb) % 2 ^ f.eb
  let fr := x % 2 ^ f.fb
  if f.ieee ∧ ef = 2 ^ f.eb - 1 then (if fr = 0 then .inf neg else .nan)
  else if f.fb = 3 ∧ f.eb = 4 ∧ ef = 15 ∧ fr = 7 then .nan
  else if ef = 0 then .fin neg fr f.qmin
  else .fin neg (fr + 2 ^ f.fb) (f.qmin + ef - 1)

/-- A signalling NaN: a NaN whose most significant fraction bit is 0 (R33). -/
def FF.signalling (f : FF) (x : Nat) : Bool :=
  f.ieee && (x >>> f.fb) % 2 ^ f.eb == 2 ^ f.eb - 1 && x % 2 ^ f.fb != 0 && (x >>> (f.fb - 1)) % 2 == 0

/-- The canonical NaN (Table 2.2). -/
def FF.canonNaN (f : FF) : Nat :=
  if f.ieee then (2 ^ f.eb - 1) * 2 ^ f.fb + 2 ^ (f.fb - 1) else 2 ^ (f.eb + f.fb) - 1

/-- The encoding of a value the format holds exactly. -/
def FF.encode (f : FF) : Num → Nat
  | .nan => f.canonNaN
  | .inf neg => (if neg then 2 ^ (f.eb + f.fb) else 0) + (2 ^ f.eb - 1) * 2 ^ f.fb
  | .fin neg m e =>
    let s := if neg then 2 ^ (f.eb + f.fb) else 0
    if m = 0 then s
    else
      let ex : Int := Nat.log2 m + e
      if ex < f.emin then s + (if e ≥ f.qmin then m * pow2 (e - f.qmin) else m / pow2 (f.qmin - e))
      else
        let sig := if e ≥ ex - f.fb then m * pow2 (e - (ex - f.fb)) else m / pow2 (ex - f.fb - e)
        s + (ex - f.emin + 1).toNat * 2 ^ f.fb + (sig - 2 ^ f.fb)

/-- RoundInt (R46) of m / 2^k. -/
def roundShift (m k : Nat) (mode : Rnd) (neg : Bool) : Nat :=
  let fl := m >>> k
  let r := m % 2 ^ k
  match mode with
  | .rn => if 2 * r > 2 ^ k ∨ (2 * r = 2 ^ k ∧ fl % 2 = 1) then fl + 1 else fl
  | .rz => fl
  | .ru => if neg ∨ r = 0 then fl else fl + 1
  | .rd => if neg ∧ r ≠ 0 then fl + 1 else fl

/-- m × 2^e rounded to a multiple of 2^q, as a count of 2^q, and whether it is exact. -/
def roundAt (m : Nat) (e q : Int) (mode : Rnd) (neg : Bool) : Nat × Bool :=
  if e ≥ q then (m * pow2 (e - q), true)
  else (roundShift m (q - e).toNat mode neg, m % pow2 (q - e) == 0)

/-- a × 2^ea < b × 2^eb. -/
def ltDyadic (a : Nat) (ea : Int) (b : Nat) (eb : Int) : Bool :=
  if ea ≥ eb then a * pow2 (ea - eb) < b else a < b * pow2 (eb - ea)

/-- Overflow (R42): the delivered value and OF, IX. -/
def overflow (f : FF) (mode : Rnd) (neg : Bool) : Num × Flags :=
  let toInf := match mode with
    | .rn => true
    | .rz => false
    | .ru => !neg
    | .rd => neg
  (if toInf then (if f.ieee then .inf neg else .nan) else .fin neg f.maxM f.maxE, flagOF ||| flagIX)

/-- Round without the test against fmt.max when `cap` is false (R46, R55). -/
def roundCap (f : FF) (mode : Rnd) (ftz cap : Bool) : Num → Num × Flags
  | .nan => (.nan, 0)
  | .inf neg => if f.ieee then (.inf neg, 0) else (.nan, flagIV)
  | .fin neg m e =>
    if m = 0 then (.fin neg 0 0, 0)
    else
      let ex : Int := Nat.log2 m + e
      let q := max ex f.emin - f.fb
      let (y, exact) := roundAt m e q mode neg
      let (yu, _) := roundAt m e (ex - f.fb) mode neg
      let tiny := ltDyadic yu (ex - f.fb) 1 f.emin
      let fl := flagIf (!exact) flagIX ||| flagIf (tiny && !exact) flagUF
      if ftz && tiny then (.fin neg 0 0, fl ||| flagUF ||| flagIX)
      else if cap && ltDyadic f.maxM f.maxE y q then overflow f mode neg
      else if y = 0 then (.fin neg 0 0, fl)
      else (.fin neg y q, fl)

/-- Round (R46). -/
def roundTo (f : FF) (mode : Rnd) (ftz : Bool) (x : Num) : Num × Flags := roundCap f mode ftz true x

/-- RNE (R46). -/
def rne (f : FF) (x : Num) : Num := (roundTo f .rn false x).1

def Num.isNaN : Num → Bool
  | .nan => true
  | _ => false

def Num.isInf : Num → Bool
  | .inf _ => true
  | _ => false

def Num.isZero : Num → Bool
  | .fin _ 0 _ => true
  | _ => false

/-- The sign; a NaN counts as positive. -/
def Num.sign : Num → Bool
  | .nan => false
  | .inf n => n
  | .fin n _ _ => n

def Num.neg : Num → Num
  | .nan => .nan
  | .inf n => .inf (!n)
  | .fin n m e => .fin (!n) m e

def Num.abs : Num → Num
  | .nan => .nan
  | .inf _ => .inf false
  | .fin _ m e => .fin false m e

/-- A finite value as an integer multiple of 2^e, for an e no larger than its own exponent. -/
def scaled (neg : Bool) (m : Nat) (em e : Int) : Int :=
  if neg then -(m * pow2 (em - e) : Nat) else (m * pow2 (em - e) : Nat)

/-- The value z × 2^e with a given sign for zero. -/
def ofScaled (z : Int) (e : Int) (zneg : Bool) : Num :=
  if z = 0 then .fin zneg 0 0 else .fin (z < 0) z.natAbs e

/-- Exact sum of two finite values; an exact zero takes the sign of R42. -/
def addFin (mode : Rnd) (n1 : Bool) (m1 : Nat) (e1 : Int) (n2 : Bool) (m2 : Nat) (e2 : Int) : Num :=
  let e := min e1 e2
  let zneg := if m1 = 0 ∧ m2 = 0 ∧ n1 = n2 then n1 else mode = .rd
  ofScaled (scaled n1 m1 e1 e + scaled n2 m2 e2 e) e zneg

/-- Arith of R126 for a sum: value before rounding and flags. -/
def addNum (mode : Rnd) : Num → Num → Num × Flags
  | .nan, _ => (.nan, 0)
  | _, .nan => (.nan, 0)
  | .inf a, .inf b => if a = b then (.inf a, 0) else (.nan, flagIV)
  | .inf a, .fin _ _ _ => (.inf a, 0)
  | .fin _ _ _, .inf b => (.inf b, 0)
  | .fin n1 m1 e1, .fin n2 m2 e2 => (addFin mode n1 m1 e1 n2 m2 e2, 0)

/-- Exact product; 0 × ∞ gives NaN with IV (R126). -/
def mulNum (a b : Num) : Num × Flags :=
  if (a.isZero && b.isInf) || (a.isInf && b.isZero) then (.nan, flagIV)
  else match a, b with
    | .nan, _ => (.nan, 0)
    | _, .nan => (.nan, 0)
    | .inf n, y => (.inf (n != y.sign), 0)
    | x, .inf n => (.inf (n != x.sign), 0)
    | .fin n1 m1 e1, .fin n2 m2 e2 => (.fin (n1 != n2) (m1 * m2) (e1 + e2), 0)

/-- Operators of R126. -/
inductive ArithOp where
  | add | sub | mul | fma
  deriving DecidableEq, Repr

/-- Arith (R126): one rounding of the exact result. -/
def arith (op : ArithOp) (f : FF) (mode : Rnd) (ftz : Bool) (a b c : Num) : Num × Flags :=
  let (t, fl) := match op with
    | .add => addNum mode a b
    | .sub => addNum mode a b.neg
    | .mul => mulNum a b
    | .fma =>
      let (p, fp) := mulNum a b
      if fp ≠ 0 then (p, fp) else addNum mode p c
  match t with
  | .nan => (.nan, fl)
  | .inf n => (.inf n, fl)
  | .fin n 0 _ => (.fin n 0 0, fl)
  | t => let (r, g) := roundTo f mode ftz t; (r, fl ||| g)

/-- a < b on non-NaN values, with −0 below +0 (R129, R56). -/
def ltTotal : Num → Num → Bool
  | .nan, _ => false
  | _, .nan => false
  | .inf a, .inf b => a && !b
  | .inf a, .fin _ _ _ => a
  | .fin _ _ _, .inf b => !b
  | .fin n1 m1 e1, .fin n2 m2 e2 =>
    let e := min e1 e2
    let x := scaled n1 m1 e1 e
    let y := scaled n2 m2 e2 e
    x < y || (x == y && n1 && !n2)

/-- Numeric comparison: −1, 0 or 1, with −0 = +0 (R96). Both are not NaN. -/
def cmpNum (a b : Num) : Int :=
  match a, b with
  | .fin _ 0 _, .fin _ 0 _ => 0
  | a, b => if ltTotal a b then -1 else if ltTotal b a then 1 else 0

/-- MinMax (R129). -/
def minMax (isMin : Bool) (a b : Num) : Num :=
  if a.isNaN && b.isNaN then .nan
  else if a.isNaN then b
  else if b.isNaN then a
  else if isMin then (if ltTotal b a then b else a) else (if ltTotal a b then b else a)

/-- Src (R125) on a value already read: flush, absolute value, negation. -/
def prep (f : FF) (ftz abs neg : Bool) (x : Nat) : Num :=
  let v := f.decode x
  let v := match v with
    | .fin n m e => if ftz && decide (m < 2 ^ f.fb) then .fin n 0 0 else .fin n m e
    | v => v
  let v := if abs then v.abs else v
  if neg then v.neg else v

/-- Finish (R127): saturation, canonical NaN, NFR. -/
def finish (f : FF) (sat : Bool) (r : Num) (fl : Flags) : Num × Flags :=
  let r := if sat then
      (match r with
       | .nan => .fin false 0 0
       | .inf n => if n then .fin false 0 0 else .fin false 1 0
       | .fin n m e => if n || decide (m = 0) then .fin false 0 0 else if ltDyadic 1 0 m e then .fin false 1 0 else .fin n m e)
    else r
  let _ := f
  (r, fl ||| flagIf (r.isNaN || r.isInf) flagNFR)

/-! ### Correctly rounded long operations (R128)

An inexact quotient, root, power or logarithm lies strictly between two neighbours of a fine grid; it is
given to `roundTo` as the midpoint, which rounds and flags as the exact value does, because every rounding
boundary lies on a coarser grid. -/

/-- x between n × 2^e and (n + 1) × 2^e: exact when `exact`, else the midpoint. -/
def sticky (neg : Bool) (n : Nat) (e : Int) (exact : Bool) : Num :=
  if exact then .fin neg n e else .fin neg (2 * n + 1) (e - 1)

/-- Quotient of two finite values, the divisor not zero. -/
def divFin (n1 : Bool) (m1 : Nat) (e1 : Int) (n2 : Bool) (m2 : Nat) (e2 : Int) : Num :=
  let s := 130 + Nat.log2 m2
  let x := m1 <<< s
  sticky (n1 != n2) (x / m2) (e1 - e2 - s) (x % m2 == 0)

/-- Integer square root by bits: the largest r + Σ 2^i, i < k, whose square is at most n. -/
def isqrtAux (n : Nat) : Nat → Nat → Nat
  | 0, r => r
  | k + 1, r => if (r + 2 ^ k) * (r + 2 ^ k) ≤ n then isqrtAux n k (r + 2 ^ k) else isqrtAux n k r

/-- ⌊√n⌋. -/
def isqrt (n : Nat) : Nat := isqrtAux n (Nat.log2 n / 2 + 1) 0

/-- Square root of a positive finite value. -/
def sqrtFin (m : Nat) (e : Int) : Num :=
  let (m, e) := if e % 2 = 0 then (m, e) else (2 * m, e - 1)
  let x := m <<< 160
  let r := isqrt x
  sticky false r (e / 2 - 80) (r * r == x)

/-- Reciprocal square root of a positive finite value. -/
def rsqrtFin (m : Nat) (e : Int) : Num :=
  let (m, e) := if e % 2 = 0 then (m, e) else (2 * m, e - 1)
  let t := 80 + Nat.log2 m
  let r := isqrt (2 ^ (2 * t) / m)
  sticky false r (-(e / 2) - t) (r * r * m == 2 ^ (2 * t))

/-- Working bits of the power and the logarithm. Log 9. -/
def expBits : Nat := 320
def logBits : Nat := 512

/-- Product of 2^(2^-i) over the set bits of the fraction fr of k bits, highest first, in units of 2^-320. -/
def exp2Frac (fr : Nat) : Nat → Nat → Nat → Nat
  | 0, _, acc => acc
  | k + 1, root, acc =>
    let root := isqrt (root <<< expBits)
    exp2Frac fr k root (if (fr >>> k) % 2 = 1 then (acc * root) >>> expBits else acc)

/-- 2^x of a finite x (R128): exact when x is an integer. -/
def exp2Fin (neg : Bool) (m : Nat) (e : Int) : Num :=
  if ltDyadic m e 1 12 then
    if e ≥ 0 then .fin false 1 (scaled neg m e 0)
    else
      let k := (-e).toNat
      let z : Int := if neg then -(m : Int) else m
      let n := z / (2 ^ k : Nat)
      let fr := (z % (2 ^ k : Nat)).toNat
      if fr = 0 then .fin false 1 n
      else sticky false (exp2Frac fr k (2 ^ (expBits + 1)) (2 ^ expBits)) (n - expBits) false
  else sticky false 1 (if neg then -4096 else 4096) false

/-- Bits of log2 y, 1 < y < 2 in units of 2^-512, by repeated squaring. -/
def log2Frac : Nat → Nat → Nat → Nat
  | 0, _, acc => acc
  | k + 1, y, acc =>
    let y := (y * y) >>> logBits
    if y ≥ 2 ^ (logBits + 1) then log2Frac k (y >>> 1) (2 * acc + 1) else log2Frac k y (2 * acc)

/-- log2 of a positive finite value (R128): exact at a power of two. -/
def log2Fin (m : Nat) (e : Int) : Num :=
  let l := Nat.log2 m
  let ex : Int := l + e
  if m = 2 ^ l then ofScaled ex 0 false
  else
    let fr := log2Frac 200 ((m <<< logBits) >>> l) 0
    let z : Int := 2 * (ex * (2 ^ 200 : Nat) + fr) + 1
    ofScaled z (-201) false

/-- The long operations of R128. -/
inductive LongOp where
  | rcp | rsq | sqrt | exp2 | log2
  deriving DecidableEq, Repr

/-- Table 5.2 and the exact result of a one-operand long operation, before rounding. -/
def longNum (op : LongOp) (x : Num) : Num × Flags :=
  match op, x with
  | _, .nan => (.nan, 0)
  | .rcp, .inf n => (.fin n 0 0, 0)
  | .rcp, .fin n m e => if m = 0 then (.inf n, flagDZ) else (divFin false 1 0 n m e, 0)
  | .rsq, .inf n => if n then (.nan, flagIV) else (.fin false 0 0, 0)
  | .rsq, .fin n m e => if m = 0 then (.inf n, flagDZ) else if n then (.nan, flagIV) else (rsqrtFin m e, 0)
  | .sqrt, .inf n => if n then (.nan, flagIV) else (.inf false, 0)
  | .sqrt, .fin n m e => if m = 0 then (.fin n 0 0, 0) else if n then (.nan, flagIV) else (sqrtFin m e, 0)
  | .exp2, .inf n => if n then (.fin false 0 0, 0) else (.inf false, 0)
  | .exp2, .fin n m e => if m = 0 then (.fin false 1 0, 0) else (exp2Fin n m e, 0)
  | .log2, .inf n => if n then (.nan, flagIV) else (.inf false, 0)
  | .log2, .fin n m e => if m = 0 then (.inf true, flagDZ) else if n then (.nan, flagIV) else (log2Fin m e, 0)

/-- Table 5.2 and the exact quotient. -/
def divNum : Num → Num → Num × Flags
  | .nan, _ => (.nan, 0)
  | _, .nan => (.nan, 0)
  | .inf _, .inf _ => (.nan, flagIV)
  | .inf a, .fin b _ _ => (.inf (a != b), 0)
  | .fin a _ _, .inf b => (.fin (a != b) 0 0, 0)
  | .fin n1 m1 e1, .fin n2 m2 e2 =>
    if m2 = 0 then (if m1 = 0 then (.nan, flagIV) else (.inf (n1 != n2), flagDZ))
    else if m1 = 0 then (.fin (n1 != n2) 0 0, 0)
    else (divFin n1 m1 e1 n2 m2 e2, 0)

/-- One rounding of a value with its flags; NaN, infinities and zeros are delivered as they are. -/
def deliver (f : FF) (mode : Rnd) (ftz : Bool) (x : Num × Flags) : Num × Flags :=
  match x.1 with
  | .fin _ (_ + 1) _ => let (r, g) := roundTo f mode ftz x.1; (r, x.2 ||| g)
  | v => (v, x.2)

/-- FRND (R130). -/
def frndNum (mode : Rnd) : Num → Num
  | .fin n m e => if m = 0 then .fin n 0 0 else .fin n (roundAt m e 0 mode n).1 0
  | v => v

/-! ### Decay, aged words, sums of the engines -/

/-- C(f) of R50: 2^(−f / 2^20) rounded to FP32. -/
def decayC (f : Nat) : Num := if f = 0 then .fin false 1 0 else rne fp32 (exp2Fin true f (-20))

/-- Decay(x, n, L) with the flags of its final rounding (R50, R59). -/
def decay (x : Num) (n L : Nat) : Num × Flags :=
  match x with
  | .nan => (.nan, 0)
  | .inf s => (.inf s, 0)
  | .fin s m e =>
    if n = 0 ∨ L = 0 then (.fin s m e, 0)
    else
      let t := n * L
      match decayC (t % 2 ^ 20) with
      | .fin _ cm ce => roundTo fp32 .rn false (.fin s (m * cm) (e + ce - (t / 2 ^ 20 : Nat)))
      | v => (v, 0)

/-- The value of an FP32 word. -/
def f32 (x : Word) : Num := fp32.decode x.toNat
/-- The FP32 word of a value it holds exactly. -/
def toF32 (x : Num) : Word := BitVec.ofNat 32 (fp32.encode x)

/-- An aged read (R59): value and flags. -/
def agedRead (val : Word) (stamp step : BitVec 16) (L : Nat) : Num × Flags :=
  let x := f32 val
  let age := (step - stamp).toNat
  let (r, fl) := match x with
    | .fin s m _ => if age ≥ 2 ^ 15 then (.fin s 0 0, flagUF ||| flagIf (m != 0) flagIX) else decay x age L
    | v => (v, 0)
  (r, fl ||| flagIf (r.isNaN || r.isInf) flagNFR)

/-- AgedAdd (R59) on a slot of 64 bits: bits [63:48] are written 0 (R58). -/
def agedAdd (slot : DWord) (v : Word) (sr : BitVec 16) (L : Nat) : DWord :=
  let x := f32 (slot.extractLsb' 0 32)
  let s := slot.extractLsb' 32 16
  let d := (sr - s).toInt
  let (y, st) := if d ≥ 0 then (rne fp32 (addNum .rn (decay x d.toNat L).1 (f32 v)).1, sr)
    else (rne fp32 (addNum .rn x (decay (f32 v) (-d).toNat L).1).1, s)
  (0 : BitVec 16) ++ st ++ toF32 y

/-- ⌊log2 |x|⌋ of a non-zero finite value. -/
def Num.exponent : Num → Int
  | .fin _ m e => Nat.log2 m + e
  | _ => 0

/-- AlignTrunc (R47) to a multiple of 2^k, as a count of 2^k. -/
def alignTrunc (k : Int) : Num → Int
  | .fin n m e =>
    let z : Nat := if e ≥ k then m * pow2 (e - k) else m / pow2 (k - e)
    if n then -z else z
  | _ => 0

def isNonZeroFin : Num → Bool
  | .fin _ (_ + 1) _ => true
  | _ => false

/-- The aligned exact sum of R51: terms, exponent of the unit. -/
def alignedSum (ts : List Num) : Int × Int :=
  let ns := ts.filter isNonZeroFin
  let E := (ns.map Num.exponent).foldl max (match ns with | [] => 0 | x :: _ => x.exponent)
  ((ns.map (alignTrunc (E - 40))).foldl (· + ·) 0, E - 40)

/-- WideSum (R51): value and tile flags. -/
def wideSum (ts : List Num) : Num × Flags :=
  if ts.any Num.isNaN then (.nan, flagNFR)
  else if ts.contains (.inf false) && ts.contains (.inf true) then (.nan, flagIV ||| flagNFR)
  else if ts.contains (.inf false) then (.inf false, flagNFR)
  else if ts.contains (.inf true) then (.inf true, flagNFR)
  else if (ts.filter isNonZeroFin).isEmpty then (.fin (ts.all Num.sign) 0 0, 0)
  else
    let (s, k) := alignedSum ts
    if s = 0 then (.fin false 0 0, 0)
    else
      let y := rne fp32 (ofScaled s k false)
      (y, flagIf y.isInf (flagOF ||| flagNFR))

/-! ### Matrix elements (R37 to R40, R48, R49, R52 to R55) -/

/-- Serial planes of a format (Table 3.9). -/
def serialPlanes : Fmt → Nat
  | .int8 => 8
  | .int4 => 4
  | .int2 => 2
  | .fp16 => 11
  | .bf16 => 8
  | .e4m3 => 4
  | .e2m1x => 4
  | _ => 0

/-- Binary point of P64 (Table 2.6). -/
def binPoint : Fmt → Int
  | .e2m1x => -2
  | .e4m3 => -18
  | _ => 0

/-- SpecialImg (R48). -/
def specialImg (w : BitVec 16) : Int :=
  let m : Int := (w.extractLsb' 8 4).toNat
  if w.getLsbD 12 then -m else m

/-- ScaleOf (R48): the exponent, none for NaN. -/
def scaleExp (w : BitVec 16) : Option Int :=
  let e := (w.extractLsb' 0 8).toNat
  if e = 255 then none else some ((e : Int) - 127)

/-- The image of an E2M1X code under a scale word (Table 2.4). -/
def e2m1Img (c : BitVec 4) (w : BitVec 16) : Int :=
  if c = 8 then specialImg w
  else match e2m1.decode c.toNat with
    | .fin n m e => scaled n m e (-1)
    | _ => 0

/-- The significand M and shift of a finite E4M3 code: |image| = M × 2^s (R37). -/
def e4m3Parts (c : BitVec 8) : Nat × Nat :=
  let ef := (c.extractLsb' 3 4).toNat
  let f := (c.extractLsb' 0 3).toNat
  (if ef = 0 then f else f + 8, max ef 1 - 1)

def signed (neg : Bool) (n : Nat) : Int := if neg then -(n : Int) else n

/-- PlaneTrunc of a two's complement image (R49). -/
def truncInt (i : Int) (n p : Nat) : Int := if p ≥ n then i else i / (2 ^ (n - p) : Nat) * (2 ^ (n - p) : Nat)

/-- Truncation of a magnitude to its top p of n bits (R49). -/
def truncMag (m n p : Nat) : Nat := if p ≥ n then m else m / 2 ^ (n - p) * 2 ^ (n - p)

/-- MmaElem (R52): the accumulator, the A values already truncated, the B values. -/
def mmaElem (acc : Num) (a b : List Num) : Num × Flags :=
  let ts := List.zipWith mulNum a b
  let iv := ts.any (fun t => t.2 != 0)
  let (v, f) := wideSum (ts.map (·.1) ++ [acc])
  if iv then (.nan, f ||| flagIV ||| flagNFR) else (v, f)

/-- The partial NaN (R40). -/
def partialNaN : DWord := 0x8000000000000000#64

/-- BlockPartial (R53) on images; an image `none` is an E4M3 NaN. -/
def blockPartial (a b : List (Option Int)) : DWord :=
  if a.contains none || b.contains none then partialNaN
  else w64 ((List.zipWith (fun x y => x.getD 0 * y.getD 0) a b).foldl (· + ·) 0)

/-- MScale (R54). -/
def mScale (acc : Num) (s : DWord) (fmt : Fmt) (wa wb : BitVec 16) : Num × Flags :=
  let scaledFmt := fmt = .e2m1x ∨ fmt = .e4m3
  let sa := if scaledFmt then scaleExp wa else some 0
  let sb := if scaledFmt then scaleExp wb else some 0
  match sa, sb with
  | some ea, some eb =>
    if s = partialNaN || acc.isNaN then (.nan, flagNFR)
    else if acc.isInf then (acc, flagNFR)
    else
      let z := s.toInt
      if z = 0 then (acc, 0)
      else
        let y := match (addNum .rn acc (ofScaled z (binPoint fmt + ea + eb) false)).1 with
          | .fin _ 0 _ => .fin false 0 0
          | t => rne fp32 t
        (y, flagIf y.isInf (flagOF ||| flagNFR))
  | _, _ => (.nan, flagNFR)

/-- One element of QuantBlock and QElem (R55, R142) before the special value: the rounded code value,
saturated, with its flags. -/
def quantElem (f : FF) (x : Num) (e : Nat) : Num × Flags :=
  match x with
  | .fin n m ex =>
    let (c, fl) := roundCap f .rn false false (.fin n m (ex - ((e : Int) - 127)))
    (match c with
     | .fin cn cm ce => if ltDyadic f.maxM f.maxE cm ce then (.fin cn f.maxM f.maxE, fl ||| flagOF ||| flagIX) else (c, fl)
     | v => (v, fl))
  | v => (v, 0)

/-- emax of a block format (R55). -/
def blockEmax (e2 : Bool) : Int := if e2 then 2 else 8

/-- The scale exponent of a block whose largest magnitude is mx (R55, R141). -/
def blockScaleE (e2 : Bool) (mx : Num) : Nat :=
  if mx.isZero then 0 else (max (mx.exponent - blockEmax e2 + 127) 0).toNat

/-- The code of a rounded value; in E2M1 a negative zero is written 0b0000 (R55). -/
def blockCode (e2 : Bool) (c : Num) : Nat :=
  if e2 then (if c.isZero then 0 else e2m1.encode c) else e4m3.encode c

/-- QuantBlock (R55): scale word, codes, flags. -/
def quantBlock (e2 : Bool) (xs : List Num) : BitVec 16 × List Nat × Flags :=
  if xs.any (fun x => x.isNaN || x.isInf) then (0x00FF, xs.map (fun _ => 0), flagIV)
  else
    let mx := xs.foldl (fun a x => if ltTotal a x.abs then x.abs else a) (.fin false 0 0)
    if mx.isZero then (0, xs.map (fun _ => 0), 0)
    else
      let e := blockScaleE e2 mx
      let f := if e2 then e2m1 else e4m3
      let rs := xs.map (fun x => quantElem f x e)
      (BitVec.ofNat 16 e, rs.map (fun r => blockCode e2 r.1), rs.foldl (fun a r => a ||| r.2) 0)

/-- QElem (R142): code and flags. -/
def qElem (e2 : Bool) (x : Num) (w : BitVec 16) : Nat × Flags :=
  let e := (w.extractLsb' 0 8).toNat
  if e = 255 then (0, 0)
  else match x with
    | .fin n m ex =>
      let (c, fl) := quantElem (if e2 then e2m1 else e4m3) x e
      let code := blockCode e2 c
      if e2 && (w.extractLsb' 8 4) != 0 then
        let y := Num.fin n m (ex - ((e : Int) - 127))
        let s := ofScaled (specialImg w) (-1) false
        let ds := (addNum .rn y s.neg).1.abs
        let dc := (addNum .rn y c.neg).1.abs
        if ltTotal ds dc then (8, flagIf (!ds.isZero) flagIX) else (code, fl)
      else (code, fl)
    | _ => (0, flagIV)

/-- DQ (R144): the exact value of a code under its scale word. -/
def dqNum (e2 : Bool) (c : Nat) (w : BitVec 16) : Num :=
  match scaleExp w with
  | none => .nan
  | some se =>
    let v := if e2 then (if c = 8 then ofScaled (specialImg w) (-1) false else e2m1.decode c) else e4m3.decode c
    match v with
    | .fin n m e => .fin n m (e + se)
    | v => v

/-- FloatToInt (R139): result and flags. -/
def floatToInt (x : Num) (lo hi : Int) (mode : Rnd) (sat : Bool) : Int × Flags :=
  match x with
  | .nan => (0, flagIV)
  | .inf n => (if n then lo else hi, if sat then 0 else flagIV)
  | .fin neg m e =>
    let (y, exact) := roundAt m e 0 mode neg
    let n := signed neg y
    if n < lo ∨ n > hi then (if n < lo then lo else hi, if sat then flagIX else flagIV)
    else (n, flagIf (!exact) flagIX)

/-- CollReduce (R412) in a floating-point format; FLAGS bits are [2] OF, [1] IV, [0] NONFIN. opr is 0 SUM,
1 AVG, 2 MIN, 3 MAX. -/
def collReduce (f : FF) (opr : Nat) (xs : List Num) : Num × BitVec 3 :=
  if xs.any Num.isNaN then (.nan, 1)
  else if opr ≥ 2 then
    let y := match xs with
      | [] => .fin false 0 0
      | x :: r => r.foldl (fun a b => minMax (opr == 2) a b) x
    (y, if y.isInf then 1 else 0)
  else if xs.contains (.inf false) && xs.contains (.inf true) then (.nan, 3)
  else if xs.contains (.inf false) then (.inf false, 1)
  else if xs.contains (.inf true) then (.inf true, 1)
  else if (xs.filter isNonZeroFin).isEmpty then (.fin (xs.all Num.sign) 0 0, 0)
  else
    let (s, k) := alignedSum xs
    if s = 0 then (.fin false 0 0, 0)
    else
      let d := if opr = 1 then xs.length else 1
      let y := rne f (divFin (s < 0) s.natAbs k false d 0)
      (y, if y.isInf then 5 else 0)

end Sys2Proof.Machine
end

