-- ==== Sys2Proof/Machine/State.lean ====
section
/-! DEFINITION. The state of one LX-C1 device and the reasons a step can stop. State is plain data and holds every
piece of state that INVENTORY.md lists under '## State', with the rule of spec/ that names it. -/

namespace Sys2Proof.Machine

open Sys2Proof

/-! ### Stops -/

/-- Why the machine stops with a fault. -/
inductive Fault where
  /-- Raised by every access to stacked DRAM: the physical address is not below 432 GiB (R362). Safe: no memory is there. -/
  | noSuchAddress (paddr : Nat)
  deriving DecidableEq, Repr

/-- Why an instruction is refused. -/
inductive Refusal where
  /-- Raised by a dispatch arm whose instruction has no meaning yet. Safe. -/
  | notModelled (mnemonic : String)
  /-- Raised by every instruction row when no thread of the device is the current thread: an instruction is executed by
  a thread (R229). Safe. -/
  | noThread
  deriving DecidableEq, Repr

/-! ### Memory and keyed lists -/

/-- Bytes by address, strictly rising addresses, no entry equal to what an unlisted address reads as (log 2). -/
abbrev Memory := List Host.Cell

/-- A strictly rising list of numbers: tagged granules, poisoned lines. -/
abbrev NatSet := List Nat

/-- Values by key, strictly rising keys. -/
abbrev Assoc (α : Type) := List (Nat × α)

/-! ### Capabilities -/

/-- A capability register: 128 bits and the hidden tag (R15, R353). -/
structure Cap where
  bits : BitVec 128
  tag : Bool
  deriving DecidableEq, Repr

/-- The null capability (R353). -/
def Cap.null : Cap := ⟨0, false⟩

/-! ### Threads -/

/-- The trap words of a thread in its handler, and what ERET restores (R121, R123, R249). -/
structure TrapRec where
  cause : BitVec 8
  sub : BitVec 8
  pcWord : Word
  arg0 : Word
  arg1 : Word
  gts : BitVec 64
  /-- Slot address at which ERET retry resumes, and the interrupted overlay stack. -/
  resume : BitVec 16
  stack : List (BitVec 8)
  deriving DecidableEq, Repr

/-- Fault kinds (Table 17.6). -/
inductive FaultKind where
  | notPres | mater | rowR | objInv | verUnav
  deriving DecidableEq, Repr

/-- What a translation is for (R363). -/
inductive Acc where
  | read | write | rmw | rmwRet | record | cwrite | oload
  deriving DecidableEq, Repr

/-- A fault a waiter has: kind, object, page and the access that met it (R368, R371). `page` is the offset of the
page's first byte (R369). -/
structure PageFault where
  kind : FaultKind
  obj : Nat
  page : Nat
  off : Nat
  acc : Acc
  deriving DecidableEq, Repr

/-- What a waiting thread waits on (Table 8.1, Table 18.4). -/
inductive WaitOn where
  | bar (addr : Nat) (target : BitVec 16)
  /-- BARW after its arrival (R198). -/
  | barw (addr : Nat) (target : BitVec 16)
  | rres (addr : Nat)
  | rwait (addr : Nat)
  | rpub (addr : Nat) (ticket : BitVec 16)
  | rrel (addr : Nat) (ticket : BitVec 16)
  | ringCopy (addr : Nat)
  | token (r : VReg)
  | twait (n : Nat)
  | mwait (q : QReg)
  | overlay (ovid : BitVec 8)
  | commit
  deriving DecidableEq, Repr

/-- Why a stalled thread stalls. -/
inductive StallOn where
  | scoreboard (spec : BitVec 8)
  | tokenLimit
  /-- A read of a q register with signed operations of the thread outstanding (R18). -/
  | stream (q : QReg)
  /-- The staging quota or the staging pool has no room for a number of bytes, since a cycle (R299). -/
  | staging (since need : Nat)
  | records
  /-- At a page that migrates, since a cycle (R363, R373). -/
  | migrating (obj page since : Nat)
  /-- The weight store of a die is in its refresh window (R378). -/
  | refresh (die : Nat)
  | fpx
  | exiting
  deriving DecidableEq, Repr

/-- Why a thread is parked on overlay loads: a CALLO or JMPO with its entry (R115), the trap handler (R249), a block
start (R440), a resumption at its restart point or in BARW (R273, R387). -/
inductive LoadWhy where
  | call (entry : BitVec 15)
  | handler
  | start
  | resume
  | rewait (addr : Nat) (target : BitVec 16)
  deriving DecidableEq, Repr

/-- Thread states (Table 8.1). "In handler" is `Thread.trap`, beside one of these. -/
inductive TStatus where
  | ready
  | stalled (why : StallOn)
  | held (mask : Word)
  | waiting (w : WaitOn)
  /-- Rolled back, or stalled in the handler, on faults (R247, R250); since a cycle. -/
  | parkedFault (fs : List PageFault) (since : Nat)
  /-- Waits for overlay loads (R115, R249, R273, R440). -/
  | parkedLoad (ovids : List (BitVec 8)) (why : LoadWhy)
  /-- Saved by a drain at its restart point (R381). -/
  | drained
  | retired
  deriving DecidableEq, Repr

/-- KEY of a residency entry: a context's private overlay, or a public hash (R265, R270). -/
inductive RKey where
  | priv (ctx : Nat) (ovid : BitVec 8)
  | pub (hash : BitVec 256)
  deriving DecidableEq, Repr

/-- What a pending token stands for (R26). -/
inductive TokenOf where
  | copy (req : Nat)
  | load (key : RKey)
  | commit (id : Nat)
  deriving DecidableEq, Repr

/-- A pending token. `inRegion`: the thread has passed no restart point since it issued (R29). -/
structure Token where
  reg : VReg
  of : TokenOf
  inRegion : Bool
  deriving DecidableEq, Repr

/-- A variable-latency result on its way: register words with their poison, a capability, FPX flags (R84, R133). -/
structure Pend where
  xpipe : Bool
  vals : List (VReg × Word × Bool)
  cap : Option (AReg × Cap × Bool)
  flags : Flags
  /-- Its flags reach FPX when it lands (LDAGE, ATOMF, ATOML, the X pipe). -/
  setsFpx : Bool
  deriving DecidableEq, Repr

/-- A thread's record sequence counter, scope counts and commits issued per scope .T, .B, .G, .P (R179, R282). -/
structure Counts where
  seq : BitVec 19
  kt : Nat
  kb : Nat
  kg : Nat
  kp : Nat
  deriving DecidableEq, Repr

/-- How many writes of each agent of a block are ordered before a point. The agents are its threads, by number, and engine
operations and copies, by 2^16 + their number; an operation or copy counts once (R212, log 99). -/
abbrev Clock := Assoc Nat

/-- What a thread has ordered of its block's writes to scratchpad and tiles: its own and those it has acquired, those that its last
FENCEO made available to the operations it signs, and the v registers it has written since; and the tokens of completed copies that
it has not read, with the copies' agents (R212, R213, R317). -/
structure Known where
  seen : Clock
  offered : Clock
  dirty : BitVec 64
  unread : List (VReg × Nat)
  deriving DecidableEq, Repr

def Known.none : Known := ⟨[], [], 0, []⟩

/-- A plain load that has not returned: its first register, its form, and its location, an offset of an object or a scratchpad
address. -/
structure LateRead where
  reg : VReg
  wid : Wid
  sx : Bool
  obj : Option Nat
  off : Nat
  deriving DecidableEq, Repr

/-- A store that is not performed yet: the cycle by which it is, its location as above, its bytes, and its cache hint. -/
structure LateStore where
  due : Nat
  obj : Option Nat
  off : Nat
  bytes : List Byte
  ch : CacheHint
  deriving DecidableEq, Repr

/-- Accesses of a thread that may be performed after later ones of its own: its plain loads on their way, whether its next store is
performed late, and one that is not performed yet (R308, R311, R315, log 5). -/
structure Late where
  reads : List LateRead
  delay : Bool
  store : Option LateStore
  deriving DecidableEq, Repr

def Late.none : Late := ⟨[], false, .none⟩

/-- What an engine operation does (R200 to R226), with its captured operands (R208). -/
inductive MatOp where
  /-- Declared planes, plane-form address, first fragment register, tile address. -/
  | mma (fmt : Fmt) (planes : Nat) (a : Nat) (frag : VReg) (tile : Nat)
  | mmb (fmt : Fmt) (planes : Nat) (a : Nat) (frag : VReg) (tile : Nat)
  /-- Scale addresses, after ScaleAddr, by lane 0 to 31 for the columns and 0 to 15 for the rows; empty for INT formats. -/
  | mscale (fmt : Fmt) (p64 tile : Nat) (colScale rowScale : List Nat)
  | plane (fmt : Fmt) (tr : Bool) (dst src stride : Nat) (rowScale : List Nat)
  | azero (p64 : Bool) (tile : Nat)
  | acvt (fmt : Fmt) (tile dst stride : Nat) (rowScale : List Nat)
  | amovOut (p64 : Bool) (tile addr : Nat)
  | amovIn (p64 : Bool) (tile addr : Nat)
  deriving DecidableEq, Repr

/-- Registers and tiles an operation borrows until the thread's MWAIT (R214). -/
structure Lent where
  q : QReg
  op : Nat
  frag : List VReg
  /-- Tile numbers of the member's core. -/
  tiles : List Nat
  mop : MatOp
  mask : Word
  /-- The member wrote a lent register or tile: the engine result is undefined. -/
  spoiled : Bool
  deriving DecidableEq, Repr

/-- What the members of an issue group read: the registers as they stood when the group issued (R80). -/
structure Snap where
  v : Vector Word 64
  a : Vector Cap 8
  p : BitVec 7
  lat : List (BitVec 8 × Nat)
  lent : List Lent
  poisonV : BitVec 64
  poisonA : BitVec 8
  poisonP : BitVec 8
  sgen : Vector Word 16
  clkh : Word
  gtsh : Word
  /-- The cycle in which the group issued. -/
  at? : Option Nat
  deriving DecidableEq, Repr

/-- A thread's marks for issue selection (R68, R117, R240). -/
structure Sched where
  yielded : Option Nat
  yhint : Bool
  /-- Cycles for which it has been ready since it last issued. -/
  readyFor : Nat
  aged : Option Nat
  deriving DecidableEq, Repr

structure Thread where
  v : Vector Word 64
  a : Vector Cap 8
  /-- p0 to p6 (R16). -/
  p : BitVec 7
  fpx : Flags
  /-- SGEN0 to SGEN3, word w of SGENk at 4k + w (R24). -/
  sgen : Vector Word 16
  clkh : Word
  gtsh : Word
  /-- Hidden poison bits of v, a and p registers (R421). -/
  poisonV : BitVec 64
  poisonA : BitVec 8
  poisonP : BitVec 8
  /-- FPX is poisoned. -/
  poisonF : Bool
  /-- Slot address in the current overlay (R10), one bit wider, for the address after line 4095 (R111, log 10). -/
  pc : BitVec 16
  /-- Overlay stack, the current overlay first (R110). -/
  stack : List (BitVec 8)
  rpaddr : Word
  rpStack : List (BitVec 8)
  counts : Counts
  /-- The values of `counts` at the last restart point passed (R282). -/
  region : Counts
  tokens : List Token
  pend : List Pend
  /-- Landing cycle of fixed-latency results, by specifier (R83, R85). -/
  lat : List (BitVec 8 × Nat)
  /-- Landing cycle of the latest fixed-latency FPX update (R21). -/
  fpxAt : Nat
  nextIssue : Nat
  status : TStatus
  /-- In BARW after its arrival: the barrier's address and the target phase (R198). -/
  arrival : Option (Nat × BitVec 16)
  trap : Option TrapRec
  sched : Sched
  lent : List Lent
  known : Known
  late : Late
  snap : Option Snap
  /-- A staging stall has lasted STGLIM: without room now, the instruction traps (R299). -/
  stgOut : Bool
  /-- In a drain: the cycle from which RUNON counts (R381). -/
  runFrom : Option Nat
  deriving DecidableEq, Repr

/-! ### Waves and matrix operations -/

/-- One issued operation of a q stream. -/
structure QOp where
  id : Nat
  op : MatOp
  /-- Members of the signing instance, as lane mask. -/
  mask : Word
  pcWord : Word
  bwt : Option (Nat × BitVec 16)
  bar : Option Nat
  started : Bool
  /-- Its engine result is undefined (R206, R207, R212, R214). -/
  undef : Bool
  /-- The writes ordered before it, its own among them once it has started (R212). -/
  ordered : Clock
  flags : BitVec 3
  err : BitVec 8
  deriving DecidableEq, Repr

/-- A q register: its status word, its operations that have not completed, and what is ordered before its next one (R210, R212). -/
structure QState where
  status : Word
  ops : List QOp
  clock : Clock
  /-- Hidden poison bit of the register (R421). -/
  poison : Bool
  deriving DecidableEq, Repr

structure Wave where
  core : Nat
  part : Nat
  flockw : Word
  q : Vector QState 16
  /-- Completed operations, the oldest first (R214). -/
  finished : List QOp
  deriving DecidableEq, Repr

/-! ### Blocks -/

/-- Types of a 16-byte scratchpad granule other than plain (R257). -/
inductive GType where
  | barrier | ring
  deriving DecidableEq, Repr

/-- A write to a range of a block's scratchpad or tiles: the agent, and the count of its writes with this one (R212). -/
structure Mark where
  tile : Bool
  addr : Nat
  len : Nat
  agent : Nat
  n : Nat
  deriving DecidableEq, Repr

/-- The order of a block's writes to scratchpad and tiles (R212, R318): the writes that a later one has not covered, what the
arrivals at each barrier release, what they released by the end of each phase, and what each ring ticket's publication and
release release, by 2^16 × address + ticket. -/
structure Order where
  marks : List Mark
  arrived : Assoc Clock
  phases : List (Nat × BitVec 16 × Clock)
  pubs : Assoc Clock
  rels : Assoc Clock
  deriving DecidableEq, Repr

def Order.none : Order := ⟨[], [], [], [], []⟩

/-- Course of a block (R231, R381, R386). -/
inductive BPhase where
  | placed
  | running
  /-- Draining since a cycle; `swap`: for swap-out. -/
  | draining (since : Nat) (swap : Bool)
  | retired
  deriving DecidableEq, Repr

structure Block where
  launch : Nat
  ctx : Nat
  lin : Nat
  coord : Nat × Nat × Nat
  grid : Nat × Nat × Nat
  cluster : Nat
  cores : List Nat
  slice : Nat
  tilesN : Nat
  phase : BPhase
  waves : List Wave
  threads : List Thread
  /-- Scratchpad window by scratchpad address (R255); unlisted bytes are 0 (R231). -/
  spad : Memory
  /-- Typed granules by granule address (R257). -/
  types : Assoc GType
  /-- Accumulator tiles, address core × 2^18 + accumulator address; unlisted bytes are 0 (R231). -/
  tiles : Memory
  /-- Tile flags IV, OF, NFR by core × 128 + tile; unlisted tiles have none (R201). -/
  tflags : Assoc (BitVec 3)
  spadPoison : NatSet
  tilePoison : NatSet
  order : Order
  /-- Staging charge in bytes (R299). -/
  charge : Nat
  /-- SWAPLIM is not tested before this cycle (R386). -/
  noSwapBefore : Nat
  /-- C-dies whose drovers have sent its slot binding notice (R283). -/
  bound : List Nat
  deriving DecidableEq, Repr

/-! ### Saved blocks (R388, R389) -/

structure SavedThread where
  /-- TSTATE: 0 retired, 1 at RPADDR, 2 waiting in BARW. -/
  tstate : Nat
  pval : BitVec 7
  rpaddr : Word
  /-- The overlay stack recorded with RPADDR, and the current one, which differ only in BARW; top first. -/
  rpStack : List (BitVec 8)
  stack : List (BitVec 8)
  fpx : Flags
  counts : Counts
  btgt : BitVec 16
  baddr : Nat
  clkh : Word
  gtsh : Word
  vlive : List (VReg × Word × Bool)
  alive : List (AReg × Cap × Bool)
  poisonP : BitVec 8
  poisonF : Bool
  /-- Faults of a parked thread (R386). -/
  faults : List PageFault
  /-- In BARW, the slot it waits at. -/
  pc : BitVec 16
  deriving DecidableEq, Repr

structure SavedWave where
  core : Nat
  part : Nat
  flockw : Word
  status : Vector Word 16
  ops : Vector (List QOp) 16
  clocks : Vector Clock 16
  poison : BitVec 16
  finished : List QOp
  deriving DecidableEq, Repr

structure SavedBlock where
  slot : Nat
  /-- Where its image of Table 18.2 lies in device memory, and its bytes. -/
  area : Nat × Nat
  launch : Nat
  lin : Nat
  coord : Nat × Nat × Nat
  grid : Nat × Nat × Nat
  /-- The cluster it was saved from. -/
  cluster : Nat
  cores : List Nat
  slice : Nat
  tilesN : Nat
  waves : List SavedWave
  types : Assoc GType
  /-- Scratchpad ranges, as address and length, and tiles, as core × 128 + tile, that its threads list (R388). -/
  spans : List (Nat × Nat)
  keptTiles : List Nat
  /-- Bytes of the listed ranges and of the typed objects. -/
  spad : Memory
  tiles : Memory
  tflags : Assoc (BitVec 3)
  spadPoison : NatSet
  tilePoison : NatSet
  threads : List SavedThread
  lents : List (List Lent)
  order : Order
  knowns : List Known
  charge : Nat
  /-- Saved by a swap-out, rather than a pre-emption. -/
  swapped : Bool
  /-- C-dies whose drovers have sent its slot binding notice (R283). -/
  bound : List Nat
  deriving DecidableEq, Repr

/-! ### Records (chapter 10) -/

/-- A record's fields (Tables 10.2 to 10.4), its launch and home device. -/
structure Rec where
  value : Word
  valhi : Word
  wave : BitVec 8
  lane : BitVec 5
  bslot : BitVec 15
  tep : BitVec 4
  bep : BitVec 4
  gep : BitVec 4
  pep : BitVec 4
  opc : BitVec 4
  ty : BitVec 3
  wid : BitVec 2
  ext : Bool
  paddr : BitVec 39
  block : BitVec 32
  seq : BitVec 19
  decay : BitVec 24
  home : BitVec 10
  launch : Nat
  srcDev : BitVec 10
  det : Bool
  deriving DecidableEq, Repr

/-- A page that migrates (R322, R373): its context, object and page number, where its entry lies, its home device, the frame it
leaves, the frame it goes to and their size; the directory's lock, and whether the bytes have been copied. It lasts until every
write and atomic held at the page has passed. -/
structure Migration where
  ctx : Nat
  obj : Nat
  page : Nat
  peAddr : Nat
  home : Nat
  old : Nat
  new : Nat
  size : Nat
  locked : Bool
  copied : Bool
  deriving DecidableEq, Repr

/-- What travels on the record path. -/
inductive Entry where
  | record (r : Rec)
  /-- A marker of a commit of this device, with its 16 bytes (R292). -/
  | marker (commit : Nat) (bits : BitVec 128)
  | notice (bslot : BitVec 15) (lnum : BitVec 16) (unbind : Bool)
  /-- A marker that arrived from another device: its 16 bytes (R288, R292). -/
  | foreign (bits : BitVec 128)
  deriving DecidableEq, Repr

/-- One entry of a cullet log: a record open or closed, or a marker (R284). -/
inductive LogEntry where
  | record (r : Rec) (isOpen : Bool)
  | marker (commit : Nat)
  deriving DecidableEq, Repr

/-- Whose records a marker covers (R292, R293). -/
inductive Owner where
  | thread (bslot : BitVec 15) (wave : BitVec 8) (lane : BitVec 5)
  | block (bslot : BitVec 15)
  | launch (id : Nat)
  | group (id : Nat)
  deriving DecidableEq, Repr

/-- A path of a drover: a channel 0 to 383, 384 + device for a remote route, or 1408 + 384 × source + channel for the entries of
another device that are binned again (R286, R288). -/
structure Path where
  entries : List Entry
  bseq : BitVec 32
  mseq : BitVec 32
  /-- Owners, by scope, whose records this path carried since their last marker of that scope (R293). -/
  carried : List (CommitScope × Owner)
  deriving DecidableEq, Repr

/-- A shipped bin (R287). -/
structure Bin where
  path : Nat
  die : Nat
  srcDev : BitVec 10
  bseq : BitVec 32
  entries : List Entry
  deriving DecidableEq, Repr

structure Drover where
  paths : Assoc Path
  inFlight : List Bin
  deriving DecidableEq, Repr

/-- An entry staged for a channel: the stack whose region holds it, the C-die of the drover that filled its bin, and the device
that formed it (R287, R290). -/
structure Staged where
  entry : Entry
  stack : Nat
  die : Nat
  src : BitVec 10
  deriving DecidableEq, Repr

/-- An entry that a remote route has brought to its home device, with the C-die of the drover that sent it (R288). -/
structure Sent where
  home : Nat
  die : Nat
  entry : Entry
  deriving DecidableEq, Repr

/-- A marker as a lehr has it from all its parts: of a commit of this device, or one of another device, by its source and its
16 bytes with MSEQ 0 (R291, R293). -/
inductive LehrMark where
  | own (commit : Nat)
  | foreign (src : BitVec 10) (bits : BitVec 128)
  deriving DecidableEq, Repr

/-- Unbind notices owed for a block slot: the launch number it was bound to, and the C-dies whose drovers have not sent one (R283). -/
structure Unbinding where
  lnum : BitVec 16
  dies : List Nat
  deriving DecidableEq, Repr

/-- A commit in progress (R179, R293). -/
structure Commit where
  id : Nat
  scope : CommitScope
  owner : Owner
  ctx : Nat
  launch : Nat
  /-- The k of R179. -/
  k : Nat
  epoch : BitVec 4
  tokens : List (ThreadId × VReg)
  formed : Bool
  /-- Cores whose logs have not sent the marker yet. -/
  coresLeft : List Nat
  /-- 0, or TPEER after a member of the group failed (R413). -/
  code : BitVec 8
  deriving DecidableEq, Repr

/-! ### Cores, clusters, dies -/

/-- State of a residency table entry (Table 9.5). -/
inductive RState where
  | loading | resident | draining
  deriving DecidableEq, Repr

/-- An entry of a restart table (Table 8.3): live registers, scratchpad ranges as address and length, tile ranges as
first tile and count. -/
structure RestartEntry where
  slot : BitVec 15
  vlive : BitVec 64
  qlive : BitVec 16
  plive : BitVec 7
  alive : BitVec 8
  spad : List (Nat × Nat)
  tiles : List (Nat × Nat)
  deriving DecidableEq, Repr

structure Resid where
  key : RKey
  base : Nat
  len : Nat
  refs : Nat
  state : RState
  lru : BitVec 32
  /-- Its restart table as read at the load (R271). -/
  table : List RestartEntry
  deriving DecidableEq, Repr

/-- An overlay load under way or waiting for room, with the table entry captured at issue (R268, R271). -/
structure OvLoad where
  /-- Its place in the order in which requests reach its engine (R394). -/
  id : Nat
  ctx : Nat
  ovid : BitVec 8
  key : RKey
  src : Cap
  len : Nat
  rtoff : Nat
  launch : Nat
  /-- What FindRoom lets its context, or the public region, hold, in lines (R268). -/
  limit : Nat
  /-- It holds a residency entry and lines. -/
  placed : Bool
  fault : Option PageFault
  deriving DecidableEq, Repr

/-- Name of a 128-byte line of an object: of a weight-store object, the version and the line within it, so that version 0 and the
number it is bound to name one line (R365, R376). -/
structure LineId where
  ctx : Nat
  obj : Nat
  ver : Nat
  line : Nat
  deriving DecidableEq, Repr

/-- A line of the L1, with its bytes and tags (R155, R365). -/
structure L1Line where
  id : LineId
  bytes : List Byte
  tags : List Bool
  /-- Held exclusive for atomics (R174). -/
  excl : Bool
  /-- Marked first for eviction (R155). -/
  first : Bool
  deriving DecidableEq, Repr

structure Core where
  /-- Added to the cycle count to give this core's counter (R23). -/
  clkOff : BitVec 64
  /-- Instruction store lines, 0 where unlisted. -/
  lines : Assoc Line
  /-- Hidden restart bits and poisoned slots, line × 8 + slot (R242, R421). -/
  restart : NatSet
  slotPoison : NatSet
  resid : List Resid
  /-- The copy that an overlay ID of a context is bound to, by context × 256 + ID (R264, R270). -/
  binds : Assoc RKey
  loads : List OvLoad
  l1 : List L1Line
  log : List LogEntry
  /-- Timing replays counted since a time (R419). -/
  replays : Nat
  replayFrom : BitVec 64
  /-- Cores of blocks that never issued here start with L1 invalidated (R351): launches that have. -/
  begun : List Nat
  deriving DecidableEq, Repr

/-- A fault outstanding at a cluster or engine (R368). -/
structure FaultEntry where
  ctx : Nat
  kind : FaultKind
  obj : Nat
  page : Nat
  waiters : Nat
  acc : BitVec 6
  gts : BitVec 64
  reported : Bool
  deriving DecidableEq, Repr

structure Cluster where
  ctx : Option Nat
  faults : List FaultEntry
  outOfService : Bool
  deriving DecidableEq, Repr

/-- A side of a copy request. -/
inductive Side where
  | obj (obj off : Nat)
  | spad (slot addr : Nat)
  deriving DecidableEq, Repr

/-- How the elements of a request lie (R187, R398). -/
inductive CopyKind where
  | move
  | gather (es : Nat) (idx : List Nat)
  | scatter (es : Nat) (idx : List Nat) (comb : Option CopOp)
  | fill (pattern : BitVec 64)
  | signal
  deriving DecidableEq, Repr

/-- What the engine does at a packet's completion (R399). -/
structure PacketEnd where
  queue : Nat
  no : Nat
  /-- It starts only after every earlier packet of the queue has completed. -/
  ord : Bool
  status : Option (Nat × Nat)
  signal : Option (Nat × BitVec 64)
  deriving DecidableEq, Repr

structure CopyReq where
  id : Nat
  ctx : Nat
  launch : Option Nat
  cluster : Nat
  kind : CopyKind
  dst : Side
  src : Side
  /-- Bytes of the contiguous side. -/
  len : Nat
  rsc : Scope
  token : Option (ThreadId × VReg)
  /-- CPY.RING: the ring's address and the ticket reserved (R189). -/
  ring : Option (Nat × BitVec 16)
  packet : Option PacketEnd
  /-- Window of the gathered or scattered side, in bytes (R186). -/
  window : Nat × Nat
  /-- Bytes served of each 4 KiB chunk begun (R372). -/
  served : Assoc Nat
  /-- Source words of a gather or a scatter that it has read, with their poison, by offset / 8 (R188). -/
  words : Assoc (BitVec 64 × Bool)
  /-- The lowest chunk that failed, with its code (R28). -/
  fail : Option (Nat × BitVec 8)
  faults : List (Nat × PageFault)
  /-- A checked copy (R401): the storage window entry it uses. -/
  sealed : Option Nat
  deriving DecidableEq, Repr

structure Engine where
  reqs : List CopyReq
  faults : List FaultEntry
  deriving DecidableEq, Repr

/-! ### Launches and queues -/

structure LaunchQueue where
  ctx : Nat
  addr : Nat
  logn : Nat
  fn : Nat
  doorbell : Nat
  fetched : Nat
  completed : Nat
  stopped : Bool
  deriving DecidableEq, Repr

/-- Course of a fetched packet (R344, R351, R352). -/
inductive LPhase where
  | fetched | started | ending
  deriving DecidableEq, Repr

/-- The first fatal trap of a launch, for its completion record (R253, R343). -/
structure Fatal where
  status : BitVec 8
  block : Nat
  words : List Word
  gts : BitVec 64
  src : Nat
  deriving DecidableEq, Repr

structure Launch where
  ctx : Nat
  queue : Nat
  no : Nat
  /-- The 32 words of the packet (Table 16.2). -/
  packet : List Word
  marker : Bool
  /-- Status of a packet that failed R342. -/
  bad : Option (BitVec 8)
  argObj : BitVec 24
  argBytes : Memory
  argTags : NatSet
  flocks : List (BitVec 256)
  phase : LPhase
  lnum : BitVec 16
  gridx : Nat
  /-- Next block index never placed, and blocks retired. -/
  nextBlock : Nat
  retiredN : Nat
  fatal : Option Fatal
  skippedSince : Option Nat
  reserving : Bool
  /-- Version bound to version 0 of each weight-store object, and every version pinned (R376). -/
  bound0 : List (Nat × Nat)
  pins : List (Nat × Nat)
  /-- Pod groups joined, with the group commits completed when it joined each (R408). -/
  groups : List (Nat × Nat)
  /-- Replay: snapshot page entries (object, page, entry) and attempts made (R423, R424). -/
  snapshots : List (Nat × Nat × BitVec 64)
  attempts : Nat
  replayWant : Bool
  /-- All conditions of R344 have held at once since it was fetched (R345). -/
  due : Bool
  cores : List Nat
  deriving DecidableEq, Repr

structure BulkQueue where
  ctx : Nat
  obj : Nat
  off : Nat
  logn : Nat
  engine : Nat
  windows : List Cap
  fn : Nat
  doorbell : Nat
  deriving DecidableEq, Repr

structure FaultQueue where
  addr : Nat
  logn : Nat
  fn : Nat
  doorbell : Nat
  deriving DecidableEq, Repr

/-! ### Contexts -/

/-- A registered overlay (R264). -/
structure OvEntry where
  entry : BitVec 512
  tag : Bool
  deriving DecidableEq, Repr

/-- A storage window entry (Table 19.3). -/
structure StorageEntry where
  obj : Nat
  mkey : Nat
  skey : Nat
  dataOff : Nat
  tagOff : Nat
  nchunk : Nat
  imageId : BitVec 64
  deriving DecidableEq, Repr

/-- Pre-emptions under way: the clusters on which no block is placed, and the blocks that drain (R381, R384). -/
structure Drain where
  clusters : List Nat
  blocks : List Nat
  deriving DecidableEq, Repr

structure Params where
  clusters : List Nat
  handler : Option (BitVec 8)
  drainLim : Nat
  runOn : Nat
  swapLim : Nat
  hangLim : Nat
  /-- Address in device memory and bytes of the save area (R388). -/
  saveArea : Option (Nat × Nat)
  dumpArea : Option (Nat × Nat × Nat)
  quota : Nat
  stgLim : Nat
  /-- Instruction-store quota by core, units of 64 lines, where firmware set one (R269). -/
  istore : Assoc Nat
  deriving DecidableEq, Repr

structure Context where
  otBase : Nat
  otLen : Nat
  evBase : Nat
  fns : List Nat
  params : Params
  stepReg : Word
  overlays : Assoc OvEntry
  faultQ : Option FaultQueue
  storage : Assoc StorageEntry
  /-- SWSTEP by aged object (R435). -/
  swsteps : Assoc Word
  hang : Nat
  drain : Option Drain
  saved : List SavedBlock
  /-- Identities of the overlays resident when a core was switched out (R271). -/
  residents : List (Nat × BitVec 8)
  /-- PTIMEOUT has killed it (R390). -/
  killed : Bool
  /-- Launches that the dispatcher's pass under way has come to (R348). -/
  pass : List Nat
  deriving DecidableEq, Repr

/-! ### Host, fabric, firmware -/

/-- A request ring: the mailbox of a function, or the management ring (R404, R439). -/
structure Mailbox where
  requests : BitVec 64
  responses : BitVec 64
  slots : Assoc (List Word)
  deriving DecidableEq, Repr

inductive DoorTarget where
  | launch (queue : Nat)
  | bulk (queue : Nat)
  | fault (ctx : Nat)
  deriving DecidableEq, Repr

structure Aperture where
  ctx : Nat
  cap : Cap
  deriving DecidableEq, Repr

/-- A host access answered: the bytes of a read, or why there is none (R403, R421). -/
inductive HostReply where
  | data (bytes : List Byte) (poisoned : Bool)
  | unsupported
  | aborted
  | dropped
  deriving DecidableEq, Repr

structure HostRead where
  fn : Nat
  win : Nat
  off : Nat
  n : Nat
  since : BitVec 64
  fault : PageFault
  deriving DecidableEq, Repr

structure PodGroup where
  ctx : Nat
  members : List Nat
  next : BitVec 32
  commits : Nat
  /-- Time of the last heartbeat sent. -/
  lastBeat : BitVec 64
  deriving DecidableEq, Repr

structure Bucket where
  state : BitVec 2
  cad : Nat
  steps : Nat
  ty : Nat
  opr : Nat
  ctx : Nat
  obj : Nat
  off : Nat
  len : Nat
  expect : Nat
  count : Nat
  seq : BitVec 32
  seqInc : BitVec 32
  sigen : Bool
  group : Nat
  done : BitVec 32
  members : Nat
  flags : BitVec 3
  sidx : Nat
  /-- The range as read at the start of the exchange (R411). -/
  local0 : List Byte
  /-- Its SEQ has been reported as lying below NEXT (R411). -/
  late : Bool
  deriving DecidableEq, Repr

structure Port where
  rxSeq : BitVec 12
  txSeq : BitVec 12
  credits : List Nat
  replay : List (BitVec 2048)
  /-- Time of the last advance of ACK, or of the last resend since. -/
  lastAck : BitVec 64
  resends : Nat
  up : Bool
  deriving DecidableEq, Repr

inductive KeyKind where
  | xts | hmac
  deriving DecidableEq, Repr

structure KeySlot where
  owner : Nat
  kind : KeyKind
  key : BitVec 512
  deriving DecidableEq, Repr

/-- An event record (Table 21.2). -/
structure EventRec where
  cls : BitVec 8
  code : BitVec 8
  ctx : Option Nat
  gts : BitVec 64
  src : BitVec 16
  arg0 : Word
  arg1 : Word
  deriving DecidableEq, Repr

/-- The settings of Table 21.6 in force. -/
structure Settings where
  stagingHalfGiB : Nat
  replayN : Nat
  plim : Nat
  plimBound : Nat
  tthr : Nat
  quota : Nat
  stgLim : Nat
  publicRegion : Nat
  istoreQuota : Option Nat
  defaults : Params
  publicHashes : List (BitVec 256)
  deriving DecidableEq, Repr

/-- Power, temperature and trip state (R437, R438). -/
structure Power where
  gate : Nat
  /-- The latest power or current reading that engaged a limit, and the latest temperature, °C. -/
  draw : Nat
  temp : Nat
  limited : Bool
  throttled : Bool
  tripped : Option (BitVec 64)
  deriving DecidableEq, Repr

/-! ### The device -/

/-- Where a soft error strikes (R421). -/
inductive Upset where
  | dram (line : Nat)
  | ws (granule : Nat)
  | vreg (t : ThreadId) (r : VReg)
  | areg (t : ThreadId) (r : AReg)
  | preg (t : ThreadId) (r : PReg)
  | fpx (t : ThreadId)
  | qreg (slot wave : Nat) (r : QReg)
  /-- The residue check of an A-pipe lane fails for a result in this register (R418). -/
  | residue (t : ThreadId) (r : VReg)
  | slot (core line slot : Nat)
  | spad (slot granule : Nat)
  | tile (slot granule : Nat)
  deriving DecidableEq, Repr

/-- What a partition has done in the present cycle, whether it has regrouped and how many groups it has issued, and the
cycles from which its two A pipes, its M pipe and its X pipe accept an instruction (R81, R132, R235). -/
structure Turn where
  regrouped : Bool
  groups : Nat
  a0 : Nat
  a1 : Nat
  m : Nat
  x : Nat
  deriving DecidableEq, Repr

/-- What the agenda says happens next: a partition issues its next group, an event row happens, cycles pass, an error strikes
(log 4); a plain load that has not returned is performed now, the 64-bit half named; the next store of a thread is to be
performed late; or a late one is performed (log 5). -/
inductive Move where
  | issue (part : Nat)
  | event (i : Instr)
  | elapse (n : Nat)
  | upset (u : Upset)
  | readNow (t : ThreadId) (reg : VReg) (half : Nat)
  | delayStore (t : ThreadId)
  | storeNow (t : ThreadId)
  deriving DecidableEq, Repr

/-- Fields of the firmware and the host side. -/
structure Service where
  mailboxes : Assoc Mailbox
  management : Mailbox
  /-- MSI-X messages sent, by function × 64 + vector. -/
  msix : Assoc Nat
  /-- Bound doorbells, function × 4096 + index. -/
  doorbells : Assoc DoorTarget
  /-- Filled aperture windows, function × 64 + window. -/
  aperture : Assoc Aperture
  hostReads : List HostRead
  hostReplies : List HostReply
  keys : Assoc KeySlot
  mrs : Vector (BitVec 256) 8
  /-- Firmware has booted since reset, and the version of its image (R428). -/
  booted : Bool
  firmwareVersion : Nat
  fusedVersion : Nat
  reports : Nat
  /-- Reports and other products the requester receives. -/
  reportOut : List Byte
  events : List EventRec
  eventsLost : Nat
  eventsTotal : Nat
  settings : Settings
  /-- Accepted records that the next reset puts in force, and the last counter accepted per record type (R431). -/
  records : List ConfigSetting
  counters : Assoc Nat
  repair : Assoc Nat
  laneTests : Nat
  /-- Clusters on which firmware runs the self-test at their next drain (R418). -/
  testDue : List Nat
  power : Power
  deriving DecidableEq, Repr

/-- Fields of the fabric. -/
structure Fabric where
  ports : Assoc Port
  /-- Route table: destination device to port. -/
  routes : Assoc Nat
  failedPeers : NatSet
  groups : Assoc PodGroup
  buckets : Assoc Bucket
  /-- Flits accepted for this device, oldest first. -/
  received : List (BitVec 2048)
  /-- Launch numbers of block slots of other devices, by source device × 2^15 + slot (R283). -/
  bindings : Assoc Nat
  deriving DecidableEq, Repr

structure State where
  agenda : List Move
  cur : Option ThreadId
  freeCtr : Nat
  cycle : Nat
  /-- Global timestamp at device reset; it ticks once in four cycles (R1). -/
  gtsBase : Nat
  device : BitVec 10
  /-- Stacked DRAM of every device of the pod, address device × 2^39 + PADDR. -/
  dram : Memory
  ws : Memory
  tags : NatSet
  poison : NatSet
  wsPoison : NatSet
  /-- Key under which a 64-byte line of stacked DRAM was last written as object memory, by line (R367, log 19). -/
  lineKey : Assoc (BitVec 512)
  migrations : List Migration
  /-- Weight-store refresh window open, per die (R378). -/
  refresh : NatSet
  /-- By block slot. -/
  blocks : Assoc Block
  launches : Assoc Launch
  nextLaunch : Nat
  contexts : Assoc Context
  /-- By 4 × cluster + core. -/
  cores : Assoc Core
  clusters : Assoc Cluster
  /-- Candidate bundles by 16 × cluster + 4 × core + partition (R235). -/
  bundles : Assoc (List (List ThreadId))
  /-- By the same number, its course in the present cycle and its pipes. -/
  turns : Assoc Turn
  engines : Assoc Engine
  /-- Number for the next request, operation or commit. -/
  nextId : Nat
  drovers : Assoc Drover
  staging : Assoc (List Staged)
  /-- Markers complete at a channel's lehr and not applied, in the order in which they became complete (R291). -/
  lehrs : Assoc (List LehrMark)
  /-- Entries of this device that lie at their home devices and are not applied. -/
  abroad : List Sent
  commits : List Commit
  /-- Unbind notices owed: block slots whose release waits (R283). -/
  unbinding : Assoc Unbinding
  launchQs : Assoc LaunchQueue
  bulkQs : Assoc BulkQueue
  service : Service
  fabric : Fabric
  deriving DecidableEq, Repr

/-! ### Reset -/

/-- Table 18.1, R269 and R299 defaults. -/
def Params.default : Params where
  clusters := []
  handler := none
  drainLim := 400000
  runOn := 8192
  swapLim := 4000000
  hangLim := 4000000000
  saveArea := none
  dumpArea := none
  quota := 16384
  stgLim := 400000
  istore := []

/-- Table 21.6 defaults. -/
def Settings.default : Settings where
  stagingHalfGiB := 4
  replayN := 2
  plim := 3800000
  plimBound := 3800000
  tthr := 95
  quota := 16384
  stgLim := 400000
  publicRegion := 8
  istoreQuota := none
  defaults := Params.default
  publicHashes := []

def Mailbox.empty : Mailbox := ⟨0, 0, []⟩

def Power.reset : Power := ⟨0, 0, 25, false, false, none⟩

def Service.reset : Service where
  mailboxes := []
  management := Mailbox.empty
  msix := []
  doorbells := []
  aperture := []
  hostReads := []
  hostReplies := []
  keys := []
  mrs := Vector.replicate 8 0
  booted := false
  firmwareVersion := 0
  fusedVersion := 0
  reports := 0
  reportOut := []
  events := []
  eventsLost := 0
  eventsTotal := 0
  settings := Settings.default
  records := []
  counters := []
  repair := []
  laneTests := 0
  testDue := []
  power := Power.reset

def Fabric.reset : Fabric := ⟨[], [], [], [], [], [], []⟩

/-- The device right after reset: no context, no cluster assigned, nothing resident (log 3). -/
def State.reset : State where
  agenda := []
  cur := none
  freeCtr := 0
  cycle := 0
  gtsBase := 0
  device := 0
  dram := []
  ws := []
  tags := []
  poison := []
  wsPoison := []
  lineKey := []
  migrations := []
  refresh := []
  blocks := []
  launches := []
  nextLaunch := 0
  contexts := []
  cores := []
  clusters := []
  bundles := []
  turns := []
  engines := []
  nextId := 0
  drovers := []
  staging := []
  lehrs := []
  abroad := []
  commits := []
  unbinding := []
  launchQs := []
  bulkQs := []
  service := Service.reset
  fabric := Fabric.reset

end Sys2Proof.Machine
end

