-- ==== Sys2Proof/WellFormed.lean ====
section
/-! DEFINITION. Which instructions the encoding admits: the register positions of R14 and R30, the operand forms
of the class tables, and the field values of Tables 3.5 to 3.9. `Instr.wf` is false of a term that no word stands for. -/

namespace Sys2Proof

/-! ### Registers and sources -/

/-- An even register: the low one of a pair (R14). -/
def isEven (r : VReg) : Bool := !r.getLsbD 0
/-- A register whose number is a multiple of 4 (R14). -/
def isQuad (r : VReg) : Bool := r.extractLsb' 0 2 == 0#2
/-- A multiple of 8 (R205). -/
def isOct (r : VReg) : Bool := r.extractLsb' 0 3 == 0#3
/-- A multiple of 16 (R190). -/
def isHex (r : VReg) : Bool := r.extractLsb' 0 4 == 0#4

/-- A 64-bit position: a named register is even (R14). -/
def Src.pair : Src → Bool
  | .v r => isEven r
  | _ => true

def Src.noFlt : Src → Bool
  | .fltc _ => false
  | _ => true

def Src.noImm : Src → Bool
  | .imm _ => false
  | _ => true

/-- "s64" of R92: an even register, an integer constant or 0xFF. -/
def Src.int64 (s : Src) : Bool := s.pair && s.noFlt

/-- The value an operand asks of I (R69). -/
def Src.immVal : Src → Option Word
  | .imm x => some x
  | _ => none

/-- The I that an R or F format word carries: the immediate, or 0 (R69). -/
def immOf (a b c : Src) : Word :=
  match a.immVal, b.immVal, c.immVal with
  | some x, _, _ => x
  | none, some x, _ => x
  | none, none, some x => x
  | none, none, none => 0

/-- An operand agrees with the I of its word. -/
def Src.agrees (x : Word) : Src → Bool
  | .imm y => y == x
  | _ => true

/-- Every operand that names 0xFF reads the same I (R69). -/
def immsAgree (a b c : Src) : Bool :=
  let x := immOf a b c
  a.agrees x && b.agrees x && c.agrees x

/-- Data of a width: the register suits the width (R14, R151). -/
def regFor : Wid → VReg → Bool
  | .w64, r => isEven r
  | .w128, r => isQuad r
  | _, _ => true

def RC.dataFor (w : Wid) : RC → Bool
  | .v r => regFor w r
  | .c _ => true

/-! ### Modifier bits -/

/-- The floating-point byte of R71. -/
def FMod.byte (m : FMod) : BitVec 8 :=
  BitVec.ofBool m.negC ++ BitVec.ofBool m.negB ++ BitVec.ofBool m.absA ++ BitVec.ofBool m.negA
    ++ BitVec.ofBool m.sat ++ BitVec.ofBool m.ftz ++ m.rnd

/-- Only bits of the mask are set (R124, R136). -/
def FMod.within (m : FMod) (mask : BitVec 8) : Bool := m.byte &&& ~~~mask == 0#8

/-- Rounding, FTZ, SAT, −A, |A|, −B (Table 5.1). -/
def maskTwo : BitVec 8 := 0x7F
/-- All M bits (Table 5.1). -/
def maskThree : BitVec 8 := 0xFF
/-- FTZ, SAT, −A, |A|, −B (Table 5.1, minimum and maximum). -/
def maskMin : BitVec 8 := 0x7C
/-- Rounding, FTZ, SAT, −A, |A| (Table 5.1, one operand). -/
def maskOne : BitVec 8 := 0x3F
/-- −A, |A| (FCLS, QE4, QE2). -/
def maskSignA : BitVec 8 := 0x30

/-- Formats of CVT (Table 5.5). -/
def Fmt.isInt : Fmt → Bool
  | .int8 | .int16 | .int32 | .int64 => true
  | _ => false

def Fmt.isFloat : Fmt → Bool
  | .fp16 | .bf16 | .fp32 | .fp64 | .e4m3 => true
  | _ => false

def Fmt.is64 : Fmt → Bool
  | .int64 | .fp64 => true
  | _ => false

/-- Formats of MMB and MSCALE (Table 7.5). -/
def Fmt.isMmb : Fmt → Bool
  | .int8 | .int4 | .int2 | .e4m3 | .e2m1x => true
  | _ => false

/-- Formats of MMA (Table 7.5). -/
def Fmt.isMma : Fmt → Bool
  | .fp16 | .bf16 => true
  | _ => false

/-- Formats with scale words. -/
def Fmt.isBlock : Fmt → Bool
  | .e4m3 | .e2m1x => true
  | _ => false

/-- Full count of serial planes (Table 3.9). -/
def Fmt.planes : Fmt → Nat
  | .int8 | .bf16 => 8
  | .int4 | .e4m3 | .e2m1x => 4
  | .int2 => 2
  | .fp16 => 11
  | _ => 0

/-- Widths up to 64 bits. -/
def Wid.upTo64 : Wid → Bool
  | .w128 => false
  | _ => true

def Wid.is3264 : Wid → Bool
  | .w32 | .w64 => true
  | _ => false

/-- SX only with 8 or 16 bits (R151). -/
def LdMod.ok (m : LdMod) : Bool := !m.sx || m.wid == .w8 || m.wid == .w16

def blockOnly : Option Scope → Bool
  | none => true
  | some s => s == .block

def AOrd.blockOnly : AOrd → Bool
  | .relaxed => true
  | .acq s | .rel s | .acqRel s => s == .block

/-- RED and REDF accept ORD 0 and 2 (R171). -/
def AOrd.redOk : AOrd → Bool
  | .relaxed => true
  | .rel _ => true
  | _ => false

def ATy.isInt : ATy → Bool
  | .si | .ns => true
  | _ => false

/-- OP 0, 1, 2, 6 (Table 6.5). -/
def AOp.floatOk : AOp → Bool
  | .add | .min | .max | .exch => true
  | _ => false

def AtMod.intOk (m : AtMod) : Bool := m.wid.is3264 && m.ty.isInt
def AtMod.floatOk (m : AtMod) : Bool :=
  !m.ty.isInt && m.op.floatOk && (m.wid == .w32 || (m.wid == .w64 && m.ty == .f))
def AtMod.localOk (m : AtMod) : Bool := (m.intOk || m.floatOk) && m.ord.blockOnly

/-- A token, a queue address or another register that 0x00 means to be absent cannot be named v0. -/
def destOk : Option VReg → Bool
  | none => true
  | some r => r != 0#6

/-- A copy has at most one scratchpad side (Table 6.9). -/
def CpySide.isSpad : CpySide → Bool
  | .spad _ => true
  | .obj _ _ => false

/-- BWT names an even pair (R211). -/
def QOps.ok (o : QOps) : Bool :=
  match o.bwt with
  | none => true
  | some r => isEven r

/-- A fragment of n registers starting at r lies within v63 (R205). -/
def fragOk (r : VReg) (n : Nat) : Bool := isOct r && decide (r.toNat + n ≤ 64)

/-- Indices SRD may name (Table 1.5). -/
def srdIndex (i : BitVec 8) : Bool :=
  let n := i.toNat
  decide (n ≤ 0x0D ∨ (0x10 ≤ n ∧ n ≤ 0x13) ∨ (0x18 ≤ n ∧ n ≤ 0x1D) ∨ (0x20 ≤ n ∧ n ≤ 0x30))

/-- Indices SWR may name: FPX and the SGEN words (Table 1.5, R22). -/
def swrIndex (i : BitVec 8) : Bool :=
  let n := i.toNat
  decide (n = 0x19 ∨ (0x20 ≤ n ∧ n ≤ 0x2F))

/-! ### Families of instructions with one operand shape -/

def wf32 (a b : Src) : Bool := immsAgree a b (.v 0)
def wf32x3 (a b c : Src) : Bool := immsAgree a b c
/-- Both sources 64-bit integers, the destination a pair. -/
def wfI64 (d : VReg) (a b : Src) : Bool := isEven d && a.int64 && b.int64 && immsAgree a b (.v 0)
/-- A 64-bit value and a 32-bit count. -/
def wfSh64 (d : VReg) (a b : Src) : Bool := isEven d && a.int64 && immsAgree a b (.v 0)
def wfF2 (m : FMod) (mask : BitVec 8) (a b : Src) : Bool := m.within mask && immsAgree a b (.v 0)
def wfF1 (m : FMod) (mask : BitVec 8) : Bool := m.within mask
def wfF3 (m : FMod) (a b c : Src) : Bool := m.within maskThree && immsAgree a b c
def wfD2 (m : FMod) (mask : BitVec 8) (d : VReg) (a b : Src) : Bool :=
  m.within mask && isEven d && a.pair && b.pair && immsAgree a b (.v 0)

/-- CVT (Table 5.5, R135, R136). -/
def wfCvt (m : FMod) (df sf : Fmt) (su du : Bool) (d : VReg) (a : Src) : Bool :=
  (sf.isInt || sf.isFloat) && (df.isInt || df.isFloat)
    && m.within (if sf.isFloat then 0x3F else 0x0B)
    && (!su || sf.isInt) && (!du || df.isInt)
    && (!df.is64 || isEven d) && (!sf.is64 || a.pair)
    && a.noImm && (a.noFlt || !(sf == .int8 || sf == .e4m3))

/-- CVT2 (R136, R140). -/
def wfCvt2 (m : FMod) (df sf : Fmt) (d : VReg) (a b : Src) : Bool :=
  let packed (f : Fmt) : Bool := f == .fp16x2 || f == .bf16x2
  m.within (if sf == .fp32 then 0x7F else 0x3F) && a.noImm && b.noImm
    && ((sf == .fp32 && packed df)
      || (packed sf && df == .fp32 && isEven d && b == .v 0)
      || (packed sf && packed df && sf != df && b == .v 0))

/-- MMA and MMB (R218). -/
def wfMul (fmt : Fmt) (prec : BitVec 4) (n : Nat) (o : QOps) : Bool :=
  decide (prec.toNat ≤ fmt.planes) && fragOk o.b n && o.ok

/-- The instructions that some word encodes; every event is well-formed as a term. -/
def Instr.wf : Instr → Bool
  | .iadd _ _ a b | .isub _ _ a b | .imul _ _ a b | .and _ _ a b | .or _ _ a b | .xor _ _ a b | .andn _ _ a b
  | .shl _ _ a b | .shr _ _ a b | .sar _ _ a b => wf32 a b
  | .imulh _ _ _ a b | .imin _ _ _ a b | .imax _ _ _ a b | .iadds _ _ _ a b | .isubs _ _ _ a b
  | .bfe _ _ _ a b => wf32 a b
  | .imulw _ _ d a b => isEven d && wf32 a b
  | .imad _ _ d a b c => isEven d && c.int64 && wf32x3 a b c
  | .bfi _ _ a b c => wf32x3 a b c
  | .iadd64 _ d a b | .isub64 _ d a b => wfI64 d a b
  | .shl64 _ d a b | .shr64 _ d a b | .sar64 _ d a b => wfSh64 d a b
  | .ovq _ d _ => isEven d
  | .cmpi _ _ _ _ _ a b | .cmpf _ _ _ _ _ _ a b | .cmph _ _ _ _ _ _ a b => wf32 a b
  | .cmpd _ _ _ _ _ _ a b => a.pair && b.pair && wf32 a b
  | .sel _ _ a b _ => wf32 a b
  | .vtop _ a b => wf32 a b
  | .srd _ _ i => srdIndex i
  | .swr _ i _ => swrIndex i
  | .shfl _ _ _ _ a _ => a.noImm
  | .wred _ _ _ _ a | .wscan _ _ _ _ _ a | .matchEq _ _ _ a => a.noImm
  | .fadd _ m _ a b | .fsub _ m _ a b | .fmul _ m _ a b | .fdiv _ m _ a b | .hadd2 _ m _ a b | .hmul2 _ m _ a b
  | .badd2 _ m _ a b | .bmul2 _ m _ a b => wfF2 m maskTwo a b
  | .ffma _ m _ a b c | .hfma2 _ m _ a b c | .bfma2 _ m _ a b c => wfF3 m a b c
  | .fmin _ m _ a b | .fmax _ m _ a b | .hmin2 _ m _ a b | .hmax2 _ m _ a b | .bmin2 _ m _ a b
  | .bmax2 _ m _ a b => wfF2 m maskMin a b
  | .frcp _ m _ _ | .frsq _ m _ _ | .fsqrt _ m _ _ | .fexp2 _ m _ _ | .flog2 _ m _ _ | .frnd _ m _ _ => wfF1 m maskOne
  | .fcls _ m _ _ => wfF1 m maskSignA
  | .dadd _ m d a b | .dmul _ m d a b | .ddiv _ m d a b => wfD2 m maskTwo d a b
  | .dmin _ m d a b | .dmax _ m d a b => wfD2 m maskMin d a b
  | .dfma _ m d a b c => isEven d && a.pair && b.pair && c.pair && wfF3 m a b c
  | .dsqrt _ m d a => isEven d && a.pair && wfF1 m maskOne
  | .cvt _ m df sf su du d a => wfCvt m df sf su du d a
  | .cvt2 _ m df sf d a b => wfCvt2 m df sf d a b
  | .qe4 _ m _ a b => wfF1 m maskSignA && isQuad a && b.noImm
  | .qe2 _ m _ _ a b c => wfF1 m maskSignA && isQuad a && b.noImm && c.noImm
  | .dq _ m df sf el _ a b =>
    m.within 0x0F && sf.isBlock && (df == .fp32 || df == .fp16 || df == .bf16)
      && (sf == .e2m1x || decide (el.toNat ≤ 3)) && a.noImm && b.noImm
  | .bscale _ fmt spec _ a => fmt.isBlock && (fmt == .e2m1x || spec == 0#5) && a.noImm
  | .ld _ m d _ => m.ok && regFor m.wid d
  | .st _ m _ c => c.dataFor m.wid
  | .ldl _ m d _ => m.ok && regFor m.wid d && blockOnly m.acq
  | .stl _ m _ c => c.dataFor m.wid && blockOnly m.rel
  | .lda _ w d _ => w != .w8 && w != .w16 && regFor w d
  | .sta _ w _ c => w != .w8 && w != .w16 && c.dataFor w
  | .cst _ m _ c _ => m.wid.upTo64 && c.dataFor m.wid
  | .xld _ m d _ _ => m.ok && m.wid.upTo64 && regFor m.wid d
  | .capoff _ _ _ b | .capnar _ _ _ b | .capchk _ _ _ b => b.int64
  | .atom _ m d _ c => m.intOk && c.dataFor m.wid && (match d with | none => true | some r => regFor m.wid r)
  | .atomf _ m d _ c => m.floatOk && c.dataFor m.wid && regFor m.wid d
  | .cas _ w _ d _ c => w.is3264 && regFor w d && c.dataFor w
  | .cas128 _ _ d _ c => isQuad d && isQuad c
  | .red _ m _ c => m.intOk && m.ord.redOk && c.dataFor m.wid
  | .redf _ m _ c => m.floatOk && m.ord.redOk && c.dataFor m.wid
  | .atoml _ m d _ c => m.localOk && c.dataFor m.wid && regFor m.wid d
  | .casl _ w o d _ c => w.is3264 && o.blockOnly && regFor w d && c.dataFor w
  | .dage _ _ c => (match c with | .v _ | .fltc _ => true | _ => false)
  | .stepinc _ d | .barv _ d _ | .barw _ d _ => destOk d
  | .mwait _ d _ => destOk d
  | .dqry _ d => isEven d
  | .cpy _ _ dst src _ _ => !(dst.isSpad && src.isSpad)
  | .cpyg _ _ _ _ _ _ _ e _ => decide (e.toNat ≤ 10)
  | .cpys _ _ _ _ _ _ _ _ e _ => decide (e.toNat ≤ 10)
  | .cpyq _ _ _ _ p => isHex p
  | .rinit _ _ c => isEven c
  | .mma _ fmt prec o => fmt.isMma && wfMul fmt prec 16 o
  | .mmb _ fmt prec o => fmt.isMmb && wfMul fmt prec 8 o
  | .mscale _ fmt _ _ o => fmt.isMmb && (if fmt.isBlock then isEven o.b else o.b == 0#6) && o.ok
  | .plane _ fmt _ sg _ _ b _ => (fmt.isMmb || fmt.isMma) && isEven b && (fmt == .e2m1x || sg == 0#2)
  | .acvt _ fmt sg _ _ b _ => (fmt.isBlock || fmt.isMma) && isEven b && (fmt.isBlock || sg == 0#2)
  | .bld _ fmt sg d _ =>
    (fmt.isMmb || fmt.isMma) && fragOk d (if fmt.isMma then 16 else 8) && (fmt == .e2m1x || sg == 0#2)
  | .tinfo _ w _ => decide (w.toNat ≤ 5)
  | .udf raw => raw.extractLsb' 0 12 == 0xD02#12
  | _ => true

end Sys2Proof
end

