-- ==== Sys2Proof/Decode.lean ====
section
/-! DEFINITION. The 96-bit instruction word (spec/03_encoding.md R66): its fields, the decoder, total on every word
and rejecting by name, and the encoder written from the same tables. -/

namespace Sys2Proof

/-! ### Fields of the word (Table 3.3) -/

/-- The fields of an instruction word whose bits [23:22] are 0. -/
structure Fields where
  op : BitVec 12
  h : Hdr
  d : BitVec 8
  a : BitVec 8
  b : BitVec 8
  c : BitVec 8
  m : BitVec 8
  i : BitVec 32
  deriving DecidableEq, Repr

/-- Bits [31:0] of the word: D, Y, NF, PN, P, S and op. -/
def Fields.low (f : Fields) : BitVec 32 :=
  f.d ++ 0#2 ++ BitVec.ofBool f.h.yield ++ BitVec.ofBool f.h.nf ++ BitVec.ofBool f.h.neg ++ f.h.pred ++ f.h.stall ++ f.op

/-- The word of the fields (R66). -/
def Fields.pack (f : Fields) : IWord := f.i ++ f.m ++ f.c ++ f.b ++ f.a ++ f.low

/-- The header bits of a word. -/
def hdrOf (w : IWord) : Hdr :=
  ⟨w.extractLsb' 12 4, w.extractLsb' 16 3, w.getLsbD 19, w.getLsbD 20, w.getLsbD 21⟩

/-- The fields of a word (R66). -/
def fieldsOf (w : IWord) : Fields :=
  ⟨w.extractLsb' 0 12, hdrOf w, w.extractLsb' 24 8, w.extractLsb' 32 8, w.extractLsb' 40 8, w.extractLsb' 48 8,
   w.extractLsb' 56 8, w.extractLsb' 64 32⟩

/-! ### Specifiers (Table 1.9) -/

def vByte (r : VReg) : BitVec 8 := 0b00#2 ++ r
def aByte (r : AReg) : BitVec 8 := 0b01000#5 ++ r
def pByte (r : PReg) : BitVec 8 := 0b01001#5 ++ r
def qByte (r : QReg) : BitVec 8 := 0b0101#4 ++ r

def Src.byte : Src → BitVec 8
  | .v r => vByte r
  | .intc n => 0b100#3 ++ n
  | .fltc n => 0b101#3 ++ n
  | .imm _ => 0xFF#8

def RC.byte : RC → BitVec 8
  | .v r => vByte r
  | .c n => 0b100#3 ++ n

/-- A destination that 0x00 marks absent. -/
def optByte : Option VReg → BitVec 8
  | none => 0#8
  | some r => vByte r

/-- A register that 0x80 marks absent (R74). -/
def barByte : Option VReg → BitVec 8
  | none => 0x80#8
  | some r => vByte r

def toV (x : BitVec 8) : Option VReg := if x.extractLsb' 6 2 = 0#2 then some (x.extractLsb' 0 6) else none
def toA (x : BitVec 8) : Option AReg := if x.extractLsb' 3 5 = 0b01000#5 then some (x.extractLsb' 0 3) else none
def toP (x : BitVec 8) : Option PReg := if x.extractLsb' 3 5 = 0b01001#5 then some (x.extractLsb' 0 3) else none
def toQ (x : BitVec 8) : Option QReg := if x.extractLsb' 4 4 = 0b0101#4 then some (x.extractLsb' 0 4) else none

/-- A source specifier, 0xFF reading I (R30, R31). -/
def toSrc (x : BitVec 8) (i : Word) : Option Src :=
  if x.extractLsb' 6 2 = 0#2 then some (.v (x.extractLsb' 0 6))
  else if x.extractLsb' 5 3 = 0b100#3 then some (.intc (x.extractLsb' 0 5))
  else if x.extractLsb' 5 3 = 0b101#3 then some (.fltc (x.extractLsb' 0 5))
  else if x = 0xFF#8 then some (.imm i)
  else none

def toRC (x : BitVec 8) : Option RC :=
  if x.extractLsb' 6 2 = 0#2 then some (.v (x.extractLsb' 0 6))
  else if x.extractLsb' 5 3 = 0b100#3 then some (.c (x.extractLsb' 0 5))
  else none

def toOptV (x : BitVec 8) : Option (Option VReg) :=
  if x = 0#8 then some none
  else if x.extractLsb' 6 2 = 0#2 then some (some (x.extractLsb' 0 6)) else none

def toBar (x : BitVec 8) : Option (Option VReg) :=
  if x = 0x80#8 then some none
  else if x.extractLsb' 6 2 = 0#2 then some (some (x.extractLsb' 0 6)) else none

/-! ### Modifier fields (Tables 3.5 to 3.9) -/

def toFMod (x : BitVec 8) : FMod :=
  ⟨x.extractLsb' 0 2, x.getLsbD 2, x.getLsbD 3, x.getLsbD 4, x.getLsbD 5, x.getLsbD 6, x.getLsbD 7⟩

def Cmp.code : Cmp → BitVec 3
  | .eq => 0 | .ne => 1 | .lt => 2 | .le => 3 | .gt => 4 | .ge => 5

def toCmp (x : BitVec 3) : Option Cmp :=
  match x.toNat with
  | 0 => some .eq | 1 => some .ne | 2 => some .lt | 3 => some .le | 4 => some .gt | 5 => some .ge | _ => none

def Comb.code : Comb → BitVec 2
  | .none => 0 | .andP _ => 1 | .orP _ => 2 | .xorP _ => 3

/-- The C byte of a compare (R95). -/
def Comb.byte : Comb → BitVec 8
  | .none => 0 | .andP c | .orP c | .xorP c => pByte c

def toComb (code : BitVec 2) (c : BitVec 8) : Option Comb :=
  match code.toNat with
  | 0 => some .none
  | 1 => (toP c).map .andP
  | 2 => (toP c).map .orP
  | _ => (toP c).map .xorP

def VoteOp.code : VoteOp → BitVec 3
  | .all => 0 | .any => 1 | .uni => 2

def toVote (x : BitVec 3) : Option VoteOp :=
  match x.toNat with
  | 0 => some .all | 1 => some .any | 2 => some .uni | _ => none

def ShflOp.code : ShflOp → BitVec 3
  | .idx => 0 | .up => 1 | .down => 2 | .xor => 3

def toShfl (x : BitVec 3) : Option ShflOp :=
  match x.toNat with
  | 0 => some .idx | 1 => some .up | 2 => some .down | 3 => some .xor | _ => none

/-- M of WRED and WSCAN without EXCL: FL [6], OP [5:3], NS or rounding and FTZ [2:0] (R99). -/
def WOp.code : WOp → BitVec 7
  | .int .add => 0b0000000 | .int (.min ns) => 0b000100#6 ++ BitVec.ofBool ns
  | .int (.max ns) => 0b001000#6 ++ BitVec.ofBool ns
  | .int .and => 0b0011000 | .int .or => 0b0100000 | .int .xor => 0b0101000
  | .fadd rnd ftz => 0b1000#4 ++ BitVec.ofBool ftz ++ rnd
  | .fmin ftz => 0b1001#4 ++ BitVec.ofBool ftz ++ 0#2
  | .fmax ftz => 0b1010#4 ++ BitVec.ofBool ftz ++ 0#2

def toWOp (x : BitVec 7) : Option WOp :=
  let ns := x.getLsbD 0
  let ftz := x.getLsbD 2
  match (x.extractLsb' 3 4).toNat with
  | 0 => some (.int .add) | 1 => some (.int (.min ns)) | 2 => some (.int (.max ns))
  | 3 => some (.int .and) | 4 => some (.int .or) | 5 => some (.int .xor)
  | 8 => some (.fadd (x.extractLsb' 0 2) ftz) | 9 => some (.fmin ftz) | 10 => some (.fmax ftz)
  | _ => none

/-- Format codes (Table 3.9). -/
def Fmt.code : Fmt → BitVec 8
  | .int8 => 0x0 | .int16 => 0x1 | .int32 => 0x2 | .int64 => 0x3 | .int4 => 0x4 | .int2 => 0x5
  | .fp16 => 0x6 | .bf16 => 0x7 | .fp32 => 0x8 | .fp64 => 0x9 | .e4m3 => 0xA | .e2m1x => 0xB
  | .fp16x2 => 0xC | .bf16x2 => 0xD

def toFmt (x : BitVec 8) : Option Fmt :=
  match x.toNat with
  | 0x0 => some .int8 | 0x1 => some .int16 | 0x2 => some .int32 | 0x3 => some .int64 | 0x4 => some .int4
  | 0x5 => some .int2 | 0x6 => some .fp16 | 0x7 => some .bf16 | 0x8 => some .fp32 | 0x9 => some .fp64
  | 0xA => some .e4m3 | 0xB => some .e2m1x | 0xC => some .fp16x2 | 0xD => some .bf16x2 | _ => none

/-- FMT of format Q and of BLD: the low four bits (R76). -/
def Fmt.code4 (f : Fmt) : BitVec 4 := f.code.extractLsb' 0 4
def toFmt4 (x : BitVec 4) : Option Fmt := toFmt (0#4 ++ x)

def Wid.code : Wid → BitVec 3
  | .w8 => 0 | .w16 => 1 | .w32 => 2 | .w64 => 3 | .w128 => 4

def toWid (x : BitVec 3) : Option Wid :=
  match x.toNat with
  | 0 => some .w8 | 1 => some .w16 | 2 => some .w32 | 3 => some .w64 | 4 => some .w128 | _ => none

def CacheHint.code : CacheHint → BitVec 2
  | .dflt => 0 | .nc => 1 | .ef => 2

def toCH (x : BitVec 2) : Option CacheHint :=
  match x.toNat with
  | 0 => some .dflt | 1 => some .nc | 2 => some .ef | _ => none

def Scope.code : Scope → BitVec 2
  | .block => 0 | .device => 1 | .system => 2

def toScope (x : BitVec 2) : Option Scope :=
  match x.toNat with
  | 0 => some .block | 1 => some .device | 2 => some .system | _ => none

/-- ORD and SCOPE of a load or a store: ORD 0 with SCOPE 0, or ORD 1 (R72, Table 3.8). -/
def ordCode : Option Scope → BitVec 2
  | none => 0
  | some _ => 1

def ordScope : Option Scope → BitVec 2
  | none => 0
  | some s => s.code

def toOrd (ord scope : BitVec 2) : Option (Option Scope) :=
  match ord.toNat with
  | 0 => if scope = 0#2 then some none else none
  | 1 => (toScope scope).map some
  | _ => none

def AOrd.code : AOrd → BitVec 2
  | .relaxed => 0 | .acq _ => 1 | .rel _ => 2 | .acqRel _ => 3

def AOrd.scope : AOrd → BitVec 2
  | .relaxed => 0 | .acq s | .rel s | .acqRel s => s.code

def toAOrd (ord scope : BitVec 2) : Option AOrd :=
  match ord.toNat with
  | 0 => if scope = 0#2 then some .relaxed else none
  | 1 => (toScope scope).map .acq
  | 2 => (toScope scope).map .rel
  | _ => (toScope scope).map .acqRel

def AOp.code : AOp → BitVec 3
  | .add => 0 | .min => 1 | .max => 2 | .and => 3 | .or => 4 | .xor => 5 | .exch => 6

def toAOp (x : BitVec 3) : Option AOp :=
  match x.toNat with
  | 0 => some .add | 1 => some .min | 2 => some .max | 3 => some .and | 4 => some .or | 5 => some .xor
  | 6 => some .exch | _ => none

def ATy.code : ATy → BitVec 3
  | .si => 0 | .ns => 1 | .f => 2 | .h2 => 3 | .b2 => 4

def toATy (x : BitVec 3) : Option ATy :=
  match x.toNat with
  | 0 => some .si | 1 => some .ns | 2 => some .f | 3 => some .h2 | 4 => some .b2 | _ => none

def CopOp.code : CopOp → BitVec 2
  | .addI => 0 | .addF => 1 | .maxI => 2 | .maxF => 3

def toCop (x : BitVec 2) : CopOp :=
  match x.toNat with
  | 0 => .addI | 1 => .addF | 2 => .maxI | _ => .maxF

def FenceKind.code : FenceKind → BitVec 2
  | .acq => 1 | .rel => 2 | .full => 3

def toFence (x : BitVec 2) : Option FenceKind :=
  match x.toNat with
  | 1 => some .acq | 2 => some .rel | 3 => some .full | _ => none

/-! ### Encoding by format -/

/-- Formats R and F: a destination byte, up to three sources, M; I from the immediate (R69). A source the
instruction has not is `.v 0`, whose byte is 0x00. -/
def fSrc (op : BitVec 12) (h : Hdr) (m d : BitVec 8) (a b c : Src) : Fields :=
  ⟨op, h, d, a.byte, b.byte, c.byte, m, immOf a b c⟩

/-- The absent operand, byte 0x00. -/
def noSrc : Src := .v 0

/-- Formats whose operand bytes are given one by one. -/
def fRaw (op : BitVec 12) (h : Hdr) (d a b c m : BitVec 8) (i : Word) : Fields := ⟨op, h, d, a, b, c, m, i⟩

/-- Format M over a capability (Table 3.5). -/
def fCap (op : BitVec 12) (h : Hdr) (d : BitVec 8) (x : CapAddr) (c m xm : BitVec 8) : Fields :=
  ⟨op, h, d, aByte x.a, x.idx.byte, c, m, xm ++ x.disp⟩

/-- Format M over scratchpad or the accumulator store (Table 3.5). -/
def fLoc (op : BitVec 12) (h : Hdr) (d : BitVec 8) (x : LocAddr) (c m xm : BitVec 8) : Fields :=
  ⟨op, h, d, 0, x.idx.byte, c, m, xm ++ x.disp⟩

/-- M of a memory access: ORD, CH, SX, WID (Table 3.8). -/
def memM (ord ch : BitVec 2) (sx : Bool) (wid : Wid) : BitVec 8 := ord ++ ch ++ BitVec.ofBool sx ++ wid.code

def LdMod.m (x : LdMod) : BitVec 8 := memM (ordCode x.acq) x.ch.code x.sx x.wid
def LdMod.xm (x : LdMod) : BitVec 8 := ordScope x.acq ++ 0#6
def StMod.m (x : StMod) : BitVec 8 := memM (ordCode x.rel) x.ch.code false x.wid
def StMod.xm (x : StMod) : BitVec 8 := ordScope x.rel ++ 0#6
/-- M with a width alone. -/
def widM (w : Wid) : BitVec 8 := 0#5 ++ w.code
/-- M of an atomic: ORD, RET, WID (Table 3.8). -/
def atM (o : AOrd) (ret : Bool) (w : Wid) : BitVec 8 := o.code ++ 0#2 ++ BitVec.ofBool ret ++ w.code
/-- XM of an atomic: SCOPE, TY, OP (Table 3.8). -/
def atXM (o : AOrd) (ty : ATy) (op : AOp) : BitVec 8 := o.scope ++ ty.code ++ op.code

/-- CTL overlay operand: the A byte, IND and OVID (R112). -/
def OvSel.byte : OvSel → BitVec 8
  | .id _ => 0
  | .reg r => vByte r

/-- I of an overlay instruction: ENTRY [31:17], IND [8], OVID [7:0] (Table 4.10). -/
def ovI (entry : BitVec 15) : OvSel → Word
  | .id n => entry ++ 0#9 ++ n
  | .reg _ => entry ++ 0#8 ++ 1#1 ++ 0#8

/-- I of a format V word: VX, SFMT, DFMT (Table 3.6). -/
def fmtI (vx : BitVec 16) (sf df : Fmt) : Word := vx ++ sf.code ++ df.code

/-- Format Q (Table 3.7). -/
def fQ (op : BitVec 12) (h : Hdr) (fmt : Fmt) (prec : BitVec 4) (qx : BitVec 8) (o : QOps) : Fields :=
  ⟨op, h, qByte o.q, vByte o.a, vByte o.b, vByte o.c, fmt.code4 ++ prec,
   qx ++ barByte o.bar ++ barByte o.bwt ++ vByte o.mask⟩

/-- The capability or scratchpad specifier of a copy side (Table 6.8). -/
def CpySide.capByte : CpySide → BitVec 8
  | .obj c _ => aByte c
  | .spad _ => 0

def CpySide.offByte : CpySide → BitVec 8
  | .obj _ o => vByte o
  | .spad r => vByte r

/-- I of a copy: COP, RSC, ESZ, IDX, CNT, SOFF (Table 6.8). -/
def cpyI (cop rsc : BitVec 2) (esz : BitVec 4) (idx cnt soff : BitVec 8) : Word :=
  cop ++ rsc ++ esz ++ idx ++ cnt ++ soff

/-- KIND of CPY (Table 6.9). -/
def cpyKind (dst src : CpySide) : BitVec 8 := if dst.isSpad then 1 else if src.isSpad then 2 else 0

def combM : Option CopOp → BitVec 1
  | none => 0
  | some _ => 1

def combCop : Option CopOp → BitVec 2
  | none => 0
  | some c => c.code

/-- M of WAV: EXCL and the operator (R99). -/
def wavM (excl : Bool) (op : WOp) : BitVec 8 := BitVec.ofBool excl ++ op.code
/-- M of VOTE and SHFL: OP at [5:3]. -/
def opM (op : BitVec 3) : BitVec 8 := 0#2 ++ op ++ 0#3
/-- M of a compare: CMP, NS or NAN, FTZ, COMB (Table 3.8). -/
def cmpM (c : Cmp) (n3 ftz : Bool) (comb : Comb) : BitVec 8 :=
  0#1 ++ c.code ++ BitVec.ofBool n3 ++ BitVec.ofBool ftz ++ comb.code

def nsM (ns : Bool) : BitVec 8 := 0#7 ++ BitVec.ofBool ns

def MovSrc.byte : MovSrc → BitVec 8
  | .src a => a.byte
  | .q r => qByte r

def MovSrc.imm : MovSrc → Word
  | .src a => immOf a noSrc noSrc
  | .q _ => 0

/-- The fields of an instruction's word, from the tables of chapters 3 to 7; none for an event and for UDF,
whose word `encode` gives. -/
def Instr.fields : Instr → Option Fields
  | .nop h => some (fSrc 0x000 h 0 0 noSrc noSrc noSrc)
  | .bra h off => some (fRaw 0x001 h 0 0 0 0 0 off)
  | .brx h a => some (fRaw 0x002 h 0 (vByte a) 0 0 0 0)
  | .call h d off => some (fRaw 0x003 h (vByte d) 0 0 0 0 off)
  | .ret h a => some (fRaw 0x004 h 0 (vByte a) 0 0 0 0)
  | .callo h d o n => some (fRaw 0x005 h (vByte d) o.byte 0 0 0 (ovI n o))
  | .jmpo h o n => some (fRaw 0x006 h 0 o.byte 0 0 0 (ovI n o))
  | .exit h => some (fRaw 0x007 h 0 0 0 0 0 0)
  | .yield h => some (fRaw 0x008 h 0 0 0 0 0 0)
  | .trap h code => some (fRaw 0x009 h 0 0 0 0 0 (0#16 ++ code))
  | .bkpt h code => some (fRaw 0x00A h 0 0 0 0 0 (0#16 ++ code))
  | .twait h a => some (fSrc 0x00B h 0 0 a noSrc noSrc)
  | .ovld h d o => some (fRaw 0x00C h (vByte d) o.byte 0 0 0 (ovI 0 o))
  | .ovrel h o => some (fRaw 0x00D h 0 o.byte 0 0 0 (ovI 0 o))
  | .ovq h d o => some (fRaw 0x00E h (vByte d) o.byte 0 0 0 (ovI 0 o))
  | .iadd h d a b => some (fSrc 0x100 h 0 (vByte d) a b noSrc)
  | .isub h d a b => some (fSrc 0x101 h 0 (vByte d) a b noSrc)
  | .imul h d a b => some (fSrc 0x102 h 0 (vByte d) a b noSrc)
  | .imulh h ns d a b => some (fSrc 0x103 h (nsM ns) (vByte d) a b noSrc)
  | .imulw h ns d a b => some (fSrc 0x104 h (nsM ns) (vByte d) a b noSrc)
  | .imad h ns d a b c => some (fSrc 0x105 h (nsM ns) (vByte d) a b c)
  | .imin h ns d a b => some (fSrc 0x106 h (nsM ns) (vByte d) a b noSrc)
  | .imax h ns d a b => some (fSrc 0x107 h (nsM ns) (vByte d) a b noSrc)
  | .iabs h d a => some (fSrc 0x108 h 0 (vByte d) a noSrc noSrc)
  | .iadds h ns d a b => some (fSrc 0x109 h (nsM ns) (vByte d) a b noSrc)
  | .isubs h ns d a b => some (fSrc 0x10A h (nsM ns) (vByte d) a b noSrc)
  | .and h d a b => some (fSrc 0x10B h 0 (vByte d) a b noSrc)
  | .or h d a b => some (fSrc 0x10C h 0 (vByte d) a b noSrc)
  | .xor h d a b => some (fSrc 0x10D h 0 (vByte d) a b noSrc)
  | .andn h d a b => some (fSrc 0x10E h 0 (vByte d) a b noSrc)
  | .shl h d a b => some (fSrc 0x10F h 0 (vByte d) a b noSrc)
  | .shr h d a b => some (fSrc 0x110 h 0 (vByte d) a b noSrc)
  | .sar h d a b => some (fSrc 0x111 h 0 (vByte d) a b noSrc)
  | .bfe h ns d a b => some (fSrc 0x112 h (nsM ns) (vByte d) a b noSrc)
  | .bfi h d a b c => some (fSrc 0x113 h 0 (vByte d) a b c)
  | .popc h d a => some (fSrc 0x114 h 0 (vByte d) a noSrc noSrc)
  | .clz h d a => some (fSrc 0x115 h 0 (vByte d) a noSrc noSrc)
  | .brev h d a => some (fSrc 0x116 h 0 (vByte d) a noSrc noSrc)
  | .iadd64 h d a b => some (fSrc 0x117 h 0 (vByte d) a b noSrc)
  | .isub64 h d a b => some (fSrc 0x118 h 0 (vByte d) a b noSrc)
  | .shl64 h d a b => some (fSrc 0x119 h 0 (vByte d) a b noSrc)
  | .shr64 h d a b => some (fSrc 0x11A h 0 (vByte d) a b noSrc)
  | .sar64 h d a b => some (fSrc 0x11B h 0 (vByte d) a b noSrc)
  | .cmpi h ns c k d a b => some (⟨0x200, h, pByte d, a.byte, b.byte, k.byte, cmpM c ns false k, immOf a b noSrc⟩)
  | .cmpf h ftz nan c k d a b => some (⟨0x201, h, pByte d, a.byte, b.byte, k.byte, cmpM c nan ftz k, immOf a b noSrc⟩)
  | .cmpd h ftz nan c k d a b => some (⟨0x202, h, pByte d, a.byte, b.byte, k.byte, cmpM c nan ftz k, immOf a b noSrc⟩)
  | .cmph h ftz nan c k d a b => some (⟨0x203, h, pByte d, a.byte, b.byte, k.byte, cmpM c nan ftz k, immOf a b noSrc⟩)
  | .pfun h d a b c t => some (fRaw 0x204 h (pByte d) (pByte a) (pByte b) (pByte c) t 0)
  | .sel h d a b c => some (⟨0x205, h, vByte d, a.byte, b.byte, pByte c, 0, immOf a b noSrc⟩)
  | .mov h d a => some (fRaw 0x206 h (vByte d) a.byte 0 0 0 a.imm)
  | .movi h d x => some (fRaw 0x207 h (vByte d) 0 0 0 0 x)
  | .ptov h d => some (fRaw 0x208 h (vByte d) 0 0 0 0 0)
  | .vtop h a b => some (fSrc 0x209 h 0 0 a b noSrc)
  | .srd h d x => some (fRaw 0x20A h (vByte d) 0 0 0 0 (0#24 ++ x))
  | .swr h x a => some (fRaw 0x20B h 0 a.byte 0 0 0 (0#24 ++ x))
  | .ballot h k d a => some (fRaw 0x300 h (vByte d) (pByte a) 0 0 0 k)
  | .vote h k o d a => some (fRaw 0x301 h (pByte d) (pByte a) 0 0 (opM o.code) k)
  | .shfl h k o d a b => some (fRaw 0x302 h (vByte d) a.byte b.byte 0 (opM o.code) k)
  | .wred h k o d a => some (fRaw 0x303 h (vByte d) a.byte 0 0 (wavM false o) k)
  | .wscan h k o x d a => some (fRaw 0x304 h (vByte d) a.byte 0 0 (wavM x o) k)
  | .matchEq h k d a => some (fRaw 0x305 h (vByte d) a.byte 0 0 0 k)
  | .wsync h k => some (fRaw 0x306 h 0 0 0 0 0 k)
  | .fadd h m d a b => some (fSrc 0x400 h m.byte (vByte d) a b noSrc)
  | .fsub h m d a b => some (fSrc 0x401 h m.byte (vByte d) a b noSrc)
  | .fmul h m d a b => some (fSrc 0x402 h m.byte (vByte d) a b noSrc)
  | .ffma h m d a b c => some (fSrc 0x403 h m.byte (vByte d) a b c)
  | .fmin h m d a b => some (fSrc 0x404 h m.byte (vByte d) a b noSrc)
  | .fmax h m d a b => some (fSrc 0x405 h m.byte (vByte d) a b noSrc)
  | .frcp h m d a => some (fSrc 0x406 h m.byte (vByte d) a noSrc noSrc)
  | .frsq h m d a => some (fSrc 0x407 h m.byte (vByte d) a noSrc noSrc)
  | .fsqrt h m d a => some (fSrc 0x408 h m.byte (vByte d) a noSrc noSrc)
  | .fdiv h m d a b => some (fSrc 0x409 h m.byte (vByte d) a b noSrc)
  | .fexp2 h m d a => some (fSrc 0x40A h m.byte (vByte d) a noSrc noSrc)
  | .flog2 h m d a => some (fSrc 0x40B h m.byte (vByte d) a noSrc noSrc)
  | .frnd h m d a => some (fSrc 0x40C h m.byte (vByte d) a noSrc noSrc)
  | .fcls h m d a => some (fSrc 0x40D h m.byte (vByte d) a noSrc noSrc)
  | .dadd h m d a b => some (fSrc 0x40E h m.byte (vByte d) a b noSrc)
  | .dmul h m d a b => some (fSrc 0x40F h m.byte (vByte d) a b noSrc)
  | .dfma h m d a b c => some (fSrc 0x410 h m.byte (vByte d) a b c)
  | .dmin h m d a b => some (fSrc 0x411 h m.byte (vByte d) a b noSrc)
  | .dmax h m d a b => some (fSrc 0x412 h m.byte (vByte d) a b noSrc)
  | .ddiv h m d a b => some (fSrc 0x413 h m.byte (vByte d) a b noSrc)
  | .dsqrt h m d a => some (fSrc 0x414 h m.byte (vByte d) a noSrc noSrc)
  | .hadd2 h m d a b => some (fSrc 0x415 h m.byte (vByte d) a b noSrc)
  | .hmul2 h m d a b => some (fSrc 0x416 h m.byte (vByte d) a b noSrc)
  | .hfma2 h m d a b c => some (fSrc 0x417 h m.byte (vByte d) a b c)
  | .hmin2 h m d a b => some (fSrc 0x418 h m.byte (vByte d) a b noSrc)
  | .hmax2 h m d a b => some (fSrc 0x419 h m.byte (vByte d) a b noSrc)
  | .badd2 h m d a b => some (fSrc 0x41A h m.byte (vByte d) a b noSrc)
  | .bmul2 h m d a b => some (fSrc 0x41B h m.byte (vByte d) a b noSrc)
  | .bfma2 h m d a b c => some (fSrc 0x41C h m.byte (vByte d) a b c)
  | .bmin2 h m d a b => some (fSrc 0x41D h m.byte (vByte d) a b noSrc)
  | .bmax2 h m d a b => some (fSrc 0x41E h m.byte (vByte d) a b noSrc)
  | .cvt h m df sf su du d a => some (fRaw 0x500 h (vByte d) a.byte 0 0 m.byte (fmtI (0#14 ++ BitVec.ofBool du ++ BitVec.ofBool su) sf df))
  | .cvt2 h m df sf d a b => some (fRaw 0x501 h (vByte d) a.byte b.byte 0 m.byte (fmtI 0 sf df))
  | .qe4 h m d a b => some (fRaw 0x502 h (vByte d) (vByte a) b.byte 0 m.byte (fmtI 0 .fp32 .e4m3))
  | .qe2 h m hi d a b c => some (fRaw 0x503 h (vByte d) (vByte a) b.byte c.byte m.byte (fmtI (0#15 ++ BitVec.ofBool hi) .fp32 .e2m1x))
  | .dq h m df sf el d a b => some (fRaw 0x504 h (vByte d) a.byte b.byte 0 m.byte (fmtI (0#13 ++ el) sf df))
  | .bscale h fmt sp d a => some (fRaw 0x505 h (vByte d) a.byte 0 0 0 (fmtI (0#11 ++ sp) .fp32 fmt))
  | .ld h m d x => some (fCap 0x600 h (vByte d) x 0 m.m m.xm)
  | .st h m x c => some (fCap 0x601 h 0 x c.byte m.m m.xm)
  | .ldl h m d x => some (fLoc 0x602 h (vByte d) x 0 m.m m.xm)
  | .stl h m x c => some (fLoc 0x603 h 0 x c.byte m.m m.xm)
  | .lda h w d x => some (fLoc 0x604 h (vByte d) x 0 (widM w) 0)
  | .sta h w x c => some (fLoc 0x605 h 0 x c.byte (widM w) 0)
  | .ldage h d x => some (fCap 0x606 h (vByte d) x 0 3 0)
  | .ldc h d x => some (fCap 0x607 h (aByte d) x 0 4 0)
  | .stc h x c => some (fCap 0x608 h 0 x (aByte c) 4 0)
  | .prf h x => some (fCap 0x609 h 0 x 0 0 0)
  | .cst h m x c k => some (fCap 0x60A h (vByte k) x c.byte m.m m.xm)
  | .xld h m d x k => some (fCap 0x60B h (vByte d) x (vByte k) m.m m.xm)
  | .capoff h d a b => some (fRaw 0x700 h (aByte d) (aByte a) b.byte 0 0 (immOf b noSrc noSrc))
  | .capadd h d a b => some (fRaw 0x701 h (aByte d) (aByte a) b.byte 0 0 (immOf b noSrc noSrc))
  | .capnar h d a b => some (fRaw 0x702 h (aByte d) (aByte a) b.byte 0 0 (immOf b noSrc noSrc))
  | .caprgt h d a b => some (fRaw 0x703 h (aByte d) (aByte a) b.byte 0 0 (immOf b noSrc noSrc))
  | .capget h f d a => some (fRaw 0x704 h (vByte d) (aByte a) 0 0 (0#5 ++ f) 0)
  | .capchk h d a b => some (fRaw 0x705 h (pByte d) (aByte a) b.byte 0 0 (immOf b noSrc noSrc))
  | .capmov h d a => some (fRaw 0x706 h (aByte d) (aByte a) 0 0 0 0)
  | .atom h m none x c => some (fCap 0x800 h 0 x c.byte (atM m.ord false m.wid) (atXM m.ord m.ty m.op))
  | .atom h m (some d) x c => some (fCap 0x800 h (vByte d) x c.byte (atM m.ord true m.wid) (atXM m.ord m.ty m.op))
  | .atomf h m d x c => some (fCap 0x801 h (vByte d) x c.byte (atM m.ord false m.wid) (atXM m.ord m.ty m.op))
  | .cas h w o d x c => some (fCap 0x802 h (vByte d) x c.byte (atM o false w) (atXM o .si .add))
  | .cas128 h o d x c => some (fCap 0x803 h (vByte d) x (vByte c) (atM o false .w128) (atXM o .si .add))
  | .red h m x c => some (fCap 0x804 h 0 x c.byte (atM m.ord false m.wid) (atXM m.ord m.ty m.op))
  | .redf h m x c => some (fCap 0x805 h 0 x c.byte (atM m.ord false m.wid) (atXM m.ord m.ty m.op))
  | .atoml h m d x c => some (fLoc 0x806 h (vByte d) x c.byte (atM m.ord false m.wid) (atXM m.ord m.ty m.op))
  | .casl h w o d x c => some (fLoc 0x807 h (vByte d) x c.byte (atM o false w) (atXM o .si .add))
  | .commitT h d => some (fRaw 0x900 h (vByte d) 0 0 0 0 0)
  | .commitB h d => some (fRaw 0x900 h (vByte d) 0 0 0 1 0)
  | .commitG h d => some (fRaw 0x900 h (vByte d) 0 0 0 2 0)
  | .commitP h d g => some (fRaw 0x900 h (vByte d) 0 0 0 3 (0#16 ++ g))
  | .dage h x c => some (fCap 0x901 h 0 x c.byte 3 0)
  | .stepinc h d => some (fRaw 0x902 h (optByte d) 0 0 0 0 0)
  | .dqry h d => some (fRaw 0x903 h (vByte d) 0 0 0 0 0)
  | .cpy h t dst src n r => some (fRaw 0xA00 h (vByte t) dst.capByte dst.offByte src.capByte (cpyKind dst src)
      (cpyI 0 r.code 0 0 (vByte n) src.offByte))
  | .cpyRing h t ring s o n r => some (fRaw 0xA00 h (vByte t) 0 (vByte ring) (aByte s) 3 (cpyI 0 r.code 0 0 (vByte n) (vByte o)))
  | .cpyg h t dst s o x n z r => some (fRaw 0xA01 h (vByte t) dst.capByte dst.offByte (aByte s) (if dst.isSpad then 1 else 0)
      (cpyI 0 r.code z (vByte x) (vByte n) (vByte o)))
  | .cpys h t k dc dof src x n z r => some (fRaw 0xA02 h (vByte t) (aByte dc) (vByte dof) src.capByte
      (0#4 ++ combM k ++ 0#2 ++ BitVec.ofBool src.isSpad) (cpyI (combCop k) r.code z (vByte x) (vByte n) src.offByte))
  | .cpyq h t a q p => some (fRaw 0xA03 h (vByte t) (aByte a) (vByte q) (vByte p) 0 0)
  | .rinit h x c => some (fLoc 0xA04 h 0 x (vByte c) 0 0)
  | .rres h d x => some (fLoc 0xA05 h (vByte d) x 0 0 0)
  | .rpub h x c => some (fLoc 0xA06 h 0 x (vByte c) 0 0)
  | .rwait h d x => some (fLoc 0xA07 h (vByte d) x 0 0 0)
  | .rrel h x c => some (fLoc 0xA08 h 0 x (vByte c) 0 0)
  | .binit h x c => some (fLoc 0xB00 h 0 x (vByte c) 0 0)
  | .barv h d x => some (fLoc 0xB01 h (optByte d) x 0 0 0)
  | .bwait h x c => some (fLoc 0xB02 h 0 x (vByte c) 0 0)
  | .barw h d x => some (fLoc 0xB03 h (optByte d) x 0 0 0)
  | .fence h k s => some (fRaw 0xB04 h 0 0 0 0 (0#4 ++ s.code ++ k.code) 0)
  | .grow h d a => some (fSrc 0xB05 h 0 (vByte d) a noSrc noSrc)
  | .mma h f p o => some (fQ 0xC00 h f p 0 o)
  | .mmb h f p o => some (fQ 0xC01 h f p 0 o)
  | .mscale h f sa sb o => some (fQ 0xC02 h f 0 (0#4 ++ sb ++ sa) o)
  | .mwait h d q => some (fRaw 0xC03 h (optByte d) (qByte q) 0 0 0 0)
  | .plane h f tr sg q a b k => some (fRaw 0xC04 h (qByte q) (vByte a) (vByte b) (vByte k) 0 (fmtI (0#13 ++ sg ++ BitVec.ofBool tr) f f))
  | .azero h p q a k => some (fRaw 0xC05 h (qByte q) (vByte a) (vByte k) 0 (0#7 ++ BitVec.ofBool p) 0)
  | .acvt h f sg q a b k => some (fRaw 0xC06 h (qByte q) (vByte a) (vByte b) (vByte k) 0 (fmtI (0#14 ++ sg) .fp32 f))
  | .amovOut h p q a b k => some (fRaw 0xC07 h (qByte q) (vByte a) (vByte b) (vByte k) (0#6 ++ BitVec.ofBool p ++ 0#1) 0)
  | .amovIn h p q a b k => some (fRaw 0xC07 h (qByte q) (vByte a) (vByte b) (vByte k) (0#6 ++ BitVec.ofBool p ++ 1#1) 0)
  | .fenceo h => some (fRaw 0xC08 h 0 0 0 0 0 0)
  | .bld h f sg d x => some (fLoc 0xC09 h (vByte d) x 0 (f.code4 ++ 0#4) (0#6 ++ sg))
  | .eret h => some (fRaw 0xD00 h 0 0 0 0 0 0)
  | .eretSkip h => some (fRaw 0xD00 h 0 0 0 0 1 0)
  | .tinfo h w d => some (fRaw 0xD01 h (vByte d) 0 0 0 (0#5 ++ w) 0)
  | _ => none

/-! ### Parsing by format -/

def toCap (f : Fields) : Option CapAddr := do
  let a ← toA f.a; let b ← toRC f.b; some ⟨a, b, f.i.extractLsb' 0 24⟩

def toLoc (f : Fields) : Option LocAddr := do
  let b ← toRC f.b; some ⟨b, f.i.extractLsb' 0 24⟩

def toLdMod (f : Fields) : Option LdMod := do
  let w ← toWid (f.m.extractLsb' 0 3)
  let ch ← toCH (f.m.extractLsb' 4 2)
  let o ← toOrd (f.m.extractLsb' 6 2) (f.i.extractLsb' 30 2)
  some ⟨w, f.m.getLsbD 3, ch, o⟩

def toStMod (f : Fields) : Option StMod := do
  let w ← toWid (f.m.extractLsb' 0 3)
  let ch ← toCH (f.m.extractLsb' 4 2)
  let o ← toOrd (f.m.extractLsb' 6 2) (f.i.extractLsb' 30 2)
  some ⟨w, ch, o⟩

def toAtMod (f : Fields) : Option AtMod := do
  let w ← toWid (f.m.extractLsb' 0 3)
  let op ← toAOp (f.i.extractLsb' 24 3)
  let ty ← toATy (f.i.extractLsb' 27 3)
  let o ← toAOrd (f.m.extractLsb' 6 2) (f.i.extractLsb' 30 2)
  some ⟨w, op, ty, o⟩

def toOv (f : Fields) : Option OvSel :=
  if f.i.getLsbD 8 then (toV f.a).map .reg else some (.id (f.i.extractLsb' 0 8))

def toMov (f : Fields) : Option MovSrc :=
  match toQ f.a with
  | some q => some (.q q)
  | none => (toSrc f.a f.i).map .src

def toQOps (f : Fields) : Option QOps := do
  let q ← toQ f.d; let a ← toV f.a; let b ← toV f.b; let c ← toV f.c
  let k ← toV (f.i.extractLsb' 0 8); let w ← toBar (f.i.extractLsb' 8 8); let r ← toBar (f.i.extractLsb' 16 8)
  some ⟨q, a, b, c, k, w, r⟩

/-- A copy side of a capability byte and an offset byte (Table 6.8). -/
def toSide (cap off : BitVec 8) : Option CpySide := do
  let o ← toV off
  if cap = 0#8 then some (.spad o) else (toA cap).map (fun a => .obj a o)

def toCpy (f : Fields) : Option Instr := do
  let t ← toV f.d
  let r ← toScope (f.i.extractLsb' 28 2)
  let n ← toV (f.i.extractLsb' 8 8)
  if f.m = 3#8 then do
    let ring ← toV f.b; let s ← toA f.c; let o ← toV (f.i.extractLsb' 0 8)
    some (.cpyRing f.h t ring s o n r)
  else do
    let dst ← toSide f.a f.b; let src ← toSide f.c (f.i.extractLsb' 0 8)
    some (.cpy f.h t dst src n r)

def toCpyg (f : Fields) : Option Instr := do
  let t ← toV f.d
  let r ← toScope (f.i.extractLsb' 28 2)
  let n ← toV (f.i.extractLsb' 8 8)
  let x ← toV (f.i.extractLsb' 16 8)
  let dst ← toSide f.a f.b
  let s ← toA f.c
  let o ← toV (f.i.extractLsb' 0 8)
  some (.cpyg f.h t dst s o x n (f.i.extractLsb' 24 4) r)

def toCpys (f : Fields) : Option Instr := do
  let t ← toV f.d
  let r ← toScope (f.i.extractLsb' 28 2)
  let n ← toV (f.i.extractLsb' 8 8)
  let x ← toV (f.i.extractLsb' 16 8)
  let src ← toSide f.c (f.i.extractLsb' 0 8)
  let dc ← toA f.a
  let dof ← toV f.b
  some (.cpys f.h t (if f.m.getLsbD 3 then some (toCop (f.i.extractLsb' 30 2)) else none) dc dof src x n
    (f.i.extractLsb' 24 4) r)

/-- Class CTL (R112): the instruction of an index, its operands read leniently; `decode` re-encodes it. -/
def parseCtl (f : Fields) (idx : Nat) : Option Instr :=
  match idx with
  | 0 => some (.nop f.h)
  | 1 => some (.bra f.h f.i)
  | 2 => do let a ← toV f.a; some (.brx f.h a)
  | 3 => do let d ← toV f.d; some (.call f.h d f.i)
  | 4 => do let a ← toV f.a; some (.ret f.h a)
  | 5 => do let d ← toV f.d; let o ← toOv f; some (.callo f.h d o (f.i.extractLsb' 17 15))
  | 6 => do let o ← toOv f; some (.jmpo f.h o (f.i.extractLsb' 17 15))
  | 7 => some (.exit f.h)
  | 8 => some (.yield f.h)
  | 9 => some (.trap f.h (f.i.extractLsb' 0 16))
  | 10 => some (.bkpt f.h (f.i.extractLsb' 0 16))
  | 11 => do let a ← toSrc f.a f.i; some (.twait f.h a)
  | 12 => do let d ← toV f.d; let o ← toOv f; some (.ovld f.h d o)
  | 13 => do let o ← toOv f; some (.ovrel f.h o)
  | 14 => do let d ← toV f.d; let o ← toOv f; some (.ovq f.h d o)
  | _ => none

/-- Class INT (Table 4.1): the instruction of an index, its operands read leniently; `decode` re-encodes it. -/
def parseInt (f : Fields) (idx : Nat) : Option Instr :=
  match idx with
  | 0 => do let d ← toV f.d; let a ← toSrc f.a f.i; let b ← toSrc f.b f.i; some (.iadd f.h d a b)
  | 1 => do let d ← toV f.d; let a ← toSrc f.a f.i; let b ← toSrc f.b f.i; some (.isub f.h d a b)
  | 2 => do let d ← toV f.d; let a ← toSrc f.a f.i; let b ← toSrc f.b f.i; some (.imul f.h d a b)
  | 3 => do let d ← toV f.d; let a ← toSrc f.a f.i; let b ← toSrc f.b f.i; some (.imulh f.h (f.m.getLsbD 0) d a b)
  | 4 => do let d ← toV f.d; let a ← toSrc f.a f.i; let b ← toSrc f.b f.i; some (.imulw f.h (f.m.getLsbD 0) d a b)
  | 5 => do let d ← toV f.d; let a ← toSrc f.a f.i; let b ← toSrc f.b f.i; let c ← toSrc f.c f.i; some (.imad f.h (f.m.getLsbD 0) d a b c)
  | 6 => do let d ← toV f.d; let a ← toSrc f.a f.i; let b ← toSrc f.b f.i; some (.imin f.h (f.m.getLsbD 0) d a b)
  | 7 => do let d ← toV f.d; let a ← toSrc f.a f.i; let b ← toSrc f.b f.i; some (.imax f.h (f.m.getLsbD 0) d a b)
  | 8 => do let d ← toV f.d; let a ← toSrc f.a f.i; some (.iabs f.h d a)
  | 9 => do let d ← toV f.d; let a ← toSrc f.a f.i; let b ← toSrc f.b f.i; some (.iadds f.h (f.m.getLsbD 0) d a b)
  | 10 => do let d ← toV f.d; let a ← toSrc f.a f.i; let b ← toSrc f.b f.i; some (.isubs f.h (f.m.getLsbD 0) d a b)
  | 11 => do let d ← toV f.d; let a ← toSrc f.a f.i; let b ← toSrc f.b f.i; some (.and f.h d a b)
  | 12 => do let d ← toV f.d; let a ← toSrc f.a f.i; let b ← toSrc f.b f.i; some (.or f.h d a b)
  | 13 => do let d ← toV f.d; let a ← toSrc f.a f.i; let b ← toSrc f.b f.i; some (.xor f.h d a b)
  | 14 => do let d ← toV f.d; let a ← toSrc f.a f.i; let b ← toSrc f.b f.i; some (.andn f.h d a b)
  | 15 => do let d ← toV f.d; let a ← toSrc f.a f.i; let b ← toSrc f.b f.i; some (.shl f.h d a b)
  | 16 => do let d ← toV f.d; let a ← toSrc f.a f.i; let b ← toSrc f.b f.i; some (.shr f.h d a b)
  | 17 => do let d ← toV f.d; let a ← toSrc f.a f.i; let b ← toSrc f.b f.i; some (.sar f.h d a b)
  | 18 => do let d ← toV f.d; let a ← toSrc f.a f.i; let b ← toSrc f.b f.i; some (.bfe f.h (f.m.getLsbD 0) d a b)
  | 19 => do let d ← toV f.d; let a ← toSrc f.a f.i; let b ← toSrc f.b f.i; let c ← toSrc f.c f.i; some (.bfi f.h d a b c)
  | 20 => do let d ← toV f.d; let a ← toSrc f.a f.i; some (.popc f.h d a)
  | 21 => do let d ← toV f.d; let a ← toSrc f.a f.i; some (.clz f.h d a)
  | 22 => do let d ← toV f.d; let a ← toSrc f.a f.i; some (.brev f.h d a)
  | 23 => do let d ← toV f.d; let a ← toSrc f.a f.i; let b ← toSrc f.b f.i; some (.iadd64 f.h d a b)
  | 24 => do let d ← toV f.d; let a ← toSrc f.a f.i; let b ← toSrc f.b f.i; some (.isub64 f.h d a b)
  | 25 => do let d ← toV f.d; let a ← toSrc f.a f.i; let b ← toSrc f.b f.i; some (.shl64 f.h d a b)
  | 26 => do let d ← toV f.d; let a ← toSrc f.a f.i; let b ← toSrc f.b f.i; some (.shr64 f.h d a b)
  | 27 => do let d ← toV f.d; let a ← toSrc f.a f.i; let b ← toSrc f.b f.i; some (.sar64 f.h d a b)
  | _ => none

/-- Class PRD (Tables 4.3, 4.5): the instruction of an index, its operands read leniently; `decode` re-encodes it. -/
def parsePrd (f : Fields) (idx : Nat) : Option Instr :=
  match idx with
  | 0 => do let c ← toCmp (f.m.extractLsb' 4 3); let k ← toComb (f.m.extractLsb' 0 2) f.c; let d ← toP f.d; let a ← toSrc f.a f.i; let b ← toSrc f.b f.i; some (.cmpi f.h (f.m.getLsbD 3) c k d a b)
  | 1 => do let c ← toCmp (f.m.extractLsb' 4 3); let k ← toComb (f.m.extractLsb' 0 2) f.c; let d ← toP f.d; let a ← toSrc f.a f.i; let b ← toSrc f.b f.i; some (.cmpf f.h (f.m.getLsbD 2) (f.m.getLsbD 3) c k d a b)
  | 2 => do let c ← toCmp (f.m.extractLsb' 4 3); let k ← toComb (f.m.extractLsb' 0 2) f.c; let d ← toP f.d; let a ← toSrc f.a f.i; let b ← toSrc f.b f.i; some (.cmpd f.h (f.m.getLsbD 2) (f.m.getLsbD 3) c k d a b)
  | 3 => do let c ← toCmp (f.m.extractLsb' 4 3); let k ← toComb (f.m.extractLsb' 0 2) f.c; let d ← toP f.d; let a ← toSrc f.a f.i; let b ← toSrc f.b f.i; some (.cmph f.h (f.m.getLsbD 2) (f.m.getLsbD 3) c k d a b)
  | 4 => do let d ← toP f.d; let a ← toP f.a; let b ← toP f.b; let c ← toP f.c; some (.pfun f.h d a b c f.m)
  | 5 => do let d ← toV f.d; let a ← toSrc f.a f.i; let b ← toSrc f.b f.i; let c ← toP f.c; some (.sel f.h d a b c)
  | 6 => do let d ← toV f.d; let a ← toMov f; some (.mov f.h d a)
  | 7 => do let d ← toV f.d; some (.movi f.h d f.i)
  | 8 => do let d ← toV f.d; some (.ptov f.h d)
  | 9 => do let a ← toSrc f.a f.i; let b ← toSrc f.b f.i; some (.vtop f.h a b)
  | 10 => do let d ← toV f.d; some (.srd f.h d (f.i.extractLsb' 0 8))
  | 11 => do let a ← toRC f.a; some (.swr f.h (f.i.extractLsb' 0 8) a)
  | _ => none

/-- Class WAV (Table 4.6): the instruction of an index, its operands read leniently; `decode` re-encodes it. -/
def parseWav (f : Fields) (idx : Nat) : Option Instr :=
  match idx with
  | 0 => do let d ← toV f.d; let a ← toP f.a; some (.ballot f.h f.i d a)
  | 1 => do let o ← toVote (f.m.extractLsb' 3 3); let d ← toP f.d; let a ← toP f.a; some (.vote f.h f.i o d a)
  | 2 => do let o ← toShfl (f.m.extractLsb' 3 3); let d ← toV f.d; let a ← toSrc f.a f.i; let b ← toRC f.b; some (.shfl f.h f.i o d a b)
  | 3 => do let o ← toWOp (f.m.extractLsb' 0 7); let d ← toV f.d; let a ← toSrc f.a f.i; some (.wred f.h f.i o d a)
  | 4 => do let o ← toWOp (f.m.extractLsb' 0 7); let d ← toV f.d; let a ← toSrc f.a f.i; some (.wscan f.h f.i o (f.m.getLsbD 7) d a)
  | 5 => do let d ← toV f.d; let a ← toSrc f.a f.i; some (.matchEq f.h f.i d a)
  | 6 => some (.wsync f.h f.i)
  | _ => none

/-- Class FLT (Table 5.1): the instruction of an index, its operands read leniently; `decode` re-encodes it. -/
def parseFlt (f : Fields) (idx : Nat) : Option Instr :=
  match idx with
  | 0 => do let d ← toV f.d; let a ← toSrc f.a f.i; let b ← toSrc f.b f.i; some (.fadd f.h (toFMod f.m) d a b)
  | 1 => do let d ← toV f.d; let a ← toSrc f.a f.i; let b ← toSrc f.b f.i; some (.fsub f.h (toFMod f.m) d a b)
  | 2 => do let d ← toV f.d; let a ← toSrc f.a f.i; let b ← toSrc f.b f.i; some (.fmul f.h (toFMod f.m) d a b)
  | 3 => do let d ← toV f.d; let a ← toSrc f.a f.i; let b ← toSrc f.b f.i; let c ← toSrc f.c f.i; some (.ffma f.h (toFMod f.m) d a b c)
  | 4 => do let d ← toV f.d; let a ← toSrc f.a f.i; let b ← toSrc f.b f.i; some (.fmin f.h (toFMod f.m) d a b)
  | 5 => do let d ← toV f.d; let a ← toSrc f.a f.i; let b ← toSrc f.b f.i; some (.fmax f.h (toFMod f.m) d a b)
  | 6 => do let d ← toV f.d; let a ← toSrc f.a f.i; some (.frcp f.h (toFMod f.m) d a)
  | 7 => do let d ← toV f.d; let a ← toSrc f.a f.i; some (.frsq f.h (toFMod f.m) d a)
  | 8 => do let d ← toV f.d; let a ← toSrc f.a f.i; some (.fsqrt f.h (toFMod f.m) d a)
  | 9 => do let d ← toV f.d; let a ← toSrc f.a f.i; let b ← toSrc f.b f.i; some (.fdiv f.h (toFMod f.m) d a b)
  | 10 => do let d ← toV f.d; let a ← toSrc f.a f.i; some (.fexp2 f.h (toFMod f.m) d a)
  | 11 => do let d ← toV f.d; let a ← toSrc f.a f.i; some (.flog2 f.h (toFMod f.m) d a)
  | 12 => do let d ← toV f.d; let a ← toSrc f.a f.i; some (.frnd f.h (toFMod f.m) d a)
  | 13 => do let d ← toV f.d; let a ← toSrc f.a f.i; some (.fcls f.h (toFMod f.m) d a)
  | 14 => do let d ← toV f.d; let a ← toSrc f.a f.i; let b ← toSrc f.b f.i; some (.dadd f.h (toFMod f.m) d a b)
  | 15 => do let d ← toV f.d; let a ← toSrc f.a f.i; let b ← toSrc f.b f.i; some (.dmul f.h (toFMod f.m) d a b)
  | 16 => do let d ← toV f.d; let a ← toSrc f.a f.i; let b ← toSrc f.b f.i; let c ← toSrc f.c f.i; some (.dfma f.h (toFMod f.m) d a b c)
  | 17 => do let d ← toV f.d; let a ← toSrc f.a f.i; let b ← toSrc f.b f.i; some (.dmin f.h (toFMod f.m) d a b)
  | 18 => do let d ← toV f.d; let a ← toSrc f.a f.i; let b ← toSrc f.b f.i; some (.dmax f.h (toFMod f.m) d a b)
  | 19 => do let d ← toV f.d; let a ← toSrc f.a f.i; let b ← toSrc f.b f.i; some (.ddiv f.h (toFMod f.m) d a b)
  | 20 => do let d ← toV f.d; let a ← toSrc f.a f.i; some (.dsqrt f.h (toFMod f.m) d a)
  | 21 => do let d ← toV f.d; let a ← toSrc f.a f.i; let b ← toSrc f.b f.i; some (.hadd2 f.h (toFMod f.m) d a b)
  | 22 => do let d ← toV f.d; let a ← toSrc f.a f.i; let b ← toSrc f.b f.i; some (.hmul2 f.h (toFMod f.m) d a b)
  | 23 => do let d ← toV f.d; let a ← toSrc f.a f.i; let b ← toSrc f.b f.i; let c ← toSrc f.c f.i; some (.hfma2 f.h (toFMod f.m) d a b c)
  | 24 => do let d ← toV f.d; let a ← toSrc f.a f.i; let b ← toSrc f.b f.i; some (.hmin2 f.h (toFMod f.m) d a b)
  | 25 => do let d ← toV f.d; let a ← toSrc f.a f.i; let b ← toSrc f.b f.i; some (.hmax2 f.h (toFMod f.m) d a b)
  | 26 => do let d ← toV f.d; let a ← toSrc f.a f.i; let b ← toSrc f.b f.i; some (.badd2 f.h (toFMod f.m) d a b)
  | 27 => do let d ← toV f.d; let a ← toSrc f.a f.i; let b ← toSrc f.b f.i; some (.bmul2 f.h (toFMod f.m) d a b)
  | 28 => do let d ← toV f.d; let a ← toSrc f.a f.i; let b ← toSrc f.b f.i; let c ← toSrc f.c f.i; some (.bfma2 f.h (toFMod f.m) d a b c)
  | 29 => do let d ← toV f.d; let a ← toSrc f.a f.i; let b ← toSrc f.b f.i; some (.bmin2 f.h (toFMod f.m) d a b)
  | 30 => do let d ← toV f.d; let a ← toSrc f.a f.i; let b ← toSrc f.b f.i; some (.bmax2 f.h (toFMod f.m) d a b)
  | _ => none

/-- Class CNV (Table 5.5): the instruction of an index, its operands read leniently; `decode` re-encodes it. -/
def parseCnv (f : Fields) (idx : Nat) : Option Instr :=
  match idx with
  | 0 => do let df ← toFmt (f.i.extractLsb' 0 8); let sf ← toFmt (f.i.extractLsb' 8 8); let d ← toV f.d; let a ← toSrc f.a f.i; some (.cvt f.h (toFMod f.m) df sf (f.i.getLsbD 16) (f.i.getLsbD 17) d a)
  | 1 => do let df ← toFmt (f.i.extractLsb' 0 8); let sf ← toFmt (f.i.extractLsb' 8 8); let d ← toV f.d; let a ← toSrc f.a f.i; let b ← toSrc f.b f.i; some (.cvt2 f.h (toFMod f.m) df sf d a b)
  | 2 => do let d ← toV f.d; let a ← toV f.a; let b ← toSrc f.b f.i; some (.qe4 f.h (toFMod f.m) d a b)
  | 3 => do let d ← toV f.d; let a ← toV f.a; let b ← toSrc f.b f.i; let c ← toSrc f.c f.i; some (.qe2 f.h (toFMod f.m) (f.i.getLsbD 16) d a b c)
  | 4 => do let df ← toFmt (f.i.extractLsb' 0 8); let sf ← toFmt (f.i.extractLsb' 8 8); let d ← toV f.d; let a ← toSrc f.a f.i; let b ← toSrc f.b f.i; some (.dq f.h (toFMod f.m) df sf (f.i.extractLsb' 16 3) d a b)
  | 5 => do let df ← toFmt (f.i.extractLsb' 0 8); let d ← toV f.d; let a ← toSrc f.a f.i; some (.bscale f.h df (f.i.extractLsb' 16 5) d a)
  | _ => none

/-- Class MEM (Table 6.2): the instruction of an index, its operands read leniently; `decode` re-encodes it. -/
def parseMem (f : Fields) (idx : Nat) : Option Instr :=
  match idx with
  | 0 => do let m ← toLdMod f; let d ← toV f.d; let x ← toCap f; some (.ld f.h m d x)
  | 1 => do let m ← toStMod f; let x ← toCap f; let c ← toRC f.c; some (.st f.h m x c)
  | 2 => do let m ← toLdMod f; let d ← toV f.d; let x ← toLoc f; some (.ldl f.h m d x)
  | 3 => do let m ← toStMod f; let x ← toLoc f; let c ← toRC f.c; some (.stl f.h m x c)
  | 4 => do let w ← toWid (f.m.extractLsb' 0 3); let d ← toV f.d; let x ← toLoc f; some (.lda f.h w d x)
  | 5 => do let w ← toWid (f.m.extractLsb' 0 3); let x ← toLoc f; let c ← toRC f.c; some (.sta f.h w x c)
  | 6 => do let d ← toV f.d; let x ← toCap f; some (.ldage f.h d x)
  | 7 => do let d ← toA f.d; let x ← toCap f; some (.ldc f.h d x)
  | 8 => do let x ← toCap f; let c ← toA f.c; some (.stc f.h x c)
  | 9 => do let x ← toCap f; some (.prf f.h x)
  | 10 => do let m ← toStMod f; let k ← toV f.d; let x ← toCap f; let c ← toRC f.c; some (.cst f.h m x c k)
  | 11 => do let m ← toLdMod f; let d ← toV f.d; let x ← toCap f; let k ← toV f.c; some (.xld f.h m d x k)
  | _ => none

/-- Class CAP (Table 6.3): the instruction of an index, its operands read leniently; `decode` re-encodes it. -/
def parseCap (f : Fields) (idx : Nat) : Option Instr :=
  match idx with
  | 0 => do let d ← toA f.d; let a ← toA f.a; let b ← toSrc f.b f.i; some (.capoff f.h d a b)
  | 1 => do let d ← toA f.d; let a ← toA f.a; let b ← toSrc f.b f.i; some (.capadd f.h d a b)
  | 2 => do let d ← toA f.d; let a ← toA f.a; let b ← toSrc f.b f.i; some (.capnar f.h d a b)
  | 3 => do let d ← toA f.d; let a ← toA f.a; let b ← toSrc f.b f.i; some (.caprgt f.h d a b)
  | 4 => do let d ← toV f.d; let a ← toA f.a; some (.capget f.h (f.m.extractLsb' 0 3) d a)
  | 5 => do let d ← toP f.d; let a ← toA f.a; let b ← toSrc f.b f.i; some (.capchk f.h d a b)
  | 6 => do let d ← toA f.d; let a ← toA f.a; some (.capmov f.h d a)
  | _ => none

/-- Class ATM (Table 6.5): the instruction of an index, its operands read leniently; `decode` re-encodes it. -/
def parseAtm (f : Fields) (idx : Nat) : Option Instr :=
  match idx with
  | 0 => do let m ← toAtMod f; let x ← toCap f; let c ← toRC f.c; let d ← toV f.d; some (.atom f.h m (if f.m.getLsbD 3 then some d else none) x c)
  | 1 => do let m ← toAtMod f; let d ← toV f.d; let x ← toCap f; let c ← toRC f.c; some (.atomf f.h m d x c)
  | 2 => do let m ← toAtMod f; let d ← toV f.d; let x ← toCap f; let c ← toRC f.c; some (.cas f.h m.wid m.ord d x c)
  | 3 => do let m ← toAtMod f; let d ← toV f.d; let x ← toCap f; let c ← toV f.c; some (.cas128 f.h m.ord d x c)
  | 4 => do let m ← toAtMod f; let x ← toCap f; let c ← toRC f.c; some (.red f.h m x c)
  | 5 => do let m ← toAtMod f; let x ← toCap f; let c ← toRC f.c; some (.redf f.h m x c)
  | 6 => do let m ← toAtMod f; let d ← toV f.d; let x ← toLoc f; let c ← toRC f.c; some (.atoml f.h m d x c)
  | 7 => do let m ← toAtMod f; let d ← toV f.d; let x ← toLoc f; let c ← toRC f.c; some (.casl f.h m.wid m.ord d x c)
  | _ => none

/-- Class DEF (R178 to R183): the instruction of an index, its operands read leniently; `decode` re-encodes it. -/
def parseDef (f : Fields) (idx : Nat) : Option Instr :=
  match idx with
  | 0 => do let d ← toV f.d; some (match (f.m.extractLsb' 0 2).toNat with
    | 0 => .commitT f.h d | 1 => .commitB f.h d | 2 => .commitG f.h d | _ => .commitP f.h d (f.i.extractLsb' 0 16))
  | 1 => do let x ← toCap f; let c ← toSrc f.c f.i; some (.dage f.h x c)
  | 2 => do let d ← toOptV f.d; some (.stepinc f.h d)
  | 3 => do let d ← toV f.d; some (.dqry f.h d)
  | _ => none

/-- Class ASY (R184 to R191): the instruction of an index, its operands read leniently; `decode` re-encodes it. -/
def parseAsy (f : Fields) (idx : Nat) : Option Instr :=
  match idx with
  | 0 => toCpy f
  | 1 => toCpyg f
  | 2 => toCpys f
  | 3 => do let t ← toV f.d; let a ← toA f.a; let q ← toV f.b; let p ← toV f.c; some (.cpyq f.h t a q p)
  | 4 => do let x ← toLoc f; let c ← toV f.c; some (.rinit f.h x c)
  | 5 => do let d ← toV f.d; let x ← toLoc f; some (.rres f.h d x)
  | 6 => do let x ← toLoc f; let c ← toV f.c; some (.rpub f.h x c)
  | 7 => do let d ← toV f.d; let x ← toLoc f; some (.rwait f.h d x)
  | 8 => do let x ← toLoc f; let c ← toV f.c; some (.rrel f.h x c)
  | _ => none

/-- Class SYN (R194 to R197): the instruction of an index, its operands read leniently; `decode` re-encodes it. -/
def parseSyn (f : Fields) (idx : Nat) : Option Instr :=
  match idx with
  | 0 => do let x ← toLoc f; let c ← toV f.c; some (.binit f.h x c)
  | 1 => do let d ← toOptV f.d; let x ← toLoc f; some (.barv f.h d x)
  | 2 => do let x ← toLoc f; let c ← toV f.c; some (.bwait f.h x c)
  | 3 => do let d ← toOptV f.d; let x ← toLoc f; some (.barw f.h d x)
  | 4 => do let k ← toFence (f.m.extractLsb' 0 2); let s ← toScope (f.m.extractLsb' 2 2); some (.fence f.h k s)
  | 5 => do let d ← toV f.d; let a ← toSrc f.a f.i; some (.grow f.h d a)
  | _ => none

/-- Class MTX (Table 7.5): the instruction of an index, its operands read leniently; `decode` re-encodes it. -/
def parseMtx (f : Fields) (idx : Nat) : Option Instr :=
  match idx with
  | 0 => do let t ← toFmt4 (f.m.extractLsb' 4 4); let o ← toQOps f; some (.mma f.h t (f.m.extractLsb' 0 4) o)
  | 1 => do let t ← toFmt4 (f.m.extractLsb' 4 4); let o ← toQOps f; some (.mmb f.h t (f.m.extractLsb' 0 4) o)
  | 2 => do let t ← toFmt4 (f.m.extractLsb' 4 4); let o ← toQOps f; some (.mscale f.h t (f.i.extractLsb' 24 2) (f.i.extractLsb' 26 2) o)
  | 3 => do let d ← toOptV f.d; let q ← toQ f.a; some (.mwait f.h d q)
  | 4 => do let df ← toFmt (f.i.extractLsb' 0 8); let q ← toQ f.d; let a ← toV f.a; let b ← toV f.b; let k ← toV f.c; some (.plane f.h df (f.i.getLsbD 16) (f.i.extractLsb' 17 2) q a b k)
  | 5 => do let q ← toQ f.d; let a ← toV f.a; let k ← toV f.b; some (.azero f.h (f.m.getLsbD 0) q a k)
  | 6 => do let df ← toFmt (f.i.extractLsb' 0 8); let q ← toQ f.d; let a ← toV f.a; let b ← toV f.b; let k ← toV f.c; some (.acvt f.h df (f.i.extractLsb' 16 2) q a b k)
  | 7 => do let q ← toQ f.d; let a ← toV f.a; let b ← toV f.b; let k ← toV f.c; some (if f.m.getLsbD 0 then .amovIn f.h (f.m.getLsbD 1) q a b k else .amovOut f.h (f.m.getLsbD 1) q a b k)
  | 8 => some (.fenceo f.h)
  | 9 => do let t ← toFmt4 (f.m.extractLsb' 4 4); let d ← toV f.d; let x ← toLoc f; some (.bld f.h t (f.i.extractLsb' 24 2) d x)
  | _ => none

/-- Class SYS (R121, R123): the instruction of an index, its operands read leniently; `decode` re-encodes it. -/
def parseSys (f : Fields) (idx : Nat) : Option Instr :=
  match idx with
  | 0 => some (if f.m.getLsbD 0 then .eretSkip f.h else .eret f.h)
  | 1 => do let d ← toV f.d; some (.tinfo f.h (f.m.extractLsb' 0 3) d)
  | _ => none

/-- The instruction that Table 3.11 assigns to an opcode. -/
def parse (f : Fields) : Option Instr :=
  let idx := (f.op.extractLsb' 0 8).toNat
  match (f.op.extractLsb' 8 4).toNat with
  | 0x0 => parseCtl f idx
  | 0x1 => parseInt f idx
  | 0x2 => parsePrd f idx
  | 0x3 => parseWav f idx
  | 0x4 => parseFlt f idx
  | 0x5 => parseCnv f idx
  | 0x6 => parseMem f idx
  | 0x7 => parseCap f idx
  | 0x8 => parseAtm f idx
  | 0x9 => parseDef f idx
  | 0xA => parseAsy f idx
  | 0xB => parseSyn f idx
  | 0xC => parseMtx f idx
  | 0xD => parseSys f idx
  | _ => none

/-- Opcodes that Table 3.11 assigns. -/
def assigned (op : BitVec 12) : Bool :=
  let idx := (op.extractLsb' 0 8).toNat
  let n : Nat := match (op.extractLsb' 8 4).toNat with
    | 0x0 => 15 | 0x1 => 28 | 0x2 => 12 | 0x3 => 7 | 0x4 => 31 | 0x5 => 6 | 0x6 => 12 | 0x7 => 7 | 0x8 => 8
    | 0x9 => 4 | 0xA => 9 | 0xB => 6 | 0xC => 10 | 0xD => 3 | _ => 0
  decide (idx < n)

/-- Why a word is malformed, by the rows of Table 3.13. -/
inductive Malformed where
  /-- Row 3: an unassigned class or index. Safe: the hardware traps ILLOP, and so does the model. -/
  | unassigned
  /-- Row 4: bits [23:22] are not 0. Safe: ILLOP. -/
  | reservedBits
  /-- Rows 5 and 6: a specifier or a field value illegal in its position. Safe: ILLOP. -/
  | badField
  deriving DecidableEq, Repr

/-- What the decoder answers. -/
inductive Decoded where
  | ok (i : Instr)
  | bad (why : Malformed)
  deriving DecidableEq, Repr

/-- The decoder. A word is an instruction when reading its fields gives a well-formed one whose own fields they
are: a field the instruction does not use, or a reserved bit, then holds 0 (R69). Any word with opcode 0xD02 is
UDF (R86). -/
def decode (w : IWord) : Decoded :=
  if w.extractLsb' 0 12 = 0xD02#12 then .ok (.udf w)
  else
    let f := fieldsOf w
    if !assigned f.op then .bad .unassigned
    else if w.extractLsb' 22 2 ≠ 0#2 then .bad .reservedBits
    else match parse f with
      | none => .bad .badField
      | some i => if i.wf && i.fields == some f then .ok i else .bad .badField

/-- The bits of a UDF word, and 0 for anything else. -/
def Instr.rawWord : Instr → IWord
  | .udf raw => raw
  | _ => 0

/-- The word of an instruction; an event has none, and is given 0. -/
def encode (i : Instr) : IWord :=
  match i.fields with
  | some f => f.pack
  | none => i.rawWord

/-- UDF, whose word is any with its opcode (R86). -/
def Instr.isUdf : Instr → Bool
  | .udf _ => true
  | _ => false

/-- Whether a word stands for the term. -/
def Instr.isCode (i : Instr) : Bool := i.fields.isSome || i.isUdf

/-- The instruction whose bits are w, bit 0 least (the table's numbering is the word's own, R66). -/
def decodeTableWord (nbits w : Nat) : Option Instr :=
  match decode (BitVec.ofNat 96 (w % 2 ^ nbits)) with
  | .ok i => some i
  | .bad _ => none

/-- The pipe an opcode goes to (Table 3.11): A, M or X; none where the opcode is unassigned (R79). -/
inductive Pipe where
  | a | m | x
  deriving DecidableEq, Repr

def pipeOf (op : BitVec 12) : Option Pipe :=
  if !assigned op then none
  else
    let idx := (op.extractLsb' 0 8).toNat
    match (op.extractLsb' 8 4).toNat with
    | 0x0 => some .x | 0x1 => some .a | 0x2 => some .a | 0x3 => some .x
    | 0x4 => some (if (0x06 ≤ idx ∧ idx ≤ 0x0B) ∨ idx = 0x13 ∨ idx = 0x14 then .x else .a)
    | 0x5 => some .a | 0x6 => some .m | 0x7 => some .m | 0x8 => some .m | 0x9 => some .m | 0xA => some .m
    | 0xB => some .m | 0xC => some .x | 0xD => some .x | _ => none

/-- Opcodes of control transfers (R79): BRA, BRX, CALL, RET, CALLO, JMPO, EXIT, TRAP, BKPT, ERET. -/
def isTransfer (op : BitVec 12) : Bool :=
  let n := op.toNat
  decide ((1 ≤ n ∧ n ≤ 7) ∨ n = 0x009 ∨ n = 0x00A ∨ n = 0xD00)

end Sys2Proof
end

