-- ==== Sys2Proof/Machine/Mem.lean ====
section
/-! DEFINITION. Operations on memory, number sets and keyed lists, in their canonical forms, and the byte order of
multi-byte values (R5). -/

namespace Sys2Proof.Machine

open Sys2Proof

/-! ### Bytes by address -/

/-- What a byte that nothing has written reads as: zero in scratchpad and tiles (R231), and in DRAM and the weight
store by choice (log 2). -/
def unlisted : Byte := 0

def Memory.read : Memory → Nat → Byte
  | [], _ => unlisted
  | (k, v) :: m, a => if a = k then v else if a < k then unlisted else Memory.read m a

/-- Writes one byte, keeping the canonical form. -/
def Memory.write : Memory → Nat → Byte → Memory
  | [], a, b => if b = unlisted then [] else [(a, b)]
  | (k, v) :: m, a, b =>
    if a < k then (if b = unlisted then (k, v) :: m else (a, b) :: (k, v) :: m)
    else if a = k then (if b = unlisted then m else (a, b) :: m)
    else (k, v) :: Memory.write m a b

/-- Every address is above `lo`, addresses rise strictly, and no entry is the unlisted byte. -/
def Memory.wfFrom : Option Nat → Memory → Bool
  | _, [] => true
  | lo, (k, v) :: m => (match lo with | none => true | some l => decide (l < k)) && v != unlisted && wfFrom (some k) m

/-- The canonical form. -/
def Memory.wf (m : Memory) : Bool := Memory.wfFrom none m

/-- The n bytes from an address, lowest first. -/
def Memory.readBytes (m : Memory) (a : Nat) : Nat → List Byte
  | 0 => []
  | n + 1 => m.read a :: m.readBytes (a + 1) n

/-- Writes bytes from an address, lowest first. -/
def Memory.writeBytes (m : Memory) (a : Nat) : List Byte → Memory
  | [] => m
  | b :: bs => (m.write a b).writeBytes (a + 1) bs

/-- Little-endian value of bytes (R5). -/
def leNat : List Byte → Nat
  | [] => 0
  | b :: bs => b.toNat + 256 * leNat bs

/-- The n low bytes of a number, lowest first (R5). -/
def leBytes : Nat → Nat → List Byte
  | 0, _ => []
  | n + 1, x => BitVec.ofNat 8 x :: leBytes n (x / 256)

def Memory.readNat (m : Memory) (a n : Nat) : Nat := leNat (m.readBytes a n)
def Memory.writeNat (m : Memory) (a n x : Nat) : Memory := m.writeBytes a (leBytes n x)
def Memory.read32 (m : Memory) (a : Nat) : Word := BitVec.ofNat 32 (m.readNat a 4)
def Memory.read64 (m : Memory) (a : Nat) : DWord := BitVec.ofNat 64 (m.readNat a 8)

/-! ### Number sets -/

def NatSet.has (s : NatSet) (n : Nat) : Bool := List.contains s n

def NatSet.add : NatSet → Nat → NatSet
  | [], n => [n]
  | k :: s, n => if n < k then n :: k :: s else if n = k then k :: s else k :: NatSet.add s n

def NatSet.del : NatSet → Nat → NatSet
  | [], _ => []
  | k :: s, n => if n = k then s else k :: NatSet.del s n

/-- Numbers from an interval removed. -/
def NatSet.delRange (s : NatSet) (lo n : Nat) : NatSet := s.filter (fun k => decide (k < lo ∨ lo + n ≤ k))

def NatSet.addRange (s : NatSet) (lo : Nat) : Nat → NatSet
  | 0 => s
  | n + 1 => (NatSet.add s lo).addRange (lo + 1) n

def NatSet.wf : NatSet → Bool
  | [] => true
  | [_] => true
  | a :: b :: s => decide (a < b) && NatSet.wf (b :: s)

/-! ### Values by key -/

namespace Assoc
variable {α : Type}

def get : Assoc α → Nat → Option α
  | [], _ => none
  | (k, v) :: m, a => if a = k then some v else if a < k then none else get m a

def set : Assoc α → Nat → α → Assoc α
  | [], a, x => [(a, x)]
  | (k, v) :: m, a, x =>
    if a < k then (a, x) :: (k, v) :: m
    else if a = k then (a, x) :: m
    else (k, v) :: set m a x

def erase : Assoc α → Nat → Assoc α
  | [], _ => []
  | (k, v) :: m, a => if a = k then m else (k, v) :: erase m a

/-- The value, or a default where the key is not listed. -/
def getD (m : Assoc α) (a : Nat) (d : α) : α := (get m a).getD d

def keys (m : Assoc α) : List Nat := m.map (·.1)

/-- Every value rewritten. -/
def mapVals (m : Assoc α) (f : Nat → α → α) : Assoc α := m.map (fun p => (p.1, f p.1 p.2))

/-- The least key not listed, from a number up, below a bound. -/
def freeKey (m : Assoc α) (n : Nat) : Nat → Option Nat
  | 0 => none
  | f + 1 => if (get m n).isNone then some n else freeKey m (n + 1) f

end Assoc

/-- Rewrites the element at an index; no effect past the end. -/
def listModify {α : Type} (l : List α) (i : Nat) (f : α → α) : List α :=
  match l, i with
  | [], _ => []
  | x :: xs, 0 => f x :: xs
  | x :: xs, n + 1 => x :: listModify xs n f

/-- The numbers lo, lo + 1, … below lo + n. -/
def rangeFrom (lo : Nat) : Nat → List Nat
  | 0 => []
  | n + 1 => lo :: rangeFrom (lo + 1) n

/-- ⌈a / b⌉. -/
def ceilDiv (a b : Nat) : Nat := (a + b - 1) / b

end Sys2Proof.Machine
end

