-- ==== Sys2Proof/Machine/Ops.lean ====
section
/-! DEFINITION. The named operations over the state: time, threads, launches, events, overlay residency, register
reads and writes, the end of an instruction, taking a trap (R249), returning from one (R123), and rollback (R247). -/

namespace Sys2Proof.Machine

open Sys2Proof

/-- What a meaning answers. -/
abbrev Out := Host.Outcome State Fault Refusal

/-! ### Time (R1, R23) -/

/-- The global timestamp in ns (R1). -/
def gtsOf (s : State) : BitVec 64 := BitVec.ofNat 64 (s.gtsBase + s.cycle / 4)

/-! ### Finding things -/

def Core.empty : Core := ⟨0, [], [], [], [], [], [], [], [], 0, 0, []⟩
def Cluster.empty : Cluster := ⟨none, [], false⟩
def Engine.empty : Engine := ⟨[], []⟩

def coreOf (s : State) (c : Nat) : Core := Assoc.getD s.cores c Core.empty
def setCore (s : State) (c : Nat) (x : Core) : State := { s with cores := Assoc.set s.cores c x }
def clusterOf (s : State) (c : Nat) : Cluster := Assoc.getD s.clusters c Cluster.empty
def setCluster (s : State) (c : Nat) (x : Cluster) : State := { s with clusters := Assoc.set s.clusters c x }
def engineOf (s : State) (e : Nat) : Engine := Assoc.getD s.engines e Engine.empty
def setEngine (s : State) (e : Nat) (x : Engine) : State := { s with engines := Assoc.set s.engines e x }

def blockOf (s : State) (slot : Nat) : Option Block := Assoc.get s.blocks slot
def setBlock (s : State) (slot : Nat) (b : Block) : State := { s with blocks := Assoc.set s.blocks slot b }
def modBlock (s : State) (slot : Nat) (f : Block → Block) : State :=
  match blockOf s slot with
  | none => s
  | some b => setBlock s slot (f b)

def threadOf (s : State) (t : ThreadId) : Option Thread :=
  match blockOf s t.slot with
  | none => none
  | some b => b.threads[t.tidx]?

def Block.setThread (b : Block) (i : Nat) (t : Thread) : Block := { b with threads := listModify b.threads i (fun _ => t) }
def setThread (s : State) (t : ThreadId) (x : Thread) : State := modBlock s t.slot (fun b => b.setThread t.tidx x)
def modThread (s : State) (t : ThreadId) (f : Thread → Thread) : State :=
  modBlock s t.slot (fun b => { b with threads := listModify b.threads t.tidx f })

/-- Wave index and lane of a thread (R229). -/
def waveIx (t : ThreadId) : Nat := t.tidx / 32
def laneOf (t : ThreadId) : Nat := t.tidx % 32

def Wave.none : Wave := ⟨0, 0, 0, Vector.replicate 16 ⟨0, [], [], false⟩, []⟩

/-- Bit n: q register n is poisoned (R421). -/
def Wave.poisonQ (w : Wave) : BitVec 16 := BitVec.ofBoolListLE (w.q.toList.map QState.poison) |>.setWidth 16
def Block.wave (b : Block) (w : Nat) : Wave := b.waves.getD w Wave.none
def Block.setWave (b : Block) (w : Nat) (x : Wave) : Block := { b with waves := listModify b.waves w (fun _ => x) }

/-- Core number on the device of a thread: 4 × CLUSTER + CORE (Table 21.3). -/
def coreIdOf (b : Block) (t : ThreadId) : Nat := 4 * b.cluster + (b.wave (waveIx t)).core

def ctxOf (s : State) (c : Nat) : Option Context := Assoc.get s.contexts c
def setCtx (s : State) (c : Nat) (x : Context) : State := { s with contexts := Assoc.set s.contexts c x }
def modCtx (s : State) (c : Nat) (f : Context → Context) : State :=
  match ctxOf s c with
  | none => s
  | some x => setCtx s c (f x)

def launchOf (s : State) (l : Nat) : Option Launch := Assoc.get s.launches l
def setLaunch (s : State) (l : Nat) (x : Launch) : State := { s with launches := Assoc.set s.launches l x }
def modLaunch (s : State) (l : Nat) (f : Launch → Launch) : State :=
  match launchOf s l with
  | none => s
  | some x => setLaunch s l (f x)

/-! ### The packet of a launch (Table 16.2) -/

def Launch.word (l : Launch) (i : Nat) : Word := l.packet.getD i 0
def Launch.ovTrap (l : Launch) : Bool := (l.word 0).getLsbD 22
def Launch.replay (l : Launch) : Bool := (l.word 0).getLsbD 21
def Launch.coop (l : Launch) : Bool := (l.word 0).getLsbD 20
def Launch.chk (l : Launch) : Bool := (l.word 0).getLsbD 19
def Launch.det (l : Launch) : Bool := (l.word 0).getLsbD 18
def Launch.prio (l : Launch) : Nat := ((l.word 0).extractLsb' 16 2).toNat

/-- A property of a block's launch; false where the launch is gone. -/
def launchFlag (s : State) (b : Block) (f : Launch → Bool) : Bool :=
  match launchOf s b.launch with
  | none => false
  | some l => f l

/-! ### Events and messages (R404, R425) -/

/-- Sends MSI-X vector v of a function. -/
def sendMsix (s : State) (fn v : Nat) : State :=
  { s with service := { s.service with
      msix := Assoc.set s.service.msix (fn * 64 + v) (Assoc.getD s.service.msix (fn * 64 + v) 0 + 1) } }

/-- Writes an event record and raises vector 1 of the PF; a full log loses its oldest record (R425). -/
def logEvent (s : State) (cls code : BitVec 8) (ctx : Option Nat) (src : BitVec 16) (a0 a1 : Word) : State :=
  let e : EventRec := ⟨cls, code, ctx, gtsOf s, src, a0, a1⟩
  let full := decide (s.service.events.length ≥ Config.eventLogSize)
  let s := { s with service := { s.service with
      events := (if full then s.service.events.drop 1 else s.service.events) ++ [e]
      eventsLost := s.service.eventsLost + (if full then 1 else 0)
      eventsTotal := s.service.eventsTotal + 1 } }
  sendMsix s 0 1

/-- Source number: class and index (Table 21.3). -/
def srcNo (cls idx : Nat) : BitVec 16 := BitVec.ofNat 4 cls ++ BitVec.ofNat 12 idx

/-! ### Packed code addresses (R109) -/

/-- OVID, XO and a slot address; address bits from 15 up lie in the reserved field (log 10). -/
def packAddr (ovid : BitVec 8) (xo : Bool) (pc : BitVec 16) : Word := ovid ++ BitVec.ofBool xo ++ 0#7 ++ pc

/-- The current overlay (R110). -/
def Thread.top (t : Thread) : BitVec 8 := t.stack.headD 0

/-- The packed address of the thread's slot. -/
def Thread.pcWord (t : Thread) : Word := packAddr t.top false t.pc

/-- Next slot address in program order: slot 4 is followed by slot 0 of the next line (R10). -/
def nextSlot (pc : BitVec 16) : BitVec 16 :=
  if pc.extractLsb' 0 3 = 4#3 then (pc.extractLsb' 3 13 + 1#13) ++ 0#3 else pc + 1#16

/-! ### Overlay table and residency (R264 to R270) -/

def OvEntry.word (e : OvEntry) (i : Nat) : Word := e.entry.extractLsb' (32 * i) 32
def OvEntry.src (e : OvEntry) : Cap := ⟨e.entry.extractLsb' 0 128, e.tag⟩
def OvEntry.valid (e : OvEntry) : Bool := (e.word 4).getLsbD 16
def OvEntry.pub (e : OvEntry) : Bool := (e.word 4).getLsbD 17
def OvEntry.len (e : OvEntry) : Nat := ((e.word 4).extractLsb' 0 13).toNat
def OvEntry.rtoff (e : OvEntry) : Nat := (e.word 5).toNat
def OvEntry.hash (e : OvEntry) : BitVec 256 := e.entry.extractLsb' 192 256

/-- The valid overlay-table entry of an ID (R264). -/
def ovEntryOf (s : State) (ctx : Nat) (id : BitVec 8) : Option OvEntry :=
  match ctxOf s ctx with
  | none => none
  | some c =>
    match Assoc.get c.overlays id.toNat with
    | none => none
    | some e => if e.valid then some e else none

/-- KEY of the copy that an overlay ID of a context is bound to on a core; of an ID bound to none, its private one (R264,
R265, R270). A change of the overlay table leaves it (R264). -/
def Core.key (c : Core) (ctx : Nat) (id : BitVec 8) : RKey := (Assoc.get c.binds (256 * ctx + id.toNat)).getD (.priv ctx id)

def ovKey (s : State) (core ctx : Nat) (id : BitVec 8) : RKey := (coreOf s core).key ctx id

/-- KEY of the copy that a load of a table entry makes resident (R270). -/
def OvEntry.key (e : OvEntry) (ctx : Nat) (id : BitVec 8) : RKey := if e.pub then .pub e.hash else .priv ctx id

/-- An overlay ID is bound to a copy. -/
def Core.bind (c : Core) (ctx : Nat) (id : BitVec 8) (k : RKey) : Core := { c with binds := Assoc.set c.binds (256 * ctx + id.toNat) k }

def Core.find (c : Core) (k : RKey) : Option Resid := c.resid.find? (fun r => r.key == k)

def Core.modResid (c : Core) (k : RKey) (f : Resid → Resid) : Core :=
  { c with resid := c.resid.map (fun r => if r.key == k then f r else r) }

/-- Drops a residency entry and frees its lines (R266). -/
def Core.evict (c : Core) (k : RKey) : Core :=
  match c.find k with
  | none => c
  | some r =>
    { c with
      resid := c.resid.filter (fun x => x.key != k)
      binds := c.binds.filter (fun p => p.2 != k)
      lines := c.lines.filter (fun p => decide (p.1 < r.base ∨ r.base + r.len ≤ p.1))
      restart := c.restart.delRange (8 * r.base) (8 * r.len)
      slotPoison := c.slotPoison.delRange (8 * r.base) (8 * r.len) }

/-- LRU: core cycle count [41:10] (Table 9.5). -/
def lruNow (s : State) (c : Core) : BitVec 32 := (BitVec.ofNat 64 s.cycle + c.clkOff).extractLsb' 10 32

/-- Takes a residency reference (R267). -/
def addRef (s : State) (core : Nat) (k : RKey) : State :=
  setCore s core ((coreOf s core).modResid k (fun r => { r with refs := r.refs + 1 }))

/-- Releases a residency reference; at zero a draining overlay leaves the store (Table 9.6). -/
def dropRef (s : State) (core : Nat) (k : RKey) : State :=
  let c := coreOf s core
  match c.find k with
  | none => s
  | some r =>
    if r.refs ≤ 1 then
      if r.state = .draining then setCore s core (c.evict k)
      else setCore s core (c.modResid k (fun r => { r with refs := 0, lru := lruNow s c }))
    else setCore s core (c.modResid k (fun r => { r with refs := r.refs - 1 }))

def addRefs (s : State) (core ctx : Nat) : List (BitVec 8) → State
  | [] => s
  | id :: ids => addRefs (addRef s core (ovKey s core ctx id)) core ctx ids

def dropRefs (s : State) (core ctx : Nat) : List (BitVec 8) → State
  | [] => s
  | id :: ids => dropRefs (dropRef s core (ovKey s core ctx id)) core ctx ids

/-- The instruction-store quota of a context on a core, in units of 64 lines (R269). -/
def istoreQuota (s : State) (ctx core : Nat) : Nat :=
  let d := match s.service.settings.istoreQuota with
    | some q => q
    | none => 64 - s.service.settings.publicRegion
  match ctxOf s ctx with
  | none => d
  | some c => Assoc.getD c.params.istore core d

def RKey.isPub : RKey → Bool
  | .pub _ => true
  | .priv _ _ => false

/-- Whether a key is charged with this context's quota, or the public region (R269). -/
def RKey.charged (ctx : Nat) (pub : Bool) : RKey → Bool
  | .pub _ => pub
  | .priv c _ => !pub && c == ctx

def Core.charge (c : Core) (ctx : Nat) (pub : Bool) : Nat :=
  ((c.resid.filter (fun r => r.key.charged ctx pub)).map Resid.len).foldl (· + ·) 0

/-- No resident run meets [base, base + len). -/
def Core.freeRun (c : Core) (base len : Nat) : Bool :=
  decide (base + len ≤ Config.istoreLines) && c.resid.all (fun r => decide (r.base + r.len ≤ base ∨ base + len ≤ r.base))

/-- The lowest base line of a free run: line 0 or the end of some resident run (R268). -/
def Core.lowestRun (c : Core) (len : Nat) : Option Nat :=
  let ends := 0 :: c.resid.map (fun r => r.base + r.len)
  (ends.filter (fun b => c.freeRun b len)).foldl
    (fun best b => match best with | none => some b | some x => some (min x b)) none

/-- The overlay FindRoom evicts: resident, without references, least LRU, the lower base on a tie (R268). -/
def Core.victim (c : Core) (ctx : Nat) (pub : Bool) : Option Resid :=
  (c.resid.filter (fun r => r.refs == 0 && r.state == .resident && r.key.charged ctx pub)).foldl
    (fun best r => match best with
      | none => some r
      | some x => if r.lru < x.lru ∨ (r.lru = x.lru ∧ r.base < x.base) then some r else some x) none

/-- What FindRoom answers. -/
inductive Room where
  | quota
  | wait
  | at (base : Nat)
  deriving DecidableEq, Repr

/-- FindRoom of R268 on one core; `fuel` bounds the evictions by the residency table's size. -/
def findRoom (len ctx limit : Nat) (pub : Bool) : Nat → Core → Core × Room
  | 0, c => (c, .wait)
  | fuel + 1, c =>
    if len > limit then (c, .quota)
    else
      let run := c.lowestRun len
      let entry := decide (c.resid.length < Config.residEntries)
      match run, decide (c.charge ctx pub + len ≤ limit) && entry with
      | some b, true => (c, .at b)
      | _, _ =>
        match c.victim ctx pub with
        | some v => findRoom len ctx limit pub fuel (c.evict v.key)
        | none =>
          if !pub && run.isNone then
            match c.victim ctx true with
            | some v => findRoom len ctx limit pub fuel (c.evict v.key)
            | none => (c, .wait)
          else (c, .wait)

/-- Status codes of Table 1.7. -/
def codePoison : BitVec 8 := 0x01
def codeInteg : BitVec 8 := 0x02
def codeHash : BitVec 8 := 0x03
def codeBound : BitVec 8 := 0x04
def codeQFull : BitVec 8 := 0x05
def codePeer : BitVec 8 := 0x06
def codeQuota : BitVec 8 := 0x07

/-- A token's status word (Table 1.6). -/
def statusWord (detail : Nat) (cls : BitVec 4) (code : BitVec 8) : Word :=
  if code = 0 then 0 else BitVec.ofNat 20 detail ++ cls ++ code

/-- Limit of FindRoom in lines (R268). -/
def roomLimit (s : State) (ctx core : Nat) (pub : Bool) : Nat :=
  64 * (if pub then s.service.settings.publicRegion else istoreQuota s ctx core)

/-- Puts the load's lines and entry into the store, in state loading. -/
def Core.place (c : Core) (l : OvLoad) (base : Nat) : Core :=
  { c with resid := c.resid ++ [⟨l.key, base, l.len, 0, .loading, 0, []⟩] }

/-- Starts a load of an overlay as OVLD would: the ID is bound to a resident copy of a public overlay at once, and to the
copy that a load makes resident (R115, R268, R270). Answers a status where it ends at once. -/
def startLoad (s : State) (core ctx launch : Nat) (id : BitVec 8) (e : OvEntry) : State × Option (BitVec 8) :=
  let key := e.key ctx id
  let c := (coreOf s core).bind ctx id key
  let limit := roomLimit s ctx core e.pub
  let l : OvLoad := ⟨s.nextId, ctx, id, key, e.src, e.len, e.rtoff, launch, limit, false, none⟩
  let s' := { s with nextId := s.nextId + 1 }
  match c.find key with
  | some r => (setCore s core c, if r.state = .loading then none else some 0)
  | none =>
    if c.loads.any (fun x => x.key == key) then (setCore s core c, none)
    else if c.loads.any (fun x => !x.placed) then
      if e.len > limit then (s, some codeQuota)
      else (setCore s' core { c with loads := c.loads ++ [l] }, none)
    else
      match findRoom e.len ctx limit e.pub 65 c with
      | (_, .quota) => (s, some codeQuota)
      | (c, .wait) => (setCore s' core { c with loads := c.loads ++ [l] }, none)
      | (c, .at b) => (setCore s' core (({ c with loads := c.loads ++ [{ l with placed := true }] }).place l b), none)

/-- An overlay usable for fetch: resident, or draining (R266). -/
def Core.usable (c : Core) (k : RKey) : Bool :=
  match c.find k with
  | none => false
  | some r => r.state != .loading

/-- Length in lines of a thread's current overlay, from the residency table. -/
def lenOf (s : State) (core ctx : Nat) (id : BitVec 8) : Option Resid := (coreOf s core).find (ovKey s core ctx id)

/-! ### Registers -/

theorem vreg_lt (r : VReg) : r.toNat < 64 := r.isLt
theorem areg_lt (r : AReg) : r.toNat < 8 := r.isLt
theorem qreg_lt (r : QReg) : r.toNat < 16 := r.isLt

/-- What a source read sees: the group's snapshot, or the registers (R80). What is lent is seen as it is now: an MWAIT in
an earlier slot has ended the lending (R214, log 21). -/
def Thread.view (t : Thread) : Snap :=
  match t.snap with
  | some g => { g with lent := t.lent }
  | none => ⟨t.v, t.a, t.p, t.lat, t.lent, t.poisonV, t.poisonA, t.poisonP, t.sgen, t.clkh, t.gtsh, none⟩

/-- A fixed-latency result of this specifier has not landed for a read of now, or of the cycle in which the group issued
(R80, R83). -/
def Snap.early (g : Snap) (now : Nat) (spec : BitVec 8) : Bool :=
  g.lat.any (fun x => x.1 == spec && decide (g.at?.getD now < x.2))

/-- A register lent to the matrix engine (R214). -/
def Snap.isLent (g : Snap) (r : VReg) : Bool := g.lent.any (fun l => l.frag.contains r)

/-- Reads a v register: its content; an undefined value where it is read too early or is lent (R83, R214, log 1). -/
def rdV (s : State) (t : Thread) (r : VReg) : Word :=
  let g := t.view
  if g.early s.cycle (vByte r) || g.isLent r then Config.freeWord s.freeCtr r.toNat
  else g.v[r.toNat]'(vreg_lt r)

/-- A pair, the named even register low (R11). -/
def rdV64 (s : State) (t : Thread) (r : VReg) : DWord := rdV s t (r + 1) ++ rdV s t r

/-- Reads a predicate; p7 reads true (R16). -/
def rdP (s : State) (t : Thread) (r : PReg) : Bool :=
  if r = 7#3 then true
  else
    let g := t.view
    if g.early s.cycle (pByte r) then Config.freeBit s.freeCtr (64 + r.toNat) else g.p.getLsbD r.toNat

/-- Reads a capability register; too early, 128 undefined bits and a clear tag (R83, R355, log 11). -/
def rdA (s : State) (t : Thread) (r : AReg) : Cap :=
  let g := t.view
  if g.early s.cycle (aByte r) then
    ⟨Config.freeWord s.freeCtr (128 + 4 * r.toNat) ++ Config.freeWord s.freeCtr (129 + 4 * r.toNat)
      ++ Config.freeWord s.freeCtr (130 + 4 * r.toNat) ++ Config.freeWord s.freeCtr (131 + 4 * r.toNat), false⟩
  else g.a[r.toNat]'(areg_lt r)

/-- The landing mark of word n of the scale generators, apart from every register specifier (R85). -/
def sgenByte (n : Nat) : BitVec 8 := BitVec.ofNat 8 (0xC0 + n)

/-- Reads a word of the scale generators; too early, an undefined value (R24, R83). -/
def rdSgen (s : State) (t : Thread) (n : Nat) : Word :=
  let g := t.view
  if g.early s.cycle (sgenByte n) then Config.freeWord s.freeCtr (160 + n) else g.sgen.toList.getD n 0

/-- Records the landing cycle of a fixed-latency result (R83). -/
def landAt (lat : List (BitVec 8 × Nat)) (spec : BitVec 8) (cycle : Nat) : List (BitVec 8 × Nat) :=
  (spec, cycle) :: lat.filter (fun x => x.1 != spec)

/-- A write to lent registers or tiles makes the engine results undefined (R214). -/
def spoil (ls : List Lent) (hit : Lent → Bool) : List Lent :=
  ls.map (fun l => if hit l then { l with spoiled := true } else l)

/-- Writes a v register, ready `lat` cycles after now (R83); the whole word is written, which clears its poison (R422),
a lent register makes an engine result undefined (R214), and no FENCEO has made the write available (R213). -/
def wrV (now : Nat) (t : Thread) (r : VReg) (x : Word) (lat : Nat) : Thread :=
  { t with
    v := t.v.set r.toNat x (vreg_lt r)
    poisonV := t.poisonV &&& ~~~(1#64 <<< r.toNat)
    lent := spoil t.lent (fun l => l.frag.contains r)
    known := { t.known with dirty := t.known.dirty ||| (1#64 <<< r.toNat) }
    lat := landAt t.lat (vByte r) (now + lat) }

def wrV64 (now : Nat) (t : Thread) (r : VReg) (x : DWord) (lat : Nat) : Thread :=
  wrV now (wrV now t r (x.extractLsb' 0 32) lat) (r + 1) (x.extractLsb' 32 32) lat

/-- Bit i of a vector set to a value. -/
def setBit {n : Nat} (x : BitVec n) (i : Nat) (b : Bool) : BitVec n :=
  if b then x ||| (1#n <<< i) else x &&& ~~~(1#n <<< i)

/-- Writes a predicate; a write to p7 is discarded (R16). -/
def wrP (now : Nat) (t : Thread) (r : PReg) (x : Bool) (lat : Nat) : Thread :=
  if r = 7#3 then t
  else
    { t with
      p := setBit t.p r.toNat x
      poisonP := setBit t.poisonP r.toNat false
      lat := landAt t.lat (pByte r) (now + lat) }

def wrA (now : Nat) (t : Thread) (r : AReg) (x : Cap) (lat : Nat) : Thread :=
  { t with
    a := t.a.set r.toNat x (areg_lt r)
    poisonA := setBit t.poisonA r.toNat false
    lat := landAt t.lat (aByte r) (now + lat) }

/-! ### The end of an instruction -/

/-- Leaves the slot for another one: the stall count sets the earliest next issue, the thread is ready, and its marks
for issue selection start again (R68, R83, R117, R240). -/
def Thread.leave (t : Thread) (now : Nat) (h : Hdr) (pc : BitVec 16) : Thread :=
  { t with
    pc := pc
    nextIssue := now + max 1 h.stall.toNat
    status := .ready
    sched := ⟨t.sched.yielded, h.yield, 0, none⟩ }

/-- Goes on to the next slot in program order. -/
def Thread.done (t : Thread) (now : Nat) (h : Hdr) : Thread := t.leave now h (nextSlot t.pc)

/-- The instruction waits at its slot and is tried again in a later cycle (Table 8.1). -/
def Thread.hold (t : Thread) (now : Nat) (st : TStatus) : Thread := { t with status := st, nextIssue := now + 1 }

/-- Everything a meaning knows of the executing thread. -/
structure Cx where
  tid : ThreadId
  blk : Block
  thr : Thread

/-- The current thread, its block and its registers. -/
def curCx (s : State) : Option Cx :=
  match s.cur with
  | none => none
  | some tid =>
    match blockOf s tid.slot with
    | none => none
    | some b =>
      match b.threads[tid.tidx]? with
      | none => none
      | some t => some ⟨tid, b, t⟩

def Cx.coreId (x : Cx) : Nat := coreIdOf x.blk x.tid

/-- The guard of an instruction (R67). -/
def guardOf (s : State) (t : Thread) (h : Hdr) : Bool := rdP s t h.pred != h.neg

/-- The frame of a meaning: the current thread executes it, and with a false guard only goes on (R67). -/
def guarded (h : Hdr) (s : State) (k : Cx → Out) : Out :=
  match curCx s with
  | none => .refused .noThread
  | some x =>
    if guardOf s x.thr h then k x
    else .next (setThread s x.tid (x.thr.done s.cycle h))

/-- Ends a meaning that only changes the executing thread: the thread as changed goes on. -/
def goOn (h : Hdr) (s : State) (x : Cx) (t : Thread) : Out := .next (setThread s x.tid (t.done s.cycle h))

/-- Waits at the slot. -/
def waitAt (s : State) (x : Cx) (st : TStatus) : Out := .next (setThread s x.tid (x.thr.hold s.cycle st))

/-! ### Trap causes (Table 8.5) -/

def causeIllop : BitVec 8 := 0x01
def causeBrtgt : BitVec 8 := 0x02
def causeIpar : BitVec 8 := 0x03
def causeSbchk : BitVec 8 := 0x04
def causeCapinv : BitVec 8 := 0x10
def causeCapbnd : BitVec 8 := 0x11
def causeCaprgt : BitVec 8 := 0x12
def causeAlign : BitVec 8 := 0x13
def causeDfetch : BitVec 8 := 0x14
def causeBarwr : BitVec 8 := 0x15
def causeSignmis : BitVec 8 := 0x16
def causeStgfull : BitVec 8 := 0x17
def causeOvmiss : BitVec 8 := 0x18
def causeDetchk : BitVec 8 := 0x19
def causeRingerr : BitVec 8 := 0x1A
def causeSwtrap : BitVec 8 := 0x20
def causeBkpt : BitVec 8 := 0x21
def causePoison : BitVec 8 := 0x30
def causeHang : BitVec 8 := 0x31
def causePtimeout : BitVec 8 := 0x32

/-- The TINFO word w of a trap (Table 4.12). -/
def TrapRec.word (r : TrapRec) (w : Nat) : Word :=
  match w with
  | 0 => 0#16 ++ r.sub ++ r.cause
  | 1 => r.pcWord
  | 2 => r.arg0
  | 3 => r.arg1
  | 4 => r.gts.extractLsb' 0 32
  | 5 => r.gts.extractLsb' 32 32
  | _ => 0

def TrapRec.words (r : TrapRec) : List Word := [r.word 0, r.word 1, r.word 2, r.word 3, r.word 4, r.word 5]

/-! ### Taking a trap (R248 to R253) -/

/-- What a trap carries: cause, SUB, the word TINFO reports as PC, and the two arguments. -/
structure Trap where
  cause : BitVec 8
  sub : BitVec 8
  pcWord : Word
  arg0 : Word
  arg1 : Word
  deriving DecidableEq, Repr

/-- Notes the first fatal trap of a launch, or one with the same timestamp and a lower source (R253, R343). -/
def noteFatal (s : State) (launch : Nat) (f : Fatal) : State :=
  modLaunch s launch (fun l =>
    match l.fatal with
    | none => { l with fatal := some f }
    | some g => if f.gts < g.gts ∨ (f.gts = g.gts ∧ f.src < g.src) then { l with fatal := some f } else l)

/-- The trap words recorded at delivery (R249). -/
def trapRec (s : State) (t : Thread) (r : Trap) : TrapRec :=
  ⟨r.cause, r.sub, r.pcWord, r.arg0, r.arg1, gtsOf s, t.pc, t.stack⟩

/-- The handler overlay of a thread that may take a trap: configured, and the thread is not in it (R249). -/
def handlerFor (s : State) (b : Block) (t : Thread) : Option (BitVec 8) :=
  match t.trap, ctxOf s b.ctx with
  | none, some c => c.params.handler
  | _, _ => none

/-- The thread continues at slot 0 of the handler overlay, pushed as one further entry (R249). -/
def Thread.enter (t : Thread) (now : Nat) (r : TrapRec) (hd : BitVec 8) : Thread :=
  { t with
    trap := some r
    stack := hd :: t.stack
    pc := 0
    status := .ready
    nextIssue := now + 1
    sched := { t.sched with yhint := false, readyFor := 0, aged := none }
    snap := none
    stgOut := false }

/-- A fatal trap of a thread ends its launch (R253). -/
def fatalTrap (s : State) (tid : ThreadId) (b : Block) (t : Thread) (r : Trap) : State :=
  noteFatal s b.launch ⟨r.cause, b.lin, (trapRec s t r).words, gtsOf s, coreIdOf b tid⟩

/-- TRAP_DELIVERY: the trap is delivered to the handler overlay, which is loaded as under AUTO where it is not
resident, or it is fatal (R249 to R253). POISON in a replayable launch asks for replay instead (R424). -/
def takeTrap (s : State) (tid : ThreadId) (r : Trap) : State :=
  match blockOf s tid.slot with
  | none => s
  | some b =>
    match b.threads[tid.tidx]? with
    | none => s
    | some t =>
      if r.cause = causePoison ∧ launchFlag s b Launch.replay then
        modLaunch (fatalTrap s tid b t r) b.launch (fun l => { l with replayWant := true })
      else
        match handlerFor s b t with
        | none => fatalTrap s tid b t r
        | some hd =>
          let core := coreIdOf b tid
          let key := ovKey s core b.ctx hd
          let t' := t.enter s.cycle (trapRec s t r) hd
          if (coreOf s core).usable key then addRef (setThread s tid t') core key
          else
            match ovEntryOf s b.ctx hd with
            | none => fatalTrap s tid b t r
            | some e =>
              match startLoad s core b.ctx b.launch hd e with
              | (s, some code) =>
                if code = 0 then addRef (setThread s tid t') core (ovKey s core b.ctx hd) else fatalTrap s tid b t r
              | (s, none) => setThread s tid { t' with status := .parkedLoad [hd] .handler }

/-- A trap of the executing thread on its own slot. -/
def trapOn (s : State) (x : Cx) (cause sub : BitVec 8) (a0 a1 : Word) : Out :=
  .next (takeTrap s x.tid ⟨cause, sub, x.thr.pcWord, a0, a1⟩)

/-! ### Return from a trap (R123) -/

/-- References go from the entries of one stack to those of another, where they differ. -/
def moveRefs (s : State) (core ctx : Nat) (old new : List (BitVec 8)) : State :=
  if old = new then s else dropRefs (addRefs s core ctx new) core ctx old

/-- ERET: the handler's entry is popped, its reference released, and the thread resumes at the trapped slot or the
one after it, with the interrupted overlay stack, whose references it holds again. Registers stay as the handler left them. -/
def eretTo (h : Hdr) (skip : Bool) (s : State) (x : Cx) (r : TrapRec) : State :=
  let s := dropRef s x.coreId (ovKey s x.coreId x.blk.ctx x.thr.top)
  let s := moveRefs s x.coreId x.blk.ctx x.thr.stack.tail r.stack
  let t := (x.thr.leave s.cycle h (if skip then nextSlot r.resume else r.resume))
  setThread s x.tid { t with
    stack := r.stack
    trap := none
    runFrom := t.runFrom.map (fun _ => s.cycle) }

/-! ### Restart points and rollback (R242 to R247) -/

/-- Commit epochs of a thread: the counts modulo 16 (R282). -/
def epochOf (k : Nat) : BitVec 4 := BitVec.ofNat 4 k

/-- A record of one thread of a block. -/
def Rec.ofThread (r : Rec) (tid : ThreadId) : Bool :=
  r.bslot.toNat == tid.slot && r.wave.toNat == waveIx tid && r.lane.toNat == laneOf tid

/-- Bytes charged for a record (R299). -/
def Rec.charge (r : Rec) : Nat := if r.ext then 32 else 16

/-- A log entry with the region of a thread closed: its record is no longer open. -/
def LogEntry.close (tid : ThreadId) : LogEntry → LogEntry
  | .record r o => .record r (o && !r.ofThread tid)
  | e => e

/-- Closes the thread's region: its open records become closed, in whichever core's log they lie (R180, R284). -/
def closeRegion (s : State) (tid : ThreadId) : State :=
  { s with cores := Assoc.mapVals s.cores (fun _ c => { c with log := c.log.map (LogEntry.close tid) }) }

/-- Passing a restart point: RPADDR and the recorded stack, the references moved to it, the region closed, the
counters saved (R242, R267, R282). -/
def passRestart (s : State) (tid : ThreadId) (b : Block) (t : Thread) : State :=
  let core := coreIdOf b tid
  let s := setThread s tid { t with
    rpaddr := t.pcWord
    rpStack := t.stack
    region := t.counts
    tokens := t.tokens.map (fun k => { k with inRegion := false }) }
  let s := addRefs s core b.ctx t.stack
  let s := dropRefs s core b.ctx t.rpStack
  closeRegion s tid

/-- The commits issued of a scope. -/
def Counts.k (c : Counts) : CommitScope → Nat
  | .t => c.kt
  | .b => c.kb
  | .g => c.kg
  | .p => c.kp

/-- Withdraws the commits of the open region: their tokens complete with 0 and cover nothing (R29). -/
def withdraw (s : State) (tid : ThreadId) (t : Thread) : State × Thread :=
  let gone := t.tokens.filter (fun k => match k.of with
    | .commit id => (s.commits.find? (fun c => c.id == id)).any (fun c => decide (c.k > t.region.k c.scope))
    | _ => false)
  let commits := s.commits.map (fun c =>
    if gone.any (fun k => k.of == .commit c.id) then { c with tokens := c.tokens.filter (fun x => x.1 != tid) } else c)
  let commits := commits.filter (fun c => !(c.tokens.isEmpty && gone.any (fun k => k.of == .commit c.id)))
  let t := gone.foldl (fun t k => wrV s.cycle { t with tokens := t.tokens.filter (fun x => x != k) } k.reg 0 0) t
  ({ s with commits := commits }, t)

/-- An open record of a thread. -/
def LogEntry.openOf (tid : ThreadId) : LogEntry → Bool
  | .record r o => o && r.ofThread tid
  | _ => false

/-- Open records of a thread leave the logs, wherever they lie, with their charge (R247, R284, R299). -/
def discardOpen (s : State) (tid : ThreadId) : State :=
  let freed := (s.cores.flatMap (fun c => (c.2.log.filter (LogEntry.openOf tid)).map (fun e => match e with
    | .record r _ => r.charge
    | _ => 0))).foldl (· + ·) 0
  let s := { s with cores := Assoc.mapVals s.cores (fun _ c => { c with log := c.log.filter (fun e => !e.openOf tid) }) }
  modBlock s tid.slot (fun b => { b with charge := b.charge - freed })

/-- Steps 1 to 4 of R247, with the status the thread then has: open records are discarded, commits of the region
withdrawn, counters restored, and the program counter and overlay stack are those of RPADDR. -/
def rollbackTo (s : State) (tid : ThreadId) (st : TStatus) : State :=
  match blockOf s tid.slot with
  | none => s
  | some b =>
    match b.threads[tid.tidx]? with
    | none => s
    | some t =>
      let core := coreIdOf b tid
      let (s, t) := withdraw s tid t
      let s := setThread s tid { t with
        pc := (0#1 ++ t.rpaddr.extractLsb' 0 15)
        stack := t.rpStack
        counts := t.region
        status := st
        arrival := none
        snap := none
        stgOut := false }
      let s := addRefs s core b.ctx t.rpStack
      let s := dropRefs s core b.ctx t.stack
      discardOpen s tid

/-- ROLLBACK (R247). In the handler the access stalls instead until the fault is serviced (R250). -/
def rollback (s : State) (x : Cx) (f : PageFault) : State :=
  match x.thr.trap with
  | none => rollbackTo s x.tid (.parkedFault [f] s.cycle)
  | some _ => setThread s x.tid { x.thr with status := .parkedFault [f] s.cycle }

end Sys2Proof.Machine
end

