-- ==== Sys2Proof/Machine/Operands.lean ====
section
/-! DEFINITION. Operand forms: what a source specifier supplies in each width and format (R14, R31, R77), and the
registers an instruction reads and writes (Table 3.13 row 9). -/

namespace Sys2Proof

/-- Bytes of a width (R145). -/
def Wid.bytes : Wid → Nat
  | .w8 => 1 | .w16 => 2 | .w32 => 4 | .w64 => 8 | .w128 => 16

/-- Registers of a width (R151). -/
def Wid.regs : Wid → Nat
  | .w64 => 2 | .w128 => 4 | _ => 1

end Sys2Proof

namespace Sys2Proof.Machine

open Sys2Proof

/-! ### Constants (Table 3.10) -/

/-- FP32 encodings of the float constants, 0xA0 first. -/
def constF32List : List Nat :=
  [0x00000000, 0x3F800000, 0x40000000, 0x40400000, 0x40800000, 0x40A00000, 0x40C00000, 0x40E00000,
   0x41000000, 0x41200000, 0x41800000, 0x42000000, 0x42800000, 0x42C80000, 0x43000000, 0x43800000]
  ++ [0x43E00000, 0x44800000, 0x45800000, 0x47000000, 0x3F000000, 0x3E800000, 0x3E000000, 0x3D800000,
   0x3FC00000, 0x3F400000, 0x38800000, 0x33800000, 0x80000000, 0xBF800000, 0xBF000000, 0xC0000000]

/-- FP16 encodings of the float constants. -/
def constF16List : List Nat :=
  [0x0000, 0x3C00, 0x4000, 0x4200, 0x4400, 0x4500, 0x4600, 0x4700,
   0x4800, 0x4900, 0x4C00, 0x5000, 0x5400, 0x5640, 0x5800, 0x5C00]
  ++ [0x5F00, 0x6400, 0x6C00, 0x7800, 0x3800, 0x3400, 0x3000, 0x2C00,
   0x3E00, 0x3A00, 0x0400, 0x0001, 0x8000, 0xBC00, 0xB800, 0xC000]

def constF32 (n : BitVec 5) : Word := BitVec.ofNat 32 (constF32List.getD n.toNat 0)
def constF16 (n : BitVec 5) : BitVec 16 := BitVec.ofNat 16 (constF16List.getD n.toNat 0)
/-- The upper half of the FP32 encoding (R77). -/
def constBf16 (n : BitVec 5) : BitVec 16 := (constF32 n).extractLsb' 16 16

/-- FP32 bits as FP64 bits: exact, a NaN keeps its class (R31). -/
def widenF32 (x : Word) : DWord :=
  if x.extractLsb' 23 8 = 0xFF#8 then x.extractLsb' 31 1 ++ 0x7FF#11 ++ x.extractLsb' 0 23 ++ 0#29
  else BitVec.ofNat 64 (fp64.encode (fp32.decode x.toNat))

/-- The FP64 encoding of a float constant: its exact widening (R77). -/
def constF64 (n : BitVec 5) : DWord := widenF32 (constF32 n)

/-- A half in both halves. -/
def both (x : BitVec 16) : Word := x ++ x

/-! ### Sources (R30, R31) -/

/-- "s32": 32 bits, a float constant giving its FP32 encoding. -/
def src32 (s : State) (t : Thread) : Src → Word
  | .v r => rdV s t r
  | .intc n => n.setWidth 32
  | .fltc n => constF32 n
  | .imm x => x

/-- 64-bit integer: a pair, a constant zero-extended, or I sign-extended. -/
def src64 (s : State) (t : Thread) : Src → DWord
  | .v r => rdV64 s t r
  | .intc n => n.setWidth 64
  | .fltc n => constF64 n
  | .imm x => x.signExtend 64

/-- FP64: an integer constant is a bit pattern, I is FP32 widened. -/
def srcF64 (s : State) (t : Thread) : Src → DWord
  | .v r => rdV64 s t r
  | .intc n => n.setWidth 64
  | .fltc n => constF64 n
  | .imm x => widenF32 x

/-- Packed FP16x2: a float constant stands in both halves. -/
def srcH2 (s : State) (t : Thread) : Src → Word
  | .v r => rdV s t r
  | .intc n => n.setWidth 32
  | .fltc n => both (constF16 n)
  | .imm x => x

/-- Packed BF16x2. -/
def srcB2 (s : State) (t : Thread) : Src → Word
  | .v r => rdV s t r
  | .intc n => n.setWidth 32
  | .fltc n => both (constBf16 n)
  | .imm x => x

/-- A scalar FP16 operand, and a 16-bit integer one: bits [15:0] (R31). -/
def src16 (s : State) (t : Thread) : Src → BitVec 16
  | .v r => (rdV s t r).extractLsb' 0 16
  | .intc n => n.setWidth 16
  | .fltc n => constF16 n
  | .imm x => x.extractLsb' 0 16

/-- A scalar BF16 operand. -/
def srcBf (s : State) (t : Thread) : Src → BitVec 16
  | .v r => (rdV s t r).extractLsb' 0 16
  | .intc n => n.setWidth 16
  | .fltc n => constBf16 n
  | .imm x => x.extractLsb' 0 16

/-- A register or integer constant. -/
def rc32 (s : State) (t : Thread) : RC → Word
  | .v r => rdV s t r
  | .c n => n.setWidth 32

/-- Words of n consecutive registers, the named one first. -/
def rdVs (s : State) (t : Thread) (r : VReg) : Nat → List Word
  | 0 => []
  | n + 1 => rdV s t r :: rdVs s t (r + 1) n

/-- Words of a little-endian value, low word first. -/
def wordsNat : List Word → Nat
  | [] => 0
  | w :: ws => w.toNat + 2 ^ 32 * wordsNat ws

/-- The n low words of a number, lowest first. -/
def natWords (x : Nat) : Nat → List Word
  | 0 => []
  | n + 1 => BitVec.ofNat 32 x :: natWords (x / 2 ^ 32) n

/-- Store data of a width as a number: the low bytes of the registers, or a constant zero-extended (R151). -/
def dataOf (s : State) (t : Thread) (w : Wid) : RC → Nat
  | .v r => wordsNat (rdVs s t r w.regs) % 2 ^ (8 * w.bytes)
  | .c n => n.toNat

end Sys2Proof.Machine

namespace Sys2Proof

/-! ### Registers read and written (Table 3.13 row 9)

Specifier bytes in the order of Table 3.13: D where it is read, A, B, C, then registers named in I; a pair or quad
lists its low register first. -/

/-- Specifiers of n registers from one. -/
def vSpecs (r : VReg) : Nat → List (BitVec 8)
  | 0 => []
  | n + 1 => vByte r :: vSpecs (r + 1) n

def Src.specs (n : Nat) : Src → List (BitVec 8)
  | .v r => vSpecs r n
  | _ => []

def RC.specs (n : Nat) : RC → List (BitVec 8)
  | .v r => vSpecs r n
  | .c _ => []

def CapAddr.specs (x : CapAddr) : List (BitVec 8) := aByte x.a :: x.idx.specs 1
def LocAddr.specs (x : LocAddr) : List (BitVec 8) := x.idx.specs 1
def OvSel.specs : OvSel → List (BitVec 8)
  | .id _ => []
  | .reg r => [vByte r]
def Comb.specs : Comb → List (BitVec 8)
  | .none => []
  | .andP c | .orP c | .xorP c => [pByte c]
def CpySide.specs : CpySide → List (BitVec 8)
  | .obj c o => [aByte c, vByte o]
  | .spad r => [vByte r]
def optSpecs (n : Nat) : Option VReg → List (BitVec 8)
  | none => []
  | some r => vSpecs r n
/-- Registers of a format-Q instruction but its fragment: A, tile C, then MASK, BWT and BAR of I (R74). -/
def QOps.specs (o : QOps) (b : List (BitVec 8)) : List (BitVec 8) :=
  [vByte o.a] ++ b ++ [vByte o.c, vByte o.mask] ++ optSpecs 2 o.bwt ++ optSpecs 1 o.bar

def s1 (a : Src) : List (BitVec 8) := a.specs 1
def s2 (a b : Src) : List (BitVec 8) := a.specs 1 ++ b.specs 1
def s3 (a b c : Src) : List (BitVec 8) := a.specs 1 ++ b.specs 1 ++ c.specs 1
/-- Source registers of a conversion. -/
def fmtRegs (f : Fmt) : Nat := if f.is64 then 2 else 1

/-- Registers an instruction reads, beside its guard. -/
def Instr.reads : Instr → List (BitVec 8)
  | .brx _ a | .ret _ a => [vByte a]
  | .callo _ _ o _ | .jmpo _ o _ | .ovld _ _ o | .ovrel _ o | .ovq _ _ o => o.specs
  | .twait _ a => s1 a
  | .iadd _ _ a b | .isub _ _ a b | .imul _ _ a b | .and _ _ a b | .or _ _ a b | .xor _ _ a b | .andn _ _ a b
  | .shl _ _ a b | .shr _ _ a b | .sar _ _ a b => s2 a b
  | .imulh _ _ _ a b | .imulw _ _ _ a b | .imin _ _ _ a b | .imax _ _ _ a b | .iadds _ _ _ a b | .isubs _ _ _ a b
  | .bfe _ _ _ a b => s2 a b
  | .imad _ _ _ a b c => s2 a b ++ c.specs 2
  | .bfi _ _ a b c => s3 a b c
  | .iabs _ _ a | .popc _ _ a | .clz _ _ a | .brev _ _ a => s1 a
  | .iadd64 _ _ a b | .isub64 _ _ a b => a.specs 2 ++ b.specs 2
  | .shl64 _ _ a b | .shr64 _ _ a b | .sar64 _ _ a b => a.specs 2 ++ b.specs 1
  | .cmpi _ _ _ k _ a b => s2 a b ++ k.specs
  | .cmpf _ _ _ _ k _ a b | .cmph _ _ _ _ k _ a b => s2 a b ++ k.specs
  | .cmpd _ _ _ _ k _ a b => a.specs 2 ++ b.specs 2 ++ k.specs
  | .pfun _ _ a b c _ => [pByte a, pByte b, pByte c]
  | .sel _ _ a b c => s2 a b ++ [pByte c]
  | .mov _ _ (.src a) => s1 a
  | .vtop _ a b => s2 a b
  | .ptov _ _ => [0x48, 0x49, 0x4A, 0x4B, 0x4C, 0x4D, 0x4E]
  | .swr _ _ a => a.specs 1
  | .ballot _ _ _ a => [pByte a]
  | .vote _ _ _ _ a => [pByte a]
  | .shfl _ _ _ _ a b => s1 a ++ b.specs 1
  | .wred _ _ _ _ a | .wscan _ _ _ _ _ a | .matchEq _ _ _ a => s1 a
  | .fadd _ _ _ a b | .fsub _ _ _ a b | .fmul _ _ _ a b | .fmin _ _ _ a b | .fmax _ _ _ a b | .fdiv _ _ _ a b
  | .hadd2 _ _ _ a b | .hmul2 _ _ _ a b | .hmin2 _ _ _ a b | .hmax2 _ _ _ a b | .badd2 _ _ _ a b
  | .bmul2 _ _ _ a b | .bmin2 _ _ _ a b | .bmax2 _ _ _ a b => s2 a b
  | .ffma _ _ _ a b c | .hfma2 _ _ _ a b c | .bfma2 _ _ _ a b c => s3 a b c
  | .frcp _ _ _ a | .frsq _ _ _ a | .fsqrt _ _ _ a | .fexp2 _ _ _ a | .flog2 _ _ _ a | .frnd _ _ _ a
  | .fcls _ _ _ a => s1 a
  | .dadd _ _ _ a b | .dmul _ _ _ a b | .dmin _ _ _ a b | .dmax _ _ _ a b | .ddiv _ _ _ a b => a.specs 2 ++ b.specs 2
  | .dfma _ _ _ a b c => a.specs 2 ++ b.specs 2 ++ c.specs 2
  | .dsqrt _ _ _ a => a.specs 2
  | .cvt _ _ _ sf _ _ _ a => a.specs (fmtRegs sf)
  | .cvt2 _ _ _ sf _ a b => s1 a ++ (if sf = .fp32 then s1 b else [])
  | .qe4 _ _ _ a b => vSpecs a 4 ++ s1 b
  | .qe2 _ _ _ _ a b c => vSpecs a 4 ++ s2 b c
  | .dq _ _ _ _ _ _ a b => s2 a b
  | .bscale _ _ _ _ a => s1 a
  | .ld _ _ _ x | .ldage _ _ x | .ldc _ _ x | .prf _ x => x.specs
  | .st _ m x c => x.specs ++ c.specs m.wid.regs
  | .ldl _ _ _ x | .lda _ _ _ x => x.specs
  | .stl _ m x c => x.specs ++ c.specs m.wid.regs
  | .sta _ w x c => x.specs ++ c.specs w.regs
  | .stc _ x c => x.specs ++ [aByte c]
  | .cst _ m x c k => vByte k :: (x.specs ++ c.specs m.wid.regs)
  | .xld _ _ _ x k => x.specs ++ [vByte k]
  | .capoff _ _ a b | .capnar _ _ a b => aByte a :: b.specs 2
  | .capadd _ _ a b | .caprgt _ _ a b => aByte a :: b.specs 1
  | .capget _ _ _ a => [aByte a]
  | .capchk _ _ a b => aByte a :: b.specs 2
  | .capmov _ _ a => [aByte a]
  | .atom _ m _ x c => x.specs ++ c.specs m.wid.regs
  | .atomf _ m _ x c => x.specs ++ c.specs m.wid.regs
  | .cas _ w _ d x c => vSpecs d w.regs ++ x.specs ++ c.specs w.regs
  | .cas128 _ _ d x c => vSpecs d 4 ++ x.specs ++ vSpecs c 4
  | .red _ m x c | .redf _ m x c => x.specs ++ c.specs m.wid.regs
  | .atoml _ m _ x c => x.specs ++ c.specs m.wid.regs
  | .casl _ w _ d x c => vSpecs d w.regs ++ x.specs ++ c.specs w.regs
  | .dage _ x c => x.specs ++ s1 c
  | .cpy _ _ dst src n _ => dst.specs ++ src.specs ++ [vByte n]
  | .cpyRing _ _ ring s o n _ => [vByte ring, aByte s, vByte o, vByte n]
  | .cpyg _ _ dst s o x n _ _ => dst.specs ++ [aByte s, vByte o, vByte n, vByte x]
  | .cpys _ _ _ dc dof src x n _ _ => [aByte dc, vByte dof] ++ src.specs ++ [vByte n, vByte x]
  | .cpyq _ _ a q p => [aByte a, vByte q] ++ vSpecs p 16
  | .rinit _ x c => x.specs ++ vSpecs c 2
  | .rres _ _ x | .rwait _ _ x | .barv _ _ x | .barw _ _ x => x.specs
  | .rpub _ x c | .rrel _ x c | .binit _ x c | .bwait _ x c => x.specs ++ [vByte c]
  | .grow _ _ a => s1 a
  | .mma _ _ _ o | .mmb _ _ _ o => o.specs []
  | .mscale _ f _ _ o => o.specs (if f.isBlock then vSpecs o.b 2 else [])
  | .plane _ _ _ _ _ a b k | .acvt _ _ _ _ a b k => [vByte a] ++ vSpecs b 2 ++ [vByte k]
  | .azero _ _ _ a k => [vByte a, vByte k]
  | .amovOut _ _ _ a b k | .amovIn _ _ _ a b k => [vByte a, vByte b, vByte k]
  | .bld _ _ _ _ x => x.specs
  | _ => []

/-- The scale-generator words an instruction reads, word w of SGENk as 4k + w: by SRD, or as a descriptor (R24). -/
def Instr.sgenReads : Instr → List Nat
  | .srd _ _ idx => if 0x20 ≤ idx.toNat ∧ idx.toNat < 0x30 then [idx.toNat - 0x20] else []
  | .mscale _ f sa sb _ => if f.isBlock then Machine.rangeFrom (4 * sa.toNat) 4 ++ Machine.rangeFrom (4 * sb.toNat) 4 else []
  | .plane _ f _ sg _ _ _ _ | .bld _ f sg _ _ => if f = .e2m1x then Machine.rangeFrom (4 * sg.toNat) 4 else []
  | .acvt _ f sg _ _ _ _ => if f.isBlock then Machine.rangeFrom (4 * sg.toNat) 4 else []
  | _ => []

/-- The landing mark of a scale-generator word that an instruction writes (R83). -/
def Instr.sgenWrites : Instr → List (BitVec 8)
  | .swr _ idx _ => if 0x20 ≤ idx.toNat ∧ idx.toNat < 0x30 then [Machine.sgenByte (idx.toNat - 0x20)] else []
  | _ => []

/-- The q register that an instruction reads (R18). -/
def Instr.qRead : Instr → Option QReg
  | .mov _ _ (.q r) => some r
  | _ => none

/-- The q register that is a source operand (R18, R216). -/
def Instr.qSource : Instr → Option QReg
  | .mov _ _ (.q r) | .mwait _ _ r => some r
  | _ => none

/-- The q register that a signing instruction names (R206). -/
def Instr.qSigned : Instr → Option QReg
  | .mma _ _ _ o | .mmb _ _ _ o | .mscale _ _ _ _ o => some o.q
  | .plane _ _ _ _ q _ _ _ | .acvt _ _ _ q _ _ _ => some q
  | .azero _ _ q _ _ | .amovOut _ _ q _ _ _ | .amovIn _ _ q _ _ _ => some q
  | _ => none

/-- SRD and SWR of FPX, which wait for its earlier updates (R21, R22). -/
def Instr.usesFpx : Instr → Bool
  | .srd _ _ idx | .swr _ idx _ => idx == 0x19
  | _ => false

/-- Registers an instruction writes, now or when its result lands. -/
def Instr.writes : Instr → List (BitVec 8)
  | .call _ d _ | .callo _ d _ _ | .ovld _ d _ => [vByte d]
  | .ovq _ d _ => vSpecs d 2
  | .iadd _ d _ _ | .isub _ d _ _ | .imul _ d _ _ | .and _ d _ _ | .or _ d _ _ | .xor _ d _ _ | .andn _ d _ _
  | .shl _ d _ _ | .shr _ d _ _ | .sar _ d _ _ => [vByte d]
  | .imulh _ _ d _ _ | .imin _ _ d _ _ | .imax _ _ d _ _ | .iadds _ _ d _ _ | .isubs _ _ d _ _
  | .bfe _ _ d _ _ => [vByte d]
  | .imulw _ _ d _ _ => vSpecs d 2
  | .imad _ _ d _ _ _ => vSpecs d 2
  | .bfi _ d _ _ _ => [vByte d]
  | .iabs _ d _ | .popc _ d _ | .clz _ d _ | .brev _ d _ => [vByte d]
  | .iadd64 _ d _ _ | .isub64 _ d _ _ | .shl64 _ d _ _ | .shr64 _ d _ _ | .sar64 _ d _ _ => vSpecs d 2
  | .cmpi _ _ _ _ d _ _ => [pByte d]
  | .cmpf _ _ _ _ _ d _ _ | .cmpd _ _ _ _ _ d _ _ | .cmph _ _ _ _ _ d _ _ => [pByte d]
  | .pfun _ d _ _ _ _ => [pByte d]
  | .sel _ d _ _ _ => [vByte d]
  | .mov _ d _ => [vByte d]
  | .movi _ d _ | .ptov _ d | .srd _ d _ => [vByte d]
  | .vtop _ _ _ => [0x48, 0x49, 0x4A, 0x4B, 0x4C, 0x4D, 0x4E]
  | .ballot _ _ d _ => [vByte d]
  | .vote _ _ _ d _ => [pByte d]
  | .shfl _ _ _ d _ _ => [vByte d]
  | .wred _ _ _ d _ | .wscan _ _ _ _ d _ | .matchEq _ _ d _ => [vByte d]
  | .fadd _ _ d _ _ | .fsub _ _ d _ _ | .fmul _ _ d _ _ | .fmin _ _ d _ _ | .fmax _ _ d _ _ | .fdiv _ _ d _ _
  | .hadd2 _ _ d _ _ | .hmul2 _ _ d _ _ | .hmin2 _ _ d _ _ | .hmax2 _ _ d _ _ | .badd2 _ _ d _ _
  | .bmul2 _ _ d _ _ | .bmin2 _ _ d _ _ | .bmax2 _ _ d _ _ => [vByte d]
  | .ffma _ _ d _ _ _ | .hfma2 _ _ d _ _ _ | .bfma2 _ _ d _ _ _ => [vByte d]
  | .frcp _ _ d _ | .frsq _ _ d _ | .fsqrt _ _ d _ | .fexp2 _ _ d _ | .flog2 _ _ d _ | .frnd _ _ d _
  | .fcls _ _ d _ => [vByte d]
  | .dadd _ _ d _ _ | .dmul _ _ d _ _ | .dmin _ _ d _ _ | .dmax _ _ d _ _ | .ddiv _ _ d _ _ => vSpecs d 2
  | .dfma _ _ d _ _ _ => vSpecs d 2
  | .dsqrt _ _ d _ => vSpecs d 2
  | .cvt _ _ df _ _ _ d _ => vSpecs d (fmtRegs df)
  | .cvt2 _ _ df _ d _ _ => vSpecs d (if df = .fp32 then 2 else 1)
  | .qe4 _ _ d _ _ => [vByte d]
  | .qe2 _ _ _ d _ _ _ => [vByte d]
  | .dq _ _ _ _ _ d _ _ => [vByte d]
  | .bscale _ _ _ d _ => [vByte d]
  | .ld _ m d _ | .ldl _ m d _ => vSpecs d m.wid.regs
  | .lda _ w d _ => vSpecs d w.regs
  | .ldage _ d _ => [vByte d]
  | .ldc _ d _ => [aByte d]
  | .xld _ m d _ _ => vSpecs d m.wid.regs
  | .capoff _ d _ _ | .capadd _ d _ _ | .capnar _ d _ _ | .caprgt _ d _ _ => [aByte d]
  | .capget _ _ d _ => [vByte d]
  | .capchk _ d _ _ => [pByte d]
  | .capmov _ d _ => [aByte d]
  | .atom _ m d _ _ => optSpecs m.wid.regs d
  | .atomf _ m d _ _ | .atoml _ m d _ _ => vSpecs d m.wid.regs
  | .cas _ w _ d _ _ | .casl _ w _ d _ _ => vSpecs d w.regs
  | .cas128 _ _ d _ _ => vSpecs d 4
  | .commitT _ d | .commitB _ d | .commitG _ d | .commitP _ d _ => [vByte d]
  | .stepinc _ d => optSpecs 1 d
  | .dqry _ d => vSpecs d 2
  | .cpy _ t _ _ _ _ => [vByte t]
  | .cpyRing _ t _ _ _ _ _ => [vByte t]
  | .cpyg _ t _ _ _ _ _ _ _ => [vByte t]
  | .cpys _ t _ _ _ _ _ _ _ _ => [vByte t]
  | .cpyq _ t _ _ _ => [vByte t]
  | .rres _ d _ | .rwait _ d _ => [vByte d]
  | .barv _ d _ | .barw _ d _ => optSpecs 1 d
  | .grow _ d _ => [vByte d]
  | .mwait _ d _ => optSpecs 1 d
  | .bld _ f _ d _ => vSpecs d (if f.isMma then 16 else 8)
  | .tinfo _ _ d => [vByte d]
  | _ => []

end Sys2Proof
end

