-- ==== Sys2Proof/Machine/Order.lean ====
section
/-! DEFINITION. Which writes to a block's scratchpad and tiles are ordered before an engine operation (R212, R213, R318). -/

namespace Sys2Proof.Machine

open Sys2Proof

/-! ### Clocks -/

def Clock.get (c : Clock) (agent : Nat) : Nat := Assoc.getD c agent 0

/-- What either of two clocks orders. -/
def Clock.join (a b : Clock) : Clock := b.foldl (fun c p => Assoc.set c p.1 (max (Clock.get c p.1) p.2)) a

/-- The agent number of an engine operation or a copy. -/
def agentOf (id : Nat) : Nat := 2 ^ 16 + id

/-- An engine operation's or a copy's writes are ordered too. -/
def Clock.withOp (c : Clock) (id : Nat) : Clock := Assoc.set c (agentOf id) 1

/-- The operation's writes are ordered. -/
def Clock.hasOp (c : Clock) (id : Nat) : Bool := decide (0 < c.get (agentOf id))

/-! ### Marks -/

def Mark.meets (m : Mark) (tile : Bool) (addr len : Nat) : Bool :=
  m.tile == tile && decide (m.addr < addr + len ∧ addr < m.addr + m.len)

def Mark.covered (c : Clock) (m : Mark) : Bool := decide (m.n ≤ c.get m.agent)

/-- A write is noted; those before it that lie in its range leave the list. -/
def Order.note (o : Order) (c : Clock) (m : Mark) : Order :=
  { o with marks := o.marks.filter (fun x =>
      !(x.tile == m.tile && decide (m.addr ≤ x.addr ∧ x.addr + x.len ≤ m.addr + m.len) && x.covered c)) ++ [m] }

/-- A write to the range is not ordered. -/
def Order.racing (o : Order) (c : Clock) (tile : Bool) (addr len : Nat) : Bool :=
  o.marks.any (fun m => m.meets tile addr len && !m.covered c)

/-- A thread counts a write of its own. -/
def Thread.wrote (t : Thread) (i : Nat) : Thread :=
  { t with known := { t.known with seen := Assoc.set t.known.seen i (t.known.seen.get i + 1) } }

/-- The write that a thread, as it stands before it, makes to a range. -/
def Block.wrote (b : Block) (t : Thread) (i : Nat) (tile : Bool) (addr len : Nat) : Block :=
  { b with order := b.order.note t.known.seen ⟨tile, addr, len, i, t.known.seen.get i + 1⟩ }

/-- The write that an engine operation or a copy makes to a range. -/
def Block.wroteOp (b : Block) (c : Clock) (id : Nat) (tile : Bool) (addr len : Nat) : Block :=
  { b with order := b.order.note c ⟨tile, addr, len, agentOf id, 1⟩ }

/-! ### What threads acquire -/

/-- A thread acquires what a clock orders. -/
def Thread.acquire (t : Thread) (c : Clock) : Thread := { t with known := { t.known with seen := t.known.seen.join c } }

/-- FENCEO: what the thread has ordered is available to the operations it signs afterwards (R213). -/
def Thread.offer (t : Thread) : Thread := { t with known := { t.known with offered := t.known.seen, dirty := 0 } }

/-- The thread reads the registers `rs` and writes the registers `ws`: reading the token of a completed copy acquires the copy's
writes (R317). -/
def Thread.readTokens (t : Thread) (rs ws : List (BitVec 8)) : Thread :=
  let got := t.known.unread.filter (fun x => rs.contains (vByte x.1))
  let left := t.known.unread.filter (fun x => !(rs ++ ws).contains (vByte x.1))
  if t.known.unread = left then t
  else { t with known := { t.known with seen := got.foldl (fun c x => Assoc.set c x.2 1) t.known.seen, unread := left } }

/-! ### Barriers and rings (R318) -/

/-- An arrival at a barrier releases; the phase it leaves, and the one it finds. -/
def Order.arrive (o : Order) (a : Nat) (c : Clock) (p q : BitVec 16) : Order :=
  let all := (Assoc.getD o.arrived a []).join c
  { o with
    arrived := Assoc.set o.arrived a all
    phases := if p = q then o.phases else o.phases.filter (fun x => !(x.1 == a && x.2.1 == q)) ++ [(a, q, all)] }

/-- What the arrivals counted in phases that end at or before a target released. -/
def Order.upTo (o : Order) (a : Nat) (target : BitVec 16) : Clock :=
  o.phases.foldl (fun (c : Clock) x => if x.1 = a ∧ !(target - x.2.1).msb then c.join x.2.2 else c) []

/-- A new barrier has no arrivals. -/
def Order.initBarrier (o : Order) (a : Nat) : Order :=
  { o with arrived := Assoc.erase o.arrived a, phases := o.phases.filter (fun x => x.1 != a) }

def ringKey (a : Nat) (t : BitVec 16) : Nat := 2 ^ 16 * a + t.toNat

/-- A new ring has neither publications nor releases. -/
def Order.initRing (o : Order) (a : Nat) : Order :=
  { o with pubs := o.pubs.filter (fun x => x.1 / 2 ^ 16 != a), rels := o.rels.filter (fun x => x.1 / 2 ^ 16 != a) }

def Order.publish (o : Order) (a : Nat) (t : BitVec 16) (c : Clock) : Order := { o with pubs := Assoc.set o.pubs (ringKey a t) c }
def Order.release (o : Order) (a : Nat) (t : BitVec 16) (c : Clock) : Order := { o with rels := Assoc.set o.rels (ringKey a t) c }
def Order.published (o : Order) (a : Nat) (t : BitVec 16) : Clock := Assoc.getD o.pubs (ringKey a t) []
def Order.released (o : Order) (a : Nat) (t : BitVec 16) : Clock := Assoc.getD o.rels (ringKey a t) []

end Sys2Proof.Machine
end

