-- ==== Sys2Proof/Machine/Xlate.lean ====
section
/-! DEFINITION. Capability fields and checks (R145 to R148, R353), object and page tables (R357 to R363), version
binding (R375, R376), and bytes of object memory behind a translation. -/

namespace Sys2Proof.Machine

open Sys2Proof

/-! ### Capabilities (Table 17.1) -/

def Cap.obj (c : Cap) : Nat := (c.bits.extractLsb' 104 24).toNat
def Cap.rights (c : Cap) : BitVec 8 := c.bits.extractLsb' 96 8
def Cap.cursor (c : Cap) : Nat := (c.bits.extractLsb' 56 40).toNat
def Cap.exp (c : Cap) : Nat := (c.bits.extractLsb' 51 5).toNat
def Cap.lo (c : Cap) : Nat := (c.bits.extractLsb' 26 25).toNat
def Cap.len (c : Cap) : Nat := (c.bits.extractLsb' 0 26).toNat
/-- The window is [base, top) in bytes (R353). -/
def Cap.base (c : Cap) : Nat := c.lo * 2 ^ c.exp
def Cap.top (c : Cap) : Nat := (c.lo + c.len) * 2 ^ c.exp

/-- A capability from its fields. -/
def Cap.make (obj rights cursor e lo len : Nat) (tag : Bool) : Cap :=
  ⟨BitVec.ofNat 24 obj ++ BitVec.ofNat 8 rights ++ BitVec.ofNat 40 cursor ++ BitVec.ofNat 5 e ++ BitVec.ofNat 25 lo
    ++ BitVec.ofNat 26 len, tag⟩

/-- A trap's cause, SUB and arguments (Table 6.10). -/
structure Why where
  cause : BitVec 8
  sub : BitVec 8
  arg0 : Word
  arg1 : Word
  deriving DecidableEq, Repr

/-- Bits [31:0] and [40:32] of an offset (R199). -/
def offLo (off : Int) : Word := w32 off
def offHi (off : Int) : Word := ((BitVec.ofInt 41 off).extractLsb' 32 9).setWidth 32

/-- The lowest right of an ascending list that a capability lacks. -/
def missingRight (r : BitVec 8) : List Nat → Option Nat
  | [] => none
  | n :: ns => if r.getLsbD n then missingRight r ns else some n

/-- Steps 1 and 2 of R146: the tag and the rights. `spec` is the specifier of the capability operand. -/
def checkTag (c : Cap) (spec : BitVec 8) (rights : List Nat) : Option Why :=
  if !c.tag then some ⟨causeCapinv, 0, spec.setWidth 32, 0⟩
  else
    match missingRight c.rights rights with
    | some n => some ⟨causeCaprgt, BitVec.ofNat 8 n, c.rights.setWidth 32, 0⟩
    | none => none

/-- Step 3 of R146: [off, off + size) inside the window. -/
def checkBound (c : Cap) (off : Int) (size : Nat) : Option Why :=
  if (c.base : Int) ≤ off ∧ off + size ≤ (c.top : Int) then none else some ⟨causeCapbnd, 0, offLo off, offHi off⟩

/-- The first of two checks that fails. -/
def Why.first (a b : Option Why) : Option Why :=
  match a with
  | some w => some w
  | none => b

/-- Step 4 of R146: off a multiple of the size 2^wid. -/
def checkAlign (off : Int) (size : Nat) (sub : BitVec 8) : Option Why :=
  if off % size = 0 then none else some ⟨causeAlign, sub, offLo off, offHi off⟩

/-- The four checks of R146 for one access of 2^wid bytes. -/
def checkCap (c : Cap) (spec : BitVec 8) (rights : List Nat) (off : Int) (wid : Nat) : Option Why :=
  Why.first (checkTag c spec rights) (Why.first (checkBound c off (2 ^ wid)) (checkAlign off (2 ^ wid) (BitVec.ofNat 8 wid)))

/-! ### The object table (Table 17.3) -/

/-- Address of a byte of a device's stacked DRAM in `State.dram`. -/
def dramAt (home paddr : Nat) : Nat := home * 2 ^ 39 + paddr
/-- Address of a byte of a device's weight store in `State.ws`. -/
def wsAt (home addr : Nat) : Nat := home * 2 ^ 32 + addr

def objValid (e : BitVec 512) : Bool := e.getLsbD 31
def objCapa (e : BitVec 512) : Bool := e.getLsbD 30
def objWsf (e : BitVec 512) : Bool := e.getLsbD 29
def objAged (e : BitVec 512) : Bool := e.getLsbD 28
def objPgsz (e : BitVec 512) : Nat := (e.extractLsb' 26 2).toNat
def objKey (e : BitVec 512) : Nat := (e.extractLsb' 8 12).toNat
def objMaxr (e : BitVec 512) : BitVec 8 := e.extractLsb' 0 8
def objL (e : BitVec 512) : BitVec 24 := e.extractLsb' 40 24
def objSize (e : BitVec 512) : Nat := (e.extractLsb' 64 40).toNat
def objRoot (e : BitVec 512) : Nat := (e.extractLsb' 128 39).toNat
def objCur (e : BitVec 512) : Nat := (e.extractLsb' 216 8).toNat
def objHome (e : BitVec 512) : Nat := (e.extractLsb' 192 10).toNat
/-- Page size in bytes: 64 KiB or 2 MiB. -/
def objPage (e : BitVec 512) : Nat := if objPgsz e = 1 then 2 ^ 21 else 2 ^ 16

/-- Entry i of a context's object table; entry 0 is never valid (R358). -/
def objEntry (s : State) (ctx obj : Nat) : Option (BitVec 512) :=
  match ctxOf s ctx with
  | none => none
  | some c =>
    if 0 < obj ∧ obj < c.otLen then
      let e : BitVec 512 := BitVec.ofNat 512 (s.dram.readNat (dramAt s.device.toNat (c.otBase + 64 * obj)) 64)
      if objValid e then some e else none
    else none

/-! ### Page entries (Table 17.4) -/

def pagePresent (p : BitVec 64) : Bool := p.getLsbD 63
def pageDef (p : BitVec 64) : Bool := p.getLsbD 62
def pageCmp (p : BitVec 64) : Bool := p.getLsbD 61
def pageConst (p : BitVec 64) : Bool := p.getLsbD 60
def pageRo (p : BitVec 64) : Bool := p.getLsbD 59
def pageMig (p : BitVec 64) : Bool := p.getLsbD 58
def pageCache (p : BitVec 64) : Nat := (p.extractLsb' 56 2).toNat
def pagePfn (p : BitVec 64) : Nat := (p.extractLsb' 16 23).toNat * 2 ^ 16
def pagePattern (p : BitVec 64) : Word := p.extractLsb' 0 32

/-- Where the entry of a page lies: its address in `State.dram`, or none when the level-1 entry is not valid (R359). -/
def pageEntryAddr (s : State) (home root p : Nat) : Option Nat :=
  let l1 : BitVec 64 := s.dram.read64 (dramAt home (root + 8 * (p / 512)))
  if l1.getLsbD 63 then some (dramAt home ((l1.extractLsb' 12 27).toNat * 2 ^ 12 + 8 * (p % 512))) else none

/-! ### Versions (R375, R376) -/

/-- Address of a version table entry. -/
def verAddr (e : BitVec 512) (v : Nat) : Nat := dramAt (objHome e) (objRoot e + 16 * v)
def verEntry (s : State) (e : BitVec 512) (v : Nat) : BitVec 128 := BitVec.ofNat 128 (s.dram.readNat (verAddr e v) 16)
def verState (x : BitVec 128) : Nat := (x.extractLsb' 0 2).toNat
def verHold (x : BitVec 128) : Bool := x.getLsbD 2
def verPins (x : BitVec 128) : Nat := (x.extractLsb' 16 16).toNat
def verRoot (x : BitVec 128) : Nat := (x.extractLsb' 64 39).toNat

/-- Writes PINS of a version. -/
def setPins (s : State) (e : BitVec 512) (v n : Nat) : State :=
  { s with dram := s.dram.writeNat (verAddr e v + 2) 2 n }

/-- Writes STATE of a version, keeping HOLD. -/
def setVerState (s : State) (e : BitVec 512) (v st : Nat) : State :=
  { s with dram := s.dram.writeNat (verAddr e v) 1 (st + (if verHold (verEntry s e v) then 4 else 0)) }

/-- Frees a retired version with no pins and HOLD clear (R376). -/
def freeVersion (s : State) (e : BitVec 512) (v : Nat) : State :=
  let x := verEntry s e v
  if verState x = 3 ∧ verPins x = 0 ∧ !verHold x then setVerState s e v 0 else s

/-- Bind (R376): the version an offset's bits [39:32] name, binding it for the launch on first use; none is VERUNAV.
An access without a launch reads the current version through version 0 (log 12). -/
def bindVersion (s : State) (launch : Option Nat) (obj : Nat) (e : BitVec 512) (v : Nat) : State × Option Nat :=
  let l := match launch with | none => none | some l => launchOf s l
  if v = 0 then
    match l with
    | some l => (s, (l.bound0.find? (fun p => p.1 == obj)).map (·.2))
    | none => (s, some (objCur e))
  else
    let x := verEntry s e v
    let ok := verState x = 2 ∨ verState x = 3
    match launch, l with
    | some id, some l =>
      if l.pins.contains (obj, v) then (s, some v)
      else if ok then
        (setPins (modLaunch s id (fun l => { l with pins := l.pins ++ [(obj, v)] })) e v (verPins x + 1), some v)
      else (s, none)
    | _, _ => (s, if ok then some v else none)

/-! ### Translation (R363) -/

/-- Where a byte of object memory is. -/
structure Loc where
  ws : Bool
  addr : Nat
  deriving DecidableEq, Repr

/-- A translated access: object entry, page entry and where it lies, the byte, the home device, and the version of a weight-store
object, 0 for any other. -/
structure Mapped where
  oe : BitVec 512
  pe : BitVec 64
  peAddr : Nat
  loc : Loc
  home : Nat
  paddr : Nat
  ver : Nat
  deriving DecidableEq, Repr

/-- What Translate answers. `recd`: the access forms a record. -/
inductive Xl where
  | ok (m : Mapped) (recd : Bool)
  | fault (f : PageFault)
  | trap (cause sub : BitVec 8)
  | migrating (page : Nat)
  | noAddr (paddr : Nat)
  deriving DecidableEq, Repr

/-- An access to translate. `stc`: an STC; `fadd`: a float add atomic of a deterministic checked launch (R176). -/
structure Want where
  obj : Nat
  off : Nat
  acc : Acc
  stc : Bool
  fadd : Bool
  deriving DecidableEq, Repr

def Acc.writes : Acc → Bool
  | .read | .oload => false
  | _ => true

/-- The context owns the key slot of an object (R430). -/
def keyOwned (s : State) (ctx : Nat) (oe : BitVec 512) : Bool :=
  match Assoc.get s.service.keys (objKey oe) with
  | some k => k.owner == ctx
  | none => false

/-- Translate (R363). An object whose key slot is not the context's own reads as invalid (R430). The binding of a version is the one change of state. -/
def translate (s : State) (ctx : Nat) (launch : Option Nat) (w : Want) : State × Xl :=
  match (objEntry s ctx w.obj).filter (keyOwned s ctx) with
  | none => (s, .fault ⟨.objInv, w.obj, w.off / 2 ^ 16 * 2 ^ 16, w.off, w.acc⟩)
  | some oe =>
    let pg := w.off / objPage oe * objPage oe
    let flt (k : FaultKind) : Xl := .fault ⟨k, w.obj, pg, w.off, w.acc⟩
    if w.stc && !objCapa oe then (s, .trap causeCaprgt 0x09)
    else
      let (s, root, o) : State × Option (Nat × Nat) × Nat :=
        if objWsf oe then
          let (s, v) := bindVersion s launch w.obj oe (w.off / 2 ^ 32)
          (s, v.map (fun v => (verRoot (verEntry s oe v), v)), w.off % 2 ^ 32)
        else (s, some (objRoot oe, 0), w.off)
      match root with
      | none => (s, flt .verUnav)
      | some (root, ver) =>
        match pageEntryAddr s (objHome oe) root (o / objPage oe) with
        | none => (s, flt .notPres)
        | some pa =>
          let pe : BitVec 64 := s.dram.read64 pa
          let paddr := pagePfn pe + o % objPage oe
          let deferred := pageDef pe && (w.acc == .write || w.acc == .rmw || w.acc == .record)
          if !pagePresent pe then (s, flt .notPres)
          else if pageConst pe && w.acc.writes then (s, flt .mater)
          else if pageRo pe && w.acc.writes then (s, flt .rowR)
          else if pageDef pe && w.acc == .rmwRet then (s, .trap causeDfetch 0)
          else if w.fadd then (s, .trap causeDetchk 0)
          else if deferred && pageMig pe then (s, .migrating pg)
          else if objWsf oe then
            (s, .ok ⟨oe, pe, pa, ⟨true, wsAt (objHome oe) (paddr % 2 ^ 32)⟩, objHome oe, paddr, ver⟩ false)
          else if !pageConst pe && decide (Config.dramBytes ≤ paddr) then (s, .noAddr paddr)
          else (s, .ok ⟨oe, pe, pa, ⟨false, dramAt (objHome oe) paddr⟩, objHome oe, paddr, ver⟩ deferred)

/-! ### Bytes behind a translation -/

/-- The die of a weight-store address (R374). -/
def wsDie (addr : Nat) : Nat := addr % 2 ^ 32 / 2 ^ 30

/-- The content of a key slot. -/
def keyOf (s : State) (slot : Nat) : BitVec 512 :=
  match Assoc.get s.service.keys slot with
  | some k => k.key
  | none => 0

/-- Lines of 64 bytes that n bytes from an address touch. -/
def linesAt (a n : Nat) : List Nat := rangeFrom (a / 64) (if n = 0 then 0 else (a + n - 1) / 64 - a / 64 + 1)

/-- A line was last written under another key than this one (R367). -/
def keyDiffers (s : State) (key : BitVec 512) (line : Nat) : Bool := (Assoc.get s.lineKey line).any (fun k => k != key)

/-- What the bytes of a line are to one who reads it under a key: decrypted under that key from what the key they were written under
made of them; a line that was never written as object memory reads as it is (R367, log 19). -/
def lineUnder (s : State) (key : BitVec 512) (line : Nat) : List Byte :=
  let bs := s.dram.readBytes (64 * line) 64
  match Assoc.get s.lineKey line with
  | none => bs
  | some k =>
    if k = key then bs
    else
      let tweak := BitVec.ofNat 128 (line % 2 ^ 33)
      leBytes 64 (Config.xtsDecrypt key tweak (Config.xtsEncrypt k tweak (BitVec.ofNat 512 (leNat bs)))).toNat

/-- Reads n bytes of stacked DRAM as object memory under a key (R367). -/
def readUnder (s : State) (key : BitVec 512) (a n : Nat) : List Byte :=
  if (linesAt a n).any (keyDiffers s key) then (((linesAt a n).flatMap (lineUnder s key)).drop (a % 64)).take n
  else s.dram.readBytes a n

/-- Lines that are written under a key hold its encryption from now on, and in part what they read as under it (R367). -/
def rekey (s : State) (key : BitVec 512) (a n : Nat) : State :=
  (linesAt a n).foldl (fun s line =>
    { s with
      dram := if keyDiffers s key line then s.dram.writeBytes (64 * line) (lineUnder s key line) else s.dram
      lineKey := Assoc.set s.lineKey line key }) s

/-- Reads n bytes; a constant-elided page gives PATTERN repeated (Table 17.5). -/
def readMapped (s : State) (m : Mapped) (n : Nat) : List Byte :=
  if pageConst m.pe then
    (rangeFrom (m.paddr % 4) n).map (fun i => (pagePattern m.pe).extractLsb' (8 * (i % 4)) 8)
  else if m.loc.ws then s.ws.readBytes m.loc.addr n
  else readUnder s (keyOf s (objKey m.oe)) m.loc.addr n

/-- The home of a page is a peer that has failed: what is read there is poisoned (R407). -/
def Mapped.lost (s : State) (m : Mapped) : Bool := s.fabric.failedPeers.has m.home

/-- Whether byte i of an access is poisoned: its 64-byte line, or its 8-byte granule of the weight store (Table 21.1), or all of a
failed peer's memory. -/
def poisonedAt (s : State) (m : Mapped) (i : Nat) : Bool :=
  if m.lost s then true
  else if pageConst m.pe then false
  else if m.loc.ws then s.wsPoison.has ((m.loc.addr + i) / 8)
  else s.poison.has ((m.loc.addr + i) / 64)

/-- The tag of the granule an access lies in; 0 in an object without the capability attribute (R159, R356). -/
def tagAt (s : State) (m : Mapped) : Bool :=
  objCapa m.oe && !m.loc.ws && !pageConst m.pe && s.tags.has (m.loc.addr / 16)

/-- Granules touched by n bytes from an address. -/
def clearTags (tags : NatSet) (a n : Nat) : NatSet := tags.delRange (a / 16) ((a + n - 1) / 16 - a / 16 + 1)

/-- Granules of g bytes wholly inside [a, a + n) lose their poison (R421). -/
def clearPoison (ps : NatSet) (g a n : Nat) : NatSet :=
  let lo := ceilDiv a g
  ps.delRange lo ((a + n) / g - lo)

/-- Writes bytes of stacked DRAM: tags of touched granules clear, wholly written lines lose their poison (R160, R421). -/
def writeDram (s : State) (a : Nat) (bs : List Byte) : State :=
  if bs.isEmpty then s
  else
    { s with
      dram := s.dram.writeBytes a bs
      tags := clearTags s.tags a bs.length
      poison := clearPoison s.poison 64 a bs.length }

/-- Marks the lines of [a, a + n) poisoned. -/
def poisonDram (s : State) (a n : Nat) : State :=
  { s with poison := s.poison.addRange (a / 64) ((a + n - 1) / 64 - a / 64 + 1) }

/-- Writes bytes of the weight store: firmware alone does (R377). -/
def writeWs (s : State) (a : Nat) (bs : List Byte) : State :=
  { s with ws := s.ws.writeBytes a bs, wsPoison := clearPoison s.wsPoison 8 a bs.length }

/-- A page whose changed block no longer fits its allocation loses its compressed attribute, with an event (R302). -/
def expandPage (s : State) (ctx : Option Nat) (peAddr paddr obj page : Nat) : State :=
  let pe : BitVec 64 := s.dram.read64 peAddr
  if pageCmp pe && !Config.freeFit s.freeCtr paddr then
    logEvent { s with dram := s.dram.writeNat peAddr 8 (setBit pe 61 false).toNat } 0x0C 0 ctx
      (srcNo 3 (32 * (paddr / Config.stackBytes) + paddr % Config.stackBytes / 64 % 32))
      (BitVec.ofNat 32 obj) (BitVec.ofNat 32 page)
  else s

def writeMapped (s : State) (m : Mapped) (bs : List Byte) : State :=
  if m.loc.ws then writeWs s m.loc.addr bs
  else writeDram (rekey s (keyOf s (objKey m.oe)) m.loc.addr bs.length) m.loc.addr bs

/-! ### The L1 (R155, R312, R365) -/

/-- Lines the L1 holds: 192 KiB of 128 bytes. -/
def l1Lines : Nat := 1536

/-- The line an access lies in. -/
def Mapped.lineId (m : Mapped) (ctx obj off : Nat) : LineId :=
  ⟨ctx, obj, m.ver, (if objWsf m.oe then off % 2 ^ 32 else off) / 128⟩

/-- Drops every copy of a line from one core's L1. -/
def dropLine (c : Core) (k : LineId) : Core := { c with l1 := c.l1.filter (fun l => l.id != k) }

/-- Recalls a line from every L1 that holds it exclusive, but one core's (R312). -/
def recallLine (s : State) (keep : Nat) (k : LineId) : State :=
  { s with cores := Assoc.mapVals s.cores (fun i c =>
      if i = keep then c else { c with l1 := c.l1.filter (fun l => !(l.excl && l.id == k)) }) }

/-- Bytes of a line overwritten from an offset in it. -/
def overlay (old : List Byte) (i : Nat) (new : List Byte) : List Byte :=
  old.take i ++ (new.take (old.length - i)) ++ old.drop (i + new.length)

/-- A line that holds a copy of a name, changed. -/
def Core.modLine (c : Core) (k : LineId) (f : L1Line → L1Line) : Core := { c with l1 := c.l1.map (fun l => if l.id == k then f l else l) }

/-- A line touched with CH = EF is marked first for eviction (R155, log 8). -/
def L1Line.touch (l : L1Line) (ch : CacheHint) : L1Line := { l with first := l.first || ch == .ef }

/-- The writing core's L1 copy after a write: updated, or dropped by NC (R155); exclusive copies elsewhere are recalled
(R312). The bytes lie in one line, from byte i on. -/
def l1Write (s : State) (core : Option Nat) (k : LineId) (i : Nat) (bs : List Byte) (ch : CacheHint) : State :=
  let s := recallLine s (core.getD 0x10000) k
  match core with
  | none => s
  | some n =>
    let c := coreOf s n
    if !(c.l1.any (fun l => l.id == k)) then s
    else if ch = .nc then setCore s n (dropLine c k)
    else
      setCore s n (c.modLine k (fun l =>
        { l.touch ch with
          bytes := overlay l.bytes i bs
          tags := (rangeFrom 0 8).map (fun g => if i / 16 ≤ g ∧ g ≤ (i + bs.length - 1) / 16 then false else l.tags.getD g false) }))

/-- Puts a line into a full or not full L1: the oldest line marked first for eviction leaves, else the oldest line (R155, log 8). -/
def l1Insert (l : L1Line) (ls : List L1Line) : List L1Line :=
  if ls.length < l1Lines then l :: ls
  else
    match ls.reverse.find? L1Line.first with
    | some x => l :: ls.filter (fun y => y.id != x.id)
    | none => l :: ls.dropLast

/-- Fills a line of a core's L1 from memory, unless part of it is poisoned. `m` maps the access at `off`. -/
def l1Fill (s : State) (core : Nat) (k : LineId) (off : Nat) (m : Mapped) (excl : Bool) (ch : CacheHint) : State :=
  let c := dropLine (coreOf s core) k
  let back := off % 128
  let m0 : Mapped := { m with loc := { m.loc with addr := m.loc.addr - back }, paddr := m.paddr - back }
  if (rangeFrom 0 16).any (fun i => poisonedAt s m0 (8 * i)) then setCore s core c
  else
    let s := recallLine s core k
    let tags := (rangeFrom 0 8).map (fun g => tagAt s { m0 with loc := { m0.loc with addr := m0.loc.addr + 16 * g } })
    setCore s core { c with l1 := l1Insert ⟨k, readMapped s m0 128, tags, excl, ch == .ef⟩ c.l1 }

/-- An acquire drops a core's lines but those held exclusive (R312). -/
def l1Acquire (s : State) (core : Nat) : State :=
  setCore s core { coreOf s core with l1 := (coreOf s core).l1.filter L1Line.excl }

/-- Bytes [a, a + n) of a version of an object meet a line. -/
def LineId.meets (k : LineId) (ctx obj ver a n : Nat) : Bool :=
  k.ctx == ctx && k.obj == obj && k.ver == ver && decide (a < 128 * (k.line + 1) ∧ 128 * k.line < a + n)

/-- Lines of an object range leave a core's L1 (R317). -/
def l1DropRange (s : State) (core ctx obj off n : Nat) : State :=
  let c := coreOf s core
  setCore s core { c with l1 := c.l1.filter (fun l => !l.id.meets ctx obj 0 off n) }

/-- Copies held exclusive leave every L1: memory holds their bytes already (R312). -/
def dropExclusives (s : State) : State :=
  { s with cores := Assoc.mapVals s.cores (fun _ c => { c with l1 := c.l1.filter (fun l => !l.excl) }) }

/-- Lines of a page of a version, as version, first byte and length, or of a whole object, leave every L1 (R365 step 3). -/
def l1Invalidate (s : State) (ctx obj : Nat) (page : Option (Nat × Nat × Nat)) : State :=
  { s with cores := Assoc.mapVals s.cores (fun _ c => { c with l1 := c.l1.filter (fun l =>
      match page with
      | none => !(l.id.ctx == ctx && l.id.obj == obj)
      | some (ver, a, n) => !l.id.meets ctx obj ver a n) }) }

/-- Bytes of a bucket's range that a write covers. -/
def Bucket.covered (b : Bucket) (ctx obj off n : Nat) : Nat :=
  if b.state ≠ 0 ∧ b.ctx = ctx ∧ b.obj = obj then min (off + n) (b.off + b.len) - max off b.off else 0

/-- Every byte written into a bucket's range counts, in states 1 to 3 (R410, log 43). -/
def countBuckets (s : State) (ctx obj off n : Nat) : State :=
  { s with fabric := { s.fabric with
      buckets := Assoc.mapVals s.fabric.buckets (fun _ b => { b with count := b.count + b.covered ctx obj off n }) } }

/-- Writes object bytes at the point of coherence, with the copies in L1. -/
def placeObj (s : State) (core : Option Nat) (ctx obj off : Nat) (m : Mapped) (bs : List Byte) (ch : CacheHint) : State :=
  let s := writeMapped s m bs
  let s := if pageCmp m.pe then expandPage s (some ctx) m.peAddr m.paddr obj (off / objPage m.oe * objPage m.oe) else s
  l1Write s core (m.lineId ctx obj off) (off % 128) bs ch

/-- An agent's write of object bytes: performed, and counted by the collective engine (R410). -/
def writeObj (s : State) (core : Option Nat) (ctx obj off : Nat) (m : Mapped) (bs : List Byte) (ch : CacheHint) : State :=
  countBuckets (placeObj s core ctx obj off m bs ch) ctx obj off bs.length

/-! ### Faults of a cluster (R368) -/

/-- The bit of an access type in ACC (Table 17.6). -/
def Acc.bit : Acc → BitVec 6
  | .read => 1
  | .write => 2
  | .rmw | .rmwRet => 4
  | .record => 8
  | .cwrite => 16
  | .oload => 32

/-- Adds a waiter to an outstanding fault, or a new entry. -/
def noteFault (fs : List FaultEntry) (ctx : Nat) (f : PageFault) (acc : BitVec 6) (now : BitVec 64) : List FaultEntry :=
  let same (e : FaultEntry) : Bool := e.ctx == ctx && e.kind == f.kind && e.obj == f.obj && e.page == f.page
  if fs.any same then fs.map (fun e => if same e then { e with waiters := e.waiters + 1, acc := e.acc ||| acc } else e)
  else fs ++ [⟨ctx, f.kind, f.obj, f.page, 1, acc, now, false⟩]

/-- A thread's fault at its cluster, whose table holds 64: with none free, the fault is met again when the thread translates again
(R368, log 32). -/
def clusterFault (s : State) (cl ctx : Nat) (f : PageFault) : State :=
  let fs := (clusterOf s cl).faults
  if Config.maxFaults ≤ fs.length && !fs.any (fun e => e.ctx == ctx && e.kind == f.kind && e.obj == f.obj && e.page == f.page) then s
  else setCluster s cl { clusterOf s cl with faults := noteFault (clusterOf s cl).faults ctx f f.acc.bit (gtsOf s) }

/-! ### A thread's access -/

/-- Traps with a cause and arguments. -/
def trapWhy (s : State) (x : Cx) (w : Why) : Out := trapOn s x w.cause w.sub w.arg0 w.arg1

/-- Goes on unless a check fails. -/
def checked (s : State) (x : Cx) (c : Option Why) (k : Out) : Out :=
  match c with
  | some w => trapWhy s x w
  | none => k

/-- The migration of a page, by the address of its entry (R373). -/
def migrationAt (s : State) (peAddr : Nat) : Option Migration := s.migrations.find? (fun g => g.peAddr == peAddr)

/-- The directory holds the writes and atomics of the page (R322, R373). -/
def pageLocked (s : State) (m : Mapped) : Bool := (migrationAt s m.peAddr).any Migration.locked

/-- A page of an object is locked. -/
def objLocked (s : State) (ctx obj : Nat) : Bool := s.migrations.any (fun g => g.ctx == ctx && g.obj == obj && g.locked)

/-- The cycle since which a thread is held at a page. -/
def TStatus.heldSince (obj page : Nat) : TStatus → Option Nat
  | .stalled (.migrating o p c) => if o = obj ∧ p = page then some c else none
  | _ => none

/-- A thread waits at a page that migrates; it keeps its place in the order of arrival (R373). -/
def waitPage (s : State) (x : Cx) (obj page : Nat) : Out :=
  waitAt s x (.stalled (.migrating obj page ((x.thr.status.heldSince obj page).getD s.cycle)))

/-- The page's offset in its object. -/
def Migration.off (g : Migration) : Nat := g.page * g.size

/-- A thread of a context is held at a page, and since a cycle before another. -/
def heldBefore (s : State) (g : Migration) (tid : ThreadId) (since : Nat) : Bool :=
  s.blocks.any (fun b => b.2.ctx == g.ctx && (rangeFrom 0 b.2.threads.length).any (fun i =>
    (⟨b.1, i⟩ : ThreadId) != tid && (b.2.threads[i]?).any (fun t => (t.status.heldSince g.obj g.off).any (fun c =>
      decide (c < since ∨ (c = since ∧ (b.1 < tid.slot ∨ (b.1 = tid.slot ∧ i < tid.tidx))))))))

/-- No thread is held at the page but one. -/
def heldAlone (s : State) (g : Migration) (tid : ThreadId) : Bool := !heldBefore s g tid (s.cycle + 1)

/-- A page lets a thread's write or atomic pass: the lock is clear, and no thread held before it waits (R322, R373, log 68). -/
def Migration.lets (s : State) (g : Migration) (tid : ThreadId) (st : TStatus) : Bool :=
  !g.locked && !heldBefore s g tid ((st.heldSince g.obj g.off).getD (s.cycle + 1))

/-- A migration that is over, once nothing is held at its page. -/
def endHeld (s : State) (g : Migration) (tid : ThreadId) : State :=
  if g.copied && !g.locked && heldAlone s g tid then { s with migrations := s.migrations.filter (fun x => x.peAddr != g.peAddr) } else s

/-- The migration of a page that is not over (R373). -/
def liveMigration (s : State) (peAddr : Nat) : Option Migration :=
  (migrationAt s peAddr).filter (fun g => g.locked || !g.copied || !heldAlone s g ⟨2 ^ 15, 0⟩)

/-- A thread's write or atomic comes to a page: it is held there, or it passes (R322, R373). -/
def writing (s : State) (x : Cx) (m : Mapped) (k : State → Out) : Out :=
  match migrationAt s m.peAddr with
  | none => k s
  | some g => if g.lets s x.tid x.thr.status then k (endHeld s g x.tid) else waitPage s x g.obj g.off

/-- A thread's translation (R146, R363): a fault is noted at the cluster and rolls the thread back; a write or an atomic that forms no
record may be held at a migrating page. -/
def access (s : State) (x : Cx) (w : Want) (rights : BitVec 8) (k : State → Mapped → Bool → Out) : Out :=
  match translate s x.blk.ctx (some x.blk.launch) w with
  | (s, .ok m recd) => if w.acc.writes && !recd then writing s x m (fun s => k s m recd) else k s m recd
  | (s, .fault f) => .next (rollback (clusterFault s x.blk.cluster x.blk.ctx f) x f)
  | (s, .trap cause sub) =>
    if cause = causeCaprgt then trapOn s x cause sub (rights.setWidth 32) 0
    else trapOn s x cause sub (BitVec.ofNat 32 w.off) (BitVec.ofNat 32 w.obj)
  | (s, .migrating page) => waitPage s x w.obj page
  | (_, .noAddr a) => .fault (.noSuchAddress a)

/-- The weight store of a die is in its refresh window (R378). -/
def inRefresh (s : State) (die : Nat) : Bool := decide (((gtsOf s).toNat + 32000 - 8000 * die) % 32000 < 256)

/-- An access meets the refresh window of its die. -/
def refreshes (s : State) (m : Mapped) : Bool := m.loc.ws && inRefresh s (wsDie m.loc.addr)

/-- A weight-store access waits while its die is in its refresh window (R378). -/
def windowed (s : State) (x : Cx) (m : Mapped) (k : Out) : Out :=
  if refreshes s m then waitAt s x (.stalled (.refresh (wsDie m.loc.addr))) else k

/-- The entry of a page of stacked DRAM has MIG set (R363, R373). -/
def pageMigrating (s : State) (ctx obj page : Nat) : Bool :=
  match objEntry s ctx obj with
  | none => false
  | some oe =>
    match pageEntryAddr s (objHome oe) (objRoot oe) (page / objPage oe) with
    | none => false
    | some a => pageMig (s.dram.read64 a)

/-! ### Words and poison of results -/

/-- n registers from one, holding bytes with their poison. -/
def landRegs (d : VReg) : List Word → List Bool → List (VReg × Word × Bool)
  | [], _ => []
  | w :: ws, ps => (d, w, ps.headD false) :: landRegs (d + 1) ws ps.tail

/-- Sends a result to the scoreboard (R84). -/
def pendTo (t : Thread) (p : Pend) : Thread := { t with pend := t.pend ++ [p] }

end Sys2Proof.Machine
end

