-- ==== Sys2Proof/Machine/Ctl.lean ====
section
/-! DEFINITION. The CTL class (R109 to R120): branches, calls, overlays, EXIT, TWAIT. -/

namespace Sys2Proof.Machine

open Sys2Proof

/-- ILLOP on the executing slot: ARG0 and ARG1 are bits [63:0] of the word (Table 4.13). -/
def illop (s : State) (x : Cx) (w : IWord) (sub : BitVec 8) : Out :=
  trapOn s x causeIllop sub (w.extractLsb' 0 32) (w.extractLsb' 32 32)

/-- Goes on, with a variable-latency result on its way (R84). -/
def goOnPend (h : Hdr) (s : State) (x : Cx) (t : Thread) (p : Pend) : Out := goOn h s x (pendTo t p)

/-- A result of v registers that sets no flag. -/
def pendVals (vals : List (VReg × Word × Bool)) : Pend := ⟨false, vals, none, 0, false⟩

/-! ### Entries (R64, R111) -/

/-- A slot address is valid in an overlay of a core, and its TGT bit is set. -/
def entryOk (s : State) (core ctx : Nat) (id : BitVec 8) (pc : Nat) : Bool :=
  match lenOf s core ctx id with
  | none => false
  | some r =>
    decide (pc / 8 < r.len) && decide (pc % 8 < 5)
      && (Assoc.getD (coreOf s core).lines (r.base + pc / 8) 0).getLsbD (480 + pc % 8)

/-- BRTGT on the executing slot, with a packed target (Table 4.13). -/
def brtgt (s : State) (x : Cx) (target : Word) : Out := trapOn s x causeBrtgt 0 target 0

/-- The thread leaves for a slot of its current overlay. -/
def jumpTo (h : Hdr) (s : State) (x : Cx) (t : Thread) (pc : Nat) : Out :=
  .next (setThread s x.tid (t.leave s.cycle h (BitVec.ofNat 16 pc)))

/-- The packed address of a slot of an overlay, its low 15 bits (log 10). -/
def packAt (id : BitVec 8) (pc : Int) : Word := packAddr id false ((BitVec.ofInt 15 pc).setWidth 16)

/-- A branch within the current overlay to a target that may lie outside it (R65, R113). -/
def branchTo (h : Hdr) (s : State) (x : Cx) (t : Thread) (target : Int) : Out :=
  if 0 ≤ target ∧ entryOk s x.coreId x.blk.ctx x.thr.top target.toNat then jumpTo h s x t target.toNat
  else brtgt s x (packAt x.thr.top target)

/-- The slot address of the executing slot. -/
def Cx.slot (x : Cx) : Int := x.thr.pc.toNat

def execNop (h : Hdr) (s : State) : Out := guarded h s fun x => goOn h s x x.thr

/-- BRA (R113). -/
def execBra (h : Hdr) (off : Word) (s : State) : Out :=
  guarded h s fun x => branchTo h s x x.thr (x.slot + off.toInt)

/-- BRX (R113). -/
def execBrx (h : Hdr) (a : VReg) (s : State) : Out :=
  guarded h s fun x =>
    let t := rdV s x.thr a
    let pc := (t.extractLsb' 0 15).toNat
    if t.extractLsb' 24 8 = x.thr.top ∧ t.extractLsb' 15 9 = 0#9 ∧ entryOk s x.coreId x.blk.ctx x.thr.top pc then
      jumpTo h s x x.thr pc
    else brtgt s x t

/-- CALL (R114). -/
def execCall (h : Hdr) (d : VReg) (off : Word) (s : State) : Out :=
  guarded h s fun x =>
    branchTo h s x (wrV s.cycle x.thr d (packAddr x.thr.top false (nextSlot x.thr.pc)) 2) (x.slot + off.toInt)

/-- RET (R114). -/
def execRet (h : Hdr) (a : VReg) (s : State) : Out :=
  guarded h s fun x =>
    let t := rdV s x.thr a
    let id := t.extractLsb' 24 8
    let pc := (t.extractLsb' 0 15).toNat
    let core := x.coreId
    let ctx := x.blk.ctx
    if t.extractLsb' 15 8 ≠ 0#8 ∨ 4 < pc % 8 then brtgt s x t
    else if !t.getLsbD 23 then
      if id = x.thr.top ∧ entryOk s core ctx id pc then jumpTo h s x x.thr pc else brtgt s x t
    else
      match x.thr.stack with
      | top :: below :: rest =>
        if id = below ∧ entryOk s core ctx id pc then
          jumpTo h (dropRef s core (ovKey s core ctx top)) x { x.thr with stack := below :: rest } pc
        else brtgt s x t
      | _ => brtgt s x t

/-! ### Overlays (R115, R120) -/

/-- The overlay ID an operand names (R112). -/
def ovidOf (s : State) (t : Thread) : OvSel → BitVec 8
  | .id n => n
  | .reg r => (rdV s t r).extractLsb' 0 8

/-- Most entries of the overlay stack: 8, or 9 in the trap handler (R110). -/
def stackLimit (t : Thread) : Nat := if t.trap.isSome then 9 else 8

/-- OVMISS with the overlay and the entry's slot address (Table 4.13). -/
def ovmiss (s : State) (x : Cx) (sub : BitVec 8) (id : BitVec 8) (entry : BitVec 15) : Out :=
  trapOn s x causeOvmiss sub (id.setWidth 32) (entry.setWidth 32)

/-- SUB of OVMISS for a load that failed. -/
def ovmissSub (code : BitVec 8) : BitVec 8 := 0x80 + code

/-- Enters an overlay that the thread may fetch from: the last lines of R115. An arrival that traps has taken and released its
reference. -/
def enterOverlay (h : Hdr) (s : State) (x : Cx) (d : Option VReg) (id : BitVec 8) (entry : BitVec 15) : Out :=
  let core := x.coreId
  let ctx := x.blk.ctx
  let ok := entryOk s core ctx id entry.toNat
  let key := ovKey s core ctx id
  let s := addRef s core key
  if !ok then brtgt (dropRef s core key) x (packAddr id false (0#1 ++ entry))
  else
    match d with
    | some d =>
      jumpTo h s x { wrV s.cycle x.thr d (packAddr x.thr.top true (nextSlot x.thr.pc)) 2 with
        stack := id :: x.thr.stack } entry.toNat
    | none => jumpTo h (dropRef s core (ovKey s core ctx x.thr.top)) x { x.thr with stack := id :: x.thr.stack.tail } entry.toNat

/-- R115, for CALLO (with a destination) and JMPO. `w` is the instruction's word. -/
def enterOv (h : Hdr) (s : State) (x : Cx) (d : Option VReg) (o : OvSel) (entry : BitVec 15) (w : IWord) : Out :=
  let id := ovidOf s x.thr o
  let core := x.coreId
  let ctx := x.blk.ctx
  let auto := !launchFlag s x.blk Launch.ovTrap
  match ovEntryOf s ctx id with
  | none => ovmiss s x 0x01 id entry
  | some e =>
    if d.isSome ∧ stackLimit x.thr ≤ x.thr.stack.length then illop s x w 0x01
    else
      match (coreOf s core).find (ovKey s core ctx id) with
      | some r =>
        if r.state = .resident ∨ (r.state = .draining ∧ x.thr.stack.contains id) then enterOverlay h s x d id entry
        else if r.state = .loading ∧ auto then
          .next (setThread s x.tid { x.thr with status := .parkedLoad [id] (.call entry) })
        else waitAt s x (.waiting (.overlay id))
      | none =>
        if !auto then ovmiss s x 0x00 id entry
        else
          match startLoad s core ctx x.blk.launch id e with
          | (s, none) => .next (setThread s x.tid { x.thr with status := .parkedLoad [id] (.call entry) })
          | (s, some code) =>
            if code = 0 then enterOverlay h s x d id entry else ovmiss s x (ovmissSub code) id entry

/-- Starts the loads of those overlays of a thread that are not resident: the ones still loading, or a failure as SUB of
OVMISS with the overlay. An ID whose entry has been emptied since fails with SUB 0x01 (log 92). -/
def startLoads (core ctx launch : Nat) : List (BitVec 8) → State → State × List (BitVec 8) × Option (BitVec 8 × BitVec 8)
  | [], s => (s, [], none)
  | id :: ids, s =>
    if (coreOf s core).usable (ovKey s core ctx id) then startLoads core ctx launch ids s
    else
      match ovEntryOf s ctx id with
      | none => (s, [], some (0x01, id))
      | some e =>
        match startLoad s core ctx launch id e with
        | (s, none) =>
          let (s, more, bad) := startLoads core ctx launch ids s
          (s, id :: more, bad)
        | (s, some code) => if code = 0 then startLoads core ctx launch ids s else (s, [], some (ovmissSub code, id))

/-- CALLO (R115). -/
def execCallo (h : Hdr) (d : VReg) (o : OvSel) (entry : BitVec 15) (s : State) : Out :=
  guarded h s fun x => enterOv h s x (some d) o entry (encode (.callo h d o entry))

/-- JMPO (R115). -/
def execJmpo (h : Hdr) (o : OvSel) (entry : BitVec 15) (s : State) : Out :=
  guarded h s fun x => enterOv h s x none o entry (encode (.jmpo h o entry))

/-! ### EXIT, YIELD, TRAP, TWAIT (R116 to R119) -/

/-- Operations a thread signed that have not completed (R216). -/
def signedPending (b : Block) (tid : ThreadId) : Bool :=
  (b.wave (waveIx tid)).q.toList.any (fun q => q.ops.any (fun o => o.mask.getLsbD (laneOf tid)))

/-- Every earlier instruction of the thread has completed (R116). -/
def allDone (b : Block) (tid : ThreadId) (t : Thread) : Bool :=
  t.pend.isEmpty && t.tokens.isEmpty && !signedPending b tid

/-- A block retires when its last thread has: its stores and typing end (R231). -/
def retireBlock (b : Block) : Block :=
  if b.threads.all (fun t => t.status == .retired) then
    { b with
      phase := .retired, spad := [], types := [], tiles := [], tflags := [], spadPoison := [], tilePoison := [], order := Order.none }
  else b

/-- Retires a thread: its region closes, its references are released (R116). -/
def retireThread (s : State) (x : Cx) : State :=
  let core := x.coreId
  let s := closeRegion s x.tid
  let s := dropRefs s core x.blk.ctx (x.thr.stack ++ x.thr.rpStack)
  let s := setThread s x.tid { x.thr with status := .retired, trap := none, stack := [], rpStack := [] }
  match blockOf s x.tid.slot with
  | none => s
  | some b =>
    let b := retireBlock b
    let s := setBlock s x.tid.slot b
    if b.phase = .retired then modLaunch s b.launch (fun l => { l with retiredN := l.retiredN + 1 }) else s

/-- EXIT (R116). -/
def execExit (h : Hdr) (s : State) : Out :=
  guarded h s fun x =>
    if allDone x.blk x.tid x.thr then .next (retireThread s x) else waitAt s x (.stalled .exiting)

/-- YIELD (R117). -/
def execYield (h : Hdr) (s : State) : Out :=
  guarded h s fun x =>
    let t := x.thr.done s.cycle h
    .next (setThread s x.tid { t with sched := { t.sched with yielded := some s.cycle } })

/-- TRAP (R119). -/
def execTrap (h : Hdr) (code : BitVec 16) (s : State) : Out :=
  guarded h s fun x => trapOn s x causeSwtrap 0 (code.setWidth 32) 0

/-- BKPT (R119). -/
def execBkpt (h : Hdr) (code : BitVec 16) (s : State) : Out :=
  guarded h s fun x => trapOn s x causeBkpt 0 (code.setWidth 32) 0

/-- TWAIT (R118). -/
def execTwait (h : Hdr) (a : Src) (s : State) : Out :=
  guarded h s fun x =>
    let n := (src32 s x.thr a).toNat
    if x.thr.tokens.length ≤ n then goOn h s x x.thr else waitAt s x (.waiting (.twait n))

/-! ### Tokens (R26) -/

/-- Marks a token pending. -/
def markToken (t : Thread) (r : VReg) (of : TokenOf) : Thread := { t with tokens := t.tokens ++ [⟨r, of, true⟩] }

/-- An asynchronous instruction issues only while fewer than 8 tokens are pending (R26). -/
def tokenRoom (s : State) (x : Cx) (k : Out) : Out :=
  if x.thr.tokens.length < Config.maxTokens then k else waitAt s x (.stalled .tokenLimit)

/-- Completes a thread's tokens of one operation with a status word (R26). -/
def landToken (now : Nat) (t : Thread) (of : TokenOf) (w : Word) : Thread :=
  (t.tokens.filter (fun k => k.of == of)).foldl
    (fun t k =>
      let t := wrV now { t with tokens := t.tokens.filter (fun x => x != k) } k.reg w 0
      match of with
      | .copy id => { t with known := { t.known with unread := t.known.unread.filter (fun x => x.1 != k.reg) ++ [(k.reg, agentOf id)] } }
      | _ => t) t

/-- OVLD (R120). -/
def execOvld (h : Hdr) (d : VReg) (o : OvSel) (s : State) : Out :=
  guarded h s fun x =>
    let id := ovidOf s x.thr o
    let core := x.coreId
    match ovEntryOf s x.blk.ctx id with
    | none => ovmiss s x 0x01 id 0
    | some e =>
      let key := ovKey s core x.blk.ctx id
      tokenRoom s x (
        match (coreOf s core).find key with
        | some r =>
          if r.state = .loading then goOn h s x (markToken x.thr d (.load key))
          else
            goOn h (setCore s core ((coreOf s core).modResid key (fun r => { r with state := .resident }))) x
              (wrV s.cycle x.thr d 0 0)
        | none =>
          match startLoad s core x.blk.ctx x.blk.launch id e with
          | (s, none) => goOn h s x (markToken x.thr d (.load (ovKey s core x.blk.ctx id)))
          | (s, some code) => goOn h s x (wrV s.cycle x.thr d (statusWord 0 0 code) 0))

/-- OVREL (R120). -/
def execOvrel (h : Hdr) (o : OvSel) (s : State) : Out :=
  guarded h s fun x =>
    let id := ovidOf s x.thr o
    let core := x.coreId
    let c := coreOf s core
    let key := c.key x.blk.ctx id
    match ovEntryOf s x.blk.ctx id, c.find key with
    | some e, some r =>
      if e.pub || key.isPub || r.state == .loading then goOn h s x x.thr
      else if r.refs = 0 then goOn h (setCore s core (c.evict key)) x x.thr
      else goOn h (setCore s core (c.modResid key (fun r => { r with state := .draining }))) x x.thr
    | _, _ => goOn h s x x.thr

/-- STATE of Table 4.11. -/
def RState.code : RState → Nat
  | .loading => 1 | .resident => 2 | .draining => 3

/-- The pair OVQ writes (Table 4.11). -/
def ovqWords (e : Option OvEntry) (r : Option Resid) : Word × Word :=
  match e with
  | none => (0, 0)
  | some e =>
    match r with
    | none => (if e.pub then 4 else 0, 0)
    | some r =>
      let p : Nat := if r.key.isPub then 4 else 0
      (BitVec.ofNat 16 (min r.refs 0xFFFF) ++ BitVec.ofNat 16 (p + RState.code r.state),
       0#4 ++ BitVec.ofNat 12 r.len ++ 0#4 ++ (if r.state = .loading then 0#12 else BitVec.ofNat 12 r.base))

/-- OVQ (R120). -/
def execOvq (h : Hdr) (d : VReg) (o : OvSel) (s : State) : Out :=
  guarded h s fun x =>
    let id := ovidOf s x.thr o
    let w := ovqWords (ovEntryOf s x.blk.ctx id) ((coreOf s x.coreId).find (ovKey s x.coreId x.blk.ctx id))
    goOnPend h s x x.thr (pendVals [(d, w.1, false), (d + 1, w.2, false)])

end Sys2Proof.Machine
end

