-- ==== Sys2Proof/Machine/Flags.lean ====
section
/-! DEFINITION. FPX updates (R19 to R21, R127) and the results of floating-point operations written to registers. -/

namespace Sys2Proof.Machine

open Sys2Proof

/-- ORs flags into FPX unless NF is set; the update takes effect with the result (R20, R21). -/
def addFlags (now : Nat) (h : Hdr) (t : Thread) (f : Flags) (lat : Nat) : Thread :=
  if h.nf then t else { t with fpx := t.fpx ||| f, fpxAt := max t.fpxAt (now + lat) }

/-- Writes FPX: bits [5:0] (R20); a write of the whole register clears its poison (R421). -/
def writeFpx (now : Nat) (t : Thread) (x : Word) : Thread :=
  { t with fpx := 0#2 ++ x.extractLsb' 0 6, fpxAt := max t.fpxAt now, poisonF := false }

/-- An FPX update of an earlier instruction is still to come (R21). -/
def fpxBusy (now : Nat) (t : Thread) : Bool := decide (now < t.fpxAt) || t.pend.any Pend.setsFpx

/-- IV where an operand read is a signalling NaN (R125). -/
def ivIf (c : Bool) : Flags := flagIf c flagIV

/-- NFR where a value written is a NaN or an infinity (R19, R43). -/
def nfrIf (x : Num) : Flags := flagIf (x.isNaN || x.isInf) flagNFR

/-- One floating-point value as bits of its format, with its flags. -/
def outBits (f : FF) (r : Num × Flags) : Nat × Flags := (f.encode r.1, r.2)

/-- Writes a 32-bit floating-point result and its flags, `lat` cycles from now. -/
def fResult (now : Nat) (h : Hdr) (t : Thread) (d : VReg) (x : Nat × Flags) (lat : Nat) : Thread :=
  addFlags now h (wrV now t d (BitVec.ofNat 32 x.1) lat) x.2 lat

/-- Writes a 64-bit floating-point result and its flags. -/
def dResult (now : Nat) (h : Hdr) (t : Thread) (d : VReg) (x : Nat × Flags) (lat : Nat) : Thread :=
  addFlags now h (wrV64 now t d (BitVec.ofNat 64 x.1) lat) x.2 lat

end Sys2Proof.Machine
end

