-- ==== Sys2Proof/Machine/Local.lean ====
section
/-! DEFINITION. Scratchpad windows, typed granules, barrier and ring objects (R254 to R261), and accumulator tiles
(R262, R263): addresses, checks, bytes and poison. -/

namespace Sys2Proof.Machine

open Sys2Proof

/-! ### Checks (R148) -/

/-- A scratchpad range lies in the slice that its address names. -/
def inWindow (b : Block) (off : Int) (n : Nat) : Bool :=
  decide (0 ≤ off ∧ off < 2 ^ 22) && b.cores.contains (off.toNat / 2 ^ 20) && decide (off.toNat % 2 ^ 20 + n ≤ b.slice)

def spadBound (b : Block) (off : Int) (n : Nat) : Option Why :=
  if inWindow b off n then none else some ⟨causeCapbnd, 0x01, offLo off, 0⟩

/-- An accumulator range lies in the block's tiles. -/
def accBound (b : Block) (off : Int) (n : Nat) : Option Why :=
  if 0 ≤ off ∧ off < 2 ^ 18 ∧ off.toNat + n ≤ 2048 * b.tilesN then none else some ⟨causeCapbnd, 0x02, offLo off, 0⟩

/-- Alignment in the two local spaces: ARG1 is 0 (Table 6.10). -/
def localAlign (off : Int) (n : Nat) (sub : BitVec 8) : Option Why :=
  if off % n = 0 then none else some ⟨causeAlign, sub, offLo off, 0⟩

/-- The checks of an access to the scratchpad: bounds before alignment, of which R148 gives no order (log 113). -/
def checkSpad (b : Block) (off : Int) (w : Wid) : Option Why :=
  Why.first (spadBound b off w.bytes) (localAlign off w.bytes (w.code.setWidth 8))

/-- The same of the accumulator store (R148, log 113). -/
def checkAcc (b : Block) (off : Int) (w : Wid) : Option Why :=
  Why.first (accBound b off w.bytes) (localAlign off w.bytes (w.code.setWidth 8))

/-! ### Offsets (R145) -/

def localOff (s : State) (t : Thread) (x : LocAddr) : Int := (rc32 s t x.idx).toNat + x.disp.toInt

def capOff (s : State) (t : Thread) (x : CapAddr) : Int :=
  (rdA s t x.a).cursor + (rc32 s t x.idx).toNat + x.disp.toInt

/-! ### Typed granules (R157, R257) -/

def GType.sub : GType → BitVec 8
  | .barrier => 0
  | .ring => 1

/-- The address of the object a typed granule belongs to: rings are 32-byte aligned. -/
def GType.object (g : GType) (a : Nat) : Nat :=
  match g with
  | .barrier => a
  | .ring => a / 32 * 32

/-- A write range that meets a typed object traps BARWR (R157, Table 6.10). Of several it names the lowest, which R199 leaves
open (log 113). -/
def typedWhy (b : Block) (a n : Nat) : Option Why :=
  match b.types.find? (fun p => decide (p.1 < a + n ∧ a < p.1 + 16)) with
  | some p => some ⟨causeBarwr, p.2.sub, BitVec.ofNat 32 (p.2.object p.1), 0⟩
  | none => none

def granType (b : Block) (a : Nat) : Option GType := Assoc.get b.types a

/-! ### Bytes -/

def spadPoisoned (b : Block) (a : Nat) : Bool := b.spadPoison.has (a / 8)

def writeSpad (b : Block) (a : Nat) (bs : List Byte) : Block :=
  { b with spad := b.spad.writeBytes a bs, spadPoison := clearPoison b.spadPoison 8 a bs.length }

def writeSpadNat (b : Block) (a n x : Nat) : Block := writeSpad b a (leBytes n x)

/-- Where an accumulator byte of a core is in `Block.tiles`. -/
def accKey (core off : Nat) : Nat := core * 2 ^ 18 + off

def tilePoisoned (b : Block) (k : Nat) : Bool := b.tilePoison.has (k / 8)

def writeTile (b : Block) (k : Nat) (bs : List Byte) : Block :=
  { b with tiles := b.tiles.writeBytes k bs, tilePoison := clearPoison b.tilePoison 8 k bs.length }

/-- Marks the 8-byte granules of a range. -/
def poisonSpad (b : Block) (a n : Nat) : Block :=
  { b with spadPoison := b.spadPoison.addRange (a / 8) ((a + n - 1) / 8 - a / 8 + 1) }

def poisonTile (b : Block) (k n : Nat) : Block :=
  { b with tilePoison := b.tilePoison.addRange (k / 8) ((k + n - 1) / 8 - k / 8 + 1) }

/-! ### Stores performed late (R308, R315, log 5) -/

/-- The late store of a thread is performed. No event has come since it issued, so its page is as it was. -/
def storeNow (s : State) (tid : ThreadId) : State :=
  match blockOf s tid.slot, (threadOf s tid).bind (fun t => t.late.store) with
  | some b, some w =>
    let s := modThread s tid (fun t => { t with late := { t.late with store := none } })
    match w.obj with
    | none => modBlock s tid.slot (fun b => writeSpad b w.off w.bytes)
    | some o =>
      match translate s b.ctx (some b.launch) ⟨o, w.off, .write, false, false⟩ with
      | (s, .ok m _) => writeObj s (some (coreIdOf b tid)) b.ctx o w.off m w.bytes w.ch
      | _ => s
  | _, _ => s

/-- The late stores that satisfy a predicate are performed. -/
def storesNow (p : ThreadId → LateStore → Bool) (s : State) : State :=
  s.blocks.foldl (fun s x =>
    if x.2.threads.any (fun t => t.late.store.isSome) then
      (rangeFrom 0 x.2.threads.length).foldl (fun s i =>
        if ((x.2.threads[i]?).bind (fun t => t.late.store)).any (p ⟨x.1, i⟩) then storeNow s ⟨x.1, i⟩ else s) s
    else s) s

/-- Before an event of another unit every late store is performed, which is always allowed; not before a landing or a regroup. -/
def beforeEvent (s : State) : Instr → State
  | .loadResultLand _ _ | .xpipeComplete _ _ | .regroup _ => s
  | _ => storesNow (fun _ _ => true) s

/-! ### Barrier objects (Table 9.2) -/

structure Barrier where
  phase : BitVec 16
  expected : BitVec 16
  arrived : BitVec 16
  pendeng : BitVec 16
  wt : Bool
  deriving DecidableEq, Repr

def readBarrier (b : Block) (a : Nat) : Barrier :=
  let x : BitVec 128 := BitVec.ofNat 128 (b.spad.readNat a 16)
  ⟨x.extractLsb' 0 16, x.extractLsb' 16 16, x.extractLsb' 32 16, x.extractLsb' 48 16, x.getLsbD 66⟩

def Barrier.bits (r : Barrier) : BitVec 128 :=
  0#61 ++ BitVec.ofBool r.wt ++ 0b01#2 ++ r.pendeng ++ r.arrived ++ r.expected ++ r.phase

def writeBarrier (b : Block) (a : Nat) (r : Barrier) : Block := writeSpadNat b a 16 r.bits.toNat

/-- One arrival (R195). -/
def Barrier.arrive (r : Barrier) : Barrier :=
  if r.arrived + 1 = r.expected then { r with arrived := 0, phase := r.phase + 1 } else { r with arrived := r.arrived + 1 }

/-- A target phase is reached (R195). -/
def Barrier.reached (r : Barrier) (target : BitVec 16) : Bool := !(r.phase - target).msb

/-- A thread or an engine operation waits on a barrier. -/
def waitsOn (b : Block) (a : Nat) : Bool :=
  b.threads.any (fun t => match t.status with
    | .waiting (.bar x _) => x == a
    | .waiting (.barw x _) => x == a
    | _ => false)
  || b.waves.any (fun w => w.q.toList.any (fun q => q.ops.any (fun o => !o.started && (match o.bwt with
    | some (x, _) => x == a
    | none => false))))

/-- WT follows the waiters (Table 9.2). -/
def noteWaiters (b : Block) (a : Nat) : Block :=
  if granType b a = some .barrier then writeBarrier b a { readBarrier b a with wt := waitsOn b a } else b

/-! ### Ring objects (Table 9.3) -/

structure Ring where
  res : BitVec 16
  pub : BitVec 16
  con : BitVec 16
  rel : BitVec 16
  sz : BitVec 16
  logn : BitVec 4
  base : BitVec 24
  outc : BitVec 16
  deriving DecidableEq, Repr

def readRing (b : Block) (a : Nat) : Ring :=
  let x : BitVec 256 := BitVec.ofNat 256 (b.spad.readNat a 32)
  ⟨x.extractLsb' 0 16, x.extractLsb' 16 16, x.extractLsb' 32 16, x.extractLsb' 48 16, x.extractLsb' 64 16,
   x.extractLsb' 80 4, x.extractLsb' 96 24, x.extractLsb' 128 16⟩

def Ring.bits (r : Ring) : BitVec 256 :=
  0#112 ++ r.outc ++ 0#8 ++ r.base ++ 0#6 ++ 0b10#2 ++ 0#4 ++ r.logn ++ r.sz ++ r.rel ++ r.con ++ r.pub ++ r.res

def writeRing (b : Block) (a : Nat) (r : Ring) : Block := writeSpadNat b a 32 r.bits.toNat

/-- N, the slot count. -/
def Ring.n (r : Ring) : Nat := 2 ^ r.logn.toNat

/-- Slot index of a ticket. -/
def Ring.slot (r : Ring) (t : BitVec 16) : Nat := t.toNat % r.n

/-- Address of the slot of a ticket (R261). -/
def Ring.slotAddr (r : Ring) (t : BitVec 16) : Nat := r.base.toNat + r.slot t * r.sz.toNat

/-- A slot is free for RRES (R192). -/
def Ring.hasRoom (r : Ring) : Bool := decide ((r.res - r.rel).toNat < r.n)

/-- The word RRES and RWAIT write (R192). -/
def Ring.ticketWord (r : Ring) (t : BitVec 16) : Word := BitVec.ofNat 16 (r.slot t) ++ t

/-! ### Words of a result (R151, R153) -/

/-- A number of a width as it is loaded: 8 and 16 bits extended by SX. -/
def extended (w : Wid) (sx : Bool) (x : Nat) : Nat :=
  if sx && (w == .w8 || w == .w16) && x.testBit (8 * w.bytes - 1) then x + (2 ^ 32 - 2 ^ (8 * w.bytes)) else x

/-- Any byte of register k's part of an access satisfies a predicate. -/
def wordAny (n k : Nat) (p : Nat → Bool) : Bool := (rangeFrom (4 * k) 4).any (fun i => decide (i < n) && p i)

/-- The registers a load writes, from its bytes and the poison of each. -/
def loadVals (d : VReg) (w : Wid) (sx : Bool) (bs : List Byte) (poison : Nat → Bool) : List (VReg × Word × Bool) :=
  landRegs d (natWords (extended w sx (leNat bs)) w.regs) ((rangeFrom 0 w.regs).map (fun k => wordAny w.bytes k poison))

end Sys2Proof.Machine
end

