-- ==== Sys2Proof/Machine/Records.lean ====
section
/-! DEFINITION. Atomic operators (R173), records and their formation (R277 to R285, R299), and the folds of a lehr
(R296 to R298). -/

namespace Sys2Proof

/-! ### Entry codes (Table 10.5) -/

/-- OPC of an atomic operator; EXCH forms a STORE record (R277). -/
def AOp.opc : AOp → BitVec 4
  | .exch => 0 | .add => 1 | .min => 2 | .max => 3 | .and => 4 | .or => 5 | .xor => 6

end Sys2Proof

namespace Sys2Proof.Machine

open Sys2Proof

/-! ### AtomicOp (R173) -/

/-- A floating-point atomic on one element: RN, never flushing, canonical NaN; a signalling NaN sets IV (R43). -/
def atomElem (f : FF) (op : AOp) (old v : Nat) : Nat × Flags :=
  let iv := ivIf (f.signalling old || f.signalling v)
  let out (r : Num × Flags) : Nat × Flags := outBits f (finish f false r.1 (r.2 ||| iv))
  match op with
  | .exch => (v, 0)
  | .add => out (arith .add f .rn false (f.decode old) (f.decode v) .nan)
  | .min => out (minMax true (f.decode old) (f.decode v), 0)
  | .max => out (minMax false (f.decode old) (f.decode v), 0)
  | .and | .or | .xor => (old, 0)

/-- An element operation on both halves of a packed word. -/
def packed (g : Nat → Nat → Nat × Flags) (old v : Nat) : Nat × Flags :=
  let lo := g (old % 2 ^ 16) (v % 2 ^ 16)
  let hi := g (old / 2 ^ 16 % 2 ^ 16) (v / 2 ^ 16 % 2 ^ 16)
  (lo.1 + 2 ^ 16 * hi.1, lo.2 ||| hi.2)

/-- Integer atomics on w bits. -/
def atomInt (op : AOp) (sgn : Bool) (w old v : Nat) : Nat :=
  let le := if sgn then decide ((BitVec.ofNat w old).toInt ≤ (BitVec.ofNat w v).toInt) else decide (old ≤ v)
  match op with
  | .add => (old + v) % 2 ^ w
  | .and => old &&& v
  | .or => old ||| v
  | .xor => old ^^^ v
  | .exch => v
  | .min => if le then old else v
  | .max => if le then v else old

/-- AtomicOp (R173) on w = 32 or 64 bits: the new value and the operation's own flags. -/
def atomicOp (op : AOp) (ty : ATy) (w old v : Nat) : Nat × Flags :=
  match ty with
  | .si => (atomInt op true w old v, 0)
  | .ns => (atomInt op false w old v, 0)
  | .f => atomElem (if w = 64 then fp64 else fp32) op old v
  | .h2 => packed (atomElem fp16 op) old v
  | .b2 => packed (atomElem bf16 op) old v

/-! ### Entry codes (Table 10.5) -/

def opcStore : BitVec 4 := 0
def opcAgeAdd : BitVec 4 := 7

/-- The operator of an OPC from 1 to 6. -/
def opOfOpc (o : BitVec 4) : AOp :=
  if o = 1 then .add else if o = 2 then .min else if o = 3 then .max else if o = 4 then .and
  else if o = 5 then .or else if o = 6 then .xor else .exch

def tyOfCode (t : BitVec 3) : ATy :=
  if t = 0 then .si else if t = 1 then .ns else if t = 2 then .f else if t = 3 then .h2 else .b2

/-- A record a lehr applies: its TY and WID are ones its OPC allows (R281). -/
def Rec.legal (r : Rec) : Bool :=
  if r.opc = 0 then r.ty == 0
  else if r.opc.toNat ≤ 3 then (r.wid == 2 && decide (r.ty.toNat ≤ 4)) || (r.wid == 3 && decide (r.ty.toNat ≤ 2))
  else if r.opc.toNat ≤ 6 then decide (r.ty.toNat ≤ 1) && decide (2 ≤ r.wid.toNat)
  else r.opc == 7 && r.ty == 0 && r.wid == 3

/-- The 64-bit or narrower value of a record. -/
def Rec.val (r : Rec) : Nat := r.value.toNat + 2 ^ 32 * r.valhi.toNat
/-- The sort key (Table 10.4). -/
def Rec.key (r : Rec) : Nat :=
  (r.block ++ r.wave ++ r.lane ++ r.seq : BitVec 64).toNat
/-- A record with another value. -/
def Rec.withVal (r : Rec) (x : Nat) : Rec := { r with value := BitVec.ofNat 32 x, valhi := BitVec.ofNat 32 (x / 2 ^ 32) }
/-- Two records of one thread. -/
def Rec.sameThread (a b : Rec) : Bool := a.srcDev == b.srcDev && a.bslot == b.bslot && a.wave == b.wave && a.lane == b.lane
/-- The deferred word a record acts on (R277), in `State.dram`. -/
def Rec.word8 (r : Rec) : Nat := dramAt r.home.toNat (r.paddr.toNat / 8 * 8)
/-- The first of a record's bytes in `State.dram`. -/
def Rec.addr (r : Rec) : Nat := dramAt r.home.toNat r.paddr.toNat
/-- Bytes a record acts on. -/
def Rec.size (r : Rec) : Nat := 2 ^ r.wid.toNat
/-- The channel of an address (R362). -/
def chanOf (paddr : Nat) : Nat := 32 * (paddr / Config.stackBytes) + paddr % Config.stackBytes / 64 % 32
/-- The DRAM row of an address within its channel (R362). -/
def rowOf (paddr : Nat) : Nat := paddr % Config.stackBytes / 2 ^ 15
/-- The path of a record: its channel, or 384 + its home device (R286). -/
def Rec.path (r : Rec) (dev : BitVec 10) : Nat :=
  if r.home = dev then chanOf r.paddr.toNat else 384 + r.home.toNat

/-- The 16 or 32 bytes of a record as 128-bit entries (Tables 10.2, 10.3). -/
def Rec.bits (r : Rec) : List (BitVec 128) :=
  let lo : BitVec 128 := r.value ++ r.wave ++ r.lane ++ r.bslot ++ r.tep ++ r.bep ++ r.gep ++ r.pep ++ r.opc ++ r.ty
    ++ r.wid ++ BitVec.ofBool r.ext ++ 0#3 ++ r.paddr
  let hi : BitVec 128 := r.block ++ r.wave ++ r.lane ++ r.seq ++ r.valhi ++ r.decay ++ 0#8
  if r.ext then [lo, hi] else [lo]

/-- The valid objects of a context. -/
def objectsOf (s : State) (ctx : Nat) : List (Nat × BitVec 512) :=
  match ctxOf s ctx with
  | none => []
  | some c => (rangeFrom 0 c.otLen).filterMap (fun o => (objEntry s ctx o).map (fun e => (o, e)))

/-! ### Records outstanding -/

def recOfEntry : Entry → List Rec
  | .record r => [r]
  | _ => []

def recOfLog : LogEntry → List Rec
  | .record r _ => [r]
  | .marker _ => []

/-- Records in the cullet logs. -/
def logRecs (s : State) : List Rec := s.cores.flatMap (fun c => c.2.log.flatMap recOfLog)
/-- Records in drover bins and on their way. -/
def droverRecs (s : State) : List Rec :=
  s.drovers.flatMap (fun d => d.2.paths.flatMap (fun p => p.2.entries.flatMap recOfEntry)
    ++ d.2.inFlight.flatMap (fun b => b.entries.flatMap recOfEntry))
/-- Records staged. -/
def stagedRecs (s : State) : List Rec := s.staging.flatMap (fun c => c.2.flatMap (fun e => recOfEntry e.entry))
/-- Records at their home devices. -/
def abroadRecs (s : State) : List Rec := s.abroad.flatMap (fun e => recOfEntry e.entry)
/-- Every record formed and not yet applied or discarded. -/
def allRecs (s : State) : List Rec := logRecs s ++ droverRecs s ++ stagedRecs s ++ abroadRecs s

/-- A thread's outstanding records. -/
def threadRecs (s : State) (tid : ThreadId) : Nat :=
  ((allRecs s).filter (fun r => r.srcDev == s.device && r.ofThread tid)).length

/-- Bytes of the staging pool: twelve regions (R290). -/
def poolBytes (s : State) : Nat := 12 * s.service.settings.stagingHalfGiB * 2 ^ 29

/-! ### Forming a record (R277 to R285, R299) -/

/-- What an instruction records: operator, type, width, value, stamp and decay field of AGEADD. -/
structure RecReq where
  opc : BitVec 4
  ty : BitVec 3
  wid : Nat
  val : Nat
  off : Nat
  decay : BitVec 24
  deriving DecidableEq, Repr

/-- DETM bit [0] and SBCHKM bit [0] of a block's launch. -/
def detOf (s : State) (b : Block) : Bool := launchFlag s b Launch.det
def chkOf (s : State) (b : Block) : Bool := launchFlag s b Launch.chk

/-- The record a thread forms for a request, on a mapped page (Tables 10.2 to 10.4). -/
def mkRec (s : State) (tid : ThreadId) (b : Block) (t : Thread) (m : Mapped) (q : RecReq) : Rec where
  value := BitVec.ofNat 32 q.val
  valhi := BitVec.ofNat 32 (q.val / 2 ^ 32)
  wave := BitVec.ofNat 8 (waveIx tid)
  lane := BitVec.ofNat 5 (laneOf tid)
  bslot := BitVec.ofNat 15 tid.slot
  tep := epochOf t.counts.kt
  bep := epochOf t.counts.kb
  gep := epochOf t.counts.kg
  pep := epochOf t.counts.kp
  opc := q.opc
  ty := q.ty
  wid := BitVec.ofNat 2 q.wid
  ext := detOf s b || decide (q.wid = 3) || q.opc == opcAgeAdd
  paddr := BitVec.ofNat 39 (m.paddr + q.off)
  block := BitVec.ofNat 32 b.lin
  seq := t.counts.seq
  decay := q.decay
  home := BitVec.ofNat 10 m.home
  launch := b.launch
  srcDev := s.device
  det := detOf s b

/-- Operators that coalesce in a log: STORE, ADD of integers, and of floats in a launch that is not deterministic, AND, OR, XOR,
MIN and MAX but of the packed types (R285). -/
def coalesces (det : Bool) (r : Rec) : Bool :=
  if r.opc = opcAgeAdd then false
  else if r.opc = 1 then decide (r.ty.toNat ≤ 1) || !det
  else if r.opc = 2 ∨ r.opc = 3 then decide (r.ty.toNat ≤ 2)
  else true

/-- The value of two records combined (R285): STORE keeps the later, the others apply AtomicOp. -/
def combineVal (a b : Rec) : Nat :=
  if a.opc = opcStore then b.val else (atomicOp (opOfOpc a.opc) (tyOfCode a.ty) (8 * a.size) a.val b.val).1

/-- Same address, width, operator and type. -/
def Rec.alike (a b : Rec) : Bool :=
  a.home == b.home && a.paddr == b.paddr && a.wid == b.wid && a.opc == b.opc && a.ty == b.ty

/-- Bytes of a log entry. -/
def LogEntry.bytes : LogEntry → Nat
  | .record r _ => r.charge
  | .marker _ => 16

/-- Coalesces into the latest record of the thread to the same deferred word, looking from the newest entry; none
where that record may not absorb it (R285). Of the log, the newest entries that fit in `left` bytes are in it, and the older ones in
its spill area (R284). -/
def coalesce (r : Rec) : Nat → List LogEntry → Option (List LogEntry)
  | _, [] => none
  | left, e :: es =>
    if left < e.bytes then none
    else
      match e with
      | .record p o =>
        if p.sameThread r && p.word8 == r.word8 then
          if o && p.alike r then some (.record (p.withVal (combineVal p r)) o :: es) else none
        else (coalesce r (left - e.bytes) es).map (fun es => .record p o :: es)
      | .marker m => (coalesce r (left - e.bytes) es).map (fun es => .marker m :: es)

/-- Appends a record to a core's log, coalescing it where R285 allows. Answers the bytes it adds. -/
def appendRec (c : Core) (r : Rec) : Core × Nat :=
  let merged := if coalesces r.det r then coalesce r Config.logBytes c.log.reverse else none
  match merged with
  | some l => ({ c with log := l.reverse }, 0)
  | none => ({ c with log := c.log ++ [.record r true] }, r.charge)

/-- Quota of a block's context in bytes, and USED in 4 KiB units (R299). -/
def quotaBytes (s : State) (b : Block) : Nat :=
  match ctxOf s b.ctx with
  | some c => 4096 * c.params.quota
  | none => 0
def usedUnits (b : Block) : Nat := ceilDiv b.charge 4096

/-- Room for a number of bytes more in a block's quota and in the staging pool (R299). -/
def stagingRoom (s : State) (b : Block) (n : Nat) : Bool :=
  decide (b.charge + n ≤ quotaBytes s b ∧ ((allRecs s).map Rec.charge).foldl (· + ·) 0 + n ≤ poolBytes s)

/-- Forms the records of an instruction for one thread, in order, or says why it stalls (R282, R299). -/
def formRecs (s : State) (tid : ThreadId) (m : Mapped) (qs : List RecReq) : Except StallOn State :=
  match blockOf s tid.slot with
  | none => .ok s
  | some b =>
    match b.threads[tid.tidx]? with
    | none => .ok s
    | some t =>
      let need := ((qs.map (fun q => (mkRec s tid b t m q).charge))).foldl (· + ·) 0
      if threadRecs s tid + qs.length > Config.maxThreadRecords then .error .records
      else if !stagingRoom s b need then .error (.staging s.cycle need)
      else
        let core := coreIdOf b tid
        let step (a : Core × Nat × Thread) (q : RecReq) : Core × Nat × Thread :=
          let (c, n) := appendRec a.1 (mkRec s tid b a.2.2 m q)
          (c, a.2.1 + n, { a.2.2 with counts := { a.2.2.counts with seq := a.2.2.counts.seq + 1 } })
        let (c, n, t') := qs.foldl step (coreOf s core, 0, t)
        .ok (setBlock (setCore s core c) tid.slot { b.setThread tid.tidx t' with charge := b.charge + n })

/-- STGFULL (Table 6.10): USED and QUOTA. -/
def stgfullWhy (s : State) (b : Block) : Why :=
  ⟨causeStgfull, 0, BitVec.ofNat 32 (usedUnits b), BitVec.ofNat 32 (quotaBytes s b / 4096)⟩

/-- A staging stall (R299). -/
def StallOn.isStaging : StallOn → Bool
  | .staging .. => true
  | _ => false

/-- A recording instruction of the executing thread: with no room, it stalls, or traps after a stall of STGLIM (R299). -/
def recording (s : State) (x : Cx) (m : Mapped) (qs : List RecReq) (k : State → Thread → Out) : Out :=
  match formRecs s x.tid m qs with
  | .error w => if w.isStaging && x.thr.stgOut then trapWhy s x (stgfullWhy s x.blk) else waitAt s x (.stalled w)
  | .ok s => k s ((threadOf s x.tid).getD x.thr)

/-- Requests of a store of n bytes: one record, or two of 64 bits for 128 (R277). -/
def storeReqs (wid : Wid) (val : Nat) : List RecReq :=
  if wid = .w128 then [⟨opcStore, 0, 3, val % 2 ^ 64, 0, 0⟩, ⟨opcStore, 0, 3, val / 2 ^ 64, 8, 0⟩]
  else [⟨opcStore, 0, wid.code.toNat, val, 0, 0⟩]

/-- Request of a reduction (R277): EXCH forms a STORE record. -/
def redReq (op : AOp) (ty : ATy) (wid : Wid) (val : Nat) : RecReq :=
  if op = .exch then ⟨opcStore, 0, wid.code.toNat, val, 0, 0⟩ else ⟨op.opc, ty.code, wid.code.toNat, val, 0, 0⟩

/-! ### Folds (R296 to R298) -/

/-- The bytes a record leaves in memory (R296). -/
def foldRec (s : State) (r : Rec) : State :=
  let n := r.size
  let old := s.dram.readNat r.addr n
  let new :=
    if r.opc = opcStore then r.val
    else if r.opc = opcAgeAdd then
      (agedAdd (BitVec.ofNat 64 old) r.value (r.valhi.extractLsb' 0 16) r.decay.toNat).toNat
    else (atomicOp (opOfOpc r.opc) (tyOfCode r.ty) (8 * n) old r.val).1
  { s with dram := s.dram.writeNat r.addr n new, tags := clearTags s.tags r.addr n }

/-- Bytes of a bucket's range among n bytes at an address of a device's stacked DRAM. -/
def Bucket.bytesAt (s : State) (b : Bucket) (home a n : Nat) : Nat :=
  match objEntry s b.ctx b.obj with
  | none => 0
  | some oe =>
    if objWsf oe ∨ objHome oe ≠ home then 0
    else
      let page := objPage oe
      ((rangeFrom (b.off / page) (ceilDiv (b.off + b.len) page - b.off / page)).map (fun p =>
        match pageEntryAddr s home (objRoot oe) p with
        | none => 0
        | some pa =>
          let pe : BitVec 64 := s.dram.read64 pa
          if pagePresent pe && !pageConst pe && decide (pagePfn pe ≤ a ∧ a < pagePfn pe + page) then
            b.covered b.ctx b.obj (p * page + (a - pagePfn pe)) n
          else 0)).foldl (· + ·) 0

/-- An applied record counts as a write into the buckets that its bytes lie in (R321, R410). -/
def countRec (s : State) (r : Rec) : State :=
  { s with fabric := { s.fabric with
      buckets := Assoc.mapVals s.fabric.buckets (fun _ b => { b with count := b.count + b.bytesAt s r.home.toNat r.paddr.toNat r.size }) } }

/-- A lehr applies a record; one that is lawless is never applied (R281). -/
def applyRec (s : State) (r : Rec) : State := if r.legal then countRec (foldRec s r) r else s

/-- Reports a lawless record, a device fault. Its code is 0, and it names no context (R281, log 105). -/
def reportRec (s : State) (r : Rec) : State :=
  if r.legal then s
  else logEvent s 0x09 0 none (srcNo 3 (chanOf r.paddr.toNat)) (BitVec.ofNat 32 r.paddr.toNat)
    (BitVec.ofNat 32 (r.paddr.toNat / 2 ^ 32))

/-- Inserts by key, equal keys by source device (R297). -/
def insertRec (r : Rec) : List Rec → List Rec
  | [] => [r]
  | x :: xs =>
    if r.key < x.key ∨ (r.key = x.key ∧ r.srcDev.toNat < x.srcDev.toNat) then r :: x :: xs else x :: insertRec r xs

def sortRecs (rs : List Rec) : List Rec := rs.foldr insertRec []

/-- A record of the same thread and deferred word that was formed earlier, as far as the sequence numbers of the two tell (R282). -/
def Rec.formedBefore (p r : Rec) : Bool :=
  p.sameThread r && p.word8 == r.word8 && decide (0 < (r.seq - p.seq).toNat ∧ (r.seq - p.seq).toNat < 2 ^ 18)

/-- Inserts a record before a list, but behind those of its thread and word that were formed earlier. -/
def insertIssued (r : Rec) : List Rec → List Rec
  | [] => [r]
  | x :: xs => if (x :: xs).any (fun p => p.formedBefore r) then x :: insertIssued r xs else r :: x :: xs

/-- The order of arrival, each thread's records in the order in which it formed them (R298). -/
def issueOrder (rs : List Rec) : List Rec := rs.foldr insertIssued []

/-- A record that folds in key order: of a deterministic launch (R297). Whether a launch of another device is deterministic its
records do not say: they are taken so where each of them carries a key (log 106). -/
def Rec.sorts (s : State) (rs : List Rec) (r : Rec) : Bool :=
  if r.srcDev = s.device then r.det else rs.all (fun x => x.srcDev != r.srcDev || x.launch != r.launch || x.ext)

/-- The order of a fold: the records of deterministic launches in key order (R297), and the others in an order of R298. -/
def foldOrder (s : State) (rs : List Rec) : List Rec :=
  sortRecs (rs.filter (Rec.sorts s rs)) ++ issueOrder (rs.filter (fun r => !r.sorts s rs))

/-- Applies covered records row by row, rows ascending (R291), each row's in the order of its fold (R297, R298). -/
def applyRecs (s : State) (rs : List Rec) : State :=
  let rs := foldOrder s rs
  let rows := (rs.map (fun r => rowOf r.paddr.toNat)).foldl NatSet.add []
  rows.foldl (fun s row => (rs.filter (fun r => rowOf r.paddr.toNat == row)).foldl applyRec s) s

/-- Takes the charge of applied or discarded records from their blocks, saved ones too (R299). -/
def uncharge (s : State) (rs : List Rec) : State :=
  let freed (slot : Nat) : Nat :=
    ((rs.filter (fun r => r.srcDev == s.device && r.bslot.toNat == slot)).map Rec.charge).foldl (· + ·) 0
  { s with
    blocks := Assoc.mapVals s.blocks (fun slot b => { b with charge := b.charge - freed slot })
    contexts := Assoc.mapVals s.contexts (fun _ c => { c with
      saved := c.saved.map (fun b => { b with charge := b.charge - freed b.slot }) }) }

end Sys2Proof.Machine
end

