-- ==== Sys2Proof/Machine/Checks.lean ====
section
/-! DEFINITION. The register conditions of an instruction (rows 7 to 9 of Table 3.13), and instances of wave
collectives, signing instructions, CST and XLD (R101, R238). -/

namespace Sys2Proof.Machine

open Sys2Proof

/-! ### Conditions of one slot (Table 3.13) -/

/-- The register of a specifier is poisoned (R422). -/
def Snap.poisoned (g : Snap) (spec : BitVec 8) : Bool :=
  if spec.extractLsb' 6 2 = 0#2 then g.poisonV.getLsbD (spec.extractLsb' 0 6).toNat
  else if spec.extractLsb' 3 5 = 0b01000#5 then g.poisonA.getLsbD (spec.extractLsb' 0 3).toNat
  else if spec.extractLsb' 3 5 = 0b01001#5 then g.poisonP.getLsbD (spec.extractLsb' 0 3).toNat
  else false

/-- A v register of this specifier is lent to the matrix engine (R214). -/
def Snap.lentSpec (g : Snap) (spec : BitVec 8) : Bool :=
  decide (spec.extractLsb' 6 2 = 0#2) && g.isLent (spec.extractLsb' 0 6)

/-- Row 9 of Table 3.13 for one operand read. -/
def operandTrap (s : State) (g : Snap) (chk : Bool) (pc : Word) (spec : BitVec 8) : Option Trap :=
  if g.poisoned spec then some ⟨causePoison, 0, pc, spec.setWidth 32, 0⟩
  else if chk && g.early s.cycle spec then some ⟨causeSbchk, 0, pc, spec.setWidth 32, 0⟩
  else if chk && g.lentSpec spec then some ⟨causeSbchk, 1, pc, spec.setWidth 32, 0⟩
  else none

/-- The first trap of a list of operands. -/
def operandsTrap (s : State) (g : Snap) (chk : Bool) (pc : Word) : List (BitVec 8) → Option Trap
  | [] => none
  | x :: xs =>
    match operandTrap s g chk pc x with
    | some t => some t
    | none => operandsTrap s g chk pc xs

/-- In a checked launch, a scale-generator word read too early; its index as a special register names it (log 94). -/
def sgenTrap (s : State) (g : Snap) (chk : Bool) (pc : Word) (ns : List Nat) : Option Trap :=
  match (if chk then ns.find? (fun n => g.early s.cycle (sgenByte n)) else none) with
  | some n => some ⟨causeSbchk, 0, pc, BitVec.ofNat 32 (0x20 + n), 0⟩
  | none => none

/-- A tile lent to the matrix engine (R214). -/
def Snap.tileLent (g : Snap) (tile : Nat) : Bool := g.lent.any (fun l => l.tiles.contains tile)

/-- In a checked launch, a lent tile that LDA reads: it is named by the specifier of the index (Table 7.8). -/
def tileTrap (s : State) (t : Thread) (chk : Bool) : Instr → Option Trap
  | .lda _ _ _ x =>
    let off := localOff s t x
    if chk && decide (0 ≤ off) && t.view.tileLent (off.toNat / 2048) then some ⟨causeSbchk, 1, t.pcWord, x.idx.byte.setWidth 32, 0⟩
    else none
  | _ => none

/-- In a checked launch, a destination that is lent. -/
def destTrap (g : Snap) (chk : Bool) (pc : Word) (specs : List (BitVec 8)) : Option Trap :=
  match (if chk then specs.find? g.lentSpec else none) with
  | some x => some ⟨causeSbchk, 1, pc, x.setWidth 32, 0⟩
  | none => none

/-- The first of two traps. -/
def firstTrap (a b : Option Trap) : Option Trap := match a with
  | some t => some t
  | none => b

/-- The lane-mask register of a collective, which a member with a false guard reads too (R101, R238). -/
def maskSpecs : Instr → List (BitVec 8)
  | .cst _ _ _ _ k | .xld _ _ _ _ k => [vByte k]
  | .mma _ _ _ o | .mmb _ _ _ o | .mscale _ _ _ _ o => [vByte o.mask]
  | .plane _ _ _ _ _ _ _ k | .acvt _ _ _ _ _ _ k => [vByte k]
  | .azero _ _ _ _ k | .amovOut _ _ _ _ _ k | .amovIn _ _ _ _ _ k => [vByte k]
  | _ => []

/-- Row 9 of Table 3.13: the operands, and then a destination that is lent. -/
def readTrap (s : State) (t : Thread) (chk : Bool) (i : Instr) : Option Trap :=
  let g := t.view
  let pc := t.pcWord
  firstTrap (operandsTrap s g chk pc i.reads)
    (firstTrap (sgenTrap s g chk pc i.sgenReads) (firstTrap (tileTrap s t chk i) (destTrap g chk pc i.writes)))

/-- Rows 7 to 9 of Table 3.13 for an instruction that a prefetch is not: PRF never traps so (R161). -/
def registerTrap (s : State) (t : Thread) (chk : Bool) (h : Hdr) (i : Instr) : Option Trap :=
  match i with
  | .prf .. => none
  | i =>
    firstTrap (operandTrap s t.view chk t.pcWord (pByte h.pred)) (if guardOf s t h then readTrap s t chk i else none)

/-- Row 9 for an instruction whose source is a q register; bit n of `bad` is the poison of register n of its wave (R422). -/
def qTrap (s : State) (t : Thread) (bad : BitVec 16) (h : Hdr) (i : Instr) : Option Trap :=
  match i.qSource with
  | some q =>
    if guardOf s t h && bad.getLsbD q.toNat && !t.view.poisoned (pByte h.pred) then
      some ⟨causePoison, 0, t.pcWord, (qByte q).setWidth 32, 0⟩
    else none
  | none => none

/-- Rows 7 to 9 for a member of an instance that comes to it: its guard, and, when that is true, its lane mask. -/
def arriveTrap (s : State) (t : Thread) (chk : Bool) (h : Hdr) (i : Instr) : Option Trap :=
  firstTrap (operandTrap s t.view chk t.pcWord (pByte h.pred))
    (if guardOf s t h then operandsTrap s t.view chk t.pcWord (maskSpecs i) else none)

end Sys2Proof.Machine

namespace Sys2Proof

/-- Instructions that issue as an instance of their members (R238). -/
def Instr.isCollective : Instr → Bool
  | .ballot .. | .vote .. | .shfl .. | .wred .. | .wscan .. | .matchEq .. | .wsync .. | .cst .. | .xld .. => true
  | .mma .. | .mmb .. | .mscale .. | .plane .. | .azero .. | .acvt .. | .amovOut .. | .amovIn .. => true
  | _ => false

end Sys2Proof

namespace Sys2Proof.Machine

open Sys2Proof

/-! ### Instances (R101, R238) -/

/-- A member of an instance; `on` is its guard. -/
structure Member where
  lane : Nat
  tid : ThreadId
  thr : Thread
  on : Bool

/-- The thread of a lane of the executing thread's wave, if it has arrived with this mask at this code address. -/
def arrived (s : State) (x : Cx) (mask : Word) (h : Hdr) (lane : Nat) : Option Member :=
  let tid : ThreadId := ⟨x.tid.slot, 32 * waveIx x.tid + lane⟩
  if tid = x.tid then some ⟨lane, tid, x.thr, guardOf s x.thr h⟩
  else
    match x.blk.threads[tid.tidx]? with
    | none => none
    | some t =>
      if t.status = .held mask ∧ t.pc = x.thr.pc ∧ t.top = x.thr.top then some ⟨lane, tid, t, guardOf s t h⟩ else none

/-- The members of the lanes of a mask, lanes ascending; none while one has not arrived. -/
def gather (s : State) (x : Cx) (mask : Word) (h : Hdr) : Nat → Option (List Member)
  | 0 => some []
  | n + 1 =>
    match gather s x mask h n with
    | none => none
    | some ms =>
      if mask.getLsbD n then
        match arrived s x mask h n with
        | none => none
        | some m => some (ms ++ [m])
      else some ms

/-- A trap raised in every member (R248). -/
def trapAll (s : State) (ms : List Member) (r : Trap) : State := ms.foldl (fun s m => takeTrap s m.tid r) s

/-- A trap of the instance with its arguments, in every member. -/
def trapMembers (s : State) (x : Cx) (ms : List Member) (w : Why) : Out :=
  .next (trapAll s ms ⟨w.cause, w.sub, x.thr.pcWord, w.arg0, w.arg1⟩)

/-- A member goes on. -/
def memberDone (s : State) (h : Hdr) (m : Member) (t : Thread) : State := setThread s m.tid (t.done s.cycle h)

/-- Every member goes on, as a function of the member leaves its thread. -/
def membersDone (h : Hdr) (s : State) (ms : List Member) (f : Member → Thread) : Out :=
  .next (ms.foldl (fun s m => memberDone s h m (f m)) s)

/-- The present members: those with a true guard. -/
def present (ms : List Member) : List Member := ms.filter Member.on

/-- The lane mask a member presents. -/
def maskOf (s : State) (t : Thread) : Instr → Word
  | .ballot _ m _ _ => m
  | .vote _ m _ _ _ => m
  | .shfl _ m _ _ _ _ => m
  | .wred _ m _ _ _ => m
  | .wscan _ m _ _ _ _ => m
  | .matchEq _ m _ _ => m
  | .wsync _ m => m
  | i => ((maskSpecs i).head?.map (fun x => rdV s t (x.extractLsb' 0 6))).getD 0

/-- The instance of a collective: ILLOP for a mask without the own lane (with a false guard the thread goes on instead,
rows 8 and 11 of Table 3.13, log 91), arrival, and issue of the whole instance when its last member arrives. `ms` is given
to the meaning with every member that has arrived. -/
def collective (i : Instr) (h : Hdr) (s : State) (mask : Cx → Word) (k : Cx → List Member → Out) : Out :=
  match curCx s with
  | none => .refused .noThread
  | some x =>
    let mk := mask x
    if !mk.getLsbD (laneOf x.tid) then
      match registerTrap s x.thr (chkOf s x.blk) h i with
      | some r => .next (takeTrap s x.tid r)
      | none => if guardOf s x.thr h then illop s x (encode i) 0x02 else goOn h s x x.thr
    else
      match gather s x mk h 32 with
      | none => .next (setThread s x.tid { x.thr with status := .held mk, nextIssue := s.cycle + 1 })
      | some ms =>
        let chk := chkOf s x.blk
        match ms.findSome? (fun m => registerTrap s m.thr chk h i) with
        | some r => .next (trapAll s ms r)
        | none => k x ms

end Sys2Proof.Machine
end

