-- ==== Sys2Proof/Machine/Engine.lean ====
section
/-! DEFINITION. The matrix engine's operations on scratchpad, fragments and tiles (R200 to R205, R220 to R226), the
ranges they read and write, and undefined engine results. -/

namespace Sys2Proof.Machine

open Sys2Proof

/-! ### Formats (Tables 3.9, 7.2, 7.3) -/

/-- Planes of a format before its serial planes (Table 7.2). -/
def plainPlanes : Fmt → Nat
  | .e2m1x => 1
  | .e4m3 => 5
  | .bf16 => 9
  | .fp16 => 6
  | _ => 0

/-- Planes of a plane-form tile. -/
def allPlanes (f : Fmt) : Nat := plainPlanes f + serialPlanes f

/-- Bits of a packed element (R38). -/
def elemWidth : Fmt → Nat
  | .int2 => 2
  | .int4 | .e2m1x => 4
  | .int8 | .e4m3 => 8
  | _ => 16

/-- The declared serial planes: PREC 0 is the full count (R204). -/
def declaredPlanes (f : Fmt) (prec : BitVec 4) : Nat := if prec = 0 then serialPlanes f else prec.toNat

/-- Planes an operation reads: the serial ones it declares and every other one (R204). -/
def readPlanes (f : Fmt) (p : Nat) : Nat := plainPlanes f + min p (serialPlanes f)

/-- Element i of packed elements (R38). -/
def packedElem (w : Nat) (bs : List Byte) (i : Nat) : Nat := leNat bs / 2 ^ (w * i) % 2 ^ w

/-- Packs elements of w bits, element 0 lowest. -/
def packElems (w : Nat) : List Nat → Nat
  | [] => 0
  | x :: xs => x % 2 ^ w + 2 ^ w * packElems w xs

/-- Bits [2:0] of a q status word or a tile's flags: NFR, OF, IV (Table 1.2). -/
def tileFlags (f : Flags) : BitVec 3 :=
  BitVec.ofBool (f &&& flagNFR != 0) ++ BitVec.ofBool (f &&& flagOF != 0) ++ BitVec.ofBool (f &&& flagIV != 0)

/-! ### Plane form (R202 to R204) -/

/-- Row m of a plane-form tile: its word in each plane, planes that are not read counting as zero. -/
def planeRow (b : Block) (f : Fmt) (p a m : Nat) : List Word :=
  (rangeFrom 0 (allPlanes f)).map (fun j => if j < readPlanes f p then b.spad.read32 (a + 64 * j + 4 * m) else 0)

/-- Bits of element k in n planes from plane j, the first highest. -/
def planeBits (ws : List Word) (j k : Nat) : Nat → Nat
  | 0 => 0
  | n + 1 => (if (ws.getD j 0).getLsbD k then 2 ^ n else 0) + planeBits ws (j + 1) k n

/-- The integer image of element k of a row, none for an E4M3 NaN (R49, R203). -/
def planeImg (f : Fmt) (ws : List Word) (k : Nat) : Option Int :=
  let neg := (ws.getD 0 0).getLsbD k
  match f with
  | .e2m1x => some (signed neg (planeBits ws 1 k 4))
  | .e4m3 =>
    let ef := planeBits ws 1 k 4
    let m := planeBits ws 5 k 4
    if ef ≠ 0 ∧ !(ws.getD 5 0).getLsbD k then none else some (signed neg (m * 2 ^ (max ef 1 - 1)))
  | f =>
    let n := elemWidth f
    let v := planeBits ws 0 k n
    some (if neg then (v : Int) - 2 ^ n else v)

/-- The value of element k of a BF16 or FP16 row (R203, R204). -/
def planeNum (f : Fmt) (ws : List Word) (k : Nat) : Num :=
  let e := if f = .bf16 then 8 else 5
  let n := serialPlanes f
  let neg := (ws.getD 0 0).getLsbD k
  let ef := planeBits ws 1 k e
  if ef = 2 ^ e - 1 then (if (ws.getD (1 + e) 0).getLsbD k then .inf neg else .nan)
  else .fin neg (planeBits ws (1 + e) k n) ((max ef 1 : Nat) - (2 ^ (e - 1) - 1 : Nat) - (n - 1 : Nat) : Int)

/-- Bits of n, the highest first. -/
def bitsOf (x : Nat) : Nat → List Bool
  | 0 => []
  | n + 1 => x.testBit n :: bitsOf x n

/-- The bits of an element in each plane (R202, R203); `w` is its block's scale word. -/
def planeCode (f : Fmt) (w : BitVec 16) (c : Nat) : List Bool :=
  match f with
  | .e2m1x =>
    let i := e2m1Img (BitVec.ofNat 4 c) w
    decide (i < 0) :: bitsOf i.natAbs 4
  | .e4m3 =>
    if c % 128 = 127 then false :: bitsOf 15 4 ++ bitsOf 0 4
    else
      let ef := c / 8 % 16
      c.testBit 7 :: bitsOf ef 4 ++ bitsOf (c % 8 + (if ef = 0 then 0 else 8)) 4
  | .bf16 =>
    let ef := c / 128 % 256
    let fr := c % 128
    if ef = 255 ∧ fr ≠ 0 then false :: bitsOf 255 8 ++ bitsOf 0x40 8
    else c.testBit 15 :: bitsOf ef 8 ++ bitsOf (fr + (if ef = 0 then 0 else 128)) 8
  | .fp16 =>
    let ef := c / 1024 % 32
    let fr := c % 1024
    if ef = 31 ∧ fr ≠ 0 then false :: bitsOf 31 5 ++ bitsOf 0x200 11
    else c.testBit 15 :: bitsOf ef 5 ++ bitsOf (fr + (if ef = 0 then 0 else 1024)) 11
  | f => bitsOf c (elemWidth f)

/-! ### Fragments (R205) -/

/-- Registers of a fragment. -/
def fragRegs (f : Fmt) (r : VReg) : List VReg :=
  (rangeFrom 0 (if f.isMma then 16 else 8)).map (fun i => r + BitVec.ofNat 6 i)

/-- The words of a lane's fragment. -/
def fragWords (t : Thread) (rs : List VReg) : List Word := rs.map (fun r => t.v[r.toNat]'(vreg_lt r))

/-- The signed 8-bit image of element k, or none for an E4M3 NaN. -/
def fragImg (f : Fmt) (ws : List Word) (k : Nat) : Option Int :=
  let c : BitVec 8 := (ws.getD (k / 4) 0).extractLsb' (8 * (k % 4)) 8
  if f = .e4m3 then
    if c.toNat % 128 = 127 then none
    else
      let (m, sh) := e4m3Parts c
      some (signed c.msb (m * 2 ^ sh))
  else some c.toInt

/-- An image outside its format's range is an undefined operand (R205). -/
def imgDefined (f : Fmt) (i : Option Int) : Bool :=
  match f, i with
  | .int2, some i => decide (-2 ≤ i ∧ i ≤ 1)
  | .int4, some i => decide (-8 ≤ i ∧ i ≤ 7)
  | .e2m1x, some i => decide (-15 ≤ i ∧ i ≤ 15)
  | _, _ => true

/-- The value of element k of a BF16 or FP16 fragment. -/
def fragNum (f : Fmt) (ws : List Word) (k : Nat) : Num :=
  let c := ((ws.getD (k / 2) 0).extractLsb' (16 * (k % 2)) 16).toNat
  if f = .bf16 then bf16.decode c else fp16.decode c

/-! ### Ranges -/

/-- A range of scratchpad, or of the operation's core's tiles. -/
structure Rng where
  tile : Bool
  addr : Nat
  len : Nat
  deriving DecidableEq, Repr

def Rng.meets (a b : Rng) : Bool := a.tile == b.tile && decide (a.addr < b.addr + b.len ∧ b.addr < a.addr + a.len)

/-- Adds a range after others; it joins the last one that it continues. -/
def joinRng (rs : List Rng) (r : Rng) : List Rng :=
  match rs with
  | [] => [r]
  | x :: xs => if x.tile = r.tile ∧ x.addr + x.len = r.addr then { x with len := x.len + r.len } :: xs else r :: x :: xs

/-- The same bytes in fewer ranges, with the tile bytes of a core where its block holds them. -/
def spansOf (core : Nat) (rs : List Rng) : List Rng :=
  rs.foldl (fun l r => joinRng l (if r.tile then { r with addr := accKey core r.addr } else r)) []

/-- The lanes of a mask. -/
def maskLanes (mask : Word) : List Nat := (rangeFrom 0 32).filter (fun n => mask.getLsbD n)

/-- Elements (m, n) of the columns of a mask. -/
def maskElems (mask : Word) : List (Nat × Nat) :=
  (rangeFrom 0 16).flatMap (fun m => (maskLanes mask).map (fun n => (m, n)))

/-- Bytes of a tile operand. -/
def tileLen (p64 : Bool) : Nat := if p64 then 4096 else 2048

/-- Bytes of a row of ACVT (R225). -/
def acvtRow (f : Fmt) : Nat := 4 * elemWidth f

/-- Rows and bytes per row that PLANE reads (R223). -/
def planeRows (f : Fmt) (tr : Bool) : Nat × Nat := if tr then (32, 2 * elemWidth f) else (16, 4 * elemWidth f)

/-- What an operation writes. -/
def MatOp.dests (mask : Word) : MatOp → List Rng
  | .mma _ _ _ _ t => (maskElems mask).map (fun e => ⟨true, t + 4 * (32 * e.1 + e.2), 4⟩)
  | .mmb _ _ _ _ t => (maskElems mask).map (fun e => ⟨true, t + 8 * (32 * e.1 + e.2), 8⟩)
  | .mscale _ _ t _ _ => (maskElems mask).map (fun e => ⟨true, t + 4 * (32 * e.1 + e.2), 4⟩)
  | .plane f _ dst _ _ _ => [⟨false, dst, 64 * allPlanes f⟩]
  | .azero p t => [⟨true, t, tileLen p⟩]
  | .acvt f _ dst stride rs =>
    (rangeFrom 0 16).map (fun m => ⟨false, dst + m * stride, acvtRow f⟩) ++ rs.map (fun a => ⟨false, a, 2⟩)
  | .amovOut p _ a => [⟨false, a, tileLen p⟩]
  | .amovIn p t _ => [⟨true, t, tileLen p⟩]

/-- What an operation reads, beside fragments. -/
def MatOp.sources (mask : Word) : MatOp → List Rng
  | .mma f p a _ t => ⟨false, a, 64 * readPlanes f p⟩ :: (maskElems mask).map (fun e => ⟨true, t + 4 * (32 * e.1 + e.2), 4⟩)
  | .mmb f p a _ _ => [⟨false, a, 64 * readPlanes f p⟩]
  | .mscale _ p t cs rs =>
    (maskElems mask).map (fun e => ⟨true, t + 4 * (32 * e.1 + e.2), 4⟩)
      ++ (maskElems mask).map (fun e => ⟨true, p + 8 * (32 * e.1 + e.2), 8⟩)
      ++ (if cs.isEmpty then [] else (maskLanes mask).map (fun n => ⟨false, cs.getD n 0, 2⟩)) ++ rs.map (fun a => ⟨false, a, 2⟩)
  | .plane f tr _ src stride rs =>
    (rangeFrom 0 (planeRows f tr).1).map (fun r => ⟨false, src + r * stride, (planeRows f tr).2⟩) ++ rs.map (fun a => ⟨false, a, 2⟩)
  | .azero _ _ => []
  | .acvt _ t _ _ _ => [⟨true, t, 2048⟩]
  | .amovOut p t _ => [⟨true, t, tileLen p⟩]
  | .amovIn p _ a => [⟨false, a, tileLen p⟩]

/-- Tiles an operation lends (R214). -/
def MatOp.tiles : MatOp → List Nat
  | .mma _ _ _ _ t => [t / 2048]
  | .mmb _ _ _ _ t => [t / 2048, t / 2048 + 1]
  | .mscale _ p t _ _ => [p / 2048, p / 2048 + 1, t / 2048]
  | .plane .. => []
  | .azero p t | .amovOut p t _ | .amovIn p t _ => if p then [t / 2048, t / 2048 + 1] else [t / 2048]
  | .acvt _ t _ _ _ => [t / 2048]

/-- Fragment registers an operation lends. -/
def MatOp.frag : MatOp → List VReg
  | .mma f _ _ r _ | .mmb f _ _ r _ => fragRegs f r
  | _ => []

/-- The tiles an operation writes. -/
def MatOp.outTiles (o : MatOp) : List Nat :=
  match o with
  | .mscale _ _ t _ _ => [t / 2048]
  | .plane .. | .acvt .. | .amovOut .. => []
  | o => o.tiles

/-! ### Order between operations (R212, R214) -/

/-- A running operation of the core writes a tile (R214). -/
def tileBusy (b : Block) (core tile : Nat) : Bool :=
  b.waves.any (fun w => w.core == core && w.q.toList.any (fun q => q.ops.any (fun o => o.started && o.op.outTiles.contains tile)))

/-! ### Results -/

/-- One piece of an operation's result. -/
structure MatWrite where
  rng : Rng
  bytes : List Byte
  bad : Bool

/-- The result of an operation: what it writes, the flags for the q status word, the tiles that receive flags, and
those whose flags clear. -/
structure MatOut where
  writes : List MatWrite
  flags : BitVec 3
  orTiles : List (Nat × BitVec 3)
  clear : List Nat

/-- A byte of a range is poisoned. -/
def rngBad (b : Block) (core : Nat) (r : Rng) : Bool :=
  (rangeFrom 0 (r.len / 8 + 2)).any (fun i =>
    let a := r.addr / 8 * 8 + 8 * i
    decide (a < r.addr + r.len) && (if r.tile then tilePoisoned b (accKey core a) else spadPoisoned b a))

def readRng (b : Block) (core : Nat) (r : Rng) : List Byte :=
  if r.tile then b.tiles.readBytes (accKey core r.addr) r.len else b.spad.readBytes r.addr r.len

def rngNat (b : Block) (core : Nat) (r : Rng) : Nat := leNat (readRng b core r)

/-- Scale word at a scratchpad address. -/
def scaleWord (b : Block) (a : Nat) : BitVec 16 := BitVec.ofNat 16 (b.spad.readNat a 2)

/-- What the rows of plane form hold: words and poison. -/
def rowsOf (b : Block) (core : Nat) (f : Fmt) (p a : Nat) : List (List Word × Bool) :=
  (rangeFrom 0 16).map (fun m =>
    (planeRow b f p a m, (rangeFrom 0 (readPlanes f p)).any (fun j => rngBad b core ⟨false, a + 64 * j + 4 * m, 4⟩)))

/-- The fragment of a lane: words and poison. -/
def laneFrag (b : Block) (wave : Nat) (f : Fmt) (r : VReg) (n : Nat) : List Word × Bool :=
  match b.threads[32 * wave + n]? with
  | some t => (fragWords t (fragRegs f r), (fragRegs f r).any (fun r => t.poisonV.getLsbD r.toNat))
  | none => ([], false)

def joinFlags (ws : List (MatWrite × Flags)) : Flags := ws.foldl (fun f w => f ||| w.2) 0

/-- An FP32 element as written. -/
def f32Write (r : Rng) (v : Num × Flags) (bad : Bool) : MatWrite × Flags :=
  (⟨r, leBytes 4 (toF32 v.1).toNat, bad⟩, v.2)

/-- MMA (R220). -/
def runMma (b : Block) (core wave : Nat) (mask : Word) (f : Fmt) (p a : Nat) (r : VReg) (t : Nat) : MatOut :=
  let rows := rowsOf b core f p a
  let ws := (maskLanes mask).flatMap (fun n =>
    let (fw, fb) := laneFrag b wave f r n
    let bs := (rangeFrom 0 32).map (fragNum f fw)
    (rangeFrom 0 16).map (fun m =>
      let (rw, rb) := rows.getD m ([], false)
      let g : Rng := ⟨true, t + 4 * (32 * m + n), 4⟩
      f32Write g (mmaElem (f32 (BitVec.ofNat 32 (rngNat b core g))) ((rangeFrom 0 32).map (planeNum f rw)) bs)
        (rb || fb || rngBad b core g)))
  let fl := tileFlags (joinFlags ws)
  ⟨ws.map (·.1), fl, [(t / 2048, fl)], []⟩

/-- n undefined bytes (R8, log 1). -/
def freeBytes (ctr seed n : Nat) : List Byte := (rangeFrom 0 n).map (fun i => Config.freeByte ctr (8192 + seed + i))

/-- MMB (R221); an element that an undefined fragment byte enters is undefined (R205). -/
def runMmb (ctr : Nat) (b : Block) (core wave : Nat) (mask : Word) (f : Fmt) (p a : Nat) (r : VReg) (t : Nat) : MatOut :=
  let rows := rowsOf b core f p a
  let ws := (maskLanes mask).flatMap (fun n =>
    let (fw, fb) := laneFrag b wave f r n
    let bs := (rangeFrom 0 32).map (fragImg f fw)
    (rangeFrom 0 16).map (fun m =>
      let (rw, rb) := rows.getD m ([], false)
      let e := 8 * (32 * m + n)
      let v := blockPartial ((rangeFrom 0 32).map (planeImg f rw)) bs
      (⟨⟨true, t + e, 8⟩, if bs.all (imgDefined f) then leBytes 8 v.toNat else freeBytes ctr e 8, rb || fb⟩ : MatWrite)))
  ⟨ws, 0, [], []⟩

/-- MSCALE (R222). -/
def runMscale (b : Block) (core : Nat) (mask : Word) (f : Fmt) (p t : Nat) (cs rs : List Nat) : MatOut :=
  let wordAt (l : List Nat) (i : Nat) : BitVec 16 × Bool :=
    if l.isEmpty then (0, false) else (scaleWord b (l.getD i 0), rngBad b core ⟨false, l.getD i 0, 2⟩)
  let ws := (maskElems mask).map (fun e =>
    let g : Rng := ⟨true, t + 4 * (32 * e.1 + e.2), 4⟩
    let q : Rng := ⟨true, p + 8 * (32 * e.1 + e.2), 8⟩
    let wa := wordAt rs e.1
    let wb := wordAt cs e.2
    f32Write g (mScale (f32 (BitVec.ofNat 32 (rngNat b core g))) (BitVec.ofNat 64 (rngNat b core q)) f wa.1 wb.1)
      (wa.2 || wb.2 || rngBad b core g || rngBad b core q))
  let fl := tileFlags (joinFlags ws)
  ⟨ws.map (·.1), fl, [(t / 2048, fl)], []⟩

/-- PLANE (R223). -/
def runPlane (b : Block) (core : Nat) (f : Fmt) (tr : Bool) (dst src stride : Nat) (rs : List Nat) : MatOut :=
  let shape := planeRows f tr
  let row (r : Nat) : Rng := ⟨false, src + r * stride, shape.2⟩
  let rows := (rangeFrom 0 shape.1).map (fun r => readRng b core (row r))
  let elems (m : Nat) : List (List Bool) :=
    let w := if rs.isEmpty then 0 else scaleWord b (rs.getD m 0)
    (rangeFrom 0 32).map (fun k =>
      let (r, i) := if tr then (k, m) else (m, k)
      planeCode f w (packedElem (elemWidth f) (rows.getD r []) i))
  let codes := (rangeFrom 0 16).map elems
  let bad (m : Nat) : Bool :=
    (if tr then (rangeFrom 0 32).any (fun r => rngBad b core (row r)) else rngBad b core (row m))
      || (!rs.isEmpty && rngBad b core ⟨false, rs.getD m 0, 2⟩)
  let word (m j : Nat) : Nat :=
    packElems 1 ((codes.getD m []).map (fun bits => if bits.getD j false then 1 else 0))
  let bads := (rangeFrom 0 16).map bad
  ⟨(rangeFrom 0 (allPlanes f)).flatMap (fun j => (rangeFrom 0 16).map (fun m =>
      ⟨⟨false, dst + 64 * j + 4 * m, 4⟩, leBytes 4 (word m j), bads.getD m false⟩)), 0, [], []⟩

/-- A row of ACVT in BF16 or FP16: bits and flags of an element. -/
def acvtElem (g : FF) (x : Num) : Nat × Flags :=
  let r := roundTo g .rn false x
  (g.encode r.1, r.2 ||| flagIf (r.1.isNaN || r.1.isInf) flagNFR)

/-- The flags of a tile. -/
def flagsOf (b : Block) (core tile : Nat) : BitVec 3 := Assoc.getD b.tflags (128 * core + tile) 0

/-- ACVT (R225). -/
def runAcvt (b : Block) (core : Nat) (f : Fmt) (t dst stride : Nat) (rs : List Nat) : MatOut :=
  let elem (m n : Nat) : Rng := ⟨true, t + 4 * (32 * m + n), 4⟩
  let num (m n : Nat) : Num := f32 (BitVec.ofNat 32 (rngNat b core (elem m n)))
  let rowBad (m : Nat) : Bool := (rangeFrom 0 32).any (fun n => rngBad b core (elem m n))
  let ws := (rangeFrom 0 16).flatMap (fun m =>
    let a := dst + m * stride
    if f = .bf16 ∨ f = .fp16 then
      (rangeFrom 0 32).map (fun n =>
        let e := acvtElem (if f = .bf16 then bf16 else fp16) (num m n)
        ((⟨⟨false, a + 2 * n, 2⟩, leBytes 2 e.1, rngBad b core (elem m n)⟩ : MatWrite), e.2))
    else
      let (w, codes, fl) := quantBlock (f == .e2m1x) ((rangeFrom 0 32).map (num m))
      let fl := fl ||| flagIf (w.extractLsb' 0 8 = 0xFF) flagNFR
      [(⟨⟨false, a, acvtRow f⟩, leBytes (acvtRow f) (packElems (elemWidth f) codes), rowBad m⟩, fl),
       (⟨⟨false, rs.getD m 0, 2⟩, leBytes 2 w.toNat, rowBad m⟩, 0)])
  ⟨ws.map (·.1), tileFlags (joinFlags ws) ||| flagsOf b core (t / 2048), [], []⟩

/-- A copy of bytes between tile and scratchpad, in 8-byte pieces. -/
def moveBytes (b : Block) (core : Nat) (src dst : Rng) : List MatWrite :=
  (rangeFrom 0 (src.len / 8)).map (fun i =>
    let r : Rng := ⟨src.tile, src.addr + 8 * i, 8⟩
    ⟨⟨dst.tile, dst.addr + 8 * i, 8⟩, readRng b core r, rngBad b core r⟩)

/-- The result of an operation that has defined inputs. -/
def runMat (ctr : Nat) (b : Block) (core wave : Nat) (mask : Word) : MatOp → MatOut
  | .mma f p a r t => runMma b core wave mask f p a r t
  | .mmb f p a r t => runMmb ctr b core wave mask f p a r t
  | .mscale f p t cs rs => runMscale b core mask f p t cs rs
  | .plane f tr dst src stride rs => runPlane b core f tr dst src stride rs
  | .azero p t => ⟨[⟨⟨true, t, tileLen p⟩, List.replicate (tileLen p) 0, false⟩], 0, [], (MatOp.azero p t).tiles⟩
  | .acvt f t dst stride rs => runAcvt b core f t dst stride rs
  | .amovOut p t a =>
    ⟨moveBytes b core ⟨true, t, tileLen p⟩ ⟨false, a, tileLen p⟩,
     ((MatOp.amovOut p t a).tiles).foldl (fun f k => f ||| flagsOf b core k) 0, [], []⟩
  | .amovIn p t a => ⟨moveBytes b core ⟨false, a, tileLen p⟩ ⟨true, t, tileLen p⟩, 0, [], (MatOp.amovIn p t a).tiles⟩

/-- Operations that set flags in the q status word (R220, R222, R225, R226). -/
def MatOp.setsFlags : MatOp → Bool
  | .mma .. | .mscale .. | .acvt .. | .amovOut .. => true
  | .mmb .. | .plane .. | .azero .. | .amovIn .. => false

/-- An undefined engine result: every byte it writes and every flag it sets is free (R8). -/
def freeMat (ctr : Nat) (mask : Word) (op : MatOp) : MatOut :=
  let fl : BitVec 3 := if op.setsFlags then BitVec.ofBool (Config.freeBit ctr 128) ++ BitVec.ofBool (Config.freeBit ctr 129)
    ++ BitVec.ofBool (Config.freeBit ctr 130) else 0
  ⟨(op.dests mask).map (fun r => ⟨r, freeBytes ctr (r.addr % 2 ^ 22) r.len, false⟩), fl,
   match op with
   | .mma _ _ _ _ t => [(t / 2048, fl)]
   | .mscale _ _ t _ _ => [(t / 2048, fl)]
   | _ => [],
   match op with
   | .azero .. | .amovIn .. => op.tiles
   | _ => []⟩

/-! ### Writing a result -/

/-- Writes bytes to scratchpad, but not to typed granules, which only their own instructions change (R257). -/
def writePlain (b : Block) (a : Nat) (bs : List Byte) : Block :=
  if (typedWhy b a bs.length).isNone then writeSpad b a bs
  else
    { b with spad := ((rangeFrom 0 bs.length).zip bs).foldl (fun m p =>
        if (granType b ((a + p.1) / 16 * 16)).isSome then m else m.write (a + p.1) p.2) b.spad }

def putWrite (core : Nat) (b : Block) (w : MatWrite) : Block :=
  if w.rng.tile then writeTile b (accKey core w.rng.addr) w.bytes else writePlain b w.rng.addr w.bytes

def putPoison (core : Nat) (b : Block) (w : MatWrite) : Block :=
  if !w.bad then b
  else if w.rng.tile then poisonTile b (accKey core w.rng.addr) w.rng.len
  else poisonSpad b w.rng.addr w.rng.len

/-- Sets a tile's flags, listing none where there are none. -/
def setFlags (b : Block) (core tile : Nat) (f : BitVec 3) : Block :=
  { b with tflags := if f = 0 then Assoc.erase b.tflags (128 * core + tile) else Assoc.set b.tflags (128 * core + tile) f }

/-- Poison that a whole result clears: granules that its pieces together write (R421). -/
def clearDests (core : Nat) (b : Block) (rs : List Rng) : Block :=
  rs.foldl (fun b r =>
    if r.tile then { b with tilePoison := clearPoison b.tilePoison 8 (accKey core r.addr) r.len }
    else { b with spadPoison := clearPoison b.spadPoison 8 r.addr r.len }) b

/-- Writes an engine result into the block; `rs` is everything that the operation writes. -/
def putMat (core : Nat) (b : Block) (rs : List Rng) (o : MatOut) : Block :=
  let b := clearDests core (o.writes.foldl (putWrite core) b) rs
  let b := o.writes.foldl (putPoison core) b
  let b := o.clear.foldl (fun b k => setFlags b core k 0) b
  o.orTiles.foldl (fun b p => setFlags b core p.1 (flagsOf b core p.1 ||| p.2)) b

/-- ERR of a result (R217): 0x30 when poison entered it. -/
def MatOut.err (o : MatOut) : BitVec 8 := if o.writes.any MatWrite.bad then 0x30 else 0

/-! ### Order between operations (R212, R214) -/

/-- An operation of a core. -/
structure OnCore where
  core : Nat
  op : QOp

def OnCore.dests (x : OnCore) : List Rng := spansOf x.core (x.op.op.dests x.op.mask)
def OnCore.sources (x : OnCore) : List Rng := spansOf x.core (x.op.op.sources x.op.mask)

/-- The first writes what the second reads or writes. -/
def OnCore.hits (a b : OnCore) : Bool := a.dests.any (fun r => (b.dests ++ b.sources).any r.meets)

/-- The operations of a block that have started or completed. -/
def begunOps (b : Block) : List OnCore :=
  b.waves.flatMap (fun w => (w.finished ++ w.q.toList.flatMap (fun q => q.ops.filter QOp.started)).map (OnCore.mk w.core))

/-- Those that nothing orders before an operation with a clock, beside itself (R214). -/
def unordered (b : Block) (c : Clock) (id : Nat) : List OnCore :=
  (begunOps b).filter (fun x => x.op.id != id && !c.hasOp x.op.id)

/-- A write to what an operation reads is not ordered before it (R212). -/
def readsRacing (b : Block) (c : Clock) (x : OnCore) : Bool := x.sources.any (fun r => b.order.racing c r.tile r.addr r.len)

/-- The members of an operation that have written what it borrows (R214). -/
def memberSpoiled (b : Block) (id : Nat) : Bool :=
  b.threads.any (fun t => t.lent.any (fun l => l.op == id && l.spoiled))

/-- Operations whose results are undefined with an undefined one: those after it that read what one of them wrote. -/
def tainted (xs : List OnCore) (x : OnCore) : List OnCore :=
  xs.foldl (fun ts y => if ts.any (fun t => y.op.id != t.op.id && y.op.ordered.hasOp t.op.id && t.dests.any (fun r => y.sources.any r.meets))
    then ts ++ [y] else ts) [x]

/-- Writes an undefined result of a completed operation, but not over what an operation after it has written from defined
inputs. -/
def freeResult (ctr : Nat) (b : Block) (after : List OnCore) (x : OnCore) : Block :=
  let newer := (after.filter (fun y => y.op.ordered.hasOp x.op.id && y.op.id != x.op.id)).flatMap (fun y => y.op.op.dests y.op.mask)
  let out := freeMat ctr x.op.mask x.op.op
  let kept := out.writes.filter (fun w => !newer.any w.rng.meets)
  putMat x.core b (kept.map MatWrite.rng) { out with writes := kept }

/-- The results of completed operations that members spoiled while they were lent are undefined (R214). -/
def spoilResults (ctr : Nat) (b : Block) (ls : List Lent) : Block :=
  ls.foldl (fun b l =>
    let all := begunOps b
    match all.find? (fun x => x.op.id == l.op) with
    | none => b
    | some x =>
      let bad := tainted all x
      bad.foldl (fun b y => freeResult ctr b (all.filter (fun z => !bad.any (fun t => t.op.id == z.op.id))) y) b) b

/-- A thread has written what it had lent to operations that have completed: their results are undefined from now on. -/
def settleSpoil (s : State) (tid : ThreadId) : State :=
  match threadOf s tid with
  | none => s
  | some t =>
    let hit (b : Block) (l : Lent) : Bool := l.spoiled && (b.waves.any (fun w => w.finished.any (fun o => o.id == l.op)))
    if !t.lent.any Lent.spoiled then s
    else modBlock s tid.slot (fun b =>
      let b' := spoilResults s.freeCtr b (t.lent.filter (hit b))
      b'.setThread tid.tidx { t with lent := t.lent.map (fun l => if hit b l then { l with spoiled := false } else l) })

end Sys2Proof.Machine
end

