-- ==== Sys2Proof/Machine/Int.lean ====
section
/-! DEFINITION. The INT class (R92 to R94). -/

namespace Sys2Proof.Machine

open Sys2Proof

/-! ### Values (Table 4.2) -/

/-- A 32-bit operand as an integer, unsigned with NS (R93). -/
def intOf (ns : Bool) (x : Word) : Int := if ns then (x.toNat : Int) else x.toInt

/-- Clamps into the signed or unsigned 32-bit range (R93). -/
def clamp32 (ns : Bool) (x : Int) : Word :=
  let lo : Int := if ns then 0 else -(2 ^ 31)
  let hi : Int := if ns then 2 ^ 32 - 1 else 2 ^ 31 - 1
  w32 (max lo (min hi x))

def minInt (ns : Bool) (a b : Word) : Word := if intOf ns a ≤ intOf ns b then a else b
def maxInt (ns : Bool) (a b : Word) : Word := if intOf ns a ≤ intOf ns b then b else a
/-- |signed A|, modulo 2^32. -/
def absInt (a : Word) : Word := w32 a.toInt.natAbs

/-- Shifts with an unsigned count (R93). -/
def shlBy {n : Nat} (a : BitVec n) (b : Word) : BitVec n := if n ≤ b.toNat then 0 else a <<< b.toNat
def shrBy {n : Nat} (a : BitVec n) (b : Word) : BitVec n := if n ≤ b.toNat then 0 else a >>> b.toNat
def sarBy {n : Nat} (a : BitVec n) (b : Word) : BitVec n := a.sshiftRight (min b.toNat n)

/-- Bits [n−1:0] set. -/
def maskLow (n : Nat) : Word := BitVec.ofNat 32 (2 ^ n - 1)

/-- BFE (R94). -/
def bfeVal (ns : Bool) (a ctl : Word) : Word :=
  let pos := (ctl.extractLsb' 0 8).toNat
  let len := (ctl.extractLsb' 8 8).toNat
  if 32 ≤ pos ∨ len = 0 then 0
  else
    let n := min len (32 - pos)
    let f := (a >>> pos) &&& maskLow n
    if ns then f else if f.getLsbD (n - 1) then f ||| ~~~maskLow n else f

/-- BFI (R94). -/
def bfiVal (a b ctl : Word) : Word :=
  let pos := (ctl.extractLsb' 0 8).toNat
  let len := (ctl.extractLsb' 8 8).toNat
  if 32 ≤ pos ∨ len = 0 then a
  else
    let m := maskLow (min len (32 - pos)) <<< pos
    (a &&& ~~~m) ||| ((b <<< pos) &&& m)

/-- Ones among the low k bits. -/
def ones (x : Word) : Nat → Nat
  | 0 => 0
  | k + 1 => ones x k + (if x.getLsbD k then 1 else 0)

/-- Leading zeros: 31 − ⌊log2 a⌋, 32 for 0. -/
def leadZeros (x : Word) : Nat := if x = 0 then 32 else 31 - Nat.log2 x.toNat

/-- Bit i of the result is bit k − 1 − i of the k low bits. -/
def revBits (x : Word) : Nat → Word
  | 0 => 0
  | k + 1 => revBits x k ||| (if x.getLsbD k then 1#32 <<< (31 - k) else 0)

/-! ### Meanings: latency 2 -/

/-- An instruction that writes one v register with latency 2. -/
def intOp (h : Hdr) (d : VReg) (s : State) (f : Thread → Word) : Out :=
  guarded h s fun x => goOn h s x (wrV s.cycle x.thr d (f x.thr) 2)

/-- An instruction that writes a pair with latency 2. -/
def intOp64 (h : Hdr) (d : VReg) (s : State) (f : Thread → DWord) : Out :=
  guarded h s fun x => goOn h s x (wrV64 s.cycle x.thr d (f x.thr) 2)

def execIadd (h : Hdr) (d : VReg) (a b : Src) (s : State) : Out :=
  intOp h d s fun t => src32 s t a + src32 s t b

def execIsub (h : Hdr) (d : VReg) (a b : Src) (s : State) : Out :=
  intOp h d s fun t => src32 s t a - src32 s t b

def execImul (h : Hdr) (d : VReg) (a b : Src) (s : State) : Out :=
  intOp h d s fun t => src32 s t a * src32 s t b

def execImulh (h : Hdr) (ns : Bool) (d : VReg) (a b : Src) (s : State) : Out :=
  intOp h d s fun t => w32 (intOf ns (src32 s t a) * intOf ns (src32 s t b) / 2 ^ 32)

def execImulw (h : Hdr) (ns : Bool) (d : VReg) (a b : Src) (s : State) : Out :=
  intOp64 h d s fun t => w64 (intOf ns (src32 s t a) * intOf ns (src32 s t b))

def execImad (h : Hdr) (ns : Bool) (d : VReg) (a b c : Src) (s : State) : Out :=
  intOp64 h d s fun t => w64 (intOf ns (src32 s t a) * intOf ns (src32 s t b)) + src64 s t c

def execImin (h : Hdr) (ns : Bool) (d : VReg) (a b : Src) (s : State) : Out :=
  intOp h d s fun t => minInt ns (src32 s t a) (src32 s t b)

def execImax (h : Hdr) (ns : Bool) (d : VReg) (a b : Src) (s : State) : Out :=
  intOp h d s fun t => maxInt ns (src32 s t a) (src32 s t b)

def execIabs (h : Hdr) (d : VReg) (a : Src) (s : State) : Out :=
  intOp h d s fun t => absInt (src32 s t a)

def execIadds (h : Hdr) (ns : Bool) (d : VReg) (a b : Src) (s : State) : Out :=
  intOp h d s fun t => clamp32 ns (intOf ns (src32 s t a) + intOf ns (src32 s t b))

def execIsubs (h : Hdr) (ns : Bool) (d : VReg) (a b : Src) (s : State) : Out :=
  intOp h d s fun t => clamp32 ns (intOf ns (src32 s t a) - intOf ns (src32 s t b))

def execAnd (h : Hdr) (d : VReg) (a b : Src) (s : State) : Out :=
  intOp h d s fun t => src32 s t a &&& src32 s t b

def execOr (h : Hdr) (d : VReg) (a b : Src) (s : State) : Out :=
  intOp h d s fun t => src32 s t a ||| src32 s t b

def execXor (h : Hdr) (d : VReg) (a b : Src) (s : State) : Out :=
  intOp h d s fun t => src32 s t a ^^^ src32 s t b

def execAndn (h : Hdr) (d : VReg) (a b : Src) (s : State) : Out :=
  intOp h d s fun t => src32 s t a &&& ~~~(src32 s t b)

def execShl (h : Hdr) (d : VReg) (a b : Src) (s : State) : Out :=
  intOp h d s fun t => shlBy (src32 s t a) (src32 s t b)

def execShr (h : Hdr) (d : VReg) (a b : Src) (s : State) : Out :=
  intOp h d s fun t => shrBy (src32 s t a) (src32 s t b)

def execSar (h : Hdr) (d : VReg) (a b : Src) (s : State) : Out :=
  intOp h d s fun t => sarBy (src32 s t a) (src32 s t b)

def execBfe (h : Hdr) (ns : Bool) (d : VReg) (a b : Src) (s : State) : Out :=
  intOp h d s fun t => bfeVal ns (src32 s t a) (src32 s t b)

def execBfi (h : Hdr) (d : VReg) (a b c : Src) (s : State) : Out :=
  intOp h d s fun t => bfiVal (src32 s t a) (src32 s t b) (src32 s t c)

def execPopc (h : Hdr) (d : VReg) (a : Src) (s : State) : Out :=
  intOp h d s fun t => BitVec.ofNat 32 (ones (src32 s t a) 32)

def execClz (h : Hdr) (d : VReg) (a : Src) (s : State) : Out :=
  intOp h d s fun t => BitVec.ofNat 32 (leadZeros (src32 s t a))

def execBrev (h : Hdr) (d : VReg) (a : Src) (s : State) : Out :=
  intOp h d s fun t => revBits (src32 s t a) 32

def execIadd64 (h : Hdr) (d : VReg) (a b : Src) (s : State) : Out :=
  intOp64 h d s fun t => src64 s t a + src64 s t b

def execIsub64 (h : Hdr) (d : VReg) (a b : Src) (s : State) : Out :=
  intOp64 h d s fun t => src64 s t a - src64 s t b

def execShl64 (h : Hdr) (d : VReg) (a b : Src) (s : State) : Out :=
  intOp64 h d s fun t => shlBy (src64 s t a) (src32 s t b)

def execShr64 (h : Hdr) (d : VReg) (a b : Src) (s : State) : Out :=
  intOp64 h d s fun t => shrBy (src64 s t a) (src32 s t b)

def execSar64 (h : Hdr) (d : VReg) (a b : Src) (s : State) : Out :=
  intOp64 h d s fun t => sarBy (src64 s t a) (src32 s t b)

end Sys2Proof.Machine
end

