-- ==== Sys2Proof/Machine/Wav.lean ====
section
/-! DEFINITION. The WAV class (R56, R57, R99 to R108): wave collectives. -/

namespace Sys2Proof.Machine

open Sys2Proof

/-! ### The tree (R56, R57) -/

/-- A value of a node with the flags of the Ops below it. -/
abbrev Node := Option (Word × Flags)

/-- Joins two nodes. -/
def joinNodes (op : Word → Word → Word × Flags) (a b : Node) : Node :=
  match a, b with
  | some (x, f), some (y, g) => let (z, e) := op x y; some (z, f ||| g ||| e)
  | some x, none => some x
  | none, b => b

/-- Node(k, j). -/
def treeNode (op : Word → Word → Word × Flags) (leaf : Nat → Option Word) : Nat → Nat → Node
  | 0, i => (leaf i).map (fun x => (x, 0))
  | k + 1, j => joinNodes op (treeNode op leaf k (2 * j)) (treeNode op leaf k (2 * j + 1))

/-- The nodes of Scan over the lowest n lanes, bits k − 1 down to 0 of n still to come. -/
def scanFrom (op : Word → Word → Word × Flags) (leaf : Nat → Option Word) (n : Nat) : Nat → Nat → Node → Node
  | 0, _, acc => acc
  | k + 1, base, acc =>
    if n.testBit k then
      scanFrom op leaf n k (base + 2 ^ k) (joinNodes op acc (treeNode op leaf k (base / 2 ^ k)))
    else scanFrom op leaf n k base acc

/-- Scan(n − 1): the combination over lanes 0 to n − 1. -/
def scanNode (op : Word → Word → Word × Flags) (leaf : Nat → Option Word) (n : Nat) : Node := scanFrom op leaf n 6 0 none

/-- An integer operator of WRED and WSCAN (R106). -/
def redInt (op : RedOp) (a b : Word) : Word :=
  match op with
  | .add => a + b
  | .min ns => minInt ns a b
  | .max ns => maxInt ns a b
  | .and => a &&& b
  | .or => a ||| b
  | .xor => a ^^^ b

/-- A float operator: subnormals read as zero under FTZ; a signalling NaN sets IV (R43, R106). -/
def redFloat (f : Num → Num → Num × Flags) (ftz : Bool) (a b : Word) : Word × Flags :=
  let r := f (prep fp32 ftz false false a.toNat) (prep fp32 ftz false false b.toNat)
  (toF32 r.1, r.2 ||| ivIf (fp32.signalling a.toNat || fp32.signalling b.toNat))

/-- Op of R56. -/
def wOp (o : WOp) (a b : Word) : Word × Flags :=
  match o with
  | .int op => (redInt op a b, 0)
  | .fadd rnd ftz => redFloat (fun x y => arith .add fp32 (Rnd.ofBits rnd) ftz x y .nan) ftz a b
  | .fmin ftz => redFloat (fun x y => (minMax true x y, 0)) ftz a b
  | .fmax ftz => redFloat (fun x y => (minMax false x y, 0)) ftz a b

def WOp.isFloat : WOp → Bool
  | .int _ => false
  | _ => true

/-- The identity of an exclusive scan (Table 4.8). -/
def wIdentity : WOp → Word
  | .int .add => 0
  | .int (.min ns) => if ns then 0xFFFFFFFF else 0x7FFFFFFF
  | .int (.max ns) => if ns then 0 else 0x80000000
  | .int .and => 0xFFFFFFFF
  | .int .or | .int .xor => 0
  | .fadd _ _ => 0
  | .fmin _ => 0x7F800000
  | .fmax _ => 0xFF800000

/-- A float result as written: a NaN is canonical (R43), with NFR for a NaN or an infinity (R107). -/
def wWritten (o : WOp) (x : Word) : Word × Flags :=
  if WOp.isFloat o then (if (f32 x).isNaN then toF32 .nan else x, nfrIf (f32 x)) else (x, 0)

/-- A of a present member of a lane. -/
def laneVal (s : State) (ms : List Member) (a : Src) (i : Nat) : Option Word :=
  ((present ms).find? (fun m => m.lane == i)).map (fun m => src32 s m.thr a)

/-- Writes a result into each present member; the others only go on. -/
def giveV (h : Hdr) (s : State) (ms : List Member) (d : VReg) (f : Member → Word) : Out :=
  membersDone h s ms (fun m => if m.on then wrV s.cycle m.thr d (f m) 6 else m.thr)

/-! ### Meanings: latency 6 -/

/-- BALLOT (R104). -/
def execBallot (h : Hdr) (mask : Word) (d : VReg) (a : PReg) (s : State) : Out :=
  collective (.ballot h mask d a) h s (fun _ => mask) fun _ ms =>
    let w := (present ms).foldl (fun w m => setBit w m.lane (rdP s m.thr a)) (0 : Word)
    giveV h s ms d (fun _ => w)

/-- VOTE (R104). -/
def execVote (h : Hdr) (mask : Word) (op : VoteOp) (d : PReg) (a : PReg) (s : State) : Out :=
  collective (.vote h mask op d a) h s (fun _ => mask) fun _ ms =>
    let vs := (present ms).map (fun m => rdP s m.thr a)
    let t := match op with
      | .all => vs.all id
      | .any => vs.any id
      | .uni => vs.all id || vs.all (fun v => !v)
    membersDone h s ms (fun m => if m.on then wrP s.cycle m.thr d t 6 else m.thr)

/-- The source lane of SHFL (R105). -/
def shflLane (op : ShflOp) (i : Nat) (b : Word) : Int :=
  match op with
  | .idx => b.toNat
  | .up => (i : Int) - b.toNat
  | .down => (i : Int) + b.toNat
  | .xor => (i ^^^ (b.extractLsb' 0 5).toNat : Nat)

/-- SHFL (R105). -/
def execShfl (h : Hdr) (mask : Word) (op : ShflOp) (d : VReg) (a : Src) (b : RC) (s : State) : Out :=
  collective (.shfl h mask op d a b) h s (fun _ => mask) fun _ ms =>
    giveV h s ms d (fun m =>
      let src := shflLane op m.lane (rc32 s m.thr b)
      let other := if 0 ≤ src then laneVal s ms a src.toNat else none
      other.getD (src32 s m.thr a))

/-- WRED (R106, R107). -/
def execWred (h : Hdr) (mask : Word) (op : WOp) (d : VReg) (a : Src) (s : State) : Out :=
  collective (.wred h mask op d a) h s (fun _ => mask) fun _ ms =>
    let r := (treeNode (wOp op) (laneVal s ms a) 5 0).getD (0, 0)
    let w := wWritten op r.1
    membersDone h s ms (fun m =>
      if m.on then addFlags s.cycle h (wrV s.cycle m.thr d w.1 6) (r.2 ||| w.2) 6 else m.thr)

/-- The node of a lane's scan: over lanes below it with EXCL, else with it. -/
def scanOf (s : State) (ms : List Member) (op : WOp) (excl : Bool) (a : Src) (m : Member) : Node :=
  scanNode (wOp op) (laneVal s ms a) (if excl then m.lane else m.lane + 1)

/-- WSCAN (R106, R107). -/
def execWscan (h : Hdr) (mask : Word) (op : WOp) (excl : Bool) (d : VReg) (a : Src) (s : State) : Out :=
  collective (.wscan h mask op excl d a) h s (fun _ => mask) fun _ ms =>
    let ops := (present ms).foldl (fun f m => f ||| (match scanOf s ms op excl a m with | some r => r.2 | none => 0)) (0 : Flags)
    membersDone h s ms (fun m =>
      if m.on then
        let w := match scanOf s ms op excl a m with
          | some r => wWritten op r.1
          | none => (wIdentity op, 0)
        addFlags s.cycle h (wrV s.cycle m.thr d w.1 6) (ops ||| w.2) 6
      else m.thr)

/-- MATCH (R104). -/
def execMatchEq (h : Hdr) (mask : Word) (d : VReg) (a : Src) (s : State) : Out :=
  collective (.matchEq h mask d a) h s (fun _ => mask) fun _ ms =>
    giveV h s ms d (fun m =>
      (present ms).foldl (fun w o => setBit w o.lane (src32 s o.thr a == src32 s m.thr a)) (0 : Word))

/-- The L1 of a block's core, after an acquire at block scope: dropped where the block occupies more than one core
(R312). -/
def acquireBlock (s : State) (b : Block) (core : Nat) : State := if 1 < b.cores.length then l1Acquire s core else s

/-- WSYNC (R108): release and acquire at block scope among its members. -/
def execWsync (h : Hdr) (mask : Word) (s : State) : Out :=
  collective (.wsync h mask) h s (fun _ => mask) fun x ms =>
    let all := ms.foldl (fun (c : Clock) m => c.join m.thr.known.seen) ([] : Clock)
    membersDone h (acquireBlock s x.blk x.coreId) ms (fun m => m.thr.acquire all)

end Sys2Proof.Machine
end

