-- ==== Sys2Proof/Machine/Ldst.lean ====
section
/-! DEFINITION. The MEM class (R151 to R163): loads and stores of object memory, scratchpad and accumulator tiles,
capability loads and stores, compress-store and expand-load. -/

namespace Sys2Proof.Machine

open Sys2Proof

/-! ### Loads of object memory (R153, R155, R312) -/

/-- What a load reads: its bytes, the poison of each, and the tag of the granule. -/
structure Loaded where
  bytes : List Byte
  poison : List Bool
  tag : Bool

/-- The load is performed at the point of coherence: an acquire of device or system scope (R312). -/
def coherent : Option Scope → Bool
  | some .device => true
  | some .system => true
  | _ => false

/-- Acquire of a scope by a core (R312). -/
def acquireAt (s : State) (b : Block) (core : Nat) : Option Scope → State
  | none => s
  | some .block => acquireBlock s b core
  | some _ => l1Acquire s core

/-- A load may be served from, and allocate in, the core's L1 (R155, R312, Table 17.5). -/
def cacheable (m : Mapped) (ch : CacheHint) (coh : Bool) : Bool := ch != .nc && !coh && !pageDef m.pe && pageCache m.pe == 0

/-- The L1 copy that serves a load: one held exclusive always does, another one when it is still there (R312, log 8). -/
def l1Copy (s : State) (core ctx obj off : Nat) (m : Mapped) (ch : CacheHint) (coh : Bool) : Option L1Line :=
  if cacheable m ch coh && !m.lost s then
    (coreOf s core).l1.find? (fun l => l.id == m.lineId ctx obj off && (l.excl || Config.freeHit s.freeCtr 0))
  else none

/-- Reads n bytes within one line for a core, filling, marking or dropping its L1 line. -/
def serve (s : State) (core ctx obj off n : Nat) (m : Mapped) (ch : CacheHint) (coh : Bool) : State × Loaded :=
  let k := m.lineId ctx obj off
  match l1Copy s core ctx obj off m ch coh with
  | some l => (if ch = .ef then setCore s core ((coreOf s core).modLine k (fun l => l.touch ch)) else s, ⟨(l.bytes.drop (off % 128)).take n, List.replicate n false, l.tags.getD (off % 128 / 16) false⟩)
  | none =>
    let r : Loaded := ⟨readMapped s m n, (rangeFrom 0 n).map (poisonedAt s m), tagAt s m⟩
    let s := if ch = .nc then setCore s core (dropLine (coreOf s core) k) else recallLine s core k
    (if cacheable m ch coh then l1Fill s core k off m false ch else s, r)

/-- A thread's load of n bytes, waiting for a weight-store refresh window where it reads the store (R378). -/
def loading (s : State) (x : Cx) (m : Mapped) (obj off n : Nat) (ch : CacheHint) (coh : Bool) (k : State → Loaded → Out) : Out :=
  let (s', r) := serve s x.coreId x.blk.ctx obj off n m ch coh
  if (l1Copy s x.coreId x.blk.ctx obj off m ch coh).isSome then k s' r else windowed s x m (k s' r)

/-- Poison of byte i of what was loaded. -/
def Loaded.bad (r : Loaded) (i : Nat) : Bool := r.poison.getD i false

/-- The wanted translation of an access without further conditions. -/
def want (c : Cap) (off : Int) (acc : Acc) : Want := ⟨c.obj, off.toNat, acc, false, false⟩

/-- LD (R151 to R156): right 0. -/
def execLd (h : Hdr) (m : LdMod) (d : VReg) (x : CapAddr) (s : State) : Out :=
  guarded h s fun cx =>
    let c := rdA s cx.thr x.a
    let off := capOff s cx.thr x
    checked s cx (checkCap c (aByte x.a) [0] off m.wid.code.toNat)
      (access s cx (want c off .read) c.rights fun s mp _ =>
        loading s cx mp c.obj off.toNat m.wid.bytes m.ch (coherent m.acq) fun s r =>
          goOnPend h (acquireAt s cx.blk cx.coreId m.acq) cx cx.thr (pendVals (loadVals d m.wid m.sx r.bytes r.bad)))

/-- A store of the executing thread: a record on a deferred page, else a write at the point of coherence (R154). -/
def storing (h : Hdr) (s : State) (cx : Cx) (mp : Mapped) (recd : Bool) (obj off : Nat) (wid : Wid) (ch : CacheHint)
    (val : Nat) : Out :=
  if recd then recording s cx mp (storeReqs wid val) fun s t => goOn h s cx t
  else goOn h (writeObj s (some cx.coreId) cx.blk.ctx obj off mp (leBytes wid.bytes val) ch) cx cx.thr

/-- ST (R154): right 1. -/
def execSt (h : Hdr) (m : StMod) (x : CapAddr) (v : RC) (s : State) : Out :=
  guarded h s fun cx =>
    let c := rdA s cx.thr x.a
    let off := capOff s cx.thr x
    checked s cx (checkCap c (aByte x.a) [1] off m.wid.code.toNat)
      (access s cx (want c off .write) c.rights fun s mp recd =>
        storing h s cx mp recd c.obj off.toNat m.wid m.ch (dataOf s cx.thr m.wid v))

/-! ### Scratchpad and accumulator tiles (R153, R154) -/

/-- LDL. -/
def execLdl (h : Hdr) (m : LdMod) (d : VReg) (x : LocAddr) (s : State) : Out :=
  guarded h s fun cx =>
    let off := localOff s cx.thr x
    checked s cx (checkSpad cx.blk off m.wid)
      (goOnPend h (acquireAt s cx.blk cx.coreId m.acq) cx cx.thr
        (pendVals (loadVals d m.wid m.sx (cx.blk.spad.readBytes off.toNat m.wid.bytes)
          (fun i => spadPoisoned cx.blk (off.toNat + i)))))

/-- STL: a range that meets a typed object traps BARWR (R157). -/
def execStl (h : Hdr) (m : StMod) (x : LocAddr) (v : RC) (s : State) : Out :=
  guarded h s fun cx =>
    let off := localOff s cx.thr x
    checked s cx (Why.first (checkSpad cx.blk off m.wid) (typedWhy cx.blk off.toNat m.wid.bytes))
      (let b := (writeSpad cx.blk off.toNat (leBytes m.wid.bytes (dataOf s cx.thr m.wid v))).wrote cx.thr cx.tid.tidx false
         off.toNat m.wid.bytes
       .next (setBlock s cx.tid.slot (b.setThread cx.tid.tidx ((cx.thr.wrote cx.tid.tidx).done s.cycle h))))

/-- In a checked launch an access to a lent tile traps SBCHK with the specifier of its index (R214, Table 4.13), before
its own checks (Table 3.13 row 9). -/
def lentWhy (s : State) (cx : Cx) (idx : RC) (off : Int) : Option Why :=
  if decide (0 ≤ off) && chkOf s cx.blk && cx.thr.view.tileLent (off.toNat / 2048) then some ⟨causeSbchk, 0x01, idx.byte.setWidth 32, 0⟩ else none

/-- The core of the executing thread within its cluster. -/
def Cx.core (x : Cx) : Nat := (x.blk.wave (waveIx x.tid)).core

/-- LDA (R153, R263): a tile that is lent, or that a running operation writes, reads undefined (R214). -/
def execLda (h : Hdr) (w : Wid) (d : VReg) (x : LocAddr) (s : State) : Out :=
  guarded h s fun cx =>
    let off := localOff s cx.thr x
    let tile := off.toNat / 2048
    let key := accKey cx.core off.toNat
    checked s cx (Why.first (lentWhy s cx x.idx off) (checkAcc cx.blk off w))
      (let lent := cx.thr.view.tileLent tile || tileBusy cx.blk cx.core tile
       let bs := if lent then (rangeFrom 0 w.bytes).map (fun i => Config.freeByte s.freeCtr i)
         else cx.blk.tiles.readBytes key w.bytes
       goOnPend h s cx cx.thr (pendVals (loadVals d w false bs (fun i => !lent && tilePoisoned cx.blk (key + i)))))

/-- STA (R154, R214): a lent tile makes the engine result undefined. -/
def execSta (h : Hdr) (w : Wid) (x : LocAddr) (v : RC) (s : State) : Out :=
  guarded h s fun cx =>
    let off := localOff s cx.thr x
    let tile := off.toNat / 2048
    checked s cx (Why.first (lentWhy s cx x.idx off) (checkAcc cx.blk off w))
      (let t := { cx.thr with lent := spoil cx.thr.lent (fun l => l.tiles.contains tile) }
       let key := accKey cx.core off.toNat
       let b := (writeTile cx.blk key (leBytes w.bytes (dataOf s cx.thr w v))).wrote cx.thr cx.tid.tidx true key w.bytes
       .next (setBlock s cx.tid.slot (b.setThread cx.tid.tidx ((t.wrote cx.tid.tidx).done s.cycle h))))

/-! ### Aged and capability loads, capability stores, prefetch -/

/-- STEP of a context. -/
def stepOf (s : State) (ctx : Nat) : Word :=
  match ctxOf s ctx with
  | some c => c.stepReg
  | none => 0

/-- LDAGE (R158). -/
def execLdage (h : Hdr) (d : VReg) (x : CapAddr) (s : State) : Out :=
  guarded h s fun cx =>
    let c := rdA s cx.thr x.a
    let off := capOff s cx.thr x
    checked s cx (checkCap c (aByte x.a) [0] off 3)
      (access s cx (want c off .read) c.rights fun s mp _ =>
        loading s cx mp c.obj off.toNat 8 .dflt false fun s r =>
          let w : DWord := BitVec.ofNat 64 (leNat r.bytes)
          let v := agedRead (w.extractLsb' 0 32) (w.extractLsb' 32 16) ((stepOf s cx.blk.ctx).extractLsb' 0 16)
            (objL mp.oe).toNat
          goOnPend h s cx cx.thr
            ⟨false, [(d, toF32 v.1, r.poison.any id)], none, if h.nf then 0 else v.2, true⟩)

/-- LDC (R159): rights 0 and 4. -/
def execLdc (h : Hdr) (d : AReg) (x : CapAddr) (s : State) : Out :=
  guarded h s fun cx =>
    let c := rdA s cx.thr x.a
    let off := capOff s cx.thr x
    checked s cx (checkCap c (aByte x.a) [0, 4] off 4)
      (access s cx (want c off .read) c.rights fun s mp _ =>
        loading s cx mp c.obj off.toNat 16 .dflt false fun s r =>
          goOnPend h s cx cx.thr
            ⟨false, [], some (d, ⟨BitVec.ofNat 128 (leNat r.bytes), objCapa mp.oe && r.tag⟩, r.poison.any id), 0, false⟩)

/-- STC of a tagged capability without the global right (R160): ARG0 the rights of aC. -/
def globalWhy (v : Cap) : Option Why :=
  if v.tag && !v.rights.getLsbD 6 then some ⟨causeCaprgt, 0x08, v.rights.setWidth 32, 0⟩ else none

/-- The tag of a granule set, in memory and in the core's L1 copy (R160). -/
def setTag (s : State) (core ctx obj off : Nat) (m : Mapped) : State :=
  let c := coreOf s core
  let s := { s with tags := NatSet.add s.tags (m.loc.addr / 16) }
  setCore s core (c.modLine (m.lineId ctx obj off) (fun l => { l with tags := listModify l.tags (off % 128 / 16) (fun _ => true) }))

/-- STC (R160): rights 1 and 5, then the global right, then the object's attribute. -/
def execStc (h : Hdr) (x : CapAddr) (v : AReg) (s : State) : Out :=
  guarded h s fun cx =>
    let c := rdA s cx.thr x.a
    let val := rdA s cx.thr v
    let off := capOff s cx.thr x
    checked s cx (Why.first (checkCap c (aByte x.a) [1, 5] off 4) (globalWhy val))
      (access s cx ⟨c.obj, off.toNat, .write, true, false⟩ c.rights fun s mp recd =>
        if recd then trapOn s cx causeCaprgt 0x09 (c.rights.setWidth 32) 0
        else
          let s := writeObj s (some cx.coreId) cx.blk.ctx c.obj off.toNat mp (leBytes 16 val.bits.toNat) .dflt
          goOn h (if val.tag then setTag s cx.coreId cx.blk.ctx c.obj off.toNat mp else s) cx cx.thr)

/-- PRF (R161): never traps or faults. -/
def execPrf (h : Hdr) (x : CapAddr) (s : State) : Out :=
  guarded h s fun cx =>
    let c := rdA s cx.thr x.a
    let off := capOff s cx.thr x
    if (checkCap c (aByte x.a) [0] off 0).isSome then goOn h s cx cx.thr
    else
      match translate s cx.blk.ctx (some cx.blk.launch) (want c off .read) with
      | (s', .ok mp _) =>
        let k := mp.lineId cx.blk.ctx c.obj off.toNat
        if cacheable mp .dflt false && !refreshes s mp then
          goOn h (l1Fill (recallLine s' cx.coreId k) cx.coreId k off.toNat mp false .dflt) cx cx.thr
        else goOn h s cx cx.thr
      | _ => goOn h s cx cx.thr

/-! ### Compress-store and expand-load (R162, R163) -/

/-- The first byte of [off, off + n) outside a window. -/
def firstOutside (c : Cap) (off : Int) : Int := if off < (c.base : Int) then off else max off c.top

/-- The four checks of R162 on the whole range, with the first failing byte (R199). -/
def checkRange (c : Cap) (spec : BitVec 8) (rights : List Nat) (off : Int) (n : Nat) (wid : BitVec 3) : Option Why :=
  Why.first (checkTag c spec rights)
    (Why.first ((checkBound c off n).map (fun w => { w with
        arg0 := offLo (firstOutside c off), arg1 := offHi (firstOutside c off) }))
      (checkAlign off (2 ^ wid.toNat) (wid.setWidth 8)))

/-- A mapped access moved on by bytes within its page. -/
def Mapped.shift (m : Mapped) (n : Nat) : Mapped :=
  { m with loc := { m.loc with addr := m.loc.addr + n }, paddr := m.paddr + n }

/-- The pages of a range of one instance: one, or two. -/
structure Span where
  first : Mapped × Bool
  /-- The second page, from its first byte. -/
  second : Option (Nat × Mapped × Bool)

/-- The page of byte i of the range. -/
def Span.at (p : Span) (off i : Nat) : Mapped × Bool :=
  match p.second with
  | none => (p.first.1.shift i, p.first.2)
  | some (start, m, r) => if start ≤ off + i then (m.shift (off + i - start), r) else (p.first.1.shift i, p.first.2)

/-- What the translation of a range answers. -/
inductive SpanOf where
  | ok (p : Span)
  | faults (fs : List PageFault)
  | trap (cause sub : BitVec 8)
  | migrating (page : Nat)
  | noAddr (a : Nat)

/-- Bytes of a page of an object. -/
def pageOf (s : State) (ctx obj : Nat) : Nat :=
  match objEntry s ctx obj with
  | some oe => objPage oe
  | none => 2 ^ 16

def Xl.faultOf : Xl → List PageFault
  | .fault f => [f]
  | _ => []

/-- Two pages joined: a fault of either rolls back, else the first trap or stall counts. -/
def joinSpan (start : Nat) (a b : Xl) : SpanOf :=
  match a, b with
  | .fault f, b => .faults (f :: b.faultOf)
  | _, .fault g => .faults [g]
  | .trap c w, _ | _, .trap c w => .trap c w
  | .migrating p, _ | _, .migrating p => .migrating p
  | .noAddr p, _ | _, .noAddr p => .noAddr p
  | .ok m r, .ok m' r' => .ok ⟨(m, r), some (start, m', r')⟩

/-- Translates every page of [off, off + n) (R162). -/
def translateSpan (s : State) (ctx : Nat) (launch : Nat) (obj off n : Nat) (acc : Acc) : State × SpanOf :=
  let pg := pageOf s ctx obj
  let last := (off + n - 1) / pg * pg
  let (s, a) := translate s ctx (some launch) ⟨obj, off, acc, false, false⟩
  if last ≤ off then
    (s, match a with
      | .ok m r => .ok ⟨(m, r), none⟩
      | .fault f => .faults [f]
      | .trap c w => .trap c w
      | .migrating p => .migrating p
      | .noAddr p => .noAddr p)
  else
    let (s, b) := translate s ctx (some launch) ⟨obj, last, acc, false, false⟩
    (s, joinSpan last a b)

/-- The members present roll back on the faults; in the handler they stall (R162, R250). -/
def rollbackMembers (s : State) (x : Cx) (ms : List Member) (fs : List PageFault) : State :=
  let note (s : State) : State := fs.foldl (fun s f => clusterFault s x.blk.cluster x.blk.ctx f) s
  ms.foldl (fun s m =>
    match m.thr.trap with
    | none => rollbackTo (note s) m.tid (.parkedFault fs s.cycle)
    | some _ => setThread (note s) m.tid { m.thr with status := .parkedFault fs s.cycle }) s

/-- The writes of an instance come to the pages of a span that form no records. -/
def writingSpan (s : State) (x : Cx) (p : Span) (k : State → Out) : Out :=
  let page (m : Mapped × Bool) (k : State → Out) (s : State) : Out := if m.2 then k s else writing s x m.1 k
  page p.first (fun s => match p.second with
    | none => k s
    | some (_, m) => page m k s) s

/-- The members with a false guard are held again at their instance, which executes anew (R163, log 100). -/
def holdAbsent (s : State) (ms : List Member) : State :=
  let mask := ms.foldl (fun w m => setBit w m.lane true) (0 : Word)
  (ms.filter (fun m => !m.on)).foldl (fun s m => setThread s m.tid (m.thr.hold s.cycle (.held mask))) s

/-- The members with a false guard go on. -/
def absentGoOn (h : Hdr) (s : State) (ms : List Member) : State :=
  (ms.filter (fun m => !m.on)).foldl (fun s m => memberDone s h m m.thr) s

/-- The range of an instance, checked and translated; `k` runs with its pages. The members present trap where it fails its checks, and
roll back on a fault; a trap of the translation is raised in every member (R162, log 100). -/
def spanning (h : Hdr) (s : State) (x : Cx) (ms : List Member) (c : Cap) (spec : BitVec 8) (rights : List Nat) (off : Int)
    (n : Nat) (wid : BitVec 3) (acc : Acc) (k : State → Span → Out) : Out :=
  match checkRange c spec rights off n wid with
  | some w => trapMembers (absentGoOn h s ms) x (present ms) w
  | none =>
    match translateSpan s x.blk.ctx x.blk.launch c.obj off.toNat n acc with
    | (s, .ok p) => if acc.writes then writingSpan s x p (fun s => k s p) else k s p
    | (s, .faults fs) => .next (rollbackMembers (holdAbsent s ms) x (present ms) fs)
    | (s, .trap cause sub) => trapMembers s x ms ⟨cause, sub, offLo off, BitVec.ofNat 32 c.obj⟩
    | (s, .migrating page) => waitPage s x c.obj page
    | (_, .noAddr a) => .fault (.noSuchAddress a)

/-- Members of P below a lane (R162). -/
def rank (ps : List Member) (lane : Nat) : Nat := (ps.filter (fun m => decide (m.lane < lane))).length

/-- Staging charge of a thread's block. -/
def chargeOf (s : State) (t : ThreadId) : Nat := ((blockOf s t.slot).map Block.charge).getD 0

/-- A staging stall of an instruction that had room for some bytes before. -/
def StallOn.after (n : Nat) : StallOn → StallOn
  | .staging since need => .staging since (need + n)
  | w => w

/-- The stores of the members of a CST, lanes ascending, or why one stalls. -/
def compress (x : Cx) (w : Wid) (ch : CacheHint) (v : RC) (obj off : Nat) (p : Span) (s0 : State) (all : List Member) :
    List Member → State → Except StallOn State
  | [], s => .ok s
  | m :: ms, s =>
    let at' := rank all m.lane * w.bytes
    let (mp, recd) := p.at off at'
    let val := dataOf s0 m.thr w v
    if recd then
      match formRecs s m.tid mp (storeReqs w val) with
      | .ok s => compress x w ch v obj off p s0 all ms s
      | .error e => .error (e.after ((chargeOf s m.tid) - chargeOf s0 m.tid))
    else
      compress x w ch v obj off p s0 all ms
        (writeObj s (some x.coreId) x.blk.ctx obj (off + at') mp (leBytes w.bytes val) ch)

/-- Each member as it stands now goes on. -/
def allGoOn (h : Hdr) (s : State) (ms : List Member) : Out :=
  .next (ms.foldl (fun s m => memberDone s h m ((threadOf s m.tid).getD m.thr)) s)

/-- CST (R162). -/
def execCst (h : Hdr) (m : StMod) (x : CapAddr) (v : RC) (mask : VReg) (s : State) : Out :=
  collective (.cst h m x v mask) h s (fun cx => rdV s cx.thr mask) fun cx ms =>
    match present ms with
    | [] => allGoOn h s ms
    | l :: ps =>
      let c := rdA s l.thr x.a
      let off := capOff s l.thr x
      spanning h s cx ms c (aByte x.a) [1] off ((ps.length + 1) * m.wid.bytes) m.wid.code .write fun s' p =>
        match compress cx m.wid m.ch v c.obj off.toNat p s (l :: ps) (l :: ps) s' with
        | .ok s => allGoOn h s ms
        | .error e =>
          if e.isStaging && ms.any (fun m => m.thr.stgOut) then trapMembers s cx ms (stgfullWhy s cx.blk)
          else waitAt s cx (.stalled e)

/-- The elements of an XLD, lanes ascending, each sent to its member; CH is ignored (R155). -/
def expand (h : Hdr) (x : Cx) (m : LdMod) (d : VReg) (obj off : Nat) (p : Span) (all : List Member) : List Member → State → State
  | [], s => s
  | e :: es, s =>
    let at' := rank all e.lane * m.wid.bytes
    let (s, r) := serve s x.coreId x.blk.ctx obj (off + at') m.wid.bytes (p.at off at').1 .dflt (coherent m.acq)
    expand h x m d obj off p all es
      (memberDone s h e (pendTo e.thr (pendVals (loadVals d m.wid m.sx r.bytes r.bad))))

/-- The die in its refresh window that an element of an XLD waits for: L1 hits never wait (R378). -/
def xldRefreshing (s : State) (x : Cx) (m : LdMod) (obj off : Nat) (p : Span) (ps : List Member) : Option Nat :=
  ps.findSome? (fun e =>
    let at' := rank ps e.lane * m.wid.bytes
    let mp := (p.at off at').1
    if refreshes s mp && (l1Copy s x.coreId x.blk.ctx obj (off + at') mp .dflt (coherent m.acq)).isNone then
      some (wsDie mp.loc.addr)
    else none)

/-- XLD (R162). -/
def execXld (h : Hdr) (m : LdMod) (d : VReg) (x : CapAddr) (mask : VReg) (s : State) : Out :=
  collective (.xld h m d x mask) h s (fun cx => rdV s cx.thr mask) fun cx ms =>
    match present ms with
    | [] => allGoOn h s ms
    | l :: ps =>
      let c := rdA s l.thr x.a
      let off := capOff s l.thr x
      spanning h s cx ms c (aByte x.a) [0] off ((ps.length + 1) * m.wid.bytes) m.wid.code .read fun s p =>
        match xldRefreshing s cx m c.obj off.toNat p (l :: ps) with
        | some die => waitAt s cx (.stalled (.refresh die))
        | none =>
          let s := expand h cx m d c.obj off.toNat p (l :: ps) (l :: ps) s
          let s := acquireAt s cx.blk cx.coreId m.acq
          .next (absentGoOn h s ms)

end Sys2Proof.Machine
end

