-- ==== Sys2Proof/Machine/Atm.lean ====
section
/-! DEFINITION. The ATM class (R171 to R176): atomics on object memory and on the scratchpad. -/

namespace Sys2Proof.Machine

open Sys2Proof

/-- The acquire an ORD names. -/
def acquires : AOrd → Option Scope
  | .acq s => some s
  | .acqRel s => some s
  | _ => none

/-- A float add atomic of a deterministic checked launch (R176). -/
def detchk (s : State) (b : Block) (op : AOp) (ty : ATy) : Bool :=
  detOf s b && chkOf s b && op == .add && (ty == .f || ty == .h2 || ty == .b2)

/-- One atomic at its point of coherence, the issuing core's L1, which holds the line exclusive (R174): `new` is what
is written, none to write nothing. A poisoned granule stays poisoned (R421). -/
def performAtomic (s : State) (x : Cx) (m : Mapped) (obj off n : Nat) (new : Option Nat) : State :=
  let bad := (rangeFrom 0 n).any (poisonedAt s m)
  let s := match new with
    | none => s
    | some v =>
      let s' := writeObj s (some x.coreId) x.blk.ctx obj off m (leBytes n v) .dflt
      if bad then poisonDram s' m.loc.addr n else s'
  let k := m.lineId x.blk.ctx obj off
  if cacheable m .dflt false then l1Fill (recallLine s x.coreId k) x.coreId k off m true .dflt else s

/-- The old value with the poison of its words. -/
def atomOld (s : State) (m : Mapped) (d : VReg) (n : Nat) : List (VReg × Word × Bool) :=
  landRegs d (natWords (leNat (readMapped s m n)) (ceilDiv n 4))
    ((rangeFrom 0 (ceilDiv n 4)).map (fun k => wordAny n k (poisonedAt s m)))

/-- A capability atomic: the rights of Table 6.1, the translation, then the operation or the record it forms. -/
def atomic (s : State) (x : Cx) (a : CapAddr) (wid : Wid) (ret fadd : Bool)
    (k : State → Mapped → Bool → Cap → Nat → Out) : Out :=
  let c := rdA s x.thr a.a
  let off := capOff s x.thr a
  checked s x (checkCap c (aByte a.a) (if ret then [0, 1, 3] else [1, 3]) off wid.code.toNat)
    (access s x ⟨c.obj, off.toNat, if ret then .rmwRet else .rmw, false, fadd⟩ c.rights fun s m recd =>
      k s m recd c off.toNat)

/-- A reduction: a record on a deferred page (R177), else a non-returning atomic. -/
def reduce (h : Hdr) (s : State) (x : Cx) (m : AtMod) (a : CapAddr) (v : RC) : Out :=
  atomic s x a m.wid false (detchk s x.blk m.op m.ty) fun s mp recd c off =>
    let val := dataOf s x.thr m.wid v
    if recd then
      recording s x mp [redReq m.op m.ty m.wid val] fun s t =>
        goOn h (acquireAt s x.blk x.coreId (acquires m.ord)) x t
    else
      let old := leNat (readMapped s mp m.wid.bytes)
      let new := (atomicOp m.op m.ty (8 * m.wid.bytes) old val).1
      goOn h (acquireAt (performAtomic s x mp c.obj off m.wid.bytes (some new)) x.blk x.coreId (acquires m.ord)) x x.thr

/-- An atomic that returns the old value, with the flags of its operation. -/
def fetchOp (h : Hdr) (s : State) (x : Cx) (m : AtMod) (d : VReg) (a : CapAddr) (v : RC) (fpx : Bool) : Out :=
  atomic s x a m.wid true (detchk s x.blk m.op m.ty) fun s mp _ c off =>
    let old := leNat (readMapped s mp m.wid.bytes)
    let r := atomicOp m.op m.ty (8 * m.wid.bytes) old (dataOf s x.thr m.wid v)
    let p : Pend := ⟨false, atomOld s mp d m.wid.bytes, none, if h.nf then 0 else r.2, fpx⟩
    goOnPend h (acquireAt (performAtomic s x mp c.obj off m.wid.bytes (some r.1)) x.blk x.coreId (acquires m.ord)) x x.thr p

/-- ATOM (R173): with RET it returns the old value, without it it may become a record. -/
def execAtom (h : Hdr) (m : AtMod) (d : Option VReg) (x : CapAddr) (v : RC) (s : State) : Out :=
  guarded h s fun cx =>
    match d with
    | some d => fetchOp h s cx m d x v false
    | none => reduce h s cx m x v

/-- ATOMF (R173). -/
def execAtomf (h : Hdr) (m : AtMod) (d : VReg) (x : CapAddr) (v : RC) (s : State) : Out :=
  guarded h s fun cx => fetchOp h s cx m d x v true

/-- A compare-and-swap: bit for bit, writing nothing where it fails (R173). -/
def compareSwap (h : Hdr) (s : State) (x : Cx) (wid : Wid) (ord : AOrd) (d : VReg) (a : CapAddr) (cmp swap : Nat) : Out :=
  atomic s x a wid true false fun s mp _ c off =>
    let old := leNat (readMapped s mp wid.bytes)
    let new := if old = cmp then some swap else none
    goOnPend h (acquireAt (performAtomic s x mp c.obj off wid.bytes new) x.blk x.coreId (acquires ord)) x x.thr
      (pendVals (atomOld s mp d wid.bytes))

/-- CAS. -/
def execCas (h : Hdr) (wid : Wid) (ord : AOrd) (d : VReg) (x : CapAddr) (v : RC) (s : State) : Out :=
  guarded h s fun cx =>
    compareSwap h s cx wid ord d x (dataOf s cx.thr wid v) (dataOf s cx.thr wid (.v d))

/-- CAS128. -/
def execCas128 (h : Hdr) (ord : AOrd) (d : VReg) (x : CapAddr) (v : VReg) (s : State) : Out :=
  guarded h s fun cx =>
    compareSwap h s cx .w128 ord d x (dataOf s cx.thr .w128 (.v v)) (dataOf s cx.thr .w128 (.v d))

/-- RED. -/
def execRed (h : Hdr) (m : AtMod) (x : CapAddr) (v : RC) (s : State) : Out :=
  guarded h s fun cx => reduce h s cx m x v

/-- REDF. -/
def execRedf (h : Hdr) (m : AtMod) (x : CapAddr) (v : RC) (s : State) : Out :=
  guarded h s fun cx => reduce h s cx m x v

/-! ### Scratchpad atomics -/

/-- A scratchpad atomic: a typed range traps BARWR whether or not a byte would change (R157), and a poisoned granule
stays poisoned. `f` gives the new value from the old, with flags. -/
def localAtomic (h : Hdr) (s : State) (x : Cx) (wid : Wid) (ord : AOrd) (d : VReg) (a : LocAddr) (det fpx : Bool)
    (f : Nat → Option Nat × Flags) : Out :=
  let off := localOff s x.thr a
  let n := wid.bytes
  checked s x (Why.first (checkSpad x.blk off wid) (Why.first (if det then some ⟨causeDetchk, 0, offLo off, 0⟩ else none)
      (typedWhy x.blk off.toNat n)))
    (let o := off.toNat
     let bad (i : Nat) : Bool := spadPoisoned x.blk (o + i)
     let old := x.blk.spad.readNat o n
     let r := f old
     let b := match r.1 with
       | none => x.blk
       | some v =>
         let b := (writeSpad x.blk o (leBytes n v)).wrote x.thr x.tid.tidx false o n
         if (rangeFrom 0 n).any bad then poisonSpad b o n else b
     let vals := landRegs d (natWords old wid.regs) ((rangeFrom 0 wid.regs).map (fun k => wordAny n k bad))
     let t := pendTo (if r.1.isSome then x.thr.wrote x.tid.tidx else x.thr) ⟨false, vals, none, if h.nf then 0 else r.2, fpx⟩
     .next (acquireAt (setBlock s x.tid.slot (b.setThread x.tid.tidx (t.done s.cycle h))) x.blk x.coreId (acquires ord)))

/-- ATOML (R173, R176). -/
def execAtoml (h : Hdr) (m : AtMod) (d : VReg) (x : LocAddr) (v : RC) (s : State) : Out :=
  guarded h s fun cx =>
    localAtomic h s cx m.wid m.ord d x (detchk s cx.blk m.op m.ty) true (fun old =>
      let r := atomicOp m.op m.ty (8 * m.wid.bytes) old (dataOf s cx.thr m.wid v)
      (some r.1, r.2))

/-- CASL. -/
def execCasl (h : Hdr) (wid : Wid) (ord : AOrd) (d : VReg) (x : LocAddr) (v : RC) (s : State) : Out :=
  guarded h s fun cx =>
    localAtomic h s cx wid ord d x false false (fun old =>
      (if old = dataOf s cx.thr wid v then some (dataOf s cx.thr wid (.v d)) else none, 0))

end Sys2Proof.Machine
end

