-- ==== Sys2Proof/Machine/Asy.lean ====
section
/-! DEFINITION. The ASY class (R184 to R193): copy instructions, the queue packet, ring instructions. -/

namespace Sys2Proof.Machine

open Sys2Proof

/-! ### Copies: checks at issue (R186) -/

/-- One side at issue: its offset, and the capability with its specifier, or none for scratchpad. -/
structure SideOf where
  off : Int
  cap : Option (Cap × BitVec 8)

def sideOf (s : State) (t : Thread) : CpySide → SideOf
  | .obj a o => ⟨(rdA s t a).cursor + (rdV s t o).toNat, some (rdA s t a, aByte a)⟩
  | .spad r => ⟨(rdV s t r).toNat, none⟩

/-- Step 1 of R186 on one side: tag, rights, and for a contiguous side of n bytes its bounds. -/
def sideWhy (b : Block) (d : SideOf) (rights : List Nat) (n : Option Nat) : Option Why :=
  match d.cap with
  | some (c, spec) => Why.first (checkTag c spec rights) (n.bind (checkBound c d.off))
  | none => n.bind (spadBound b d.off)

/-- ALIGN of a copy's offset (R186): ARG1 is bits [40:32], or 0 in the scratchpad. -/
def offsetAlign (d : SideOf) : Option Why :=
  if d.off % 16 = 0 then none
  else some ⟨causeAlign, 0x10, offLo d.off, if d.cap.isSome then offHi d.off else 0⟩

/-- ALIGN of a copy's length. -/
def lengthAlign (n : Nat) : Option Why := if n % 16 = 0 then none else some ⟨causeAlign, 0x11, BitVec.ofNat 32 n, 0⟩

/-- The index list: R148 for its n words; its alignment comes later. -/
def indexWhy (b : Block) (a n : Nat) : Option Why := spadBound b a (4 * n)
def indexAlign (a : Nat) : Option Why := if a % 4 = 0 then none else some ⟨causeAlign, 0x12, BitVec.ofNat 32 a, 0⟩

/-- Rights of Table 6.1. -/
def srcRights : List Nat := [0, 7]
def dstRights : List Nat := [1, 7]

/-- A scratchpad destination that meets a typed object (R157). -/
def destTyped (b : Block) (d : SideOf) (n : Nat) : Option Why :=
  match d.cap with
  | some _ => none
  | none => typedWhy b d.off.toNat n

/-- The side as a request keeps it. -/
def SideOf.side (d : SideOf) (slot : Nat) : Side :=
  match d.cap with
  | some (c, _) => .obj c.obj d.off.toNat
  | none => .spad slot d.off.toNat

/-- The window in bytes of a gathered or scattered side. -/
def SideOf.window (d : SideOf) : Nat × Nat :=
  match d.cap with
  | some (c, _) => (c.base, c.top)
  | none => (0, 0)

/-! ### Requests (R394, R401) -/

/-- The engine that serves a cluster (R394). -/
def engineFor (cluster : Nat) : Nat := 4 * (cluster / Config.clustersPerDie) + cluster % 4

/-- An engine serves a request, a copy, a packet or an overlay load with room, when fewer than 256 reached it before (R394). -/
def activeAt (s : State) (engine id : Nat) : Bool :=
  let loads := s.cores.flatMap (fun c => if engineFor (c.1 / 4) = engine then (c.2.loads.filter OvLoad.placed).map OvLoad.id else [])
  decide ((((engineOf s engine).reqs.map CopyReq.id ++ loads).filter (fun i => decide (i < id))).length < Config.maxEngineReqs)

/-- The storage window entry whose quarantine object an object is (R401). -/
def sealedBy (s : State) (ctx obj : Nat) : Option (Nat × StorageEntry) :=
  match ctxOf s ctx with
  | some c => (c.storage.find? (fun p => p.2.obj == obj))
  | none => none

/-- How a request from an object is checked: not at all, chunk by chunk, or it fails with TINTEG (R401). -/
inductive SealOf where
  | plain
  | checked (k : Nat)
  | fails

def sealOf (s : State) (ctx : Nat) (kind : CopyKind) (dst src : Side) (len : Nat) : SealOf :=
  match src with
  | .spad _ _ => .plain
  | .obj o off =>
    match sealedBy s ctx o with
    | none => .plain
    | some (k, e) =>
      match kind, dst with
      | .move, .obj _ _ =>
        if e.dataOff ≤ off ∧ (off - e.dataOff) % 65536 = 0 ∧ len % 65536 = 0 ∧ off - e.dataOff + len ≤ 65536 * e.nchunk then
          .checked k
        else .fails
      | .move, .spad _ _ => .plain
      | .fill _, _ => .plain
      | .signal, _ => .plain
      | _, _ => .fails

/-- Appends a request at an engine. One from a quarantine object outside R401 writes nothing and fails. -/
def sendReq (s : State) (engine : Nat) (q : CopyReq) : State :=
  let q := match sealOf s q.ctx q.kind q.dst q.src q.len with
    | .plain => q
    | .checked k => { q with sealed := some k }
    | .fails => { q with len := 0, fail := some (0, codeInteg) }
  let e := engineOf s engine
  setEngine { s with nextId := s.nextId + 1 } engine { e with reqs := e.reqs ++ [{ q with id := s.nextId }] }

/-- A request of the executing thread. -/
def threadReq (x : Cx) (kind : CopyKind) (dst src : Side) (len : Nat) (rsc : Scope) (t : VReg) : CopyReq where
  id := 0
  ctx := x.blk.ctx
  launch := some x.blk.launch
  cluster := x.blk.cluster
  kind := kind
  dst := dst
  src := src
  len := len
  rsc := rsc
  token := some (x.tid, t)
  ring := none
  packet := none
  window := (0, 0)
  served := []
  words := []
  fail := none
  faults := []
  sealed := none

/-- Sends a request and marks its token; a length of 0 completes at once (R186). -/
def sendCopy (h : Hdr) (s : State) (x : Cx) (t : VReg) (q : CopyReq) : Out :=
  if q.len = 0 then goOn h s x (wrV s.cycle x.thr t 0 0)
  else goOn h (sendReq s (engineFor x.blk.cluster) q) x (markToken x.thr t (.copy s.nextId))

/-- CPY (R184 to R188). A typed granule in its scratchpad destination is tested after the checks R186 orders (log 113). -/
def execCpy (h : Hdr) (t : VReg) (dst src : CpySide) (cnt : VReg) (rsc : Scope) (s : State) : Out :=
  guarded h s fun x =>
    let d := sideOf s x.thr dst
    let f := sideOf s x.thr src
    let n := (rdV s x.thr cnt).toNat
    tokenRoom s x (checked s x
      (Why.first (sideWhy x.blk d dstRights (some n)) (Why.first (sideWhy x.blk f srcRights (some n))
        (Why.first (offsetAlign d) (Why.first (offsetAlign f) (Why.first (lengthAlign n) (destTyped x.blk d n))))))
      (sendCopy h s x t (threadReq x .move (d.side x.tid.slot) (f.side x.tid.slot) n rsc t)))

/-- Bytes of an element (Table 6.8). -/
def elemBytes (esz : BitVec 4) : Nat := 4 * 2 ^ esz.toNat

/-- The index list as captured at issue (R184). -/
def indices (b : Block) (a n : Nat) : List Nat := (rangeFrom 0 n).map (fun k => b.spad.readNat (a + 4 * k) 4)

/-- CPYG: the source is gathered. -/
def execCpyg (h : Hdr) (t : VReg) (dst : CpySide) (scap : AReg) (soff idx cnt : VReg) (esz : BitVec 4) (rsc : Scope) (s : State) : Out :=
  guarded h s fun x =>
    let d := sideOf s x.thr dst
    let f := sideOf s x.thr (.obj scap soff)
    let k := (rdV s x.thr cnt).toNat
    let i := (rdV s x.thr idx).toNat
    let n := k * elemBytes esz
    tokenRoom s x (checked s x
      (Why.first (sideWhy x.blk d dstRights (some n)) (Why.first (sideWhy x.blk f srcRights none)
        (Why.first (indexWhy x.blk i k) (Why.first (offsetAlign d) (Why.first (offsetAlign f)
          (Why.first (indexAlign i) (destTyped x.blk d n)))))))
      (sendCopy h s x t { threadReq x (.gather (elemBytes esz) (indices x.blk i k)) (d.side x.tid.slot) (f.side x.tid.slot) n rsc t with
        window := f.window }))

/-- CPYS: the destination is scattered. -/
def execCpys (h : Hdr) (t : VReg) (comb : Option CopOp) (dcap : AReg) (doff : VReg) (src : CpySide) (idx cnt : VReg)
    (esz : BitVec 4) (rsc : Scope) (s : State) : Out :=
  guarded h s fun x =>
    let d := sideOf s x.thr (.obj dcap doff)
    let f := sideOf s x.thr src
    let k := (rdV s x.thr cnt).toNat
    let i := (rdV s x.thr idx).toNat
    let n := k * elemBytes esz
    tokenRoom s x (checked s x
      (Why.first (sideWhy x.blk d dstRights none) (Why.first (sideWhy x.blk f srcRights (some n))
        (Why.first (indexWhy x.blk i k) (Why.first (offsetAlign d) (Why.first (offsetAlign f) (indexAlign i))))))
      (sendCopy h s x t { threadReq x (.scatter (elemBytes esz) (indices x.blk i k) comb) (d.side x.tid.slot) (f.side x.tid.slot) n rsc t with
        window := d.window }))

/-! ### Rings (R189 to R193) -/

/-- RINGERR on an object (Table 6.10). -/
def ringerr (sub : BitVec 8) (a : Int) (arg1 : Word) : Option Why := some ⟨causeRingerr, sub, offLo a, arg1⟩

/-- The object's n bytes: R148, then alignment (R191, R194). -/
def objectWhy (b : Block) (off : Int) (n : Nat) (sub : BitVec 8) : Option Why :=
  Why.first (spadBound b off n) (localAlign off n sub)

/-- Both granules are ring-typed. -/
def isRing (b : Block) (a : Nat) : Bool := granType b a == some .ring && granType b (a + 16) == some .ring

def ringTyped (b : Block) (off : Int) : Option Why := if isRing b off.toNat then none else ringerr 0x01 off 0

/-- CPY.RING (R189). -/
def execCpyRing (h : Hdr) (t ring : VReg) (scap : AReg) (soff cnt : VReg) (rsc : Scope) (s : State) : Out :=
  guarded h s fun x =>
    let a : Int := (rdV s x.thr ring).toNat
    let f := sideOf s x.thr (.obj scap soff)
    let n := (rdV s x.thr cnt).toNat
    let r := readRing x.blk a.toNat
    tokenRoom s x (checked s x
      (Why.first (objectWhy x.blk a 32 0x10) (Why.first (ringTyped x.blk a)
        (Why.first (if n ≤ r.sz.toNat then none else ringerr 0x02 a (BitVec.ofNat 32 n))
          (Why.first (sideWhy x.blk f srcRights (some n)) (Why.first (offsetAlign f) (lengthAlign n))))))
      (if !r.hasRoom then waitAt s x (.waiting (.ringCopy a.toNat))
       else
        checked s x (typedWhy x.blk (r.slotAddr r.res) n)
          (let b := writeRing x.blk a.toNat { r with res := r.res + 1, outc := r.outc + 1 }
           let q := { threadReq x .move (.spad x.tid.slot (r.slotAddr r.res)) (f.side x.tid.slot) n rsc t with
             ring := some (a.toNat, r.res) }
           goOn h (sendReq (setBlock s x.tid.slot b) (engineFor x.blk.cluster) q) x (markToken x.thr t (.copy s.nextId)))))

/-- A configuration word of RINIT out of its ranges (R191): the first that fails. -/
def ringConfig (b : Block) (c0 c1 : Word) : Option Word :=
  let sz := (c0.extractLsb' 0 16).toNat
  let logn := (c0.extractLsb' 20 4).toNat
  if sz = 0 ∨ sz % 16 ≠ 0 ∨ 8 < logn ∨ c0.extractLsb' 16 4 ≠ 0#4 ∨ c0.extractLsb' 24 8 ≠ 0#8 then some c0
  else
    let base := (c1.extractLsb' 0 24).toNat
    if c1.extractLsb' 24 8 ≠ 0#8 ∨ base % 16 ≠ 0 ∨ !inWindow b base (2 ^ logn * sz) then some c1 else none

/-- The first cause of RINIT, the lowest SUB (R193). -/
def rinitWhy (b : Block) (off : Int) (c0 c1 : Word) : Option Why :=
  let a := off.toNat
  if granType b a = some .barrier ∨ granType b (a + 16) = some .barrier then ringerr 0x01 off 0
  else
    match ringConfig b c0 c1 with
    | some w => ringerr 0x02 off w
    | none => if isRing b a && (readRing b a).outc != 0 then ringerr 0x03 off 0 else none

/-- Goes on with a changed block. -/
def goOnBlock (h : Hdr) (s : State) (x : Cx) (b : Block) (t : Thread) : Out :=
  .next (setBlock s x.tid.slot (b.setThread x.tid.tidx (t.done s.cycle h)))

/-- RINIT (R192). -/
def execRinit (h : Hdr) (x : LocAddr) (c : VReg) (s : State) : Out :=
  guarded h s fun cx =>
    let off := localOff s cx.thr x
    let c0 := rdV s cx.thr c
    let c1 := rdV s cx.thr (c + 1)
    checked s cx (Why.first (objectWhy cx.blk off 32 0) (rinitWhy cx.blk off c0 c1))
      (let a := off.toNat
       let b := { cx.blk with
         types := Assoc.set (Assoc.set cx.blk.types a .ring) (a + 16) .ring
         order := cx.blk.order.initRing a }
       goOnBlock h s cx (writeRing b a ⟨0, 0, 0, 0, c0.extractLsb' 0 16, c0.extractLsb' 20 4, c1.extractLsb' 0 24, 0⟩) cx.thr)

/-- The checks of RRES, RPUB, RWAIT and RREL on their object. -/
def ringOp (s : State) (x : Cx) (a : LocAddr) (k : Int → Ring → Out) : Out :=
  let off := localOff s x.thr a
  checked s x (Why.first (objectWhy x.blk off 32 0) (ringTyped x.blk off)) (k off (readRing x.blk off.toNat))

/-- RRES (R192). -/
def execRres (h : Hdr) (d : VReg) (x : LocAddr) (s : State) : Out :=
  guarded h s fun cx =>
    ringOp s cx x fun off r =>
      if r.hasRoom then
        goOnBlock h (acquireBlock s cx.blk cx.coreId) cx (writeRing cx.blk off.toNat { r with res := r.res + 1 })
          (pendTo (cx.thr.acquire (cx.blk.order.released off.toNat (r.res - BitVec.ofNat 16 r.n))) (pendVals [(d, r.ticketWord r.res, false)]))
      else waitAt s cx (.waiting (.rres off.toNat))

/-- RWAIT (R192): acquires at block scope. -/
def execRwait (h : Hdr) (d : VReg) (x : LocAddr) (s : State) : Out :=
  guarded h s fun cx =>
    ringOp s cx x fun off r =>
      if r.con = r.pub then waitAt s cx (.waiting (.rwait off.toNat))
      else
        goOnBlock h (acquireBlock s cx.blk cx.coreId) cx (writeRing cx.blk off.toNat { r with con := r.con + 1 })
          (pendTo (cx.thr.acquire (cx.blk.order.published off.toNat r.con)) (pendVals [(d, r.ticketWord r.con, false)]))

/-- A ticket outside its window (R192): ARG1 the ticket. -/
def ticketWhy (off : Int) (t low high : BitVec 16) : Option Why :=
  if (high - low).toNat ≤ (t - low).toNat then ringerr 0x04 off (t.setWidth 32) else none

/-- RPUB (R192). -/
def execRpub (h : Hdr) (x : LocAddr) (c : VReg) (s : State) : Out :=
  guarded h s fun cx =>
    ringOp s cx x fun off r =>
      let t := (rdV s cx.thr c).extractLsb' 0 16
      checked s cx (ticketWhy off t r.pub r.res)
        (if r.pub = t then
           goOnBlock h s cx { writeRing cx.blk off.toNat { r with pub := r.pub + 1 } with
             order := cx.blk.order.publish off.toNat t cx.thr.known.seen } cx.thr
         else waitAt s cx (.waiting (.rpub off.toNat t)))

/-- RREL (R192). -/
def execRrel (h : Hdr) (x : LocAddr) (c : VReg) (s : State) : Out :=
  guarded h s fun cx =>
    ringOp s cx x fun off r =>
      let t := (rdV s cx.thr c).extractLsb' 0 16
      checked s cx (ticketWhy off t r.rel r.con)
        (if r.rel = t then
           goOnBlock h s cx { writeRing cx.blk off.toNat { r with rel := r.rel + 1 } with
             order := cx.blk.order.release off.toNat t cx.thr.known.seen } cx.thr
         else waitAt s cx (.waiting (.rrel off.toNat t)))

/-! ### The queue packet (R190, R397) -/

/-- Bytes of a packet's words. -/
def wordBytes (ws : List Word) : List Byte := ws.flatMap (fun w => leBytes 4 w.toNat)

/-- The packet with SEQ of the claimed index in word 0. -/
def withSeq (ws : List Word) (i : Nat) : List Word :=
  match ws with
  | [] => []
  | w :: ws => (BitVec.ofNat 16 i ++ w.extractLsb' 0 16) :: ws

/-- CPYQ (R190). -/
def execCpyq (h : Hdr) (t : VReg) (a : AReg) (q p : VReg) (s : State) : Out :=
  guarded h s fun x =>
    let c := rdA s x.thr a
    let off : Int := c.cursor + (rdV s x.thr q).toNat
    let ends (s : State) (w : Word) : Out := goOn h s x (wrV s.cycle x.thr t w 0)
    tokenRoom s x (checked s x
      (Why.first (checkTag c (aByte a) [1, 3]) (Why.first (checkBound c off 64) (checkAlign off 64 0x10)))
      (access s x (want c off .rmwRet) c.rights fun s m _ =>
        let hd : BitVec 512 := BitVec.ofNat 512 (leNat (readMapped s m 64))
        let wr := (hd.extractLsb' 0 64).toNat
        let rd := (hd.extractLsb' 64 64).toNat
        let n := 2 ^ (hd.extractLsb' 128 5).toNat
        let slot := off.toNat + 64 + 64 * (wr % n)
        if n ≤ (wr + 2 ^ 64 - rd) % 2 ^ 64 then ends s (statusWord 0 0xA codeQFull)
        else if (checkBound c slot 64).isSome then ends s (statusWord 0 0xA codeBound)
        else
          access s x (want c slot .cwrite) c.rights fun s ms _ =>
            let s := performAtomic s x m c.obj off.toNat 8 (some ((wr + 1) % 2 ^ 64))
            ends (writeObj s (some x.coreId) x.blk.ctx c.obj slot ms (wordBytes (withSeq (rdVs s x.thr p 16) wr)) .dflt) 0))

end Sys2Proof.Machine
end

