-- ==== Sys2Proof/Machine/Obj.lean ====
section
/-! DEFINITION. Ranges of object memory as engines, firmware and the host read and write them: translated page by page
(R363), and device memory by physical address. -/

namespace Sys2Proof.Machine

open Sys2Proof

/-- A range split where pages of 64 KiB end. -/
def pieces : Nat → Nat → Nat → List (Nat × Nat)
  | 0, _, _ => []
  | f + 1, off, n =>
    if n = 0 then []
    else
      let k := min n (2 ^ 16 - off % 2 ^ 16)
      (off, k) :: pieces f (off + k) (n - k)

def piecesOf (off n : Nat) : List (Nat × Nat) := pieces (n / 2 ^ 16 + 2) off n

/-- A translated piece of a range. -/
structure Piece where
  off : Nat
  len : Nat
  m : Mapped

/-- Translates the pieces of a range in order; the first that does not translate answers for all. -/
def translatePieces (ctx : Nat) (launch : Option Nat) (obj : Nat) (acc : Acc) :
    List (Nat × Nat) → State → State × Except Xl (List Piece)
  | [], s => (s, .ok [])
  | (off, n) :: ps, s =>
    match translate s ctx launch ⟨obj, off, acc, false, false⟩ with
    | (s, .ok m _) =>
      match translatePieces ctx launch obj acc ps s with
      | (s, .ok qs) => (s, .ok (⟨off, n, m⟩ :: qs))
      | (s, .error x) => (s, .error x)
    | (s, x) => (s, .error x)

def translateRange (s : State) (ctx : Nat) (launch : Option Nat) (obj : Nat) (acc : Acc) (off n : Nat) :
    State × Except Xl (List Piece) :=
  translatePieces ctx launch obj acc (piecesOf off n) s

/-- Some byte of the first n of an access is poisoned. -/
def anyPoison (s : State) (m : Mapped) (n : Nat) : Bool :=
  (rangeFrom 0 (n / 8 + 1)).any (fun i => decide (0 < n) && poisonedAt s m (min (8 * i) (n - 1)))

/-- The bytes of translated pieces, and whether one is poisoned. -/
def readPieces (s : State) (ps : List Piece) : List Byte × Bool :=
  (ps.flatMap (fun p => readMapped s p.m p.len), ps.any (fun p => anyPoison s p.m p.len))

/-- Writes bytes over translated pieces, for an agent without an L1; copies in L1 stay as R312 allows. -/
def writePieces (ctx obj : Nat) : List Piece → List Byte → State → State
  | [], _, s => s
  | p :: ps, bs, s =>
    writePieces ctx obj ps (bs.drop p.len) (writeObj s none ctx obj p.off p.m (bs.take p.len) .dflt)

/-- Reads a range of an object whole: its bytes and whether one is poisoned, or why not. -/
def readObj (s : State) (ctx : Nat) (launch : Option Nat) (acc : Acc) (obj off n : Nat) :
    State × Except Xl (List Byte × Bool) :=
  match translateRange s ctx launch obj acc off n with
  | (s, .ok ps) => (s, .ok (readPieces s ps))
  | (s, .error x) => (s, .error x)

/-- The same for an agent that waits while a die of the weight store that it reads is in its refresh window (R378). -/
def readWaiting (s : State) (ctx : Nat) (launch : Option Nat) (acc : Acc) (obj off n : Nat) : State × Except Xl (List Byte × Bool) :=
  match translateRange s ctx launch obj acc off n with
  | (s, .ok ps) => (s, if ps.any (fun p => refreshes s p.m) then .error (.migrating off) else .ok (readPieces s ps))
  | (s, .error x) => (s, .error x)

/-- Writes a range of an object whole, or not at all: not while the directory holds the writes of a page of it (R322). -/
def writeObjRange (s : State) (ctx : Nat) (launch : Option Nat) (obj off : Nat) (bs : List Byte) : State × Option Xl :=
  match translateRange s ctx launch obj .cwrite off bs.length with
  | (s, .ok ps) =>
    match ps.find? (fun p => pageLocked s p.m) with
    | some p => (s, some (.migrating p.off))
    | none => (writePieces ctx obj ps bs s, none)
  | (s, .error x) => (s, some x)

/-- The page fault of a translation, if it is one. -/
def Xl.asFault : Xl → Option PageFault
  | .fault f => some f
  | _ => none

/-! ### Device memory by physical address -/

/-- Address of a byte of this device's stacked DRAM. -/
def here (s : State) (paddr : Nat) : Nat := dramAt s.device.toNat paddr
def readDev (s : State) (paddr n : Nat) : List Byte := s.dram.readBytes (here s paddr) n
def readDevNat (s : State) (paddr n : Nat) : Nat := s.dram.readNat (here s paddr) n
/-- A write of device memory by the command processor, an engine or firmware: no L1 keeps an exclusive copy. -/
def writeDev (s : State) (paddr : Nat) (bs : List Byte) : State := writeDram (dropExclusives s) (here s paddr) bs
def writeDevNat (s : State) (paddr n x : Nat) : State := writeDev s paddr (leBytes n x)

/-- A little-endian field of bytes: n bytes from an offset. -/
def fieldAt (bs : List Byte) (off n : Nat) : Nat := leNat ((bs.drop off).take n)

/-- The little-endian words of bytes. -/
def bytesWords : List Byte → List Word
  | a :: b :: c :: d :: bs => (d ++ c ++ b ++ a : BitVec 32) :: bytesWords bs
  | _ => []

def wordsBytes (ws : List Word) : List Byte := ws.flatMap (fun w => leBytes 4 w.toNat)

end Sys2Proof.Machine
end

