-- ==== Sys2Proof/Machine/Copy.lean ====
section
/-! DEFINITION. Copy engines at work: parts of chunks (R187, R188, R372, R394), checked chunks (R401), and the end of
a copy (R26, R189, R317). -/

namespace Sys2Proof.Machine

open Sys2Proof

/-! ### Failures of a request (R28) -/

/-- Rank of the codes within one chunk. -/
def codeRank (c : BitVec 8) : Nat :=
  if c = codePeer then 0 else if c = codePoison then 1 else if c = codeInteg then 2 else 3

/-- Notes a failure in a chunk: the lowest chunk, and in it the first code in rank. -/
def noteFail (f : Option (Nat × BitVec 8)) (chunk : Nat) (code : BitVec 8) : Option (Nat × BitVec 8) :=
  match f with
  | none => some (chunk, code)
  | some (c, k) => if chunk < c ∨ (chunk = c ∧ codeRank code < codeRank k) then some (chunk, code) else some (c, k)

/-- The status word of a request (Table 1.6). -/
def CopyReq.status (q : CopyReq) : Word :=
  match q.fail with
  | none => 0
  | some (c, k) => statusWord c 0xA k

/-! ### What a part moves (R187) -/

/-- A run of bytes of a part: where its destination lies, and its sources in list order, the last its own. -/
structure Seg where
  n : Nat
  dst : Nat
  srcs : List Nat

/-- Start of a side. -/
def Side.start : Side → Nat
  | .obj _ o => o
  | .spad _ a => a

/-- Runs [c, c + n) of a contiguous range cut at elements of es bytes: element, offset in it, length. -/
def elemRuns (es c n : Nat) : List (Nat × Nat × Nat) :=
  (rangeFrom (c / es) ((c + n - 1) / es - c / es + 1)).map (fun k =>
    let lo := max c (k * es)
    (k, lo - k * es, min (c + n) ((k + 1) * es) - lo))

/-- Bytes of the pages of the sides of a request: those of the destination's object and of the source's; a scratchpad has none
that a run could cross (R372). -/
structure Pages where
  dst : Nat
  src : Nat

def sidePage (s : State) (ctx : Nat) : Side → Nat
  | .obj o _ => pageOf s ctx o
  | .spad _ _ => 2 ^ 32

def CopyReq.pages (s : State) (q : CopyReq) : Pages := ⟨sidePage s q.ctx q.dst, sidePage s q.ctx q.src⟩

/-- Bytes of an offset up to the end of its page. -/
def toPageEnd (page off : Nat) : Nat := page - off % page

/-- A run cut where the pages of a side end; `srcs` and `dst` both move. -/
def cutRun (pg : Pages) : Nat → Seg → List Seg
  | 0, g => [g]
  | f + 1, g =>
    let k := (g.srcs.map (toPageEnd pg.src)).foldl min (min g.n (toPageEnd pg.dst g.dst))
    if g.n ≤ k then [g] else ⟨k, g.dst, g.srcs⟩ :: cutRun pg f ⟨g.n - k, g.dst + k, g.srcs.map (· + k)⟩

/-- A run of at most 4 KiB meets at most one boundary of each of its places. -/
def cutSeg (pg : Pages) (g : Seg) : List Seg := cutRun pg (g.srcs.length + 2) g

/-- An element of the gathered or scattered side lies in its window. -/
def CopyReq.inside (q : CopyReq) (start i es : Nat) : Bool :=
  decide (q.window.1 ≤ start + i * es ∧ start + (i + 1) * es ≤ q.window.2)

/-- The runs of [c, c + n) of a request's contiguous side. A skipped element gives none; in a scatter, an element that a
later entry names again is written by that entry. -/
def CopyReq.segs (pg : Pages) (q : CopyReq) (c n : Nat) : List Seg :=
  match q.kind with
  | .signal => []
  | .fill _ => [⟨n, q.dst.start + c, []⟩]
  | .move => cutSeg pg ⟨n, q.dst.start + c, [q.src.start + c]⟩
  | .gather es idx =>
    (elemRuns es c n).flatMap (fun (k, o, m) =>
      let i := idx.getD k 0
      if q.inside q.src.start i es then cutSeg pg ⟨m, q.dst.start + k * es + o, [q.src.start + i * es + o]⟩ else [])
  | .scatter es idx comb =>
    (elemRuns es c n).flatMap (fun (k, o, m) =>
      let i := idx.getD k 0
      if !q.inside q.dst.start i es || (idx.drop (k + 1)).contains i then []
      else
        let ks := (rangeFrom 0 (k + 1)).filter (fun j => comb.isSome && idx.getD j 0 == i || j == k)
        cutSeg pg ⟨m, q.dst.start + i * es + o, ks.map (fun j => q.src.start + j * es + o)⟩)

/-- Some element of the run is skipped (TBOUND). -/
def CopyReq.skips (q : CopyReq) (c n : Nat) : Bool :=
  let out (start es : Nat) (idx : List Nat) : Bool :=
    (elemRuns es c n).any (fun (k, _, _) => !q.inside start (idx.getD k 0) es)
  match q.kind with
  | .gather es idx => out q.src.start es idx
  | .scatter es idx _ => out q.dst.start es idx
  | _ => false

/-- A destination byte lies in the source range of the same object or scratchpad (R188). -/
def CopyReq.overlaps (q : CopyReq) (a : Nat) : Bool :=
  let same := match q.src, q.dst with
    | .obj o _, .obj p _ => o == p
    | .spad o _, .spad p _ => o == p
    | _, _ => false
  let here (start n : Nat) : Bool := decide (start ≤ a ∧ a < start + n)
  same && (match q.kind with
    | .move => here q.src.start q.len
    | .scatter _ _ _ => here q.src.start q.len
    | .gather es idx => idx.any (fun i => q.inside q.src.start i es && here (q.src.start + i * es) es)
    | _ => false)

/-! ### Translation of a part (R372) -/

/-- Where a run of a side is. -/
inductive Target where
  | mem (obj off : Nat) (m : Mapped)
  | spad (slot addr : Nat)

/-- Translates the start of a run that lies in one page. -/
def targetOf (s : State) (q : CopyReq) (acc : Acc) (side : Side) (off : Nat) : State × Except Xl Target :=
  match side with
  | .spad slot _ => (s, .ok (.spad slot off))
  | .obj o _ =>
    match translate s q.ctx q.launch ⟨o, off, acc, false, false⟩ with
    | (s, .ok m _) => (s, .ok (.mem o off m))
    | (s, x) => (s, .error x)

/-- A run with its places. -/
structure Placed2 where
  n : Nat
  dst : Target
  srcs : List Target

def targets (q : CopyReq) (acc : Acc) (side : Side) : List Nat → State → State × List Target × List Xl
  | [], s => (s, [], [])
  | o :: os, s =>
    let (s, t) := targetOf s q acc side o
    let (s, ts, es) := targets q acc side os s
    match t with
    | .ok t => (s, t :: ts, es)
    | .error x => (s, ts, x :: es)

/-- Translates every run of a part: both sides before any byte moves. -/
def placeSegs (q : CopyReq) : List Seg → State → State × List Placed2 × List Xl
  | [], s => (s, [], [])
  | g :: gs, s =>
    let (s, srcs, e1) := targets q .read q.src g.srcs s
    let (s, d, e2) := targets q .cwrite q.dst [g.dst] s
    let (s, ps, e3) := placeSegs q gs s
    match d with
    | [t] => (s, ⟨g.n, t, srcs⟩ :: ps, e1 ++ e2 ++ e3)
    | _ => (s, ps, e1 ++ e2 ++ e3)

/-! ### Bytes -/

def readTarget (s : State) (t : Target) (n : Nat) : List Byte × Bool :=
  match t with
  | .mem _ _ m => (readMapped s m n, anyPoison s m n)
  | .spad slot a =>
    match blockOf s slot with
    | none => (List.replicate n unlisted, false)
    | some b => (b.spad.readBytes a n, (rangeFrom 0 n).any (fun i => spadPoisoned b (a + i)))

/-- Writes bytes for an engine, poisoned where told; a failed peer's memory is out of reach (R395). -/
def writeTarget (s : State) (q : CopyReq) (t : Target) (bs : List Byte) (bad : Bool) : State :=
  match t with
  | .mem o off m =>
    if s.fabric.failedPeers.has m.home then s
    else
      let s := writeObj s none q.ctx o off m bs .dflt
      if bad then poisonDram s m.loc.addr bs.length else s
  | .spad slot a =>
    modBlock s slot (fun b =>
      let b := (writePlain b a bs).wroteOp [(agentOf q.id, 1)] q.id false a bs.length
      if bad then poisonSpad b a bs.length else b)

/-- COP on one 32-bit word. -/
def copWord (c : CopOp) (a b : Nat) : Nat :=
  match c with
  | .addI => (atomicOp .add .si 32 a b).1
  | .addF => (atomicOp .add .f 32 a b).1
  | .maxI => (atomicOp .max .si 32 a b).1
  | .maxF => (atomicOp .max .f 32 a b).1

/-- COP on runs of words. -/
def copBytes (c : CopOp) (a b : List Byte) : List Byte :=
  wordsBytes (((bytesWords a).zip (bytesWords b)).map (fun p => BitVec.ofNat 32 (copWord c p.1.toNat p.2.toNat)))

/-- The fold of a run's sources in list order. -/
def foldRuns (c : Option CopOp) : List (List Byte) → List Byte
  | [] => []
  | b :: bs => bs.foldl (fun a x => match c with | some c => copBytes c a x | none => x) b

/-- The value of a run: FILL's pattern, or the fold of its sources. -/
def CopyReq.value (q : CopyReq) (n : Nat) (srcs : List (List Byte)) : List Byte :=
  match q.kind with
  | .fill p => (rangeFrom 0 n).map (fun i => p.extractLsb' (8 * (i % 8)) 8)
  | .scatter _ _ comb => foldRuns comb srcs
  | _ => srcs.headD []

/-- The offset or address of a target. -/
def Target.at : Target → Nat
  | .mem _ off _ => off
  | .spad _ a => a

/-- Overlapping bytes are undefined (R188). -/
def CopyReq.blur (q : CopyReq) (ctr : Nat) (at0 : Nat) (bs : List Byte) : List Byte :=
  bs.mapIdx (fun i b => if q.overlaps (at0 + i) then Config.freeByte ctr (2 ^ 40 + at0 + i) else b)

/-- A die of the weight store that a part touches is in its refresh window (R378). -/
def refreshing (s : State) (ps : List Placed2) : Bool :=
  ps.any (fun p => (p.dst :: p.srcs).any (fun t => match t with
    | .mem _ _ m => refreshes s m
    | .spad _ _ => false))

/-- The directory holds the writes of a destination's page (R322, R373). -/
def heldUp (s : State) (ps : List Placed2) : Bool :=
  ps.any (fun p => match p.dst with
    | .mem _ _ m => pageLocked s m
    | .spad _ _ => false)

/-- A destination's home has failed (R395). -/
def peerGone (s : State) (ps : List Placed2) : Bool :=
  ps.any (fun p => match p.dst with
    | .mem _ _ m => s.fabric.failedPeers.has m.home
    | .spad _ _ => false)

/-! ### Requests at an engine -/

def setReq (s : State) (engine k : Nat) (q : CopyReq) : State :=
  setEngine s engine { engineOf s engine with reqs := (engineOf s engine).reqs.set k q }

/-- Bytes of a chunk of a request. -/
def CopyReq.chunkLen (q : CopyReq) (chunk : Nat) : Nat := min 4096 (q.len - 4096 * chunk)
def CopyReq.served? (q : CopyReq) (chunk : Nat) : Nat := Assoc.getD q.served chunk 0
/-- Every chunk is written. -/
def CopyReq.allServed (q : CopyReq) : Bool :=
  (rangeFrom 0 (ceilDiv q.len 4096)).all (fun c => q.served? c == q.chunkLen c)

/-- Notes the faults of a chunk at its engine: the chunk waits on them (R368, R372). -/
def partFaults (s : State) (engine k : Nat) (q : CopyReq) (chunk : Nat) (fs : List PageFault) : State :=
  let s := setReq s engine k { q with faults := q.faults ++ fs.map (fun f => (chunk, f)) }
  setEngine s engine { engineOf s engine with
    faults := fs.foldl (fun es f => noteFault es q.ctx f Acc.cwrite.bit (gtsOf s)) (engineOf s engine).faults }

/-- The part of a chunk from its first unserved byte: its start and length on the contiguous side, up to the end of a page (R372). -/
def CopyReq.part (pg : Pages) (q : CopyReq) (chunk : Nat) : Nat × Nat :=
  let c := 4096 * chunk + q.served? chunk
  let left := q.chunkLen chunk - q.served? chunk
  let dst := min left (toPageEnd pg.dst (q.dst.start + c))
  let src (n : Nat) : Nat := min n (toPageEnd pg.src (q.src.start + c))
  match q.kind with
  | .move => (c, src dst)
  | .scatter _ _ _ => (c, src left)
  | _ => (c, dst)

/-- A request whose elements lie in any order keeps the words it has read: it reads each once (R188). -/
def CopyKind.keeps : CopyKind → Bool
  | .gather .. | .scatter .. => true
  | _ => false

/-- The place of the aligned word k of 8 bytes, in the page of a target. -/
def Target.word (t : Target) (k : Nat) : Target :=
  match t with
  | .mem obj off m =>
    .mem obj (8 * k) { m with loc := { m.loc with addr := m.loc.addr + 8 * k - off }, paddr := m.paddr + 8 * k - off }
  | .spad slot _ => .spad slot (8 * k)

/-- The aligned words that n bytes touch. -/
def wordsAt (a n : Nat) : List Nat := rangeFrom (a / 8) (if n = 0 then 0 else (a + n - 1) / 8 - a / 8 + 1)

/-- Reads those words of a source that have not been read before. -/
def fetchWords (s : State) (n : Nat) (words : Assoc (BitVec 64 × Bool)) (t : Target) : Assoc (BitVec 64 × Bool) :=
  (wordsAt t.at n).foldl (fun m k =>
    if (Assoc.get m k).isSome then m
    else
      let r := readTarget s (t.word k) 8
      Assoc.set m k (BitVec.ofNat 64 (leNat r.1), r.2)) words

/-- n bytes of a source, and whether one is poisoned: as read before, or as memory has them now. -/
def CopyReq.source (q : CopyReq) (s : State) (t : Target) (n : Nat) : List Byte × Bool :=
  if q.kind.keeps then
    let ws := (wordsAt t.at n).map (fun k => Assoc.getD q.words k (0, false))
    (((ws.flatMap (fun w => leBytes 8 w.1.toNat)).drop (t.at % 8)).take n, ws.any (·.2))
  else readTarget s t n

/-- A request that has read the source words of a part. -/
def CopyReq.reads (q : CopyReq) (s : State) (ps : List Placed2) (own : List Target) (n : Nat) : CopyReq :=
  if q.kind.keeps then
    { q with words := ps.foldl (fun m p => p.srcs.foldl (fetchWords s p.n) m) (own.foldl (fetchWords s n) q.words) }
  else q

/-- Moves the bytes of a translated part. -/
def moveRuns (q : CopyReq) (ctr : Nat) (bad : Bool) (s0 : State) (ps : List Placed2) (s : State) : State :=
  ps.foldl (fun s p =>
    let got := p.srcs.map (fun t => q.source s0 t p.n)
    writeTarget s q p.dst (q.blur ctr p.dst.at (q.value p.n (got.map (·.1)))) (bad || got.any (·.2))) s

/-- The first address outside memory among failed translations. -/
def Xl.gone : Xl → Option Nat
  | .noAddr a => some a
  | _ => none

/-- Two faults of one kind on one page. -/
def PageFault.same (f g : PageFault) : Bool := f.kind == g.kind && f.obj == g.obj && f.page == g.page

def distinctFaults : List PageFault → List PageFault
  | [] => []
  | f :: fs => f :: (distinctFaults fs).filter (fun g => !f.same g)

/-- The faults of a part's translation, one of each kind and page (R368). -/
def faultsOf (es : List Xl) : List PageFault := distinctFaults (es.filterMap Xl.asFault)

/-- Serves the next part of a plain chunk: both sides translate before a byte moves (R372). Its writes follow every commit that has been
applied at their channel (R188, log 101). -/
def servePart (s : State) (engine k : Nat) (q : CopyReq) (chunk : Nat) : Out :=
  let pg := q.pages s
  let (c, n) := q.part pg chunk
  let own := match q.kind with | .scatter _ _ _ => [q.src.start + c] | _ => []
  match targets q .read q.src own s with
  | (s, ownT, e0) =>
    match placeSegs q (q.segs pg c n) s with
    | (s, ps, e1) =>
      match (e0 ++ e1).findSome? Xl.gone with
      | some a => .fault (.noSuchAddress a)
      | none =>
        if faultsOf (e0 ++ e1) ≠ [] then .next (partFaults s engine k q chunk (faultsOf (e0 ++ e1)))
        else if refreshing s ps || heldUp s ps then .next s
        else
          let q := q.reads s ps ownT n
          let bad := ps.any (fun p => p.srcs.any (fun t => (q.source s t p.n).2)) || ownT.any (fun t => (q.source s t n).2)
          let fail := if peerGone s ps then noteFail q.fail chunk codePeer else q.fail
          let fail := if bad then noteFail fail chunk codePoison else fail
          let fail := if q.skips c n then noteFail fail chunk codeBound else fail
          .next (setReq (moveRuns q s.freeCtr bad s ps s) engine k
            { q with fail := fail, served := Assoc.set q.served chunk (q.served? chunk + n) })

/-! ### Checked copies (R401) -/

/-- The plaintext of a 64 KiB chunk, line by line. -/
def openChunk (key : BitVec 512) (chunk : Nat) (ct : List Byte) : List Byte :=
  (rangeFrom 0 1024).flatMap (fun j =>
    leBytes 64 (Config.xtsDecrypt key (BitVec.ofNat 128 (chunk * 1024 + j))
      (BitVec.ofNat 512 (leNat ((ct.drop (64 * j)).take 64)))).toNat)

/-- What the tag of a chunk covers: IMAGEID, the chunk number and the ciphertext. -/
def tagBytes (imageId : BitVec 64) (chunk : Nat) (ct : List Byte) : List Byte :=
  leBytes 8 imageId.toNat ++ leBytes 8 chunk ++ ct

/-- Marks a 64 KiB chunk of a request served. -/
def CopyReq.serve64 (q : CopyReq) (chunk : Nat) : CopyReq :=
  { q with served := (rangeFrom chunk 16).foldl (fun m c => Assoc.set m c 4096) q.served }

/-- CHECKED_COPY_CHUNK: verifies the tag of a chunk of 64 KiB and decrypts it into the destination. -/
def serveSealed (s : State) (engine k : Nat) (q : CopyReq) (chunk : Nat) (e : StorageEntry) : Out :=
  match q.dst with
  | .spad _ _ => .next s
  | .obj dobj doff =>
    let c := (q.src.start - e.dataOff) / 65536 + chunk / 16
    match readWaiting s q.ctx q.launch .read e.obj (e.dataOff + 65536 * c) 65536 with
    | (s, .error x) => sealedFault s x
    | (s, .ok (ct, bad1)) =>
      match readWaiting s q.ctx q.launch .read e.obj (e.tagOff + 16 * c) 16 with
      | (s, .error x) => sealedFault s x
      | (s, .ok (tag, bad2)) =>
        match translateRange s q.ctx q.launch dobj .cwrite (doff + 4096 * chunk) 65536 with
        | (s, .error x) => sealedFault s x
        | (s, .ok ps) =>
          if ps.any (fun p => pageLocked s p.m) then .next s else
          let q' := q.serve64 chunk
          let gone := ps.any (fun p => s.fabric.failedPeers.has p.m.home)
          if gone then .next (setReq s engine k { q' with fail := noteFail q.fail chunk codePeer })
          else if bad1 || bad2 then
            .next (setReq (ps.foldl (fun s p => poisonDram s p.m.loc.addr p.len) s) engine k
              { q' with fail := noteFail q.fail chunk codePoison })
          else if leNat tag ≠ (Config.hmacTag (keyOf s e.mkey) (tagBytes e.imageId c ct)).toNat then
            .next (setReq s engine k { q' with fail := noteFail q.fail chunk codeInteg })
          else .next (setReq (writePieces q.ctx dobj ps (openChunk (keyOf s e.skey) c ct) s) engine k q')
where
  sealedFault (s : State) (x : Xl) : Out :=
    match x with
    | .fault f => .next (partFaults s engine k q chunk [f])
    | .noAddr a => .fault (.noSuchAddress a)
    | _ => .next s

/-- The storage window entry of a checked request. -/
def entryOf (s : State) (q : CopyReq) : Option StorageEntry :=
  match q.sealed, ctxOf s q.ctx with
  | some k, some c => Assoc.get c.storage k
  | _, _ => none

/-- A packet with ORD starts only after every earlier packet of its queue has completed (Table 19.2). -/
def inOrder (s : State) (engine : Nat) (q : CopyReq) : Bool :=
  match q.packet with
  | none => true
  | some p => !p.ord || (engineOf s engine).reqs.all (fun r => match r.packet with
    | some e => e.queue != p.queue || decide (p.no ≤ e.no)
    | none => true)

/-- COPY_CHUNK_PART (R394): an active request's chunk, unless it waits on a fault. `req` is its place at the engine. -/
def execCopyChunkPart (engine req chunk : Nat) (s : State) : Out :=
  match (engineOf s engine).reqs[req]? with
  | none => .next s
  | some q =>
    if !activeAt s engine q.id ∨ q.len ≤ 4096 * chunk ∨ q.served? chunk = q.chunkLen chunk
        ∨ q.faults.any (fun f => f.1 == chunk) ∨ !inOrder s engine q then .next s
    else
      match q.sealed with
      | none => servePart s engine req q chunk
      | some _ =>
        match entryOf s q with
        | some e => if chunk % 16 = 0 then serveSealed s engine req q chunk e else .next s
        | none => .next (setReq s engine req { q with len := 0, fail := some (0, codeInteg) })

/-! ### The end of a copy -/

/-- L1 copies of the destination range leave the issuing core (R317). -/
def dropDest (s : State) (core : Nat) (q : CopyReq) : State :=
  match q.dst with
  | .spad _ _ => s
  | .obj o off =>
    match q.kind with
    | .scatter es idx _ => idx.foldl (fun s i => l1DropRange s core q.ctx o (off + i * es) es) s
    | _ => l1DropRange s core q.ctx o off q.len

/-- A ring copy may publish: its ticket is next (R189). -/
def ringNext (s : State) (q : CopyReq) : Bool :=
  match q.ring, q.token with
  | some (a, t), some (tid, _) =>
    (match blockOf s tid.slot with
    | some b => (readRing b a).pub == t
    | none => true)
  | _, _ => true

/-- Publishes the slot of a ring copy (R189, R192). -/
def publishRing (s : State) (q : CopyReq) : State :=
  match q.ring, q.token with
  | some (a, _), some (tid, _) =>
    modBlock s tid.slot (fun b =>
      let r := readRing b a
      { writeRing b a { r with pub := r.pub + 1, outc := r.outc - 1 } with
        order := b.order.publish a r.pub [(agentOf q.id, 1)] })
  | _, _ => s

/-- The home of a request's destination has failed. -/
def CopyReq.lost (s : State) (q : CopyReq) : Bool :=
  match q.dst with
  | .obj o _ => q.len != 0 && (objEntry s q.ctx o).any (fun oe => s.fabric.failedPeers.has (objHome oe))
  | .spad _ _ => false

/-- The status word of a request that ends: one whose destination's home has failed ends with TPEER (R395). -/
def CopyReq.endStatus (s : State) (q : CopyReq) : Word :=
  if q.lost s then { q with fail := noteFail q.fail 0 codePeer }.status else q.status

/-- COPY_COMPLETE (R26, R187): the last part is written; the token's status lands. -/
def execCopyComplete (engine req : Nat) (s : State) : Out :=
  match (engineOf s engine).reqs[req]? with
  | none => .next s
  | some q =>
    if !q.allServed || q.packet.isSome || !ringNext s q then .next s
    else
      let s := setEngine s engine { engineOf s engine with reqs := (engineOf s engine).reqs.eraseIdx req }
      let s := publishRing s q
      match q.token with
      | none => .next s
      | some (tid, _) =>
        let s := match blockOf s tid.slot with
          | some b => dropDest s (coreIdOf b tid) q
          | none => s
        .next (settleSpoil (modThread s tid (fun t => landToken s.cycle t (.copy q.id) (q.endStatus s))) tid)

end Sys2Proof.Machine
end

