-- ==== Sys2Proof/Machine/Prd.lean ====
section
/-! DEFINITION. The PRD class (R95 to R98): compares, predicate functions, moves and special registers (R22 to R25). -/

namespace Sys2Proof.Machine

open Sys2Proof

/-! ### Compares (R96) -/

/-- CMP on an ordering −1, 0 or 1. -/
def cmpHolds (c : Cmp) (o : Int) : Bool :=
  match c with
  | .eq => o == 0
  | .ne => o != 0
  | .lt => decide (o < 0)
  | .le => decide (o ≤ 0)
  | .gt => decide (0 < o)
  | .ge => decide (0 ≤ o)

/-- The ordering of two integers. -/
def ordInt (a b : Int) : Int := if a < b then -1 else if b < a then 1 else 0

/-- COMB with pC. -/
def combine (s : State) (t : Thread) (k : Comb) (v : Bool) : Bool :=
  match k with
  | .none => v
  | .andP c => v && rdP s t c
  | .orP c => v || rdP s t c
  | .xorP c => v != rdP s t c

/-- A float compare: truth and flags (R96). -/
def floatCmp (f : FF) (ftz nan : Bool) (c : Cmp) (a b : Nat) : Bool × Flags :=
  let x := prep f ftz false false a
  let y := prep f ftz false false b
  (if x.isNaN || y.isNaN then nan else cmpHolds c (cmpNum x y), ivIf (f.signalling a || f.signalling b))

/-- The end of a compare: pD, and flags unless NF. -/
def cmpEnd (h : Hdr) (s : State) (x : Cx) (k : Comb) (d : PReg) (r : Bool × Flags) : Out :=
  goOn h s x (addFlags s.cycle h (wrP s.cycle x.thr d (combine s x.thr k r.1) 2) r.2 2)

def execCmpi (h : Hdr) (ns : Bool) (cmp : Cmp) (comb : Comb) (d : PReg) (a b : Src) (s : State) : Out :=
  guarded h s fun x =>
    let t := cmpHolds cmp (ordInt (intOf ns (src32 s x.thr a)) (intOf ns (src32 s x.thr b)))
    goOn h s x (wrP s.cycle x.thr d (combine s x.thr comb t) 2)

def execCmpf (h : Hdr) (ftz nan : Bool) (cmp : Cmp) (comb : Comb) (d : PReg) (a b : Src) (s : State) : Out :=
  guarded h s fun x =>
    cmpEnd h s x comb d (floatCmp fp32 ftz nan cmp (src32 s x.thr a).toNat (src32 s x.thr b).toNat)

def execCmpd (h : Hdr) (ftz nan : Bool) (cmp : Cmp) (comb : Comb) (d : PReg) (a b : Src) (s : State) : Out :=
  guarded h s fun x =>
    cmpEnd h s x comb d (floatCmp fp64 ftz nan cmp (srcF64 s x.thr a).toNat (srcF64 s x.thr b).toNat)

def execCmph (h : Hdr) (ftz nan : Bool) (cmp : Cmp) (comb : Comb) (d : PReg) (a b : Src) (s : State) : Out :=
  guarded h s fun x =>
    cmpEnd h s x comb d (floatCmp fp16 ftz nan cmp (src16 s x.thr a).toNat (src16 s x.thr b).toNat)

/-! ### Predicate functions and moves (R97, R98) -/

/-- Bit 4·pA + 2·pB + pC of the table (R97). -/
def execPfun (h : Hdr) (d a b c : PReg) (table : BitVec 8) (s : State) : Out :=
  guarded h s fun x =>
    let n := 4 * (rdP s x.thr a).toNat + 2 * (rdP s x.thr b).toNat + (rdP s x.thr c).toNat
    goOn h s x (wrP s.cycle x.thr d (table.getLsbD n) 2)

def execSel (h : Hdr) (d : VReg) (a b : Src) (c : PReg) (s : State) : Out :=
  intOp h d s fun t => if rdP s t c then src32 s t a else src32 s t b

/-- Operations on one q register that a thread signed and that have not completed (R18). -/
def signedOn (b : Block) (tid : ThreadId) (q : QReg) : Bool :=
  (((b.wave (waveIx tid)).q[q.toNat]'(qreg_lt q)).ops).any (fun o => o.mask.getLsbD (laneOf tid))

/-- The status word of a q register of the thread's wave (Table 1.2). -/
def qStatus (b : Block) (tid : ThreadId) (q : QReg) : Word := ((b.wave (waveIx tid)).q[q.toNat]'(qreg_lt q)).status

/-- MOV; from a q register after the wait of R18, its result scoreboarded. -/
def execMov (h : Hdr) (d : VReg) (a : MovSrc) (s : State) : Out :=
  match a with
  | .src a => intOp h d s fun t => src32 s t a
  | .q r =>
    guarded h s fun x =>
      if signedOn x.blk x.tid r then waitAt s x (.stalled (.stream r))
      else goOnPend h s x x.thr (pendVals [(d, qStatus x.blk x.tid r, false)])

def execMovi (h : Hdr) (d : VReg) (x : Word) (s : State) : Out := intOp h d s fun _ => x

/-- p7 … p0 in [7:0], p7 reading 1. -/
def predByte (s : State) (t : Thread) : Word :=
  (rangeFrom 0 8).foldl (fun w i => setBit w i (rdP s t (BitVec.ofNat 3 i))) 0

def execPtov (h : Hdr) (d : VReg) (s : State) : Out := intOp h d s fun t => predByte s t

/-- VTOP: each pi with B[i] = 1 takes A[i]. -/
def execVtop (h : Hdr) (a b : Src) (s : State) : Out :=
  guarded h s fun x =>
    let va := src32 s x.thr a
    let vb := src32 s x.thr b
    goOn h s x ((rangeFrom 0 7).foldl (fun t i =>
      if vb.getLsbD i then wrP s.cycle t (BitVec.ofNat 3 i) (va.getLsbD i) 2 else t) x.thr)

/-! ### Special registers (Table 1.5) -/

/-- The core cycle counter (R23). -/
def clkOf (s : State) (core : Nat) : BitVec 64 := BitVec.ofNat 64 s.cycle + (coreOf s core).clkOff

/-- REFWIN (R378): 4 × the ns until the next window of the core's own die, 0 during one. -/
def refwin (s : State) (die : Nat) : Word :=
  let r := ((gtsOf s).toNat + 32000 * 4 - 8000 * die) % 32000
  if r < 256 then 0 else BitVec.ofNat 32 (4 * (32000 - r))

/-- OVST (Table 1.5, R269). -/
def ovst (s : State) (core ctx : Nat) : Word :=
  let c := coreOf s core
  let mine := c.resid
  let n (st : RState) : Nat := (mine.filter (fun r => r.state == st)).length
  let free := (64 * istoreQuota s ctx core - c.charge ctx false) / 64
  BitVec.ofNat 8 free ++ BitVec.ofNat 8 (n .draining) ++ BitVec.ofNat 8 (n .loading) ++ 0#1 ++ BitVec.ofNat 7 (n .resident)

/-- Registers read with latency 2: their value. -/
def specialWord (s : State) (x : Cx) (n : Nat) : Word :=
  let w := x.blk.wave (waveIx x.tid)
  match n with
  | 0x00 => BitVec.ofNat 32 x.tid.tidx
  | 0x01 => BitVec.ofNat 32 (waveIx x.tid)
  | 0x02 => BitVec.ofNat 32 (laneOf x.tid)
  | 0x03 => BitVec.ofNat 32 x.blk.coord.1
  | 0x04 => BitVec.ofNat 32 x.blk.coord.2.1
  | 0x05 => BitVec.ofNat 32 x.blk.coord.2.2
  | 0x06 => BitVec.ofNat 32 x.blk.grid.1
  | 0x07 => BitVec.ofNat 32 x.blk.grid.2.1
  | 0x08 => BitVec.ofNat 32 x.blk.grid.2.2
  | 0x09 => w.flockw
  | 0x0A => BitVec.ofNat 32 w.core
  | 0x0B => BitVec.ofNat 32 x.blk.cluster
  | 0x0C => BitVec.ofNat 32 (x.blk.cluster / Config.clustersPerDie)
  | 0x0D => s.device.setWidth 32
  | 0x18 => (match ctxOf s x.blk.ctx with | some c => c.stepReg | none => 0)
  | 0x1A => x.thr.rpaddr
  | 0x1C => if detOf s x.blk then 1 else 0
  | 0x1D => if chkOf s x.blk then 1 else 0
  | 0x30 => ovst s x.coreId x.blk.ctx
  | n => if 0x20 ≤ n ∧ n < 0x30 then rdSgen s x.thr (n - 0x20) else 0

/-- SRD (R22, R98): FPX waits for earlier updates, and its poison travels (R421); the clocks and REFWIN are scoreboarded and set their latches. -/
def execSrd (h : Hdr) (d : VReg) (idx : BitVec 8) (s : State) : Out :=
  guarded h s fun x =>
    let send (t : Thread) (w : Word) (bad : Bool := false) : Out := goOnPend h s x t (pendVals [(d, w, bad)])
    let clk := clkOf s x.coreId
    let gts := gtsOf s
    match idx.toNat with
    | 0x10 => send { x.thr with clkh := clk.extractLsb' 32 32 } (clk.extractLsb' 0 32)
    | 0x11 => send x.thr x.thr.view.clkh
    | 0x12 => send { x.thr with gtsh := gts.extractLsb' 32 32 } (gts.extractLsb' 0 32)
    | 0x13 => send x.thr x.thr.view.gtsh
    | 0x1B => send x.thr (refwin s (x.blk.cluster / Config.clustersPerDie))
    | 0x19 => if fpxBusy s.cycle x.thr then waitAt s x (.stalled .fpx) else send x.thr (x.thr.fpx.setWidth 32) x.thr.poisonF
    | n => goOn h s x (wrV s.cycle x.thr d (specialWord s x n) 2)

/-- Bits of an SGEN word that SWR writes (Table 1.4). -/
def sgenMask (w : Nat) : Word := if w = 2 then 0x00FFFFFF else if w = 3 then 0x1F else 0xFFFFFFFF

/-- SWR (R22, R98): a word of a scale generator has the integer latency. -/
def execSwr (h : Hdr) (idx : BitVec 8) (a : RC) (s : State) : Out :=
  guarded h s fun x =>
    let v := rc32 s x.thr a
    if idx = 0x19 then
      if fpxBusy s.cycle x.thr then waitAt s x (.stalled .fpx) else goOn h s x (writeFpx s.cycle x.thr v)
    else
      let k := idx.toNat - 0x20
      goOn h s x { x.thr with
        sgen := if hk : k < 16 then x.thr.sgen.set k (v &&& sgenMask (k % 4)) hk else x.thr.sgen
        lat := landAt x.thr.lat (sgenByte k) (s.cycle + 2) }

end Sys2Proof.Machine
end

