-- ==== Sys2Proof/Machine/Fetch.lean ====
section
/-! DEFINITION. Fetch lines (R61 to R63), issue groups (R79), the scoreboard (R84), whether a thread may issue, and
which threads are ready (R234). -/

namespace Sys2Proof.Machine

open Sys2Proof

/-! ### Fetch lines (R61 to R63) -/

/-- Slot i of a line. -/
def lineSlot (l : Line) (i : Nat) : IWord := l.extractLsb' (96 * i) 96
/-- The line word. -/
def lineWord (l : Line) : Word := l.extractLsb' 480 32

/-- The number of ones is odd. -/
def oddOnes {n : Nat} (x : BitVec n) : Bool := (rangeFrom 0 n).foldl (fun a i => a != x.getLsbD i) false

/-- LPAR holds. -/
def lparOk (l : Line) : Bool := oddOnes (lineWord l)
/-- The PAR bit of slot i holds. -/
def parOk (l : Line) (i : Nat) : Bool := oddOnes (lineSlot l i) != (lineWord l).getLsbD (9 + i)
/-- TPL bit j: slots j and j + 1 are linked. -/
def tpl (l : Line) (j : Nat) : Bool := decide (j < 4) && (lineWord l).getLsbD (5 + j)
/-- TGT bit i. -/
def tgt (l : Line) (i : Nat) : Bool := decide (i < 5) && (lineWord l).getLsbD i

/-- The last slot of the group that slot j is in. -/
def groupEnd (l : Line) : Nat → Nat → Nat
  | 0, j => j
  | n + 1, j => if tpl l j then groupEnd l n (j + 1) else j

/-- Slots from j to the end of its group. -/
def groupFrom (l : Line) (j : Nat) : List Nat := rangeFrom j (groupEnd l 4 j - j + 1)

def opOf (w : IWord) : BitVec 12 := w.extractLsb' 0 12

/-- The limits of R79 on one group. -/
def groupLegal (l : Line) (js : List Nat) : Bool :=
  let count (p : Pipe) : Nat := (js.filter (fun j => pipeOf (opOf (lineSlot l j)) == some p)).length
  let early := js.dropLast
  decide (js.length ≤ 3) && decide (count .a ≤ 2) && decide (count .m ≤ 1) && decide (count .x ≤ 1)
    && early.all (fun j => !isTransfer (opOf (lineSlot l j)) && (lineSlot l j).extractLsb' 12 4 == 0#4)

/-- TPL describes legal groups throughout the line (R79). -/
def tplLegal (l : Line) : Bool :=
  (rangeFrom 0 5).all (fun j => (decide (0 < j) && tpl l (j - 1)) || groupLegal l (groupFrom l j))

/-- LINE_CHECK (R63) at a slot: the cause of the first failure. -/
def lineCheck (l : Line) (i : Nat) : Option (BitVec 8) :=
  if !lparOk l then some causeIpar
  else if (lineWord l).extractLsb' 15 17 ≠ 0#17 then some causeIllop
  else if !tplLegal l then some causeIllop
  else if !parOk l i then some causeIpar
  else none

/-! ### The scoreboard (R26, R84) -/

/-- The pending token of a specifier. -/
def tokenSpec (t : Thread) (spec : BitVec 8) : Option VReg :=
  match t.tokens.find? (fun k => vByte k.reg == spec) with
  | some k => some k.reg
  | none => none

/-- A register awaits a variable-latency result. -/
def pendSpec (t : Thread) (spec : BitVec 8) : Bool :=
  t.pend.any (fun p => p.vals.any (fun x => vByte x.1 == spec) ||
    (match p.cap with | some (r, _) => aByte r == spec | none => false))

/-- A wait on a pending token. -/
def TStatus.onToken : TStatus → Bool
  | .waiting (.token _) => true
  | _ => false

/-- What a slot waits for on the scoreboard before its group may issue: its reads, its destinations, which keep issue order,
a q register with signed operations of the thread outstanding, and FPX (R18, R21, R26, R84). In the middle of a group its
sources have been read (R80), and in BARW after its arrival it reads nothing more (R198). -/
def scoreWait (s : State) (b : Block) (tid : ThreadId) (t : Thread) (w : IWord) : Option TStatus :=
  match decode w with
  | .bad _ => none
  | .ok i =>
    let on := guardOf s t (hdrOf w)
    let reads := if t.snap.isSome then [] else if on then i.reads else maskSpecs i
    let writes := if on then i.writes ++ i.sgenWrites else []
    if t.arrival.isSome then none
    else
      match (reads ++ writes).findSome? (tokenSpec t) with
      | some r => some (.waiting (.token r))
      | none =>
        match (reads ++ writes).find? (pendSpec t), writes.find? (fun x => t.snap.isNone && t.lat.any (fun y => y.1 == x && decide (s.cycle < y.2))) with
        | some x, _ => some (.stalled (.scoreboard x))
        | none, some x => some (.stalled (.scoreboard x))
        | none, none =>
          match (if on then i.qRead else none) with
          | some q => if signedOn b tid q then some (.stalled (.stream q)) else none
          | none => if on && i.usesFpx && fpxBusy s.cycle t then some (.stalled .fpx) else none

/-! ### Who may issue -/

/-- A thread's next group may issue as far as its block, launch, context and stall count go (R83, R234, R253, R390, R438); in
a drain, only that of a thread that runs on (R381). -/
def running (s : State) (b : Block) (t : Thread) : Bool :=
  (match b.phase with | .running => true | .draining _ _ => t.runFrom.isSome | _ => false)
    && launchFlag s b (fun l => l.fatal.isNone && !l.replayWant)
    && (match ctxOf s b.ctx with | some c => !c.killed | none => false)
    && s.service.power.tripped.isNone
    && decide (t.nextIssue ≤ s.cycle)

/-- Whether a thread may come to its next group now. -/
def mayIssue (s : State) (b : Block) (t : Thread) : Bool :=
  running s b t && (match t.status with | .ready => true | .stalled _ => true | .waiting _ => true | _ => false)

/-! ### Ready threads (Table 8.1) -/

/-- The fetch line a thread is at, its base line with it; none where its overlay is not in the store or the slot is
not one of it. -/
def lineAt (s : State) (b : Block) (tid : ThreadId) (t : Thread) : Option (Nat × Line) :=
  match lenOf s (coreIdOf b tid) b.ctx t.top with
  | none => none
  | some r =>
    if r.len ≤ t.pc.toNat / 8 ∨ 4 < (t.pc.extractLsb' 0 3).toNat then none
    else some (r.base, Assoc.getD (coreOf s (coreIdOf b tid)).lines (r.base + t.pc.toNat / 8) 0)

/-- Slots of the group a thread is at, from its slot on. -/
def groupAt (t : Thread) (l : Line) : List Nat := groupFrom l (t.pc.extractLsb' 0 3).toNat

/-- What the group a thread is at waits for on the scoreboard: a token of any slot before anything else, since a thread that waits
on one is waiting (R26). -/
def groupWait (s : State) (b : Block) (tid : ThreadId) (t : Thread) (l : Line) : Option TStatus :=
  if (lineCheck l (t.pc.extractLsb' 0 3).toNat).isSome then none
  else
    let ws := (groupAt t l).filterMap (fun j => scoreWait s b tid t (lineSlot l j))
    match ws.find? TStatus.onToken with
    | some w => some w
    | none => ws.head?

/-- What a thread's next group waits for on the scoreboard; a slot that cannot be fetched traps at once. -/
def boardWait (s : State) (b : Block) (tid : ThreadId) (t : Thread) : Option TStatus :=
  match lineAt s b tid t with
  | none => none
  | some (_, l) => groupWait s b tid t l

/-- The condition of a waiting thread holds (R192, R195, R118, R216). One that waits on a draining overlay is tried again when the
overlay has left the store or has been named again (R115). -/
def waitOver (s : State) (b : Block) (tid : ThreadId) (t : Thread) : WaitOn → Bool
  | .bar a target => (readBarrier b a).reached target
  | .barw a target => (readBarrier b a).reached target
  | .rres a => (readRing b a).hasRoom
  | .rwait a => let r := readRing b a; r.con != r.pub
  | .rpub a k => (readRing b a).pub == k
  | .rrel a k => (readRing b a).rel == k
  | .ringCopy a => (readRing b a).hasRoom
  | .token _ => true
  | .twait n => decide (t.tokens.length ≤ n)
  | .mwait q => !signedOn b tid q
  | .overlay id =>
    let core := coreIdOf b tid
    match (coreOf s core).find (ovKey s core b.ctx id) with
    | none => !(coreOf s core).loads.any (fun l => l.key == ovKey s core b.ctx id)
    | some r => r.state == .resident || (r.state == .draining && t.stack.contains id)
  | .commit => true

/-- The cause of a stall has cleared. A staging stall ends by its own event (R299). -/
def stallOver (s : State) (b : Block) (tid : ThreadId) (t : Thread) : StallOn → Bool
  | .scoreboard _ | .fpx => true
  | .tokenLimit => decide (t.tokens.length < Config.maxTokens)
  | .stream q => !signedOn b tid q
  | .staging .. => false
  | .records => decide (threadRecs s tid < Config.maxThreadRecords)
  | .migrating obj page c =>
    !pageMigrating s b.ctx obj page
      && s.migrations.all (fun g => g.ctx != b.ctx || g.obj != obj || g.off != page || g.lets s tid (.stalled (.migrating obj page c)))
  | .refresh die => !inRefresh s die
  | .exiting => allDone b tid t

/-- A thread is ready (Table 8.1): it may come to its next group, nothing it waited for is outstanding, and no scoreboarded
operand or destination of the group is pending. -/
def isReady (s : State) (b : Block) (tid : ThreadId) (t : Thread) : Bool :=
  mayIssue s b t && (boardWait s b tid t).isNone && (match t.status with
    | .ready => true
    | .stalled w => stallOver s b tid t w
    | .waiting w => waitOver s b tid t w
    | _ => false)

/-! ### Restart points and instances of a group -/

/-- The slot a thread is at carries the restart bit. The bits of the context's trap-handler overlay are ignored (R242). -/
def restartBit (s : State) (b : Block) (tid : ThreadId) (t : Thread) (base : Nat) : Bool :=
  (match ctxOf s b.ctx with | some c => c.params.handler != some t.top | none => true)
    && (coreOf s (coreIdOf b tid)).restart.has (8 * (base + t.pc.toNat / 8) + (t.pc.extractLsb' 0 3).toNat)

/-- The thread's group begins at a restart point that it passes: not in its handler, and not in the middle of a group that has
issued in part (R242, log 21). -/
def atRestart (s : State) (b : Block) (tid : ThreadId) (t : Thread) (base : Nat) : Bool :=
  t.trap.isNone && t.snap.isNone && restartBit s b tid t base

/-! ### Conditions of one slot (Table 3.13) -/

/-- An ILLOP on a slot: ARG0 and ARG1 are bits [63:0] of the word (Table 4.13). -/
def illopTrap (pc : Word) (w : IWord) (sub : BitVec 8) : Trap :=
  ⟨causeIllop, sub, pc, w.extractLsb' 0 32, w.extractLsb' 32 32⟩

/-- Rows 1 to 9 of Table 3.13 at a slot: a trap, or the instruction. Of an instruction that issues as an instance, row 9 is here its
lane mask, and the rest is tested when the instance issues (R238); BARW after its arrival reads nothing more (R198). -/
def slotOutcome (s : State) (t : Thread) (chk : Bool) (badQ : BitVec 16) (poisoned : Bool) (restartLate : Bool) (l : Line) (i : Nat) :
    Except Trap Instr :=
  let w := lineSlot l i
  let pc := t.pcWord
  if poisoned then .error ⟨causePoison, 1, pc, t.pc.extractLsb' 3 13 |>.setWidth 32, 0⟩
  else
    match lineCheck l i with
    | some c =>
      if c = causeIpar then .error ⟨c, 0, pc, (t.pc.extractLsb' 3 13).setWidth 32, 0⟩ else .error (illopTrap pc w 0)
    | none =>
      if restartLate then .error (illopTrap pc w 0)
      else
        match decode w with
        | .bad _ => .error (illopTrap pc w 0)
        | .ok (.udf raw) => .ok (.udf raw)
        | .ok x =>
          match (if t.arrival.isSome then none
              else if x.isCollective then arriveTrap s t chk (hdrOf w) x else firstTrap (qTrap s t badQ (hdrOf w) x) (registerTrap s t chk (hdrOf w) x)) with
          | some r => .error r
          | none => .ok x

/-- The conditions of slot j of the line a thread is at, for the thread standing there. -/
def outcomeAt (s : State) (b : Block) (tid : ThreadId) (t : Thread) (base : Nat) (l : Line) (late : Bool) (j : Nat) :
    Except Trap Instr :=
  slotOutcome s t (launchFlag s b Launch.chk) (b.wave (waveIx tid)).poisonQ ((coreOf s (coreIdOf b tid)).slotPoison.has (8 * (base + t.pc.toNat / 8) + j))
    (late && restartBit s b tid t base) l j

/-- The first instruction of a thread's group that issues as an instance, with its slot (R238). -/
def instanceSlot (t : Thread) (l : Line) : Option (Nat × Instr) :=
  (groupAt t l).findSome? (fun j => match decode (lineSlot l j) with
    | .ok i => if i.isCollective then some (j, i) else none
    | .bad _ => none)

end Sys2Proof.Machine
end

