-- ==== Sys2Proof/Machine/Ovl.lean ====
section
/-! DEFINITION. Overlay loads: their end (R115, R120, R266, R271), the wait for room (R268), and threads parked until
the overlays they resume in are resident (R249, R273, R440). -/

namespace Sys2Proof.Machine

open Sys2Proof

/-! ### What a load reads (R271) -/

/-- Bytes of a restart table's header and index. -/
def restartBytes (count : Nat) : Nat := 8 + 4 * count

/-- A restart entry from its words (Table 8.3). -/
def entryOfWords (ws : List Word) : RestartEntry :=
  let w (i : Nat) : Word := ws.getD i 0
  let ns := ((w 0).extractLsb' 16 4).toNat
  let nt := ((w 0).extractLsb' 20 4).toNat
  { slot := (w 0).extractLsb' 0 15
    vlive := w 2 ++ w 1
    qlive := (w 3).extractLsb' 16 16
    plive := (w 3).extractLsb' 8 7
    alive := (w 3).extractLsb' 0 8
    spad := (rangeFrom 0 ns).map (fun k =>
      (((w (4 + 2 * k)).extractLsb' 0 24).toNat, ((w (5 + 2 * k)).extractLsb' 0 24).toNat))
    tiles := (rangeFrom 0 nt).map (fun k =>
      (((w (4 + 2 * ns + k)).extractLsb' 0 7).toNat, ((w (4 + 2 * ns + k)).extractLsb' 8 8).toNat)) }

/-- Bytes of an entry whose word 0 is w. -/
def entryBytes (w : Word) : Nat := 16 + 8 * (w.extractLsb' 16 4).toNat + 4 * (w.extractLsb' 20 4).toNat

/-- What the source of a load gives: its lines and its restart table, a failure code, a page fault, or nothing while a die of the
weight store is in its refresh window (R378). -/
inductive Source where
  | lines (bs : List Byte) (table : List RestartEntry)
  | failed (code : BitVec 8)
  | waits (f : PageFault)
  | later
  | noAddr (paddr : Nat)

def Xl.asSource : Xl → Source
  | .fault f => .waits f
  | .noAddr a => .noAddr a
  | _ => .failed codeBound

/-- A load reads n bytes of its object. -/
def readLoad (s : State) (l : OvLoad) (off n : Nat) : State × Except Source (List Byte × Bool) :=
  match translateRange s l.ctx (some l.launch) l.src.obj .oload off n with
  | (s, .error x) => (s, .error x.asSource)
  | (s, .ok ps) => if ps.any (fun p => refreshes s p.m) then (s, .error .later) else (s, .ok (readPieces s ps))

/-- Reads the entries of a restart table at the offsets its index gives, and whether one is poisoned (Tables 8.2, 8.3). -/
def readTable (l : OvLoad) (rt0 : Nat) : List Nat → State → State × Except Source (List RestartEntry × Bool)
  | [], s => (s, .ok ([], false))
  | o :: os, s =>
    match readLoad s l (rt0 + 8 * o) 4 with
    | (s, .error x) => (s, .error x)
    | (s, .ok (w, bad1)) =>
      match readLoad s l (rt0 + 8 * o) (entryBytes (BitVec.ofNat 32 (leNat w))) with
      | (s, .error x) => (s, .error x)
      | (s, .ok (bs, bad2)) =>
        match readTable l rt0 os s with
        | (s, .error x) => (s, .error x)
        | (s, .ok (es, bad3)) => (s, .ok (entryOfWords (bytesWords bs) :: es, bad1 || bad2 || bad3))

/-- Reads the lines once, and the restart table once. A poisoned line ends the load with TPOISON, as a poisoned restart
table does (log 42); a public overlay whose hash differs ends with THASH (R270). -/
def loadSource (s : State) (l : OvLoad) : State × Source :=
  let at0 := l.src.cursor
  let rt0 := at0 + l.rtoff
  match readLoad s l at0 (64 * l.len) with
  | (s, .error x) => (s, x)
  | (s, .ok (bs, bad)) =>
    match readLoad s l rt0 8 with
    | (s, .error x) => (s, x)
    | (s, .ok (hd, bad1)) =>
      let count := fieldAt hd 0 2
      match readLoad s l rt0 (restartBytes count) with
      | (s, .error x) => (s, x)
      | (s, .ok (ix, bad2)) =>
        match readTable l rt0 ((rangeFrom 0 count).map (fun k => fieldAt ix (10 + 4 * k) 2)) s with
        | (s, .error x) => (s, x)
        | (s, .ok (table, bad3)) =>
          if bad || bad1 || bad2 || bad3 then (s, .failed codePoison)
          else
            match l.key with
            | .pub h => if Config.sha256 bs = h then (s, .lines bs (table)) else (s, .failed codeHash)
            | .priv _ _ => (s, .lines bs (table))

/-- The lines of 64 bytes. -/
def linesOf (bs : List Byte) : Nat → List Line
  | 0 => []
  | n + 1 => BitVec.ofNat 512 (leNat (bs.take 64)) :: linesOf (bs.drop 64) n

/-- Writes lines into the store from a base line. -/
def fillLines (c : Core) (base : Nat) : List Line → Core
  | [] => c
  | l :: ls => fillLines { c with lines := Assoc.set c.lines base l } (base + 1) ls

/-- The lines and restart bits are in the store and the overlay is resident. -/
def Core.fill (now : BitVec 32) (c : Core) (key : RKey) (base : Nat) (ls : List Line) (table : List RestartEntry) : Core :=
  let c := fillLines c base ls
  let c := { c with restart := table.foldl (fun r (e : RestartEntry) => NatSet.add r (8 * base + e.slot.toNat)) c.restart }
  c.modResid key (fun r => { r with state := .resident, lru := now, table := table })

/-! ### Threads that a load releases -/

/-- The distinct overlays of a thread's current and recorded stacks. -/
def stackIds (t : Thread) : List (BitVec 8) := (t.stack ++ t.rpStack).dedup

/-- Ends a launch with a fatal OVMISS of a thread at its restart point (R273, R440). -/
def fatalOvmiss (s : State) (tid : ThreadId) (b : Block) (t : Thread) (sub id : BitVec 8) : State :=
  fatalTrap s tid b t ⟨causeOvmiss, sub, t.rpaddr, id.setWidth 32, (t.rpaddr.extractLsb' 0 15).setWidth 32⟩

/-- A thread enters its restart point under the TGT check of R64. -/
def enterRestart (s : State) (tid : ThreadId) : State :=
  match blockOf s tid.slot with
  | none => s
  | some b =>
    match b.threads[tid.tidx]? with
    | none => s
    | some t =>
      let s := setThread s tid { t with status := .ready, arrival := none, nextIssue := s.cycle + 1, sched := ⟨none, false, 0, none⟩ }
      if entryOk s (coreIdOf b tid) b.ctx t.top t.pc.toNat then s
      else takeTrap s tid ⟨causeBrtgt, 0, t.rpaddr, t.rpaddr, 0⟩

/-- A thread in a drain. -/
def draining (s : State) (tid : ThreadId) : Bool := (threadOf s tid).any (fun t => t.runFrom.isSome)

/-- A thread waits for the loads of its block's start (R440). -/
def TStatus.starting : TStatus → Bool
  | .parkedLoad (_ :: _) .start => true
  | _ => false

/-- The threads of a block start together, once the overlay of the kernel entry is resident on every core of it (R440). In
a drain they stay at their restart point (R381). -/
def startTogether (s : State) (slot : Nat) : State :=
  modBlock s slot (fun b =>
    if b.threads.any (fun t => t.status.starting) then b
    else { b with threads := b.threads.map (fun t =>
      if t.status = .parkedLoad [] .start then
        { t with status := if t.runFrom.isSome then .drained else .ready, nextIssue := s.cycle + 1 }
      else t) })

/-- What a thread does once its overlays are in: it starts with the others of its block, enters its restart point, or waits
on in BARW (R387). In a drain it stays at its restart point (R381). -/
def goIn (s : State) (tid : ThreadId) (why : LoadWhy) : State :=
  match why with
  | .rewait a target => modThread s tid (fun t => { t with
      status := .waiting (.barw a target), arrival := some (a, target), nextIssue := s.cycle + 1, runFrom := none })
  | .resume => if draining s tid then modThread s tid (fun t => { t with status := .drained }) else enterRestart s tid
  | .start => startTogether (modThread s tid (fun t => { t with status := .parkedLoad [] .start })) tid.slot
  | _ => modThread s tid (fun t => { t with status := .ready, nextIssue := s.cycle + 1 })

/-- A thread comes into its overlays: it stays parked while one is loading, and takes its references when every one is
resident (R273, R440). -/
def comeIn (s : State) (tid : ThreadId) (why : LoadWhy) : State :=
  match blockOf s tid.slot with
  | none => s
  | some b =>
    match b.threads[tid.tidx]? with
    | none => s
    | some t =>
      let core := coreIdOf b tid
      let s := setThread s tid { t with status := .parkedLoad [] why }
      match startLoads core b.ctx b.launch (stackIds t) s with
      | (s, _, some (sub, id)) => fatalOvmiss s tid b t sub id
      | (s, [], none) =>
        goIn (addRefs s core b.ctx (t.stack ++ t.rpStack)) tid why
      | (s, ids, none) => modThread s tid (fun t => { t with status := .parkedLoad ids why })

/-- A parked thread's load of `id` has ended with a code. -/
def releaseParked (s : State) (tid : ThreadId) (b : Block) (t : Thread) (id code : BitVec 8) (why : LoadWhy) : State :=
  match why with
  | .call entry =>
    let s := setThread s tid { t with status := .ready, nextIssue := s.cycle + 1 }
    if code = 0 then s
    else takeTrap s tid ⟨causeOvmiss, ovmissSub code, t.pcWord, id.setWidth 32, (entry.setWidth 32)⟩
  | .handler =>
    if code = 0 then
      addRef (setThread s tid { t with status := .ready, nextIssue := s.cycle + 1 }) (coreIdOf b tid)
        (ovKey s (coreIdOf b tid) b.ctx id)
    else
      match t.trap with
      | some r => noteFatal s b.launch ⟨r.cause, b.lin, r.words, gtsOf s, coreIdOf b tid⟩
      | none => s
  | _ => if code = 0 then comeIn s tid why else fatalOvmiss s tid b t (ovmissSub code) id

/-- What a load's end does to one thread of the core: its tokens of the load complete, and it is released if it is
parked on it. -/
def loadEndsFor (core : Nat) (key : RKey) (code : BitVec 8) (s : State) (tid : ThreadId) : State :=
  match blockOf s tid.slot with
  | none => s
  | some b =>
    if coreIdOf b tid ≠ core then s
    else
      match b.threads[tid.tidx]? with
      | none => s
      | some t =>
        let t := landToken s.cycle t (.load key) (statusWord 0 0 code)
        let s := setThread s tid t
        match t.status with
        | .parkedLoad ids why =>
          match ids.find? (fun id => ovKey s core b.ctx id == key) with
          | some id => releaseParked s tid b t id code why
          | none => s
        | _ => s

/-- Every thread of the device. -/
def allTids (s : State) : List ThreadId :=
  s.blocks.flatMap (fun p => (rangeFrom 0 p.2.threads.length).map (fun i => ⟨p.1, i⟩))

/-- A load ends: it leaves the core's list, and those that wait on it take its result. After a failure its lines are freed, and no
ID is bound to what it would have loaded (Table 9.6). -/
def endLoad (s : State) (core k : Nat) (key : RKey) (code : BitVec 8) : State :=
  let c := coreOf s core
  let s := setCore s core { c with loads := c.loads.eraseIdx k }
  let s := (allTids s).foldl (loadEndsFor core key code) s
  if code = 0 then s
  else setCore s core { (coreOf s core).evict key with binds := (coreOf s core).binds.filter (fun p => p.2 != key) }

/-- OVERLAY_LOAD_COMPLETE (R266, R271): the k-th load of a core, once it has room. A page fault leaves it waiting at
its engine (R367). -/
def execOverlayLoadComplete (core k : Nat) (s : State) : Out :=
  match (coreOf s core).loads[k]? with
  | none => .next s
  | some l =>
    if !l.placed ∨ l.fault.isSome ∨ !activeAt s (engineFor (core / 4)) l.id then .next s
    else
      match loadSource s l with
      | (s, .waits f) =>
        let e := engineFor (core / 4)
        let c := coreOf s core
        let s := setCore s core { c with loads := c.loads.set k { l with fault := some f } }
        .next (setEngine s e { engineOf s e with faults := noteFault (engineOf s e).faults l.ctx f f.acc.bit (gtsOf s) })
      | (_, .noAddr a) => .fault (.noSuchAddress a)
      | (_, .later) => .next s
      | (s, .failed code) => .next (endLoad s core k l.key code)
      | (s, .lines bs rs) =>
        let c := coreOf s core
        match c.find l.key with
        | none => .next (endLoad s core k l.key 0)
        | some r => .next (endLoad (setCore s core (c.fill (lruNow s c) l.key r.base (linesOf bs l.len) rs)) core k l.key 0)

/-- Index of the first load of a core that waits for room. -/
def firstWaiting (ls : List OvLoad) : Option Nat := ls.findIdx? (fun l => !l.placed)

/-- OVERLAY_ROOM_WAIT_END (R268): the earliest load that waits evicts what it may, and goes on if that makes room. -/
def execOverlayRoomWaitEnd (core : Nat) (s : State) : Out :=
  let c := coreOf s core
  match firstWaiting c.loads with
  | none => .next s
  | some k =>
    match c.loads[k]? with
    | none => .next s
    | some l =>
      match findRoom l.len l.ctx l.limit l.key.isPub 65 c with
      | (_, .quota) => .next (endLoad s core k l.key codeQuota)
      | (c, .wait) => .next (setCore s core c)
      | (c, .at b) =>
        .next (setCore { s with nextId := s.nextId + 1 } core
          ({ c with loads := c.loads.set k { l with placed := true, id := s.nextId } }.place l b))

end Sys2Proof.Machine
end

