-- ==== Sys2Proof/Machine/Sched.lean ====
section
/-! DEFINITION. Bundle formation and issue selection (R235 to R240), yields (R117), the landing of variable-latency
results (R84, R133), and the end of overlay loads (R115, R268, R271). -/

namespace Sys2Proof.Machine

open Sys2Proof

/-! ### Selection order (R239, R240) -/

/-- The thread stands under YIELD: 256 cycles have not passed, and no other thread of its lane has issued (R117). -/
def Thread.yields (now : Nat) (t : Thread) : Bool := t.sched.yielded.any (fun c => decide (now < c + Config.yieldCycles))

/-- A YIELD or a Y hint puts the thread behind others; it does not delay one that is aged (R240). -/
def Thread.low (now : Nat) (t : Thread) : Bool := t.sched.aged.isNone && (t.yields now || t.sched.yhint)

/-- The selection key of a thread, compared field by field: aged first and by the cycle it aged, priority, launch in
fetch order, linear block, wave, YIELD or Y hint, and the lane among the threads of a wave (log 41). -/
def selectKey (s : State) (b : Block) (tid : ThreadId) (t : Thread) : List Nat :=
  let prio := match launchOf s b.launch with | some l => l.prio | none => 0
  [if t.sched.aged.isSome then 0 else 1, t.sched.aged.getD 0, 3 - prio, b.launch, b.lin, waveIx tid, if t.low s.cycle then 1 else 0, laneOf tid]

/-- Lexicographic order of keys. -/
def keyLe : List Nat → List Nat → Bool
  | [], _ => true
  | _ :: _, [] => false
  | x :: xs, y :: ys => decide (x < y) || (x == y && keyLe xs ys)

/-- A thread of a partition as a regroup sees it. -/
structure Cand where
  tid : ThreadId
  key : List Nat
  pc : Word
  lane : Nat
  low : Bool

def insertCand (c : Cand) : List Cand → List Cand
  | [] => [c]
  | x :: xs => if keyLe c.key x.key then c :: x :: xs else x :: insertCand c xs

/-- Puts a thread after the last of a list that a predicate names, or first where it names none. -/
def behindLast (p : Cand → Bool) (c : Cand) : List Cand → List Cand
  | [] => [c]
  | x :: xs => if (x :: xs).any p then x :: behindLast p c xs else c :: x :: xs

/-- A thread under YIELD or a Y hint comes after every other thread of its lane that is under none (R68, R117). -/
def sinkLow : List Cand → List Cand
  | [] => []
  | c :: cs => if c.low then behindLast (fun x => x.lane == c.lane && !x.low) c (sinkLow cs) else c :: sinkLow cs

/-- A thread of the partition `part` (16 × cluster + 4 × core + partition). -/
def inPart (b : Block) (tid : ThreadId) (part : Nat) : Bool :=
  let w := b.wave (waveIx tid)
  b.cluster == part / 16 && w.core == part / 4 % 4 && w.part == part % 4

/-- Threads of a block by index. -/
def Block.tids (slot : Nat) (b : Block) : List (ThreadId × Thread) :=
  (rangeFrom 0 b.threads.length).filterMap (fun i => (b.threads[i]?).map (fun t => (⟨slot, i⟩, t)))

/-- Threads of a partition. -/
def tidsIn (s : State) (part : Nat) : List (Block × ThreadId × Thread) :=
  s.blocks.flatMap (fun p => ((p.2.tids p.1).filter (fun x => inPart p.2 x.1 part)).map (fun x => (p.2, x.1, x.2)))

/-- A thread as a candidate. -/
def candOf (s : State) (x : Block × ThreadId × Thread) : Cand :=
  ⟨x.2.1, selectKey s x.1 x.2.1 x.2.2, x.2.2.pcWord, laneOf x.2.1, x.2.2.low s.cycle⟩

/-- The ready threads of a partition in selection order. -/
def readyOf (s : State) (part : Nat) : List Cand :=
  sinkLow ((((tidsIn s part).filter (fun x => isReady s x.1 x.2.1 x.2.2)).map (candOf s)).foldr insertCand [])

/-! ### Coming to a group (R101, R242, R381) -/

/-- A thread that runs on in a drain arrives: it has issued nothing of its next group, whose first slot carries the restart bit
(R381). -/
def arrives (s : State) (b : Block) (tid : ThreadId) (t : Thread) : Bool :=
  t.runFrom.isSome
    && (match t.status with | .ready | .waiting (.token _) => true | .stalled w => w != .exiting | _ => false)
    && (match lineAt s b tid t with | some (base, _) => atRestart s b tid t base | none => false)

/-- A thread in a drain has reached a restart point: it passes it and stays there (R381). -/
def drainArrive (s : State) (tid : ThreadId) (b : Block) (t : Thread) : State :=
  modThread (passRestart s tid b t) tid (fun t => { t with status := .drained })

/-- A wait on the token of a COMMIT: a thread that waits so at a restart point has passed it, so that its region closes and
the commit can complete (R180, R242, log 47). -/
def onCommit (t : Thread) : TStatus → Bool
  | .waiting (.token r) => t.tokens.any (fun k => k.reg == r && (match k.of with | .commit _ => true | _ => false))
  | _ => false

/-- The lane mask with which a thread whose group holds an instruction of an instance arrives at it: none where a slot before
its own conditions traps, or where the mask lacks its lane, so that it issues by itself instead (R101). -/
def arrivalMask (s : State) (b : Block) (tid : ThreadId) (t : Thread) (base : Nat) (l : Line) : Option Word :=
  match instanceSlot t l with
  | none => none
  | some (j, i) =>
    let at0 := (t.pc.extractLsb' 0 3).toNat
    let u := { t with pc := t.pc + BitVec.ofNat 16 (j - at0) }
    match outcomeAt s b tid t base l false at0, outcomeAt s b tid u base l (j != at0) j with
    | .ok _, .ok _ => if (maskOf s t i).getLsbD (laneOf tid) then some (maskOf s t i) else none
    | _, _ => none

/-- A thread comes to its next group, at a regroup: in a drain it arrives at a restart point, it waits for what the group waits
for, or it is held at an instance (R101, R234, R381). -/
def approach (s : State) (tid : ThreadId) : State :=
  match blockOf s tid.slot with
  | none => s
  | some b =>
    match b.threads[tid.tidx]? with
    | none => s
    | some t =>
      if arrives s b tid t then drainArrive s tid b t
      else if !mayIssue s b t then s
      else
        match lineAt s b tid t with
        | none => s
        | some (base, l) =>
            match groupWait s b tid t l with
            | some w =>
              modThread (if atRestart s b tid t base && onCommit t w then passRestart s tid b t else s) tid (fun t => { t with status := w })
            | none =>
              if isReady s b tid t then
                match arrivalMask s b tid t base l with
                | some m => setThread s tid { t with status := .held m }
                | none => s
              else s

/-! ### Regroup (R236, R238) -/

/-- The q stream that an instance signs on is full: the instance stalls, its members held (R210). -/
def streamFull (b : Block) (tid : ThreadId) (i : Instr) : Bool :=
  match i.qSigned with
  | some q => decide (Config.maxStream ≤ ((b.wave (waveIx tid)).q[q.toNat]'(qreg_lt q)).ops.length)
  | none => false

/-- The threads of the lanes of a mask, in the wave of a thread. -/
def maskTids (tid : ThreadId) (mask : Word) : List ThreadId :=
  ((rangeFrom 0 32).filter (fun n => mask.getLsbD n)).map (fun n => ⟨tid.slot, 32 * waveIx tid + n⟩)

/-- The slot address and the instruction of the instance in a thread's group. -/
def instanceAt (s : State) (b : Block) (tid : ThreadId) (t : Thread) : Option (BitVec 16 × Instr) :=
  match lineAt s b tid t with
  | none => none
  | some (_, l) => (instanceSlot t l).map (fun x => ((t.pc.extractLsb' 3 13) ++ BitVec.ofNat 3 x.1, x.2))

/-- The instance that a held thread is a member of is complete and may issue: every lane of its mask has a thread held with
that mask at its code address, and the stream it signs on, if a member signs, has room (R101, R210, R238). -/
def complete? (s : State) (b : Block) (tid : ThreadId) (t : Thread) : Bool :=
  match t.status with
  | .held mask =>
    (maskTids tid mask).all (fun m => match b.threads[m.tidx]? with
      | some u => u.status == .held mask && instanceAt s b m u == instanceAt s b tid t && u.top == t.top && running s b u
      | none => false)
      && (match instanceAt s b tid t with
        | some (_, i) => !streamFull b tid i
          || (maskTids tid mask).all (fun m => (b.threads[m.tidx]?).all (fun u => !guardOf s u (hdrOf (encode i))))
        | none => false)
  | _ => false

/-- A bundle as a regroup forms it, with the key that orders it. -/
structure Formed where
  key : List Nat
  members : List ThreadId

/-- A bundle whose leader is aged stands ahead of every other, and the others stay in order (R240). -/
def Formed.before (a b : Formed) : Bool := keyLe (a.key.take 2) (b.key.take 2)

def insertFormed (le : Formed → Formed → Bool) (c : Formed) : List Formed → List Formed
  | [] => [c]
  | x :: xs => if le c x then c :: x :: xs else x :: insertFormed le c xs

def sortFormed (le : Formed → Formed → Bool) (l : List Formed) : List Formed := l.foldr (insertFormed le) []

/-- The complete instances of a partition, in selection order of their best members, which stand first in them. -/
def instancesOf (s : State) (part : Nat) : List Formed :=
  let held := (tidsIn s part).filter (fun x => (match x.2.2.status with
    | .held m => (maskTids x.2.1 m).head? == some x.2.1
    | _ => false) && complete? s x.1 x.2.1 x.2.2)
  sortFormed (fun a b => keyLe a.key b.key) (held.filterMap (fun x =>
    let tids := match x.2.2.status with | .held m => maskTids x.2.1 m | _ => []
    let cs := (tids.filterMap (fun t => (threadOf s t).map (fun u => candOf s (x.1, t, u)))).foldr insertCand []
    cs.head?.map (fun c => ⟨c.key, c.tid :: tids.filter (· != c.tid)⟩)))

/-- The first thread of a lane at a code address. -/
def firstAt (pc : Word) (lane : Nat) (cs : List Cand) : Option Cand := cs.find? (fun c => c.lane == lane && c.pc == pc)

/-- The bundle the first ready thread leads: one thread per other lane at its packed code address. -/
def bundleOf (lead : Cand) (cs : List Cand) : List ThreadId :=
  lead.tid :: ((rangeFrom 0 32).filter (fun l => l != lead.lane)).filterMap (fun l => (firstAt lead.pc l cs).map Cand.tid)

/-- Bundles of ordinary ready threads; `n` is how many more may be formed. -/
def formBundles : Nat → List Cand → List Formed
  | 0, _ => []
  | _, [] => []
  | n + 1, c :: cs =>
    let b := bundleOf c cs
    ⟨c.key, b⟩ :: formBundles n (cs.filter (fun x => !b.contains x.tid))

/-- The bundles of a partition's held and ready threads (R236, R238, R240). -/
def bundlesOf (s : State) (part : Nat) : List (List ThreadId) :=
  let inst := (instancesOf s part).take Config.maxBundles
  (sortFormed Formed.before (inst ++ formBundles (Config.maxBundles - inst.length) (readyOf s part))).map Formed.members

/-- The course of a partition in the present cycle. -/
def turnOfPart (s : State) (part : Nat) : Turn := Assoc.getD s.turns part ⟨false, 0, 0, 0, 0, 0⟩

/-- A partition regroups, at a cycle whose core cycle count is a multiple of 4, once (R235). -/
def regroup (s : State) (part : Nat) : State :=
  let turn := turnOfPart s part
  if turn.regrouped ∨ (s.cycle + (coreOf s (part / 4)).clkOff.toNat) % 4 ≠ 0 then s
  else
    let s := ((tidsIn s part).map (fun x => x.2.1)).foldl approach s
    { s with
      bundles := Assoc.set s.bundles part (bundlesOf s part)
      turns := Assoc.set s.turns part { turn with regrouped := true } }

/-- REGROUP (R235, R236). -/
def execRegroup (part : Nat) (s : State) : Out := .next (regroup s part)

/-- A thread ready for 1024 cycles without issuing is aged (R240). -/
def Thread.age (now : Nat) (t : Thread) : Thread :=
  if t.sched.aged.isNone ∧ Config.agedCycles ≤ t.sched.readyFor then { t with sched := { t.sched with aged := some now } } else t

/-- THREAD_AGED (R240). -/
def execThreadAged (t : ThreadId) (s : State) : Out := .next (modThread s t (Thread.age s.cycle))

/-- YIELD_EXPIRY (R117): 256 cycles after the YIELD. -/
def execYieldExpiry (t : ThreadId) (s : State) : Out :=
  .next (modThread s t (fun x =>
    match x.sched.yielded with
    | some c => if c + Config.yieldCycles ≤ s.cycle then { x with sched := { x.sched with yielded := none } } else x
    | none => x))

/-! ### Time passing -/

/-- A thread waits for the hang detector: it is held, waits on a pending token, a barrier, a ring or a q register, stalls where
R26, R198 and R211 name the stall, or awaits an overlay load (R26, R102, R115, R198, R211, R268, R391). -/
def hangWaits (s : State) (b : Block) (tid : ThreadId) (t : Thread) : Bool :=
  t.trap.isNone && (match t.status with
    | .held _ => true
    | .ready | .waiting (.token _) | .stalled (.scoreboard _) | .stalled (.stream _) | .stalled .fpx =>
      (match boardWait s b tid t with
      | some (.waiting (.token _)) | some (.stalled (.stream _)) => true
      | _ => false)
    | .waiting w => !waitOver s b tid t w
    | .stalled .tokenLimit => !stallOver s b tid t .tokenLimit
    | .stalled (.staging ..) => true
    | .stalled .exiting => !t.tokens.isEmpty || signedPending b tid
    | .parkedLoad _ _ => true
    | _ => false)

/-- Every FLT, CNV and other result of the thread has landed, and its FPX bits with it (R134, R384). -/
def Thread.landed (now : Nat) (t : Thread) : Bool :=
  t.pend.isEmpty && t.lat.all (fun x => decide (x.2 ≤ now)) && decide (t.fpxAt ≤ now)

/-- A thread can be saved: at its restart point, in BARW, held, or retired, with all it issued complete (R29, R384). -/
def Thread.settled (now : Nat) (t : Thread) : Bool :=
  t.landed now && t.late.store.isNone && t.tokens.isEmpty && (match t.status with
    | .retired => true
    | .drained | .held _ | .parkedFault _ _ => t.trap.isNone
    | .parkedLoad _ (.call _) | .parkedLoad _ .handler => false
    | .parkedLoad _ _ => true
    | .waiting (.barw _ _) => t.trap.isNone && t.runFrom.isNone
    | _ => false)

/-- A block is drained: every thread is settled, no instance of held ones can issue, and no started engine operation is
under way (R103, R384). -/
def drained (s : State) (slot : Nat) (b : Block) : Bool :=
  (b.tids slot).all (fun x => x.2.settled s.cycle && !complete? s b x.1 x.2)
    && b.waves.all (fun w => w.q.toList.all (fun q => q.ops.all (fun o => !o.started)))

/-- The drain of a block is in progress: it has begun and the block is not drained (R384). -/
def drains (s : State) (slot : Nat) (b : Block) : Bool :=
  (match b.phase with | .draining _ _ => true | _ => false) && !drained s slot b

/-- A context has a pre-emption in progress. -/
def drainOn (s : State) (c : Context) : Bool :=
  c.drain.any (fun d => d.blocks.any (fun k => (blockOf s k).any (drains s k)))

/-- A block of a context is draining, for a pre-emption or a swap-out. -/
def anyDrain (s : State) (ctx : Nat) : Bool := s.blocks.any (fun b => b.2.ctx == ctx && drains s b.1 b.2)

/-- A fault record of a context awaits a resolve. -/
def faultsWait (s : State) (ctx : Nat) : Bool :=
  s.clusters.any (fun c => c.2.faults.any (fun f => f.ctx == ctx))
    || s.engines.any (fun e => e.2.faults.any (fun f => f.ctx == ctx))

/-- The condition under which the hang counter of a context rises (R391). -/
def hangs (s : State) (ctx : Nat) (c : Context) : Bool :=
  let mine := (s.blocks.filter (fun p => p.2.ctx == ctx)).flatMap (fun p =>
    ((p.2.tids p.1).filter (fun x => x.2.status != .retired)).map (fun x => (p.2, x.1, x.2)))
  !mine.isEmpty && mine.all (fun x => hangWaits s x.1 x.2.1 x.2.2) && !anyDrain s ctx
    && c.saved.all (fun b => !b.swapped) && !faultsWait s ctx

/-- Partitions with threads. -/
def partsOf (s : State) : List Nat :=
  (s.blocks.flatMap (fun p => p.2.waves.map (fun w => 16 * p.2.cluster + 4 * w.core + w.part))).dedup

/-- A thread at the end of a cycle in which it was ready and did not issue. -/
def Thread.unissued (now : Nat) (t : Thread) : Thread :=
  Thread.age now { t with sched := { t.sched with readyFor := t.sched.readyFor + 1 } }

/-- One cycle passes: every thread that was ready and did not issue counts it (R240), the hang counters rise or return to 0
(R391), late stores that are due are performed (log 5), and in the new cycle the partitions whose turn it is regroup (R235). -/
def tick (s : State) : State :=
  let t := { s with
    cycle := s.cycle + 1
    turns := Assoc.mapVals s.turns (fun _ t => { t with regrouped := false, groups := 0 })
    blocks := Assoc.mapVals s.blocks (fun slot b =>
      { b with threads := b.threads.mapIdx (fun i t => if isReady s b ⟨slot, i⟩ t then t.unissued (s.cycle + 1) else t) })
    contexts := Assoc.mapVals s.contexts (fun i c => { c with hang := if hangs s i c then c.hang + 1 else 0 }) }
  (partsOf t).foldl regroup (storesNow (fun _ w => decide (w.due ≤ t.cycle)) t)

/-! ### Landing (R84, R133) -/

/-- Sets or clears a poison bit. -/
def landV (now : Nat) (t : Thread) (x : VReg × Word × Bool) : Thread :=
  let t := wrV now t x.1 x.2.1 0
  { t with poisonV := setBit t.poisonV x.1.toNat x.2.2 }

/-- A result lands: its words, its capability, its poison, and its FPX bits. -/
def land (now : Nat) (t : Thread) (p : Pend) : Thread :=
  let t := p.vals.foldl (landV now) t
  let t := match p.cap with
    | some (r, c, bad) => let t := wrA now t r c 0; { t with poisonA := setBit t.poisonA r.toNat bad }
    | none => t
  if p.setsFpx then { t with fpx := t.fpx ||| p.flags } else t

/-- The k-th outstanding result of a kind, of a thread, lands. -/
def landOne (xpipe : Bool) (s : State) (t : ThreadId) (k : Nat) : State :=
  settleSpoil (modThread s t (fun x =>
    match x.pend[k]? with
    | some p => if p.xpipe = xpipe then { land s.cycle x p with pend := x.pend.eraseIdx k } else x
    | none => x)) t

/-- LOAD_RESULT_LAND (R84). -/
def execLoadResultLand (t : ThreadId) (k : Nat) (s : State) : Out := .next (landOne false s t k)

/-- XPIPE_COMPLETE (R133): the result and its FPX bits. -/
def execXpipeComplete (t : ThreadId) (k : Nat) (s : State) : Out := .next (landOne true s t k)

end Sys2Proof.Machine
end

