-- ==== Sys2Proof/Machine/Fault.lean ====
section
/-! DEFINITION. Fault records (R368 to R371), resumption after a fault (R247, R250, R371), staging stalls (R299). -/

namespace Sys2Proof.Machine

open Sys2Proof

/-! ### Fault queues (R370) -/

/-- Code of a fault kind (Table 17.6). -/
def FaultKind.code : FaultKind → BitVec 8
  | .notPres => 1
  | .mater => 2
  | .rowR => 3
  | .objInv => 4
  | .verUnav => 5

/-- A fault record (Table 17.6). -/
def FaultEntry.words (e : FaultEntry) (src : BitVec 16) : List Word :=
  [BitVec.ofNat 16 (min e.waiters 0xFFFF) ++ 0#2 ++ e.acc ++ e.kind.code, BitVec.ofNat 32 (e.obj % 2 ^ 24),
    BitVec.ofNat 32 e.page, BitVec.ofNat 32 (e.page / 2 ^ 32 % 256), e.gts.extractLsb' 0 32, e.gts.extractLsb' 32 32,
    src.setWidth 32, 0]

/-- A source of fault records: a cluster's memory port, or 80 + a copy engine (log 44). -/
def faultsAt (s : State) (src : Nat) : List FaultEntry :=
  if src < Config.numClusters then (clusterOf s src).faults else (engineOf s (src - Config.numClusters)).faults

def setFaults (s : State) (src : Nat) (fs : List FaultEntry) : State :=
  if src < Config.numClusters then setCluster s src { clusterOf s src with faults := fs }
  else setEngine s (src - Config.numClusters) { engineOf s (src - Config.numClusters) with faults := fs }

/-- Its source number (Table 21.3). -/
def faultSrc (src : Nat) : BitVec 16 :=
  if src < Config.numClusters then srcNo 0 src else srcNo 1 (src - Config.numClusters)

/-- FAULT_RECORD_POST (R370): the record goes into the context's fault queue unless the queue is full, and MSI-X vector
3 is sent. -/
def execFaultRecordPost (cluster k : Nat) (s : State) : Out :=
  match (faultsAt s cluster)[k]? with
  | none => .next s
  | some e =>
    match (ctxOf s e.ctx).bind Context.faultQ with
    | none => .next s
    | some q =>
      let wr := readDevNat s q.addr 8
      let rd := readDevNat s (q.addr + 8) 8
      if e.reported || decide (2 ^ q.logn ≤ (wr + 2 ^ 64 - rd) % 2 ^ 64) then .next s
      else
        let s := setFaults s cluster ((faultsAt s cluster).set k { e with reported := true })
        let s := writeDev s (q.addr + 64 + 32 * (wr % 2 ^ q.logn)) (wordsBytes (e.words (faultSrc cluster)))
        .next (sendMsix (writeDevNat s q.addr 8 ((wr + 1) % 2 ^ 64)) q.fn 3)

/-! ### Resumption (R247, R250, R371) -/

/-- A fault of a thread is still outstanding at its cluster. -/
def outstanding (s : State) (cl ctx : Nat) (f : PageFault) : Bool :=
  (clusterOf s cl).faults.any (fun e => e.ctx == ctx && e.kind == f.kind && e.obj == f.obj && e.page == f.page)

/-- Translates the faults of a waiter again: those that still fault (R371). -/
def retranslate (ctx : Nat) (launch : Option Nat) : List PageFault → State → State × List PageFault
  | [], s => (s, [])
  | f :: fs, s =>
    let (s, x) := translate s ctx launch ⟨f.obj, f.off, f.acc, false, false⟩
    let (s, more) := retranslate ctx launch fs s
    match x with
    | .fault g => (s, g :: more)
    | _ => (s, more)

/-- What a rollback waits for has completed: results, and the tokens that the thread issued in the rolled-back region (R29,
R134). -/
def Thread.recovered (now : Nat) (t : Thread) : Bool := t.landed now && t.tokens.all (fun k => !k.inRegion)

/-- FAULT_RESUME (R247, R371): once no fault of the thread is outstanding and what a rollback waits for has completed, it
translates again, and resumes or reports again; in a drain it stays (R386). In the handler it goes on with the stalled access as
soon as the fault is serviced (R250). -/
def execFaultResume (t : ThreadId) (s : State) : Out :=
  match blockOf s t.slot with
  | none => .next s
  | some b =>
    match b.threads[t.tidx]? with
    | none => .next s
    | some x =>
      match x.status with
      | .parkedFault fs since =>
        if fs.any (outstanding s b.cluster b.ctx) || (x.trap.isNone && (!x.recovered s.cycle || x.runFrom.isSome)) then .next s
        else
          match retranslate b.ctx (some b.launch) fs s with
          | (s, []) =>
            if x.trap.isSome then .next (setThread s t { x with status := .ready, nextIssue := s.cycle + 1 })
            else .next (enterRestart s t)
          | (s, gs) =>
            .next (setThread (gs.foldl (fun s f => clusterFault s b.cluster b.ctx f) s) t { x with status := .parkedFault gs since })
      | _ => .next s

/-! ### Staging stalls (R299) -/

/-- STGLIM of a context. -/
def stgLimOf (s : State) (ctx : Nat) : Nat :=
  match ctxOf s ctx with
  | some c => c.params.stgLim
  | none => s.service.settings.stgLim

/-- A staging stall of a thread ends, when a condition on its block and need holds: its group is tried again. -/
def endStaging (t : ThreadId) (s : State) (cond : Block → Nat → Nat → Bool) (late : Bool) : Out :=
  match blockOf s t.slot with
  | none => .next s
  | some b =>
    match b.threads[t.tidx]? with
    | none => .next s
    | some x =>
      match x.status with
      | .stalled (.staging since need) =>
        if cond b since need then
          .next (setThread s t { x with status := .ready, nextIssue := min x.nextIssue s.cycle, stgOut := late })
        else .next s
      | _ => .next s

/-- STGFULL_TIMEOUT (R299): after STGLIM cycles of stall the instruction traps STGFULL where it still has no room, a CST in every
member (R162). -/
def execStgfullTimeout (t : ThreadId) (s : State) : Out :=
  endStaging t s (fun b since _ => decide (since + stgLimOf s b.ctx ≤ s.cycle)) true

/-- STAGING_ROOM_FREED (R299): the stalled instruction has room, and its thread issues it. -/
def execStagingRoomFreed (t : ThreadId) (s : State) : Out := endStaging t s (fun b _ need => stagingRoom s b need) false

end Sys2Proof.Machine
end

