-- ==== Sys2Proof/Machine/Syn.lean ====
section
/-! DEFINITION. The SYN class (R194 to R198): barriers, FENCE, GROW. -/

namespace Sys2Proof.Machine

open Sys2Proof

/-- The object is barrier-typed, or RINGERR with SUB 0x01 (R194). -/
def barTyped (b : Block) (off : Int) : Option Why :=
  if granType b off.toNat = some .barrier then none else ringerr 0x01 off 0

/-- The first cause of BINIT, the lowest SUB (R194). -/
def binitWhy (b : Block) (off : Int) (c : Word) : Option Why :=
  if granType b off.toNat = some .ring then ringerr 0x01 off 0
  else if c.extractLsb' 0 16 = 0#16 ∨ c.extractLsb' 16 16 ≠ 0#16 then ringerr 0x02 off c
  else if granType b off.toNat = some .barrier ∧ (readBarrier b off.toNat).pendeng ≠ 0 then ringerr 0x03 off 0
  else none

/-- BINIT (R195). -/
def execBinit (h : Hdr) (x : LocAddr) (c : VReg) (s : State) : Out :=
  guarded h s fun cx =>
    let off := localOff s cx.thr x
    let w := rdV s cx.thr c
    checked s cx (Why.first (objectWhy cx.blk off 16 0) (binitWhy cx.blk off w))
      (let a := off.toNat
       let b := { cx.blk with types := Assoc.set cx.blk.types a .barrier, order := cx.blk.order.initBarrier a }
       goOnBlock h s cx (noteWaiters (writeBarrier b a ⟨0, w.extractLsb' 0 16, 0, 0, false⟩) a) cx.thr)

/-- The checks of BARV, BWAIT and BARW on their object. -/
def barOp (s : State) (x : Cx) (a : LocAddr) (k : Int → Barrier → Out) : Out :=
  let off := localOff s x.thr a
  checked s x (Why.first (objectWhy x.blk off 16 0) (barTyped x.blk off)) (k off (readBarrier x.blk off.toNat))

/-- The target of an arrival as a result, where D names a register. -/
def targetPend (t : Thread) (d : Option VReg) (target : BitVec 16) : Thread :=
  match d with
  | some d => pendTo t (pendVals [(d, target.setWidth 32, false)])
  | none => t

/-- Waits on a barrier with a changed block and thread; the barrier's unit notes the waiter (Table 9.2). -/
def waitBarrier (s : State) (x : Cx) (b : Block) (a : Nat) (t : Thread) (w : WaitOn) : Out :=
  .next (setBlock s x.tid.slot (noteWaiters (b.setThread x.tid.tidx (t.hold s.cycle (.waiting w))) a))

/-- A thread arrives at a barrier once, releasing at block scope what it has ordered. -/
def arriveAt (b : Block) (t : Thread) (a : Nat) : Block :=
  let r := (readBarrier b a).arrive
  let b := { b with order := b.order.arrive a t.known.seen (readBarrier b a).phase r.phase }
  writeBarrier b a r

/-- Goes on past a barrier, acquiring at block scope what arrived up to the target; the unit drops the waiter. -/
def passBarrier (h : Hdr) (s : State) (x : Cx) (b : Block) (a : Nat) (target : BitVec 16) (t : Thread) : Out :=
  .next (setBlock (acquireBlock s x.blk x.coreId) x.tid.slot
    (noteWaiters (b.setThread x.tid.tidx ((t.acquire (b.order.upTo a target)).done s.cycle h)) a))

/-- BARV (R195). -/
def execBarv (h : Hdr) (d : Option VReg) (x : LocAddr) (s : State) : Out :=
  guarded h s fun cx =>
    barOp s cx x fun off r =>
      goOnBlock h s cx (arriveAt cx.blk cx.thr off.toNat) (targetPend cx.thr d (r.phase + 1))

/-- BWAIT (R195). -/
def execBwait (h : Hdr) (x : LocAddr) (c : VReg) (s : State) : Out :=
  guarded h s fun cx =>
    barOp s cx x fun off r =>
      let target := (rdV s cx.thr c).extractLsb' 0 16
      if r.reached target then passBarrier h s cx cx.blk off.toNat target cx.thr
      else waitBarrier s cx cx.blk off.toNat cx.thr (.bar off.toNat target)

/-- BARW after its arrival: it waits for its target, which is its result. -/
def barwWait (h : Hdr) (d : Option VReg) (s : State) (x : Cx) (b : Block) (a : Nat) (target : BitVec 16) : Out :=
  if (readBarrier b a).reached target then passBarrier h s x b a target (targetPend { x.thr with arrival := none } d target)
  else waitBarrier s x b a { x.thr with arrival := some (a, target) } (.barw a target)

/-- BARW (R195): it arrives once, then waits for its own target, whatever its guard and its operands are by then (R198). -/
def execBarw (h : Hdr) (d : Option VReg) (x : LocAddr) (s : State) : Out :=
  match curCx s with
  | none => .refused .noThread
  | some cx =>
    match cx.thr.arrival with
    | some (a, target) => barwWait h d s cx cx.blk a target
    | none =>
      guarded h s fun cx =>
        barOp s cx x fun off r => barwWait h d s cx (arriveAt cx.blk cx.thr off.toNat) off.toNat (r.phase + 1)

/-- FENCE (R196): an acquire drops the core's L1 lines of the scope; a release waits for nothing, since every access is
performed when it issues (log 5). -/
def execFence (h : Hdr) (kind : FenceKind) (scope : Scope) (s : State) : Out :=
  guarded h s fun x =>
    match kind with
    | .rel => goOn h s x x.thr
    | _ => goOn h (acquireAt s x.blk x.coreId (some scope)) x x.thr

/-- GROW (R197, R350). -/
def execGrow (h : Hdr) (d : VReg) (a : Src) (s : State) : Out :=
  guarded h s fun x =>
    if x.blk.grid.2 = (1, 1) ∧ !launchFlag s x.blk Launch.coop then
      let n := (src32 s x.thr a).toNat
      let old := match launchOf s x.blk.launch with
        | some l => l.gridx
        | none => 0
      goOnPend h (modLaunch s x.blk.launch (fun l => { l with gridx := l.gridx + min n (0xFFFFFFFF - l.gridx) })) x x.thr
        (pendVals [(d, BitVec.ofNat 32 old, false)])
    else illop s x (encode (.grow h d a)) 0x00

end Sys2Proof.Machine
end

