-- ==== Sys2Proof/Machine/Mtx.lean ====
section
/-! DEFINITION. The MTX class (R206 to R218, R224, R228): signing instances, MWAIT, FENCEO, BLD, and the start and
completion of engine operations. -/

namespace Sys2Proof.Machine

open Sys2Proof

/-! ### Scale generators (R24, R209) -/

/-- The four words of descriptor k, as a thread's instruction captures them. -/
def sgenOf (s : State) (t : Thread) (k : BitVec 2) : List Word := (rangeFrom (4 * k.toNat) 4).map (rdSgen s t)

/-- ScaleAddr (R209): none where the element lies outside the descriptor. -/
def scaleAddr (g : List Word) (e : Nat) : Option Nat :=
  if e < (g.getD 0 0).toNat ∨ (g.getD 1 0).toNat ≤ e then none
  else some ((g.getD 2 0).toNat + 2 * ((e - (g.getD 0 0).toNat) / 2 ^ (g.getD 3 0).toNat))

/-! ### Checks at issue (R209) -/

/-- A range to check, with its alignment and the lane of a per-lane operand (Table 7.8). -/
structure Need where
  rng : Rng
  align : Nat
  lane : Nat

def needAlign (n : Need) : Option Why :=
  if n.rng.addr % n.align = 0 then none else some ⟨causeAlign, 0, BitVec.ofNat 32 n.rng.addr, 0⟩

/-- A range that leaves its store. The failing address is the first of the range, also where only its end is outside: R228
does not say which (log 113). -/
def needBound (b : Block) (n : Need) : Option Why :=
  if n.rng.tile then accBound b n.rng.addr n.rng.len
  else (spadBound b n.rng.addr n.rng.len).map (fun w => { w with arg1 := BitVec.ofNat 32 n.lane })

/-- What an instance brings to its issue: the operation, its ranges in operand order, element addresses outside their
descriptors, and its barriers. -/
structure Prep where
  op : MatOp
  needs : List Need
  outside : List (Nat × Nat)
  bwt : Option (Nat × BitVec 16)
  bar : Option Nat

def Prep.bars (p : Prep) : List Nat := (match p.bwt with | some (a, _) => [a] | none => []) ++ p.bar.toList

/-- The barrier words as ranges. -/
def barNeed (a : Nat) : Need := ⟨⟨false, a, 16⟩, 16, 0⟩

/-- The checks of R209 in order. -/
def prepWhy (b : Block) (mask : Word) (p : Prep) : Option Why :=
  let needs := p.needs ++ p.bars.map barNeed
  Why.first (needs.findSome? needAlign)
    (Why.first (needs.findSome? (needBound b))
      (Why.first (p.outside.head?.map (fun e => ⟨causeCapbnd, 0x03, BitVec.ofNat 32 e.1, BitVec.ofNat 32 e.2⟩))
        (Why.first (((p.op.dests mask).filter (fun r => !r.tile)).findSome? (fun r => typedWhy b r.addr r.len))
          (p.bars.findSome? (fun a =>
            if granType b a = some .barrier then none else some ⟨causeRingerr, 0x01, BitVec.ofNat 32 a, 0⟩)))))

/-! ### Shared operands (R207) -/

/-- A shared operand: its specifier in Table 7.8, and its value in a member. -/
structure Shared where
  spec : BitVec 8
  val : Member → List Word

def sharedReg (s : State) (r : VReg) (n : Nat) : Shared := ⟨vByte r, fun m => rdVs s m.thr r n⟩
def sharedOpt (s : State) (r : Option VReg) (n : Nat) : List Shared :=
  match r with
  | some r => [sharedReg s r n]
  | none => []
def sharedGen (s : State) (k : BitVec 2) : Shared := ⟨0xFE, fun m => sgenOf s m.thr k⟩

/-- Members that differ from the lowest-lane one, as a mask. -/
def differing (ms : List Member) (f : Member → Bool) : Word :=
  ms.foldl (fun w m => setBit w m.lane (f m || w.getLsbD m.lane)) 0

/-- The first shared operand in which a member differs (R228). -/
def mismatch (lo : Member) (ms : List Member) : List Shared → Option Why
  | [] => none
  | x :: xs =>
    let w := differing ms (fun m => x.val m != x.val lo)
    if w = 0 then mismatch lo ms xs else some ⟨causeSignmis, 0, w, x.spec.setWidth 32⟩

/-! ### Issue of an instance (R206 to R211, R214) -/

/-- Enters an operation into its stream: the barrier's pending engine arrivals rise, and each member lends. It reads from the writes
that the members' last FENCEOs made available; a fragment register written since leaves its result undefined (R212). -/
def enterStream (s : State) (x : Cx) (ms : List Member) (q : QReg) (mask : Word) (p : Prep) (undef : Bool) : State :=
  let unfenced := ms.any (fun m => p.op.frag.any (fun r => m.thr.known.dirty.getLsbD r.toNat))
  let ordered := ms.foldl (fun (c : Clock) m => c.join m.thr.known.offered) ([] : Clock)
  let o : QOp := ⟨s.nextId, p.op, mask, x.thr.pcWord, p.bwt, p.bar, false, undef || unfenced, ordered, 0, 0⟩
  let lent : Lent := ⟨q, s.nextId, p.op.frag, p.op.tiles, p.op, mask, false⟩
  let s := { s with nextId := s.nextId + 1 }
  let s := modBlock s x.tid.slot (fun b =>
    let b := match p.bar with
      | some a => let r := readBarrier b a; writeBarrier b a { r with pendeng := r.pendeng + 1 }
      | none => b
    let w := b.wave (waveIx x.tid)
    let qs := w.q[q.toNat]'(qreg_lt q)
    let b := b.setWave (waveIx x.tid) { w with q := w.q.set q.toNat { qs with ops := qs.ops ++ [o] } (qreg_lt q) }
    match p.bwt with
    | some (a, _) => noteWaiters b a
    | none => b)
  ms.foldl (fun s m => modThread s m.tid (fun t => { t with lent := t.lent ++ [lent] })) s

/-- Goes on with every member as it stands. -/
def membersGoOn (h : Hdr) (s : State) (ms : List Member) : Out :=
  .next (ms.foldl (fun s m => memberDone s h m ((threadOf s m.tid).getD m.thr)) s)

/-- Operations of a q register in order. -/
def streamOf (b : Block) (wave : Nat) (q : QReg) : List QOp := ((b.wave wave).q[q.toNat]'(qreg_lt q)).ops

/-- A signing instance whose members have all arrived; on a full stream they stay held, before any check (R210, log 95). `lack`: a mask that lacks lanes the operation needs (R222). -/
def signAll (i : Instr) (h : Hdr) (s : State) (x : Cx) (ms : List Member) (q : QReg) (mask : Word) (sh : List Shared)
    (lack : Bool) (prep : Member → List Member → Prep) : Out :=
  match ms with
  | [] => .next s
  | lo :: _ =>
    let chk := chkOf s x.blk
    if ms.all (fun m => !m.on) then membersGoOn h s ms
    else if Config.maxStream ≤ (streamOf x.blk (waveIx x.tid) q).length then waitAt s x (.held mask)
    else
      let mixed := ms.any (fun m => m.on != lo.on)
      if mixed && chk then trapMembers s x ms ⟨causeSignmis, 0x01, differing ms (fun m => m.on != lo.on), 0xFF⟩
      else
        let diff := mismatch lo ms sh
        match (if chk then diff else none) with
        | some w => trapMembers s x ms w
        | none =>
          if lack then
            trapMembers s x ms ⟨causeIllop, 0x02, (encode i).extractLsb' 0 32, (encode i).extractLsb' 32 32⟩
          else
            let p := prep lo ms
            match prepWhy x.blk mask p with
            | some w => trapMembers s x ms w
            | none => membersGoOn h (enterStream s x ms q mask p (mixed || diff.isSome)) ms

/-- A signing instruction. -/
def signing (i : Instr) (h : Hdr) (s : State) (q : QReg) (mask : VReg) (sh : List Shared) (lack : Word → Bool)
    (prep : Member → List Member → Prep) : Out :=
  collective i h s (fun x => rdV s x.thr mask) fun x ms =>
    let mk := rdV s x.thr mask
    signAll i h s x ms q mk sh (lack mk) prep

/-- A register's value as an address. -/
def addrOf (s : State) (m : Member) (r : VReg) : Nat := (rdV s m.thr r).toNat

/-- BWT and BAR of a member: bits [31:24] are ignored (R211). -/
def bwtOf (s : State) (m : Member) (o : QOps) : Option (Nat × BitVec 16) :=
  o.bwt.map (fun r => (addrOf s m r % 2 ^ 24, (rdV s m.thr (r + 1)).extractLsb' 0 16))
def barOf (s : State) (m : Member) (o : QOps) : Option Nat := o.bar.map (fun r => addrOf s m r % 2 ^ 24)

def tileNeed (p64 : Bool) (a : Nat) : Need := ⟨⟨true, a, tileLen p64⟩, tileLen p64, 0⟩

def qShared (s : State) (o : QOps) : List Shared :=
  [sharedReg s o.a 1, sharedReg s o.c 1] ++ sharedOpt s o.bwt 2 ++ sharedOpt s o.bar 1

/-- MMA and MMB: the ranges are the planes read and the tile (R204, R209). -/
def product (i : Instr) (h : Hdr) (fmt : Fmt) (prec : BitVec 4) (o : QOps) (p64 : Bool)
    (mk : Nat → Nat → Nat → MatOp) (s : State) : Out :=
  signing i h s o.q o.mask (qShared s o) (fun _ => false) fun lo _ =>
    let p := declaredPlanes fmt prec
    let a := addrOf s lo o.a
    let c := addrOf s lo o.c
    ⟨mk p a c, [⟨⟨false, a, 64 * readPlanes fmt p⟩, 64, 0⟩, tileNeed p64 c], [], bwtOf s lo o, barOf s lo o⟩

/-- MMA (R220). -/
def execMma (h : Hdr) (fmt : Fmt) (prec : BitVec 4) (o : QOps) (s : State) : Out :=
  product (.mma h fmt prec o) h fmt prec o false (fun p a c => .mma fmt p a o.b c) s

/-- MMB (R221). -/
def execMmb (h : Hdr) (fmt : Fmt) (prec : BitVec 4) (o : QOps) (s : State) : Out :=
  product (.mmb h fmt prec o) h fmt prec o true (fun p a c => .mmb fmt p a o.b c) s

/-- The scale word ranges of element addresses that their descriptor maps. -/
def scaleNeeds (es : List (List Word × Nat × Nat)) : List Need :=
  es.filterMap (fun e => (scaleAddr e.1 e.2.1).map (fun a => ⟨⟨false, a, 2⟩, 2, e.2.2⟩))

/-- Element addresses that it does not map, with their lanes. -/
def scaleOutside (es : List (List Word × Nat × Nat)) : List (Nat × Nat) :=
  es.filterMap (fun e => if (scaleAddr e.1 e.2.1).isNone then some e.2 else none)

/-- Scale addresses by lane, 0 where a lane has none. -/
def scaleList (g : List Word) (n : Nat) (f : Nat → Option Nat) : List Nat :=
  (rangeFrom 0 n).map (fun i => ((f i).bind (scaleAddr g)).getD 0)

/-- MSCALE (R222). -/
def execMscale (h : Hdr) (fmt : Fmt) (sa sb : BitVec 2) (o : QOps) (s : State) : Out :=
  let blockFmt := fmt.isBlock
  signing (.mscale h fmt sa sb o) h s o.q o.mask (qShared s o ++ (if blockFmt then [sharedGen s sa, sharedGen s sb] else []))
    (fun mk => blockFmt && mk.extractLsb' 0 16 != 0xFFFF#16) fun lo ms =>
      let p := addrOf s lo o.a
      let c := addrOf s lo o.c
      let ga := sgenOf s lo.thr sa
      let gb := sgenOf s lo.thr sb
      let elem (r : VReg) (n : Nat) : Option Nat := (ms.find? (fun m => m.lane == n)).map (fun m => addrOf s m r)
      let es : List (List Word × Nat × Nat) :=
        if blockFmt then ms.flatMap (fun m =>
          (gb, addrOf s m o.b, m.lane) :: (if m.lane < 16 then [(ga, addrOf s m (o.b + 1), m.lane)] else []))
        else []
      ⟨if blockFmt then .mscale fmt p c (scaleList gb 32 (elem o.b)) (scaleList ga 16 (elem (o.b + 1)))
        else .mscale fmt p c [] [],
       tileNeed true p :: scaleNeeds es ++ [tileNeed false c], scaleOutside es, bwtOf s lo o, barOf s lo o⟩

/-- Rows at a stride, the stride tested with its alignment after the base. -/
def rowNeeds (a stride n len align : Nat) : List Need :=
  ⟨⟨false, a, len⟩, align, 0⟩ :: (rangeFrom 1 (n - 1)).map (fun m => ⟨⟨false, a + m * stride, len⟩, align, 0⟩)

/-- PLANE (R223). -/
def execPlane (h : Hdr) (fmt : Fmt) (tr : Bool) (sg : BitVec 2) (q : QReg) (a b mask : VReg) (s : State) : Out :=
  let e2 := fmt == .e2m1x
  signing (.plane h fmt tr sg q a b mask) h s q mask
    ([sharedReg s a 1, sharedReg s b 2] ++ (if e2 then [sharedGen s sg] else [])) (fun _ => false) fun lo _ =>
      let dst := addrOf s lo a
      let src := addrOf s lo b
      let stride := addrOf s lo (b + 1)
      let g := sgenOf s lo.thr sg
      let elem (m : Nat) : Nat := if tr then src + m / 2 else src + m * stride
      let es : List (List Word × Nat × Nat) := if e2 then (rangeFrom 0 16).map (fun m => (g, elem m, 0)) else []
      let shape := planeRows fmt tr
      ⟨.plane fmt tr dst src stride (if e2 then scaleList g 16 (fun m => some (elem m)) else []),
       ⟨⟨false, dst, 64 * allPlanes fmt⟩, 64, 0⟩ :: rowNeeds src stride shape.1 shape.2 4 ++ scaleNeeds es,
       scaleOutside es, none, none⟩

/-- ACVT (R225). -/
def execAcvt (h : Hdr) (fmt : Fmt) (sg : BitVec 2) (q : QReg) (a b mask : VReg) (s : State) : Out :=
  let blockFmt := fmt.isBlock
  signing (.acvt h fmt sg q a b mask) h s q mask
    ([sharedReg s a 1, sharedReg s b 2] ++ (if blockFmt then [sharedGen s sg] else [])) (fun _ => false) fun lo _ =>
      let t := addrOf s lo a
      let dst := addrOf s lo b
      let stride := addrOf s lo (b + 1)
      let g := sgenOf s lo.thr sg
      let elem (m : Nat) : Nat := dst + m * stride
      let es : List (List Word × Nat × Nat) := if blockFmt then (rangeFrom 0 16).map (fun m => (g, elem m, 0)) else []
      ⟨.acvt fmt t dst stride (if blockFmt then scaleList g 16 (fun m => some (elem m)) else []),
       tileNeed false t :: rowNeeds dst stride 16 (acvtRow fmt) 16 ++ scaleNeeds es, scaleOutside es, none, none⟩

/-- AZERO (R226). -/
def execAzero (h : Hdr) (p64 : Bool) (q : QReg) (a mask : VReg) (s : State) : Out :=
  signing (.azero h p64 q a mask) h s q mask [sharedReg s a 1] (fun _ => false) fun lo _ =>
    ⟨.azero p64 (addrOf s lo a), [tileNeed p64 (addrOf s lo a)], [], none, none⟩

/-- AMOV: tile and scratchpad ranges. -/
def moveNeeds (s : State) (lo : Member) (p64 : Bool) (a b : VReg) : List Need :=
  [tileNeed p64 (addrOf s lo a), ⟨⟨false, addrOf s lo b, tileLen p64⟩, 16, 0⟩]

/-- AMOV.OUT (R226). -/
def execAmovOut (h : Hdr) (p64 : Bool) (q : QReg) (a b mask : VReg) (s : State) : Out :=
  signing (.amovOut h p64 q a b mask) h s q mask [sharedReg s a 1, sharedReg s b 1] (fun _ => false) fun lo _ =>
    ⟨.amovOut p64 (addrOf s lo a) (addrOf s lo b), moveNeeds s lo p64 a b, [], none, none⟩

/-- AMOV.IN (R226). -/
def execAmovIn (h : Hdr) (p64 : Bool) (q : QReg) (a b mask : VReg) (s : State) : Out :=
  signing (.amovIn h p64 q a b mask) h s q mask [sharedReg s a 1, sharedReg s b 1] (fun _ => false) fun lo _ =>
    ⟨.amovIn p64 (addrOf s lo a) (addrOf s lo b), moveNeeds s lo p64 a b, [], none, none⟩

/-! ### MWAIT, FENCEO, BLD -/

/-- Operations a thread has signed on a q register that have not completed. -/
def signedOn' (b : Block) (tid : ThreadId) (q : QReg) : Bool :=
  (streamOf b (waveIx tid) q).any (fun o => o.mask.getLsbD (laneOf tid))

/-- MWAIT (R216). -/
def execMwait (h : Hdr) (d : Option VReg) (q : QReg) (s : State) : Out :=
  guarded h s fun x =>
    if signedOn' x.blk x.tid q then waitAt s x (.waiting (.mwait q))
    else
      let mine := x.thr.lent.filter (fun l => l.q == q)
      let b := spoilResults s.freeCtr x.blk (mine.filter Lent.spoiled)
      let w := x.blk.wave (waveIx x.tid)
      let got := (w.finished.filter (fun o => mine.any (fun l => l.op == o.id))).foldl (fun (c : Clock) o => c.join o.ordered) ([] : Clock)
      let st := (w.q[q.toNat]'(qreg_lt q)).status
      let t := { x.thr with lent := x.thr.lent.filter (fun l => l.q != q) }.acquire got
      goOnBlock h (acquireBlock s x.blk x.coreId) x b
        (match d with | some d => pendTo t (pendVals [(d, st, false)]) | none => t)

/-- The specifier of a v register of the thread whose earlier write has not landed (R213). -/
def unlanded (s : State) (t : Thread) : Option (BitVec 8) :=
  match t.pend.findSome? (fun p => p.vals.head?) with
  | some (r, _) => some (vByte r)
  | none => (t.lat.find? (fun x => decide (x.1.extractLsb' 6 2 = 0#2 ∧ s.cycle < x.2))).map (·.1)

/-- FENCEO (R213). -/
def execFenceo (h : Hdr) (s : State) : Out :=
  guarded h s fun x =>
    match unlanded s x.thr with
    | some spec => waitAt s x (.stalled (.scoreboard spec))
    | none => goOn h s x x.thr.offer

/-- Bytes BLD reads (R224). -/
def bldLen (f : Fmt) : Nat := 4 * elemWidth f

/-- The fragment words BLD writes (R224). -/
def bldWords (f : Fmt) (w : BitVec 16) (bs : List Byte) : List Word :=
  let bytes (g : Nat → Int) : List Word :=
    natWords (packElems 8 ((rangeFrom 0 32).map (fun k => (BitVec.ofInt 8 (g (packedElem (elemWidth f) bs k))).toNat))) 8
  match f with
  | .int2 => bytes (fun c => (BitVec.ofNat 2 c).toInt)
  | .int4 => bytes (fun c => (BitVec.ofNat 4 c).toInt)
  | .e2m1x => bytes (fun c => e2m1Img (BitVec.ofNat 4 c) w)
  | f => natWords (leNat bs) (if f.isMma then 16 else 8)

/-- BLD (R224). -/
def execBld (h : Hdr) (fmt : Fmt) (sg : BitVec 2) (d : VReg) (x : LocAddr) (s : State) : Out :=
  guarded h s fun cx =>
    let off := localOff s cx.thr x
    let n := bldLen fmt
    let e2 := fmt == .e2m1x
    let sc := if e2 then scaleAddr (sgenOf s cx.thr sg) off.toNat else some 0
    checked s cx (Why.first (spadBound cx.blk off n) (Why.first (localAlign off n 0)
        (match sc with
         | none => some ⟨causeCapbnd, 0x03, offLo off, 0⟩
         | some a => if e2 then Why.first (localAlign a 2 0) (spadBound cx.blk a 2) else none)))
      (let bs := cx.blk.spad.readBytes off.toNat n
       let w := if e2 then scaleWord cx.blk (sc.getD 0) else 0
       let bad := rngBad cx.blk 0 ⟨false, off.toNat, n⟩ || (e2 && rngBad cx.blk 0 ⟨false, sc.getD 0, 2⟩)
       let ws := bldWords fmt w bs
       goOnPend h s cx cx.thr (pendVals (landRegs d ws (ws.map (fun _ => bad)))))

/-! ### The engine (R210 to R217) -/

/-- An operation with its wave, block slot and q register. -/
structure Placed where
  slot : Nat
  wave : Nat
  q : Nat
  blk : Block
  op : QOp

/-- The head operations of the streams of one wave. -/
def headsOf (slot : Nat) (b : Block) (w : Nat) : List Placed :=
  (rangeFrom 0 16).flatMap (fun q =>
    match (((b.wave w).q.toList.getD q ⟨0, [], [], false⟩).ops).head? with
    | some o => [⟨slot, w, q, b, o⟩]
    | none => [])

/-- The head operations of a partition. -/
def partHeads (s : State) (cluster core part : Nat) : List Placed :=
  s.blocks.flatMap (fun p =>
    if p.2.cluster = cluster then
      (rangeFrom 0 p.2.waves.length).flatMap (fun w =>
        if (p.2.wave w).core = core ∧ (p.2.wave w).part = part then headsOf p.1 p.2 w else [])
    else [])

/-- The block runs, or runs on while it drains. -/
def Block.live (b : Block) : Bool :=
  match b.phase with
  | .running => true
  | .draining _ _ => true
  | _ => false

/-- An operation may start: its BWT condition holds (R210, R211). -/
def startable (p : Placed) : Bool :=
  p.blk.live && !p.op.started && (match p.op.bwt with
    | some (a, target) => granType p.blk a == some .barrier && (readBarrier p.blk a).reached target
    | none => true)

/-- Rewrites a wave's stream. -/
def modStream (b : Block) (wave q : Nat) (f : QState → QState) : Block :=
  let w := b.wave wave
  b.setWave wave { w with q := if hq : q < 16 then w.q.set q (f (w.q[q]'hq)) hq else w.q }


/-- The writes ordered before an operation that starts: those available to its members, those of earlier operations of its q
register, those of the arrivals its BWT acquires, and its own (R212). -/
def startClock (b : Block) (wave : Nat) (q : QReg) (o : QOp) : Clock :=
  let c := o.ordered.join ((b.wave wave).q[q.toNat]'(qreg_lt q)).clock
  (match o.bwt with
    | some (a, target) => c.join (b.order.upTo a target)
    | none => c).withOp o.id

/-- Starts an operation: its inputs are read and its result is written (R212). A write to its inputs that nothing orders before it
leaves its result undefined; of unordered operations that touch the same bytes, that of the one that reads or last writes is
(R214). -/
def startOp (ctr : Nat) (b : Block) (wave : Nat) (q : QReg) (o : QOp) : Block :=
  let core := (b.wave wave).core
  let o := { o with ordered := startClock b wave q o }
  let x : OnCore := ⟨core, o⟩
  let rivals := unordered b o.ordered o.id
  let undef := o.undef || memberSpoiled b o.id || readsRacing b o.ordered x || rivals.any (fun r => r.hits x)
  let b := (rivals.filter x.hits).foldl (fun b r => putMat r.core b (r.op.op.dests r.op.mask) (freeMat ctr r.op.mask r.op.op)) b
  let out := if undef then freeMat ctr o.mask o.op else runMat ctr b core wave o.mask o.op
  let b := putMat core b (o.op.dests o.mask) out
  let b := x.dests.foldl (fun b r => b.wroteOp o.ordered o.id r.tile r.addr r.len) b
  let b := modStream b wave q.toNat (fun st =>
    { st with ops := listModify st.ops 0 (fun _ => { o with started := true, undef := undef, flags := out.flags, err := out.err }) })
  match o.bwt with
  | some (a, _) => noteWaiters b a
  | none => b

/-- MATRIX_OP_START (R210): of a partition's startable operations the one issued first starts, when its engine runs no
other one. -/
def execMatrixOpStart (slot wave : Nat) (q : QReg) (s : State) : Out :=
  match blockOf s slot with
  | none => .next s
  | some b =>
    match (streamOf b wave q).head? with
    | none => .next s
    | some o =>
      let w := b.wave wave
      let heads := partHeads s b.cluster w.core w.part
      if startable ⟨slot, wave, q.toNat, b, o⟩ && heads.all (fun p => !p.op.started && (!startable p || decide (o.id ≤ p.op.id))) then
        .next (setBlock s slot (startOp s.freeCtr b wave q o))
      else .next s

/-- The q status word after a completed operation (Table 1.2). -/
def qStatusAfter (st : Word) (flags : BitVec 3) (err : BitVec 8) : Word :=
  (st.extractLsb' 16 16 + 1) ++ (if err = 0 then st.extractLsb' 8 8 else err) ++ 0#5 ++ (st.extractLsb' 0 3 ||| flags)

/-- A BAR arrival at completion: the pending count falls, and the arrival releases the operation's writes (R211). -/
def engineArrive (b : Block) (o : QOp) : Block :=
  match o.bar with
  | some a =>
    let r := ({ readBarrier b a with pendeng := (readBarrier b a).pendeng - 1 }).arrive
    let b := { b with order := b.order.arrive a o.ordered (readBarrier b a).phase r.phase }
    noteWaiters (writeBarrier b a r) a
  | none => b

/-- Completes the running head of a stream: an undefined result where a member spoiled it or a write to its inputs raced with it,
the q status word, the arrival. -/
def finishOp (ctr : Nat) (b : Block) (wave : Nat) (q : QReg) (o : QOp) : Block :=
  let core := (b.wave wave).core
  let spoiled := memberSpoiled b o.id || readsRacing b o.ordered ⟨core, o⟩
  let free := freeMat ctr o.mask o.op
  let b := if spoiled then putMat core b (o.op.dests o.mask) free else b
  let flags := if spoiled then free.flags else o.flags
  let b := { b with threads := b.threads.map (fun t =>
    { t with lent := t.lent.map (fun l => if l.op = o.id then { l with spoiled := false } else l) }) }
  let b := modStream b wave q.toNat (fun st =>
    { status := qStatusAfter st.status flags o.err, ops := st.ops.drop 1, clock := o.ordered, poison := st.poison })
  let b := engineArrive b o
  let w := b.wave wave
  b.setWave wave { w with finished := w.finished ++ [o] }

/-- MATRIX_OP_COMPLETE (R211, R215, R217). -/
def execMatrixOpComplete (slot wave : Nat) (q : QReg) (s : State) : Out :=
  match blockOf s slot with
  | none => .next s
  | some b =>
    match (streamOf b wave q).head? with
    | none => .next s
    | some o => if o.started then .next (setBlock s slot (finishOp s.freeCtr b wave q o)) else .next s

end Sys2Proof.Machine
end

