-- ==== Sys2Proof/Machine/Path.lean ====
section
/-! DEFINITION. The record path: logs (R284), drovers and bins (R286 to R289), staging (R290), markers and commits
(R291 to R294), slot binding notices (R283), bins from other devices (R288). -/

namespace Sys2Proof.Machine

open Sys2Proof

/-! ### Coverage (R179, R293) -/

/-- The count field of a scope. -/
def Rec.epoch (r : Rec) : CommitScope → BitVec 4
  | .t => r.tep
  | .b => r.bep
  | .g => r.gep
  | .p => r.pep

/-- A record belongs to an owner. -/
def ownedBy (s : State) (r : Rec) : Owner → Bool
  | .thread b w l => r.srcDev == s.device && r.bslot == b && r.wave == w && r.lane == l
  | .block b => r.srcDev == s.device && r.bslot == b
  | .launch id => r.srcDev == s.device && r.launch == id
  | .group g => r.srcDev == s.device && (match launchOf s r.launch with
    | some l => l.groups.any (fun p => p.1 == g)
    | none => false)

/-- A commit covers a record. -/
def covers (s : State) (c : Commit) (r : Rec) : Bool := r.epoch c.scope == c.epoch && ownedBy s r c.owner

def commitById (s : State) (id : Nat) : Option Commit := s.commits.find? (fun c => c.id == id)

def setCommit (s : State) (c : Commit) : State := { s with commits := s.commits.map (fun x => if x.id = c.id then c else x) }

/-! ### Forming markers (R293) -/

/-- Blocks of the grid (R232, R350). -/
def Launch.blocks (l : Launch) : Nat := l.gridx * ((l.word 2).extractLsb' 0 16).toNat * ((l.word 2).extractLsb' 16 16).toNat

/-- A thread has passed the restart point after its k-th commit of a scope, or has retired. -/
def Thread.past (t : Thread) (scope : CommitScope) (k : Nat) : Bool := t.status == .retired || decide (k ≤ t.region.k scope)

/-- The same of a saved thread. -/
def SavedThread.past (t : SavedThread) (scope : CommitScope) (k : Nat) : Bool :=
  t.tstate == 0 || decide (k ≤ t.counts.k scope)

/-- Every block of a launch has been placed, and every thread of it is past its k-th commit. -/
def launchPast (s : State) (id : Nat) (scope : CommitScope) (k : Nat) : Bool :=
  (match launchOf s id with
    | some l => decide (l.blocks ≤ l.nextBlock)
    | none => true)
  && s.blocks.all (fun p => p.2.launch != id || (p.2.phase != .placed && p.2.threads.all (fun t => t.past scope k)))
  && s.contexts.all (fun c => c.2.saved.all (fun b => b.launch != id || b.threads.all (fun t => t.past scope k)))

/-- A saved block in a slot. -/
def savedAt (s : State) (slot : Nat) : Option SavedBlock :=
  s.contexts.findSome? (fun c => c.2.saved.find? (fun b => b.slot == slot))

/-- A block of a slot, placed or saved, has threads past a commit: those that a condition on their number chooses. -/
def slotPast (s : State) (slot : Nat) (mine : Nat → Bool) (scope : CommitScope) (k : Nat) : Bool :=
  match blockOf s slot with
  | some b => (rangeFrom 0 b.threads.length).all (fun i => !mine i || (b.threads[i]?).any (fun t => t.past scope k))
  | none => (savedAt s slot).any (fun b =>
      (rangeFrom 0 b.threads.length).all (fun i => !mine i || (b.threads[i]?).any (fun t => t.past scope k)))

/-- Every thread that a commit pairs is past it. -/
def allPast (s : State) (c : Commit) : Bool :=
  match c.owner with
  | .thread b w l => slotPast s b.toNat (fun i => i == 32 * w.toNat + l.toNat) c.scope c.k
  | .block b => slotPast s b.toNat (fun _ => true) c.scope c.k
  | .launch id => launchPast s id c.scope c.k
  | .group _ => launchPast s c.launch c.scope c.k

/-- Cores whose logs hold a record that a commit covers: a block saved and resumed elsewhere leaves its records behind (R294). -/
def holdingCores (s : State) (c : Commit) : List Nat :=
  (s.cores.filter (fun k => (k.2.log.flatMap recOfLog).any (covers s c))).map (·.1)

/-- The cores whose logs take the marker: of the thread, the block or the grid, and those that hold records of theirs. -/
def markerCores (s : State) (c : Commit) : List Nat :=
  (match c.owner with
  | .thread b w _ => (match blockOf s b.toNat with | some blk => [4 * blk.cluster + (blk.wave w.toNat).core] | none => [])
  | .block b => (match blockOf s b.toNat with | some blk => blk.cores.map (fun k => 4 * blk.cluster + k) | none => [])
  | .launch _ | .group _ => (match launchOf s c.launch with | some l => l.cores | none => []))
  ++ holdingCores s c

/-- An earlier commit of the same scope and owner. -/
def Commit.follows (c x : Commit) : Bool := x.scope == c.scope && x.owner == c.owner && decide (x.k < c.k)

/-! ### Entries (Tables 10.2, 10.3, 10.7) -/

/-- A commit marker (Table 10.7). -/
def markerBits (s : State) (c : Commit) (mseq : BitVec 32) : BitVec 128 :=
  let who : BitVec 28 := match c.owner with
    | .thread b w l => w ++ l ++ b
    | .block b => (0#13 : BitVec 13) ++ b
    | _ => 0
  let scope : BitVec 2 := match c.scope with | .t => 0 | .b => 1 | .g => 2 | .p => 3
  let id : BitVec 16 := match c.owner with
    | .launch l => ((launchOf s l).map Launch.lnum).getD 0
    | .group g => BitVec.ofNat 16 g
    | _ => 0
  mseq ++ who ++ c.epoch ++ (0#12 : BitVec 12) ++ (0xF#4 : BitVec 4) ++ scope ++ id ++ (0#30 : BitVec 30)

/-- A slot binding notice (R283). -/
def noticeBits (bslot : BitVec 15) (lnum : BitVec 16) (unbind : Bool) : BitVec 128 :=
  (0#45 : BitVec 45) ++ bslot ++ (0#16 : BitVec 16) ++ (0xE#4 : BitVec 4) ++ (0#2 : BitVec 2) ++ lnum ++ BitVec.ofBool unbind ++ (0#29 : BitVec 29)

/-- The 16-byte entries of what travels on the path. -/
def Entry.bits : Entry → List (BitVec 128)
  | .record r => r.bits
  | .marker _ x => [x]
  | .notice b l u => [noticeBits b l u]
  | .foreign x => [x]

/-- Entry slots of 16 bytes. -/
def Entry.slots (e : Entry) : Nat := e.bits.length
def slotsOf (es : List Entry) : Nat := (es.map Entry.slots).foldl (· + ·) 0

def Entry.isMarker : Entry → Bool
  | .marker _ _ => true
  | .foreign _ => true
  | _ => false

/-! ### Paths and bins (R286, R287) -/

/-- The path of another device's entries to a channel of this one (R288). -/
def foreignPath (src : BitVec 10) (chan : Nat) : Nat := 1408 + 384 * src.toNat + chan

/-- The channel that a path leads to; a remote route leads to none. -/
def pathChan (p : Nat) : Option Nat := if p < 384 then some p else if p < 1408 then none else some ((p - 1408) % 384)

/-- The device whose entries a path carries. -/
def pathSrc (s : State) (p : Nat) : BitVec 10 := if p < 1408 then s.device else BitVec.ofNat 10 ((p - 1408) / 384)

/-- A bin's header (Table 10.6). The CHAN of a bin of a remote route, which has no channel, is 0 (log 105). -/
def Bin.header (b : Bin) : List Word :=
  ((0#9 : BitVec 9) ++ BitVec.ofNat 9 ((pathChan b.path).getD 0) ++ b.srcDev ++ BitVec.ofNat 2 b.die
      ++ (if (pathChan b.path).isNone then 1#2 else 0#2)) :: BitVec.ofNat 32 (slotsOf b.entries) :: b.bseq :: List.replicate 13 0

def Drover.empty : Drover := ⟨[], []⟩
def Path.empty : Path := ⟨[], 0, 0, []⟩
def droverOf (s : State) (die : Nat) : Drover := Assoc.getD s.drovers die Drover.empty
def setDrover (s : State) (die : Nat) (d : Drover) : State := { s with drovers := Assoc.set s.drovers die d }
def Drover.path (d : Drover) (p : Nat) : Path := Assoc.getD d.paths p Path.empty
def Drover.setPath (d : Drover) (p : Nat) (x : Path) : Drover := { d with paths := Assoc.set d.paths p x }

/-- The path takes another entry: it is not waiting to ship a marker, and there is room. -/
def Path.takes (p : Path) (n : Nat) : Bool :=
  !(p.entries.any Entry.isMarker) && decide (slotsOf p.entries + n ≤ Config.binSlots)

/-- Bins in use: open ones and those not yet at their lehr. -/
def Drover.bins (d : Drover) : Nat := (d.paths.filter (fun p => !p.2.entries.isEmpty)).length + d.inFlight.length

/-- A bin is free for the path, or it has one open. -/
def Drover.hasBin (d : Drover) (p : Nat) : Bool := !(d.path p).entries.isEmpty || decide (d.bins < Config.maxBins)

/-- An entry joins its path, which notes whose it is; none where it must wait for room or for a free bin (R286). -/
def Drover.put (d : Drover) (p : Nat) (owners : List (CommitScope × Owner)) (e : Entry) : Option Drover :=
  let x := d.path p
  if x.takes e.slots && d.hasBin p then
    some (d.setPath p { x with entries := x.entries ++ [e], carried := (x.carried ++ owners).dedup })
  else none

/-- Owners of a record, by scope. -/
def ownersOf (s : State) (r : Rec) : List (CommitScope × Owner) :=
  [(.t, .thread r.bslot r.wave r.lane), (.b, .block r.bslot), (.g, .launch r.launch)]
    ++ (match launchOf s r.launch with
      | some l => l.groups.map (fun g => (.p, .group g.1))
      | none => [])

/-- A path has taken the marker of a scope of an owner. -/
def Path.marked (p : Path) (o : CommitScope × Owner) : Path :=
  { p with mseq := p.mseq + 1, carried := p.carried.filter (fun x => x != o) }

/-- A marker joins each of some paths that carried records of its owner since the last one of its scope (R293); none where one
of them cannot take it yet. -/
def sendMark (mark : Path → Entry) (o : CommitScope × Owner) (mine : Nat → Bool) (d : Drover) : Option Drover :=
  (d.paths.filter (fun p => mine p.1 && p.2.carried.contains o)).foldlM (fun d p =>
    (d.put p.1 [] (mark p.2)).map (fun d => d.setPath p.1 ((d.path p.1).marked o))) d

/-- A commit's marker goes down the paths of a drover that carry this device's entries. -/
def sendMarker (s : State) (c : Commit) (d : Drover) : Option Drover :=
  sendMark (fun p => .marker c.id (markerBits s c p.mseq)) (c.scope, c.owner) (fun p => decide (p < 1408)) d

/-! ### What lehrs have received (R291) -/

/-- A marker of another device that belongs to a group commit of this one: its ID and EPOCH are the commit's (R293). -/
def Commit.joins (c : Commit) (bits : BitVec 128) : Bool :=
  bits.extractLsb' 46 2 == 3#2 && c.scope == .p && c.owner == .group (bits.extractLsb' 30 16).toNat && c.epoch == bits.extractLsb' 64 4

/-- What a marker of a source stands for. -/
def markOf (s : State) (src : BitVec 10) : Entry → Option LehrMark
  | .marker id _ => some (.own id)
  | .foreign bits =>
    (match s.commits.find? (fun c => c.joins bits) with
    | some c => some (.own c.id)
    | none => some (.foreign src (BitVec.setWidth 128 (bits.extractLsb' 0 96))))
  | _ => none

/-- An entry of a path or bin is a part of a marker. -/
def partOf (s : State) (m : LehrMark) (src : BitVec 10) (e : Entry) : Bool := markOf s src e == some m

/-- Parts of a marker are on their way to a channel. -/
def onTheWay (s : State) (m : LehrMark) (chan : Nat) : Bool :=
  s.drovers.any (fun d =>
    d.2.paths.any (fun p => pathChan p.1 == some chan && p.2.entries.any (partOf s m (pathSrc s p.1)))
      || d.2.inFlight.any (fun b => pathChan b.path == some chan && b.entries.any (partOf s m b.srcDev)))

/-- A part of a marker is staged at a channel. -/
def stagedMark (s : State) (m : LehrMark) (chan : Nat) : Bool :=
  (Assoc.getD s.staging chan []).any (fun e => partOf s m e.src e.entry)

/-- A launch of this device has joined the group that a marker names, so that a commit of its own belongs with it. -/
def groupOwed (s : State) (bits : BitVec 128) : Bool :=
  bits.extractLsb' 46 2 == 3#2 && s.launches.any (fun l => l.2.groups.any (fun g => g.1 == (bits.extractLsb' 30 16).toNat))

/-- No part of a marker is still to come to a channel from this device's logs and drovers (R291, log 45). -/
def allParts (s : State) (m : LehrMark) (chan : Nat) : Bool :=
  (match m with
    | .own id => (commitById s id).any (fun c => c.formed && c.coresLeft.isEmpty)
    | .foreign _ bits => !groupOwed s bits)
  && !onTheWay s m chan

/-- Adds the markers that are complete at a channel to its list. -/
def noteChannel (s : State) (chan : Nat) (es : List Staged) : State :=
  (es.filterMap (fun e => markOf s e.src e.entry)).foldl (fun s m =>
    let ms := Assoc.getD s.lehrs chan []
    if ms.contains m || !allParts s m chan then s else { s with lehrs := Assoc.set s.lehrs chan (ms ++ [m]) }) s

/-- The lehrs note, in the order in which they come about, which markers they have whole (R291). -/
def noteComplete (s : State) : State := s.staging.foldl (fun s c => noteChannel s c.1 c.2) s

/-! ### From the logs to the drovers (R283, R284, R293) -/

/-- MARKER_FORM (R293): each core appends the marker behind the records of its threads, after every earlier one of its scope and
owner. -/
def execMarkerForm (commit : Nat) (s : State) : Out :=
  match commitById s commit with
  | none => .next s
  | some c =>
    if c.formed || !allPast s c || s.commits.any (fun x => c.follows x && !x.formed) then .next s
    else
      let cores := (markerCores s c).dedup
      let s := setCommit s { c with formed := true, coresLeft := cores }
      .next (noteComplete (cores.foldl (fun s k => setCore s k { coreOf s k with log := (coreOf s k).log ++ [.marker commit] }) s))

/-- The drover of a C-die has sent the binding notice of a slot. -/
def boundOn (s : State) (die slot : Nat) : Bool :=
  match blockOf s slot with
  | some b => b.bound.contains die
  | none => (match savedAt s slot with | some b => b.bound.contains die | none => true)

/-- A marker waits in a log for what it covers there and for earlier markers of its scope and owner. An open record that it would
cover was formed in a region that a handler's COMMIT left open, and is not waited for (R300, log 103). -/
def markerWaits (s : State) (c : Commit) (before : List LogEntry) : Bool :=
  before.any (fun e => match e with
    | .record r isOpen => !isOpen && covers s c r
    | .marker id => (commitById s id).any c.follows)

/-- LOG_DRAIN (R284): entry k of a core's log goes to its die's drover: a closed record with no earlier record of its
thread before it, or a marker with nothing before it that it waits for. -/
def execLogDrain (core k : Nat) (s : State) : Out :=
  let c := coreOf s core
  let die := core / 4 / Config.clustersPerDie
  let d := droverOf s die
  let before := c.log.take k
  let gone := setCore s core { c with log := c.log.eraseIdx k }
  match c.log[k]? with
  | none => .next s
  | some (.record r isOpen) =>
    if isOpen || (before.flatMap recOfLog).any (fun x => x.sameThread r) || !boundOn s die r.bslot.toNat then .next s
    else
      match d.put (r.path s.device) (ownersOf s r) (.record r) with
      | none => .next s
      | some d => .next (setDrover gone die d)
  | some (.marker id) =>
    match commitById s id with
    | none => .next gone
    | some cm =>
      if markerWaits s cm before then .next s
      else
        match sendMarker s cm d with
        | none => .next s
        | some d => .next (noteComplete (setDrover (setCommit gone { cm with coresLeft := cm.coresLeft.erase core }) die d))

/-- Every path of this device's entries: its 384 channels and one route for each device it has a route to (R286). -/
def allPaths (s : State) : List Nat := rangeFrom 0 384 ++ s.fabric.routes.map (fun r => 384 + r.1)

/-- A notice goes down every path of a drover; none where one of them cannot take it yet. -/
def sendNotice (s : State) (die slot : Nat) (lnum : BitVec 16) (unbind : Bool) : Option State :=
  ((allPaths s).foldlM (fun (d : Drover) p => d.put p [] (.notice (BitVec.ofNat 15 slot) lnum unbind)) (droverOf s die)).map (setDrover s die)

/-- Records of a block slot that are not applied or discarded. -/
def slotRecs (s : State) (slot : Nat) : List Rec :=
  (allRecs s).filter (fun r => r.srcDev == s.device && r.bslot.toNat == slot)

/-- A C-die's drover sends a slot's binding notice: that of the die where the block is placed, or where records of it are. -/
def bindsOn (s : State) (die slot : Nat) : Bool :=
  (blockOf s slot).any (fun b => b.cluster / Config.clustersPerDie == die)
    || s.cores.any (fun c => c.1 / 4 / Config.clustersPerDie == die && (c.2.log.flatMap recOfLog).any (fun r => r.bslot.toNat == slot))

/-- The launch number of a launch. -/
def lnumAt (s : State) (launch : Nat) : BitVec 16 := ((launchOf s launch).map Launch.lnum).getD 0

/-- Unbind notices owed for a slot that goes, by the C-dies that have sent its binding notice. -/
def oweUnbind (s : State) (u : Assoc Unbinding) (slot launch : Nat) (dies : List Nat) : Assoc Unbinding :=
  if dies.isEmpty then u else Assoc.set u slot ⟨lnumAt s launch, dies⟩

/-- Which C-dies have sent the binding notice of a saved block. -/
def setSavedBound (s : State) (slot : Nat) (dies : List Nat) : State :=
  { s with contexts := Assoc.mapVals s.contexts (fun _ c => { c with
      saved := c.saved.map (fun b => if b.slot = slot then { b with bound := dies } else b) }) }

/-- The notice that a C-die's drover sends for a slot now: its launch number, and what the state is once it is sent. A bind notice
goes out before the block's first record on that die; the unbind notice of a block that has retired, or that is gone with its
launch, once every record of it is applied or discarded (R283). -/
def noticeDue (s : State) (die slot : Nat) (unbind : Bool) : Option (BitVec 16 × (State → State)) :=
  let clean := (slotRecs s slot).isEmpty
  match blockOf s slot, savedAt s slot, Assoc.get s.unbinding slot with
  | some b, _, _ =>
    if unbind then
      if b.phase == .retired && clean && b.bound.contains die then
        some (lnumAt s b.launch, fun s =>
          if b.bound.erase die = [] then { s with blocks := Assoc.erase s.blocks slot } else setBlock s slot { b with bound := b.bound.erase die })
      else none
    else if bindsOn s die slot && !b.bound.contains die then
      some (lnumAt s b.launch, fun s => setBlock s slot { b with bound := b.bound ++ [die] })
    else none
  | none, some b, _ =>
    if !unbind && bindsOn s die slot && !b.bound.contains die then
      some (lnumAt s b.launch, fun s => setSavedBound s slot (b.bound ++ [die]))
    else none
  | none, none, some u =>
    if unbind && clean && u.dies.contains die then
      let left := u.dies.erase die
      some (u.lnum, fun s => { s with
        unbinding := if left = [] then Assoc.erase s.unbinding slot else Assoc.set s.unbinding slot { u with dies := left } })
    else none
  | none, none, none => none

/-- SLOT_BINDING_NOTICE (R283). -/
def execSlotBindingNotice (die slot : Nat) (unbind : Bool) (s : State) : Out :=
  match noticeDue s die slot unbind with
  | none => .next s
  | some (lnum, sent) =>
    match sendNotice s die slot lnum unbind with
    | none => .next s
    | some s => .next (sent s)

/-! ### Bins leave (R288, R289) -/

/-- A record of another thread merges into the latest record of the bin to the same deferred word, where that one is alike, covered
by the same marker, and of a launch that is not deterministic (R289). The entries stand latest first. -/
def mergeInto (ok : Rec → Bool) (r : Rec) : List Entry → Option (List Entry)
  | [] => none
  | .record p :: es =>
    if p.word8 == r.word8 then
      if ok p && p.alike r && !p.sameThread r && coalesces false r then some (.record (p.withVal (combineVal p r)) :: es) else none
    else (mergeInto ok r es).map (fun es => .record p :: es)
  | e :: es => (mergeInto ok r es).map (fun es => e :: es)

/-- The entries of a bin, merged in place: those that stay, latest first, and the records absorbed. -/
def mergeEntries (ok : Rec → Bool) : List Entry → List Entry × List Rec → List Entry × List Rec
  | [], a => a
  | .record r :: es, (kept, gone) =>
    (match (if ok r then mergeInto ok r kept else none) with
    | some k => mergeEntries ok es (k, r :: gone)
    | none => mergeEntries ok es (.record r :: kept, gone))
  | e :: es, (kept, gone) => mergeEntries ok es (e :: kept, gone)

/-- Entries of a bin that ships with a marker of this device, its covered records merged, and the records absorbed (R289). -/
def mergeBin (s : State) (es : List Entry) : List Entry × List Rec :=
  match es.getLast? with
  | some (.marker id _) =>
    (match commitById s id with
    | none => (es, [])
    | some c =>
      let (kept, gone) := mergeEntries (fun r => covers s c r && !r.det) es ([], [])
      (kept.reverse, gone))
  | _ => (es, [])

/-- A bin ships: it is full, or its last entry is a marker. A bin of 251 slots counts as full: an extended record, or a notice and
a record, no longer fits (R288, log 105). -/
def Path.ships (p : Path) : Bool := p.entries.any Entry.isMarker || decide (Config.binSlots ≤ slotsOf p.entries + 1)

/-- BIN_SHIP (R287, R288). -/
def execBinShip (die path : Nat) (s : State) : Out :=
  let d := droverOf s die
  let p := d.path path
  if !p.ships then .next s
  else
    let (es, gone) := mergeBin s p.entries
    let d := d.setPath path { p with entries := [], bseq := p.bseq + 1 }
    .next (uncharge (setDrover s die { d with inFlight := d.inFlight ++ [⟨path, die, pathSrc s path, p.bseq, es⟩] }) gone)

/-! ### Bins from other devices (R288) -/

/-- A record of another device from its halves (Tables 10.2 and 10.3); `lnum` is its slot's launch number. -/
def recOfBits (home src : BitVec 10) (lnum : Nat) (lo hi : BitVec 128) : Rec where
  value := lo.extractLsb' 96 32
  valhi := if lo.getLsbD 42 then hi.extractLsb' 32 32 else 0
  wave := lo.extractLsb' 88 8
  lane := lo.extractLsb' 83 5
  bslot := lo.extractLsb' 68 15
  tep := lo.extractLsb' 64 4
  bep := lo.extractLsb' 60 4
  gep := lo.extractLsb' 56 4
  pep := lo.extractLsb' 52 4
  opc := lo.extractLsb' 48 4
  ty := lo.extractLsb' 45 3
  wid := lo.extractLsb' 43 2
  ext := lo.getLsbD 42
  paddr := lo.extractLsb' 0 39
  block := if lo.getLsbD 42 then hi.extractLsb' 96 32 else 0
  seq := if lo.getLsbD 42 then hi.extractLsb' 64 19 else 0
  decay := if lo.getLsbD 42 then hi.extractLsb' 8 24 else 0
  home := home
  launch := lnum
  srcDev := src
  det := lo.getLsbD 42

/-- Key of a binding of another device's slot. -/
def bindKey (src : BitVec 10) (slot : BitVec 15) : Nat := src.toNat * 2 ^ 15 + slot.toNat

/-- Launch number bound to a slot of another device. -/
def lnumOf (s : State) (src : BitVec 10) (slot : BitVec 15) : Nat := Assoc.getD s.fabric.bindings (bindKey src slot) 0

/-- Whether an address belongs to a die's channels. -/
def onDie (die paddr : Nat) : Bool := paddr / Config.stackBytes / 3 == die

/-- Owners of another device's record. Which groups its launch has joined it does not say: 0 stands for each of them (log 45). -/
def foreignOwners (r : Rec) : List (CommitScope × Owner) :=
  [(.t, .thread r.bslot r.wave r.lane), (.b, .block r.bslot), (.g, .launch r.launch), (.p, .group 0)]

/-- The scope and owner of another device's marker. -/
def foreignOwner (x : BitVec 128) : CommitScope × Owner :=
  let scope : BitVec 2 := x.extractLsb' 46 2
  if scope = 0 then (.t, .thread (x.extractLsb' 68 15) (x.extractLsb' 88 8) (x.extractLsb' 83 5))
  else if scope = 1 then (.b, .block (x.extractLsb' 68 15))
  else if scope = 2 then (.g, .launch (x.extractLsb' 30 16).toNat)
  else (.p, .group 0)

/-- A record of another device joins the path of its channel; one for another die is that die's to bin. -/
def rebinRec (die : Nat) (src : BitVec 10) (r : Rec) (s : State) : Option State :=
  if onDie die r.paddr.toNat then
    ((droverOf s die).put (foreignPath src (chanOf r.paddr.toNat)) (foreignOwners r) (.record r)).map (setDrover s die)
  else some s

/-- A marker of another device joins the paths that carried records of its owner. -/
def rebinMark (die : Nat) (src : BitVec 10) (x : BitVec 128) (s : State) : Option State :=
  (sendMark (fun _ => .foreign x) (foreignOwner x) (fun p => decide (1408 ≤ p) && pathSrc s p == src) (droverOf s die)).map (setDrover s die)

/-- A notice of another device binds its slot, or ends the binding. -/
def rebinNotice (src : BitVec 10) (x : BitVec 128) (s : State) : State :=
  let k := bindKey src (x.extractLsb' 68 15)
  { s with fabric := { s.fabric with
      bindings := if x.getLsbD 29 then Assoc.erase s.fabric.bindings k else Assoc.set s.fabric.bindings k (x.extractLsb' 30 16).toNat } }

/-- The entries of an arriving bin, in order: records go to the paths of a die's channels, with markers behind them; none where
one of them cannot be binned yet. -/
def rebin (die : Nat) (src : BitVec 10) : List (BitVec 128) → State → Option State
  | [], s => some s
  | x :: xs, s =>
    let opc := x.extractLsb' 48 4
    let of (y : BitVec 128) : Rec := recOfBits s.device src (lnumOf s src (x.extractLsb' 68 15)) x y
    if opc = 0xE#4 then rebin die src xs (rebinNotice src x s)
    else if opc = 0xF#4 then (rebinMark die src x s).bind (fun s => rebin die src xs s)
    else if x.getLsbD 42 then
      (match xs with
      | [] => some s
      | y :: ys => (rebinRec die src (of y) s).bind (fun s => rebin die src ys s))
    else (rebinRec die src (of 0) s).bind (fun s => rebin die src xs s)

/-- REMOTE_REBIN (R288): of a route bin arriving at its home device, the drover of a die bins again what is for its channels. -/
def execRemoteRebin (die : Nat) (bin : RemoteBin) (s : State) : Out :=
  if Config.numDies ≤ die ∨ Config.numDevices ≤ bin.srcDev ∨ bin.srcDev = s.device.toNat then .next s
  else .next ((rebin die (BitVec.ofNat 10 bin.srcDev) bin.entries s).getD s)

/-! ### Staging (R290) -/

/-- The stack of a channel. -/
def stackOf (chan : Nat) : Nat := chan / 32

/-- Bytes staged in a stack's region. -/
def stackUse (s : State) (stack : Nat) : Nat :=
  (s.staging.flatMap (fun c => (c.2.filter (fun e => e.stack == stack)).map (fun e => 16 * e.entry.slots))).foldl (· + ·) 0

/-- Bytes of one stack's region. -/
def regionBytes (s : State) : Nat := s.service.settings.stagingHalfGiB * 2 ^ 29

/-- The next bin of each path, as BSEQ orders them. -/
def nextBins : List Bin → List Bin
  | [] => []
  | b :: bs => b :: (nextBins bs).filter (fun x => x.path != b.path)

/-- The bins that may arrive next on some paths, each with its drover's die. -/
def arriving (s : State) (f : Nat → Bool) : List (Nat × Bin) :=
  s.drovers.flatMap (fun d => ((nextBins d.2.inFlight).filter (fun b => f b.path)).map (fun b => (d.1, b)))

/-- The entries of a bin that stay at its destination: a notice ends there. -/
def Bin.arrived (b : Bin) : List Entry := b.entries.filter (fun e => match e with | .notice _ _ _ => false | _ => true)

/-- A bin has left its drover. -/
def takeBin (s : State) (die : Nat) (b : Bin) : State :=
  setDrover s die { droverOf s die with inFlight := (droverOf s die).inFlight.erase b }

/-- A bin of a remote route arrives at its home device (log 46). -/
def stageAbroad (path k : Nat) (s : State) : State :=
  match (arriving s (· == path))[k]? with
  | none => s
  | some (die, b) =>
    let s := takeBin s die b
    { s with abroad := s.abroad ++ b.arrived.map (fun e => ⟨path - 384, die, e⟩) }

/-- A bin is staged for a channel in a stack's region; a lawless record in it is reported and dropped (R281). -/
def stageBin (chan stack die : Nat) (b : Bin) (s : State) : State :=
  let bad := (b.entries.flatMap recOfEntry).filter (fun r => !r.legal)
  let es := b.arrived.filter (fun e => (recOfEntry e).all Rec.legal)
  let s := takeBin s die b
  let s := { s with staging := Assoc.set s.staging chan (Assoc.getD s.staging chan [] ++ es.map (fun e => ⟨e, stack, die, b.srcDev⟩)) }
  noteComplete (uncharge (bad.foldl reportRec s) bad)

/-- BIN_STAGE (R290): the k-th bin that may arrive next at a channel, in BSEQ order from its drover, is written to its own stack's
region, or to another's when that is full. A number from 384 names a remote route. -/
def execBinStage (chan k stack : Nat) (s : State) : Out :=
  if 384 ≤ chan then .next (if chan < 1408 then stageAbroad chan k s else s)
  else
    match (arriving s (fun p => pathChan p == some chan))[k]? with
    | none => .next s
    | some (die, b) =>
      let need := 16 * slotsOf b.entries
      let fits (st : Nat) : Bool := decide (stackUse s st + need ≤ regionBytes s)
      let own := stackOf chan
      if (if stack = own then fits own else decide (stack < Config.numStacks) && !fits own && fits stack) then
        .next (stageBin chan stack die b s)
      else .next s

/-! ### Applying a marker (R291, R296 to R298, R302) -/

/-- An earlier commit of the same scope and owner has not been applied at the channel (R291). -/
def earlierPending (s : State) (m : LehrMark) (chan : Nat) : Bool :=
  match m with
  | .own id => (commitById s id).any (fun c => s.commits.any (fun x => c.follows x
      && (stagedMark s (.own x.id) chan || onTheWay s (.own x.id) chan || !x.coresLeft.isEmpty)))
  | .foreign _ _ => false

/-- Where the entry of the compressed page that holds an address of a device lies, with its context, object and page. -/
def cmpPageOf (s : State) (home paddr : Nat) : Option (Nat × Nat × Nat × Nat) :=
  s.contexts.findSome? (fun c => (objectsOf s c.1).findSome? (fun o =>
    let oe := o.2
    if objWsf oe || objHome oe != home then none
    else
      (rangeFrom 0 (ceilDiv (objSize oe) (objPage oe))).findSome? (fun p =>
        match pageEntryAddr s home (objRoot oe) p with
        | none => none
        | some pa =>
          let pe : BitVec 64 := s.dram.read64 pa
          if pagePresent pe && pageCmp pe && decide (pagePfn pe ≤ paddr ∧ paddr < pagePfn pe + objPage oe) then
            some (c.1, o.1, p * objPage oe, pa)
          else none)))

/-- A compressed page that no longer fits is written expanded (R302). -/
def expandFor (s : State) (r : Rec) : State :=
  match (if r.legal then cmpPageOf s r.home.toNat r.paddr.toNat else none) with
  | none => s
  | some (ctx, obj, page, pa) => expandPage s (some ctx) pa r.paddr.toNat obj page

/-- Applies records and takes their charge away. -/
def applyAll (s : State) (rs : List Rec) : State := uncharge (rs.foldl expandFor (applyRecs s rs)) rs

/-- A marker of another device covers a record of it: its scope, owner and epoch are the record's. The group of a .P marker no record
names (log 45). -/
def foreignCovers (x : BitVec 128) (r : Rec) : Bool :=
  let o := foreignOwner x
  r.epoch o.1 == x.extractLsb' 64 4 && (foreignOwners r).contains o

/-- A marker covers a record of its own source. -/
def Entry.covering (s : State) (r : Rec) : Entry → Bool
  | .marker id _ => (commitById s id).any (fun c => covers s c r)
  | .foreign x => foreignCovers x r
  | _ => false

/-- Splits staged entries at a marker: the records it covers, each with a part of the marker from its own drover and source behind
it, and what stays. -/
def splitStaged (s : State) (m : LehrMark) : List Staged → List Rec × List Staged
  | [] => ([], [])
  | e :: es =>
    let (rs, rest) := splitStaged s m es
    match e.entry with
    | .record r =>
      if es.any (fun x => x.die == e.die && x.src == e.src && partOf s m x.src x.entry && x.entry.covering s r) then (r :: rs, rest)
      else (rs, e :: rest)
    | x => if partOf s m e.src x then (rs, rest) else (rs, e :: rest)

/-- A lehr applies a marker that it has whole. -/
def applyMark (s : State) (chan : Nat) (m : LehrMark) : State :=
  let (rs, rest) := splitStaged s m (Assoc.getD s.staging chan [])
  applyAll { s with
    staging := Assoc.set s.staging chan rest
    lehrs := Assoc.set s.lehrs chan ((Assoc.getD s.lehrs chan []).filter (fun x => x != m)) } rs

/-- The marker that a lehr processes next: the first one complete at it with no earlier one of its owner outstanding (R291). -/
def nextMark (s : State) (chan : Nat) : Option LehrMark :=
  (Assoc.getD s.lehrs chan []).find? (fun m => stagedMark s m chan && !earlierPending s m chan)

/-- A marker is the one that a number names: a commit of this device, or, where it names none, any of another device (log 45). -/
def LehrMark.named (s : State) (commit : Nat) : LehrMark → Bool
  | .own id => id == commit
  | .foreign _ _ => (commitById s commit).isNone

/-- MARKER_APPLY (R291): the covered records of the marker that is next at a channel are applied row by row. -/
def execMarkerApply (commit chan : Nat) (s : State) : Out :=
  match nextMark s chan with
  | none => .next s
  | some m => if m.named s commit then .next (applyMark s chan m) else .next s

/-! ### The end of a commit (R293, R294) -/

/-- Parts of a commit's marker are still on a path, or staged at a channel. -/
def marksLeft (s : State) (id : Nat) : Bool :=
  s.drovers.any (fun d => d.2.paths.any (fun p => p.2.entries.any (partOf s (.own id) (pathSrc s p.1)))
    || d.2.inFlight.any (fun b => b.entries.any (partOf s (.own id) b.srcDev)))
  || s.staging.any (fun c => c.2.any (fun e => partOf s (.own id) e.src e.entry))

/-- Splits the entries at other devices at a commit's marker. -/
def splitAbroad (s : State) (c : Commit) : List Sent → List Rec × List Sent
  | [] => ([], [])
  | e :: es =>
    let (rs, rest) := splitAbroad s c es
    match e.entry with
    | .record r =>
      if es.any (fun x => x.home == e.home && x.die == e.die && partOf s (.own c.id) s.device x.entry) && covers s c r then (r :: rs, rest)
      else (rs, e :: rest)
    | x => if partOf s (.own c.id) s.device x then (rs, rest) else (rs, e :: rest)

/-- The covered records at other devices are applied there before the acknowledgement returns (log 46). -/
def applyAbroad (s : State) (c : Commit) : State :=
  let (rs, rest) := splitAbroad s c s.abroad
  applyAll { s with abroad := rest } rs

/-- The token of a commit receives its status (R26), an acquire by the thread's core (R306). -/
def landFor (s : State) (c : Commit) (tid : ThreadId) : State :=
  let s := modThread s tid (fun t => landToken s.cycle t (.commit c.id) (statusWord 0 0x9 c.code))
  match blockOf s tid.slot with
  | none => s
  | some b => l1Acquire s (coreIdOf b tid)

/-- The tokens of a commit receive their status. -/
def landCommit (s : State) (c : Commit) : State := c.tokens.foldl (fun s x => landFor s c x.1) s

/-- A group's count of completed commits (R408). -/
def countGroup (s : State) (c : Commit) : State :=
  match c.owner with
  | .group g =>
    (match Assoc.get s.fabric.groups g with
    | some p => { s with fabric := { s.fabric with groups := Assoc.set s.fabric.groups g { p with commits := p.commits + 1 } } }
    | none => s)
  | _ => s

/-- COMMIT_COMPLETE (R293): every acknowledgement has returned. For a .P commit, the event stands for those of the other members too
(log 46). -/
def execCommitComplete (commit : Nat) (s : State) : Out :=
  match commitById s commit with
  | none => .next s
  | some c =>
    if !c.formed || !c.coresLeft.isEmpty || marksLeft s commit then .next s
    else
      let s := countGroup (landCommit (applyAbroad s c) c) c
      .next { s with commits := s.commits.filter (fun x => x.id != commit) }

end Sys2Proof.Machine
end

