-- ==== Sys2Proof/Machine/Packet.lean ====
section
/-! DEFINITION. Launch packets (Table 16.2): their fields, the checks of R342, and their fetch (R338 to R341). -/

namespace Sys2Proof.Machine

open Sys2Proof

/-! ### Fields of a packet -/

/-- Word i of a packet. -/
def pw (p : List Word) (i : Nat) : Word := p.getD i 0
/-- n bits of word i from a bit. -/
def pf (p : List Word) (i lo n : Nat) : Nat := ((pw p i).extractLsb' lo n).toNat
/-- The object a word names. -/
def pObj (p : List Word) (i : Nat) : Nat := pf p i 0 24
/-- A 40-bit offset in two words. -/
def pOff (p : List Word) (i : Nat) : Nat := (pw p i).toNat + 2 ^ 32 * pf p (i + 1) 0 8
/-- A 64-bit value in two words. -/
def p64 (p : List Word) (i : Nat) : Nat := (pw p i).toNat + 2 ^ 32 * (pw p (i + 1)).toNat

def pWaves (p : List Word) : Nat := pf p 3 0 8 + 1
def pTiles (p : List Word) : Nat := pf p 3 16 8
def pScratch (p : List Word) : Nat := pf p 4 0 23
/-- Cores of a block: n of R342. -/
def pCores (p : List Word) : Nat := max (ceilDiv (pWaves p) 64) (pf p 3 8 2 + 1)
/-- Bytes of a block's slice: L of R254. -/
def pSlice (p : List Word) : Nat := ceilDiv (pScratch p) (pCores p * 1024) * 1024

/-- Reserved fields that a packet of either type carries, as word, lowest bit and width (R340). -/
def reservedBoth : List (Nat × Nat × Nat) :=
  [(0, 23, 9), (12, 24, 8), (14, 8, 24), (15, 12, 19), (18, 12, 19), (21, 12, 19)]

/-- Reserved fields of a kernel packet alone. -/
def reservedKernel : List (Nat × Nat × Nat) :=
  [(3, 24, 8), (3, 10, 6), (4, 23, 9), (6, 24, 8), (8, 8, 24), (9, 24, 8), (11, 8, 24)]
    ++ (rangeFrom 24 8).map (fun i => (i, 0, 32))

def fieldsZero (p : List Word) (fs : List (Nat × Nat × Nat)) : Bool := fs.all (fun f => pf p f.1 f.2.1 f.2.2 == 0)

/-- A packet of TYPE 0x02 is a marker. -/
def isMarker (p : List Word) : Bool := pf p 0 0 8 == 2

/-! ### Checks (R342, Table 16.3) -/

def badPkt : BitVec 8 := 0x81
def badGrid : BitVec 8 := 0x82
def badBlock : BitVec 8 := 0x83
def badEntry : BitVec 8 := 0x84
def badFlock : BitVec 8 := 0x85
def badArg : BitVec 8 := 0x86
def stCancel : BitVec 8 := 0x80

/-- A range of n bytes lies in an object of the context, its offset a multiple of `align`. -/
def inObject (s : State) (ctx obj off n align : Nat) : Bool :=
  match objEntry s ctx obj with
  | none => false
  | some e => decide (off % align = 0 ∧ (if objWsf e then off % 2 ^ 32 else off) + n ≤ objSize e)

/-- BADPKT. -/
def pktOk (p : List Word) : Bool :=
  pf p 0 8 8 == 1 && (pf p 0 0 8 == 1 || isMarker p) && fieldsZero p reservedBoth && (isMarker p || fieldsZero p reservedKernel)

/-- CPLOBJ is 0 or holds the record. -/
def cplOk (s : State) (ctx : Nat) (p : List Word) : Bool :=
  pObj p 12 == 0 || inObject s ctx (pObj p 12) (pOff p 13) 32 32

/-- BADARG. -/
def argOk (s : State) (ctx : Nat) (p : List Word) : Bool :=
  cplOk s ctx p && (isMarker p
    || (inObject s ctx (pObj p 6) (pOff p 7) 2048 16
      && (pObj p 9 == 0 || inObject s ctx (pObj p 9) (pOff p 10) 8192 16)))

def pGrid (p : List Word) : Nat := (pw p 1).toNat * pf p 2 0 16 * pf p 2 16 16

/-- BADGRID. -/
def gridOk (p : List Word) : Bool := decide (0 < pGrid p ∧ pGrid p ≤ 2 ^ 32)

/-- m blocks fit at once on one empty cluster. -/
def coopOn (p : List Word) (m : Nat) : Bool :=
  let load := ceilDiv (pCores p * m) 4
  decide (load * pSlice p ≤ 2 ^ 20 ∧ load * pTiles p ≤ 128 ∧ m * pWaves p ≤ 256)
    && (pCores p != 1 || decide (ceilDiv m 4 * pWaves p ≤ 64))

/-- The most blocks of a launch that fit at once on one empty cluster. -/
def coopMost (p : List Word) : Nat := ((rangeFrom 0 257).filter (coopOn p)).foldl max 0

/-- Clusters of a context in service. -/
def inService (s : State) (ctx : Nat) : List Nat :=
  match ctxOf s ctx with
  | none => []
  | some c => c.params.clusters.filter (fun k => !(clusterOf s k).outOfService)

/-- BADBLOCK. -/
def blockOk (s : State) (ctx : Nat) (p : List Word) : Bool :=
  decide (pCores p ≤ 4 ∧ pScratch p ≤ pCores p * 2 ^ 20 ∧ pTiles p ≤ 128)
    && (!(pw p 0).getLsbD 20 || decide (pGrid p ≤ coopMost p * (inService s ctx).length))

/-- BADENTRY: the overlay table entry, the reserved bits, and R111. -/
def entryFieldOk (s : State) (ctx : Nat) (p : List Word) : Bool :=
  match ovEntryOf s ctx ((pw p 5).extractLsb' 24 8) with
  | none => false
  | some e => pf p 5 15 9 == 0 && decide (pf p 5 3 12 < e.len) && decide (pf p 5 0 3 < 5)

/-- BADFLOCK: no entry from 1 names a wave the block lacks, no wave is in more than 4 (R233). -/
def flockOk (waves : Nat) (fs : List (BitVec 256)) : Bool :=
  let rest := fs.drop 1
  rest.all (fun m => m >>> waves == 0)
    && (rangeFrom 0 waves).all (fun w => decide ((rest.filter (fun m => m.getLsbD w)).length ≤ 4))

/-- The first failure among those decided without reading the argument area or the template. -/
def firstBad (s : State) (ctx : Nat) (p : List Word) : Option (BitVec 8) :=
  if !pktOk p then some badPkt
  else if !argOk s ctx p then some badArg
  else if isMarker p then none
  else if !gridOk p then some badGrid
  else if !blockOk s ctx p then some badBlock
  else if !entryFieldOk s ctx p then some badEntry
  else none

/-! ### The argument area and the template (R341) -/

/-- Numbers of the granules of translated pieces that a test holds of, from the range's start. -/
def granulesOf (start : Nat) (ps : List Piece) (f : Mapped → Bool) : List Nat :=
  ps.flatMap (fun p => ((rangeFrom 0 (p.len / 16)).filter (fun i =>
    f { p.m with loc := { p.m.loc with addr := p.m.loc.addr + 16 * i }, paddr := p.m.paddr + 16 * i })).map
      (fun i => (p.off - start) / 16 + i))

/-- What a fetch takes from the argument area: its bytes, tagged granules and poisoned granules. -/
structure ArgArea where
  bytes : List Byte
  tags : List Nat
  bad : List Nat

def readArgs (s : State) (ctx obj off : Nat) : State × Except Xl ArgArea :=
  match translateRange s ctx none obj .read off 2048 with
  | (s, .error x) => (s, .error x)
  | (s, .ok ps) =>
    if ps.any (fun p => refreshes s p.m) then (s, .error (.migrating off))
    else (s, .ok ⟨(readPieces s ps).1, granulesOf off ps (tagAt s), granulesOf off ps (fun m => poisonedAt s m 0)⟩)

/-- Address in DRAM of byte i of translated pieces of object memory. -/
def addrIn (ps : List Piece) (start i : Nat) : Option Nat :=
  (ps.find? (fun p => decide (p.off ≤ start + i ∧ start + i < p.off + p.len))).map (fun p => p.m.loc.addr + (start + i - p.off))

/-- Writes the private argument object: bytes, tags, and poison. It waits at a page whose migration holds writes (R322). -/
def writeArgs (s : State) (ctx obj : Nat) (a : ArgArea) : State × Option Xl :=
  match translateRange s ctx none obj .cwrite 0 2048 with
  | (s, .error x) => (s, some x)
  | (s, .ok ps) =>
    if ps.any (fun p => pageLocked s p.m) then (s, some (.migrating 0)) else
    let s := writePieces ctx obj ps a.bytes s
    let s := a.tags.foldl (fun s k => match addrIn ps 0 (16 * k) with
      | some x => { s with tags := NatSet.add s.tags (x / 16) }
      | none => s) s
    (a.bad.foldl (fun s k => match addrIn ps 0 (16 * k) with
      | some x => poisonDram s x 16
      | none => s) s, none)

/-- The mask of the waves of a block. -/
def wavesMask (waves : Nat) : BitVec 256 := BitVec.ofNat 256 (2 ^ waves - 1)

/-- The 256 masks of a flock table: entry 0 is the set of all the block's waves, and the others are the template's (R233, section
type 0x03). -/
def masksOf (waves : Nat) (bs : List Byte) : List (BitVec 256) :=
  wavesMask waves :: (rangeFrom 1 255).map (fun f => BitVec.ofNat 256 (fieldAt bs (32 * f) 32))

/-- Reads the flock-table template of a kernel packet; poison in it is ignored (R341, log 60). -/
def readFlocks (s : State) (ctx obj off waves : Nat) : State × Except Xl (List (BitVec 256)) :=
  if obj = 0 then (s, .ok (wavesMask waves :: List.replicate 255 0))
  else
    match readWaiting s ctx none .read obj off 8192 with
    | (s, .error x) => (s, .error x)
    | (s, .ok (bs, _)) => (s, .ok (masksOf waves bs))

/-! ### The fetch (R339) -/

/-- A launch as fetched. -/
def Launch.fetched (ctx queue no : Nat) (p : List Word) (bad : Option (BitVec 8)) (argObj : BitVec 24) : Launch where
  ctx := ctx
  queue := queue
  no := no
  packet := p
  marker := isMarker p
  bad := bad
  argObj := argObj
  argBytes := []
  argTags := []
  flocks := []
  phase := .fetched
  lnum := 0
  gridx := (pw p 1).toNat
  nextBlock := 0
  retiredN := 0
  fatal := none
  skippedSince := none
  reserving := false
  bound0 := []
  pins := []
  groups := []
  snapshots := []
  attempts := 0
  replayWant := false
  due := false
  cores := []

/-- Reads what a good kernel packet names into its launch; the template may still fail it. -/
def fetchKernel (s : State) (l : Launch) : State × Except Xl Launch :=
  let p := l.packet
  match readArgs s l.ctx (pObj p 6) (pOff p 7) with
  | (s, .error x) => (s, .error x)
  | (s, .ok a) =>
    match readFlocks s l.ctx (pObj p 9) (pOff p 10) (pWaves p) with
    | (s, .error x) => (s, .error x)
    | (s, .ok fs) =>
      if !flockOk (pWaves p) fs then (s, .ok { l with bad := some badFlock })
      else
        match writeArgs s l.ctx l.argObj.toNat a with
        | (s, some x) => (s, .error x)
        | (s, none) =>
          (s, .ok { l with
            flocks := fs
            argBytes := Memory.writeBytes [] 0 a.bytes
            argTags := a.tags.foldl NatSet.add [] })

/-- The fetched packet leaves its slot: RD advances, and the launch is known. -/
def takePacket (s : State) (queue : Nat) (q : LaunchQueue) (rd : Nat) (l : Launch) : State :=
  let s := writeDevNat s (q.addr + 8) 8 ((rd + 1) % 2 ^ 64)
  { s with
    launchQs := Assoc.set s.launchQs queue { q with fetched := q.fetched + 1 }
    launches := Assoc.set s.launches s.nextLaunch l
    nextLaunch := s.nextLaunch + 1 }

/-- An object holds the private arguments of a launch in flight (R341). -/
def argsTaken (s : State) (ctx : Nat) (argObj : BitVec 24) : Bool :=
  s.launches.any (fun l => l.2.ctx == ctx && !l.2.marker && l.2.bad.isNone && l.2.argObj == argObj)

/-- PACKET_FETCH (R339 to R342): the next packet of a queue, unless the queue is stopped, empty, overrun, or has 8
packets fetched and not completed. A WR below RD, as numbers of 64 bits that wrap, fetches nothing (log 107). `argObj` is the object
that firmware keeps for the launch's private arguments (R341, log 24). -/
def execPacketFetch (queue : Nat) (argObj : BitVec 24) (s : State) : Out :=
  match Assoc.get s.launchQs queue with
  | none => .next s
  | some q =>
    let rd := readDevNat s (q.addr + 8) 8
    let n := 2 ^ q.logn
    let ahead := (readDevNat s q.addr 8 + 2 ^ 64 - rd) % 2 ^ 64
    if q.stopped then .next s
    else if 2 ^ 63 ≤ ahead then .next s
    else if n < ahead then
      .next (logEvent { s with launchQs := Assoc.set s.launchQs queue { q with stopped := true } } 0x08 0 (some q.ctx)
        (srcNo 8 0) (BitVec.ofNat 32 queue) 0)
    else if ahead = 0 ∨ q.completed + 8 ≤ q.fetched then .next s
    else
      let p := bytesWords (readDev s (q.addr + 64 + 128 * (rd % n)) 128)
      let l := Launch.fetched q.ctx queue q.fetched p (firstBad s q.ctx p) argObj
      if l.marker || l.bad.isSome then .next (takePacket s queue q rd l)
      else if argsTaken s q.ctx argObj then .next s
      else
        match fetchKernel s l with
        | (s, .ok l) => .next (takePacket s queue q rd l)
        | (_, .error (.noAddr a)) => .fault (.noSuchAddress a)
        | (_, .error _) => .next s

end Sys2Proof.Machine
end

