-- ==== Sys2Proof/Machine/Launch.lean ====
section
/-! DEFINITION. Launches: start (R344, R351, R376, R423), the end of a fatal one (R253), completion (R352, R343, R345), and
stamp sweeps (R435). -/

namespace Sys2Proof.Machine

open Sys2Proof

/-! ### Pages of objects -/

/-- The pages of a plain object with their entries' places: page number and address in `State.dram`. -/
def pagesOf (s : State) (oe : BitVec 512) : List (Nat × Nat) :=
  (rangeFrom 0 (ceilDiv (objSize oe) (objPage oe))).filterMap (fun p =>
    (pageEntryAddr s (objHome oe) (objRoot oe) p).map (fun a => (p, a)))

def pageAt (s : State) (addr : Nat) : BitVec 64 := s.dram.read64 addr
def setPage (s : State) (addr : Nat) (pe : BitVec 64) : State := { s with dram := s.dram.writeNat addr 8 pe.toNat }

/-! ### The end of a packet (R343, R344, R345) -/

/-- The completion record (Table 16.4). -/
def recordWords (lnum : BitVec 16) (status : BitVec 8) (block : Nat) (tinfo : List Word) : List Word :=
  [lnum ++ 0#8 ++ status, BitVec.ofNat 32 block] ++ (rangeFrom 0 6).map (fun i => tinfo.getD i 0)

/-- Writes the record at CPLOBJ:CPLOFF, unless CPLOBJ is 0 or does not hold it. -/
def writeRecord (s : State) (ctx : Nat) (p : List Word) (ws : List Word) : State × Option Xl :=
  if pObj p 12 = 0 ∨ !inObject s ctx (pObj p 12) (pOff p 13) 32 32 then (s, none)
  else writeObjRange s ctx none (pObj p 12) (pOff p 13) (wordsBytes ws)

/-- Address of an event counter of a context (R345). -/
def counterAddr (s : State) (ctx idx : Nat) : Nat :=
  match ctxOf s ctx with
  | none => 0
  | some c => c.evBase + 8 * idx

/-- The signal of a packet: the counter becomes the greater of itself and SVAL. -/
def signalCounter (s : State) (ctx idx val : Nat) : State :=
  let a := counterAddr s ctx idx
  writeDevNat s a 8 (max (readDevNat s a 8) val)

def signalOf (s : State) (ctx : Nat) (p : List Word) : State :=
  if (pw p 15).getLsbD 31 then signalCounter s ctx (pf p 15 0 12) (p64 p 16) else s

/-- CPL rises by one. -/
def raiseCpl (s : State) (queue : Nat) : State :=
  match Assoc.get s.launchQs queue with
  | none => s
  | some q =>
    writeDevNat { s with launchQs := Assoc.set s.launchQs queue { q with completed := q.completed + 1 } } (q.addr + 16) 8
      ((readDevNat s (q.addr + 16) 8 + 1) % 2 ^ 64)

/-- Step 6 of R352, and the end of a marker or a failed packet: record, CPL, signal; the launch is gone. -/
def endPacket (s : State) (id : Nat) (l : Launch) (status : BitVec 8) (block : Nat) (tinfo : List Word) : State × Option Xl :=
  match writeRecord s l.ctx l.packet (recordWords l.lnum status block tinfo) with
  | (s, some x) => (s, some x)
  | (s, none) =>
    let s := signalOf (raiseCpl s l.queue) l.ctx l.packet
    ({ s with launches := Assoc.erase s.launches id }, none)

/-- Ends a packet as an event: it waits while the record's page is not there. -/
def endOr (s0 : State) (r : State × Option Xl) : Out :=
  match r with
  | (s, none) => .next s
  | (_, some (.noAddr a)) => .fault (.noSuchAddress a)
  | (_, some _) => .next s0

/-! ### Start (R344, R351) -/

/-- One wait of a packet holds (R345). -/
def waitHolds (s : State) (ctx : Nat) (p : List Word) (i : Nat) : Bool :=
  !(pw p i).getLsbD 31 || decide (p64 p (i + 1) ≤ readDevNat s (counterAddr s ctx (pf p i 0 12)) 8)

/-- Every earlier packet has completed and the waits hold. -/
def startsNow (s : State) (l : Launch) : Bool :=
  (match Assoc.get s.launchQs l.queue with
    | some q => q.completed == l.no
    | none => false)
  && waitHolds s l.ctx l.packet 18 && waitHolds s l.ctx l.packet 21

/-- A launch number that no launch in flight has. -/
def lnumFree (s : State) (n : Nat) : Bool :=
  decide (0 < n ∧ n < 2 ^ 16) && s.launches.all (fun l => l.2.lnum.toNat != n)

/-- All conditions of R344 hold: those of `startsNow`, and, for a kernel packet that passed R342, a launch number is free. -/
def startsBy (s : State) (l : Launch) : Bool :=
  startsNow s l && (l.marker || l.bad.isSome || decide (s.launches.length < 2 ^ 16 - 1) || (rangeFrom 1 (2 ^ 16 - 1)).any (lnumFree s))

/-- Notes which fetched packets start: a wait is tested after every step, and so at every write to its counter (R344, R345, log 108). -/
def noteStarts (s : State) : State :=
  if s.launches.any (fun l => l.2.phase == .fetched && !l.2.due && startsBy s l.2) then
    { s with launches := Assoc.mapVals s.launches (fun _ l => { l with due := l.due || (l.phase == .fetched && startsBy s l) }) }
  else s

/-- Binds CUR of every weight-store object for the launch and pins it (R376). -/
def bindAll (s : State) (ctx : Nat) : State × List (Nat × Nat) :=
  let ws := (objectsOf s ctx).filter (fun o => objWsf o.2)
  (ws.foldl (fun s o => setPins s o.2 (objCur o.2) (verPins (verEntry s o.2 (objCur o.2)) + 1)) s,
    ws.map (fun o => (o.1, objCur o.2)))

/-- The capability slots of a launch's argument area. -/
def argCaps (l : Launch) : List Cap :=
  (rangeFrom 0 64).map (fun k => ⟨BitVec.ofNat 128 (l.argBytes.readNat (16 * k) 16), l.argTags.has k⟩)

/-- A quarantine object of a context (R400). -/
def isQuarantine (s : State) (ctx obj : Nat) : Bool :=
  match ctxOf s ctx with
  | none => false
  | some c => c.storage.any (fun e => e.2.obj == obj)

/-- The replay set: objects named by a tagged argument capability with right 1 or right 3 (R423). -/
def replaySet (s : State) (l : Launch) : List (Nat × BitVec 512) :=
  (((argCaps l).filter (fun c => c.tag && (c.rights.getLsbD 1 || c.rights.getLsbD 3))).map Cap.obj).dedup.filterMap (fun o =>
    match objEntry s l.ctx o with
    | none => none
    | some e => if objWsf e || isQuarantine s l.ctx o then none else some (o, e))

/-- Snapshots: every present page of the replay set with its entry, now mapped read-only (R423). -/
def takeSnapshots (s : State) (l : Launch) : State × List (Nat × Nat × BitVec 64) :=
  let ps := (replaySet s l).flatMap (fun o => ((pagesOf s o.2).filter (fun p => pagePresent (pageAt s p.2))).map (fun p => (o.1, p)))
  (ps.foldl (fun s p => setPage s p.2.2 (setBit (pageAt s p.2.2) 59 true)) s,
    ps.map (fun p => (p.1, p.2.1, pageAt s p.2.2)))

/-- A kernel launch starts: its number, its bindings, its snapshots; it is then dispatchable. -/
def startKernel (s : State) (id : Nat) (l : Launch) (lnum : Nat) : State :=
  let (s, bound) := bindAll s l.ctx
  let (s, snaps) := if l.replay then takeSnapshots s l else (s, [])
  setLaunch s id { l with
    phase := .started
    lnum := BitVec.ofNat 16 lnum
    gridx := (pw l.packet 1).toNat
    bound0 := bound
    pins := bound
    snapshots := snaps }

/-- LAUNCH_START (R344, R351): a kernel with a free launch number; a marker or failed packet completes at once. -/
def execLaunchStart (launch lnum : Nat) (s : State) : Out :=
  match launchOf s launch with
  | none => .next s
  | some l =>
    if l.phase ≠ .fetched ∨ !(l.due || startsNow s l) then .next s
    else
      match l.bad with
      | some b => endOr s (endPacket s launch l b 0 [])
      | none =>
        if l.marker then endOr s (endPacket s launch l 0 0 [])
        else if lnumFree s lnum then .next (startKernel s launch l lnum)
        else .next s

/-! ### Records of a launch -/

/-- Records of a launch, staged first, then on their way, then in the logs (R352). -/
def launchRecs (s : State) (id : Nat) : List Rec :=
  (stagedRecs s ++ abroadRecs s ++ s.drovers.flatMap (fun d => d.2.inFlight.flatMap (fun b => b.entries.flatMap recOfEntry))
    ++ s.drovers.flatMap (fun d => d.2.paths.flatMap (fun p => p.2.entries.flatMap recOfEntry)) ++ logRecs s).filter
      (fun r => r.srcDev == s.device && r.launch == id)

/-- Entries of a launch's own: its records, and markers of its commits. -/
def entryOfLaunch (s : State) (id : Nat) : Entry → Bool
  | .record r => r.srcDev == s.device && r.launch == id
  | .marker c _ => s.commits.any (fun x => x.id == c && x.launch == id)
  | _ => false

def logOfLaunch (s : State) (id : Nat) : LogEntry → Bool
  | .record r _ => r.srcDev == s.device && r.launch == id
  | .marker c => s.commits.any (fun x => x.id == c && x.launch == id)

/-- Takes a launch's records, markers and commits out of logs, drovers and staging, with their charge. -/
def dropRecords (s : State) (id : Nat) : State :=
  let rs := launchRecs s id
  let keep (es : List Entry) : List Entry := es.filter (fun e => !entryOfLaunch s id e)
  let s' := { s with
    cores := Assoc.mapVals s.cores (fun _ c => { c with log := c.log.filter (fun e => !logOfLaunch s id e) })
    drovers := Assoc.mapVals s.drovers (fun _ d =>
      ⟨Assoc.mapVals d.paths (fun _ p => { p with entries := keep p.entries }),
        d.inFlight.map (fun b => { b with entries := keep b.entries })⟩)
    staging := Assoc.mapVals s.staging (fun _ es => es.filter (fun e => !entryOfLaunch s id e.entry))
    lehrs := Assoc.mapVals s.lehrs (fun _ ms => ms.filter (fun m => match m with
      | .own c => !s.commits.any (fun x => x.id == c && x.launch == id)
      | .foreign _ _ => true))
    abroad := s.abroad.filter (fun e => !entryOfLaunch s id e.entry)
    commits := s.commits.filter (fun c => c.launch != id) }
  uncharge s' rs

/-! ### A fatal end (R253) -/

/-- Residency references that a thread holds (R267): none before its loads are in. -/
def refsHeld (t : Thread) : List (BitVec 8) :=
  match t.status with
  | .parkedLoad _ (.call _) => t.stack ++ t.rpStack
  | .parkedLoad _ .handler => t.stack.tail ++ t.rpStack
  | .parkedLoad _ _ => []
  | _ => t.stack ++ t.rpStack

/-- Threads of a block let go of their overlays. -/
def releaseRefs (s : State) (slot : Nat) (b : Block) : State :=
  (rangeFrom 0 b.threads.length).foldl (fun s i =>
    match b.threads[i]? with
    | some t => dropRefs s (coreIdOf b ⟨slot, i⟩) b.ctx (refsHeld t)
    | none => s) s

/-- A thread of an ended grid: it waits on no overlay load, and keeps no overlay. -/
def Thread.cut (t : Thread) : Thread :=
  { t with
    status := (match t.status with | .parkedLoad .. => .ready | w => w)
    stack := []
    rpStack := [] }

/-- The blocks of a launch on the cores. -/
def blocksOf (s : State) (id : Nat) : List (Nat × Block) := s.blocks.filter (fun b => b.2.launch == id)

/-- Ends the grid: its saved blocks go, and its threads let go of their overlays. Its records and its commits stay until every
operation issued has completed (R352). -/
def endGrid (s : State) (id : Nat) : State :=
  let s := (blocksOf s id).foldl (fun s b => releaseRefs s b.1 b.2) s
  { s with
    blocks := Assoc.mapVals s.blocks (fun _ b => if b.launch = id then { b with threads := b.threads.map Thread.cut } else b)
    contexts := Assoc.mapVals s.contexts (fun _ c => { c with saved := c.saved.filter (fun b => b.launch != id) })
    unbinding := s.contexts.foldl (fun u c => (c.2.saved.filter (fun b => b.launch == id)).foldl (fun u b => oweUnbind s u b.slot b.launch b.bound) u)
      s.unbinding }

/-- Replay takes the place of the end while firmware allows an attempt (R424). -/
def willReplay (s : State) (l : Launch) : Bool := l.replayWant && decide (l.attempts < s.service.settings.replayN)

/-- FATAL_TRAP_END (R253). -/
def execFatalTrapEnd (launch : Nat) (s : State) : Out :=
  match launchOf s launch with
  | none => .next s
  | some l =>
    if l.fatal.isNone ∨ l.phase ≠ .started ∨ willReplay s l then .next s
    else .next (setLaunch (endGrid s launch) launch { l with phase := .ending })

/-! ### Stamp sweeps (R435) -/

/-- What a sweep writes for an aged word, and whether its age had passed 2^15; none where it is left. -/
def sweepWord (step : BitVec 16) (L : Nat) (x : DWord) : Option (DWord × Bool) :=
  let stamp := x.extractLsb' 32 16
  let age := (step - stamp).toNat
  if age < 2 ^ 13 then none
  else some (0#16 ++ step ++ toF32 (agedRead (x.extractLsb' 0 32) stamp step L).1, decide (2 ^ 15 ≤ age))

/-- Sweeps n aged words from an address of `State.dram`, counting those past 2^15. -/
def sweepRun (step : BitVec 16) (L : Nat) : Nat → Nat → State × Nat → State × Nat
  | 0, _, a => a
  | n + 1, addr, (s, k) =>
    sweepRun step L n (addr + 8) (match sweepWord step L (s.dram.read64 addr) with
      | none => (s, k)
      | some (y, late) => (writeDram s addr (leBytes 8 y.toNat), if late then k + 1 else k))

/-- Sweeps the present pages of an object that hold words of their own. -/
def sweepObject (s : State) (ctx obj : Nat) (oe : BitVec 512) (step : Word) : State :=
  let ps := (pagesOf s oe).filter (fun p => pagePresent (pageAt s p.2) && !pageConst (pageAt s p.2))
  let (s, late) := ps.foldl (fun a p =>
    sweepRun (step.extractLsb' 0 16) (objL oe).toNat (objPage oe / 8) (dramAt (objHome oe) (pagePfn (pageAt a.1 p.2))) a)
    (dropExclusives s, 0)
  let s := modCtx s ctx (fun c => { c with swsteps := Assoc.set c.swsteps obj step })
  if late = 0 then s else logEvent s 0x0B 0 (some ctx) (srcNo 9 0) (BitVec.ofNat 32 obj) (BitVec.ofNat 32 late)

/-- Another deterministic launch of the context has started and not completed. -/
def otherDet (s : State) (ctx id : Nat) : Bool :=
  s.launches.any (fun l => l.1 != id && l.2.ctx == ctx && l.2.det && l.2.phase != .fetched)

/-- Step 5 of R352. -/
def sweeps (s : State) (ctx id : Nat) : State :=
  match ctxOf s ctx with
  | none => s
  | some c =>
    ((objectsOf s ctx).filter (fun o => objAged o.2 && !objWsf o.2)).foldl (fun s o =>
      let d := (c.stepReg - Assoc.getD c.swsteps o.1 0).toNat
      if d < 2 ^ 13 ∨ (otherDet s ctx id ∧ d < 16384) then s else sweepObject s ctx o.1 o.2 c.stepReg) s

/-! ### Completion (R352) -/

/-- Every block below the final GRIDX has retired. -/
def allRetired (s : State) (id : Nat) (l : Launch) : Bool :=
  decide (l.blocks ≤ l.nextBlock)
    && s.blocks.all (fun b => b.2.launch != id || b.2.phase == .retired)
    && s.contexts.all (fun c => c.2.saved.all (fun b => b.launch != id))

/-- A token that will still receive its status: of a commit, when the threads it pairs have come past it. Those of an ended grid
come no further. -/
def Token.comes (s : State) (k : Token) : Bool :=
  match k.of with
  | .commit id => (commitById s id).any (fun c => c.formed || allPast s c)
  | _ => true

/-- The first operation of a q stream runs or may start: no thread of an ended grid arrives at the barrier that another waits for. -/
def Placed.goes (p : Placed) : Bool := p.op.started || startable p

/-- A block has operations that have not completed: tokens, results, matrix operations. -/
def blockBusy (s : State) (slot : Nat) (b : Block) : Bool :=
  b.threads.any (fun t => t.tokens.any (Token.comes s) || !t.pend.isEmpty)
    || (rangeFrom 0 b.waves.length).any (fun w => (headsOf slot b w).any Placed.goes)

/-- Operations of a launch that have not completed: copies, loads, tokens, results, matrix operations (R352). -/
def launchBusy (s : State) (id : Nat) : Bool :=
  s.engines.any (fun e => e.2.reqs.any (fun q => q.launch == some id && q.packet.isNone))
    || s.cores.any (fun c => c.2.loads.any (fun x => x.launch == id))
    || s.blocks.any (fun b => b.2.launch == id && blockBusy s b.1 b.2)

/-- Steps 2 and 3: the grid commit applies every remaining record. -/
def gridCommit (s : State) (id : Nat) : State :=
  let rs := launchRecs s id
  applyAll (dropRecords s id) rs

/-- Step 4: the L1 of every core that held a block. -/
def clearL1 (s : State) (l : Launch) : State :=
  l.cores.foldl (fun s k => setCore s k { coreOf s k with l1 := [] }) s

/-- The blocks of a launch leave; slots that a bind notice named owe an unbind notice (R283). -/
def eraseBlocks (s : State) (id : Nat) : State :=
  let mine := blocksOf s id
  let s := mine.foldl (fun s b => releaseRefs s b.1 b.2) s
  { s with
    blocks := s.blocks.filter (fun b => b.2.launch != id)
    unbinding := mine.foldl (fun u b => oweUnbind s u b.1 id b.2.bound) s.unbinding
    cores := Assoc.mapVals s.cores (fun _ c => { c with begun := c.begun.filter (· != id) }) }

/-- Pins and bindings of a launch are released (R376). -/
def releasePins (s : State) (l : Launch) : State :=
  l.pins.foldl (fun s p =>
    match objEntry s l.ctx p.1 with
    | none => s
    | some e => freeVersion (setPins s e p.2 (verPins (verEntry s e p.2) - 1)) e p.2) s

/-- Where the entry of a page of an object lies. -/
def entryAddrOf (s : State) (ctx obj page : Nat) : Option Nat :=
  match objEntry s ctx obj with
  | none => none
  | some e => pageEntryAddr s (objHome e) (objRoot e) page

/-- The snapshot mappings end: a page still mapped to its snapshot has its own attributes again (R424). -/
def releaseSnapshots (s : State) (l : Launch) : State :=
  l.snapshots.foldl (fun s x =>
    match entryAddrOf s l.ctx x.1 x.2.1 with
    | none => s
    | some a => if pagePfn (pageAt s a) = pagePfn x.2.2 then setPage s a (setBit (pageAt s a) 59 (pageRo x.2.2)) else s) s

/-- Steps 3 to 6 of R352 of a launch that has ended. -/
def complete (s : State) (id : Nat) (l : Launch) : State × Option Xl :=
  let s := if l.fatal.isSome then dropRecords s id else gridCommit s id
  let s := sweeps (clearL1 s l) l.ctx id
  let s := releaseSnapshots (releasePins (eraseBlocks s id) l) l
  match l.fatal with
  | none => endPacket s id l 0 0 []
  | some f => endPacket s id l f.status f.block f.words

/-- Every earlier packet of the launch's queue has completed: CPL rises in number order (R339). -/
def inTurn (s : State) (l : Launch) : Bool :=
  match Assoc.get s.launchQs l.queue with
  | some q => q.completed == l.no
  | none => true

/-- LAUNCH_COMPLETE (R352). -/
def execLaunchComplete (launch : Nat) (s : State) : Out :=
  match launchOf s launch with
  | none => .next s
  | some l =>
    let ended := l.phase = .ending ∨ (l.phase = .started ∧ l.fatal.isNone ∧ allRetired s launch l)
    if !decide ended ∨ launchBusy s launch ∨ !inTurn s l then .next s else endOr s (complete s launch l)

end Sys2Proof.Machine
end

