-- ==== Sys2Proof/Machine/Boot.lean ====
section
/-! DEFINITION. A context, a launch and a running block with one fetch line, as the command processor and an overlay load
leave them: where `State.withFetchWord` places a word (log 13). -/

namespace Sys2Proof.Machine

open Sys2Proof

/-- Line parity bit LPAR of a line word (R62): the line word has an odd number of ones. -/
def withLpar (w : Word) : Word := if oddOnes w then w else setBit w 14 true

/-- A fetch line that holds one word in slot 0, marked as a target, and zeros in its other slots (R61, R62). -/
def lineWith (w : IWord) : Line :=
  let lw : Word := if oddOnes w then 0x3C01 else 0x3E01
  (withLpar lw).setWidth 512 <<< 480 ||| w.setWidth 512

/-- The argument capability a0 (R13): the launch's argument object, window [0, 2048), rights load and load-capability. -/
def argCap (obj : BitVec 24) : Cap := Cap.make obj.toNat 0x11 0 0 0 2048 true

/-- A thread at creation (R13). -/
def Thread.fresh (argObj : BitVec 24) (entry : Word) : Thread where
  v := Vector.replicate 64 0
  a := (Vector.replicate 8 Cap.null).set 0 (argCap argObj)
  p := 0
  fpx := 0
  sgen := Vector.replicate 16 0
  clkh := 0
  gtsh := 0
  poisonV := 0
  poisonA := 0
  poisonP := 0
  poisonF := false
  pc := 0#1 ++ entry.extractLsb' 0 15
  stack := [entry.extractLsb' 24 8]
  rpaddr := entry
  rpStack := [entry.extractLsb' 24 8]
  counts := ⟨0, 0, 0, 0, 0⟩
  region := ⟨0, 0, 0, 0, 0⟩
  tokens := []
  pend := []
  lat := []
  fpxAt := 0
  nextIssue := 0
  status := .ready
  arrival := none
  trap := none
  sched := ⟨none, false, 0, none⟩
  lent := []
  known := Known.none
  late := Late.none
  snap := none
  stgOut := false
  runFrom := none

/-- A context with the defaults of Table 18.1. -/
def Context.fresh (params : Params) : Context where
  otBase := 0
  otLen := 0
  evBase := 0
  fns := [0]
  params := params
  stepReg := 0
  overlays := []
  faultQ := none
  storage := []
  swsteps := []
  hang := 0
  drain := none
  saved := []
  residents := []
  killed := false
  pass := []

/-- A launch that has started one block. -/
def Launch.boot : Launch where
  ctx := 0
  queue := 0
  no := 0
  packet := List.replicate 32 0
  marker := false
  bad := none
  argObj := 0
  argBytes := []
  argTags := []
  flocks := [1]
  phase := .started
  lnum := 1
  gridx := 1
  nextBlock := 1
  retiredN := 0
  fatal := none
  skippedSince := none
  reserving := false
  bound0 := []
  pins := []
  groups := []
  snapshots := []
  attempts := 0
  replayWant := false
  due := false
  cores := [0]

/-- A running block of one wave. -/
def Block.boot : Block where
  launch := 0
  ctx := 0
  lin := 0
  coord := (0, 0, 0)
  grid := (1, 1, 1)
  cluster := 0
  cores := [0]
  slice := 65536
  tilesN := 4
  phase := .running
  waves := [⟨0, 0, 0, Vector.replicate 16 ⟨0, [], [], false⟩, []⟩]
  threads := List.replicate 32 (Thread.fresh 0 0)
  spad := []
  types := []
  tiles := []
  tflags := []
  spadPoison := []
  tilePoison := []
  order := Order.none
  charge := 0
  noSwapBefore := 0
  bound := []

/-- The machine with a word as the next instruction of thread 0 of block slot 0. -/
def bootWord (s : State) (w : IWord) : State :=
  { s with
    agenda := [.issue 0]
    cur := some ⟨0, 0⟩
    bundles := Assoc.set s.bundles 0 [[⟨0, 0⟩]]
    turns := Assoc.erase s.turns 0
    blocks := Assoc.set s.blocks 0 Block.boot
    launches := Assoc.set s.launches 0 Launch.boot
    contexts := Assoc.set s.contexts 0 (Context.fresh s.service.settings.defaults)
    clusters := Assoc.set s.clusters 0 ⟨some 0, [], false⟩
    cores := Assoc.set s.cores 0 { Core.empty with
      lines := [(0, lineWith w)]
      restart := [0]
      resid := [⟨.priv 0 0, 0, 1, 64, .resident, 0, []⟩]
      begun := [0] } }

end Sys2Proof.Machine
end

