-- ==== Sys2Proof/Machine/Place.lean ====
section
/-! DEFINITION. The dispatcher: where blocks fit (R230, R254, R262, R347), its passes (R348, R349), reserving launches, and
the start of a block (R231, R233, R351, R440). -/

namespace Sys2Proof.Machine

open Sys2Proof

/-! ### Room on the cores -/

/-- What a block takes: its cores, a slice and tiles on each, and the core and partition of each wave. -/
structure BlockNeed where
  cores : List Nat
  slice : Nat
  tiles : Nat
  waves : List (Nat × Nat)

/-- Blocks that hold room on a cluster. -/
def residentOn (s : State) (cl : Nat) : List Block :=
  (s.blocks.filter (fun b => b.2.cluster == cl && b.2.phase != .retired)).map (·.2)

def sumOf (xs : List Nat) : Nat := xs.foldl (· + ·) 0

def spadUsed (s : State) (cl k : Nat) : Nat := sumOf (((residentOn s cl).filter (fun b => b.cores.contains k)).map Block.slice)
def tilesUsed (s : State) (cl k : Nat) : Nat := sumOf (((residentOn s cl).filter (fun b => b.cores.contains k)).map Block.tilesN)
def partUsed (s : State) (cl k p : Nat) : Nat :=
  sumOf ((residentOn s cl).map (fun b => (b.waves.filter (fun w => w.core == k && w.part == p)).length))
def wavesUsed (s : State) (cl k : Nat) : Nat := sumOf ((rangeFrom 0 4).map (partUsed s cl k))
/-- Free wave slots of a cluster. -/
def freeWaves (s : State) (cl : Nat) : Nat := sumOf ((rangeFrom 0 4).map (fun k => 64 - wavesUsed s cl k))

/-- Each of the cores has the slice and the tiles free. -/
def storesFree (s : State) (cl : Nat) (cores : List Nat) (slice tiles : Nat) : Bool :=
  cores.all (fun k => decide (spadUsed s cl k + slice ≤ 2 ^ 20 ∧ tilesUsed s cl k + tiles ≤ 128))

/-- A choice of cores has room for a block of w waves (R347). -/
def fitsOn (s : State) (cl : Nat) (cores : List Nat) (slice tiles w : Nat) : Bool :=
  storesFree s cl cores slice tiles && decide (w ≤ sumOf (cores.map (fun k => 64 - wavesUsed s cl k)))

/-- The choices of n cores of a cluster. -/
def coreSets (n : Nat) : List (List Nat) := ((rangeFrom 0 4).sublists).filter (fun c => c.length == n)

/-- A placement's waves lie on its cores, 16 to a partition at most. -/
def wavesFit (s : State) (cl : Nat) (n : BlockNeed) : Bool :=
  n.waves.all (fun w => n.cores.contains w.1 && decide (w.2 < 4 ∧
    partUsed s cl w.1 w.2 + (n.waves.filter (fun v => v == w)).length ≤ 16))

/-- A block fits just so. -/
def needFits (s : State) (cl : Nat) (n : BlockNeed) : Bool := storesFree s cl n.cores n.slice n.tiles && wavesFit s cl n

/-- The clusters that a context runs on and that take blocks (R347, R381). -/
def placeable (s : State) (ctx : Nat) : List Nat :=
  match ctxOf s ctx with
  | none => []
  | some c => (inService s ctx).filter (fun k => (clusterOf s k).ctx == some ctx
      && !(c.drain.any (fun d => d.clusters.contains k)))

/-- Among the clusters that pass a test, the one with the most free wave slots, the lower on a tie. -/
def bestCluster (s : State) (ctx : Nat) (f : Nat → Bool) : Option Nat :=
  ((placeable s ctx).filter f).foldl (fun best k =>
    match best with
    | none => some k
    | some b => if freeWaves s b < freeWaves s k ∨ (freeWaves s b = freeWaves s k ∧ k < b) then some k else some b) none

/-- Where the next block of a launch fits. -/
def launchFits (s : State) (p : List Word) (cl : Nat) : Bool :=
  (coreSets (pCores p)).any (fun cs => fitsOn s cl cs (pSlice p) (pTiles p) (pWaves p))

/-! ### Block slots (R283) -/

def Entry.noticeOf (slot : Nat) : Entry → Bool
  | .notice b _ _ => b.toNat == slot
  | _ => false

/-- A number that no block has, whose records are applied or discarded and whose unbind notice has passed every path. -/
def slotFree (s : State) (slot : Nat) : Bool :=
  decide (slot < 2 ^ 15) && (blockOf s slot).isNone && (Assoc.get s.unbinding slot).isNone
    && s.contexts.all (fun c => c.2.saved.all (fun b => b.slot != slot))
    && s.drovers.all (fun d => d.2.paths.all (fun p => !p.2.entries.any (Entry.noticeOf slot))
      && d.2.inFlight.all (fun b => !b.entries.any (Entry.noticeOf slot)))

def findSlot (s : State) : Nat → Nat → Option Nat
  | 0, _ => none
  | f + 1, n => if slotFree s n then some n else findSlot s f (n + 1)

/-! ### Placing a block -/

/-- FLOCKW of a wave: its flocks from 1, ascending, at most four (R233). -/
def flockWord (fs : List (BitVec 256)) (w : Nat) : Word :=
  let mine := (rangeFrom 1 255).filter (fun f => (fs.getD f 0).getLsbD w)
  BitVec.ofNat 32 (leNat ((mine.take 4).map (fun f => BitVec.ofNat 8 f)))

/-- Coordinates of a linear block index (R232). -/
def coordOf (gx gy lin : Nat) : Nat × Nat × Nat := (lin % gx, lin / gx % gy, lin / gx / gy)

def Wave.fresh (core part : Nat) (flockw : Word) : Wave := ⟨core, part, flockw, Vector.replicate 16 ⟨0, [], [], false⟩, []⟩

/-- Block number `lin` of a launch, placed. -/
def Block.place (id : Nat) (l : Launch) (pl : Placement) : Block :=
  let gy := pf l.packet 2 0 16
  { launch := id
    ctx := l.ctx
    lin := l.nextBlock
    coord := coordOf l.gridx gy l.nextBlock
    grid := (l.gridx, gy, pf l.packet 2 16 16)
    cluster := pl.cluster
    cores := pl.cores
    slice := pSlice l.packet
    tilesN := pTiles l.packet
    phase := .placed
    waves := pl.waves.mapIdx (fun i w => Wave.fresh w.1 w.2 (flockWord l.flocks i))
    threads := []
    spad := []
    types := []
    tiles := []
    tflags := []
    spadPoison := []
    tilePoison := []
    order := Order.none
    charge := 0
    noSwapBefore := 0
    bound := [] }

/-- The placement of the next block of a launch is one that R347 allows. -/
def placementOk (s : State) (l : Launch) (pl : Placement) : Bool :=
  let p := l.packet
  slotFree s pl.slot && bestCluster s l.ctx (launchFits s p) == some pl.cluster
    && (coreSets (pCores p)).contains pl.cores && pl.waves.length == pWaves p
    && needFits s pl.cluster ⟨pl.cores, pSlice p, pTiles p, pl.waves⟩

/-- Places the next block of a launch. -/
def placeNext (s : State) (id : Nat) (l : Launch) (pl : Placement) : State :=
  let s := setBlock s pl.slot (Block.place id l pl)
  setLaunch s id { l with
    nextBlock := l.nextBlock + 1
    cores := (l.cores ++ pl.cores.map (fun k => 4 * pl.cluster + k)).dedup }

/-- Places several blocks of a launch, each where R347 allows. -/
def placeAll (id : Nat) : List Placement → State → Option State
  | [], s => some s
  | pl :: pls, s =>
    match launchOf s id with
    | none => none
    | some l => if placementOk s l pl then placeAll id pls (placeNext s id l pl) else none

/-! ### A placement chosen -/

/-- Free places of waves on a core, partition by partition. -/
def freePlaces (s : State) (cl k : Nat) : List (Nat × Nat) :=
  (rangeFrom 0 4).flatMap (fun p => List.replicate (16 - partUsed s cl k p) (k, p))

/-- Free wave places of a core. -/
def freeOn (s : State) (cl k : Nat) : Nat := 64 - wavesUsed s cl k

/-- Blocks of a launch's slice and tiles that a core's stores take. -/
def roomOn (s : State) (p : List Word) (cl k : Nat) : Nat :=
  let most (free n : Nat) : Nat := if n = 0 then 256 else free / n
  min (most (2 ^ 20 - spadUsed s cl k) (pSlice p)) (most (128 - tilesUsed s cl k) (pTiles p))

/-- Blocks of w waves on these core sets find places for their waves: for every set of cores, those whose cores lie in it need no
more places than it has. -/
def wavesPlan (w : Nat) (free : Nat → Nat) (sets : List (List Nat)) : Bool :=
  ((rangeFrom 0 4).sublists).all (fun t => decide ((sets.filter (fun c => c.all t.contains)).length * w ≤ sumOf (t.map free)))

/-- Blocks of a launch fit on these core sets of a cluster together. -/
def setsFit (s : State) (p : List Word) (cl : Nat) (sets : List (List Nat)) : Bool :=
  (rangeFrom 0 4).all (fun k => decide ((sets.filter (fun c => c.contains k)).length ≤ roomOn s p cl k))
    && wavesPlan (pWaves p) (freeOn s cl) sets

/-- Core sets for m more blocks, taken from a list of choices, that pass a test together with those taken before. -/
def planSets (ok : List (List Nat) → Bool) : List (List Nat) → Nat → List (List Nat) → Option (List (List Nat))
  | [], m, sets => if m = 0 then some sets else none
  | c :: cs, m, sets => (rangeFrom 0 (m + 1)).findSome? (fun j =>
      let sets := List.replicate j c ++ sets
      if ok sets then planSets ok cs (m - j) sets else none)

/-- Core sets for as many of n blocks of a launch as fit on a cluster together. -/
def bestPlan (s : State) (p : List Word) (cl n : Nat) : Option (List (List Nat)) :=
  (rangeFrom 1 (min n (freeWaves s cl / pWaves p))).reverse.findSome? (fun m =>
    planSets (setsFit s p cl) (coreSets (pCores p)) m [])

/-- The ways to spread w waves over cores. -/
def spreads (free : Nat → Nat) : List Nat → Nat → List (List (Nat × Nat))
  | [], w => if w = 0 then [[]] else []
  | k :: ks, w => (rangeFrom 0 (min (free k) w + 1)).reverse.flatMap (fun n => (spreads free ks (w - n)).map (fun r => (k, n) :: r))

/-- Waves that a spread puts on a core. -/
def spreadOn (x : List (Nat × Nat)) (k : Nat) : Nat := ((x.find? (fun y => y.1 == k)).map (·.2)).getD 0

/-- The dispatcher's own choice for the next of n blocks: cores, and a spread of its waves, that leave room for as many of the others
as the cluster takes (log 4). -/
def choose (s : State) (l : Launch) (n : Nat) : Option Placement :=
  let p := l.packet
  match bestCluster s l.ctx (launchFits s p), findSlot s (2 ^ 15) 0 with
  | some cl, some slot =>
    (match bestPlan s p cl n with
    | some (cs :: rest) =>
      ((spreads (freeOn s cl) cs (pWaves p)).find? (fun x =>
        wavesPlan (pWaves p) (fun k => freeOn s cl k - spreadOn x k) rest)).map (fun x =>
          ⟨slot, cl, cs, x.flatMap (fun y => (freePlaces s cl y.1).take y.2)⟩)
    | _ => none)
  | _, _ => none

/-- The placements of n blocks chosen one after another, where all of them fit. -/
def chooseAll (id : Nat) : Nat → State → Option (List Placement)
  | 0, _ => some []
  | n + 1, s =>
    match launchOf s id with
    | none => none
    | some l =>
      match choose s l (n + 1) with
      | none => none
      | some pl => (chooseAll id n (placeNext s id l pl)).map (fun pls => pl :: pls)

/-- Blocks that the next placement of a launch places: all pending ones of a cooperative launch, or one. -/
def pendingN (l : Launch) : Nat := if l.coop then l.blocks - l.nextBlock else 1

/-! ### Saved blocks that wait to re-enter (R386, R387) -/

/-- A saved block may re-enter: it was pre-empted, or every fault of its parked threads is resolved. -/
def SavedBlock.ready (b : SavedBlock) : Bool := !b.swapped || b.threads.all (fun t => t.faults.isEmpty)

/-- Insertion by linear index. -/
def linIn (x : SavedBlock) : List SavedBlock → List SavedBlock
  | [] => [x]
  | y :: ys => if x.lin ≤ y.lin then x :: y :: ys else y :: linIn x ys

/-- Saved blocks of a launch that may re-enter, in linear order. -/
def savedOf (s : State) (id : Nat) : List SavedBlock :=
  (s.contexts.flatMap (fun c => c.2.saved.filter (fun b => b.launch == id && b.ready))).foldr linIn []

def SavedBlock.need (b : SavedBlock) : BlockNeed := ⟨b.cores, b.slice, b.tilesN, b.waves.map (fun w => (w.core, w.part))⟩

/-- A thread as its record gives it (R387): registers not listed are 0, SGEN words are 0. It is at its restart point, or in
BARW; it holds no reference yet. -/
def SavedThread.restore (t : SavedThread) (lent : List Lent) (known : Known) : Thread where
  v := t.vlive.foldl (fun v x => v.set x.1.toNat x.2.1 (vreg_lt x.1)) (Vector.replicate 64 0)
  a := t.alive.foldl (fun a x => a.set x.1.toNat x.2.1 (areg_lt x.1)) (Vector.replicate 8 Cap.null)
  p := t.pval
  fpx := t.fpx
  sgen := Vector.replicate 16 0
  clkh := t.clkh
  gtsh := t.gtsh
  poisonV := t.vlive.foldl (fun p x => setBit p x.1.toNat x.2.2) 0
  poisonA := t.alive.foldl (fun p x => setBit p x.1.toNat x.2.2) 0
  poisonP := t.poisonP
  poisonF := t.poisonF
  pc := t.pc
  stack := t.stack
  rpaddr := t.rpaddr
  rpStack := t.rpStack
  counts := t.counts
  region := t.counts
  tokens := []
  pend := []
  lat := []
  fpxAt := 0
  nextIssue := 0
  status := if t.tstate = 0 then .retired else .parkedLoad [] .resume
  arrival := if t.tstate = 2 then some (t.baddr, t.btgt) else none
  trap := none
  sched := ⟨none, false, 0, none⟩
  lent := lent
  known := known
  late := Late.none
  snap := none
  stgOut := false
  runFrom := none

/-- A saved block on a cluster (R387): stores as listed, all else 0. -/
def SavedBlock.restore (b : SavedBlock) (ctx cl : Nat) : Block where
  launch := b.launch
  ctx := ctx
  lin := b.lin
  coord := b.coord
  grid := b.grid
  cluster := cl
  cores := b.cores
  slice := b.slice
  tilesN := b.tilesN
  phase := .running
  waves := b.waves.map (fun w => ⟨w.core, w.part, w.flockw, (Vector.finRange 16).map (fun i => ⟨w.status[i], w.ops[i], w.clocks[i], w.poison.getLsbD i⟩), w.finished⟩)
  threads := b.threads.mapIdx (fun i t => t.restore (b.lents.getD i []) (b.knowns.getD i Known.none))
  spad := b.spad
  types := b.types
  tiles := b.tiles
  tflags := b.tflags
  spadPoison := b.spadPoison
  tilePoison := b.tilePoison
  order := b.order
  charge := b.charge
  noSwapBefore := 0
  bound := b.bound

/-- A saved block stands on a cluster again, its record gone. -/
def standAgain (s : State) (ctx : Nat) (b : SavedBlock) (cl : Nat) : State :=
  modCtx (setBlock s b.slot (b.restore ctx cl)) ctx (fun c => { c with saved := c.saved.filter (fun x => x.slot != b.slot) })

/-- Where saved blocks go one after another, each on the cluster that R347 takes; none where one does not fit. -/
def planSaved (ctx : Nat) : List SavedBlock → State → Option (List (SavedBlock × Nat))
  | [], _ => some []
  | b :: bs, s =>
    match bestCluster s ctx (fun k => needFits s k b.need) with
    | none => none
    | some k => (planSaved ctx bs (standAgain s ctx b k)).map (fun ps => (b, k) :: ps)

/-- The blocks that a launch's next re-entry places: all of a cooperative launch, or the first (R349). -/
def nextSaved (s : State) (id : Nat) (l : Launch) : List SavedBlock :=
  if l.coop then savedOf s id else (savedOf s id).take 1

/-! ### Passes (R348) -/

/-- A launch is dispatchable: started, with blocks unplaced or waiting to re-enter. -/
def dispatchable (s : State) (id : Nat) (l : Launch) : Bool :=
  l.phase == .started && l.fatal.isNone && !l.replayWant && (decide (l.nextBlock < l.blocks) || !(savedOf s id).isEmpty)

/-- Insertion by higher PRIO, then fetch order. -/
def rankIn (x : Nat × Launch) : List (Nat × Launch) → List (Nat × Launch)
  | [] => [x]
  | y :: ys => if y.2.prio < x.2.prio ∨ (y.2.prio = x.2.prio ∧ x.1 < y.1) then x :: y :: ys else y :: rankIn x ys

/-- The dispatchable launches of a context in rank order. -/
def ranked (s : State) (ctx : Nat) : List (Nat × Launch) :=
  (s.launches.filter (fun l => l.2.ctx == ctx && dispatchable s l.1 l.2)).foldr rankIn []

/-- The launches that the pass under way has still to come to; a pass that has come to all starts again. -/
def passLeft (s : State) (c : Context) (ctx : Nat) : List Nat :=
  let all := (ranked s ctx).map (·.1)
  let left := all.filter (fun i => !c.pass.contains i)
  if left.isEmpty then all else left

/-- The pass comes to a launch. -/
def comeTo (s : State) (ctx id : Nat) : State :=
  modCtx s ctx (fun c =>
    { c with pass := if ((ranked s ctx).map (·.1)).all c.pass.contains then [id] else c.pass ++ [id] })

/-- It is the turn of a launch in the pass. -/
def turnOf (s : State) (ctx id : Nat) : Bool :=
  match ctxOf s ctx with
  | none => false
  | some c => (passLeft s c ctx).head? == some id

/-- A launch of higher rank is reserving. -/
def reservedAbove (s : State) (ctx id : Nat) : Bool :=
  ((ranked s ctx).takeWhile (fun l => l.1 != id)).any (fun l => l.2.reserving)

/-- Marks that the next block did not fit. -/
def skip (s : State) (id : Nat) : State :=
  modLaunch s id (fun l => { l with skippedSince := some (l.skippedSince.getD s.cycle) })

/-- The next block has been placed. -/
def unskip (s : State) (id : Nat) : State := modLaunch s id (fun l => { l with skippedSince := none, reserving := false })

/-- DISPATCH_PASS (R347 to R350): the pass comes to one launch, and places its next block, or all blocks of a cooperative
launch, as `pl` says. Without placements the launch is skipped: its next block does not fit, or a launch of higher rank
reserves room. Blocks that wait to re-enter go first, by BLOCK_RESUME. -/
def execDispatchPass (launch : Nat) (pl : List Placement) (s : State) : Out :=
  match launchOf s launch with
  | none => .next s
  | some l =>
    if !dispatchable s launch l || !turnOf s l.ctx launch then .next s
    else if reservedAbove s l.ctx launch then .next (comeTo s l.ctx launch)
    else if !(savedOf s launch).isEmpty then
      if (planSaved l.ctx (nextSaved s launch l) s).isSome then .next s else .next (comeTo (skip s launch) l.ctx launch)
    else if pl.isEmpty then
      if (chooseAll launch (pendingN l) s).isSome then .next s else .next (comeTo (skip s launch) l.ctx launch)
    else if pl.length = pendingN l then
      match placeAll launch pl s with
      | some s' => .next (comeTo (unskip s' launch) l.ctx launch)
      | none => .next s
    else .next s

/-- RESERVING (R348): a launch whose next block has been skipped for 400 000 cycles. -/
def execReserving (launch : Nat) (s : State) : Out :=
  .next (modLaunch s launch (fun l =>
    match l.skippedSince with
    | some c => if c + Config.reserveCycles ≤ s.cycle then { l with reserving := true } else l
    | none => l))

/-! ### The start of a block -/

/-- The start acquire: a core's L1 is invalidated before the first block of the launch issues there (R351). -/
def beginOn (s : State) (id core : Nat) : State :=
  let c := coreOf s core
  if c.begun.contains id then s else setCore s core { c with l1 := [], begun := c.begun ++ [id] }

/-- Threads of a block, which wait for their entry overlay, zeroed stores, and typing ended (R13, R231, R440). -/
def Block.begin (b : Block) (l : Launch) : Block :=
  { b with
    phase := .running
    threads := List.replicate (32 * b.waves.length) { Thread.fresh l.argObj (pw l.packet 5) with
      status := .parkedLoad [(pw l.packet 5).extractLsb' 24 8] .start }
    spad := []
    types := []
    tiles := []
    tflags := []
    spadPoison := []
    tilePoison := []
    order := Order.none }

/-- A placed block starts; its entry overlay is loaded where it is not resident, and its threads stay parked until it is (R231,
R440). -/
def startBlock (s : State) (slot : Nat) : State :=
  match blockOf s slot with
  | none => s
  | some b =>
    match launchOf s b.launch with
    | none => s
    | some l =>
      if b.phase ≠ .placed ∨ l.fatal.isSome ∨ l.replayWant then s
      else
        let s := b.cores.foldl (fun s k => beginOn s b.launch (4 * b.cluster + k)) s
        let s := setBlock s slot (b.begin l)
        (rangeFrom 0 (32 * b.waves.length)).foldl (fun s i => comeIn s ⟨slot, i⟩ .start) s

/-- BLOCK_START (R231, R440). -/
def execBlockStart (slot : Nat) (s : State) : Out := .next (startBlock s slot)

end Sys2Proof.Machine
end

