-- ==== Sys2Proof/Machine/Save.lean ====
section
/-! DEFINITION. The image of a saved block in its context's save area (Tables 18.2 and 18.3, R388, R389), and where in the area
it lies. -/

namespace Sys2Proof.Machine

open Sys2Proof

/-! ### Ranges -/

/-- Adds a range, as start and length, to disjoint ascending ranges; what it meets joins it. -/
def addSpan (a n : Nat) : List (Nat × Nat) → List (Nat × Nat)
  | [] => [(a, n)]
  | (b, m) :: rs =>
    if a + n < b then (a, n) :: (b, m) :: rs
    else if b + m < a then (b, m) :: addSpan a n rs
    else addSpan (min a b) (max (a + n) (b + m) - min a b) rs

/-- The union of ranges, ascending and disjoint; empty ones count for nothing. -/
def spanUnion (rs : List (Nat × Nat)) : List (Nat × Nat) :=
  (rs.filter (fun r => decide (0 < r.2))).foldl (fun u r => addSpan r.1 r.2 u) []

/-! ### A thread's record (Table 18.3) -/

def SavedThread.depth (t : SavedThread) : Nat := t.stack.length - 1

/-- ATAG: the tags of the a registers that the record holds. -/
def SavedThread.atag (t : SavedThread) : BitVec 8 := t.alive.foldl (fun x r => setBit x r.1.toNat r.2.1.tag) 0

/-- Overlay IDs, the bottom one in the lowest byte. -/
def SavedThread.stackWord (t : SavedThread) : BitVec 64 := BitVec.ofNat 64 (leNat t.stack.reverse)

/-- SCOPES: the commit counts modulo 16. -/
def SavedThread.scopes (t : SavedThread) : BitVec 16 :=
  epochOf t.counts.kt ++ epochOf t.counts.kb ++ epochOf t.counts.kg ++ epochOf t.counts.kp

/-- The ten fixed words. -/
def SavedThread.fixedWords (t : SavedThread) : List Word :=
  [BitVec.ofNat 2 t.tstate ++ BitVec.ofNat 3 t.depth ++ 0#12 ++ t.pval ++ t.atag, t.rpaddr,
    t.stackWord.extractLsb' 0 32, t.stackWord.extractLsb' 32 32, t.fpx.setWidth 8 ++ 0#5 ++ t.counts.seq,
    t.btgt ++ t.scopes, t.clkh, t.gtsh, BitVec.ofNat 32 (t.baddr % 2 ^ 24), 0]

/-- Zero bytes up to a multiple of 16. -/
def padTo16 (at0 : Nat) : List Byte := List.replicate ((16 - at0 % 16) % 16) 0

/-- A record that begins at an offset of the image: the fixed words, the live v registers, the live a registers (R389). -/
def SavedThread.image (at0 : Nat) (t : SavedThread) : List Byte :=
  let head := wordsBytes t.fixedWords ++ wordsBytes (t.vlive.map (fun r => r.2.1))
  if t.tstate = 0 then wordsBytes t.fixedWords
  else if t.alive.isEmpty then head
  else head ++ padTo16 (at0 + head.length) ++ t.alive.flatMap (fun r => leBytes 16 r.2.1.bits.toNat)

/-- The records one after another. -/
def threadImages : Nat → List SavedThread → List Byte
  | _, [] => []
  | at0, t :: ts => t.image at0 ++ threadImages (at0 + (t.image at0).length) ts

/-! ### The parts of Table 18.2 -/

/-- Byte w: partition and core number of wave w. -/
def SavedBlock.placement (b : SavedBlock) : List Byte :=
  (b.waves.map (fun w => BitVec.ofNat 8 (w.part + 4 * w.core))) ++ List.replicate (256 - b.waves.length) 0

/-- Status words and counts of unstarted operations of a wave. -/
def SavedWave.qBytes (w : SavedWave) : List Byte :=
  wordsBytes (w.status.toList ++ w.ops.toList.map (fun q => BitVec.ofNat 32 q.length))

/-- An unstarted operation: the form of its 64 bytes is not given (log 96). -/
def opBytes (ctr : Nat) (o : QOp) : List Byte := (rangeFrom 0 64).map (fun i => Config.freeByte ctr (2 ^ 40 + 64 * o.id + i))

def SavedBlock.operations (ctr : Nat) (b : SavedBlock) : List Byte :=
  b.waves.flatMap (fun w => w.ops.toList.flatMap (fun q => q.flatMap (opBytes ctr)))

/-- Addresses of the barriers and rings: a ring is listed by its first granule. -/
def SavedBlock.objects (b : SavedBlock) : List Nat :=
  (b.types.filter (fun x => x.2 == .barrier || x.1 % 32 == 0)).map (·.1)

/-- The address and the first 28 raw bytes of each; a ring's bytes from 18 on are reserved. -/
def SavedBlock.typed (b : SavedBlock) : List Byte :=
  b.objects.flatMap (fun a =>
    let n := if Assoc.get b.types a = some .ring then 28 else 16
    leBytes 4 a ++ b.spad.readBytes a n ++ List.replicate (28 - n) 0)

/-- Address, length and bytes of each listed range of the scratchpad. -/
def SavedBlock.ranges (b : SavedBlock) : List Byte :=
  b.spans.flatMap (fun r => leBytes 4 r.1 ++ leBytes 4 r.2 ++ b.spad.readBytes r.1 r.2)

/-- The bytes and flags of each listed tile, by core. -/
def SavedBlock.tileBytes (b : SavedBlock) : List Byte :=
  b.keptTiles.flatMap (fun n => b.tiles.readBytes (2048 * n) 2048 ++ leBytes 4 (Assoc.getD b.tflags n 0).toNat)

/-- The parts after the header, in order. -/
def SavedBlock.parts (ctr : Nat) (b : SavedBlock) : List (List Byte) :=
  let ps := [b.placement, b.waves.flatMap SavedWave.qBytes, b.operations ctr, b.typed, b.ranges, b.tileBytes]
  ps ++ [threadImages (64 + (ps.map List.length).foldl (· + ·) 0) b.threads]

/-- Where each part begins, from an offset. -/
def partOffsets : Nat → List (List Byte) → List Nat
  | _, [] => []
  | at0, p :: ps => at0 :: partOffsets (at0 + p.length) ps

/-- The header: 16 words, whose order the spec does not give (log 96). -/
def SavedBlock.header (lnum : BitVec 16) (packet : List Word) (b : SavedBlock) (offs : List Nat) : List Byte :=
  let ws : List Word := [BitVec.ofNat 16 b.slot ++ lnum, BitVec.ofNat 32 b.lin,
    BitVec.ofNat 32 (pWaves packet - 1 + 2 ^ 8 * pTiles packet + 2 ^ 16 * (b.cores.map (fun k => 2 ^ k)).foldl (· + ·) 0),
    BitVec.ofNat 32 (pScratch packet)] ++ offs.map (BitVec.ofNat 32)
  wordsBytes (ws ++ List.replicate (16 - ws.length) 0)

/-- The image of a saved block. -/
def SavedBlock.image (ctr : Nat) (l : Launch) (b : SavedBlock) : List Byte :=
  let ps := b.parts ctr
  b.header l.lnum l.packet (partOffsets 64 ps) ++ ps.flatten

/-! ### The save area (R388) -/

/-- The first multiple of 64 from the base on at which n bytes lie clear of every image saved in the area. -/
def findArea (base size n : Nat) (used : List (Nat × Nat)) : Option Nat :=
  let up (x : Nat) : Nat := ceilDiv x 64 * 64
  let starts := (base :: used.map (fun r => r.1 + r.2)).map up
  (starts.filter (fun a => decide (base ≤ a ∧ a + n ≤ base + size) && used.all (fun r => decide (a + n ≤ r.1 ∨ r.1 + r.2 ≤ a)))).foldl
    (fun best a => match best with
      | none => some a
      | some x => some (min x a)) none

/-- Places of images of these sizes one after another, where all fit. -/
def findAreas (base size : Nat) : List Nat → List (Nat × Nat) → Option (List (Nat × Nat))
  | [], _ => some []
  | n :: ns, used => (findArea base size n used).bind (fun a => (findAreas base size ns ((a, n) :: used)).map (fun xs => (a, n) :: xs))

/-- Places in the save area of a context for images of these sizes. -/
def areasFor (c : Context) (ns : List Nat) : Option (List (Nat × Nat)) :=
  c.params.saveArea.bind (fun r => findAreas r.1 r.2 ns (c.saved.map SavedBlock.area))

end Sys2Proof.Machine
end

