-- ==== Sys2Proof/Machine/Upset.lean ====
section
/-! DEFINITION. Lane self-tests (R418). POISON_MADE (R421): an uncorrectable error poisons its granule and writes an event. -/

namespace Sys2Proof.Machine

open Sys2Proof

/-! ### Lane self-tests (R418) -/

/-- Takes a cluster out of service. -/
def withdrawCluster (s : State) (cl : Nat) : State :=
  setCluster s cl { clusterOf s cl with outOfService := true, ctx := none }

/-- What a failed lane of a partition does: the first is bypassed, a second takes the cluster out of service. -/
def laneFailed (part : Nat) (s : State) (lane : Nat) : State :=
  match Assoc.get s.service.repair part with
  | none =>
    logEvent { s with service := { s.service with repair := Assoc.set s.service.repair part lane } } 0x03 0 none
      (srcNo 2 (part / 4)) (BitVec.ofNat 32 part) (BitVec.ofNat 32 lane)
  | some l =>
    if l = lane ∨ (clusterOf s (part / 16)).outOfService then s
    else logEvent (withdrawCluster s (part / 16)) 0x03 1 none (srcNo 2 (part / 4)) (BitVec.ofNat 32 part) (BitVec.ofNat 32 lane)

/-- The self-test of one partition: its 33 physical lanes. -/
def testPart (s : State) (part : Nat) : State :=
  ((rangeFrom 0 33).filter (fun l => Config.laneFails part l s.service.laneTests)).foldl (laneFailed part) s

/-- The self-test of the partitions of some clusters. -/
def testClusters (s : State) (cls : List Nat) : State :=
  let s := (cls.flatMap (fun c => rangeFrom (16 * c) 16)).foldl testPart s
  { s with service := { s.service with laneTests := s.service.laneTests + 1 } }

/-- A cluster holds no thread. -/
def noThreads (s : State) (cl : Nat) : Bool := s.blocks.all (fun b => b.2.cluster != cl || b.2.phase == .retired)

/-- A cluster whose residue check has failed, once drained, is tested (R418). -/
def testDrained (s : State) (cl : Nat) : State :=
  if s.service.testDue.contains cl && noThreads s cl then
    testClusters { s with service := { s.service with testDue := s.service.testDue.filter (· != cl) } } [cl]
  else s

/-! ### Soft errors (R421) -/

/-- The uncorrectable-error event of an address or store offset (Table 21.4). -/
def poisonEvent (s : State) (ctx : Option Nat) (src : BitVec 16) (a : Nat) : State :=
  logEvent s 0x02 0 ctx src (BitVec.ofNat 32 a) (BitVec.ofNat 32 (a / 2 ^ 32))

/-- A register of a thread is poisoned; the event names its specifier as the store offset (log 40). -/
def poisonReg (s : State) (tid : ThreadId) (spec : BitVec 8) (f : Thread → Thread) : State :=
  match blockOf s tid.slot with
  | none => s
  | some b =>
    if (b.threads[tid.tidx]?).isNone then s
    else poisonEvent (modThread s tid f) (some b.ctx) (srcNo 2 (coreIdOf b tid)) spec.toNat

/-- An uncorrectable error at a place (R421, Table 21.1). -/
def applyUpset (s : State) (u : Upset) : State :=
  match u with
  | .dram line =>
    poisonEvent { s with poison := s.poison.add line } none (srcNo 10 (64 * line % 2 ^ 39 / Config.stackBytes)) (64 * line % 2 ^ 39)
  | .ws g =>
    poisonEvent { s with wsPoison := s.wsPoison.add g } none (srcNo 11 (wsDie (8 * g))) (8 * g % 2 ^ 32)
  | .vreg t r => poisonReg s t (vByte r) (fun t => { t with poisonV := setBit t.poisonV r.toNat true })
  | .areg t r => poisonReg s t (aByte r) (fun t => { t with poisonA := setBit t.poisonA r.toNat true })
  | .preg t r =>
    if r = 7#3 then s else poisonReg s t (pByte r) (fun t => { t with poisonP := setBit t.poisonP r.toNat true })
  | .fpx t => poisonReg s t 0x19 (fun t => { t with poisonF := true })
  | .qreg slot wave r =>
    match blockOf s slot with
    | none => s
    | some b =>
      if b.waves.length ≤ wave then s
      else
        let w := b.wave wave
        let q := w.q.set r.toNat { w.q[r.toNat]'(qreg_lt r) with poison := true } (qreg_lt r)
        poisonEvent (setBlock s slot (b.setWave wave { w with q := q })) (some b.ctx) (srcNo 2 (4 * b.cluster + w.core)) (qByte r).toNat
  | .residue t r =>
    match blockOf s t.slot with
    | none => s
    | some b =>
      if (b.threads[t.tidx]?).isNone then s
      else
        let s := modThread s t (fun t => { t with poisonV := setBit t.poisonV r.toNat true })
        { s with service := { s.service with testDue := (b.cluster :: s.service.testDue).dedup } }
  | .slot core line slot =>
    if slot < 5 ∧ line < Config.istoreLines then
      let c := coreOf s core
      poisonEvent (setCore s core { c with slotPoison := c.slotPoison.add (8 * line + slot) }) none (srcNo 2 core) (64 * line + 12 * slot)
    else s
  | .spad slot g =>
    match blockOf s slot with
    | none => s
    | some b => poisonEvent (setBlock s slot (poisonSpad b (8 * g) 8)) (some b.ctx) (srcNo 2 (4 * b.cluster)) (8 * g)
  | .tile slot g =>
    match blockOf s slot with
    | none => s
    | some b => poisonEvent (setBlock s slot (poisonTile b (8 * g) 8)) (some b.ctx) (srcNo 2 (4 * b.cluster + 8 * g / 2 ^ 18)) (8 * g)

end Sys2Proof.Machine
end

