-- ==== Sys2Proof/Machine/Drain.lean ====
section
/-! DEFINITION. Drains (R381 to R384), the save of a block (R385, R388, R389), swap-out (R386), the switch of a cluster
between contexts (R271), and resumption (R387). -/

namespace Sys2Proof.Machine

open Sys2Proof

/-! ### Threads in a drain (R381, R382) -/

/-- WT of every barrier follows its waiters. -/
def noteAll (b : Block) : Block :=
  b.types.foldl (fun b x => if x.2 = .barrier then noteWaiters b x.1 else b) b

/-- The thread runs on, its run-on allowance counted from now. -/
def runOn (s : State) (tid : ThreadId) : State := modThread s tid (fun t => { t with runFrom := some s.cycle })

/-- A thread that stands at a restart point arrives. -/
def arriveNow (s : State) (tid : ThreadId) : State :=
  match blockOf s tid.slot with
  | none => s
  | some b =>
    match b.threads[tid.tidx]? with
    | none => s
    | some t => if arrives s b tid t then drainArrive s tid b t else s

/-- What a thread does at the request, by its state (R381): it runs on, unless it stands at a restart point, or it rolls back
there. A thread in the handler runs on; one in BARW after its arrival stays. -/
def drainThread (s : State) (tid : ThreadId) : State :=
  match threadOf s tid with
  | none => s
  | some t =>
    if t.trap.isSome then (if t.status = .retired then s else runOn s tid)
    else
      match t.status with
      | .retired => s
      | .drained => s
      | .waiting (.barw _ _) => s
      | .waiting (.token _) => arriveNow (runOn s tid) tid
      | .waiting _ => rollbackTo s tid .drained
      | .parkedLoad _ (.call _) => rollbackTo s tid .drained
      | _ => arriveNow (runOn s tid) tid

/-- The drain of a block begins. -/
def drainBlock (swap : Bool) (s : State) (slot : Nat) : State :=
  match blockOf s slot with
  | none => s
  | some b =>
    let s := setBlock s slot { b with phase := .draining s.cycle swap }
    modBlock ((rangeFrom 0 b.threads.length).foldl (fun s i => drainThread s ⟨slot, i⟩) s) slot noteAll

/-- A pending token of a commit of some scope. -/
def commitToken (s : State) (t : Thread) (f : CommitScope → Bool) : Bool :=
  t.tokens.any (fun k => match k.of with
    | .commit id => s.commits.any (fun c => c.id == id && f c.scope)
    | _ => false)

/-- The run-on rollback is withheld (R382). -/
def withheld (s : State) (b : Block) : Bool :=
  b.threads.any (fun t => commitToken s t (· == .b))
    || s.blocks.any (fun p => p.2.launch == b.launch && p.2.threads.any (fun t => commitToken s t (fun c => c == .g || c == .p)))

/-- RUNON of a context. -/
def runOnOf (s : State) (ctx : Nat) : Nat := match ctxOf s ctx with
  | some c => c.params.runOn
  | none => 0

/-- RUNON_EXPIRY (R381, R382): a thread that runs on and has not arrived within RUNON cycles rolls back and does not park.
One that stands at a restart point
arrives, one that has arrived in BARW meanwhile stays there, and one that is held stays held. -/
def execRunonExpiry (t : ThreadId) (s : State) : Out :=
  match blockOf s t.slot with
  | none => .next s
  | some b =>
    match b.threads[t.tidx]?, b.phase with
    | some x, .draining _ _ =>
      (match x.runFrom with
      | none => .next s
      | some c =>
        if x.trap.isSome || decide (s.cycle < c + runOnOf s b.ctx) then .next s
        else if arrives s b t x then .next (drainArrive s t b x)
        else if withheld s b then .next s
        else
          match x.status with
          | .waiting (.barw _ _) => .next (modThread s t (fun x => { x with runFrom := none }))
          | .ready | .stalled _ | .waiting _ | .parkedLoad _ (.call _) => .next (modBlock (rollbackTo s t .drained) t.slot noteAll)
          | _ => .next s)
    | _, _ => .next s

/-! ### The blocks of a request (R381, R383) -/

/-- Blocks with threads or a place on a cluster. -/
def slotsOn (s : State) (cl : Nat) : List Nat :=
  (s.blocks.filter (fun b => b.2.cluster == cl && b.2.phase != .retired)).map (·.1)

/-- A block of a cooperative launch. -/
def isCoop (s : State) (b : Block) : Bool := launchFlag s b Launch.coop

/-- The blocks of a request: those of the clusters, and every block of a cooperative launch that has one there (R383). -/
def requestSlots (s : State) (cls : List Nat) : List Nat :=
  let named := cls.flatMap (slotsOn s)
  let coop := (named.filterMap (blockOf s)).filter (isCoop s)
  (named ++ (s.blocks.filter (fun b => b.2.phase != .retired && coop.any (fun c => c.launch == b.2.launch))).map (·.1)).dedup

/-! ### The save (R385, R388, R389) -/

/-- Nothing is live. -/
def RestartEntry.none (slot : BitVec 15) : RestartEntry := ⟨slot, 0, 0, 0, 0, [], []⟩

/-- The restart entry at a thread's RPADDR, from the table read at the load of its overlay (R245, R271). -/
def liveAt (s : State) (b : Block) (tid : ThreadId) (t : Thread) : RestartEntry :=
  let slot := t.rpaddr.extractLsb' 0 15
  match lenOf s (coreIdOf b tid) b.ctx (t.rpStack.headD 0) with
  | none => RestartEntry.none slot
  | some r => (r.table.find? (fun e => e.slot == slot)).getD (RestartEntry.none slot)

/-- TSTATE, with the barrier and target of a thread in BARW (Table 18.3). -/
def Thread.saveState (t : Thread) : Nat × Nat × BitVec 16 :=
  match t.status with
  | .retired => (0, 0, 0)
  | .waiting (.barw a target) => (2, a, target)
  | .parkedLoad _ (.rewait a target) => (2, a, target)
  | _ => (1, 0, 0)

/-- Faults that a parked thread still waits on. -/
def openFaults (s : State) (b : Block) (t : Thread) : List PageFault :=
  match t.status with
  | .parkedFault fs _ => fs.filter (outstanding s b.cluster b.ctx)
  | _ => []

/-- The live v registers of an entry, ascending. -/
def liveV (e : RestartEntry) (t : Thread) : List (VReg × Word × Bool) :=
  ((rangeFrom 0 64).filter (fun i => e.vlive.getLsbD i)).map (fun i =>
    let r : VReg := BitVec.ofNat 6 i
    (r, t.v[r.toNat]'(vreg_lt r), t.poisonV.getLsbD i))

/-- The live a registers of an entry, ascending. -/
def liveA (e : RestartEntry) (t : Thread) : List (AReg × Cap × Bool) :=
  ((rangeFrom 0 8).filter (fun i => e.alive.getLsbD i)).map (fun i =>
    let r : AReg := BitVec.ofNat 3 i
    (r, t.a[r.toNat]'(areg_lt r), t.poisonA.getLsbD i))

/-- A thread's record (Table 18.3). -/
def saveThread (s : State) (b : Block) (tid : ThreadId) (t : Thread) : SavedThread :=
  let (ts, addr, target) := t.saveState
  let e := if ts = 0 then RestartEntry.none 0 else liveAt s b tid t
  { tstate := ts
    pval := t.p &&& e.plive
    rpaddr := t.rpaddr
    rpStack := t.rpStack
    stack := if ts = 2 then t.stack else t.rpStack
    fpx := t.fpx
    counts := t.counts
    btgt := target
    baddr := addr
    clkh := t.clkh
    gtsh := t.gtsh
    vlive := liveV e t
    alive := liveA e t
    poisonP := t.poisonP &&& e.plive.setWidth 8
    poisonF := t.poisonF
    faults := openFaults s b t
    pc := if ts = 2 then t.pc else 0#1 ++ t.rpaddr.extractLsb' 0 15 }

/-- Scratchpad addresses that the saved threads list, and those of typed objects (R388). -/
def keptSpad (b : Block) (es : List RestartEntry) (a : Nat) : Bool :=
  es.any (fun e => e.spad.any (fun r => decide (r.1 ≤ a ∧ a < r.1 + r.2)))
    || b.types.any (fun x => decide (x.1 ≤ a ∧ a < x.1 + 16))

/-- Tiles of a core that its saved threads list; a tile is numbered core × 128 + tile. -/
def keptTile (es : List (Nat × RestartEntry)) (n : Nat) : Bool :=
  es.any (fun x => x.1 == n / 128 && x.2.tiles.any (fun r => decide (r.1 ≤ n % 128 ∧ n % 128 < r.1 + r.2)))

/-- The entries of the threads that are not retired, each with its core number. -/
def saveEntries (s : State) (slot : Nat) (b : Block) : List (Nat × RestartEntry) :=
  ((b.tids slot).filter (fun x => x.2.status != .retired)).map (fun x => ((b.wave (waveIx x.1)).core, liveAt s b x.1 x.2))

/-- A block as saved (Table 18.2). -/
def saveOf (s : State) (slot : Nat) (b : Block) (swap : Bool) (area : Nat × Nat) : SavedBlock :=
  let es := saveEntries s slot b
  { slot := slot
    area := area
    launch := b.launch
    lin := b.lin
    coord := b.coord
    grid := b.grid
    cluster := b.cluster
    cores := b.cores
    slice := b.slice
    tilesN := b.tilesN
    waves := b.waves.map (fun w => ⟨w.core, w.part, w.flockw, w.q.map (·.status), w.q.map (·.ops), w.q.map (·.clock), w.poisonQ, w.finished⟩)
    types := b.types
    spans := spanUnion (es.flatMap (fun e => e.2.spad))
    keptTiles := (rangeFrom 0 512).filter (keptTile es)
    spad := b.spad.filter (fun c => keptSpad b (es.map (·.2)) c.1)
    tiles := b.tiles.filter (fun c => keptTile es (c.1 / 2048))
    tflags := b.tflags.filter (fun c => keptTile es c.1)
    spadPoison := b.spadPoison.filter (fun g => keptSpad b (es.map (·.2)) (8 * g))
    tilePoison := b.tilePoison.filter (fun g => keptTile es (g / 256))
    threads := (b.tids slot).map (fun x => saveThread s b x.1 x.2)
    lents := b.threads.map Thread.lent
    order := b.order
    knowns := b.threads.map Thread.known
    charge := b.charge
    swapped := swap
    bound := b.bound }

/-- The place for the image of each block in its context's save area; none where they do not all fit (R388). A block that has not
started is measured as it would start. -/
def placesFor (s : State) (ctx : Nat) (slots : List Nat) : Option (List (Nat × Nat)) :=
  (ctxOf s ctx).bind (fun c => areasFor c (slots.filterMap (fun k =>
    let s := if (blockOf s k).any (fun b => b.phase == .placed) then startBlock s k else s
    (blockOf s k).bind (fun b => (launchOf s b.launch).map (fun l => ((saveOf s k b false (0, 0)).image s.freeCtr l).length)))))

/-- The blocks fit in the context's save area beside those it holds, as their threads stand (R388, log 97). -/
def saveFits (s : State) (ctx : Nat) (slots : List Nat) : Bool := (placesFor s ctx slots).isSome

/-! ### The request (R381, R383, R388) -/

/-- A block of a request drains from now on: one placed and not started starts first, and its threads stay at the kernel entry;
one that drains for a pre-emption goes on doing so; one that drains for swap-out drains for the pre-emption instead. -/
def preemptBlock (s : State) (slot : Nat) : State :=
  match blockOf s slot with
  | none => s
  | some b =>
    match b.phase with
    | .placed => drainBlock false (startBlock s slot) slot
    | .running => drainBlock false s slot
    | .draining _ true => setBlock s slot { b with phase := .draining s.cycle false }
    | _ => s

/-- PREEMPT_REQUEST (R381, R383): firmware names clusters of a context; the request is refused where the blocks do not fit
the save area (R388). One request joins another that is under way. -/
def execPreemptRequest (ctx : Nat) (clusters : List Nat) (s : State) : Out :=
  match ctxOf s ctx with
  | none => .next s
  | some c =>
    let slots := requestSlots s clusters
    if clusters.isEmpty || !clusters.all (fun k => (clusterOf s k).ctx == some ctx) || c.killed || !saveFits s ctx slots then .next s
    else
      let d := c.drain.getD ⟨[], []⟩
      let s := setCtx s ctx { c with drain := some ⟨(d.clusters ++ clusters).dedup, (d.blocks ++ slots).dedup⟩ }
      .next (slots.foldl preemptBlock s)

/-! ### The save of a block (R385) -/

/-- Threads still held roll back (R103, R381). -/
def rollHeld (s : State) (slot : Nat) (b : Block) : State :=
  (b.tids slot).foldl (fun s x => match x.2.status with
    | .held _ => rollbackTo s x.1 .drained
    | _ => s) s

/-- Saves one drained block: its image is written into the save area, and its room and references return to the cores. -/
def saveBlock (s : State) (x : Nat × Nat × Nat) : State :=
  let slot := x.1
  match blockOf s slot with
  | none => s
  | some b0 =>
    let s := rollHeld s slot b0
    match blockOf s slot with
    | none => s
    | some b =>
      let swap := match b.phase with
        | .draining _ w => w
        | _ => false
      let r := saveOf s slot b swap x.2
      let s := match launchOf s b.launch with
        | some l => writeDev s x.2.1 (r.image s.freeCtr l)
        | none => s
      let s := releaseRefs s slot b
      modCtx { s with blocks := Assoc.erase s.blocks slot } b.ctx (fun c => { c with saved := c.saved ++ [r] })

/-- The blocks saved together with one: all of a cooperative launch (R383). -/
def saveWith (s : State) (slot : Nat) (b : Block) : List Nat :=
  if isCoop s b then ((blocksOf s b.launch).filter (fun p => p.2.phase != .retired)).map (·.1) else [slot]

/-- A block may be saved: it was to drain, and is drained (R384). -/
def maySave (s : State) (slot : Nat) : Bool :=
  (blockOf s slot).any (fun b => (match b.phase with | .draining _ _ => true | _ => false) && drained s slot b)

/-- BLOCK_SAVE (R385): a drained block is saved; the blocks of a cooperative launch together. -/
def execBlockSave (slot : Nat) (s : State) : Out :=
  match blockOf s slot with
  | none => .next s
  | some b =>
    let slots := saveWith s slot b
    match placesFor s b.ctx slots with
    | none => .next s
    | some places =>
      if maySave s slot && slots.all (maySave s) && launchFlag s b (fun l => l.fatal.isNone)
      then .next (testDrained ((slots.zip places).foldl saveBlock s) b.cluster) else .next s

/-! ### The switch of a cluster (R271, R385) -/

/-- The private overlays of a context that a core holds. -/
def privateOn (c : Core) (ctx : Nat) : List (BitVec 8) :=
  c.resid.filterMap (fun r => match r.key with
    | .priv x id => if x = ctx then some id else none
    | .pub _ => none)

/-- A core's store and L1 lose what is the outgoing context's; the identities of its resident overlays are kept (R271). -/
def leaveCore (ctx : Nat) (s : State) (core : Nat) : State :=
  let c := coreOf s core
  let ids := privateOn c ctx
  let c := ids.foldl (fun c id => c.evict (.priv ctx id)) c
  let s := setCore s core { c with l1 := [] }
  modCtx s ctx (fun x => { x with residents := x.residents.filter (fun r => r.1 != core) ++ ids.map (fun id => (core, id)) })

/-- A drain no longer holds a cluster; one that holds none is over. -/
def dropDrained (c : Context) (cl : Nat) : Context :=
  { c with drain := c.drain.bind (fun d =>
      let left := d.clusters.filter (· != cl)
      if left.isEmpty then none else some { d with clusters := left }) }

def coresOf (cl : Nat) : List Nat := (rangeFrom 0 4).map (fun k => 4 * cl + k)

/-- No block of any context has threads on a cluster, and no overlay load of it is under way. -/
def clusterIdle (s : State) (cl : Nat) : Bool :=
  (slotsOn s cl).isEmpty && (coresOf cl).all (fun k => (coreOf s k).loads.isEmpty)

/-- A context may run on a cluster: it is assigned to it, in service, and its instruction-store quotas leave the public
region (R269, R379, R418). -/
def mayRun (s : State) (cl ctx : Nat) : Bool :=
  (match ctxOf s ctx with | some c => c.params.clusters.contains cl && !c.killed | none => false)
    && !(clusterOf s cl).outOfService
    && (coresOf cl).all (fun k => decide (istoreQuota s ctx k + s.service.settings.publicRegion ≤ 64))

/-- CONTEXT_SWITCH (R271, R379, R385): firmware gives an idle cluster to a context, or to none. -/
def execContextSwitch (cluster : Nat) (ctx : Option Nat) (s : State) : Out :=
  if Config.numClusters ≤ cluster ∨ !clusterIdle s cluster ∨ !(match ctx with | some c => mayRun s cluster c | none => true)
      ∨ !(match (clusterOf s cluster).ctx.bind (ctxOf s) with | some c => !drainOn s c | none => true) then .next s
  else
    let s := match (clusterOf s cluster).ctx with
      | some out => modCtx (if ctx = some out then s else (coresOf cluster).foldl (leaveCore out) s) out (fun c => dropDrained c cluster)
      | none => s
    .next (setCluster s cluster { clusterOf s cluster with ctx := ctx })

/-! ### Swap-out (R386) -/

def swapLimOf (s : State) (ctx : Nat) : Nat := match ctxOf s ctx with
  | some c => c.params.swapLim
  | none => 0

def drainLimOf (s : State) (ctx : Nat) : Nat := match ctxOf s ctx with
  | some c => c.params.drainLim
  | none => 0

/-- A thread parked on fault service since a cycle. -/
def Thread.parkedSince (t : Thread) : Option Nat :=
  match t.status with
  | .parkedFault _ c => if t.trap.isNone then some c else none
  | _ => none

/-- SWAP_OUT (R386): a thread of a running block has been parked for SWAPLIM cycles; not of a cooperative launch. -/
def execSwapOut (slot : Nat) (s : State) : Out :=
  match blockOf s slot with
  | none => .next s
  | some b =>
    let lim := swapLimOf s b.ctx
    if b.phase = .running ∧ 0 < lim ∧ b.noSwapBefore ≤ s.cycle ∧ !isCoop s b
        ∧ b.threads.any (fun t => t.parkedSince.any (fun c => decide (c + lim ≤ s.cycle))) ∧ saveFits s b.ctx [slot]
    then .next (drainBlock true s slot) else .next s

/-- A thread of an abandoned drain goes on: one that is at its restart point resumes there, once what a rollback waits for has
completed (R29, R134). -/
def undrain (s : State) (tid : ThreadId) : State :=
  match threadOf s tid with
  | none => s
  | some t =>
    let s := setThread s tid { t with runFrom := none }
    if t.status ≠ .drained then s
    else if t.recovered s.cycle then enterRestart s tid
    else setThread s tid { t with status := .parkedFault [] s.cycle, runFrom := none }

/-- SWAP_ABANDON (R386): a swap-out drain that reaches DRAINLIM. -/
def execSwapAbandon (slot : Nat) (s : State) : Out :=
  match blockOf s slot with
  | none => .next s
  | some b =>
    match b.phase with
    | .draining since true =>
      if since + drainLimOf s b.ctx ≤ s.cycle ∧ !drained s slot b then
        let s := setBlock s slot { b with phase := .running, noSwapBefore := s.cycle + swapLimOf s b.ctx }
        .next ((rangeFrom 0 b.threads.length).foldl (fun s i => undrain s ⟨slot, i⟩) s)
      else .next s
    | _ => .next s

/-! ### Resumption (R387) -/

/-- Starts on a core the loads of the overlays recorded at the switch for the core that the block was saved from (R271, R387). -/
def reloadOn (ctx launch : Nat) (s : State) (old core : Nat) : State :=
  match ctxOf s ctx with
  | none => s
  | some c =>
    ((c.residents.filter (fun r => r.1 == old)).map (·.2)).foldl (fun s id => match ovEntryOf s ctx id with
      | none => s
      | some e => (startLoad s core ctx launch id e).1) s

/-- The identities recorded for cores of a cluster from which no saved block is left are forgotten. -/
def forgetResidents (c : Context) : Context :=
  { c with residents := c.residents.filter (fun r => c.saved.any (fun b => b.cluster == r.1 / 4)) }

/-- A resumed block begins on a core as a started one does, with no copy in the L1 (R150, R351). -/
def resumeOn (s : State) (id core : Nat) : State :=
  let s := beginOn s id core
  setCore s core { coreOf s core with l1 := [] }

/-- A thread of a resumed block comes back: to its restart point, or to BARW. -/
def resumeThread (slot : Nat) (ts : List SavedThread) (s : State) (i : Nat) : State :=
  match ts[i]? with
  | none => s
  | some t =>
    if t.tstate = 0 then s
    else comeIn s ⟨slot, i⟩ (if t.tstate = 2 then .rewait t.baddr t.btgt else .resume)

/-- One saved block resumes on a cluster. -/
def resumeBlock (ctx : Nat) (s : State) (x : SavedBlock × Nat) : State :=
  let (b, cl) := x
  let s := standAgain s ctx b cl
  let s := modLaunch s b.launch (fun l => { l with cores := (l.cores ++ b.cores.map (fun k => 4 * cl + k)).dedup })
  let s := b.cores.foldl (fun s k => resumeOn s b.launch (4 * cl + k)) s
  let s := b.cores.foldl (fun s k => reloadOn ctx b.launch s (4 * b.cluster + k) (4 * cl + k)) s
  let s := modCtx s ctx forgetResidents
  (rangeFrom 0 b.threads.length).foldl (resumeThread b.slot b.threads) s

/-- BLOCK_RESUME (R348, R349, R387): in its launch's turn, the next saved block of the launch, or all blocks of a cooperative
launch, are placed where R347 takes them, and come back. -/
def execBlockResume (slot cluster : Nat) (s : State) : Out :=
  match s.contexts.find? (fun c => c.2.saved.any (fun b => b.slot == slot)) with
  | none => .next s
  | some (ctx, c) =>
    match c.saved.find? (fun b => b.slot == slot) with
    | none => .next s
    | some b =>
      match launchOf s b.launch with
      | none => .next s
      | some l =>
        if !dispatchable s b.launch l || !turnOf s ctx b.launch || reservedAbove s ctx b.launch then .next s
        else
          match planSaved ctx (nextSaved s b.launch l) s with
          | some ((b', k) :: ps) =>
            if b'.slot = slot ∧ k = cluster then
              .next (comeTo (unskip (((b', k) :: ps).foldl (resumeBlock ctx) s) b.launch) ctx b.launch)
            else .next s
          | _ => .next s

end Sys2Proof.Machine
end

