-- ==== Sys2Proof/Machine/Auto.lean ====
section
/-! DEFINITION. What the device does by itself when the agenda is empty: the thread it issues, and the events of its own
units in the order they are tried (log 4). -/

namespace Sys2Proof.Machine

open Sys2Proof

/-- Events of one thread. -/
def threadEvents (s : State) (t : ThreadId) : List Instr :=
  match threadOf s t with
  | none => []
  | some x =>
    (rangeFrom 0 x.pend.length).flatMap (fun k => [.loadResultLand t k, .xpipeComplete t k])
      ++ [.yieldExpiry t, .threadAged t, .runonExpiry t, .faultResume t, .stagingRoomFreed t, .stgfullTimeout t]

/-- The first chunk of a request that is not written. -/
def nextChunk (q : CopyReq) : Option Nat :=
  (rangeFrom 0 (ceilDiv q.len 4096)).find? (fun c => q.served? c != q.chunkLen c && !q.faults.any (fun f => f.1 == c))

/-- Events of an engine. -/
def engineEvents (e : Nat) (x : Engine) : List Instr :=
  (rangeFrom 0 x.reqs.length).flatMap (fun k =>
    [.copyComplete e k, .bulkPacketComplete e k]
      ++ (match (x.reqs[k]?).bind nextChunk with | some c => [.copyChunkPart e k c] | none => []))
    ++ (rangeFrom 0 x.faults.length).map (fun k => .faultRecordPost (Config.numClusters + e) k)

/-- Events of a core. -/
def coreEvents (n : Nat) (c : Core) : List Instr :=
  (rangeFrom 0 c.loads.length).map (fun k => .overlayLoadComplete n k) ++ [.overlayRoomWaitEnd n]
    ++ (rangeFrom 0 c.log.length).map (fun k => .logDrain n k)

/-- Notices of a slot. -/
def noticeEvents (slot : Nat) : List Instr :=
  (rangeFrom 0 Config.numDies).flatMap (fun d => [.slotBindingNotice d slot false, .slotBindingNotice d slot true])

/-- Events of a block's matrix streams and its slot binding. -/
def blockEvents (slot : Nat) (b : Block) : List Instr :=
  (rangeFrom 0 b.waves.length).flatMap (fun w => (rangeFrom 0 16).flatMap (fun q =>
    let r : QReg := BitVec.ofNat 4 q
    if ((b.wave w).q.toList.getD q ⟨0, [], [], false⟩).ops.isEmpty then [] else [.matrixOpComplete slot w r, .matrixOpStart slot w r]))
    ++ [.blockStart slot, .blockSave slot, .swapOut slot, .swapAbandon slot] ++ noticeEvents slot

/-- Events of the record path. -/
def pathEvents (s : State) : List Instr :=
  s.commits.map (fun c => .markerForm c.id)
    ++ s.drovers.flatMap (fun d => d.2.paths.map (fun p => .binShip d.1 p.1))
    ++ s.drovers.flatMap (fun d => d.2.inFlight.flatMap (fun b =>
      let c := (pathChan b.path).getD b.path
      (rangeFrom 0 Config.numStacks).map (fun k => .binStage c 0 ((stackOf c + k) % Config.numStacks))))
    ++ s.commits.flatMap (fun c => s.staging.map (fun x => .markerApply c.id x.1))
    ++ s.staging.map (fun x => .markerApply s.nextId x.1)
    ++ s.unbinding.flatMap (fun u => noticeEvents u.1)
    ++ s.contexts.flatMap (fun c => c.2.saved.flatMap (fun b => noticeEvents b.slot))
    ++ (s.commits.filter (fun c => c.scope != .p)).map (fun c => .commitComplete c.id)

/-- A launch number that is free: the dispatcher's own choice is the least. -/
def freeLnum (s : State) : Nat := ((rangeFrom 1 (s.launches.length + 1)).find? (lnumFree s)).getD 0

/-- The dispatcher comes to a launch: its next saved block, or its next placement. -/
def dispatchEvents (s : State) (id : Nat) (l : Launch) : List Instr :=
  if !dispatchable s id l then []
  else
    (match planSaved l.ctx (nextSaved s id l) s with
      | some ((b, k) :: _) => [.blockResume b.slot k]
      | _ => [])
    ++ [.dispatchPass id ((chooseAll id (pendingN l) s).getD [])]

/-- Events of launches. -/
def launchEvents (s : State) : List Instr :=
  s.launches.flatMap (fun l => [.fatalTrapEnd l.1, .reserving l.1, .launchReplay l.1, .launchComplete l.1,
      .launchStart l.1 (freeLnum s)] ++ dispatchEvents s l.1 l.2)
    ++ s.bulkQs.map (fun q => .bulkPacketFetch q.1)

/-- Events of the bulk queues' host side, the fabric and the collective engine. -/
def fabricEvents (s : State) : List Instr :=
  (rangeFrom 0 s.service.hostReads.length).map .hostReadTimeout
    ++ s.fabric.ports.map (fun p => .flitRetransmit p.1) ++ s.fabric.groups.map (fun g => .heartbeatSend g.1)
    ++ s.fabric.buckets.flatMap (fun b => [.bucketStep b.1, .bucketExchangeStart b.1])

/-- Events of contexts and of the device's limits. -/
def limitEvents (s : State) : List Instr :=
  s.contexts.flatMap (fun c => [.hang c.1, .ptimeout c.1]) ++ [.tripResetTimeout]

/-- Every event the device may raise by itself, in the order they are tried. -/
def ownEvents (s : State) : List Instr :=
  (allTids s).flatMap (threadEvents s)
    ++ s.blocks.flatMap (fun p => blockEvents p.1 p.2)
    ++ s.cores.flatMap (fun c => coreEvents c.1 c.2)
    ++ s.engines.flatMap (fun e => engineEvents e.1 e.2)
    ++ s.clusters.flatMap (fun c => (rangeFrom 0 c.2.faults.length).map (fun k => .faultRecordPost c.1 k))
    ++ pathEvents s ++ launchEvents s ++ fabricEvents s ++ limitEvents s
    ++ (rangeFrom 0 4).flatMap (fun d => [.refreshWindow d, .refreshWindowEnd d])
    ++ (partsOf s).map (fun p => .regroup p)

end Sys2Proof.Machine
end

