-- ==== Sys2Proof/Machine/Tables.lean ====
section
/-! DEFINITION. Firmware on the tables: invalidation (R356, R358, R360, R365, R366), migration (R322, R373), and the refresh
windows of the weight store (R378). -/

namespace Sys2Proof.Machine

open Sys2Proof

/-! ### Frames (R366) -/

/-- A frame that a page entry maps: of the weight store or of stacked DRAM, its device, first byte and bytes, whether it is mapped
read-only and under which key slot, and where the entry lies. -/
structure FrameUse where
  ws : Bool
  home : Nat
  frame : Nat
  size : Nat
  ro : Bool
  key : Nat
  addr : Nat

/-- The level-1 tables of an object: its own, or those of its versions that are not free. -/
def rootsOf (s : State) (oe : BitVec 512) : List Nat :=
  if objWsf oe then
    (rangeFrom 1 255).filterMap (fun v => let x := verEntry s oe v; if verState x = 0 then none else some (verRoot x))
  else [objRoot oe]

/-- The entries of an object's present pages that have a frame, with their places. -/
def framePages (s : State) (oe : BitVec 512) : List (Nat × BitVec 64) :=
  (rootsOf s oe).flatMap (fun root =>
    (rangeFrom 0 (ceilDiv (objSize oe) (objPage oe))).filterMap (fun p =>
      match pageEntryAddr s (objHome oe) root p with
      | none => none
      | some a => let pe := pageAt s a; if pagePresent pe && !pageConst pe then some (a, pe) else none))

/-- The frame that an entry of an object maps. -/
def useOf (oe : BitVec 512) (addr : Nat) (pe : BitVec 64) : FrameUse :=
  ⟨objWsf oe, objHome oe, pagePfn pe, objPage oe, pageRo pe, objKey oe, addr⟩

/-- The frames that an object maps. -/
def framesOf (s : State) (oe : BitVec 512) : List FrameUse := (framePages s oe).map (fun x => useOf oe x.1 x.2)

/-- Every frame that an object of any context maps, but of the objects a condition leaves out. -/
def framesBut (s : State) (skip : Nat → Nat → Bool) : List FrameUse :=
  s.contexts.flatMap (fun c => ((objectsOf s c.1).filter (fun o => !skip c.1 o.1)).flatMap (fun o => framesOf s o.2))

/-- The pages that launches have snapshotted: their frames stay mapped read-only (R366, R423). -/
def snapshotFrames (s : State) : List FrameUse :=
  s.launches.flatMap (fun l => l.2.snapshots.filterMap (fun x =>
    match objEntry s l.2.ctx x.1, entryAddrOf s l.2.ctx x.1 x.2.1 with
    | some oe, some a => if pageConst x.2.2 then none else some { useOf oe a x.2.2 with ro := true }
    | _, _ => none))

/-- Two ranges share a byte. -/
def framesMeet (a n b m : Nat) : Bool := decide (a < b + m ∧ b < a + n)

/-- Two uses of frames that R366 lets stand beside each other. -/
def FrameUse.apart (f g : FrameUse) : Bool :=
  f.addr == g.addr || f.ws != g.ws || f.home != g.home || !framesMeet f.frame f.size g.frame g.size || (f.ro && g.ro && f.key == g.key)

/-- No other page maps a frame, unless both are read-only under one key (R366). -/
def frameFree (s : State) (f : FrameUse) : Bool :=
  (framesBut s (fun _ _ => false) ++ snapshotFrames s).all f.apart
    && s.migrations.all (fun g => f.ws || g.home != f.home || (g.copied && !g.locked) || !framesMeet g.new g.size f.frame f.size)

/-- The page tables of an object below a level-1 table: first byte and bytes. -/
def tablesUnder (s : State) (home root pages : Nat) : List (Nat × Nat) :=
  (root, 8 * ceilDiv pages 512) :: (rangeFrom 0 (ceilDiv pages 512)).filterMap (fun j =>
    let l1 : BitVec 64 := s.dram.read64 (dramAt home (root + 8 * j))
    if l1.getLsbD 63 then some ((l1.extractLsb' 12 27).toNat * 2 ^ 12, 4096) else none)

/-- The page tables and the version table of an object. -/
def tablesOf (s : State) (oe : BitVec 512) : List (Nat × Nat) :=
  (if objWsf oe then [(objRoot oe, 4096)] else [])
    ++ (rootsOf s oe).flatMap (fun root => tablesUnder s (objHome oe) root (ceilDiv (objSize oe) (objPage oe)))

/-- Ranges of a device's stacked DRAM that firmware maps nowhere: the staging region at the top of each stack, object tables, page
tables, and firmware's regions, which are the save areas (R290, R360, R362, log 102). -/
def unmappable (s : State) (home : Nat) : List (Nat × Nat) :=
  (rangeFrom 1 12).map (fun k => let n := s.service.settings.stagingHalfGiB * 2 ^ 29; (k * Config.stackBytes - n, n))
    ++ (if home = s.device.toNat then
        s.contexts.flatMap (fun c => (c.2.otBase, 64 * c.2.otLen) :: c.2.params.saveArea.toList)
      else [])
    ++ s.contexts.flatMap (fun c => ((objectsOf s c.1).filter (fun o => objHome o.2 == home)).flatMap (fun o => tablesOf s o.2))

/-- A frame of stacked DRAM that firmware may map. -/
def frameOk (s : State) (home frame size : Nat) : Bool :=
  decide (frame + size ≤ Config.dramBytes) && (unmappable s home).all (fun r => !framesMeet frame size r.1 r.2)

/-! ### Edits (R358, R360) -/

/-- A page entry that firmware accepts for an object, as far as its fields go. -/
def pageEntryOk (oe : BitVec 512) (pe : BitVec 64) : Bool :=
  !(pageConst pe && (pageDef pe || pageCmp pe)) && decide (pageCache pe ≠ 3)
    && pe.extractLsb' 39 17 == 0
    && (if pageConst pe then pe.extractLsb' 32 7 == 0
        else pe.extractLsb' 0 16 == 0 && (objPgsz oe != 1 || pe.extractLsb' 16 5 == 0) && (!objWsf oe || pe.extractLsb' 32 7 == 0))
    && !(objCapa oe && (pageDef pe || pageCmp pe || pageConst pe))

/-- No page of an object is deferred, compressed or constant-elided. -/
def plainPages (s : State) (oe : BitVec 512) : Bool :=
  (pagesOf s oe).all (fun p => let pe := pageAt s p.2; !(pageDef pe || pageCmp pe || pageConst pe))

/-- A device of the pod: this one, or one with a route. -/
def inPod (s : State) (d : Nat) : Bool := d == s.device.toNat || (Assoc.get s.fabric.routes d).isSome

/-- The pages an object entry maps agree with it: a capability object's present pages (R356) and all
of a quarantine object's (R400) are plain, and no frame is mapped twice (R366). -/
def objectPagesOk (s : State) (ctx obj : Nat) (e : BitVec 512) : Bool :=
  let mine := framesOf s e
  let others := framesBut s (fun c o => c == ctx && o == obj) ++ snapshotFrames s
  mine.all (fun f => (mine ++ others).all f.apart)
    && (!objCapa e || (pagesOf s e).all (fun p => let pe := pageAt s p.2
      !pagePresent pe || !(pageDef pe || pageCmp pe || pageConst pe)))
    && (!isQuarantine s ctx obj || plainPages s e)

/-- An object entry that firmware accepts (R356, R358, R366). -/
def objectEntryOk (s : State) (ctx obj : Nat) (e : BitVec 512) : Bool :=
  let size := objSize e
  let dflt := (e.extractLsb' 22 4).toNat
  !objValid e ||
    (decide (0 < size ∧ size % objPage e = 0 ∧ size ≤ 2 ^ 40 - 2 ^ 21 ∧ objPgsz e < 2 ∧ dflt / 4 ≠ 3)
      && !(objCapa e && (objWsf e || objAged e || decide (dflt % 4 ≠ 0)))
      && (!objWsf e || (decide (objPgsz e = 0 ∧ size ≤ 2 ^ 32 ∧ dflt % 4 = 0) && objMaxr e &&& 0x2A#8 == 0
        && decide (((objectsOf s ctx).filter (fun o => objWsf o.2 && o.1 != obj)).length < 64)))
      && inPod s (objHome e) && (Assoc.get s.service.keys (objKey e)).isSome && objectPagesOk s ctx obj e)

/-- The fields of Table 17.3; every other bit is reserved. -/
def objFields : BitVec 512 :=
  BitVec.ofNat 512 (0xFFCFFFFF + 2 ^ 32 * 0xFFFFFF00 + 2 ^ 64 * 0xFFFFFFFF + 2 ^ 96 * 0xFF + 2 ^ 128 * 0xFFFFFFFF + 2 ^ 160 * 0x7F
    + 2 ^ 192 * 0xFF0003FF)

/-- Where a page entry lies; a weight-store page number has the version in its bits [23:16]. -/
def editAddr (s : State) (oe : BitVec 512) (page : Nat) : Option Nat :=
  if objWsf oe then pageEntryAddr s (objHome oe) (verRoot (verEntry s oe (page / 2 ^ 16))) (page % 2 ^ 16)
  else pageEntryAddr s (objHome oe) (objRoot oe) page

/-- Records formed and not applied lie in a frame (R302). -/
def frameHasRecords (s : State) (home a n : Nat) : Bool :=
  (allRecs s).any (fun r => r.home.toNat == home && decide (a ≤ r.paddr.toNat ∧ r.paddr.toNat < a + n))

/-- Attributes that a page with records keeps (R302). -/
def keptAttrs (pe : BitVec 64) : Bool × Bool × Bool := (pageDef pe, pageCmp pe, pageConst pe)

/-- The frame of an entry may be mapped: it is not firmware's (R360, R362), and no other page has it (R366). -/
def mappable (s : State) (oe : BitVec 512) (a : Nat) (pe : BitVec 64) : Bool :=
  !pagePresent pe || pageConst pe
    || ((objWsf oe || frameOk s (objHome oe) (pagePfn pe) (objPage oe)) && frameFree s (useOf oe a pe))

/-- Changes a page entry; a quarantine object's stay plain (R400). -/
def editPage (s : State) (ctx obj page : Nat) (oe : BitVec 512) (pe : BitVec 64) : State :=
  match editAddr s oe page with
  | none => s
  | some a =>
    let old := pageAt s a
    if !pageEntryOk oe pe || (isQuarantine s ctx obj && (pageDef pe || pageCmp pe || pageConst pe)) || !mappable s oe a pe || (liveMigration s a).isSome then s
    else if pagePresent old && !objWsf oe && keptAttrs old ≠ keptAttrs pe && frameHasRecords s (objHome oe) (pagePfn old) (objPage oe) then s
    else l1Invalidate (setPage s a pe) ctx obj
      (some (if objWsf oe then (page / 2 ^ 16, page % 2 ^ 16 * objPage oe, objPage oe) else (0, page * objPage oe, objPage oe)))

/-- Changes an object entry, its reserved bits 0 (R7); an aged object starts with SWSTEP at STEP (R435). -/
def editObject (s : State) (ctx obj : Nat) (e : BitVec 512) : State :=
  match ctxOf s ctx with
  | none => s
  | some c =>
    if !objectEntryOk s ctx obj e ∨ obj = 0 ∨ c.otLen ≤ obj ∨ s.migrations.any (fun g => g.ctx == ctx && g.obj == obj && (g.locked || !g.copied)) then s
    else
      let new := objValid e && objAged e && !(match objEntry s ctx obj with | some o => objAged o | none => false)
      let s := writeDev s (c.otBase + 64 * obj) (leBytes 64 (e &&& objFields).toNat)
      let s := if new then modCtx s ctx (fun c => { c with swsteps := Assoc.set c.swsteps obj c.stepReg }) else s
      l1Invalidate s ctx obj none

/-- Sets or clears HOLD of a version; a retired one without pins is free once it is clear (R375, R376, log 12). -/
def editHold (s : State) (ver : Nat) (on : Bool) (oe : BitVec 512) : State :=
  if !objWsf oe ∨ ver = 0 ∨ 255 < ver then s
  else
    freeVersion { s with dram := s.dram.writeNat (verAddr oe ver) 1 (verState (verEntry s oe ver) + (if on then 4 else 0)) } oe ver

/-- INVALIDATION (R365): the new entry, and no copy of the old one's lines; an entry that firmware refuses changes nothing. -/
def execInvalidation (ctx : Nat) (e : TableEdit) (s : State) : Out :=
  match e with
  | .object obj entry => .next (editObject s ctx obj entry)
  | .page obj page entry => .next (((objEntry s ctx obj).map (fun oe => editPage s ctx obj page oe entry)).getD s)
  | .hold obj ver on => .next (((objEntry s ctx obj).map (editHold s ver on)).getD s)

/-! ### Migration (R322, R373) -/

/-- Bytes [src, src + n) copied to [dst, dst + n), for ranges that do not meet. -/
def Memory.copyRange (m : Memory) (src dst n : Nat) : Memory :=
  (m.filter (fun c => decide (src ≤ c.1 ∧ c.1 < src + n))).foldl (fun m c => m.write (c.1 - src + dst) c.2)
    (m.filter (fun c => decide (c.1 < dst ∨ dst + n ≤ c.1)))

/-- The same for numbers of a set. -/
def NatSet.copyRange (s : NatSet) (src dst n : Nat) : NatSet :=
  (s.filter (fun k => decide (src ≤ k ∧ k < src + n))).foldl (fun s k => NatSet.add s (k - src + dst)) (s.delRange dst n)

/-- The same for the keys of lines. -/
def Assoc.copyRange {α : Type} (m : Assoc α) (src dst n : Nat) : Assoc α :=
  (m.filter (fun c => decide (src ≤ c.1 ∧ c.1 < src + n))).foldl (fun m c => Assoc.set m (c.1 - src + dst) c.2)
    (m.filter (fun c => decide (c.1 < dst ∨ dst + n ≤ c.1)))

/-- A frame's bytes, tags and poison copied to another frame, its lines under the keys they were written under (log 19). -/
def copyFrame (s : State) (src dst n : Nat) : State :=
  { s with
    dram := s.dram.copyRange src dst n
    lineKey := Assoc.copyRange s.lineKey (src / 64) (dst / 64) (n / 64)
    tags := s.tags.copyRange (src / 16) (dst / 16) (n / 16)
    poison := s.poison.copyRange (src / 64) (dst / 64) (n / 64) }

/-- A page entry with another frame, and MIG 0. -/
def movedEntry (pe : BitVec 64) (frame : Nat) : BitVec 64 :=
  (pe &&& ~~~(0x7FFFFF#64 <<< 16) &&& ~~~(1#64 <<< 58)) ||| (BitVec.ofNat 64 (frame / 2 ^ 16 % 2 ^ 23) <<< 16)

/-- A page that may begin to migrate: present in stacked DRAM, no record waits to be applied in it, and the frame it goes to may
be mapped (R302, R322, R373). -/
def mayMigrate (s : State) (oe : BitVec 512) (a newFrame : Nat) : Bool :=
  let pe := pageAt s a
  let n := objPage oe
  !objWsf oe && pagePresent pe && !pageConst pe && decide (newFrame % n = 0) && frameOk s (objHome oe) newFrame n
    && !framesMeet (pagePfn pe) n newFrame n && frameFree s ⟨false, objHome oe, newFrame, n, false, objKey oe, 2 ^ 64⟩
    && !frameHasRecords s (objHome oe) (pagePfn pe) n

/-- Steps 1 and 2 of R322: the page is marked and no translation of it is left. A part of a copy holds its pins within one step, so
none is held here (log 68). -/
def beginMigration (s : State) (ctx obj page newFrame : Nat) (oe : BitVec 512) (a : Nat) : State :=
  let pe := pageAt s a
  let n := objPage oe
  let s := { s with migrations := s.migrations.filter (fun x => x.peAddr != a) ++ [⟨ctx, obj, page, a, objHome oe, pagePfn pe, newFrame, n, false, false⟩] }
  l1Invalidate (setPage s a (setBit pe 58 true)) ctx obj (some (0, page * n, n))

/-- A snapshot of the page that moves has the new frame too (R423). -/
def moveSnapshots (s : State) (g : Migration) : State :=
  { s with launches := Assoc.mapVals s.launches (fun _ l =>
      if l.ctx != g.ctx then l
      else { l with snapshots := l.snapshots.map (fun x =>
        if x.1 == g.obj && x.2.1 == g.page && pagePfn x.2.2 == g.old then (x.1, x.2.1, movedEntry x.2.2 g.new) else x) }) }

/-- Steps 5 and 6 of R322: the entry has the new frame and MIG 0, the lock is clear, and what is held goes on in its order. -/
def endMigration (s : State) (g : Migration) : State :=
  let s := l1Invalidate (setPage s g.peAddr (movedEntry (pageAt s g.peAddr) g.new)) g.ctx g.obj (some (0, g.page * g.size, g.size))
  let s := moveSnapshots s g
  let g' := { g with locked := false }
  endHeld { s with migrations := s.migrations.map (fun x => if x.peAddr == g.peAddr then g' else x) } g' ⟨2 ^ 15, 0⟩

/-- The next step of a migration: the lock (step 3), the copy (step 4), or the switch (log 68). -/
def migrate (s : State) (g : Migration) : State :=
  let put (s : State) (g' : Migration) : State :=
    { s with migrations := s.migrations.map (fun x => if x.peAddr == g.peAddr then g' else x) }
  if !g.locked && !g.copied then put s { g with locked := true }
  else if !g.copied then
    put (copyFrame s (dramAt g.home g.old) (dramAt g.home g.new) g.size) { g with copied := true }
  else if g.locked then endMigration s g
  else s

/-- MIGRATION (R322, R373): system software moves a page to a frame, one step of R322 after the other. -/
def execMigration (ctx obj page newFrame : Nat) (s : State) : Out :=
  match objEntry s ctx obj with
  | none => .next s
  | some oe =>
    match editAddr s oe page with
    | none => .next s
    | some a =>
      match liveMigration s a with
      | some g => if g.new = newFrame then .next (migrate s g) else .next s
      | none => if mayMigrate s oe a newFrame then .next (beginMigration s ctx obj page newFrame oe a) else .next s

/-! ### Refresh windows (R378) -/

/-- REFRESH_WINDOW (R378). -/
def execRefreshWindow (die : Nat) (s : State) : Out :=
  if die < 4 ∧ inRefresh s die ∧ !s.refresh.has die then .next { s with refresh := NatSet.add s.refresh die } else .next s

/-- REFRESH_WINDOW_END (R378). -/
def execRefreshWindowEnd (die : Nat) (s : State) : Out :=
  if s.refresh.has die ∧ !inRefresh s die then .next { s with refresh := NatSet.del s.refresh die } else .next s

end Sys2Proof.Machine
end

