-- ==== Sys2Proof/Machine/Host.lean ====
section
/-! DEFINITION. Doorbells (R405) and the requests of the firmware mailbox (R404): queues, storage windows, apertures, pod
groups, buckets, resolve, capabilities, weight-store versions. -/

namespace Sys2Proof.Machine

open Sys2Proof

/-! ### The mailbox (R404) -/

/-- The function reaches the context: the PF every one, a VF its own (R402, R404). -/
def mayServe (s : State) (r : Req) : Bool :=
  match ctxOf s r.ctx with
  | none => false
  | some c => r.fn == 0 || c.fns.contains r.fn

/-- A response in its slot: result, context and tag in word 0, and word 1. -/
def response (r : Req) (code : BitVec 8) (w1 : Word) (rest : List Word) : List Word :=
  (r.tag.setWidth 18 ++ BitVec.ofNat 6 r.ctx ++ code : BitVec 32) :: w1 :: rest

/-- The request is taken from a ring of 64 slots and answered in its slot. -/
def Mailbox.answer (m : Mailbox) (ws : List Word) : Mailbox :=
  ⟨m.requests + 1, m.responses + 1, Assoc.set m.slots (m.responses.toNat % 64) ws⟩

/-- Firmware answers a mailbox request: the response, the counter, and MSI-X vector 0 of the function. -/
def answer (s : State) (r : Req) (code : BitVec 8) (w1 : Word) : State :=
  sendMsix { s with service := { s.service with
    mailboxes := Assoc.set s.service.mailboxes r.fn
      ((Assoc.getD s.service.mailboxes r.fn Mailbox.empty).answer (response r code w1 [])) } } r.fn 0

/-- The number of the first check that refuses, counting from one number. -/
def firstRefused : Nat → List Bool → Option Nat
  | _, [] => none
  | n, c :: cs => if c then firstRefused (n + 1) cs else some n

/-- A request of firmware: check 1 is the context, the others count from 2 (log 14). Granted, it acts and answers. -/
def request (s : State) (r : Req) (checks : List Bool) (act : State → State × Word) : Out :=
  match firstRefused 1 (mayServe s r :: checks) with
  | some n => .next (answer s r (BitVec.ofNat 8 n) 0)
  | none =>
    let (s, w) := act s
    .next (answer s r 0 w)

/-- MAILBOX_REFUSED (R404): any other code, or a context outside the function's set. -/
def execMailboxRefused (r : Req) (_code : BitVec 8) (s : State) : Out := .next (answer s r 1 0)

/-! ### Doorbells (R405) -/

def doorKey (fn k : Nat) : Nat := fn * 4096 + k

/-- The least free doorbell of a function. -/
def freeDoor (s : State) (fn : Nat) : Option Nat :=
  (rangeFrom 0 4096).find? (fun k => (Assoc.get s.service.doorbells (doorKey fn k)).isNone)

def bindDoor (s : State) (fn k : Nat) (t : DoorTarget) : State :=
  { s with service := { s.service with doorbells := Assoc.set s.service.doorbells (doorKey fn k) t } }

def freeDoorbell (s : State) (fn k : Nat) : State :=
  { s with service := { s.service with doorbells := Assoc.erase s.service.doorbells (doorKey fn k) } }

/-- The event of a dropped write to a BAR offset (Table 21.4). -/
def dropEvent (s : State) (ctx : Option Nat) (off : Nat) : State :=
  logEvent s 0x08 0 ctx (srcNo 6 0) (BitVec.ofNat 32 off) (BitVec.ofNat 32 (off / 2 ^ 32))

/-- BAR0 offset of doorbell k. -/
def doorOff (k : Nat) : Nat := 0x200000 + 8 * k

/-- Raises a 64-bit word of device memory to a value, as one RMW. -/
def raiseTo (s : State) (addr : Nat) (x : BitVec 64) : State := writeDevNat s addr 8 (max (readDevNat s addr 8) x.toNat)

/-- DOORBELL_LAUNCH_QUEUE (Table 19.7). -/
def execDoorbellLaunchQueue (fn k : Nat) (x : BitVec 64) (s : State) : Out :=
  match Assoc.get s.service.doorbells (doorKey fn k) with
  | some (.launch q) =>
    (match Assoc.get s.launchQs q with
    | some lq => .next (raiseTo s lq.addr x)
    | none => .next s)
  | _ => .next s

/-- DOORBELL_BULK_QUEUE (Table 19.7): nothing is written, and the engine tests its slot again, which it does at every step
(R397). -/
def execDoorbellBulkQueue (_fn _k : Nat) (_x : BitVec 64) (s : State) : Out := .next s

/-- DOORBELL_FAULT_QUEUE (Table 19.7). -/
def execDoorbellFaultQueue (fn k : Nat) (x : BitVec 64) (s : State) : Out :=
  match Assoc.get s.service.doorbells (doorKey fn k) with
  | some (.fault ctx) =>
    (match (ctxOf s ctx).bind Context.faultQ with
    | some q => .next (raiseTo s (q.addr + 8) x)
    | none => .next s)
  | _ => .next s

/-- DOORBELL_UNBOUND (R405): a write to an unbound doorbell, or a malformed one. -/
def execDoorbellUnbound (_fn k : Nat) (_x : BitVec 64) (s : State) : Out := .next (dropEvent s none (doorOff k))

/-! ### Objects as firmware reads and writes them -/

/-- Object bytes that firmware reads whole, or none where they do not translate. -/
def fwRead (s : State) (ctx obj off n : Nat) : Option (List Byte) :=
  match readObj s ctx none .read obj off n with
  | (_, .ok (bs, bad)) => if bad then none else some bs
  | (_, .error _) => none

/-- Object bytes that firmware writes whole, or nothing. -/
def fwWrite (s : State) (ctx obj off : Nat) (bs : List Byte) : Option State :=
  match writeObjRange s ctx none obj off bs with
  | (s, none) => some s
  | (_, some _) => none

/-- A capability granule of an object, with its tag. -/
def fwReadCap (s : State) (ctx obj off : Nat) : Option Cap :=
  match translate s ctx none ⟨obj, off, .read, false, false⟩ with
  | (s, .ok m _) => if off % 16 = 0 then some ⟨BitVec.ofNat 128 (leNat (readMapped s m 16)), tagAt s m⟩ else none
  | _ => none

/-! ### Queues (R338, R370, R396) -/

/-- The queues of a context. -/
def queuesOf (s : State) (ctx : Nat) : List (Nat × LaunchQueue) := s.launchQs.filter (fun q => q.2.ctx == ctx)

/-- A region of device memory, 64-byte aligned. -/
def regionOk (addr n : Nat) : Bool := decide (addr % 64 = 0 ∧ addr + n ≤ Config.dramBytes)

/-- REGISTER_LAUNCH_QUEUE (R338): the header's words start at 0. -/
def execRegisterLaunchQueue (r : Req) (addr logn : Nat) (s : State) : Out :=
  request s r [decide (1 ≤ logn ∧ logn ≤ 16), regionOk addr (64 + 128 * 2 ^ logn),
      decide ((queuesOf s r.ctx).length < 32), (freeDoor s r.fn).isSome] fun s =>
    let k := (freeDoor s r.fn).getD 0
    let id := (Assoc.freeKey s.launchQs 0 4096).getD 0
    let s := bindDoor (writeDev s addr (leBytes 64 0)) r.fn k (.launch id)
    ({ s with launchQs := Assoc.set s.launchQs id ⟨r.ctx, addr, logn, r.fn, k, 0, 0, false⟩ }, BitVec.ofNat 32 k)

/-- REGISTER_FAULT_QUEUE (R370): it replaces the context's earlier one, whose doorbell is unbound. -/
def execRegisterFaultQueue (r : Req) (addr logn : Nat) (s : State) : Out :=
  request s r [decide (4 ≤ logn ∧ logn ≤ 16), regionOk addr (64 + 32 * 2 ^ logn), (freeDoor s r.fn).isSome] fun s =>
    let k := (freeDoor s r.fn).getD 0
    let s := match (ctxOf s r.ctx).bind Context.faultQ with
      | some q => freeDoorbell s q.fn q.doorbell
      | none => s
    let s := bindDoor (writeDev s addr (leBytes 64 0)) r.fn k (.fault r.ctx)
    (modCtx s r.ctx (fun c => { c with faultQ := some ⟨addr, logn, r.fn, k⟩ }), BitVec.ofNat 32 k)

/-- The window table of a bulk queue: its capabilities, or none where one is untagged. -/
def readWindows (s : State) (ctx obj off : Nat) : Nat → Option (List Cap)
  | 0 => some []
  | n + 1 =>
    match fwReadCap s ctx obj off with
    | none => none
    | some c => if c.tag then (readWindows s ctx obj (off + 16) n).map (fun cs => c :: cs) else none

/-- The 64 bytes of a bulk queue's header: WR and RD 0, LOGN (Table 19.1). -/
def bulkHeader (logn : Nat) : List Byte := leBytes 16 0 ++ leBytes 4 logn ++ leBytes 44 0

/-- REGISTER_BULK_QUEUE (R396). -/
def execRegisterBulkQueue (r : Req) (x : BulkReg) (s : State) : Out :=
  if objLocked s r.ctx x.obj then .next s else
  request s r [decide (x.off % 64 = 0 ∧ 1 ≤ x.logn ∧ x.logn ≤ 16 ∧ x.engine < 16 ∧ x.winCount ≤ 16),
      inObject s r.ctx x.obj x.off (64 + 64 * 2 ^ x.logn) 64, (readWindows s r.ctx x.winObj x.winOff x.winCount).isSome,
      (freeDoor s r.fn).isSome, (fwWrite s r.ctx x.obj x.off (bulkHeader x.logn)).isSome] fun s =>
    let k := (freeDoor s r.fn).getD 0
    let id := (Assoc.freeKey s.bulkQs 0 4096).getD 0
    let ws := (readWindows s r.ctx x.winObj x.winOff x.winCount).getD []
    let s := bindDoor ((fwWrite s r.ctx x.obj x.off (bulkHeader x.logn)).getD s) r.fn k (.bulk id)
    ({ s with bulkQs := Assoc.set s.bulkQs id ⟨r.ctx, x.obj, x.off, x.logn, x.engine, ws, r.fn, k⟩ }, BitVec.ofNat 32 k)

/-! ### Storage windows (R400, R433) -/

/-- A key slot of a kind that a context owns. -/
def keyIs (s : State) (ctx slot : Nat) (kind : KeyKind) : Bool :=
  match Assoc.get s.service.keys slot with
  | some k => k.owner == ctx && k.kind == kind
  | none => false

/-- A sealed image's header is accepted: magic, MAJOR, length, and header tag (R432, R433). -/
def headerOk (s : State) (ctx obj off mkey : Nat) : Bool :=
  match fwRead s ctx obj off 80 with
  | none => false
  | some h =>
    let n := fieldAt h 8 4
    fieldAt h 0 4 == 0x5EA1ED00 && fieldAt h 6 2 == 1 && decide (80 ≤ n ∧ n ≤ 4096 ∧ n % 16 = 0)
      && (match fwRead s ctx obj off n with
        | none => false
        | some h => leNat (h.drop (n - 16)) == (Config.hmacTag (keyOf s mkey) (h.take (n - 16))).toNat)

/-- REGISTER_STORAGE_WINDOW (R400, R430, R433). -/
def execRegisterStorageWindow (r : Req) (x : StorageReg) (s : State) : Out :=
  request s r [decide (x.k < 16), (match objEntry s r.ctx x.obj with | some e => !objWsf e && plainPages s e | none => false),
      keyIs s r.ctx x.mkey .hmac, keyIs s r.ctx x.skey .xts, decide (x.dataOff % 65536 = 0 ∧ x.tagOff % 16 = 0),
      headerOk s r.ctx x.obj x.hdrOff x.mkey] fun s =>
    (modCtx s r.ctx (fun c => { c with
      storage := Assoc.set c.storage x.k ⟨x.obj, x.mkey, x.skey, x.dataOff, x.tagOff, x.nchunk, x.imageId⟩ }), 0)

/-! ### Apertures (R403) -/

/-- FILL_APERTURE_WINDOW (R403): the tagged capability of a granule of the context. -/
def execFillApertureWindow (r : Req) (k obj off : Nat) (s : State) : Out :=
  request s r [decide (k < 64), (match fwReadCap s r.ctx obj off with | some c => c.tag | none => false)] fun s =>
    match fwReadCap s r.ctx obj off with
    | some c => ({ s with service := { s.service with aperture := Assoc.set s.service.aperture (r.fn * 64 + k) ⟨r.ctx, c⟩ } }, 0)
    | none => (s, 0)

/-! ### Pod groups and buckets (R408, R409) -/

/-- REGISTER_POD_GROUP (R408, R411). -/
def execRegisterPodGroup (r : Req) (group : Nat) (members : List Nat) (s : State) : Out :=
  request s r [decide (group < 2 ^ 16), members.all (fun d => decide (d < 1024)), members.contains s.device.toNat,
      decide (s.fabric.groups.length < 64) || (Assoc.get s.fabric.groups group).isSome] fun s =>
    ({ s with fabric := { s.fabric with
      groups := Assoc.set s.fabric.groups group ⟨r.ctx, members.dedup, 0, 0, gtsOf s⟩ } }, 0)

/-- The range lies in a local object, on pages that are not deferred. -/
def bucketRange (s : State) (ctx obj off n : Nat) : Bool :=
  match objEntry s ctx obj with
  | none => false
  | some e => !objWsf e && objHome e == s.device.toNat && inObject s ctx obj off n 64
    && ((pagesOf s e).filter (fun p => decide (off < (p.1 + 1) * objPage e ∧ p.1 * objPage e < off + n))).all (fun p =>
      !pageDef (pageAt s p.2))

/-- A bucket as registered (R409). -/
def Bucket.registered (ctx : Nat) (x : BucketReg) : Bucket where
  state := 1
  cad := x.cad
  steps := 0
  ty := x.ty
  opr := x.opr
  ctx := ctx
  obj := x.obj
  off := x.off
  len := x.len
  expect := x.expect
  count := 0
  seq := x.seq
  seqInc := x.seqInc
  sigen := x.sigen
  group := x.group
  done := 0
  members := 0
  flags := 0
  sidx := x.sidx
  local0 := []
  late := false

/-- REGISTER_BUCKET (R409). -/
def execRegisterBucket (r : Req) (x : BucketReg) (s : State) : Out :=
  request s r [decide (x.idx < 256 ∧ x.ty < 4 ∧ x.opr < 4 ∧ 1 ≤ x.expect ∧ x.expect < 2 ^ 32 ∧ x.sidx < 4096),
      bucketRange s r.ctx x.obj x.off x.len, decide (x.len % 64 = 0 ∧ x.len < 2 ^ 32),
      decide (¬(x.opr = 1 ∧ x.ty = 3)), decide (x.cad ≠ 0 ∧ x.cad < 256),
      (match Assoc.get s.fabric.groups x.group with | some g => g.ctx == r.ctx | none => false)] fun s =>
    ({ s with fabric := { s.fabric with buckets := Assoc.set s.fabric.buckets x.idx (Bucket.registered r.ctx x) } }, 0)

/-! ### Resolve (R371) -/

def PageFault.on (f : PageFault) (obj page : Nat) : Bool := f.obj == obj && f.page == page

/-- Faults of a page leave a table. -/
def resolveIn (fs : List FaultEntry) (ctx obj page : Nat) : List FaultEntry :=
  fs.filter (fun e => !(e.ctx == ctx && e.obj == obj && e.page == page))

/-- Every waiter of the context on a page translates again: at clusters, engines, overlay loads, and saved blocks. -/
def resolve (s : State) (ctx obj page : Nat) : State :=
  { s with
    clusters := Assoc.mapVals s.clusters (fun _ c => { c with faults := resolveIn c.faults ctx obj page })
    engines := Assoc.mapVals s.engines (fun _ e => ⟨e.reqs.map (fun q =>
      if q.ctx = ctx then { q with faults := q.faults.filter (fun f => !f.2.on obj page) } else q), resolveIn e.faults ctx obj page⟩)
    cores := Assoc.mapVals s.cores (fun _ c => { c with loads := c.loads.map (fun l =>
      if l.ctx = ctx then { l with fault := l.fault.filter (fun f => !f.on obj page) } else l) })
    contexts := Assoc.mapVals s.contexts (fun i c => if i = ctx then
      { c with saved := c.saved.map (fun b => { b with threads := b.threads.map (fun t =>
        { t with faults := t.faults.filter (fun f => !f.on obj page) }) }) } else c) }

/-- RESOLVE (R371). -/
def execResolve (r : Req) (obj page : Nat) (s : State) : Out :=
  request s r [] fun s => (resolve s r.ctx obj page, 0)

/-! ### Capabilities (R355) -/

/-- The window lies within the object, or within one version of a weight-store object. -/
def windowIn (oe : BitVec 512) (base top : Nat) : Bool :=
  if objWsf oe then
    let v := base / 2 ^ 32
    decide (v < 256 ∧ top ≤ v * 2 ^ 32 + objSize oe)
  else decide (top ≤ objSize oe)

/-- The fields of a request fit and state the window exactly. -/
def mintExact (x : MintReg) : Bool :=
  decide (x.e < 32 ∧ x.lo < 2 ^ 25 ∧ x.len < 2 ^ 26 ∧ x.cursor < 2 ^ 40 ∧ x.base = x.lo * 2 ^ x.e ∧ x.size = x.len * 2 ^ x.e)

/-- Writes a tagged capability into a granule of a capability object. -/
def putCap (s : State) (ctx obj off : Nat) (c : Cap) : Option State :=
  match translate s ctx none ⟨obj, off, .cwrite, false, false⟩ with
  | (s, .ok m _) =>
    if objCapa m.oe ∧ off % 16 = 0 then
      let s := writeObj s none ctx obj off m (leBytes 16 c.bits.toNat) .dflt
      some { s with tags := NatSet.add s.tags (m.loc.addr / 16) }
    else none
  | _ => none

def mintCap (x : MintReg) : Cap := Cap.make x.obj x.rights.toNat x.cursor x.e x.lo x.len true

/-- MINT_CAPABILITY (R355). -/
def execMintCapability (r : Req) (x : MintReg) (s : State) : Out :=
  if objLocked s r.ctx x.dstObj then .next s else
  request s r [(objEntry s r.ctx x.obj).isSome,
      (match objEntry s r.ctx x.obj with | some e => x.rights &&& ~~~(objMaxr e) == 0 | none => false),
      (match objEntry s r.ctx x.obj with | some e => windowIn e x.base (x.base + x.size) | none => false),
      mintExact x, (putCap s r.ctx x.dstObj x.dstOff (mintCap x)).isSome] fun s =>
    ((putCap s r.ctx x.dstObj x.dstOff (mintCap x)).getD s, 0)

/-! ### Weight-store versions (R375, R377) -/

/-- Plaintext of n bytes of a source: object memory, or, from a quarantine object, its chunks verified and opened. None
where it does not translate, is poisoned, or a chunk fails. -/
def fillBytes (s : State) (ctx obj off n : Nat) : Option (List Byte) :=
  match sealedBy s ctx obj with
  | none => fwRead s ctx obj off n
  | some (_, e) =>
    if off < e.dataOff ∨ (off - e.dataOff) % 65536 ≠ 0 ∨ n % 65536 ≠ 0 ∨ 65536 * e.nchunk < off - e.dataOff + n then none
    else
      ((rangeFrom ((off - e.dataOff) / 65536) (n / 65536)).mapM (fun c =>
        match fwRead s ctx obj (e.dataOff + 65536 * c) 65536, fwRead s ctx obj (e.tagOff + 16 * c) 16 with
        | some ct, some tag =>
          if leNat tag = (Config.hmacTag (keyOf s e.mkey) (tagBytes e.imageId c ct)).toNat then some (openChunk (keyOf s e.skey) c ct)
          else none
        | _, _ => none)).map List.flatten

/-- Writes the page table of a version: level-1 entries and leaf entries, 512 frames to a leaf, with the object's default
caching attribute (R357). -/
def writeTables (s : State) (oe : BitVec 512) (l1 : Nat) : Nat → List Nat → List Nat → State
  | _, [], _ => s
  | j, leaf :: leaves, frames =>
    let cache := (oe.extractLsb' 24 2).toNat * 2 ^ 56
    let entries := (frames.take 512).flatMap (fun f => leBytes 8 (2 ^ 63 + cache + f))
    let d := s.dram.writeNat (dramAt (objHome oe) (l1 + 8 * j)) 8 (2 ^ 63 + leaf)
    let s := { s with dram := d.writeBytes (dramAt (objHome oe) leaf) entries }
    writeTables s oe l1 (j + 1) leaves (frames.drop 512)

/-- Writes the frames of a version from bytes, 64 KiB each. -/
def writeFrames (s : State) (home : Nat) : List Nat → List Byte → State
  | [], _ => s
  | f :: fs, bs => writeFrames (writeWs s (wsAt home f) (bs.take 65536)) home fs (bs.drop 65536)

/-- Publishes an open version: CUR names it, the old CUR is retired, lines of the object leave every L1 (R365, R377). -/
def publish (s : State) (ctx obj : Nat) (oe : BitVec 512) (v : Nat) : State :=
  let s := setVerState s oe v 2
  let old := objCur oe
  let s := if old = 0 then s else freeVersion (setVerState s oe old 3) oe old
  match ctxOf s ctx with
  | none => s
  | some c => l1Invalidate (writeDev s (c.otBase + 64 * obj + 27) (leBytes 1 v)) ctx obj none

/-- The version table entry of an open version, with its HOLD. -/
def openVersion (s : State) (oe : BitVec 512) (v root : Nat) : State :=
  let hold := if (verEntry s oe v).getLsbD 2 then 4 else 0
  { s with dram := s.dram.writeNat (verAddr oe v) 16 (1 + hold + 2 ^ 64 * root) }

/-- The frames that a version gets: of the weight store, each once, and mapped by no page (R366, R377). -/
def newFramesOk (s : State) (oe : BitVec 512) (frames : List Nat) : Bool :=
  decide frames.Nodup && frames.all (fun f => decide (f % 65536 = 0 ∧ f < Config.wsBytes)
    && frameFree s ⟨true, objHome oe, f, 65536, false, objKey oe, 2 ^ 64⟩)

/-- The page tables that a version gets: 4 KiB each, apart from one another, where firmware may lay them and no page is mapped. -/
def newTablesOk (s : State) (oe : BitVec 512) (tables : List Nat) : Bool :=
  decide tables.Nodup && tables.all (fun a => decide (a % 4096 = 0) && frameOk s (objHome oe) a 4096
    && frameFree s ⟨false, objHome oe, a, 4096, false, objKey oe, 2 ^ 64⟩)

/-- A weight-store page of a source range whose die is in its refresh window (R378). -/
def sourceRefreshes (s : State) (ctx obj off n : Nat) : Bool :=
  (rangeFrom 0 (ceilDiv n 65536)).any (fun k =>
    match translate s ctx none ⟨obj, off + 65536 * k, .read, false, false⟩ with
    | (_, .ok m _) => refreshes s m
    | _ => false)

/-- PUBLISH_VERSION (R377): a free version is opened with its frames and tables, filled, and published in one step, when no die
that it reads or writes is in its refresh window (R378). -/
def execPublishVersion (r : Req) (x : PublishReg) (s : State) : Out :=
  let oe := (objEntry s r.ctx x.obj).getD 0
  let pages := objSize oe / 65536
  let bytes := fillBytes s r.ctx x.srcObj x.srcOff (objSize oe)
  if x.frames.any (fun f => inRefresh s (wsDie f)) || sourceRefreshes s r.ctx x.srcObj x.srcOff (objSize oe) then .next s else
  request s r [(objEntry s r.ctx x.obj).isSome && objWsf oe, decide (0 < x.ver ∧ x.ver < 256) && verState (verEntry s oe x.ver) == 0,
      decide (x.frames.length = pages ∧ x.leaves.length = ceilDiv pages 512) && newFramesOk s oe x.frames
        && newTablesOk s oe (x.l1 :: x.leaves),
      bytes.isSome] fun s =>
    let s := writeTables (openVersion s oe x.ver x.l1) oe x.l1 0 x.leaves x.frames
    (publish (writeFrames s (objHome oe) x.frames (bytes.getD [])) r.ctx x.obj oe x.ver, 0)

end Sys2Proof.Machine
end

