-- ==== Sys2Proof/Machine/Bulk.lean ====
section
/-! DEFINITION. Bulk packets (R397 to R399), and the host's accesses through the aperture (R403) and the storage window
(R400). -/

namespace Sys2Proof.Machine

open Sys2Proof

/-! ### Checks of a packet (R398, R399) -/

def codeBadPkt : BitVec 8 := 0x08
def codeWin : BitVec 8 := 0x09

def bOp (p : List Word) : Nat := pf p 0 0 4
def bElem (p : List Word) : Nat := 4 * 2 ^ pf p 0 4 4

/-- The operation takes elements: GATHER or SCATTER. -/
def bIndexed (p : List Word) : Bool := bOp p == 2 || bOp p == 3

/-- Bytes of the contiguous side. -/
def bLen (p : List Word) : Nat := if bOp p = 5 then 0 else if bIndexed p then (pw p 8).toNat * bElem p else (pw p 8).toNat

def bReserved : List (Nat × Nat × Nat) := [(1, 12, 4), (3, 8, 24), (7, 8, 24), (9, 0, 32), (13, 8, 24), (14, 0, 32), (15, 0, 32)]

/-- Reserved values and fields. -/
def bFieldsOk (p : List Word) : Bool :=
  decide (1 ≤ bOp p ∧ bOp p ≤ 5) && (pf p 0 10 2 == 1 || pf p 0 10 2 == 2) && fieldsZero p bReserved
    && (bOp p == 4 || pf p 5 8 24 == 0) && (!bIndexed p || decide (pf p 0 4 4 ≤ 10))

/-- A side of a packet: its window capability and its offset in the object. -/
structure BSide where
  cap : Cap
  off : Nat

/-- The side through window w at an offset from the cursor; none for an empty window index. -/
def bSide (ws : List Cap) (w off : Nat) : Option BSide := (ws[w]?).map (fun c => ⟨c, c.cursor + off⟩)

/-- A side passes its window check: the tag, the rights, and for n bytes the window. -/
def BSide.ok (d : BSide) (rights : List Nat) (n : Option Nat) : Bool :=
  (checkTag d.cap 0 rights).isNone && (match n with | some n => (checkBound d.cap d.off n).isNone | none => true)

/-- The sides a packet uses, each with its rights, its length, and its alignment: destination, source, index list. -/
def bSides (ws : List Cap) (p : List Word) : List (Option BSide × List Nat × Option Nat × Nat) :=
  let d := bSide ws (pf p 1 28 4) (pOff p 2)
  let f := bSide ws (pf p 1 24 4) (pOff p 4)
  let i := (bSide ws (pf p 1 20 4) (pOff p 6), [0], some (4 * (pw p 8).toNat), 4)
  let n := some (bLen p)
  if bOp p = 1 then [(d, dstRights, n, 16), (f, srcRights, n, 16)]
  else if bOp p = 2 then [(d, dstRights, n, 16), (f, srcRights, none, 16), i]
  else if bOp p = 3 then [(d, dstRights, none, 16), (f, srcRights, n, 16), i]
  else if bOp p = 4 then [(d, dstRights, n, 16)]
  else []

/-- Offsets and length are aligned. -/
def bAligned (ws : List Cap) (p : List Word) : Bool :=
  (bSides ws p).all (fun x => match x.1 with | some d => d.off % x.2.2.2 == 0 | none => true)
    && (bIndexed p || bLen p % 16 == 0)
    && (!(pw p 0).getLsbD 14 || (match bSide ws (pf p 1 16 4) (pOff p 12) with | some d => d.off % 4 == 0 | none => true))

/-- The status that a packet gets before any byte moves: TBADPKT, TWIN, or none. -/
def bBad (ws : List Cap) (p : List Word) : Option (BitVec 8) :=
  if !bFieldsOk p || !bAligned ws p then some codeBadPkt
  else if (bSides ws p).all (fun x => match x.1 with | some d => d.ok x.2.1 x.2.2.1 | none => false) then none
  else some codeWin

/-- Where the status word goes, when its own window check passes (R399). -/
def bStatus (ws : List Cap) (p : List Word) : Option (Nat × Nat) :=
  if (pw p 0).getLsbD 14 then
    match bSide ws (pf p 1 16 4) (pOff p 12) with
    | some d => if d.off % 4 = 0 ∧ d.ok [1] (some 4) then some (d.cap.obj, d.off) else none
    | none => none
  else none

def bCop (n : Nat) : CopOp := if n = 0 then .addI else if n = 1 then .addF else if n = 2 then .maxI else .maxF

/-- What a packet does, with its index list. -/
def bKind (p : List Word) (idx : List Nat) : CopyKind :=
  if bOp p = 1 then .move
  else if bOp p = 2 then .gather (bElem p) idx
  else if bOp p = 3 then .scatter (bElem p) idx (if (pw p 0).getLsbD 12 then some (bCop (pf p 0 8 2)) else none)
  else if bOp p = 4 then .fill (pw p 5 ++ pw p 4)
  else .signal

def BSide.side (d : Option BSide) : Side :=
  match d with
  | some d => .obj d.cap.obj d.off
  | none => .obj 0 0

/-- The window of the gathered or scattered side. -/
def bWindow (p : List Word) (d f : Option BSide) : Nat × Nat :=
  match (if bOp p = 2 then f else d) with
  | some x => (x.cap.base, x.cap.top)
  | none => (0, 0)

/-- The request of a fetched packet. -/
def bRequest (s : State) (queue no : Nat) (q : BulkQueue) (p : List Word) (idx : List Nat) (bad : Option (BitVec 8)) : CopyReq :=
  let d := bSide q.windows (pf p 1 28 4) (pOff p 2)
  let f := bSide q.windows (pf p 1 24 4) (pOff p 4)
  { id := s.nextId
    ctx := q.ctx
    launch := none
    cluster := Config.clustersPerDie * (q.engine / 4)
    kind := if bad.isSome then .signal else bKind p idx
    dst := BSide.side d
    src := BSide.side f
    len := if bad.isSome then 0 else bLen p
    rsc := if pf p 0 10 2 = 2 then .system else .device
    token := none
    ring := none
    packet := some ⟨queue, no, (pw p 0).getLsbD 15, bStatus q.windows p,
      if (pw p 0).getLsbD 13 then some (pf p 1 0 12, BitVec.ofNat 64 (p64 p 10)) else none⟩
    window := bWindow p d f
    served := []
    words := []
    fail := bad.map (fun c => (0, c))
    faults := []
    sealed := none }

/-! ### Fetch (R397) -/

/-- A fault of an engine's own read or write, reported once while it is outstanding. -/
def noteOnce (s : State) (engine ctx : Nat) (f : PageFault) : State :=
  let e := engineOf s engine
  if e.faults.any (fun x => x.ctx == ctx && x.kind == f.kind && x.obj == f.obj && x.page == f.page) then s
  else setEngine s engine { e with faults := noteFault e.faults ctx f Acc.cwrite.bit (gtsOf s) }

/-- What an engine does when its own access does not translate: it reports a fault and tries again. -/
def engineWaits (s : State) (engine ctx : Nat) (x : Xl) : Out :=
  match x with
  | .fault f => .next (noteOnce s engine ctx f)
  | .noAddr a => .fault (.noSuchAddress a)
  | _ => .next s

/-- Reads the index list of an indexed packet that passed its checks, and whether it is poisoned. -/
def readIndex (s : State) (q : BulkQueue) (p : List Word) : State × Except Xl (List Nat × Bool) :=
  if !bIndexed p || (bBad q.windows p).isSome then (s, .ok ([], false))
  else
    match bSide q.windows (pf p 1 20 4) (pOff p 6) with
    | none => (s, .ok ([], false))
    | some d =>
      match readWaiting s q.ctx none .read d.cap.obj d.off (4 * (pw p 8).toNat) with
      | (s, .error x) => (s, .error x)
      | (s, .ok (bs, bad)) => (s, .ok ((bytesWords bs).map (·.toNat), bad))

/-- The packet is published in its slot: SEQ is RD[15:0] and OP is not 0. -/
def published (p : List Word) (rd : Nat) : Bool := pf p 0 16 16 == rd % 2 ^ 16 && bOp p != 0

/-- Takes a packet: word 0 becomes 0, RD advances, and the request joins the engine. -/
def takeBulk (s : State) (queue : Nat) (q : BulkQueue) (rd slot : Nat) (p : List Word) (idx : List Nat) (poisoned : Bool) : Out :=
  match writeObjRange s q.ctx none q.obj slot (leBytes 4 0) with
  | (s', some x) => engineWaits s' q.engine q.ctx x
  | (s', none) =>
    match writeObjRange s' q.ctx none q.obj (q.off + 8) (leBytes 8 ((rd + 1) % 2 ^ 64)) with
    | (s'', some x) => engineWaits s'' q.engine q.ctx x
    | (s', none) =>
      let r := bRequest s' queue rd q p idx (bBad q.windows p)
      .next (sendReq s' q.engine (if poisoned then { r with fail := noteFail r.fail 0 codePoison } else r))

/-- BULK_PACKET_FETCH (R397 to R399): slot RD of a registered queue, when its packet is published. -/
def execBulkPacketFetch (queue : Nat) (s : State) : Out :=
  match Assoc.get s.bulkQs queue with
  | none => .next s
  | some q =>
    if (ctxOf s q.ctx).all Context.killed then .next s
    else
    match readWaiting s q.ctx none .read q.obj (q.off + 8) 8 with
    | (s', .error x) => engineWaits s' q.engine q.ctx x
    | (_, .ok (rdb, _)) =>
      let rd := leNat rdb
      let slot := q.off + 64 + 64 * (rd % 2 ^ q.logn)
      match readWaiting s q.ctx none .read q.obj slot 64 with
      | (s', .error x) => engineWaits s' q.engine q.ctx x
      | (_, .ok (bs, _)) =>
        let p := bytesWords bs
        if !published p rd then .next s
        else
          match readIndex s q p with
          | (s', .error x) => engineWaits s' q.engine q.ctx x
          | (_, .ok (idx, poisoned)) => takeBulk s queue q rd slot p idx poisoned

/-! ### Completion (R399) -/

/-- BULK_PACKET_COMPLETE (R399): the status word, then the signal. -/
def execBulkPacketComplete (engine req : Nat) (s : State) : Out :=
  match (engineOf s engine).reqs[req]? with
  | none => .next s
  | some q =>
    match q.packet with
    | none => .next s
    | some p =>
      if !q.allServed || !inOrder s engine q then .next s
      else
        let ends (s : State) : State :=
          let s := match p.signal with
            | some (i, x) => signalCounter s q.ctx i x.toNat
            | none => s
          setEngine s engine { engineOf s engine with reqs := (engineOf s engine).reqs.eraseIdx req }
        match p.status with
        | none => .next (ends s)
        | some (o, off) =>
          match writeObjRange s q.ctx none o off (leBytes 4 (q.endStatus s).toNat) with
          | (s', some x) => engineWaits s' engine q.ctx x
          | (s', none) => .next (ends s')

/-! ### The aperture (R403) -/

def hostReply (s : State) (r : HostReply) : State := { s with service := { s.service with hostReplies := s.service.hostReplies ++ [r] } }

/-- BAR2 offset of a byte of a window. -/
def apertureOff (win off : Nat) : Nat := 2 ^ 30 * win + off

/-- The capability of a window and the object offset of n bytes, when its rights and window allow the access. -/
def apertureAt (s : State) (fn win off n right : Nat) : Option (Nat × Nat × Nat) :=
  match Assoc.get s.service.aperture (fn * 64 + win) with
  | none => none
  | some a =>
    let o := a.cap.cursor + off
    if (checkTag a.cap 0 [right]).isNone ∧ (checkBound a.cap o n).isNone ∧ off + n ≤ 2 ^ 30 then some (a.ctx, a.cap.obj, o) else none

/-- The host access faults like a part of the die that holds the aperture logic: engine 0 (log 48). -/
def apertureEngine : Nat := 0

/-- The pending read with these arguments. -/
def HostRead.same (h : HostRead) (fn win off n : Nat) : Bool := h.fn == fn && h.win == win && h.off == off && h.n == n

def dropPending (s : State) (fn win off n : Nat) : State :=
  { s with service := { s.service with hostReads := s.service.hostReads.filter (fun h => !h.same fn win off n) } }

/-- The first fault of a read is noted with its time. -/
def pend (s : State) (ctx fn win off n : Nat) (f : PageFault) : State :=
  let s := noteOnce s apertureEngine ctx f
  if s.service.hostReads.any (fun h => h.same fn win off n) then s
  else { s with service := { s.service with hostReads := s.service.hostReads ++ [⟨fn, win, off, n, gtsOf s, f⟩] } }

/-- HOST_APERTURE_READ (R403, R421). -/
def execHostApertureRead (fn win off n : Nat) (s : State) : Out :=
  match apertureAt s fn win off n 0 with
  | none => .next (hostReply (dropEvent s none (apertureOff win off)) .unsupported)
  | some (ctx, obj, o) =>
    match readWaiting s ctx none .read obj o n with
    | (s', .ok (bs, bad)) => .next (hostReply (dropPending s' fn win off n) (.data bs bad))
    | (s', .error (.fault f)) => .next (pend s' ctx fn win off n f)
    | (_, .error (.noAddr a)) => .fault (.noSuchAddress a)
    | (_, .error _) => .next s

/-- HOST_APERTURE_WRITE (R403, R356): it clears tags, and waits on a fault like a part of a copy. -/
def execHostApertureWrite (fn win off : Nat) (bytes : List (BitVec 8)) (s : State) : Out :=
  match apertureAt s fn win off bytes.length 1 with
  | none => .next (hostReply (dropEvent s none (apertureOff win off)) .dropped)
  | some (ctx, obj, o) =>
    match writeObjRange s ctx none obj o bytes with
    | (s', none) => .next s'
    | (s', some x) => engineWaits s' apertureEngine ctx x

/-- HOST_READ_TIMEOUT (R403): 10 ms after a read began to wait. -/
def execHostReadTimeout (k : Nat) (s : State) : Out :=
  match s.service.hostReads[k]? with
  | none => .next s
  | some h =>
    if (gtsOf s - h.since).toNat < 10000000 then .next s
    else .next (hostReply (dropPending s h.fn h.win h.off h.n) .aborted)

/-! ### The storage window (R400) -/

/-- The storage window entry behind a GiB of a function's BAR4: of the first context of the function that has it. -/
def storageAt (s : State) (fn k : Nat) : Option (Nat × StorageEntry) :=
  s.contexts.findSome? (fun c => if c.2.fns.contains fn then (Assoc.get c.2.storage k).map (fun e => (c.1, e)) else none)

/-- STORAGE_WINDOW_WRITE (R400): a write outside the object, or on an invalid entry, is dropped with an event. -/
def execStorageWindowWrite (fn off : Nat) (bytes : List (BitVec 8)) (s : State) : Out :=
  let o := off % 2 ^ 30
  match storageAt s fn (off / 2 ^ 30) with
  | none => .next (hostReply (dropEvent s none off) .dropped)
  | some (ctx, e) =>
    if !inObject s ctx e.obj o bytes.length 1 ∨ 2 ^ 30 < o + bytes.length then .next (hostReply (dropEvent s (some ctx) off) .dropped)
    else
      match writeObjRange s ctx none e.obj o bytes with
      | (s', none) => .next s'
      | (s', some x) => engineWaits s' apertureEngine ctx x

/-- STORAGE_WINDOW_READ (R400). -/
def execStorageWindowRead (_fn _off _n : Nat) (s : State) : Out := .next (hostReply s .unsupported)

end Sys2Proof.Machine
end

