-- ==== Sys2Proof/Machine/Cap.lean ====
section
/-! DEFINITION. The CAP class (R164 to R170). -/

namespace Sys2Proof.Machine

open Sys2Proof

/-- A capability with another cursor: outside [0, 2^40) it is taken modulo 2^40 and the tag clears (R166). -/
def Cap.withCursor (c : Cap) (x : Int) : Cap :=
  ⟨c.bits.extractLsb' 96 32 ++ BitVec.ofInt 40 x ++ c.bits.extractLsb' 0 56, c.tag && decide (0 ≤ x ∧ x < 2 ^ 40)⟩

/-- A capability with another window. -/
def Cap.withWindow (c : Cap) (e lo len : Nat) : Cap :=
  ⟨c.bits.extractLsb' 56 72 ++ BitVec.ofNat 5 e ++ BitVec.ofNat 25 lo ++ BitVec.ofNat 26 len, c.tag⟩

/-- An exact fit of [x, y) at exponent e (R167). -/
def exactFit (x y e : Nat) : Bool :=
  decide (x % 2 ^ e = 0 ∧ y % 2 ^ e = 0 ∧ x / 2 ^ e < 2 ^ 25 ∧ (y - x) / 2 ^ e < 2 ^ 26)

/-- The inward lo and hi of [x, y) at exponent e (R167). -/
def inwardLo (x e : Nat) : Nat := ceilDiv x (2 ^ e)
def inwardHi (x y e : Nat) : Nat := max (y / 2 ^ e) (inwardLo x e)

def inwardFit (x y e : Nat) : Bool := decide (inwardLo x e < 2 ^ 25 ∧ inwardHi x y e - inwardLo x e < 2 ^ 26)

/-- NarrowFit (R167): exponent, lo and length. -/
def narrowFit (wlo whi b l : Nat) : Nat × Nat × Nat :=
  let x := max b wlo
  let y := max x (min (b + l) whi)
  match (rangeFrom 0 32).find? (exactFit x y) with
  | some e => (e, x / 2 ^ e, (y - x) / 2 ^ e)
  | none =>
    match (rangeFrom 0 32).find? (inwardFit x y) with
    | some e => (e, inwardLo x e, inwardHi x y e - inwardLo x e)
    | none => (31, 0, 0)

/-- CAPNAR's result. -/
def Cap.narrow (c : Cap) (l : Nat) : Cap :=
  let f := narrowFit c.base c.top c.cursor l
  c.withWindow f.1 f.2.1 f.2.2

/-- CAPRGT's result (R168). -/
def Cap.restrict (c : Cap) (mask : BitVec 8) : Cap :=
  ⟨c.bits.extractLsb' 104 24 ++ (c.rights &&& mask) ++ c.bits.extractLsb' 0 96, c.tag⟩

/-- A field of a capability (Table 6.4). -/
def Cap.field (c : Cap) (fld : BitVec 3) : Word :=
  match fld.toNat with
  | 0 => (c.bits.extractLsb' 104 24).setWidth 32
  | 1 => c.rights.setWidth 32
  | 2 => c.bits.extractLsb' 56 32
  | 3 => (c.bits.extractLsb' 88 8).setWidth 32
  | 4 => (c.bits.extractLsb' 26 25).setWidth 32
  | 5 => (c.bits.extractLsb' 0 26).setWidth 32
  | 6 => (c.bits.extractLsb' 51 5).setWidth 32
  | _ => (BitVec.ofBool c.tag).setWidth 32

/-- The condition of CAPCHK (R170). -/
def Cap.exactly (c : Cap) (l : Nat) : Bool := c.tag && decide (c.base = c.cursor ∧ c.top = c.cursor + l)

/-- A derivation ends: latency 4 (Table 3.12). -/
def capEnd (h : Hdr) (s : State) (x : Cx) (d : AReg) (c : Cap) : Out := goOn h s x (wrA s.cycle x.thr d c 4)

def execCapoff (h : Hdr) (d a : AReg) (b : Src) (s : State) : Out :=
  guarded h s fun x => capEnd h s x d ((rdA s x.thr a).withCursor (src64 s x.thr b).toNat)

def execCapadd (h : Hdr) (d a : AReg) (b : Src) (s : State) : Out :=
  guarded h s fun x =>
    let c := rdA s x.thr a
    capEnd h s x d (c.withCursor (c.cursor + (src32 s x.thr b).toInt))

def execCapnar (h : Hdr) (d a : AReg) (b : Src) (s : State) : Out :=
  guarded h s fun x => capEnd h s x d ((rdA s x.thr a).narrow (src64 s x.thr b).toNat)

def execCaprgt (h : Hdr) (d a : AReg) (b : Src) (s : State) : Out :=
  guarded h s fun x => capEnd h s x d ((rdA s x.thr a).restrict ((src32 s x.thr b).extractLsb' 0 8))

def execCapget (h : Hdr) (fld : BitVec 3) (d : VReg) (a : AReg) (s : State) : Out :=
  guarded h s fun x => goOn h s x (wrV s.cycle x.thr d ((rdA s x.thr a).field fld) 4)

def execCapchk (h : Hdr) (d : PReg) (a : AReg) (b : Src) (s : State) : Out :=
  guarded h s fun x => goOn h s x (wrP s.cycle x.thr d ((rdA s x.thr a).exactly (src64 s x.thr b).toNat) 4)

def execCapmov (h : Hdr) (d a : AReg) (s : State) : Out :=
  guarded h s fun x => capEnd h s x d (rdA s x.thr a)

end Sys2Proof.Machine
end

