-- ==== Sys2Proof/Machine/Flt.lean ====
section
/-! DEFINITION. The FLT class (R124 to R134). -/

namespace Sys2Proof.Machine

open Sys2Proof

/-! ### Results of one element, as bits and flags -/

/-- Src of the three operands (R125). -/
def srcA (f : FF) (m : FMod) (x : Nat) : Num := prep f m.ftz m.absA m.negA x
def srcB (f : FF) (m : FMod) (x : Nat) : Num := prep f m.ftz false m.negB x
def srcC (f : FF) (m : FMod) (x : Nat) : Num := prep f m.ftz false m.negC x

/-- Finish (R127) with the IV of R125. -/
def fltEnd (f : FF) (m : FMod) (iv : Bool) (r : Num × Flags) : Nat × Flags :=
  outBits f (finish f m.sat r.1 (r.2 ||| ivIf iv))

/-- A sum, difference or product (R126). -/
def arith2 (op : ArithOp) (f : FF) (m : FMod) (a b : Nat) : Nat × Flags :=
  fltEnd f m (f.signalling a || f.signalling b) (arith op f (Rnd.ofBits m.rnd) m.ftz (srcA f m a) (srcB f m b) .nan)

/-- A fused multiply-add (R126). -/
def arith3 (f : FF) (m : FMod) (a b c : Nat) : Nat × Flags :=
  fltEnd f m (f.signalling a || f.signalling b || f.signalling c)
    (arith .fma f (Rnd.ofBits m.rnd) m.ftz (srcA f m a) (srcB f m b) (srcC f m c))

/-- Minimum or maximum (R129). -/
def minMax2 (isMin : Bool) (f : FF) (m : FMod) (a b : Nat) : Nat × Flags :=
  fltEnd f m (f.signalling a || f.signalling b) (minMax isMin (srcA f m a) (srcB f m b), 0)

/-- A correctly rounded one-operand operation (R128). -/
def long1 (op : LongOp) (f : FF) (m : FMod) (a : Nat) : Nat × Flags :=
  fltEnd f m (f.signalling a) (deliver f (Rnd.ofBits m.rnd) m.ftz (longNum op (srcA f m a)))

/-- Division (R128). -/
def div2 (f : FF) (m : FMod) (a b : Nat) : Nat × Flags :=
  fltEnd f m (f.signalling a || f.signalling b) (deliver f (Rnd.ofBits m.rnd) m.ftz (divNum (srcA f m a) (srcB f m b)))

/-- FRND (R130). -/
def round1 (m : FMod) (a : Nat) : Nat × Flags :=
  fltEnd fp32 m (fp32.signalling a) (frndNum (Rnd.ofBits m.rnd) (srcA fp32 m a), 0)

/-- The class word of FCLS (Table 5.3), from the value after negation and absolute value; the NaN bits from the value
as read. -/
def classWord (m : FMod) (a : Nat) : Word :=
  match prep fp32 false m.absA m.negA a with
  | .nan => if fp32.signalling a then 1 else 2
  | .inf n => if n then 4 else 0x200
  | .fin n k _ =>
    if k = 0 then (if n then 0x20 else 0x40)
    else if k < 2 ^ 23 then (if n then 0x10 else 0x80)
    else (if n then 8 else 0x100)

/-- Both elements of a packed operation, their flags ORed (R20, R34). -/
def packed2 (g : Nat → Nat → Nat × Flags) (a b : Word) : Nat × Flags :=
  let lo := g (a.extractLsb' 0 16).toNat (b.extractLsb' 0 16).toNat
  let hi := g (a.extractLsb' 16 16).toNat (b.extractLsb' 16 16).toNat
  (lo.1 + 2 ^ 16 * hi.1, lo.2 ||| hi.2)

def packed3 (g : Nat → Nat → Nat → Nat × Flags) (a b c : Word) : Nat × Flags :=
  let lo := g (a.extractLsb' 0 16).toNat (b.extractLsb' 0 16).toNat (c.extractLsb' 0 16).toNat
  let hi := g (a.extractLsb' 16 16).toNat (b.extractLsb' 16 16).toNat (c.extractLsb' 16 16).toNat
  (lo.1 + 2 ^ 16 * hi.1, lo.2 ||| hi.2)

/-! ### Forms -/

/-- A pipe-A operation with a 32-bit result: latency 4. -/
def fltOp (h : Hdr) (d : VReg) (s : State) (f : Thread → Nat × Flags) : Out :=
  guarded h s fun x => goOn h s x (fResult s.cycle h x.thr d (f x.thr) 4)

/-- A pipe-A operation with a 64-bit result: latency 8. -/
def dblOp (h : Hdr) (d : VReg) (s : State) (f : Thread → Nat × Flags) : Out :=
  guarded h s fun x => goOn h s x (dResult s.cycle h x.thr d (f x.thr) 8)

/-- Sends an X-pipe result, with its flags unless NF (R21, R133). -/
def xSend (h : Hdr) (s : State) (x : Cx) (vals : List (VReg × Word × Bool)) (f : Flags) : Out :=
  goOn h s x { x.thr with pend := x.thr.pend ++ [⟨true, vals, none, if h.nf then 0 else f, !h.nf⟩] }

/-- An X-pipe operation with a 32-bit result. -/
def xOp (h : Hdr) (d : VReg) (s : State) (f : Thread → Nat × Flags) : Out :=
  guarded h s fun x =>
    let r := f x.thr
    xSend h s x [(d, BitVec.ofNat 32 r.1, false)] r.2

/-- An X-pipe operation with a 64-bit result. -/
def xOp64 (h : Hdr) (d : VReg) (s : State) (f : Thread → Nat × Flags) : Out :=
  guarded h s fun x =>
    let r := f x.thr
    xSend h s x [(d, BitVec.ofNat 32 r.1, false), (d + 1, BitVec.ofNat 32 (r.1 / 2 ^ 32), false)] r.2

/-! ### Meanings -/

def execFadd (h : Hdr) (m : FMod) (d : VReg) (a b : Src) (s : State) : Out :=
  fltOp h d s fun t => arith2 .add fp32 m (src32 s t a).toNat (src32 s t b).toNat

def execFsub (h : Hdr) (m : FMod) (d : VReg) (a b : Src) (s : State) : Out :=
  fltOp h d s fun t => arith2 .sub fp32 m (src32 s t a).toNat (src32 s t b).toNat

def execFmul (h : Hdr) (m : FMod) (d : VReg) (a b : Src) (s : State) : Out :=
  fltOp h d s fun t => arith2 .mul fp32 m (src32 s t a).toNat (src32 s t b).toNat

def execFfma (h : Hdr) (m : FMod) (d : VReg) (a b c : Src) (s : State) : Out :=
  fltOp h d s fun t => arith3 fp32 m (src32 s t a).toNat (src32 s t b).toNat (src32 s t c).toNat

def execFmin (h : Hdr) (m : FMod) (d : VReg) (a b : Src) (s : State) : Out :=
  fltOp h d s fun t => minMax2 true fp32 m (src32 s t a).toNat (src32 s t b).toNat

def execFmax (h : Hdr) (m : FMod) (d : VReg) (a b : Src) (s : State) : Out :=
  fltOp h d s fun t => minMax2 false fp32 m (src32 s t a).toNat (src32 s t b).toNat

def execFrcp (h : Hdr) (m : FMod) (d : VReg) (a : Src) (s : State) : Out :=
  xOp h d s fun t => long1 .rcp fp32 m (src32 s t a).toNat

def execFrsq (h : Hdr) (m : FMod) (d : VReg) (a : Src) (s : State) : Out :=
  xOp h d s fun t => long1 .rsq fp32 m (src32 s t a).toNat

def execFsqrt (h : Hdr) (m : FMod) (d : VReg) (a : Src) (s : State) : Out :=
  xOp h d s fun t => long1 .sqrt fp32 m (src32 s t a).toNat

def execFdiv (h : Hdr) (m : FMod) (d : VReg) (a b : Src) (s : State) : Out :=
  xOp h d s fun t => div2 fp32 m (src32 s t a).toNat (src32 s t b).toNat

def execFexp2 (h : Hdr) (m : FMod) (d : VReg) (a : Src) (s : State) : Out :=
  xOp h d s fun t => long1 .exp2 fp32 m (src32 s t a).toNat

def execFlog2 (h : Hdr) (m : FMod) (d : VReg) (a : Src) (s : State) : Out :=
  xOp h d s fun t => long1 .log2 fp32 m (src32 s t a).toNat

def execFrnd (h : Hdr) (m : FMod) (d : VReg) (a : Src) (s : State) : Out :=
  fltOp h d s fun t => round1 m (src32 s t a).toNat

def execFcls (h : Hdr) (m : FMod) (d : VReg) (a : Src) (s : State) : Out :=
  guarded h s fun x => goOn h s x (wrV s.cycle x.thr d (classWord m (src32 s x.thr a).toNat) 4)

def execDadd (h : Hdr) (m : FMod) (d : VReg) (a b : Src) (s : State) : Out :=
  dblOp h d s fun t => arith2 .add fp64 m (srcF64 s t a).toNat (srcF64 s t b).toNat

def execDmul (h : Hdr) (m : FMod) (d : VReg) (a b : Src) (s : State) : Out :=
  dblOp h d s fun t => arith2 .mul fp64 m (srcF64 s t a).toNat (srcF64 s t b).toNat

def execDfma (h : Hdr) (m : FMod) (d : VReg) (a b c : Src) (s : State) : Out :=
  dblOp h d s fun t => arith3 fp64 m (srcF64 s t a).toNat (srcF64 s t b).toNat (srcF64 s t c).toNat

def execDmin (h : Hdr) (m : FMod) (d : VReg) (a b : Src) (s : State) : Out :=
  dblOp h d s fun t => minMax2 true fp64 m (srcF64 s t a).toNat (srcF64 s t b).toNat

def execDmax (h : Hdr) (m : FMod) (d : VReg) (a b : Src) (s : State) : Out :=
  dblOp h d s fun t => minMax2 false fp64 m (srcF64 s t a).toNat (srcF64 s t b).toNat

def execDdiv (h : Hdr) (m : FMod) (d : VReg) (a b : Src) (s : State) : Out :=
  xOp64 h d s fun t => div2 fp64 m (srcF64 s t a).toNat (srcF64 s t b).toNat

def execDsqrt (h : Hdr) (m : FMod) (d : VReg) (a : Src) (s : State) : Out :=
  xOp64 h d s fun t => long1 .sqrt fp64 m (srcF64 s t a).toNat

def execHadd2 (h : Hdr) (m : FMod) (d : VReg) (a b : Src) (s : State) : Out :=
  fltOp h d s fun t => packed2 (arith2 .add fp16 m) (srcH2 s t a) (srcH2 s t b)

def execHmul2 (h : Hdr) (m : FMod) (d : VReg) (a b : Src) (s : State) : Out :=
  fltOp h d s fun t => packed2 (arith2 .mul fp16 m) (srcH2 s t a) (srcH2 s t b)

def execHfma2 (h : Hdr) (m : FMod) (d : VReg) (a b c : Src) (s : State) : Out :=
  fltOp h d s fun t => packed3 (arith3 fp16 m) (srcH2 s t a) (srcH2 s t b) (srcH2 s t c)

def execHmin2 (h : Hdr) (m : FMod) (d : VReg) (a b : Src) (s : State) : Out :=
  fltOp h d s fun t => packed2 (minMax2 true fp16 m) (srcH2 s t a) (srcH2 s t b)

def execHmax2 (h : Hdr) (m : FMod) (d : VReg) (a b : Src) (s : State) : Out :=
  fltOp h d s fun t => packed2 (minMax2 false fp16 m) (srcH2 s t a) (srcH2 s t b)

def execBadd2 (h : Hdr) (m : FMod) (d : VReg) (a b : Src) (s : State) : Out :=
  fltOp h d s fun t => packed2 (arith2 .add bf16 m) (srcB2 s t a) (srcB2 s t b)

def execBmul2 (h : Hdr) (m : FMod) (d : VReg) (a b : Src) (s : State) : Out :=
  fltOp h d s fun t => packed2 (arith2 .mul bf16 m) (srcB2 s t a) (srcB2 s t b)

def execBfma2 (h : Hdr) (m : FMod) (d : VReg) (a b c : Src) (s : State) : Out :=
  fltOp h d s fun t => packed3 (arith3 bf16 m) (srcB2 s t a) (srcB2 s t b) (srcB2 s t c)

def execBmin2 (h : Hdr) (m : FMod) (d : VReg) (a b : Src) (s : State) : Out :=
  fltOp h d s fun t => packed2 (minMax2 true bf16 m) (srcB2 s t a) (srcB2 s t b)

def execBmax2 (h : Hdr) (m : FMod) (d : VReg) (a b : Src) (s : State) : Out :=
  fltOp h d s fun t => packed2 (minMax2 false bf16 m) (srcB2 s t a) (srcB2 s t b)

end Sys2Proof.Machine
end

