-- ==== Sys2Proof/Machine/Cnv.lean ====
section
/-! DEFINITION. The CNV class (R135 to R144): conversions and block quantisation. -/

namespace Sys2Proof.Machine

open Sys2Proof

/-! ### Conversions (R138, R139) -/

/-- The floating-point format a code names. -/
def fmtFF : Fmt → FF
  | .fp64 => fp64
  | .fp16 | .fp16x2 => fp16
  | .bf16 | .bf16x2 => bf16
  | .e4m3 => e4m3
  | _ => fp32

/-- Float to float, and the end of integer to float: one rounding, SAT by R45, NFR by R43. -/
def toFloat (f : FF) (mode : Rnd) (ftz sat : Bool) (x : Num) : Nat × Flags :=
  let r : Num × Flags := match x with
    | .nan => (.nan, 0)
    | .inf n => if sat then (.fin n f.maxM f.maxE, 0) else roundTo f mode ftz (.inf n)
    | .fin n m e =>
      let y := roundTo f mode ftz (.fin n m e)
      if sat && y.2 &&& flagOF != 0 then (.fin n f.maxM f.maxE, y.2) else y
  outBits f (r.1, r.2 ||| nfrIf r.1)

/-- Bits of an integer format. -/
def fmtBits : Fmt → Nat
  | .int8 => 8 | .int16 => 16 | .int64 => 64 | _ => 32

/-- Range of an integer destination (Table 5.7). -/
def intLo (f : Fmt) (uns : Bool) : Int := if uns then 0 else -(2 ^ (fmtBits f - 1))
def intHi (f : Fmt) (uns : Bool) : Int := if uns then 2 ^ fmtBits f - 1 else 2 ^ (fmtBits f - 1) - 1

/-- Integer to integer (R138): SAT clamps, else the value is reduced modulo 2^w in the destination's signedness. -/
def intToInt (f : Fmt) (uns sat : Bool) (v : Int) : Int :=
  let lo := intLo f uns
  let hi := intHi f uns
  if lo ≤ v ∧ v ≤ hi then v
  else if sat then (if v < lo then lo else hi)
  else
    let r := v % 2 ^ fmtBits f
    if uns || decide (r ≤ hi) then r else r - 2 ^ fmtBits f

/-- The bits of a CVT source (R138, R31). -/
def cvtSrc (s : State) (t : Thread) (f : Fmt) (a : Src) : Nat :=
  match f with
  | .int8 | .e4m3 => ((src32 s t a).extractLsb' 0 8).toNat
  | .int16 | .fp16 => (src16 s t a).toNat
  | .bf16 => (srcBf s t a).toNat
  | .int64 => (src64 s t a).toNat
  | .fp64 => (srcF64 s t a).toNat
  | _ => (src32 s t a).toNat

/-- An integer source (R138). -/
def cvtInt (f : Fmt) (uns : Bool) (x : Nat) : Int := if uns then (x : Int) else (BitVec.ofNat (fmtBits f) x).toInt

/-- CVT: the result as a 64-bit number, and its flags. -/
def cvtVal (m : FMod) (df sf : Fmt) (su du : Bool) (x : Nat) : Nat × Flags :=
  let mode := Rnd.ofBits m.rnd
  if sf.isInt then
    let v := cvtInt sf su x
    if df.isInt then ((w64 (intToInt df du m.sat v)).toNat, 0)
    else toFloat (fmtFF df) mode false m.sat (ofScaled v 0 false)
  else
    let f := fmtFF sf
    let y := srcA f m x
    let iv := ivIf (f.signalling x)
    if df.isInt then
      let r := floatToInt y (intLo df du) (intHi df du) mode m.sat
      ((w64 r.1).toNat, r.2 ||| iv)
    else
      let r := toFloat (fmtFF df) mode m.ftz m.sat y
      (r.1, r.2 ||| iv)

/-- Writes a conversion's result and flags: latency 8 with an FP64 operand, else 4 (Table 3.12). -/
def cnvEnd (h : Hdr) (s : State) (x : Cx) (d : VReg) (wide : Bool) (lat : Nat) (r : Nat × Flags) : Out :=
  goOn h s x (if wide then dResult s.cycle h x.thr d r lat else fResult s.cycle h x.thr d r lat)

/-- CVT (R138). -/
def execCvt (h : Hdr) (m : FMod) (dfmt sfmt : Fmt) (su du : Bool) (d : VReg) (a : Src) (s : State) : Out :=
  guarded h s fun x =>
    let lat := if dfmt = .fp64 ∨ sfmt = .fp64 then 8 else 4
    cnvEnd h s x d dfmt.is64 lat (cvtVal m dfmt sfmt su du (cvtSrc s x.thr sfmt a))

/-- One element of CVT2, by the float-to-float rule of R138. -/
def cvtElem (m : FMod) (df sf : FF) (abs neg : Bool) (x : Nat) : Nat × Flags :=
  let r := toFloat df (Rnd.ofBits m.rnd) m.ftz m.sat (prep sf m.ftz abs neg x)
  (r.1, r.2 ||| ivIf (sf.signalling x))

/-- The packed source of CVT2 (R31). -/
def packedSrc (s : State) (t : Thread) (f : Fmt) (a : Src) : Word := if f = .bf16x2 then srcB2 s t a else srcH2 s t a

/-- CVT2 (R140). -/
def execCvt2 (h : Hdr) (m : FMod) (dfmt sfmt : Fmt) (d : VReg) (a b : Src) (s : State) : Out :=
  guarded h s fun x =>
    let df := fmtFF dfmt
    let sf := fmtFF sfmt
    if sfmt = .fp32 then
      let lo := cvtElem m df sf m.absA m.negA (src32 s x.thr a).toNat
      let hi := cvtElem m df sf false m.negB (src32 s x.thr b).toNat
      cnvEnd h s x d false 4 (lo.1 + 2 ^ 16 * hi.1, lo.2 ||| hi.2)
    else
      let w := packedSrc s x.thr sfmt a
      let lo := cvtElem m df sf m.absA m.negA (w.extractLsb' 0 16).toNat
      let hi := cvtElem m df sf m.absA m.negA (w.extractLsb' 16 16).toNat
      if dfmt = .fp32 then cnvEnd h s x d true 4 (lo.1 + 2 ^ 32 * hi.1, lo.2 ||| hi.2)
      else cnvEnd h s x d false 4 (lo.1 + 2 ^ 16 * hi.1, lo.2 ||| hi.2)

/-! ### Block quantisation (R141 to R144) -/

/-- Codes of the four elements, and their flags (R142). -/
def quadCodes (e2 : Bool) (m : FMod) (w : BitVec 16) (xs : List Word) : List Nat × Flags :=
  let rs := xs.map (fun x =>
    let r := qElem e2 (prep fp32 false m.absA m.negA x.toNat) w
    (r.1, r.2 ||| ivIf (fp32.signalling x.toNat)))
  (rs.map (·.1), rs.foldl (fun f r => f ||| r.2) 0)

/-- Fields of k bits, lowest first, as a number. -/
def fieldsNat (k : Nat) : List Nat → Nat
  | [] => 0
  | x :: xs => x % 2 ^ k + 2 ^ k * fieldsNat k xs

/-- A scale word operand: bits [15:0]. Of a float constant these are the low bits of its FP32 encoding: R31 and R142 do not
say which of its encodings a scale word takes (log 113). -/
def cnvScale (s : State) (t : Thread) (b : Src) : BitVec 16 := (src32 s t b).extractLsb' 0 16

/-- QE4 (R142, R143). -/
def execQe4 (h : Hdr) (m : FMod) (d : VReg) (a : VReg) (b : Src) (s : State) : Out :=
  guarded h s fun x =>
    let r := quadCodes false m (cnvScale s x.thr b) (rdVs s x.thr a 4)
    cnvEnd h s x d false 4 (fieldsNat 8 r.1, r.2)

/-- QE2 (R142, R143). -/
def execQe2 (h : Hdr) (m : FMod) (hi : Bool) (d : VReg) (a : VReg) (b c : Src) (s : State) : Out :=
  guarded h s fun x =>
    let r := quadCodes true m (cnvScale s x.thr b) (rdVs s x.thr a 4)
    let codes : BitVec 16 := BitVec.ofNat 16 (fieldsNat 4 r.1)
    let old := src32 s x.thr c
    let w : Word := if hi then codes ++ old.extractLsb' 0 16 else old.extractLsb' 16 16 ++ codes
    cnvEnd h s x d false 4 (w.toNat, r.2)

/-- DQ (R144). -/
def execDq (h : Hdr) (m : FMod) (dfmt sfmt : Fmt) (el : BitVec 3) (d : VReg) (a b : Src) (s : State) : Out :=
  guarded h s fun x =>
    let w := src32 s x.thr a
    let e2 := sfmt == .e2m1x
    let c := if e2 then (w.extractLsb' (4 * el.toNat) 4).toNat else (w.extractLsb' (8 * el.toNat) 8).toNat
    cnvEnd h s x d false 4 (toFloat (fmtFF dfmt) (Rnd.ofBits m.rnd) m.ftz m.sat (dqNum e2 c (cnvScale s x.thr b)))

/-- The word of BScale (R141) and its flags. -/
def bscaleVal (e2 : Bool) (spec : BitVec 5) (a : Word) : Word × Flags :=
  let mx := (f32 a).abs
  let r : Nat × Flags := if mx.isNaN || mx.isInf then (0xFF, flagIV) else (blockScaleE e2 mx, 0)
  (0#19 ++ (if e2 then spec else 0) ++ BitVec.ofNat 8 r.1, r.2)

/-- BSCALE (R141). -/
def execBscale (h : Hdr) (fmt : Fmt) (spec : BitVec 5) (d : VReg) (a : Src) (s : State) : Out :=
  guarded h s fun x =>
    let r := bscaleVal (fmt == .e2m1x) spec (src32 s x.thr a)
    goOn h s x (addFlags s.cycle h (wrV s.cycle x.thr d r.1 4) r.2 4)

end Sys2Proof.Machine
end

