-- ==== Sys2Proof/Machine/Ctx.lean ====
section
/-! DEFINITION. Contexts as firmware makes, changes and destroys them (R379, R380, R269, R299, R430), queues removed (R342,
R405), and overlays registered (R243, R264, R276). -/

namespace Sys2Proof.Machine

open Sys2Proof

/-! ### Parameters (Table 18.1) -/

/-- A parameter within its range changes; DRAINLIM below its floor is raised to it (R380). -/
def Params.put (x : Params) (p : CtxParam) : Params :=
  match p with
  | .clusters m => if m.all (fun k => decide (k < Config.numClusters)) then { x with clusters := m.dedup } else x
  | .handler h => { x with handler := h }
  | .drainLim n => if n < 2 ^ 32 then { x with drainLim := max n Config.drainFloor } else x
  | .runOn n => if 1024 ≤ n ∧ n ≤ x.drainLim / 2 then { x with runOn := n } else x
  | .swapLim n => if n = 0 ∨ (2 ^ 12 ≤ n ∧ n ≤ 2 ^ 36) then { x with swapLim := n } else x
  | .hangLim n => if 2 ^ 16 ≤ n ∧ n ≤ 2 ^ 40 then { x with hangLim := n } else x
  | .saveArea a n => if 2 ^ 20 ≤ n ∧ a + n ≤ Config.dramBytes then { x with saveArea := some (a, n) } else x
  | .dumpArea none => { x with dumpArea := none }
  | .dumpArea (some (o, off, n)) =>
    if off % 64 = 0 ∧ 4096 ≤ n ∧ n ≤ 2 ^ 24 then { x with dumpArea := some (o, off, n) } else x
  | .quota n => if 1 ≤ n ∧ n ≤ 2 ^ 20 then { x with quota := n } else x
  | .stgLim n => if 4096 ≤ n ∧ n ≤ 2 ^ 30 then { x with stgLim := n } else x
  | .istoreQuota core n =>
    if core < 4 * Config.numClusters ∧ 1 ≤ n ∧ n ≤ 64 then { x with istore := Assoc.set x.istore core n } else x
  | .step _ => x

/-- A parameter of a context changes; STEP is its step register (Table 1.5). -/
def Context.put (c : Context) (p : CtxParam) : Context :=
  match p with
  | .step w => { c with stepReg := w }
  | p => { c with params := c.params.put p }

/-- An instruction-store quota of a running context leaves the public region its units (R269). -/
def quotaKept (s : State) (ctx : Nat) (p : CtxParam) : Bool :=
  match p with
  | .istoreQuota core n => (clusterOf s (core / 4)).ctx != some ctx || decide (n + s.service.settings.publicRegion ≤ 64)
  | _ => true

/-- CONTEXT_RECORD_UPDATE (R380): a value outside its range is refused, and the previous one stays. -/
def execContextRecordUpdate (ctx : Nat) (p : CtxParam) (s : State) : Out :=
  if quotaKept s ctx p then .next (modCtx s ctx (fun c => c.put p)) else .next s

/-- CONTEXT_CREATE (R379): a context number that is free, its tables in device memory. -/
def execContextCreate (ctx : Nat) (x : CtxNew) (s : State) : Out :=
  if 64 ≤ ctx ∨ x.fns.any (fun f => decide (16 < f)) ∨ (ctxOf s ctx).isSome ∨ !regionOk x.otBase (64 * x.otLen) ∨ x.otLen = 0 ∨ 2 ^ 24 < x.otLen ∨ !regionOk x.evBase (8 * 4096) then .next s
  else
    let c := { Context.fresh s.service.settings.defaults with
      otBase := x.otBase
      otLen := x.otLen
      evBase := x.evBase
      fns := x.fns }
    .next (setCtx s ctx (x.params.foldl Context.put c))

/-! ### Cancelled launches (Table 16.3) -/

/-- A thread waits on a load of an overlay. -/
def Thread.awaits (t : Thread) (c : Core) (ctx : Nat) (key : RKey) : Bool :=
  t.tokens.any (fun k => k.of == .load key)
    || (match t.status with
      | .parkedLoad ids _ => ids.any (fun i => c.key ctx i == key)
      | _ => false)

/-- A thread of another launch, on a core, waits on a load (R266). -/
def awaited (s : State) (core id : Nat) (key : RKey) : Bool :=
  s.blocks.any (fun b => b.2.launch != id && (rangeFrom 0 b.2.threads.length).any (fun i =>
    coreIdOf b.2 ⟨b.1, i⟩ == core && (match b.2.threads[i]? with
      | some t => t.awaits (coreOf s core) b.2.ctx key
      | none => false)))

/-- A core gives up a load: no entry and no binding of it is left. -/
def Core.giveUp (c : Core) (l : OvLoad) : Core :=
  let c := if l.placed then c.evict l.key else c
  { c with loads := c.loads.erase l, binds := c.binds.filter (fun p => p.2 != l.key) }

/-- A cancelled launch's copies are given up, and of its overlay loads those that wait on a fault and that no other launch waits
on. The others go on (log 104). -/
def dropWork (s : State) (id : Nat) : State :=
  let stuck (core : Nat) (l : OvLoad) : Bool := l.launch == id && l.fault.isSome && !awaited s core id l.key
  { s with
    engines := Assoc.mapVals s.engines (fun _ e => { e with reqs := e.reqs.filter (fun q => q.launch != some id) })
    cores := Assoc.mapVals s.cores (fun k c => (c.loads.filter (stuck k)).foldl Core.giveUp c) }

/-- The launch without a completion record. -/
def Launch.unrecorded (l : Launch) : Launch := { l with packet := l.packet.set 12 0 }

/-- The end of a cancelled launch, with STATUS 0x80. -/
def cancelEnd (s : State) (id : Nat) (l : Launch) : State × Option Xl :=
  if l.phase = .fetched then endPacket s id l stCancel 0 []
  else complete (endGrid s id) id { l with fatal := some ⟨stCancel, 0, [], gtsOf s, 0⟩ }

/-- A launch ends with STATUS CANCEL; a completion record whose page is not there is not written. -/
def cancelLaunch (s : State) (id : Nat) : State :=
  match launchOf s id with
  | none => s
  | some l =>
    let s := dropWork s id
    match cancelEnd s id l with
    | (s, none) => s
    | (_, some _) => (cancelEnd s id l.unrecorded).1

/-- The launches of a context, or of a queue of it. -/
def launchesOf (s : State) (f : Launch → Bool) : List Nat := (s.launches.filter (fun l => f l.2)).map (·.1)

/-! ### Queues removed (R371, R405) -/

def removeLaunchQueue (s : State) (id : Nat) : State :=
  match Assoc.get s.launchQs id with
  | none => s
  | some q =>
    let s := (launchesOf s (fun l => l.queue == id)).foldl cancelLaunch s
    freeDoorbell { s with launchQs := Assoc.erase s.launchQs id } q.fn q.doorbell

def removeBulkQueue (s : State) (id : Nat) : State :=
  match Assoc.get s.bulkQs id with
  | none => s
  | some q =>
    freeDoorbell { s with
      bulkQs := Assoc.erase s.bulkQs id
      engines := Assoc.mapVals s.engines (fun _ e => { e with reqs := e.reqs.filter (fun r => !(r.packet.any (fun p => p.queue == id))) }) }
      q.fn q.doorbell

def removeFaultQueue (s : State) (ctx : Nat) : State :=
  match (ctxOf s ctx).bind Context.faultQ with
  | none => s
  | some q => freeDoorbell (modCtx s ctx (fun c => { c with faultQ := none })) q.fn q.doorbell

/-- QUEUE_REMOVE: the launches fetched from a launch queue end with STATUS CANCEL, and the doorbell is unbound (Table 16.3,
R371, R405). -/
def execQueueRemove (kind : QueueKind) (queue : Nat) (s : State) : Out :=
  match kind with
  | .launch => .next (removeLaunchQueue s queue)
  | .bulk => .next (removeBulkQueue s queue)
  | .fault => .next (removeFaultQueue s queue)

/-! ### Contexts destroyed -/

/-- A core loses what is a context's. -/
def Core.without (c : Core) (ctx : Nat) : Core :=
  let c := (c.resid.filter (fun r => match r.key with | .priv x _ => x == ctx | .pub _ => false)).foldl (fun c r => c.evict r.key) c
  { c with
    binds := c.binds.filter (fun p => p.1 / 256 != ctx)
    l1 := c.l1.filter (fun l => l.id.ctx != ctx) }

/-- The loads of a context on a core end with TBOUND: its objects are gone. -/
def endLoadsOf (ctx core : Nat) : Nat → State → State
  | 0, s => s
  | n + 1, s =>
    match (coreOf s core).loads.findIdx? (fun l => l.ctx == ctx) with
    | none => s
    | some k =>
      (match (coreOf s core).loads[k]? with
      | none => s
      | some l => endLoadsOf ctx core n (endLoad s core k l.key codeBound))

/-- The same on every core. -/
def endAllLoadsOf (s : State) (ctx : Nat) : State :=
  s.cores.foldl (fun s c => endLoadsOf ctx c.1 c.2.loads.length s) s

/-- Everything that hangs on a context goes with it; its key slots are zeroed (R430). -/
def removeContext (s : State) (ctx : Nat) : State :=
  { s with
    contexts := Assoc.erase s.contexts ctx
    blocks := s.blocks.filter (fun b => b.2.ctx != ctx)
    cores := Assoc.mapVals s.cores (fun _ c => c.without ctx)
    clusters := Assoc.mapVals s.clusters (fun _ c => { c with
      ctx := if c.ctx = some ctx then none else c.ctx
      faults := c.faults.filter (fun f => f.ctx != ctx) })
    engines := Assoc.mapVals s.engines (fun _ e =>
      ⟨e.reqs.filter (fun q => q.ctx != ctx), e.faults.filter (fun f => f.ctx != ctx)⟩)
    migrations := s.migrations.filter (fun g => g.ctx != ctx)
    service := { s.service with
      aperture := s.service.aperture.filter (fun a => a.2.ctx != ctx)
      keys := s.service.keys.filter (fun k => k.2.owner != ctx) }
    fabric := { s.fabric with
      groups := s.fabric.groups.filter (fun g => g.2.ctx != ctx)
      buckets := s.fabric.buckets.filter (fun b => b.2.ctx != ctx) } }

/-- The saved blocks of a context owe their unbind notices. -/
def savedUnbind (s : State) (ctx : Nat) : Assoc Unbinding :=
  match ctxOf s ctx with
  | none => s.unbinding
  | some c => c.saved.foldl (fun u b => oweUnbind s u b.slot b.launch b.bound) s.unbinding

/-- The context ends: its launches with STATUS CANCEL, its queues, and all else of it. -/
def destroyContext (s : State) (ctx : Nat) : State :=
  let s := { s with unbinding := savedUnbind s ctx }
  let s := (launchesOf s (fun l => l.ctx == ctx)).foldl cancelLaunch s
  let s := ((s.launchQs.filter (fun q => q.2.ctx == ctx)).map (·.1)).foldl removeLaunchQueue s
  let s := ((s.bulkQs.filter (fun q => q.2.ctx == ctx)).map (·.1)).foldl removeBulkQueue s
  let s := removeFaultQueue s ctx
  removeContext (endAllLoadsOf { s with blocks := s.blocks.filter (fun b => b.2.ctx != ctx) } ctx) ctx

/-- CONTEXT_DESTROY (R379, R430, Table 16.3). -/
def execContextDestroy (ctx : Nat) (s : State) : Out :=
  match ctxOf s ctx with
  | none => .next s
  | some _ => .next (destroyContext s ctx)

/-! ### Overlays registered (R243, R264, R276) -/

/-- A range of bytes of an object within a window. -/
def capHolds (c : Cap) (off n : Nat) : Bool := decide (c.base ≤ off ∧ off + n ≤ c.top)

/-- The reserved bits of a restart entry's words are 0 (Table 8.3). -/
def entryReserved (ws : List Word) : Bool :=
  let w (i : Nat) : Word := ws.getD i 0
  let ns := ((w 0).extractLsb' 16 4).toNat
  let nt := ((w 0).extractLsb' 20 4).toNat
  (w 0).extractLsb' 24 8 == 0 && !(w 0).getLsbD 15 && !(w 3).getLsbD 15
    && (rangeFrom 4 (2 * ns)).all (fun i => (w i).extractLsb' 24 8 == 0)
    && (rangeFrom (4 + 2 * ns) nt).all (fun i => (w i).extractLsb' 16 16 == 0 && !(w i).getLsbD 7)

/-- Index words strictly ascending by slot, each with a slot of 0 to 4 and reserved bit 0 (R243). -/
def indexOk : List Word → Bool
  | [] => true
  | w :: ws => decide ((w.extractLsb' 0 3).toNat ≤ 4) && !w.getLsbD 15
      && (match ws.head? with | some x => decide (w.extractLsb' 0 15 < x.extractLsb' 0 15) | none => true) && indexOk ws

/-- The entry that an index word names: within the table and the window, reserved bits 0, its SLOT the index word's. -/
def entryValid (s : State) (ctx : Nat) (src : Cap) (rt0 least : Nat) (ix : Word) : Bool :=
  let off := 8 * (ix.extractLsb' 16 16).toNat
  decide (least ≤ off) && capHolds src (rt0 + off) 4
    && (match fwRead s ctx src.obj (rt0 + off) 4 with
      | none => false
      | some w0 =>
        let n := entryBytes (BitVec.ofNat 32 (leNat w0))
        capHolds src (rt0 + off) n && (match fwRead s ctx src.obj (rt0 + off) n with
          | none => false
          | some bs =>
            let ws := bytesWords bs
            (ws.getD 0 0).extractLsb' 0 15 == ix.extractLsb' 0 15 && entryReserved ws))

/-- The restart table of an overlay is accepted (R243). -/
def tableOk (s : State) (ctx : Nat) (src : Cap) (rt0 : Nat) : Bool :=
  capHolds src rt0 8 && (match fwRead s ctx src.obj rt0 8 with
    | none => false
    | some hd =>
      let n := restartBytes (fieldAt hd 0 2)
      fieldAt hd 4 4 == 0 && capHolds src rt0 n && (match fwRead s ctx src.obj rt0 n with
        | none => false
        | some bs =>
          let ix := (bytesWords bs).drop 2
          indexOk ix && ix.all (entryValid s ctx src rt0 (8 * ceilDiv n 8))))

/-- Reserved fields of an overlay table entry are 0 (Table 9.4). -/
def OvEntry.reserved (e : OvEntry) : Bool :=
  (e.word 4).extractLsb' 18 14 == 0 && (e.word 4).extractLsb' 13 3 == 0 && e.word 14 == 0 && e.word 15 == 0

/-- An overlay table entry that registration accepts (R243, R264). -/
def overlayOk (s : State) (ctx : Nat) (e : OvEntry) (sig : List Byte) : Bool :=
  let at0 := e.src.cursor
  e.src.tag && e.src.rights.getLsbD 2 && decide (1 ≤ e.len ∧ e.len ≤ 4096) && e.reserved && decide (at0 % 64 = 0 ∧ e.rtoff % 8 = 0)
    && capHolds e.src at0 (64 * e.len) && tableOk s ctx e.src (at0 + e.rtoff)
    && (!e.pub || (match fwRead s ctx e.src.obj at0 (64 * e.len) with
      | none => false
      | some bs => Config.slhVerify Config.vendorKey bs sig))

/-- Extends a measurement register with an item (R428). -/
def extendMr (s : State) (i : Fin 8) (item : List Byte) : State :=
  let old := leBytes 32 (s.service.mrs[i]).toNat
  { s with service := { s.service with
      mrs := s.service.mrs.set i (Config.sha256 (old ++ leBytes 32 (Config.sha256 item).toNat)) } }

/-- A public overlay hash is admitted: it is measured into MR3 once (Table 21.5). -/
def noteHash (s : State) (h : BitVec 256) : State :=
  if s.service.settings.publicHashes.contains h then s
  else
    let s := extendMr s 3 (leBytes 32 h.toNat)
    { s with service := { s.service with settings := { s.service.settings with publicHashes := s.service.settings.publicHashes ++ [h] } } }

/-- OVERLAY_REGISTER (R264, R276): an entry that is refused leaves the previous one in force; an entry with VALID 0 is
emptied. -/
def execOverlayRegister (ctx : Nat) (x : OverlayReg) (s : State) : Out :=
  let e : OvEntry := ⟨x.entry, x.srcTag⟩
  match ctxOf s ctx with
  | none => .next s
  | some c =>
    if !e.valid then .next (setCtx s ctx { c with overlays := Assoc.erase c.overlays x.ovid.toNat })
    else if overlayOk s ctx e x.sig then
      let s := setCtx s ctx { c with overlays := Assoc.set c.overlays x.ovid.toNat e }
      .next (if e.pub then noteHash s e.hash else s)
    else .next s

end Sys2Proof.Machine
end

