-- ==== Sys2Proof/Machine/Def.lean ====
section
/-! DEFINITION. The DEF class (R178 to R183): COMMIT, DAGE, STEPINC, DQRY. -/

namespace Sys2Proof.Machine

open Sys2Proof

/-- Whose records a COMMIT of a scope covers (R179). -/
def ownerOf (x : Cx) (group : Nat) : CommitScope → Owner
  | .t => .thread (BitVec.ofNat 15 x.tid.slot) (BitVec.ofNat 8 (waveIx x.tid)) (BitVec.ofNat 5 (laneOf x.tid))
  | .b => .block (BitVec.ofNat 15 x.tid.slot)
  | .g => .launch x.blk.launch
  | .p => .group group

/-- One commit more of a scope (R282). -/
def Counts.bump (c : Counts) : CommitScope → Counts
  | .t => { c with kt := c.kt + 1 }
  | .b => { c with kb := c.kb + 1 }
  | .g => { c with kg := c.kg + 1 }
  | .p => { c with kp := c.kp + 1 }

/-- The counts after a COMMIT of a scope, with those of the open region: a COMMIT in the handler counts as passed at once, unless the
region has a COMMIT of the scope of its own (R300, log 103). -/
def commitCounts (t : Thread) (scope : CommitScope) : Counts × Counts :=
  let n := t.counts.bump scope
  (n, if t.trap.isSome ∧ t.region.k scope = t.counts.k scope then t.region.bump scope else t.region)

/-- The commit that a scope, an owner and an ordinal name; a new one is opened where none is in progress. -/
def openCommit (s : State) (x : Cx) (scope : CommitScope) (owner : Owner) (k : Nat) : State × Nat :=
  match s.commits.find? (fun c => c.scope == scope && c.owner == owner && c.k == k) with
  | some c => (s, c.id)
  | none =>
    ({ s with
        nextId := s.nextId + 1
        commits := s.commits ++ [⟨s.nextId, scope, owner, x.blk.ctx, x.blk.launch, k, BitVec.ofNat 4 (k - 1), [], false, [], 0⟩] },
      s.nextId)

/-- The k-th COMMIT of a scope by the executing thread: its token stands for the commit (R26, R179). -/
def commitOf (h : Hdr) (s : State) (x : Cx) (d : VReg) (scope : CommitScope) (group : Nat) : Out :=
  let (counts, region) := commitCounts x.thr scope
  let (s, id) := openCommit s x scope (ownerOf x group scope) (counts.k scope)
  let s := { s with commits := s.commits.map (fun c => if c.id = id then { c with tokens := c.tokens ++ [(x.tid, d)] } else c) }
  goOn h s x (markToken { x.thr with counts := counts, region := region } d (.commit id))

/-- COMMIT.T. -/
def execCommitT (h : Hdr) (d : VReg) (s : State) : Out :=
  guarded h s fun x => tokenRoom s x (commitOf h s x d .t 0)

/-- COMMIT.B. -/
def execCommitB (h : Hdr) (d : VReg) (s : State) : Out :=
  guarded h s fun x => tokenRoom s x (commitOf h s x d .b 0)

/-- COMMIT.G: only in a cooperative launch (R178). -/
def execCommitG (h : Hdr) (d : VReg) (s : State) : Out :=
  guarded h s fun x =>
    if launchFlag s x.blk Launch.coop then tokenRoom s x (commitOf h s x d .g 0)
    else illop s x (encode (.commitG h d)) 0x00

/-- A group that a context has registered (R408). -/
def groupOf (s : State) (ctx group : Nat) : Option PodGroup :=
  match Assoc.get s.fabric.groups group with
  | some g => if g.ctx = ctx then some g else none
  | none => none

/-- Joins the launch to a group at its first COMMIT.P naming it (R408). -/
def joinGroup (s : State) (launch group : Nat) (g : PodGroup) : State :=
  modLaunch s launch (fun l =>
    if l.groups.any (fun p => p.1 == group) then l else { l with groups := l.groups ++ [(group, g.commits)] })

/-- COMMIT.P (R178, R408): without the group, status TPEER; while another launch is joined, it stalls. -/
def execCommitP (h : Hdr) (d : VReg) (group : BitVec 16) (s : State) : Out :=
  guarded h s fun x =>
    tokenRoom s x (
      match groupOf s x.blk.ctx group.toNat with
      | none =>
        goOn h s x (wrV s.cycle { x.thr with counts := x.thr.counts.bump .p } d (statusWord 0 0x9 codePeer) 0)
      | some g =>
        if s.launches.any (fun p => p.1 != x.blk.launch && p.2.groups.any (fun q => q.1 == group.toNat)) then
          waitAt s x (.waiting .commit)
        else commitOf h (joinGroup s x.blk.launch group.toNat g) x d .p group.toNat)

/-- DAGE (R181): the aged add of v with the stamp STEP[15:0], a record on a deferred page. -/
def execDage (h : Hdr) (x : CapAddr) (v : Src) (s : State) : Out :=
  guarded h s fun cx =>
    atomic s cx x .w64 false false fun s mp recd c off =>
      let val := src32 s cx.thr v
      let stamp := (stepOf s cx.blk.ctx).extractLsb' 0 16
      if recd then
        recording s cx mp [⟨opcAgeAdd, 0, 3, val.toNat + 2 ^ 32 * stamp.toNat, 0, objL mp.oe⟩] fun s t => goOn h s cx t
      else
        let old : DWord := BitVec.ofNat 64 (leNat (readMapped s mp 8))
        goOn h (performAtomic s cx mp c.obj off 8 (some (agedAdd old val stamp (objL mp.oe).toNat).toNat)) cx cx.thr

/-- STEPINC (R182). -/
def execStepinc (h : Hdr) (d : Option VReg) (s : State) : Out :=
  guarded h s fun x =>
    let n := stepOf s x.blk.ctx + 1
    let s := modCtx s x.blk.ctx (fun c => { c with stepReg := n })
    match d with
    | some d => goOnPend h s x x.thr (pendVals [(d, n, false)])
    | none => goOn h s x x.thr

/-- DQRY (R183): USED and QUOTA. -/
def execDqry (h : Hdr) (d : VReg) (s : State) : Out :=
  guarded h s fun x =>
    goOnPend h s x x.thr (pendVals [(d, BitVec.ofNat 32 (usedUnits x.blk), false),
      (d + 1, BitVec.ofNat 32 (quotaBytes s x.blk / 4096), false)])

end Sys2Proof.Machine
end

