-- ==== Sys2Proof/Machine/Fabric.lean ====
section
/-! DEFINITION. Axane Link ports (R406, R407), members of pod groups (R413), and the collective engine (R410 to R412). -/

namespace Sys2Proof.Machine

open Sys2Proof

/-! ### Ports (R406, R407) -/

/-- A port with its 64 flits of buffer per channel, nothing sent or received. -/
def Port.empty : Port := ⟨0, 0, [64, 64, 64, 64], [], 0, 0, true⟩

def portOf (s : State) (p : Nat) : Port := Assoc.getD s.fabric.ports p Port.empty
def setPort (s : State) (p : Nat) (x : Port) : State := { s with fabric := { s.fabric with ports := Assoc.set s.fabric.ports p x } }

/-- Fields of a flit (Table 19.5): its header is the low 64 bits. -/
def flitDst (f : BitVec 2048) : Nat := (f.extractLsb' 54 10).toNat
def flitIdle (f : BitVec 2048) : Bool := f.getLsbD 12
def flitSeq (f : BitVec 2048) : BitVec 12 := f.extractLsb' 0 12
def flitVc (f : BitVec 2048) : Nat := (f.extractLsb' 19 2).toNat

/-- The CRC over bytes 0 to 247 holds. -/
def crcOk (f : BitVec 2048) : Bool := Config.crc64 (leBytes 248 f.toNat) == f.extractLsb' 1984 64

/-- A flit with its CRC. -/
def withCrc (f : BitVec 1984) : BitVec 2048 := Config.crc64 (leBytes 248 f.toNat) ++ f

/-- Flits up to an acknowledged number leave the replay buffer; a number that is not in it acknowledges nothing new. -/
def ackTo (ack : BitVec 12) (fs : List (BitVec 2048)) : List (BitVec 2048) :=
  if fs.any (fun f => flitSeq f == ack) then (fs.dropWhile (fun f => flitSeq f != ack)).drop 1 else fs

/-- Credits and acknowledgement that a flit carries. -/
def Port.hear (p : Port) (now : BitVec 64) (f : BitVec 2048) : Port :=
  let p := { p with credits := listModify p.credits (f.extractLsb' 34 2).toNat (· + (f.extractLsb' 36 8).toNat) }
  let left := ackTo (f.extractLsb' 21 12) p.replay
  if f.getLsbD 33 && left.length != p.replay.length then { p with replay := left, lastAck := now, resends := 0 } else p

/-- FLIT_RECEIVE (R407): accepted when its CRC holds and, unless it is idle, its SEQ is the one expected; discarded
otherwise. -/
def execFlitReceive (port : Nat) (flit : BitVec 2048) (s : State) : Out :=
  let p := portOf s port
  if decide (Config.numPorts ≤ port) || !p.up || !crcOk flit || (!flitIdle flit && flitSeq flit != p.rxSeq) then .next s
  else
    let p := p.hear (gtsOf s) flit
    if flitIdle flit then .next (setPort s port p)
    else
      let s := setPort s port { p with rxSeq := p.rxSeq + 1 }
      .next { s with fabric := { s.fabric with received := s.fabric.received ++ [flit] } }

/-- FLIT_RETRANSMIT (R407): no ACK has advanced for 1 µs, so every unacknowledged flit is sent again. -/
def execFlitRetransmit (port : Nat) (s : State) : Out :=
  let p := portOf s port
  if !p.up || p.replay.isEmpty || decide ((gtsOf s - p.lastAck).toNat < 1000) then .next s
  else .next (setPort s port { p with resends := p.resends + 1, lastAck := gtsOf s })

/-- A flit takes the next number of a port and joins its replay buffer. -/
def Port.push (p : Port) (now : BitVec 64) (f : BitVec 1984) : Port :=
  let f : BitVec 1984 := f.extractLsb' 12 1972 ++ p.txSeq
  { p with
    txSeq := p.txSeq + 1
    replay := p.replay ++ [withCrc f]
    lastAck := if p.replay.isEmpty then now else p.lastAck
    credits := listModify p.credits (f.extractLsb' 19 2).toNat (· - 1) }

/-- A port that may send on a channel: up, with a credit, and room in the replay buffer. -/
def Port.sends (p : Port) (vc : Nat) : Bool := p.up && decide (0 < p.credits.getD vc 0 ∧ p.replay.length < Config.replayFlits)

/-- Sends a flit toward a device on its route. -/
def sendFlit (s : State) (dst vc : Nat) (payload : BitVec 1920) : State :=
  match Assoc.get s.fabric.routes dst with
  | none => s
  | some r =>
    if (portOf s r).sends vc then
      let f : BitVec 1984 := payload ++ BitVec.ofNat 10 dst ++ s.device ++ (0#23 : BitVec 23) ++ BitVec.ofNat 2 vc ++ (0#19 : BitVec 19)
      setPort s r ((portOf s r).push (gtsOf s) f)
    else s

/-- Flits of a port that is down go out on their new routes, oldest first. -/
def reroute (s : State) (f : BitVec 2048) : State :=
  match Assoc.get s.fabric.routes (flitDst f) with
  | none => s
  | some r => setPort s r ((portOf s r).push (gtsOf s) (f.extractLsb' 0 1984))

/-- LINK_DOWN (R407): after 256 resends without progress firmware installs new routes, and the unacknowledged flits follow
them. A device that loses its last route counts as failed. -/
def execLinkDown (port : Nat) (routes : List (Nat × Nat)) (s : State) : Out :=
  let p := portOf s port
  if p.resends < 256 ∨ !p.up then .next s
  else
    let lost := (s.fabric.routes.filter (fun r => r.2 == port)).map (·.1)
    let kept := s.fabric.routes.filter (fun r => r.2 != port)
    let new := (routes.filter (fun r => lost.contains r.1 && r.2 != port && decide (r.2 < Config.numPorts))).foldl (fun m r => Assoc.set m r.1 r.2) kept
    let s := setPort s port { p with up := false, replay := [] }
    let s := { s with fabric := { s.fabric with
      routes := new
      failedPeers := (lost.filter (fun d => (Assoc.get new d).isNone)).foldl NatSet.add s.fabric.failedPeers } }
    .next (logEvent (p.replay.foldl reroute s) 0x05 0 none (srcNo 5 port) (BitVec.ofNat 32 port) (BitVec.ofNat 32 (lost.headD 0)))

/-! ### Members of a group (R413) -/

def podGroup (s : State) (g : Nat) : Option PodGroup := Assoc.get s.fabric.groups g
def setGroup (s : State) (g : Nat) (x : PodGroup) : State := { s with fabric := { s.fabric with groups := Assoc.set s.fabric.groups g x } }

/-- HEARTBEAT_SEND (R413): every 10 µs, on VC 3, to every other member. -/
def execHeartbeatSend (group : Nat) (s : State) : Out :=
  match podGroup s group with
  | none => .next s
  | some g =>
    if (gtsOf s - g.lastBeat).toNat < 10000 then .next s
    else
      let others := g.members.filter (fun d => d != s.device.toNat)
      .next (setGroup (others.foldl (fun s d => sendFlit s d 3 (Config.heartbeat group d)) s) group { g with lastBeat := gtsOf s })

/-- MEMBER_FAILED (R413): a member that is unreachable, reported failed, or silent leaves the group; group commits in
progress will complete with TPEER. -/
def execMemberFailed (group dev : Nat) (s : State) : Out :=
  match podGroup s group with
  | none => .next s
  | some g =>
    if !g.members.contains dev ∨ dev = s.device.toNat then .next s
    else
      let s := setGroup s group { g with members := g.members.filter (fun d => d != dev) }
      let s := { s with
        fabric := { s.fabric with failedPeers := NatSet.add s.fabric.failedPeers dev }
        commits := s.commits.map (fun c => if c.owner = .group group then { c with code := codePeer } else c) }
      .next (logEvent s 0x06 0 (some g.ctx) (srcNo 7 0) (BitVec.ofNat 32 group) (BitVec.ofNat 32 dev))

/-! ### Buckets (R410, R411) -/

def bucketOf (s : State) (b : Nat) : Option Bucket := Assoc.get s.fabric.buckets b
def setBucket (s : State) (b : Nat) (x : Bucket) : State :=
  { s with fabric := { s.fabric with buckets := Assoc.set s.fabric.buckets b x } }

/-- One local step ends. -/
def Bucket.step (b : Bucket) : Bucket :=
  let b := { b with count := b.count - b.expect, steps := b.steps + 1 }
  if b.steps = b.cad then { b with steps := 0, state := 2 } else b

/-- BUCKET_STEP (R410). A step that would end a cadence waits while the bucket awaits or makes an exchange (log 43). -/
def execBucketStep (bucket : Nat) (s : State) : Out :=
  match bucketOf s bucket with
  | none => .next s
  | some b =>
    if b.count < b.expect ∨ b.state = 0 ∨ (b.state ≠ 1 ∧ b.steps + 1 = b.cad) then .next s else .next (setBucket s bucket b.step)

/-- BUCKET_EXCHANGE_START (R411): SEQ equals NEXT, and the engine reads the range once. A SEQ below NEXT is reported, and
the bucket never starts. -/
def execBucketExchangeStart (bucket : Nat) (s : State) : Out :=
  match bucketOf s bucket with
  | none => .next s
  | some b =>
    match podGroup s b.group with
    | none => .next s
    | some g =>
      if b.state ≠ 2 then .next s
      else if b.seq < g.next then
        if b.late then .next s
        else
          .next (logEvent (setBucket s bucket { b with late := true }) 0x08 0 (some b.ctx) (srcNo 7 0) (BitVec.ofNat 32 bucket) b.seq)
      else if b.seq ≠ g.next then .next s
      else
        match readWaiting s b.ctx none .read b.obj b.off b.len with
        | (s', .ok (bs, _)) =>
          .next (setGroup (setBucket s' bucket { b with state := 3, local0 := bs }) b.group { g with next := g.next + 1 })
        | (_, .error (.noAddr a)) => .fault (.noSuchAddress a)
        | (_, .error _) => .next s

/-! ### The reduction (R412) -/

/-- Bytes of an element of a type of Table 19.6. -/
def collBytes (ty : Nat) : Nat := if ty = 1 ∨ ty = 2 then 2 else 4
def collFmt (ty : Nat) : FF := if ty = 1 then bf16 else if ty = 2 then fp16 else fp32

/-- INT32: SUM modulo 2^32, signed MIN or MAX. -/
def collInt (opr : Nat) (xs : List Nat) : Nat :=
  let ws : List Word := xs.map (BitVec.ofNat 32)
  match ws with
  | [] => 0
  | w :: r => (r.foldl (fun (a b : Word) =>
      if opr = 2 then (if a.toInt ≤ b.toInt then a else b)
      else if opr = 3 then (if a.toInt ≤ b.toInt then b else a)
      else a + b) w).toNat

/-- One element of the result, as a number of collBytes bytes, and its flags. -/
def collElem (ty opr : Nat) (xs : List Nat) : Nat × BitVec 3 :=
  if ty = 3 then (collInt opr xs, 0)
  else
    let f := collFmt ty
    let r := collReduce f opr (xs.map f.decode)
    (f.encode r.1, r.2)

/-- The result over n elements of contributions, and the union of their flags. -/
def collAll (ty opr n : Nat) (xs : List (List Byte)) : List Byte × BitVec 3 :=
  let es := (rangeFrom 0 n).map (fun i => collElem ty opr (xs.map (fun x => fieldAt x (collBytes ty * i) (collBytes ty))))
  (es.flatMap (fun e => leBytes (collBytes ty) e.1), es.foldl (fun a e => a ||| e.2) 0)

/-- Writes the engine's own result, which does not count toward a step. -/
def placePieces (ctx obj : Nat) : List Piece → List Byte → State → State
  | [], _, s => s
  | p :: ps, bs, s => placePieces ctx obj ps (bs.drop p.len) (placeObj s none ctx obj p.off p.m (bs.take p.len) .dflt)

/-- The decision names every member of the group, each once, with a contribution of LEN bytes. -/
def decisionOk (s : State) (g : PodGroup) (b : Bucket) (parts : List (Nat × List Byte)) : Bool :=
  let devs := parts.map (·.1)
  decide devs.Nodup && !devs.contains s.device.toNat && parts.all (fun p => decide (p.2.length = b.len)
      && (g.members.contains p.1 || s.fabric.failedPeers.has p.1))
    && g.members.all (fun d => d == s.device.toNat || devs.contains d)

/-- The bucket after its exchange (R411). -/
def Bucket.after (b : Bucket) (n : Nat) (flags : BitVec 3) : Bucket :=
  { b with
    done := b.done + 1
    members := n
    flags := b.flags ||| flags
    seq := b.seq + b.seqInc
    state := if b.seqInc = 0 then 0 else 1
    local0 := [] }

/-- BUCKET_EXCHANGE_DONE (R411 to R413): `parts` are the contributions of the other members of the decision. -/
def execBucketExchangeDone (bucket : Nat) (parts : List (Nat × List (BitVec 8))) (s : State) : Out :=
  match bucketOf s bucket with
  | none => .next s
  | some b =>
    match podGroup s b.group with
    | none => .next s
    | some g =>
      if b.state ≠ 3 ∨ !decisionOk s g b parts then .next s
      else
        match translateRange s b.ctx none b.obj .cwrite b.off b.len with
        | (s', .ok ps) =>
          if ps.any (fun p => pageLocked s p.m) then .next s else
          let r := collAll b.ty b.opr (b.len / collBytes b.ty) (b.local0 :: parts.map (·.2))
          let b' := b.after (parts.length + 1) r.2
          let s' := setBucket (placePieces b.ctx b.obj ps r.1 s') bucket b'
          .next (if b.sigen then signalCounter s' b.ctx b.sidx b'.done.toNat else s')
        | (_, .error (.noAddr a)) => .fault (.noSuchAddress a)
        | (_, .error _) => .next s

end Sys2Proof.Machine
end

