-- ==== Sys2Proof/Machine/Limit.lean ====
section
/-! DEFINITION. The drain limit (R390) and the hang detector with its wait-for graph (R391 to R393). -/

namespace Sys2Proof.Machine

open Sys2Proof

/-! ### The drain limit (R390) -/

/-- TINFO words of a trap that no handler takes, with ARG0 (Table 4.12). -/
def limitWords (cause : BitVec 8) (pc arg0 : Word) (gts : BitVec 64) : List Word :=
  [cause.setWidth 32, pc, arg0, 0, gts.extractLsb' 0 32, gts.extractLsb' 32 32]

/-- Insertion of blocks by linear index. -/
def blockIn (x : Nat × Block) : List (Nat × Block) → List (Nat × Block)
  | [] => [x]
  | y :: ys => if x.2.lin ≤ y.2.lin then x :: y :: ys else y :: blockIn x ys

/-- The blocks of a launch on the cores, in linear order. -/
def blocksInOrder (s : State) (id : Nat) : List (Nat × Block) := (blocksOf s id).foldr blockIn []

/-- The lowest unsaved block of a launch that a drain holds. -/
def unsavedBlock (s : State) (id : Nat) (d : Drain) : Option Block :=
  ((blocksInOrder s id).find? (fun b => d.blocks.contains b.1 && drains s b.1 b.2)).map (·.2)

/-- Its lowest thread that is not saved: the first that is not settled, or else the first that is not retired. -/
def unsavedThread (now : Nat) (b : Block) : Option Thread :=
  (b.threads.find? (fun t => !t.settled now)).or (b.threads.find? (fun t => t.status != .retired))

/-- The completion that PTIMEOUT gives a launch. -/
def ptimeoutOf (s : State) (d : Drain) (id : Nat) : Fatal :=
  match unsavedBlock s id d with
  | none => ⟨causePtimeout, 0, limitWords causePtimeout 0 0 (gtsOf s), gtsOf s, 0⟩
  | some b => ⟨causePtimeout, b.lin, limitWords causePtimeout ((unsavedThread s.cycle b).map Thread.pcWord |>.getD 0) 0 (gtsOf s), gtsOf s, 0⟩

/-- A launch of a killed context ends; its uncovered records and its saved blocks are discarded. -/
def killLaunch (d : Drain) (s : State) (id : Nat) : State :=
  match launchOf s id with
  | none => s
  | some l =>
    let f := ptimeoutOf s d id
    setLaunch (endGrid s id) id { l with fatal := some f, phase := .ending, replayWant := false }

/-- The queues of a context stop fetching. -/
def stopQueues (s : State) (ctx : Nat) : State :=
  { s with launchQs := Assoc.mapVals s.launchQs (fun _ q => if q.ctx = ctx then { q with stopped := true } else q) }

/-- The kill of R390, and the event. -/
def killContext (s : State) (ctx : Nat) (c : Context) (d : Drain) : State :=
  let s := (launchesOf s (fun l => l.ctx == ctx)).foldl (killLaunch d) s
  let s := stopQueues s ctx
  let s := setCtx s ctx { c with killed := true, saved := [] }
  logEvent s 0x0D causePtimeout (some ctx) (srcNo 8 0) 0 0

/-- The pre-emption of a block has not ended DRAINLIM cycles after its request (R384). -/
def overran (s : State) (c : Context) (slot : Nat) : Bool :=
  (blockOf s slot).any (fun b => drains s slot b && (match b.phase with
    | .draining since false => decide (since + c.params.drainLim ≤ s.cycle)
    | _ => false))

/-- PTIMEOUT (R390): a pre-emption drain that has not ended DRAINLIM cycles after its request kills the context. Once its
launches have completed, the context is destroyed. -/
def execPtimeout (ctx : Nat) (s : State) : Out :=
  match ctxOf s ctx with
  | none => .next s
  | some c =>
    if c.killed then
      if (launchesOf s (fun l => l.ctx == ctx)).isEmpty then .next (destroyContext s ctx) else .next s
    else
      match c.drain with
      | none => .next s
      | some d => if d.blocks.any (overran s c) then .next (killContext s ctx c d) else .next s

/-! ### The wait-for graph (R393) -/

/-- OKIND, OBJ, WANT and HAVE of a wait-for record (Table 18.4). -/
structure Wait where
  okind : Nat
  obj : Nat
  want : Word
  have_ : Word

/-- Number of a scope in WANT. -/
def CommitScope.num : CommitScope → Nat
  | .t => 0
  | .b => 1
  | .g => 2
  | .p => 3

/-- A wait on a token register: a commit with its scope and epoch, or another token. -/
def waitToken (s : State) (t : Thread) (r : VReg) : Wait :=
  let c := (t.tokens.find? (fun k => k.reg == r)).bind (fun k => match k.of with
    | .commit id => s.commits.find? (fun c => c.id == id)
    | _ => none)
  match c with
  | some c => ⟨7, (vByte r).toNat, BitVec.ofNat 32 (16 * c.epoch.toNat + CommitScope.num c.scope), 0⟩
  | none => ⟨6, (vByte r).toNat, 0, 0⟩

/-- Lanes of a mask held at the same address with the same mask. -/
def heldMask (b : Block) (tid : ThreadId) (t : Thread) (mk : Word) : Word :=
  (rangeFrom 0 32).foldl (fun m i =>
    match b.threads[32 * waveIx tid + i]? with
    | some y => if y.status = .held mk ∧ y.pc = t.pc ∧ y.top = t.top then setBit m i true else m
    | none => m) 0

/-- A held thread waits for its instance, or, where every lane of the mask has arrived, for room in the q stream it signs on. -/
def waitHeld (s : State) (b : Block) (tid : ThreadId) (t : Thread) (mk : Word) : Wait :=
  let have_ := heldMask b tid t mk
  match (instanceAt s b tid t).bind (fun x => x.2.qSigned) with
  | some q => ⟨if have_ = mk then 9 else 8, q.toNat, mk, have_⟩
  | none => ⟨8, 0, mk, have_⟩

/-- A thread that waits for all it has issued, or for some of it: its first pending token, or the first q register with an
operation of it (log 98). -/
def waitPending (s : State) (b : Block) (tid : ThreadId) (t : Thread) : Wait :=
  match t.tokens with
  | k :: _ => waitToken s t k.reg
  | [] =>
    match (rangeFrom 0 16).find? (fun n => signedOn b tid (BitVec.ofNat 4 n)) with
    | some n => ⟨9, n, 0, 0⟩
    | none => ⟨6, 0, 0, 0⟩

/-- What a waiting thread waits on. -/
def waitOf (s : State) (b : Block) (tid : ThreadId) (t : Thread) : Wait :=
  match t.status with
  | .held mk => waitHeld s b tid t mk
  | .waiting (.bar a k) => ⟨1, a, k.setWidth 32, (readBarrier b a).phase.setWidth 32⟩
  | .waiting (.barw a k) => ⟨1, a, k.setWidth 32, (readBarrier b a).phase.setWidth 32⟩
  | .waiting (.rres a) => ⟨2, a, (readRing b a).res.setWidth 32, (readRing b a).rel.setWidth 32⟩
  | .waiting (.ringCopy a) => ⟨2, a, (readRing b a).res.setWidth 32, (readRing b a).rel.setWidth 32⟩
  | .waiting (.rwait a) => ⟨3, a, (readRing b a).con.setWidth 32, (readRing b a).pub.setWidth 32⟩
  | .waiting (.rpub a k) => ⟨4, a, k.setWidth 32, (readRing b a).pub.setWidth 32⟩
  | .waiting (.rrel a k) => ⟨5, a, k.setWidth 32, (readRing b a).rel.setWidth 32⟩
  | .waiting (.mwait q) => ⟨10, q.toNat, 0, 0⟩
  | .waiting (.twait _) | .stalled .tokenLimit | .stalled .exiting => waitPending s b tid t
  | .waiting .commit => ⟨7, 0, 0, 0⟩
  | .stalled (.staging ..) => ⟨7, 0, 0, 0⟩
  | .parkedLoad _ _ => ⟨6, 0, 0, 0⟩
  | _ =>
    match boardWait s b tid t with
    | some (.waiting (.token r)) => waitToken s t r
    | some (.stalled (.stream q)) => ⟨9, q.toNat, 0, 0⟩
    | _ => ⟨6, 0, 0, 0⟩

/-- A wait-for record (Table 18.4). -/
def waitRecord (wkind lnum blk wave lane : Nat) (flockw : Word) (w : Wait) (pc : Word) : List Word :=
  [BitVec.ofNat 8 wkind ++ BitVec.ofNat 8 w.okind ++ BitVec.ofNat 16 lnum, BitVec.ofNat 32 blk,
    0#16 ++ BitVec.ofNat 8 wave ++ 0#3 ++ BitVec.ofNat 5 lane, flockw, BitVec.ofNat 32 (w.obj % 2 ^ 24), w.want, w.have_, pc]

/-- Records of one wave: its waiting threads by lane, an engine operation held by its BWT beside lane 0. -/
def waveRecords (s : State) (lnum slot : Nat) (b : Block) (w : Nat) : List (List Word) :=
  let x := b.wave w
  let ops := (x.q.toList.flatMap QState.ops).filterMap (fun o =>
    match o.started, o.bwt with
    | false, some (a, k) => if (readBarrier b a).reached k then none
        else some (waitRecord 1 lnum b.lin w 0 x.flockw ⟨1, a, k.setWidth 32, (readBarrier b a).phase.setWidth 32⟩ o.pcWord)
    | _, _ => none)
  let thr (i : Nat) : List (List Word) := match b.threads[32 * w + i]? with
    | some t => if t.status = .retired then []
        else [waitRecord 0 lnum b.lin w i x.flockw (waitOf s b ⟨slot, 32 * w + i⟩ t) t.pcWord]
    | none => []
  thr 0 ++ ops ++ (rangeFrom 1 31).flatMap thr

/-- Insertion of launches by launch number. -/
def lnumIn (x : Nat × Launch) : List (Nat × Launch) → List (Nat × Launch)
  | [] => [x]
  | y :: ys => if x.2.lnum ≤ y.2.lnum then x :: y :: ys else y :: lnumIn x ys

/-- The launches of a context in order of LNUM. -/
def launchesByNum (s : State) (ctx : Nat) : List (Nat × Launch) := (s.launches.filter (fun l => l.2.ctx == ctx)).foldr lnumIn []

/-- Every record of a context's graph, in order (R393). -/
def waitGraph (s : State) (ctx : Nat) : List (List Word) :=
  (launchesByNum s ctx).flatMap (fun l => (blocksInOrder s l.1).flatMap (fun b =>
    (rangeFrom 0 b.2.waves.length).flatMap (waveRecords s l.2.lnum.toNat b.1 b.2)))

/-- The dump of n records of a graph (R393). -/
def dumpWords (gts : BitVec 64) (n : Nat) (rs : List (List Word)) : List Word :=
  [BitVec.ofNat 32 n, if n < rs.length then 1 else 0, gts.extractLsb' 0 32, gts.extractLsb' 32 32] ++ List.replicate 12 0
    ++ (rs.take n).flatten

/-- Writes the graph to DUMPAREA: how many records are written. -/
def dumpGraph (s : State) (ctx : Nat) (c : Context) : State × Nat :=
  match c.params.dumpArea with
  | none => (s, 0)
  | some (obj, off, len) =>
    let rs := waitGraph s ctx
    let n := min rs.length ((len - 64) / 32)
    match writeObjRange s ctx none obj off (wordsBytes (dumpWords (gtsOf s) n rs)) with
    | (s, none) => (s, n)
    | (_, some _) => (s, 0)

/-- The directory holds the writes of the dump's page (R322). -/
def dumpHeld (s : State) (ctx : Nat) (c : Context) : Bool :=
  c.params.dumpArea.any (fun d => objLocked s ctx d.1)

/-- A launch with a resident thread ends: the TINFO words are those of its lowest waiting thread. One that has a fatal trap keeps
it (R253). -/
def hangLaunch (n : Nat) (s : State) (id : Nat) : State :=
  match (blocksInOrder s id).find? (fun b => b.2.threads.any (fun t => t.status != .retired)) with
  | none => s
  | some (_, b) =>
    match b.threads.find? (fun t => t.status != .retired) with
    | none => s
    | some t => modLaunch s id (fun l =>
        if l.fatal.isSome then l
        else { l with fatal := some ⟨causeHang, b.lin, limitWords causeHang t.pcWord (BitVec.ofNat 32 n) (gtsOf s), gtsOf s, 0⟩ })

/-- HANG (R392): the hang counter has reached HANGLIM. -/
def execHang (ctx : Nat) (s : State) : Out :=
  match ctxOf s ctx with
  | none => .next s
  | some c =>
    if !hangs s ctx c ∨ c.hang < c.params.hangLim then .next s
    else
      if dumpHeld s ctx c then .next s else
      let (s, n) := dumpGraph s ctx c
      let s := modCtx s ctx (fun c => { c with hang := 0 })
      .next ((launchesOf s (fun l => l.ctx == ctx)).foldl (hangLaunch n) s)

end Sys2Proof.Machine
end

