-- ==== Sys2Proof/Machine/Rel.lean ====
section
/-! DEFINITION. Long runs: launch replay (R424), timing replays (R419), scrub (R420), device reset (R418),
firmware boot (R428), configuration in force (R431), power and temperature (R437, R438). -/

namespace Sys2Proof.Machine

open Sys2Proof

/-! ### Launch replay (R424) -/

/-- Every page of the replay set as its snapshot has it; no L1 keeps a line of its object. -/
def restoreSnapshots (s : State) (l : Launch) : State :=
  l.snapshots.foldl (fun s x =>
    match entryAddrOf s l.ctx x.1 x.2.1 with
    | none => s
    | some a => l1Invalidate (setPage s a x.2.2) l.ctx x.1 none) s

/-- The launch as it was fetched, with its number and its bindings. -/
def Launch.again (l : Launch) (snaps : List (Nat × Nat × BitVec 64)) : Launch :=
  { l with
    phase := .started
    gridx := (pw l.packet 1).toNat
    nextBlock := 0
    retiredN := 0
    fatal := none
    skippedSince := none
    reserving := false
    groups := []
    snapshots := snaps
    attempts := l.attempts + 1
    replayWant := false }

/-- LAUNCH_REPLAY (R424): once what the launch issued has completed, its records are discarded, its pages are those of the
snapshots, and it starts again. -/
def execLaunchReplay (launch : Nat) (s : State) : Out :=
  match launchOf s launch with
  | none => .next s
  | some l =>
    if l.fatal.isNone ∨ l.phase ≠ .started ∨ !willReplay s l ∨ launchBusy s launch then .next s
    else
      let s := eraseBlocks (dropRecords (endGrid s launch) launch) launch
      let s := restoreSnapshots s l
      let (s, snaps) := takeSnapshots s l
      let s := setLaunch s launch (l.again snaps)
      .next (logEvent s 0x0A 0 (some l.ctx) (srcNo 8 0) (l.lnum.setWidth 32) (BitVec.ofNat 32 (l.attempts + 1)))

/-! ### Timing replays and scrub (R419, R420) -/

/-- A core counts a replay; the second it counts in starts anew once it is over. -/
def Core.replayed (c : Core) (now : BitVec 64) : Core :=
  if c.replayFrom + 1000000000 ≤ now then { c with replays := 1, replayFrom := now } else { c with replays := c.replays + 1 }

/-- TIMING_REPLAY (R419): the partition issues nothing for 2 cycles; its core counts the replay, and one above the threshold
is reported. -/
def execTimingReplay (part : Nat) (s : State) : Out :=
  if 16 * Config.numClusters ≤ part then .next s else
  let core := part / 4
  let c := (coreOf s core).replayed (gtsOf s)
  let s := setCore s core c
  let s := { s with blocks := Assoc.mapVals s.blocks (fun slot b =>
    { b with threads := b.threads.mapIdx (fun i t =>
        if inPart b ⟨slot, i⟩ part then { t with nextIssue := max t.nextIssue (s.cycle + 2) } else t) }) }
  .next (if c.replays = Config.replayThreshold + 1
    then logEvent s 0x04 0 none (srcNo 2 core) (BitVec.ofNat 32 c.replays) (BitVec.ofNat 32 core) else s)

/-- PATROL_SCRUB (R420): a location is read and written back corrected; a correctable error never shows in a location's
content, and poison stays. -/
def execPatrolScrub (_addr : Nat) (s : State) : Out := .next s

/-- CORRECTED_ERROR_EVENT (R420): firmware reports corrections counted for a store of Table 21.1. -/
def execCorrectedErrorEvent (count store : Nat) (s : State) : Out :=
  .next (logEvent s 0x01 0 none (srcNo 9 0) (BitVec.ofNat 32 count) (BitVec.ofNat 32 store))

/-! ### Configuration (R431, Table 21.6) -/

/-- A setting within its range. -/
def settingOk : ConfigSetting → Bool
  | .staging h => decide (1 ≤ h ∧ h ≤ 16)
  | .replayN n => decide (n ≤ 7)
  | .plim mW => decide (1000000 ≤ mW ∧ mW ≤ 3800000)
  | .tthr d => decide (85 ≤ d ∧ d ≤ 100)
  | .quota n => decide (1 ≤ n ∧ n ≤ 2 ^ 20)
  | .stgLim n => decide (4096 ≤ n ∧ n ≤ 2 ^ 30)
  | .publicRegion u => decide (u ≤ 32)
  | .istoreQuota u => decide (1 ≤ u ∧ u ≤ 64)
  | .ctxDefault _ => true
  | .repair part lane => decide (part < 1280) && lane.all (fun l => decide (l < 33))

/-- Number of a record's type, for its counter. -/
def settingType : ConfigSetting → Nat
  | .staging _ => 0
  | .replayN _ => 1
  | .plim _ => 2
  | .tthr _ => 3
  | .ctxDefault _ => 4
  | .quota _ => 5
  | .stgLim _ => 6
  | .publicRegion _ => 7
  | .istoreQuota _ => 8
  | .repair _ _ => 9

/-- Settings with a record in force. -/
def Settings.put (x : Settings) : ConfigSetting → Settings
  | .staging h => { x with stagingHalfGiB := h }
  | .replayN n => { x with replayN := n }
  | .plim mW => { x with plim := mW, plimBound := mW }
  | .tthr d => { x with tthr := d }
  | .quota n => { x with quota := n, defaults := { x.defaults with quota := n } }
  | .stgLim n => { x with stgLim := n, defaults := { x.defaults with stgLim := n } }
  | .publicRegion u => { x with publicRegion := u }
  | .istoreQuota u => { x with istoreQuota := some u }
  | .ctxDefault p => { x with defaults := x.defaults.put p }
  | .repair _ _ => x

/-- The repair map that records carry. -/
def repairsOf (rs : List ConfigSetting) (m : Assoc Nat) : Assoc Nat :=
  rs.foldl (fun m r => match r with
    | .repair part (some lane) => Assoc.set m part lane
    | .repair part none => Assoc.erase m part
    | _ => m) m

/-! ### Reset and boot (R418, R428, R431) -/

/-- What firmware and its flash hold across a reset, with the accepted records in force. -/
def Service.afterReset (x : Service) : Service :=
  { Service.reset with
    msix := x.msix
    hostReplies := x.hostReplies
    reportOut := x.reportOut
    reports := x.reports
    fusedVersion := x.fusedVersion
    events := x.events
    eventsLost := x.eventsLost
    eventsTotal := x.eventsTotal
    settings := x.records.foldl Settings.put Settings.default
    records := x.records
    counters := x.counters
    repair := repairsOf x.records x.repair
    laneTests := x.laneTests }

/-- Device reset: every context, launch and key is gone, memory and flash stay, time goes on (R418, R427, R430, log 51). -/
def resetState (s : State) : State :=
  { State.reset with
    agenda := s.agenda
    freeCtr := s.freeCtr
    gtsBase := (gtsOf s).toNat
    device := s.device
    dram := s.dram
    ws := s.ws
    lineKey := s.lineKey
    tags := s.tags
    poison := s.poison
    wsPoison := s.wsPoison
    clusters := (s.clusters.filter (fun c => c.2.outOfService)).map (fun c => (c.1, ⟨none, [], true⟩))
    service := s.service.afterReset
    fabric := { Fabric.reset with routes := s.fabric.routes } }

/-- DEVICE_RESET (R418): the lane self-test of every partition follows. -/
def execDeviceReset (s : State) : Out := .next (testClusters (resetState s) (rangeFrom 0 Config.numClusters))

/-- Bytes of a record as it is measured and signed: type, then its values, 8 bytes each (log 52). -/
def paramNums : CtxParam → List Nat
  | .clusters m => 0 :: m
  | .handler h => [1, (match h with | some x => 256 + x.toNat | none => 0)]
  | .drainLim n => [2, n]
  | .runOn n => [3, n]
  | .swapLim n => [4, n]
  | .hangLim n => [5, n]
  | .saveArea a n => [6, a, n]
  | .dumpArea a => 7 :: (match a with | some (o, f, n) => [o, f, n] | none => [])
  | .quota n => [8, n]
  | .stgLim n => [9, n]
  | .istoreQuota c n => [10, c, n]
  | .step w => [11, w.toNat]

def settingNums : ConfigSetting → List Nat
  | .staging n => [n]
  | .replayN n => [n]
  | .plim n => [n]
  | .tthr n => [n]
  | .ctxDefault p => paramNums p
  | .quota n => [n]
  | .stgLim n => [n]
  | .publicRegion n => [n]
  | .istoreQuota n => [n]
  | .repair p l => p :: l.toList

def settingBytes (x : ConfigSetting) : List Byte := (settingType x :: settingNums x).flatMap (fun n => leBytes 8 n)

/-- The repair map as it is measured. -/
def repairBytes (m : Assoc Nat) : List Byte := m.flatMap (fun p => leBytes 8 p.1 ++ leBytes 8 p.2)

/-- What the stages of a boot measure, in order (Table 21.5). -/
def measureBoot (s : State) (image : List Byte) : State :=
  let s := extendMr (extendMr s 0 Config.romIdentity) 0 image
  let s := s.service.records.foldl (fun s r => extendMr s 1 (settingBytes r)) s
  extendMr s 2 (repairBytes s.service.repair)

/-- FIRMWARE_BOOT (R428): the ROM runs a signed image whose version is not below the fused counter, once after a reset; it
refuses another one. -/
def execFirmwareBoot (image sig : List (BitVec 8)) (version : Nat) (s : State) : Out :=
  if s.service.booted then .next s
  else if Config.slhVerify Config.vendorKey image sig ∧ s.service.fusedVersion ≤ version then
    let s := measureBoot s image
    .next { s with service := { s.service with booted := true, firmwareVersion := version } }
  else .next s

/-! ### Power and temperature (R437, R438) -/

def setPower (s : State) (p : Power) : State := { s with service := { s.service with power := p } }

/-- A power or thermal event (Table 21.8). -/
def powerEvent (s : State) (code : BitVec 8) (reading : Nat) : State :=
  logEvent s 0x07 code none (srcNo 9 0) (code.setWidth 32) (BitVec.ofNat 32 reading)

/-- POWER_LIMIT (R437): PLIM, in mW, or the supply current limit of 95 A, in mA, is reached, and gating engages at a level of
0 to 56; a reading below its limit ends that. -/
def execPowerLimit (code : BitVec 8) (reading gate : Nat) (s : State) : Out :=
  let p := s.service.power
  let reached := (code = 1 ∧ s.service.settings.plim ≤ reading) ∨ (code = 2 ∧ 95000 ≤ reading)
  let draw := if code = 1 then reading else p.draw
  if decide reached ∧ gate ≤ 56 then
    .next (powerEvent (setPower s { p with gate := gate, draw := draw, limited := true }) code reading)
  else if code = 1 ∨ code = 2 then
    .next (setPower s { p with gate := if p.throttled then p.gate else 0, draw := draw, limited := false })
  else .next s

/-- THERMAL_THROTTLE (R438): the hottest reading is at TTHR. -/
def execThermalThrottle (reading gate : Nat) (s : State) : Out :=
  if s.service.settings.tthr ≤ reading ∧ gate ≤ 56 ∧ !s.service.power.throttled then
    .next (powerEvent (setPower s { s.service.power with gate := gate, temp := reading, throttled := true }) 3 reading)
  else .next s

/-- THROTTLE_RELEASE (R438): the reading has fallen 2 °C below TTHR. -/
def execThrottleRelease (reading : Nat) (s : State) : Out :=
  if s.service.power.throttled ∧ reading + 2 ≤ s.service.settings.tthr then
    .next (setPower s { s.service.power with
      gate := if s.service.power.limited then s.service.power.gate else 0
      temp := reading
      throttled := false })
  else .next s

/-- THERMAL_TRIP (R438): at 110 °C all issue stops. -/
def execThermalTrip (reading : Nat) (s : State) : Out :=
  if 110 ≤ reading ∧ s.service.power.tripped.isNone then
    .next (powerEvent (setPower s { s.service.power with temp := reading, tripped := some (gtsOf s) }) 4 reading)
  else .next s

/-- TRIP_RESET_TIMEOUT (R438): 1 ms after the trip the device resets. -/
def execTripResetTimeout (s : State) : Out :=
  match s.service.power.tripped with
  | none => .next s
  | some t => if t + 1000000 ≤ gtsOf s then execDeviceReset s else .next s

end Sys2Proof.Machine
end

