-- ==== Sys2Proof/Machine/Manage.lean ====
section
/-! DEFINITION. The management interface (R439): event log, sensors, PLIM, key slots (R430), attestation (R429),
configuration records (R431), sealing and rebasing (R434), self-tests (R418), and what firmware reads back. -/

namespace Sys2Proof.Machine

open Sys2Proof

/-! ### The ring (R439) -/

/-- Firmware answers a management request: the response, the counter, and MSI-X vector 2 of the PF. -/
def mgmtAnswer (s : State) (r : Req) (code : BitVec 8) (w1 : Word) (rest : List Word) : State :=
  sendMsix { s with service := { s.service with management := s.service.management.answer (response r code w1 rest) } } 0 2

/-- A management request: its checks count from 1 (log 14). Granted, it acts and answers. -/
def manage (s : State) (r : Req) (checks : List Bool) (act : State → State × Word × List Word) : Out :=
  match firstRefused 1 checks with
  | some n => .next (mgmtAnswer s r (BitVec.ofNat 8 n) 0 [])
  | none =>
    let (s, w, rest) := act s
    .next (mgmtAnswer s r 0 w rest)

/-- MANAGEMENT_REFUSED: any other code. -/
def execManagementRefused (r : Req) (_code : BitVec 8) (s : State) : Out := .next (mgmtAnswer s r 1 0 [])

/-! ### What firmware reads back -/

/-- An event record's words (Table 21.2). -/
def EventRec.words (e : EventRec) (dev : BitVec 10) : List Word :=
  let c : BitVec 7 := match e.ctx with
    | some c => 1#1 ++ BitVec.ofNat 6 c
    | none => 0
  [e.cls ++ e.code ++ c ++ 0#9, e.gts.extractLsb' 0 32, e.gts.extractLsb' 32 32, 0#6 ++ dev ++ e.src, e.arg0, e.arg1, 0, 0]

/-- READ_EVENT_LOG: the record of an index, counted from the first record written; word 1 holds the loss count. -/
def execReadEventLog (r : Req) (index : Nat) (s : State) : Out :=
  let x := s.service
  manage s r [decide (x.eventsTotal - x.events.length ≤ index ∧ index < x.eventsTotal)] fun s =>
    (s, BitVec.ofNat 32 x.eventsLost, match x.events[index - (x.eventsTotal - x.events.length)]? with
      | some e => e.words s.device
      | none => [])

/-- READ_SENSORS: temperature, power and the gating level. -/
def execReadSensors (r : Req) (s : State) : Out :=
  let p := s.service.power
  manage s r [] fun s => (s, BitVec.ofNat 32 p.temp, [BitVec.ofNat 32 p.draw, BitVec.ofNat 32 p.gate])

/-- Bit i of a map of 80 clusters in three words. -/
def maskWord (cls : List Nat) (w : Nat) : Word :=
  (rangeFrom 0 32).foldl (fun m i => if cls.contains (32 * w + i) then setBit m i true else m) 0

/-- READ_REPAIR_MAP: the count of repairs, the clusters in service, and the repairs, to the slot's end. -/
def execReadRepairMap (r : Req) (s : State) : Out :=
  let cls := (rangeFrom 0 Config.numClusters).filter (fun c => !(clusterOf s c).outOfService)
  manage s r [] fun s => (s, BitVec.ofNat 32 s.service.repair.length,
    [maskWord cls 0, maskWord cls 1, maskWord cls 2] ++
      (s.service.repair.take 11).map (fun p => BitVec.ofNat 16 p.2 ++ BitVec.ofNat 16 p.1))

/-- READ_STAGING: the region size, in units of 0.5 GiB, and the bytes used of each stack. -/
def execReadStaging (r : Req) (s : State) : Out :=
  manage s r [] fun s => (s, BitVec.ofNat 32 s.service.settings.stagingHalfGiB,
    (rangeFrom 0 12).map (fun k => BitVec.ofNat 32 (stackUse s k)))

/-! ### Power, keys, attestation -/

/-- SET_PLIM (R431, R437): within the record's bound. -/
def execSetPlim (r : Req) (mW : Nat) (s : State) : Out :=
  manage s r [decide (1000000 ≤ mW ∧ mW ≤ s.service.settings.plimBound)] fun s =>
    ({ s with service := { s.service with settings := { s.service.settings with plim := mW } } }, 0, [])

def setKeys (s : State) (ks : Assoc KeySlot) : State := { s with service := { s.service with keys := ks } }

/-- Kind of a key slot by its number (R430). -/
def kindOf (n : Nat) : Option KeyKind := if n = 1 then some .xts else if n = 2 then some .hmac else none

/-- A key wrapped under a transport key that was agreed against the encapsulation key of the current report, the latest one. -/
def unwrapped (s : State) (wrapped : List (BitVec 8)) : Option (BitVec 512) :=
  if s.service.reports = 0 then none else Config.keyUnwrap (s.service.reports - 1) wrapped

/-- IMPORT_KEY (R430): an unwrapped key goes into a slot of the request's context. -/
def execImportKey (r : Req) (slot kind : Nat) (wrapped : List (BitVec 8)) (s : State) : Out :=
  manage s r [(ctxOf s r.ctx).isSome, decide (slot < 4096), (kindOf kind).isSome, (unwrapped s wrapped).isSome] fun s =>
    match kindOf kind, unwrapped s wrapped with
    | some k, some key => (setKeys s (Assoc.set s.service.keys slot ⟨r.ctx, k, key⟩), 0, [])
    | _, _ => (s, 0, [])

/-- ZERO_KEY_SLOT (R430). -/
def execZeroKeySlot (r : Req) (slot : Nat) (s : State) : Out :=
  manage s r [decide (slot < 4096)] fun s => (setKeys s (Assoc.erase s.service.keys slot), 0, [])

/-- The body of an attestation report (R429). -/
def reportBytes (s : State) (nonce : BitVec 256) : List Byte :=
  s.service.mrs.toList.flatMap (fun m => leBytes 32 m.toNat) ++ leBytes 8 s.service.firmwareVersion
    ++ leBytes 8 Config.serial.toNat ++ leBytes 32 nonce.toNat ++ Config.kemKey s.service.reports

/-- ATTESTATION_REPORT (R429): the report and its signature. -/
def execAttestationReport (r : Req) (nonce : BitVec 256) (s : State) : Out :=
  manage s r [] fun s =>
    let b := reportBytes s nonce
    ({ s with service := { s.service with reportOut := b ++ Config.slhSign b, reports := s.service.reports + 1 } }, 0, [])

/-! ### Configuration records (R431) -/

/-- What the signature of a record covers. -/
def signedBytes (x : ConfigRecord) : List Byte := leBytes 8 x.version ++ leBytes 8 x.counter ++ settingBytes x.setting

/-- The signature is by the vendor key or an enrolled operator key. -/
def signedOk (x : ConfigRecord) : Bool :=
  (x.keyHash == Config.vendorKey || Config.operatorKey x.keyHash) && Config.slhVerify x.keyHash (signedBytes x) x.sig

/-- The same setting: of one type, and for a context default or a repair of one parameter or partition. -/
def sameSetting (x y : ConfigSetting) : Bool :=
  match x, y with
  | .repair p _, .repair q _ => p == q
  | .ctxDefault p, .ctxDefault q => (paramNums p).head? == (paramNums q).head?
  | _, _ => settingType x == settingType y

/-- The result of a record write: 0, or the check that refuses it. -/
def recordCheck (s : State) (x : ConfigRecord) : Option Nat :=
  firstRefused 1 [signedOk x, decide (Assoc.getD s.service.counters (settingType x.setting) 0 ≤ x.counter), settingOk x.setting]

/-- Accepts a record: it is in flash, and in force after the next reset. -/
def acceptRecord (s : State) (x : ConfigRecord) : State :=
  { s with service := { s.service with
      records := s.service.records.filter (fun y => !sameSetting y x.setting) ++ [x.setting]
      counters := Assoc.set s.service.counters (settingType x.setting) x.counter } }

/-- WRITE_CONFIG_RECORD (R431): a record that is refused is reported. -/
def execWriteConfigRecord (r : Req) (x : ConfigRecord) (s : State) : Out :=
  match recordCheck s x with
  | some n => .next (mgmtAnswer (logEvent s 0x0D 0 none (srcNo 9 0) 0x07 (BitVec.ofNat 32 n)) r (BitVec.ofNat 8 n) 0 [])
  | none => .next (mgmtAnswer (acceptRecord s x) r 0 0 [])

/-! ### Sealing and rebasing (R434) -/

/-- Maps the aged words of bytes. -/
def mapAged (f : DWord → DWord) : List Byte → List Byte
  | a :: b :: c :: d :: e :: g :: h :: i :: bs => leBytes 8 (f (i ++ h ++ g ++ e ++ d ++ c ++ b ++ a : BitVec 64)).toNat ++ mapAged f bs
  | bs => bs

/-- Stamps of the aged words of bytes. -/
def stampsOf : List Byte → List (BitVec 16)
  | _ :: _ :: _ :: _ :: e :: g :: _ :: _ :: bs => (g ++ e : BitVec 16) :: stampsOf bs
  | _ => []

/-- The stamp of least or of greatest age. -/
def stampBy (step : BitVec 16) (oldest : Bool) (xs : List (BitVec 16)) : BitVec 16 :=
  (xs.foldl (fun m x => match m with
    | none => some x
    | some y => if (oldest && decide (step - y < step - x)) || (!oldest && decide (step - x < step - y)) then some x else some y) none).getD 0

/-- No launch of a context has started and not completed. -/
def atBoundary (s : State) (ctx : Nat) : Bool := s.launches.all (fun l => l.2.ctx != ctx || l.2.phase == .fetched)

/-- Rebases an aged word of age 2^13 or more (R60, R435). -/
def rebaseOld (step : BitVec 16) (L : Nat) (x : DWord) : DWord :=
  match sweepWord step L x with
  | some (y, _) => y
  | none => x

/-- The header of a sealed image before its tag (Table 21.7): HLEN 80, data from 64 KiB, tags after the data. -/
def sealHeader (aged : Bool) (imageId : BitVec 64) (nchunk : Nat) (hi lo step : BitVec 16) (L : Nat) : List Byte :=
  leBytes 4 0x5EA1ED00 ++ leBytes 4 0x10000 ++ leBytes 4 80 ++ leBytes 4 (if aged then 1 else 0) ++ leBytes 8 imageId.toNat
    ++ leBytes 4 nchunk ++ leBytes 4 0 ++ leBytes 8 65536 ++ leBytes 8 (65536 + 65536 * nchunk)
    ++ leBytes 2 lo.toNat ++ leBytes 2 hi.toNat ++ leBytes 4 step.toNat ++ leBytes 4 (256 * L) ++ leBytes 4 0

/-- The ciphertext of a 64 KiB chunk, line by line (R401). -/
def sealChunk (key : BitVec 512) (chunk : Nat) (pt : List Byte) : List Byte :=
  (rangeFrom 0 1024).flatMap (fun j =>
    leBytes 64 (Config.xtsEncrypt key (BitVec.ofNat 128 (chunk * 1024 + j))
      (BitVec.ofNat 512 (leNat ((pt.drop (64 * j)).take 64)))).toNat)

/-- A whole image: header and tag, zeros, chunks, tags. -/
def sealImage (s : State) (aged : Bool) (L : Nat) (skey mkey : Nat) (imageId : BitVec 64) (step : BitVec 16) (nchunk : Nat)
    (bs : List Byte) : List Byte :=
  let st := if aged then stampsOf bs else []
  let hd := sealHeader aged imageId nchunk (stampBy step false st) (stampBy step true st) step L
  let cts := (rangeFrom 0 nchunk).map (fun c => sealChunk (keyOf s skey) c ((bs.drop (65536 * c)).take 65536))
  let tag (m : List Byte) : List Byte := leBytes 16 (Config.hmacTag (keyOf s mkey) m).toNat
  hd ++ tag hd ++ leBytes (65536 - 80) 0 ++ cts.flatten ++ (cts.mapIdx (fun c ct => tag (tagBytes imageId c ct))).flatten

/-- The range as sealed: an aged object's old words rebased first, in memory too. -/
def sealSource (s : State) (ctx obj off n : Nat) : Option (State × List Byte) :=
  match objEntry s ctx obj, fwRead s ctx obj off n with
  | some e, some bs =>
    if objAged e then
      let bs := mapAged (rebaseOld ((stepOf s ctx).extractLsb' 0 16) (objL e).toNat) bs
      (fwWrite s ctx obj off bs).map (fun s => (s, bs))
    else some (s, bs)
  | _, _ => none

/-- The whole effect of sealing a range. -/
def sealTo (s : State) (ctx obj off nchunk skey mkey dstObj dstOff : Nat) (imageId : BitVec 64) : Option State :=
  match sealSource s ctx obj off (65536 * nchunk), objEntry s ctx obj with
  | some (s, bs), some e =>
    fwWrite s ctx dstObj dstOff
      (sealImage s (objAged e) (objL e).toNat skey mkey imageId ((stepOf s ctx).extractLsb' 0 16) nchunk bs)
  | _, _ => none

/-- SEAL_RANGE (R434): at a kernel boundary of the owning context. -/
def execSealRange (r : Req) (obj off nchunk skey mkey dstObj dstOff : Nat) (imageId : BitVec 64) (s : State) : Out :=
  if !atBoundary s r.ctx || objLocked s r.ctx obj || objLocked s r.ctx dstObj then .next s
  else
    manage s r [(ctxOf s r.ctx).isSome, decide (off % 64 = 0 ∧ dstOff % 65536 = 0 ∧ nchunk < 2 ^ 32), keyIs s r.ctx skey .xts,
        keyIs s r.ctx mkey .hmac, (sealTo s r.ctx obj off nchunk skey mkey dstObj dstOff imageId).isSome] fun s =>
      ((sealTo s r.ctx obj off nchunk skey mkey dstObj dstOff imageId).getD s, 0, [])

/-- Adds to the stamp of an aged word; its reserved bits are written 0 (R7). -/
def addStamp (d : BitVec 16) (x : DWord) : DWord :=
  0#16 ++ (x.extractLsb' 32 16 + d) ++ x.extractLsb' 0 32

/-- The whole effect of rebasing a range. -/
def rebaseTo (s : State) (ctx obj off n : Nat) (sstep : BitVec 16) : Option State :=
  match fwRead s ctx obj off n with
  | none => none
  | some bs => fwWrite s ctx obj off (mapAged (addStamp ((stepOf s ctx).extractLsb' 0 16 - sstep)) bs)

/-- REBASE_STAMPS (R434): every stamp of the range moves by STEP − SSTEP. -/
def execRebaseStamps (r : Req) (obj off len : Nat) (sstep : BitVec 16) (s : State) : Out :=
  if objLocked s r.ctx obj then .next s else
  manage s r [(ctxOf s r.ctx).isSome, decide (off % 8 = 0 ∧ len % 8 = 0),
      (match objEntry s r.ctx obj with | some e => objAged e | none => false),
      (rebaseTo s r.ctx obj off len sstep).isSome] fun s =>
    ((rebaseTo s r.ctx obj off len sstep).getD s, 0, [])

/-! ### Self-test on request (R418) -/

/-- LANE_SELF_TEST (R418). -/
def execLaneSelfTest (r : Req) (cluster : Nat) (s : State) : Out :=
  manage s r [decide (cluster < Config.numClusters), noThreads s cluster] fun s => (testClusters s [cluster], 0, [])

end Sys2Proof.Machine
end

