-- ==== Sys2Proof/Machine/Sys.lean ====
section
/-! DEFINITION. The SYS class (R121 to R123): ERET, ERET.SKIP, TINFO, UDF. -/

namespace Sys2Proof.Machine

open Sys2Proof

/-- ERET and ERET.SKIP: ILLOP outside a handler, and with CALLO entries of the handler still on the stack. Where the handler
has left an interrupted overlay and that overlay has left the store, the thread first waits for it (log 93). -/
def eretOp (h : Hdr) (skip : Bool) (w : IWord) (s : State) : Out :=
  guarded h s fun x =>
    match x.thr.trap with
    | none => illop s x w 0x03
    | some r =>
      if x.thr.stack.length ≠ r.stack.length + 1 then illop s x w 0x04
      else if x.thr.stack.tail = r.stack then .next (eretTo h skip s x r)
      else
        match startLoads x.coreId x.blk.ctx x.blk.launch r.stack.dedup s with
        | (s, _, some (sub, id)) => ovmiss s x sub id 0
        | (s, [], none) => .next (eretTo h skip s x r)
        | (s, ids, none) => .next (setThread s x.tid { x.thr with status := .parkedLoad ids (.call 0) })

/-- ERET (R123). -/
def execEret (h : Hdr) (s : State) : Out := eretOp h false (encode (.eret h)) s

/-- ERET.SKIP (R123). -/
def execEretSkip (h : Hdr) (s : State) : Out := eretOp h true (encode (.eretSkip h)) s

/-- TINFO (R121): 0 outside a handler. -/
def execTinfo (h : Hdr) (word : BitVec 3) (d : VReg) (s : State) : Out :=
  guarded h s fun x =>
    let w := match x.thr.trap with
      | some r => r.word word.toNat
      | none => 0
    goOn h s x (wrV s.cycle x.thr d w 2)

/-- UDF: ILLOP whatever its fields hold and whatever its guard reads (R86, R123). -/
def execUdf (raw : IWord) (s : State) : Out :=
  match curCx s with
  | none => .refused .noThread
  | some x => illop s x raw 0x00

end Sys2Proof.Machine
end

