-- ==== Sys2Proof/Machine/Dispatch.lean ====
section
/-! DEFINITION. The one match from an instruction or event to its meaning. -/

namespace Sys2Proof.Machine

open Sys2Proof

def exec (i : Instr) (s : State) : Host.Outcome State Fault Refusal :=
  match i with
  | .nop h => Sys2Proof.Machine.execNop h s
  | .bra h off => Sys2Proof.Machine.execBra h off s
  | .brx h a => Sys2Proof.Machine.execBrx h a s
  | .call h d off => Sys2Proof.Machine.execCall h d off s
  | .ret h a => Sys2Proof.Machine.execRet h a s
  | .callo h d o entry => Sys2Proof.Machine.execCallo h d o entry s
  | .jmpo h o entry => Sys2Proof.Machine.execJmpo h o entry s
  | .exit h => Sys2Proof.Machine.execExit h s
  | .yield h => Sys2Proof.Machine.execYield h s
  | .trap h code => Sys2Proof.Machine.execTrap h code s
  | .bkpt h code => Sys2Proof.Machine.execBkpt h code s
  | .twait h a => Sys2Proof.Machine.execTwait h a s
  | .ovld h d o => Sys2Proof.Machine.execOvld h d o s
  | .ovrel h o => Sys2Proof.Machine.execOvrel h o s
  | .ovq h d o => Sys2Proof.Machine.execOvq h d o s
  | .iadd h d a b => Sys2Proof.Machine.execIadd h d a b s
  | .isub h d a b => Sys2Proof.Machine.execIsub h d a b s
  | .imul h d a b => Sys2Proof.Machine.execImul h d a b s
  | .imulh h ns d a b => Sys2Proof.Machine.execImulh h ns d a b s
  | .imulw h ns d a b => Sys2Proof.Machine.execImulw h ns d a b s
  | .imad h ns d a b c => Sys2Proof.Machine.execImad h ns d a b c s
  | .imin h ns d a b => Sys2Proof.Machine.execImin h ns d a b s
  | .imax h ns d a b => Sys2Proof.Machine.execImax h ns d a b s
  | .iabs h d a => Sys2Proof.Machine.execIabs h d a s
  | .iadds h ns d a b => Sys2Proof.Machine.execIadds h ns d a b s
  | .isubs h ns d a b => Sys2Proof.Machine.execIsubs h ns d a b s
  | .and h d a b => Sys2Proof.Machine.execAnd h d a b s
  | .or h d a b => Sys2Proof.Machine.execOr h d a b s
  | .xor h d a b => Sys2Proof.Machine.execXor h d a b s
  | .andn h d a b => Sys2Proof.Machine.execAndn h d a b s
  | .shl h d a b => Sys2Proof.Machine.execShl h d a b s
  | .shr h d a b => Sys2Proof.Machine.execShr h d a b s
  | .sar h d a b => Sys2Proof.Machine.execSar h d a b s
  | .bfe h ns d a b => Sys2Proof.Machine.execBfe h ns d a b s
  | .bfi h d a b c => Sys2Proof.Machine.execBfi h d a b c s
  | .popc h d a => Sys2Proof.Machine.execPopc h d a s
  | .clz h d a => Sys2Proof.Machine.execClz h d a s
  | .brev h d a => Sys2Proof.Machine.execBrev h d a s
  | .iadd64 h d a b => Sys2Proof.Machine.execIadd64 h d a b s
  | .isub64 h d a b => Sys2Proof.Machine.execIsub64 h d a b s
  | .shl64 h d a b => Sys2Proof.Machine.execShl64 h d a b s
  | .shr64 h d a b => Sys2Proof.Machine.execShr64 h d a b s
  | .sar64 h d a b => Sys2Proof.Machine.execSar64 h d a b s
  | .cmpi h ns cmp comb d a b => Sys2Proof.Machine.execCmpi h ns cmp comb d a b s
  | .cmpf h ftz nan cmp comb d a b => Sys2Proof.Machine.execCmpf h ftz nan cmp comb d a b s
  | .cmpd h ftz nan cmp comb d a b => Sys2Proof.Machine.execCmpd h ftz nan cmp comb d a b s
  | .cmph h ftz nan cmp comb d a b => Sys2Proof.Machine.execCmph h ftz nan cmp comb d a b s
  | .pfun h d a b c table => Sys2Proof.Machine.execPfun h d a b c table s
  | .sel h d a b c => Sys2Proof.Machine.execSel h d a b c s
  | .mov h d a => Sys2Proof.Machine.execMov h d a s
  | .movi h d x => Sys2Proof.Machine.execMovi h d x s
  | .ptov h d => Sys2Proof.Machine.execPtov h d s
  | .vtop h a b => Sys2Proof.Machine.execVtop h a b s
  | .srd h d idx => Sys2Proof.Machine.execSrd h d idx s
  | .swr h idx a => Sys2Proof.Machine.execSwr h idx a s
  | .ballot h mask d a => Sys2Proof.Machine.execBallot h mask d a s
  | .vote h mask op d a => Sys2Proof.Machine.execVote h mask op d a s
  | .shfl h mask op d a b => Sys2Proof.Machine.execShfl h mask op d a b s
  | .wred h mask op d a => Sys2Proof.Machine.execWred h mask op d a s
  | .wscan h mask op excl d a => Sys2Proof.Machine.execWscan h mask op excl d a s
  | .matchEq h mask d a => Sys2Proof.Machine.execMatchEq h mask d a s
  | .wsync h mask => Sys2Proof.Machine.execWsync h mask s
  | .fadd h m d a b => Sys2Proof.Machine.execFadd h m d a b s
  | .fsub h m d a b => Sys2Proof.Machine.execFsub h m d a b s
  | .fmul h m d a b => Sys2Proof.Machine.execFmul h m d a b s
  | .ffma h m d a b c => Sys2Proof.Machine.execFfma h m d a b c s
  | .fmin h m d a b => Sys2Proof.Machine.execFmin h m d a b s
  | .fmax h m d a b => Sys2Proof.Machine.execFmax h m d a b s
  | .frcp h m d a => Sys2Proof.Machine.execFrcp h m d a s
  | .frsq h m d a => Sys2Proof.Machine.execFrsq h m d a s
  | .fsqrt h m d a => Sys2Proof.Machine.execFsqrt h m d a s
  | .fdiv h m d a b => Sys2Proof.Machine.execFdiv h m d a b s
  | .fexp2 h m d a => Sys2Proof.Machine.execFexp2 h m d a s
  | .flog2 h m d a => Sys2Proof.Machine.execFlog2 h m d a s
  | .frnd h m d a => Sys2Proof.Machine.execFrnd h m d a s
  | .fcls h m d a => Sys2Proof.Machine.execFcls h m d a s
  | .dadd h m d a b => Sys2Proof.Machine.execDadd h m d a b s
  | .dmul h m d a b => Sys2Proof.Machine.execDmul h m d a b s
  | .dfma h m d a b c => Sys2Proof.Machine.execDfma h m d a b c s
  | .dmin h m d a b => Sys2Proof.Machine.execDmin h m d a b s
  | .dmax h m d a b => Sys2Proof.Machine.execDmax h m d a b s
  | .ddiv h m d a b => Sys2Proof.Machine.execDdiv h m d a b s
  | .dsqrt h m d a => Sys2Proof.Machine.execDsqrt h m d a s
  | .hadd2 h m d a b => Sys2Proof.Machine.execHadd2 h m d a b s
  | .hmul2 h m d a b => Sys2Proof.Machine.execHmul2 h m d a b s
  | .hfma2 h m d a b c => Sys2Proof.Machine.execHfma2 h m d a b c s
  | .hmin2 h m d a b => Sys2Proof.Machine.execHmin2 h m d a b s
  | .hmax2 h m d a b => Sys2Proof.Machine.execHmax2 h m d a b s
  | .badd2 h m d a b => Sys2Proof.Machine.execBadd2 h m d a b s
  | .bmul2 h m d a b => Sys2Proof.Machine.execBmul2 h m d a b s
  | .bfma2 h m d a b c => Sys2Proof.Machine.execBfma2 h m d a b c s
  | .bmin2 h m d a b => Sys2Proof.Machine.execBmin2 h m d a b s
  | .bmax2 h m d a b => Sys2Proof.Machine.execBmax2 h m d a b s
  | .cvt h m dfmt sfmt su du d a => Sys2Proof.Machine.execCvt h m dfmt sfmt su du d a s
  | .cvt2 h m dfmt sfmt d a b => Sys2Proof.Machine.execCvt2 h m dfmt sfmt d a b s
  | .qe4 h m d a b => Sys2Proof.Machine.execQe4 h m d a b s
  | .qe2 h m hi d a b c => Sys2Proof.Machine.execQe2 h m hi d a b c s
  | .dq h m dfmt sfmt el d a b => Sys2Proof.Machine.execDq h m dfmt sfmt el d a b s
  | .bscale h fmt spec d a => Sys2Proof.Machine.execBscale h fmt spec d a s
  | .ld h m d x => Sys2Proof.Machine.execLd h m d x s
  | .st h m x c => Sys2Proof.Machine.execSt h m x c s
  | .ldl h m d x => Sys2Proof.Machine.execLdl h m d x s
  | .stl h m x c => Sys2Proof.Machine.execStl h m x c s
  | .lda h wid d x => Sys2Proof.Machine.execLda h wid d x s
  | .sta h wid x c => Sys2Proof.Machine.execSta h wid x c s
  | .ldage h d x => Sys2Proof.Machine.execLdage h d x s
  | .ldc h d x => Sys2Proof.Machine.execLdc h d x s
  | .stc h x c => Sys2Proof.Machine.execStc h x c s
  | .prf h x => Sys2Proof.Machine.execPrf h x s
  | .cst h m x c mask => Sys2Proof.Machine.execCst h m x c mask s
  | .xld h m d x mask => Sys2Proof.Machine.execXld h m d x mask s
  | .capoff h d a b => Sys2Proof.Machine.execCapoff h d a b s
  | .capadd h d a b => Sys2Proof.Machine.execCapadd h d a b s
  | .capnar h d a b => Sys2Proof.Machine.execCapnar h d a b s
  | .caprgt h d a b => Sys2Proof.Machine.execCaprgt h d a b s
  | .capget h fld d a => Sys2Proof.Machine.execCapget h fld d a s
  | .capchk h d a b => Sys2Proof.Machine.execCapchk h d a b s
  | .capmov h d a => Sys2Proof.Machine.execCapmov h d a s
  | .atom h m d x c => Sys2Proof.Machine.execAtom h m d x c s
  | .atomf h m d x c => Sys2Proof.Machine.execAtomf h m d x c s
  | .cas h wid ord d x c => Sys2Proof.Machine.execCas h wid ord d x c s
  | .cas128 h ord d x c => Sys2Proof.Machine.execCas128 h ord d x c s
  | .red h m x c => Sys2Proof.Machine.execRed h m x c s
  | .redf h m x c => Sys2Proof.Machine.execRedf h m x c s
  | .atoml h m d x c => Sys2Proof.Machine.execAtoml h m d x c s
  | .casl h wid ord d x c => Sys2Proof.Machine.execCasl h wid ord d x c s
  | .commitT h d => Sys2Proof.Machine.execCommitT h d s
  | .commitB h d => Sys2Proof.Machine.execCommitB h d s
  | .commitG h d => Sys2Proof.Machine.execCommitG h d s
  | .commitP h d group => Sys2Proof.Machine.execCommitP h d group s
  | .dage h x c => Sys2Proof.Machine.execDage h x c s
  | .stepinc h d => Sys2Proof.Machine.execStepinc h d s
  | .dqry h d => Sys2Proof.Machine.execDqry h d s
  | .cpy h t dst src cnt rsc => Sys2Proof.Machine.execCpy h t dst src cnt rsc s
  | .cpyRing h t ring scap soff cnt rsc => Sys2Proof.Machine.execCpyRing h t ring scap soff cnt rsc s
  | .cpyg h t dst scap soff idx cnt esz rsc => Sys2Proof.Machine.execCpyg h t dst scap soff idx cnt esz rsc s
  | .cpys h t comb dcap doff src idx cnt esz rsc => Sys2Proof.Machine.execCpys h t comb dcap doff src idx cnt esz rsc s
  | .cpyq h t a q p => Sys2Proof.Machine.execCpyq h t a q p s
  | .rinit h x c => Sys2Proof.Machine.execRinit h x c s
  | .rres h d x => Sys2Proof.Machine.execRres h d x s
  | .rpub h x c => Sys2Proof.Machine.execRpub h x c s
  | .rwait h d x => Sys2Proof.Machine.execRwait h d x s
  | .rrel h x c => Sys2Proof.Machine.execRrel h x c s
  | .binit h x c => Sys2Proof.Machine.execBinit h x c s
  | .barv h d x => Sys2Proof.Machine.execBarv h d x s
  | .bwait h x c => Sys2Proof.Machine.execBwait h x c s
  | .barw h d x => Sys2Proof.Machine.execBarw h d x s
  | .fence h kind scope => Sys2Proof.Machine.execFence h kind scope s
  | .grow h d a => Sys2Proof.Machine.execGrow h d a s
  | .mma h fmt prec o => Sys2Proof.Machine.execMma h fmt prec o s
  | .mmb h fmt prec o => Sys2Proof.Machine.execMmb h fmt prec o s
  | .mscale h fmt sa sb o => Sys2Proof.Machine.execMscale h fmt sa sb o s
  | .mwait h d q => Sys2Proof.Machine.execMwait h d q s
  | .plane h fmt tr sg q a b mask => Sys2Proof.Machine.execPlane h fmt tr sg q a b mask s
  | .azero h p64 q a mask => Sys2Proof.Machine.execAzero h p64 q a mask s
  | .acvt h fmt sg q a b mask => Sys2Proof.Machine.execAcvt h fmt sg q a b mask s
  | .amovOut h p64 q a b mask => Sys2Proof.Machine.execAmovOut h p64 q a b mask s
  | .amovIn h p64 q a b mask => Sys2Proof.Machine.execAmovIn h p64 q a b mask s
  | .fenceo h => Sys2Proof.Machine.execFenceo h s
  | .bld h fmt sg d x => Sys2Proof.Machine.execBld h fmt sg d x s
  | .eret h => Sys2Proof.Machine.execEret h s
  | .eretSkip h => Sys2Proof.Machine.execEretSkip h s
  | .tinfo h word d => Sys2Proof.Machine.execTinfo h word d s
  | .udf raw => Sys2Proof.Machine.execUdf raw s
  | .regroup part => Sys2Proof.Machine.execRegroup part s
  | .threadAged t => Sys2Proof.Machine.execThreadAged t s
  | .yieldExpiry t => Sys2Proof.Machine.execYieldExpiry t s
  | .loadResultLand t k => Sys2Proof.Machine.execLoadResultLand t k s
  | .xpipeComplete t k => Sys2Proof.Machine.execXpipeComplete t k s
  | .overlayLoadComplete core k => Sys2Proof.Machine.execOverlayLoadComplete core k s
  | .overlayRoomWaitEnd core => Sys2Proof.Machine.execOverlayRoomWaitEnd core s
  | .copyChunkPart engine req chunk => Sys2Proof.Machine.execCopyChunkPart engine req chunk s
  | .copyComplete engine req => Sys2Proof.Machine.execCopyComplete engine req s
  | .matrixOpStart slot wave q => Sys2Proof.Machine.execMatrixOpStart slot wave q s
  | .matrixOpComplete slot wave q => Sys2Proof.Machine.execMatrixOpComplete slot wave q s
  | .faultRecordPost cluster k => Sys2Proof.Machine.execFaultRecordPost cluster k s
  | .faultResume t => Sys2Proof.Machine.execFaultResume t s
  | .stgfullTimeout t => Sys2Proof.Machine.execStgfullTimeout t s
  | .stagingRoomFreed t => Sys2Proof.Machine.execStagingRoomFreed t s
  | .markerForm commit => Sys2Proof.Machine.execMarkerForm commit s
  | .logDrain core k => Sys2Proof.Machine.execLogDrain core k s
  | .slotBindingNotice die slot unbind => Sys2Proof.Machine.execSlotBindingNotice die slot unbind s
  | .binShip die path => Sys2Proof.Machine.execBinShip die path s
  | .remoteRebin die bin => Sys2Proof.Machine.execRemoteRebin die bin s
  | .binStage chan k stack => Sys2Proof.Machine.execBinStage chan k stack s
  | .markerApply commit chan => Sys2Proof.Machine.execMarkerApply commit chan s
  | .commitComplete commit => Sys2Proof.Machine.execCommitComplete commit s
  | .packetFetch queue argObj => Sys2Proof.Machine.execPacketFetch queue argObj s
  | .launchStart launch lnum => Sys2Proof.Machine.execLaunchStart launch lnum s
  | .dispatchPass launch pl => Sys2Proof.Machine.execDispatchPass launch pl s
  | .reserving launch => Sys2Proof.Machine.execReserving launch s
  | .blockStart slot => Sys2Proof.Machine.execBlockStart slot s
  | .fatalTrapEnd launch => Sys2Proof.Machine.execFatalTrapEnd launch s
  | .launchComplete launch => Sys2Proof.Machine.execLaunchComplete launch s
  | .doorbellLaunchQueue fn k x => Sys2Proof.Machine.execDoorbellLaunchQueue fn k x s
  | .doorbellBulkQueue fn k x => Sys2Proof.Machine.execDoorbellBulkQueue fn k x s
  | .doorbellFaultQueue fn k x => Sys2Proof.Machine.execDoorbellFaultQueue fn k x s
  | .doorbellUnbound fn k x => Sys2Proof.Machine.execDoorbellUnbound fn k x s
  | .registerBulkQueue r x => Sys2Proof.Machine.execRegisterBulkQueue r x s
  | .registerStorageWindow r x => Sys2Proof.Machine.execRegisterStorageWindow r x s
  | .fillApertureWindow r k obj off => Sys2Proof.Machine.execFillApertureWindow r k obj off s
  | .registerPodGroup r group members => Sys2Proof.Machine.execRegisterPodGroup r group members s
  | .registerBucket r x => Sys2Proof.Machine.execRegisterBucket r x s
  | .resolve r obj page => Sys2Proof.Machine.execResolve r obj page s
  | .mintCapability r x => Sys2Proof.Machine.execMintCapability r x s
  | .publishVersion r x => Sys2Proof.Machine.execPublishVersion r x s
  | .registerFaultQueue r addr logn => Sys2Proof.Machine.execRegisterFaultQueue r addr logn s
  | .registerLaunchQueue r addr logn => Sys2Proof.Machine.execRegisterLaunchQueue r addr logn s
  | .mailboxRefused r code => Sys2Proof.Machine.execMailboxRefused r code s
  | .bulkPacketFetch queue => Sys2Proof.Machine.execBulkPacketFetch queue s
  | .bulkPacketComplete engine req => Sys2Proof.Machine.execBulkPacketComplete engine req s
  | .hostApertureRead fn win off n => Sys2Proof.Machine.execHostApertureRead fn win off n s
  | .hostApertureWrite fn win off bytes => Sys2Proof.Machine.execHostApertureWrite fn win off bytes s
  | .hostReadTimeout k => Sys2Proof.Machine.execHostReadTimeout k s
  | .storageWindowWrite fn off bytes => Sys2Proof.Machine.execStorageWindowWrite fn off bytes s
  | .storageWindowRead fn off n => Sys2Proof.Machine.execStorageWindowRead fn off n s
  | .flitReceive port flit => Sys2Proof.Machine.execFlitReceive port flit s
  | .flitRetransmit port => Sys2Proof.Machine.execFlitRetransmit port s
  | .linkDown port routes => Sys2Proof.Machine.execLinkDown port routes s
  | .heartbeatSend group => Sys2Proof.Machine.execHeartbeatSend group s
  | .memberFailed group dev => Sys2Proof.Machine.execMemberFailed group dev s
  | .bucketStep bucket => Sys2Proof.Machine.execBucketStep bucket s
  | .bucketExchangeStart bucket => Sys2Proof.Machine.execBucketExchangeStart bucket s
  | .bucketExchangeDone bucket parts => Sys2Proof.Machine.execBucketExchangeDone bucket parts s
  | .invalidation ctx e => Sys2Proof.Machine.execInvalidation ctx e s
  | .migration ctx obj page newFrame => Sys2Proof.Machine.execMigration ctx obj page newFrame s
  | .refreshWindow die => Sys2Proof.Machine.execRefreshWindow die s
  | .refreshWindowEnd die => Sys2Proof.Machine.execRefreshWindowEnd die s
  | .preemptRequest ctx clusters => Sys2Proof.Machine.execPreemptRequest ctx clusters s
  | .runonExpiry t => Sys2Proof.Machine.execRunonExpiry t s
  | .blockSave slot => Sys2Proof.Machine.execBlockSave slot s
  | .contextSwitch cluster ctx => Sys2Proof.Machine.execContextSwitch cluster ctx s
  | .ptimeout ctx => Sys2Proof.Machine.execPtimeout ctx s
  | .swapOut slot => Sys2Proof.Machine.execSwapOut slot s
  | .swapAbandon slot => Sys2Proof.Machine.execSwapAbandon slot s
  | .blockResume slot cluster => Sys2Proof.Machine.execBlockResume slot cluster s
  | .hang ctx => Sys2Proof.Machine.execHang ctx s
  | .contextCreate ctx x => Sys2Proof.Machine.execContextCreate ctx x s
  | .contextDestroy ctx => Sys2Proof.Machine.execContextDestroy ctx s
  | .queueRemove kind queue => Sys2Proof.Machine.execQueueRemove kind queue s
  | .overlayRegister ctx x => Sys2Proof.Machine.execOverlayRegister ctx x s
  | .launchReplay launch => Sys2Proof.Machine.execLaunchReplay launch s
  | .timingReplay part => Sys2Proof.Machine.execTimingReplay part s
  | .patrolScrub addr => Sys2Proof.Machine.execPatrolScrub addr s
  | .deviceReset => Sys2Proof.Machine.execDeviceReset s
  | .firmwareBoot image sig version => Sys2Proof.Machine.execFirmwareBoot image sig version s
  | .powerLimit code reading gate => Sys2Proof.Machine.execPowerLimit code reading gate s
  | .thermalThrottle reading gate => Sys2Proof.Machine.execThermalThrottle reading gate s
  | .thermalTrip reading => Sys2Proof.Machine.execThermalTrip reading s
  | .tripResetTimeout => Sys2Proof.Machine.execTripResetTimeout s
  | .readEventLog r index => Sys2Proof.Machine.execReadEventLog r index s
  | .readSensors r => Sys2Proof.Machine.execReadSensors r s
  | .setPlim r mW => Sys2Proof.Machine.execSetPlim r mW s
  | .importKey r slot kind wrapped => Sys2Proof.Machine.execImportKey r slot kind wrapped s
  | .zeroKeySlot r slot => Sys2Proof.Machine.execZeroKeySlot r slot s
  | .attestationReport r nonce => Sys2Proof.Machine.execAttestationReport r nonce s
  | .writeConfigRecord r x => Sys2Proof.Machine.execWriteConfigRecord r x s
  | .sealRange r obj off nchunk skey mkey dstObj dstOff imageId => Sys2Proof.Machine.execSealRange r obj off nchunk skey mkey dstObj dstOff imageId s
  | .rebaseStamps r obj off len sstep => Sys2Proof.Machine.execRebaseStamps r obj off len sstep s
  | .laneSelfTest r cluster => Sys2Proof.Machine.execLaneSelfTest r cluster s
  | .readRepairMap r => Sys2Proof.Machine.execReadRepairMap r s
  | .readStaging r => Sys2Proof.Machine.execReadStaging r s
  | .managementRefused r code => Sys2Proof.Machine.execManagementRefused r code s
  | .throttleRelease reading => Sys2Proof.Machine.execThrottleRelease reading s
  | .correctedErrorEvent count store => Sys2Proof.Machine.execCorrectedErrorEvent count store s
  | .contextRecordUpdate ctx p => Sys2Proof.Machine.execContextRecordUpdate ctx p s

end Sys2Proof.Machine
end

