-- ==== Sys2Proof/Machine/Weak.lean ====
section
/-! DEFINITION. Plain accesses of one thread to different locations, which program order does not order (R308, R311, R315): a
load that is performed until it returns, its 64-bit halves apart (R150, R324), and a store that is performed after later accesses
of its thread. -/

namespace Sys2Proof.Machine

open Sys2Proof

/-- A load or a store: which, whether it carries an acquire or a release (R309), its object or the scratchpad, its offset, its size
and its cache hint. -/
structure OwnAccess where
  store : Bool
  ordered : Bool
  obj : Option Nat
  off : Nat
  size : Nat
  ch : CacheHint

/-- The access of an LD, ST, LDL or STL. -/
def ownAccess (s : State) (t : Thread) : Instr → Option OwnAccess
  | .ld _ m _ x => some ⟨false, m.acq.isSome, some (rdA s t x.a).obj, (capOff s t x).toNat, m.wid.bytes, m.ch⟩
  | .st _ m x _ => some ⟨true, m.rel.isSome, some (rdA s t x.a).obj, (capOff s t x).toNat, m.wid.bytes, m.ch⟩
  | .ldl _ m _ x => some ⟨false, m.acq.isSome, none, (localOff s t x).toNat, m.wid.bytes, m.ch⟩
  | .stl _ m x _ => some ⟨true, m.rel.isSome, none, (localOff s t x).toNat, m.wid.bytes, m.ch⟩
  | _ => none

/-- Two accesses meet in a byte. -/
def OwnAccess.meets (a : OwnAccess) (obj : Option Nat) (off n : Nat) : Bool :=
  a.obj == obj && decide (off < a.off + a.size) && decide (a.off < off + n)

/-- Before the access an earlier load of the thread stands as performed: they meet, the access carries an order, or both read the
scratchpad, whose reads are performed in program order (R308 edges 1 to 3, R313, R315). -/
def OwnAccess.fixes (a : OwnAccess) (r : LateRead) : Bool :=
  a.ordered || a.meets r.obj r.off r.wid.bytes || (a.obj.isNone && !a.store && r.obj.isNone)

/-- Before the access the thread's late store is performed: they meet, or the access is a release (R308 edges 1 and 2). -/
def OwnAccess.forces (a : OwnAccess) (w : LateStore) : Bool := (a.store && a.ordered) || a.meets w.obj w.off w.bytes.length

/-- An instruction of the INT, FLT, CNV or PRD class makes no access. -/
def noAccess (i : Instr) : Bool := [1, 2, 4, 5].contains ((opOf (encode i)).extractLsb' 8 4).toNat

/-- The loads of a thread that satisfy a predicate stand as performed. -/
def fixReads (s : State) (tid : ThreadId) (t : Thread) (p : LateRead → Bool) : State :=
  if t.late.reads.any p then
    modThread s tid (fun t => { t with late := { t.late with reads := t.late.reads.filter (fun r => !p r) } })
  else s

/-- What must be performed before a thread executes an instruction (R308). Before any that is no LD, ST, LDL or STL and may order
accesses or lay out the scratchpad, that is every load of the thread and every late store of the block, which is always allowed
(log 5). -/
def orderSlot (s : State) (tid : ThreadId) (i : Instr) : State :=
  match threadOf s tid with
  | none => s
  | some t =>
    if !guardOf s t (hdrOf (encode i)) then s
    else
      match ownAccess s t i with
      | some a => fixReads (if t.late.store.any a.forces then storeNow s tid else s) tid t a.fixes
      | none =>
        if noAccess i then fixReads s tid t (fun r => i.writes.contains (vByte r.reg))
        else storesNow (fun k _ => k.slot == tid.slot) (fixReads s tid t (fun _ => true))

/-- A store that executes writes bytes of memory: it forms no record, and no migration holds writes of its page. -/
def writesBytes (s : State) (b : Block) (a : OwnAccess) : Bool :=
  match a.obj with
  | none => true
  | some o =>
    match translate s b.ctx (some b.launch) ⟨o, a.off, .write, false, false⟩ with
    | (s, .ok m recd) => !recd && (migrationAt s m.peAddr).isNone
    | _ => false

/-- The thread has executed a store that is performed late: it has gone on, and memory holds what it held. -/
def deferStore (s : State) (b after : Block) (tid : ThreadId) (u : Thread) (a : OwnAccess) (val : Nat) : State :=
  let u := { u with late := { u.late with delay := false, store := some ⟨s.cycle + Config.storeCycles, a.obj, a.off, leBytes a.size val, a.ch⟩ } }
  setBlock s tid.slot ({ b with order := after.order }.setThread tid.tidx u)

/-- After the execution of a slot: a plain load that went out may be performed until it returns, and a store of the thread is
performed late where the agenda has said so and none is. -/
def lateSlot (s : State) (tid : ThreadId) (i : Instr) (after : State) : State :=
  match blockOf s tid.slot, blockOf after tid.slot, threadOf s tid, threadOf after tid with
  | some b, some c, some t, some u =>
    if u.pc = nextSlot t.pc ∧ u.stack = t.stack ∧ u.trap = t.trap ∧ guardOf s t (hdrOf (encode i)) then
      match i, ownAccess s t i with
      | .ld _ m d _, some a | .ldl _ m d _, some a =>
        if a.ordered then after
        else
          modThread after tid (fun t => { t with late := { t.late with
            reads := t.late.reads.filter (fun r => r.reg != d) ++ [⟨d, m.wid, m.sx, a.obj, a.off⟩] } })
      | .st _ m _ v, some a | .stl _ m _ v, some a =>
        if t.late.delay && t.late.store.isNone && writesBytes s b a then deferStore s b c tid u a (dataOf s t m.wid v) else after
      | _, _ => after
    else after
  | _, _, _, _ => after

/-! ### A load that is performed after it issued -/

/-- What the location of a load holds now: nothing where its page cannot be read any more, or never changes while the load is out. -/
def readAgain (s : State) (b : Block) (tid : ThreadId) (r : LateRead) : Option (State × List Byte × (Nat → Bool)) :=
  match r.obj with
  | none => some (s, b.spad.readBytes r.off r.wid.bytes, fun i => spadPoisoned b (r.off + i))
  | some o =>
    match translate s b.ctx (some b.launch) ⟨o, r.off, .read, false, false⟩ with
    | (s, .ok m _) =>
      if m.loc.ws then none
      else
        let (s, l) := serve s (coreIdOf b tid) b.ctx o r.off r.wid.bytes m .nc false
        some (s, l.bytes, l.bad)
    | _ => none

/-- The registers of one 64-bit half take what the location holds now. -/
def mixHalf (half : Nat) (old new : List (VReg × Word × Bool)) : List (VReg × Word × Bool) :=
  (List.zip old new).mapIdx (fun k x => if k / 2 = half then x.2 else x.1)

/-- A half of a load that has not returned is performed now. -/
def readNow (s : State) (tid : ThreadId) (reg : VReg) (half : Nat) : State :=
  match blockOf s tid.slot, threadOf s tid with
  | some b, some t =>
    match t.late.reads.find? (fun r => r.reg == reg),
      t.pend.findIdx? (fun p => !p.xpipe && p.cap.isNone && p.vals.head?.any (fun x => x.1 == reg)) with
    | some r, some k =>
      match readAgain s b tid r with
      | some (s, bs, bad) =>
        modThread s tid (fun t => { t with pend := listModify t.pend k (fun p =>
          { p with vals := mixHalf half p.vals (loadVals r.reg r.wid r.sx bs bad) }) })
      | none => s
    | _, _ => s
  | _, _ => s

end Sys2Proof.Machine
end

