-- ==== Sys2Proof/Machine/Issue.lean ====
section
/-! DEFINITION. Issue: groups of slots of one thread (R79 to R82), instances (R238), bundles (R237), and what a partition issues
in a cycle (R81, R132, R239). -/

namespace Sys2Proof.Machine

open Sys2Proof

/-- Goes on from a next state; a stop stays. -/
def andThen (o : Out) (f : State → Out) : Out :=
  match o with
  | .next s => f s
  | o => o

/-! ### A group of one thread (R79 to R82) -/

/-- The thread has come to a wait before its slot could issue, and the slot has had no effect: it stalls, is held, or waits on a
token. An EXIT that waits for what the thread has issued has issued itself (R116). -/
def TStatus.preIssue : TStatus → Bool
  | .held _ => true
  | .stalled .exiting => false
  | .stalled _ => true
  | .waiting (.token _) => true
  | _ => false

/-- What a thread waits for at the same slot after an outcome, when its slot has not issued. A slot whose trap is fatal has
issued (R253). -/
def stayed (t : Thread) (tid : ThreadId) : Out → Option TStatus
  | .next s =>
    (match blockOf s tid.slot with
    | some b => (b.threads[tid.tidx]?).bind (fun u =>
        if u.pc = t.pc ∧ u.stack = t.stack ∧ u.trap = t.trap ∧ u.status.preIssue ∧ launchFlag s b (fun l => l.fatal.isNone)
        then some u.status else none)
    | none => none)
  | _ => none

/-- The group has ended, and the thread reads again what its registers hold; where it waits inside the group, it keeps what it read
when the group issued (R80, log 21). -/
def dropSnap (s : State) (tid : ThreadId) : State :=
  modThread s tid (fun t => match t.status with
    | .ready | .retired => { t with snap := none, stgOut := false }
    | _ => t)

/-- After the slots of a group: engine results that the thread has spoiled are undefined from now on (R214). -/
def endGroup (tid : ThreadId) (o : Out) : Out := andThen o (fun s => .next (settleSpoil (dropSnap s tid) tid))

/-- The tokens that an instruction reads or writes over are read or lost (R317). -/
def noteTokens (s : State) (tid : ThreadId) (i : Instr) : State :=
  modThread s tid (fun t => if guardOf s t (hdrOf (encode i)) then t.readTokens i.reads i.writes else t)

/-- A slot executes: what must be performed before it is, tokens it reads are noted, and its own access may be performed late. -/
def runSlot (tid : ThreadId) (i : Instr) (s : State) : Out :=
  let s := noteTokens (orderSlot s tid i) tid i
  andThen (exec i s) (fun u => .next (lateSlot s tid i u))

/-- What a slot waits for because of slots of its group before it: a destination that one of them made pending (R26, R84). -/
def slotWait (s : State) (tid : ThreadId) (l : Line) (j : Nat) : Option TStatus :=
  match blockOf s tid.slot with
  | none => none
  | some b => (b.threads[tid.tidx]?).bind (fun t => scoreWait s b tid t (lineSlot l j))

/-- The slots of a group, in order; `js` are the slots after i. A slot that traps, waits or leaves the line in
program order ends the group there (R82). -/
def runGroup (tid : ThreadId) (l : Line) (base : Nat) (first : Bool) (i : Nat) : List Nat → State → Out
  | js, s =>
    match blockOf s tid.slot with
    | none => .next s
    | some b =>
      match b.threads[tid.tidx]? with
      | none => .next s
      | some t =>
        match outcomeAt s b tid t base l (!first) i with
        | .error r => .next (takeTrap s tid r)
        | .ok x =>
          match js with
          | [] => runSlot tid x s
          | j :: js =>
            match runSlot tid x s with
            | .next s' =>
              match threadOf s' tid with
              | some t' =>
                if t'.status = .ready ∧ t'.pc = nextSlot t.pc ∧ t'.stack = t.stack then
                  match slotWait s' tid l j with
                  | some w => .next (modThread s' tid (fun t => t.hold s.cycle w))
                  | none => runGroup tid l base false j js s'
                else .next s'
              | none => .next s'
            | o => o

/-- The thread at a slot of its line. -/
def Thread.atSlot (t : Thread) (j : Nat) : Thread := { t with pc := (t.pc.extractLsb' 3 13) ++ BitVec.ofNat 3 j }

/-- A wait of a later slot that the slots before it have no part in: the group does not issue at all (R80). -/
def laterWait (s : State) (tid : ThreadId) (b : Block) (t : Thread) (base : Nat) (l : Line) (js : List Nat) : Option TStatus :=
  js.findSome? (fun j =>
    let u := t.atSlot j
    match outcomeAt s b tid u base l true j with
    | .ok x => stayed u tid (exec x (modThread s tid (fun t => t.atSlot j)))
    | .error _ => none)

/-- A thread enters its group: it passes the restart point that the group begins at, and the slots of a group read what it
holds now (R80). The point is passed before the first slot runs, so also where that slot then traps: R242 does not say
(log 47). -/
def enterGroup (s : State) (tid : ThreadId) (b : Block) (t : Thread) (point : Bool) (js : List Nat) : State :=
  let s := if point then passRestart s tid b t else s
  if 1 < js.length ∧ t.snap.isNone then modThread s tid (fun t => { t with snap := some { t.view with at? := some s.cycle } }) else s

/-- The group of slots a thread issues, from its slot on: whole, or not at all (R80). -/
def issueGroup (s : State) (tid : ThreadId) (b : Block) (t : Thread) (base : Nat) (l : Line) : Out :=
  let point := atRestart s b tid t base
  if arrives s b tid t then .next (drainArrive s tid b t)
  else
    match groupWait s b tid t l with
    | some w =>
      let s := if point && onCommit t w then passRestart s tid b t else s
      .next (modThread s tid (fun t => t.hold s.cycle w))
    | none =>
      match groupAt t l with
      | [] => .next s
      | i :: js =>
        let s1 := enterGroup s tid b t point (i :: js)
        match laterWait s1 tid b t base l js with
        | some w => .next (modThread s tid (fun t => t.hold s.cycle w))
        | none =>
          let o := endGroup tid (runGroup tid l base t.snap.isNone i js s1)
          match stayed t tid o with
          | some w => .next (modThread s tid (fun t => t.hold s.cycle w))
          | none => o

/-- One thread issues its next group, when it may. A slot that is not one of its overlay traps BRTGT (R111). -/
def issueThread (s0 : State) (tid : ThreadId) : Out :=
  let s := { s0 with freeCtr := s0.freeCtr + 1, cur := some tid }
  match blockOf s tid.slot with
  | none => .next s0
  | some b =>
    match b.threads[tid.tidx]? with
    | none => .next s0
    | some t =>
      if !mayIssue s b t then .next s0
      else if (lenOf s (coreIdOf b tid) b.ctx t.top).isNone then .next s0
      else
        match lineAt s b tid t with
        | none => .next (takeTrap s tid ⟨causeBrtgt, 0, t.pcWord, t.pcWord, 0⟩)
        | some (base, l) => issueGroup s tid b t base l

/-! ### Instances (R101, R238) -/

/-- A member of an instance enters its group and issues the slots before the instance's. -/
def memberPre (s : State) (l : Line) (base j : Nat) (tid : ThreadId) : Out :=
  match blockOf s tid.slot with
  | none => .next s
  | some b =>
    match b.threads[tid.tidx]? with
    | none => .next s
    | some t =>
      let js := groupAt t l
      let s := enterGroup s tid b t (atRestart s b tid t base) js
      match js.filter (fun k => decide (k < j)) with
      | [] => .next s
      | i :: pre => runGroup tid l base t.snap.isNone i pre (modThread s tid (fun t => { t with status := .ready }))

/-- A member stands at the instance's slot. -/
def atInstance (s : State) (j : Nat) (tid : ThreadId) : Bool :=
  (threadOf s tid).any (fun t => t.pc.extractLsb' 0 3 == BitVec.ofNat 3 j
    && (match t.status with | .ready | .held _ => true | _ => false))

/-- The slots of a member's group after the instance's. -/
def memberPost (l : Line) (base j : Nat) (js : List Nat) (before : Thread) (s : State) (tid : ThreadId) : Out :=
  endGroup tid (match js, threadOf s tid with
    | k :: ks, some t =>
      if t.status = .ready ∧ t.pc = nextSlot (before.atSlot j).pc ∧ t.stack = before.stack then
        match slotWait s tid l k with
        | some w => .next (modThread s tid (fun t => t.hold s.cycle w))
        | none => runGroup tid l base false k ks { s with cur := some tid }
      else .next s
    | _, _ => .next s)

/-- Applies a step to every thread of a list in turn. -/
def forAll (f : State → ThreadId → Out) : List ThreadId → State → Out
  | [], s => .next s
  | t :: ts, s => andThen (f s t) (forAll f ts)

/-- A complete instance issues: once, with the slots of its members' groups before and after it. A member that does not come to the
instance's slot leaves the others held (R101, R238). -/
def issueInstance (s0 : State) (lead : Thread) (tids : List ThreadId) (base : Nat) (l : Line) (j : Nat) (i : Instr) : Out :=
  let s := { s0 with freeCtr := s0.freeCtr + 1, cur := tids.head? }
  let away (m : ThreadId) : Bool := match memberPre { s with cur := some m } l base j m with
    | .next s => !atInstance s j m
    | _ => true
  match tids.find? away with
  | some m => endGroup m (memberPre { s with cur := some m } l base j m)
  | none =>
    andThen (forAll (fun s m => memberPre { s with cur := some m } l base j m) tids s) (fun s1 =>
      let s1 := tids.foldl (fun s m => modThread s m (fun t => { t with status := lead.status })) { s1 with cur := tids.head? }
      let o := exec i (tids.foldl (fun s m => noteTokens (orderSlot s m i) m i) s1)
      match (tids.head?.bind (fun t => stayed (lead.atSlot j) t o)).filter (fun w => w != lead.status) with
      | some w => .next (tids.head?.elim s (fun t => modThread s t (fun x => x.hold s.cycle w)))
      | none => andThen o (forAll (memberPost l base j ((groupAt lead l).filter (fun k => decide (j < k))) lead) tids))

/-! ### Pipes (R81, R132) -/

/-- Cycles for which an instruction occupies its pipe (Table 5.4). -/
def occupancy (w : IWord) : Nat :=
  match decode w with
  | .ok (.dadd ..) | .ok (.dmul ..) | .ok (.dfma ..) | .ok (.dmin ..) | .ok (.dmax ..) => 4
  | .ok (.cvt _ _ df sf ..) | .ok (.cvt2 _ _ df sf ..) => if df = .fp64 ∨ sf = .fp64 then 4 else 1
  | .ok (.frcp ..) | .ok (.frsq ..) | .ok (.fsqrt ..) | .ok (.fexp2 ..) | .ok (.flog2 ..) => 4
  | .ok (.fdiv ..) => 8
  | .ok (.ddiv ..) | .ok (.dsqrt ..) => 32
  | _ => 1

/-- A pipe takes one instruction: none where none is free. -/
def Turn.take (now : Nat) (t : Turn) (w : IWord) : Option Turn :=
  let n := now + occupancy w
  match pipeOf (opOf w) with
  | some .a => if t.a0 ≤ now then some { t with a0 := n } else if t.a1 ≤ now then some { t with a1 := n } else none
  | some .m => if t.m ≤ now then some { t with m := n } else none
  | some .x => if t.x ≤ now then some { t with x := n } else none
  | none => some t

/-- The pipes of a cycle take the instructions of a group; a line that traps uses none. -/
def Turn.takeAll (now : Nat) (l : Line) (i : Nat) (t : Turn) (js : List Nat) : Option Turn :=
  if (lineCheck l i).isSome then some t else js.foldlM (fun t j => t.take now (lineSlot l j)) t

/-! ### Bundles (R237) -/

/-- Another thread of a lane has issued: the yields of the lane end (R117). -/
def endYields (s : State) (tid : ThreadId) : State :=
  match blockOf s tid.slot with
  | none => s
  | some b =>
    let place (b : Block) (t : ThreadId) : Nat × Nat × Nat := (coreIdOf b t, (b.wave (waveIx t)).part, laneOf t)
    { s with blocks := Assoc.mapVals s.blocks (fun slot c =>
        { c with threads := c.threads.mapIdx (fun i t =>
            if t.sched.yielded.isSome ∧ ⟨slot, i⟩ ≠ tid ∧ place c ⟨slot, i⟩ = place b tid then
              { t with sched := { t.sched with yielded := none } }
            else t) }) }

/-- Any thread stands under YIELD. -/
def anyYield (s : State) : Bool := s.blocks.any (fun p => p.2.threads.any (fun t => t.sched.yielded.isSome))

/-- After the issue of some threads: the yields of the lanes of those that did issue end. -/
def afterIssue (before : State) (tids : List ThreadId) (s : State) : State :=
  if !anyYield s then s
  else
    tids.foldl (fun s tid => match threadOf before tid with
      | some t => if (stayed t tid (.next s)).isSome then s else endYields s tid
      | none => s) s

/-- What stays of a bundle after an issue: a thread that trapped or rolled back leaves it, and the others stay that are at their
leader's code address and can go on there, with the leader (R237). -/
def staying (before s : State) (tids : List ThreadId) : List ThreadId :=
  let on := tids.filterMap (fun tid => match threadOf before tid, threadOf s tid with
    | some t, some u =>
      (match u.status with
      | .parkedFault _ _ | .retired | .drained => none
      | _ => if u.trap.isSome = t.trap.isSome ∨ u.trap.isNone then some (tid, u) else none)
    | _, _ => none)
  match on with
  | [] => []
  | (lead, t) :: rest => lead :: (rest.filter (fun x => x.2.pc == t.pc && x.2.top == t.top && x.2.status == .ready)).map (·.1)

/-- A group that a partition may issue: the bundle's place in its list, the threads, the line, and the pipes after it. -/
structure Pick where
  at? : Nat
  tids : List ThreadId
  base : Nat
  line : Line
  turn : Turn

/-- The threads that issue together with a leader: of a complete instance all, of an ordinary bundle those that are ready at the
leader's code address (R237, R238). -/
def issuers (s : State) (b : Block) (lead : ThreadId) (t : Thread) (ms : List ThreadId) : List ThreadId :=
  match t.status with
  | .held mask => if complete? s b lead t then lead :: (maskTids lead mask).filter (· != lead) else []
  | _ =>
    if isReady s b lead t then
      ms.filter (fun m => match blockOf s m.slot, threadOf s m with
        | some c, some u => isReady s c m u && u.pc == t.pc && u.top == t.top
        | _, _ => false)
    else []

/-- The group of a bundle, when its leader is ready and the free pipes take it (R81, R132, R239). -/
def pickOf (s : State) (turn : Turn) (k : Nat) (ms : List ThreadId) : Option Pick :=
  match ms with
  | [] => none
  | lead :: _ =>
    match blockOf s lead.slot, threadOf s lead with
    | some b, some t =>
      let tids := issuers s b lead t ms
      if tids.isEmpty then none
      else
        match lineAt s b lead t with
        | none => if (lenOf s (coreIdOf b lead) b.ctx t.top).isNone then none else some ⟨k, tids, 0, 0, turn⟩
        | some (base, l) =>
          (turn.takeAll s.cycle l (t.pc.extractLsb' 0 3).toNat (groupAt t l)).map (fun turn => ⟨k, tids, base, l, turn⟩)
    | _, _ => none

/-- The first bundle of a partition, in key order, whose group may issue. -/
def firstPick (s : State) (turn : Turn) : Nat → List (List ThreadId) → Option Pick
  | _, [] => none
  | k, b :: bs =>
    match pickOf s turn k b with
    | some p => some p
    | none => firstPick s turn (k + 1) bs

/-- Issues a pick. -/
def issuePick (s : State) (p : Pick) : Out :=
  match p.tids.head?.bind (threadOf s) with
  | none => .next s
  | some t =>
    match t.status, instanceSlot t p.line with
    | .held _, some (j, i) => issueInstance s t p.tids p.base p.line j i
    | _, _ => forAll issueThread p.tids s

/-- Issue gating at level k suppresses issue in the first k of every 64 cycles (R437, log 111). -/
def gated (s : State) : Bool := decide (s.cycle % 64 < s.service.power.gate)

/-- A partition issues its next group of the present cycle, while it has issued fewer than two, no gating holds it, and a bundle
may issue (R81, R239, R437). -/
def issuePart (s : State) (part : Nat) : Option Out :=
  let turn := turnOfPart s part
  if gated s ∨ 2 ≤ turn.groups then none
  else
    (firstPick s turn 0 (Assoc.getD s.bundles part [])).map (fun p =>
      andThen (issuePick s p) (fun t =>
        let t := afterIssue s p.tids t
        let bs := (Assoc.getD s.bundles part []).set p.at? (staying s t p.tids)
        .next { t with
          bundles := Assoc.set t.bundles part (bs.filter (fun b => !b.isEmpty))
          turns := Assoc.set t.turns part { p.turn with groups := turn.groups + 1 } }))

end Sys2Proof.Machine
end

