-- ==== Sys2Proof/Machine/Move.lean ====
section
/-! DEFINITION. The moves of a step: the next entry of the agenda, and what the device does by itself (log 4). -/

namespace Sys2Proof.Machine

open Sys2Proof

/-- The first event of a list that changes the state, or stops the machine. -/
def firstChange (s : State) : List Instr → Option (Host.Outcome State Fault Refusal)
  | [] => none
  | i :: is =>
    match exec i (beforeEvent s i) with
    | .next s' => if s' = s then firstChange s is else some (.next s')
    | o => some o

/-- The first group that a partition of a list issues. -/
def firstIssue (s : State) : List Nat → Option Out
  | [] => none
  | p :: ps =>
    match issuePart s p with
    | some o => some o
    | none => firstIssue s ps

/-- With an empty agenda: the next group of the first partition that issues one, then the first event that changes the state, and
otherwise a cycle passes. -/
def auto (s : State) : Host.Outcome State Fault Refusal :=
  match firstIssue s (partsOf s) with
  | some o => o
  | none =>
    match firstChange s (ownEvents s) with
    | some o => o
    | none => .next (tick s)

/-- What is left for a partition to issue in the present cycle. -/
def issueRest (s : State) (part : Nat) : Out :=
  match issuePart s part with
  | none => .next s
  | some o => andThen o (fun s => (issuePart s part).getD (.next s))

/-- Every partition of a list issues what is left for it. -/
def issueAll : List Nat → State → Out
  | [], s => .next s
  | p :: ps, s => andThen (issueRest s p) (issueAll ps)

/-- Cycles pass: in each, every partition issues what it may, so that no ready thread is passed over (R241). -/
def elapse : Nat → State → Out
  | 0, s => .next s
  | n + 1, s => andThen (issueAll (partsOf s) s) (fun s => elapse n (tick s))

/-- What follows every step: the command processor notes the packets that start (R345). -/
def settled : Out → Out
  | .next s => .next (noteStarts s)
  | o => o

/-- One move. An instruction is executed by a thread that issues it, never as an event. -/
def doMove (s : State) (m : Move) : Host.Outcome State Fault Refusal :=
  match m with
  | .issue part => (issuePart s part).getD (.next s)
  | .event i => if i.isCode then .next s else exec i (beforeEvent s i)
  | .elapse n => elapse n s
  | .upset u => .next (applyUpset (storesNow (fun _ _ => true) s) u)
  | .readNow t r k => .next (readNow s t r k)
  | .delayStore t => .next (modThread s t (fun t => { t with late := { t.late with delay := true } }))
  | .storeNow t => .next (storeNow s t)

end Sys2Proof.Machine
end

