-- ==== Sys2Proof/Machine/Step.lean ====
section
/-! DEFINITION. One step of the device, and how an instruction is put where the next step fetches. -/

namespace Sys2Proof.Machine

open Sys2Proof

/-- One step: every step has free values of its own. -/
def step (s : State) : Host.Outcome State Fault Refusal :=
  match s.agenda with
  | [] => settled (auto { s with freeCtr := s.freeCtr + 1 })
  | m :: ms => settled (doMove { s with freeCtr := s.freeCtr + 1, agenda := ms } m)

/-- The instruction of `w`, in slot 0 of line 0 of overlay 0, is what thread 0 of a started block issues next (log 13). -/
def State.withFetchWord (s : State) (_nbits w : Nat) : State := bootWord s (BitVec.ofNat 96 w)

end Sys2Proof.Machine
end

