-- ==== Sys2Proof/Safety.lean ====
section
/-! DEFINITION. What a state and a run keep to, and what an instruction changes and leaves, in the terms the claims use. -/

namespace Sys2Proof.Machine

open Sys2Proof

/-! ### Runs and memory in canonical form -/

/-- A run of n steps neither faults nor is refused. -/
def runsSafely (n : Nat) (s : State) : Prop := ∃ t, Sys2Proof.core.run n s = .next t

/-- Memory is in its canonical form: stacked DRAM, the weight store, the scratchpad and tiles of every block, placed or
saved, and every launch's argument block. -/
def memoryWf (s : State) : Prop :=
  s.dram.wf = true ∧ s.ws.wf = true
    ∧ (∀ p ∈ s.blocks, p.2.spad.wf = true ∧ p.2.tiles.wf = true)
    ∧ (∀ p ∈ s.contexts, ∀ k ∈ p.2.saved, k.spad.wf = true ∧ k.tiles.wf = true)
    ∧ (∀ p ∈ s.launches, p.2.argBytes.wf = true)

/-- A byte of the scratchpad window of the block in a slot, as a program reads it. -/
def spadByte (s : State) (slot a : Nat) : Byte :=
  match blockOf s slot with
  | none => unlisted
  | some b => b.spad.read a

/-- A byte of the accumulator tiles of the block in a slot. -/
def tileByte (s : State) (slot a : Nat) : Byte :=
  match blockOf s slot with
  | none => unlisted
  | some b => b.tiles.read a

/-- Every byte of every memory, and every capability tag, reads as before. -/
structure MemSame (s t : State) : Prop where
  dram : ∀ a, t.dram.read a = s.dram.read a
  ws : ∀ a, t.ws.read a = s.ws.read a
  spad : ∀ slot a, spadByte t slot a = spadByte s slot a
  tiles : ∀ slot a, tileByte t slot a = tileByte s slot a
  tags : t.tags = s.tags

/-- Every thread but one is as before. -/
def OthersSame (s t : State) (tid : ThreadId) : Prop := ∀ u, u ≠ tid → threadOf t u = threadOf s u

/-- In t, thread `tid` is w; every other thread, every block's own state, every byte of memory and every other field of the
machine is as it was in s. -/
structure OnlyThread (s t : State) (tid : ThreadId) (w : Thread) : Prop where
  thread : threadOf t tid = some w
  others : OthersSame s t tid
  memory : MemSame s t
  block : ∀ slot b, blockOf s slot = some b → ∃ c, blockOf t slot = some c ∧ { c with threads := b.threads } = b
  rest : { t with blocks := s.blocks } = s

/-! ### Registers of a thread -/

/-- The content of a v register. -/
def Thread.vreg (t : Thread) (r : VReg) : Word := t.v[r.toNat]'(vreg_lt r)
/-- The content of a pair, the named register low (R11). -/
def Thread.vpair (t : Thread) (r : VReg) : DWord := t.vreg (r + 1) ++ t.vreg r
/-- The content of a capability register. -/
def Thread.areg (t : Thread) (r : AReg) : Cap := t.a[r.toNat]'(areg_lt r)
/-- A predicate as it reads: p7 is true (R16). -/
def Thread.preg (t : Thread) (r : PReg) : Bool := r == 7#3 || t.p.getLsbD r.toNat

/-- The parts of a thread's state beside its registers. -/
inductive Part where
  | fpx | sgen | latches | stack | restart | counts | tokens | pend | trap | drain | lent
  deriving DecidableEq, Repr

/-- A part is as it was. -/
def Part.same (u w : Thread) : Part → Prop
  | .fpx => w.fpx = u.fpx
  | .sgen => w.sgen = u.sgen
  | .latches => w.clkh = u.clkh ∧ w.gtsh = u.gtsh
  | .stack => w.stack = u.stack
  | .restart => w.rpaddr = u.rpaddr ∧ w.rpStack = u.rpStack ∧ w.region = u.region
  | .counts => w.counts = u.counts
  | .tokens => w.tokens = u.tokens
  | .pend => w.pend = u.pend
  | .trap => w.trap = u.trap
  | .drain => w.runFrom = u.runFrom
  | .lent => w.lent = u.lent

/-- What an instruction may change of its own thread: registers by name, and parts. Writing a register that is lent
to the matrix engine marks the loan (R214), so `lent` goes with v registers. -/
structure Touch where
  v : List VReg := []
  p : List PReg := []
  a : List AReg := []
  parts : List Part := []

/-- Everything of a thread beyond a touch is as it was, poison bits too. -/
structure Kept (c : Touch) (u w : Thread) : Prop where
  v : ∀ r, r ∉ c.v → w.vreg r = u.vreg r ∧ w.poisonV.getLsbD r.toNat = u.poisonV.getLsbD r.toNat
  p : ∀ r, r ∉ c.p → w.preg r = u.preg r ∧ (r ≠ 7#3 → w.poisonP.getLsbD r.toNat = u.poisonP.getLsbD r.toNat)
  a : ∀ r, r ∉ c.a → w.areg r = u.areg r ∧ w.poisonA.getLsbD r.toNat = u.poisonA.getLsbD r.toNat
  parts : ∀ q, q ∉ c.parts → (q = .lent → c.v = []) → q.same u w

/-! ### What an instruction does -/

/-- The current thread, with its block and registers, is x's, and the guard reads true: it executes the instruction
(R67, R229). -/
def Executes (h : Hdr) (s : State) (x : Cx) : Prop := curCx s = some x ∧ guardOf s x.thr h = true

/-- The thread stands ready at a slot, not issued again before its stall count has passed (R83). -/
structure At (pc : BitVec 16) (s : State) (h : Hdr) (w : Thread) : Prop where
  pc : w.pc = pc
  status : w.status = .ready
  issue : w.nextIssue = s.cycle + max 1 h.stall.toNat

/-- The instruction changed no more than a touch of the executing thread, which is now w and stands at the next slot in
program order. -/
structure Did (s t : State) (x : Cx) (h : Hdr) (c : Touch) (w : Thread) : Prop where
  only : OnlyThread s t x.tid w
  goes : At (nextSlot x.thr.pc) s h w
  kept : Kept c x.thr w

/-- The instruction answers a next state in which it has written one v register and gone on. -/
def WritesV (i : Instr) (s : State) (x : Cx) (h : Hdr) (d : VReg) (post : Word → Prop) : Prop :=
  ∃ t w, exec i s = .next t ∧ Did s t x h { v := [d] } w ∧ post (w.vreg d)

/-- The instruction answers a next state in which it has written a pair of v registers and gone on. -/
def WritesPair (i : Instr) (s : State) (x : Cx) (h : Hdr) (d : VReg) (post : DWord → Prop) : Prop :=
  ∃ t w, exec i s = .next t ∧ Did s t x h { v := [d, d + 1] } w ∧ post (w.vpair d)

/-- The instruction answers a next state in which it has written one predicate and gone on; nothing, where that is p7
(R16). -/
def WritesP (i : Instr) (s : State) (x : Cx) (h : Hdr) (d : PReg) (val : Bool) : Prop :=
  ∃ t w, exec i s = .next t ∧ Did s t x h { p := [d] } w ∧ w.preg d = (d == 7#3 || val)

/-- FPX after flags were raised: sticky, and untouched under NF (R20). -/
def fpxAfter (h : Hdr) (old raised : Flags) : Flags := if h.nf then old else old ||| raised

/-- The instruction answers a next state in which it has written one v register and raised flags. -/
def WritesF (i : Instr) (s : State) (x : Cx) (h : Hdr) (d : VReg) (r : Nat × Flags) : Prop :=
  ∃ t w, exec i s = .next t ∧ Did s t x h { v := [d], parts := [.fpx] } w ∧ w.vreg d = BitVec.ofNat 32 r.1
    ∧ w.fpx = fpxAfter h x.thr.fpx r.2

/-- The same for a 64-bit result in a pair. -/
def WritesD (i : Instr) (s : State) (x : Cx) (h : Hdr) (d : VReg) (r : Nat × Flags) : Prop :=
  ∃ t w, exec i s = .next t ∧ Did s t x h { v := [d, d + 1], parts := [.fpx] } w ∧ w.vpair d = BitVec.ofNat 64 r.1
    ∧ w.fpx = fpxAfter h x.thr.fpx r.2

/-- The instruction answers a next state in which its result is on its way to the thread, and it has gone on: no register
is written yet (R84, R133). -/
def Sends (i : Instr) (s : State) (x : Cx) (h : Hdr) (p : Pend) : Prop :=
  ∃ t w, exec i s = .next t ∧ Did s t x h { parts := [.pend] } w ∧ w.pend = x.thr.pend ++ [p]

/-- The instruction answers a next state in which the thread has written one capability register and gone on. -/
def WritesA (i : Instr) (s : State) (x : Cx) (h : Hdr) (d : AReg) (c : Cap) : Prop :=
  ∃ t w, exec i s = .next t ∧ Did s t x h { a := [d] } w ∧ w.areg d = c

/-- The instruction answers a next state in which the thread waits at its slot with a status, to be tried again; nothing
else has changed. -/
def Waits (i : Instr) (s : State) (x : Cx) (st : TStatus) : Prop :=
  ∃ t, exec i s = .next t ∧ OnlyThread s t x.tid (x.thr.hold s.cycle st)

/-- Of the core states only one is not as before: core `n`'s, which is now c. -/
def OnlyCore (s t : State) (n : Nat) (c : Core) : Prop := coreOf t n = c ∧ ∀ k, k ≠ n → coreOf t k = coreOf s k

/-- The instruction changed no more than a touch of the executing thread, which is now w and stands at slot `pc`. -/
structure Left (pc : BitVec 16) (s t : State) (x : Cx) (h : Hdr) (c : Touch) (w : Thread) : Prop where
  only : OnlyThread s t x.tid w
  goes : At pc s h w
  kept : Kept c x.thr w

/-- The instruction answers a next state in which it has gone on, having changed no more than a touch of its thread, of
which `post` holds. -/
def Goes (i : Instr) (s : State) (x : Cx) (h : Hdr) (c : Touch) (post : Thread → Prop) : Prop :=
  ∃ t w, exec i s = .next t ∧ Did s t x h c w ∧ post w

/-- The instruction answers a next state in which its thread has left for slot `pc`, having changed no more than a touch
of itself, of which `post` holds. -/
def JumpsTo (i : Instr) (s : State) (x : Cx) (h : Hdr) (pc : BitVec 16) (c : Touch) (post : Thread → Prop) : Prop :=
  ∃ t w, exec i s = .next t ∧ Left pc s t x h c w ∧ post w

/-- The instruction answers the state in which its thread takes a trap on its own slot. -/
def TrapsOn (i : Instr) (s : State) (x : Cx) (cause sub : BitVec 8) (a0 a1 : Word) : Prop :=
  exec i s = .next (takeTrap s x.tid ⟨cause, sub, x.thr.pcWord, a0, a1⟩)

/-! ### Instances of wave collectives, signing instructions, CST and XLD (R101, R238) -/

/-- The thread of a lane of x's wave. -/
def laneTid (x : Cx) (n : Nat) : ThreadId := ⟨x.tid.slot, 32 * (x.tid.tidx / 32) + n⟩

/-- The executing thread is the last to arrive at a collective with this mask: T gives the threads of the mask's lanes, the
others held there with the same mask, and no condition on a member's registers (Table 3.13 rows 7 to 9) traps. -/
structure Gathered (i : Instr) (h : Hdr) (s : State) (x : Cx) (mask : Word) (T : Nat → Thread) : Prop where
  cur : curCx s = some x
  own : mask.getLsbD (x.tid.tidx % 32) = true
  me : T (x.tid.tidx % 32) = x.thr
  thread : ∀ n, mask.getLsbD n = true → threadOf s (laneTid x n) = some (T n)
  arrived : ∀ n, mask.getLsbD n = true → n ≠ x.tid.tidx % 32 →
    (T n).status = .held mask ∧ (T n).pc = x.thr.pc ∧ (T n).top = x.thr.top
  clean : ∀ n, mask.getLsbD n = true → registerTrap s (T n) (chkOf s x.blk) h i = none

/-- A lane takes part with a true guard. -/
def presentLane (s : State) (h : Hdr) (mask : Word) (T : Nat → Thread) (n : Nat) : Bool :=
  mask.getLsbD n && guardOf s (T n) h

/-- Every member has gone on: a present one with no more changed than the touch, and `post` of its lane; one with a false
guard with nothing changed. Every other thread and all else of the machine is as it was. -/
structure MembersGo (h : Hdr) (s t : State) (x : Cx) (mask : Word) (T : Nat → Thread) (c : Touch)
    (post : Nat → Thread → Prop) : Prop where
  member : ∀ n, mask.getLsbD n = true → ∃ w, threadOf t (laneTid x n) = some w ∧ At (nextSlot x.thr.pc) s h w
    ∧ (presentLane s h mask T n = true → Kept c (T n) w ∧ post n w) ∧ (presentLane s h mask T n = false → Kept {} (T n) w)
  others : ∀ u, (∀ n, mask.getLsbD n = true → u ≠ laneTid x n) → threadOf t u = threadOf s u
  memory : MemSame s t
  block : ∀ slot b, blockOf s slot = some b → ∃ c, blockOf t slot = some c ∧ { c with threads := b.threads } = b
  rest : { t with blocks := s.blocks } = s

/-- A collective answers a next state in which its members have gone on. -/
def InstanceGoes (i : Instr) (h : Hdr) (s : State) (x : Cx) (mask : Word) (T : Nat → Thread) (c : Touch)
    (post : Nat → Thread → Prop) : Prop :=
  ∃ t, exec i s = .next t ∧ MembersGo h s t x mask T c post

/-! ### Memory accesses -/

/-- A capability lets through an access of n bytes at an offset: tag, rights, window and alignment (R146). -/
structure Permits (c : Cap) (rights : List Nat) (off : Int) (n : Nat) : Prop where
  tag : c.tag = true
  rights : ∀ r ∈ rights, c.rights.getLsbD r = true
  lo : (c.base : Int) ≤ off
  hi : off + n ≤ (c.top : Int)
  align : off % n = 0

/-- A byte of stacked DRAM as object memory read under a key: of a line that was written under another key, what that key makes of it
(R367). -/
def seenByte (s : State) (key : BitVec 512) (a : Nat) : Byte :=
  if keyDiffers s key (a / 64) then (lineUnder s key (a / 64)).getD (a % 64) 0 else s.dram.read a

/-- The key of a mapped access. -/
def Mapped.key (s : State) (m : Mapped) : BitVec 512 := keyOf s (objKey m.oe)

/-- Byte j from a mapped access on: of a constant-elided page, of the weight store, or of stacked DRAM under the object's key. -/
def Mapped.byte (s : State) (m : Mapped) (j : Nat) : Byte :=
  if pageConst m.pe then (pagePattern m.pe).extractLsb' (8 * ((m.paddr + j) % 4)) 8
  else if m.loc.ws then s.ws.read (m.loc.addr + j)
  else seenByte s (m.key s) (m.loc.addr + j)

/-- The registers that an access of n bytes gives: little-endian words from d on, 8 and 16 bits extended by SX, each with
the poison of its bytes (R151, R153, R422). -/
def Lands (d : VReg) (n : Nat) (sx : Bool) (byte : Nat → Byte) (bad : Nat → Bool) (vals : List (VReg × Word × Bool)) : Prop :=
  vals.length = (n + 3) / 4 ∧ ∀ k, k < (n + 3) / 4 → ∃ v b, vals[k]? = some (d + BitVec.ofNat 6 k, v, b)
    ∧ (∀ i, i < 4 → 4 * k + i < n → v.extractLsb' (8 * i) 8 = byte (4 * k + i))
    ∧ (∀ j, n < 4 → 8 * n ≤ j → j < 32 → v.getLsbD j = (sx && (byte (n - 1)).msb))
    ∧ (b = true ↔ ∃ i, i < 4 ∧ 4 * k + i < n ∧ bad (4 * k + i) = true)

/-- Byte j of store data: of a register group, or of a constant zero-extended (R151). -/
def storeByte (s : State) (t : Thread) (v : RC) (j : Nat) : Byte :=
  match v with
  | .v r => (rdV s t (r + BitVec.ofNat 6 (j / 4))).extractLsb' (8 * (j % 4)) 8
  | .c n => if j = 0 then n.setWidth 8 else 0

/-- Stacked DRAM after an object write of n bytes from an address under a key, with the tags of the granules it touches: as read
under that key no other byte has changed, and outside the lines it touches none at all. Nothing else has changed but the
executing thread, copies in L1s, and the byte counts of the collective engine. -/
structure DramWrite (s t : State) (x : Cx) (w : Thread) (key : BitVec 512) (a n : Nat) (val : Nat → Byte) (tag : Bool) : Prop where
  only : OnlyThread s { t with
    dram := s.dram, tags := s.tags, lineKey := s.lineKey, cores := s.cores
    fabric := { t.fabric with buckets := s.fabric.buckets } } x.tid w
  bytes : ∀ k, seenByte t key k = if a ≤ k ∧ k < a + n then val (k - a) else seenByte s key k
  lines : ∀ k, k / 64 < a / 64 ∨ (a + n - 1) / 64 < k / 64 →
    t.dram.read k = s.dram.read k ∧ Assoc.get t.lineKey (k / 64) = Assoc.get s.lineKey (k / 64)
  tags : ∀ g, t.tags.has g = if a / 16 ≤ g ∧ g ≤ (a + n - 1) / 16 then tag else s.tags.has g

/-- The block's scratchpad and tiles read as given, with the executing thread now w: nothing else has changed but the types
and poison of the block's granules, and the order of its writes (R212). -/
structure LocalWrite (s t : State) (x : Cx) (w : Thread) (spadVal tileVal : Nat → Byte) : Prop where
  thread : threadOf t x.tid = some w
  others : OthersSame s t x.tid
  slots : ∀ slot, slot ≠ x.tid.slot → blockOf t slot = blockOf s slot
  block : ∃ c, blockOf t x.tid.slot = some c
    ∧ { c with
        threads := x.blk.threads, spad := x.blk.spad, tiles := x.blk.tiles, types := x.blk.types
        spadPoison := x.blk.spadPoison, tilePoison := x.blk.tilePoison, order := x.blk.order } = x.blk
  spad : ∀ k, spadByte t x.tid.slot k = spadVal k
  tiles : ∀ k, tileByte t x.tid.slot k = tileVal k
  rest : { t with blocks := s.blocks } = s

/-- Bytes with n of them from an address replaced. -/
def patched (old : Nat → Byte) (a n : Nat) (val : Nat → Byte) (k : Nat) : Byte :=
  if a ≤ k ∧ k < a + n then val (k - a) else old k

end Sys2Proof.Machine
end

