-- ==== Sys2Proof/Certificates/Slice0/Obligations.lean ====
section
/-! DEFINITION. The statements for the provers. -/

open Sys2Proof Sys2Proof.Machine

/-! ### Guard, integer, predicate and move instructions -/

/-- R67. A false guard: the instruction takes its issue slot and its stall count, and neither reads another operand nor
writes anything. For every instruction but UDF, whose trap the guard does not stop (R86), and the collectives and
signing instructions, in which a thread with a false guard takes part (R101, R208); a BARW whose thread has arrived waits on
whatever its guard is (R198). -/
def Obligations.FalseGuardOnlyGoesOn : Prop :=
  ∀ (i : Instr) (s : State) (x : Cx), i.isCode = true → i.isCollective = false → (∀ raw, i ≠ .udf raw) → curCx s = some x →
    x.thr.arrival = none → guardOf s x.thr (hdrOf (encode i)) = false →
    ∃ t w, exec i s = .next t ∧ Did s t x (hdrOf (encode i)) {} w

/-- Sums, differences and products of R93, as exact integers reduced modulo 2^32 or 2^64. -/
def Claims.IntegerArithmeticResults : Prop :=
  ∀ (h : Hdr) (ns : Bool) (d : VReg) (a b c : Src) (s : State) (x : Cx), Executes h s x →
    let A := src32 s x.thr a
    let B := src32 s x.thr b
    let C := src64 s x.thr c
    let val (v : Word) : Int := if ns then v.toNat else v.toInt
    let lo : Int := if ns then 0 else -(2 ^ 31)
    let hi : Int := if ns then 2 ^ 32 - 1 else 2 ^ 31 - 1
    WritesV (.iadd h d a b) s x h d (fun v => v.toNat = (A.toNat + B.toNat) % 2 ^ 32)
    ∧ WritesV (.isub h d a b) s x h d (fun v => (v.toNat + B.toNat) % 2 ^ 32 = A.toNat)
    ∧ WritesV (.imul h d a b) s x h d (fun v => v.toNat = A.toNat * B.toNat % 2 ^ 32)
    ∧ WritesV (.imulh h ns d a b) s x h d (fun v => val v = (val A * val B) / 2 ^ 32)
    ∧ WritesPair (.imulw h ns d a b) s x h d (fun v => (if ns then (v.toNat : Int) else v.toInt) = val A * val B)
    ∧ WritesPair (.imad h ns d a b c) s x h d (fun v => v = BitVec.ofInt 64 (val A * val B + C.toInt))
    ∧ WritesV (.imin h ns d a b) s x h d (fun v => val v = min (val A) (val B))
    ∧ WritesV (.imax h ns d a b) s x h d (fun v => val v = max (val A) (val B))
    ∧ WritesV (.iabs h d a) s x h d (fun v => v.toNat = A.toInt.natAbs)
    ∧ WritesV (.iadds h ns d a b) s x h d (fun v => val v = max lo (min hi (val A + val B)))
    ∧ WritesV (.isubs h ns d a b) s x h d (fun v => val v = max lo (min hi (val A - val B)))

/-- Logic, shifts and counts of R93, bit by bit. -/
def Claims.BitwiseResults : Prop :=
  ∀ (h : Hdr) (d : VReg) (a b : Src) (s : State) (x : Cx), Executes h s x →
    let A := src32 s x.thr a
    let B := src32 s x.thr b
    WritesV (.and h d a b) s x h d (fun v => ∀ k, v.getLsbD k = (A.getLsbD k && B.getLsbD k))
    ∧ WritesV (.or h d a b) s x h d (fun v => ∀ k, v.getLsbD k = (A.getLsbD k || B.getLsbD k))
    ∧ WritesV (.xor h d a b) s x h d (fun v => ∀ k, v.getLsbD k = (A.getLsbD k != B.getLsbD k))
    ∧ WritesV (.andn h d a b) s x h d (fun v => ∀ k, v.getLsbD k = (A.getLsbD k && !B.getLsbD k))
    ∧ WritesV (.shl h d a b) s x h d
        (fun v => ∀ k, k < 32 → v.getLsbD k = (decide (B.toNat ≤ k) && A.getLsbD (k - B.toNat)))
    ∧ WritesV (.shr h d a b) s x h d (fun v => ∀ k, v.getLsbD k = A.getLsbD (k + B.toNat))
    ∧ WritesV (.sar h d a b) s x h d
        (fun v => ∀ k, k < 32 → v.getLsbD k = if k + B.toNat < 32 then A.getLsbD (k + B.toNat) else A.msb)
    ∧ WritesV (.popc h d a) s x h d (fun v => v.toNat = ((List.range 32).filter (fun k => A.getLsbD k)).length)
    ∧ WritesV (.clz h d a) s x h d
        (fun v => v.toNat ≤ 32 ∧ A.toNat < 2 ^ (32 - v.toNat) ∧ (A ≠ 0 → 2 ^ (31 - v.toNat) ≤ A.toNat))
    ∧ WritesV (.brev h d a) s x h d (fun v => ∀ k, k < 32 → v.getLsbD k = A.getLsbD (31 - k))

/-- BFE and BFI of R94, bit by bit: pos and len are the two low bytes of the control word, and the field is cut at bit
31. -/
def Claims.FieldExtractAndInsert : Prop :=
  ∀ (h : Hdr) (ns : Bool) (d : VReg) (a b c : Src) (s : State) (x : Cx), Executes h s x →
    let A := src32 s x.thr a
    let B := src32 s x.thr b
    let C := src32 s x.thr c
    let pos (w : Word) : Nat := w.toNat % 256
    let len (w : Word) : Nat := min (w.toNat / 256 % 256) (32 - pos w)
    WritesV (.bfe h ns d a b) s x h d (fun v => ∀ k, k < 32 → v.getLsbD k =
      if k < len B then A.getLsbD (pos B + k) else (!ns && decide (0 < len B) && A.getLsbD (pos B + len B - 1)))
    ∧ WritesV (.bfi h d a b c) s x h d (fun v => ∀ k, k < 32 → v.getLsbD k =
      if pos C ≤ k ∧ k < pos C + len C then B.getLsbD (k - pos C) else A.getLsbD k)

/-- The 64-bit forms of R93 on pairs. -/
def Claims.SixtyFourBitIntegerResults : Prop :=
  ∀ (h : Hdr) (d : VReg) (a b : Src) (s : State) (x : Cx), Executes h s x →
    let A := src64 s x.thr a
    let B := src64 s x.thr b
    let n := (src32 s x.thr b).toNat
    WritesPair (.iadd64 h d a b) s x h d (fun v => v.toNat = (A.toNat + B.toNat) % 2 ^ 64)
    ∧ WritesPair (.isub64 h d a b) s x h d (fun v => (v.toNat + B.toNat) % 2 ^ 64 = A.toNat)
    ∧ WritesPair (.shl64 h d a b) s x h d
        (fun v => ∀ k, k < 64 → v.getLsbD k = (decide (n ≤ k) && A.getLsbD (k - n)))
    ∧ WritesPair (.shr64 h d a b) s x h d (fun v => ∀ k, v.getLsbD k = A.getLsbD (k + n))
    ∧ WritesPair (.sar64 h d a b) s x h d
        (fun v => ∀ k, k < 64 → v.getLsbD k = if k + n < 64 then A.getLsbD (k + n) else A.msb)

namespace Sys2Proof.Machine

/-- The last line of R96: pD is the truth t, alone or combined with pC by COMB. -/
def combined (s : State) (t : Thread) (k : Comb) (v : Bool) : Bool :=
  match k with
  | .none => v
  | .andP c => v && rdP s t c
  | .orP c => v || rdP s t c
  | .xorP c => v ^^ rdP s t c

end Sys2Proof.Machine

/-- CMPI of R96: the compare of two integers, signed or with NS unsigned. -/
def Claims.IntegerCompareResult : Prop :=
  ∀ (h : Hdr) (ns : Bool) (cmp : Cmp) (k : Comb) (d : PReg) (a b : Src) (s : State) (x : Cx), Executes h s x →
    let val (v : Word) : Int := if ns then v.toNat else v.toInt
    let A := val (src32 s x.thr a)
    let B := val (src32 s x.thr b)
    let t : Bool := match cmp with
      | .eq => decide (A = B) | .ne => decide (A ≠ B) | .lt => decide (A < B) | .le => decide (A ≤ B)
      | .gt => decide (A > B) | .ge => decide (A ≥ B)
    WritesP (.cmpi h ns cmp k d a b) s x h d (combined s x.thr k t)

namespace Sys2Proof.Machine

/-- A float compare answers a next state with pD written and the flag raised, and nothing else changed (R96): for a NaN
operand the truth is NAN, whatever CMP is, and IV is raised where an operand read is a signalling NaN. -/
def floatCompares (i : Instr) (s : State) (x : Cx) (h : Hdr) (f : FF) (ftz nan : Bool) (cmp : Cmp) (k : Comb) (d : PReg)
    (a b : Nat) : Prop :=
  let X := prep f ftz false false a
  let Y := prep f ftz false false b
  ∃ t w v, exec i s = .next t ∧ Did s t x h { p := [d], parts := [.fpx] } w
    ∧ w.preg d = (d == 7#3 || combined s x.thr k v)
    ∧ (X = .nan ∨ Y = .nan → v = nan)
    ∧ (X ≠ .nan → Y ≠ .nan → v = cmpHolds cmp (cmpNum X Y))
    ∧ w.fpx = fpxAfter h x.thr.fpx (if f.signalling a ∨ f.signalling b then flagIV else 0)

end Sys2Proof.Machine

/-- CMPF, CMPD and CMPH of R96 over FP32, FP64 and FP16. -/
def Claims.FloatCompareResults : Prop :=
  ∀ (h : Hdr) (ftz nan : Bool) (cmp : Cmp) (k : Comb) (d : PReg) (a b : Src) (s : State) (x : Cx), Executes h s x →
    floatCompares (.cmpf h ftz nan cmp k d a b) s x h fp32 ftz nan cmp k d (src32 s x.thr a).toNat (src32 s x.thr b).toNat
    ∧ floatCompares (.cmpd h ftz nan cmp k d a b) s x h fp64 ftz nan cmp k d
        (srcF64 s x.thr a).toNat (srcF64 s x.thr b).toNat
    ∧ floatCompares (.cmph h ftz nan cmp k d a b) s x h fp16 ftz nan cmp k d
        (src16 s x.thr a).toNat (src16 s x.thr b).toNat

/-- R97 and the moves of R98. -/
def Obligations.PredicateAndMoveResults : Prop :=
  ∀ (h : Hdr) (d : VReg) (p pa pb pc : PReg) (table : BitVec 8) (q : QReg) (val : Word) (a b : Src) (s : State) (x : Cx),
    Executes h s x →
    WritesP (.pfun h p pa pb pc table) s x h p
        (table.getLsbD (4 * (rdP s x.thr pa).toNat + 2 * (rdP s x.thr pb).toNat + (rdP s x.thr pc).toNat))
    ∧ WritesV (.sel h d a b pc) s x h d (fun v => v = if rdP s x.thr pc then src32 s x.thr a else src32 s x.thr b)
    ∧ WritesV (.mov h d (.src a)) s x h d (fun v => v = src32 s x.thr a)
    ∧ WritesV (.movi h d val) s x h d (fun v => v = val)
    ∧ WritesV (.ptov h d) s x h d (fun v =>
        v.toNat < 256 ∧ v.getLsbD 7 = true ∧ ∀ k, k < 7 → v.getLsbD k = rdP s x.thr (BitVec.ofNat 3 k))
    ∧ (∃ t w, exec (.vtop h a b) s = .next t
        ∧ Did s t x h { p := (List.range 7).map (BitVec.ofNat 3) } w
        ∧ ∀ k, k < 7 → w.preg (BitVec.ofNat 3 k) =
            if (src32 s x.thr b).getLsbD k then (src32 s x.thr a).getLsbD k else x.thr.preg (BitVec.ofNat 3 k))
    ∧ (signedOn x.blk x.tid q = false →
        Sends (.mov h d (.q q)) s x h ⟨false, [(d, qStatus x.blk x.tid q, false)], none, 0, false⟩)
    ∧ (signedOn x.blk x.tid q = true → Waits (.mov h d (.q q)) s x (.stalled (.stream q)))

/-- The INT class (R93, R94): each instruction writes its destination with the result of Table 4.2, or the field of BFE and BFI, and
does nothing else but go on. -/
def Obligations.IntegerResults : Prop :=
  Claims.IntegerArithmeticResults ∧ Claims.BitwiseResults ∧ Claims.FieldExtractAndInsert ∧ Claims.SixtyFourBitIntegerResults

/-- CMPI, CMPF, CMPD and CMPH of R96. -/
def Obligations.CompareResults : Prop :=
  Claims.IntegerCompareResult ∧ Claims.FloatCompareResults

/-! ### Floating point and conversions -/

namespace Sys2Proof.Machine

/-- The value of a finite number. -/
def numVal : Num → ℚ
  | .fin n m e => (if n then -1 else 1) * m * (2 : ℚ) ^ e
  | _ => 0

end Sys2Proof.Machine

/-- Round of R46 on a finite non-zero value, without overflow and without FTZ: a value with at most p significant bits, on
the side of the exact value that the mode asks for, within half of the last kept bit in RN, exact where IX is not
raised and not where it is. -/
def Claims.RoundingIsCorrect : Prop :=
  ∀ (f : FF) (mode : Rnd) (n : Bool) (m : Nat) (e : Int) (n' : Bool) (m' : Nat) (e' : Int) (fl : Flags),
    f ∈ [fp64, fp32, fp16, bf16] → m ≠ 0 → roundTo f mode false (.fin n m e) = (.fin n' m' e', fl) →
    fl &&& flagOF = 0 →
    let x := numVal (.fin n m e)
    let r := numVal (.fin n' m' e')
    let q := max ((Nat.log2 m : Int) + e) f.emin - f.fb
    n' = n ∧ m' ≤ 2 ^ (f.fb + 1)
    ∧ (mode = .rz → |r| ≤ |x|) ∧ (mode = .ru → x ≤ r) ∧ (mode = .rd → r ≤ x)
    ∧ (mode = .rn → 2 * |r - x| ≤ (2 : ℚ) ^ q) ∧ |r - x| < (2 : ℚ) ^ q
    ∧ (fl &&& flagIX = 0 ↔ r = x)

/-- R33 and R35: every code of a format that is not a NaN is the encoding of the value it decodes to. -/
def Claims.EveryCodeEncodesItsValue : Prop :=
  ∀ (f : FF) (c : Nat), f ∈ [fp64, fp32, fp16, bf16, e4m3, e2m1] → c < 2 ^ (1 + f.eb + f.fb) → f.decode c ≠ .nan →
    f.encode (f.decode c) = c

/-- FADD to FFMA, FMIN, FMAX and FRND of R126 to R130: the destination and FPX, and nothing else. -/
def Claims.SinglePrecisionResults : Prop :=
  ∀ (h : Hdr) (m : FMod) (d : VReg) (a b c : Src) (s : State) (x : Cx), Executes h s x →
    let A := (src32 s x.thr a).toNat
    let B := (src32 s x.thr b).toNat
    let C := (src32 s x.thr c).toNat
    WritesF (.fadd h m d a b) s x h d (arith2 .add fp32 m A B)
    ∧ WritesF (.fsub h m d a b) s x h d (arith2 .sub fp32 m A B)
    ∧ WritesF (.fmul h m d a b) s x h d (arith2 .mul fp32 m A B)
    ∧ WritesF (.ffma h m d a b c) s x h d (arith3 fp32 m A B C)
    ∧ WritesF (.fmin h m d a b) s x h d (minMax2 true fp32 m A B)
    ∧ WritesF (.fmax h m d a b) s x h d (minMax2 false fp32 m A B)
    ∧ WritesF (.frnd h m d a) s x h d (round1 m A)

/-- DADD to DMAX of R126 and R129: the pair and FPX, and nothing else. -/
def Claims.DoublePrecisionResults : Prop :=
  ∀ (h : Hdr) (m : FMod) (d : VReg) (a b c : Src) (s : State) (x : Cx), Executes h s x →
    let A := (srcF64 s x.thr a).toNat
    let B := (srcF64 s x.thr b).toNat
    let C := (srcF64 s x.thr c).toNat
    WritesD (.dadd h m d a b) s x h d (arith2 .add fp64 m A B)
    ∧ WritesD (.dmul h m d a b) s x h d (arith2 .mul fp64 m A B)
    ∧ WritesD (.dfma h m d a b c) s x h d (arith3 fp64 m A B C)
    ∧ WritesD (.dmin h m d a b) s x h d (minMax2 true fp64 m A B)
    ∧ WritesD (.dmax h m d a b) s x h d (minMax2 false fp64 m A B)

/-- The packed instructions (R34, R126, R129): each half is the operation on the halves of its own index, and the flags of
both halves are ORed (R20). -/
def Claims.PackedResults : Prop :=
  ∀ (h : Hdr) (m : FMod) (d : VReg) (a b c : Src) (s : State) (x : Cx), Executes h s x →
    let lo (w : Word) : Nat := w.toNat % 2 ^ 16
    let hi (w : Word) : Nat := w.toNat / 2 ^ 16
    let two (g : Nat → Nat → Nat × Flags) (A B : Word) : Nat × Flags :=
      ((g (lo A) (lo B)).1 + 2 ^ 16 * (g (hi A) (hi B)).1, (g (lo A) (lo B)).2 ||| (g (hi A) (hi B)).2)
    let three (g : Nat → Nat → Nat → Nat × Flags) (A B C : Word) : Nat × Flags :=
      ((g (lo A) (lo B) (lo C)).1 + 2 ^ 16 * (g (hi A) (hi B) (hi C)).1,
       (g (lo A) (lo B) (lo C)).2 ||| (g (hi A) (hi B) (hi C)).2)
    let H := srcH2 s x.thr
    let B := srcB2 s x.thr
    WritesF (.hadd2 h m d a b) s x h d (two (arith2 .add fp16 m) (H a) (H b))
    ∧ WritesF (.hmul2 h m d a b) s x h d (two (arith2 .mul fp16 m) (H a) (H b))
    ∧ WritesF (.hfma2 h m d a b c) s x h d (three (arith3 fp16 m) (H a) (H b) (H c))
    ∧ WritesF (.hmin2 h m d a b) s x h d (two (minMax2 true fp16 m) (H a) (H b))
    ∧ WritesF (.hmax2 h m d a b) s x h d (two (minMax2 false fp16 m) (H a) (H b))
    ∧ WritesF (.badd2 h m d a b) s x h d (two (arith2 .add bf16 m) (B a) (B b))
    ∧ WritesF (.bmul2 h m d a b) s x h d (two (arith2 .mul bf16 m) (B a) (B b))
    ∧ WritesF (.bfma2 h m d a b c) s x h d (three (arith3 bf16 m) (B a) (B b) (B c))
    ∧ WritesF (.bmin2 h m d a b) s x h d (two (minMax2 true bf16 m) (B a) (B b))
    ∧ WritesF (.bmax2 h m d a b) s x h d (two (minMax2 false bf16 m) (B a) (B b))

/-- FCLS of R131: a one-hot class word of the value after negate and absolute value, FTZ ignored; FPX is left whether or
not NF is set. -/
def Claims.ClassWordIsOneHot : Prop :=
  ∀ (h : Hdr) (m : FMod) (d : VReg) (a : Src) (s : State) (x : Cx), Executes h s x →
    let A := src32 s x.thr a
    let e := A.extractLsb' 23 8
    let f := A.extractLsb' 0 23
    let neg := (A.msb && !m.absA) != m.negA
    let k : Nat :=
      if e = 0xFF#8 then (if f ≠ 0#23 then (if A.getLsbD 22 then 1 else 0) else if neg then 2 else 9)
      else if e = 0#8 then (if f = 0#23 then (if neg then 5 else 6) else if neg then 4 else 7)
      else if neg then 3 else 8
    WritesV (.fcls h m d a) s x h d (fun v => v = 1#32 <<< k)

/-- The X-pipe operations (R128, R133): their results and flags are on their way when they have issued, and no register
and no FPX bit has changed yet. -/
def Claims.LongOperationsSendTheirResults : Prop :=
  ∀ (h : Hdr) (m : FMod) (d : VReg) (a b : Src) (s : State) (x : Cx), Executes h s x →
    let A := (src32 s x.thr a).toNat
    let B := (src32 s x.thr b).toNat
    let one (r : Nat × Flags) : Pend :=
      ⟨true, [(d, BitVec.ofNat 32 r.1, false)], none, if h.nf then 0 else r.2, !h.nf⟩
    let two (r : Nat × Flags) : Pend :=
      ⟨true, [(d, BitVec.ofNat 32 r.1, false), (d + 1, BitVec.ofNat 32 (r.1 / 2 ^ 32), false)], none,
        if h.nf then 0 else r.2, !h.nf⟩
    Sends (.frcp h m d a) s x h (one (long1 .rcp fp32 m A))
    ∧ Sends (.frsq h m d a) s x h (one (long1 .rsq fp32 m A))
    ∧ Sends (.fsqrt h m d a) s x h (one (long1 .sqrt fp32 m A))
    ∧ Sends (.fdiv h m d a b) s x h (one (div2 fp32 m A B))
    ∧ Sends (.fexp2 h m d a) s x h (one (long1 .exp2 fp32 m A))
    ∧ Sends (.flog2 h m d a) s x h (one (long1 .log2 fp32 m A))
    ∧ Sends (.ddiv h m d a b) s x h (two (div2 fp64 m (srcF64 s x.thr a).toNat (srcF64 s x.thr b).toNat))
    ∧ Sends (.dsqrt h m d a) s x h (two (long1 .sqrt fp64 m (srcF64 s x.thr a).toNat))

/-- The k-th outstanding result of a thread lands (R84, R133): each register it names holds its word and its poison, the
flags are ORed into FPX, and the other registers stand. Where no register it writes is lent to the matrix engine, whose result
would be undefined (R214), nothing else of the machine changes. -/
def Claims.ResultsLand : Prop :=
  ∀ (s : State) (tid : ThreadId) (t : Thread) (k : Nat) (p : Pend), threadOf s tid = some t → t.pend[k]? = some p →
    (p.vals.map (fun x => x.1)).Nodup →
    ∃ s' w, exec (if p.xpipe then .xpipeComplete tid k else .loadResultLand tid k) s = .next s' ∧ threadOf s' tid = some w
      ∧ ((∀ l ∈ t.lent, l.spoiled = false ∧ ∀ x ∈ p.vals, x.1 ∉ l.frag) → OnlyThread s s' tid w)
      ∧ (∀ r v bad, (r, v, bad) ∈ p.vals → w.vreg r = v ∧ w.poisonV.getLsbD r.toNat = bad)
      ∧ (∀ r c bad, p.cap = some (r, c, bad) → w.areg r = c ∧ w.poisonA.getLsbD r.toNat = bad)
      ∧ Kept { v := p.vals.map (fun x => x.1), a := (p.cap.map (fun x => x.1)).toList, parts := [.fpx, .pend, .lent] } t w
      ∧ w.fpx = (if p.setsFpx then t.fpx ||| p.flags else t.fpx)
      ∧ w.pend = t.pend.eraseIdx k ∧ w.pc = t.pc ∧ w.status = t.status

/-- CVT, CVT2, QE4, QE2, DQ and BSCALE of R138 to R144: the destination and FPX, and nothing else. -/
def Claims.ConversionResults : Prop :=
  ∀ (h : Hdr) (m : FMod) (df sf : Fmt) (su du hi : Bool) (el : BitVec 3) (spec : BitVec 5) (d va : VReg) (a b c : Src)
    (s : State) (x : Cx), Executes h s x →
    let w16 := (src32 s x.thr b).extractLsb' 0 16
    let r := cvtVal m df sf su du (cvtSrc s x.thr sf a)
    let el2 := cvtElem m (fmtFF df) (fmtFF sf)
    let lo := if sf = .fp32 then el2 m.absA m.negA (src32 s x.thr a).toNat
      else el2 m.absA m.negA ((packedSrc s x.thr sf a).extractLsb' 0 16).toNat
    let hi2 := if sf = .fp32 then el2 false m.negB (src32 s x.thr b).toNat
      else el2 m.absA m.negA ((packedSrc s x.thr sf a).extractLsb' 16 16).toNat
    let q4 := quadCodes false m w16 (rdVs s x.thr va 4)
    let q2 := quadCodes true m w16 (rdVs s x.thr va 4)
    let codes : BitVec 16 := BitVec.ofNat 16 (fieldsNat 4 q2.1)
    let old := src32 s x.thr c
    (df.is64 = true → WritesD (.cvt h m df sf su du d a) s x h d r)
    ∧ (df.is64 = false → WritesF (.cvt h m df sf su du d a) s x h d r)
    ∧ (df = .fp32 → sf ≠ .fp32 →
        WritesD (.cvt2 h m df sf d a b) s x h d (lo.1 + 2 ^ 32 * hi2.1, lo.2 ||| hi2.2))
    ∧ (df ≠ .fp32 ∨ sf = .fp32 →
        WritesF (.cvt2 h m df sf d a b) s x h d (lo.1 + 2 ^ 16 * hi2.1, lo.2 ||| hi2.2))
    ∧ WritesF (.qe4 h m d va b) s x h d (fieldsNat 8 q4.1, q4.2)
    ∧ WritesF (.qe2 h m hi d va b c) s x h d
        ((if hi then codes ++ old.extractLsb' 0 16 else old.extractLsb' 16 16 ++ codes).toNat, q2.2)
    ∧ WritesF (.dq h m df sf el d a b) s x h d
        (toFloat (fmtFF df) (Rnd.ofBits m.rnd) m.ftz m.sat
          (dqNum (sf == .e2m1x)
            (if sf = .e2m1x then (src32 s x.thr a).toNat / 16 ^ el.toNat % 16
              else (src32 s x.thr a).toNat / 256 ^ el.toNat % 256) w16))
    ∧ (let A := (f32 (src32 s x.thr a)).abs
       let e2 := df == .e2m1x
       WritesF (.bscale h df spec d a) s x h d
        (((0#19 ++ (if e2 then spec else 0) ++ (if A.isNaN ∨ A.isInf then 0xFF#8 else BitVec.ofNat 8 (blockScaleE e2 A)) :
            Word)).toNat, if A.isNaN ∨ A.isInf then flagIV else 0))

/-- Rounding (R46) and the codes of the formats (R33, R35). -/
def Obligations.RoundingAndCodesAreCorrect : Prop :=
  Claims.RoundingIsCorrect ∧ Claims.EveryCodeEncodesItsValue

/-- FP32 and FP64 instructions of the A pipe, and FCLS (R126 to R131). -/
def Obligations.FloatResults : Prop :=
  Claims.SinglePrecisionResults ∧ Claims.DoublePrecisionResults ∧ Claims.ClassWordIsOneHot

/-- The packed instructions and the CNV class. -/
def Obligations.PackedAndConversionResults : Prop :=
  Claims.PackedResults ∧ Claims.ConversionResults

/-- X-pipe operations and every outstanding result: sent at issue, written when they land. -/
def Obligations.LongOperationsSendAndLand : Prop :=
  Claims.LongOperationsSendTheirResults ∧ Claims.ResultsLand

/-! ### Special registers -/

/-- SRD of R22 to R25: what each index of Table 1.5 reads, when its result is ready at once and when it is scoreboarded,
and the two latches. FPX waits for the updates still to come (R21). -/
def Claims.SpecialRegistersRead : Prop :=
  ∀ (h : Hdr) (d : VReg) (idx : BitVec 8) (s : State) (x : Cx), Executes h s x →
    let i := Instr.srd h d idx
    let wave := x.blk.wave (x.tid.tidx / 32)
    let now (n : Nat) (val : Word) : Prop := idx.toNat = n → WritesV i s x h d (fun v => v = val)
    let later (n : Nat) (val : Word) : Prop :=
      idx.toNat = n → Sends i s x h ⟨false, [(d, val, false)], none, 0, false⟩
    let clock (n : Nat) (val : BitVec 64) (post : Thread → Prop) : Prop :=
      idx.toNat = n → Goes i s x h { parts := [.pend, .latches] } (fun w =>
        w.pend = x.thr.pend ++ [⟨false, [(d, val.extractLsb' 0 32, false)], none, 0, false⟩] ∧ post w)
    let clk : BitVec 64 := BitVec.ofNat 64 s.cycle + (coreOf s x.coreId).clkOff
    let gts : BitVec 64 := BitVec.ofNat 64 (s.gtsBase + s.cycle / 4)
    (now 0x00 (BitVec.ofNat 32 x.tid.tidx) ∧ now 0x01 (BitVec.ofNat 32 (x.tid.tidx / 32))
      ∧ now 0x02 (BitVec.ofNat 32 (x.tid.tidx % 32)))
    ∧ (now 0x03 (BitVec.ofNat 32 x.blk.coord.1) ∧ now 0x04 (BitVec.ofNat 32 x.blk.coord.2.1)
      ∧ now 0x05 (BitVec.ofNat 32 x.blk.coord.2.2))
    ∧ (now 0x06 (BitVec.ofNat 32 x.blk.grid.1) ∧ now 0x07 (BitVec.ofNat 32 x.blk.grid.2.1)
      ∧ now 0x08 (BitVec.ofNat 32 x.blk.grid.2.2))
    ∧ (now 0x09 wave.flockw ∧ now 0x0A (BitVec.ofNat 32 wave.core) ∧ now 0x0B (BitVec.ofNat 32 x.blk.cluster)
      ∧ now 0x0C (BitVec.ofNat 32 (x.blk.cluster / 20)) ∧ now 0x0D (s.device.setWidth 32))
    ∧ (∀ c, ctxOf s x.blk.ctx = some c → now 0x18 c.stepReg)
    ∧ now 0x1A x.thr.rpaddr
    ∧ (∀ l, launchOf s x.blk.launch = some l →
        now 0x1C (if l.det then 1 else 0) ∧ now 0x1D (if l.chk then 1 else 0))
    ∧ (∀ k (hk : k < 16), x.thr.view.early s.cycle (sgenByte k) = false → now (0x20 + k) (x.thr.view.sgen[k]))
    ∧ clock 0x10 clk (fun w => w.clkh = clk.extractLsb' 32 32 ∧ w.gtsh = x.thr.gtsh)
    ∧ clock 0x12 gts (fun w => w.gtsh = gts.extractLsb' 32 32 ∧ w.clkh = x.thr.clkh)
    ∧ later 0x11 x.thr.view.clkh ∧ later 0x13 x.thr.view.gtsh
    ∧ later 0x1B (refwin s (x.blk.cluster / 20))
    ∧ now 0x30 (ovst s x.coreId x.blk.ctx)
    ∧ (fpxBusy s.cycle x.thr = false → idx = 0x19 →
        Sends i s x h ⟨false, [(d, x.thr.fpx.setWidth 32, x.thr.poisonF)], none, 0, false⟩)
    ∧ (fpxBusy s.cycle x.thr = true → idx = 0x19 → Waits i s x (.stalled .fpx))

/-- SWR of R20, R22 and R24: FPX takes bits [5:0] once the updates of earlier instructions have been applied; an SGEN word
takes the bits of Table 1.4 and no other word changes. -/
def Claims.SpecialRegistersWritten : Prop :=
  ∀ (h : Hdr) (idx : BitVec 8) (a : RC) (s : State) (x : Cx), Executes h s x →
    let i := Instr.swr h idx a
    let v := rc32 s x.thr a
    (idx = 0x19 → fpxBusy s.cycle x.thr = false →
      Goes i s x h { parts := [.fpx] } (fun w => w.fpx.toNat = v.toNat % 64))
    ∧ (idx = 0x19 → fpxBusy s.cycle x.thr = true → Waits i s x (.stalled .fpx))
    ∧ (∀ k (hk : k < 16), idx.toNat = 0x20 + k → Goes i s x h { parts := [.sgen] } (fun w =>
        w.sgen[k].toNat = v.toNat % 2 ^ (if k % 4 = 2 then 24 else if k % 4 = 3 then 5 else 32)
        ∧ ∀ j (hj : j < 16), j ≠ k → w.sgen[j] = x.thr.sgen[j]))

/-! ### Control flow -/

/-- BRA and BRX of R113: to a target that R64 and R111 accept, changing nothing but the program counter; else BRTGT with
the target. -/
def Claims.BranchesGo : Prop :=
  ∀ (h : Hdr) (off : Word) (a : VReg) (s : State) (x : Cx), Executes h s x →
    let accepted (pc : Nat) : Prop := entryOk s x.coreId x.blk.ctx x.thr.top pc = true
    let pc : Int := x.thr.pc.toNat + off.toInt
    let v := rdV s x.thr a
    let dest := v.toNat % 2 ^ 15
    let own := v.toNat / 2 ^ 24 = x.thr.top.toNat ∧ v.toNat / 2 ^ 15 % 2 ^ 9 = 0
    (0 ≤ pc → accepted pc.toNat → JumpsTo (.bra h off) s x h (BitVec.ofNat 16 pc.toNat) {} (fun _ => True))
    ∧ (¬(0 ≤ pc ∧ accepted pc.toNat) → TrapsOn (.bra h off) s x 0x02 0x00 (packAt x.thr.top pc) 0)
    ∧ (own → accepted dest → JumpsTo (.brx h a) s x h (BitVec.ofNat 16 dest) {} (fun _ => True))
    ∧ (¬(own ∧ accepted dest) → TrapsOn (.brx h a) s x 0x02 0x00 v 0)

/-- CALL and RET of R114, within the overlay and, for RET with XO = 1, back to the overlay below. -/
def Claims.CallsAndReturns : Prop :=
  ∀ (h : Hdr) (d : VReg) (off : Word) (a : VReg) (s : State) (x : Cx), Executes h s x →
    let accepted (id : BitVec 8) (pc : Nat) : Prop := entryOk s x.coreId x.blk.ctx id pc = true
    let pc : Int := x.thr.pc.toNat + off.toInt
    let v := rdV s x.thr a
    let id := v.extractLsb' 24 8
    let dest := v.toNat % 2 ^ 15
    let plain := v.toNat / 2 ^ 15 % 2 ^ 8 = 0 ∧ v.toNat % 8 ≤ 4
    let key := ovKey s x.coreId x.blk.ctx x.thr.top
    (0 ≤ pc → accepted x.thr.top pc.toNat →
      JumpsTo (.call h d off) s x h (BitVec.ofNat 16 pc.toNat) { v := [d] }
        (fun w => w.vreg d = packAddr x.thr.top false (nextSlot x.thr.pc)))
    ∧ (¬(0 ≤ pc ∧ accepted x.thr.top pc.toNat) → TrapsOn (.call h d off) s x 0x02 0x00 (packAt x.thr.top pc) 0)
    ∧ (plain → v.getLsbD 23 = false → id = x.thr.top → accepted id dest →
        JumpsTo (.ret h a) s x h (BitVec.ofNat 16 dest) {} (fun _ => True))
    ∧ (∀ below rest, plain → v.getLsbD 23 = true → x.thr.stack = x.thr.top :: below :: rest → id = below →
        accepted id dest →
        ∃ t w, exec (.ret h a) s = .next t
          ∧ Left (BitVec.ofNat 16 dest) s { t with cores := s.cores } x h { parts := [.stack] } w
          ∧ w.stack = below :: rest
          ∧ OnlyCore s t x.coreId (coreOf (dropRef s x.coreId key) x.coreId))
    ∧ (¬ plain ∨ ¬ accepted id dest ∨ (v.getLsbD 23 = false ∧ id ≠ x.thr.top)
        ∨ (v.getLsbD 23 = true ∧ ∀ top below rest, x.thr.stack = top :: below :: rest → id ≠ below) →
        TrapsOn (.ret h a) s x 0x02 0x00 v 0)

/-- CALLO and JMPO of R115 into an overlay that is resident, or draining and already on the stack: the reference is
taken, CALLO writes its return address and pushes, JMPO replaces the top and releases its reference. -/
def Claims.OverlaysEntered : Prop :=
  ∀ (h : Hdr) (d : VReg) (o : OvSel) (entry : BitVec 15) (s : State) (x : Cx) (e : OvEntry) (r : Resid), Executes h s x →
    let id := ovidOf s x.thr o
    let key := ovKey s x.coreId x.blk.ctx id
    let taken := addRef s x.coreId key
    let limit := if x.thr.trap.isSome then 9 else 8
    ovEntryOf s x.blk.ctx id = some e → (coreOf s x.coreId).find key = some r →
    (r.state = .resident ∨ (r.state = .draining ∧ id ∈ x.thr.stack)) →
    entryOk s x.coreId x.blk.ctx id entry.toNat = true →
    (x.thr.stack.length < limit → ∃ t w, exec (.callo h d o entry) s = .next t
      ∧ Left (0#1 ++ entry) s { t with cores := s.cores } x h { v := [d], parts := [.stack] } w
      ∧ w.vreg d = packAddr x.thr.top true (nextSlot x.thr.pc) ∧ w.stack = id :: x.thr.stack
      ∧ OnlyCore s t x.coreId ((coreOf s x.coreId).modResid key (fun r => { r with refs := r.refs + 1 })))
    ∧ (limit ≤ x.thr.stack.length →
        let w := encode (.callo h d o entry)
        TrapsOn (.callo h d o entry) s x 0x01 0x01 (w.extractLsb' 0 32) (w.extractLsb' 32 32))
    ∧ (∃ t w, exec (.jmpo h o entry) s = .next t
        ∧ Left (0#1 ++ entry) s { t with cores := s.cores } x h { parts := [.stack] } w
        ∧ w.stack = id :: x.thr.stack.tail
        ∧ OnlyCore s t x.coreId (coreOf (dropRef taken x.coreId (ovKey s x.coreId x.blk.ctx x.thr.top)) x.coreId))

/-- CALLO and JMPO of R115 where the overlay cannot be entered: an empty entry, an arrival that R64 or R111 refuses, which has
taken and released its reference, an overlay absent under OVMODE TRAP, and the waits. -/
def Claims.OverlaysNotEntered : Prop :=
  ∀ (h : Hdr) (d : VReg) (o : OvSel) (entry : BitVec 15) (s : State) (x : Cx), Executes h s x →
    let id := ovidOf s x.thr o
    let key := ovKey s x.coreId x.blk.ctx id
    let found := (coreOf s x.coreId).find key
    let trapping := launchFlag s x.blk Launch.ovTrap = true
    let limit := if x.thr.trap.isSome then 9 else 8
    ∀ i ∈ [Instr.callo h d o entry, .jmpo h o entry],
      (ovEntryOf s x.blk.ctx id = none → TrapsOn i s x 0x18 0x01 (id.setWidth 32) (entry.setWidth 32))
      ∧ (∀ e, ovEntryOf s x.blk.ctx id = some e → x.thr.stack.length < limit →
          (found = none → trapping → TrapsOn i s x 0x18 0x00 (id.setWidth 32) (entry.setWidth 32))
          ∧ (∀ r, found = some r → r.state = .resident → entryOk s x.coreId x.blk.ctx id entry.toNat = false →
              exec i s = .next (takeTrap (dropRef (addRef s x.coreId key) x.coreId key) x.tid
                ⟨0x02, 0x00, x.thr.pcWord, packAddr id false (0#1 ++ entry), 0⟩))
          ∧ (∀ r, found = some r → r.state = .draining → id ∉ x.thr.stack → Waits i s x (.waiting (.overlay id)))
          ∧ (∀ r, found = some r → r.state = .loading → trapping → Waits i s x (.waiting (.overlay id)))
          ∧ (∀ r, found = some r → r.state = .loading → ¬ trapping →
              ∃ t, exec i s = .next t ∧ OnlyThread s t x.tid { x.thr with status := .parkedLoad [id] (.call entry) }))

/-- OVLD, OVREL and OVQ of R120 on an overlay whose table entry is not empty, and on an empty one. -/
def Claims.OverlayTableInstructions : Prop :=
  ∀ (h : Hdr) (d : VReg) (o : OvSel) (s : State) (x : Cx), Executes h s x →
    let id := ovidOf s x.thr o
    let key := ovKey s x.coreId x.blk.ctx id
    let core := coreOf s x.coreId
    let room := x.thr.tokens.length < 8
    (ovEntryOf s x.blk.ctx id = none →
      TrapsOn (.ovld h d o) s x 0x18 0x01 (id.setWidth 32) 0
      ∧ Goes (.ovrel h o) s x h {} (fun _ => True)
      ∧ Sends (.ovq h d o) s x h ⟨false, [(d, 0, false), (d + 1, 0, false)], none, 0, false⟩)
    ∧ (∀ e, ovEntryOf s x.blk.ctx id = some e →
        (¬ room → Waits (.ovld h d o) s x (.stalled .tokenLimit))
        ∧ (core.find key = none → Goes (.ovrel h o) s x h {} (fun _ => True)
          ∧ Sends (.ovq h d o) s x h
              ⟨false, [(d, if e.pub then 4 else 0, false), (d + 1, 0, false)], none, 0, false⟩)
        ∧ ∀ r, core.find key = some r →
          (room → r.state = .loading →
            Goes (.ovld h d o) s x h { parts := [.tokens] } (fun w => w.tokens = x.thr.tokens ++ [⟨d, .load key, true⟩]))
          ∧ (room → r.state ≠ .loading → ∃ t w, exec (.ovld h d o) s = .next t
              ∧ Did s { t with cores := s.cores } x h { v := [d] } w ∧ w.vreg d = 0
              ∧ OnlyCore s t x.coreId (core.modResid key (fun r => { r with state := .resident })))
          ∧ (e.pub = true ∨ key.isPub = true ∨ r.state = .loading → Goes (.ovrel h o) s x h {} (fun _ => True))
          ∧ (e.pub = false → key.isPub = false → r.state ≠ .loading → ∃ t w, exec (.ovrel h o) s = .next t
              ∧ Did s { t with cores := s.cores } x h {} w
              ∧ OnlyCore s t x.coreId (if r.refs = 0 then core.evict key
                  else core.modResid key (fun r => { r with state := .draining })))
          ∧ (let st : Nat := match r.state with | .loading => 1 | .resident => 2 | .draining => 3
             Sends (.ovq h d o) s x h ⟨false,
              [(d, BitVec.ofNat 32 (min r.refs 0xFFFF * 2 ^ 16 + (if key.isPub then 4 else 0) + st), false),
               (d + 1, BitVec.ofNat 32 (r.len % 2 ^ 12 * 2 ^ 16 + (if r.state = .loading then 0 else r.base % 2 ^ 12)), false)],
              none, 0, false⟩))

/-- NOP, YIELD and TWAIT of R117 and R118. -/
def Claims.NopYieldAndTokenWait : Prop :=
  ∀ (h : Hdr) (a : Src) (s : State) (x : Cx), Executes h s x →
    let n := (src32 s x.thr a).toNat
    Goes (.nop h) s x h {} (fun w => w.sched.yielded = x.thr.sched.yielded)
    ∧ Goes (.yield h) s x h {} (fun w => w.sched.yielded = some s.cycle)
    ∧ (x.thr.tokens.length ≤ n → Goes (.twait h a) s x h {} (fun _ => True))
    ∧ (n < x.thr.tokens.length → Waits (.twait h a) s x (.waiting (.twait n)))

/-- EXIT of R116: it waits for every earlier instruction of the thread; then the thread is retired, its region closes in
whichever core's log its records lie (R180), its references are released, and a block whose threads have all retired retires
with it. -/
def Claims.ExitRetires : Prop :=
  ∀ (h : Hdr) (s : State) (x : Cx), Executes h s x →
    let done := x.thr.pend = [] ∧ x.thr.tokens = [] ∧ signedPending x.blk x.tid = false
    (¬ done → Waits (.exit h) s x (.stalled .exiting))
    ∧ (done → ∃ t w, exec (.exit h) s = .next t ∧ threadOf t x.tid = some w ∧ OthersSame s t x.tid
        ∧ w.status = .retired ∧ w.stack = [] ∧ Kept { parts := [.stack, .restart, .trap] } x.thr w
        ∧ { t with blocks := s.blocks, cores := s.cores, launches := s.launches } = s
        ∧ (∀ k, (coreOf t k).log = (coreOf s k).log.map (LogEntry.close x.tid))
        ∧ (∀ k, k ≠ x.coreId → { coreOf t k with log := (coreOf s k).log } = coreOf s k)
        ∧ (∀ slot, slot ≠ x.tid.slot → blockOf t slot = blockOf s slot)
        ∧ ((∀ k u, x.blk.threads[k]? = some u → k ≠ x.tid.tidx → u.status = .retired) →
            (∃ c, blockOf t x.tid.slot = some c ∧ c.phase = .retired)
            ∧ (∀ l, launchOf t l = if l = x.blk.launch then (launchOf s l).map (fun y => { y with retiredN := y.retiredN + 1 })
                else launchOf s l))
        ∧ (x.blk.phase ≠ .retired → (∃ k u, x.blk.threads[k]? = some u ∧ k ≠ x.tid.tidx ∧ u.status ≠ .retired) →
            t.launches = s.launches
            ∧ ∃ c, blockOf t x.tid.slot = some c ∧ { c with threads := x.blk.threads } = x.blk))

/-! ### Traps -/

/-- TRAP and BKPT (R119), and UDF whatever its guard (R86, R123): the trap is taken, with nothing else done. -/
def Claims.TrapInstructionsTrap : Prop :=
  ∀ (h : Hdr) (code : BitVec 16) (raw : IWord) (s : State) (x : Cx),
    (Executes h s x → TrapsOn (.trap h code) s x 0x20 0x00 (code.setWidth 32) 0
      ∧ TrapsOn (.bkpt h code) s x 0x21 0x00 (code.setWidth 32) 0)
    ∧ (curCx s = some x → TrapsOn (.udf raw) s x 0x01 0x00 (raw.extractLsb' 0 32) (raw.extractLsb' 32 32))

/-- Delivery of a trap (R249), where the handler overlay is in the store: the trap words are recorded, the handler is
pushed with a reference, and the thread continues at slot 0 with its own registers. -/
def Claims.TrapDelivered : Prop :=
  ∀ (s : State) (tid : ThreadId) (b : Block) (t : Thread) (c : Context) (hd : BitVec 8) (r : Trap),
    blockOf s tid.slot = some b → b.threads[tid.tidx]? = some t → ctxOf s b.ctx = some c → c.params.handler = some hd →
    t.trap = none → ¬(r.cause = 0x30 ∧ launchFlag s b Launch.replay = true) →
    let core := coreIdOf b tid
    let key := ovKey s core b.ctx hd
    (coreOf s core).usable key = true →
    ∃ w, OnlyThread s { takeTrap s tid r with cores := s.cores } tid w
      ∧ Kept { parts := [.stack, .trap] } t w
      ∧ w.trap = some ⟨r.cause, r.sub, r.pcWord, r.arg0, r.arg1, gtsOf s, t.pc, t.stack⟩
      ∧ w.stack = hd :: t.stack ∧ w.pc = 0 ∧ w.status = .ready
      ∧ OnlyCore s (takeTrap s tid r) core ((coreOf s core).modResid key (fun r => { r with refs := r.refs + 1 }))

/-- A fatal trap (R251, R253): without a handler, or in the handler, only the launch learns of it, with the cause, the
block and the six TINFO words, unless it has one of an earlier time, or of the same time from no higher source. -/
def Claims.TrapFatal : Prop :=
  ∀ (s : State) (tid : ThreadId) (b : Block) (t : Thread) (c : Context) (r : Trap) (l : Launch),
    blockOf s tid.slot = some b → b.threads[tid.tidx]? = some t → ctxOf s b.ctx = some c →
    (c.params.handler = none ∨ t.trap ≠ none) → ¬(r.cause = 0x30 ∧ launchFlag s b Launch.replay = true) →
    launchOf s b.launch = some l →
    let src := coreIdOf b tid
    let f : Fatal := ⟨r.cause, b.lin,
      [0#16 ++ r.sub ++ r.cause, r.pcWord, r.arg0, r.arg1, (gtsOf s).extractLsb' 0 32, (gtsOf s).extractLsb' 32 32],
      gtsOf s, src⟩
    let t' := takeTrap s tid r
    { t' with launches := s.launches } = s
    ∧ (∀ k, k ≠ b.launch → launchOf t' k = launchOf s k)
    ∧ (l.fatal = none → launchOf t' b.launch = some { l with fatal := some f })
    ∧ (∀ g, l.fatal = some g → (gtsOf s < g.gts ∨ gtsOf s = g.gts ∧ src < g.src) →
        launchOf t' b.launch = some { l with fatal := some f })
    ∧ (∀ g, l.fatal = some g → ¬(gtsOf s < g.gts ∨ gtsOf s = g.gts ∧ src < g.src) → launchOf t' b.launch = some l)

/-- ERET, ERET.SKIP and TINFO of R121 and R123; the return where the interrupted overlays are the ones below the handler's entry, or
are in the store. -/
def Claims.HandlerInstructions : Prop :=
  ∀ (h : Hdr) (word : BitVec 3) (d : VReg) (s : State) (x : Cx), Executes h s x →
    let key := ovKey s x.coreId x.blk.ctx x.thr.top
    let back (i : Instr) (r : TrapRec) (pc : BitVec 16) : Prop :=
      ∃ t w, exec i s = .next t
        ∧ Left pc s { t with cores := s.cores } x h { parts := [.stack, .trap, .drain] } w
        ∧ w.stack = r.stack ∧ w.trap = none
        ∧ OnlyCore s t x.coreId (coreOf (moveRefs (dropRef s x.coreId key) x.coreId x.blk.ctx x.thr.stack.tail r.stack) x.coreId)
    let illegal (i : Instr) (sub : BitVec 8) : Prop :=
      TrapsOn i s x 0x01 sub ((encode i).extractLsb' 0 32) ((encode i).extractLsb' 32 32)
    (∀ r, x.thr.trap = some r →
      (x.thr.stack.length = r.stack.length + 1 →
        (x.thr.stack.tail = r.stack ∨ ∀ id ∈ r.stack, (coreOf s x.coreId).usable (ovKey s x.coreId x.blk.ctx id) = true) →
        back (.eret h) r r.resume ∧ back (.eretSkip h) r (nextSlot r.resume))
      ∧ (x.thr.stack.length ≠ r.stack.length + 1 → illegal (.eret h) 0x04 ∧ illegal (.eretSkip h) 0x04)
      ∧ WritesV (.tinfo h word d) s x h d (fun v => v =
          match word.toNat with
          | 0 => 0#16 ++ r.sub ++ r.cause | 1 => r.pcWord | 2 => r.arg0 | 3 => r.arg1
          | 4 => r.gts.extractLsb' 0 32 | 5 => r.gts.extractLsb' 32 32 | _ => 0))
    ∧ (x.thr.trap = none → illegal (.eret h) 0x03 ∧ illegal (.eretSkip h) 0x03
        ∧ WritesV (.tinfo h word d) s x h d (fun v => v = 0))

/-- Rollback (R247), outside the handler: the thread parks on its fault at the last restart point with the overlay stack
recorded there and its region's counts, its open records leave the logs, and no register but one that a pending token
names has changed. -/
def Claims.RollbackReturnsToTheRestartPoint : Prop :=
  ∀ (s : State) (x : Cx) (f : PageFault), curCx s = some x → x.thr.trap = none →
    ∃ w, threadOf (rollback s x f) x.tid = some w ∧ OthersSame s (rollback s x f) x.tid
      ∧ MemSame s (rollback s x f)
      ∧ w.pc = 0#1 ++ x.thr.rpaddr.extractLsb' 0 15 ∧ w.stack = x.thr.rpStack ∧ w.counts = x.thr.region
      ∧ w.status = .parkedFault [f] s.cycle ∧ w.pend = x.thr.pend ∧ w.fpx = x.thr.fpx ∧ w.p = x.thr.p ∧ w.a = x.thr.a
      ∧ (∀ r, (∀ k ∈ x.thr.tokens, k.reg ≠ r) → w.vreg r = x.thr.vreg r)
      ∧ ∀ k, (coreOf (rollback s x f) k).log =
          (coreOf s k).log.filter (fun e => match e with | .record r o => !(o && r.ofThread x.tid) | _ => true)

/-- SRD and SWR of R22 to R25. -/
def Obligations.SpecialRegistersReadAndWritten : Prop :=
  Claims.SpecialRegistersRead ∧ Claims.SpecialRegistersWritten

/-- BRA, BRX, CALL and RET of R113 and R114. -/
def Obligations.BranchesCallsAndReturns : Prop :=
  Claims.BranchesGo ∧ Claims.CallsAndReturns

/-- CALLO, JMPO, OVLD, OVREL and OVQ of R115 and R120. -/
def Obligations.OverlaysAreEnteredAndKept : Prop :=
  Claims.OverlaysEntered ∧ Claims.OverlaysNotEntered ∧ Claims.OverlayTableInstructions

/-- NOP, YIELD, TWAIT and EXIT of R116 to R118. -/
def Obligations.WaitsYieldsAndExit : Prop :=
  Claims.NopYieldAndTokenWait ∧ Claims.ExitRetires

/-- Every instruction that acts on registers of its own thread alone completes, whatever its operands hold: INT, PRD, FLT and CNV,
NOP and YIELD; TWAIT where no more tokens are pending than it names, SRD and SWR of FPX where no earlier update is still to come,
MOV from a q register without operations of the thread, and EXIT where all the thread has issued is complete. The thread then stands
ready at the next slot, or is retired, no trap has been taken, and no other thread has changed (R67, R82, R93 to R98, R116 to R118,
R126 to R131, R138 to R144). -/
def Obligations.RegisterInstructionsComplete : Prop :=
  ∀ (h : Hdr) (m : FMod) (ns ftz nan su du hi : Bool) (cmp : Cmp) (k : Comb) (df sf : Fmt) (el : BitVec 3) (spec : BitVec 5)
    (p pa pb pc : PReg) (table idx : BitVec 8) (q : QReg) (val : Word) (d va : VReg) (a b c : Src) (r : RC) (s : State) (x : Cx),
    Executes h s x →
    let completes (i : Instr) : Prop := ∃ t w, exec i s = .next t ∧ threadOf t x.tid = some w ∧ w.status = .ready
      ∧ w.pc = nextSlot x.thr.pc ∧ w.trap = x.thr.trap ∧ OthersSame s t x.tid
    (∀ i ∈ ([.nop h, .yield h] : List Instr), completes i)
    ∧ (∀ i ∈ ([.iadd h d a b, .isub h d a b, .imul h d a b, .imulh h ns d a b, .imulw h ns d a b, .imad h ns d a b c,
        .imin h ns d a b, .imax h ns d a b, .iabs h d a, .iadds h ns d a b, .isubs h ns d a b, .and h d a b, .or h d a b,
        .xor h d a b, .andn h d a b, .shl h d a b, .shr h d a b, .sar h d a b, .bfe h ns d a b, .bfi h d a b c, .popc h d a,
        .clz h d a, .brev h d a, .iadd64 h d a b, .isub64 h d a b, .shl64 h d a b, .shr64 h d a b, .sar64 h d a b] : List Instr),
        completes i)
    ∧ (∀ i ∈ ([.cmpi h ns cmp k p a b, .cmpf h ftz nan cmp k p a b, .cmpd h ftz nan cmp k p a b, .cmph h ftz nan cmp k p a b,
        .pfun h p pa pb pc table, .sel h d a b pc, .mov h d (.src a), .movi h d val, .ptov h d, .vtop h a b] : List Instr),
        completes i)
    ∧ (∀ i ∈ ([.fadd h m d a b, .fsub h m d a b, .fmul h m d a b, .ffma h m d a b c, .fmin h m d a b, .fmax h m d a b,
        .frcp h m d a, .frsq h m d a, .fsqrt h m d a, .fdiv h m d a b, .fexp2 h m d a, .flog2 h m d a, .frnd h m d a, .fcls h m d a,
        .dadd h m d a b, .dmul h m d a b, .dfma h m d a b c, .dmin h m d a b, .dmax h m d a b, .ddiv h m d a b, .dsqrt h m d a,
        .hadd2 h m d a b, .hmul2 h m d a b, .hfma2 h m d a b c, .hmin2 h m d a b, .hmax2 h m d a b, .badd2 h m d a b,
        .bmul2 h m d a b, .bfma2 h m d a b c, .bmin2 h m d a b, .bmax2 h m d a b] : List Instr), completes i)
    ∧ (∀ i ∈ ([.cvt h m df sf su du d a, .cvt2 h m df sf d a b, .qe4 h m d va b, .qe2 h m hi d va b c, .dq h m df sf el d a b,
        .bscale h df spec d a] : List Instr), completes i)
    ∧ (x.thr.tokens.length ≤ (src32 s x.thr a).toNat → completes (.twait h a))
    ∧ ((idx = 0x19 → fpxBusy s.cycle x.thr = false) → completes (.srd h d idx) ∧ completes (.swr h idx r))
    ∧ (signedOn x.blk x.tid q = false → completes (.mov h d (.q q)))
    ∧ (x.thr.pend = [] → x.thr.tokens = [] → signedPending x.blk x.tid = false →
        ∃ t w, exec (.exit h) s = .next t ∧ threadOf t x.tid = some w ∧ w.status = .retired ∧ OthersSame s t x.tid)

/-- TRAP, BKPT and UDF, delivery of a trap, and a fatal trap (R119, R249, R251, R253). -/
def Obligations.TrapsAreTaken : Prop :=
  Claims.TrapInstructionsTrap ∧ Claims.TrapDelivered ∧ Claims.TrapFatal

/-- ERET, ERET.SKIP, TINFO and rollback. -/
def Obligations.HandlersReturnAndThreadsRollBack : Prop :=
  Claims.HandlerInstructions ∧ Claims.RollbackReturnsToTheRestartPoint

/-! ### Wave collectives -/

/-- BALLOT, VOTE, SHFL and MATCH of R104 and R105 over an instance whose members have all arrived: what each present
member receives; the absent ones only go on. -/
def Obligations.VotesAndShuffles : Prop :=
  ∀ (h : Hdr) (mask : Word) (vop : VoteOp) (sop : ShflOp) (d : VReg) (pd pa : PReg) (a : Src) (b : RC) (s : State)
    (x : Cx) (T : Nat → Thread),
    let P := presentLane s h mask T
    let A (n : Nat) : Word := src32 s (T n) a
    let truth : Prop := match vop with
      | .all => ∀ n, P n = true → rdP s (T n) pa = true
      | .any => ∃ n, P n = true ∧ rdP s (T n) pa = true
      | .uni => ∀ n k, P n = true → P k = true → rdP s (T n) pa = rdP s (T k) pa
    let from' (n : Nat) : Int :=
      let v := rc32 s (T n) b
      match sop with
      | .idx => v.toNat
      | .up => n - v.toNat
      | .down => n + v.toNat
      | .xor => (n ^^^ (v.toNat % 32) : Nat)
    (Gathered (.ballot h mask d pa) h s x mask T →
      InstanceGoes (.ballot h mask d pa) h s x mask T { v := [d] } (fun _ w =>
        ∀ k, (w.vreg d).getLsbD k = true ↔ P k = true ∧ rdP s (T k) pa = true))
    ∧ (Gathered (.vote h mask vop pd pa) h s x mask T →
      InstanceGoes (.vote h mask vop pd pa) h s x mask T { p := [pd] } (fun _ w =>
        w.preg pd = true ↔ pd = 7#3 ∨ truth))
    ∧ (Gathered (.shfl h mask sop d a b) h s x mask T →
      InstanceGoes (.shfl h mask sop d a b) h s x mask T { v := [d] } (fun n w =>
        (∀ k : Nat, from' n = k → P k = true → w.vreg d = A k)
        ∧ ((∀ k : Nat, from' n = k → P k = false) → w.vreg d = A n)))
    ∧ (Gathered (.matchEq h mask d a) h s x mask T →
      InstanceGoes (.matchEq h mask d a) h s x mask T { v := [d] } (fun n w =>
        ∀ k, (w.vreg d).getLsbD k = true ↔ P k = true ∧ A k = A n))

namespace Sys2Proof.Machine

/-- The values of the present lanes below n, lowest lane first. -/
def lanesBelow (s : State) (h : Hdr) (mask : Word) (T : Nat → Thread) (a : Src) (n : Nat) : List Word :=
  ((List.range n).filter (presentLane s h mask T)).map (fun k => src32 s (T k) a)

/-- A of a lane that is present. -/
def leafOf (s : State) (h : Hdr) (mask : Word) (T : Nat → Thread) (a : Src) (k : Nat) : Option Word :=
  if presentLane s h mask T k then some (src32 s (T k) a) else none

end Sys2Proof.Machine

/-- WRED and WSCAN of R106 with an integer operator: every present member gets the values of the present lanes (WRED),
of those up to its own (WSCAN) or below it (EXCL), combined in lane order from the identity of Table 4.8; no flag is
set. -/
def Claims.IntegerReductionsAndScans : Prop :=
  ∀ (h : Hdr) (mask : Word) (op : RedOp) (excl : Bool) (d : VReg) (a : Src) (s : State) (x : Cx) (T : Nat → Thread),
    let total (n : Nat) : Word := (lanesBelow s h mask T a n).foldl (redInt op) (wIdentity (.int op))
    (Gathered (.wred h mask (.int op) d a) h s x mask T →
      InstanceGoes (.wred h mask (.int op) d a) h s x mask T { v := [d], parts := [.fpx] } (fun n w =>
        w.vreg d = total 32 ∧ w.fpx = (T n).fpx))
    ∧ (Gathered (.wscan h mask (.int op) excl d a) h s x mask T →
      InstanceGoes (.wscan h mask (.int op) excl d a) h s x mask T { v := [d], parts := [.fpx] } (fun n w =>
        w.vreg d = total (if excl then n else n + 1) ∧ w.fpx = (T n).fpx))

/-- WRED and WSCAN of R106 and R107 with a float operator: the tree of R56 and the scan of R57 over the present lanes; a
result that is NaN is the canonical one (R43); the flags of every Op performed, and NFR for the value written. -/
def Claims.FloatReductionsAndScans : Prop :=
  ∀ (h : Hdr) (mask : Word) (op : WOp) (excl : Bool) (d : VReg) (a : Src) (s : State) (x : Cx) (T : Nat → Thread),
    (∀ o, op ≠ .int o) →
    let P := presentLane s h mask T
    let leaf := leafOf s h mask T a
    let written (v : Word) : Word := if (f32 v).isNaN then 0x7FC00000#32 else v
    let nfr (v : Word) : Flags := if (f32 v).isNaN || (f32 v).isInf then flagNFR else 0
    let scan (n : Nat) : Node := scanNode (wOp op) leaf (if excl then n else n + 1)
    let flagsOf (r : Node) : Flags := match r with | some v => v.2 | none => 0
    (Gathered (.wred h mask op d a) h s x mask T →
      InstanceGoes (.wred h mask op d a) h s x mask T { v := [d], parts := [.fpx] } (fun n w =>
        ∃ r, treeNode (wOp op) leaf 5 0 = some r
          ∧ w.vreg d = written r.1 ∧ w.fpx = fpxAfter h (T n).fpx (r.2 ||| nfr r.1)))
    ∧ (Gathered (.wscan h mask op excl d a) h s x mask T →
      InstanceGoes (.wscan h mask op excl d a) h s x mask T { v := [d], parts := [.fpx] } (fun n w =>
        let all := (((List.range 32).filter P).map (fun k => flagsOf (scan k))).foldl (· ||| ·) 0
        (∀ r, scan n = some r → w.vreg d = written r.1 ∧ w.fpx = fpxAfter h (T n).fpx (all ||| nfr r.1))
        ∧ (scan n = none → w.vreg d = wIdentity op ∧ w.fpx = fpxAfter h (T n).fpx all)))

/-- WSYNC (R101, R108), and how a thread comes to an instance: a mask without its own lane traps in it alone, or, where
its guard is false, lets it go on (log 91); where a lane of the mask has not arrived, the thread is held with that mask and
nothing else changes. -/
def Claims.ArrivalAtACollective : Prop :=
  ∀ (h : Hdr) (mask : Word) (vop : VoteOp) (sop : ShflOp) (wop : WOp) (excl : Bool) (d : VReg) (pd pa : PReg) (a : Src)
    (b : RC) (s : State) (x : Cx) (T : Nat → Thread), curCx s = some x →
    (∀ i ∈ [Instr.ballot h mask d pa, .vote h mask vop pd pa, .shfl h mask sop d a b, .wred h mask wop d a,
        .wscan h mask wop excl d a, .matchEq h mask d a, .wsync h mask],
      (mask.getLsbD (x.tid.tidx % 32) = false → registerTrap s x.thr (chkOf s x.blk) h i = none →
        (guardOf s x.thr h = true →
          TrapsOn i s x 0x01 0x02 ((encode i).extractLsb' 0 32) ((encode i).extractLsb' 32 32))
        ∧ (guardOf s x.thr h = false → ∃ t w, exec i s = .next t ∧ Did s t x h {} w))
      ∧ (mask.getLsbD (x.tid.tidx % 32) = true →
        (∃ n, mask.getLsbD n = true ∧ n ≠ x.tid.tidx % 32 ∧ ∀ u, threadOf s (laneTid x n) = some u →
          ¬(u.status = .held mask ∧ u.pc = x.thr.pc ∧ u.top = x.thr.top)) →
        ∃ t, exec i s = .next t ∧ OnlyThread s t x.tid { x.thr with status := .held mask, nextIssue := s.cycle + 1 }))
    ∧ (Gathered (.wsync h mask) h s x mask T → x.blk.cores.length ≤ 1 →
        InstanceGoes (.wsync h mask) h s x mask T {} (fun _ _ => True))
    ∧ (Gathered (.wsync h mask) h s x mask T → 1 < x.blk.cores.length →
        ∃ t, exec (.wsync h mask) s = .next t
          ∧ MembersGo h s { t with cores := s.cores } x mask T {} (fun _ _ => True)
          ∧ OnlyCore s t x.coreId { coreOf s x.coreId with l1 := (coreOf s x.coreId).l1.filter L1Line.excl })

/-- A trap raised when an instance issues is raised in every member (R238, R248): the state is that of every member taking
the trap of the lowest lane whose registers trap. -/
def Claims.InstanceTrapsInEveryMember : Prop :=
  ∀ (h : Hdr) (mask : Word) (d : VReg) (pa : PReg) (s : State) (x : Cx) (T : Nat → Thread) (k : Nat) (r : Trap),
    curCx s = some x → mask.getLsbD (x.tid.tidx % 32) = true → T (x.tid.tidx % 32) = x.thr →
    (∀ n, mask.getLsbD n = true → threadOf s (laneTid x n) = some (T n)
      ∧ (n ≠ x.tid.tidx % 32 → (T n).status = .held mask ∧ (T n).pc = x.thr.pc ∧ (T n).top = x.thr.top)) →
    mask.getLsbD k = true → registerTrap s (T k) (chkOf s x.blk) h (.ballot h mask d pa) = some r →
    (∀ n, n < k → mask.getLsbD n = true → registerTrap s (T n) (chkOf s x.blk) h (.ballot h mask d pa) = none) →
    exec (.ballot h mask d pa) s =
      .next (((List.range 32).filter (fun n => mask.getLsbD n)).foldl (fun t n => takeTrap t (laneTid x n) r) s)

/-- WRED and WSCAN of R106 and R107. -/
def Obligations.ReductionsAndScans : Prop :=
  Claims.IntegerReductionsAndScans ∧ Claims.FloatReductionsAndScans

/-- Arrival at a wave collective, WSYNC, and a trap of an instance. -/
def Obligations.InstancesFormAndTrap : Prop :=
  Claims.ArrivalAtACollective ∧ Claims.InstanceTrapsInEveryMember

/-! ### Loads and stores -/

/-- LD, LDAGE and LDC of R153, R158 and R159, for an access that R146 lets through and that translates: the loaded bytes
are on their way to the registers, from memory, or from the line that serves the load in the core's L1; nothing else
changes but L1 copies. LDAGE is on its way with its value at the step the context has now. -/
def Claims.LoadsReadObjectMemory : Prop :=
  ∀ (h : Hdr) (m : LdMod) (d : VReg) (da : AReg) (a : CapAddr) (s s' : State) (x : Cx) (mp : Mapped) (recd : Bool),
    Executes h s x →
    let c := rdA s x.thr a.a
    let off := capOff s x.thr a
    let o := off.toNat
    let n := m.wid.bytes
    let ready := mp.loc.ws = true → inRefresh s' (wsDie mp.loc.addr) = false
    let missing (ch : CacheHint) (coh : Bool) := l1Copy s' x.coreId x.blk.ctx c.obj o mp ch coh = none
    let loads (i : Instr) (post : Pend → Prop) : Prop :=
      ∃ t w p, exec i s = .next t ∧ Did s' { t with cores := s'.cores } x h { parts := [.pend] } w
        ∧ w.pend = x.thr.pend ++ [p] ∧ post p
    translate s x.blk.ctx (some x.blk.launch) ⟨c.obj, o, .read, false, false⟩ = (s', .ok mp recd) →
    (Permits c [0] off n → missing m.ch (coherent m.acq) → ready →
      loads (.ld h m d a) (fun p => p.cap = none ∧ p.setsFpx = false
        ∧ Lands d n m.sx (mp.byte s') (poisonedAt s' mp) p.vals))
    ∧ (∀ l, Permits c [0] off n → l1Copy s' x.coreId x.blk.ctx c.obj o mp m.ch (coherent m.acq) = some l →
        o % 128 + n ≤ l.bytes.length →
        loads (.ld h m d a) (fun p => p.cap = none ∧ p.setsFpx = false
          ∧ Lands d n m.sx (fun j => l.bytes.getD (o % 128 + j) 0) (fun _ => false) p.vals))
    ∧ (Permits c [0] off 8 → missing .dflt false → ready →
        let word (j k : Nat) : Nat := leNat ((List.range k).map (fun i => mp.byte s' (j + i)))
        let step := (stepOf s' x.blk.ctx).extractLsb' 0 16
        let r := agedRead (BitVec.ofNat 32 (word 0 4)) (BitVec.ofNat 16 (word 4 2)) step (objL mp.oe).toNat
        loads (.ldage h d a) (fun p => p.cap = none
          ∧ p.vals = [(d, toF32 r.1, (List.range 8).any (poisonedAt s' mp))]
          ∧ p.setsFpx = true ∧ p.flags = if h.nf then 0 else r.2))
    ∧ (Permits c [0, 4] off 16 → missing .dflt false → ready →
        loads (.ldc h da a) (fun p => p.vals = [] ∧ p.setsFpx = false ∧ ∃ v bad, p.cap = some (da, v, bad)
          ∧ (∀ j, j < 16 → v.bits.extractLsb' (8 * j) 8 = mp.byte s' j)
          ∧ v.tag = (objCapa mp.oe && tagAt s' mp)
          ∧ (bad = true ↔ ∃ i, i < 16 ∧ poisonedAt s' mp i = true)))

/-- ST and STC of R154 and R160 onto a page of stacked DRAM that is neither deferred, compressed nor migrating: the stored bytes,
lowest first, and no other byte, as read under the object's key; the tags of the granules touched are cleared, and STC stores
its own. -/
def Obligations.StoresWriteObjectMemory : Prop :=
  ∀ (h : Hdr) (m : StMod) (a : CapAddr) (v : RC) (va : AReg) (s s' : State) (x : Cx) (mp : Mapped), Executes h s x →
    let c := rdA s x.thr a.a
    let off := capOff s x.thr a
    let n := m.wid.bytes
    let val := rdA s x.thr va
    memoryWf s' → mp.loc.ws = false → pageCmp mp.pe = false → migrationAt s' mp.peAddr = none →
    (Permits c [1] off n →
      translate s x.blk.ctx (some x.blk.launch) ⟨c.obj, off.toNat, .write, false, false⟩ = (s', .ok mp false) →
      ∃ t w, exec (.st h m a v) s = .next t ∧ At (nextSlot x.thr.pc) s h w ∧ Kept {} x.thr w
        ∧ DramWrite s' t x w (mp.key s') mp.loc.addr n (storeByte s x.thr v) false ∧ t.poison = s'.poison)
    ∧ (Permits c [1, 5] off 16 → (val.tag = true → val.rights.getLsbD 6 = true) → mp.loc.addr % 16 = 0 →
      translate s x.blk.ctx (some x.blk.launch) ⟨c.obj, off.toNat, .write, true, false⟩ = (s', .ok mp false) →
      ∃ t w, exec (.stc h a va) s = .next t ∧ At (nextSlot x.thr.pc) s h w ∧ Kept {} x.thr w
        ∧ DramWrite s' t x w (mp.key s') mp.loc.addr 16 (fun j => val.bits.extractLsb' (8 * j) 8) val.tag ∧ t.poison = s'.poison)

/-- ST onto a deferred page (R177, R277): memory is not written; the record goes into the core's log, open, with the
thread's sequence number and commit epochs. Here the log holds no record that could absorb it. -/
def Claims.StoresOnDeferredPagesFormRecords : Prop :=
  ∀ (h : Hdr) (m : StMod) (a : CapAddr) (v : RC) (s s' s'' : State) (x : Cx) (mp : Mapped), Executes h s x →
    let c := rdA s x.thr a.a
    let off := capOff s x.thr a
    let val := dataOf s x.thr m.wid v
    Permits c [1] off m.wid.bytes → m.wid ≠ .w128 →
    translate s x.blk.ctx (some x.blk.launch) ⟨c.obj, off.toNat, .write, false, false⟩ = (s', .ok mp true) →
    (∀ e, formRecs s' x.tid mp (storeReqs m.wid val) = .error e → (e.isStaging = false ∨ x.thr.stgOut = false) →
      ∃ t, exec (.st h m a v) s = .next t ∧ OnlyThread s' t x.tid (x.thr.hold s'.cycle (.stalled e)))
    ∧ (∀ e, formRecs s' x.tid mp (storeReqs m.wid val) = .error e → e.isStaging = true → x.thr.stgOut = true →
      exec (.st h m a v) s = .next (takeTrap s' x.tid ⟨causeStgfull, 0, x.thr.pcWord,
        BitVec.ofNat 32 ((x.blk.charge + 4095) / 4096), BitVec.ofNat 32 (quotaBytes s' x.blk / 4096)⟩))
    ∧ (formRecs s' x.tid mp (storeReqs m.wid val) = .ok s'' →
      (coreOf s' x.coreId).log.flatMap recOfLog = [] →
      ∃ t w r, exec (.st h m a v) s = .next t ∧ threadOf t x.tid = some w ∧ At (nextSlot x.thr.pc) s h w
        ∧ OthersSame s' t x.tid ∧ MemSame s' t ∧ Kept { parts := [.counts] } x.thr w
        ∧ w.counts = { x.thr.counts with seq := x.thr.counts.seq + 1 }
        ∧ (coreOf t x.coreId).log = (coreOf s' x.coreId).log ++ [.record r true]
        ∧ r.val = val ∧ r.opc = 0 ∧ r.wid = BitVec.ofNat 2 m.wid.code.toNat ∧ r.paddr = BitVec.ofNat 39 mp.paddr
        ∧ r.seq = x.thr.counts.seq ∧ r.tep = BitVec.ofNat 4 x.thr.counts.kt ∧ r.bep = BitVec.ofNat 4 x.thr.counts.kb
        ∧ r.gep = BitVec.ofNat 4 x.thr.counts.kg ∧ r.pep = BitVec.ofNat 4 x.thr.counts.kp
        ∧ r.wave = BitVec.ofNat 8 (x.tid.tidx / 32) ∧ r.lane = BitVec.ofNat 5 (x.tid.tidx % 32)
        ∧ r.bslot = BitVec.ofNat 15 x.tid.slot ∧ r.block = BitVec.ofNat 32 x.blk.lin)

/-- The four checks of R146 on LD and ST, in their order, the first failure trapping; then translation: a fault is noted
at the cluster and rolls the thread back (R247), a weight-store load that no L1 line serves waits for the end of a refresh
window, and a store is held at a page whose directory holds writes (R322, R373). -/
def Obligations.AccessChecksTrapInOrder : Prop :=
  ∀ (h : Hdr) (l : LdMod) (st : StMod) (d : VReg) (a : CapAddr) (v : RC) (s : State) (x : Cx), Executes h s x →
    let c := rdA s x.thr a.a
    let off := capOff s x.thr a
    let lo : Word := BitVec.ofInt 32 off
    let hi : Word := BitVec.ofNat 32 (off / 2 ^ 32 % 2 ^ 9).toNat
    ∀ p ∈ [(Instr.ld h l d a, 0, l.wid, Acc.read), (.st h st a v, 1, st.wid, .write)],
      let i := p.1
      let right := p.2.1
      let n := p.2.2.1.bytes
      let inside := (c.base : Int) ≤ off ∧ off + n ≤ (c.top : Int)
      let rights : Word := c.rights.setWidth 32
      (c.tag = false → TrapsOn i s x 0x10 0 ((0x40#8 + a.a.setWidth 8).setWidth 32) 0)
      ∧ (c.tag = true → c.rights.getLsbD right = false → TrapsOn i s x 0x12 (BitVec.ofNat 8 right) rights 0)
      ∧ (c.tag = true → c.rights.getLsbD right = true → ¬ inside → TrapsOn i s x 0x11 0 lo hi)
      ∧ (c.tag = true → c.rights.getLsbD right = true → inside → off % n ≠ 0 →
          TrapsOn i s x 0x13 (p.2.2.1.code.setWidth 8) lo hi)
      ∧ (∀ s' f, Permits c [right] off n →
          translate s x.blk.ctx (some x.blk.launch) ⟨c.obj, off.toNat, p.2.2.2, false, false⟩ = (s', .fault f) →
          exec i s = .next (rollback (clusterFault s' x.blk.cluster x.blk.ctx f) x f))
      ∧ (∀ s' mp g recd, Permits c [right] off n →
          translate s x.blk.ctx (some x.blk.launch) ⟨c.obj, off.toNat, p.2.2.2, false, false⟩ = (s', .ok mp recd) →
          (right = 0 → mp.loc.ws = true → inRefresh s' (wsDie mp.loc.addr) = true →
            l1Copy s' x.coreId x.blk.ctx c.obj off.toNat mp l.ch (coherent l.acq) = none →
            ∃ t, exec i s = .next t
              ∧ { t with cores := s'.cores } = setThread s' x.tid (x.thr.hold s'.cycle (.stalled (.refresh (wsDie mp.loc.addr)))))
          ∧ (right = 1 → recd = false → migrationAt s' mp.peAddr = some g → g.locked = true →
            ∃ t since, exec i s = .next t
              ∧ OnlyThread s' t x.tid (x.thr.hold s'.cycle (.stalled (.migrating g.obj g.off since)))))

/-- LDL, STL, LDA and STA of R153 and R154: an aligned range within the slice or the tiles is read little-endian, or
written and nothing else; STL on a typed range traps BARWR (R157). A tile lent to the engine, or one that a running
operation writes, reads undefined (R214). -/
def Claims.LocalLoadsAndStores : Prop :=
  ∀ (h : Hdr) (l : LdMod) (st : StMod) (wd : Wid) (d : VReg) (a : LocAddr) (v : RC) (s : State) (x : Cx),
    Executes h s x → memoryWf s →
    let off := localOff s x.thr a
    let o := off.toNat
    let slot := x.tid.slot
    let tile := o / 2048
    let key := x.core * 2 ^ 18 + o
    let inAcc := 0 ≤ off ∧ off < 2 ^ 18 ∧ off + wd.bytes ≤ 2048 * x.blk.tilesN ∧ off % wd.bytes = 0
    let lent := x.thr.view.tileLent tile = true
    (inWindow x.blk off l.wid.bytes = true → off % l.wid.bytes = 0 →
      ∃ t w p, exec (.ldl h l d a) s = .next t ∧ Did s { t with cores := s.cores } x h { parts := [.pend] } w
        ∧ w.pend = x.thr.pend ++ [p] ∧ p.cap = none ∧ p.setsFpx = false
        ∧ Lands d l.wid.bytes l.sx (fun j => spadByte s slot (o + j)) (fun j => spadPoisoned x.blk (o + j)) p.vals)
    ∧ (inWindow x.blk off st.wid.bytes = true → off % st.wid.bytes = 0 → typedWhy x.blk o st.wid.bytes = none →
      ∃ t w, exec (.stl h st a v) s = .next t ∧ At (nextSlot x.thr.pc) s h w ∧ Kept {} x.thr w
        ∧ LocalWrite s t x w (patched (spadByte s slot) o st.wid.bytes (storeByte s x.thr v)) (tileByte s slot))
    ∧ (inWindow x.blk off st.wid.bytes = true → off % st.wid.bytes = 0 →
      ∀ p, x.blk.types.find? (fun p => decide (p.1 < o + st.wid.bytes ∧ o < p.1 + 16)) = some p →
        TrapsOn (.stl h st a v) s x 0x15 (if p.2 = .barrier then 0 else 1)
          (BitVec.ofNat 32 (if p.2 = .barrier then p.1 else p.1 / 32 * 32)) 0)
    ∧ (inWindow x.blk off st.wid.bytes = false → TrapsOn (.stl h st a v) s x 0x11 0x01 (BitVec.ofInt 32 off) 0)
    ∧ (inAcc → ¬ lent → tileBusy x.blk x.core tile = false →
      ∃ t w p, exec (.lda h wd d a) s = .next t ∧ Did s t x h { parts := [.pend] } w
        ∧ w.pend = x.thr.pend ++ [p] ∧ p.cap = none ∧ p.setsFpx = false
        ∧ Lands d wd.bytes false (fun j => tileByte s slot (key + j)) (fun j => tilePoisoned x.blk (key + j)) p.vals)
    ∧ (inAcc → (lent ∨ tileBusy x.blk x.core tile = true) → ¬(lent ∧ chkOf s x.blk = true) →
      ∃ t w p, exec (.lda h wd d a) s = .next t ∧ Did s t x h { parts := [.pend] } w
        ∧ w.pend = x.thr.pend ++ [p] ∧ p.cap = none ∧ p.setsFpx = false ∧ p.vals.length = (wd.bytes + 3) / 4)
    ∧ (inAcc → ¬(lent ∧ chkOf s x.blk = true) →
      ∃ t w, exec (.sta h wd a v) s = .next t ∧ At (nextSlot x.thr.pc) s h w ∧ Kept { parts := [.lent] } x.thr w
        ∧ LocalWrite s t x w (spadByte s slot) (patched (tileByte s slot) key wd.bytes (storeByte s x.thr v))
        ∧ (¬ lent → x.thr.snap = none → w.lent = x.thr.lent))
    ∧ (0 ≤ off → lent → chkOf s x.blk = true →
      TrapsOn (.lda h wd d a) s x 0x04 0x01 (a.idx.byte.setWidth 32) 0
      ∧ TrapsOn (.sta h wd a v) s x 0x04 0x01 (a.idx.byte.setWidth 32) 0)

/-- PRF of R161: it never traps and never faults, and changes nothing but L1 copies and, for a version that its offset
names first, the binding of R376. -/
def Claims.PrefetchChangesNoValue : Prop :=
  ∀ (h : Hdr) (a : CapAddr) (s : State) (x : Cx), Executes h s x →
    let c := rdA s x.thr a.a
    let off := capOff s x.thr a
    let s' := (translate s x.blk.ctx (some x.blk.launch) ⟨c.obj, off.toNat, .read, false, false⟩).1
    (¬ Permits c [0] off 1 → Goes (.prf h a) s x h {} (fun _ => True))
    ∧ (Permits c [0] off 1 → ∃ t w, exec (.prf h a) s = .next t
        ∧ (Did s { t with cores := s.cores } x h {} w ∨ Did s' { t with cores := s'.cores } x h {} w))

namespace Sys2Proof.Machine

/-- Present lanes below a lane. -/
def rankOf (s : State) (h : Hdr) (mask : Word) (T : Nat → Thread) (n : Nat) : Nat :=
  ((List.range n).filter (presentLane s h mask T)).length

end Sys2Proof.Machine

/-- CST and XLD of R162 with every member arrived and the lowest present lane l, over a range in one page: each present
member's element lies at its rank. CST stores the elements and nothing else; XLD sends them on their way. With no member
present, nothing is accessed. -/
def Obligations.CompressStoresAndExpandLoads : Prop :=
  ∀ (h : Hdr) (st : StMod) (ld : LdMod) (d k : VReg) (a : CapAddr) (v : RC) (s s' : State) (x : Cx) (mask : Word)
    (T : Nat → Thread) (l : Nat) (mp : Mapped), rdV s x.thr k = mask →
    let P := presentLane s h mask T
    let rank := rankOf s h mask T
    let count := rank 32
    let c := rdA s (T l) a.a
    let off := capOff s (T l) a
    let allowed (right w : Nat) : Prop := c.tag = true ∧ c.rights.getLsbD right = true ∧ (c.base : Int) ≤ off
      ∧ off + count * w ≤ (c.top : Int) ∧ off % w = 0
    let reaches (w : Nat) (acc : Acc) : Prop :=
      translateSpan s x.blk.ctx x.blk.launch c.obj off.toNat (count * w) acc = (s', .ok ⟨(mp, false), none⟩)
    let goes (t : State) (c : Touch) (post : Nat → Thread → Prop) : Prop :=
      (∀ n, mask.getLsbD n = true → ∃ w, threadOf t (laneTid x n) = some w ∧ At (nextSlot x.thr.pc) s h w
        ∧ (P n = true → Kept c (T n) w ∧ post n w) ∧ (P n = false → Kept {} (T n) w))
      ∧ (∀ u, (∀ n, mask.getLsbD n = true → u ≠ laneTid x n) → threadOf t u = threadOf s u)
    (P l = true → (∀ n, n < l → P n = false) →
      (Gathered (.cst h st a v k) h s x mask T → allowed 1 st.wid.bytes → reaches st.wid.bytes .write →
        memoryWf s' → mp.loc.ws = false → pageCmp mp.pe = false → pageConst mp.pe = false → migrationAt s' mp.peAddr = none →
        ∃ t, exec (.cst h st a v k) s = .next t ∧ goes t {} (fun _ _ => True)
          ∧ (∀ n j, P n = true → j < st.wid.bytes →
              seenByte t (mp.key s') (mp.loc.addr + rank n * st.wid.bytes + j) = storeByte s (T n) v j)
          ∧ (∀ b, ¬(mp.loc.addr ≤ b ∧ b < mp.loc.addr + count * st.wid.bytes) →
              seenByte t (mp.key s') b = seenByte s' (mp.key s') b))
      ∧ (Gathered (.xld h ld d a k) h s x mask T → allowed 0 ld.wid.bytes → reaches ld.wid.bytes .read →
        (∀ b, mp.loc.addr ≤ b → b < mp.loc.addr + count * ld.wid.bytes → mp.loc.ws = true → inRefresh s' (wsDie b) = false) →
        ∃ t, exec (.xld h ld d a k) s = .next t ∧ MemSame s' t
          ∧ goes t { parts := [.pend] } (fun n w => ∃ p, w.pend = (T n).pend ++ [p] ∧ p.cap = none
            ∧ (cacheable mp .dflt (coherent ld.acq) = false →
              Lands d ld.wid.bytes ld.sx (fun j => mp.byte s' (rank n * ld.wid.bytes + j))
                (fun j => poisonedAt s' mp (rank n * ld.wid.bytes + j)) p.vals))))
    ∧ ((∀ n, P n = false) →
        (Gathered (.cst h st a v k) h s x mask T → InstanceGoes (.cst h st a v k) h s x mask T {} (fun _ _ => True))
        ∧ (Gathered (.xld h ld d a k) h s x mask T →
          InstanceGoes (.xld h ld d a k) h s x mask T {} (fun _ _ => True)))

/-- LD, LDAGE, LDC and PRF. -/
def Obligations.LoadsAndPrefetches : Prop :=
  Claims.LoadsReadObjectMemory ∧ Claims.PrefetchChangesNoValue

/-! ### Capabilities -/

/-- The CAP class (R165 to R170): each writes its destination and changes nothing else. A derivation copies every field but
the one it names, with the tag, which a cursor outside [0, 2^40) clears. -/
def Claims.CapabilityDerivations : Prop :=
  ∀ (h : Hdr) (d a : AReg) (vd : VReg) (pd : PReg) (fld : BitVec 3) (b : Src) (s : State) (x : Cx), Executes h s x →
    let c := rdA s x.thr a
    let B := src64 s x.thr b
    let same (r : Cap) : Prop := r.obj = c.obj
    let window (r : Cap) : Prop := r.exp = c.exp ∧ r.lo = c.lo ∧ r.len = c.len
    let moved : Int := c.cursor + (src32 s x.thr b).toInt
    let derives (i : Instr) (post : Cap → Prop) : Prop := Goes i s x h { a := [d] } (fun w => post (w.areg d))
    derives (.capoff h d a b) (fun r => same r ∧ window r ∧ r.rights = c.rights ∧ r.cursor = B.toNat % 2 ^ 40
      ∧ (r.tag = true ↔ c.tag = true ∧ B.toNat < 2 ^ 40))
    ∧ derives (.capadd h d a b) (fun r => same r ∧ window r ∧ r.rights = c.rights ∧ (r.cursor : Int) = moved % 2 ^ 40
      ∧ (r.tag = true ↔ c.tag = true ∧ 0 ≤ moved ∧ moved < 2 ^ 40))
    ∧ derives (.caprgt h d a b) (fun r => same r ∧ window r ∧ r.cursor = c.cursor ∧ r.tag = c.tag
      ∧ ∀ k, k < 8 → r.rights.getLsbD k = (c.rights.getLsbD k && (src32 s x.thr b).getLsbD k))
    ∧ derives (.capmov h d a) (fun r => r = c)
    ∧ WritesV (.capget h fld vd a) s x h vd (fun v => v.toNat =
        match fld.toNat with
        | 0 => c.obj | 1 => c.rights.toNat | 2 => c.cursor % 2 ^ 32 | 3 => c.cursor / 2 ^ 32
        | 4 => c.lo | 5 => c.len | 6 => c.exp | _ => c.tag.toNat)
    ∧ WritesP (.capchk h pd a b) s x h pd (decide (c.tag = true ∧ c.base = c.cursor ∧ c.top = c.cursor + B.toNat))

/-- CAPNAR of R165 and R167: object, rights, cursor and tag are copied; the new window never leaves the old one, nor the
requested range, and is the request's part of the old window exactly where some exponent represents it. -/
def Claims.CapabilityNarrowing : Prop :=
  ∀ (h : Hdr) (d a : AReg) (b : Src) (s : State) (x : Cx), Executes h s x →
    let c := rdA s x.thr a
    let l := (src64 s x.thr b).toNat
    let lo := max c.cursor c.base
    let hi := max lo (min (c.cursor + l) c.top)
    Goes (.capnar h d a b) s x h { a := [d] } (fun w =>
      let r := w.areg d
      r.obj = c.obj ∧ r.rights = c.rights ∧ r.cursor = c.cursor ∧ r.tag = c.tag
      ∧ (r.len = 0 ∨ lo ≤ r.base ∧ r.top ≤ hi)
      ∧ (∀ e, e < 32 → lo % 2 ^ e = 0 → hi % 2 ^ e = 0 → lo / 2 ^ e < 2 ^ 25 → (hi - lo) / 2 ^ e < 2 ^ 26 →
          r.base = lo ∧ r.top = hi))

/-! ### Atomics -/

/-- Atomics on object memory (R173, R174) on a page of stacked DRAM that is neither deferred, compressed, migrating nor poisoned
there: the location gets AtomicOp of its old value and the operand; with RET, and for ATOMF, the old value is on its way
to D with ATOMF's flags; RED and REDF return nothing. -/
def Claims.AtomicsOnObjectMemory : Prop :=
  ∀ (h : Hdr) (m : AtMod) (d : VReg) (a : CapAddr) (v : RC) (s s' : State) (x : Cx) (mp : Mapped), Executes h s x →
    let c := rdA s x.thr a.a
    let off := capOff s x.thr a
    let n := m.wid.bytes
    let old := leNat ((List.range n).map (mp.byte s'))
    let r := atomicOp m.op m.ty (8 * n) old (dataOf s x.thr m.wid v)
    let new (j : Nat) : Byte := BitVec.ofNat 8 (r.1 / 256 ^ j)
    let reaches (acc : Acc) : Prop := translate s x.blk.ctx (some x.blk.launch)
      ⟨c.obj, off.toNat, acc, false, detchk s x.blk m.op m.ty⟩ = (s', .ok mp false)
    memoryWf s' → mp.loc.ws = false → pageCmp mp.pe = false → migrationAt s' mp.peAddr = none →
    (∀ j, j < n → poisonedAt s' mp j = false) →
    (Permits c [0, 1, 3] off n → reaches .rmwRet → ∀ p ∈ [(Instr.atom h m (some d) a v, false), (.atomf h m d a v, true)],
      ∃ t w q, exec p.1 s = .next t ∧ At (nextSlot x.thr.pc) s h w ∧ Kept { parts := [.pend] } x.thr w
        ∧ DramWrite s' t x w (mp.key s') mp.loc.addr n new false
        ∧ w.pend = x.thr.pend ++ [q] ∧ q.cap = none ∧ q.setsFpx = p.2 ∧ q.flags = (if h.nf then 0 else r.2)
        ∧ Lands d n false (mp.byte s') (fun _ => false) q.vals)
    ∧ (Permits c [1, 3] off n → reaches .rmw →
      ∀ i ∈ [Instr.atom h m none a v, .red h m a v, .redf h m a v],
        ∃ t w, exec i s = .next t ∧ At (nextSlot x.thr.pc) s h w ∧ Kept {} x.thr w
          ∧ DramWrite s' t x w (mp.key s') mp.loc.addr n new false)

/-- CAS and CAS128 (R173): D gets the old value, and the swap value is written where the old value equals the compare
value bit for bit, else nothing. -/
def Claims.CompareAndSwap : Prop :=
  ∀ (h : Hdr) (wid : Wid) (ord : AOrd) (d : VReg) (a : CapAddr) (v : RC) (vc : VReg) (s s' : State) (x : Cx)
    (mp : Mapped), Executes h s x →
    let c := rdA s x.thr a.a
    let off := capOff s x.thr a
    memoryWf s' → mp.loc.ws = false → pageCmp mp.pe = false → migrationAt s' mp.peAddr = none →
    translate s x.blk.ctx (some x.blk.launch) ⟨c.obj, off.toNat, .rmwRet, false, false⟩ = (s', .ok mp false) →
    ∀ p ∈ [(Instr.cas h wid ord d a v, wid, v), (.cas128 h ord d a vc, .w128, .v vc)],
      let n := p.2.1.bytes
      let old := leNat ((List.range n).map (mp.byte s'))
      let hit := old = dataOf s x.thr p.2.1 p.2.2
      Permits c [0, 1, 3] off n → (∀ j, j < n → poisonedAt s' mp j = false) →
      ∃ t w q, exec p.1 s = .next t ∧ At (nextSlot x.thr.pc) s h w ∧ Kept { parts := [.pend] } x.thr w
        ∧ w.pend = x.thr.pend ++ [q] ∧ q.cap = none ∧ q.setsFpx = false ∧ Lands d n false (mp.byte s') (fun _ => false) q.vals
        ∧ (hit → DramWrite s' t x w (mp.key s') mp.loc.addr n (storeByte s x.thr (.v d)) false)
        ∧ (¬ hit → OnlyThread s' { t with cores := s'.cores } x.tid w)

/-- Reductions on a deferred page (R177): memory is not written, and one record with OP and TY goes into the core's log,
EXCH as a store. Value-returning atomics trap DFETCH there with the offset and the object. -/
def Claims.ReductionsOnDeferredPages : Prop :=
  ∀ (h : Hdr) (m : AtMod) (d : VReg) (a : CapAddr) (v : RC) (s s' s'' : State) (x : Cx) (mp : Mapped), Executes h s x →
    let c := rdA s x.thr a.a
    let off := capOff s x.thr a
    let val := dataOf s x.thr m.wid v
    let want (acc : Acc) : Want := ⟨c.obj, off.toNat, acc, false, detchk s x.blk m.op m.ty⟩
    (Permits c [1, 3] off m.wid.bytes → m.wid ≠ .w128 →
      translate s x.blk.ctx (some x.blk.launch) (want .rmw) = (s', .ok mp true) →
      formRecs s' x.tid mp [redReq m.op m.ty m.wid val] = .ok s'' →
      (coreOf s' x.coreId).log.flatMap recOfLog = [] →
      ∀ i ∈ [Instr.atom h m none a v, .red h m a v, .redf h m a v],
        ∃ t w r, exec i s = .next t ∧ threadOf t x.tid = some w ∧ At (nextSlot x.thr.pc) s h w
          ∧ OthersSame s' t x.tid ∧ MemSame s' t ∧ Kept { parts := [.counts] } x.thr w
          ∧ (coreOf t x.coreId).log = (coreOf s' x.coreId).log ++ [.record r true]
          ∧ r.opc = m.op.opc ∧ (m.op ≠ .exch → r.ty = m.ty.code) ∧ r.val = val ∧ r.seq = x.thr.counts.seq)
    ∧ (Permits c [0, 1, 3] off m.wid.bytes →
      translate s x.blk.ctx (some x.blk.launch) (want .rmwRet) = (s', .trap 0x14 0) →
      ∀ i ∈ [Instr.atom h m (some d) a v, .atomf h m d a v],
        exec i s = .next (takeTrap s' x.tid
          ⟨0x14, 0, x.thr.pcWord, BitVec.ofNat 32 off.toNat, BitVec.ofNat 32 c.obj⟩))

/-- ATOML and CASL (R173, R157) on an aligned range of the slice that meets no typed object and no poison: the old value is
on its way to D, and the window holds the new one; where a typed object lies there, BARWR. -/
def Claims.ScratchpadAtomics : Prop :=
  ∀ (h : Hdr) (m : AtMod) (wid : Wid) (ord : AOrd) (d : VReg) (a : LocAddr) (v : RC) (s : State) (x : Cx), Executes h s x →
    memoryWf s →
    let off := localOff s x.thr a
    let o := off.toNat
    let slot := x.tid.slot
    let old (n : Nat) : Nat := x.blk.spad.readNat o n
    let r := atomicOp m.op m.ty (8 * m.wid.bytes) (old m.wid.bytes) (dataOf s x.thr m.wid v)
    let ready (n : Nat) : Prop := inWindow x.blk off n = true ∧ off % n = 0 ∧ typedWhy x.blk o n = none
      ∧ ∀ j, j < n → spadPoisoned x.blk (o + j) = false
    let returns (w : Thread) (q : Pend) (n : Nat) (fpx : Bool) (f : Flags) : Prop :=
      w.pend = x.thr.pend ++ [q] ∧ q.cap = none ∧ q.setsFpx = fpx ∧ q.flags = (if h.nf then 0 else f)
        ∧ Lands d n false (fun j => spadByte s slot (o + j)) (fun _ => false) q.vals
    (ready m.wid.bytes → detchk s x.blk m.op m.ty = false →
      ∃ t w q, exec (.atoml h m d a v) s = .next t ∧ At (nextSlot x.thr.pc) s h w ∧ Kept { parts := [.pend] } x.thr w
        ∧ returns w q m.wid.bytes true r.2
        ∧ LocalWrite s { t with cores := s.cores } x w
            (patched (spadByte s slot) o m.wid.bytes (fun j => BitVec.ofNat 8 (r.1 / 256 ^ j))) (tileByte s slot))
    ∧ (ready wid.bytes →
      ∃ t w q, exec (.casl h wid ord d a v) s = .next t ∧ At (nextSlot x.thr.pc) s h w ∧ Kept { parts := [.pend] } x.thr w
        ∧ returns w q wid.bytes false 0
        ∧ LocalWrite s { t with cores := s.cores } x w
            (if old wid.bytes = dataOf s x.thr wid v then
              patched (spadByte s slot) o wid.bytes (storeByte s x.thr (.v d)) else spadByte s slot) (tileByte s slot))
    ∧ (inWindow x.blk off wid.bytes = true → off % wid.bytes = 0 → ∀ p,
        x.blk.types.find? (fun p => decide (p.1 < o + wid.bytes ∧ o < p.1 + 16)) = some p →
        TrapsOn (.casl h wid ord d a v) s x 0x15 (if p.2 = .barrier then 0 else 1)
          (BitVec.ofNat 32 (if p.2 = .barrier then p.1 else p.1 / 32 * 32)) 0)
    ∧ (inWindow x.blk off m.wid.bytes = true → off % m.wid.bytes = 0 → detchk s x.blk m.op m.ty = true →
        TrapsOn (.atoml h m d a v) s x 0x19 0 (BitVec.ofInt 32 off) 0)

/-- AtomicOp of R173 on integers of w bits. -/
def Claims.IntegerAtomicOperators : Prop :=
  ∀ (w old v : Nat) (ty : ATy), 0 < w → old < 2 ^ w → v < 2 ^ w → (ty = .si ∨ ty = .ns) →
    let val (x : Nat) : Int := if ty = .si then (if x < 2 ^ (w - 1) then x else (x : Int) - 2 ^ w) else x
    let r (op : AOp) : Nat := (atomicOp op ty w old v).1
    r .add = (old + v) % 2 ^ w
    ∧ (∀ k, (r .and).testBit k = (old.testBit k && v.testBit k))
    ∧ (∀ k, (r .or).testBit k = (old.testBit k || v.testBit k))
    ∧ (∀ k, (r .xor).testBit k = (old.testBit k != v.testBit k))
    ∧ r .exch = v
    ∧ (r .min = old ∨ r .min = v) ∧ val (r .min) = min (val old) (val v)
    ∧ (r .max = old ∨ r .max = v) ∧ val (r .max) = max (val old) (val v)
    ∧ ∀ op, (atomicOp op ty w old v).2 = 0

/-! ### Deferred operations -/

/-- COMMIT of R178 and R179: the thread's count of the scope rises, and D is pending on the commit that the count names,
opened where none is in progress; in a handler the count passes with it (the model's reading, log 103); a full set of tokens makes it wait; COMMIT.G outside a cooperative launch is illegal;
COMMIT.P of a group not registered completes with TPEER. -/
def Claims.CommitsOpenTokens : Prop :=
  ∀ (h : Hdr) (d : VReg) (group : BitVec 16) (s : State) (x : Cx), Executes h s x →
    let room := x.thr.tokens.length < 8
    let coop := launchFlag s x.blk Launch.coop = true
    let me : Owner := .thread (BitVec.ofNat 15 x.tid.slot) (BitVec.ofNat 8 (x.tid.tidx / 32)) (BitVec.ofNat 5 (x.tid.tidx % 32))
    let k := x.thr.counts
    let opens (i : Instr) (scope : CommitScope) (owner : Owner) (counts : Counts) (n : Nat) (keepL : Bool) : Prop :=
      ∃ t w id, exec i s = .next t
        ∧ Did s { t with
            commits := s.commits, nextId := s.nextId, launches := if keepL then t.launches else s.launches } x h
            { parts := [.counts, .tokens, .restart] } w
        ∧ w.rpaddr = x.thr.rpaddr ∧ w.rpStack = x.thr.rpStack
        ∧ w.region = (if x.thr.trap.isSome ∧ x.thr.region.k scope = k.k scope then x.thr.region.bump scope else x.thr.region)
        ∧ w.counts = counts ∧ w.tokens = x.thr.tokens ++ [⟨d, .commit id, true⟩]
        ∧ ∃ c ∈ t.commits, c.id = id ∧ c.scope = scope ∧ c.owner = owner ∧ c.k = n ∧ (x.tid, d) ∈ c.tokens
    (room → opens (.commitT h d) .t me { k with kt := k.kt + 1 } (k.kt + 1) true)
    ∧ (room → opens (.commitB h d) .b (.block (BitVec.ofNat 15 x.tid.slot)) { k with kb := k.kb + 1 } (k.kb + 1) true)
    ∧ (room → coop → opens (.commitG h d) .g (.launch x.blk.launch) { k with kg := k.kg + 1 } (k.kg + 1) true)
    ∧ (¬ room → ∀ i ∈ [Instr.commitT h d, .commitB h d, .commitP h d group], Waits i s x (.stalled .tokenLimit))
    ∧ (¬ coop → let w := encode (.commitG h d)
        TrapsOn (.commitG h d) s x 0x01 0x00 (w.extractLsb' 0 32) (w.extractLsb' 32 32))
    ∧ (room → groupOf s x.blk.ctx group.toNat = none →
        Goes (.commitP h d group) s x h { v := [d], parts := [.counts] } (fun w =>
          w.vreg d = 0x00000906 ∧ w.counts = { k with kp := k.kp + 1 }))
    ∧ (∀ g, room → groupOf s x.blk.ctx group.toNat = some g →
        (s.launches.any (fun p => p.1 != x.blk.launch && p.2.groups.any (fun q => q.1 == group.toNat)) = false →
          opens (.commitP h d group) .p (.group group.toNat) { k with kp := k.kp + 1 } (k.kp + 1) false)
        ∧ (s.launches.any (fun p => p.1 != x.blk.launch && p.2.groups.any (fun q => q.1 == group.toNat)) = true →
          Waits (.commitP h d group) s x (.waiting .commit)))

/-- DAGE, STEPINC and DQRY of R181 to R183. -/
def Claims.AgedAddsStepAndQuery : Prop :=
  ∀ (h : Hdr) (a : CapAddr) (v : Src) (d : VReg) (s s' s'' : State) (x : Cx) (mp : Mapped) (ctx : Context),
    Executes h s x → ctxOf s x.blk.ctx = some ctx →
    let c := rdA s x.thr a.a
    let off := capOff s x.thr a
    let val := src32 s x.thr v
    let stamp := ctx.stepReg.extractLsb' 0 16
    let next := ctx.stepReg + 1
    let reaches (recd : Bool) : Prop := Permits c [1, 3] off 8
      ∧ translate s x.blk.ctx (some x.blk.launch) ⟨c.obj, off.toNat, .rmw, false, false⟩ = (s', .ok mp recd)
    let counted (i : Instr) (parts : List Part) (post : Thread → Prop) : Prop :=
      ∃ t w, exec i s = .next t ∧ Did s { t with contexts := s.contexts } x h { parts := parts } w ∧ post w
        ∧ ctxOf t x.blk.ctx = some { ctx with stepReg := next } ∧ ∀ k, k ≠ x.blk.ctx → ctxOf t k = ctxOf s k
    (reaches false → memoryWf s' → mp.loc.ws = false → pageCmp mp.pe = false → migrationAt s' mp.peAddr = none →
      (∀ j, j < 8 → poisonedAt s' mp j = false) →
      let r := agedAdd (BitVec.ofNat 64 (leNat ((List.range 8).map (mp.byte s')))) val stamp (objL mp.oe).toNat
      ∃ t w, exec (.dage h a v) s = .next t ∧ At (nextSlot x.thr.pc) s h w ∧ Kept {} x.thr w
        ∧ DramWrite s' t x w (mp.key s') mp.loc.addr 8 (fun j => r.extractLsb' (8 * j) 8) false)
    ∧ (reaches true →
      formRecs s' x.tid mp [⟨opcAgeAdd, 0, 3, val.toNat + 2 ^ 32 * stamp.toNat, 0, objL mp.oe⟩] = .ok s'' →
      ∃ t w r, exec (.dage h a v) s = .next t ∧ threadOf t x.tid = some w ∧ At (nextSlot x.thr.pc) s h w
        ∧ OthersSame s' t x.tid ∧ MemSame s' t ∧ Kept { parts := [.counts] } x.thr w
        ∧ (coreOf t x.coreId).log = (coreOf s' x.coreId).log ++ [.record r true]
        ∧ r.opc = 7 ∧ r.value = val ∧ r.valhi = stamp.setWidth 32 ∧ r.decay = objL mp.oe ∧ r.ext = true)
    ∧ counted (.stepinc h none) [] (fun _ => True)
    ∧ counted (.stepinc h (some d)) [.pend] (fun w => w.pend = x.thr.pend ++ [⟨false, [(d, next, false)], none, 0, false⟩])
    ∧ Sends (.dqry h d) s x h ⟨false, [(d, BitVec.ofNat 32 ((x.blk.charge + 4095) / 4096), false),
        (d + 1, BitVec.ofNat 32 ctx.params.quota, false)], none, 0, false⟩

/-- ST, RED, REDF and ATOM without RET on a deferred page, and the value-returning atomics, which trap there (R177). -/
def Obligations.RecordsAreFormedOnDeferredPages : Prop :=
  Claims.StoresOnDeferredPagesFormRecords ∧ Claims.ReductionsOnDeferredPages

/-- LDL, STL, LDA, STA, ATOML and CASL. -/
def Obligations.LocalStoresAreAccessed : Prop :=
  Claims.LocalLoadsAndStores ∧ Claims.ScratchpadAtomics

/-- The CAP class of R165 to R170. -/
def Obligations.CapabilitiesAreDerived : Prop :=
  Claims.CapabilityDerivations ∧ Claims.CapabilityNarrowing

/-- ATOM, ATOMF, RED, REDF, CAS and CAS128 on object memory, and AtomicOp on integers (R173). -/
def Obligations.AtomicsAndSwaps : Prop :=
  Claims.AtomicsOnObjectMemory ∧ Claims.CompareAndSwap ∧ Claims.IntegerAtomicOperators

/-- The DEF class: COMMIT, DAGE, STEPINC and DQRY (R178 to R183). -/
def Obligations.CommitsAgedAddsAndSteps : Prop :=
  Claims.CommitsOpenTokens ∧ Claims.AgedAddsStepAndQuery

/-! ### Copies, rings and barriers -/

namespace Sys2Proof.Machine

/-- The instruction appends a request of the executing thread at the copy engine of its cluster, with its token pending;
nothing else changes. -/
def Requests (i : Instr) (s : State) (x : Cx) (h : Hdr) (tok : VReg) (post : CopyReq → Prop) : Prop :=
  ∃ t w q, exec i s = .next t
    ∧ Did s { t with engines := s.engines, nextId := s.nextId } x h { parts := [.tokens] } w
    ∧ w.tokens = x.thr.tokens ++ [⟨tok, .copy s.nextId, true⟩] ∧ t.nextId = s.nextId + 1
    ∧ (∀ e, engineOf t e = if e = engineFor x.blk.cluster then
        { engineOf s e with reqs := (engineOf s e).reqs ++ [q] } else engineOf s e)
    ∧ q.id = s.nextId ∧ q.ctx = x.blk.ctx ∧ q.launch = some x.blk.launch ∧ q.token = some (x.tid, tok)
    ∧ q.fail = none ∧ q.sealed = none ∧ post q

/-- A side is not the quarantine object of a storage window (R401). -/
def openSide (s : State) (ctx : Nat) : Side → Prop
  | .obj o _ => sealedBy s ctx o = none
  | .spad _ _ => True

/-- The instruction writes one object of the scratchpad window, of n bytes at o, which then reads as `after` says; nothing
else of the machine changes but its own thread and copies in L1s. -/
def ObjectGoes (i : Instr) (s : State) (x : Cx) (h : Hdr) (parts : List Part) (o n : Nat) (post : Thread → Prop)
    (after : Block → Prop) : Prop :=
  ∃ t w c f, exec i s = .next t ∧ At (nextSlot x.thr.pc) s h w ∧ Kept { parts := parts } x.thr w ∧ post w
    ∧ LocalWrite s { t with cores := s.cores } x w (patched (spadByte s x.tid.slot) o n f) (tileByte s x.tid.slot)
    ∧ blockOf t x.tid.slot = some c ∧ after c

end Sys2Proof.Machine

/-- CPY, CPYG and CPYS of R184 to R187: with room for a token and the checks of R186 passed, a request is on its way with
its sides, its length, its element size and the index list as it stands; a length of 0 completes at once; a full set of
tokens makes the instruction wait (R26). -/
def Claims.CopiesAreRequested : Prop :=
  ∀ (h : Hdr) (tok : VReg) (dst src : CpySide) (cap : AReg) (off idx cnt : VReg) (esz : BitVec 4) (comb : Option CopOp)
    (rsc : Scope) (s : State) (x : Cx), Executes h s x →
    let room := x.thr.tokens.length < 8
    let d := sideOf s x.thr dst
    let f := sideOf s x.thr src
    let g := sideOf s x.thr (.obj cap off)
    let slot := x.tid.slot
    let n := (rdV s x.thr cnt).toNat
    let es := 4 * 2 ^ esz.toNat
    let a := (rdV s x.thr idx).toNat
    let list := (List.range n).map (fun k => x.blk.spad.readNat (a + 4 * k) 4)
    let fits (e : SideOf) (rights : List Nat) (len : Option Nat) : Prop := sideWhy x.blk e rights len = none ∧ e.off % 16 = 0
    let listed : Prop := inWindow x.blk (a : Int) (4 * n) = true ∧ a % 4 = 0
    let untyped (e : SideOf) (len : Nat) : Prop := e.cap = none → typedWhy x.blk e.off.toNat len = none
    let done (i : Instr) : Prop := Goes i s x h { v := [tok] } (fun w => w.vreg tok = 0)
    let cpy := Instr.cpy h tok dst src cnt rsc
    let cpyg := Instr.cpyg h tok dst cap off idx cnt esz rsc
    let cpys := Instr.cpys h tok comb cap off src idx cnt esz rsc
    (¬ room → ∀ i ∈ [cpy, cpyg, cpys], Waits i s x (.stalled .tokenLimit))
    ∧ (room → fits d [1, 7] (some n) → fits f [0, 7] (some n) → n % 16 = 0 → untyped d n →
        (n = 0 → done cpy)
        ∧ (n ≠ 0 → openSide s x.blk.ctx (f.side slot) → Requests cpy s x h tok (fun q =>
            q.kind = .move ∧ q.dst = d.side slot ∧ q.src = f.side slot ∧ q.len = n ∧ q.rsc = rsc)))
    ∧ (room → sideWhy x.blk d [1, 7] (some n) = none → sideWhy x.blk f [0, 7] (some n) = none → d.off % 16 = 0 →
        f.off % 16 = 0 → n % 16 ≠ 0 → TrapsOn cpy s x 0x13 0x11 (BitVec.ofNat 32 n) 0)
    ∧ (room → fits d [1, 7] (some (n * es)) → fits g [0, 7] none → listed → untyped d (n * es) →
        (n = 0 → done cpyg)
        ∧ (n ≠ 0 → openSide s x.blk.ctx (g.side slot) → Requests cpyg s x h tok (fun q =>
            q.kind = .gather es list ∧ q.dst = d.side slot ∧ q.src = g.side slot ∧ q.len = n * es ∧ q.rsc = rsc
            ∧ q.window = ((rdA s x.thr cap).base, (rdA s x.thr cap).top))))
    ∧ (room → fits g [1, 7] none → fits f [0, 7] (some (n * es)) → listed →
        (n = 0 → done cpys)
        ∧ (n ≠ 0 → openSide s x.blk.ctx (f.side slot) → Requests cpys s x h tok (fun q =>
            q.kind = .scatter es list comb ∧ q.dst = g.side slot ∧ q.src = f.side slot ∧ q.len = n * es ∧ q.rsc = rsc
            ∧ q.window = ((rdA s x.thr cap).base, (rdA s x.thr cap).top))))

/-- CPYQ of R190 on objects that bind no version, and on pages that do not migrate: with a free slot inside the window, the write index rises and the packet,
with the claimed index as SEQ, lies in the slot; with none, TQFULL; with one outside the window, TBOUND; then nothing is
written. -/
def Claims.QueuePacketsAreAppended : Prop :=
  ∀ (h : Hdr) (tok : VReg) (a : AReg) (q p : VReg) (s : State) (x : Cx) (m ms : Mapped) (r1 r2 : Bool), Executes h s x →
    let c := rdA s x.thr a
    let off : Int := c.cursor + (rdV s x.thr q).toNat
    let i := Instr.cpyq h tok a q p
    let field (o n : Nat) : Nat := leNat ((List.range n).map (fun j => m.byte s (o + j)))
    let wr := field 0 8
    let rd := field 8 8
    let size := 2 ^ (field 16 1 % 32)
    let slot := off.toNat + 64 + 64 * (wr % size)
    let packet (j : Nat) : Byte :=
      if j = 2 ∨ j = 3 then BitVec.ofNat 8 (wr / 256 ^ (j - 2)) else storeByte s x.thr (.v (p + BitVec.ofNat 6 (j / 4))) (j % 4)
    x.thr.tokens.length < 8 → Permits c [1, 3] off 64 → memoryWf s → migrationAt s m.peAddr = none →
    translate s x.blk.ctx (some x.blk.launch) ⟨c.obj, off.toNat, .rmwRet, false, false⟩ = (s, .ok m r1) →
    (size ≤ (wr + 2 ^ 64 - rd) % 2 ^ 64 → Goes i s x h { v := [tok] } (fun w => w.vreg tok = 0xA05))
    ∧ ((wr + 2 ^ 64 - rd) % 2 ^ 64 < size →
      (¬((c.base : Int) ≤ slot ∧ (slot : Int) + 64 ≤ c.top) → Goes i s x h { v := [tok] } (fun w => w.vreg tok = 0xA04))
      ∧ ((c.base : Int) ≤ slot → (slot : Int) + 64 ≤ c.top →
        translate s x.blk.ctx (some x.blk.launch) ⟨c.obj, slot, .cwrite, false, false⟩ = (s, .ok ms r2) →
        migrationAt s ms.peAddr = none → m.loc.ws = false → ms.loc.ws = false → pageCmp m.pe = false → pageCmp ms.pe = false →
        m.loc.addr + 64 ≤ ms.loc.addr ∨ ms.loc.addr + 64 ≤ m.loc.addr → (∀ j, j < 8 → poisonedAt s m j = false) →
        ∃ t w, exec i s = .next t ∧ threadOf t x.tid = some w ∧ At (nextSlot x.thr.pc) s h w ∧ OthersSame s t x.tid
          ∧ Kept { v := [tok] } x.thr w ∧ w.vreg tok = 0
          ∧ ∀ k, seenByte t (m.key s) k =
              if m.loc.addr ≤ k ∧ k < m.loc.addr + 8 then BitVec.ofNat 8 ((wr + 1) % 2 ^ 64 / 256 ^ (k - m.loc.addr))
              else if ms.loc.addr ≤ k ∧ k < ms.loc.addr + 64 then packet (k - ms.loc.addr)
              else seenByte s (m.key s) k))

/-- CPY.RING and the ring instructions of R189 to R192 on a ring object: each moves the count it names, RRES and RWAIT send
the ticket with its slot index, and each waits at its slot where R192 makes it wait. -/
def Claims.RingsAdvance : Prop :=
  ∀ (h : Hdr) (d tok rr cnt off : VReg) (cap : AReg) (a : LocAddr) (c : VReg) (rsc : Scope) (s : State) (x : Cx),
    Executes h s x → memoryWf s →
    let o := localOff s x.thr a
    let r := readRing x.blk o.toNat
    let ok : Prop := inWindow x.blk o 32 = true ∧ o % 32 = 0 ∧ isRing x.blk o.toNat = true
    let ticket := (rdV s x.thr c).extractLsb' 0 16
    let sends (t : BitVec 16) (w : Thread) : Prop :=
      w.pend = x.thr.pend ++ [⟨false, [(d, BitVec.ofNat 32 (t.toNat % 2 ^ r.logn.toNat * 2 ^ 16 + t.toNat), false)], none, 0, false⟩]
    let moves (i : Instr) (parts : List Part) (post : Thread → Prop) (r' : Ring) : Prop :=
      ObjectGoes i s x h parts o.toNat 32 post (fun b => readRing b o.toNat = r')
    let addr := (rdV s x.thr rr).toNat
    let g := readRing x.blk addr
    let n := (rdV s x.thr cnt).toNat
    let f := sideOf s x.thr (.obj cap off)
    let copy := Instr.cpyRing h tok rr cap off cnt rsc
    (ok →
      ((r.res - r.rel).toNat < 2 ^ r.logn.toNat → moves (.rres h d a) [.pend] (sends r.res) { r with res := r.res + 1 })
      ∧ (2 ^ r.logn.toNat ≤ (r.res - r.rel).toNat → Waits (.rres h d a) s x (.waiting (.rres o.toNat)))
      ∧ (r.con ≠ r.pub → moves (.rwait h d a) [.pend] (sends r.con) { r with con := r.con + 1 })
      ∧ (r.con = r.pub → Waits (.rwait h d a) s x (.waiting (.rwait o.toNat)))
      ∧ ((ticket - r.pub).toNat < (r.res - r.pub).toNat →
          (ticket = r.pub → moves (.rpub h a c) [] (fun _ => True) { r with pub := r.pub + 1 })
          ∧ (ticket ≠ r.pub → Waits (.rpub h a c) s x (.waiting (.rpub o.toNat ticket))))
      ∧ ((r.res - r.pub).toNat ≤ (ticket - r.pub).toNat →
          TrapsOn (.rpub h a c) s x 0x1A 0x04 (BitVec.ofInt 32 o) (ticket.setWidth 32))
      ∧ ((ticket - r.rel).toNat < (r.con - r.rel).toNat →
          (ticket = r.rel → moves (.rrel h a c) [] (fun _ => True) { r with rel := r.rel + 1 })
          ∧ (ticket ≠ r.rel → Waits (.rrel h a c) s x (.waiting (.rrel o.toNat ticket))))
      ∧ ((r.con - r.rel).toNat ≤ (ticket - r.rel).toNat →
          TrapsOn (.rrel h a c) s x 0x1A 0x04 (BitVec.ofInt 32 o) (ticket.setWidth 32)))
    ∧ (x.thr.tokens.length < 8 → inWindow x.blk (addr : Int) 32 = true → addr % 32 = 0 → isRing x.blk addr = true →
        sideWhy x.blk f [0, 7] (some n) = none → f.off % 16 = 0 → n % 16 = 0 → n ≤ g.sz.toNat →
        (2 ^ g.logn.toNat ≤ (g.res - g.rel).toNat → Waits copy s x (.waiting (.ringCopy addr)))
        ∧ ((g.res - g.rel).toNat < 2 ^ g.logn.toNat → openSide s x.blk.ctx (f.side x.tid.slot) →
          typedWhy x.blk (g.base.toNat + g.res.toNat % 2 ^ g.logn.toNat * g.sz.toNat) n = none →
          ∃ t w b fn q, exec copy s = .next t ∧ At (nextSlot x.thr.pc) s h w ∧ Kept { parts := [.tokens] } x.thr w
            ∧ LocalWrite s { t with engines := s.engines, nextId := s.nextId } x w
                (patched (spadByte s x.tid.slot) addr 32 fn) (tileByte s x.tid.slot)
            ∧ blockOf t x.tid.slot = some b ∧ readRing b addr = { g with res := g.res + 1, outc := g.outc + 1 }
            ∧ w.tokens = x.thr.tokens ++ [⟨tok, .copy s.nextId, true⟩]
            ∧ (engineOf t (engineFor x.blk.cluster)).reqs = (engineOf s (engineFor x.blk.cluster)).reqs ++ [q]
            ∧ q.kind = .move ∧ q.src = f.side x.tid.slot ∧ q.len = n ∧ q.ring = some (addr, g.res)
            ∧ q.dst = .spad x.tid.slot (g.base.toNat + g.res.toNat % 2 ^ g.logn.toNat * g.sz.toNat)))

/-- RINIT and BINIT (R191, R192, R194, R195): a fresh object stands in the range, typed. -/
def Claims.ObjectsAreInitialised : Prop :=
  ∀ (h : Hdr) (a : LocAddr) (c : VReg) (s : State) (x : Cx), Executes h s x → memoryWf s →
    let o := localOff s x.thr a
    let c0 := rdV s x.thr c
    let c1 := rdV s x.thr (c + 1)
    let sz := c0.toNat % 2 ^ 16
    let logn := c0.toNat / 2 ^ 20 % 16
    let base : Nat := c1.toNat % 2 ^ 24
    let barrier (k : Int) : Prop := granType x.blk k.toNat = some .barrier
    (inWindow x.blk o 32 = true → o % 32 = 0 → ¬ barrier o → ¬ barrier (o + 16) →
      (isRing x.blk o.toNat = true → (readRing x.blk o.toNat).outc = 0) →
      sz ≠ 0 → sz % 16 = 0 → logn ≤ 8 → c0.toNat / 2 ^ 16 % 16 = 0 → c0.toNat / 2 ^ 24 = 0 → c1.toNat / 2 ^ 24 = 0 →
      base % 16 = 0 → inWindow x.blk (base : Int) (2 ^ logn * sz) = true →
      ObjectGoes (.rinit h a c) s x h [] o.toNat 32 (fun _ => True) (fun b =>
        isRing b o.toNat = true ∧ readRing b o.toNat =
          ⟨0, 0, 0, 0, BitVec.ofNat 16 sz, BitVec.ofNat 4 logn, BitVec.ofNat 24 base, 0⟩))
    ∧ (inWindow x.blk o 16 = true → o % 16 = 0 → granType x.blk o.toNat ≠ some .ring → 0 < c0.toNat → c0.toNat < 2 ^ 16 →
      (barrier o → (readBarrier x.blk o.toNat).pendeng = 0) →
      ObjectGoes (.binit h a c) s x h [] o.toNat 16 (fun _ => True) (fun b =>
        granType b o.toNat = some .barrier ∧ ∃ wt, readBarrier b o.toNat = ⟨0, BitVec.ofNat 16 c0.toNat, 0, 0, wt⟩))
    ∧ (inWindow x.blk o 16 = true → o % 16 = 0 → granType x.blk o.toNat ≠ some .ring →
      (c0.toNat % 2 ^ 16 = 0 ∨ c0.toNat / 2 ^ 16 ≠ 0) → TrapsOn (.binit h a c) s x 0x1A 0x02 (BitVec.ofInt 32 o) c0)

namespace Sys2Proof.Machine

/-- One arrival (R195): the last one expected of a phase begins the next. -/
def arrivedOnce (r : Barrier) : Barrier :=
  if r.arrived + 1 = r.expected then { r with arrived := 0, phase := r.phase + 1 } else { r with arrived := r.arrived + 1 }

end Sys2Proof.Machine

/-- BARV, BWAIT and BARW of R195 on a barrier object: arrivals count, the target is the phase after the one arrived in, and a
wait ends when the phase has reached its target, as a signed difference modulo 2^16. A thread that has arrived at its BARW
waits on the barrier and for the target it keeps, whatever its operands are by then (R198). -/
def Claims.BarriersCountAndWait : Prop :=
  ∀ (h : Hdr) (d : VReg) (a : LocAddr) (c : VReg) (s : State) (x : Cx), Executes h s x → memoryWf s →
    let o := localOff s x.thr a
    let n := o.toNat
    let r := readBarrier x.blk n
    let target := (rdV s x.thr c).extractLsb' 0 16
    let next := r.phase + 1
    let reached (p t : BitVec 16) : Prop := 0 ≤ (p - t).toInt
    let sends (w : Thread) : Prop := w.pend = x.thr.pend ++ [⟨false, [(d, next.setWidth 32, false)], none, 0, false⟩]
    let upto (r' : Barrier) (b : Block) : Prop := ∃ wt, readBarrier b n = { r' with wt := wt }
    let waits (i : Instr) (on : WaitOn) (arrival : Option (Nat × BitVec 16)) (r' : Barrier) : Prop := ∃ t b f, exec i s = .next t
      ∧ LocalWrite s t x ({ x.thr with arrival := arrival }.hold s.cycle (.waiting on)) (patched (spadByte s x.tid.slot) n 16 f) (tileByte s x.tid.slot)
      ∧ blockOf t x.tid.slot = some b ∧ upto r' b
    inWindow x.blk o 16 = true → o % 16 = 0 → granType x.blk n = some .barrier →
    ObjectGoes (.barv h none a) s x h [] n 16 (fun _ => True) (upto (arrivedOnce r))
    ∧ ObjectGoes (.barv h (some d) a) s x h [.pend] n 16 sends (upto (arrivedOnce r))
    ∧ (reached r.phase target → ObjectGoes (.bwait h a c) s x h [] n 16 (fun _ => True) (upto r))
    ∧ (¬ reached r.phase target → waits (.bwait h a c) (.bar n target) x.thr.arrival r)
    ∧ (x.thr.arrival = none →
        (reached (arrivedOnce r).phase next →
          ObjectGoes (.barw h none a) s x h [] n 16 (fun _ => True) (upto (arrivedOnce r))
          ∧ ObjectGoes (.barw h (some d) a) s x h [.pend] n 16 sends (upto (arrivedOnce r)))
        ∧ (¬ reached (arrivedOnce r).phase next → ∀ e ∈ [none, some d],
          waits (.barw h e a) (.barw n next) (some (n, next)) (arrivedOnce r)))
    ∧ (∀ t, x.thr.arrival = some (n, t) → ∀ b : LocAddr,
        (reached r.phase t → ObjectGoes (.barw h none b) s x h [] n 16 (fun w => w.arrival = none) (upto r))
        ∧ (¬ reached r.phase t → waits (.barw h none b) (.barw n t) (some (n, t)) r))

/-- FENCE and GROW of R196 and R197: a fence changes no register and no memory; GROW sends the grid's X dimension and
raises it, no further than 2^32 − 1, and is illegal in a grid of two or three dimensions or a cooperative launch. -/
def Claims.FencesAndGrowth : Prop :=
  ∀ (h : Hdr) (kind : FenceKind) (scope : Scope) (d : VReg) (a : Src) (s : State) (x : Cx) (l : Launch),
    Executes h s x → launchOf s x.blk.launch = some l →
    let n := (src32 s x.thr a).toNat
    let grows := x.blk.grid.2 = (1, 1) ∧ l.coop = false
    (∃ t w, exec (.fence h kind scope) s = .next t ∧ Did s { t with cores := s.cores } x h {} w
      ∧ (kind = .rel → t.cores = s.cores)
      ∧ (kind ≠ .rel → scope ≠ .block →
          OnlyCore s t x.coreId { coreOf s x.coreId with l1 := (coreOf s x.coreId).l1.filter L1Line.excl }))
    ∧ (grows → l.gridx < 2 ^ 32 → ∃ t w, exec (.grow h d a) s = .next t
        ∧ Did s { t with launches := s.launches } x h { parts := [.pend] } w
        ∧ w.pend = x.thr.pend ++ [⟨false, [(d, BitVec.ofNat 32 l.gridx, false)], none, 0, false⟩]
        ∧ launchOf t x.blk.launch = some { l with gridx := min (l.gridx + n) (2 ^ 32 - 1) }
        ∧ ∀ k, k ≠ x.blk.launch → launchOf t k = launchOf s k)
    ∧ (¬ grows → TrapsOn (.grow h d a) s x 0x01 0x00 ((encode (.grow h d a)).extractLsb' 0 32)
        ((encode (.grow h d a)).extractLsb' 32 32))

/-- CPY, CPYG, CPYS and CPYQ (R184 to R190). -/
def Obligations.CopiesAndPacketsAreQueued : Prop :=
  Claims.CopiesAreRequested ∧ Claims.QueuePacketsAreAppended

/-- The ring instructions, CPY.RING and BINIT (R189 to R194). -/
def Obligations.RingsAdvanceAndObjectsBegin : Prop :=
  Claims.RingsAdvance ∧ Claims.ObjectsAreInitialised

/-- BARV, BWAIT, BARW, FENCE and GROW (R195 to R197). -/
def Obligations.BarriersFencesAndGrowth : Prop :=
  Claims.BarriersCountAndWait ∧ Claims.FencesAndGrowth

/-! ### Matrix instructions -/

namespace Sys2Proof.Machine

/-- A signing instance enters its operation into the stream of q of its wave, with its operands captured, and with what its
members' last FENCEOs made available; where a member has written a fragment register since, the result will be undefined; every
member lends its fragment and the tiles, and goes on; the barrier it will arrive on counts one pending engine arrival more. No
other stream and no other byte changes (R208, R210, R211, R212, R214). -/
def Signs (i : Instr) (h : Hdr) (s : State) (x : Cx) (mask : Word) (T : Nat → Thread) (q : QReg) (p : Prep) : Prop :=
  ∃ t c late, exec i s = .next t ∧ t.nextId = s.nextId + 1 ∧ { t with blocks := s.blocks, nextId := s.nextId } = s
    ∧ (late = true ↔ ∃ n r, n < 32 ∧ mask.getLsbD n = true ∧ r ∈ p.op.frag ∧ (T n).known.dirty.getLsbD r.toNat = true)
    ∧ (∀ n, mask.getLsbD n = true → ∃ w, threadOf t (laneTid x n) = some w ∧ At (nextSlot x.thr.pc) s h w
      ∧ Kept { parts := [.lent] } (T n) w
      ∧ w.lent = (T n).lent ++ [⟨q, s.nextId, p.op.frag, p.op.tiles, p.op, mask, false⟩])
    ∧ (∀ u, (∀ n, mask.getLsbD n = true → u ≠ laneTid x n) → threadOf t u = threadOf s u)
    ∧ blockOf t x.tid.slot = some c
    ∧ (∀ w r, streamOf c w r = if w = x.tid.tidx / 32 ∧ r = q then
        streamOf x.blk w r ++ [⟨s.nextId, p.op, mask, x.thr.pcWord, p.bwt, p.bar, false, late,
          ((List.range 32).filter (fun n => mask.getLsbD n)).foldl (fun k n => k.join (T n).known.offered) [], 0, 0⟩]
        else streamOf x.blk w r)
    ∧ (∀ a, p.bar = some a → (readBarrier c a).pendeng = (readBarrier x.blk a).pendeng + 1)
    ∧ (∀ k, (∀ a ∈ p.bars, k < a ∨ a + 16 ≤ k) → spadByte t x.tid.slot k = spadByte s x.tid.slot k)
    ∧ (∀ k, tileByte t x.tid.slot k = tileByte s x.tid.slot k)

end Sys2Proof.Machine

/-- The signing instructions of R206 to R211, with every member arrived, its guard true, its shared operands those of the
lowest lane, the ranges of R209 accepted and room in the stream; on a full stream the instance stays held (R210). The operands of each are those of R220 to R226. -/
def Claims.SigningInstancesEnterTheirStreams : Prop :=
  ∀ (h : Hdr) (fmt : Fmt) (prec : BitVec 4) (sa sb : BitVec 2) (tr p64 : Bool) (o : QOps) (q : QReg) (a b k : VReg)
    (s : State) (x : Cx) (mask : Word) (T : Nat → Thread) (l : Nat),
    mask.getLsbD l = true → (∀ n, n < l → mask.getLsbD n = false) → (∀ n, mask.getLsbD n = true → guardOf s (T n) h = true) →
    memoryWf s → x.tid.tidx / 32 < x.blk.waves.length →
    let A (r : VReg) : Nat := (rdV s (T l) r).toNat
    let same (r : VReg) : Prop := ∀ n, mask.getLsbD n = true → rdV s (T n) r = rdV s (T l) r
    let bwt := o.bwt.map (fun r => (A r % 2 ^ 24, (rdV s (T l) (r + 1)).extractLsb' 0 16))
    let bar := o.bar.map (fun r => A r % 2 ^ 24)
    let waits : List VReg := (match o.bwt with | some r => [r, r + 1] | none => []) ++ o.bar.toList
    let p := declaredPlanes fmt prec
    let e2 := fmt = .e2m1x
    let ga := sgenOf s (T l) sa
    let gb := sgenOf s (T l) sb
    let lanes := (List.range 32).filter (fun n => mask.getLsbD n)
    let at' (r : VReg) (n : Nat) : Option Nat := if mask.getLsbD n then some (rdV s (T n) r).toNat else none
    let rows (base stride : Nat) : List (List Word × Nat × Nat) := (List.range 16).map (fun m => (ga, base + m * stride, 0))
    let planeEs := if e2 then (List.range 16).map (fun m => (ga, if tr then A b + m / 2 else A b + m * A (b + 1), 0)) else []
    let acvtEs := if fmt.isBlock then rows (A b) (A (b + 1)) else []
    let scaleEs := if fmt.isBlock then lanes.flatMap (fun n => (gb, (rdV s (T n) o.b).toNat, n) ::
      (if n < 16 then [(ga, (rdV s (T n) (o.b + 1)).toNat, n)] else [])) else []
    let words (g : List Word) (es : List (Option Nat)) : List Nat := es.map (fun e => (e.bind (scaleAddr g)).getD 0)
    let planes := planeRows fmt tr
    let enters (i : Instr) (q : QReg) (kr : VReg) (regs : List VReg) (gens : List (BitVec 2)) (prep : Prep) : Prop :=
      rdV s x.thr kr = mask → Gathered i h s x mask T →
      (4 ≤ (streamOf x.blk (x.tid.tidx / 32) q).length → Waits i s x (.held mask))
      ∧ ((streamOf x.blk (x.tid.tidx / 32) q).length < 4 → (∀ r ∈ regs, same r) →
        (∀ g ∈ gens, ∀ n, mask.getLsbD n = true → sgenOf s (T n) g = sgenOf s (T l) g) →
        prepWhy x.blk mask prep = none → Signs i h s x mask T q prep)
    enters (.mma h fmt prec o) o.q o.mask ([o.a, o.c] ++ waits) []
      ⟨.mma fmt p (A o.a) o.b (A o.c), [⟨⟨false, A o.a, 64 * readPlanes fmt p⟩, 64, 0⟩, tileNeed false (A o.c)], [], bwt, bar⟩
    ∧ enters (.mmb h fmt prec o) o.q o.mask ([o.a, o.c] ++ waits) []
      ⟨.mmb fmt p (A o.a) o.b (A o.c), [⟨⟨false, A o.a, 64 * readPlanes fmt p⟩, 64, 0⟩, tileNeed true (A o.c)], [], bwt, bar⟩
    ∧ ((fmt.isBlock = true → mask.toNat % 2 ^ 16 = 2 ^ 16 - 1) →
      enters (.mscale h fmt sa sb o) o.q o.mask ([o.a, o.c] ++ waits) (if fmt.isBlock then [sa, sb] else [])
        ⟨if fmt.isBlock then .mscale fmt (A o.a) (A o.c) (words gb ((List.range 32).map (at' o.b)))
            (words ga ((List.range 16).map (at' (o.b + 1)))) else .mscale fmt (A o.a) (A o.c) [] [],
         tileNeed true (A o.a) :: scaleNeeds scaleEs ++ [tileNeed false (A o.c)], scaleOutside scaleEs, bwt, bar⟩)
    ∧ enters (.plane h fmt tr sa q a b k) q k [a, b, b + 1] (if e2 then [sa] else [])
      ⟨.plane fmt tr (A a) (A b) (A (b + 1)) (if e2 then planeEs.map (fun e => (scaleAddr ga e.2.1).getD 0) else []),
       ⟨⟨false, A a, 64 * allPlanes fmt⟩, 64, 0⟩ :: rowNeeds (A b) (A (b + 1)) planes.1 planes.2 4 ++ scaleNeeds planeEs,
       scaleOutside planeEs, none, none⟩
    ∧ enters (.acvt h fmt sa q a b k) q k [a, b, b + 1] (if fmt.isBlock then [sa] else [])
      ⟨.acvt fmt (A a) (A b) (A (b + 1)) (if fmt.isBlock then acvtEs.map (fun e => (scaleAddr ga e.2.1).getD 0) else []),
       tileNeed false (A a) :: rowNeeds (A b) (A (b + 1)) 16 (4 * elemWidth fmt) 16 ++ scaleNeeds acvtEs,
       scaleOutside acvtEs, none, none⟩
    ∧ enters (.azero h p64 q a k) q k [a] [] ⟨.azero p64 (A a), [tileNeed p64 (A a)], [], none, none⟩
    ∧ enters (.amovOut h p64 q a b k) q k [a, b] []
      ⟨.amovOut p64 (A a) (A b), [tileNeed p64 (A a), ⟨⟨false, A b, if p64 then 4096 else 2048⟩, 16, 0⟩], [], none, none⟩
    ∧ enters (.amovIn h p64 q a b k) q k [a, b] []
      ⟨.amovIn p64 (A a) (A b), [tileNeed p64 (A a), ⟨⟨false, A b, if p64 then 4096 else 2048⟩, 16, 0⟩], [], none, none⟩

/-- The checks of R209 on an instance's ranges: every range aligned and inside the slice or the tiles, every element inside
its descriptor, no write onto a typed object, and every barrier a barrier. -/
def Claims.MatrixRangesAccepted : Prop :=
  ∀ (b : Block) (mask : Word) (p : Prep), prepWhy b mask p = none ↔
    (∀ n ∈ p.needs ++ p.bars.map barNeed, n.rng.addr % n.align = 0
      ∧ (n.rng.tile = true → n.rng.addr < 2 ^ 18 ∧ n.rng.addr + n.rng.len ≤ 2048 * b.tilesN)
      ∧ (n.rng.tile = false → inWindow b (n.rng.addr : Int) n.rng.len = true))
    ∧ p.outside = []
    ∧ (∀ r ∈ p.op.dests mask, r.tile = false → ∀ y ∈ b.types, ¬(y.1 < r.addr + r.len ∧ r.addr < y.1 + 16))
    ∧ ∀ a ∈ p.bars, granType b a = some .barrier

/-- MWAIT, FENCEO and BLD of R213, R216 and R224: MWAIT waits for the operations the thread signed on q, then hands back
what they borrowed and sends the q status word; FENCEO waits for the thread's register writes; BLD sends a fragment read
from the scratchpad, codes of 2 and 4 bits widened to their signed images. -/
def Obligations.MatrixWaitsAndFragmentLoads : Prop :=
  ∀ (h : Hdr) (d : VReg) (q : QReg) (fmt : Fmt) (sg : BitVec 2) (a : LocAddr) (s : State) (x : Cx), Executes h s x →
    let lane := x.tid.tidx % 32
    let signed := (streamOf x.blk (x.tid.tidx / 32) q).any (fun o => o.mask.getLsbD lane)
    let status := ((x.blk.wave (x.tid.tidx / 32)).q[q.toNat]'(qreg_lt q)).status
    let handsBack (i : Instr) (parts : List Part) (post : Thread → Prop) : Prop :=
      ∃ t w c, exec i s = .next t ∧ threadOf t x.tid = some w ∧ At (nextSlot x.thr.pc) s h w ∧ OthersSame s t x.tid
        ∧ Kept { parts := .lent :: parts } x.thr w ∧ w.lent = x.thr.lent.filter (fun l => l.q != q) ∧ post w
        ∧ { t with blocks := s.blocks, cores := s.cores } = s ∧ blockOf t x.tid.slot = some c
        ∧ (∀ k, k ≠ x.tid.slot → blockOf t k = blockOf s k)
        ∧ { c with threads := x.blk.threads, waves := x.blk.waves } = x.blk
        ∧ ∀ k, (c.wave k).q = (x.blk.wave k).q
    let off := localOff s x.thr a
    let o := off.toNat
    let n := 4 * elemWidth fmt
    let bytes := x.blk.spad.readBytes o n
    let e2 := fmt = .e2m1x
    let narrow := fmt = .int2 ∨ fmt = .int4 ∨ e2
    let scale := scaleAddr (sgenOf s x.thr sg) o
    let scaled (addr : Nat) : Prop := scale = some addr ∧ addr % 2 = 0 ∧ inWindow x.blk (addr : Int) 2 = true
    let image (w : BitVec 16) (k : Nat) : Int :=
      let c := packedElem (elemWidth fmt) bytes k
      if fmt = .int2 then (BitVec.ofNat 2 c).toInt else if fmt = .int4 then (BitVec.ofNat 4 c).toInt
      else e2m1Img (BitVec.ofNat 4 c) w
    (signed = true → Waits (.mwait h (some d) q) s x (.waiting (.mwait q)) ∧ Waits (.mwait h none q) s x (.waiting (.mwait q)))
    ∧ (signed = false → (∀ y ∈ x.thr.lent, y.q = q → y.spoiled = false) →
        handsBack (.mwait h none q) [] (fun _ => True)
        ∧ handsBack (.mwait h (some d) q) [.pend] (fun w =>
            w.pend = x.thr.pend ++ [⟨false, [(d, status, false)], none, 0, false⟩]))
    ∧ (unlanded s x.thr = none → Goes (.fenceo h) s x h {} (fun _ => True))
    ∧ (∀ sp, unlanded s x.thr = some sp → Waits (.fenceo h) s x (.stalled (.scoreboard sp)))
    ∧ (inWindow x.blk off n = true → off % n = 0 → (∀ j, j < n → spadPoisoned x.blk (o + j) = false) →
        (¬ narrow → ∃ t w p, exec (.bld h fmt sg d a) s = .next t ∧ Did s t x h { parts := [.pend] } w
          ∧ w.pend = x.thr.pend ++ [p] ∧ p.cap = none ∧ p.setsFpx = false
          ∧ (n = (if fmt.isMma then 64 else 32) → Lands d n false (fun j => spadByte s x.tid.slot (o + j)) (fun _ => false) p.vals))
        ∧ (narrow → ∀ addr, (e2 → scaled addr ∧ ∀ j, j < 2 → spadPoisoned x.blk (addr + j) = false) →
          ∃ t w p, exec (.bld h fmt sg d a) s = .next t ∧ Did s t x h { parts := [.pend] } w
            ∧ w.pend = x.thr.pend ++ [p] ∧ p.cap = none ∧ p.setsFpx = false ∧ p.vals.length = 8
            ∧ ∀ k, k < 32 → ∃ v, p.vals[k / 4]? = some (d + BitVec.ofNat 6 (k / 4), v, false)
              ∧ v.extractLsb' (8 * (k % 4)) 8 = BitVec.ofInt 8 (image (scaleWord x.blk addr) k)))

/-- The signing instructions and the checks on their ranges (R206 to R211). -/
def Obligations.SigningInstancesAreCheckedAndEnter : Prop :=
  Claims.SigningInstancesEnterTheirStreams ∧ Claims.MatrixRangesAccepted

/-! ### Events of the scheduler, the copy engines and the matrix engine -/

namespace Sys2Proof.Machine

/-- Beside its blocks' threads at one place nothing has changed: the event changes only thread `tid`, which is now w. -/
def ThreadOnly (i : Instr) (s : State) (tid : ThreadId) (w : Thread) : Prop := ∃ t, exec i s = .next t ∧ OnlyThread s t tid w

end Sys2Proof.Machine

/-- REGROUP, THREAD_AGED and YIELD_EXPIRY of R235 to R240 and R117. At a cycle whose core count is a multiple of 4 the
regroup of that cycle forms at most 8 bundles of a partition; each is an instance whose members all stand held at it, or ready
threads of the partition at one packed code address, no two on one lane. No byte of memory, no thread of another partition and
no bundle of one changes. A thread ready for 1024 cycles is aged, and a yield ends 256 cycles after it began. -/
def Obligations.SchedulerEvents : Prop :=
  ∀ (s : State) (part : Nat) (tid : ThreadId) (u : Thread),
    ((s.cycle + (coreOf s (part / 4)).clkOff.toNat) % 4 = 0 → (turnOfPart s part).regrouped = false →
      ∃ t, exec (.regroup part) s = .next t
      ∧ MemSame s t ∧ (∀ u, (∀ b, (u.slot, b) ∈ s.blocks → inPart b u part = false) → threadOf t u = threadOf s u)
      ∧ (∀ p, p ≠ part → Assoc.getD t.bundles p [] = Assoc.getD s.bundles p [])
      ∧ (Assoc.getD t.bundles part []).length ≤ 8
      ∧ ∀ ms ∈ Assoc.getD t.bundles part [],
          (∃ lead b w mask, (lead.slot, b) ∈ t.blocks ∧ b.threads[lead.tidx]? = some w ∧ w.status = .held mask
            ∧ complete? t b lead w = true ∧ inPart b lead part = true ∧ ∀ m, m ∈ ms ↔ m ∈ maskTids lead mask)
          ∨ ((ms.map laneOf).Nodup ∧ ∃ pc, ∀ m ∈ ms, ∃ b w, (m.slot, b) ∈ t.blocks ∧ b.threads[m.tidx]? = some w
              ∧ isReady t b m w = true ∧ inPart b m part = true ∧ w.pcWord = pc))
    ∧ (threadOf s tid = some u →
        (u.sched.aged = none → 1024 ≤ u.sched.readyFor →
          ThreadOnly (.threadAged tid) s tid { u with sched := { u.sched with aged := some s.cycle } })
        ∧ (∀ c, u.sched.yielded = some c → c + 256 ≤ s.cycle →
          ThreadOnly (.yieldExpiry tid) s tid { u with sched := { u.sched with yielded := none } }))

/-- The end of an overlay load and of a wait for room (R115, R266, R268, R271). A load that reads its source fills the
lines and restart bits, and the overlay is resident; then every thread's tokens of the load are landed with 0 and a thread
parked on it by CALLO or JMPO issues again. A load that waits takes the room that FindRoom finds. -/
def Obligations.OverlayLoadsEnd : Prop :=
  ∀ (s s' : State) (n k : Nat) (l : OvLoad) (bs : List Byte) (table : List RestartEntry) (r : Resid),
    (coreOf s n).loads[k]? = some l →
    (l.placed = true → l.fault = none → activeAt s (engineFor (n / 4)) l.id = true → loadSource s l = (s', .lines bs table) → (coreOf s' n).find l.key = some r →
      ∃ t1 c, exec (.overlayLoadComplete n k) s = .next ((allTids t1).foldl (loadEndsFor n l.key 0) t1)
        ∧ { t1 with cores := s'.cores } = s' ∧ OnlyCore s' t1 n c
        ∧ c.loads = (coreOf s' n).loads.eraseIdx k
        ∧ c.find l.key = some { r with state := .resident, lru := lruNow s' (coreOf s' n), table := table }
        ∧ (∀ j, Assoc.getD c.lines j 0 = if r.base ≤ j ∧ j < r.base + l.len then
              BitVec.ofNat 512 (leNat ((bs.drop (64 * (j - r.base))).take 64)) else Assoc.getD (coreOf s' n).lines j 0)
        ∧ (∀ j, c.restart.has j = ((coreOf s' n).restart.has j || table.any (fun e => j == 8 * r.base + e.slot.toNat))))
    ∧ (∀ tid b u ids entry, blockOf s tid.slot = some b → b.threads[tid.tidx]? = some u → coreIdOf b tid = n →
        u.status = .parkedLoad ids (.call entry) → (∃ id ∈ ids, ovKey s n b.ctx id = l.key) →
        OnlyThread s (loadEndsFor n l.key 0 s tid) tid
          { landToken s.cycle u (.load l.key) 0 with status := .ready, nextIssue := s.cycle + 1 })
    ∧ (∀ base c', firstWaiting (coreOf s n).loads = some k →
        findRoom l.len l.ctx l.limit l.key.isPub 65 (coreOf s n) = (c', .at base) →
        ∃ t c, exec (.overlayRoomWaitEnd n) s = .next t ∧ { t with cores := s.cores, nextId := s.nextId } = s ∧ OnlyCore s t n c
          ∧ c.loads = c'.loads.set k { l with placed := true, id := s.nextId }
          ∧ c.resid = c'.resid ++ [⟨l.key, base, l.len, 0, .loading, 0, []⟩])

/-- COPY_CHUNK_PART of a plain copy inside one scratchpad or between two, whose ranges do not overlap nor meet an object (R187): the next part
of the chunk, up to its end, moves, whole, and no other byte changes; COPY_COMPLETE of R26 and R187 lands the status word
once every chunk is served. Where no register it writes is lent to the matrix engine (R214), nothing else changes then. -/
def Obligations.CopiesMoveTheirBytes : Prop :=
  ∀ (s : State) (e k chunk : Nat) (q : CopyReq) (slotD slotS d a : Nat) (bd bs : Block),
    (engineOf s e).reqs[k]? = some q → q.sealed = none → memoryWf s →
    blockOf s slotD = some bd → blockOf s slotS = some bs →
    (q.kind = .move → q.dst = .spad slotD d → q.src = .spad slotS a → (slotD = slotS → d + q.len ≤ a ∨ a + q.len ≤ d) →
      activeAt s e q.id = true → 4096 * chunk < q.len → inOrder s e q = true → d + q.len ≤ 2 ^ 32 → a + q.len ≤ 2 ^ 32 →
      (∀ f ∈ q.faults, f.1 ≠ chunk) → (∀ j, spadPoisoned bs j = false) →
      (∀ y ∈ bd.types, ¬(y.1 < d + q.len ∧ d < y.1 + 16)) →
      let start := 4096 * chunk + q.served? chunk
      let n := min 4096 (q.len - 4096 * chunk) - q.served? chunk
      0 < n → q.served? chunk ≤ 4096 → ∃ t, exec (.copyChunkPart e k chunk) s = .next t
        ∧ (∀ j, spadByte t slotD j = if d + start ≤ j ∧ j < d + start + n then spadByte s slotS (a + start + (j - (d + start)))
            else spadByte s slotD j)
        ∧ (∀ slot, slot ≠ slotD → blockOf t slot = blockOf s slot)
        ∧ { t with blocks := s.blocks, engines := s.engines } = s
        ∧ (engineOf t e).reqs = (engineOf s e).reqs.set k
            { q with served := Assoc.set q.served chunk (q.served? chunk + n) })
    ∧ (∀ tid reg u, q.allServed = true → q.packet = none → q.ring = none → q.token = some (tid, reg) →
        q.dst = .spad slotD d → threadOf s tid = some u →
        ∃ t w, exec (.copyComplete e k) s = .next t ∧ (engineOf t e).reqs = (engineOf s e).reqs.eraseIdx k
          ∧ (∀ e', e' ≠ e → engineOf t e' = engineOf s e') ∧ threadOf t tid = some w
          ∧ { w with lent := u.lent } = { landToken s.cycle u (.copy q.id) q.status with lent := u.lent }
          ∧ ((∀ l ∈ u.lent, l.spoiled = false ∧ ∀ x ∈ u.tokens, x.reg ∉ l.frag) →
              OnlyThread s { t with engines := s.engines } tid w))

/-- MATRIX_OP_START and MATRIX_OP_COMPLETE of R210 to R212, R215 and R217, on operations without barriers, with every write to
their inputs ordered before them and no rival on their bytes: a start writes the result of the operation on its block, a completion counts one operation more in the
status word with its flags and the latest error code, and the next operation of the stream is its head. -/
def Obligations.MatrixOperationsRun : Prop :=
  ∀ (s : State) (slot w : Nat) (q : QReg) (b : Block) (o : QOp) (rest : List QOp),
    blockOf s slot = some b → streamOf b w q = o :: rest → w < b.waves.length → o.bwt = none → memoryWf s →
    (∀ t ∈ b.threads, ∀ l ∈ t.lent, l.op = o.id → l.spoiled = false) →
    let st := ((b.wave w).q[q.toNat]'(qreg_lt q)).status
    let core := (b.wave w).core
    let ck := startClock b w q o
    let begun : QOp := { o with ordered := ck }
    let keeps (t : State) (c : Block) : Prop := blockOf t slot = some c ∧ { t with blocks := s.blocks } = s
      ∧ ∀ k, k ≠ slot → blockOf t k = blockOf s k
    (o.started = false → b.live = true → o.undef = false → readsRacing b ck ⟨core, begun⟩ = false →
      (∀ r ∈ unordered b ck o.id, r.hits ⟨core, begun⟩ = false ∧ OnCore.hits ⟨core, begun⟩ r = false) →
      (∀ p ∈ partHeads s b.cluster core (b.wave w).part, p.op.started = false ∧ (startable p = true → o.id ≤ p.op.id)) →
      let out := runMat s.freeCtr b core w o.mask o.op
      ∃ t c, exec (.matrixOpStart slot w q) s = .next t ∧ keeps t c
        ∧ { c with order := b.order } = modStream (putMat core b (o.op.dests o.mask) out) w q.toNat (fun x =>
            { x with ops := { begun with started := true, flags := out.flags, err := out.err } :: rest }))
    ∧ (o.started = true → o.bar = none → readsRacing b o.ordered ⟨core, o⟩ = false → ∃ t c, exec (.matrixOpComplete slot w q) s = .next t ∧ keeps t c
        ∧ streamOf c w q = rest ∧ c.threads = b.threads
        ∧ (let n := ((c.wave w).q[q.toNat]'(qreg_lt q)).status
           n.extractLsb' 16 16 = st.extractLsb' 16 16 + 1 ∧ n.extractLsb' 0 3 = st.extractLsb' 0 3 ||| o.flags
           ∧ n.extractLsb' 3 5 = 0 ∧ n.extractLsb' 8 8 = if o.err = 0 then st.extractLsb' 8 8 else o.err)
        ∧ (∀ k, spadByte t slot k = spadByte s slot k) ∧ (∀ k, tileByte t slot k = tileByte s slot k)
        ∧ (c.wave w).finished = (b.wave w).finished ++ [o])

/-! ### Faults and the record path -/

namespace Sys2Proof.Machine

/-- Stacked DRAM reads as given; beside it, tags, poison and copies in L1s nothing has changed. -/
def MemoryBecomes (s t : State) (byte : Nat → Byte) : Prop :=
  (∀ k, t.dram.read k = byte k) ∧ { t with dram := s.dram, tags := s.tags, poison := s.poison, cores := s.cores } = s

/-- Memory with the little-endian words ws from an address. -/
def withWords (ws : List Word) (a : Nat) (old : Nat → Byte) : Nat → Byte :=
  patched old a (4 * ws.length) (fun j => (ws.getD (j / 4) 0).extractLsb' (8 * (j % 4)) 8)

/-- Memory with an n-byte number at an address. -/
def withNat (x n a : Nat) (old : Nat → Byte) : Nat → Byte := patched old a n (fun j => BitVec.ofNat 8 (x / 256 ^ j))

/-- MSI-X messages of a function's vector. -/
def msixOf (s : State) (fn v : Nat) : Nat := Assoc.getD s.service.msix (fn * 64 + v) 0

/-- The thread of a slot, with its block. -/
def ThreadIn (s : State) (tid : ThreadId) (b : Block) (u : Thread) : Prop :=
  blockOf s tid.slot = some b ∧ b.threads[tid.tidx]? = some u

end Sys2Proof.Machine

/-- FAULT_RECORD_POST, FAULT_RESUME, STGFULL_TIMEOUT and STAGING_ROOM_FREED of R247, R250, R299, R370 and R371: an
unreported fault goes into a fault queue that has room, and vector 3 is sent; a parked thread whose faults are serviced
enters its restart point again once what it had issued there has completed, or goes on with its access in the handler; a staging
stall ends with room, or after STGLIM, and its instruction is tried again, in the second case for the last time. -/
def Obligations.FaultsAreReportedAndResumed : Prop :=
  ∀ (s : State) (src k : Nat) (e : FaultEntry) (q : FaultQueue) (tid : ThreadId) (b : Block) (u : Thread),
    memoryWf s → ThreadIn s tid b u →
    ((faultsAt s src)[k]? = some e → e.reported = false → (ctxOf s e.ctx).bind Context.faultQ = some q →
      let wr := readDevNat s q.addr 8
      let rd := readDevNat s (q.addr + 8) 8
      (wr + 2 ^ 64 - rd) % 2 ^ 64 < 2 ^ q.logn →
      ∃ t, exec (.faultRecordPost src k) s = .next t
        ∧ MemoryBecomes s { t with clusters := s.clusters, engines := s.engines, service := s.service }
            (withNat ((wr + 1) % 2 ^ 64) 8 (here s q.addr)
              (withWords [BitVec.ofNat 16 (min e.waiters 0xFFFF) ++ 0#2 ++ e.acc ++ e.kind.code, BitVec.ofNat 32 (e.obj % 2 ^ 24),
                BitVec.ofNat 32 e.page, BitVec.ofNat 32 (e.page / 2 ^ 32 % 256), e.gts.extractLsb' 0 32,
                e.gts.extractLsb' 32 32, (faultSrc src).setWidth 32, 0] (here s (q.addr + 64 + 32 * (wr % 2 ^ q.logn))) s.dram.read))
        ∧ faultsAt t src = (faultsAt s src).set k { e with reported := true }
        ∧ (∀ n, n ≠ src → faultsAt t n = faultsAt s n)
        ∧ msixOf t q.fn 3 = msixOf s q.fn 3 + 1)
    ∧ (∀ fs since s', u.status = .parkedFault fs since →
        (u.trap = none → u.runFrom = none ∧ u.pend = [] ∧ (∀ x ∈ u.lat, x.2 ≤ s.cycle) ∧ u.fpxAt ≤ s.cycle
          ∧ ∀ x ∈ u.tokens, x.inRegion = false) →
        (∀ f ∈ fs, outstanding s b.cluster b.ctx f = false) →
        (retranslate b.ctx (some b.launch) fs s = (s', []) →
          (u.trap.isSome = true → ∃ t, exec (.faultResume tid) s = .next t
            ∧ OnlyThread s' t tid { u with status := .ready, nextIssue := s.cycle + 1 })
          ∧ (u.trap = none → entryOk s' (coreIdOf b tid) b.ctx u.top u.pc.toNat = true →
            ∃ t, exec (.faultResume tid) s = .next t ∧ OnlyThread s' t tid
              { u with status := .ready, arrival := none, nextIssue := s.cycle + 1, sched := ⟨none, false, 0, none⟩ }))
        ∧ (∀ g gs, retranslate b.ctx (some b.launch) fs s = (s', g :: gs) → ∃ t, exec (.faultResume tid) s = .next t
          ∧ threadOf t tid = some { u with status := .parkedFault (g :: gs) since }))
    ∧ (∀ since need, u.status = .stalled (.staging since need) →
        let again (late : Bool) : Thread := { u with status := .ready, nextIssue := min u.nextIssue s.cycle, stgOut := late }
        (since + stgLimOf s b.ctx ≤ s.cycle → ThreadOnly (.stgfullTimeout tid) s tid (again true))
        ∧ (stagingRoom s b need = true → ThreadOnly (.stagingRoomFreed tid) s tid (again false)))

namespace Sys2Proof.Machine

/-- The path of a drover. -/
def pathOf (s : State) (die p : Nat) : Path := (droverOf s die).path p

/-- An entry is appended at one path of one drover, which notes whose it is; every other path is as before. -/
def Appends (s t : State) (die p : Nat) (owners : List (CommitScope × Owner)) (e : Entry) : Prop :=
  ∀ d x, pathOf t d x = if d = die ∧ x = p then
    { pathOf s d x with
      entries := (pathOf s d x).entries ++ [e]
      carried := ((pathOf s d x).carried ++ owners).dedup }
    else pathOf s d x

/-- A path has room for an entry, and a bin open or free (R286, R287). -/
def Accepts (s : State) (die p : Nat) (e : Entry) : Prop :=
  (pathOf s die p).takes e.slots = true ∧ (droverOf s die).hasBin p = true

/-- A notice goes down every path of this device's entries at a drover. -/
def Notifies (s t : State) (die slot : Nat) (lnum : BitVec 16) (unbind : Bool) : Prop :=
  ∀ x ∈ allPaths s, (pathOf t die x).entries = (pathOf s die x).entries ++ [.notice (BitVec.ofNat 15 slot) lnum unbind]

end Sys2Proof.Machine

/-- MARKER_FORM and LOG_DRAIN of R284, R286 and R293: a marker is formed behind the records of each core of its commit, after
the earlier ones of its owner; a closed record with none of its thread before it leaves its log for the path of its channel; a marker with nothing
before it that it waits for goes down every path that carried records of its owner, in a bin's last entry. -/
def Claims.RecordsAndMarkersLeaveTheirLogs : Prop :=
  ∀ (s : State) (id n k : Nat) (c : Commit) (r : Rec) (d' : Drover),
    let die := n / 4 / 20
    let log := (coreOf s n).log
    let before := (log.take k).flatMap recOfLog
    (commitById s id = some c → c.formed = false → allPast s c = true → (∀ x ∈ s.commits, c.follows x = true → x.formed = true) →
      ∃ t, exec (.markerForm id) s = .next t ∧ { t with cores := s.cores, commits := s.commits, lehrs := s.lehrs } = s
        ∧ (∀ m, coreOf t m = { coreOf s m with
            log := if m ∈ markerCores s c then (coreOf s m).log ++ [.marker id] else (coreOf s m).log })
        ∧ t.commits = s.commits.map (fun x =>
            if x.id = c.id then { c with formed := true, coresLeft := (markerCores s c).dedup } else x))
    ∧ (log[k]? = some (.record r false) → (∀ x ∈ before, x.sameThread r = false) → boundOn s die r.bslot.toNat = true →
        Accepts s die (r.path s.device) (.record r) →
        ∃ t, exec (.logDrain n k) s = .next t ∧ { t with cores := s.cores, drovers := s.drovers } = s
          ∧ OnlyCore s t n { coreOf s n with log := log.eraseIdx k }
          ∧ Appends s t die (r.path s.device) (ownersOf s r) (.record r))
    ∧ (log[k]? = some (.marker id) → commitById s id = some c → markerWaits s c (log.take k) = false →
        sendMarker s c (droverOf s die) = some d' → ((droverOf s die).paths.map (·.1)).Pairwise (· < ·) →
        ∃ t, exec (.logDrain n k) s = .next t
          ∧ { t with cores := s.cores, drovers := s.drovers, commits := s.commits, lehrs := s.lehrs } = s
          ∧ OnlyCore s t n { coreOf s n with log := log.eraseIdx k }
          ∧ (∀ x y, Assoc.get (droverOf s die).paths x = some y → pathOf t die x =
              if x < 1408 ∧ y.carried.contains (c.scope, c.owner) then
                { y with
                  entries := y.entries ++ [.marker c.id (markerBits s c y.mseq)]
                  mseq := y.mseq + 1
                  carried := y.carried.dedup.filter (fun z => z != (c.scope, c.owner)) }
              else y)
          ∧ t.commits = s.commits.map (fun x => if x.id = c.id then { c with coresLeft := c.coresLeft.erase n } else x))

/-- SLOT_BINDING_NOTICE of R283: before a block's first record on a C-die its drover sends a notice down every path, and when
the block has retired and its records are applied or discarded another, which frees the slot. -/
def Claims.SlotsAreBoundAndUnbound : Prop :=
  ∀ (s : State) (slot : Nat) (b : Block) (l : Launch), blockOf s slot = some b → launchOf s b.launch = some l → (allPaths s).Nodup →
    let die := b.cluster / 20
    let notice (unbind : Bool) (blocks : State → Prop) : Prop := (sendNotice s die slot l.lnum unbind).isSome = true →
      ∃ t, exec (.slotBindingNotice die slot unbind) s = .next t ∧ { t with blocks := s.blocks, drovers := s.drovers } = s
        ∧ blocks t ∧ Notifies s t die slot l.lnum unbind
    (b.bound.contains die = false → notice false (fun t =>
        ∀ j, blockOf t j = if j = slot then some { b with bound := b.bound ++ [die] } else blockOf s j))
    ∧ (b.phase = .retired → slotRecs s slot = [] → b.bound = [die] → notice true (fun t => t.blocks = Assoc.erase s.blocks slot))

/-- BIN_SHIP, REMOTE_REBIN and BIN_STAGE of R281, R287, R288 and R290: a bin that is full or ends in a marker leaves; a record
that arrives from another device is binned again, on a path of its own; a bin reaches its stack's region in the order of its
sequence numbers, where a lawless record is reported and dropped. -/
def Claims.BinsTravel : Prop :=
  ∀ (s : State) (d x chan k die : Nat) (z : Bin),
    let p := pathOf s d x
    (p.entries.any Entry.isMarker = true ∨ 252 ≤ slotsOf p.entries + 1 →
      ∃ t es gone, exec (.binShip d x) s = .next t ∧ mergeBin s p.entries = (es, gone)
        ∧ { t with blocks := s.blocks, contexts := s.contexts, drovers := s.drovers } = s
        ∧ (gone = [] → t.blocks = s.blocks ∧ t.contexts = s.contexts)
        ∧ (∀ y, pathOf t d y = if y = x then { p with entries := [], bseq := p.bseq + 1 } else pathOf s d y)
        ∧ (droverOf t d).inFlight = (droverOf s d).inFlight ++ [⟨x, d, pathSrc s x, p.bseq, es⟩])
    ∧ (∀ src (w : BitVec 128), d < 4 → src < 1024 → src ≠ s.device.toNat →
        w.extractLsb' 48 4 ≠ 0xE → w.extractLsb' 48 4 ≠ 0xF → w.getLsbD 42 = false →
        let y := recOfBits s.device (BitVec.ofNat 10 src) (lnumOf s (BitVec.ofNat 10 src) (w.extractLsb' 68 15)) w 0
        let dest := foreignPath (BitVec.ofNat 10 src) (chanOf y.paddr.toNat)
        onDie d y.paddr.toNat = true → Accepts s d dest (.record y) →
        ∃ t, exec (.remoteRebin d ⟨src, [w]⟩) s = .next t ∧ { t with drovers := s.drovers } = s
          ∧ Appends s t d dest (foreignOwners y) (.record y))
    ∧ (chan < 384 → (arriving s (fun p => pathChan p == some chan))[k]? = some (die, z) →
        stackUse s (chan / 32) + 16 * slotsOf z.entries ≤ regionBytes s →
        let lawless := (z.entries.flatMap recOfEntry).filter (fun r => !r.legal)
        ∃ t, exec (.binStage chan k (chan / 32)) s = .next t
          ∧ (lawless = [] → { t with drovers := s.drovers, staging := s.staging, lehrs := s.lehrs } = s)
          ∧ t.service.eventsTotal = s.service.eventsTotal + lawless.length
          ∧ (droverOf t die).inFlight = (droverOf s die).inFlight.erase z
          ∧ ∀ j, Assoc.getD t.staging j [] = if j = chan then
              Assoc.getD s.staging chan [] ++ (z.entries.filter (fun e => match e with
                | .notice _ _ _ => false
                | e => (recOfEntry e).all Rec.legal)).map (fun e => ⟨e, chan / 32, die, z.srcDev⟩)
              else Assoc.getD s.staging j [])

/-- Records, markers, notices and bins on their way (R281, R283, R284, R286 to R288, R290, R293). -/
def Obligations.RecordsTravel : Prop :=
  Claims.RecordsAndMarkersLeaveTheirLogs ∧ Claims.SlotsAreBoundAndUnbound ∧ Claims.BinsTravel

/-- MARKER_APPLY and COMMIT_COMPLETE (R291, R293, R296, R306): when a lehr comes to a marker that it has whole, a covered record
of a page that is not compressed acts on its bytes by its operator and no other byte changes; when no part is left the commit
ends, with none of its records at another device, and its tokens land, each an acquire by its core. -/
def Obligations.CommitsApplyTheirRecords : Prop :=
  ∀ (s : State) (id chan : Nat) (c : Commit) (r : Rec) (st st' die : Nat) (src : BitVec 10) (bits : BitVec 128),
    commitById s id = some c → c.coresLeft = [] → memoryWf s →
    let old := s.dram.readNat r.addr r.size
    let val := r.value.toNat + 2 ^ 32 * r.valhi.toNat
    let new :=
      if r.opc = 0 then val
      else if r.opc = 7 then
        (agedAdd (BitVec.ofNat 64 old) r.value (r.valhi.extractLsb' 0 16) r.decay.toNat).toNat
      else (atomicOp (opOfOpc r.opc) (tyOfCode r.ty) (8 * r.size) old val).1
    (Assoc.get s.staging chan = some [⟨.record r, st, die, src⟩, ⟨.marker id bits, st', die, src⟩] →
      Assoc.getD s.lehrs chan [] = [.own id] → earlierPending s (.own id) chan = false → covers s c r = true → r.legal = true →
      (∀ t', t'.contexts = s.contexts → t'.device = s.device → t'.dram = s.dram ∨ t'.dram = s.dram.writeNat r.addr r.size new →
        cmpPageOf t' r.home.toNat r.paddr.toNat = none) →
      ∃ t, exec (.markerApply id chan) s = .next t
        ∧ MemoryBecomes s { t with
            staging := s.staging, lehrs := s.lehrs, blocks := s.blocks, contexts := s.contexts
            fabric := { t.fabric with buckets := s.fabric.buckets } } (withNat new r.size r.addr s.dram.read)
        ∧ Assoc.getD t.staging chan [] = [] ∧ Assoc.getD t.lehrs chan [] = []
        ∧ ∀ slot b, blockOf s slot = some b → ∃ b', blockOf t slot = some b' ∧ { b' with charge := b.charge } = b
            ∧ b'.charge = if r.srcDev = s.device ∧ r.bslot.toNat = slot then b.charge - r.charge else b.charge)
    ∧ (c.formed = true → marksLeft s id = false → s.abroad = [] →
        ∃ t, exec (.commitComplete id) s = .next t ∧ t.commits = s.commits.filter (fun x => x.id != id)
          ∧ { t with commits := s.commits, blocks := s.blocks, fabric := s.fabric, cores := s.cores } = s
          ∧ (∀ tid u, threadOf s tid = some u → threadOf t tid =
              if c.tokens.any (fun x => x.1 == tid) then some (landToken s.cycle u (.commit c.id) (statusWord 0 0x9 c.code))
              else some u)
          ∧ (∀ x ∈ c.tokens, ∀ b, blockOf s x.1.slot = some b → ∀ l ∈ (coreOf t (coreIdOf b x.1)).l1, l.excl = true)
          ∧ (∀ g p, c.owner = .group g → Assoc.get s.fabric.groups g = some p →
              Assoc.get t.fabric.groups g = some { p with commits := p.commits + 1 }))

/-! ### Launches -/

/-- PACKET_FETCH and LAUNCH_START of R339 to R345, R351 and R376: the packet at RD of a queue that holds one and has fewer
than 8 open leaves its slot and becomes a launch, with its first failure as status, and an overrun queue stops; a marker or a
failed packet completes at its start, and a kernel starts with a free launch number and the versions it binds. -/
def Obligations.PacketsAreFetchedAndStarted : Prop :=
  ∀ (s : State) (n id lnum : Nat) (argObj : BitVec 24) (q : LaunchQueue) (l : Launch), memoryWf s →
    Assoc.get s.launchQs n = some q →
    let wr := readDevNat s q.addr 8
    let rd := readDevNat s (q.addr + 8) 8
    let cpl := readDevNat s (q.addr + 16) 8
    let ahead := (wr + 2 ^ 64 - rd) % 2 ^ 64
    let p := bytesWords (readDev s (q.addr + 64 + 128 * (rd % 2 ^ q.logn)) 128)
    let new := Launch.fetched q.ctx n q.fetched p (firstBad s q.ctx p) argObj
    let takes (s' t : State) (l' : Launch) : Prop :=
      MemoryBecomes s' { t with launchQs := s'.launchQs, launches := s'.launches, nextLaunch := s'.nextLaunch }
        (withNat ((rd + 1) % 2 ^ 64) 8 (here s' (q.addr + 8)) s'.dram.read)
      ∧ launchOf t s'.nextLaunch = some l' ∧ t.nextLaunch = s'.nextLaunch + 1
      ∧ Assoc.get t.launchQs n = some { q with fetched := q.fetched + 1 }
    let ends : Prop := ∃ t, exec (.launchStart id lnum) s = .next t
      ∧ MemoryBecomes s { t with launchQs := s.launchQs, launches := s.launches }
          (withNat ((cpl + 1) % 2 ^ 64) 8 (here s (q.addr + 16)) s.dram.read)
      ∧ t.launches = Assoc.erase s.launches id
      ∧ Assoc.get t.launchQs n = some { q with completed := q.completed + 1 }
    (q.stopped = false →
      (2 ^ q.logn < ahead → ahead < 2 ^ 63 → ∃ t, exec (.packetFetch n argObj) s = .next t
        ∧ Assoc.get t.launchQs n = some { q with stopped := true }
        ∧ { t with launchQs := s.launchQs, service := s.service } = s ∧ t.service.eventsTotal = s.service.eventsTotal + 1)
      ∧ (0 < ahead → ahead ≤ 2 ^ q.logn → q.fetched < q.completed + 8 →
        ((isMarker p = true ∨ (firstBad s q.ctx p).isSome = true) →
          ∃ t, exec (.packetFetch n argObj) s = .next t ∧ takes s t new)
        ∧ (∀ s' l', isMarker p = false → firstBad s q.ctx p = none → argsTaken s q.ctx argObj = false → fetchKernel s new = (s', .ok l') → memoryWf s' →
          ∃ t, exec (.packetFetch n argObj) s = .next t ∧ takes s' t l')))
    ∧ (launchOf s id = some l → l.phase = .fetched → l.queue = n → startsNow s l = true →
        (l.bad.isSome = true ∨ l.marker = true → pObj l.packet 12 = 0 → (pw l.packet 15).getLsbD 31 = false → ends)
        ∧ (∀ s' bound, l.bad = none → l.marker = false → lnumFree s lnum = true → l.replay = false →
          bindAll s l.ctx = (s', bound) → ∃ t, exec (.launchStart id lnum) s = .next t ∧ { t with launches := s'.launches } = s'
            ∧ (∀ k, k ≠ id → launchOf t k = launchOf s' k)
            ∧ launchOf t id = some { l with
                phase := .started
                lnum := BitVec.ofNat 16 lnum
                gridx := (pw l.packet 1).toNat
                bound0 := bound
                pins := bound
                snapshots := [] })
        ∧ (∀ s' bound s'' snaps, l.bad = none → l.marker = false → lnumFree s lnum = true → l.replay = true →
          bindAll s l.ctx = (s', bound) → takeSnapshots s' l = (s'', snaps) →
          ∃ t l', exec (.launchStart id lnum) s = .next t ∧ { t with launches := s''.launches } = s''
            ∧ launchOf t id = some l' ∧ l'.phase = .started ∧ l'.lnum = BitVec.ofNat 16 lnum ∧ l'.pins = bound
            ∧ l'.snapshots = snaps))

/-- DISPATCH_PASS, RESERVING and BLOCK_START of R231, R347 to R351 and R440: the pass places the next block of the launch
whose turn it is where R347 allows, or skips it; a launch skipped for 400 000 cycles is reserving; a placed block starts with
its stores zero and every thread at the entry slot as R13 says, in its entry overlay. -/
def Obligations.BlocksArePlacedAndStart : Prop :=
  ∀ (s : State) (id slot : Nat) (l : Launch) (pl : Placement) (b : Block),
    launchOf s id = some l →
    let placing (t : State) : Prop := { t with blocks := s.blocks, launches := s.launches, contexts := s.contexts } = s
    (dispatchable s id l = true → turnOf s l.ctx id = true → reservedAbove s l.ctx id = false → savedOf s id = [] →
      (l.coop = false → placementOk s l pl = true → ∃ t, exec (.dispatchPass id [pl]) s = .next t ∧ placing t
        ∧ (∀ k, blockOf t k = if k = pl.slot then some (Block.place id l pl) else blockOf s k)
        ∧ (∀ k, k ≠ id → launchOf t k = launchOf s k)
        ∧ launchOf t id = some { l with
            nextBlock := l.nextBlock + 1
            cores := (l.cores ++ pl.cores.map (fun k => 4 * pl.cluster + k)).dedup
            skippedSince := none
            reserving := false })
      ∧ (∀ pls s', l.coop = true → pls ≠ [] → pls.length = l.blocks - l.nextBlock → placeAll id pls s = some s' →
          ∃ t, exec (.dispatchPass id pls) s = .next t ∧ placing t ∧ t.blocks = s'.blocks)
      ∧ (chooseAll id (pendingN l) s = none → ∃ t, exec (.dispatchPass id []) s = .next t ∧ placing t ∧ t.blocks = s.blocks
          ∧ launchOf t id = some { l with skippedSince := some (l.skippedSince.getD s.cycle) }))
    ∧ (∀ c, l.skippedSince = some c → c + 400000 ≤ s.cycle → ∃ t, exec (.reserving id) s = .next t
        ∧ { t with launches := s.launches } = s ∧ launchOf t id = some { l with reserving := true }
        ∧ ∀ k, k ≠ id → launchOf t k = launchOf s k)
    ∧ (blockOf s slot = some b → b.launch = id → b.phase = .placed → l.fatal = none → l.replayWant = false →
        let entry := pw l.packet 5
        let key (n : Nat) := ovKey s n b.ctx (entry.extractLsb' 24 8)
        (∀ w ∈ b.waves, (coreOf s (4 * b.cluster + w.core)).usable (key (4 * b.cluster + w.core)) = true) →
        ∃ t c, exec (.blockStart slot) s = .next t ∧ { t with blocks := s.blocks, cores := s.cores } = s
          ∧ (∀ k, k ≠ slot → blockOf t k = blockOf s k) ∧ blockOf t slot = some c ∧ c.phase = .running
          ∧ c.spad = [] ∧ c.types = [] ∧ c.tiles = [] ∧ c.tflags = [] ∧ c.waves = b.waves ∧ c.coord = b.coord
          ∧ c.threads.length = 32 * b.waves.length
          ∧ (∀ u ∈ c.threads, u = { Thread.fresh l.argObj entry with nextIssue := s.cycle + 1 })
          ∧ (∀ k ∈ b.cores, (coreOf s (4 * b.cluster + k)).begun.contains id = false → (coreOf t (4 * b.cluster + k)).l1 = [])
          ∧ ∀ n, ((coreOf t n).find (key n)).map Resid.refs = ((coreOf s n).find (key n)).map (fun r =>
              r.refs + 64 * (b.waves.filter (fun w => 4 * b.cluster + w.core == n)).length))

/-- FATAL_TRAP_END and LAUNCH_COMPLETE of R253, R339, R343 and R352: a launch with a fatal trap, unless it is replayed, loses
the saved blocks it has and the overlays of its threads, and keeps its records and commits until every operation issued has
completed; a launch that has ended, with nothing in progress, no completion object and every earlier packet of its queue complete,
leaves with its blocks and records, and its queue counts one packet more. -/
def Obligations.LaunchesEnd : Prop :=
  ∀ (s : State) (id : Nat) (l : Launch), launchOf s id = some l →
    let blocksGone (t : State) : Prop := ∀ p ∈ t.blocks, p.2.launch ≠ id
    (l.fatal.isSome = true → l.phase = .started → willReplay s l = false → ∃ t, exec (.fatalTrapEnd id) s = .next t
      ∧ t.dram = s.dram ∧ launchRecs t id = launchRecs s id ∧ t.commits = s.commits
      ∧ launchOf t id = some { l with phase := .ending } ∧ (∀ c ∈ t.contexts, ∀ k ∈ c.2.saved, k.launch ≠ id)
      ∧ (∀ p ∈ t.blocks, p.2.launch = id → ∀ u ∈ p.2.threads, u.stack = [] ∧ u.rpStack = []))
    ∧ (∀ q, (l.phase = .ending ∨ (l.phase = .started ∧ l.fatal = none ∧ allRetired s id l = true)) → launchBusy s id = false →
        pObj l.packet 12 = 0 → Assoc.get s.launchQs l.queue = some q → q.completed = l.no → ∃ t, exec (.launchComplete id) s = .next t
          ∧ t.launches = Assoc.erase s.launches id ∧ blocksGone t ∧ launchRecs t id = []
          ∧ Assoc.get t.launchQs l.queue = some { q with completed := q.completed + 1 }
          ∧ (∀ k ∈ l.cores, (coreOf t k).l1 = []))

/-! ### The host interface -/

namespace Sys2Proof.Machine

def boxOf (s : State) (fn : Nat) : Mailbox := Assoc.getD s.service.mailboxes fn Mailbox.empty

/-- A request of the mailbox has been answered: code, context and tag in word 0 of its slot, word 1, the counts, and MSI-X
vector 0 of its function (R404). -/
structure Answered (s t : State) (r : Req) (code : Nat) (w1 : Word) : Prop where
  slot : Assoc.get (boxOf t r.fn).slots ((boxOf s r.fn).responses.toNat % 64) =
    some [r.tag.setWidth 18 ++ BitVec.ofNat 6 r.ctx ++ BitVec.ofNat 8 code, w1]
  requests : (boxOf t r.fn).requests = (boxOf s r.fn).requests + 1
  responses : (boxOf t r.fn).responses = (boxOf s r.fn).responses + 1
  msix : msixOf t r.fn 0 = msixOf s r.fn 0 + 1

/-- A state, but for the mailboxes and messages, which are as in s. -/
def unsent (s t : State) : State :=
  { t with service := { t.service with mailboxes := s.service.mailboxes, msix := s.service.msix } }

/-- Firmware serves a request: it answers with a code and word 1, and the machine is otherwise as in s'. -/
def Serves (i : Instr) (s s' : State) (r : Req) (code : Nat) (w1 : Word) : Prop :=
  ∃ t, exec i s = .next t ∧ Answered s t r code w1 ∧ unsent s t = unsent s s'

/-- An event record has been written, and vector 1 of the PF raised (R425); the machine is otherwise as in s. -/
def Logged (s t : State) (e : EventRec) : Prop :=
  t.service.events = (if s.service.events.length < 65536 then s.service.events else s.service.events.drop 1) ++ [e]
  ∧ t.service.eventsTotal = s.service.eventsTotal + 1 ∧ msixOf t 0 1 = msixOf s 0 1 + 1
  ∧ { t with service := { t.service with
      events := s.service.events, eventsLost := s.service.eventsLost
      eventsTotal := s.service.eventsTotal, msix := s.service.msix } } = s

end Sys2Proof.Machine

/-- Doorbells of R405: a bound one raises the WR of its launch queue or the RD of its fault queue to the value, never lowers
it; one of a bulk queue writes nothing, since the engine examines its slot anyway; an unbound one is dropped with an event. -/
def Obligations.DoorbellsRaiseTheirWords : Prop :=
  ∀ (s : State) (fn k : Nat) (x : BitVec 64) (addr : Nat), memoryWf s →
    let raised (t : State) : Prop :=
      MemoryBecomes s t (withNat (max (readDevNat s addr 8) x.toNat) 8 (here s addr) s.dram.read)
    (∀ n q, Assoc.get s.service.doorbells (fn * 4096 + k) = some (.launch n) → Assoc.get s.launchQs n = some q → q.addr = addr →
      ∃ t, exec (.doorbellLaunchQueue fn k x) s = .next t ∧ raised t)
    ∧ (∀ c q, Assoc.get s.service.doorbells (fn * 4096 + k) = some (.fault c) → (ctxOf s c).bind Context.faultQ = some q →
      q.addr + 8 = addr → ∃ t, exec (.doorbellFaultQueue fn k x) s = .next t ∧ raised t)
    ∧ exec (.doorbellBulkQueue fn k x) s = .next s
    ∧ ∃ t, exec (.doorbellUnbound fn k x) s = .next t ∧ Logged s t
        ⟨0x08, 0, none, gtsOf s, srcNo 6 0, BitVec.ofNat 32 (0x200000 + 8 * k), BitVec.ofNat 32 ((0x200000 + 8 * k) / 2 ^ 32)⟩

/-- The requests of the mailbox (R338, R355, R370, R371, R377, R396, R400, R403, R404, R408, R409): where the context is one
the function reaches and the request's own conditions hold, firmware does what is asked and answers 0; for a context it does
not reach, or another code, it answers 1 and changes nothing; a request that would write an object a page of which is locked
(R322), or that meets a die in its refresh window (R378), waits. The refusal numbers are the model's (log 14). -/
def Obligations.MailboxRequestsAreServed : Prop :=
  ∀ (s : State) (r : Req) (addr logn k obj off page group : Nat) (members : List Nat) (bulk : BulkReg) (st : StorageReg)
    (bk : BucketReg) (mint : MintReg) (pub : PublishReg) (code : BitVec 8), memoryWf s →
    let reg := Instr.registerLaunchQueue r addr logn
    let all := [reg, .registerFaultQueue r addr logn, .registerBulkQueue r bulk, .registerStorageWindow r st,
      .fillApertureWindow r k obj off, .registerPodGroup r group members, .registerBucket r bk, .resolve r obj page,
      .mintCapability r mint, .publishVersion r pub]
    let refreshing := pub.frames.any (fun f => inRefresh s (wsDie f)) = true ∨
      sourceRefreshes s r.ctx pub.srcObj pub.srcOff (objSize ((objEntry s r.ctx pub.obj).getD 0)) = true
    Serves (.mailboxRefused r code) s s r 1 0
    ∧ (objLocked s r.ctx bulk.obj = true → exec (.registerBulkQueue r bulk) s = .next s)
    ∧ (objLocked s r.ctx mint.dstObj = true → exec (.mintCapability r mint) s = .next s)
    ∧ (refreshing → exec (.publishVersion r pub) s = .next s)
    ∧ (mayServe s r = false → objLocked s r.ctx bulk.obj = false → objLocked s r.ctx mint.dstObj = false → ¬ refreshing →
        ∀ i ∈ all, Serves i s s r 1 0)
    ∧ (mayServe s r = true →
      (∀ d, freeDoor s r.fn = some d →
        (1 ≤ logn → logn ≤ 16 → addr % 64 = 0 → addr + (64 + 128 * 2 ^ logn) ≤ 432 * 2 ^ 30 → (queuesOf s r.ctx).length < 32 →
          ∃ t id, exec reg s = .next t ∧ Answered s t r 0 (BitVec.ofNat 32 d)
            ∧ MemoryBecomes s { t with service := s.service, launchQs := s.launchQs } (withNat 0 64 (here s addr) s.dram.read)
            ∧ Assoc.get t.launchQs id = some ⟨r.ctx, addr, logn, r.fn, d, 0, 0, false⟩
            ∧ Assoc.get t.service.doorbells (r.fn * 4096 + d) = some (.launch id))
        ∧ (4 ≤ logn → logn ≤ 16 → addr % 64 = 0 → addr + (64 + 32 * 2 ^ logn) ≤ 432 * 2 ^ 30 →
          ∃ t, exec (.registerFaultQueue r addr logn) s = .next t ∧ Answered s t r 0 (BitVec.ofNat 32 d)
            ∧ MemoryBecomes s { t with service := s.service, contexts := s.contexts } (withNat 0 64 (here s addr) s.dram.read)
            ∧ (ctxOf t r.ctx).bind Context.faultQ = some ⟨addr, logn, r.fn, d⟩
            ∧ Assoc.get t.service.doorbells (r.fn * 4096 + d) = some (.fault r.ctx))
        ∧ (∀ ws s', bulk.off % 64 = 0 → 1 ≤ bulk.logn → bulk.logn ≤ 16 → bulk.engine < 16 → bulk.winCount ≤ 16 →
          objLocked s r.ctx bulk.obj = false →
          inObject s r.ctx bulk.obj bulk.off (64 + 64 * 2 ^ bulk.logn) 64 = true →
          readWindows s r.ctx bulk.winObj bulk.winOff bulk.winCount = some ws →
          fwWrite s r.ctx bulk.obj bulk.off (bulkHeader bulk.logn) = some s' →
          ∃ t id, exec (.registerBulkQueue r bulk) s = .next t ∧ { t with service := s'.service, bulkQs := s'.bulkQs } = s'
            ∧ Assoc.get t.bulkQs id = some ⟨r.ctx, bulk.obj, bulk.off, bulk.logn, bulk.engine, ws, r.fn, d⟩
            ∧ Assoc.get t.service.doorbells (r.fn * 4096 + d) = some (.bulk id)))
      ∧ (∀ e, st.k < 16 → objEntry s r.ctx st.obj = some e → objWsf e = false → plainPages s e = true →
          keyIs s r.ctx st.mkey .hmac = true → keyIs s r.ctx st.skey .xts = true → st.dataOff % 65536 = 0 → st.tagOff % 16 = 0 →
          headerOk s r.ctx st.obj st.hdrOff st.mkey = true →
          let entry : StorageEntry := ⟨st.obj, st.mkey, st.skey, st.dataOff, st.tagOff, st.nchunk, st.imageId⟩
          Serves (.registerStorageWindow r st) s
            (modCtx s r.ctx (fun c => { c with storage := Assoc.set c.storage st.k entry })) r 0 0)
      ∧ (∀ c, k < 64 → fwReadCap s r.ctx obj off = some c → c.tag = true →
          Serves (.fillApertureWindow r k obj off) s { s with service := { s.service with
            aperture := Assoc.set s.service.aperture (r.fn * 64 + k) ⟨r.ctx, c⟩ } } r 0 0)
      ∧ (group < 2 ^ 16 → (∀ d ∈ members, d < 1024) → s.device.toNat ∈ members → s.fabric.groups.length < 64 →
          Serves (.registerPodGroup r group members) s { s with fabric := { s.fabric with
            groups := Assoc.set s.fabric.groups group ⟨r.ctx, members.dedup, 0, 0, gtsOf s⟩ } } r 0 0)
      ∧ (∀ g, bk.idx < 256 → bk.ty < 4 → bk.opr < 4 → 1 ≤ bk.expect → bk.expect < 2 ^ 32 → bk.sidx < 4096 →
          bucketRange s r.ctx bk.obj bk.off bk.len = true → bk.len % 64 = 0 → bk.len < 2 ^ 32 → ¬(bk.opr = 1 ∧ bk.ty = 3) →
          bk.cad ≠ 0 → bk.cad < 256 → Assoc.get s.fabric.groups bk.group = some g → g.ctx = r.ctx →
          ∃ b, Serves (.registerBucket r bk) s { s with fabric := { s.fabric with
              buckets := Assoc.set s.fabric.buckets bk.idx b } } r 0 0
            ∧ b.state = 1 ∧ b.cad = bk.cad ∧ b.steps = 0 ∧ b.ty = bk.ty ∧ b.opr = bk.opr ∧ b.ctx = r.ctx ∧ b.obj = bk.obj
            ∧ b.off = bk.off ∧ b.len = bk.len ∧ b.expect = bk.expect ∧ b.count = 0 ∧ b.seq = bk.seq ∧ b.seqInc = bk.seqInc
            ∧ b.sigen = bk.sigen ∧ b.group = bk.group ∧ b.done = 0 ∧ b.members = 0 ∧ b.flags = 0 ∧ b.sidx = bk.sidx)
      ∧ (∃ t, exec (.resolve r obj page) s = .next t ∧ Answered s t r 0 0
          ∧ (∀ n, (clusterOf t n).faults =
              (clusterOf s n).faults.filter (fun e => !(e.ctx == r.ctx && e.obj == obj && e.page == page)))
          ∧ (∀ n, (engineOf t n).faults =
              (engineOf s n).faults.filter (fun e => !(e.ctx == r.ctx && e.obj == obj && e.page == page)))
          ∧ { unsent s t with
              clusters := s.clusters, engines := s.engines, cores := s.cores, contexts := s.contexts } = s)
      ∧ (∀ e s' s'' m rc, objEntry s r.ctx mint.obj = some e → mint.rights &&& ~~~(objMaxr e) = 0 →
          windowIn e mint.base (mint.base + mint.size) = true → mintExact mint = true →
          translate s r.ctx none ⟨mint.dstObj, mint.dstOff, .cwrite, false, false⟩ = (s', .ok m rc) →
          objCapa m.oe = true → mint.dstOff % 16 = 0 → objLocked s r.ctx mint.dstObj = false → putCap s r.ctx mint.dstObj mint.dstOff (mintCap mint) = some s'' →
          ∃ t, exec (.mintCapability r mint) s = .next t ∧ { t with service := s''.service } = s''
            ∧ t.tags.has (m.loc.addr / 16) = true)
      ∧ (∀ e c bs, objEntry s r.ctx pub.obj = some e → objWsf e = true → ctxOf s r.ctx = some c → 0 < pub.ver → pub.ver < 256 →
          verState (verEntry s e pub.ver) = 0 → pub.frames.length = objSize e / 65536 →
          pub.leaves.length = (objSize e / 65536 + 511) / 512 → pub.l1 % 4096 = 0 →
          (∀ a ∈ pub.leaves, a % 4096 = 0 ∧ a < 2 ^ 39) → (∀ f ∈ pub.frames, f % 65536 = 0 ∧ f < 2 ^ 32) →
          fillBytes s r.ctx pub.srcObj pub.srcOff (objSize e) = some bs → newFramesOk s e pub.frames = true →
          newTablesOk s e (pub.l1 :: pub.leaves) = true → bs.length = objSize e → ¬ refreshing →
          ∃ t, exec (.publishVersion r pub) s = .next t
            ∧ t.dram.read (here s (c.otBase + 64 * pub.obj + 27)) = BitVec.ofNat 8 pub.ver
            ∧ ∀ p f j, pub.frames[p]? = some f → j < 65536 → t.ws.read (wsAt (objHome e) f + j) = bs.getD (65536 * p + j) 0))

/-- Bulk packets and the host's accesses (R397, R399, R400, R403): the engine takes the packet published in slot RD; at its
end, with neither status word nor signal, the request leaves; the aperture reads and writes the object its window allows, a
read outside answers unsupported and one that waits 10 ms is aborted; the storage window is not read. -/
def Obligations.BulkPacketsAndHostAccesses : Prop :=
  ∀ (s : State) (n k fn win off len : Nat) (bytes : List Byte) (q : BulkQueue),
    let replies (i : Instr) (s' : State) (r : HostReply) : Prop := ∃ t, exec i s = .next t
      ∧ t.service.hostReplies = s'.service.hostReplies ++ [r]
      ∧ { t with service := { t.service with hostReplies := s'.service.hostReplies, hostReads := s'.service.hostReads } } = s'
    let drops (i : Instr) (ctx : Option Nat) (o : Nat) (r : HostReply) : Prop := ∃ t t', exec i s = .next t
      ∧ t = { t' with service := { t'.service with hostReplies := s.service.hostReplies ++ [r] } }
      ∧ Logged s t' ⟨0x08, 0, ctx, gtsOf s, srcNo 6 0, BitVec.ofNat 32 o, BitVec.ofNat 32 (o / 2 ^ 32)⟩
    let rd (rdb : List Byte) : Nat := leNat rdb
    (∀ c rdb bs b1 b2 s1 s2 s3 s4 s5 idx, Assoc.get s.bulkQs n = some q → ctxOf s q.ctx = some c → c.killed = false →
      readWaiting s q.ctx none .read q.obj (q.off + 8) 8 = (s1, .ok (rdb, b1)) →
      let slot := q.off + 64 + 64 * (rd rdb % 2 ^ q.logn)
      readWaiting s q.ctx none .read q.obj slot 64 = (s2, .ok (bs, b2)) →
      let p := bytesWords bs
      pf p 0 16 16 = rd rdb % 2 ^ 16 → bOp p ≠ 0 → readIndex s q p = (s5, .ok (idx, false)) →
      writeObjRange s q.ctx none q.obj slot (leBytes 4 0) = (s3, none) →
      writeObjRange s3 q.ctx none q.obj (q.off + 8) (leBytes 8 ((rd rdb + 1) % 2 ^ 64)) = (s4, none) →
      ∃ t req, exec (.bulkPacketFetch n) s = .next t ∧ { t with engines := s4.engines, nextId := s4.nextId } = s4
        ∧ (engineOf t q.engine).reqs = (engineOf s4 q.engine).reqs ++ [req] ∧ req.id = s4.nextId
        ∧ req.ctx = q.ctx ∧ req.launch = none ∧ req.token = none
        ∧ (∀ code, bBad q.windows p = some code → req.len = 0 ∧ req.fail = some (0, code)))
    ∧ (∀ e r p, (engineOf s e).reqs[k]? = some r → r.packet = some p → r.allServed = true → inOrder s e r = true →
        p.signal = none → p.status = none → ∃ t, exec (.bulkPacketComplete e k) s = .next t
          ∧ { t with engines := s.engines } = s ∧ (engineOf t e).reqs = (engineOf s e).reqs.eraseIdx k
          ∧ ∀ e', e' ≠ e → engineOf t e' = engineOf s e')
    ∧ (apertureAt s fn win off len 0 = none →
        drops (.hostApertureRead fn win off len) none (2 ^ 30 * win + off) .unsupported)
    ∧ (apertureAt s fn win off bytes.length 1 = none →
        drops (.hostApertureWrite fn win off bytes) none (2 ^ 30 * win + off) .dropped)
    ∧ (∀ c o a s' bs bad, apertureAt s fn win off len 0 = some (c, o, a) → readWaiting s c none .read o a len = (s', .ok (bs, bad)) →
        replies (.hostApertureRead fn win off len) s' (.data bs bad))
    ∧ (∀ c o a s', apertureAt s fn win off bytes.length 1 = some (c, o, a) → writeObjRange s c none o a bytes = (s', none) →
        exec (.hostApertureWrite fn win off bytes) s = .next s')
    ∧ (∀ h, s.service.hostReads[k]? = some h → 10000000 ≤ (gtsOf s - h.since).toNat → replies (.hostReadTimeout k) s .aborted)
    ∧ (∀ c e s', storageAt s fn (off / 2 ^ 30) = some (c, e) → inObject s c e.obj (off % 2 ^ 30) bytes.length 1 = true →
        off % 2 ^ 30 + bytes.length ≤ 2 ^ 30 → writeObjRange s c none e.obj (off % 2 ^ 30) bytes = (s', none) →
        exec (.storageWindowWrite fn off bytes) s = .next s')
    ∧ (storageAt s fn (off / 2 ^ 30) = none → drops (.storageWindowWrite fn off bytes) none off .dropped)
    ∧ replies (.storageWindowRead fn off len) s .unsupported

/-! ### The fabric and the tables -/

/-- Ports and group members (R407, R413): a flit is accepted when its CRC holds and its number is the one expected, an idle
one only brings credits and an acknowledgement; after 1 µs without an advance the flits go out again; after 256 resends the
port is down and new routes replace those through it; a heartbeat goes out each 10 µs; a member that has failed leaves its
group, whose commits will carry TPEER. -/
def Obligations.LinksCarryFlits : Prop :=
  ∀ (s : State) (port group dev : Nat) (flit : BitVec 2048) (routes : List (Nat × Nat)),
    let p := portOf s port
    let only (t : State) (q : Port) : Prop := (∀ k, portOf t k = if k = port then q else portOf s k)
      ∧ { t with fabric := { t.fabric with ports := s.fabric.ports, received := s.fabric.received } } = s
    let acked := ackTo (flit.extractLsb' 21 12) p.replay
    (port < 16 → p.up = true → crcOk flit = true →
      (flit.getLsbD 12 = true → ∃ t q, exec (.flitReceive port flit) s = .next t ∧ only t q
        ∧ t.fabric.received = s.fabric.received ∧ q.rxSeq = p.rxSeq
        ∧ q.replay = (if flit.getLsbD 33 then acked else p.replay))
      ∧ (flit.getLsbD 12 = false → flit.extractLsb' 0 12 = p.rxSeq → ∃ t q, exec (.flitReceive port flit) s = .next t ∧ only t q
        ∧ t.fabric.received = s.fabric.received ++ [flit] ∧ q.rxSeq = p.rxSeq + 1
        ∧ q.replay = (if flit.getLsbD 33 then acked else p.replay)
        ∧ (∀ n, (flit.extractLsb' 34 2).toNat = n → q.credits[n]? = (p.credits[n]?).map (· + (flit.extractLsb' 36 8).toNat)))
      ∧ (flit.getLsbD 12 = false → flit.extractLsb' 0 12 ≠ p.rxSeq → exec (.flitReceive port flit) s = .next s))
    ∧ (crcOk flit = false → exec (.flitReceive port flit) s = .next s)
    ∧ (p.up = true → p.replay ≠ [] → 1000 ≤ (gtsOf s - p.lastAck).toNat → ∃ t, exec (.flitRetransmit port) s = .next t
        ∧ only t { p with resends := p.resends + 1, lastAck := gtsOf s })
    ∧ (p.up = true → 256 ≤ p.resends → ∃ t, exec (.linkDown port routes) s = .next t ∧ (portOf t port).up = false
        ∧ (∀ r ∈ t.fabric.routes, r.2 ≠ port) ∧ (∀ r ∈ s.fabric.routes, r.2 ≠ port → ∃ v, (r.1, v) ∈ t.fabric.routes)
        ∧ t.service.eventsTotal = s.service.eventsTotal + 1)
    ∧ (∀ g, podGroup s group = some g →
        (10000 ≤ (gtsOf s - g.lastBeat).toNat → ∃ t, exec (.heartbeatSend group) s = .next t
          ∧ podGroup t group = some { g with lastBeat := gtsOf s } ∧ (∀ k, k ≠ group → podGroup t k = podGroup s k)
          ∧ { t with fabric := { t.fabric with ports := s.fabric.ports, groups := s.fabric.groups } } = s)
        ∧ (dev ∈ g.members → dev ≠ s.device.toNat → ∃ t, exec (.memberFailed group dev) s = .next t
          ∧ podGroup t group = some { g with members := g.members.filter (fun d => d != dev) }
          ∧ t.fabric.failedPeers.has dev = true ∧ t.service.eventsTotal = s.service.eventsTotal + 1
          ∧ t.commits = s.commits.map (fun c => if c.owner = .group group then { c with code := 0x06 } else c)))

/-- Buckets of R410 to R412: EXPECT bytes end a step, CADENCE steps the cadence; an exchange starts when SEQ is NEXT, with
the range read once, and a SEQ below NEXT is reported once; its end writes the element-wise result of every member's range
to the range and counts the exchange. -/
def Obligations.BucketsStepAndExchange : Prop :=
  ∀ (s : State) (n : Nat) (b : Bucket) (g : PodGroup), bucketOf s n = some b → podGroup s b.group = some g →
    let becomes (s' t : State) (b' : Bucket) : Prop := bucketOf t n = some b' ∧ (∀ k, k ≠ n → bucketOf t k = bucketOf s' k)
    let fresh (s' t : State) : Prop := { t with fabric := { t.fabric with
      buckets := s'.fabric.buckets, groups := s'.fabric.groups } } = s'
    (b.expect ≤ b.count → b.state ≠ 0 →
      (b.steps + 1 ≠ b.cad → ∃ t, exec (.bucketStep n) s = .next t ∧ fresh s t
        ∧ becomes s t { b with count := b.count - b.expect, steps := b.steps + 1 })
      ∧ (b.steps + 1 = b.cad → b.state = 1 → ∃ t, exec (.bucketStep n) s = .next t ∧ fresh s t
        ∧ becomes s t { b with count := b.count - b.expect, steps := 0, state := 2 }))
    ∧ (b.state = 2 →
      (∀ s' bs bad, b.seq = g.next → readWaiting s b.ctx none .read b.obj b.off b.len = (s', .ok (bs, bad)) →
        ∃ t, exec (.bucketExchangeStart n) s = .next t ∧ fresh s' t ∧ becomes s' t { b with state := 3, local0 := bs }
          ∧ podGroup t b.group = some { g with next := g.next + 1 })
      ∧ (b.seq < g.next → b.late = false → ∃ t, exec (.bucketExchangeStart n) s = .next t ∧ becomes s t { b with late := true }
          ∧ t.service.eventsTotal = s.service.eventsTotal + 1))
    ∧ (∀ s' ps parts, b.state = 3 → decisionOk s g b parts = true → b.sigen = false →
        translateRange s b.ctx none b.obj .cwrite b.off b.len = (s', .ok ps) →
        (∀ p ∈ ps, pageLocked s p.m = false) →
        let size := if b.ty = 1 ∨ b.ty = 2 then 2 else 4
        let ins := b.local0 :: parts.map (·.2)
        let elem (i : Nat) : Nat × BitVec 3 := collElem b.ty b.opr (ins.map (fun x => leNat ((x.drop (size * i)).take size)))
        ∃ t bs b', exec (.bucketExchangeDone n parts) s = .next t ∧ becomes s' t b'
          ∧ bs.length = size * (b.len / size)
          ∧ (∀ i, i < b.len / size → leNat ((bs.drop (size * i)).take size) = (elem i).1 % 256 ^ size)
          ∧ t.dram = (placePieces b.ctx b.obj ps bs s').dram
          ∧ b'.done = b.done + 1 ∧ b'.members = parts.length + 1 ∧ b'.seq = b.seq + b.seqInc
          ∧ b'.state = (if b.seqInc = 0 then 0 else 1)
          ∧ (∀ k, b'.flags.getLsbD k = true ↔ (b.flags.getLsbD k = true ∨ ∃ i, i < b.len / size ∧ (elem i).2.getLsbD k = true)))

/-- Firmware on the tables (R302, R322, R356, R358, R365, R366, R373, R375, R378): a page entry or object entry that firmware accepts
stands in its table, its reserved bits zero, and no L1 keeps a line of the page or object; a page begins to migrate with MIG set and
no translation left, unless records wait to be applied in it, is locked, is copied, and then has its new frame, MIG 0 and no lock;
a HOLD bit is set or cleared; the refresh window of a die opens and closes with the time. -/
def Obligations.TablesAreEdited : Prop :=
  ∀ (s : State) (ctx obj page frame die ver : Nat) (on : Bool) (pe : BitVec 64) (e oe : BitVec 512) (c : Context) (a : Nat), memoryWf s →
    let noLine (t : State) (hit : LineId → Prop) : Prop :=
      ∀ k, ∀ l ∈ (coreOf t k).l1, l.id.ctx = ctx → l.id.obj = obj → ¬ hit l.id
    (objEntry s ctx obj = some oe → editAddr s oe page = some a →
      let old := pageAt s a
      let size := objPage oe
      let first := if objWsf oe then page % 2 ^ 16 else page
      let onPage (l : LineId) : Prop := l.ver = (if objWsf oe then page / 2 ^ 16 else 0)
        ∧ first * size < 128 * (l.line + 1) ∧ 128 * l.line < first * size + size
      let edits (x : BitVec 64) (t : State) : Prop := ∀ k, t.dram.read k = withNat x.toNat 8 a s.dram.read k
      (pageEntryOk oe pe = true → mappable s oe a pe = true → liveMigration s a = none →
        (isQuarantine s ctx obj = true → pageDef pe = false ∧ pageCmp pe = false ∧ pageConst pe = false) →
        (frameHasRecords s (objHome oe) (pagePfn old) size = true → pagePresent old = true → objWsf oe = false →
          keptAttrs old = keptAttrs pe) →
        ∃ t, exec (.invalidation ctx (.page obj page pe)) s = .next t
          ∧ edits pe t ∧ { t with dram := s.dram, cores := s.cores } = s ∧ noLine t onPage)
      ∧ (liveMigration s a = none →
        (mayMigrate s oe a frame = true → ∃ t, exec (.migration ctx obj page frame) s = .next t
          ∧ edits (setBit old 58 true) t ∧ noLine t onPage
          ∧ migrationAt t a = some ⟨ctx, obj, page, a, objHome oe, pagePfn old, frame, size, false, false⟩
          ∧ { t with dram := s.dram, cores := s.cores, migrations := s.migrations } = s)
        ∧ (frameHasRecords s (objHome oe) (pagePfn old) size = true → exec (.migration ctx obj page frame) s = .next s))
      ∧ (∀ g, liveMigration s a = some g → g.ctx = ctx → g.obj = obj → g.page = page → g.size = size → g.new = frame →
        (g.locked = false → g.copied = false → ∃ t, exec (.migration ctx obj page frame) s = .next t
          ∧ migrationAt t a = some { g with locked := true } ∧ { t with migrations := s.migrations } = s)
        ∧ (g.locked = true → g.copied = false → framesMeet g.old size frame size = false →
          ∃ t, exec (.migration ctx obj page frame) s = .next t
            ∧ migrationAt t a = some { g with copied := true }
            ∧ (∀ k, t.dram.read k = patched s.dram.read (dramAt g.home frame) size
                (fun j => s.dram.read (dramAt g.home g.old + j)) k)
            ∧ { t with dram := s.dram, lineKey := s.lineKey, tags := s.tags, poison := s.poison, migrations := s.migrations } = s)
        ∧ (g.locked = true → g.copied = true → objWsf oe = false → ∃ t, exec (.migration ctx obj page frame) s = .next t
            ∧ edits (movedEntry old frame) t ∧ noLine t onPage ∧ (∀ m : Mapped, m.peAddr = a → pageLocked t m = false)
            ∧ { t with dram := s.dram, cores := s.cores, launches := s.launches, migrations := s.migrations } = s)))
    ∧ (objEntry s ctx obj = some oe → objWsf oe = true → 0 < ver → ver < 256 →
        let x := verEntry s oe ver
        ∃ t, exec (.invalidation ctx (.hold obj ver on)) s = .next t ∧ { t with dram := s.dram } = s
          ∧ t.dram.read (verAddr oe ver) = BitVec.ofNat 8 (if on then verState x + 4
              else if verState x = 3 ∧ verPins x = 0 then 0 else verState x)
          ∧ ∀ k, k ≠ verAddr oe ver → t.dram.read k = s.dram.read k)
    ∧ (ctxOf s ctx = some c → 0 < obj → obj < c.otLen → objectEntryOk s ctx obj e = true →
        (∀ g ∈ s.migrations, g.ctx = ctx → g.obj = obj → g.locked = false ∧ g.copied = true) →
        ∃ t, exec (.invalidation ctx (.object obj e)) s = .next t
          ∧ MemoryBecomes s { t with contexts := s.contexts }
              (withNat (e &&& objFields).toNat 64 (here s (c.otBase + 64 * obj)) s.dram.read)
          ∧ noLine t (fun _ => True))
    ∧ (die < 4 →
        let open_ := ((gtsOf s).toNat + 32000 - 8000 * die) % 32000 < 256
        (open_ → s.refresh.has die = false → ∃ t, exec (.refreshWindow die) s = .next t ∧ t.refresh.has die = true
          ∧ (∀ d, d ≠ die → t.refresh.has d = s.refresh.has d) ∧ { t with refresh := s.refresh } = s)
        ∧ (¬ open_ → s.refresh.has die = true → s.refresh.wf = true → ∃ t, exec (.refreshWindowEnd die) s = .next t
          ∧ t.refresh.has die = false ∧ (∀ d, d ≠ die → t.refresh.has d = s.refresh.has d) ∧ { t with refresh := s.refresh } = s))

/-! ### Contexts -/

/-- PREEMPT_REQUEST, RUNON_EXPIRY, BLOCK_SAVE, CONTEXT_SWITCH, SWAP_OUT, SWAP_ABANDON and BLOCK_RESUME of R381 to R389 and
R271: a thread of a named block runs on, stays where it is in BARW or retired, rolls back if it waits on something else than a
token, or stays at its restart point; one that has not reached one in RUNON cycles rolls back; a drained block is saved, its image
of Tables 18.2 and 18.3 in the save area, and leaves its cluster; an idle cluster takes another context, its cores without lines or
overlays of the old one; a block is drained for a swap-out and, undrained at DRAINLIM, goes on; a saved block stands again with its
stores. A request joins one under way, and what a request or a swap-out needs in the save area is the model's (log 72, log 97). -/
def Obligations.BlocksAreDrainedSavedAndResumed : Prop :=
  ∀ (s : State) (ctx slot cl : Nat) (cls : List Nat) (next : Option Nat) (tid : ThreadId) (b : Block) (c : Context) (l : Launch),
    ctxOf s ctx = some c →
    let atRestart (u w : Thread) : Prop := w.status = .drained ∧ w.pc = 0#1 ++ u.rpaddr.extractLsb' 0 15 ∧ w.stack = u.rpStack
    let runsOn (u w : Thread) : Prop := w = { u with runFrom := some s.cycle }
    let arrived (u w : Thread) : Prop := w.status = .drained ∧ w.pc = u.pc ∧ w.stack = u.stack ∧ w.rpaddr = u.pcWord ∧ w.rpStack = u.stack
    let drains (t : State) (k : Nat) (x : Block) (swap : Bool) : Prop := ∃ y, blockOf t k = some y ∧ y.phase = .draining s.cycle swap
      ∧ y.threads.length = x.threads.length ∧ ∀ (i : Nat) (u w : Thread), x.threads[i]? = some u → y.threads[i]? = some w →
        (u.status = .retired → w = u)
        ∧ (u.trap.isSome = true → u.status ≠ .retired → runsOn u w)
        ∧ (u.trap = none →
          (u.status = .ready ∨ (∃ r, u.status = .waiting (.token r)) ∨ (∃ on, u.status = .stalled on) →
            (runsOn u w ∨ arrived u w) ∧ ((coreOf s (coreIdOf x ⟨k, i⟩)).restart = [] → runsOn u w))
          ∧ (∀ a k, u.status = .waiting (.barw a k) → w = u)
          ∧ (∀ on, u.status = .waiting on → (∀ a k, on ≠ .barw a k) → (∀ r, on ≠ .token r) → atRestart u w))
    (cls ≠ [] → (∀ k ∈ cls, (clusterOf s k).ctx = some ctx) → c.killed = false → saveFits s ctx (requestSlots s cls) = true →
      (∀ k ∈ requestSlots s cls, ∀ x, blockOf s k = some x → x.phase = .running) →
      ∃ t d, exec (.preemptRequest ctx cls) s = .next t ∧ (ctxOf t ctx).bind Context.drain = some d
        ∧ (∀ k ∈ requestSlots s cls, k ∈ d.blocks) ∧ (∀ k ∈ cls, k ∈ d.clusters) ∧ t.dram = s.dram
        ∧ (∀ d0, c.drain = some d0 → (∀ k ∈ d0.blocks, k ∈ d.blocks) ∧ ∀ k ∈ d0.clusters, k ∈ d.clusters)
        ∧ ∀ k ∈ requestSlots s cls, ∀ x, blockOf s k = some x → drains t k x false)
    ∧ (blockOf s slot = some b → b.ctx = ctx →
        (∀ since swap u from_, tid.slot = slot → b.threads[tid.tidx]? = some u → b.phase = .draining since swap →
          u.runFrom = some from_ → u.trap = none → from_ + c.params.runOn ≤ s.cycle →
          (arrives s b tid u = true → ∃ t w, exec (.runonExpiry tid) s = .next t ∧ threadOf t tid = some w ∧ arrived u w
            ∧ OthersSame s t tid ∧ t.dram = s.dram)
          ∧ (arrives s b tid u = false → withheld s b = false →
            (u.status = .ready ∨ (∃ on, u.status = .stalled on) ∨ ∃ on, u.status = .waiting on ∧ ∀ a k, on ≠ .barw a k) →
            ∃ t w, exec (.runonExpiry tid) s = .next t ∧ threadOf t tid = some w ∧ atRestart u w ∧ OthersSame s t tid
              ∧ t.dram = s.dram))
        ∧ (∀ since swap area, b.phase = .draining since swap → drained s slot b = true → isCoop s b = false →
          launchOf s b.launch = some l → l.fatal = none → (∀ u ∈ b.threads, ∀ m, u.status ≠ .held m) →
          placesFor s ctx [slot] = some [area] → s.service.testDue.contains b.cluster = false → memoryWf s →
          let r := saveOf s slot b swap area
          let image := r.image s.freeCtr l
          ∃ t, exec (.blockSave slot) s = .next t ∧ t.blocks = Assoc.erase s.blocks slot
            ∧ ctxOf t ctx = some { c with saved := c.saved ++ [r] }
            ∧ MemoryBecomes s { t with blocks := s.blocks, contexts := s.contexts }
                (patched s.dram.read (here s area.1) image.length (fun j => image.getD j 0))
            ∧ ∀ (i : Nat) (u : Thread), b.threads[i]? = some u → u.status = .drained → ∃ k, r.threads[i]? = some k
                ∧ k.tstate = 1 ∧ k.rpaddr = u.rpaddr ∧ k.counts = u.counts ∧ k.fpx = u.fpx)
        ∧ (b.phase = .running → 0 < c.params.swapLim → b.noSwapBefore ≤ s.cycle → isCoop s b = false →
          (∃ u ∈ b.threads, ∃ fs since, u.status = .parkedFault fs since ∧ u.trap = none ∧ since + c.params.swapLim ≤ s.cycle) →
          saveFits s ctx [slot] = true → ∃ t, exec (.swapOut slot) s = .next t ∧ drains t slot b true ∧ t.dram = s.dram)
        ∧ (∀ since, b.phase = .draining since true → since + c.params.drainLim ≤ s.cycle → drained s slot b = false →
          ∃ t y, exec (.swapAbandon slot) s = .next t ∧ blockOf t slot = some y ∧ y.phase = .running
            ∧ y.noSwapBefore = s.cycle + c.params.swapLim ∧ ∀ (i : Nat) (u : Thread), b.threads[i]? = some u →
              (u.status ≠ .drained → y.threads[i]? = some { u with runFrom := none })
              ∧ (u.status = .drained → u.recovered s.cycle = false →
                y.threads[i]? = some { u with status := .parkedFault [] s.cycle, runFrom := none }))
        ∧ (∀ since, b.phase = .draining since true → drained s slot b = true → exec (.swapAbandon slot) s = .next s))
    ∧ (cl < 80 → clusterIdle s cl = true → (clusterOf s cl).ctx = some ctx → drainOn s c = false →
        (∀ n, next = some n → mayRun s cl n = true) → next ≠ some ctx → ∃ t, exec (.contextSwitch cl next) s = .next t
          ∧ (clusterOf t cl).ctx = next ∧ (∀ k, k ≠ cl → clusterOf t k = clusterOf s k)
          ∧ (∀ k, k < 4 → (coreOf t (4 * cl + k)).l1 = [] ∧ ∀ r ∈ (coreOf t (4 * cl + k)).resid, ∀ id, r.key ≠ .priv ctx id)
          ∧ { t with clusters := s.clusters, cores := s.cores, contexts := s.contexts } = s)
    ∧ (∀ sv ps, s.contexts.find? (fun c => c.2.saved.any (fun b => b.slot == slot)) = some (ctx, c) →
        c.saved.find? (fun b => b.slot == slot) = some sv → launchOf s sv.launch = some l → dispatchable s sv.launch l = true →
        turnOf s ctx sv.launch = true → reservedAbove s ctx sv.launch = false →
        planSaved ctx (nextSaved s sv.launch l) s = some ((sv, cl) :: ps) → (∀ x ∈ ps, x.1.slot ≠ slot) →
        ∃ t y, exec (.blockResume slot cl) s = .next t ∧ blockOf t slot = some y ∧ y.phase = .running ∧ y.cluster = cl
          ∧ y.launch = sv.launch ∧ y.lin = sv.lin ∧ y.coord = sv.coord ∧ y.spad = sv.spad ∧ y.types = sv.types ∧ y.tiles = sv.tiles
          ∧ y.tflags = sv.tflags ∧ y.threads.length = sv.threads.length
          ∧ ∀ c', ctxOf t ctx = some c' → ∀ x ∈ c'.saved, x.slot ≠ slot)

/-- PTIMEOUT and HANG of R390 to R392: a block that a pre-emption has not drained in DRAINLIM cycles kills its context, whose
launches end with status 0x32 and whose queues stop; a context all of whose threads have waited HANGLIM cycles has its launches with
resident threads end with status 0x31, ARG0 the number of records dumped. -/
def Obligations.LimitsEndLaunches : Prop :=
  ∀ (s : State) (ctx : Nat) (c : Context), ctxOf s ctx = some c → c.killed = false →
    (∀ d slot b since, c.drain = some d → slot ∈ d.blocks → blockOf s slot = some b → b.phase = .draining since false →
      drained s slot b = false → since + c.params.drainLim ≤ s.cycle →
      ∃ t, exec (.ptimeout ctx) s = .next t ∧ ctxOf t ctx = some { c with killed := true, saved := [] }
        ∧ t.service.eventsTotal = s.service.eventsTotal + 1
        ∧ (∀ q ∈ t.launchQs, q.2.ctx = ctx → q.2.stopped = true)
        ∧ ∀ id l, launchOf s id = some l → l.ctx = ctx → ∃ f, f.status = 0x32
          ∧ launchOf t id = some { l with fatal := some f, phase := .ending, replayWant := false })
    ∧ (∀ d, c.drain = some d → (∀ slot ∈ d.blocks, ∀ b, blockOf s slot = some b → drained s slot b = true) →
        exec (.ptimeout ctx) s = .next s)
    ∧ (∀ s' n, hangs s ctx c = true → c.params.hangLim ≤ c.hang → dumpHeld s ctx c = false → dumpGraph s ctx c = (s', n) →
        ∃ t, exec (.hang ctx) s = .next t ∧ (ctxOf t ctx).map Context.hang = some 0 ∧ t.dram = s'.dram
          ∧ ∀ id l b u, launchOf s id = some l → l.ctx = ctx → l.fatal = none → b ∈ s.blocks → b.2.launch = id → u ∈ b.2.threads → u.status ≠ .retired →
            ∃ f, (launchOf t id).bind Launch.fatal = some f ∧ f.status = 0x31 ∧ f.words.getD 2 0 = BitVec.ofNat 32 n)

/-- Contexts, queues and overlays as firmware keeps them (R243, R264, R269, R371, R379, R380, R430): a free context number
takes its tables and parameters; a parameter in its range changes, one outside it is refused and DRAINLIM is raised to its
floor; a context that ends takes its blocks and its key slots with it; a removed queue leaves its doorbell unbound; an
overlay entry that is accepted is in force, one with VALID 0 empties the entry, and a refused one changes nothing. -/
def Obligations.ContextsAndOverlaysAreKept : Prop :=
  ∀ (s : State) (ctx queue n : Nat) (x : CtxNew) (p : CtxParam) (ov : OverlayReg) (c : Context) (w : Word) (h : Option (BitVec 8)),
    let only (t : State) : Prop := { t with contexts := s.contexts } = s ∧ ∀ k, k ≠ ctx → ctxOf t k = ctxOf s k
    (ctx < 64 → ctxOf s ctx = none → (∀ f ∈ x.fns, f ≤ 16) → x.otBase % 64 = 0 → x.otBase + 64 * x.otLen ≤ 432 * 2 ^ 30 →
      1 ≤ x.otLen → x.otLen ≤ 2 ^ 24 →
      x.evBase % 64 = 0 → x.evBase + 8 * 4096 ≤ 432 * 2 ^ 30 → ∃ t, exec (.contextCreate ctx x) s = .next t ∧ only t
        ∧ ctxOf t ctx = some (x.params.foldl Context.put { Context.fresh s.service.settings.defaults with
            otBase := x.otBase, otLen := x.otLen, evBase := x.evBase, fns := x.fns }))
    ∧ (ctxOf s ctx = some c →
        (quotaKept s ctx p = true → ∃ t, exec (.contextRecordUpdate ctx p) s = .next t ∧ only t ∧ ctxOf t ctx = some (c.put p))
        ∧ c.put (.step w) = { c with stepReg := w }
        ∧ (c.put (.handler h)).params = { c.params with handler := h }
        ∧ (n < 2 ^ 32 → (c.put (.drainLim n)).params = { c.params with drainLim := max n 80000 })
        ∧ (1024 ≤ n → n ≤ c.params.drainLim / 2 → (c.put (.runOn n)).params = { c.params with runOn := n })
        ∧ (n < 1024 → c.put (.runOn n) = c)
        ∧ ((s.contexts.map (·.1)).Pairwise (· < ·) → ∃ t, exec (.contextDestroy ctx) s = .next t
          ∧ ctxOf t ctx = none ∧ (∀ b ∈ t.blocks, b.2.ctx ≠ ctx) ∧ (∀ k ∈ t.service.keys, k.2.owner ≠ ctx)
          ∧ (∀ n, (clusterOf t n).ctx ≠ some ctx) ∧ (∀ a ∈ t.service.aperture, a.2.ctx ≠ ctx))
        ∧ (let e : OvEntry := ⟨ov.entry, ov.srcTag⟩
          (e.valid = false → ∃ t, exec (.overlayRegister ctx ov) s = .next t ∧ only t
            ∧ ctxOf t ctx = some { c with overlays := Assoc.erase c.overlays ov.ovid.toNat })
          ∧ (e.valid = true → if overlayOk s ctx e ov.sig = true then ∃ t, exec (.overlayRegister ctx ov) s = .next t
            ∧ ctxOf t ctx = some { c with overlays := Assoc.set c.overlays ov.ovid.toNat e }
            ∧ if e.pub = true then e.hash ∈ t.service.settings.publicHashes else only t
            else exec (.overlayRegister ctx ov) s = .next s)))
    ∧ (∀ q, Assoc.get s.launchQs queue = some q → (∀ l ∈ s.launches, l.2.queue ≠ queue) →
        ∃ t, exec (.queueRemove .launch queue) s = .next t ∧ t.launchQs = Assoc.erase s.launchQs queue
          ∧ t.service.doorbells = Assoc.erase s.service.doorbells (q.fn * 4096 + q.doorbell)
          ∧ { t with launchQs := s.launchQs, service := s.service } = s)
    ∧ ((s.launches.map (·.1)).Pairwise (· < ·) → (Assoc.get s.launchQs queue).isSome = true →
        ∃ t, exec (.queueRemove .launch queue) s = .next t ∧ ∀ l ∈ t.launches, l.2.queue ≠ queue)
    ∧ (∀ q, Assoc.get s.bulkQs queue = some q → ∃ t, exec (.queueRemove .bulk queue) s = .next t
        ∧ t.bulkQs = Assoc.erase s.bulkQs queue ∧ (∀ e, ∀ r ∈ (engineOf t e).reqs, ∀ y, r.packet = some y → y.queue ≠ queue)
        ∧ t.service.doorbells = Assoc.erase s.service.doorbells (q.fn * 4096 + q.doorbell)
        ∧ { t with bulkQs := s.bulkQs, engines := s.engines, service := s.service } = s)
    ∧ (∀ q, (ctxOf s queue).bind Context.faultQ = some q → ∃ t, exec (.queueRemove .fault queue) s = .next t
        ∧ (ctxOf t queue).bind Context.faultQ = none
        ∧ t.service.doorbells = Assoc.erase s.service.doorbells (q.fn * 4096 + q.doorbell))

/-! ### Reliability, power and management -/

namespace Sys2Proof.Machine

/-- The power fields are p; the machine is otherwise as in s, but for an event record of class 0x07 (Table 21.8). -/
def PowerEvent (i : Instr) (s : State) (code : BitVec 8) (reading : Nat) (p : Power) : Prop :=
  ∃ t, exec i s = .next t ∧ Logged { s with service := { s.service with power := p } } t
    ⟨0x07, code, none, gtsOf s, srcNo 9 0, code.setWidth 32, BitVec.ofNat 32 reading⟩

/-- Firmware answers a request of the management ring with a code, word 1 and further words, and vector 2 of the PF goes
out (R439); the machine is otherwise as in s'. -/
def Manages (i : Instr) (s s' : State) (r : Req) (code : Nat) (w1 : Word) (rest : List Word) : Prop :=
  ∃ t, exec i s = .next t
    ∧ Assoc.get t.service.management.slots (s.service.management.responses.toNat % 64) =
        some ((r.tag.setWidth 18 ++ BitVec.ofNat 6 r.ctx ++ BitVec.ofNat 8 code : BitVec 32) :: w1 :: rest)
    ∧ t.service.management.requests = s.service.management.requests + 1
    ∧ t.service.management.responses = s.service.management.responses + 1
    ∧ msixOf t 0 2 = msixOf s' 0 2 + 1
    ∧ { t with service := { t.service with management := s'.service.management, msix := s'.service.msix } } = s'

end Sys2Proof.Machine

/-- LAUNCH_REPLAY, TIMING_REPLAY, PATROL_SCRUB, CORRECTED_ERROR_EVENT, DEVICE_RESET and FIRMWARE_BOOT of R418 to R420, R424,
R427 and R428: a launch to be replayed starts again without blocks, records or fatal trap; a partition that replays issues
nothing for 2 cycles; a scrub changes no content; a reset keeps memory and drops contexts, launches, blocks and keys; a boot
takes a signed image whose version is not below the fused one. -/
def Obligations.ReplaysResetAndBoot : Prop :=
  ∀ (s : State) (id part addr count store version : Nat) (image sig : List Byte) (l : Launch),
    (launchOf s id = some l → l.fatal.isSome = true → l.phase = .started → willReplay s l = true → launchBusy s id = false →
      ∃ t l', exec (.launchReplay id) s = .next t ∧ launchOf t id = some l' ∧ l'.phase = .started ∧ l'.fatal = none
        ∧ l'.nextBlock = 0 ∧ l'.attempts = l.attempts + 1 ∧ l'.lnum = l.lnum ∧ l'.packet = l.packet ∧ l'.bound0 = l.bound0
        ∧ (∀ b ∈ t.blocks, b.2.launch ≠ id) ∧ launchRecs t id = []
        ∧ t.service.eventsTotal = s.service.eventsTotal + 1)
    ∧ (part < 1280 → ∃ t, exec (.timingReplay part) s = .next t
        ∧ (∀ slot b, blockOf s slot = some b → ∃ c, blockOf t slot = some c ∧ c.threads.length = b.threads.length
            ∧ ∀ (i : Nat) (u : Thread), b.threads[i]? = some u → c.threads[i]? = some (if inPart b ⟨slot, i⟩ part then
                { u with nextIssue := max u.nextIssue (s.cycle + 2) } else u))
        ∧ OnlyCore s t (part / 4) ((coreOf s (part / 4)).replayed (gtsOf s))
        ∧ { t with blocks := s.blocks, cores := s.cores, service := s.service } = s)
    ∧ exec (.patrolScrub addr) s = .next s
    ∧ (∃ t, exec (.correctedErrorEvent count store) s = .next t
        ∧ Logged s t ⟨0x01, 0, none, gtsOf s, srcNo 9 0, BitVec.ofNat 32 count, BitVec.ofNat 32 store⟩)
    ∧ (∃ t, exec .deviceReset s = .next t ∧ t.dram = s.dram ∧ t.ws = s.ws ∧ t.tags = s.tags ∧ t.contexts = [] ∧ t.launches = []
        ∧ t.blocks = [] ∧ t.launchQs = [] ∧ t.bulkQs = [] ∧ t.cores = [] ∧ t.engines = [] ∧ t.commits = [] ∧ t.drovers = []
        ∧ t.staging = [] ∧ t.service.keys = [] ∧ t.service.booted = false ∧ t.service.mrs = Vector.replicate 8 0
        ∧ t.service.settings = s.service.records.foldl Settings.put Settings.default ∧ (∀ n, (clusterOf t n).ctx = none)
        ∧ t.service.laneTests = s.service.laneTests + 1)
    ∧ (s.service.booted = false →
        if Config.slhVerify Config.vendorKey image sig = true ∧ s.service.fusedVersion ≤ version then
          ∃ t, exec (.firmwareBoot image sig version) s = .next t ∧ t.service.booted = true ∧ t.service.firmwareVersion = version
            ∧ { t with service := { t.service with
                booted := s.service.booted, firmwareVersion := s.service.firmwareVersion, mrs := s.service.mrs } } = s
        else exec (.firmwareBoot image sig version) s = .next s)

/-- POWER_LIMIT, THERMAL_THROTTLE, THROTTLE_RELEASE, THERMAL_TRIP and TRIP_RESET_TIMEOUT of R437 and R438. -/
def Obligations.PowerAndTemperatureLimits : Prop :=
  ∀ (s : State) (reading gate : Nat),
    let p := s.service.power
    let tthr := s.service.settings.tthr
    (gate ≤ 56 →
      (s.service.settings.plim ≤ reading →
        PowerEvent (.powerLimit 1 reading gate) s 1 reading { p with gate := gate, draw := reading, limited := true })
      ∧ (95000 ≤ reading →
        PowerEvent (.powerLimit 2 reading gate) s 2 reading { p with gate := gate, draw := reading, limited := true })
      ∧ (tthr ≤ reading → p.throttled = false →
        PowerEvent (.thermalThrottle reading gate) s 3 reading { p with gate := gate, temp := reading, throttled := true }))
    ∧ (p.throttled = true → reading + 2 ≤ tthr → exec (.throttleRelease reading) s = .next { s with service := { s.service with
        power := { p with gate := if p.limited then p.gate else 0, temp := reading, throttled := false } } })
    ∧ (110 ≤ reading → p.tripped = none →
        PowerEvent (.thermalTrip reading) s 4 reading { p with temp := reading, tripped := some (gtsOf s) })
    ∧ (∀ at_, p.tripped = some at_ → at_ + 1000000 ≤ gtsOf s → ∃ t, exec .tripResetTimeout s = .next t
        ∧ exec .deviceReset s = .next t ∧ t.service.power.tripped = none ∧ t.contexts = [])

/-- The requests of the management ring (R418, R429 to R431, R434, R437, R439): each answers with what it asks for, or acts
and answers 0; a record that is refused is reported; any other code answers 1. The response words after word 0 and the
refusal numbers are the model's (log 14). -/
def Obligations.ManagementRequestsAreServed : Prop :=
  ∀ (s : State) (r : Req) (n mW slot obj off len nchunk skey mkey dobj doff cl : Nat) (nonce : BitVec 256) (rec : ConfigRecord)
    (imageId : BitVec 64) (sstep : BitVec 16) (code : BitVec 8) (wrapped : List Byte),
    let x := s.service
    let set (s : State) (f : Service → Service) : State := { s with service := f s.service }
    Manages (.managementRefused r code) s s r 1 0 []
    ∧ Manages (.readSensors r) s s r 0 (BitVec.ofNat 32 x.power.temp) [BitVec.ofNat 32 x.power.draw, BitVec.ofNat 32 x.power.gate]
    ∧ (∀ e, x.eventsTotal - x.events.length ≤ n → n < x.eventsTotal →
        x.events[n - (x.eventsTotal - x.events.length)]? = some e →
        Manages (.readEventLog r n) s s r 0 (BitVec.ofNat 32 x.eventsLost) (e.words s.device))
    ∧ (∃ rest, Manages (.readRepairMap r) s s r 0 (BitVec.ofNat 32 x.repair.length) rest
        ∧ rest.drop 3 = (x.repair.take 11).map (fun p => BitVec.ofNat 16 p.2 ++ BitVec.ofNat 16 p.1)
        ∧ ∀ k, k < 80 → (rest.getD (k / 32) 0).getLsbD (k % 32) = !(clusterOf s k).outOfService)
    ∧ Manages (.readStaging r) s s r 0 (BitVec.ofNat 32 x.settings.stagingHalfGiB)
        ((List.range 12).map (fun k => BitVec.ofNat 32 (stackUse s k)))
    ∧ (1000000 ≤ mW → mW ≤ x.settings.plimBound →
        Manages (.setPlim r mW) s (set s (fun x => { x with settings := { x.settings with plim := mW } })) r 0 0 [])
    ∧ (∀ k kind, (ctxOf s r.ctx).isSome = true → slot < 4096 → (kind = KeyKind.xts ∧ k = 1 ∨ kind = KeyKind.hmac ∧ k = 2) →
        match unwrapped s wrapped with
        | some key => Manages (.importKey r slot k wrapped) s
            (set s (fun x => { x with keys := Assoc.set x.keys slot ⟨r.ctx, kind, key⟩ })) r 0 0 []
        | none => ∃ n, 0 < n ∧ n < 256 ∧ Manages (.importKey r slot k wrapped) s s r n 0 [])
    ∧ (slot < 4096 → Manages (.zeroKeySlot r slot) s (set s (fun x => { x with keys := Assoc.erase x.keys slot })) r 0 0 [])
    ∧ (let body := x.mrs.toList.flatMap (fun m => leBytes 32 m.toNat) ++ leBytes 8 x.firmwareVersion
          ++ leBytes 8 Config.serial.toNat ++ leBytes 32 nonce.toNat ++ Config.kemKey x.reports
       Manages (.attestationReport r nonce) s
        (set s (fun x => { x with reportOut := body ++ Config.slhSign body, reports := x.reports + 1 })) r 0 0 [])
    ∧ (Assoc.getD x.counters (settingType rec.setting) 0 ≤ rec.counter → settingOk rec.setting = true →
        if signedOk rec = true then
          Manages (.writeConfigRecord r rec) s (set s (fun x => { x with
            records := x.records.filter (fun y => !sameSetting y rec.setting) ++ [rec.setting]
            counters := Assoc.set x.counters (settingType rec.setting) rec.counter })) r 0 0 []
        else ∃ t', Logged s t' ⟨0x0D, 0, none, gtsOf s, srcNo 9 0, 0x07, 1⟩ ∧ Manages (.writeConfigRecord r rec) s t' r 1 0 [])
    ∧ (∀ s', atBoundary s r.ctx = true → (ctxOf s r.ctx).isSome = true → off % 64 = 0 → doff % 65536 = 0 → nchunk < 2 ^ 32 →
        keyIs s r.ctx skey .xts = true → keyIs s r.ctx mkey .hmac = true →
        sealTo s r.ctx obj off nchunk skey mkey dobj doff imageId = some s' → objLocked s r.ctx obj = false →
        objLocked s r.ctx dobj = false →
        ∃ t, exec (.sealRange r obj off nchunk skey mkey dobj doff imageId) s = .next t ∧ { t with service := s'.service } = s')
    ∧ (∀ s' e, objEntry s r.ctx obj = some e → objAged e = true → off % 8 = 0 → len % 8 = 0 → (ctxOf s r.ctx).isSome = true →
        rebaseTo s r.ctx obj off len sstep = some s' → objLocked s r.ctx obj = false →
        ∃ t, exec (.rebaseStamps r obj off len sstep) s = .next t ∧ { t with service := s'.service } = s')
    ∧ (cl < 80 → noThreads s cl = true → ∃ t, exec (.laneSelfTest r cl) s = .next t
        ∧ t.service.laneTests = x.laneTests + 1 ∧ (∀ k, k ≠ cl → clusterOf t k = clusterOf s k)
        ∧ t.service.management.responses = x.management.responses + 1
        ∧ { t with service := s.service, clusters := s.clusters } = s)

/-! ### Encoding, issue and what every step keeps -/

namespace Sys2Proof.Machine

/-- An instruction word of its three 32-bit parts, bits [31:0] first. -/
def iword (w0 w1 w2 : Word) : IWord := w2 ++ w1 ++ w0

/-- A word stands for an instruction, and is its encoding. -/
def StandsFor (w : IWord) (i : Instr) : Prop := decode w = .ok i ∧ encode i = w

/-- Modifiers of a plain floating-point instruction: round to nearest, with nothing else set. -/
def plainMod : FMod := ⟨0, false, false, false, false, false, false⟩

end Sys2Proof.Machine

/-- Words that the spec writes out bit by bit in its worked examples, two of each family where it has them, stand for the
instructions it gives there. -/
def Obligations.WorkedWordsDecode : Prop :=
  StandsFor (iword 0x00014001 0 0xFFFFFFFC) (.bra ⟨4, 1, false, false, false⟩ 0xFFFFFFFC)
  ∧ StandsFor (iword 0x1E070005 0 0x00100012) (.callo ⟨0, 7, false, false, false⟩ 30 (.id 0x12) 8)
  ∧ StandsFor (iword 0x01072100 0x00008401 0) (.iadd ⟨2, 7, false, false, false⟩ 1 (.v 1) (.intc 4))
  ∧ StandsFor (iword 0x4A072200 0x2800FF0E 0x20)
      (.cmpi ⟨2, 7, false, false, false⟩ true .lt .none 2 (.v 14) (.imm 0x20))
  ∧ StandsFor (iword 0x0D076302 0x00008011 0xFFFFFFFF) (.shfl ⟨6, 7, false, false, false⟩ 0xFFFFFFFF .idx 13 (.v 17) (.c 0))
  ∧ StandsFor (iword 0x04076304 0x40000005 0xF)
      (.wscan ⟨6, 7, false, false, false⟩ 0xF (.fadd 0 false) false 4 (.v 5))
  ∧ StandsFor (iword 0x03074403 0x00BD0404 0) (.ffma ⟨4, 7, false, false, false⟩ plainMod 3 (.v 4) (.v 4) (.fltc 0x1D))
  ∧ StandsFor (iword 0x0A078500 0x01000004 0x0903)
      (.cvt ⟨8, 7, false, false, false⟩ { plainMod with rnd := 1 } .int64 .fp64 false false 10 (.v 4))
  ∧ StandsFor (iword 0x06074505 0x00000007 0x001E080B) (.bscale ⟨4, 7, false, false, false⟩ .e2m1x 0x1E 6 (.v 7))
  ∧ StandsFor (iword 0x04070600 0x02000142 0)
      (.ld ⟨0, 7, false, false, false⟩ ⟨.w32, false, .dflt, none⟩ 4 ⟨2, .v 1, 0⟩)
  ∧ StandsFor (iword 0x0B01060A 0x02040A42 0)
      (.cst ⟨0, 1, false, false, false⟩ ⟨.w32, .dflt, none⟩ ⟨2, .v 10, 0⟩ (.v 4) 11)
  ∧ StandsFor (iword 0x06070800 0xCA070241 0x40000040)
      (.atom ⟨0, 7, false, false, false⟩ ⟨.w32, .add, .si, .acqRel .device⟩ (some 6) ⟨1, .v 2, 64⟩ (.v 7))
  ∧ StandsFor (iword 0x00010804 0x82810843 0x40000180)
      (.red ⟨0, 1, false, false, false⟩ ⟨.w32, .add, .si, .rel .device⟩ ⟨3, .v 8, 0x180⟩ (.c 1))
  ∧ StandsFor (iword 0x0E070900 0x01000000 0) (.commitB ⟨0, 7, false, false, false⟩ 14)
  ∧ StandsFor (iword 0x00030901 0x03151643 0) (.dage ⟨0, 3, false, false, false⟩ ⟨3, .v 22, 0⟩ (.v 21))
  ∧ StandsFor (iword 0x53070C01 0xB3182014 0x00808001)
      (.mmb ⟨0, 7, false, false, false⟩ .e2m1x 3 ⟨3, 20, 32, 24, 1, none, none⟩)
  ∧ StandsFor (iword 0x50070C04 0x002A1E2B 0x0B0B) (.plane ⟨0, 7, false, false, false⟩ .e2m1x false 0 0 43 30 42)

/-- The encoder and the decoder agree: every well-formed instruction, with every operand at every value its encoding admits,
decodes from its word (R66, R68 to R78, Table 3.11). -/
def Obligations.EveryInstructionDecodesFromItsWord : Prop :=
  ∀ i : Instr, i.isCode = true → i.wf = true → decode (encode i) = .ok i

/-- A word that decodes is the word of one instruction, a well-formed one with bits [23:22] zero, but for UDF, whose word is
any with its opcode (R66, R69, R86). -/
def Obligations.DecodedWordsAreEncodings : Prop :=
  ∀ (w : IWord) (i : Instr), decode w = .ok i →
    i.isCode = true ∧ encode i = w ∧ (i.isUdf = false → i.wf = true ∧ w.extractLsb' 22 2 = 0)
    ∧ (i.isUdf = true ↔ w.extractLsb' 0 12 = 0xD02) ∧ ∀ j, j.isCode = true → j.wf = true → encode j = w → j = i

namespace Sys2Proof.Machine

/-- What a step begins with: free values of its own, and the rest of the agenda (log 4). -/
def begun (s : State) (ms : List Move) : State := { s with freeCtr := s.freeCtr + 1, agenda := ms }

/-- The state in which a thread issues: with free values of its own, and the thread as the current one. -/
def issuing (s : State) (tid : ThreadId) : State := { s with freeCtr := s.freeCtr + 1, cur := some tid }

/-- Partition `part` issues next a group of thread t of block b, its only bundle, which stands at slot i of line l (R81, R132,
R234, R239, R437): no gating holds it, it has issued fewer than two groups in the cycle, the thread is ready, and the pipes take
the group, being then as `turn` has them. -/
structure IssuesNext (s : State) (part : Nat) (tid : ThreadId) (b : Block) (t : Thread) (base : Nat) (l : Line) (i : Nat)
    (turn : Turn) : Prop where
  gate : gated s = false
  groups : (turnOfPart s part).groups < 2
  bundle : Assoc.getD s.bundles part [] = [[tid]]
  block : blockOf s tid.slot = some b
  thread : b.threads[tid.tidx]? = some t
  ready : isReady s b tid t = true
  slot : i = (t.pc.extractLsb' 0 3).toNat
  line : lineAt s b tid t = some (base, l)
  pipes : (turnOfPart s part).takeAll s.cycle l i (groupAt t l) = some turn
  runs : arrives (issuing s tid) b tid t = false
  board : groupWait (issuing s tid) b tid t l = none

/-- What a partition records of the issue of a group of one thread: the yields of the thread's lane end (R117), its bundle stays if
the thread does (R237), and the cycle has one group more (R239). -/
def issued (s : State) (part : Nat) (tid : ThreadId) (turn : Turn) (t : State) : State :=
  let t := afterIssue s [tid] t
  { t with
    bundles := Assoc.set t.bundles part ([staying s t [tid]].filter (fun b => !b.isEmpty))
    turns := Assoc.set t.turns part { turn with groups := (turnOfPart s part).groups + 1 } }

/-- A thread whose slot has come to a wait before it could issue waits there, its group not issued. -/
def orWaits (s : State) (tid : ThreadId) (t : Thread) (o : Out) : Out :=
  match stayed t tid o with
  | some w => .next (modThread s tid (fun t => t.hold s.cycle w))
  | none => o

/-- The execution of an instruction in a slot: on the state in which what must be performed before it is (R308, R315) and the
tokens that it reads are noted (R317); afterwards its own plain access may still be performed late (log 5). -/
def ran (s : State) (tid : ThreadId) (i : Instr) : Out :=
  let s' := noteTokens (orderSlot s tid i) tid i
  match exec i s' with
  | .next u => .next (lateSlot s' tid i u)
  | o => o

/-- The registers that an instruction reads, or writes in a checked launch, allow it to issue (rows 7 to 9 of Table 3.13); UDF
traps before they are looked at, and BARW reads nothing after its arrival (R198). -/
def registersAllow (s : State) (b : Block) (tid : ThreadId) (t : Thread) (w : IWord) (i : Instr) : Prop :=
  i.isUdf = true ∨ t.arrival.isSome = true ∨ (if i.isCollective then arriveTrap s t (chkOf s b) (hdrOf w) i
    else firstTrap (qTrap s t (b.wave (waveIx tid)).poisonQ (hdrOf w) i) (registerTrap s t (chkOf s b) (hdrOf w) i)) = none

end Sys2Proof.Machine

/-- A step runs the decoded instruction. Where the agenda names a partition whose next group is one slot of a thread: if the slot's
word decodes, the step is the execution of that instruction, what must be performed before it being performed (R308, log 5), after
which the partition records the issue; if it does not decode, the thread traps ILLOP with the word (R64, Table 3.13). Where the slot begins a group, its slots run in order, each on the registers
as they were when the group issued, until one traps, waits or leaves the line (R80, R82). Where the agenda names an event, the step
is that event, late stores being performed before it. With an empty agenda, the first partition that may issue a group issues as if named, and where none may and no event
changes anything a cycle passes (log 4). After each step the launches that may start are noted (R345, log 108). -/
def Obligations.StepRunsTheDecodedInstruction : Prop :=
  ∀ (s : State) (part : Nat) (tid : ThreadId) (ms : List Move),
    let s1 := begun s ms
    let s2 := issuing s1 tid
    (s.agenda = .issue part :: ms → ∀ b t base l i turn, IssuesNext s1 part tid b t base l i turn →
      let ends (o : Out) : Out := settled (andThen o (fun u => .next (issued s1 part tid turn u)))
      (groupAt t l = [i] → t.snap = none → atRestart s2 b tid t base = false → lineCheck l i = none →
        (coreOf s2 (coreIdOf b tid)).slotPoison.has (8 * (base + t.pc.toNat / 8) + i) = false →
        let w := lineSlot l i
        (∀ x, decode w = .ok x → registersAllow s2 b tid t w x →
          step s = ends (orWaits s2 tid t (endGroup tid (ran s2 tid x))))
        ∧ (∀ why, decode w = .bad why →
          step s = ends (orWaits s2 tid t (endGroup tid (.next (takeTrap s2 tid
            ⟨0x01, 0, t.pcWord, w.extractLsb' 0 32, w.extractLsb' 32 32⟩))))))
      ∧ (∀ js, groupAt t l = i :: js →
        let s3 := enterGroup s2 tid b t (atRestart s2 b tid t base) (i :: js)
        laterWait s3 tid b t base l js = none →
        step s = ends (orWaits s2 tid t (endGroup tid (runGroup tid l base t.snap.isNone i js s3)))))
    ∧ (∀ b t base l i first x u, blockOf u tid.slot = some b → b.threads[tid.tidx]? = some t →
        outcomeAt u b tid t base l (!first) i = .ok x →
        runGroup tid l base first i [] u = runSlot tid x u
        ∧ ∀ j js u' t', runSlot tid x u = .next u' → threadOf u' tid = some t' →
          runGroup tid l base first i (j :: js) u =
            if t'.status = .ready ∧ t'.pc = nextSlot t.pc ∧ t'.stack = t.stack then
              match slotWait u' tid l j with
              | some w => .next (modThread u' tid (fun t => t.hold u.cycle w))
              | none => runGroup tid l base false j js u'
            else .next u')
    ∧ (∀ i, s.agenda = .event i :: ms → i.isCode = false → step s = settled (exec i (beforeEvent s1 i)))
    ∧ (s.agenda = [] → ms = [] →
        ((partsOf s1).find? (fun p => (issuePart s1 p).isSome) = some part → step s = step { s with agenda := [.issue part] })
        ∧ ((∀ p ∈ partsOf s1, issuePart s1 p = none) → (∀ i ∈ ownEvents s1, exec i (beforeEvent s1 i) = .next s1) →
          step s = settled (.next (tick s1))))

/-- Every step keeps every memory of the machine in its canonical form: stacked DRAM, the weight store, the scratchpad and
tiles of every block, placed or saved, and every launch's argument block. -/
def Obligations.EveryStepKeepsMemoryCanonical : Prop :=
  ∀ s t : State, memoryWf s → step s = .next t → memoryWf t

/-- Right after reset every memory is in its canonical form, with nothing listed, so that each byte reads as the model has
an unlisted byte read (log 2); no context, launch, block or queue exists. -/
def Obligations.ResetHoldsNothing : Prop :=
  memoryWf State.reset ∧ (∀ a, State.reset.dram.read a = 0) ∧ (∀ a, State.reset.ws.read a = 0)
  ∧ State.reset.contexts = [] ∧ State.reset.launches = [] ∧ State.reset.blocks = [] ∧ State.reset.launchQs = []
  ∧ State.reset.tags = [] ∧ State.reset.service.booted = false
end

