-- ==== Sys2Proof/Laws/Decode.lean ====
section
/-! SUPPORT. Laws of the instruction word: the fields of a packed word are the fields packed, and each specifier and
modifier field reads back what was written in it. -/

namespace Sys2Proof

/-! ### Parts of a concatenation -/

theorem extractLsb'_append_high {n m : Nat} (a : BitVec n) (b : BitVec m) (k l : Nat) (h : m ≤ k) :
    (a ++ b).extractLsb' k l = a.extractLsb' (k - m) l := by
  apply BitVec.eq_of_getLsbD_eq; intro i hi
  have h1 : ¬ (k + i < m) := by omega
  simp only [BitVec.getLsbD_extractLsb', BitVec.getLsbD_append, h1, if_false]
  rw [show k + i - m = k - m + i by omega]

theorem extractLsb'_append_low {n m : Nat} (a : BitVec n) (b : BitVec m) (k l : Nat) (h : k + l ≤ m) :
    (a ++ b).extractLsb' k l = b.extractLsb' k l := by
  apply BitVec.eq_of_getLsbD_eq; intro i hi
  have h1 : k + i < m := by omega
  simp only [BitVec.getLsbD_extractLsb', BitVec.getLsbD_append, h1, if_true]

theorem extractLsb'_whole {n : Nat} (a : BitVec n) : a.extractLsb' 0 n = a := by
  apply BitVec.eq_of_getLsbD_eq; intro i hi
  simp [hi]

theorem getLsbD_append_high {n m : Nat} (a : BitVec n) (b : BitVec m) (k : Nat) (h : m ≤ k) :
    (a ++ b).getLsbD k = a.getLsbD (k - m) := by
  have h1 : ¬ (k < m) := by omega
  simp only [BitVec.getLsbD_append, h1, if_false]

theorem getLsbD_append_low {n m : Nat} (a : BitVec n) (b : BitVec m) (k : Nat) (h : k < m) :
    (a ++ b).getLsbD k = b.getLsbD k := by
  simp only [BitVec.getLsbD_append, h, if_true]

theorem getLsbD_ofBool_zero (b : Bool) : (BitVec.ofBool b).getLsbD 0 = b := by cases b <;> rfl

/-! ### The word and its fields -/

/-- The fields of a packed word are the fields packed. -/
theorem fieldsOf_pack (f : Fields) : fieldsOf f.pack = f := by
  obtain ⟨op, ⟨s, p, n, nf, y⟩, d, a, b, c, m, i⟩ := f
  simp (disch := decide) only [fieldsOf, hdrOf, Fields.pack, Fields.low, Fields.mk.injEq, Hdr.mk.injEq,
    extractLsb'_append_high, extractLsb'_append_low, getLsbD_append_high, getLsbD_append_low, extractLsb'_whole,
    Nat.reduceSub, Nat.sub_self]
  simp

/-- Bits [23:22] of a packed word are 0. -/
theorem pack_reserved (f : Fields) : f.pack.extractLsb' 22 2 = 0#2 := by
  simp (disch := decide) only [Fields.pack, Fields.low, extractLsb'_append_high, extractLsb'_append_low,
    extractLsb'_whole, Nat.reduceSub, Nat.sub_self]

theorem pack_op (f : Fields) : f.pack.extractLsb' 0 12 = f.op :=
  congrArg Fields.op (fieldsOf_pack f)

theorem hdrOf_pack (f : Fields) : hdrOf f.pack = f.h :=
  congrArg Fields.h (fieldsOf_pack f)

/-! ### Specifiers -/

@[simp] theorem toV_vByte (r : VReg) : toV (vByte r) = some r := by
  revert r; decide
@[simp] theorem toA_aByte (r : AReg) : toA (aByte r) = some r := by
  revert r; decide
@[simp] theorem toP_pByte (r : PReg) : toP (pByte r) = some r := by
  revert r; decide
@[simp] theorem toQ_qByte (r : QReg) : toQ (qByte r) = some r := by
  revert r; decide
@[simp] theorem toBar_barByte (o : Option VReg) : toBar (barByte o) = some o := by
  revert o; decide
theorem toOptV_optByte {o : Option VReg} (h : destOk o = true) : toOptV (optByte o) = some o := by
  revert o; decide
@[simp] theorem toRC_byte (x : RC) : toRC x.byte = some x := by
  cases x with
  | v r => revert r; decide
  | c n => revert n; decide
theorem vByte_parts (r : VReg) : (vByte r).extractLsb' 6 2 = 0#2 ∧ (vByte r).extractLsb' 0 6 = r := by
  revert r; decide
theorem constByte_parts (n : BitVec 5) : (0b100#3 ++ n).extractLsb' 6 2 ≠ 0#2 ∧ (0b100#3 ++ n).extractLsb' 5 3 = 0b100#3
    ∧ (0b100#3 ++ n).extractLsb' 0 5 = n := by
  revert n; decide
theorem fltByte_parts (n : BitVec 5) : (0b101#3 ++ n).extractLsb' 6 2 ≠ 0#2 ∧ (0b101#3 ++ n).extractLsb' 5 3 = 0b101#3
    ∧ (0b101#3 ++ n).extractLsb' 0 5 = n := by
  revert n; decide

/-- A source reads back, given the I of its word. -/
theorem toSrc_byte {x : Src} {i : Word} (h : x.agrees i = true) : toSrc x.byte i = some x := by
  cases x with
  | v r => simp only [Src.byte, toSrc, vByte_parts, if_true]
  | intc n => simp only [Src.byte, toSrc, constByte_parts n, if_true, if_false]
  | fltc n => simp only [Src.byte, toSrc, fltByte_parts n, if_true, if_false, show ¬ (0b101#3 = 0b100#3) by decide]
  | imm y =>
    have : y = i := by simpa [Src.agrees] using h
    subst this; simp [toSrc, Src.byte]
theorem toSrc_byte_noImm {x : Src} (h : x.noImm = true) (i : Word) : toSrc x.byte i = some x :=
  toSrc_byte (by cases x <;> simp_all [Src.noImm, Src.agrees])

/-! ### Modifier fields -/

@[simp] theorem toFMod_byte (m : FMod) : toFMod m.byte = m := by
  obtain ⟨rnd, b1, b2, b3, b4, b5, b6⟩ := m
  simp (disch := decide) only [toFMod, FMod.byte, extractLsb'_append_low, getLsbD_append_high,
    getLsbD_append_low, extractLsb'_whole, Nat.reduceSub, getLsbD_ofBool_zero, Nat.sub_self]
@[simp] theorem toCmp_code (c : Cmp) : toCmp c.code = some c := by cases c <;> rfl
@[simp] theorem toComb_code (k : Comb) : toComb k.code k.byte = some k := by
  cases k with
  | none => rfl
  | andP c => revert c; decide
  | orP c => revert c; decide
  | xorP c => revert c; decide
@[simp] theorem toVote_code (o : VoteOp) : toVote o.code = some o := by cases o <;> rfl
@[simp] theorem toShfl_code (o : ShflOp) : toShfl o.code = some o := by cases o <;> rfl
@[simp] theorem toWOp_code (o : WOp) : toWOp o.code = some o := by
  cases o with
  | int r => cases r with
    | min ns => cases ns <;> rfl
    | max ns => cases ns <;> rfl
    | _ => rfl
  | fadd rnd ftz => revert rnd ftz; decide
  | fmin ftz => cases ftz <;> rfl
  | fmax ftz => cases ftz <;> rfl
@[simp] theorem toFmt_code (f : Fmt) : toFmt f.code = some f := by cases f <;> rfl
@[simp] theorem toFmt4_code4 (f : Fmt) : toFmt4 f.code4 = some f := by cases f <;> rfl
@[simp] theorem toWid_code (w : Wid) : toWid w.code = some w := by cases w <;> rfl
@[simp] theorem toCH_code (c : CacheHint) : toCH c.code = some c := by cases c <;> rfl
@[simp] theorem toScope_code (s : Scope) : toScope s.code = some s := by cases s <;> rfl
@[simp] theorem toOrd_code (o : Option Scope) : toOrd (ordCode o) (ordScope o) = some o := by
  cases o with
  | none => rfl
  | some s => cases s <;> rfl
@[simp] theorem toAOrd_code (o : AOrd) : toAOrd o.code o.scope = some o := by
  cases o with
  | relaxed => rfl
  | acq s => cases s <;> rfl
  | rel s => cases s <;> rfl
  | acqRel s => cases s <;> rfl
@[simp] theorem toAOp_code (o : AOp) : toAOp o.code = some o := by cases o <;> rfl
@[simp] theorem toATy_code (o : ATy) : toATy o.code = some o := by cases o <;> rfl
@[simp] theorem toCop_code (o : CopOp) : toCop o.code = o := by cases o <;> rfl
@[simp] theorem toFence_code (k : FenceKind) : toFence k.code = some k := by cases k <;> rfl
@[simp] theorem toCapSide (c : CpySide) : toSide c.capByte c.offByte = some c := by
  cases c with
  | obj c o => revert c o; decide
  | spad r => revert r; decide

@[simp] theorem aByte_ne (a : AReg) : aByte a ≠ 0#8 := by
  revert a; decide
@[simp] theorem toQ_src (a : Src) : toQ a.byte = none := by
  cases a with
  | v r => revert r; decide
  | intc n => revert n; decide
  | fltc n => revert n; decide
  | imm x => exact (by decide : toQ 0xFF#8 = none)
@[simp] theorem toV_zero : toV 0#8 = some 0#6 := rfl

/-! ### Fields within modifier bytes and I -/

@[simp] theorem nsM_bit (ns : Bool) : (nsM ns).getLsbD 0 = ns :=
  (getLsbD_append_low 0#7 (BitVec.ofBool ns) 0 (by decide)).trans
    (getLsbD_ofBool_zero _)
@[simp] theorem opM_op (op : BitVec 3) : (opM op).extractLsb' 3 3 = op :=
  ((extractLsb'_append_high (0#2 ++ op) 0#3 3 3 (by decide)).trans
    (extractLsb'_append_low 0#2 op 0 3 (by decide))).trans
    (extractLsb'_whole op)
@[simp] theorem wavM_op (excl : Bool) (o : WOp) : (wavM excl o).extractLsb' 0 7 = o.code :=
  (extractLsb'_append_low (BitVec.ofBool excl) o.code 0 7 (by decide)).trans
    (extractLsb'_whole o.code)
@[simp] theorem wavM_excl (excl : Bool) (o : WOp) : (wavM excl o).getLsbD 7 = excl :=
  (getLsbD_append_high (BitVec.ofBool excl) o.code 7 (by decide)).trans
    (getLsbD_ofBool_zero _)
@[simp] theorem cmpM_cmp (c : Cmp) (n z : Bool) (k : Comb) : (cmpM c n z k).extractLsb' 4 3 = c.code :=
  ((((extractLsb'_append_high (0#1 ++ c.code ++ (BitVec.ofBool n) ++ (BitVec.ofBool z)) k.code 4 3 (by decide)).trans
    (extractLsb'_append_high (0#1 ++ c.code ++ (BitVec.ofBool n)) (BitVec.ofBool z) 2 3 (by decide))).trans
    (extractLsb'_append_high (0#1 ++ c.code) (BitVec.ofBool n) 1 3 (by decide))).trans
    (extractLsb'_append_low 0#1 c.code 0 3 (by decide))).trans
    (extractLsb'_whole c.code)
@[simp] theorem cmpM_n (c : Cmp) (n z : Bool) (k : Comb) : (cmpM c n z k).getLsbD 3 = n :=
  (((getLsbD_append_high (0#1 ++ c.code ++ (BitVec.ofBool n) ++ (BitVec.ofBool z)) k.code 3 (by decide)).trans
    (getLsbD_append_high (0#1 ++ c.code ++ (BitVec.ofBool n)) (BitVec.ofBool z) 1 (by decide))).trans
    (getLsbD_append_low (0#1 ++ c.code) (BitVec.ofBool n) 0 (by decide))).trans
    (getLsbD_ofBool_zero _)
@[simp] theorem cmpM_ftz (c : Cmp) (n z : Bool) (k : Comb) : (cmpM c n z k).getLsbD 2 = z :=
  ((getLsbD_append_high (0#1 ++ c.code ++ (BitVec.ofBool n) ++ (BitVec.ofBool z)) k.code 2 (by decide)).trans
    (getLsbD_append_low (0#1 ++ c.code ++ (BitVec.ofBool n)) (BitVec.ofBool z) 0 (by decide))).trans
    (getLsbD_ofBool_zero _)
@[simp] theorem cmpM_comb (c : Cmp) (n z : Bool) (k : Comb) : (cmpM c n z k).extractLsb' 0 2 = k.code :=
  (extractLsb'_append_low (0#1 ++ c.code ++ (BitVec.ofBool n) ++ (BitVec.ofBool z)) k.code 0 2 (by decide)).trans
    (extractLsb'_whole k.code)
@[simp] theorem memM_wid (o c : BitVec 2) (sx : Bool) (w : Wid) : (memM o c sx w).extractLsb' 0 3 = w.code :=
  (extractLsb'_append_low (o ++ c ++ (BitVec.ofBool sx)) w.code 0 3 (by decide)).trans
    (extractLsb'_whole w.code)
@[simp] theorem memM_sx (o c : BitVec 2) (sx : Bool) (w : Wid) : (memM o c sx w).getLsbD 3 = sx :=
  ((getLsbD_append_high (o ++ c ++ (BitVec.ofBool sx)) w.code 3 (by decide)).trans
    (getLsbD_append_low (o ++ c) (BitVec.ofBool sx) 0 (by decide))).trans
    (getLsbD_ofBool_zero _)
@[simp] theorem memM_ch (o c : BitVec 2) (sx : Bool) (w : Wid) : (memM o c sx w).extractLsb' 4 2 = c :=
  (((extractLsb'_append_high (o ++ c ++ (BitVec.ofBool sx)) w.code 4 2 (by decide)).trans
    (extractLsb'_append_high (o ++ c) (BitVec.ofBool sx) 1 2 (by decide))).trans
    (extractLsb'_append_low o c 0 2 (by decide))).trans
    (extractLsb'_whole c)
@[simp] theorem memM_ord (o c : BitVec 2) (sx : Bool) (w : Wid) : (memM o c sx w).extractLsb' 6 2 = o :=
  (((extractLsb'_append_high (o ++ c ++ (BitVec.ofBool sx)) w.code 6 2 (by decide)).trans
    (extractLsb'_append_high (o ++ c) (BitVec.ofBool sx) 3 2 (by decide))).trans
    (extractLsb'_append_high o c 2 2 (by decide))).trans
    (extractLsb'_whole o)
@[simp] theorem widM_wid (w : Wid) : (widM w).extractLsb' 0 3 = w.code :=
  (extractLsb'_append_low 0#5 w.code 0 3 (by decide)).trans
    (extractLsb'_whole w.code)
@[simp] theorem atM_wid (o : AOrd) (r : Bool) (w : Wid) : (atM o r w).extractLsb' 0 3 = w.code :=
  (extractLsb'_append_low (o.code ++ 0#2 ++ (BitVec.ofBool r)) w.code 0 3 (by decide)).trans
    (extractLsb'_whole w.code)
@[simp] theorem atM_ret (o : AOrd) (r : Bool) (w : Wid) : (atM o r w).getLsbD 3 = r :=
  ((getLsbD_append_high (o.code ++ 0#2 ++ (BitVec.ofBool r)) w.code 3 (by decide)).trans
    (getLsbD_append_low (o.code ++ 0#2) (BitVec.ofBool r) 0 (by decide))).trans
    (getLsbD_ofBool_zero _)
@[simp] theorem atM_ord (o : AOrd) (r : Bool) (w : Wid) : (atM o r w).extractLsb' 6 2 = o.code :=
  (((extractLsb'_append_high (o.code ++ 0#2 ++ (BitVec.ofBool r)) w.code 6 2 (by decide)).trans
    (extractLsb'_append_high (o.code ++ 0#2) (BitVec.ofBool r) 3 2 (by decide))).trans
    (extractLsb'_append_high o.code 0#2 2 2 (by decide))).trans
    (extractLsb'_whole o.code)
@[simp] theorem xm_disp (xm : BitVec 8) (d : BitVec 24) : BitVec.extractLsb' (n := 32) 0 24 (xm ++ d) = d :=
  (extractLsb'_append_low xm d 0 24 (by decide)).trans
    (extractLsb'_whole d)
@[simp] theorem xm_op (xm : BitVec 8) (d : BitVec 24) :
    BitVec.extractLsb' (n := 32) 24 3 (xm ++ d) = xm.extractLsb' 0 3 :=
  extractLsb'_append_high xm d 24 3 (by decide)
@[simp] theorem xm_ty (xm : BitVec 8) (d : BitVec 24) :
    BitVec.extractLsb' (n := 32) 27 3 (xm ++ d) = xm.extractLsb' 3 3 :=
  extractLsb'_append_high xm d 27 3 (by decide)
@[simp] theorem xm_scope (xm : BitVec 8) (d : BitVec 24) :
    BitVec.extractLsb' (n := 32) 30 2 (xm ++ d) = xm.extractLsb' 6 2 :=
  extractLsb'_append_high xm d 30 2 (by decide)
@[simp] theorem xm_low2 (xm : BitVec 8) (d : BitVec 24) :
    BitVec.extractLsb' (n := 32) 24 2 (xm ++ d) = xm.extractLsb' 0 2 :=
  extractLsb'_append_high xm d 24 2 (by decide)
@[simp] theorem atXM_op (o : AOrd) (t : ATy) (p : AOp) : (atXM o t p).extractLsb' 0 3 = p.code :=
  (extractLsb'_append_low (o.scope ++ t.code) p.code 0 3 (by decide)).trans
    (extractLsb'_whole p.code)
@[simp] theorem atXM_ty (o : AOrd) (t : ATy) (p : AOp) : (atXM o t p).extractLsb' 3 3 = t.code :=
  ((extractLsb'_append_high (o.scope ++ t.code) p.code 3 3 (by decide)).trans
    (extractLsb'_append_low o.scope t.code 0 3 (by decide))).trans
    (extractLsb'_whole t.code)
@[simp] theorem atXM_scope (o : AOrd) (t : ATy) (p : AOp) : (atXM o t p).extractLsb' 6 2 = o.scope :=
  ((extractLsb'_append_high (o.scope ++ t.code) p.code 6 2 (by decide)).trans
    (extractLsb'_append_high o.scope t.code 3 2 (by decide))).trans
    (extractLsb'_whole o.scope)
@[simp] theorem ldXm_scope (m : LdMod) : (m.xm).extractLsb' 6 2 = ordScope m.acq :=
  (extractLsb'_append_high (ordScope m.acq) 0#6 6 2 (by decide)).trans
    (extractLsb'_whole (ordScope m.acq))
@[simp] theorem stXm_scope (m : StMod) : (m.xm).extractLsb' 6 2 = ordScope m.rel :=
  (extractLsb'_append_high (ordScope m.rel) 0#6 6 2 (by decide)).trans
    (extractLsb'_whole (ordScope m.rel))
@[simp] theorem bldXm_sg (sg : BitVec 2) : BitVec.extractLsb' (n := 8) 0 2 (0#6 ++ sg) = sg :=
  (extractLsb'_append_low 0#6 sg 0 2 (by decide)).trans
    (extractLsb'_whole sg)
@[simp] theorem ovI_id_entry (e : BitVec 15) (n : BitVec 8) : (ovI e (.id n)).extractLsb' 17 15 = e :=
  ((extractLsb'_append_high (e ++ 0#9) n 17 15 (by decide)).trans
    (extractLsb'_append_high e 0#9 9 15 (by decide))).trans
    (extractLsb'_whole e)
@[simp] theorem ovI_id_ovid (e : BitVec 15) (n : BitVec 8) : (ovI e (.id n)).extractLsb' 0 8 = n :=
  (extractLsb'_append_low (e ++ 0#9) n 0 8 (by decide)).trans
    (extractLsb'_whole n)
@[simp] theorem ovI_id_ind (e : BitVec 15) (n : BitVec 8) : (ovI e (.id n)).getLsbD 8 = false :=
  ((getLsbD_append_high (e ++ 0#9) n 8 (by decide)).trans
    (getLsbD_append_low e 0#9 0 (by decide))).trans
    (rfl)
@[simp] theorem ovI_reg_entry (e : BitVec 15) (r : VReg) : (ovI e (.reg r)).extractLsb' 17 15 = e :=
  (((extractLsb'_append_high (e ++ 0#8 ++ 1#1) 0#8 17 15 (by decide)).trans
    (extractLsb'_append_high (e ++ 0#8) 1#1 9 15 (by decide))).trans
    (extractLsb'_append_high e 0#8 8 15 (by decide))).trans
    (extractLsb'_whole e)
@[simp] theorem ovI_reg_ind (e : BitVec 15) (r : VReg) : (ovI e (.reg r)).getLsbD 8 = true :=
  ((getLsbD_append_high (e ++ 0#8 ++ 1#1) 0#8 8 (by decide)).trans
    (getLsbD_append_low (e ++ 0#8) 1#1 0 (by decide))).trans
    (rfl)
@[simp] theorem fmtI_df (vx : BitVec 16) (sf df : Fmt) : (fmtI vx sf df).extractLsb' 0 8 = df.code :=
  (extractLsb'_append_low (vx ++ sf.code) df.code 0 8 (by decide)).trans
    (extractLsb'_whole df.code)
@[simp] theorem fmtI_sf (vx : BitVec 16) (sf df : Fmt) : (fmtI vx sf df).extractLsb' 8 8 = sf.code :=
  ((extractLsb'_append_high (vx ++ sf.code) df.code 8 8 (by decide)).trans
    (extractLsb'_append_low vx sf.code 0 8 (by decide))).trans
    (extractLsb'_whole sf.code)
@[simp] theorem fmtI_bit16 (vx : BitVec 16) (sf df : Fmt) : (fmtI vx sf df).getLsbD 16 = vx.getLsbD 0 :=
  (getLsbD_append_high (vx ++ sf.code) df.code 16 (by decide)).trans
    (getLsbD_append_high vx sf.code 8 (by decide))
@[simp] theorem fmtI_bit17 (vx : BitVec 16) (sf df : Fmt) : (fmtI vx sf df).getLsbD 17 = vx.getLsbD 1 :=
  (getLsbD_append_high (vx ++ sf.code) df.code 17 (by decide)).trans
    (getLsbD_append_high vx sf.code 9 (by decide))
@[simp] theorem fmtI_part16_2 (vx : BitVec 16) (sf df : Fmt) :
    (fmtI vx sf df).extractLsb' 16 2 = vx.extractLsb' 0 2 :=
  (extractLsb'_append_high (vx ++ sf.code) df.code 16 2 (by decide)).trans
    (extractLsb'_append_high vx sf.code 8 2 (by decide))
@[simp] theorem fmtI_part16_3 (vx : BitVec 16) (sf df : Fmt) :
    (fmtI vx sf df).extractLsb' 16 3 = vx.extractLsb' 0 3 :=
  (extractLsb'_append_high (vx ++ sf.code) df.code 16 3 (by decide)).trans
    (extractLsb'_append_high vx sf.code 8 3 (by decide))
@[simp] theorem fmtI_part16_5 (vx : BitVec 16) (sf df : Fmt) :
    (fmtI vx sf df).extractLsb' 16 5 = vx.extractLsb' 0 5 :=
  (extractLsb'_append_high (vx ++ sf.code) df.code 16 5 (by decide)).trans
    (extractLsb'_append_high vx sf.code 8 5 (by decide))
@[simp] theorem fmtI_part17_2 (vx : BitVec 16) (sf df : Fmt) :
    (fmtI vx sf df).extractLsb' 17 2 = vx.extractLsb' 1 2 :=
  (extractLsb'_append_high (vx ++ sf.code) df.code 17 2 (by decide)).trans
    (extractLsb'_append_high vx sf.code 9 2 (by decide))
@[simp] theorem vxCvt_su (du su : Bool) :
    BitVec.getLsbD (w := 16) (0#14 ++ BitVec.ofBool du ++ BitVec.ofBool su) 0 = su :=
  (getLsbD_append_low (0#14 ++ (BitVec.ofBool du)) (BitVec.ofBool su) 0 (by decide)).trans
    (getLsbD_ofBool_zero _)
@[simp] theorem vxCvt_du (du su : Bool) :
    BitVec.getLsbD (w := 16) (0#14 ++ BitVec.ofBool du ++ BitVec.ofBool su) 1 = du :=
  ((getLsbD_append_high (0#14 ++ (BitVec.ofBool du)) (BitVec.ofBool su) 1 (by decide)).trans
    (getLsbD_append_low 0#14 (BitVec.ofBool du) 0 (by decide))).trans
    (getLsbD_ofBool_zero _)
@[simp] theorem vxHi_bit (b : Bool) : BitVec.getLsbD (w := 16) (0#15 ++ BitVec.ofBool b) 0 = b :=
  (getLsbD_append_low 0#15 (BitVec.ofBool b) 0 (by decide)).trans
    (getLsbD_ofBool_zero _)
@[simp] theorem vxEl (el : BitVec 3) : BitVec.extractLsb' (n := 16) 0 3 (0#13 ++ el) = el :=
  (extractLsb'_append_low 0#13 el 0 3 (by decide)).trans
    (extractLsb'_whole el)
@[simp] theorem vxSpec (sp : BitVec 5) : BitVec.extractLsb' (n := 16) 0 5 (0#11 ++ sp) = sp :=
  (extractLsb'_append_low 0#11 sp 0 5 (by decide)).trans
    (extractLsb'_whole sp)
@[simp] theorem vxSg (sg : BitVec 2) : BitVec.extractLsb' (n := 16) 0 2 (0#14 ++ sg) = sg :=
  (extractLsb'_append_low 0#14 sg 0 2 (by decide)).trans
    (extractLsb'_whole sg)
@[simp] theorem vxPlane_tr (sg : BitVec 2) (tr : Bool) :
    BitVec.getLsbD (w := 16) (0#13 ++ sg ++ BitVec.ofBool tr) 0 = tr :=
  (getLsbD_append_low (0#13 ++ sg) (BitVec.ofBool tr) 0 (by decide)).trans
    (getLsbD_ofBool_zero _)
@[simp] theorem vxPlane_sg (sg : BitVec 2) (tr : Bool) :
    BitVec.extractLsb' (n := 16) 1 2 (0#13 ++ sg ++ BitVec.ofBool tr) = sg :=
  ((extractLsb'_append_high (0#13 ++ sg) (BitVec.ofBool tr) 1 2 (by decide)).trans
    (extractLsb'_append_low 0#13 sg 0 2 (by decide))).trans
    (extractLsb'_whole sg)
@[simp] theorem cpyI_soff (cop rsc : BitVec 2) (esz : BitVec 4) (ix cnt sof : BitVec 8) :
    (cpyI cop rsc esz ix cnt sof).extractLsb' 0 8 = sof :=
  (extractLsb'_append_low (cop ++ rsc ++ esz ++ ix ++ cnt) sof 0 8 (by decide)).trans
    (extractLsb'_whole sof)
@[simp] theorem cpyI_cnt (cop rsc : BitVec 2) (esz : BitVec 4) (ix cnt sof : BitVec 8) :
    (cpyI cop rsc esz ix cnt sof).extractLsb' 8 8 = cnt :=
  ((extractLsb'_append_high (cop ++ rsc ++ esz ++ ix ++ cnt) sof 8 8 (by decide)).trans
    (extractLsb'_append_low (cop ++ rsc ++ esz ++ ix) cnt 0 8 (by decide))).trans
    (extractLsb'_whole cnt)
@[simp] theorem cpyI_idx (cop rsc : BitVec 2) (esz : BitVec 4) (ix cnt sof : BitVec 8) :
    (cpyI cop rsc esz ix cnt sof).extractLsb' 16 8 = ix :=
  (((extractLsb'_append_high (cop ++ rsc ++ esz ++ ix ++ cnt) sof 16 8 (by decide)).trans
    (extractLsb'_append_high (cop ++ rsc ++ esz ++ ix) cnt 8 8 (by decide))).trans
    (extractLsb'_append_low (cop ++ rsc ++ esz) ix 0 8 (by decide))).trans
    (extractLsb'_whole ix)
@[simp] theorem cpyI_esz (cop rsc : BitVec 2) (esz : BitVec 4) (ix cnt sof : BitVec 8) :
    (cpyI cop rsc esz ix cnt sof).extractLsb' 24 4 = esz :=
  ((((extractLsb'_append_high (cop ++ rsc ++ esz ++ ix ++ cnt) sof 24 4 (by decide)).trans
    (extractLsb'_append_high (cop ++ rsc ++ esz ++ ix) cnt 16 4 (by decide))).trans
    (extractLsb'_append_high (cop ++ rsc ++ esz) ix 8 4 (by decide))).trans
    (extractLsb'_append_low (cop ++ rsc) esz 0 4 (by decide))).trans
    (extractLsb'_whole esz)
@[simp] theorem cpyI_rsc (cop rsc : BitVec 2) (esz : BitVec 4) (ix cnt sof : BitVec 8) :
    (cpyI cop rsc esz ix cnt sof).extractLsb' 28 2 = rsc :=
  (((((extractLsb'_append_high (cop ++ rsc ++ esz ++ ix ++ cnt) sof 28 2 (by decide)).trans
    (extractLsb'_append_high (cop ++ rsc ++ esz ++ ix) cnt 20 2 (by decide))).trans
    (extractLsb'_append_high (cop ++ rsc ++ esz) ix 12 2 (by decide))).trans
    (extractLsb'_append_high (cop ++ rsc) esz 4 2 (by decide))).trans
    (extractLsb'_append_low cop rsc 0 2 (by decide))).trans
    (extractLsb'_whole rsc)
@[simp] theorem cpyI_cop (cop rsc : BitVec 2) (esz : BitVec 4) (ix cnt sof : BitVec 8) :
    (cpyI cop rsc esz ix cnt sof).extractLsb' 30 2 = cop :=
  (((((extractLsb'_append_high (cop ++ rsc ++ esz ++ ix ++ cnt) sof 30 2 (by decide)).trans
    (extractLsb'_append_high (cop ++ rsc ++ esz ++ ix) cnt 22 2 (by decide))).trans
    (extractLsb'_append_high (cop ++ rsc ++ esz) ix 14 2 (by decide))).trans
    (extractLsb'_append_high (cop ++ rsc) esz 6 2 (by decide))).trans
    (extractLsb'_append_high cop rsc 2 2 (by decide))).trans
    (extractLsb'_whole cop)
@[simp] theorem qI_mask (qx bar bwt mask : BitVec 8) :
    BitVec.extractLsb' (n := 32) 0 8 (qx ++ bar ++ bwt ++ mask) = mask :=
  (extractLsb'_append_low (qx ++ bar ++ bwt) mask 0 8 (by decide)).trans
    (extractLsb'_whole mask)
@[simp] theorem qI_bwt (qx bar bwt mask : BitVec 8) :
    BitVec.extractLsb' (n := 32) 8 8 (qx ++ bar ++ bwt ++ mask) = bwt :=
  ((extractLsb'_append_high (qx ++ bar ++ bwt) mask 8 8 (by decide)).trans
    (extractLsb'_append_low (qx ++ bar) bwt 0 8 (by decide))).trans
    (extractLsb'_whole bwt)
@[simp] theorem qI_bar (qx bar bwt mask : BitVec 8) :
    BitVec.extractLsb' (n := 32) 16 8 (qx ++ bar ++ bwt ++ mask) = bar :=
  (((extractLsb'_append_high (qx ++ bar ++ bwt) mask 16 8 (by decide)).trans
    (extractLsb'_append_high (qx ++ bar) bwt 8 8 (by decide))).trans
    (extractLsb'_append_low qx bar 0 8 (by decide))).trans
    (extractLsb'_whole bar)
@[simp] theorem qI_sa (qx bar bwt mask : BitVec 8) :
    BitVec.extractLsb' (n := 32) 24 2 (qx ++ bar ++ bwt ++ mask) = qx.extractLsb' 0 2 :=
  ((extractLsb'_append_high (qx ++ bar ++ bwt) mask 24 2 (by decide)).trans
    (extractLsb'_append_high (qx ++ bar) bwt 16 2 (by decide))).trans
    (extractLsb'_append_high qx bar 8 2 (by decide))
@[simp] theorem qI_sb (qx bar bwt mask : BitVec 8) :
    BitVec.extractLsb' (n := 32) 26 2 (qx ++ bar ++ bwt ++ mask) = qx.extractLsb' 2 2 :=
  ((extractLsb'_append_high (qx ++ bar ++ bwt) mask 26 2 (by decide)).trans
    (extractLsb'_append_high (qx ++ bar) bwt 18 2 (by decide))).trans
    (extractLsb'_append_high qx bar 10 2 (by decide))
@[simp] theorem mscaleX_sa (sb sa : BitVec 2) : BitVec.extractLsb' (n := 8) 0 2 (0#4 ++ sb ++ sa) = sa :=
  (extractLsb'_append_low (0#4 ++ sb) sa 0 2 (by decide)).trans
    (extractLsb'_whole sa)
@[simp] theorem mscaleX_sb (sb sa : BitVec 2) : BitVec.extractLsb' (n := 8) 2 2 (0#4 ++ sb ++ sa) = sb :=
  ((extractLsb'_append_high (0#4 ++ sb) sa 2 2 (by decide)).trans
    (extractLsb'_append_low 0#4 sb 0 2 (by decide))).trans
    (extractLsb'_whole sb)
@[simp] theorem fmtM_fmt (f p : BitVec 4) : BitVec.extractLsb' (n := 8) 4 4 (f ++ p) = f :=
  (extractLsb'_append_high f p 4 4 (by decide)).trans
    (extractLsb'_whole f)
@[simp] theorem fmtM_prec (f p : BitVec 4) : BitVec.extractLsb' (n := 8) 0 4 (f ++ p) = p :=
  (extractLsb'_append_low f p 0 4 (by decide)).trans
    (extractLsb'_whole p)
@[simp] theorem low16 (x : BitVec 16) : BitVec.extractLsb' (n := 32) 0 16 (0#16 ++ x) = x :=
  (extractLsb'_append_low 0#16 x 0 16 (by decide)).trans
    (extractLsb'_whole x)
@[simp] theorem low8 (x : BitVec 8) : BitVec.extractLsb' (n := 32) 0 8 (0#24 ++ x) = x :=
  (extractLsb'_append_low 0#24 x 0 8 (by decide)).trans
    (extractLsb'_whole x)
@[simp] theorem low3 (x : BitVec 3) : BitVec.extractLsb' (n := 8) 0 3 (0#5 ++ x) = x :=
  (extractLsb'_append_low 0#5 x 0 3 (by decide)).trans
    (extractLsb'_whole x)
@[simp] theorem fenceM_scope (s k : BitVec 2) : BitVec.extractLsb' (n := 8) 2 2 (0#4 ++ s ++ k) = s :=
  ((extractLsb'_append_high (0#4 ++ s) k 2 2 (by decide)).trans
    (extractLsb'_append_low 0#4 s 0 2 (by decide))).trans
    (extractLsb'_whole s)
@[simp] theorem fenceM_kind (s k : BitVec 2) : BitVec.extractLsb' (n := 8) 0 2 (0#4 ++ s ++ k) = k :=
  (extractLsb'_append_low (0#4 ++ s) k 0 2 (by decide)).trans
    (extractLsb'_whole k)
@[simp] theorem p64M_bit (p : Bool) : BitVec.getLsbD (w := 8) (0#7 ++ BitVec.ofBool p) 0 = p :=
  (getLsbD_append_low 0#7 (BitVec.ofBool p) 0 (by decide)).trans
    (getLsbD_ofBool_zero _)
@[simp] theorem amovM_p64 (p : Bool) (x : BitVec 1) : BitVec.getLsbD (w := 8) (0#6 ++ BitVec.ofBool p ++ x) 1 = p :=
  ((getLsbD_append_high (0#6 ++ (BitVec.ofBool p)) x 1 (by decide)).trans
    (getLsbD_append_low 0#6 (BitVec.ofBool p) 0 (by decide))).trans
    (getLsbD_ofBool_zero _)
@[simp] theorem amovM_dir (p : Bool) (x : BitVec 1) :
    BitVec.getLsbD (w := 8) (0#6 ++ BitVec.ofBool p ++ x) 0 = x.getLsbD 0 :=
  (getLsbD_append_low (0#6 ++ (BitVec.ofBool p)) x 0 (by decide)).trans
    (rfl)

/-! ### Decoding an encoded word -/

/-- A word whose fields are those of a well-formed instruction decodes to it. -/
theorem decode_pack {i : Instr} {f : Fields} (hf : i.fields = some f) (hw : i.wf = true) (hop : f.op ≠ 0xD02#12)
    (ha : assigned f.op = true) (hp : parse f = some i) : decode f.pack = .ok i := by
  simp [decode, pack_op, pack_reserved, fieldsOf_pack, hop, ha, hp, hw, hf]

theorem encode_of_fields {i : Instr} {f : Fields} (hf : i.fields = some f) : encode i = f.pack := by
  simp only [encode, hf]

/-- A word that decodes to an instruction other than UDF is that instruction's word. -/
theorem decode_ok {w : IWord} {i : Instr} (h : decode w = .ok i) :
    i = .udf w ∨ (i.wf = true ∧ i.fields = some (fieldsOf w) ∧ w.extractLsb' 22 2 = 0#2) := by
  unfold decode at h
  split at h
  · cases h; exact .inl rfl
  · simp only at h
    split at h
    · cases h
    · split at h
      · cases h
      · rename_i hr
        split at h
        · cases h
        · split at h
          · rename_i hi
            cases h
            simp only [Bool.and_eq_true, beq_iff_eq] at hi
            exact .inr ⟨hi.1, hi.2, by simpa using hr⟩
          · cases h

end Sys2Proof
end

