-- ==== Sys2Proof/Laws/Dispatch.lean ====
section
/-! SUPPORT. Dispatch, constructor by constructor: which meaning `exec` calls. -/

namespace Sys2Proof.Machine

open Sys2Proof

theorem exec_nop (h : Hdr) (s : State) : exec (.nop h) s = execNop h s := rfl
theorem exec_bra (h : Hdr) (off : Word) (s : State) : exec (.bra h off) s = execBra h off s := rfl
theorem exec_brx (h : Hdr) (a : VReg) (s : State) : exec (.brx h a) s = execBrx h a s := rfl
theorem exec_call (h : Hdr) (d : VReg) (off : Word) (s : State) : exec (.call h d off) s = execCall h d off s := rfl
theorem exec_ret (h : Hdr) (a : VReg) (s : State) : exec (.ret h a) s = execRet h a s := rfl
theorem exec_callo (h : Hdr) (d : VReg) (o : OvSel) (entry : BitVec 15) (s : State) :
    exec (.callo h d o entry) s = execCallo h d o entry s := rfl
theorem exec_jmpo (h : Hdr) (o : OvSel) (entry : BitVec 15) (s : State) :
    exec (.jmpo h o entry) s = execJmpo h o entry s := rfl
theorem exec_exit (h : Hdr) (s : State) : exec (.exit h) s = execExit h s := rfl
theorem exec_yield (h : Hdr) (s : State) : exec (.yield h) s = execYield h s := rfl
theorem exec_trap (h : Hdr) (code : BitVec 16) (s : State) : exec (.trap h code) s = execTrap h code s := rfl
theorem exec_bkpt (h : Hdr) (code : BitVec 16) (s : State) : exec (.bkpt h code) s = execBkpt h code s := rfl
theorem exec_twait (h : Hdr) (a : Src) (s : State) : exec (.twait h a) s = execTwait h a s := rfl
theorem exec_ovld (h : Hdr) (d : VReg) (o : OvSel) (s : State) : exec (.ovld h d o) s = execOvld h d o s := rfl
theorem exec_ovrel (h : Hdr) (o : OvSel) (s : State) : exec (.ovrel h o) s = execOvrel h o s := rfl
theorem exec_ovq (h : Hdr) (d : VReg) (o : OvSel) (s : State) : exec (.ovq h d o) s = execOvq h d o s := rfl
theorem exec_iadd (h : Hdr) (d : VReg) (a b : Src) (s : State) : exec (.iadd h d a b) s = execIadd h d a b s := rfl
theorem exec_isub (h : Hdr) (d : VReg) (a b : Src) (s : State) : exec (.isub h d a b) s = execIsub h d a b s := rfl
theorem exec_imul (h : Hdr) (d : VReg) (a b : Src) (s : State) : exec (.imul h d a b) s = execImul h d a b s := rfl
theorem exec_imulh (h : Hdr) (ns : Bool) (d : VReg) (a b : Src) (s : State) :
    exec (.imulh h ns d a b) s = execImulh h ns d a b s := rfl
theorem exec_imulw (h : Hdr) (ns : Bool) (d : VReg) (a b : Src) (s : State) :
    exec (.imulw h ns d a b) s = execImulw h ns d a b s := rfl
theorem exec_imad (h : Hdr) (ns : Bool) (d : VReg) (a b c : Src) (s : State) :
    exec (.imad h ns d a b c) s = execImad h ns d a b c s := rfl
theorem exec_imin (h : Hdr) (ns : Bool) (d : VReg) (a b : Src) (s : State) :
    exec (.imin h ns d a b) s = execImin h ns d a b s := rfl
theorem exec_imax (h : Hdr) (ns : Bool) (d : VReg) (a b : Src) (s : State) :
    exec (.imax h ns d a b) s = execImax h ns d a b s := rfl
theorem exec_iabs (h : Hdr) (d : VReg) (a : Src) (s : State) : exec (.iabs h d a) s = execIabs h d a s := rfl
theorem exec_iadds (h : Hdr) (ns : Bool) (d : VReg) (a b : Src) (s : State) :
    exec (.iadds h ns d a b) s = execIadds h ns d a b s := rfl
theorem exec_isubs (h : Hdr) (ns : Bool) (d : VReg) (a b : Src) (s : State) :
    exec (.isubs h ns d a b) s = execIsubs h ns d a b s := rfl
theorem exec_and (h : Hdr) (d : VReg) (a b : Src) (s : State) : exec (.and h d a b) s = execAnd h d a b s := rfl
theorem exec_or (h : Hdr) (d : VReg) (a b : Src) (s : State) : exec (.or h d a b) s = execOr h d a b s := rfl
theorem exec_xor (h : Hdr) (d : VReg) (a b : Src) (s : State) : exec (.xor h d a b) s = execXor h d a b s := rfl
theorem exec_andn (h : Hdr) (d : VReg) (a b : Src) (s : State) : exec (.andn h d a b) s = execAndn h d a b s := rfl
theorem exec_shl (h : Hdr) (d : VReg) (a b : Src) (s : State) : exec (.shl h d a b) s = execShl h d a b s := rfl
theorem exec_shr (h : Hdr) (d : VReg) (a b : Src) (s : State) : exec (.shr h d a b) s = execShr h d a b s := rfl
theorem exec_sar (h : Hdr) (d : VReg) (a b : Src) (s : State) : exec (.sar h d a b) s = execSar h d a b s := rfl
theorem exec_bfe (h : Hdr) (ns : Bool) (d : VReg) (a b : Src) (s : State) :
    exec (.bfe h ns d a b) s = execBfe h ns d a b s := rfl
theorem exec_bfi (h : Hdr) (d : VReg) (a b c : Src) (s : State) : exec (.bfi h d a b c) s = execBfi h d a b c s := rfl
theorem exec_popc (h : Hdr) (d : VReg) (a : Src) (s : State) : exec (.popc h d a) s = execPopc h d a s := rfl
theorem exec_clz (h : Hdr) (d : VReg) (a : Src) (s : State) : exec (.clz h d a) s = execClz h d a s := rfl
theorem exec_brev (h : Hdr) (d : VReg) (a : Src) (s : State) : exec (.brev h d a) s = execBrev h d a s := rfl
theorem exec_iadd64 (h : Hdr) (d : VReg) (a b : Src) (s : State) :
    exec (.iadd64 h d a b) s = execIadd64 h d a b s := rfl
theorem exec_isub64 (h : Hdr) (d : VReg) (a b : Src) (s : State) :
    exec (.isub64 h d a b) s = execIsub64 h d a b s := rfl
theorem exec_shl64 (h : Hdr) (d : VReg) (a b : Src) (s : State) : exec (.shl64 h d a b) s = execShl64 h d a b s := rfl
theorem exec_shr64 (h : Hdr) (d : VReg) (a b : Src) (s : State) : exec (.shr64 h d a b) s = execShr64 h d a b s := rfl
theorem exec_sar64 (h : Hdr) (d : VReg) (a b : Src) (s : State) : exec (.sar64 h d a b) s = execSar64 h d a b s := rfl
theorem exec_cmpi (h : Hdr) (ns : Bool) (cmp : Cmp) (comb : Comb) (d : PReg) (a b : Src) (s : State) :
    exec (.cmpi h ns cmp comb d a b) s = execCmpi h ns cmp comb d a b s := rfl
theorem exec_cmpf (h : Hdr) (ftz nan : Bool) (cmp : Cmp) (comb : Comb) (d : PReg) (a b : Src) (s : State) :
    exec (.cmpf h ftz nan cmp comb d a b) s = execCmpf h ftz nan cmp comb d a b s := rfl
theorem exec_cmpd (h : Hdr) (ftz nan : Bool) (cmp : Cmp) (comb : Comb) (d : PReg) (a b : Src) (s : State) :
    exec (.cmpd h ftz nan cmp comb d a b) s = execCmpd h ftz nan cmp comb d a b s := rfl
theorem exec_cmph (h : Hdr) (ftz nan : Bool) (cmp : Cmp) (comb : Comb) (d : PReg) (a b : Src) (s : State) :
    exec (.cmph h ftz nan cmp comb d a b) s = execCmph h ftz nan cmp comb d a b s := rfl
theorem exec_pfun (h : Hdr) (d a b c : PReg) (table : BitVec 8) (s : State) :
    exec (.pfun h d a b c table) s = execPfun h d a b c table s := rfl
theorem exec_sel (h : Hdr) (d : VReg) (a b : Src) (c : PReg) (s : State) :
    exec (.sel h d a b c) s = execSel h d a b c s := rfl
theorem exec_mov (h : Hdr) (d : VReg) (a : MovSrc) (s : State) : exec (.mov h d a) s = execMov h d a s := rfl
theorem exec_movi (h : Hdr) (d : VReg) (x : Word) (s : State) : exec (.movi h d x) s = execMovi h d x s := rfl
theorem exec_ptov (h : Hdr) (d : VReg) (s : State) : exec (.ptov h d) s = execPtov h d s := rfl
theorem exec_vtop (h : Hdr) (a b : Src) (s : State) : exec (.vtop h a b) s = execVtop h a b s := rfl
theorem exec_srd (h : Hdr) (d : VReg) (idx : BitVec 8) (s : State) : exec (.srd h d idx) s = execSrd h d idx s := rfl
theorem exec_swr (h : Hdr) (idx : BitVec 8) (a : RC) (s : State) : exec (.swr h idx a) s = execSwr h idx a s := rfl
theorem exec_ballot (h : Hdr) (mask : Word) (d : VReg) (a : PReg) (s : State) :
    exec (.ballot h mask d a) s = execBallot h mask d a s := rfl
theorem exec_vote (h : Hdr) (mask : Word) (op : VoteOp) (d : PReg) (a : PReg) (s : State) :
    exec (.vote h mask op d a) s = execVote h mask op d a s := rfl
theorem exec_shfl (h : Hdr) (mask : Word) (op : ShflOp) (d : VReg) (a : Src) (b : RC) (s : State) :
    exec (.shfl h mask op d a b) s = execShfl h mask op d a b s := rfl
theorem exec_wred (h : Hdr) (mask : Word) (op : WOp) (d : VReg) (a : Src) (s : State) :
    exec (.wred h mask op d a) s = execWred h mask op d a s := rfl
theorem exec_wscan (h : Hdr) (mask : Word) (op : WOp) (excl : Bool) (d : VReg) (a : Src) (s : State) :
    exec (.wscan h mask op excl d a) s = execWscan h mask op excl d a s := rfl
theorem exec_matchEq (h : Hdr) (mask : Word) (d : VReg) (a : Src) (s : State) :
    exec (.matchEq h mask d a) s = execMatchEq h mask d a s := rfl
theorem exec_wsync (h : Hdr) (mask : Word) (s : State) : exec (.wsync h mask) s = execWsync h mask s := rfl
theorem exec_fadd (h : Hdr) (m : FMod) (d : VReg) (a b : Src) (s : State) :
    exec (.fadd h m d a b) s = execFadd h m d a b s := rfl
theorem exec_fsub (h : Hdr) (m : FMod) (d : VReg) (a b : Src) (s : State) :
    exec (.fsub h m d a b) s = execFsub h m d a b s := rfl
theorem exec_fmul (h : Hdr) (m : FMod) (d : VReg) (a b : Src) (s : State) :
    exec (.fmul h m d a b) s = execFmul h m d a b s := rfl
theorem exec_ffma (h : Hdr) (m : FMod) (d : VReg) (a b c : Src) (s : State) :
    exec (.ffma h m d a b c) s = execFfma h m d a b c s := rfl
theorem exec_fmin (h : Hdr) (m : FMod) (d : VReg) (a b : Src) (s : State) :
    exec (.fmin h m d a b) s = execFmin h m d a b s := rfl
theorem exec_fmax (h : Hdr) (m : FMod) (d : VReg) (a b : Src) (s : State) :
    exec (.fmax h m d a b) s = execFmax h m d a b s := rfl
theorem exec_frcp (h : Hdr) (m : FMod) (d : VReg) (a : Src) (s : State) :
    exec (.frcp h m d a) s = execFrcp h m d a s := rfl
theorem exec_frsq (h : Hdr) (m : FMod) (d : VReg) (a : Src) (s : State) :
    exec (.frsq h m d a) s = execFrsq h m d a s := rfl
theorem exec_fsqrt (h : Hdr) (m : FMod) (d : VReg) (a : Src) (s : State) :
    exec (.fsqrt h m d a) s = execFsqrt h m d a s := rfl
theorem exec_fdiv (h : Hdr) (m : FMod) (d : VReg) (a b : Src) (s : State) :
    exec (.fdiv h m d a b) s = execFdiv h m d a b s := rfl
theorem exec_fexp2 (h : Hdr) (m : FMod) (d : VReg) (a : Src) (s : State) :
    exec (.fexp2 h m d a) s = execFexp2 h m d a s := rfl
theorem exec_flog2 (h : Hdr) (m : FMod) (d : VReg) (a : Src) (s : State) :
    exec (.flog2 h m d a) s = execFlog2 h m d a s := rfl
theorem exec_frnd (h : Hdr) (m : FMod) (d : VReg) (a : Src) (s : State) :
    exec (.frnd h m d a) s = execFrnd h m d a s := rfl
theorem exec_fcls (h : Hdr) (m : FMod) (d : VReg) (a : Src) (s : State) :
    exec (.fcls h m d a) s = execFcls h m d a s := rfl
theorem exec_dadd (h : Hdr) (m : FMod) (d : VReg) (a b : Src) (s : State) :
    exec (.dadd h m d a b) s = execDadd h m d a b s := rfl
theorem exec_dmul (h : Hdr) (m : FMod) (d : VReg) (a b : Src) (s : State) :
    exec (.dmul h m d a b) s = execDmul h m d a b s := rfl
theorem exec_dfma (h : Hdr) (m : FMod) (d : VReg) (a b c : Src) (s : State) :
    exec (.dfma h m d a b c) s = execDfma h m d a b c s := rfl
theorem exec_dmin (h : Hdr) (m : FMod) (d : VReg) (a b : Src) (s : State) :
    exec (.dmin h m d a b) s = execDmin h m d a b s := rfl
theorem exec_dmax (h : Hdr) (m : FMod) (d : VReg) (a b : Src) (s : State) :
    exec (.dmax h m d a b) s = execDmax h m d a b s := rfl
theorem exec_ddiv (h : Hdr) (m : FMod) (d : VReg) (a b : Src) (s : State) :
    exec (.ddiv h m d a b) s = execDdiv h m d a b s := rfl
theorem exec_dsqrt (h : Hdr) (m : FMod) (d : VReg) (a : Src) (s : State) :
    exec (.dsqrt h m d a) s = execDsqrt h m d a s := rfl
theorem exec_hadd2 (h : Hdr) (m : FMod) (d : VReg) (a b : Src) (s : State) :
    exec (.hadd2 h m d a b) s = execHadd2 h m d a b s := rfl
theorem exec_hmul2 (h : Hdr) (m : FMod) (d : VReg) (a b : Src) (s : State) :
    exec (.hmul2 h m d a b) s = execHmul2 h m d a b s := rfl
theorem exec_hfma2 (h : Hdr) (m : FMod) (d : VReg) (a b c : Src) (s : State) :
    exec (.hfma2 h m d a b c) s = execHfma2 h m d a b c s := rfl
theorem exec_hmin2 (h : Hdr) (m : FMod) (d : VReg) (a b : Src) (s : State) :
    exec (.hmin2 h m d a b) s = execHmin2 h m d a b s := rfl
theorem exec_hmax2 (h : Hdr) (m : FMod) (d : VReg) (a b : Src) (s : State) :
    exec (.hmax2 h m d a b) s = execHmax2 h m d a b s := rfl
theorem exec_badd2 (h : Hdr) (m : FMod) (d : VReg) (a b : Src) (s : State) :
    exec (.badd2 h m d a b) s = execBadd2 h m d a b s := rfl
theorem exec_bmul2 (h : Hdr) (m : FMod) (d : VReg) (a b : Src) (s : State) :
    exec (.bmul2 h m d a b) s = execBmul2 h m d a b s := rfl
theorem exec_bfma2 (h : Hdr) (m : FMod) (d : VReg) (a b c : Src) (s : State) :
    exec (.bfma2 h m d a b c) s = execBfma2 h m d a b c s := rfl
theorem exec_bmin2 (h : Hdr) (m : FMod) (d : VReg) (a b : Src) (s : State) :
    exec (.bmin2 h m d a b) s = execBmin2 h m d a b s := rfl
theorem exec_bmax2 (h : Hdr) (m : FMod) (d : VReg) (a b : Src) (s : State) :
    exec (.bmax2 h m d a b) s = execBmax2 h m d a b s := rfl
theorem exec_cvt (h : Hdr) (m : FMod) (dfmt sfmt : Fmt) (su du : Bool) (d : VReg) (a : Src) (s : State) :
    exec (.cvt h m dfmt sfmt su du d a) s = execCvt h m dfmt sfmt su du d a s := rfl
theorem exec_cvt2 (h : Hdr) (m : FMod) (dfmt sfmt : Fmt) (d : VReg) (a b : Src) (s : State) :
    exec (.cvt2 h m dfmt sfmt d a b) s = execCvt2 h m dfmt sfmt d a b s := rfl
theorem exec_qe4 (h : Hdr) (m : FMod) (d : VReg) (a : VReg) (b : Src) (s : State) :
    exec (.qe4 h m d a b) s = execQe4 h m d a b s := rfl
theorem exec_qe2 (h : Hdr) (m : FMod) (hi : Bool) (d : VReg) (a : VReg) (b c : Src) (s : State) :
    exec (.qe2 h m hi d a b c) s = execQe2 h m hi d a b c s := rfl
theorem exec_dq (h : Hdr) (m : FMod) (dfmt sfmt : Fmt) (el : BitVec 3) (d : VReg) (a b : Src) (s : State) :
    exec (.dq h m dfmt sfmt el d a b) s = execDq h m dfmt sfmt el d a b s := rfl
theorem exec_bscale (h : Hdr) (fmt : Fmt) (spec : BitVec 5) (d : VReg) (a : Src) (s : State) :
    exec (.bscale h fmt spec d a) s = execBscale h fmt spec d a s := rfl
theorem exec_ld (h : Hdr) (m : LdMod) (d : VReg) (x : CapAddr) (s : State) :
    exec (.ld h m d x) s = execLd h m d x s := rfl
theorem exec_st (h : Hdr) (m : StMod) (x : CapAddr) (c : RC) (s : State) :
    exec (.st h m x c) s = execSt h m x c s := rfl
theorem exec_ldl (h : Hdr) (m : LdMod) (d : VReg) (x : LocAddr) (s : State) :
    exec (.ldl h m d x) s = execLdl h m d x s := rfl
theorem exec_stl (h : Hdr) (m : StMod) (x : LocAddr) (c : RC) (s : State) :
    exec (.stl h m x c) s = execStl h m x c s := rfl
theorem exec_lda (h : Hdr) (wid : Wid) (d : VReg) (x : LocAddr) (s : State) :
    exec (.lda h wid d x) s = execLda h wid d x s := rfl
theorem exec_sta (h : Hdr) (wid : Wid) (x : LocAddr) (c : RC) (s : State) :
    exec (.sta h wid x c) s = execSta h wid x c s := rfl
theorem exec_ldage (h : Hdr) (d : VReg) (x : CapAddr) (s : State) : exec (.ldage h d x) s = execLdage h d x s := rfl
theorem exec_ldc (h : Hdr) (d : AReg) (x : CapAddr) (s : State) : exec (.ldc h d x) s = execLdc h d x s := rfl
theorem exec_stc (h : Hdr) (x : CapAddr) (c : AReg) (s : State) : exec (.stc h x c) s = execStc h x c s := rfl
theorem exec_prf (h : Hdr) (x : CapAddr) (s : State) : exec (.prf h x) s = execPrf h x s := rfl
theorem exec_cst (h : Hdr) (m : StMod) (x : CapAddr) (c : RC) (mask : VReg) (s : State) :
    exec (.cst h m x c mask) s = execCst h m x c mask s := rfl
theorem exec_xld (h : Hdr) (m : LdMod) (d : VReg) (x : CapAddr) (mask : VReg) (s : State) :
    exec (.xld h m d x mask) s = execXld h m d x mask s := rfl
theorem exec_capoff (h : Hdr) (d a : AReg) (b : Src) (s : State) :
    exec (.capoff h d a b) s = execCapoff h d a b s := rfl
theorem exec_capadd (h : Hdr) (d a : AReg) (b : Src) (s : State) :
    exec (.capadd h d a b) s = execCapadd h d a b s := rfl
theorem exec_capnar (h : Hdr) (d a : AReg) (b : Src) (s : State) :
    exec (.capnar h d a b) s = execCapnar h d a b s := rfl
theorem exec_caprgt (h : Hdr) (d a : AReg) (b : Src) (s : State) :
    exec (.caprgt h d a b) s = execCaprgt h d a b s := rfl
theorem exec_capget (h : Hdr) (fld : BitVec 3) (d : VReg) (a : AReg) (s : State) :
    exec (.capget h fld d a) s = execCapget h fld d a s := rfl
theorem exec_capchk (h : Hdr) (d : PReg) (a : AReg) (b : Src) (s : State) :
    exec (.capchk h d a b) s = execCapchk h d a b s := rfl
theorem exec_capmov (h : Hdr) (d a : AReg) (s : State) : exec (.capmov h d a) s = execCapmov h d a s := rfl
theorem exec_atom (h : Hdr) (m : AtMod) (d : Option VReg) (x : CapAddr) (c : RC) (s : State) :
    exec (.atom h m d x c) s = execAtom h m d x c s := rfl
theorem exec_atomf (h : Hdr) (m : AtMod) (d : VReg) (x : CapAddr) (c : RC) (s : State) :
    exec (.atomf h m d x c) s = execAtomf h m d x c s := rfl
theorem exec_cas (h : Hdr) (wid : Wid) (ord : AOrd) (d : VReg) (x : CapAddr) (c : RC) (s : State) :
    exec (.cas h wid ord d x c) s = execCas h wid ord d x c s := rfl
theorem exec_cas128 (h : Hdr) (ord : AOrd) (d : VReg) (x : CapAddr) (c : VReg) (s : State) :
    exec (.cas128 h ord d x c) s = execCas128 h ord d x c s := rfl
theorem exec_red (h : Hdr) (m : AtMod) (x : CapAddr) (c : RC) (s : State) :
    exec (.red h m x c) s = execRed h m x c s := rfl
theorem exec_redf (h : Hdr) (m : AtMod) (x : CapAddr) (c : RC) (s : State) :
    exec (.redf h m x c) s = execRedf h m x c s := rfl
theorem exec_atoml (h : Hdr) (m : AtMod) (d : VReg) (x : LocAddr) (c : RC) (s : State) :
    exec (.atoml h m d x c) s = execAtoml h m d x c s := rfl
theorem exec_casl (h : Hdr) (wid : Wid) (ord : AOrd) (d : VReg) (x : LocAddr) (c : RC) (s : State) :
    exec (.casl h wid ord d x c) s = execCasl h wid ord d x c s := rfl
theorem exec_commitT (h : Hdr) (d : VReg) (s : State) : exec (.commitT h d) s = execCommitT h d s := rfl
theorem exec_commitB (h : Hdr) (d : VReg) (s : State) : exec (.commitB h d) s = execCommitB h d s := rfl
theorem exec_commitG (h : Hdr) (d : VReg) (s : State) : exec (.commitG h d) s = execCommitG h d s := rfl
theorem exec_commitP (h : Hdr) (d : VReg) (group : BitVec 16) (s : State) :
    exec (.commitP h d group) s = execCommitP h d group s := rfl
theorem exec_dage (h : Hdr) (x : CapAddr) (c : Src) (s : State) : exec (.dage h x c) s = execDage h x c s := rfl
theorem exec_stepinc (h : Hdr) (d : Option VReg) (s : State) : exec (.stepinc h d) s = execStepinc h d s := rfl
theorem exec_dqry (h : Hdr) (d : VReg) (s : State) : exec (.dqry h d) s = execDqry h d s := rfl
theorem exec_cpy (h : Hdr) (t : VReg) (dst src : CpySide) (cnt : VReg) (rsc : Scope) (s : State) :
    exec (.cpy h t dst src cnt rsc) s = execCpy h t dst src cnt rsc s := rfl
theorem exec_cpyRing (h : Hdr) (t ring : VReg) (scap : AReg) (soff cnt : VReg) (rsc : Scope) (s : State) :
    exec (.cpyRing h t ring scap soff cnt rsc) s = execCpyRing h t ring scap soff cnt rsc s := rfl
theorem exec_cpyg (h : Hdr) (t : VReg) (dst : CpySide) (scap : AReg) (soff idx cnt : VReg) (esz : BitVec 4) (rsc : Scope) (s : State) :
    exec (.cpyg h t dst scap soff idx cnt esz rsc) s = execCpyg h t dst scap soff idx cnt esz rsc s := rfl
theorem exec_cpys (h : Hdr) (t : VReg) (comb : Option CopOp) (dcap : AReg) (doff : VReg) (src : CpySide) (idx cnt : VReg) (esz : BitVec 4) (rsc : Scope) (s : State) :
    exec (.cpys h t comb dcap doff src idx cnt esz rsc) s = execCpys h t comb dcap doff src idx cnt esz rsc s := rfl
theorem exec_cpyq (h : Hdr) (t : VReg) (a : AReg) (q p : VReg) (s : State) :
    exec (.cpyq h t a q p) s = execCpyq h t a q p s := rfl
theorem exec_rinit (h : Hdr) (x : LocAddr) (c : VReg) (s : State) : exec (.rinit h x c) s = execRinit h x c s := rfl
theorem exec_rres (h : Hdr) (d : VReg) (x : LocAddr) (s : State) : exec (.rres h d x) s = execRres h d x s := rfl
theorem exec_rpub (h : Hdr) (x : LocAddr) (c : VReg) (s : State) : exec (.rpub h x c) s = execRpub h x c s := rfl
theorem exec_rwait (h : Hdr) (d : VReg) (x : LocAddr) (s : State) : exec (.rwait h d x) s = execRwait h d x s := rfl
theorem exec_rrel (h : Hdr) (x : LocAddr) (c : VReg) (s : State) : exec (.rrel h x c) s = execRrel h x c s := rfl
theorem exec_binit (h : Hdr) (x : LocAddr) (c : VReg) (s : State) : exec (.binit h x c) s = execBinit h x c s := rfl
theorem exec_barv (h : Hdr) (d : Option VReg) (x : LocAddr) (s : State) :
    exec (.barv h d x) s = execBarv h d x s := rfl
theorem exec_bwait (h : Hdr) (x : LocAddr) (c : VReg) (s : State) : exec (.bwait h x c) s = execBwait h x c s := rfl
theorem exec_barw (h : Hdr) (d : Option VReg) (x : LocAddr) (s : State) :
    exec (.barw h d x) s = execBarw h d x s := rfl
theorem exec_fence (h : Hdr) (kind : FenceKind) (scope : Scope) (s : State) :
    exec (.fence h kind scope) s = execFence h kind scope s := rfl
theorem exec_grow (h : Hdr) (d : VReg) (a : Src) (s : State) : exec (.grow h d a) s = execGrow h d a s := rfl
theorem exec_mma (h : Hdr) (fmt : Fmt) (prec : BitVec 4) (o : QOps) (s : State) :
    exec (.mma h fmt prec o) s = execMma h fmt prec o s := rfl
theorem exec_mmb (h : Hdr) (fmt : Fmt) (prec : BitVec 4) (o : QOps) (s : State) :
    exec (.mmb h fmt prec o) s = execMmb h fmt prec o s := rfl
theorem exec_mscale (h : Hdr) (fmt : Fmt) (sa sb : BitVec 2) (o : QOps) (s : State) :
    exec (.mscale h fmt sa sb o) s = execMscale h fmt sa sb o s := rfl
theorem exec_mwait (h : Hdr) (d : Option VReg) (q : QReg) (s : State) :
    exec (.mwait h d q) s = execMwait h d q s := rfl
theorem exec_plane (h : Hdr) (fmt : Fmt) (tr : Bool) (sg : BitVec 2) (q : QReg) (a b mask : VReg) (s : State) :
    exec (.plane h fmt tr sg q a b mask) s = execPlane h fmt tr sg q a b mask s := rfl
theorem exec_azero (h : Hdr) (p64 : Bool) (q : QReg) (a mask : VReg) (s : State) :
    exec (.azero h p64 q a mask) s = execAzero h p64 q a mask s := rfl
theorem exec_acvt (h : Hdr) (fmt : Fmt) (sg : BitVec 2) (q : QReg) (a b mask : VReg) (s : State) :
    exec (.acvt h fmt sg q a b mask) s = execAcvt h fmt sg q a b mask s := rfl
theorem exec_amovOut (h : Hdr) (p64 : Bool) (q : QReg) (a b mask : VReg) (s : State) :
    exec (.amovOut h p64 q a b mask) s = execAmovOut h p64 q a b mask s := rfl
theorem exec_amovIn (h : Hdr) (p64 : Bool) (q : QReg) (a b mask : VReg) (s : State) :
    exec (.amovIn h p64 q a b mask) s = execAmovIn h p64 q a b mask s := rfl
theorem exec_fenceo (h : Hdr) (s : State) : exec (.fenceo h) s = execFenceo h s := rfl
theorem exec_bld (h : Hdr) (fmt : Fmt) (sg : BitVec 2) (d : VReg) (x : LocAddr) (s : State) :
    exec (.bld h fmt sg d x) s = execBld h fmt sg d x s := rfl
theorem exec_eret (h : Hdr) (s : State) : exec (.eret h) s = execEret h s := rfl
theorem exec_eretSkip (h : Hdr) (s : State) : exec (.eretSkip h) s = execEretSkip h s := rfl
theorem exec_tinfo (h : Hdr) (word : BitVec 3) (d : VReg) (s : State) :
    exec (.tinfo h word d) s = execTinfo h word d s := rfl
theorem exec_udf (raw : IWord) (s : State) : exec (.udf raw) s = execUdf raw s := rfl
theorem exec_regroup (part : Nat) (s : State) : exec (.regroup part) s = execRegroup part s := rfl
theorem exec_threadAged (t : ThreadId) (s : State) : exec (.threadAged t) s = execThreadAged t s := rfl
theorem exec_yieldExpiry (t : ThreadId) (s : State) : exec (.yieldExpiry t) s = execYieldExpiry t s := rfl
theorem exec_loadResultLand (t : ThreadId) (k : Nat) (s : State) :
    exec (.loadResultLand t k) s = execLoadResultLand t k s := rfl
theorem exec_xpipeComplete (t : ThreadId) (k : Nat) (s : State) :
    exec (.xpipeComplete t k) s = execXpipeComplete t k s := rfl
theorem exec_overlayLoadComplete (core k : Nat) (s : State) :
    exec (.overlayLoadComplete core k) s = execOverlayLoadComplete core k s := rfl
theorem exec_overlayRoomWaitEnd (core : Nat) (s : State) :
    exec (.overlayRoomWaitEnd core) s = execOverlayRoomWaitEnd core s := rfl
theorem exec_copyChunkPart (engine req chunk : Nat) (s : State) :
    exec (.copyChunkPart engine req chunk) s = execCopyChunkPart engine req chunk s := rfl
theorem exec_copyComplete (engine req : Nat) (s : State) :
    exec (.copyComplete engine req) s = execCopyComplete engine req s := rfl
theorem exec_matrixOpStart (slot wave : Nat) (q : QReg) (s : State) :
    exec (.matrixOpStart slot wave q) s = execMatrixOpStart slot wave q s := rfl
theorem exec_matrixOpComplete (slot wave : Nat) (q : QReg) (s : State) :
    exec (.matrixOpComplete slot wave q) s = execMatrixOpComplete slot wave q s := rfl
theorem exec_faultRecordPost (cluster k : Nat) (s : State) :
    exec (.faultRecordPost cluster k) s = execFaultRecordPost cluster k s := rfl
theorem exec_faultResume (t : ThreadId) (s : State) : exec (.faultResume t) s = execFaultResume t s := rfl
theorem exec_stgfullTimeout (t : ThreadId) (s : State) : exec (.stgfullTimeout t) s = execStgfullTimeout t s := rfl
theorem exec_stagingRoomFreed (t : ThreadId) (s : State) :
    exec (.stagingRoomFreed t) s = execStagingRoomFreed t s := rfl
theorem exec_markerForm (commit : Nat) (s : State) : exec (.markerForm commit) s = execMarkerForm commit s := rfl
theorem exec_logDrain (core k : Nat) (s : State) : exec (.logDrain core k) s = execLogDrain core k s := rfl
theorem exec_slotBindingNotice (die slot : Nat) (unbind : Bool) (s : State) :
    exec (.slotBindingNotice die slot unbind) s = execSlotBindingNotice die slot unbind s := rfl
theorem exec_binShip (die path : Nat) (s : State) : exec (.binShip die path) s = execBinShip die path s := rfl
theorem exec_remoteRebin (die : Nat) (bin : RemoteBin) (s : State) :
    exec (.remoteRebin die bin) s = execRemoteRebin die bin s := rfl
theorem exec_binStage (chan k stack : Nat) (s : State) :
    exec (.binStage chan k stack) s = execBinStage chan k stack s := rfl
theorem exec_markerApply (commit chan : Nat) (s : State) :
    exec (.markerApply commit chan) s = execMarkerApply commit chan s := rfl
theorem exec_commitComplete (commit : Nat) (s : State) :
    exec (.commitComplete commit) s = execCommitComplete commit s := rfl
theorem exec_packetFetch (queue : Nat) (argObj : BitVec 24) (s : State) :
    exec (.packetFetch queue argObj) s = execPacketFetch queue argObj s := rfl
theorem exec_launchStart (launch lnum : Nat) (s : State) :
    exec (.launchStart launch lnum) s = execLaunchStart launch lnum s := rfl
theorem exec_dispatchPass (launch : Nat) (pl : List Placement) (s : State) :
    exec (.dispatchPass launch pl) s = execDispatchPass launch pl s := rfl
theorem exec_reserving (launch : Nat) (s : State) : exec (.reserving launch) s = execReserving launch s := rfl
theorem exec_blockStart (slot : Nat) (s : State) : exec (.blockStart slot) s = execBlockStart slot s := rfl
theorem exec_fatalTrapEnd (launch : Nat) (s : State) :
    exec (.fatalTrapEnd launch) s = execFatalTrapEnd launch s := rfl
theorem exec_launchComplete (launch : Nat) (s : State) :
    exec (.launchComplete launch) s = execLaunchComplete launch s := rfl
theorem exec_doorbellLaunchQueue (fn k : Nat) (x : BitVec 64) (s : State) :
    exec (.doorbellLaunchQueue fn k x) s = execDoorbellLaunchQueue fn k x s := rfl
theorem exec_doorbellBulkQueue (fn k : Nat) (x : BitVec 64) (s : State) :
    exec (.doorbellBulkQueue fn k x) s = execDoorbellBulkQueue fn k x s := rfl
theorem exec_doorbellFaultQueue (fn k : Nat) (x : BitVec 64) (s : State) :
    exec (.doorbellFaultQueue fn k x) s = execDoorbellFaultQueue fn k x s := rfl
theorem exec_doorbellUnbound (fn k : Nat) (x : BitVec 64) (s : State) :
    exec (.doorbellUnbound fn k x) s = execDoorbellUnbound fn k x s := rfl
theorem exec_registerBulkQueue (r : Req) (x : BulkReg) (s : State) :
    exec (.registerBulkQueue r x) s = execRegisterBulkQueue r x s := rfl
theorem exec_registerStorageWindow (r : Req) (x : StorageReg) (s : State) :
    exec (.registerStorageWindow r x) s = execRegisterStorageWindow r x s := rfl
theorem exec_fillApertureWindow (r : Req) (k obj off : Nat) (s : State) :
    exec (.fillApertureWindow r k obj off) s = execFillApertureWindow r k obj off s := rfl
theorem exec_registerPodGroup (r : Req) (group : Nat) (members : List Nat) (s : State) :
    exec (.registerPodGroup r group members) s = execRegisterPodGroup r group members s := rfl
theorem exec_registerBucket (r : Req) (x : BucketReg) (s : State) :
    exec (.registerBucket r x) s = execRegisterBucket r x s := rfl
theorem exec_resolve (r : Req) (obj page : Nat) (s : State) :
    exec (.resolve r obj page) s = execResolve r obj page s := rfl
theorem exec_mintCapability (r : Req) (x : MintReg) (s : State) :
    exec (.mintCapability r x) s = execMintCapability r x s := rfl
theorem exec_publishVersion (r : Req) (x : PublishReg) (s : State) :
    exec (.publishVersion r x) s = execPublishVersion r x s := rfl
theorem exec_registerFaultQueue (r : Req) (addr logn : Nat) (s : State) :
    exec (.registerFaultQueue r addr logn) s = execRegisterFaultQueue r addr logn s := rfl
theorem exec_registerLaunchQueue (r : Req) (addr logn : Nat) (s : State) :
    exec (.registerLaunchQueue r addr logn) s = execRegisterLaunchQueue r addr logn s := rfl
theorem exec_mailboxRefused (r : Req) (code : BitVec 8) (s : State) :
    exec (.mailboxRefused r code) s = execMailboxRefused r code s := rfl
theorem exec_bulkPacketFetch (queue : Nat) (s : State) :
    exec (.bulkPacketFetch queue) s = execBulkPacketFetch queue s := rfl
theorem exec_bulkPacketComplete (engine req : Nat) (s : State) :
    exec (.bulkPacketComplete engine req) s = execBulkPacketComplete engine req s := rfl
theorem exec_hostApertureRead (fn win off n : Nat) (s : State) :
    exec (.hostApertureRead fn win off n) s = execHostApertureRead fn win off n s := rfl
theorem exec_hostApertureWrite (fn win off : Nat) (bytes : List (BitVec 8)) (s : State) :
    exec (.hostApertureWrite fn win off bytes) s = execHostApertureWrite fn win off bytes s := rfl
theorem exec_hostReadTimeout (k : Nat) (s : State) : exec (.hostReadTimeout k) s = execHostReadTimeout k s := rfl
theorem exec_storageWindowWrite (fn off : Nat) (bytes : List (BitVec 8)) (s : State) :
    exec (.storageWindowWrite fn off bytes) s = execStorageWindowWrite fn off bytes s := rfl
theorem exec_storageWindowRead (fn off n : Nat) (s : State) :
    exec (.storageWindowRead fn off n) s = execStorageWindowRead fn off n s := rfl
theorem exec_flitReceive (port : Nat) (flit : BitVec 2048) (s : State) :
    exec (.flitReceive port flit) s = execFlitReceive port flit s := rfl
theorem exec_flitRetransmit (port : Nat) (s : State) :
    exec (.flitRetransmit port) s = execFlitRetransmit port s := rfl
theorem exec_linkDown (port : Nat) (routes : List (Nat × Nat)) (s : State) :
    exec (.linkDown port routes) s = execLinkDown port routes s := rfl
theorem exec_heartbeatSend (group : Nat) (s : State) :
    exec (.heartbeatSend group) s = execHeartbeatSend group s := rfl
theorem exec_memberFailed (group dev : Nat) (s : State) :
    exec (.memberFailed group dev) s = execMemberFailed group dev s := rfl
theorem exec_bucketStep (bucket : Nat) (s : State) : exec (.bucketStep bucket) s = execBucketStep bucket s := rfl
theorem exec_bucketExchangeStart (bucket : Nat) (s : State) :
    exec (.bucketExchangeStart bucket) s = execBucketExchangeStart bucket s := rfl
theorem exec_bucketExchangeDone (bucket : Nat) (parts : List (Nat × List (BitVec 8))) (s : State) :
    exec (.bucketExchangeDone bucket parts) s = execBucketExchangeDone bucket parts s := rfl
theorem exec_invalidation (ctx : Nat) (e : TableEdit) (s : State) :
    exec (.invalidation ctx e) s = execInvalidation ctx e s := rfl
theorem exec_migration (ctx obj page newFrame : Nat) (s : State) :
    exec (.migration ctx obj page newFrame) s = execMigration ctx obj page newFrame s := rfl
theorem exec_refreshWindow (die : Nat) (s : State) : exec (.refreshWindow die) s = execRefreshWindow die s := rfl
theorem exec_refreshWindowEnd (die : Nat) (s : State) :
    exec (.refreshWindowEnd die) s = execRefreshWindowEnd die s := rfl
theorem exec_preemptRequest (ctx : Nat) (clusters : List Nat) (s : State) :
    exec (.preemptRequest ctx clusters) s = execPreemptRequest ctx clusters s := rfl
theorem exec_runonExpiry (t : ThreadId) (s : State) : exec (.runonExpiry t) s = execRunonExpiry t s := rfl
theorem exec_blockSave (slot : Nat) (s : State) : exec (.blockSave slot) s = execBlockSave slot s := rfl
theorem exec_contextSwitch (cluster : Nat) (ctx : Option Nat) (s : State) :
    exec (.contextSwitch cluster ctx) s = execContextSwitch cluster ctx s := rfl
theorem exec_ptimeout (ctx : Nat) (s : State) : exec (.ptimeout ctx) s = execPtimeout ctx s := rfl
theorem exec_swapOut (slot : Nat) (s : State) : exec (.swapOut slot) s = execSwapOut slot s := rfl
theorem exec_swapAbandon (slot : Nat) (s : State) : exec (.swapAbandon slot) s = execSwapAbandon slot s := rfl
theorem exec_blockResume (slot cluster : Nat) (s : State) :
    exec (.blockResume slot cluster) s = execBlockResume slot cluster s := rfl
theorem exec_hang (ctx : Nat) (s : State) : exec (.hang ctx) s = execHang ctx s := rfl
theorem exec_contextCreate (ctx : Nat) (x : CtxNew) (s : State) :
    exec (.contextCreate ctx x) s = execContextCreate ctx x s := rfl
theorem exec_contextDestroy (ctx : Nat) (s : State) : exec (.contextDestroy ctx) s = execContextDestroy ctx s := rfl
theorem exec_queueRemove (kind : QueueKind) (queue : Nat) (s : State) :
    exec (.queueRemove kind queue) s = execQueueRemove kind queue s := rfl
theorem exec_overlayRegister (ctx : Nat) (x : OverlayReg) (s : State) :
    exec (.overlayRegister ctx x) s = execOverlayRegister ctx x s := rfl
theorem exec_launchReplay (launch : Nat) (s : State) :
    exec (.launchReplay launch) s = execLaunchReplay launch s := rfl
theorem exec_timingReplay (part : Nat) (s : State) : exec (.timingReplay part) s = execTimingReplay part s := rfl
theorem exec_patrolScrub (addr : Nat) (s : State) : exec (.patrolScrub addr) s = execPatrolScrub addr s := rfl
theorem exec_deviceReset (s : State) : exec (.deviceReset) s = execDeviceReset s := rfl
theorem exec_firmwareBoot (image sig : List (BitVec 8)) (version : Nat) (s : State) :
    exec (.firmwareBoot image sig version) s = execFirmwareBoot image sig version s := rfl
theorem exec_powerLimit (code : BitVec 8) (reading gate : Nat) (s : State) :
    exec (.powerLimit code reading gate) s = execPowerLimit code reading gate s := rfl
theorem exec_thermalThrottle (reading gate : Nat) (s : State) :
    exec (.thermalThrottle reading gate) s = execThermalThrottle reading gate s := rfl
theorem exec_thermalTrip (reading : Nat) (s : State) :
    exec (.thermalTrip reading) s = execThermalTrip reading s := rfl
theorem exec_tripResetTimeout (s : State) : exec (.tripResetTimeout) s = execTripResetTimeout s := rfl
theorem exec_readEventLog (r : Req) (index : Nat) (s : State) :
    exec (.readEventLog r index) s = execReadEventLog r index s := rfl
theorem exec_readSensors (r : Req) (s : State) : exec (.readSensors r) s = execReadSensors r s := rfl
theorem exec_setPlim (r : Req) (mW : Nat) (s : State) : exec (.setPlim r mW) s = execSetPlim r mW s := rfl
theorem exec_importKey (r : Req) (slot kind : Nat) (wrapped : List (BitVec 8)) (s : State) :
    exec (.importKey r slot kind wrapped) s = execImportKey r slot kind wrapped s := rfl
theorem exec_zeroKeySlot (r : Req) (slot : Nat) (s : State) :
    exec (.zeroKeySlot r slot) s = execZeroKeySlot r slot s := rfl
theorem exec_attestationReport (r : Req) (nonce : BitVec 256) (s : State) :
    exec (.attestationReport r nonce) s = execAttestationReport r nonce s := rfl
theorem exec_writeConfigRecord (r : Req) (x : ConfigRecord) (s : State) :
    exec (.writeConfigRecord r x) s = execWriteConfigRecord r x s := rfl
theorem exec_sealRange (r : Req) (obj off nchunk skey mkey dstObj dstOff : Nat) (imageId : BitVec 64) (s : State) :
    exec (.sealRange r obj off nchunk skey mkey dstObj dstOff imageId) s = execSealRange r obj off nchunk skey mkey dstObj dstOff imageId s := rfl
theorem exec_rebaseStamps (r : Req) (obj off len : Nat) (sstep : BitVec 16) (s : State) :
    exec (.rebaseStamps r obj off len sstep) s = execRebaseStamps r obj off len sstep s := rfl
theorem exec_laneSelfTest (r : Req) (cluster : Nat) (s : State) :
    exec (.laneSelfTest r cluster) s = execLaneSelfTest r cluster s := rfl
theorem exec_readRepairMap (r : Req) (s : State) : exec (.readRepairMap r) s = execReadRepairMap r s := rfl
theorem exec_readStaging (r : Req) (s : State) : exec (.readStaging r) s = execReadStaging r s := rfl
theorem exec_managementRefused (r : Req) (code : BitVec 8) (s : State) :
    exec (.managementRefused r code) s = execManagementRefused r code s := rfl
theorem exec_throttleRelease (reading : Nat) (s : State) :
    exec (.throttleRelease reading) s = execThrottleRelease reading s := rfl
theorem exec_correctedErrorEvent (count store : Nat) (s : State) :
    exec (.correctedErrorEvent count store) s = execCorrectedErrorEvent count store s := rfl
theorem exec_contextRecordUpdate (ctx : Nat) (p : CtxParam) (s : State) :
    exec (.contextRecordUpdate ctx p) s = execContextRecordUpdate ctx p s := rfl

end Sys2Proof.Machine
end

