-- ==== Sys2Proof/Laws/Mem.lean ====
section
/-! SUPPORT. Laws of memory and keyed lists: a read after a write, other places left alone, and the canonical form kept
by every operation. -/

namespace Sys2Proof.Machine

open Sys2Proof

/-! ### The canonical form, entry by entry -/

theorem Memory.wfFrom_cons (lo : Option Nat) (k : Nat) (v : Byte) (m : Memory) :
    Memory.wfFrom lo ((k, v) :: m) = true ↔
      (∀ l, lo = some l → l < k) ∧ v ≠ unlisted ∧ Memory.wfFrom (some k) m = true := by
  cases lo <;> simp [Memory.wfFrom, and_assoc]

theorem Memory.wfFrom_weaken {k : Nat} {m : Memory} (h : Memory.wfFrom (some k) m = true) (lo : Option Nat)
    (hlo : ∀ l, lo = some l → l ≤ k) : Memory.wfFrom lo m = true := by
  cases m with
  | nil => rfl
  | cons p m =>
    obtain ⟨a, v⟩ := p
    rw [Memory.wfFrom_cons] at h ⊢
    refine ⟨fun l hl => lt_of_le_of_lt (hlo l hl) (h.1 k rfl), h.2⟩

/-- Addresses below the first entry read as unlisted. -/
theorem Memory.read_below {k : Nat} {m : Memory} (h : Memory.wfFrom (some k) m = true) {a : Nat} (ha : a ≤ k) :
    Memory.read m a = unlisted := by
  cases m with
  | nil => rfl
  | cons p m =>
    obtain ⟨b, v⟩ := p
    have hb := ((Memory.wfFrom_cons _ _ _ _).mp h).1 k rfl
    simp only [Memory.read]
    rw [if_neg (by omega), if_pos (by omega)]

/-! ### One byte -/

theorem Memory.write_wfFrom (b : Byte) (a : Nat) : ∀ (m : Memory) (lo : Option Nat), Memory.wfFrom lo m = true →
    (∀ l, lo = some l → l < a) → Memory.wfFrom lo (m.write a b) = true
  | [], lo, _, hlo => by
    simp only [Memory.write]
    split
    · rfl
    · rw [Memory.wfFrom_cons]; exact ⟨hlo, by assumption, rfl⟩
  | (k, v) :: m, lo, h, hlo => by
    have hk := (Memory.wfFrom_cons _ _ _ _).mp h
    simp only [Memory.write]
    split
    · split
      · exact h
      · rw [Memory.wfFrom_cons]
        refine ⟨hlo, by assumption, ?_⟩
        rw [Memory.wfFrom_cons]
        exact ⟨by intro l hl; cases hl; assumption, hk.2⟩
    · split
      · split
        · exact Memory.wfFrom_weaken hk.2.2 lo (fun l hl => by have := hk.1 l hl; omega)
        · rw [Memory.wfFrom_cons]; subst_vars; exact ⟨hlo, by assumption, hk.2.2⟩
      · rw [Memory.wfFrom_cons]
        exact ⟨hk.1, hk.2.1, Memory.write_wfFrom b a m (some k) hk.2.2 (by intro l hl; cases hl; omega)⟩

/-- A write of one byte keeps the canonical form. -/
theorem Memory.write_wf {m : Memory} (h : m.wf = true) (a : Nat) (b : Byte) : (m.write a b).wf = true :=
  Memory.write_wfFrom b a m none h (by simp)

theorem Memory.read_write_from (b : Byte) (a c : Nat) : ∀ (m : Memory) (lo : Option Nat),
    Memory.wfFrom lo m = true → Memory.read (m.write a b) c = if c = a then b else Memory.read m c
  | [], _, _ => by
    simp only [Memory.write, Memory.read]
    split <;> split <;> simp_all [Memory.read]
  | (k, v) :: m, lo, h => by
    have hk := (Memory.wfFrom_cons _ _ _ _).mp h
    have ih := Memory.read_write_from b a c m (some k) hk.2.2
    have hb : ∀ x, x ≤ k → Memory.read m x = unlisted := fun x hx => Memory.read_below hk.2.2 hx
    simp only [Memory.write]
    split
    · split
      · by_cases hc : c = a
        · subst hc; rw [if_pos rfl]; simp only [Memory.read]; rw [if_neg (by omega), if_pos (by omega)]; simp [*]
        · rw [if_neg hc]
      · by_cases hc : c = a
        · subst hc; simp [Memory.read]
        · rw [if_neg hc, Memory.read, if_neg hc]
          split
          · rw [Memory.read, if_neg (by omega), if_pos (by omega)]
          · rfl
    · split
      · rename_i _ hak
        subst hak
        split
        · rw [Memory.read]
          by_cases hc : c = a
          · subst hc; rw [if_pos rfl, hb c le_rfl]; simp [*]
          · rw [if_neg hc, if_neg hc]
            split
            · exact hb c (by omega)
            · rfl
        · simp only [Memory.read]; split <;> simp_all
      · simp only [Memory.read]
        by_cases hck : c = k
        · subst hck; rw [if_pos rfl, if_pos rfl, if_neg (by omega)]
        · rw [if_neg hck, if_neg hck]
          split
          · rw [if_neg (by omega)]
          · exact ih

/-- The byte written is read back, and every other address reads as before. -/
theorem Memory.read_write {m : Memory} (h : m.wf = true) (a c : Nat) (b : Byte) :
    Memory.read (m.write a b) c = if c = a then b else Memory.read m c :=
  Memory.read_write_from b a c m none h

/-! ### Runs of bytes -/

theorem Memory.writeBytes_wf : ∀ (bs : List Byte) {m : Memory}, m.wf = true → ∀ a, (m.writeBytes a bs).wf = true
  | [], _, h, _ => h
  | b :: bs, _, h, a => Memory.writeBytes_wf bs (Memory.write_wf h a b) (a + 1)

theorem Memory.writeNat_wf {m : Memory} (h : m.wf = true) (a n x : Nat) : (m.writeNat a n x).wf = true :=
  Memory.writeBytes_wf _ h a

/-- A run of bytes is read back byte by byte, and every address outside it reads as before. -/
theorem Memory.read_writeBytes : ∀ (bs : List Byte) {m : Memory}, m.wf = true → ∀ a c,
    Memory.read (m.writeBytes a bs) c = if a ≤ c ∧ c < a + bs.length then bs.getD (c - a) 0 else Memory.read m c
  | [], _, _, a, c => by simp only [Memory.writeBytes, List.length_nil]; rw [if_neg (by omega)]
  | b :: bs, m, h, a, c => by
    rw [Memory.writeBytes, Memory.read_writeBytes bs (Memory.write_wf h a b) (a + 1) c, Memory.read_write h]
    simp only [List.length_cons]
    by_cases hc : c = a
    · subst hc; rw [if_neg (by omega), if_pos rfl, if_pos (by omega)]; simp
    · rw [if_neg hc]
      by_cases hr : a + 1 ≤ c ∧ c < a + 1 + bs.length
      · rw [if_pos hr, if_pos (by omega)]
        obtain ⟨n, hn⟩ : ∃ n, c - a = n + 1 := ⟨c - a - 1, by omega⟩
        rw [hn, show c - (a + 1) = n by omega]; simp
      · rw [if_neg hr, if_neg (by omega)]

theorem leBytes_length : ∀ (n x : Nat), (leBytes n x).length = n
  | 0, _ => rfl
  | n + 1, x => by simp [leBytes, leBytes_length n]

/-- Every address outside the n bytes written reads as before. -/
theorem Memory.read_writeNat_outside {m : Memory} (h : m.wf = true) (a n x c : Nat) (hc : c < a ∨ a + n ≤ c) :
    Memory.read (m.writeNat a n x) c = Memory.read m c := by
  rw [Memory.writeNat, Memory.read_writeBytes _ h, leBytes_length, if_neg (by omega)]

theorem Memory.readBytes_length : ∀ (n a : Nat) (m : Memory), (m.readBytes a n).length = n
  | 0, _, _ => rfl
  | n + 1, a, m => by simp [Memory.readBytes, Memory.readBytes_length n]

theorem leNat_leBytes : ∀ (n x : Nat), leNat (leBytes n x) = x % 256 ^ n
  | 0, x => by simp [leBytes, leNat, Nat.mod_one]
  | n + 1, x => by
    have h : (256 : Nat) ^ (n + 1) = 256 * 256 ^ n := by rw [pow_succ, mul_comm]
    rw [leBytes, leNat, leNat_leBytes n, BitVec.toNat_ofNat, h, Nat.mod_mul]

/-! ### Values by key -/

namespace Assoc
variable {α : Type}

@[simp] theorem get_set_self : ∀ (m : Assoc α) (a : Nat) (x : α), get (set m a x) a = some x
  | [], a, x => by simp [set, get]
  | (k, v) :: m, a, x => by
    simp only [set]
    split
    · simp [get]
    · split
      · simp [get]
      · rw [get, if_neg (by omega), if_neg (by omega)]; exact get_set_self m a x

theorem get_set_ne : ∀ (m : Assoc α) {a b : Nat} (x : α), b ≠ a → get (set m a x) b = get m b
  | [], a, b, x, h => by simp [set, get, h]
  | (k, v) :: m, a, b, x, h => by
    simp only [set]
    split
    · by_cases hb : b < a
      · simp only [get]; rw [if_neg h, if_pos hb, if_neg (by omega), if_pos (by omega)]
      · rw [get, if_neg h, if_neg hb]
    · split
      · rename_i _ hak; subst hak; simp [get, h]
      · simp only [get]
        split
        · rfl
        · split
          · rfl
          · exact get_set_ne m x h

/-- Setting a key changes that key alone. -/
theorem get_set (m : Assoc α) (a b : Nat) (x : α) : get (set m a x) b = if b = a then some x else get m b := by
  by_cases h : b = a
  · subst h; simp
  · rw [if_neg h, get_set_ne m x h]

theorem getD_set (m : Assoc α) (a b : Nat) (x d : α) : getD (set m a x) b d = if b = a then x else getD m b d := by
  simp only [getD, get_set]; split <;> rfl

theorem mem_set : ∀ (m : Assoc α) (a : Nat) (x : α) (p : Nat × α), p ∈ set m a x → p = (a, x) ∨ p ∈ m
  | [], a, x, p, h => by simpa [set] using h
  | (k, v) :: m, a, x, p, h => by
    simp only [set] at h
    split at h
    · simpa using h
    · split at h
      · rcases List.mem_cons.mp h with h | h
        · exact .inl h
        · exact .inr (List.mem_cons_of_mem _ h)
      · rcases List.mem_cons.mp h with h | h
        · exact .inr (h ▸ List.mem_cons_self)
        · rcases mem_set m a x p h with h | h
          · exact .inl h
          · exact .inr (List.mem_cons_of_mem _ h)

theorem mem_of_get : ∀ {m : Assoc α} {a : Nat} {x : α}, get m a = some x → (a, x) ∈ m
  | (k, v) :: m, a, x, h => by
    simp only [get] at h
    split at h
    · rename_i hk; subst hk; cases h; exact List.mem_cons_self
    · split at h
      · cases h
      · exact List.mem_cons_of_mem _ (mem_of_get h)

theorem mem_erase : ∀ {m : Assoc α} {a : Nat} {p : Nat × α}, p ∈ erase m a → p ∈ m
  | (k, v) :: m, a, p, h => by
    simp only [erase] at h
    split at h
    · exact List.mem_cons_of_mem _ h
    · rcases List.mem_cons.mp h with h | h
      · exact h ▸ List.mem_cons_self
      · exact List.mem_cons_of_mem _ (mem_erase h)

end Assoc

/-! ### Lists -/

@[simp] theorem listModify_length {α : Type} (f : α → α) : ∀ (l : List α) (i : Nat), (listModify l i f).length = l.length
  | [], _ => rfl
  | _ :: _, 0 => rfl
  | _ :: xs, n + 1 => by simp [listModify, listModify_length f xs n]

/-- `listModify` rewrites one element and leaves the others. -/
theorem listModify_get {α : Type} (f : α → α) : ∀ (l : List α) (i j : Nat),
    (listModify l i f)[j]? = if i = j then l[j]?.map f else l[j]?
  | [], _, _ => by simp [listModify]
  | x :: xs, 0, 0 => by simp [listModify]
  | x :: xs, 0, j + 1 => by simp [listModify]
  | x :: xs, n + 1, 0 => by simp [listModify]
  | x :: xs, n + 1, j + 1 => by simp [listModify, listModify_get f xs n j]

theorem mem_listModify {α : Type} (f : α → α) : ∀ (l : List α) (i : Nat) (y : α), y ∈ listModify l i f →
    y ∈ l ∨ ∃ x ∈ l, y = f x
  | [], _, _, h => by simp [listModify] at h
  | x :: xs, 0, y, h => by
    simp only [listModify, List.mem_cons] at h ⊢
    rcases h with h | h
    · exact .inr ⟨x, .inl rfl, h⟩
    · exact .inl (.inr h)
  | x :: xs, n + 1, y, h => by
    simp only [listModify, List.mem_cons] at h ⊢
    rcases h with h | h
    · exact .inl (.inl h)
    · rcases mem_listModify f xs n y h with h | ⟨z, hz, h⟩
      · exact .inl (.inr h)
      · exact .inr ⟨z, .inr hz, h⟩

end Sys2Proof.Machine
end

