-- ==== Sys2Proof/Laws/State.lean ====
section
/-! SUPPORT. What each named update leaves of every other field of the state and of a thread. -/

namespace Sys2Proof.Machine

open Sys2Proof

/-! ### setBlock -/

@[simp] theorem setBlock_agenda (s : State) (slot : Nat) (b : Block) : (setBlock s slot b).agenda = s.agenda := rfl
@[simp] theorem setBlock_cur (s : State) (slot : Nat) (b : Block) : (setBlock s slot b).cur = s.cur := rfl
@[simp] theorem setBlock_freeCtr (s : State) (slot : Nat) (b : Block) : (setBlock s slot b).freeCtr = s.freeCtr := rfl
@[simp] theorem setBlock_cycle (s : State) (slot : Nat) (b : Block) : (setBlock s slot b).cycle = s.cycle := rfl
@[simp] theorem setBlock_gtsBase (s : State) (slot : Nat) (b : Block) : (setBlock s slot b).gtsBase = s.gtsBase := rfl
@[simp] theorem setBlock_device (s : State) (slot : Nat) (b : Block) : (setBlock s slot b).device = s.device := rfl
@[simp] theorem setBlock_dram (s : State) (slot : Nat) (b : Block) : (setBlock s slot b).dram = s.dram := rfl
@[simp] theorem setBlock_ws (s : State) (slot : Nat) (b : Block) : (setBlock s slot b).ws = s.ws := rfl
@[simp] theorem setBlock_tags (s : State) (slot : Nat) (b : Block) : (setBlock s slot b).tags = s.tags := rfl
@[simp] theorem setBlock_poison (s : State) (slot : Nat) (b : Block) : (setBlock s slot b).poison = s.poison := rfl
@[simp] theorem setBlock_wsPoison (s : State) (slot : Nat) (b : Block) : (setBlock s slot b).wsPoison = s.wsPoison := rfl
@[simp] theorem setBlock_lineKey (s : State) (slot : Nat) (b : Block) : (setBlock s slot b).lineKey = s.lineKey := rfl
@[simp] theorem setBlock_migrations (s : State) (slot : Nat) (b : Block) : (setBlock s slot b).migrations = s.migrations := rfl
@[simp] theorem setBlock_refresh (s : State) (slot : Nat) (b : Block) : (setBlock s slot b).refresh = s.refresh := rfl
@[simp] theorem setBlock_launches (s : State) (slot : Nat) (b : Block) : (setBlock s slot b).launches = s.launches := rfl
@[simp] theorem setBlock_nextLaunch (s : State) (slot : Nat) (b : Block) : (setBlock s slot b).nextLaunch = s.nextLaunch := rfl
@[simp] theorem setBlock_contexts (s : State) (slot : Nat) (b : Block) : (setBlock s slot b).contexts = s.contexts := rfl
@[simp] theorem setBlock_cores (s : State) (slot : Nat) (b : Block) : (setBlock s slot b).cores = s.cores := rfl
@[simp] theorem setBlock_clusters (s : State) (slot : Nat) (b : Block) : (setBlock s slot b).clusters = s.clusters := rfl
@[simp] theorem setBlock_bundles (s : State) (slot : Nat) (b : Block) : (setBlock s slot b).bundles = s.bundles := rfl
@[simp] theorem setBlock_turns (s : State) (slot : Nat) (b : Block) : (setBlock s slot b).turns = s.turns := rfl
@[simp] theorem setBlock_engines (s : State) (slot : Nat) (b : Block) : (setBlock s slot b).engines = s.engines := rfl
@[simp] theorem setBlock_nextId (s : State) (slot : Nat) (b : Block) : (setBlock s slot b).nextId = s.nextId := rfl
@[simp] theorem setBlock_drovers (s : State) (slot : Nat) (b : Block) : (setBlock s slot b).drovers = s.drovers := rfl
@[simp] theorem setBlock_staging (s : State) (slot : Nat) (b : Block) : (setBlock s slot b).staging = s.staging := rfl
@[simp] theorem setBlock_lehrs (s : State) (slot : Nat) (b : Block) : (setBlock s slot b).lehrs = s.lehrs := rfl
@[simp] theorem setBlock_abroad (s : State) (slot : Nat) (b : Block) : (setBlock s slot b).abroad = s.abroad := rfl
@[simp] theorem setBlock_commits (s : State) (slot : Nat) (b : Block) : (setBlock s slot b).commits = s.commits := rfl
@[simp] theorem setBlock_unbinding (s : State) (slot : Nat) (b : Block) : (setBlock s slot b).unbinding = s.unbinding := rfl
@[simp] theorem setBlock_launchQs (s : State) (slot : Nat) (b : Block) : (setBlock s slot b).launchQs = s.launchQs := rfl
@[simp] theorem setBlock_bulkQs (s : State) (slot : Nat) (b : Block) : (setBlock s slot b).bulkQs = s.bulkQs := rfl
@[simp] theorem setBlock_service (s : State) (slot : Nat) (b : Block) : (setBlock s slot b).service = s.service := rfl
@[simp] theorem setBlock_fabric (s : State) (slot : Nat) (b : Block) : (setBlock s slot b).fabric = s.fabric := rfl

/-! ### setCore -/

@[simp] theorem setCore_agenda (s : State) (c : Nat) (x : Core) : (setCore s c x).agenda = s.agenda := rfl
@[simp] theorem setCore_cur (s : State) (c : Nat) (x : Core) : (setCore s c x).cur = s.cur := rfl
@[simp] theorem setCore_freeCtr (s : State) (c : Nat) (x : Core) : (setCore s c x).freeCtr = s.freeCtr := rfl
@[simp] theorem setCore_cycle (s : State) (c : Nat) (x : Core) : (setCore s c x).cycle = s.cycle := rfl
@[simp] theorem setCore_gtsBase (s : State) (c : Nat) (x : Core) : (setCore s c x).gtsBase = s.gtsBase := rfl
@[simp] theorem setCore_device (s : State) (c : Nat) (x : Core) : (setCore s c x).device = s.device := rfl
@[simp] theorem setCore_dram (s : State) (c : Nat) (x : Core) : (setCore s c x).dram = s.dram := rfl
@[simp] theorem setCore_ws (s : State) (c : Nat) (x : Core) : (setCore s c x).ws = s.ws := rfl
@[simp] theorem setCore_tags (s : State) (c : Nat) (x : Core) : (setCore s c x).tags = s.tags := rfl
@[simp] theorem setCore_poison (s : State) (c : Nat) (x : Core) : (setCore s c x).poison = s.poison := rfl
@[simp] theorem setCore_wsPoison (s : State) (c : Nat) (x : Core) : (setCore s c x).wsPoison = s.wsPoison := rfl
@[simp] theorem setCore_lineKey (s : State) (c : Nat) (x : Core) : (setCore s c x).lineKey = s.lineKey := rfl
@[simp] theorem setCore_migrations (s : State) (c : Nat) (x : Core) : (setCore s c x).migrations = s.migrations := rfl
@[simp] theorem setCore_refresh (s : State) (c : Nat) (x : Core) : (setCore s c x).refresh = s.refresh := rfl
@[simp] theorem setCore_blocks (s : State) (c : Nat) (x : Core) : (setCore s c x).blocks = s.blocks := rfl
@[simp] theorem setCore_launches (s : State) (c : Nat) (x : Core) : (setCore s c x).launches = s.launches := rfl
@[simp] theorem setCore_nextLaunch (s : State) (c : Nat) (x : Core) : (setCore s c x).nextLaunch = s.nextLaunch := rfl
@[simp] theorem setCore_contexts (s : State) (c : Nat) (x : Core) : (setCore s c x).contexts = s.contexts := rfl
@[simp] theorem setCore_clusters (s : State) (c : Nat) (x : Core) : (setCore s c x).clusters = s.clusters := rfl
@[simp] theorem setCore_bundles (s : State) (c : Nat) (x : Core) : (setCore s c x).bundles = s.bundles := rfl
@[simp] theorem setCore_turns (s : State) (c : Nat) (x : Core) : (setCore s c x).turns = s.turns := rfl
@[simp] theorem setCore_engines (s : State) (c : Nat) (x : Core) : (setCore s c x).engines = s.engines := rfl
@[simp] theorem setCore_nextId (s : State) (c : Nat) (x : Core) : (setCore s c x).nextId = s.nextId := rfl
@[simp] theorem setCore_drovers (s : State) (c : Nat) (x : Core) : (setCore s c x).drovers = s.drovers := rfl
@[simp] theorem setCore_staging (s : State) (c : Nat) (x : Core) : (setCore s c x).staging = s.staging := rfl
@[simp] theorem setCore_lehrs (s : State) (c : Nat) (x : Core) : (setCore s c x).lehrs = s.lehrs := rfl
@[simp] theorem setCore_abroad (s : State) (c : Nat) (x : Core) : (setCore s c x).abroad = s.abroad := rfl
@[simp] theorem setCore_commits (s : State) (c : Nat) (x : Core) : (setCore s c x).commits = s.commits := rfl
@[simp] theorem setCore_unbinding (s : State) (c : Nat) (x : Core) : (setCore s c x).unbinding = s.unbinding := rfl
@[simp] theorem setCore_launchQs (s : State) (c : Nat) (x : Core) : (setCore s c x).launchQs = s.launchQs := rfl
@[simp] theorem setCore_bulkQs (s : State) (c : Nat) (x : Core) : (setCore s c x).bulkQs = s.bulkQs := rfl
@[simp] theorem setCore_service (s : State) (c : Nat) (x : Core) : (setCore s c x).service = s.service := rfl
@[simp] theorem setCore_fabric (s : State) (c : Nat) (x : Core) : (setCore s c x).fabric = s.fabric := rfl

/-! ### setCluster -/

@[simp] theorem setCluster_agenda (s : State) (c : Nat) (x : Cluster) : (setCluster s c x).agenda = s.agenda := rfl
@[simp] theorem setCluster_cur (s : State) (c : Nat) (x : Cluster) : (setCluster s c x).cur = s.cur := rfl
@[simp] theorem setCluster_freeCtr (s : State) (c : Nat) (x : Cluster) : (setCluster s c x).freeCtr = s.freeCtr := rfl
@[simp] theorem setCluster_cycle (s : State) (c : Nat) (x : Cluster) : (setCluster s c x).cycle = s.cycle := rfl
@[simp] theorem setCluster_gtsBase (s : State) (c : Nat) (x : Cluster) : (setCluster s c x).gtsBase = s.gtsBase := rfl
@[simp] theorem setCluster_device (s : State) (c : Nat) (x : Cluster) : (setCluster s c x).device = s.device := rfl
@[simp] theorem setCluster_dram (s : State) (c : Nat) (x : Cluster) : (setCluster s c x).dram = s.dram := rfl
@[simp] theorem setCluster_ws (s : State) (c : Nat) (x : Cluster) : (setCluster s c x).ws = s.ws := rfl
@[simp] theorem setCluster_tags (s : State) (c : Nat) (x : Cluster) : (setCluster s c x).tags = s.tags := rfl
@[simp] theorem setCluster_poison (s : State) (c : Nat) (x : Cluster) : (setCluster s c x).poison = s.poison := rfl
@[simp] theorem setCluster_wsPoison (s : State) (c : Nat) (x : Cluster) : (setCluster s c x).wsPoison = s.wsPoison := rfl
@[simp] theorem setCluster_lineKey (s : State) (c : Nat) (x : Cluster) : (setCluster s c x).lineKey = s.lineKey := rfl
@[simp] theorem setCluster_migrations (s : State) (c : Nat) (x : Cluster) : (setCluster s c x).migrations = s.migrations := rfl
@[simp] theorem setCluster_refresh (s : State) (c : Nat) (x : Cluster) : (setCluster s c x).refresh = s.refresh := rfl
@[simp] theorem setCluster_blocks (s : State) (c : Nat) (x : Cluster) : (setCluster s c x).blocks = s.blocks := rfl
@[simp] theorem setCluster_launches (s : State) (c : Nat) (x : Cluster) : (setCluster s c x).launches = s.launches := rfl
@[simp] theorem setCluster_nextLaunch (s : State) (c : Nat) (x : Cluster) : (setCluster s c x).nextLaunch = s.nextLaunch := rfl
@[simp] theorem setCluster_contexts (s : State) (c : Nat) (x : Cluster) : (setCluster s c x).contexts = s.contexts := rfl
@[simp] theorem setCluster_cores (s : State) (c : Nat) (x : Cluster) : (setCluster s c x).cores = s.cores := rfl
@[simp] theorem setCluster_bundles (s : State) (c : Nat) (x : Cluster) : (setCluster s c x).bundles = s.bundles := rfl
@[simp] theorem setCluster_turns (s : State) (c : Nat) (x : Cluster) : (setCluster s c x).turns = s.turns := rfl
@[simp] theorem setCluster_engines (s : State) (c : Nat) (x : Cluster) : (setCluster s c x).engines = s.engines := rfl
@[simp] theorem setCluster_nextId (s : State) (c : Nat) (x : Cluster) : (setCluster s c x).nextId = s.nextId := rfl
@[simp] theorem setCluster_drovers (s : State) (c : Nat) (x : Cluster) : (setCluster s c x).drovers = s.drovers := rfl
@[simp] theorem setCluster_staging (s : State) (c : Nat) (x : Cluster) : (setCluster s c x).staging = s.staging := rfl
@[simp] theorem setCluster_lehrs (s : State) (c : Nat) (x : Cluster) : (setCluster s c x).lehrs = s.lehrs := rfl
@[simp] theorem setCluster_abroad (s : State) (c : Nat) (x : Cluster) : (setCluster s c x).abroad = s.abroad := rfl
@[simp] theorem setCluster_commits (s : State) (c : Nat) (x : Cluster) : (setCluster s c x).commits = s.commits := rfl
@[simp] theorem setCluster_unbinding (s : State) (c : Nat) (x : Cluster) : (setCluster s c x).unbinding = s.unbinding := rfl
@[simp] theorem setCluster_launchQs (s : State) (c : Nat) (x : Cluster) : (setCluster s c x).launchQs = s.launchQs := rfl
@[simp] theorem setCluster_bulkQs (s : State) (c : Nat) (x : Cluster) : (setCluster s c x).bulkQs = s.bulkQs := rfl
@[simp] theorem setCluster_service (s : State) (c : Nat) (x : Cluster) : (setCluster s c x).service = s.service := rfl
@[simp] theorem setCluster_fabric (s : State) (c : Nat) (x : Cluster) : (setCluster s c x).fabric = s.fabric := rfl

/-! ### setEngine -/

@[simp] theorem setEngine_agenda (s : State) (e : Nat) (x : Engine) : (setEngine s e x).agenda = s.agenda := rfl
@[simp] theorem setEngine_cur (s : State) (e : Nat) (x : Engine) : (setEngine s e x).cur = s.cur := rfl
@[simp] theorem setEngine_freeCtr (s : State) (e : Nat) (x : Engine) : (setEngine s e x).freeCtr = s.freeCtr := rfl
@[simp] theorem setEngine_cycle (s : State) (e : Nat) (x : Engine) : (setEngine s e x).cycle = s.cycle := rfl
@[simp] theorem setEngine_gtsBase (s : State) (e : Nat) (x : Engine) : (setEngine s e x).gtsBase = s.gtsBase := rfl
@[simp] theorem setEngine_device (s : State) (e : Nat) (x : Engine) : (setEngine s e x).device = s.device := rfl
@[simp] theorem setEngine_dram (s : State) (e : Nat) (x : Engine) : (setEngine s e x).dram = s.dram := rfl
@[simp] theorem setEngine_ws (s : State) (e : Nat) (x : Engine) : (setEngine s e x).ws = s.ws := rfl
@[simp] theorem setEngine_tags (s : State) (e : Nat) (x : Engine) : (setEngine s e x).tags = s.tags := rfl
@[simp] theorem setEngine_poison (s : State) (e : Nat) (x : Engine) : (setEngine s e x).poison = s.poison := rfl
@[simp] theorem setEngine_wsPoison (s : State) (e : Nat) (x : Engine) : (setEngine s e x).wsPoison = s.wsPoison := rfl
@[simp] theorem setEngine_lineKey (s : State) (e : Nat) (x : Engine) : (setEngine s e x).lineKey = s.lineKey := rfl
@[simp] theorem setEngine_migrations (s : State) (e : Nat) (x : Engine) : (setEngine s e x).migrations = s.migrations := rfl
@[simp] theorem setEngine_refresh (s : State) (e : Nat) (x : Engine) : (setEngine s e x).refresh = s.refresh := rfl
@[simp] theorem setEngine_blocks (s : State) (e : Nat) (x : Engine) : (setEngine s e x).blocks = s.blocks := rfl
@[simp] theorem setEngine_launches (s : State) (e : Nat) (x : Engine) : (setEngine s e x).launches = s.launches := rfl
@[simp] theorem setEngine_nextLaunch (s : State) (e : Nat) (x : Engine) : (setEngine s e x).nextLaunch = s.nextLaunch := rfl
@[simp] theorem setEngine_contexts (s : State) (e : Nat) (x : Engine) : (setEngine s e x).contexts = s.contexts := rfl
@[simp] theorem setEngine_cores (s : State) (e : Nat) (x : Engine) : (setEngine s e x).cores = s.cores := rfl
@[simp] theorem setEngine_clusters (s : State) (e : Nat) (x : Engine) : (setEngine s e x).clusters = s.clusters := rfl
@[simp] theorem setEngine_bundles (s : State) (e : Nat) (x : Engine) : (setEngine s e x).bundles = s.bundles := rfl
@[simp] theorem setEngine_turns (s : State) (e : Nat) (x : Engine) : (setEngine s e x).turns = s.turns := rfl
@[simp] theorem setEngine_nextId (s : State) (e : Nat) (x : Engine) : (setEngine s e x).nextId = s.nextId := rfl
@[simp] theorem setEngine_drovers (s : State) (e : Nat) (x : Engine) : (setEngine s e x).drovers = s.drovers := rfl
@[simp] theorem setEngine_staging (s : State) (e : Nat) (x : Engine) : (setEngine s e x).staging = s.staging := rfl
@[simp] theorem setEngine_lehrs (s : State) (e : Nat) (x : Engine) : (setEngine s e x).lehrs = s.lehrs := rfl
@[simp] theorem setEngine_abroad (s : State) (e : Nat) (x : Engine) : (setEngine s e x).abroad = s.abroad := rfl
@[simp] theorem setEngine_commits (s : State) (e : Nat) (x : Engine) : (setEngine s e x).commits = s.commits := rfl
@[simp] theorem setEngine_unbinding (s : State) (e : Nat) (x : Engine) : (setEngine s e x).unbinding = s.unbinding := rfl
@[simp] theorem setEngine_launchQs (s : State) (e : Nat) (x : Engine) : (setEngine s e x).launchQs = s.launchQs := rfl
@[simp] theorem setEngine_bulkQs (s : State) (e : Nat) (x : Engine) : (setEngine s e x).bulkQs = s.bulkQs := rfl
@[simp] theorem setEngine_service (s : State) (e : Nat) (x : Engine) : (setEngine s e x).service = s.service := rfl
@[simp] theorem setEngine_fabric (s : State) (e : Nat) (x : Engine) : (setEngine s e x).fabric = s.fabric := rfl

/-! ### setCtx -/

@[simp] theorem setCtx_agenda (s : State) (c : Nat) (x : Context) : (setCtx s c x).agenda = s.agenda := rfl
@[simp] theorem setCtx_cur (s : State) (c : Nat) (x : Context) : (setCtx s c x).cur = s.cur := rfl
@[simp] theorem setCtx_freeCtr (s : State) (c : Nat) (x : Context) : (setCtx s c x).freeCtr = s.freeCtr := rfl
@[simp] theorem setCtx_cycle (s : State) (c : Nat) (x : Context) : (setCtx s c x).cycle = s.cycle := rfl
@[simp] theorem setCtx_gtsBase (s : State) (c : Nat) (x : Context) : (setCtx s c x).gtsBase = s.gtsBase := rfl
@[simp] theorem setCtx_device (s : State) (c : Nat) (x : Context) : (setCtx s c x).device = s.device := rfl
@[simp] theorem setCtx_dram (s : State) (c : Nat) (x : Context) : (setCtx s c x).dram = s.dram := rfl
@[simp] theorem setCtx_ws (s : State) (c : Nat) (x : Context) : (setCtx s c x).ws = s.ws := rfl
@[simp] theorem setCtx_tags (s : State) (c : Nat) (x : Context) : (setCtx s c x).tags = s.tags := rfl
@[simp] theorem setCtx_poison (s : State) (c : Nat) (x : Context) : (setCtx s c x).poison = s.poison := rfl
@[simp] theorem setCtx_wsPoison (s : State) (c : Nat) (x : Context) : (setCtx s c x).wsPoison = s.wsPoison := rfl
@[simp] theorem setCtx_lineKey (s : State) (c : Nat) (x : Context) : (setCtx s c x).lineKey = s.lineKey := rfl
@[simp] theorem setCtx_migrations (s : State) (c : Nat) (x : Context) : (setCtx s c x).migrations = s.migrations := rfl
@[simp] theorem setCtx_refresh (s : State) (c : Nat) (x : Context) : (setCtx s c x).refresh = s.refresh := rfl
@[simp] theorem setCtx_blocks (s : State) (c : Nat) (x : Context) : (setCtx s c x).blocks = s.blocks := rfl
@[simp] theorem setCtx_launches (s : State) (c : Nat) (x : Context) : (setCtx s c x).launches = s.launches := rfl
@[simp] theorem setCtx_nextLaunch (s : State) (c : Nat) (x : Context) : (setCtx s c x).nextLaunch = s.nextLaunch := rfl
@[simp] theorem setCtx_cores (s : State) (c : Nat) (x : Context) : (setCtx s c x).cores = s.cores := rfl
@[simp] theorem setCtx_clusters (s : State) (c : Nat) (x : Context) : (setCtx s c x).clusters = s.clusters := rfl
@[simp] theorem setCtx_bundles (s : State) (c : Nat) (x : Context) : (setCtx s c x).bundles = s.bundles := rfl
@[simp] theorem setCtx_turns (s : State) (c : Nat) (x : Context) : (setCtx s c x).turns = s.turns := rfl
@[simp] theorem setCtx_engines (s : State) (c : Nat) (x : Context) : (setCtx s c x).engines = s.engines := rfl
@[simp] theorem setCtx_nextId (s : State) (c : Nat) (x : Context) : (setCtx s c x).nextId = s.nextId := rfl
@[simp] theorem setCtx_drovers (s : State) (c : Nat) (x : Context) : (setCtx s c x).drovers = s.drovers := rfl
@[simp] theorem setCtx_staging (s : State) (c : Nat) (x : Context) : (setCtx s c x).staging = s.staging := rfl
@[simp] theorem setCtx_lehrs (s : State) (c : Nat) (x : Context) : (setCtx s c x).lehrs = s.lehrs := rfl
@[simp] theorem setCtx_abroad (s : State) (c : Nat) (x : Context) : (setCtx s c x).abroad = s.abroad := rfl
@[simp] theorem setCtx_commits (s : State) (c : Nat) (x : Context) : (setCtx s c x).commits = s.commits := rfl
@[simp] theorem setCtx_unbinding (s : State) (c : Nat) (x : Context) : (setCtx s c x).unbinding = s.unbinding := rfl
@[simp] theorem setCtx_launchQs (s : State) (c : Nat) (x : Context) : (setCtx s c x).launchQs = s.launchQs := rfl
@[simp] theorem setCtx_bulkQs (s : State) (c : Nat) (x : Context) : (setCtx s c x).bulkQs = s.bulkQs := rfl
@[simp] theorem setCtx_service (s : State) (c : Nat) (x : Context) : (setCtx s c x).service = s.service := rfl
@[simp] theorem setCtx_fabric (s : State) (c : Nat) (x : Context) : (setCtx s c x).fabric = s.fabric := rfl

/-! ### setLaunch -/

@[simp] theorem setLaunch_agenda (s : State) (l : Nat) (x : Launch) : (setLaunch s l x).agenda = s.agenda := rfl
@[simp] theorem setLaunch_cur (s : State) (l : Nat) (x : Launch) : (setLaunch s l x).cur = s.cur := rfl
@[simp] theorem setLaunch_freeCtr (s : State) (l : Nat) (x : Launch) : (setLaunch s l x).freeCtr = s.freeCtr := rfl
@[simp] theorem setLaunch_cycle (s : State) (l : Nat) (x : Launch) : (setLaunch s l x).cycle = s.cycle := rfl
@[simp] theorem setLaunch_gtsBase (s : State) (l : Nat) (x : Launch) : (setLaunch s l x).gtsBase = s.gtsBase := rfl
@[simp] theorem setLaunch_device (s : State) (l : Nat) (x : Launch) : (setLaunch s l x).device = s.device := rfl
@[simp] theorem setLaunch_dram (s : State) (l : Nat) (x : Launch) : (setLaunch s l x).dram = s.dram := rfl
@[simp] theorem setLaunch_ws (s : State) (l : Nat) (x : Launch) : (setLaunch s l x).ws = s.ws := rfl
@[simp] theorem setLaunch_tags (s : State) (l : Nat) (x : Launch) : (setLaunch s l x).tags = s.tags := rfl
@[simp] theorem setLaunch_poison (s : State) (l : Nat) (x : Launch) : (setLaunch s l x).poison = s.poison := rfl
@[simp] theorem setLaunch_wsPoison (s : State) (l : Nat) (x : Launch) : (setLaunch s l x).wsPoison = s.wsPoison := rfl
@[simp] theorem setLaunch_lineKey (s : State) (l : Nat) (x : Launch) : (setLaunch s l x).lineKey = s.lineKey := rfl
@[simp] theorem setLaunch_migrations (s : State) (l : Nat) (x : Launch) : (setLaunch s l x).migrations = s.migrations := rfl
@[simp] theorem setLaunch_refresh (s : State) (l : Nat) (x : Launch) : (setLaunch s l x).refresh = s.refresh := rfl
@[simp] theorem setLaunch_blocks (s : State) (l : Nat) (x : Launch) : (setLaunch s l x).blocks = s.blocks := rfl
@[simp] theorem setLaunch_nextLaunch (s : State) (l : Nat) (x : Launch) : (setLaunch s l x).nextLaunch = s.nextLaunch := rfl
@[simp] theorem setLaunch_contexts (s : State) (l : Nat) (x : Launch) : (setLaunch s l x).contexts = s.contexts := rfl
@[simp] theorem setLaunch_cores (s : State) (l : Nat) (x : Launch) : (setLaunch s l x).cores = s.cores := rfl
@[simp] theorem setLaunch_clusters (s : State) (l : Nat) (x : Launch) : (setLaunch s l x).clusters = s.clusters := rfl
@[simp] theorem setLaunch_bundles (s : State) (l : Nat) (x : Launch) : (setLaunch s l x).bundles = s.bundles := rfl
@[simp] theorem setLaunch_turns (s : State) (l : Nat) (x : Launch) : (setLaunch s l x).turns = s.turns := rfl
@[simp] theorem setLaunch_engines (s : State) (l : Nat) (x : Launch) : (setLaunch s l x).engines = s.engines := rfl
@[simp] theorem setLaunch_nextId (s : State) (l : Nat) (x : Launch) : (setLaunch s l x).nextId = s.nextId := rfl
@[simp] theorem setLaunch_drovers (s : State) (l : Nat) (x : Launch) : (setLaunch s l x).drovers = s.drovers := rfl
@[simp] theorem setLaunch_staging (s : State) (l : Nat) (x : Launch) : (setLaunch s l x).staging = s.staging := rfl
@[simp] theorem setLaunch_lehrs (s : State) (l : Nat) (x : Launch) : (setLaunch s l x).lehrs = s.lehrs := rfl
@[simp] theorem setLaunch_abroad (s : State) (l : Nat) (x : Launch) : (setLaunch s l x).abroad = s.abroad := rfl
@[simp] theorem setLaunch_commits (s : State) (l : Nat) (x : Launch) : (setLaunch s l x).commits = s.commits := rfl
@[simp] theorem setLaunch_unbinding (s : State) (l : Nat) (x : Launch) : (setLaunch s l x).unbinding = s.unbinding := rfl
@[simp] theorem setLaunch_launchQs (s : State) (l : Nat) (x : Launch) : (setLaunch s l x).launchQs = s.launchQs := rfl
@[simp] theorem setLaunch_bulkQs (s : State) (l : Nat) (x : Launch) : (setLaunch s l x).bulkQs = s.bulkQs := rfl
@[simp] theorem setLaunch_service (s : State) (l : Nat) (x : Launch) : (setLaunch s l x).service = s.service := rfl
@[simp] theorem setLaunch_fabric (s : State) (l : Nat) (x : Launch) : (setLaunch s l x).fabric = s.fabric := rfl

/-! ### sendMsix -/

@[simp] theorem sendMsix_agenda (s : State) (fn v : Nat) : (sendMsix s fn v).agenda = s.agenda := rfl
@[simp] theorem sendMsix_cur (s : State) (fn v : Nat) : (sendMsix s fn v).cur = s.cur := rfl
@[simp] theorem sendMsix_freeCtr (s : State) (fn v : Nat) : (sendMsix s fn v).freeCtr = s.freeCtr := rfl
@[simp] theorem sendMsix_cycle (s : State) (fn v : Nat) : (sendMsix s fn v).cycle = s.cycle := rfl
@[simp] theorem sendMsix_gtsBase (s : State) (fn v : Nat) : (sendMsix s fn v).gtsBase = s.gtsBase := rfl
@[simp] theorem sendMsix_device (s : State) (fn v : Nat) : (sendMsix s fn v).device = s.device := rfl
@[simp] theorem sendMsix_dram (s : State) (fn v : Nat) : (sendMsix s fn v).dram = s.dram := rfl
@[simp] theorem sendMsix_ws (s : State) (fn v : Nat) : (sendMsix s fn v).ws = s.ws := rfl
@[simp] theorem sendMsix_tags (s : State) (fn v : Nat) : (sendMsix s fn v).tags = s.tags := rfl
@[simp] theorem sendMsix_poison (s : State) (fn v : Nat) : (sendMsix s fn v).poison = s.poison := rfl
@[simp] theorem sendMsix_wsPoison (s : State) (fn v : Nat) : (sendMsix s fn v).wsPoison = s.wsPoison := rfl
@[simp] theorem sendMsix_lineKey (s : State) (fn v : Nat) : (sendMsix s fn v).lineKey = s.lineKey := rfl
@[simp] theorem sendMsix_migrations (s : State) (fn v : Nat) : (sendMsix s fn v).migrations = s.migrations := rfl
@[simp] theorem sendMsix_refresh (s : State) (fn v : Nat) : (sendMsix s fn v).refresh = s.refresh := rfl
@[simp] theorem sendMsix_blocks (s : State) (fn v : Nat) : (sendMsix s fn v).blocks = s.blocks := rfl
@[simp] theorem sendMsix_launches (s : State) (fn v : Nat) : (sendMsix s fn v).launches = s.launches := rfl
@[simp] theorem sendMsix_nextLaunch (s : State) (fn v : Nat) : (sendMsix s fn v).nextLaunch = s.nextLaunch := rfl
@[simp] theorem sendMsix_contexts (s : State) (fn v : Nat) : (sendMsix s fn v).contexts = s.contexts := rfl
@[simp] theorem sendMsix_cores (s : State) (fn v : Nat) : (sendMsix s fn v).cores = s.cores := rfl
@[simp] theorem sendMsix_clusters (s : State) (fn v : Nat) : (sendMsix s fn v).clusters = s.clusters := rfl
@[simp] theorem sendMsix_bundles (s : State) (fn v : Nat) : (sendMsix s fn v).bundles = s.bundles := rfl
@[simp] theorem sendMsix_turns (s : State) (fn v : Nat) : (sendMsix s fn v).turns = s.turns := rfl
@[simp] theorem sendMsix_engines (s : State) (fn v : Nat) : (sendMsix s fn v).engines = s.engines := rfl
@[simp] theorem sendMsix_nextId (s : State) (fn v : Nat) : (sendMsix s fn v).nextId = s.nextId := rfl
@[simp] theorem sendMsix_drovers (s : State) (fn v : Nat) : (sendMsix s fn v).drovers = s.drovers := rfl
@[simp] theorem sendMsix_staging (s : State) (fn v : Nat) : (sendMsix s fn v).staging = s.staging := rfl
@[simp] theorem sendMsix_lehrs (s : State) (fn v : Nat) : (sendMsix s fn v).lehrs = s.lehrs := rfl
@[simp] theorem sendMsix_abroad (s : State) (fn v : Nat) : (sendMsix s fn v).abroad = s.abroad := rfl
@[simp] theorem sendMsix_commits (s : State) (fn v : Nat) : (sendMsix s fn v).commits = s.commits := rfl
@[simp] theorem sendMsix_unbinding (s : State) (fn v : Nat) : (sendMsix s fn v).unbinding = s.unbinding := rfl
@[simp] theorem sendMsix_launchQs (s : State) (fn v : Nat) : (sendMsix s fn v).launchQs = s.launchQs := rfl
@[simp] theorem sendMsix_bulkQs (s : State) (fn v : Nat) : (sendMsix s fn v).bulkQs = s.bulkQs := rfl
@[simp] theorem sendMsix_fabric (s : State) (fn v : Nat) : (sendMsix s fn v).fabric = s.fabric := rfl

/-! ### logEvent -/

@[simp] theorem logEvent_agenda (s : State) (cls code : BitVec 8) (ctx : Option Nat) (src : BitVec 16) (a0 a1 : Word) : (logEvent s cls code ctx src a0 a1).agenda = s.agenda := rfl
@[simp] theorem logEvent_cur (s : State) (cls code : BitVec 8) (ctx : Option Nat) (src : BitVec 16) (a0 a1 : Word) : (logEvent s cls code ctx src a0 a1).cur = s.cur := rfl
@[simp] theorem logEvent_freeCtr (s : State) (cls code : BitVec 8) (ctx : Option Nat) (src : BitVec 16) (a0 a1 : Word) : (logEvent s cls code ctx src a0 a1).freeCtr = s.freeCtr := rfl
@[simp] theorem logEvent_cycle (s : State) (cls code : BitVec 8) (ctx : Option Nat) (src : BitVec 16) (a0 a1 : Word) : (logEvent s cls code ctx src a0 a1).cycle = s.cycle := rfl
@[simp] theorem logEvent_gtsBase (s : State) (cls code : BitVec 8) (ctx : Option Nat) (src : BitVec 16) (a0 a1 : Word) : (logEvent s cls code ctx src a0 a1).gtsBase = s.gtsBase := rfl
@[simp] theorem logEvent_device (s : State) (cls code : BitVec 8) (ctx : Option Nat) (src : BitVec 16) (a0 a1 : Word) : (logEvent s cls code ctx src a0 a1).device = s.device := rfl
@[simp] theorem logEvent_dram (s : State) (cls code : BitVec 8) (ctx : Option Nat) (src : BitVec 16) (a0 a1 : Word) : (logEvent s cls code ctx src a0 a1).dram = s.dram := rfl
@[simp] theorem logEvent_ws (s : State) (cls code : BitVec 8) (ctx : Option Nat) (src : BitVec 16) (a0 a1 : Word) : (logEvent s cls code ctx src a0 a1).ws = s.ws := rfl
@[simp] theorem logEvent_tags (s : State) (cls code : BitVec 8) (ctx : Option Nat) (src : BitVec 16) (a0 a1 : Word) : (logEvent s cls code ctx src a0 a1).tags = s.tags := rfl
@[simp] theorem logEvent_poison (s : State) (cls code : BitVec 8) (ctx : Option Nat) (src : BitVec 16) (a0 a1 : Word) : (logEvent s cls code ctx src a0 a1).poison = s.poison := rfl
@[simp] theorem logEvent_wsPoison (s : State) (cls code : BitVec 8) (ctx : Option Nat) (src : BitVec 16) (a0 a1 : Word) : (logEvent s cls code ctx src a0 a1).wsPoison = s.wsPoison := rfl
@[simp] theorem logEvent_lineKey (s : State) (cls code : BitVec 8) (ctx : Option Nat) (src : BitVec 16) (a0 a1 : Word) : (logEvent s cls code ctx src a0 a1).lineKey = s.lineKey := rfl
@[simp] theorem logEvent_migrations (s : State) (cls code : BitVec 8) (ctx : Option Nat) (src : BitVec 16) (a0 a1 : Word) : (logEvent s cls code ctx src a0 a1).migrations = s.migrations := rfl
@[simp] theorem logEvent_refresh (s : State) (cls code : BitVec 8) (ctx : Option Nat) (src : BitVec 16) (a0 a1 : Word) : (logEvent s cls code ctx src a0 a1).refresh = s.refresh := rfl
@[simp] theorem logEvent_blocks (s : State) (cls code : BitVec 8) (ctx : Option Nat) (src : BitVec 16) (a0 a1 : Word) : (logEvent s cls code ctx src a0 a1).blocks = s.blocks := rfl
@[simp] theorem logEvent_launches (s : State) (cls code : BitVec 8) (ctx : Option Nat) (src : BitVec 16) (a0 a1 : Word) : (logEvent s cls code ctx src a0 a1).launches = s.launches := rfl
@[simp] theorem logEvent_nextLaunch (s : State) (cls code : BitVec 8) (ctx : Option Nat) (src : BitVec 16) (a0 a1 : Word) : (logEvent s cls code ctx src a0 a1).nextLaunch = s.nextLaunch := rfl
@[simp] theorem logEvent_contexts (s : State) (cls code : BitVec 8) (ctx : Option Nat) (src : BitVec 16) (a0 a1 : Word) : (logEvent s cls code ctx src a0 a1).contexts = s.contexts := rfl
@[simp] theorem logEvent_cores (s : State) (cls code : BitVec 8) (ctx : Option Nat) (src : BitVec 16) (a0 a1 : Word) : (logEvent s cls code ctx src a0 a1).cores = s.cores := rfl
@[simp] theorem logEvent_clusters (s : State) (cls code : BitVec 8) (ctx : Option Nat) (src : BitVec 16) (a0 a1 : Word) : (logEvent s cls code ctx src a0 a1).clusters = s.clusters := rfl
@[simp] theorem logEvent_bundles (s : State) (cls code : BitVec 8) (ctx : Option Nat) (src : BitVec 16) (a0 a1 : Word) : (logEvent s cls code ctx src a0 a1).bundles = s.bundles := rfl
@[simp] theorem logEvent_turns (s : State) (cls code : BitVec 8) (ctx : Option Nat) (src : BitVec 16) (a0 a1 : Word) : (logEvent s cls code ctx src a0 a1).turns = s.turns := rfl
@[simp] theorem logEvent_engines (s : State) (cls code : BitVec 8) (ctx : Option Nat) (src : BitVec 16) (a0 a1 : Word) : (logEvent s cls code ctx src a0 a1).engines = s.engines := rfl
@[simp] theorem logEvent_nextId (s : State) (cls code : BitVec 8) (ctx : Option Nat) (src : BitVec 16) (a0 a1 : Word) : (logEvent s cls code ctx src a0 a1).nextId = s.nextId := rfl
@[simp] theorem logEvent_drovers (s : State) (cls code : BitVec 8) (ctx : Option Nat) (src : BitVec 16) (a0 a1 : Word) : (logEvent s cls code ctx src a0 a1).drovers = s.drovers := rfl
@[simp] theorem logEvent_staging (s : State) (cls code : BitVec 8) (ctx : Option Nat) (src : BitVec 16) (a0 a1 : Word) : (logEvent s cls code ctx src a0 a1).staging = s.staging := rfl
@[simp] theorem logEvent_lehrs (s : State) (cls code : BitVec 8) (ctx : Option Nat) (src : BitVec 16) (a0 a1 : Word) : (logEvent s cls code ctx src a0 a1).lehrs = s.lehrs := rfl
@[simp] theorem logEvent_abroad (s : State) (cls code : BitVec 8) (ctx : Option Nat) (src : BitVec 16) (a0 a1 : Word) : (logEvent s cls code ctx src a0 a1).abroad = s.abroad := rfl
@[simp] theorem logEvent_commits (s : State) (cls code : BitVec 8) (ctx : Option Nat) (src : BitVec 16) (a0 a1 : Word) : (logEvent s cls code ctx src a0 a1).commits = s.commits := rfl
@[simp] theorem logEvent_unbinding (s : State) (cls code : BitVec 8) (ctx : Option Nat) (src : BitVec 16) (a0 a1 : Word) : (logEvent s cls code ctx src a0 a1).unbinding = s.unbinding := rfl
@[simp] theorem logEvent_launchQs (s : State) (cls code : BitVec 8) (ctx : Option Nat) (src : BitVec 16) (a0 a1 : Word) : (logEvent s cls code ctx src a0 a1).launchQs = s.launchQs := rfl
@[simp] theorem logEvent_bulkQs (s : State) (cls code : BitVec 8) (ctx : Option Nat) (src : BitVec 16) (a0 a1 : Word) : (logEvent s cls code ctx src a0 a1).bulkQs = s.bulkQs := rfl
@[simp] theorem logEvent_fabric (s : State) (cls code : BitVec 8) (ctx : Option Nat) (src : BitVec 16) (a0 a1 : Word) : (logEvent s cls code ctx src a0 a1).fabric = s.fabric := rfl

/-! ### modBlock -/

@[simp] theorem modBlock_agenda (s : State) (slot : Nat) (f : Block → Block) : (modBlock s slot f).agenda = s.agenda := by
  unfold modBlock; split <;> rfl
@[simp] theorem modBlock_cur (s : State) (slot : Nat) (f : Block → Block) : (modBlock s slot f).cur = s.cur := by
  unfold modBlock; split <;> rfl
@[simp] theorem modBlock_freeCtr (s : State) (slot : Nat) (f : Block → Block) : (modBlock s slot f).freeCtr = s.freeCtr := by
  unfold modBlock; split <;> rfl
@[simp] theorem modBlock_cycle (s : State) (slot : Nat) (f : Block → Block) : (modBlock s slot f).cycle = s.cycle := by
  unfold modBlock; split <;> rfl
@[simp] theorem modBlock_gtsBase (s : State) (slot : Nat) (f : Block → Block) : (modBlock s slot f).gtsBase = s.gtsBase := by
  unfold modBlock; split <;> rfl
@[simp] theorem modBlock_device (s : State) (slot : Nat) (f : Block → Block) : (modBlock s slot f).device = s.device := by
  unfold modBlock; split <;> rfl
@[simp] theorem modBlock_dram (s : State) (slot : Nat) (f : Block → Block) : (modBlock s slot f).dram = s.dram := by
  unfold modBlock; split <;> rfl
@[simp] theorem modBlock_ws (s : State) (slot : Nat) (f : Block → Block) : (modBlock s slot f).ws = s.ws := by
  unfold modBlock; split <;> rfl
@[simp] theorem modBlock_tags (s : State) (slot : Nat) (f : Block → Block) : (modBlock s slot f).tags = s.tags := by
  unfold modBlock; split <;> rfl
@[simp] theorem modBlock_poison (s : State) (slot : Nat) (f : Block → Block) : (modBlock s slot f).poison = s.poison := by
  unfold modBlock; split <;> rfl
@[simp] theorem modBlock_wsPoison (s : State) (slot : Nat) (f : Block → Block) : (modBlock s slot f).wsPoison = s.wsPoison := by
  unfold modBlock; split <;> rfl
@[simp] theorem modBlock_lineKey (s : State) (slot : Nat) (f : Block → Block) : (modBlock s slot f).lineKey = s.lineKey := by
  unfold modBlock; split <;> rfl
@[simp] theorem modBlock_migrations (s : State) (slot : Nat) (f : Block → Block) : (modBlock s slot f).migrations = s.migrations := by
  unfold modBlock; split <;> rfl
@[simp] theorem modBlock_refresh (s : State) (slot : Nat) (f : Block → Block) : (modBlock s slot f).refresh = s.refresh := by
  unfold modBlock; split <;> rfl
@[simp] theorem modBlock_launches (s : State) (slot : Nat) (f : Block → Block) : (modBlock s slot f).launches = s.launches := by
  unfold modBlock; split <;> rfl
@[simp] theorem modBlock_nextLaunch (s : State) (slot : Nat) (f : Block → Block) : (modBlock s slot f).nextLaunch = s.nextLaunch := by
  unfold modBlock; split <;> rfl
@[simp] theorem modBlock_contexts (s : State) (slot : Nat) (f : Block → Block) : (modBlock s slot f).contexts = s.contexts := by
  unfold modBlock; split <;> rfl
@[simp] theorem modBlock_cores (s : State) (slot : Nat) (f : Block → Block) : (modBlock s slot f).cores = s.cores := by
  unfold modBlock; split <;> rfl
@[simp] theorem modBlock_clusters (s : State) (slot : Nat) (f : Block → Block) : (modBlock s slot f).clusters = s.clusters := by
  unfold modBlock; split <;> rfl
@[simp] theorem modBlock_bundles (s : State) (slot : Nat) (f : Block → Block) : (modBlock s slot f).bundles = s.bundles := by
  unfold modBlock; split <;> rfl
@[simp] theorem modBlock_turns (s : State) (slot : Nat) (f : Block → Block) : (modBlock s slot f).turns = s.turns := by
  unfold modBlock; split <;> rfl
@[simp] theorem modBlock_engines (s : State) (slot : Nat) (f : Block → Block) : (modBlock s slot f).engines = s.engines := by
  unfold modBlock; split <;> rfl
@[simp] theorem modBlock_nextId (s : State) (slot : Nat) (f : Block → Block) : (modBlock s slot f).nextId = s.nextId := by
  unfold modBlock; split <;> rfl
@[simp] theorem modBlock_drovers (s : State) (slot : Nat) (f : Block → Block) : (modBlock s slot f).drovers = s.drovers := by
  unfold modBlock; split <;> rfl
@[simp] theorem modBlock_staging (s : State) (slot : Nat) (f : Block → Block) : (modBlock s slot f).staging = s.staging := by
  unfold modBlock; split <;> rfl
@[simp] theorem modBlock_lehrs (s : State) (slot : Nat) (f : Block → Block) : (modBlock s slot f).lehrs = s.lehrs := by
  unfold modBlock; split <;> rfl
@[simp] theorem modBlock_abroad (s : State) (slot : Nat) (f : Block → Block) : (modBlock s slot f).abroad = s.abroad := by
  unfold modBlock; split <;> rfl
@[simp] theorem modBlock_commits (s : State) (slot : Nat) (f : Block → Block) : (modBlock s slot f).commits = s.commits := by
  unfold modBlock; split <;> rfl
@[simp] theorem modBlock_unbinding (s : State) (slot : Nat) (f : Block → Block) : (modBlock s slot f).unbinding = s.unbinding := by
  unfold modBlock; split <;> rfl
@[simp] theorem modBlock_launchQs (s : State) (slot : Nat) (f : Block → Block) : (modBlock s slot f).launchQs = s.launchQs := by
  unfold modBlock; split <;> rfl
@[simp] theorem modBlock_bulkQs (s : State) (slot : Nat) (f : Block → Block) : (modBlock s slot f).bulkQs = s.bulkQs := by
  unfold modBlock; split <;> rfl
@[simp] theorem modBlock_service (s : State) (slot : Nat) (f : Block → Block) : (modBlock s slot f).service = s.service := by
  unfold modBlock; split <;> rfl
@[simp] theorem modBlock_fabric (s : State) (slot : Nat) (f : Block → Block) : (modBlock s slot f).fabric = s.fabric := by
  unfold modBlock; split <;> rfl

/-! ### setThread -/

@[simp] theorem setThread_agenda (s : State) (t : ThreadId) (x : Thread) : (setThread s t x).agenda = s.agenda := by
  unfold setThread; exact modBlock_agenda ..
@[simp] theorem setThread_cur (s : State) (t : ThreadId) (x : Thread) : (setThread s t x).cur = s.cur := by
  unfold setThread; exact modBlock_cur ..
@[simp] theorem setThread_freeCtr (s : State) (t : ThreadId) (x : Thread) : (setThread s t x).freeCtr = s.freeCtr := by
  unfold setThread; exact modBlock_freeCtr ..
@[simp] theorem setThread_cycle (s : State) (t : ThreadId) (x : Thread) : (setThread s t x).cycle = s.cycle := by
  unfold setThread; exact modBlock_cycle ..
@[simp] theorem setThread_gtsBase (s : State) (t : ThreadId) (x : Thread) : (setThread s t x).gtsBase = s.gtsBase := by
  unfold setThread; exact modBlock_gtsBase ..
@[simp] theorem setThread_device (s : State) (t : ThreadId) (x : Thread) : (setThread s t x).device = s.device := by
  unfold setThread; exact modBlock_device ..
@[simp] theorem setThread_dram (s : State) (t : ThreadId) (x : Thread) : (setThread s t x).dram = s.dram := by
  unfold setThread; exact modBlock_dram ..
@[simp] theorem setThread_ws (s : State) (t : ThreadId) (x : Thread) : (setThread s t x).ws = s.ws := by
  unfold setThread; exact modBlock_ws ..
@[simp] theorem setThread_tags (s : State) (t : ThreadId) (x : Thread) : (setThread s t x).tags = s.tags := by
  unfold setThread; exact modBlock_tags ..
@[simp] theorem setThread_poison (s : State) (t : ThreadId) (x : Thread) : (setThread s t x).poison = s.poison := by
  unfold setThread; exact modBlock_poison ..
@[simp] theorem setThread_wsPoison (s : State) (t : ThreadId) (x : Thread) : (setThread s t x).wsPoison = s.wsPoison := by
  unfold setThread; exact modBlock_wsPoison ..
@[simp] theorem setThread_lineKey (s : State) (t : ThreadId) (x : Thread) : (setThread s t x).lineKey = s.lineKey := by
  unfold setThread; exact modBlock_lineKey ..
@[simp] theorem setThread_migrations (s : State) (t : ThreadId) (x : Thread) : (setThread s t x).migrations = s.migrations := by
  unfold setThread; exact modBlock_migrations ..
@[simp] theorem setThread_refresh (s : State) (t : ThreadId) (x : Thread) : (setThread s t x).refresh = s.refresh := by
  unfold setThread; exact modBlock_refresh ..
@[simp] theorem setThread_launches (s : State) (t : ThreadId) (x : Thread) : (setThread s t x).launches = s.launches := by
  unfold setThread; exact modBlock_launches ..
@[simp] theorem setThread_nextLaunch (s : State) (t : ThreadId) (x : Thread) : (setThread s t x).nextLaunch = s.nextLaunch := by
  unfold setThread; exact modBlock_nextLaunch ..
@[simp] theorem setThread_contexts (s : State) (t : ThreadId) (x : Thread) : (setThread s t x).contexts = s.contexts := by
  unfold setThread; exact modBlock_contexts ..
@[simp] theorem setThread_cores (s : State) (t : ThreadId) (x : Thread) : (setThread s t x).cores = s.cores := by
  unfold setThread; exact modBlock_cores ..
@[simp] theorem setThread_clusters (s : State) (t : ThreadId) (x : Thread) : (setThread s t x).clusters = s.clusters := by
  unfold setThread; exact modBlock_clusters ..
@[simp] theorem setThread_bundles (s : State) (t : ThreadId) (x : Thread) : (setThread s t x).bundles = s.bundles := by
  unfold setThread; exact modBlock_bundles ..
@[simp] theorem setThread_turns (s : State) (t : ThreadId) (x : Thread) : (setThread s t x).turns = s.turns := by
  unfold setThread; exact modBlock_turns ..
@[simp] theorem setThread_engines (s : State) (t : ThreadId) (x : Thread) : (setThread s t x).engines = s.engines := by
  unfold setThread; exact modBlock_engines ..
@[simp] theorem setThread_nextId (s : State) (t : ThreadId) (x : Thread) : (setThread s t x).nextId = s.nextId := by
  unfold setThread; exact modBlock_nextId ..
@[simp] theorem setThread_drovers (s : State) (t : ThreadId) (x : Thread) : (setThread s t x).drovers = s.drovers := by
  unfold setThread; exact modBlock_drovers ..
@[simp] theorem setThread_staging (s : State) (t : ThreadId) (x : Thread) : (setThread s t x).staging = s.staging := by
  unfold setThread; exact modBlock_staging ..
@[simp] theorem setThread_lehrs (s : State) (t : ThreadId) (x : Thread) : (setThread s t x).lehrs = s.lehrs := by
  unfold setThread; exact modBlock_lehrs ..
@[simp] theorem setThread_abroad (s : State) (t : ThreadId) (x : Thread) : (setThread s t x).abroad = s.abroad := by
  unfold setThread; exact modBlock_abroad ..
@[simp] theorem setThread_commits (s : State) (t : ThreadId) (x : Thread) : (setThread s t x).commits = s.commits := by
  unfold setThread; exact modBlock_commits ..
@[simp] theorem setThread_unbinding (s : State) (t : ThreadId) (x : Thread) : (setThread s t x).unbinding = s.unbinding := by
  unfold setThread; exact modBlock_unbinding ..
@[simp] theorem setThread_launchQs (s : State) (t : ThreadId) (x : Thread) : (setThread s t x).launchQs = s.launchQs := by
  unfold setThread; exact modBlock_launchQs ..
@[simp] theorem setThread_bulkQs (s : State) (t : ThreadId) (x : Thread) : (setThread s t x).bulkQs = s.bulkQs := by
  unfold setThread; exact modBlock_bulkQs ..
@[simp] theorem setThread_service (s : State) (t : ThreadId) (x : Thread) : (setThread s t x).service = s.service := by
  unfold setThread; exact modBlock_service ..
@[simp] theorem setThread_fabric (s : State) (t : ThreadId) (x : Thread) : (setThread s t x).fabric = s.fabric := by
  unfold setThread; exact modBlock_fabric ..

/-! ### modThread -/

@[simp] theorem modThread_agenda (s : State) (t : ThreadId) (f : Thread → Thread) : (modThread s t f).agenda = s.agenda := by
  unfold modThread; exact modBlock_agenda ..
@[simp] theorem modThread_cur (s : State) (t : ThreadId) (f : Thread → Thread) : (modThread s t f).cur = s.cur := by
  unfold modThread; exact modBlock_cur ..
@[simp] theorem modThread_freeCtr (s : State) (t : ThreadId) (f : Thread → Thread) : (modThread s t f).freeCtr = s.freeCtr := by
  unfold modThread; exact modBlock_freeCtr ..
@[simp] theorem modThread_cycle (s : State) (t : ThreadId) (f : Thread → Thread) : (modThread s t f).cycle = s.cycle := by
  unfold modThread; exact modBlock_cycle ..
@[simp] theorem modThread_gtsBase (s : State) (t : ThreadId) (f : Thread → Thread) : (modThread s t f).gtsBase = s.gtsBase := by
  unfold modThread; exact modBlock_gtsBase ..
@[simp] theorem modThread_device (s : State) (t : ThreadId) (f : Thread → Thread) : (modThread s t f).device = s.device := by
  unfold modThread; exact modBlock_device ..
@[simp] theorem modThread_dram (s : State) (t : ThreadId) (f : Thread → Thread) : (modThread s t f).dram = s.dram := by
  unfold modThread; exact modBlock_dram ..
@[simp] theorem modThread_ws (s : State) (t : ThreadId) (f : Thread → Thread) : (modThread s t f).ws = s.ws := by
  unfold modThread; exact modBlock_ws ..
@[simp] theorem modThread_tags (s : State) (t : ThreadId) (f : Thread → Thread) : (modThread s t f).tags = s.tags := by
  unfold modThread; exact modBlock_tags ..
@[simp] theorem modThread_poison (s : State) (t : ThreadId) (f : Thread → Thread) : (modThread s t f).poison = s.poison := by
  unfold modThread; exact modBlock_poison ..
@[simp] theorem modThread_wsPoison (s : State) (t : ThreadId) (f : Thread → Thread) : (modThread s t f).wsPoison = s.wsPoison := by
  unfold modThread; exact modBlock_wsPoison ..
@[simp] theorem modThread_lineKey (s : State) (t : ThreadId) (f : Thread → Thread) : (modThread s t f).lineKey = s.lineKey := by
  unfold modThread; exact modBlock_lineKey ..
@[simp] theorem modThread_migrations (s : State) (t : ThreadId) (f : Thread → Thread) : (modThread s t f).migrations = s.migrations := by
  unfold modThread; exact modBlock_migrations ..
@[simp] theorem modThread_refresh (s : State) (t : ThreadId) (f : Thread → Thread) : (modThread s t f).refresh = s.refresh := by
  unfold modThread; exact modBlock_refresh ..
@[simp] theorem modThread_launches (s : State) (t : ThreadId) (f : Thread → Thread) : (modThread s t f).launches = s.launches := by
  unfold modThread; exact modBlock_launches ..
@[simp] theorem modThread_nextLaunch (s : State) (t : ThreadId) (f : Thread → Thread) : (modThread s t f).nextLaunch = s.nextLaunch := by
  unfold modThread; exact modBlock_nextLaunch ..
@[simp] theorem modThread_contexts (s : State) (t : ThreadId) (f : Thread → Thread) : (modThread s t f).contexts = s.contexts := by
  unfold modThread; exact modBlock_contexts ..
@[simp] theorem modThread_cores (s : State) (t : ThreadId) (f : Thread → Thread) : (modThread s t f).cores = s.cores := by
  unfold modThread; exact modBlock_cores ..
@[simp] theorem modThread_clusters (s : State) (t : ThreadId) (f : Thread → Thread) : (modThread s t f).clusters = s.clusters := by
  unfold modThread; exact modBlock_clusters ..
@[simp] theorem modThread_bundles (s : State) (t : ThreadId) (f : Thread → Thread) : (modThread s t f).bundles = s.bundles := by
  unfold modThread; exact modBlock_bundles ..
@[simp] theorem modThread_turns (s : State) (t : ThreadId) (f : Thread → Thread) : (modThread s t f).turns = s.turns := by
  unfold modThread; exact modBlock_turns ..
@[simp] theorem modThread_engines (s : State) (t : ThreadId) (f : Thread → Thread) : (modThread s t f).engines = s.engines := by
  unfold modThread; exact modBlock_engines ..
@[simp] theorem modThread_nextId (s : State) (t : ThreadId) (f : Thread → Thread) : (modThread s t f).nextId = s.nextId := by
  unfold modThread; exact modBlock_nextId ..
@[simp] theorem modThread_drovers (s : State) (t : ThreadId) (f : Thread → Thread) : (modThread s t f).drovers = s.drovers := by
  unfold modThread; exact modBlock_drovers ..
@[simp] theorem modThread_staging (s : State) (t : ThreadId) (f : Thread → Thread) : (modThread s t f).staging = s.staging := by
  unfold modThread; exact modBlock_staging ..
@[simp] theorem modThread_lehrs (s : State) (t : ThreadId) (f : Thread → Thread) : (modThread s t f).lehrs = s.lehrs := by
  unfold modThread; exact modBlock_lehrs ..
@[simp] theorem modThread_abroad (s : State) (t : ThreadId) (f : Thread → Thread) : (modThread s t f).abroad = s.abroad := by
  unfold modThread; exact modBlock_abroad ..
@[simp] theorem modThread_commits (s : State) (t : ThreadId) (f : Thread → Thread) : (modThread s t f).commits = s.commits := by
  unfold modThread; exact modBlock_commits ..
@[simp] theorem modThread_unbinding (s : State) (t : ThreadId) (f : Thread → Thread) : (modThread s t f).unbinding = s.unbinding := by
  unfold modThread; exact modBlock_unbinding ..
@[simp] theorem modThread_launchQs (s : State) (t : ThreadId) (f : Thread → Thread) : (modThread s t f).launchQs = s.launchQs := by
  unfold modThread; exact modBlock_launchQs ..
@[simp] theorem modThread_bulkQs (s : State) (t : ThreadId) (f : Thread → Thread) : (modThread s t f).bulkQs = s.bulkQs := by
  unfold modThread; exact modBlock_bulkQs ..
@[simp] theorem modThread_service (s : State) (t : ThreadId) (f : Thread → Thread) : (modThread s t f).service = s.service := by
  unfold modThread; exact modBlock_service ..
@[simp] theorem modThread_fabric (s : State) (t : ThreadId) (f : Thread → Thread) : (modThread s t f).fabric = s.fabric := by
  unfold modThread; exact modBlock_fabric ..

/-! ### modCtx -/

@[simp] theorem modCtx_agenda (s : State) (c : Nat) (f : Context → Context) : (modCtx s c f).agenda = s.agenda := by
  unfold modCtx; split <;> rfl
@[simp] theorem modCtx_cur (s : State) (c : Nat) (f : Context → Context) : (modCtx s c f).cur = s.cur := by
  unfold modCtx; split <;> rfl
@[simp] theorem modCtx_freeCtr (s : State) (c : Nat) (f : Context → Context) : (modCtx s c f).freeCtr = s.freeCtr := by
  unfold modCtx; split <;> rfl
@[simp] theorem modCtx_cycle (s : State) (c : Nat) (f : Context → Context) : (modCtx s c f).cycle = s.cycle := by
  unfold modCtx; split <;> rfl
@[simp] theorem modCtx_gtsBase (s : State) (c : Nat) (f : Context → Context) : (modCtx s c f).gtsBase = s.gtsBase := by
  unfold modCtx; split <;> rfl
@[simp] theorem modCtx_device (s : State) (c : Nat) (f : Context → Context) : (modCtx s c f).device = s.device := by
  unfold modCtx; split <;> rfl
@[simp] theorem modCtx_dram (s : State) (c : Nat) (f : Context → Context) : (modCtx s c f).dram = s.dram := by
  unfold modCtx; split <;> rfl
@[simp] theorem modCtx_ws (s : State) (c : Nat) (f : Context → Context) : (modCtx s c f).ws = s.ws := by
  unfold modCtx; split <;> rfl
@[simp] theorem modCtx_tags (s : State) (c : Nat) (f : Context → Context) : (modCtx s c f).tags = s.tags := by
  unfold modCtx; split <;> rfl
@[simp] theorem modCtx_poison (s : State) (c : Nat) (f : Context → Context) : (modCtx s c f).poison = s.poison := by
  unfold modCtx; split <;> rfl
@[simp] theorem modCtx_wsPoison (s : State) (c : Nat) (f : Context → Context) : (modCtx s c f).wsPoison = s.wsPoison := by
  unfold modCtx; split <;> rfl
@[simp] theorem modCtx_lineKey (s : State) (c : Nat) (f : Context → Context) : (modCtx s c f).lineKey = s.lineKey := by
  unfold modCtx; split <;> rfl
@[simp] theorem modCtx_migrations (s : State) (c : Nat) (f : Context → Context) : (modCtx s c f).migrations = s.migrations := by
  unfold modCtx; split <;> rfl
@[simp] theorem modCtx_refresh (s : State) (c : Nat) (f : Context → Context) : (modCtx s c f).refresh = s.refresh := by
  unfold modCtx; split <;> rfl
@[simp] theorem modCtx_blocks (s : State) (c : Nat) (f : Context → Context) : (modCtx s c f).blocks = s.blocks := by
  unfold modCtx; split <;> rfl
@[simp] theorem modCtx_launches (s : State) (c : Nat) (f : Context → Context) : (modCtx s c f).launches = s.launches := by
  unfold modCtx; split <;> rfl
@[simp] theorem modCtx_nextLaunch (s : State) (c : Nat) (f : Context → Context) : (modCtx s c f).nextLaunch = s.nextLaunch := by
  unfold modCtx; split <;> rfl
@[simp] theorem modCtx_cores (s : State) (c : Nat) (f : Context → Context) : (modCtx s c f).cores = s.cores := by
  unfold modCtx; split <;> rfl
@[simp] theorem modCtx_clusters (s : State) (c : Nat) (f : Context → Context) : (modCtx s c f).clusters = s.clusters := by
  unfold modCtx; split <;> rfl
@[simp] theorem modCtx_bundles (s : State) (c : Nat) (f : Context → Context) : (modCtx s c f).bundles = s.bundles := by
  unfold modCtx; split <;> rfl
@[simp] theorem modCtx_turns (s : State) (c : Nat) (f : Context → Context) : (modCtx s c f).turns = s.turns := by
  unfold modCtx; split <;> rfl
@[simp] theorem modCtx_engines (s : State) (c : Nat) (f : Context → Context) : (modCtx s c f).engines = s.engines := by
  unfold modCtx; split <;> rfl
@[simp] theorem modCtx_nextId (s : State) (c : Nat) (f : Context → Context) : (modCtx s c f).nextId = s.nextId := by
  unfold modCtx; split <;> rfl
@[simp] theorem modCtx_drovers (s : State) (c : Nat) (f : Context → Context) : (modCtx s c f).drovers = s.drovers := by
  unfold modCtx; split <;> rfl
@[simp] theorem modCtx_staging (s : State) (c : Nat) (f : Context → Context) : (modCtx s c f).staging = s.staging := by
  unfold modCtx; split <;> rfl
@[simp] theorem modCtx_lehrs (s : State) (c : Nat) (f : Context → Context) : (modCtx s c f).lehrs = s.lehrs := by
  unfold modCtx; split <;> rfl
@[simp] theorem modCtx_abroad (s : State) (c : Nat) (f : Context → Context) : (modCtx s c f).abroad = s.abroad := by
  unfold modCtx; split <;> rfl
@[simp] theorem modCtx_commits (s : State) (c : Nat) (f : Context → Context) : (modCtx s c f).commits = s.commits := by
  unfold modCtx; split <;> rfl
@[simp] theorem modCtx_unbinding (s : State) (c : Nat) (f : Context → Context) : (modCtx s c f).unbinding = s.unbinding := by
  unfold modCtx; split <;> rfl
@[simp] theorem modCtx_launchQs (s : State) (c : Nat) (f : Context → Context) : (modCtx s c f).launchQs = s.launchQs := by
  unfold modCtx; split <;> rfl
@[simp] theorem modCtx_bulkQs (s : State) (c : Nat) (f : Context → Context) : (modCtx s c f).bulkQs = s.bulkQs := by
  unfold modCtx; split <;> rfl
@[simp] theorem modCtx_service (s : State) (c : Nat) (f : Context → Context) : (modCtx s c f).service = s.service := by
  unfold modCtx; split <;> rfl
@[simp] theorem modCtx_fabric (s : State) (c : Nat) (f : Context → Context) : (modCtx s c f).fabric = s.fabric := by
  unfold modCtx; split <;> rfl

/-! ### modLaunch -/

@[simp] theorem modLaunch_agenda (s : State) (l : Nat) (f : Launch → Launch) : (modLaunch s l f).agenda = s.agenda := by
  unfold modLaunch; split <;> rfl
@[simp] theorem modLaunch_cur (s : State) (l : Nat) (f : Launch → Launch) : (modLaunch s l f).cur = s.cur := by
  unfold modLaunch; split <;> rfl
@[simp] theorem modLaunch_freeCtr (s : State) (l : Nat) (f : Launch → Launch) : (modLaunch s l f).freeCtr = s.freeCtr := by
  unfold modLaunch; split <;> rfl
@[simp] theorem modLaunch_cycle (s : State) (l : Nat) (f : Launch → Launch) : (modLaunch s l f).cycle = s.cycle := by
  unfold modLaunch; split <;> rfl
@[simp] theorem modLaunch_gtsBase (s : State) (l : Nat) (f : Launch → Launch) : (modLaunch s l f).gtsBase = s.gtsBase := by
  unfold modLaunch; split <;> rfl
@[simp] theorem modLaunch_device (s : State) (l : Nat) (f : Launch → Launch) : (modLaunch s l f).device = s.device := by
  unfold modLaunch; split <;> rfl
@[simp] theorem modLaunch_dram (s : State) (l : Nat) (f : Launch → Launch) : (modLaunch s l f).dram = s.dram := by
  unfold modLaunch; split <;> rfl
@[simp] theorem modLaunch_ws (s : State) (l : Nat) (f : Launch → Launch) : (modLaunch s l f).ws = s.ws := by
  unfold modLaunch; split <;> rfl
@[simp] theorem modLaunch_tags (s : State) (l : Nat) (f : Launch → Launch) : (modLaunch s l f).tags = s.tags := by
  unfold modLaunch; split <;> rfl
@[simp] theorem modLaunch_poison (s : State) (l : Nat) (f : Launch → Launch) : (modLaunch s l f).poison = s.poison := by
  unfold modLaunch; split <;> rfl
@[simp] theorem modLaunch_wsPoison (s : State) (l : Nat) (f : Launch → Launch) : (modLaunch s l f).wsPoison = s.wsPoison := by
  unfold modLaunch; split <;> rfl
@[simp] theorem modLaunch_lineKey (s : State) (l : Nat) (f : Launch → Launch) : (modLaunch s l f).lineKey = s.lineKey := by
  unfold modLaunch; split <;> rfl
@[simp] theorem modLaunch_migrations (s : State) (l : Nat) (f : Launch → Launch) : (modLaunch s l f).migrations = s.migrations := by
  unfold modLaunch; split <;> rfl
@[simp] theorem modLaunch_refresh (s : State) (l : Nat) (f : Launch → Launch) : (modLaunch s l f).refresh = s.refresh := by
  unfold modLaunch; split <;> rfl
@[simp] theorem modLaunch_blocks (s : State) (l : Nat) (f : Launch → Launch) : (modLaunch s l f).blocks = s.blocks := by
  unfold modLaunch; split <;> rfl
@[simp] theorem modLaunch_nextLaunch (s : State) (l : Nat) (f : Launch → Launch) : (modLaunch s l f).nextLaunch = s.nextLaunch := by
  unfold modLaunch; split <;> rfl
@[simp] theorem modLaunch_contexts (s : State) (l : Nat) (f : Launch → Launch) : (modLaunch s l f).contexts = s.contexts := by
  unfold modLaunch; split <;> rfl
@[simp] theorem modLaunch_cores (s : State) (l : Nat) (f : Launch → Launch) : (modLaunch s l f).cores = s.cores := by
  unfold modLaunch; split <;> rfl
@[simp] theorem modLaunch_clusters (s : State) (l : Nat) (f : Launch → Launch) : (modLaunch s l f).clusters = s.clusters := by
  unfold modLaunch; split <;> rfl
@[simp] theorem modLaunch_bundles (s : State) (l : Nat) (f : Launch → Launch) : (modLaunch s l f).bundles = s.bundles := by
  unfold modLaunch; split <;> rfl
@[simp] theorem modLaunch_turns (s : State) (l : Nat) (f : Launch → Launch) : (modLaunch s l f).turns = s.turns := by
  unfold modLaunch; split <;> rfl
@[simp] theorem modLaunch_engines (s : State) (l : Nat) (f : Launch → Launch) : (modLaunch s l f).engines = s.engines := by
  unfold modLaunch; split <;> rfl
@[simp] theorem modLaunch_nextId (s : State) (l : Nat) (f : Launch → Launch) : (modLaunch s l f).nextId = s.nextId := by
  unfold modLaunch; split <;> rfl
@[simp] theorem modLaunch_drovers (s : State) (l : Nat) (f : Launch → Launch) : (modLaunch s l f).drovers = s.drovers := by
  unfold modLaunch; split <;> rfl
@[simp] theorem modLaunch_staging (s : State) (l : Nat) (f : Launch → Launch) : (modLaunch s l f).staging = s.staging := by
  unfold modLaunch; split <;> rfl
@[simp] theorem modLaunch_lehrs (s : State) (l : Nat) (f : Launch → Launch) : (modLaunch s l f).lehrs = s.lehrs := by
  unfold modLaunch; split <;> rfl
@[simp] theorem modLaunch_abroad (s : State) (l : Nat) (f : Launch → Launch) : (modLaunch s l f).abroad = s.abroad := by
  unfold modLaunch; split <;> rfl
@[simp] theorem modLaunch_commits (s : State) (l : Nat) (f : Launch → Launch) : (modLaunch s l f).commits = s.commits := by
  unfold modLaunch; split <;> rfl
@[simp] theorem modLaunch_unbinding (s : State) (l : Nat) (f : Launch → Launch) : (modLaunch s l f).unbinding = s.unbinding := by
  unfold modLaunch; split <;> rfl
@[simp] theorem modLaunch_launchQs (s : State) (l : Nat) (f : Launch → Launch) : (modLaunch s l f).launchQs = s.launchQs := by
  unfold modLaunch; split <;> rfl
@[simp] theorem modLaunch_bulkQs (s : State) (l : Nat) (f : Launch → Launch) : (modLaunch s l f).bulkQs = s.bulkQs := by
  unfold modLaunch; split <;> rfl
@[simp] theorem modLaunch_service (s : State) (l : Nat) (f : Launch → Launch) : (modLaunch s l f).service = s.service := by
  unfold modLaunch; split <;> rfl
@[simp] theorem modLaunch_fabric (s : State) (l : Nat) (f : Launch → Launch) : (modLaunch s l f).fabric = s.fabric := by
  unfold modLaunch; split <;> rfl

/-! ### Thread.leave -/

@[simp] theorem Thread.leave_v (t : Thread) (now : Nat) (h : Hdr) (pc : BitVec 16) : (t.leave now h pc).v = t.v := rfl
@[simp] theorem Thread.leave_a (t : Thread) (now : Nat) (h : Hdr) (pc : BitVec 16) : (t.leave now h pc).a = t.a := rfl
@[simp] theorem Thread.leave_p (t : Thread) (now : Nat) (h : Hdr) (pc : BitVec 16) : (t.leave now h pc).p = t.p := rfl
@[simp] theorem Thread.leave_fpx (t : Thread) (now : Nat) (h : Hdr) (pc : BitVec 16) : (t.leave now h pc).fpx = t.fpx := rfl
@[simp] theorem Thread.leave_sgen (t : Thread) (now : Nat) (h : Hdr) (pc : BitVec 16) : (t.leave now h pc).sgen = t.sgen := rfl
@[simp] theorem Thread.leave_clkh (t : Thread) (now : Nat) (h : Hdr) (pc : BitVec 16) : (t.leave now h pc).clkh = t.clkh := rfl
@[simp] theorem Thread.leave_gtsh (t : Thread) (now : Nat) (h : Hdr) (pc : BitVec 16) : (t.leave now h pc).gtsh = t.gtsh := rfl
@[simp] theorem Thread.leave_poisonV (t : Thread) (now : Nat) (h : Hdr) (pc : BitVec 16) : (t.leave now h pc).poisonV = t.poisonV := rfl
@[simp] theorem Thread.leave_poisonA (t : Thread) (now : Nat) (h : Hdr) (pc : BitVec 16) : (t.leave now h pc).poisonA = t.poisonA := rfl
@[simp] theorem Thread.leave_poisonP (t : Thread) (now : Nat) (h : Hdr) (pc : BitVec 16) : (t.leave now h pc).poisonP = t.poisonP := rfl
@[simp] theorem Thread.leave_poisonF (t : Thread) (now : Nat) (h : Hdr) (pc : BitVec 16) : (t.leave now h pc).poisonF = t.poisonF := rfl
@[simp] theorem Thread.leave_pc (t : Thread) (now : Nat) (h : Hdr) (pc : BitVec 16) : (t.leave now h pc).pc = pc := rfl
@[simp] theorem Thread.leave_stack (t : Thread) (now : Nat) (h : Hdr) (pc : BitVec 16) : (t.leave now h pc).stack = t.stack := rfl
@[simp] theorem Thread.leave_rpaddr (t : Thread) (now : Nat) (h : Hdr) (pc : BitVec 16) : (t.leave now h pc).rpaddr = t.rpaddr := rfl
@[simp] theorem Thread.leave_rpStack (t : Thread) (now : Nat) (h : Hdr) (pc : BitVec 16) : (t.leave now h pc).rpStack = t.rpStack := rfl
@[simp] theorem Thread.leave_counts (t : Thread) (now : Nat) (h : Hdr) (pc : BitVec 16) : (t.leave now h pc).counts = t.counts := rfl
@[simp] theorem Thread.leave_region (t : Thread) (now : Nat) (h : Hdr) (pc : BitVec 16) : (t.leave now h pc).region = t.region := rfl
@[simp] theorem Thread.leave_tokens (t : Thread) (now : Nat) (h : Hdr) (pc : BitVec 16) : (t.leave now h pc).tokens = t.tokens := rfl
@[simp] theorem Thread.leave_pend (t : Thread) (now : Nat) (h : Hdr) (pc : BitVec 16) : (t.leave now h pc).pend = t.pend := rfl
@[simp] theorem Thread.leave_lat (t : Thread) (now : Nat) (h : Hdr) (pc : BitVec 16) : (t.leave now h pc).lat = t.lat := rfl
@[simp] theorem Thread.leave_fpxAt (t : Thread) (now : Nat) (h : Hdr) (pc : BitVec 16) : (t.leave now h pc).fpxAt = t.fpxAt := rfl
@[simp] theorem Thread.leave_nextIssue (t : Thread) (now : Nat) (h : Hdr) (pc : BitVec 16) : (t.leave now h pc).nextIssue = now + max 1 h.stall.toNat := rfl
@[simp] theorem Thread.leave_status (t : Thread) (now : Nat) (h : Hdr) (pc : BitVec 16) : (t.leave now h pc).status = .ready := rfl
@[simp] theorem Thread.leave_arrival (t : Thread) (now : Nat) (h : Hdr) (pc : BitVec 16) : (t.leave now h pc).arrival = t.arrival := rfl
@[simp] theorem Thread.leave_trap (t : Thread) (now : Nat) (h : Hdr) (pc : BitVec 16) : (t.leave now h pc).trap = t.trap := rfl
@[simp] theorem Thread.leave_sched (t : Thread) (now : Nat) (h : Hdr) (pc : BitVec 16) : (t.leave now h pc).sched = ⟨t.sched.yielded, h.yield, 0, none⟩ := rfl
@[simp] theorem Thread.leave_lent (t : Thread) (now : Nat) (h : Hdr) (pc : BitVec 16) : (t.leave now h pc).lent = t.lent := rfl
@[simp] theorem Thread.leave_known (t : Thread) (now : Nat) (h : Hdr) (pc : BitVec 16) : (t.leave now h pc).known = t.known := rfl
@[simp] theorem Thread.leave_late (t : Thread) (now : Nat) (h : Hdr) (pc : BitVec 16) : (t.leave now h pc).late = t.late := rfl
@[simp] theorem Thread.leave_snap (t : Thread) (now : Nat) (h : Hdr) (pc : BitVec 16) : (t.leave now h pc).snap = t.snap := rfl
@[simp] theorem Thread.leave_stgOut (t : Thread) (now : Nat) (h : Hdr) (pc : BitVec 16) : (t.leave now h pc).stgOut = t.stgOut := rfl
@[simp] theorem Thread.leave_runFrom (t : Thread) (now : Nat) (h : Hdr) (pc : BitVec 16) : (t.leave now h pc).runFrom = t.runFrom := rfl

/-! ### Thread.done -/

@[simp] theorem Thread.done_v (t : Thread) (now : Nat) (h : Hdr) : (t.done now h).v = t.v := rfl
@[simp] theorem Thread.done_a (t : Thread) (now : Nat) (h : Hdr) : (t.done now h).a = t.a := rfl
@[simp] theorem Thread.done_p (t : Thread) (now : Nat) (h : Hdr) : (t.done now h).p = t.p := rfl
@[simp] theorem Thread.done_fpx (t : Thread) (now : Nat) (h : Hdr) : (t.done now h).fpx = t.fpx := rfl
@[simp] theorem Thread.done_sgen (t : Thread) (now : Nat) (h : Hdr) : (t.done now h).sgen = t.sgen := rfl
@[simp] theorem Thread.done_clkh (t : Thread) (now : Nat) (h : Hdr) : (t.done now h).clkh = t.clkh := rfl
@[simp] theorem Thread.done_gtsh (t : Thread) (now : Nat) (h : Hdr) : (t.done now h).gtsh = t.gtsh := rfl
@[simp] theorem Thread.done_poisonV (t : Thread) (now : Nat) (h : Hdr) : (t.done now h).poisonV = t.poisonV := rfl
@[simp] theorem Thread.done_poisonA (t : Thread) (now : Nat) (h : Hdr) : (t.done now h).poisonA = t.poisonA := rfl
@[simp] theorem Thread.done_poisonP (t : Thread) (now : Nat) (h : Hdr) : (t.done now h).poisonP = t.poisonP := rfl
@[simp] theorem Thread.done_poisonF (t : Thread) (now : Nat) (h : Hdr) : (t.done now h).poisonF = t.poisonF := rfl
@[simp] theorem Thread.done_pc (t : Thread) (now : Nat) (h : Hdr) : (t.done now h).pc = nextSlot t.pc := rfl
@[simp] theorem Thread.done_stack (t : Thread) (now : Nat) (h : Hdr) : (t.done now h).stack = t.stack := rfl
@[simp] theorem Thread.done_rpaddr (t : Thread) (now : Nat) (h : Hdr) : (t.done now h).rpaddr = t.rpaddr := rfl
@[simp] theorem Thread.done_rpStack (t : Thread) (now : Nat) (h : Hdr) : (t.done now h).rpStack = t.rpStack := rfl
@[simp] theorem Thread.done_counts (t : Thread) (now : Nat) (h : Hdr) : (t.done now h).counts = t.counts := rfl
@[simp] theorem Thread.done_region (t : Thread) (now : Nat) (h : Hdr) : (t.done now h).region = t.region := rfl
@[simp] theorem Thread.done_tokens (t : Thread) (now : Nat) (h : Hdr) : (t.done now h).tokens = t.tokens := rfl
@[simp] theorem Thread.done_pend (t : Thread) (now : Nat) (h : Hdr) : (t.done now h).pend = t.pend := rfl
@[simp] theorem Thread.done_lat (t : Thread) (now : Nat) (h : Hdr) : (t.done now h).lat = t.lat := rfl
@[simp] theorem Thread.done_fpxAt (t : Thread) (now : Nat) (h : Hdr) : (t.done now h).fpxAt = t.fpxAt := rfl
@[simp] theorem Thread.done_nextIssue (t : Thread) (now : Nat) (h : Hdr) : (t.done now h).nextIssue = now + max 1 h.stall.toNat := rfl
@[simp] theorem Thread.done_status (t : Thread) (now : Nat) (h : Hdr) : (t.done now h).status = .ready := rfl
@[simp] theorem Thread.done_arrival (t : Thread) (now : Nat) (h : Hdr) : (t.done now h).arrival = t.arrival := rfl
@[simp] theorem Thread.done_trap (t : Thread) (now : Nat) (h : Hdr) : (t.done now h).trap = t.trap := rfl
@[simp] theorem Thread.done_sched (t : Thread) (now : Nat) (h : Hdr) : (t.done now h).sched = ⟨t.sched.yielded, h.yield, 0, none⟩ := rfl
@[simp] theorem Thread.done_lent (t : Thread) (now : Nat) (h : Hdr) : (t.done now h).lent = t.lent := rfl
@[simp] theorem Thread.done_known (t : Thread) (now : Nat) (h : Hdr) : (t.done now h).known = t.known := rfl
@[simp] theorem Thread.done_late (t : Thread) (now : Nat) (h : Hdr) : (t.done now h).late = t.late := rfl
@[simp] theorem Thread.done_snap (t : Thread) (now : Nat) (h : Hdr) : (t.done now h).snap = t.snap := rfl
@[simp] theorem Thread.done_stgOut (t : Thread) (now : Nat) (h : Hdr) : (t.done now h).stgOut = t.stgOut := rfl
@[simp] theorem Thread.done_runFrom (t : Thread) (now : Nat) (h : Hdr) : (t.done now h).runFrom = t.runFrom := rfl

/-! ### Thread.hold -/

@[simp] theorem Thread.hold_v (t : Thread) (now : Nat) (st : TStatus) : (t.hold now st).v = t.v := rfl
@[simp] theorem Thread.hold_a (t : Thread) (now : Nat) (st : TStatus) : (t.hold now st).a = t.a := rfl
@[simp] theorem Thread.hold_p (t : Thread) (now : Nat) (st : TStatus) : (t.hold now st).p = t.p := rfl
@[simp] theorem Thread.hold_fpx (t : Thread) (now : Nat) (st : TStatus) : (t.hold now st).fpx = t.fpx := rfl
@[simp] theorem Thread.hold_sgen (t : Thread) (now : Nat) (st : TStatus) : (t.hold now st).sgen = t.sgen := rfl
@[simp] theorem Thread.hold_clkh (t : Thread) (now : Nat) (st : TStatus) : (t.hold now st).clkh = t.clkh := rfl
@[simp] theorem Thread.hold_gtsh (t : Thread) (now : Nat) (st : TStatus) : (t.hold now st).gtsh = t.gtsh := rfl
@[simp] theorem Thread.hold_poisonV (t : Thread) (now : Nat) (st : TStatus) : (t.hold now st).poisonV = t.poisonV := rfl
@[simp] theorem Thread.hold_poisonA (t : Thread) (now : Nat) (st : TStatus) : (t.hold now st).poisonA = t.poisonA := rfl
@[simp] theorem Thread.hold_poisonP (t : Thread) (now : Nat) (st : TStatus) : (t.hold now st).poisonP = t.poisonP := rfl
@[simp] theorem Thread.hold_poisonF (t : Thread) (now : Nat) (st : TStatus) : (t.hold now st).poisonF = t.poisonF := rfl
@[simp] theorem Thread.hold_pc (t : Thread) (now : Nat) (st : TStatus) : (t.hold now st).pc = t.pc := rfl
@[simp] theorem Thread.hold_stack (t : Thread) (now : Nat) (st : TStatus) : (t.hold now st).stack = t.stack := rfl
@[simp] theorem Thread.hold_rpaddr (t : Thread) (now : Nat) (st : TStatus) : (t.hold now st).rpaddr = t.rpaddr := rfl
@[simp] theorem Thread.hold_rpStack (t : Thread) (now : Nat) (st : TStatus) : (t.hold now st).rpStack = t.rpStack := rfl
@[simp] theorem Thread.hold_counts (t : Thread) (now : Nat) (st : TStatus) : (t.hold now st).counts = t.counts := rfl
@[simp] theorem Thread.hold_region (t : Thread) (now : Nat) (st : TStatus) : (t.hold now st).region = t.region := rfl
@[simp] theorem Thread.hold_tokens (t : Thread) (now : Nat) (st : TStatus) : (t.hold now st).tokens = t.tokens := rfl
@[simp] theorem Thread.hold_pend (t : Thread) (now : Nat) (st : TStatus) : (t.hold now st).pend = t.pend := rfl
@[simp] theorem Thread.hold_lat (t : Thread) (now : Nat) (st : TStatus) : (t.hold now st).lat = t.lat := rfl
@[simp] theorem Thread.hold_fpxAt (t : Thread) (now : Nat) (st : TStatus) : (t.hold now st).fpxAt = t.fpxAt := rfl
@[simp] theorem Thread.hold_nextIssue (t : Thread) (now : Nat) (st : TStatus) : (t.hold now st).nextIssue = now + 1 := rfl
@[simp] theorem Thread.hold_status (t : Thread) (now : Nat) (st : TStatus) : (t.hold now st).status = st := rfl
@[simp] theorem Thread.hold_arrival (t : Thread) (now : Nat) (st : TStatus) : (t.hold now st).arrival = t.arrival := rfl
@[simp] theorem Thread.hold_trap (t : Thread) (now : Nat) (st : TStatus) : (t.hold now st).trap = t.trap := rfl
@[simp] theorem Thread.hold_sched (t : Thread) (now : Nat) (st : TStatus) : (t.hold now st).sched = t.sched := rfl
@[simp] theorem Thread.hold_lent (t : Thread) (now : Nat) (st : TStatus) : (t.hold now st).lent = t.lent := rfl
@[simp] theorem Thread.hold_known (t : Thread) (now : Nat) (st : TStatus) : (t.hold now st).known = t.known := rfl
@[simp] theorem Thread.hold_late (t : Thread) (now : Nat) (st : TStatus) : (t.hold now st).late = t.late := rfl
@[simp] theorem Thread.hold_snap (t : Thread) (now : Nat) (st : TStatus) : (t.hold now st).snap = t.snap := rfl
@[simp] theorem Thread.hold_stgOut (t : Thread) (now : Nat) (st : TStatus) : (t.hold now st).stgOut = t.stgOut := rfl
@[simp] theorem Thread.hold_runFrom (t : Thread) (now : Nat) (st : TStatus) : (t.hold now st).runFrom = t.runFrom := rfl

/-! ### wrV -/

@[simp] theorem wrV_v (now : Nat) (t : Thread) (r : VReg) (x : Word) (lat : Nat) : (wrV now t r x lat).v = t.v.set r.toNat x (vreg_lt r) := rfl
@[simp] theorem wrV_a (now : Nat) (t : Thread) (r : VReg) (x : Word) (lat : Nat) : (wrV now t r x lat).a = t.a := rfl
@[simp] theorem wrV_p (now : Nat) (t : Thread) (r : VReg) (x : Word) (lat : Nat) : (wrV now t r x lat).p = t.p := rfl
@[simp] theorem wrV_fpx (now : Nat) (t : Thread) (r : VReg) (x : Word) (lat : Nat) : (wrV now t r x lat).fpx = t.fpx := rfl
@[simp] theorem wrV_sgen (now : Nat) (t : Thread) (r : VReg) (x : Word) (lat : Nat) : (wrV now t r x lat).sgen = t.sgen := rfl
@[simp] theorem wrV_clkh (now : Nat) (t : Thread) (r : VReg) (x : Word) (lat : Nat) : (wrV now t r x lat).clkh = t.clkh := rfl
@[simp] theorem wrV_gtsh (now : Nat) (t : Thread) (r : VReg) (x : Word) (lat : Nat) : (wrV now t r x lat).gtsh = t.gtsh := rfl
@[simp] theorem wrV_poisonA (now : Nat) (t : Thread) (r : VReg) (x : Word) (lat : Nat) : (wrV now t r x lat).poisonA = t.poisonA := rfl
@[simp] theorem wrV_poisonP (now : Nat) (t : Thread) (r : VReg) (x : Word) (lat : Nat) : (wrV now t r x lat).poisonP = t.poisonP := rfl
@[simp] theorem wrV_poisonF (now : Nat) (t : Thread) (r : VReg) (x : Word) (lat : Nat) : (wrV now t r x lat).poisonF = t.poisonF := rfl
@[simp] theorem wrV_pc (now : Nat) (t : Thread) (r : VReg) (x : Word) (lat : Nat) : (wrV now t r x lat).pc = t.pc := rfl
@[simp] theorem wrV_stack (now : Nat) (t : Thread) (r : VReg) (x : Word) (lat : Nat) : (wrV now t r x lat).stack = t.stack := rfl
@[simp] theorem wrV_rpaddr (now : Nat) (t : Thread) (r : VReg) (x : Word) (lat : Nat) : (wrV now t r x lat).rpaddr = t.rpaddr := rfl
@[simp] theorem wrV_rpStack (now : Nat) (t : Thread) (r : VReg) (x : Word) (lat : Nat) : (wrV now t r x lat).rpStack = t.rpStack := rfl
@[simp] theorem wrV_counts (now : Nat) (t : Thread) (r : VReg) (x : Word) (lat : Nat) : (wrV now t r x lat).counts = t.counts := rfl
@[simp] theorem wrV_region (now : Nat) (t : Thread) (r : VReg) (x : Word) (lat : Nat) : (wrV now t r x lat).region = t.region := rfl
@[simp] theorem wrV_tokens (now : Nat) (t : Thread) (r : VReg) (x : Word) (lat : Nat) : (wrV now t r x lat).tokens = t.tokens := rfl
@[simp] theorem wrV_pend (now : Nat) (t : Thread) (r : VReg) (x : Word) (lat : Nat) : (wrV now t r x lat).pend = t.pend := rfl
@[simp] theorem wrV_fpxAt (now : Nat) (t : Thread) (r : VReg) (x : Word) (lat : Nat) : (wrV now t r x lat).fpxAt = t.fpxAt := rfl
@[simp] theorem wrV_nextIssue (now : Nat) (t : Thread) (r : VReg) (x : Word) (lat : Nat) : (wrV now t r x lat).nextIssue = t.nextIssue := rfl
@[simp] theorem wrV_status (now : Nat) (t : Thread) (r : VReg) (x : Word) (lat : Nat) : (wrV now t r x lat).status = t.status := rfl
@[simp] theorem wrV_arrival (now : Nat) (t : Thread) (r : VReg) (x : Word) (lat : Nat) : (wrV now t r x lat).arrival = t.arrival := rfl
@[simp] theorem wrV_trap (now : Nat) (t : Thread) (r : VReg) (x : Word) (lat : Nat) : (wrV now t r x lat).trap = t.trap := rfl
@[simp] theorem wrV_sched (now : Nat) (t : Thread) (r : VReg) (x : Word) (lat : Nat) : (wrV now t r x lat).sched = t.sched := rfl
@[simp] theorem wrV_late (now : Nat) (t : Thread) (r : VReg) (x : Word) (lat : Nat) : (wrV now t r x lat).late = t.late := rfl
@[simp] theorem wrV_snap (now : Nat) (t : Thread) (r : VReg) (x : Word) (lat : Nat) : (wrV now t r x lat).snap = t.snap := rfl
@[simp] theorem wrV_stgOut (now : Nat) (t : Thread) (r : VReg) (x : Word) (lat : Nat) : (wrV now t r x lat).stgOut = t.stgOut := rfl
@[simp] theorem wrV_runFrom (now : Nat) (t : Thread) (r : VReg) (x : Word) (lat : Nat) : (wrV now t r x lat).runFrom = t.runFrom := rfl

/-! ### wrV64 -/

@[simp] theorem wrV64_a (now : Nat) (t : Thread) (r : VReg) (x : DWord) (lat : Nat) : (wrV64 now t r x lat).a = t.a := rfl
@[simp] theorem wrV64_p (now : Nat) (t : Thread) (r : VReg) (x : DWord) (lat : Nat) : (wrV64 now t r x lat).p = t.p := rfl
@[simp] theorem wrV64_fpx (now : Nat) (t : Thread) (r : VReg) (x : DWord) (lat : Nat) : (wrV64 now t r x lat).fpx = t.fpx := rfl
@[simp] theorem wrV64_sgen (now : Nat) (t : Thread) (r : VReg) (x : DWord) (lat : Nat) : (wrV64 now t r x lat).sgen = t.sgen := rfl
@[simp] theorem wrV64_clkh (now : Nat) (t : Thread) (r : VReg) (x : DWord) (lat : Nat) : (wrV64 now t r x lat).clkh = t.clkh := rfl
@[simp] theorem wrV64_gtsh (now : Nat) (t : Thread) (r : VReg) (x : DWord) (lat : Nat) : (wrV64 now t r x lat).gtsh = t.gtsh := rfl
@[simp] theorem wrV64_poisonA (now : Nat) (t : Thread) (r : VReg) (x : DWord) (lat : Nat) : (wrV64 now t r x lat).poisonA = t.poisonA := rfl
@[simp] theorem wrV64_poisonP (now : Nat) (t : Thread) (r : VReg) (x : DWord) (lat : Nat) : (wrV64 now t r x lat).poisonP = t.poisonP := rfl
@[simp] theorem wrV64_poisonF (now : Nat) (t : Thread) (r : VReg) (x : DWord) (lat : Nat) : (wrV64 now t r x lat).poisonF = t.poisonF := rfl
@[simp] theorem wrV64_pc (now : Nat) (t : Thread) (r : VReg) (x : DWord) (lat : Nat) : (wrV64 now t r x lat).pc = t.pc := rfl
@[simp] theorem wrV64_stack (now : Nat) (t : Thread) (r : VReg) (x : DWord) (lat : Nat) : (wrV64 now t r x lat).stack = t.stack := rfl
@[simp] theorem wrV64_rpaddr (now : Nat) (t : Thread) (r : VReg) (x : DWord) (lat : Nat) : (wrV64 now t r x lat).rpaddr = t.rpaddr := rfl
@[simp] theorem wrV64_rpStack (now : Nat) (t : Thread) (r : VReg) (x : DWord) (lat : Nat) : (wrV64 now t r x lat).rpStack = t.rpStack := rfl
@[simp] theorem wrV64_counts (now : Nat) (t : Thread) (r : VReg) (x : DWord) (lat : Nat) : (wrV64 now t r x lat).counts = t.counts := rfl
@[simp] theorem wrV64_region (now : Nat) (t : Thread) (r : VReg) (x : DWord) (lat : Nat) : (wrV64 now t r x lat).region = t.region := rfl
@[simp] theorem wrV64_tokens (now : Nat) (t : Thread) (r : VReg) (x : DWord) (lat : Nat) : (wrV64 now t r x lat).tokens = t.tokens := rfl
@[simp] theorem wrV64_pend (now : Nat) (t : Thread) (r : VReg) (x : DWord) (lat : Nat) : (wrV64 now t r x lat).pend = t.pend := rfl
@[simp] theorem wrV64_fpxAt (now : Nat) (t : Thread) (r : VReg) (x : DWord) (lat : Nat) : (wrV64 now t r x lat).fpxAt = t.fpxAt := rfl
@[simp] theorem wrV64_nextIssue (now : Nat) (t : Thread) (r : VReg) (x : DWord) (lat : Nat) : (wrV64 now t r x lat).nextIssue = t.nextIssue := rfl
@[simp] theorem wrV64_status (now : Nat) (t : Thread) (r : VReg) (x : DWord) (lat : Nat) : (wrV64 now t r x lat).status = t.status := rfl
@[simp] theorem wrV64_arrival (now : Nat) (t : Thread) (r : VReg) (x : DWord) (lat : Nat) : (wrV64 now t r x lat).arrival = t.arrival := rfl
@[simp] theorem wrV64_trap (now : Nat) (t : Thread) (r : VReg) (x : DWord) (lat : Nat) : (wrV64 now t r x lat).trap = t.trap := rfl
@[simp] theorem wrV64_sched (now : Nat) (t : Thread) (r : VReg) (x : DWord) (lat : Nat) : (wrV64 now t r x lat).sched = t.sched := rfl
@[simp] theorem wrV64_late (now : Nat) (t : Thread) (r : VReg) (x : DWord) (lat : Nat) : (wrV64 now t r x lat).late = t.late := rfl
@[simp] theorem wrV64_snap (now : Nat) (t : Thread) (r : VReg) (x : DWord) (lat : Nat) : (wrV64 now t r x lat).snap = t.snap := rfl
@[simp] theorem wrV64_stgOut (now : Nat) (t : Thread) (r : VReg) (x : DWord) (lat : Nat) : (wrV64 now t r x lat).stgOut = t.stgOut := rfl
@[simp] theorem wrV64_runFrom (now : Nat) (t : Thread) (r : VReg) (x : DWord) (lat : Nat) : (wrV64 now t r x lat).runFrom = t.runFrom := rfl

/-! ### wrA -/

@[simp] theorem wrA_v (now : Nat) (t : Thread) (r : AReg) (x : Cap) (lat : Nat) : (wrA now t r x lat).v = t.v := rfl
@[simp] theorem wrA_a (now : Nat) (t : Thread) (r : AReg) (x : Cap) (lat : Nat) : (wrA now t r x lat).a = t.a.set r.toNat x (areg_lt r) := rfl
@[simp] theorem wrA_p (now : Nat) (t : Thread) (r : AReg) (x : Cap) (lat : Nat) : (wrA now t r x lat).p = t.p := rfl
@[simp] theorem wrA_fpx (now : Nat) (t : Thread) (r : AReg) (x : Cap) (lat : Nat) : (wrA now t r x lat).fpx = t.fpx := rfl
@[simp] theorem wrA_sgen (now : Nat) (t : Thread) (r : AReg) (x : Cap) (lat : Nat) : (wrA now t r x lat).sgen = t.sgen := rfl
@[simp] theorem wrA_clkh (now : Nat) (t : Thread) (r : AReg) (x : Cap) (lat : Nat) : (wrA now t r x lat).clkh = t.clkh := rfl
@[simp] theorem wrA_gtsh (now : Nat) (t : Thread) (r : AReg) (x : Cap) (lat : Nat) : (wrA now t r x lat).gtsh = t.gtsh := rfl
@[simp] theorem wrA_poisonV (now : Nat) (t : Thread) (r : AReg) (x : Cap) (lat : Nat) : (wrA now t r x lat).poisonV = t.poisonV := rfl
@[simp] theorem wrA_poisonP (now : Nat) (t : Thread) (r : AReg) (x : Cap) (lat : Nat) : (wrA now t r x lat).poisonP = t.poisonP := rfl
@[simp] theorem wrA_poisonF (now : Nat) (t : Thread) (r : AReg) (x : Cap) (lat : Nat) : (wrA now t r x lat).poisonF = t.poisonF := rfl
@[simp] theorem wrA_pc (now : Nat) (t : Thread) (r : AReg) (x : Cap) (lat : Nat) : (wrA now t r x lat).pc = t.pc := rfl
@[simp] theorem wrA_stack (now : Nat) (t : Thread) (r : AReg) (x : Cap) (lat : Nat) : (wrA now t r x lat).stack = t.stack := rfl
@[simp] theorem wrA_rpaddr (now : Nat) (t : Thread) (r : AReg) (x : Cap) (lat : Nat) : (wrA now t r x lat).rpaddr = t.rpaddr := rfl
@[simp] theorem wrA_rpStack (now : Nat) (t : Thread) (r : AReg) (x : Cap) (lat : Nat) : (wrA now t r x lat).rpStack = t.rpStack := rfl
@[simp] theorem wrA_counts (now : Nat) (t : Thread) (r : AReg) (x : Cap) (lat : Nat) : (wrA now t r x lat).counts = t.counts := rfl
@[simp] theorem wrA_region (now : Nat) (t : Thread) (r : AReg) (x : Cap) (lat : Nat) : (wrA now t r x lat).region = t.region := rfl
@[simp] theorem wrA_tokens (now : Nat) (t : Thread) (r : AReg) (x : Cap) (lat : Nat) : (wrA now t r x lat).tokens = t.tokens := rfl
@[simp] theorem wrA_pend (now : Nat) (t : Thread) (r : AReg) (x : Cap) (lat : Nat) : (wrA now t r x lat).pend = t.pend := rfl
@[simp] theorem wrA_fpxAt (now : Nat) (t : Thread) (r : AReg) (x : Cap) (lat : Nat) : (wrA now t r x lat).fpxAt = t.fpxAt := rfl
@[simp] theorem wrA_nextIssue (now : Nat) (t : Thread) (r : AReg) (x : Cap) (lat : Nat) : (wrA now t r x lat).nextIssue = t.nextIssue := rfl
@[simp] theorem wrA_status (now : Nat) (t : Thread) (r : AReg) (x : Cap) (lat : Nat) : (wrA now t r x lat).status = t.status := rfl
@[simp] theorem wrA_arrival (now : Nat) (t : Thread) (r : AReg) (x : Cap) (lat : Nat) : (wrA now t r x lat).arrival = t.arrival := rfl
@[simp] theorem wrA_trap (now : Nat) (t : Thread) (r : AReg) (x : Cap) (lat : Nat) : (wrA now t r x lat).trap = t.trap := rfl
@[simp] theorem wrA_sched (now : Nat) (t : Thread) (r : AReg) (x : Cap) (lat : Nat) : (wrA now t r x lat).sched = t.sched := rfl
@[simp] theorem wrA_lent (now : Nat) (t : Thread) (r : AReg) (x : Cap) (lat : Nat) : (wrA now t r x lat).lent = t.lent := rfl
@[simp] theorem wrA_known (now : Nat) (t : Thread) (r : AReg) (x : Cap) (lat : Nat) : (wrA now t r x lat).known = t.known := rfl
@[simp] theorem wrA_late (now : Nat) (t : Thread) (r : AReg) (x : Cap) (lat : Nat) : (wrA now t r x lat).late = t.late := rfl
@[simp] theorem wrA_snap (now : Nat) (t : Thread) (r : AReg) (x : Cap) (lat : Nat) : (wrA now t r x lat).snap = t.snap := rfl
@[simp] theorem wrA_stgOut (now : Nat) (t : Thread) (r : AReg) (x : Cap) (lat : Nat) : (wrA now t r x lat).stgOut = t.stgOut := rfl
@[simp] theorem wrA_runFrom (now : Nat) (t : Thread) (r : AReg) (x : Cap) (lat : Nat) : (wrA now t r x lat).runFrom = t.runFrom := rfl

/-! ### writeFpx -/

@[simp] theorem writeFpx_v (now : Nat) (t : Thread) (x : Word) : (writeFpx now t x).v = t.v := rfl
@[simp] theorem writeFpx_a (now : Nat) (t : Thread) (x : Word) : (writeFpx now t x).a = t.a := rfl
@[simp] theorem writeFpx_p (now : Nat) (t : Thread) (x : Word) : (writeFpx now t x).p = t.p := rfl
@[simp] theorem writeFpx_fpx (now : Nat) (t : Thread) (x : Word) : (writeFpx now t x).fpx = 0#2 ++ x.extractLsb' 0 6 := rfl
@[simp] theorem writeFpx_sgen (now : Nat) (t : Thread) (x : Word) : (writeFpx now t x).sgen = t.sgen := rfl
@[simp] theorem writeFpx_clkh (now : Nat) (t : Thread) (x : Word) : (writeFpx now t x).clkh = t.clkh := rfl
@[simp] theorem writeFpx_gtsh (now : Nat) (t : Thread) (x : Word) : (writeFpx now t x).gtsh = t.gtsh := rfl
@[simp] theorem writeFpx_poisonV (now : Nat) (t : Thread) (x : Word) : (writeFpx now t x).poisonV = t.poisonV := rfl
@[simp] theorem writeFpx_poisonA (now : Nat) (t : Thread) (x : Word) : (writeFpx now t x).poisonA = t.poisonA := rfl
@[simp] theorem writeFpx_poisonP (now : Nat) (t : Thread) (x : Word) : (writeFpx now t x).poisonP = t.poisonP := rfl
@[simp] theorem writeFpx_poisonF (now : Nat) (t : Thread) (x : Word) : (writeFpx now t x).poisonF = false := rfl
@[simp] theorem writeFpx_pc (now : Nat) (t : Thread) (x : Word) : (writeFpx now t x).pc = t.pc := rfl
@[simp] theorem writeFpx_stack (now : Nat) (t : Thread) (x : Word) : (writeFpx now t x).stack = t.stack := rfl
@[simp] theorem writeFpx_rpaddr (now : Nat) (t : Thread) (x : Word) : (writeFpx now t x).rpaddr = t.rpaddr := rfl
@[simp] theorem writeFpx_rpStack (now : Nat) (t : Thread) (x : Word) : (writeFpx now t x).rpStack = t.rpStack := rfl
@[simp] theorem writeFpx_counts (now : Nat) (t : Thread) (x : Word) : (writeFpx now t x).counts = t.counts := rfl
@[simp] theorem writeFpx_region (now : Nat) (t : Thread) (x : Word) : (writeFpx now t x).region = t.region := rfl
@[simp] theorem writeFpx_tokens (now : Nat) (t : Thread) (x : Word) : (writeFpx now t x).tokens = t.tokens := rfl
@[simp] theorem writeFpx_pend (now : Nat) (t : Thread) (x : Word) : (writeFpx now t x).pend = t.pend := rfl
@[simp] theorem writeFpx_lat (now : Nat) (t : Thread) (x : Word) : (writeFpx now t x).lat = t.lat := rfl
@[simp] theorem writeFpx_nextIssue (now : Nat) (t : Thread) (x : Word) : (writeFpx now t x).nextIssue = t.nextIssue := rfl
@[simp] theorem writeFpx_status (now : Nat) (t : Thread) (x : Word) : (writeFpx now t x).status = t.status := rfl
@[simp] theorem writeFpx_arrival (now : Nat) (t : Thread) (x : Word) : (writeFpx now t x).arrival = t.arrival := rfl
@[simp] theorem writeFpx_trap (now : Nat) (t : Thread) (x : Word) : (writeFpx now t x).trap = t.trap := rfl
@[simp] theorem writeFpx_sched (now : Nat) (t : Thread) (x : Word) : (writeFpx now t x).sched = t.sched := rfl
@[simp] theorem writeFpx_lent (now : Nat) (t : Thread) (x : Word) : (writeFpx now t x).lent = t.lent := rfl
@[simp] theorem writeFpx_known (now : Nat) (t : Thread) (x : Word) : (writeFpx now t x).known = t.known := rfl
@[simp] theorem writeFpx_late (now : Nat) (t : Thread) (x : Word) : (writeFpx now t x).late = t.late := rfl
@[simp] theorem writeFpx_snap (now : Nat) (t : Thread) (x : Word) : (writeFpx now t x).snap = t.snap := rfl
@[simp] theorem writeFpx_stgOut (now : Nat) (t : Thread) (x : Word) : (writeFpx now t x).stgOut = t.stgOut := rfl
@[simp] theorem writeFpx_runFrom (now : Nat) (t : Thread) (x : Word) : (writeFpx now t x).runFrom = t.runFrom := rfl

/-! ### wrP and addFlags -/

@[simp] theorem wrP_v (now : Nat) (t : Thread) (r : PReg) (x : Bool) (lat : Nat) : (wrP now t r x lat).v = t.v := by
  unfold wrP; split <;> rfl
@[simp] theorem wrP_a (now : Nat) (t : Thread) (r : PReg) (x : Bool) (lat : Nat) : (wrP now t r x lat).a = t.a := by
  unfold wrP; split <;> rfl
@[simp] theorem wrP_fpx (now : Nat) (t : Thread) (r : PReg) (x : Bool) (lat : Nat) : (wrP now t r x lat).fpx = t.fpx := by
  unfold wrP; split <;> rfl
@[simp] theorem wrP_sgen (now : Nat) (t : Thread) (r : PReg) (x : Bool) (lat : Nat) : (wrP now t r x lat).sgen = t.sgen := by
  unfold wrP; split <;> rfl
@[simp] theorem wrP_clkh (now : Nat) (t : Thread) (r : PReg) (x : Bool) (lat : Nat) : (wrP now t r x lat).clkh = t.clkh := by
  unfold wrP; split <;> rfl
@[simp] theorem wrP_gtsh (now : Nat) (t : Thread) (r : PReg) (x : Bool) (lat : Nat) : (wrP now t r x lat).gtsh = t.gtsh := by
  unfold wrP; split <;> rfl
@[simp] theorem wrP_poisonV (now : Nat) (t : Thread) (r : PReg) (x : Bool) (lat : Nat) : (wrP now t r x lat).poisonV = t.poisonV := by
  unfold wrP; split <;> rfl
@[simp] theorem wrP_poisonA (now : Nat) (t : Thread) (r : PReg) (x : Bool) (lat : Nat) : (wrP now t r x lat).poisonA = t.poisonA := by
  unfold wrP; split <;> rfl
@[simp] theorem wrP_poisonF (now : Nat) (t : Thread) (r : PReg) (x : Bool) (lat : Nat) : (wrP now t r x lat).poisonF = t.poisonF := by
  unfold wrP; split <;> rfl
@[simp] theorem wrP_pc (now : Nat) (t : Thread) (r : PReg) (x : Bool) (lat : Nat) : (wrP now t r x lat).pc = t.pc := by
  unfold wrP; split <;> rfl
@[simp] theorem wrP_stack (now : Nat) (t : Thread) (r : PReg) (x : Bool) (lat : Nat) : (wrP now t r x lat).stack = t.stack := by
  unfold wrP; split <;> rfl
@[simp] theorem wrP_rpaddr (now : Nat) (t : Thread) (r : PReg) (x : Bool) (lat : Nat) : (wrP now t r x lat).rpaddr = t.rpaddr := by
  unfold wrP; split <;> rfl
@[simp] theorem wrP_rpStack (now : Nat) (t : Thread) (r : PReg) (x : Bool) (lat : Nat) : (wrP now t r x lat).rpStack = t.rpStack := by
  unfold wrP; split <;> rfl
@[simp] theorem wrP_counts (now : Nat) (t : Thread) (r : PReg) (x : Bool) (lat : Nat) : (wrP now t r x lat).counts = t.counts := by
  unfold wrP; split <;> rfl
@[simp] theorem wrP_region (now : Nat) (t : Thread) (r : PReg) (x : Bool) (lat : Nat) : (wrP now t r x lat).region = t.region := by
  unfold wrP; split <;> rfl
@[simp] theorem wrP_tokens (now : Nat) (t : Thread) (r : PReg) (x : Bool) (lat : Nat) : (wrP now t r x lat).tokens = t.tokens := by
  unfold wrP; split <;> rfl
@[simp] theorem wrP_pend (now : Nat) (t : Thread) (r : PReg) (x : Bool) (lat : Nat) : (wrP now t r x lat).pend = t.pend := by
  unfold wrP; split <;> rfl
@[simp] theorem wrP_fpxAt (now : Nat) (t : Thread) (r : PReg) (x : Bool) (lat : Nat) : (wrP now t r x lat).fpxAt = t.fpxAt := by
  unfold wrP; split <;> rfl
@[simp] theorem wrP_nextIssue (now : Nat) (t : Thread) (r : PReg) (x : Bool) (lat : Nat) : (wrP now t r x lat).nextIssue = t.nextIssue := by
  unfold wrP; split <;> rfl
@[simp] theorem wrP_status (now : Nat) (t : Thread) (r : PReg) (x : Bool) (lat : Nat) : (wrP now t r x lat).status = t.status := by
  unfold wrP; split <;> rfl
@[simp] theorem wrP_arrival (now : Nat) (t : Thread) (r : PReg) (x : Bool) (lat : Nat) : (wrP now t r x lat).arrival = t.arrival := by
  unfold wrP; split <;> rfl
@[simp] theorem wrP_trap (now : Nat) (t : Thread) (r : PReg) (x : Bool) (lat : Nat) : (wrP now t r x lat).trap = t.trap := by
  unfold wrP; split <;> rfl
@[simp] theorem wrP_sched (now : Nat) (t : Thread) (r : PReg) (x : Bool) (lat : Nat) : (wrP now t r x lat).sched = t.sched := by
  unfold wrP; split <;> rfl
@[simp] theorem wrP_lent (now : Nat) (t : Thread) (r : PReg) (x : Bool) (lat : Nat) : (wrP now t r x lat).lent = t.lent := by
  unfold wrP; split <;> rfl
@[simp] theorem wrP_known (now : Nat) (t : Thread) (r : PReg) (x : Bool) (lat : Nat) : (wrP now t r x lat).known = t.known := by
  unfold wrP; split <;> rfl
@[simp] theorem wrP_late (now : Nat) (t : Thread) (r : PReg) (x : Bool) (lat : Nat) : (wrP now t r x lat).late = t.late := by
  unfold wrP; split <;> rfl
@[simp] theorem wrP_snap (now : Nat) (t : Thread) (r : PReg) (x : Bool) (lat : Nat) : (wrP now t r x lat).snap = t.snap := by
  unfold wrP; split <;> rfl
@[simp] theorem wrP_stgOut (now : Nat) (t : Thread) (r : PReg) (x : Bool) (lat : Nat) : (wrP now t r x lat).stgOut = t.stgOut := by
  unfold wrP; split <;> rfl
@[simp] theorem wrP_runFrom (now : Nat) (t : Thread) (r : PReg) (x : Bool) (lat : Nat) : (wrP now t r x lat).runFrom = t.runFrom := by
  unfold wrP; split <;> rfl
@[simp] theorem addFlags_v (now : Nat) (h : Hdr) (t : Thread) (g : Flags) (lat : Nat) : (addFlags now h t g lat).v = t.v := by
  unfold addFlags; split <;> rfl
@[simp] theorem addFlags_a (now : Nat) (h : Hdr) (t : Thread) (g : Flags) (lat : Nat) : (addFlags now h t g lat).a = t.a := by
  unfold addFlags; split <;> rfl
@[simp] theorem addFlags_p (now : Nat) (h : Hdr) (t : Thread) (g : Flags) (lat : Nat) : (addFlags now h t g lat).p = t.p := by
  unfold addFlags; split <;> rfl
@[simp] theorem addFlags_sgen (now : Nat) (h : Hdr) (t : Thread) (g : Flags) (lat : Nat) : (addFlags now h t g lat).sgen = t.sgen := by
  unfold addFlags; split <;> rfl
@[simp] theorem addFlags_clkh (now : Nat) (h : Hdr) (t : Thread) (g : Flags) (lat : Nat) : (addFlags now h t g lat).clkh = t.clkh := by
  unfold addFlags; split <;> rfl
@[simp] theorem addFlags_gtsh (now : Nat) (h : Hdr) (t : Thread) (g : Flags) (lat : Nat) : (addFlags now h t g lat).gtsh = t.gtsh := by
  unfold addFlags; split <;> rfl
@[simp] theorem addFlags_poisonV (now : Nat) (h : Hdr) (t : Thread) (g : Flags) (lat : Nat) : (addFlags now h t g lat).poisonV = t.poisonV := by
  unfold addFlags; split <;> rfl
@[simp] theorem addFlags_poisonA (now : Nat) (h : Hdr) (t : Thread) (g : Flags) (lat : Nat) : (addFlags now h t g lat).poisonA = t.poisonA := by
  unfold addFlags; split <;> rfl
@[simp] theorem addFlags_poisonP (now : Nat) (h : Hdr) (t : Thread) (g : Flags) (lat : Nat) : (addFlags now h t g lat).poisonP = t.poisonP := by
  unfold addFlags; split <;> rfl
@[simp] theorem addFlags_poisonF (now : Nat) (h : Hdr) (t : Thread) (g : Flags) (lat : Nat) : (addFlags now h t g lat).poisonF = t.poisonF := by
  unfold addFlags; split <;> rfl
@[simp] theorem addFlags_pc (now : Nat) (h : Hdr) (t : Thread) (g : Flags) (lat : Nat) : (addFlags now h t g lat).pc = t.pc := by
  unfold addFlags; split <;> rfl
@[simp] theorem addFlags_stack (now : Nat) (h : Hdr) (t : Thread) (g : Flags) (lat : Nat) : (addFlags now h t g lat).stack = t.stack := by
  unfold addFlags; split <;> rfl
@[simp] theorem addFlags_rpaddr (now : Nat) (h : Hdr) (t : Thread) (g : Flags) (lat : Nat) : (addFlags now h t g lat).rpaddr = t.rpaddr := by
  unfold addFlags; split <;> rfl
@[simp] theorem addFlags_rpStack (now : Nat) (h : Hdr) (t : Thread) (g : Flags) (lat : Nat) : (addFlags now h t g lat).rpStack = t.rpStack := by
  unfold addFlags; split <;> rfl
@[simp] theorem addFlags_counts (now : Nat) (h : Hdr) (t : Thread) (g : Flags) (lat : Nat) : (addFlags now h t g lat).counts = t.counts := by
  unfold addFlags; split <;> rfl
@[simp] theorem addFlags_region (now : Nat) (h : Hdr) (t : Thread) (g : Flags) (lat : Nat) : (addFlags now h t g lat).region = t.region := by
  unfold addFlags; split <;> rfl
@[simp] theorem addFlags_tokens (now : Nat) (h : Hdr) (t : Thread) (g : Flags) (lat : Nat) : (addFlags now h t g lat).tokens = t.tokens := by
  unfold addFlags; split <;> rfl
@[simp] theorem addFlags_pend (now : Nat) (h : Hdr) (t : Thread) (g : Flags) (lat : Nat) : (addFlags now h t g lat).pend = t.pend := by
  unfold addFlags; split <;> rfl
@[simp] theorem addFlags_lat (now : Nat) (h : Hdr) (t : Thread) (g : Flags) (lat : Nat) : (addFlags now h t g lat).lat = t.lat := by
  unfold addFlags; split <;> rfl
@[simp] theorem addFlags_nextIssue (now : Nat) (h : Hdr) (t : Thread) (g : Flags) (lat : Nat) : (addFlags now h t g lat).nextIssue = t.nextIssue := by
  unfold addFlags; split <;> rfl
@[simp] theorem addFlags_status (now : Nat) (h : Hdr) (t : Thread) (g : Flags) (lat : Nat) : (addFlags now h t g lat).status = t.status := by
  unfold addFlags; split <;> rfl
@[simp] theorem addFlags_arrival (now : Nat) (h : Hdr) (t : Thread) (g : Flags) (lat : Nat) : (addFlags now h t g lat).arrival = t.arrival := by
  unfold addFlags; split <;> rfl
@[simp] theorem addFlags_trap (now : Nat) (h : Hdr) (t : Thread) (g : Flags) (lat : Nat) : (addFlags now h t g lat).trap = t.trap := by
  unfold addFlags; split <;> rfl
@[simp] theorem addFlags_sched (now : Nat) (h : Hdr) (t : Thread) (g : Flags) (lat : Nat) : (addFlags now h t g lat).sched = t.sched := by
  unfold addFlags; split <;> rfl
@[simp] theorem addFlags_lent (now : Nat) (h : Hdr) (t : Thread) (g : Flags) (lat : Nat) : (addFlags now h t g lat).lent = t.lent := by
  unfold addFlags; split <;> rfl
@[simp] theorem addFlags_known (now : Nat) (h : Hdr) (t : Thread) (g : Flags) (lat : Nat) : (addFlags now h t g lat).known = t.known := by
  unfold addFlags; split <;> rfl
@[simp] theorem addFlags_late (now : Nat) (h : Hdr) (t : Thread) (g : Flags) (lat : Nat) : (addFlags now h t g lat).late = t.late := by
  unfold addFlags; split <;> rfl
@[simp] theorem addFlags_snap (now : Nat) (h : Hdr) (t : Thread) (g : Flags) (lat : Nat) : (addFlags now h t g lat).snap = t.snap := by
  unfold addFlags; split <;> rfl
@[simp] theorem addFlags_stgOut (now : Nat) (h : Hdr) (t : Thread) (g : Flags) (lat : Nat) : (addFlags now h t g lat).stgOut = t.stgOut := by
  unfold addFlags; split <;> rfl
@[simp] theorem addFlags_runFrom (now : Nat) (h : Hdr) (t : Thread) (g : Flags) (lat : Nat) : (addFlags now h t g lat).runFrom = t.runFrom := by
  unfold addFlags; split <;> rfl

end Sys2Proof.Machine
end

