-- ==== Sys2Proof/Laws/Ops.lean ====
section
/-! SUPPORT. One law per shared operation: what finding, setting and rewriting a block or a thread gives, the frame of a
meaning (`guarded`), and the registers after a write. -/

namespace Sys2Proof.Machine

open Sys2Proof

/-! ### Blocks and threads -/

theorem blockOf_setBlock (s : State) (a c : Nat) (b : Block) :
    blockOf (setBlock s a b) c = if c = a then some b else blockOf s c := by
  simp [blockOf, setBlock, Assoc.get_set]

theorem blockOf_modBlock (s : State) (a c : Nat) (f : Block → Block) :
    blockOf (modBlock s a f) c = if c = a then (blockOf s c).map f else blockOf s c := by
  unfold modBlock
  split
  · rename_i h; split <;> simp_all
  · rename_i b h; rw [blockOf_setBlock]; split <;> simp_all

theorem ctxOf_setCtx (s : State) (a c : Nat) (x : Context) :
    ctxOf (setCtx s a x) c = if c = a then some x else ctxOf s c := by
  simp [ctxOf, setCtx, Assoc.get_set]

theorem ctxOf_modCtx (s : State) (a c : Nat) (f : Context → Context) :
    ctxOf (modCtx s a f) c = if c = a then (ctxOf s c).map f else ctxOf s c := by
  unfold modCtx
  split
  · rename_i h; split <;> simp_all
  · rename_i b h; rw [ctxOf_setCtx]; split <;> simp_all

theorem launchOf_setLaunch (s : State) (a c : Nat) (x : Launch) :
    launchOf (setLaunch s a x) c = if c = a then some x else launchOf s c := by
  simp [launchOf, setLaunch, Assoc.get_set]

theorem launchOf_modLaunch (s : State) (a c : Nat) (f : Launch → Launch) :
    launchOf (modLaunch s a f) c = if c = a then (launchOf s c).map f else launchOf s c := by
  unfold modLaunch
  split
  · rename_i h; split <;> simp_all
  · rename_i b h; rw [launchOf_setLaunch]; split <;> simp_all

theorem coreOf_setCore (s : State) (a c : Nat) (x : Core) :
    coreOf (setCore s a x) c = if c = a then x else coreOf s c := by
  simp [coreOf, setCore, Assoc.getD_set]

theorem engineOf_setEngine (s : State) (a c : Nat) (x : Engine) :
    engineOf (setEngine s a x) c = if c = a then x else engineOf s c := by
  simp [engineOf, setEngine, Assoc.getD_set]

theorem clusterOf_setCluster (s : State) (a c : Nat) (x : Cluster) :
    clusterOf (setCluster s a x) c = if c = a then x else clusterOf s c := by
  simp [clusterOf, setCluster, Assoc.getD_set]

/-- Rewriting a thread rewrites it alone. -/
theorem threadOf_modThread (s : State) (t u : ThreadId) (f : Thread → Thread) :
    threadOf (modThread s t f) u = if u = t then (threadOf s u).map f else threadOf s u := by
  obtain ⟨a, i⟩ := t
  obtain ⟨c, j⟩ := u
  simp only [threadOf, modThread, blockOf_modBlock, ThreadId.mk.injEq]
  by_cases hc : c = a
  · subst hc
    cases hb : blockOf s c with
    | none => simp
    | some b =>
      simp only [if_true, Option.map_some, listModify_get, true_and]
      by_cases hj : i = j
      · subst hj; simp
      · rw [if_neg hj, if_neg (fun h => hj h.symm)]
  · simp [hc]

theorem threadOf_setThread (s : State) (t u : ThreadId) (x : Thread) :
    threadOf (setThread s t x) u = if u = t then (threadOf s u).map (fun _ => x) else threadOf s u :=
  threadOf_modThread s t u (fun _ => x)

theorem blockOf_setThread (s : State) (t : ThreadId) (x : Thread) (c : Nat) :
    blockOf (setThread s t x) c =
      if c = t.slot then (blockOf s c).map (fun b => { b with threads := listModify b.threads t.tidx (fun _ => x) })
      else blockOf s c :=
  blockOf_modBlock s t.slot c _

/-! ### The frame of a meaning -/

/-- The current thread, and where it is found. -/
theorem curCx_eq_some (s : State) (x : Cx) :
    curCx s = some x ↔ s.cur = some x.tid ∧ blockOf s x.tid.slot = some x.blk ∧ x.blk.threads[x.tid.tidx]? = some x.thr := by
  unfold curCx
  constructor
  · intro h
    split at h <;> try contradiction
    split at h <;> try contradiction
    split at h <;> try contradiction
    cases h
    simp_all
  · rintro ⟨h1, h2, h3⟩
    simp [h1, h2, h3]

theorem threadOf_curCx {s : State} {x : Cx} (h : curCx s = some x) : threadOf s x.tid = some x.thr := by
  obtain ⟨-, hb, ht⟩ := (curCx_eq_some s x).mp h
  simp [threadOf, hb, ht]

/-- With a true guard the meaning runs. -/
theorem guarded_true {h : Hdr} {s : State} {x : Cx} (hc : curCx s = some x) (hg : guardOf s x.thr h = true)
    (k : Cx → Out) : guarded h s k = k x := by
  simp [guarded, hc, hg]

/-- With a false guard the thread only goes on (R67). -/
theorem guarded_false {h : Hdr} {s : State} {x : Cx} (hc : curCx s = some x) (hg : guardOf s x.thr h = false)
    (k : Cx → Out) : guarded h s k = .next (setThread s x.tid (x.thr.done s.cycle h)) := by
  simp [guarded, hc, hg]

/-- Everything `guarded` can do. -/
theorem guarded_next {h : Hdr} {s t : State} {k : Cx → Out} (ht : guarded h s k = .next t) :
    ∃ x, curCx s = some x ∧ ((guardOf s x.thr h = true ∧ k x = .next t)
      ∨ (guardOf s x.thr h = false ∧ t = setThread s x.tid (x.thr.done s.cycle h))) := by
  unfold guarded at ht
  split at ht
  · cases ht
  · rename_i x hx
    refine ⟨x, hx, ?_⟩
    split at ht
    · rename_i hg; exact .inl ⟨hg, ht⟩
    · rename_i hg; cases ht; exact .inr ⟨by simpa using hg, rfl⟩

/-- `goOn` answers exactly one thread's change. -/
theorem goOn_next {h : Hdr} {s t : State} {x : Cx} {u : Thread} (ht : goOn h s x u = .next t) :
    t = setThread s x.tid (u.done s.cycle h) := by
  cases ht; rfl

/-! ### Registers after a write -/

@[simp] theorem wrV_get (now : Nat) (t : Thread) (d : VReg) (x : Word) (lat : Nat) (r : VReg) :
    (wrV now t d x lat).v[r.toNat]'(vreg_lt r) = if d = r then x else t.v[r.toNat]'(vreg_lt r) := by
  simp only [wrV_v, Vector.getElem_set]
  by_cases h : d = r
  · subst h; simp
  · rw [if_neg h, if_neg (fun e => h (BitVec.eq_of_toNat_eq e))]

@[simp] theorem wrA_get (now : Nat) (t : Thread) (d : AReg) (x : Cap) (lat : Nat) (r : AReg) :
    (wrA now t d x lat).a[r.toNat]'(areg_lt r) = if d = r then x else t.a[r.toNat]'(areg_lt r) := by
  simp only [wrA_a, Vector.getElem_set]
  by_cases h : d = r
  · subst h; simp
  · rw [if_neg h, if_neg (fun e => h (BitVec.eq_of_toNat_eq e))]

/-- The bits of a vector after `setBit`. -/
theorem getLsbD_setBit {n : Nat} (x : BitVec n) (i k : Nat) (b : Bool) (hk : k < n) :
    (setBit x i b).getLsbD k = if k = i then b else x.getLsbD k := by
  unfold setBit
  cases b <;> simp only [Bool.false_eq_true, if_false, if_true, BitVec.getLsbD_or, BitVec.getLsbD_and, BitVec.getLsbD_not,
    BitVec.getLsbD_shiftLeft, BitVec.getLsbD_one, hk, decide_true, Bool.true_and]
  · by_cases h : k = i
    · subst h; simp; omega
    · rw [if_neg h]
      have : ¬ (k - i = 0 ∧ i ≤ k) := by omega
      by_cases h2 : k < i <;> simp [h2]
      omega
  · by_cases h : k = i
    · subst h; simp; omega
    · rw [if_neg h]
      by_cases h2 : k < i <;> simp [h2]
      omega

/-- A predicate other than p7 after a write. -/
theorem wrP_p (now : Nat) (t : Thread) (d : PReg) (x : Bool) (lat : Nat) (k : Nat) (hk : k < 7) :
    (wrP now t d x lat).p.getLsbD k = if d.toNat = k then x else t.p.getLsbD k := by
  unfold wrP
  split
  · rename_i h
    subst h
    have : ¬ (7#3).toNat = k := by simp; omega
    rw [if_neg this]
  · simp only [getLsbD_setBit _ _ _ _ hk]
    by_cases h : k = d.toNat
    · rw [if_pos h, if_pos h.symm]
    · rw [if_neg h, if_neg (fun e => h e.symm)]

end Sys2Proof.Machine
end

