-- ==== Sys2Proof/Laws/Frame.lean ====
section
/-! SUPPORT. The frames of the shared operations, in the terms of Safety.lean: what setting one thread leaves of the
machine, and what each register write leaves of the thread. -/

namespace Sys2Proof.Machine

open Sys2Proof

/-! ### One thread of the machine -/

theorem spadByte_setThread (s : State) (t : ThreadId) (w : Thread) (slot a : Nat) :
    spadByte (setThread s t w) slot a = spadByte s slot a := by
  unfold spadByte
  rw [blockOf_setThread]
  by_cases h : slot = t.slot
  · rw [if_pos h]; cases blockOf s slot <;> rfl
  · rw [if_neg h]

theorem tileByte_setThread (s : State) (t : ThreadId) (w : Thread) (slot a : Nat) :
    tileByte (setThread s t w) slot a = tileByte s slot a := by
  unfold tileByte
  rw [blockOf_setThread]
  by_cases h : slot = t.slot
  · rw [if_pos h]; cases blockOf s slot <;> rfl
  · rw [if_neg h]

theorem memSame_setThread (s : State) (t : ThreadId) (w : Thread) : MemSame s (setThread s t w) where
  dram _ := by simp
  ws _ := by simp
  spad _ _ := spadByte_setThread ..
  tiles _ _ := tileByte_setThread ..
  tags := by simp

theorem othersSame_setThread (s : State) (t : ThreadId) (w : Thread) : OthersSame s (setThread s t w) t :=
  fun u hu => by rw [threadOf_setThread, if_neg hu]

theorem modBlock_rest (s : State) (slot : Nat) (f : Block → Block) : { modBlock s slot f with blocks := s.blocks } = s := by
  unfold modBlock; split <;> rfl

theorem setThread_rest (s : State) (t : ThreadId) (w : Thread) : { setThread s t w with blocks := s.blocks } = s :=
  modBlock_rest ..

/-- Setting the current thread changes nothing else of the machine. -/
theorem onlyThread_setThread {s : State} {x : Cx} (h : curCx s = some x) (w : Thread) :
    OnlyThread s (setThread s x.tid w) x.tid w where
  thread := by rw [threadOf_setThread, if_pos rfl, threadOf_curCx h]; rfl
  others := othersSame_setThread s x.tid w
  memory := memSame_setThread ..
  rest := setThread_rest ..
  block slot b hb := by
    rw [blockOf_setThread, hb]
    split
    · exact ⟨_, rfl, rfl⟩
    · exact ⟨b, rfl, rfl⟩

/-! ### What a write keeps of its thread -/

theorem Part.same_refl (q : Part) (u : Thread) : q.same u u := by cases q <;> simp [Part.same]

theorem Kept.refl (c : Touch) (u : Thread) : Kept c u u :=
  ⟨fun _ _ => ⟨rfl, rfl⟩, fun _ _ => ⟨rfl, fun _ => rfl⟩, fun _ _ => ⟨rfl, rfl⟩, fun q _ _ => q.same_refl u⟩

/-- Leaving the slot changes no register and no part. -/
theorem Kept.done {c : Touch} {u w : Thread} (k : Kept c u w) (now : Nat) (h : Hdr) : Kept c u (w.done now h) :=
  ⟨k.v, k.p, k.a, fun q h1 h2 => by have := k.parts q h1 h2; cases q <;> exact this⟩

theorem poison_clear (x : BitVec 64) {r d : VReg} (h : r ≠ d) :
    (x &&& ~~~(1#64 <<< d.toNat)).getLsbD r.toNat = x.getLsbD r.toNat := by
  have hr := r.isLt
  have hne : r.toNat ≠ d.toNat := fun e => h (BitVec.eq_of_toNat_eq e)
  simp only [BitVec.getLsbD_and, BitVec.getLsbD_not, BitVec.getLsbD_shiftLeft, BitVec.getLsbD_one]
  by_cases h2 : r.toNat < d.toNat
  · simp [h2]; intro; omega
  · have : r.toNat - d.toNat ≠ 0 := by omega
    simp [this]; intro; omega

theorem Kept.wrV {c : Touch} {u w : Thread} (k : Kept c u w) {d : VReg} (hd : d ∈ c.v) (now : Nat) (x : Word)
    (lat : Nat) : Kept c u (wrV now w d x lat) where
  v r hr := by
    have hne : r ≠ d := fun e => hr (e ▸ hd)
    refine ⟨?_, ?_⟩
    · rw [← (k.v r hr).1]
      simp only [Thread.vreg, wrV_get]
      rw [if_neg (fun e => hne e.symm)]
    · rw [← (k.v r hr).2]; exact poison_clear _ hne
  p r hr := k.p r hr
  a r hr := k.a r hr
  parts q h1 h2 := by
    have hv : c.v ≠ [] := List.ne_nil_of_mem hd
    cases q
    case lent => exact absurd (h2 rfl) hv
    all_goals exact k.parts _ h1 (by simp)

theorem Kept.addFlags {c : Touch} {u w : Thread} (k : Kept c u w) (hc : Part.fpx ∈ c.parts) (now : Nat) (h : Hdr)
    (f : Flags) (lat : Nat) : Kept c u (addFlags now h w f lat) := by
  unfold Machine.addFlags
  split
  · exact k
  · exact ⟨k.v, k.p, k.a, fun q h1 h2 => by cases q <;> first | exact absurd hc h1 | exact k.parts _ h1 h2⟩

theorem Kept.pend {c : Touch} {u w : Thread} (k : Kept c u w) (hc : Part.pend ∈ c.parts) (l : List Pend) :
    Kept c u { w with pend := l } :=
  ⟨k.v, k.p, k.a, fun q h1 h2 => by cases q <;> first | exact absurd hc h1 | exact k.parts _ h1 h2⟩

theorem Kept.tokens {c : Touch} {u w : Thread} (k : Kept c u w) (hc : Part.tokens ∈ c.parts) (l : List Token) :
    Kept c u { w with tokens := l } :=
  ⟨k.v, k.p, k.a, fun q h1 h2 => by cases q <;> first | exact absurd hc h1 | exact k.parts _ h1 h2⟩

theorem Kept.counts {c : Touch} {u w : Thread} (k : Kept c u w) (hc : Part.counts ∈ c.parts) (l : Counts) :
    Kept c u { w with counts := l } :=
  ⟨k.v, k.p, k.a, fun q h1 h2 => by cases q <;> first | exact absurd hc h1 | exact k.parts _ h1 h2⟩

theorem preg_eq_of_bits {u w : Thread} (r : PReg) (h : r ≠ 7#3 → w.p.getLsbD r.toNat = u.p.getLsbD r.toNat) :
    w.preg r = u.preg r := by
  unfold Thread.preg
  by_cases e : r = 7#3
  · simp [e]
  · rw [h e]

theorem preg_lt {r : PReg} (h : r ≠ 7#3) : r.toNat < 7 := by
  have := r.isLt
  have : r.toNat ≠ 7 := fun e => h (BitVec.eq_of_toNat_eq (by simpa using e))
  omega

theorem Kept.wrP {c : Touch} {u w : Thread} (k : Kept c u w) {d : PReg} (hd : d ∈ c.p) (now : Nat) (x : Bool)
    (lat : Nat) : Kept c u (wrP now w d x lat) where
  v r hr := by simpa [Thread.vreg] using k.v r hr
  p r hr := by
    have hne : r ≠ d := fun e => hr (e ▸ hd)
    refine ⟨?_, fun h7 => ?_⟩
    · rw [← (k.p r hr).1]
      refine preg_eq_of_bits r (fun h7 => ?_)
      rw [wrP_p _ _ _ _ _ _ (preg_lt h7), if_neg (fun e => hne (BitVec.eq_of_toNat_eq e.symm))]
    · rw [← (k.p r hr).2 h7]
      unfold Machine.wrP
      split
      · rfl
      · simp only [getLsbD_setBit _ _ _ _ (show r.toNat < 8 from r.isLt)]
        rw [if_neg (fun e => hne (BitVec.eq_of_toNat_eq e))]
  a r hr := by simpa [Thread.areg] using k.a r hr
  parts q h1 h2 := by
    have := k.parts q h1 h2
    cases q <;> simpa [Part.same] using this

theorem Kept.wrA {c : Touch} {u w : Thread} (k : Kept c u w) {d : AReg} (hd : d ∈ c.a) (now : Nat) (x : Cap)
    (lat : Nat) : Kept c u (wrA now w d x lat) where
  v r hr := k.v r hr
  p r hr := k.p r hr
  a r hr := by
    have hne : r ≠ d := fun e => hr (e ▸ hd)
    refine ⟨?_, ?_⟩
    · rw [← (k.a r hr).1]
      simp only [Thread.areg, wrA_get]
      rw [if_neg (fun e => hne e.symm)]
    · rw [← (k.a r hr).2]
      simp only [Machine.wrA, getLsbD_setBit _ _ _ _ (show r.toNat < 8 from r.isLt)]
      rw [if_neg (fun e => hne (BitVec.eq_of_toNat_eq e))]
  parts q h1 h2 := k.parts q h1 h2

/-! ### Registers after a write -/

@[simp] theorem vreg_wrV (now : Nat) (t : Thread) (d : VReg) (x : Word) (lat : Nat) (r : VReg) :
    (wrV now t d x lat).vreg r = if d = r then x else t.vreg r := by
  simp only [Thread.vreg, wrV_get]

@[simp] theorem areg_wrA (now : Nat) (t : Thread) (d : AReg) (x : Cap) (lat : Nat) (r : AReg) :
    (wrA now t d x lat).areg r = if d = r then x else t.areg r := by
  simp only [Thread.areg, wrA_get]

@[simp] theorem vreg_done (t : Thread) (now : Nat) (h : Hdr) (r : VReg) : (t.done now h).vreg r = t.vreg r := rfl
@[simp] theorem areg_done (t : Thread) (now : Nat) (h : Hdr) (r : AReg) : (t.done now h).areg r = t.areg r := rfl
@[simp] theorem preg_done (t : Thread) (now : Nat) (h : Hdr) (r : PReg) : (t.done now h).preg r = t.preg r := rfl
@[simp] theorem vpair_done (t : Thread) (now : Nat) (h : Hdr) (r : VReg) : (t.done now h).vpair r = t.vpair r := rfl
@[simp] theorem vreg_addFlags (now : Nat) (h : Hdr) (t : Thread) (f : Flags) (lat : Nat) (r : VReg) :
    (addFlags now h t f lat).vreg r = t.vreg r := by simp [Thread.vreg]
@[simp] theorem vpair_addFlags (now : Nat) (h : Hdr) (t : Thread) (f : Flags) (lat : Nat) (r : VReg) :
    (addFlags now h t f lat).vpair r = t.vpair r := by simp [Thread.vpair]

theorem succ_ne (d : VReg) : d + 1 ≠ d := by
  intro h
  have := congrArg BitVec.toNat h
  simp at h

/-- A pair written reads back whole. -/
@[simp] theorem vpair_wrV64 (now : Nat) (t : Thread) (d : VReg) (x : DWord) (lat : Nat) :
    (wrV64 now t d x lat).vpair d = x := by
  have hne : ¬ d + 1 = d := succ_ne d
  simp only [Thread.vpair, wrV64, vreg_wrV, if_true, if_neg hne]
  apply BitVec.eq_of_getLsbD_eq
  intro i hi
  simp only [BitVec.getLsbD_append, BitVec.getLsbD_extractLsb']
  by_cases h : i < 32
  · simp [h]
  · have : i - 32 < 32 := by omega
    simp only [h, this, decide_true, Bool.true_and, if_false, show 32 + (i - 32) = i by omega]

theorem preg_wrP (now : Nat) (t : Thread) (d : PReg) (x : Bool) (lat : Nat) :
    (wrP now t d x lat).preg d = (d == 7#3 || x) := by
  unfold Thread.preg
  by_cases h : d = 7#3
  · simp [h]
  · rw [wrP_p _ _ _ _ _ _ (preg_lt h)]; simp

theorem fpx_addFlags (now : Nat) (h : Hdr) (t : Thread) (f : Flags) (lat : Nat) :
    (addFlags now h t f lat).fpx = fpxAfter h t.fpx f := by
  unfold addFlags fpxAfter; split <;> rfl

/-! ### Whole instructions -/

theorem at_done (s : State) (h : Hdr) (w u : Thread) (hpc : w.pc = u.pc) : At (nextSlot u.pc) s h (w.done s.cycle h) :=
  ⟨by simp [hpc], by simp, by simp⟩

/-- A meaning that rewrites its own thread and goes on changes no more than the touch. -/
theorem did_goOn {h : Hdr} {s : State} {x : Cx} (hc : curCx s = some x) {c : Touch} {w : Thread} (hpc : w.pc = x.thr.pc)
    (k : Kept c x.thr w) : Did s (setThread s x.tid (w.done s.cycle h)) x h c (w.done s.cycle h) :=
  ⟨onlyThread_setThread hc _, at_done s h w x.thr hpc, k.done _ _⟩

theorem waits_waitAt {i : Instr} {s : State} {x : Cx} (hc : curCx s = some x) {st : TStatus}
    (h : exec i s = waitAt s x st) : Waits i s x st :=
  ⟨_, h, onlyThread_setThread hc _⟩

end Sys2Proof.Machine
end

