-- ==== Sys2Proof/Laws/Forms.lean ====
section
/-! SUPPORT. One law per instruction form: what a meaning of the form answers when it executes. -/

namespace Sys2Proof.Machine

open Sys2Proof

variable {i : Instr} {h : Hdr} {s : State} {x : Cx}

/-- Goes on with one thread changed. -/
theorem did_of_goOn {u : Thread} {c : Touch} (he : Executes h s x) (hi : exec i s = goOn h s x u) (hpc : u.pc = x.thr.pc)
    (k : Kept c x.thr u) :
    exec i s = .next (setThread s x.tid (u.done s.cycle h)) ∧
      Did s (setThread s x.tid (u.done s.cycle h)) x h c (u.done s.cycle h) :=
  ⟨hi, did_goOn he.1 hpc k⟩

/-- `intOp` writes its destination and goes on. -/
theorem intOp_writes {d : VReg} {f : Thread → Word} {post : Word → Prop} (he : Executes h s x)
    (hi : exec i s = intOp h d s f) (hp : post (f x.thr)) : WritesV i s x h d post := by
  rw [intOp, guarded_true he.1 he.2] at hi
  obtain ⟨h1, h2⟩ := did_of_goOn (c := { v := [d] }) he hi (by simp) ((Kept.refl _ x.thr).wrV (by simp) s.cycle (f x.thr) 2)
  exact ⟨_, _, h1, h2, by simpa using hp⟩

theorem Kept.wrV64 {c : Touch} {u w : Thread} (k : Kept c u w) {d : VReg} (hd : d ∈ c.v) (hd1 : d + 1 ∈ c.v) (now : Nat)
    (v : DWord) (lat : Nat) : Kept c u (wrV64 now w d v lat) :=
  (k.wrV hd now _ lat).wrV hd1 now _ lat

/-- `intOp64` writes its pair and goes on. -/
theorem intOp64_writes {d : VReg} {f : Thread → DWord} {post : DWord → Prop} (he : Executes h s x)
    (hi : exec i s = intOp64 h d s f) (hp : post (f x.thr)) : WritesPair i s x h d post := by
  rw [intOp64, guarded_true he.1 he.2] at hi
  obtain ⟨h1, h2⟩ := did_of_goOn (c := { v := [d, d + 1] }) he hi (by simp)
    ((Kept.refl _ x.thr).wrV64 (by simp) (by simp) s.cycle (f x.thr) 2)
  exact ⟨_, _, h1, h2, by simpa using hp⟩

/-- A meaning that writes one predicate and goes on. -/
theorem wrP_writes {d : PReg} {v : Bool} (he : Executes h s x)
    (hi : exec i s = goOn h s x (wrP s.cycle x.thr d v 2)) : WritesP i s x h d v := by
  obtain ⟨h1, h2⟩ := did_of_goOn (c := { p := [d] }) he hi (by simp) ((Kept.refl _ x.thr).wrP (by simp) s.cycle v 2)
  exact ⟨_, _, h1, h2, by simp [preg_wrP]⟩

/-- A meaning that writes one capability register and goes on. -/
theorem wrA_writes {d : AReg} {v : Cap} {lat : Nat} (he : Executes h s x)
    (hi : exec i s = goOn h s x (wrA s.cycle x.thr d v lat)) : WritesA i s x h d v := by
  obtain ⟨h1, h2⟩ := did_of_goOn (c := { a := [d] }) he hi rfl ((Kept.refl _ x.thr).wrA (by simp) s.cycle v lat)
  exact ⟨_, _, h1, h2, by simp⟩

/-- `fltOp` writes its destination, raises its flags and goes on. -/
theorem fltOp_writes {d : VReg} {f : Thread → Nat × Flags} (he : Executes h s x) (hi : exec i s = fltOp h d s f) :
    WritesF i s x h d (f x.thr) := by
  rw [fltOp, guarded_true he.1 he.2] at hi
  obtain ⟨h1, h2⟩ := did_of_goOn (c := { v := [d], parts := [.fpx] }) he hi (by simp [fResult])
    (((Kept.refl _ x.thr).wrV (by simp) s.cycle _ 4).addFlags (by simp) s.cycle h _ 4)
  exact ⟨_, _, h1, h2, by simp [fResult], by simp [fResult, fpx_addFlags]⟩

/-- `dblOp` writes its pair, raises its flags and goes on. -/
theorem dblOp_writes {d : VReg} {f : Thread → Nat × Flags} (he : Executes h s x) (hi : exec i s = dblOp h d s f) :
    WritesD i s x h d (f x.thr) := by
  rw [dblOp, guarded_true he.1 he.2] at hi
  obtain ⟨h1, h2⟩ := did_of_goOn (c := { v := [d, d + 1], parts := [.fpx] }) he hi (by simp [dResult])
    (((Kept.refl _ x.thr).wrV64 (by simp) (by simp) s.cycle _ 8).addFlags (by simp) s.cycle h _ 8)
  exact ⟨_, _, h1, h2, by simp [dResult], by simp [dResult, fpx_addFlags]⟩

/-- `goOnPend` sends a result on its way and goes on. -/
theorem goOnPend_sends {p : Pend} (he : Executes h s x) (hi : exec i s = goOnPend h s x x.thr p) : Sends i s x h p := by
  obtain ⟨h1, h2⟩ := did_of_goOn (c := { parts := [.pend] }) he hi rfl ((Kept.refl _ x.thr).pend (by simp) _)
  exact ⟨_, _, h1, h2, rfl⟩

/-- `xOp` sends its result on its way, with its flags unless NF. -/
theorem xOp_sends {d : VReg} {f : Thread → Nat × Flags} (he : Executes h s x) (hi : exec i s = xOp h d s f) :
    Sends i s x h ⟨true, [(d, BitVec.ofNat 32 (f x.thr).1, false)], none, if h.nf then 0 else (f x.thr).2, !h.nf⟩ := by
  rw [xOp, guarded_true he.1 he.2] at hi
  exact goOnPend_sends he hi

theorem xOp64_sends {d : VReg} {f : Thread → Nat × Flags} (he : Executes h s x) (hi : exec i s = xOp64 h d s f) :
    Sends i s x h ⟨true, [(d, BitVec.ofNat 32 (f x.thr).1, false), (d + 1, BitVec.ofNat 32 ((f x.thr).1 / 2 ^ 32), false)],
      none, if h.nf then 0 else (f x.thr).2, !h.nf⟩ := by
  rw [xOp64, guarded_true he.1 he.2] at hi
  exact goOnPend_sends he hi

/-! ### Going on, jumping, and changes of a core -/

/-- A meaning that ends in `goOn` with its own thread changed. -/
theorem goes_goOn {c : Touch} {u : Thread} {post : Thread → Prop} (he : Executes h s x) (hi : exec i s = goOn h s x u)
    (hpc : u.pc = x.thr.pc) (k : Kept c x.thr u) (hp : post (u.done s.cycle h)) : Goes i s x h c post := by
  obtain ⟨h1, h2⟩ := did_of_goOn he hi hpc k
  exact ⟨_, _, h1, h2, hp⟩

/-- Leaving the slot changes no register and no part. -/
theorem Kept.leave {c : Touch} {u w : Thread} (k : Kept c u w) (now : Nat) (h : Hdr) (pc : BitVec 16) :
    Kept c u (w.leave now h pc) :=
  ⟨k.v, k.p, k.a, fun q h1 h2 => by have := k.parts q h1 h2; cases q <;> exact this⟩

/-- A meaning that ends in `jumpTo` with its own thread changed. -/
theorem jumpsTo_jumpTo {c : Touch} {u : Thread} {pc : Nat} {post : Thread → Prop} (he : Executes h s x)
    (hi : exec i s = jumpTo h s x u pc) (k : Kept c x.thr u) (hp : post (u.leave s.cycle h (BitVec.ofNat 16 pc))) :
    JumpsTo i s x h (BitVec.ofNat 16 pc) c post :=
  ⟨_, _, hi, ⟨onlyThread_setThread he.1 _, ⟨rfl, rfl, rfl⟩, k.leave ..⟩, hp⟩

/-- Setting a thread commutes with a change of the cores. -/
theorem setThread_upToCores {s' : State} (hs : { s' with cores := s.cores } = s) (tid : ThreadId) (w : Thread) :
    { setThread s' tid w with cores := s.cores } = setThread s tid w := by
  have hb : s'.blocks = s.blocks := by have := congrArg State.blocks hs; exact this
  unfold setThread modBlock blockOf
  rw [hb]
  cases Assoc.get s.blocks tid.slot with
  | none => exact hs
  | some b =>
    simp only [setBlock, hb]
    exact congrArg (fun z : State => { z with blocks := Assoc.set s.blocks tid.slot (b.setThread tid.tidx w) }) hs

/-- A meaning that changes cores and its own thread changes nothing else. -/
theorem onlyThread_cores {s' : State} (hs : { s' with cores := s.cores } = s) (hc : curCx s = some x) (w : Thread) :
    OnlyThread s { setThread s' x.tid w with cores := s.cores } x.tid w := by
  rw [setThread_upToCores hs]; exact onlyThread_setThread hc w

theorem setCore_rest (n : Nat) (c : Core) : { setCore s n c with cores := s.cores } = s := rfl

theorem addRef_rest (n : Nat) (k : RKey) : { addRef s n k with cores := s.cores } = s := rfl

theorem dropRef_rest (n : Nat) (k : RKey) : { dropRef s n k with cores := s.cores } = s := by
  unfold dropRef
  cases h : (coreOf s n).find k with
  | none => simp [h]
  | some r => simp only [h]; split_ifs <;> rfl

theorem coreOf_setThread (tid : ThreadId) (w : Thread) (n : Nat) : coreOf (setThread s tid w) n = coreOf s n := by
  unfold setThread modBlock; split <;> rfl

theorem onlyCore_setCore (n : Nat) (c : Core) (tid : ThreadId) (w : Thread) :
    OnlyCore s (setThread (setCore s n c) tid w) n c := by
  constructor
  · simp [coreOf_setThread, coreOf_setCore]
  · intro k hk; simp [coreOf_setThread, coreOf_setCore, hk]

/-- A reference is taken or released on one core only. -/
theorem onlyCore_dropRef (n : Nat) (k : RKey) : OnlyCore s (dropRef s n k) n (coreOf (dropRef s n k) n) := by
  refine ⟨rfl, fun j hj => ?_⟩
  unfold dropRef
  cases h : (coreOf s n).find k with
  | none => simp [h]
  | some r => simp only [h]; split_ifs <;> simp [coreOf_setCore, hj]

end Sys2Proof.Machine
end

