-- ==== Sys2Proof/Laws/Instance.lean ====
section
/-! SUPPORT. Instances of wave collectives: the members that `gather` finds, and what setting every member's thread
leaves of the machine. -/

namespace Sys2Proof.Machine

open Sys2Proof

/-- The members of an instance, lanes ascending. -/
def membersOf (h : Hdr) (s : State) (x : Cx) (mask : Word) (T : Nat → Thread) (n : Nat) : List Member :=
  ((List.range n).filter (fun k => mask.getLsbD k)).map (fun k => ⟨k, laneTid x k, T k, guardOf s (T k) h⟩)

theorem laneTid_own (x : Cx) : laneTid x (x.tid.tidx % 32) = x.tid := by
  unfold laneTid
  have : 32 * (x.tid.tidx / 32) + x.tid.tidx % 32 = x.tid.tidx := Nat.div_add_mod ..
  rw [this]

theorem laneTid_inj {x : Cx} {n k : Nat} (e : laneTid x n = laneTid x k) : n = k := by
  simp only [laneTid, ThreadId.mk.injEq] at e; omega

variable {i : Instr} {h : Hdr} {s : State} {x : Cx} {mask : Word} {T : Nat → Thread}

/-- A lane of a gathered instance has arrived. -/
theorem arrived_of (hc : curCx s = some x) (me : T (x.tid.tidx % 32) = x.thr)
    (thread : ∀ n, mask.getLsbD n = true → threadOf s (laneTid x n) = some (T n))
    (arr : ∀ n, mask.getLsbD n = true → n ≠ x.tid.tidx % 32 →
      (T n).status = .held mask ∧ (T n).pc = x.thr.pc ∧ (T n).top = x.thr.top)
    {n : Nat} (hn : mask.getLsbD n = true) :
    Machine.arrived s x mask h n = some ⟨n, laneTid x n, T n, guardOf s (T n) h⟩ := by
  unfold Machine.arrived
  have e : (⟨x.tid.slot, 32 * waveIx x.tid + n⟩ : ThreadId) = laneTid x n := rfl
  simp only [e]
  by_cases hx : laneTid x n = x.tid
  · have : n = x.tid.tidx % 32 := laneTid_inj (hx.trans (laneTid_own x).symm)
    rw [if_pos hx, hx, this, me]
  · rw [if_neg hx]
    have hne : n ≠ x.tid.tidx % 32 := fun q => hx (q ▸ laneTid_own x)
    have ht := thread n hn
    obtain ⟨hs, hb, -⟩ := (curCx_eq_some s x).mp hc
    simp only [threadOf, laneTid, hb] at ht
    simp only [laneTid, waveIx] at ht ⊢
    rw [ht]
    simp only
    rw [if_pos (arr n hn hne)]

/-- With every lane of the mask arrived, `gather` finds the members. -/
theorem gather_of (hc : curCx s = some x) (me : T (x.tid.tidx % 32) = x.thr)
    (thread : ∀ n, mask.getLsbD n = true → threadOf s (laneTid x n) = some (T n))
    (arr : ∀ n, mask.getLsbD n = true → n ≠ x.tid.tidx % 32 →
      (T n).status = .held mask ∧ (T n).pc = x.thr.pc ∧ (T n).top = x.thr.top) (n : Nat) :
    gather s x mask h n = some (membersOf h s x mask T n) := by
  induction n with
  | zero => rfl
  | succ n ih =>
    rw [gather, ih]
    simp only [membersOf, List.range_succ, List.filter_append, List.map_append]
    by_cases hn : mask.getLsbD n = true
    · rw [if_pos hn, arrived_of hc me thread arr hn]; simp [hn]
    · rw [if_neg hn]; simp [hn]

/-- A gathered instance runs its meaning over its members. -/
theorem collective_gathered (g : Gathered i h s x mask T) (k : Cx → List Member → Out) (mf : Cx → Word)
    (hm : mf x = mask) : collective i h s mf k = k x (membersOf h s x mask T 32) := by
  unfold collective
  rw [g.cur]
  simp only [hm]
  rw [if_neg (by simp [laneOf, g.own]), gather_of g.cur g.me g.thread g.arrived]
  simp only
  have : (membersOf h s x mask T 32).findSome? (fun m => registerTrap s m.thr (chkOf s x.blk) h i) = none := by
    rw [List.findSome?_eq_none_iff]
    intro m hm2
    simp only [membersOf, List.mem_map, List.mem_filter] at hm2
    obtain ⟨n, ⟨-, hn⟩, rfl⟩ := hm2
    exact g.clean n hn
  rw [this]

/-- Setting the threads of a list of lanes of one block: each lane's thread, every other thread, the block's own state,
memory, and all else. -/
theorem foldl_setThread (x : Cx) (W : Nat → Thread) (l : List Nat) (hl : l.Nodup) (s : State) :
    let t := l.foldl (fun s n => setThread s (laneTid x n) (W n)) s
    (∀ u, threadOf t u = if ∃ n ∈ l, u = laneTid x n then (threadOf s u).map (fun v =>
        ((l.find? (fun n => decide (u = laneTid x n))).map W).getD v) else threadOf s u)
      ∧ MemSame s t
      ∧ (∀ slot b, blockOf s slot = some b → ∃ c, blockOf t slot = some c ∧ { c with threads := b.threads } = b)
      ∧ { t with blocks := s.blocks } = s := by
  induction l generalizing s with
  | nil =>
    refine ⟨fun u => by simp, ⟨fun _ => rfl, fun _ => rfl, fun _ _ => rfl, fun _ _ => rfl, rfl⟩, fun slot b hb => ⟨b, hb, rfl⟩, rfl⟩
  | cons n l ih =>
    obtain ⟨hn, hl'⟩ := List.nodup_cons.mp hl
    obtain ⟨h1, h2, h3, h4⟩ := ih hl' (setThread s (laneTid x n) (W n))
    have m1 := memSame_setThread s (laneTid x n) (W n)
    refine ⟨fun u => ?_, ⟨fun a => (h2.dram a).trans (m1.dram a), fun a => (h2.ws a).trans (m1.ws a),
      fun q a => (h2.spad q a).trans (m1.spad q a), fun q a => (h2.tiles q a).trans (m1.tiles q a), h2.tags.trans m1.tags⟩, ?_, ?_⟩
    · simp only [List.foldl_cons]
      rw [h1 u, threadOf_setThread]
      by_cases hu : u = laneTid x n
      · have hno : ¬ ∃ k ∈ l, u = laneTid x k := by
          rintro ⟨k, hk, e⟩
          exact hn ((laneTid_inj (hu.symm.trans e)) ▸ hk)
        rw [if_neg hno, if_pos hu, if_pos ⟨n, by simp, hu⟩]
        simp [hu]
      · rw [if_neg hu]
        have he : (∃ k ∈ n :: l, u = laneTid x k) ↔ ∃ k ∈ l, u = laneTid x k := by simp [hu]
        simp only [he, List.find?_cons, hu, decide_false]
    · intro slot b hb
      have hb2 : ∃ c, blockOf (setThread s (laneTid x n) (W n)) slot = some c ∧ { c with threads := b.threads } = b := by
        rw [blockOf_setThread, hb]; split
        · exact ⟨_, rfl, rfl⟩
        · exact ⟨b, rfl, rfl⟩
      obtain ⟨c, hc, e⟩ := hb2
      obtain ⟨d, hd, e2⟩ := h3 slot c hc
      refine ⟨d, hd, ?_⟩
      rw [← e, ← e2]
    · simp only [List.foldl_cons]
      have e := setThread_rest s (laneTid x n) (W n)
      have q := congrArg (fun z : State => { z with blocks := s.blocks }) h4
      exact q.trans e

/-- An instance whose members each go on with their own thread changed. -/
theorem membersGo_membersDone {c : Touch} {post : Nat → Thread → Prop} {f : Member → Thread} (g : Gathered i h s x mask T)
    (hpc : ∀ n, mask.getLsbD n = true → (f ⟨n, laneTid x n, T n, guardOf s (T n) h⟩).pc = (T n).pc)
    (hon : ∀ n, presentLane s h mask T n = true → Kept c (T n) (f ⟨n, laneTid x n, T n, true⟩)
      ∧ post n ((f ⟨n, laneTid x n, T n, true⟩).done s.cycle h))
    (hoff : ∀ n, mask.getLsbD n = true → guardOf s (T n) h = false → f ⟨n, laneTid x n, T n, false⟩ = T n)
    (hi : exec i s = membersDone h s (membersOf h s x mask T 32) f) : InstanceGoes i h s x mask T c post := by
  let W : Nat → Thread := fun n => (f ⟨n, laneTid x n, T n, guardOf s (T n) h⟩).done s.cycle h
  let l := (List.range 32).filter (fun k => mask.getLsbD k)
  have hl : l.Nodup := List.nodup_range.filter _
  obtain ⟨h1, h2, h3, h4⟩ := foldl_setThread x W l hl s
  have heq : membersDone h s (membersOf h s x mask T 32) f = .next (l.foldl (fun s n => setThread s (laneTid x n) (W n)) s) := by
    unfold membersDone membersOf
    rw [List.foldl_map]
    have hfold : ∀ (l : List Nat) (s' : State), s'.cycle = s.cycle →
        l.foldl (fun t n => memberDone t h ⟨n, laneTid x n, T n, guardOf s (T n) h⟩ (f ⟨n, laneTid x n, T n, guardOf s (T n) h⟩)) s'
          = l.foldl (fun s n => setThread s (laneTid x n) (W n)) s' := by
      intro l
      induction l with
      | nil => intro s' _; rfl
      | cons n l ih =>
        intro s' hs'
        simp only [List.foldl_cons]
        have e : memberDone s' h ⟨n, laneTid x n, T n, guardOf s (T n) h⟩ (f ⟨n, laneTid x n, T n, guardOf s (T n) h⟩)
            = setThread s' (laneTid x n) (W n) := by simp only [memberDone, hs', W]
        rw [e]
        exact ih _ (by simp [hs'])
    exact congrArg _ (hfold _ _ rfl)
  rw [heq] at hi
  refine ⟨_, hi, ?_, ?_, h2, h3, h4⟩
  · intro n hn
    have hmem : n ∈ l := by
      simp only [l, List.mem_filter, List.mem_range]
      exact ⟨BitVec.lt_of_getLsbD hn, hn⟩
    refine ⟨W n, ?_, ?_, ?_, ?_⟩
    · rw [h1, if_pos ⟨n, hmem, rfl⟩, g.thread n hn]
      have : l.find? (fun k => decide (laneTid x n = laneTid x k)) = some n := by
        rw [List.find?_eq_some_iff_append]
        obtain ⟨as, bs, e⟩ := List.append_of_mem hmem
        refine ⟨by simp, as, bs, e, fun k hk => ?_⟩
        simp only [Bool.not_eq_true', decide_eq_false_iff_not]
        intro q
        have hk2 := laneTid_inj q
        rw [e] at hl
        have := (List.nodup_append.mp hl).2.2 k hk n (by simp)
        exact this hk2.symm
      rw [this]; rfl
    · have hp : (T n).pc = x.thr.pc := by
        by_cases hne : n = x.tid.tidx % 32
        · rw [hne, g.me]
        · exact (g.arrived n hn hne).2.1
      exact at_done s h _ x.thr ((hpc n hn).trans hp)
    · intro hp
      have hg : guardOf s (T n) h = true := by simp only [presentLane, hn, Bool.true_and] at hp; exact hp
      obtain ⟨k, p⟩ := hon n hp
      simp only [W, hg]
      exact ⟨k.done _ _, p⟩
    · intro hp
      have hg : guardOf s (T n) h = false := by simp only [presentLane, hn, Bool.true_and] at hp; exact hp
      simp only [W, hg, hoff n hn hg]
      exact (Kept.refl _ _).done _ _
  · intro u hu
    rw [h1, if_neg]
    rintro ⟨n, hn, e⟩
    simp only [l, List.mem_filter] at hn
    exact hu n hn.2 e

/-- The present members are the lanes whose guard reads true. -/
theorem present_membersOf (n : Nat) : present (membersOf h s x mask T n) =
    ((List.range n).filter (presentLane s h mask T)).map (fun k => ⟨k, laneTid x k, T k, true⟩) := by
  simp only [present, membersOf, List.filter_map, List.filter_filter]
  have e1 : (Member.on ∘ fun k => (⟨k, laneTid x k, T k, guardOf s (T k) h⟩ : Member)) = fun k => guardOf s (T k) h := rfl
  have e2 : (fun k => guardOf s (T k) h && mask.getLsbD k) = presentLane s h mask T := by
    funext k; simp [presentLane, Bool.and_comm]
  rw [e1, e2]
  apply List.map_congr_left
  intro k hk
  simp only [List.mem_filter, presentLane, Bool.and_eq_true] at hk
  rw [hk.2.2]

end Sys2Proof.Machine
end

