-- ==== Sys2Proof/Laws/Keep.lean ====
section
/-! SUPPORT. The canonical form of every memory, through the operations that meanings share: what each keeps. -/

namespace Sys2Proof.Machine

open Sys2Proof

/-! ### Parts of a state -/

/-- A block's memories are canonical. -/
def Block.memWf (b : Block) : Prop := b.spad.wf = true ∧ b.tiles.wf = true

/-- A context's saved blocks have canonical memories. -/
def Context.memWf (c : Context) : Prop := ∀ k ∈ c.saved, k.spad.wf = true ∧ k.tiles.wf = true

/-- A change of state that touches no memory keeps the form. -/
theorem memoryWf_of_eq {s t : State} (h : memoryWf s) (h1 : t.dram = s.dram) (h2 : t.ws = s.ws) (h3 : t.blocks = s.blocks)
    (h4 : t.contexts = s.contexts) (h5 : t.launches = s.launches) : memoryWf t := by
  unfold memoryWf; rw [h1, h2, h3, h4, h5]; exact h

theorem memoryWf_block {s : State} (h : memoryWf s) {k : Nat} {b : Block} (hb : blockOf s k = some b) : b.memWf :=
  h.2.2.1 _ (Assoc.mem_of_get hb)

theorem memoryWf_ctx {s : State} (h : memoryWf s) {k : Nat} {c : Context} (hc : ctxOf s k = some c) : c.memWf :=
  h.2.2.2.1 _ (Assoc.mem_of_get hc)

theorem memoryWf_launch {s : State} (h : memoryWf s) {k : Nat} {l : Launch} (hl : launchOf s k = some l) : l.argBytes.wf = true :=
  h.2.2.2.2 _ (Assoc.mem_of_get hl)

theorem memoryWf_setBlock {s : State} (h : memoryWf s) (k : Nat) {b : Block} (hb : b.memWf) : memoryWf (setBlock s k b) :=
  ⟨h.1, h.2.1, fun p hp => (Assoc.mem_set _ _ _ _ hp).elim (fun e => by rw [e]; exact hb) (h.2.2.1 p), h.2.2.2.1, h.2.2.2.2⟩

theorem memoryWf_setCtx {s : State} (h : memoryWf s) (k : Nat) {c : Context} (hc : c.memWf) : memoryWf (setCtx s k c) :=
  ⟨h.1, h.2.1, h.2.2.1, fun p hp => (Assoc.mem_set _ _ _ _ hp).elim (fun e => by rw [e]; exact hc) (h.2.2.2.1 p), h.2.2.2.2⟩

theorem memoryWf_setLaunch {s : State} (h : memoryWf s) (k : Nat) {l : Launch} (hl : l.argBytes.wf = true) :
    memoryWf (setLaunch s k l) :=
  ⟨h.1, h.2.1, h.2.2.1, h.2.2.2.1, fun p hp => (Assoc.mem_set _ _ _ _ hp).elim (fun e => by rw [e]; exact hl) (h.2.2.2.2 p)⟩

theorem memoryWf_modBlock {s : State} (h : memoryWf s) (k : Nat) {f : Block → Block} (hf : ∀ b, b.memWf → (f b).memWf) :
    memoryWf (modBlock s k f) := by
  unfold modBlock
  split
  · exact h
  · exact memoryWf_setBlock h k (hf _ (memoryWf_block h ‹_›))

theorem memoryWf_modCtx {s : State} (h : memoryWf s) (k : Nat) {f : Context → Context} (hf : ∀ c, c.memWf → (f c).memWf) :
    memoryWf (modCtx s k f) := by
  unfold modCtx
  split
  · exact h
  · exact memoryWf_setCtx h k (hf _ (memoryWf_ctx h ‹_›))

theorem memoryWf_modLaunch {s : State} (h : memoryWf s) (k : Nat) {f : Launch → Launch}
    (hf : ∀ l, l.argBytes.wf = true → (f l).argBytes.wf = true) : memoryWf (modLaunch s k f) := by
  unfold modLaunch
  split
  · exact h
  · exact memoryWf_setLaunch h k (hf _ (memoryWf_launch h ‹_›))

theorem memoryWf_setThread {s : State} (h : memoryWf s) (t : ThreadId) (x : Thread) : memoryWf (setThread s t x) :=
  memoryWf_modBlock h _ (fun _ hb => hb)

theorem memoryWf_modThread {s : State} (h : memoryWf s) (t : ThreadId) (f : Thread → Thread) : memoryWf (modThread s t f) :=
  memoryWf_modBlock h _ (fun _ hb => hb)

theorem memoryWf_setCore {s : State} (h : memoryWf s) (c : Nat) (x : Core) : memoryWf (setCore s c x) := h
theorem memoryWf_setCluster {s : State} (h : memoryWf s) (c : Nat) (x : Cluster) : memoryWf (setCluster s c x) := h
theorem memoryWf_setEngine {s : State} (h : memoryWf s) (e : Nat) (x : Engine) : memoryWf (setEngine s e x) := h
theorem memoryWf_sendMsix {s : State} (h : memoryWf s) (fn v : Nat) : memoryWf (sendMsix s fn v) := h
theorem memoryWf_logEvent {s : State} (h : memoryWf s) (cls code : BitVec 8) (ctx : Option Nat) (src : BitVec 16) (a0 a1 : Word) :
    memoryWf (logEvent s cls code ctx src a0 a1) := h

/-! ### Writes to memory -/

/-- A state with a part of stacked DRAM written. -/
theorem memoryWf_dram {s : State} (h : memoryWf s) {d : Memory} (hd : d.wf = true) : memoryWf { s with dram := d } :=
  ⟨hd, h.2⟩

theorem memoryWf_writeDram {s : State} (h : memoryWf s) (a : Nat) (bs : List Byte) : memoryWf (writeDram s a bs) := by
  unfold writeDram
  split
  · exact h
  · exact ⟨Memory.writeBytes_wf _ h.1 _, h.2⟩

theorem memoryWf_writeWs {s : State} (h : memoryWf s) (a : Nat) (bs : List Byte) : memoryWf (writeWs s a bs) :=
  ⟨h.1, Memory.writeBytes_wf _ h.2.1 _, h.2.2⟩

theorem memoryWf_poisonDram {s : State} (h : memoryWf s) (a n : Nat) : memoryWf (poisonDram s a n) := h

theorem memoryWf_foldl {α : Type} {f : State → α → State} (hf : ∀ s x, memoryWf s → memoryWf (f s x)) : ∀ (l : List α) {s : State},
    memoryWf s → memoryWf (l.foldl f s)
  | [], _, h => h
  | x :: l, s, h => memoryWf_foldl hf l (hf s x h)

theorem memoryWf_rekey {s : State} (h : memoryWf s) (key : BitVec 512) (a n : Nat) : memoryWf (rekey s key a n) := by
  have step : ∀ (s : State) (line : Nat), memoryWf s → memoryWf { s with
      dram := if keyDiffers s key line then s.dram.writeBytes (64 * line) (lineUnder s key line) else s.dram
      lineKey := Assoc.set s.lineKey line key } := fun s line hs => by
    refine ⟨?_, hs.2⟩
    dsimp only
    split
    · exact Memory.writeBytes_wf _ hs.1 _
    · exact hs.1
  exact memoryWf_foldl step _ h

theorem memoryWf_writeMapped {s : State} (h : memoryWf s) (m : Mapped) (bs : List Byte) : memoryWf (writeMapped s m bs) := by
  unfold writeMapped
  split
  · exact memoryWf_writeWs h ..
  · exact memoryWf_writeDram (memoryWf_rekey h ..) ..

theorem memoryWf_expandPage {s : State} (h : memoryWf s) (c : Option Nat) (pa pd o pg : Nat) :
    memoryWf (expandPage s c pa pd o pg) := by
  unfold expandPage
  extract_lets pe
  split
  · exact memoryWf_dram h (Memory.writeNat_wf h.1 ..)
  · exact h

theorem memoryWf_l1Write {s : State} (h : memoryWf s) (core : Option Nat) (k : LineId) (i : Nat) (bs : List Byte) (ch : CacheHint) :
    memoryWf (l1Write s core k i bs ch) := by
  unfold l1Write
  cases core with
  | none => exact h
  | some i =>
    dsimp only
    split
    · exact h
    · split <;> exact h

theorem memoryWf_l1Fill {s : State} (h : memoryWf s) (core : Nat) (k : LineId) (off : Nat) (m : Mapped) (excl : Bool)
    (ch : CacheHint) : memoryWf (l1Fill s core k off m excl ch) := by
  unfold l1Fill
  dsimp only
  split <;> exact h

theorem memoryWf_placeObj {s : State} (h : memoryWf s) (core : Option Nat) (ctx obj off : Nat) (m : Mapped) (bs : List Byte)
    (ch : CacheHint) : memoryWf (placeObj s core ctx obj off m bs ch) := by
  unfold placeObj
  dsimp only
  split
  · exact memoryWf_l1Write (memoryWf_expandPage (memoryWf_writeMapped h ..) ..) ..
  · exact memoryWf_l1Write (memoryWf_writeMapped h ..) ..

theorem memoryWf_writeObj {s : State} (h : memoryWf s) (core : Option Nat) (ctx obj off : Nat) (m : Mapped) (bs : List Byte)
    (ch : CacheHint) : memoryWf (writeObj s core ctx obj off m bs ch) := memoryWf_placeObj h ..

theorem memoryWf_writePieces (ctx obj : Nat) : ∀ (ps : List Piece) (bs : List Byte) {s : State}, memoryWf s →
    memoryWf (writePieces ctx obj ps bs s)
  | [], _, _, h => h
  | p :: ps, bs, _, h => memoryWf_writePieces ctx obj ps (bs.drop p.len) (memoryWf_writeObj h ..)

/-! ### Translation -/

theorem memoryWf_setPins {s : State} (h : memoryWf s) (e : BitVec 512) (v n : Nat) : memoryWf (setPins s e v n) :=
  memoryWf_dram h (Memory.writeNat_wf h.1 ..)

theorem memoryWf_bindVersion {s : State} (h : memoryWf s) (l : Option Nat) (obj : Nat) (e : BitVec 512) (v : Nat) :
    memoryWf (bindVersion s l obj e v).1 := by
  unfold bindVersion
  dsimp only
  split
  · split <;> exact h
  · split
    · split
      · exact h
      · split
        · refine memoryWf_setPins (memoryWf_modLaunch h _ ?_) ..
          exact fun _ hl => hl
        · exact h
    · exact h

/-- Every answer of Translate leaves the state that the binding leaves. -/
theorem memoryWf_translate {s : State} (h : memoryWf s) (ctx : Nat) (l : Option Nat) (w : Want) : memoryWf (translate s ctx l w).1 := by
  unfold translate
  split
  · exact h
  · extract_lets pg flt
    split
    · exact h
    · split
      rename_i s1 root o e
      have h1 : memoryWf s1 := by
        split at e
        · cases e; exact memoryWf_bindVersion h ..
        · cases e; exact h
      split
      · exact h1
      · split
        · exact h1
        · extract_lets pe paddr deferred
          repeat (first | exact h1 | split)

theorem memoryWf_translatePieces (ctx : Nat) (l : Option Nat) (obj : Nat) (acc : Acc) : ∀ (ps : List (Nat × Nat)) {s : State},
    memoryWf s → memoryWf (translatePieces ctx l obj acc ps s).1
  | [], _, h => h
  | (off, n) :: ps, s, h => by
    unfold translatePieces
    have h1 := memoryWf_translate h ctx l ⟨obj, off, acc, false, false⟩
    split
    · rename_i s1 m r e
      rw [e] at h1
      have h2 := memoryWf_translatePieces ctx l obj acc ps h1
      split <;> (rename_i e2; rw [e2] at h2; exact h2)
    · rename_i e
      rw [e] at h1
      exact h1

theorem memoryWf_translateRange {s : State} (h : memoryWf s) (ctx : Nat) (l : Option Nat) (obj : Nat) (acc : Acc) (off n : Nat) :
    memoryWf (translateRange s ctx l obj acc off n).1 := memoryWf_translatePieces _ _ _ _ _ h

theorem memoryWf_readObj {s : State} (h : memoryWf s) (ctx : Nat) (l : Option Nat) (acc : Acc) (obj off n : Nat) :
    memoryWf (readObj s ctx l acc obj off n).1 := by
  have h1 := memoryWf_translateRange h ctx l obj acc off n
  unfold readObj
  split <;> (rename_i e; rw [e] at h1; exact h1)

/-! ### A launch's arguments -/

theorem memoryWf_readArgs {s : State} (h : memoryWf s) (ctx obj off : Nat) : memoryWf (readArgs s ctx obj off).1 := by
  have h1 := memoryWf_translateRange h ctx none obj .read off 2048
  unfold readArgs
  split
  · rename_i e; rw [e] at h1; exact h1
  · rename_i e; rw [e] at h1
    split <;> exact h1

theorem memoryWf_readWaiting {s : State} (h : memoryWf s) (ctx : Nat) (l : Option Nat) (acc : Acc) (obj off n : Nat) :
    memoryWf (readWaiting s ctx l acc obj off n).1 := by
  have h1 := memoryWf_translateRange h ctx l obj acc off n
  unfold readWaiting
  split <;> (rename_i e; rw [e] at h1; exact h1)

theorem memoryWf_readFlocks {s : State} (h : memoryWf s) (ctx obj off waves : Nat) : memoryWf (readFlocks s ctx obj off waves).1 := by
  have h1 := memoryWf_readWaiting h ctx none .read obj off 8192
  unfold readFlocks
  split
  · exact h
  · split <;> (rename_i e; rw [e] at h1; exact h1)

theorem memoryWf_writeArgs {s : State} (h : memoryWf s) (ctx obj : Nat) (a : ArgArea) : memoryWf (writeArgs s ctx obj a).1 := by
  have h1 := memoryWf_translateRange h ctx none obj .cwrite 0 2048
  unfold writeArgs
  split
  · rename_i e; rw [e] at h1; exact h1
  · rename_i s1 ps e
    rw [e] at h1
    split
    · exact h1
    · refine memoryWf_foldl (fun s x hs => ?_) _ (memoryWf_foldl (fun s x hs => ?_) _ (memoryWf_writePieces _ _ _ _ h1))
      · split <;> exact hs
      · split <;> exact hs

theorem memoryWf_fetchKernel {s : State} (h : memoryWf s) (l : Launch) : memoryWf (fetchKernel s l).1 := by
  have h1 := memoryWf_readArgs h l.ctx (pObj l.packet 6) (pOff l.packet 7)
  unfold fetchKernel
  extract_lets p
  split
  · rename_i e; rw [e] at h1; exact h1
  · rename_i s1 a e
    rw [e] at h1
    have h2 := memoryWf_readFlocks h1 l.ctx (pObj p 9) (pOff p 10) (pWaves p)
    split
    · rename_i e2; rw [e2] at h2; exact h2
    · rename_i s2 fs e2
      rw [e2] at h2
      split
      · exact h2
      · have h3 := memoryWf_writeArgs h2 l.ctx l.argObj.toNat a
        split <;> (rename_i e3; rw [e3] at h3; exact h3)

/-! ### Plain pages -/

/-- A read on a plain page of an object translates to its frame, and changes nothing (R363). -/
theorem translate_plain {s : State} {ctx obj off pa : Nat} {l : Option Nat} {oe : BitVec 512} (h1 : objEntry s ctx obj = some oe)
    (h2 : keyOwned s ctx oe = true) (h3 : objWsf oe = false)
    (h4 : pageEntryAddr s (objHome oe) (objRoot oe) (off / objPage oe) = some pa) (h5 : pagePresent (s.dram.read64 pa) = true)
    (h6 : pageConst (s.dram.read64 pa) = false) (h7 : pagePfn (s.dram.read64 pa) + off % objPage oe < Config.dramBytes) :
    ∃ m, translate s ctx l ⟨obj, off, .read, false, false⟩ = (s, .ok m false) ∧ m.loc.ws = false ∧ m.pe = s.dram.read64 pa
      ∧ m.loc.addr = dramAt (objHome oe) (pagePfn (s.dram.read64 pa) + off % objPage oe) := by
  refine ⟨⟨oe, s.dram.read64 pa, pa, ⟨false, dramAt (objHome oe) (pagePfn (s.dram.read64 pa) + off % objPage oe)⟩, objHome oe,
    pagePfn (s.dram.read64 pa) + off % objPage oe, 0⟩, ?_, rfl, rfl, rfl⟩
  have h8 : ¬ (Config.dramBytes ≤ pagePfn (s.dram.read64 pa) + off % objPage oe) := by omega
  unfold translate
  rw [h1]
  simp [h2, h3, h4, h5, h6, h8, Acc.writes, Option.filter]

/-- A range on such a page, no line of which was written under a key, reads as its bytes, in one piece. -/
theorem fwRead_plain {s : State} {ctx obj off n : Nat} {m : Mapped} (hn : n ≠ 0) (hf : off % 2 ^ 16 + n ≤ 2 ^ 16)
    (ht : translate s ctx none ⟨obj, off, .read, false, false⟩ = (s, .ok m false)) (hw : m.loc.ws = false) (hc : pageConst m.pe = false)
    (hl : s.lineKey = []) (hp : anyPoison s m n = false) : fwRead s ctx obj off n = some (s.dram.readBytes m.loc.addr n) := by
  have hk : min n (2 ^ 16 - off % 2 ^ 16) = n := by omega
  have hs : piecesOf off n = [(off, n)] := by
    unfold piecesOf
    show pieces (n / 2 ^ 16 + 1 + 1) off n = _
    unfold pieces
    rw [if_neg hn]
    simp only [hk, Nat.sub_self]
    unfold pieces
    simp
  unfold fwRead readObj translateRange
  rw [hs]
  simp [translatePieces, ht, readPieces, hp, readMapped, hw, hc, readUnder, keyDiffers, hl, Assoc.get]

theorem readBytes_eq_map (m : Memory) : ∀ (n a : Nat), m.readBytes a n = (List.range n).map (fun i => m.read (a + i))
  | 0, _ => rfl
  | n + 1, a => by
    rw [Memory.readBytes, readBytes_eq_map m n (a + 1), List.range_succ_eq_map]
    simp [Nat.add_comm, Nat.add_left_comm]

/-- Bytes just written read back. -/
theorem readBytes_writeBytes {m : Memory} (h : m.wf = true) (a : Nat) (bs : List Byte) : (m.writeBytes a bs).readBytes a bs.length = bs := by
  rw [readBytes_eq_map]
  refine List.ext_getElem (by simp) (fun i h1 h2 => ?_)
  simp only [List.getElem_map, List.getElem_range]
  rw [Memory.read_writeBytes bs h, if_pos (by omega)]
  simp [List.getD_eq_getElem?_getD, h2]

end Sys2Proof.Machine
end

