-- ==== Sys2Proof/Laws/PerInstr.lean ====
section
/-! SUPPORT. The per-instruction family EncodeShape: the opcode and the header an instruction is encoded with. -/

namespace Sys2Proof.Laws.EncodeShape

open Sys2Proof

/-- The header that comes first in every instruction but UDF; an event has none. -/
def header : Instr → Option Hdr
  | .nop h => some h
  | .bra h _ => some h
  | .brx h _ => some h
  | .call h _ _ => some h
  | .ret h _ => some h
  | .callo h _ _ _ => some h
  | .jmpo h _ _ => some h
  | .exit h => some h
  | .yield h => some h
  | .trap h _ => some h
  | .bkpt h _ => some h
  | .twait h _ => some h
  | .ovld h _ _ => some h
  | .ovrel h _ => some h
  | .ovq h _ _ => some h
  | .iadd h _ _ _ => some h
  | .isub h _ _ _ => some h
  | .imul h _ _ _ => some h
  | .imulh h _ _ _ _ => some h
  | .imulw h _ _ _ _ => some h
  | .imad h _ _ _ _ _ => some h
  | .imin h _ _ _ _ => some h
  | .imax h _ _ _ _ => some h
  | .iabs h _ _ => some h
  | .iadds h _ _ _ _ => some h
  | .isubs h _ _ _ _ => some h
  | .and h _ _ _ => some h
  | .or h _ _ _ => some h
  | .xor h _ _ _ => some h
  | .andn h _ _ _ => some h
  | .shl h _ _ _ => some h
  | .shr h _ _ _ => some h
  | .sar h _ _ _ => some h
  | .bfe h _ _ _ _ => some h
  | .bfi h _ _ _ _ => some h
  | .popc h _ _ => some h
  | .clz h _ _ => some h
  | .brev h _ _ => some h
  | .iadd64 h _ _ _ => some h
  | .isub64 h _ _ _ => some h
  | .shl64 h _ _ _ => some h
  | .shr64 h _ _ _ => some h
  | .sar64 h _ _ _ => some h
  | .cmpi h _ _ _ _ _ _ => some h
  | .cmpf h _ _ _ _ _ _ _ => some h
  | .cmpd h _ _ _ _ _ _ _ => some h
  | .cmph h _ _ _ _ _ _ _ => some h
  | .pfun h _ _ _ _ _ => some h
  | .sel h _ _ _ _ => some h
  | .mov h _ _ => some h
  | .movi h _ _ => some h
  | .ptov h _ => some h
  | .vtop h _ _ => some h
  | .srd h _ _ => some h
  | .swr h _ _ => some h
  | .ballot h _ _ _ => some h
  | .vote h _ _ _ _ => some h
  | .shfl h _ _ _ _ _ => some h
  | .wred h _ _ _ _ => some h
  | .wscan h _ _ _ _ _ => some h
  | .matchEq h _ _ _ => some h
  | .wsync h _ => some h
  | .fadd h _ _ _ _ => some h
  | .fsub h _ _ _ _ => some h
  | .fmul h _ _ _ _ => some h
  | .ffma h _ _ _ _ _ => some h
  | .fmin h _ _ _ _ => some h
  | .fmax h _ _ _ _ => some h
  | .frcp h _ _ _ => some h
  | .frsq h _ _ _ => some h
  | .fsqrt h _ _ _ => some h
  | .fdiv h _ _ _ _ => some h
  | .fexp2 h _ _ _ => some h
  | .flog2 h _ _ _ => some h
  | .frnd h _ _ _ => some h
  | .fcls h _ _ _ => some h
  | .dadd h _ _ _ _ => some h
  | .dmul h _ _ _ _ => some h
  | .dfma h _ _ _ _ _ => some h
  | .dmin h _ _ _ _ => some h
  | .dmax h _ _ _ _ => some h
  | .ddiv h _ _ _ _ => some h
  | .dsqrt h _ _ _ => some h
  | .hadd2 h _ _ _ _ => some h
  | .hmul2 h _ _ _ _ => some h
  | .hfma2 h _ _ _ _ _ => some h
  | .hmin2 h _ _ _ _ => some h
  | .hmax2 h _ _ _ _ => some h
  | .badd2 h _ _ _ _ => some h
  | .bmul2 h _ _ _ _ => some h
  | .bfma2 h _ _ _ _ _ => some h
  | .bmin2 h _ _ _ _ => some h
  | .bmax2 h _ _ _ _ => some h
  | .cvt h _ _ _ _ _ _ _ => some h
  | .cvt2 h _ _ _ _ _ _ => some h
  | .qe4 h _ _ _ _ => some h
  | .qe2 h _ _ _ _ _ _ => some h
  | .dq h _ _ _ _ _ _ _ => some h
  | .bscale h _ _ _ _ => some h
  | .ld h _ _ _ => some h
  | .st h _ _ _ => some h
  | .ldl h _ _ _ => some h
  | .stl h _ _ _ => some h
  | .lda h _ _ _ => some h
  | .sta h _ _ _ => some h
  | .ldage h _ _ => some h
  | .ldc h _ _ => some h
  | .stc h _ _ => some h
  | .prf h _ => some h
  | .cst h _ _ _ _ => some h
  | .xld h _ _ _ _ => some h
  | .capoff h _ _ _ => some h
  | .capadd h _ _ _ => some h
  | .capnar h _ _ _ => some h
  | .caprgt h _ _ _ => some h
  | .capget h _ _ _ => some h
  | .capchk h _ _ _ => some h
  | .capmov h _ _ => some h
  | .atom h _ _ _ _ => some h
  | .atomf h _ _ _ _ => some h
  | .cas h _ _ _ _ _ => some h
  | .cas128 h _ _ _ _ => some h
  | .red h _ _ _ => some h
  | .redf h _ _ _ => some h
  | .atoml h _ _ _ _ => some h
  | .casl h _ _ _ _ _ => some h
  | .commitT h _ => some h
  | .commitB h _ => some h
  | .commitG h _ => some h
  | .commitP h _ _ => some h
  | .dage h _ _ => some h
  | .stepinc h _ => some h
  | .dqry h _ => some h
  | .cpy h _ _ _ _ _ => some h
  | .cpyRing h _ _ _ _ _ _ => some h
  | .cpyg h _ _ _ _ _ _ _ _ => some h
  | .cpys h _ _ _ _ _ _ _ _ _ => some h
  | .cpyq h _ _ _ _ => some h
  | .rinit h _ _ => some h
  | .rres h _ _ => some h
  | .rpub h _ _ => some h
  | .rwait h _ _ => some h
  | .rrel h _ _ => some h
  | .binit h _ _ => some h
  | .barv h _ _ => some h
  | .bwait h _ _ => some h
  | .barw h _ _ => some h
  | .fence h _ _ => some h
  | .grow h _ _ => some h
  | .mma h _ _ _ => some h
  | .mmb h _ _ _ => some h
  | .mscale h _ _ _ _ => some h
  | .mwait h _ _ => some h
  | .plane h _ _ _ _ _ _ _ => some h
  | .azero h _ _ _ _ => some h
  | .acvt h _ _ _ _ _ _ => some h
  | .amovOut h _ _ _ _ _ => some h
  | .amovIn h _ _ _ _ _ => some h
  | .fenceo h => some h
  | .bld h _ _ _ _ => some h
  | .eret h => some h
  | .eretSkip h => some h
  | .tinfo h _ _ => some h
  | _ => none

/-- The word of an instruction has an opcode that Table 3.11 assigns, which is not UDF's, and carries the instruction's own
header; an event has no word. -/
def Statement (i : Instr) : Prop :=
  match i.fields with
  | some f => assigned f.op = true ∧ f.op ≠ 0xD02#12 ∧ header i = some f.h
  | none => header i = none

theorem nop (h : Hdr) : Statement (.nop h) :=
  ⟨(by decide : assigned 0x000 = true), (by decide : 0x000#12 ≠ 0xD02#12), rfl⟩
theorem bra (h : Hdr) (off : Word) : Statement (.bra h off) :=
  ⟨(by decide : assigned 0x001 = true), (by decide : 0x001#12 ≠ 0xD02#12), rfl⟩
theorem brx (h : Hdr) (a : VReg) : Statement (.brx h a) :=
  ⟨(by decide : assigned 0x002 = true), (by decide : 0x002#12 ≠ 0xD02#12), rfl⟩
theorem call (h : Hdr) (d : VReg) (off : Word) : Statement (.call h d off) :=
  ⟨(by decide : assigned 0x003 = true), (by decide : 0x003#12 ≠ 0xD02#12), rfl⟩
theorem ret (h : Hdr) (a : VReg) : Statement (.ret h a) :=
  ⟨(by decide : assigned 0x004 = true), (by decide : 0x004#12 ≠ 0xD02#12), rfl⟩
theorem callo (h : Hdr) (d : VReg) (o : OvSel) (entry : BitVec 15) : Statement (.callo h d o entry) :=
  ⟨(by decide : assigned 0x005 = true), (by decide : 0x005#12 ≠ 0xD02#12), rfl⟩
theorem jmpo (h : Hdr) (o : OvSel) (entry : BitVec 15) : Statement (.jmpo h o entry) :=
  ⟨(by decide : assigned 0x006 = true), (by decide : 0x006#12 ≠ 0xD02#12), rfl⟩
theorem exit (h : Hdr) : Statement (.exit h) :=
  ⟨(by decide : assigned 0x007 = true), (by decide : 0x007#12 ≠ 0xD02#12), rfl⟩
theorem yield (h : Hdr) : Statement (.yield h) :=
  ⟨(by decide : assigned 0x008 = true), (by decide : 0x008#12 ≠ 0xD02#12), rfl⟩
theorem trap (h : Hdr) (code : BitVec 16) : Statement (.trap h code) :=
  ⟨(by decide : assigned 0x009 = true), (by decide : 0x009#12 ≠ 0xD02#12), rfl⟩
theorem bkpt (h : Hdr) (code : BitVec 16) : Statement (.bkpt h code) :=
  ⟨(by decide : assigned 0x00A = true), (by decide : 0x00A#12 ≠ 0xD02#12), rfl⟩
theorem twait (h : Hdr) (a : Src) : Statement (.twait h a) :=
  ⟨(by decide : assigned 0x00B = true), (by decide : 0x00B#12 ≠ 0xD02#12), rfl⟩
theorem ovld (h : Hdr) (d : VReg) (o : OvSel) : Statement (.ovld h d o) :=
  ⟨(by decide : assigned 0x00C = true), (by decide : 0x00C#12 ≠ 0xD02#12), rfl⟩
theorem ovrel (h : Hdr) (o : OvSel) : Statement (.ovrel h o) :=
  ⟨(by decide : assigned 0x00D = true), (by decide : 0x00D#12 ≠ 0xD02#12), rfl⟩
theorem ovq (h : Hdr) (d : VReg) (o : OvSel) : Statement (.ovq h d o) :=
  ⟨(by decide : assigned 0x00E = true), (by decide : 0x00E#12 ≠ 0xD02#12), rfl⟩
theorem iadd (h : Hdr) (d : VReg) (a b : Src) : Statement (.iadd h d a b) :=
  ⟨(by decide : assigned 0x100 = true), (by decide : 0x100#12 ≠ 0xD02#12), rfl⟩
theorem isub (h : Hdr) (d : VReg) (a b : Src) : Statement (.isub h d a b) :=
  ⟨(by decide : assigned 0x101 = true), (by decide : 0x101#12 ≠ 0xD02#12), rfl⟩
theorem imul (h : Hdr) (d : VReg) (a b : Src) : Statement (.imul h d a b) :=
  ⟨(by decide : assigned 0x102 = true), (by decide : 0x102#12 ≠ 0xD02#12), rfl⟩
theorem imulh (h : Hdr) (ns : Bool) (d : VReg) (a b : Src) : Statement (.imulh h ns d a b) :=
  ⟨(by decide : assigned 0x103 = true), (by decide : 0x103#12 ≠ 0xD02#12), rfl⟩
theorem imulw (h : Hdr) (ns : Bool) (d : VReg) (a b : Src) : Statement (.imulw h ns d a b) :=
  ⟨(by decide : assigned 0x104 = true), (by decide : 0x104#12 ≠ 0xD02#12), rfl⟩
theorem imad (h : Hdr) (ns : Bool) (d : VReg) (a b c : Src) : Statement (.imad h ns d a b c) :=
  ⟨(by decide : assigned 0x105 = true), (by decide : 0x105#12 ≠ 0xD02#12), rfl⟩
theorem imin (h : Hdr) (ns : Bool) (d : VReg) (a b : Src) : Statement (.imin h ns d a b) :=
  ⟨(by decide : assigned 0x106 = true), (by decide : 0x106#12 ≠ 0xD02#12), rfl⟩
theorem imax (h : Hdr) (ns : Bool) (d : VReg) (a b : Src) : Statement (.imax h ns d a b) :=
  ⟨(by decide : assigned 0x107 = true), (by decide : 0x107#12 ≠ 0xD02#12), rfl⟩
theorem iabs (h : Hdr) (d : VReg) (a : Src) : Statement (.iabs h d a) :=
  ⟨(by decide : assigned 0x108 = true), (by decide : 0x108#12 ≠ 0xD02#12), rfl⟩
theorem iadds (h : Hdr) (ns : Bool) (d : VReg) (a b : Src) : Statement (.iadds h ns d a b) :=
  ⟨(by decide : assigned 0x109 = true), (by decide : 0x109#12 ≠ 0xD02#12), rfl⟩
theorem isubs (h : Hdr) (ns : Bool) (d : VReg) (a b : Src) : Statement (.isubs h ns d a b) :=
  ⟨(by decide : assigned 0x10A = true), (by decide : 0x10A#12 ≠ 0xD02#12), rfl⟩
theorem and (h : Hdr) (d : VReg) (a b : Src) : Statement (.and h d a b) :=
  ⟨(by decide : assigned 0x10B = true), (by decide : 0x10B#12 ≠ 0xD02#12), rfl⟩
theorem or (h : Hdr) (d : VReg) (a b : Src) : Statement (.or h d a b) :=
  ⟨(by decide : assigned 0x10C = true), (by decide : 0x10C#12 ≠ 0xD02#12), rfl⟩
theorem xor (h : Hdr) (d : VReg) (a b : Src) : Statement (.xor h d a b) :=
  ⟨(by decide : assigned 0x10D = true), (by decide : 0x10D#12 ≠ 0xD02#12), rfl⟩
theorem andn (h : Hdr) (d : VReg) (a b : Src) : Statement (.andn h d a b) :=
  ⟨(by decide : assigned 0x10E = true), (by decide : 0x10E#12 ≠ 0xD02#12), rfl⟩
theorem shl (h : Hdr) (d : VReg) (a b : Src) : Statement (.shl h d a b) :=
  ⟨(by decide : assigned 0x10F = true), (by decide : 0x10F#12 ≠ 0xD02#12), rfl⟩
theorem shr (h : Hdr) (d : VReg) (a b : Src) : Statement (.shr h d a b) :=
  ⟨(by decide : assigned 0x110 = true), (by decide : 0x110#12 ≠ 0xD02#12), rfl⟩
theorem sar (h : Hdr) (d : VReg) (a b : Src) : Statement (.sar h d a b) :=
  ⟨(by decide : assigned 0x111 = true), (by decide : 0x111#12 ≠ 0xD02#12), rfl⟩
theorem bfe (h : Hdr) (ns : Bool) (d : VReg) (a b : Src) : Statement (.bfe h ns d a b) :=
  ⟨(by decide : assigned 0x112 = true), (by decide : 0x112#12 ≠ 0xD02#12), rfl⟩
theorem bfi (h : Hdr) (d : VReg) (a b c : Src) : Statement (.bfi h d a b c) :=
  ⟨(by decide : assigned 0x113 = true), (by decide : 0x113#12 ≠ 0xD02#12), rfl⟩
theorem popc (h : Hdr) (d : VReg) (a : Src) : Statement (.popc h d a) :=
  ⟨(by decide : assigned 0x114 = true), (by decide : 0x114#12 ≠ 0xD02#12), rfl⟩
theorem clz (h : Hdr) (d : VReg) (a : Src) : Statement (.clz h d a) :=
  ⟨(by decide : assigned 0x115 = true), (by decide : 0x115#12 ≠ 0xD02#12), rfl⟩
theorem brev (h : Hdr) (d : VReg) (a : Src) : Statement (.brev h d a) :=
  ⟨(by decide : assigned 0x116 = true), (by decide : 0x116#12 ≠ 0xD02#12), rfl⟩
theorem iadd64 (h : Hdr) (d : VReg) (a b : Src) : Statement (.iadd64 h d a b) :=
  ⟨(by decide : assigned 0x117 = true), (by decide : 0x117#12 ≠ 0xD02#12), rfl⟩
theorem isub64 (h : Hdr) (d : VReg) (a b : Src) : Statement (.isub64 h d a b) :=
  ⟨(by decide : assigned 0x118 = true), (by decide : 0x118#12 ≠ 0xD02#12), rfl⟩
theorem shl64 (h : Hdr) (d : VReg) (a b : Src) : Statement (.shl64 h d a b) :=
  ⟨(by decide : assigned 0x119 = true), (by decide : 0x119#12 ≠ 0xD02#12), rfl⟩
theorem shr64 (h : Hdr) (d : VReg) (a b : Src) : Statement (.shr64 h d a b) :=
  ⟨(by decide : assigned 0x11A = true), (by decide : 0x11A#12 ≠ 0xD02#12), rfl⟩
theorem sar64 (h : Hdr) (d : VReg) (a b : Src) : Statement (.sar64 h d a b) :=
  ⟨(by decide : assigned 0x11B = true), (by decide : 0x11B#12 ≠ 0xD02#12), rfl⟩
theorem cmpi (h : Hdr) (ns : Bool) (cmp : Cmp) (comb : Comb) (d : PReg) (a b : Src) :
    Statement (.cmpi h ns cmp comb d a b) :=
  ⟨(by decide : assigned 0x200 = true), (by decide : 0x200#12 ≠ 0xD02#12), rfl⟩
theorem cmpf (h : Hdr) (ftz nan : Bool) (cmp : Cmp) (comb : Comb) (d : PReg) (a b : Src) :
    Statement (.cmpf h ftz nan cmp comb d a b) :=
  ⟨(by decide : assigned 0x201 = true), (by decide : 0x201#12 ≠ 0xD02#12), rfl⟩
theorem cmpd (h : Hdr) (ftz nan : Bool) (cmp : Cmp) (comb : Comb) (d : PReg) (a b : Src) :
    Statement (.cmpd h ftz nan cmp comb d a b) :=
  ⟨(by decide : assigned 0x202 = true), (by decide : 0x202#12 ≠ 0xD02#12), rfl⟩
theorem cmph (h : Hdr) (ftz nan : Bool) (cmp : Cmp) (comb : Comb) (d : PReg) (a b : Src) :
    Statement (.cmph h ftz nan cmp comb d a b) :=
  ⟨(by decide : assigned 0x203 = true), (by decide : 0x203#12 ≠ 0xD02#12), rfl⟩
theorem pfun (h : Hdr) (d a b c : PReg) (table : BitVec 8) : Statement (.pfun h d a b c table) :=
  ⟨(by decide : assigned 0x204 = true), (by decide : 0x204#12 ≠ 0xD02#12), rfl⟩
theorem sel (h : Hdr) (d : VReg) (a b : Src) (c : PReg) : Statement (.sel h d a b c) :=
  ⟨(by decide : assigned 0x205 = true), (by decide : 0x205#12 ≠ 0xD02#12), rfl⟩
theorem mov (h : Hdr) (d : VReg) (a : MovSrc) : Statement (.mov h d a) :=
  ⟨(by decide : assigned 0x206 = true), (by decide : 0x206#12 ≠ 0xD02#12), rfl⟩
theorem movi (h : Hdr) (d : VReg) (x : Word) : Statement (.movi h d x) :=
  ⟨(by decide : assigned 0x207 = true), (by decide : 0x207#12 ≠ 0xD02#12), rfl⟩
theorem ptov (h : Hdr) (d : VReg) : Statement (.ptov h d) :=
  ⟨(by decide : assigned 0x208 = true), (by decide : 0x208#12 ≠ 0xD02#12), rfl⟩
theorem vtop (h : Hdr) (a b : Src) : Statement (.vtop h a b) :=
  ⟨(by decide : assigned 0x209 = true), (by decide : 0x209#12 ≠ 0xD02#12), rfl⟩
theorem srd (h : Hdr) (d : VReg) (idx : BitVec 8) : Statement (.srd h d idx) :=
  ⟨(by decide : assigned 0x20A = true), (by decide : 0x20A#12 ≠ 0xD02#12), rfl⟩
theorem swr (h : Hdr) (idx : BitVec 8) (a : RC) : Statement (.swr h idx a) :=
  ⟨(by decide : assigned 0x20B = true), (by decide : 0x20B#12 ≠ 0xD02#12), rfl⟩
theorem ballot (h : Hdr) (mask : Word) (d : VReg) (a : PReg) : Statement (.ballot h mask d a) :=
  ⟨(by decide : assigned 0x300 = true), (by decide : 0x300#12 ≠ 0xD02#12), rfl⟩
theorem vote (h : Hdr) (mask : Word) (op : VoteOp) (d : PReg) (a : PReg) : Statement (.vote h mask op d a) :=
  ⟨(by decide : assigned 0x301 = true), (by decide : 0x301#12 ≠ 0xD02#12), rfl⟩
theorem shfl (h : Hdr) (mask : Word) (op : ShflOp) (d : VReg) (a : Src) (b : RC) :
    Statement (.shfl h mask op d a b) :=
  ⟨(by decide : assigned 0x302 = true), (by decide : 0x302#12 ≠ 0xD02#12), rfl⟩
theorem wred (h : Hdr) (mask : Word) (op : WOp) (d : VReg) (a : Src) : Statement (.wred h mask op d a) :=
  ⟨(by decide : assigned 0x303 = true), (by decide : 0x303#12 ≠ 0xD02#12), rfl⟩
theorem wscan (h : Hdr) (mask : Word) (op : WOp) (excl : Bool) (d : VReg) (a : Src) :
    Statement (.wscan h mask op excl d a) :=
  ⟨(by decide : assigned 0x304 = true), (by decide : 0x304#12 ≠ 0xD02#12), rfl⟩
theorem matchEq (h : Hdr) (mask : Word) (d : VReg) (a : Src) : Statement (.matchEq h mask d a) :=
  ⟨(by decide : assigned 0x305 = true), (by decide : 0x305#12 ≠ 0xD02#12), rfl⟩
theorem wsync (h : Hdr) (mask : Word) : Statement (.wsync h mask) :=
  ⟨(by decide : assigned 0x306 = true), (by decide : 0x306#12 ≠ 0xD02#12), rfl⟩
theorem fadd (h : Hdr) (m : FMod) (d : VReg) (a b : Src) : Statement (.fadd h m d a b) :=
  ⟨(by decide : assigned 0x400 = true), (by decide : 0x400#12 ≠ 0xD02#12), rfl⟩
theorem fsub (h : Hdr) (m : FMod) (d : VReg) (a b : Src) : Statement (.fsub h m d a b) :=
  ⟨(by decide : assigned 0x401 = true), (by decide : 0x401#12 ≠ 0xD02#12), rfl⟩
theorem fmul (h : Hdr) (m : FMod) (d : VReg) (a b : Src) : Statement (.fmul h m d a b) :=
  ⟨(by decide : assigned 0x402 = true), (by decide : 0x402#12 ≠ 0xD02#12), rfl⟩
theorem ffma (h : Hdr) (m : FMod) (d : VReg) (a b c : Src) : Statement (.ffma h m d a b c) :=
  ⟨(by decide : assigned 0x403 = true), (by decide : 0x403#12 ≠ 0xD02#12), rfl⟩
theorem fmin (h : Hdr) (m : FMod) (d : VReg) (a b : Src) : Statement (.fmin h m d a b) :=
  ⟨(by decide : assigned 0x404 = true), (by decide : 0x404#12 ≠ 0xD02#12), rfl⟩
theorem fmax (h : Hdr) (m : FMod) (d : VReg) (a b : Src) : Statement (.fmax h m d a b) :=
  ⟨(by decide : assigned 0x405 = true), (by decide : 0x405#12 ≠ 0xD02#12), rfl⟩
theorem frcp (h : Hdr) (m : FMod) (d : VReg) (a : Src) : Statement (.frcp h m d a) :=
  ⟨(by decide : assigned 0x406 = true), (by decide : 0x406#12 ≠ 0xD02#12), rfl⟩
theorem frsq (h : Hdr) (m : FMod) (d : VReg) (a : Src) : Statement (.frsq h m d a) :=
  ⟨(by decide : assigned 0x407 = true), (by decide : 0x407#12 ≠ 0xD02#12), rfl⟩
theorem fsqrt (h : Hdr) (m : FMod) (d : VReg) (a : Src) : Statement (.fsqrt h m d a) :=
  ⟨(by decide : assigned 0x408 = true), (by decide : 0x408#12 ≠ 0xD02#12), rfl⟩
theorem fdiv (h : Hdr) (m : FMod) (d : VReg) (a b : Src) : Statement (.fdiv h m d a b) :=
  ⟨(by decide : assigned 0x409 = true), (by decide : 0x409#12 ≠ 0xD02#12), rfl⟩
theorem fexp2 (h : Hdr) (m : FMod) (d : VReg) (a : Src) : Statement (.fexp2 h m d a) :=
  ⟨(by decide : assigned 0x40A = true), (by decide : 0x40A#12 ≠ 0xD02#12), rfl⟩
theorem flog2 (h : Hdr) (m : FMod) (d : VReg) (a : Src) : Statement (.flog2 h m d a) :=
  ⟨(by decide : assigned 0x40B = true), (by decide : 0x40B#12 ≠ 0xD02#12), rfl⟩
theorem frnd (h : Hdr) (m : FMod) (d : VReg) (a : Src) : Statement (.frnd h m d a) :=
  ⟨(by decide : assigned 0x40C = true), (by decide : 0x40C#12 ≠ 0xD02#12), rfl⟩
theorem fcls (h : Hdr) (m : FMod) (d : VReg) (a : Src) : Statement (.fcls h m d a) :=
  ⟨(by decide : assigned 0x40D = true), (by decide : 0x40D#12 ≠ 0xD02#12), rfl⟩
theorem dadd (h : Hdr) (m : FMod) (d : VReg) (a b : Src) : Statement (.dadd h m d a b) :=
  ⟨(by decide : assigned 0x40E = true), (by decide : 0x40E#12 ≠ 0xD02#12), rfl⟩
theorem dmul (h : Hdr) (m : FMod) (d : VReg) (a b : Src) : Statement (.dmul h m d a b) :=
  ⟨(by decide : assigned 0x40F = true), (by decide : 0x40F#12 ≠ 0xD02#12), rfl⟩
theorem dfma (h : Hdr) (m : FMod) (d : VReg) (a b c : Src) : Statement (.dfma h m d a b c) :=
  ⟨(by decide : assigned 0x410 = true), (by decide : 0x410#12 ≠ 0xD02#12), rfl⟩
theorem dmin (h : Hdr) (m : FMod) (d : VReg) (a b : Src) : Statement (.dmin h m d a b) :=
  ⟨(by decide : assigned 0x411 = true), (by decide : 0x411#12 ≠ 0xD02#12), rfl⟩
theorem dmax (h : Hdr) (m : FMod) (d : VReg) (a b : Src) : Statement (.dmax h m d a b) :=
  ⟨(by decide : assigned 0x412 = true), (by decide : 0x412#12 ≠ 0xD02#12), rfl⟩
theorem ddiv (h : Hdr) (m : FMod) (d : VReg) (a b : Src) : Statement (.ddiv h m d a b) :=
  ⟨(by decide : assigned 0x413 = true), (by decide : 0x413#12 ≠ 0xD02#12), rfl⟩
theorem dsqrt (h : Hdr) (m : FMod) (d : VReg) (a : Src) : Statement (.dsqrt h m d a) :=
  ⟨(by decide : assigned 0x414 = true), (by decide : 0x414#12 ≠ 0xD02#12), rfl⟩
theorem hadd2 (h : Hdr) (m : FMod) (d : VReg) (a b : Src) : Statement (.hadd2 h m d a b) :=
  ⟨(by decide : assigned 0x415 = true), (by decide : 0x415#12 ≠ 0xD02#12), rfl⟩
theorem hmul2 (h : Hdr) (m : FMod) (d : VReg) (a b : Src) : Statement (.hmul2 h m d a b) :=
  ⟨(by decide : assigned 0x416 = true), (by decide : 0x416#12 ≠ 0xD02#12), rfl⟩
theorem hfma2 (h : Hdr) (m : FMod) (d : VReg) (a b c : Src) : Statement (.hfma2 h m d a b c) :=
  ⟨(by decide : assigned 0x417 = true), (by decide : 0x417#12 ≠ 0xD02#12), rfl⟩
theorem hmin2 (h : Hdr) (m : FMod) (d : VReg) (a b : Src) : Statement (.hmin2 h m d a b) :=
  ⟨(by decide : assigned 0x418 = true), (by decide : 0x418#12 ≠ 0xD02#12), rfl⟩
theorem hmax2 (h : Hdr) (m : FMod) (d : VReg) (a b : Src) : Statement (.hmax2 h m d a b) :=
  ⟨(by decide : assigned 0x419 = true), (by decide : 0x419#12 ≠ 0xD02#12), rfl⟩
theorem badd2 (h : Hdr) (m : FMod) (d : VReg) (a b : Src) : Statement (.badd2 h m d a b) :=
  ⟨(by decide : assigned 0x41A = true), (by decide : 0x41A#12 ≠ 0xD02#12), rfl⟩
theorem bmul2 (h : Hdr) (m : FMod) (d : VReg) (a b : Src) : Statement (.bmul2 h m d a b) :=
  ⟨(by decide : assigned 0x41B = true), (by decide : 0x41B#12 ≠ 0xD02#12), rfl⟩
theorem bfma2 (h : Hdr) (m : FMod) (d : VReg) (a b c : Src) : Statement (.bfma2 h m d a b c) :=
  ⟨(by decide : assigned 0x41C = true), (by decide : 0x41C#12 ≠ 0xD02#12), rfl⟩
theorem bmin2 (h : Hdr) (m : FMod) (d : VReg) (a b : Src) : Statement (.bmin2 h m d a b) :=
  ⟨(by decide : assigned 0x41D = true), (by decide : 0x41D#12 ≠ 0xD02#12), rfl⟩
theorem bmax2 (h : Hdr) (m : FMod) (d : VReg) (a b : Src) : Statement (.bmax2 h m d a b) :=
  ⟨(by decide : assigned 0x41E = true), (by decide : 0x41E#12 ≠ 0xD02#12), rfl⟩
theorem cvt (h : Hdr) (m : FMod) (dfmt sfmt : Fmt) (su du : Bool) (d : VReg) (a : Src) :
    Statement (.cvt h m dfmt sfmt su du d a) :=
  ⟨(by decide : assigned 0x500 = true), (by decide : 0x500#12 ≠ 0xD02#12), rfl⟩
theorem cvt2 (h : Hdr) (m : FMod) (dfmt sfmt : Fmt) (d : VReg) (a b : Src) : Statement (.cvt2 h m dfmt sfmt d a b) :=
  ⟨(by decide : assigned 0x501 = true), (by decide : 0x501#12 ≠ 0xD02#12), rfl⟩
theorem qe4 (h : Hdr) (m : FMod) (d : VReg) (a : VReg) (b : Src) : Statement (.qe4 h m d a b) :=
  ⟨(by decide : assigned 0x502 = true), (by decide : 0x502#12 ≠ 0xD02#12), rfl⟩
theorem qe2 (h : Hdr) (m : FMod) (hi : Bool) (d : VReg) (a : VReg) (b c : Src) : Statement (.qe2 h m hi d a b c) :=
  ⟨(by decide : assigned 0x503 = true), (by decide : 0x503#12 ≠ 0xD02#12), rfl⟩
theorem dq (h : Hdr) (m : FMod) (dfmt sfmt : Fmt) (el : BitVec 3) (d : VReg) (a b : Src) :
    Statement (.dq h m dfmt sfmt el d a b) :=
  ⟨(by decide : assigned 0x504 = true), (by decide : 0x504#12 ≠ 0xD02#12), rfl⟩
theorem bscale (h : Hdr) (fmt : Fmt) (spec : BitVec 5) (d : VReg) (a : Src) : Statement (.bscale h fmt spec d a) :=
  ⟨(by decide : assigned 0x505 = true), (by decide : 0x505#12 ≠ 0xD02#12), rfl⟩
theorem ld (h : Hdr) (m : LdMod) (d : VReg) (x : CapAddr) : Statement (.ld h m d x) :=
  ⟨(by decide : assigned 0x600 = true), (by decide : 0x600#12 ≠ 0xD02#12), rfl⟩
theorem st (h : Hdr) (m : StMod) (x : CapAddr) (c : RC) : Statement (.st h m x c) :=
  ⟨(by decide : assigned 0x601 = true), (by decide : 0x601#12 ≠ 0xD02#12), rfl⟩
theorem ldl (h : Hdr) (m : LdMod) (d : VReg) (x : LocAddr) : Statement (.ldl h m d x) :=
  ⟨(by decide : assigned 0x602 = true), (by decide : 0x602#12 ≠ 0xD02#12), rfl⟩
theorem stl (h : Hdr) (m : StMod) (x : LocAddr) (c : RC) : Statement (.stl h m x c) :=
  ⟨(by decide : assigned 0x603 = true), (by decide : 0x603#12 ≠ 0xD02#12), rfl⟩
theorem lda (h : Hdr) (wid : Wid) (d : VReg) (x : LocAddr) : Statement (.lda h wid d x) :=
  ⟨(by decide : assigned 0x604 = true), (by decide : 0x604#12 ≠ 0xD02#12), rfl⟩
theorem sta (h : Hdr) (wid : Wid) (x : LocAddr) (c : RC) : Statement (.sta h wid x c) :=
  ⟨(by decide : assigned 0x605 = true), (by decide : 0x605#12 ≠ 0xD02#12), rfl⟩
theorem ldage (h : Hdr) (d : VReg) (x : CapAddr) : Statement (.ldage h d x) :=
  ⟨(by decide : assigned 0x606 = true), (by decide : 0x606#12 ≠ 0xD02#12), rfl⟩
theorem ldc (h : Hdr) (d : AReg) (x : CapAddr) : Statement (.ldc h d x) :=
  ⟨(by decide : assigned 0x607 = true), (by decide : 0x607#12 ≠ 0xD02#12), rfl⟩
theorem stc (h : Hdr) (x : CapAddr) (c : AReg) : Statement (.stc h x c) :=
  ⟨(by decide : assigned 0x608 = true), (by decide : 0x608#12 ≠ 0xD02#12), rfl⟩
theorem prf (h : Hdr) (x : CapAddr) : Statement (.prf h x) :=
  ⟨(by decide : assigned 0x609 = true), (by decide : 0x609#12 ≠ 0xD02#12), rfl⟩
theorem cst (h : Hdr) (m : StMod) (x : CapAddr) (c : RC) (mask : VReg) : Statement (.cst h m x c mask) :=
  ⟨(by decide : assigned 0x60A = true), (by decide : 0x60A#12 ≠ 0xD02#12), rfl⟩
theorem xld (h : Hdr) (m : LdMod) (d : VReg) (x : CapAddr) (mask : VReg) : Statement (.xld h m d x mask) :=
  ⟨(by decide : assigned 0x60B = true), (by decide : 0x60B#12 ≠ 0xD02#12), rfl⟩
theorem capoff (h : Hdr) (d a : AReg) (b : Src) : Statement (.capoff h d a b) :=
  ⟨(by decide : assigned 0x700 = true), (by decide : 0x700#12 ≠ 0xD02#12), rfl⟩
theorem capadd (h : Hdr) (d a : AReg) (b : Src) : Statement (.capadd h d a b) :=
  ⟨(by decide : assigned 0x701 = true), (by decide : 0x701#12 ≠ 0xD02#12), rfl⟩
theorem capnar (h : Hdr) (d a : AReg) (b : Src) : Statement (.capnar h d a b) :=
  ⟨(by decide : assigned 0x702 = true), (by decide : 0x702#12 ≠ 0xD02#12), rfl⟩
theorem caprgt (h : Hdr) (d a : AReg) (b : Src) : Statement (.caprgt h d a b) :=
  ⟨(by decide : assigned 0x703 = true), (by decide : 0x703#12 ≠ 0xD02#12), rfl⟩
theorem capget (h : Hdr) (fld : BitVec 3) (d : VReg) (a : AReg) : Statement (.capget h fld d a) :=
  ⟨(by decide : assigned 0x704 = true), (by decide : 0x704#12 ≠ 0xD02#12), rfl⟩
theorem capchk (h : Hdr) (d : PReg) (a : AReg) (b : Src) : Statement (.capchk h d a b) :=
  ⟨(by decide : assigned 0x705 = true), (by decide : 0x705#12 ≠ 0xD02#12), rfl⟩
theorem capmov (h : Hdr) (d a : AReg) : Statement (.capmov h d a) :=
  ⟨(by decide : assigned 0x706 = true), (by decide : 0x706#12 ≠ 0xD02#12), rfl⟩
theorem atom (h : Hdr) (m : AtMod) (d : Option VReg) (x : CapAddr) (c : RC) : Statement (.atom h m d x c) := by
  cases d <;> exact ⟨(by decide : assigned 0x800 = true), (by decide : 0x800#12 ≠ 0xD02#12), rfl⟩
theorem atomf (h : Hdr) (m : AtMod) (d : VReg) (x : CapAddr) (c : RC) : Statement (.atomf h m d x c) :=
  ⟨(by decide : assigned 0x801 = true), (by decide : 0x801#12 ≠ 0xD02#12), rfl⟩
theorem cas (h : Hdr) (wid : Wid) (ord : AOrd) (d : VReg) (x : CapAddr) (c : RC) : Statement (.cas h wid ord d x c) :=
  ⟨(by decide : assigned 0x802 = true), (by decide : 0x802#12 ≠ 0xD02#12), rfl⟩
theorem cas128 (h : Hdr) (ord : AOrd) (d : VReg) (x : CapAddr) (c : VReg) : Statement (.cas128 h ord d x c) :=
  ⟨(by decide : assigned 0x803 = true), (by decide : 0x803#12 ≠ 0xD02#12), rfl⟩
theorem red (h : Hdr) (m : AtMod) (x : CapAddr) (c : RC) : Statement (.red h m x c) :=
  ⟨(by decide : assigned 0x804 = true), (by decide : 0x804#12 ≠ 0xD02#12), rfl⟩
theorem redf (h : Hdr) (m : AtMod) (x : CapAddr) (c : RC) : Statement (.redf h m x c) :=
  ⟨(by decide : assigned 0x805 = true), (by decide : 0x805#12 ≠ 0xD02#12), rfl⟩
theorem atoml (h : Hdr) (m : AtMod) (d : VReg) (x : LocAddr) (c : RC) : Statement (.atoml h m d x c) :=
  ⟨(by decide : assigned 0x806 = true), (by decide : 0x806#12 ≠ 0xD02#12), rfl⟩
theorem casl (h : Hdr) (wid : Wid) (ord : AOrd) (d : VReg) (x : LocAddr) (c : RC) :
    Statement (.casl h wid ord d x c) :=
  ⟨(by decide : assigned 0x807 = true), (by decide : 0x807#12 ≠ 0xD02#12), rfl⟩
theorem commitT (h : Hdr) (d : VReg) : Statement (.commitT h d) :=
  ⟨(by decide : assigned 0x900 = true), (by decide : 0x900#12 ≠ 0xD02#12), rfl⟩
theorem commitB (h : Hdr) (d : VReg) : Statement (.commitB h d) :=
  ⟨(by decide : assigned 0x900 = true), (by decide : 0x900#12 ≠ 0xD02#12), rfl⟩
theorem commitG (h : Hdr) (d : VReg) : Statement (.commitG h d) :=
  ⟨(by decide : assigned 0x900 = true), (by decide : 0x900#12 ≠ 0xD02#12), rfl⟩
theorem commitP (h : Hdr) (d : VReg) (group : BitVec 16) : Statement (.commitP h d group) :=
  ⟨(by decide : assigned 0x900 = true), (by decide : 0x900#12 ≠ 0xD02#12), rfl⟩
theorem dage (h : Hdr) (x : CapAddr) (c : Src) : Statement (.dage h x c) :=
  ⟨(by decide : assigned 0x901 = true), (by decide : 0x901#12 ≠ 0xD02#12), rfl⟩
theorem stepinc (h : Hdr) (d : Option VReg) : Statement (.stepinc h d) :=
  ⟨(by decide : assigned 0x902 = true), (by decide : 0x902#12 ≠ 0xD02#12), rfl⟩
theorem dqry (h : Hdr) (d : VReg) : Statement (.dqry h d) :=
  ⟨(by decide : assigned 0x903 = true), (by decide : 0x903#12 ≠ 0xD02#12), rfl⟩
theorem cpy (h : Hdr) (t : VReg) (dst src : CpySide) (cnt : VReg) (rsc : Scope) :
    Statement (.cpy h t dst src cnt rsc) :=
  ⟨(by decide : assigned 0xA00 = true), (by decide : 0xA00#12 ≠ 0xD02#12), rfl⟩
theorem cpyRing (h : Hdr) (t ring : VReg) (scap : AReg) (soff cnt : VReg) (rsc : Scope) :
    Statement (.cpyRing h t ring scap soff cnt rsc) :=
  ⟨(by decide : assigned 0xA00 = true), (by decide : 0xA00#12 ≠ 0xD02#12), rfl⟩
theorem cpyg (h : Hdr) (t : VReg) (dst : CpySide) (scap : AReg) (soff idx cnt : VReg) (esz : BitVec 4) (rsc : Scope) :
    Statement (.cpyg h t dst scap soff idx cnt esz rsc) :=
  ⟨(by decide : assigned 0xA01 = true), (by decide : 0xA01#12 ≠ 0xD02#12), rfl⟩
theorem cpys (h : Hdr) (t : VReg) (comb : Option CopOp) (dcap : AReg) (doff : VReg) (src : CpySide) (idx cnt : VReg) (esz : BitVec 4) (rsc : Scope) :
    Statement (.cpys h t comb dcap doff src idx cnt esz rsc) :=
  ⟨(by decide : assigned 0xA02 = true), (by decide : 0xA02#12 ≠ 0xD02#12), rfl⟩
theorem cpyq (h : Hdr) (t : VReg) (a : AReg) (q p : VReg) : Statement (.cpyq h t a q p) :=
  ⟨(by decide : assigned 0xA03 = true), (by decide : 0xA03#12 ≠ 0xD02#12), rfl⟩
theorem rinit (h : Hdr) (x : LocAddr) (c : VReg) : Statement (.rinit h x c) :=
  ⟨(by decide : assigned 0xA04 = true), (by decide : 0xA04#12 ≠ 0xD02#12), rfl⟩
theorem rres (h : Hdr) (d : VReg) (x : LocAddr) : Statement (.rres h d x) :=
  ⟨(by decide : assigned 0xA05 = true), (by decide : 0xA05#12 ≠ 0xD02#12), rfl⟩
theorem rpub (h : Hdr) (x : LocAddr) (c : VReg) : Statement (.rpub h x c) :=
  ⟨(by decide : assigned 0xA06 = true), (by decide : 0xA06#12 ≠ 0xD02#12), rfl⟩
theorem rwait (h : Hdr) (d : VReg) (x : LocAddr) : Statement (.rwait h d x) :=
  ⟨(by decide : assigned 0xA07 = true), (by decide : 0xA07#12 ≠ 0xD02#12), rfl⟩
theorem rrel (h : Hdr) (x : LocAddr) (c : VReg) : Statement (.rrel h x c) :=
  ⟨(by decide : assigned 0xA08 = true), (by decide : 0xA08#12 ≠ 0xD02#12), rfl⟩
theorem binit (h : Hdr) (x : LocAddr) (c : VReg) : Statement (.binit h x c) :=
  ⟨(by decide : assigned 0xB00 = true), (by decide : 0xB00#12 ≠ 0xD02#12), rfl⟩
theorem barv (h : Hdr) (d : Option VReg) (x : LocAddr) : Statement (.barv h d x) :=
  ⟨(by decide : assigned 0xB01 = true), (by decide : 0xB01#12 ≠ 0xD02#12), rfl⟩
theorem bwait (h : Hdr) (x : LocAddr) (c : VReg) : Statement (.bwait h x c) :=
  ⟨(by decide : assigned 0xB02 = true), (by decide : 0xB02#12 ≠ 0xD02#12), rfl⟩
theorem barw (h : Hdr) (d : Option VReg) (x : LocAddr) : Statement (.barw h d x) :=
  ⟨(by decide : assigned 0xB03 = true), (by decide : 0xB03#12 ≠ 0xD02#12), rfl⟩
theorem fence (h : Hdr) (kind : FenceKind) (scope : Scope) : Statement (.fence h kind scope) :=
  ⟨(by decide : assigned 0xB04 = true), (by decide : 0xB04#12 ≠ 0xD02#12), rfl⟩
theorem grow (h : Hdr) (d : VReg) (a : Src) : Statement (.grow h d a) :=
  ⟨(by decide : assigned 0xB05 = true), (by decide : 0xB05#12 ≠ 0xD02#12), rfl⟩
theorem mma (h : Hdr) (fmt : Fmt) (prec : BitVec 4) (o : QOps) : Statement (.mma h fmt prec o) :=
  ⟨(by decide : assigned 0xC00 = true), (by decide : 0xC00#12 ≠ 0xD02#12), rfl⟩
theorem mmb (h : Hdr) (fmt : Fmt) (prec : BitVec 4) (o : QOps) : Statement (.mmb h fmt prec o) :=
  ⟨(by decide : assigned 0xC01 = true), (by decide : 0xC01#12 ≠ 0xD02#12), rfl⟩
theorem mscale (h : Hdr) (fmt : Fmt) (sa sb : BitVec 2) (o : QOps) : Statement (.mscale h fmt sa sb o) :=
  ⟨(by decide : assigned 0xC02 = true), (by decide : 0xC02#12 ≠ 0xD02#12), rfl⟩
theorem mwait (h : Hdr) (d : Option VReg) (q : QReg) : Statement (.mwait h d q) :=
  ⟨(by decide : assigned 0xC03 = true), (by decide : 0xC03#12 ≠ 0xD02#12), rfl⟩
theorem plane (h : Hdr) (fmt : Fmt) (tr : Bool) (sg : BitVec 2) (q : QReg) (a b mask : VReg) :
    Statement (.plane h fmt tr sg q a b mask) :=
  ⟨(by decide : assigned 0xC04 = true), (by decide : 0xC04#12 ≠ 0xD02#12), rfl⟩
theorem azero (h : Hdr) (p64 : Bool) (q : QReg) (a mask : VReg) : Statement (.azero h p64 q a mask) :=
  ⟨(by decide : assigned 0xC05 = true), (by decide : 0xC05#12 ≠ 0xD02#12), rfl⟩
theorem acvt (h : Hdr) (fmt : Fmt) (sg : BitVec 2) (q : QReg) (a b mask : VReg) :
    Statement (.acvt h fmt sg q a b mask) :=
  ⟨(by decide : assigned 0xC06 = true), (by decide : 0xC06#12 ≠ 0xD02#12), rfl⟩
theorem amovOut (h : Hdr) (p64 : Bool) (q : QReg) (a b mask : VReg) : Statement (.amovOut h p64 q a b mask) :=
  ⟨(by decide : assigned 0xC07 = true), (by decide : 0xC07#12 ≠ 0xD02#12), rfl⟩
theorem amovIn (h : Hdr) (p64 : Bool) (q : QReg) (a b mask : VReg) : Statement (.amovIn h p64 q a b mask) :=
  ⟨(by decide : assigned 0xC07 = true), (by decide : 0xC07#12 ≠ 0xD02#12), rfl⟩
theorem fenceo (h : Hdr) : Statement (.fenceo h) :=
  ⟨(by decide : assigned 0xC08 = true), (by decide : 0xC08#12 ≠ 0xD02#12), rfl⟩
theorem bld (h : Hdr) (fmt : Fmt) (sg : BitVec 2) (d : VReg) (x : LocAddr) : Statement (.bld h fmt sg d x) :=
  ⟨(by decide : assigned 0xC09 = true), (by decide : 0xC09#12 ≠ 0xD02#12), rfl⟩
theorem eret (h : Hdr) : Statement (.eret h) :=
  ⟨(by decide : assigned 0xD00 = true), (by decide : 0xD00#12 ≠ 0xD02#12), rfl⟩
theorem eretSkip (h : Hdr) : Statement (.eretSkip h) :=
  ⟨(by decide : assigned 0xD00 = true), (by decide : 0xD00#12 ≠ 0xD02#12), rfl⟩
theorem tinfo (h : Hdr) (word : BitVec 3) (d : VReg) : Statement (.tinfo h word d) :=
  ⟨(by decide : assigned 0xD01 = true), (by decide : 0xD01#12 ≠ 0xD02#12), rfl⟩
theorem udf (raw : IWord) : Statement (.udf raw) := rfl
theorem regroup (part : Nat) : Statement (.regroup part) := rfl
theorem threadAged (t : ThreadId) : Statement (.threadAged t) := rfl
theorem yieldExpiry (t : ThreadId) : Statement (.yieldExpiry t) := rfl
theorem loadResultLand (t : ThreadId) (k : Nat) : Statement (.loadResultLand t k) := rfl
theorem xpipeComplete (t : ThreadId) (k : Nat) : Statement (.xpipeComplete t k) := rfl
theorem overlayLoadComplete (core k : Nat) : Statement (.overlayLoadComplete core k) := rfl
theorem overlayRoomWaitEnd (core : Nat) : Statement (.overlayRoomWaitEnd core) := rfl
theorem copyChunkPart (engine req chunk : Nat) : Statement (.copyChunkPart engine req chunk) := rfl
theorem copyComplete (engine req : Nat) : Statement (.copyComplete engine req) := rfl
theorem matrixOpStart (slot wave : Nat) (q : QReg) : Statement (.matrixOpStart slot wave q) := rfl
theorem matrixOpComplete (slot wave : Nat) (q : QReg) : Statement (.matrixOpComplete slot wave q) := rfl
theorem faultRecordPost (cluster k : Nat) : Statement (.faultRecordPost cluster k) := rfl
theorem faultResume (t : ThreadId) : Statement (.faultResume t) := rfl
theorem stgfullTimeout (t : ThreadId) : Statement (.stgfullTimeout t) := rfl
theorem stagingRoomFreed (t : ThreadId) : Statement (.stagingRoomFreed t) := rfl
theorem markerForm (commit : Nat) : Statement (.markerForm commit) := rfl
theorem logDrain (core k : Nat) : Statement (.logDrain core k) := rfl
theorem slotBindingNotice (die slot : Nat) (unbind : Bool) : Statement (.slotBindingNotice die slot unbind) := rfl
theorem binShip (die path : Nat) : Statement (.binShip die path) := rfl
theorem remoteRebin (die : Nat) (bin : RemoteBin) : Statement (.remoteRebin die bin) := rfl
theorem binStage (chan k stack : Nat) : Statement (.binStage chan k stack) := rfl
theorem markerApply (commit chan : Nat) : Statement (.markerApply commit chan) := rfl
theorem commitComplete (commit : Nat) : Statement (.commitComplete commit) := rfl
theorem packetFetch (queue : Nat) (argObj : BitVec 24) : Statement (.packetFetch queue argObj) := rfl
theorem launchStart (launch lnum : Nat) : Statement (.launchStart launch lnum) := rfl
theorem dispatchPass (launch : Nat) (pl : List Placement) : Statement (.dispatchPass launch pl) := rfl
theorem reserving (launch : Nat) : Statement (.reserving launch) := rfl
theorem blockStart (slot : Nat) : Statement (.blockStart slot) := rfl
theorem fatalTrapEnd (launch : Nat) : Statement (.fatalTrapEnd launch) := rfl
theorem launchComplete (launch : Nat) : Statement (.launchComplete launch) := rfl
theorem doorbellLaunchQueue (fn k : Nat) (x : BitVec 64) : Statement (.doorbellLaunchQueue fn k x) := rfl
theorem doorbellBulkQueue (fn k : Nat) (x : BitVec 64) : Statement (.doorbellBulkQueue fn k x) := rfl
theorem doorbellFaultQueue (fn k : Nat) (x : BitVec 64) : Statement (.doorbellFaultQueue fn k x) := rfl
theorem doorbellUnbound (fn k : Nat) (x : BitVec 64) : Statement (.doorbellUnbound fn k x) := rfl
theorem registerBulkQueue (r : Req) (x : BulkReg) : Statement (.registerBulkQueue r x) := rfl
theorem registerStorageWindow (r : Req) (x : StorageReg) : Statement (.registerStorageWindow r x) := rfl
theorem fillApertureWindow (r : Req) (k obj off : Nat) : Statement (.fillApertureWindow r k obj off) := rfl
theorem registerPodGroup (r : Req) (group : Nat) (members : List Nat) :
    Statement (.registerPodGroup r group members) :=
  rfl
theorem registerBucket (r : Req) (x : BucketReg) : Statement (.registerBucket r x) := rfl
theorem resolve (r : Req) (obj page : Nat) : Statement (.resolve r obj page) := rfl
theorem mintCapability (r : Req) (x : MintReg) : Statement (.mintCapability r x) := rfl
theorem publishVersion (r : Req) (x : PublishReg) : Statement (.publishVersion r x) := rfl
theorem registerFaultQueue (r : Req) (addr logn : Nat) : Statement (.registerFaultQueue r addr logn) := rfl
theorem registerLaunchQueue (r : Req) (addr logn : Nat) : Statement (.registerLaunchQueue r addr logn) := rfl
theorem mailboxRefused (r : Req) (code : BitVec 8) : Statement (.mailboxRefused r code) := rfl
theorem bulkPacketFetch (queue : Nat) : Statement (.bulkPacketFetch queue) := rfl
theorem bulkPacketComplete (engine req : Nat) : Statement (.bulkPacketComplete engine req) := rfl
theorem hostApertureRead (fn win off n : Nat) : Statement (.hostApertureRead fn win off n) := rfl
theorem hostApertureWrite (fn win off : Nat) (bytes : List (BitVec 8)) :
    Statement (.hostApertureWrite fn win off bytes) :=
  rfl
theorem hostReadTimeout (k : Nat) : Statement (.hostReadTimeout k) := rfl
theorem storageWindowWrite (fn off : Nat) (bytes : List (BitVec 8)) : Statement (.storageWindowWrite fn off bytes) :=
  rfl
theorem storageWindowRead (fn off n : Nat) : Statement (.storageWindowRead fn off n) := rfl
theorem flitReceive (port : Nat) (flit : BitVec 2048) : Statement (.flitReceive port flit) := rfl
theorem flitRetransmit (port : Nat) : Statement (.flitRetransmit port) := rfl
theorem linkDown (port : Nat) (routes : List (Nat × Nat)) : Statement (.linkDown port routes) := rfl
theorem heartbeatSend (group : Nat) : Statement (.heartbeatSend group) := rfl
theorem memberFailed (group dev : Nat) : Statement (.memberFailed group dev) := rfl
theorem bucketStep (bucket : Nat) : Statement (.bucketStep bucket) := rfl
theorem bucketExchangeStart (bucket : Nat) : Statement (.bucketExchangeStart bucket) := rfl
theorem bucketExchangeDone (bucket : Nat) (parts : List (Nat × List (BitVec 8))) :
    Statement (.bucketExchangeDone bucket parts) :=
  rfl
theorem invalidation (ctx : Nat) (e : TableEdit) : Statement (.invalidation ctx e) := rfl
theorem migration (ctx obj page newFrame : Nat) : Statement (.migration ctx obj page newFrame) := rfl
theorem refreshWindow (die : Nat) : Statement (.refreshWindow die) := rfl
theorem refreshWindowEnd (die : Nat) : Statement (.refreshWindowEnd die) := rfl
theorem preemptRequest (ctx : Nat) (clusters : List Nat) : Statement (.preemptRequest ctx clusters) := rfl
theorem runonExpiry (t : ThreadId) : Statement (.runonExpiry t) := rfl
theorem blockSave (slot : Nat) : Statement (.blockSave slot) := rfl
theorem contextSwitch (cluster : Nat) (ctx : Option Nat) : Statement (.contextSwitch cluster ctx) := rfl
theorem ptimeout (ctx : Nat) : Statement (.ptimeout ctx) := rfl
theorem swapOut (slot : Nat) : Statement (.swapOut slot) := rfl
theorem swapAbandon (slot : Nat) : Statement (.swapAbandon slot) := rfl
theorem blockResume (slot cluster : Nat) : Statement (.blockResume slot cluster) := rfl
theorem hang (ctx : Nat) : Statement (.hang ctx) := rfl
theorem contextCreate (ctx : Nat) (x : CtxNew) : Statement (.contextCreate ctx x) := rfl
theorem contextDestroy (ctx : Nat) : Statement (.contextDestroy ctx) := rfl
theorem queueRemove (kind : QueueKind) (queue : Nat) : Statement (.queueRemove kind queue) := rfl
theorem overlayRegister (ctx : Nat) (x : OverlayReg) : Statement (.overlayRegister ctx x) := rfl
theorem launchReplay (launch : Nat) : Statement (.launchReplay launch) := rfl
theorem timingReplay (part : Nat) : Statement (.timingReplay part) := rfl
theorem patrolScrub (addr : Nat) : Statement (.patrolScrub addr) := rfl
theorem deviceReset : Statement .deviceReset := rfl
theorem firmwareBoot (image sig : List (BitVec 8)) (version : Nat) : Statement (.firmwareBoot image sig version) := rfl
theorem powerLimit (code : BitVec 8) (reading gate : Nat) : Statement (.powerLimit code reading gate) := rfl
theorem thermalThrottle (reading gate : Nat) : Statement (.thermalThrottle reading gate) := rfl
theorem thermalTrip (reading : Nat) : Statement (.thermalTrip reading) := rfl
theorem tripResetTimeout : Statement .tripResetTimeout := rfl
theorem readEventLog (r : Req) (index : Nat) : Statement (.readEventLog r index) := rfl
theorem readSensors (r : Req) : Statement (.readSensors r) := rfl
theorem setPlim (r : Req) (mW : Nat) : Statement (.setPlim r mW) := rfl
theorem importKey (r : Req) (slot kind : Nat) (wrapped : List (BitVec 8)) :
    Statement (.importKey r slot kind wrapped) :=
  rfl
theorem zeroKeySlot (r : Req) (slot : Nat) : Statement (.zeroKeySlot r slot) := rfl
theorem attestationReport (r : Req) (nonce : BitVec 256) : Statement (.attestationReport r nonce) := rfl
theorem writeConfigRecord (r : Req) (x : ConfigRecord) : Statement (.writeConfigRecord r x) := rfl
theorem sealRange (r : Req) (obj off nchunk skey mkey dstObj dstOff : Nat) (imageId : BitVec 64) :
    Statement (.sealRange r obj off nchunk skey mkey dstObj dstOff imageId) :=
  rfl
theorem rebaseStamps (r : Req) (obj off len : Nat) (sstep : BitVec 16) :
    Statement (.rebaseStamps r obj off len sstep) :=
  rfl
theorem laneSelfTest (r : Req) (cluster : Nat) : Statement (.laneSelfTest r cluster) := rfl
theorem readRepairMap (r : Req) : Statement (.readRepairMap r) := rfl
theorem readStaging (r : Req) : Statement (.readStaging r) := rfl
theorem managementRefused (r : Req) (code : BitVec 8) : Statement (.managementRefused r code) := rfl
theorem throttleRelease (reading : Nat) : Statement (.throttleRelease reading) := rfl
theorem correctedErrorEvent (count store : Nat) : Statement (.correctedErrorEvent count store) := rfl
theorem contextRecordUpdate (ctx : Nat) (p : CtxParam) : Statement (.contextRecordUpdate ctx p) := rfl

end Sys2Proof.Laws.EncodeShape
end

