-- ==== Sys2Proof/Tests/Slice0.lean ====
section
/-! SUPPORT. Words written out from the encodings of the spec, ill-formed terms that the checks refuse, one small step each of
many instructions, and for each statement a state and operands that meet its hypotheses. -/

namespace Sys2Proof.Machine.Tests

open Sys2Proof Sys2Proof.Machine

-- One theorem after another: kernel evaluations that wait on each other would each hold a thread.
set_option Elab.async false

def hd : Hdr := ⟨2, 7, false, false, false⟩
def stands (w : IWord) (i : Instr) : Bool := decode w == .ok i && encode i == w

/-- CTL words, written from R66, Table 4.10. -/
def ctlWords : List (IWord × Instr) :=
  [(iword 0x00072000 0x00000000 0x00000000, .nop hd),
   (iword 0x00072001 0x00000000 0xFFFFFFF8, .bra hd 0xFFFFFFF8),
   (iword 0x00072002 0x00000009 0x00000000, .brx hd 9),
   (iword 0x1E072003 0x00000000 0x00000010, .call hd 30 0x10),
   (iword 0x00072004 0x0000001E 0x00000000, .ret hd 30),
   (iword 0x1E072005 0x00000005 0x00100100, .callo hd 30 (.reg 5) 8),
   (iword 0x00072006 0x00000000 0x00120012, .jmpo hd (.id 0x12) 9),
   (iword 0x00072007 0x00000000 0x00000000, .exit hd),
   (iword 0x00072008 0x00000000 0x00000000, .yield hd),
   (iword 0x00072009 0x00000000 0x0000BEEF, .trap hd 0xBEEF),
   (iword 0x0007200A 0x00000000 0x00000007, .bkpt hd 7),
   (iword 0x0007200B 0x000000FF 0x00000003, .twait hd (.imm 3)),
   (iword 0x2107200C 0x00000000 0x00000001, .ovld hd 33 (.id 1)),
   (iword 0x0007200D 0x00000006 0x00000100, .ovrel hd (.reg 6)),
   (iword 0x2207200E 0x00000000 0x00000005, .ovq hd 34 (.id 5))]

theorem test_decode_ctl : ctlWords.all (fun x => stands x.1 x.2) = true := by decide +kernel

/-- INT words, written from R92. -/
def intWords : List (IWord × Instr) :=
  [(iword 0x03072100 0x00008504 0x00000000, .iadd hd 3 (.v 4) (.intc 5)),
   (iword 0x03072101 0x00008504 0x00000000, .isub hd 3 (.v 4) (.intc 5)),
   (iword 0x03072102 0x00008504 0x00000000, .imul hd 3 (.v 4) (.intc 5)),
   (iword 0x08072103 0x0100FF04 0x00001234, .imulh hd true 8 (.v 4) (.imm 0x1234)),
   (iword 0x08072104 0x0100FF04 0x00001234, .imulw hd true 8 (.v 4) (.imm 0x1234)),
   (iword 0x08072105 0x000A0302 0x00000000, .imad hd false 8 (.v 2) (.v 3) (.v 10)),
   (iword 0x08072106 0x0100FF04 0x00001234, .imin hd true 8 (.v 4) (.imm 0x1234)),
   (iword 0x08072107 0x0100FF04 0x00001234, .imax hd true 8 (.v 4) (.imm 0x1234)),
   (iword 0x03072108 0x00000004 0x00000000, .iabs hd 3 (.v 4)),
   (iword 0x08072109 0x0100FF04 0x00001234, .iadds hd true 8 (.v 4) (.imm 0x1234)),
   (iword 0x0807210A 0x0100FF04 0x00001234, .isubs hd true 8 (.v 4) (.imm 0x1234)),
   (iword 0x0307210B 0x00008504 0x00000000, .and hd 3 (.v 4) (.intc 5)),
   (iword 0x0307210C 0x00008504 0x00000000, .or hd 3 (.v 4) (.intc 5)),
   (iword 0x0307210D 0x00008504 0x00000000, .xor hd 3 (.v 4) (.intc 5)),
   (iword 0x0307210E 0x00008504 0x00000000, .andn hd 3 (.v 4) (.intc 5)),
   (iword 0x0307210F 0x00008504 0x00000000, .shl hd 3 (.v 4) (.intc 5)),
   (iword 0x03072110 0x00008504 0x00000000, .shr hd 3 (.v 4) (.intc 5)),
   (iword 0x03072111 0x00008504 0x00000000, .sar hd 3 (.v 4) (.intc 5)),
   (iword 0x08072112 0x0100FF04 0x00001234, .bfe hd true 8 (.v 4) (.imm 0x1234)),
   (iword 0x03072113 0x00060504 0x00000000, .bfi hd 3 (.v 4) (.v 5) (.v 6)),
   (iword 0x03072114 0x00000004 0x00000000, .popc hd 3 (.v 4)),
   (iword 0x03072115 0x00000004 0x00000000, .clz hd 3 (.v 4)),
   (iword 0x03072116 0x00000004 0x00000000, .brev hd 3 (.v 4)),
   (iword 0x08072117 0x00008102 0x00000000, .iadd64 hd 8 (.v 2) (.intc 1)),
   (iword 0x08072118 0x00008102 0x00000000, .isub64 hd 8 (.v 2) (.intc 1)),
   (iword 0x08072119 0x00000502 0x00000000, .shl64 hd 8 (.v 2) (.v 5)),
   (iword 0x0807211A 0x00000502 0x00000000, .shr64 hd 8 (.v 2) (.v 5)),
   (iword 0x0807211B 0x00000502 0x00000000, .sar64 hd 8 (.v 2) (.v 5))]

theorem test_decode_int : intWords.all (fun x => stands x.1 x.2) = true := by decide +kernel

/-- PRD words, written from R95, R97, R98. -/
def prdWords : List (IWord × Instr) :=
  [(iword 0x49072200 0x2B4A0201 0x00000000, .cmpi hd true .lt (.xorP 2) 1 (.v 1) (.v 2)),
   (iword 0x4A072201 0x5C00A101 0x00000000, .cmpf hd true true .ge .none 2 (.v 1) (.fltc 1)),
   (iword 0x4B072202 0x114D0402 0x00000000, .cmpd hd false false .ne (.andP 5) 3 (.v 2) (.v 4)),
   (iword 0x4C072203 0x42480201 0x00000000, .cmph hd false false .gt (.orP 0) 4 (.v 1) (.v 2)),
   (iword 0x48072204 0xE84F4A49 0x00000000, .pfun hd 0 1 2 7 0xE8),
   (iword 0x05072205 0x004B9F01 0x00000000, .sel hd 5 (.v 1) (.intc 31) 3),
   (iword 0x05072206 0x00000052 0x00000000, .mov hd 5 (.q 2)),
   (iword 0x05072206 0x000000BF 0x00000000, .mov hd 5 (.src (.fltc 0x1F))),
   (iword 0x05072207 0x00000000 0xDEADBEEF, .movi hd 5 0xDEADBEEF),
   (iword 0x05072208 0x00000000 0x00000000, .ptov hd 5),
   (iword 0x00072209 0x0000FF01 0x0000007F, .vtop hd (.v 1) (.imm 0x7F)),
   (iword 0x0507220A 0x00000000 0x00000010, .srd hd 5 0x10),
   (iword 0x0007220B 0x00000083 0x00000019, .swr hd 0x19 (.c 3))]

theorem test_decode_prd : prdWords.all (fun x => stands x.1 x.2) = true := by decide +kernel

/-- WAV words, written from R99. -/
def wavWords : List (IWord × Instr) :=
  [(iword 0x05072300 0x00000049 0x000000FF, .ballot hd 0xFF 5 1),
   (iword 0x4A072301 0x10000049 0x000000FF, .vote hd 0xFF .uni 2 1),
   (iword 0x05072302 0x10008106 0x000000FF, .shfl hd 0xFF .down 5 (.v 6) (.c 1)),
   (iword 0x05072303 0x09000006 0x000000FF, .wred hd 0xFF (.int (.min true)) 5 (.v 6)),
   (iword 0x05072303 0x54000006 0x000000FF, .wred hd 0xFF (.fmax true) 5 (.v 6)),
   (iword 0x05072304 0xA8000006 0x000000FF, .wscan hd 0xFF (.int .xor) true 5 (.v 6)),
   (iword 0x05072305 0x00000006 0x000000FF, .matchEq hd 0xFF 5 (.v 6)),
   (iword 0x00072306 0x00000000 0x000000FF, .wsync hd 0xFF)]

theorem test_decode_wav : wavWords.all (fun x => stands x.1 x.2) = true := by decide +kernel

/-- FLT words, written from R124. -/
def fltWords : List (IWord × Instr) :=
  [(iword 0x03072400 0x4900A104 0x00000000, .fadd hd { plainMod with rnd := 1, sat := true, negB := true } 3 (.v 4) (.fltc 1)),
   (iword 0x03072401 0x4900A104 0x00000000, .fsub hd { plainMod with rnd := 1, sat := true, negB := true } 3 (.v 4) (.fltc 1)),
   (iword 0x03072402 0x4900A104 0x00000000, .fmul hd { plainMod with rnd := 1, sat := true, negB := true } 3 (.v 4) (.fltc 1)),
   (iword 0x03072409 0x4900A104 0x00000000, .fdiv hd { plainMod with rnd := 1, sat := true, negB := true } 3 (.v 4) (.fltc 1)),
   (iword 0x03072415 0x4900A104 0x00000000, .hadd2 hd { plainMod with rnd := 1, sat := true, negB := true } 3 (.v 4) (.fltc 1)),
   (iword 0x03072416 0x4900A104 0x00000000, .hmul2 hd { plainMod with rnd := 1, sat := true, negB := true } 3 (.v 4) (.fltc 1)),
   (iword 0x0307241A 0x4900A104 0x00000000, .badd2 hd { plainMod with rnd := 1, sat := true, negB := true } 3 (.v 4) (.fltc 1)),
   (iword 0x0307241B 0x4900A104 0x00000000, .bmul2 hd { plainMod with rnd := 1, sat := true, negB := true } 3 (.v 4) (.fltc 1)),
   (iword 0x03072403 0x82FF0504 0x3F800000, .ffma hd { plainMod with rnd := 2, negC := true } 3 (.v 4) (.v 5) (.imm 0x3F800000)),
   (iword 0x03072417 0x82FF0504 0x3F800000, .hfma2 hd { plainMod with rnd := 2, negC := true } 3 (.v 4) (.v 5) (.imm 0x3F800000)),
   (iword 0x0307241C 0x82FF0504 0x3F800000, .bfma2 hd { plainMod with rnd := 2, negC := true } 3 (.v 4) (.v 5) (.imm 0x3F800000)),
   (iword 0x03072404 0x24000504 0x00000000, .fmin hd { plainMod with ftz := true, absA := true } 3 (.v 4) (.v 5)),
   (iword 0x03072405 0x24000504 0x00000000, .fmax hd { plainMod with ftz := true, absA := true } 3 (.v 4) (.v 5)),
   (iword 0x03072418 0x24000504 0x00000000, .hmin2 hd { plainMod with ftz := true, absA := true } 3 (.v 4) (.v 5)),
   (iword 0x03072419 0x24000504 0x00000000, .hmax2 hd { plainMod with ftz := true, absA := true } 3 (.v 4) (.v 5)),
   (iword 0x0307241D 0x24000504 0x00000000, .bmin2 hd { plainMod with ftz := true, absA := true } 3 (.v 4) (.v 5)),
   (iword 0x0307241E 0x24000504 0x00000000, .bmax2 hd { plainMod with ftz := true, absA := true } 3 (.v 4) (.v 5)),
   (iword 0x03072406 0x13000004 0x00000000, .frcp hd { plainMod with rnd := 3, negA := true } 3 (.v 4)),
   (iword 0x03072407 0x13000004 0x00000000, .frsq hd { plainMod with rnd := 3, negA := true } 3 (.v 4)),
   (iword 0x03072408 0x13000004 0x00000000, .fsqrt hd { plainMod with rnd := 3, negA := true } 3 (.v 4)),
   (iword 0x0307240A 0x13000004 0x00000000, .fexp2 hd { plainMod with rnd := 3, negA := true } 3 (.v 4)),
   (iword 0x0307240B 0x13000004 0x00000000, .flog2 hd { plainMod with rnd := 3, negA := true } 3 (.v 4)),
   (iword 0x0307240C 0x13000004 0x00000000, .frnd hd { plainMod with rnd := 3, negA := true } 3 (.v 4)),
   (iword 0x0307240D 0x30000004 0x00000000, .fcls hd { plainMod with negA := true, absA := true } 3 (.v 4)),
   (iword 0x0807240E 0x41000604 0x00000000, .dadd hd { plainMod with rnd := 1, negB := true } 8 (.v 4) (.v 6)),
   (iword 0x0807240F 0x41000604 0x00000000, .dmul hd { plainMod with rnd := 1, negB := true } 8 (.v 4) (.v 6)),
   (iword 0x08072413 0x41000604 0x00000000, .ddiv hd { plainMod with rnd := 1, negB := true } 8 (.v 4) (.v 6)),
   (iword 0x08072410 0x800A0604 0x00000000, .dfma hd { plainMod with negC := true } 8 (.v 4) (.v 6) (.v 10)),
   (iword 0x08072411 0x08000604 0x00000000, .dmin hd { plainMod with sat := true } 8 (.v 4) (.v 6)),
   (iword 0x08072412 0x08000604 0x00000000, .dmax hd { plainMod with sat := true } 8 (.v 4) (.v 6)),
   (iword 0x08072414 0x20000004 0x00000000, .dsqrt hd { plainMod with absA := true } 8 (.v 4))]

theorem test_decode_flt : fltWords.all (fun x => stands x.1 x.2) = true := by decide +kernel

/-- CNV words, written from R135. -/
def cnvWords : List (IWord × Instr) :=
  [(iword 0x0A072500 0x01000004 0x00020903, .cvt hd { plainMod with rnd := 1 } .int64 .fp64 false true 10 (.v 4)),
   (iword 0x05072501 0x00000706 0x0000080D, .cvt2 hd plainMod .bf16x2 .fp32 5 (.v 6) (.v 7)),
   (iword 0x08072502 0x10000604 0x0000080A, .qe4 hd { plainMod with negA := true } 8 4 (.v 6)),
   (iword 0x08072503 0x00090604 0x0001080B, .qe2 hd plainMod true 8 4 (.v 6) (.v 9)),
   (iword 0x09072504 0x00000608 0x00050B08, .dq hd plainMod .fp32 .e2m1x 5 9 (.v 8) (.v 6)),
   (iword 0x06072505 0x00000007 0x0000080A, .bscale hd .e4m3 0 6 (.v 7))]

theorem test_decode_cnv : cnvWords.all (fun x => stands x.1 x.2) = true := by decide +kernel

/-- MEM words, written from R151. -/
def memWords : List (IWord × Instr) :=
  [(iword 0x04072600 0x49000142 0x40FFFFF0, .ld hd ⟨.w16, true, .dflt, some .device⟩ 4 ⟨2, .v 1, 0xFFFFF0⟩),
   (iword 0x00072601 0x23088442 0x00000010, .st hd ⟨.w64, .ef, none⟩ ⟨2, .c 4, 0x10⟩ (.v 8)),
   (iword 0x04072602 0x44000100 0x00000020, .ldl hd ⟨.w128, false, .dflt, some .block⟩ 4 ⟨.v 1, 0x20⟩),
   (iword 0x00072603 0x50870100 0x00000020, .stl hd ⟨.w8, .nc, some .block⟩ ⟨.v 1, 0x20⟩ (.c 7)),
   (iword 0x04072604 0x02000100 0x00000800, .lda hd .w32 4 ⟨.v 1, 0x800⟩),
   (iword 0x00072605 0x04040100 0x00000800, .sta hd .w128 ⟨.v 1, 0x800⟩ (.v 4)),
   (iword 0x10072606 0x03001642 0x00000000, .ldage hd 16 ⟨2, .v 22, 0⟩),
   (iword 0x43072607 0x04000142 0x00000010, .ldc hd 3 ⟨2, .v 1, 0x10⟩),
   (iword 0x00072608 0x04450142 0x00000010, .stc hd ⟨2, .v 1, 0x10⟩ 5),
   (iword 0x00072609 0x00000142 0x00000080, .prf hd ⟨2, .v 1, 0x80⟩),
   (iword 0x0B07260A 0x02040A42 0x00000000, .cst hd ⟨.w32, .dflt, none⟩ ⟨2, .v 10, 0⟩ (.v 4) 11),
   (iword 0x0407260B 0x420B0A42 0x80000000, .xld hd ⟨.w32, false, .dflt, some .system⟩ 4 ⟨2, .v 10, 0⟩ 11)]

theorem test_decode_mem : memWords.all (fun x => stands x.1 x.2) = true := by decide +kernel

/-- CAP words, written from R164. -/
def capWords : List (IWord × Instr) :=
  [(iword 0x43072700 0x0000FF42 0x00001000, .capoff hd 3 2 (.imm 0x1000)),
   (iword 0x43072702 0x0000FF42 0x00001000, .capnar hd 3 2 (.imm 0x1000)),
   (iword 0x43072701 0x00000542 0x00000000, .capadd hd 3 2 (.v 5)),
   (iword 0x43072703 0x00000542 0x00000000, .caprgt hd 3 2 (.v 5)),
   (iword 0x06072704 0x04000042 0x00000000, .capget hd 4 6 2),
   (iword 0x49072705 0x00000843 0x00000000, .capchk hd 1 3 (.v 8)),
   (iword 0x43072706 0x00000042 0x00000000, .capmov hd 3 2)]

theorem test_decode_cap : capWords.all (fun x => stands x.1 x.2) = true := by decide +kernel

/-- ATM words, written from R171. -/
def atmWords : List (IWord × Instr) :=
  [(iword 0x06072800 0xCA070241 0x40000040, .atom hd ⟨.w32, .add, .si, .acqRel .device⟩ (some 6) ⟨1, .v 2, 64⟩ (.v 7)),
   (iword 0x00072800 0x03080241 0x09000000, .atom hd ⟨.w64, .min, .ns, .relaxed⟩ none ⟨1, .v 2, 0⟩ (.v 8)),
   (iword 0x06072801 0x42070241 0x9A000000, .atomf hd ⟨.w32, .max, .h2, .acq .system⟩ 6 ⟨1, .v 2, 0⟩ (.v 7)),
   (iword 0x06072802 0x83080241 0x00000000, .cas hd .w64 (.rel .block) 6 ⟨1, .v 2, 0⟩ (.v 8)),
   (iword 0x08072803 0x040C0241 0x00000000, .cas128 hd .relaxed 8 ⟨1, .v 2, 0⟩ 12),
   (iword 0x00072804 0x82810843 0x40000180, .red hd ⟨.w32, .add, .si, .rel .device⟩ ⟨3, .v 8, 0x180⟩ (.c 1)),
   (iword 0x00072805 0x02070A41 0x10000000, .redf hd ⟨.w32, .add, .f, .relaxed⟩ ⟨1, .v 10, 0⟩ (.v 7)),
   (iword 0x06072806 0x02070200 0x06000008, .atoml hd ⟨.w32, .exch, .si, .relaxed⟩ 6 ⟨.v 2, 8⟩ (.v 7)),
   (iword 0x06072807 0x42070200 0x00000008, .casl hd .w32 (.acq .block) 6 ⟨.v 2, 8⟩ (.v 7))]

theorem test_decode_atm : atmWords.all (fun x => stands x.1 x.2) = true := by decide +kernel

/-- DEF words, written from R178 to R183. -/
def defWords : List (IWord × Instr) :=
  [(iword 0x0E072900 0x00000000 0x00000000, .commitT hd 14),
   (iword 0x0E072900 0x01000000 0x00000000, .commitB hd 14),
   (iword 0x0E072900 0x02000000 0x00000000, .commitG hd 14),
   (iword 0x0E072900 0x03000000 0x00001234, .commitP hd 14 0x1234),
   (iword 0x00072901 0x03151643 0x00000000, .dage hd ⟨3, .v 22, 0⟩ (.v 21)),
   (iword 0x05072902 0x00000000 0x00000000, .stepinc hd (some 5)),
   (iword 0x00072902 0x00000000 0x00000000, .stepinc hd none),
   (iword 0x06072903 0x00000000 0x00000000, .dqry hd 6)]

theorem test_decode_def : defWords.all (fun x => stands x.1 x.2) = true := by decide +kernel

/-- ASY words, written from R184, R191. -/
def asyWords : List (IWord × Instr) :=
  [(iword 0x07072A00 0x01420100 0x10000302, .cpy hd 7 (.spad 1) (.obj 2 2) 3 .device),
   (iword 0x07072A00 0x02000141 0x20000302, .cpy hd 7 (.obj 1 1) (.spad 2) 3 .system),
   (iword 0x07072A00 0x03420100 0x00000302, .cpyRing hd 7 1 2 2 3 .block),
   (iword 0x07072A01 0x00420141 0x14050302, .cpyg hd 7 (.obj 1 1) 2 2 5 3 4 .device),
   (iword 0x07072A02 0x09000141 0xDA050302, .cpys hd 7 (some .maxF) 1 1 (.spad 2) 5 3 10 .device),
   (iword 0x07072A03 0x00100142 0x00000000, .cpyq hd 7 2 1 16),
   (iword 0x00072A04 0x00080100 0x00000040, .rinit hd ⟨.v 1, 0x40⟩ 8),
   (iword 0x05072A05 0x00000100 0x00000040, .rres hd 5 ⟨.v 1, 0x40⟩),
   (iword 0x00072A06 0x00080100 0x00000040, .rpub hd ⟨.v 1, 0x40⟩ 8),
   (iword 0x05072A07 0x00000100 0x00000040, .rwait hd 5 ⟨.v 1, 0x40⟩),
   (iword 0x00072A08 0x00080100 0x00000040, .rrel hd ⟨.v 1, 0x40⟩ 8)]

theorem test_decode_asy : asyWords.all (fun x => stands x.1 x.2) = true := by decide +kernel

/-- SYN words, written from R194 to R197. -/
def synWords : List (IWord × Instr) :=
  [(iword 0x00072B00 0x00088000 0x00000010, .binit hd ⟨.c 0, 0x10⟩ 8),
   (iword 0x05072B01 0x00008000 0x00000010, .barv hd (some 5) ⟨.c 0, 0x10⟩),
   (iword 0x00072B02 0x00088000 0x00000010, .bwait hd ⟨.c 0, 0x10⟩ 8),
   (iword 0x00072B03 0x00008000 0x00000010, .barw hd none ⟨.c 0, 0x10⟩),
   (iword 0x00072B04 0x0B000000 0x00000000, .fence hd .full .system),
   (iword 0x05072B05 0x00000088 0x00000000, .grow hd 5 (.intc 8))]

theorem test_decode_syn : synWords.all (fun x => stands x.1 x.2) = true := by decide +kernel

/-- MTX words, written from R218. -/
def mtxWords : List (IWord × Instr) :=
  [(iword 0x51072C00 0x6B182014 0x00800401, .mma hd .fp16 11 ⟨1, 20, 32, 24, 1, some 4, none⟩),
   (iword 0x53072C01 0xB3182014 0x00808001, .mmb hd .e2m1x 3 ⟨3, 20, 32, 24, 1, none, none⟩),
   (iword 0x50072C02 0xB0291A28 0x0905802A, .mscale hd .e2m1x 1 2 ⟨0, 40, 26, 41, 42, none, some 5⟩),
   (iword 0x05072C03 0x00000052 0x00000000, .mwait hd (some 5) 2),
   (iword 0x50072C04 0x002A1E2B 0x00050B0B, .plane hd .e2m1x true 2 0 43 30 42),
   (iword 0x50072C05 0x01002A2B 0x00000000, .azero hd true 0 43 42),
   (iword 0x50072C06 0x002A1E2B 0x0003080A, .acvt hd .e4m3 3 0 43 30 42),
   (iword 0x50072C07 0x022A1E2B 0x00000000, .amovOut hd true 0 43 30 42),
   (iword 0x50072C07 0x012A1E2B 0x00000000, .amovIn hd false 0 43 30 42),
   (iword 0x00072C08 0x00000000 0x00000000, .fenceo hd),
   (iword 0x20072C09 0xB0000200 0x03000040, .bld hd .e2m1x 3 32 ⟨.v 2, 0x40⟩)]

theorem test_decode_mtx : mtxWords.all (fun x => stands x.1 x.2) = true := by decide +kernel

/-- SYS words, written from R121, R123, R86. -/
def sysWords : List (IWord × Instr) :=
  [(iword 0x00072D00 0x00000000 0x00000000, .eret hd),
   (iword 0x00072D00 0x01000000 0x00000000, .eretSkip hd),
   (iword 0x05072D01 0x03000000 0x00000000, .tinfo hd 3 5),
   (iword 0xAA072D02 0xEEDDCCBB 0x12345678, .udf (iword 0xAA072D02 0xEEDDCCBB 0x12345678))]

theorem test_decode_sys : sysWords.all (fun x => stands x.1 x.2) = true := by decide +kernel

/-- A term that no word stands for, one for each check of `Instr.wf`. -/
def illFormed : List Instr :=
  [.iadd64 hd 8 (.v 3) (.v 4),  -- odd register in a 64-bit integer position (R14)
   .imulw hd false 9 (.v 2) (.v 3),  -- odd destination pair (R92)
   .imad hd false 8 (.v 2) (.v 3) (.v 11),  -- odd C of IMAD
   .shl64 hd 9 (.v 2) (.v 3),  -- odd pair of a 64-bit shift
   .iadd hd 1 (.imm 1) (.imm 2),  -- two immediates that differ (R69)
   .bfi hd 1 (.imm 1) (.imm 1) (.imm 2),  -- three immediates that differ
   .cmpd hd false false .eq .none 1 (.v 3) (.v 4),  -- odd operand of CMPD (R95)
   .ovq hd 5 (.id 1),  -- an odd OVQ pair (R112)
   .srd hd 1 0x0E,  -- SRD of an index not assigned (R22)
   .swr hd 0x18 (.v 1),  -- SWR of a read-only index (R22)
   .shfl hd 1 .idx 1 (.imm 5) (.v 2),  -- a lane instruction with an immediate (R99)
   .wred hd 1 (.int .add) 1 (.imm 5),  -- a wave reduction with an immediate
   .fmin hd { plainMod with rnd := 1 } 1 (.v 2) (.v 3),  -- rounding on FMIN (Table 5.1)
   .fadd hd { plainMod with negC := true } 1 (.v 2) (.v 3),  -- negate C on FADD (Table 5.1)
   .frcp hd { plainMod with negB := true } 1 (.v 2),  -- negate B on FRCP
   .fcls hd { plainMod with sat := true } 1 (.v 2),  -- SAT on FCLS
   .dadd hd plainMod 3 (.v 2) (.v 4),  -- odd FP64 pair
   .dfma hd plainMod 2 (.v 4) (.v 6) (.v 7),  -- odd FP64 source of DFMA
   .cvt hd plainMod .fp16x2 .fp32 false false 2 (.v 4),  -- a packed format in CVT (Table 5.5)
   .cvt hd plainMod .fp32 .fp16 true false 2 (.v 4),  -- SU with a float source
   .cvt hd { plainMod with ftz := true } .fp32 .int32 false false 2 (.v 4),  -- FTZ with an integer source (R136)
   .cvt hd plainMod .fp32 .e4m3 false false 2 (.fltc 1),  -- a float constant read as E4M3 (R135)
   .cvt2 hd plainMod .fp16x2 .fp16x2 2 (.v 4) (.v 0),  -- CVT2 of one format to itself (R140)
   .cvt2 hd { plainMod with negB := true } .fp32 .fp16x2 2 (.v 4) (.v 0),  -- negate B of CVT2 with a packed source
   .qe4 hd plainMod 2 5 (.v 4),  -- QE4 quad (R135)
   .qe2 hd plainMod false 2 4 (.v 4) (.imm 1),  -- QE2 with an immediate
   .dq hd plainMod .fp32 .e4m3 4 2 (.v 4) (.v 5),  -- DQ element of E4M3 above 3 (R144)
   .bscale hd .e4m3 3 2 (.v 4),  -- SPEC with E4M3 (R141)
   .ld hd ⟨.w32, true, .dflt, none⟩ 4 ⟨2, .v 1, 0⟩,  -- SX on a 32-bit load (R151)
   .ld hd ⟨.w128, false, .dflt, none⟩ 6 ⟨2, .v 1, 0⟩,  -- a 128-bit load outside a quad (R14)
   .st hd ⟨.w64, .dflt, none⟩ ⟨2, .v 1, 0⟩ (.v 5),  -- a 64-bit store of an odd register
   .ldl hd ⟨.w32, false, .dflt, some .device⟩ 4 ⟨.v 1, 0⟩,  -- LDL with device scope (R151)
   .stl hd ⟨.w32, .dflt, some .system⟩ ⟨.v 1, 0⟩ (.v 4),  -- STL with system scope
   .lda hd .w8 4 ⟨.v 1, 0⟩,  -- LDA of 8 bits (Table 6.2)
   .sta hd .w16 ⟨.v 1, 0⟩ (.v 4),  -- STA of 16 bits
   .cst hd ⟨.w128, .dflt, none⟩ ⟨2, .v 1, 0⟩ (.v 4) 3,  -- CST of 128 bits
   .xld hd ⟨.w128, false, .dflt, none⟩ 4 ⟨2, .v 1, 0⟩ 3,  -- XLD of 128 bits
   .capnar hd 1 2 (.fltc 1),  -- a float constant as a 64-bit integer (R92)
   .atom hd ⟨.w8, .add, .si, .relaxed⟩ (some 4) ⟨2, .v 1, 0⟩ (.v 5),  -- ATOM of 8 bits (Table 6.5)
   .atom hd ⟨.w32, .add, .f, .relaxed⟩ (some 4) ⟨2, .v 1, 0⟩ (.v 5),  -- ATOM on floats
   .atomf hd ⟨.w32, .and, .f, .relaxed⟩ 4 ⟨2, .v 1, 0⟩ (.v 5),  -- ATOMF with AND
   .atomf hd ⟨.w64, .add, .h2, .relaxed⟩ 4 ⟨2, .v 1, 0⟩ (.v 6),  -- ATOMF of 64-bit FP16x2
   .red hd ⟨.w32, .add, .si, .acq .device⟩ ⟨2, .v 1, 0⟩ (.v 5),  -- RED with acquire (R171)
   .redf hd ⟨.w32, .add, .f, .acqRel .device⟩ ⟨2, .v 1, 0⟩ (.v 5),  -- REDF with acquire-release
   .cas hd .w16 .relaxed 4 ⟨2, .v 1, 0⟩ (.v 5),  -- CAS of 16 bits
   .cas128 hd .relaxed 4 ⟨2, .v 1, 0⟩ 10,  -- CAS128 outside quads
   .atoml hd ⟨.w32, .add, .si, .rel .device⟩ 4 ⟨.v 1, 0⟩ (.v 5),  -- ATOML with device scope
   .casl hd .w32 (.acq .device) 4 ⟨.v 1, 0⟩ (.v 5),  -- CASL with device scope
   .dage hd ⟨2, .v 1, 0⟩ (.intc 3),  -- DAGE of an integer constant (R181)
   .stepinc hd (some 0),  -- STEPINC with v0, which 0x00 means to be absent (R182)
   .barv hd (some 0) ⟨.v 1, 0⟩,  -- BARV with v0 (R194)
   .mwait hd (some 0) 1,  -- MWAIT with v0 (R216)
   .dqry hd 5,  -- an odd DQRY pair (R183)
   .cpy hd 7 (.spad 1) (.spad 2) 3 .block,  -- a copy from scratchpad to scratchpad (Table 6.9)
   .cpyg hd 7 (.spad 1) 2 2 5 3 11 .block,  -- ESZ above 10 (Table 6.8)
   .cpys hd 7 none 1 1 (.spad 2) 5 3 15 .block,  -- ESZ above 10 in CPYS
   .cpyq hd 7 2 1 8,  -- CPYQ packet outside a group of 16 (R190)
   .rinit hd ⟨.v 1, 0⟩ 9,  -- RINIT on an odd register (R191)
   .mma hd .int8 0 ⟨1, 20, 32, 24, 1, none, none⟩,  -- MMA of an integer format (R78)
   .mma hd .fp16 12 ⟨1, 20, 32, 24, 1, none, none⟩,  -- PREC above the planes of FP16 (R74)
   .mma hd .bf16 0 ⟨1, 20, 56, 24, 1, none, none⟩,  -- a fragment past v63 (R205)
   .mmb hd .fp16 0 ⟨1, 20, 32, 24, 1, none, none⟩,  -- MMB of a float format
   .mmb hd .int8 0 ⟨1, 20, 36, 24, 1, none, none⟩,  -- a fragment that is no multiple of 8
   .mmb hd .int8 0 ⟨1, 20, 32, 24, 1, some 5, none⟩,  -- an odd BWT pair (R211)
   .mscale hd .int8 0 0 ⟨1, 20, 2, 24, 1, none, none⟩,  -- B of MSCALE with an integer format (Table 7.5)
   .plane hd .int8 false 1 0 43 30 42,  -- SGEN of PLANE outside E2M1X
   .plane hd .int8 false 0 0 43 31 42,  -- an odd source pair of PLANE
   .acvt hd .int8 0 0 43 30 42,  -- ACVT to an integer format
   .bld hd .fp16 0 56 ⟨.v 1, 0⟩,  -- BLD of FP16 past v63
   .tinfo hd 6 1,  -- TINFO word 6 (R121)
   .udf 0x001]  -- UDF with another opcode (R86)

theorem test_wf_refuses : illFormed.all (fun i => !i.wf) = true := by decide +kernel

/-- No word decodes to an ill-formed term, and each of these would be refused by name. -/
theorem test_decode_refuses : decode (iword 0x00070E00 0 0) = .bad .unassigned ∧ decode (iword 0x00470000 0 0) = .bad .reservedBits
    ∧ decode (iword 0x01072100 0x01008401 0) = .bad .badField ∧ decode (iword 0x01072100 0x00008401 1) = .bad .badField := by
  decide +kernel

/-- An all-zero word is a NOP guarded by p0 (R78). -/
theorem test_decode_zero : decode 0 = .ok (.nop ⟨0, 0, false, false, false⟩) := by decide +kernel

/-! ### A small machine: one started block of 32 threads, and two objects -/

def tid0 : ThreadId := ⟨0, 0⟩

/-- Object 1, capable, with pages of 64 KiB: valid, key slot 0, 128 KiB, its level-1 table at 0x4000 (Table 17.3). -/
def object1 : BitVec 512 := BitVec.ofNat 512 (2 ^ 31 + 2 ^ 30 + 0xFF + 131072 * 2 ^ 64 + 0x4000 * 2 ^ 128)

/-- Object table at 0x1000; page 0 of object 1 plain at 0x10_0000, page 1 deferred at 0x11_0000 (Table 17.4). -/
def tables : Memory :=
  Memory.writeNat (Memory.writeNat (Memory.writeNat (Memory.writeNat [] 0x1040 64 object1.toNat) 0x4000 8 (2 ^ 63 + 0x5000)) 0x5000 8
    (2 ^ 63 + 0x100000)) 0x5008 8 (2 ^ 63 + 2 ^ 62 + 0x110000)

/-- The whole of object 1, with every right (Table 17.1). -/
def cap1 : Cap := Cap.make 1 0xFF 0 0 0 131072 true

/-- A thread with registers as given, and a1 the whole of object 1. -/
def thr (vs : List (VReg × Word)) : Thread :=
  let t := Thread.fresh 0 0
  { t with v := vs.foldl (fun v x => v.set x.1.toNat x.2 (vreg_lt x.1)) t.v, a := t.a.set 1 cap1 }

/-- The machine with an instruction's word in slot 0 of line 0, thread 0 as given. -/
def bench (i : Instr) (t : Thread) : State :=
  let s := bootWord State.reset (encode i)
  { s with
    dram := tables
    service := { s.service with keys := [(0, ⟨0, .xts, 0⟩)] }
    contexts := Assoc.set s.contexts 0 { Context.fresh s.service.settings.defaults with otBase := 0x1000, otLen := 2 }
    blocks := Assoc.set s.blocks 0 { Block.boot with threads := Block.boot.threads.set 0 t } }

/-- Thread 0 after a step. -/
def after (i : Instr) (t : Thread) : Option Thread :=
  match step (bench i t) with
  | .next s => threadOf s tid0
  | _ => none

/-- A v register of thread 0 after a step. -/
def vAfter (i : Instr) (t : Thread) (r : VReg) : Option Word := (after i t).map (fun u => u.vreg r)

/-- The latest result on its way to thread 0 after a step. -/
def sent (i : Instr) (t : Thread) : Option Pend := (after i t).bind (fun u => u.pend.getLast?)

/-- The cause and the arguments of the fatal trap that a step raised. -/
def trapped (i : Instr) (t : Thread) : Option (List Word) :=
  match step (bench i t) with
  | .next s => ((launchOf s 0).bind Launch.fatal).map (fun f => f.words.take 4)
  | _ => none

/-- A block with a ring at 0x40 of 4 slots of 16 bytes at 0x100, one slot reserved, and a barrier at 0x80 that expects 2
(Tables 9.6 and 9.7). -/
def objBlock (b : Block) : Block :=
  { b with
    spad := Memory.writeNat (Memory.writeNat (Memory.writeNat [] 0x40 2 1) 0x48 8 0x0000010002020010) 0x80 16 (2 ^ 64 + 0x20000)
    types := [(0x40, .ring), (0x50, .ring), (0x80, .barrier)] }

/-! ### One step each: results that the spec's tables and examples give -/

theorem test_int :
    [(.iadd hd 1 (.v 2) (.intc 4), 0xFFFFFFFE, 0, 2), (.isub hd 1 (.v 2) (.v 3), 1, 2, 0xFFFFFFFF), (.imul hd 1 (.v 2) (.v 3), 0x10001, 0x10000, 0x10000),
     (.imulh hd false 1 (.v 2) (.v 3), 0xFFFFFFFF, 2, 0xFFFFFFFF), (.imulh hd true 1 (.v 2) (.v 3), 0xFFFFFFFF, 2, 1),
     (.imin hd true 1 (.v 2) (.v 3), 0xFFFFFFFF, 2, 2), (.imax hd false 1 (.v 2) (.v 3), 0xFFFFFFFF, 2, 2),
     (.iabs hd 1 (.v 2), 0x80000000, 0, 0x80000000), (.iadds hd false 1 (.v 2) (.v 3), 0x7FFFFFFF, 1, 0x7FFFFFFF),
     (.isubs hd true 1 (.v 2) (.v 3), 1, 2, 0), (.andn hd 1 (.v 2) (.v 3), 0xFF, 0x0F, 0xF0), (.xor hd 1 (.v 2) (.v 3), 0xFF, 0x0F, 0xF0),
     (.or hd 1 (.v 2) (.v 3), 0xF0, 0x0F, 0xFF), (.and hd 1 (.v 2) (.v 3), 0xFF, 0x18, 0x18),
     (.shl hd 1 (.v 2) (.v 3), 1, 0xFFFFFFFF, 0), (.shr hd 1 (.v 2) (.v 3), 0x80000000, 32, 0), (.sar hd 1 (.v 2) (.v 3), 0x80000000, 40, 0xFFFFFFFF),
     (.bfe hd false 1 (.v 2) (.v 3), 0xF00, 0x408, 0xFFFFFFFF), (.bfe hd true 1 (.v 2) (.v 3), 0xF00, 0x408, 0xF),
     (.bfi hd 1 (.intc 0) (.v 2) (.v 3), 0xFF, 0x81C, 0xF0000000), (.popc hd 1 (.v 2), 0xF0F0, 0, 8), (.clz hd 1 (.v 2), 0, 0, 32),
     (.brev hd 1 (.v 2), 1, 0, 0x80000000)].all
      (fun (x : Instr × Word × Word × Word) => vAfter x.1 (thr [(2, x.2.1), (3, x.2.2.1)]) 1 == some x.2.2.2) = true := by decide +kernel

/-- Pairs, on v2:v3 = 2^32 + 1 (v2 low) and v4:v5 = 2. -/
theorem test_int64 :
    [(.imulw hd false 6 (.v 2) (.v 4), 2, 0), (.imad hd false 6 (.v 2) (.v 4) (.v 2), 3, 1), (.iadd64 hd 6 (.v 2) (.v 4), 3, 1),
     (.isub64 hd 6 (.v 4) (.v 2), 1, 0xFFFFFFFF), (.shl64 hd 6 (.v 2) (.v 4), 4, 4), (.shr64 hd 6 (.v 2) (.intc 1), 0x80000000, 0),
     (.sar64 hd 6 (.v 2) (.imm 64), 0, 0)].all
      (fun (x : Instr × Word × Word) =>
        (after x.1 (thr [(2, 1), (3, 1), (4, 2)])).map (fun u => (u.vreg 6, u.vreg 7)) == some (x.2.1, x.2.2)) = true := by decide +kernel

/-- Predicates written, and what SEL, PTOV and VTOP read and write. -/
theorem test_prd :
    [(.cmpi hd false .lt .none 1 (.v 2) (.v 3), true), (.cmpi hd true .lt .none 1 (.v 2) (.v 3), false), (.cmpf hd false true .eq .none 1 (.v 4) (.v 4), true),
     (.cmpf hd false false .ne .none 1 (.v 4) (.v 4), false), (.cmpd hd false false .eq .none 1 (.intc 0) (.fltc 0x1C), true),
     (.cmph hd false false .gt .none 1 (.fltc 1) (.fltc 0), true), (.pfun hd 1 7 0 7 0xCA, false), (.capchk hd 1 1 (.imm 131072), true)].all
      (fun (x : Instr × Bool) => (after x.1 (thr [(2, 0xFFFFFFFF), (3, 1), (4, 0x7FC00000)])).map (fun u => u.preg 1) == some x.2) = true
    ∧ vAfter (.sel hd 1 (.intc 1) (.intc 2) 0) (thr []) 1 = some 2 ∧ vAfter (.ptov hd 1) (thr []) 1 = some 0x80
    ∧ vAfter (.movi hd 1 0xDEADBEEF) (thr []) 1 = some 0xDEADBEEF ∧ vAfter (.mov hd 1 (.src (.fltc 0x1D))) (thr []) 1 = some 0xBF800000
    ∧ (after (.vtop hd (.intc 3) (.imm 5)) (thr [])).map (fun u => (u.preg 0, u.preg 1, u.preg 2)) = some (true, false, false) := by
  decide +kernel

/-- FFMA of the example in 05_isa_float.md, and the corners of R126, R129 and R131. -/
theorem test_flt :
    [(.ffma hd plainMod 1 (.v 4) (.v 4) (.fltc 0x1D), 0x3F800800, 0x3A000400), (.fadd hd plainMod 1 (.v 4) (.intc 0), 0x7F800001, 0x7FC00000),
     (.fsub hd plainMod 1 (.v 4) (.v 4), 0x3F800000, 0), (.fmul hd plainMod 1 (.v 4) (.fltc 2), 0x7F000000, 0x7F800000),
     (.fmin hd plainMod 1 (.v 4) (.fltc 0), 0x80000000, 0x80000000), (.fmax hd plainMod 1 (.v 4) (.fltc 1), 0x7FC00000, 0x3F800000),
     (.frnd hd plainMod 1 (.v 4), 0x40200000, 0x40000000), (.fcls hd plainMod 1 (.v 4), 0x80000001, 0x10),
     (.hadd2 hd plainMod 1 (.v 4) (.v 4), 0x3C004000, 0x40004400), (.bmul2 hd plainMod 1 (.v 4) (.v 4), 0x3F804000, 0x3F804080)].all
      (fun (x : Instr × Word × Word) => vAfter x.1 (thr [(4, x.2.1)]) 1 == some x.2.2) = true
    ∧ (after (.dadd hd plainMod 6 (.fltc 1) (.fltc 0x14)) (thr [])).map (fun u => (u.vreg 6, u.vreg 7)) = some (0, 0x3FF80000)
    ∧ (after (.fadd hd plainMod 1 (.v 4) (.fltc 1)) (thr [(4, 0x7F800001)])).map (·.fpx) = some (flagIV ||| flagNFR) := by
  decide +kernel

/-- X-pipe operations send their results: 1/2, a division by zero, and the square root of −1 with IV. -/
theorem test_long :
    sent (.frcp hd plainMod 1 (.fltc 2)) (thr []) = some ⟨true, [(1, 0x3F000000, false)], none, 0, true⟩
    ∧ sent (.fdiv hd plainMod 1 (.fltc 1) (.intc 0)) (thr []) = some ⟨true, [(1, 0x7F800000, false)], none, flagDZ ||| flagNFR, true⟩
    ∧ sent (.fsqrt hd plainMod 1 (.fltc 0x1D)) (thr []) = some ⟨true, [(1, 0x7FC00000, false)], none, flagIV ||| flagNFR, true⟩
    ∧ sent (.ddiv hd plainMod 2 (.fltc 6) (.fltc 3)) (thr []) = some ⟨true, [(2, 0, false), (3, 0x40000000, false)], none, 0, true⟩ := by
  decide +kernel

/-- The examples of 05_isa_float.md: CVT2, BSCALE, QE2 of Table 5.8 and DQ; and CVT of 142.857 toward zero. -/
theorem test_cnv :
    vAfter (.cvt2 hd plainMod .bf16x2 .fp32 5 (.v 6) (.v 7)) (thr [(6, 0x3F800000), (7, 0xC0000000)]) 5 = some 0xC0003F80
    ∧ vAfter (.bscale hd .e2m1x 0x1E 6 (.v 7)) (thr [(7, 0x40E80000)]) 6 = some 0x1E7F
    ∧ (after (.qe2 hd plainMod false 8 0 (.v 6) (.intc 0)) (thr [(0, 0x40400000), (1, 0xC0E80000), (2, 0x3E4CCCCD), (3, 0x3F800000), (6, 0x1E7F)])).map
        (fun u => (u.vreg 8, u.fpx)) = some (0x2085, flagIX ||| flagUF)
    ∧ vAfter (.dq hd plainMod .fp32 .e2m1x 1 9 (.v 8) (.v 6)) (thr [(8, 0x2085), (6, 0x1E7F)]) 9 = some 0xC0E00000
    ∧ vAfter (.cvt hd { plainMod with rnd := 1 } .int32 .fp64 false false 10 (.v 4)) (thr [(4, 0xDB6DB6DB), (5, 0x4061DB6D)]) 10 = some 142 := by
  decide +kernel

/-- The capability of the example in 06_isa_memory.md: a whole object of 1 TiB, cursor 0x2_0000_1234. -/
def capBig : Cap := Cap.make 1 0xFF 0x200001234 15 0 (2 ^ 25) true

/-- CAPNAR of that example, and the derivations of R166 and R168. -/
theorem test_cap :
    (after (.capnar hd 3 2 (.imm 0x1000)) { thr [] with a := (thr []).a.set 2 capBig }).map (fun u =>
        ((u.areg 3).lo, (u.areg 3).len, (u.areg 3).exp, (u.areg 3).base, (u.areg 3).top))
      = some (0x100000A, 7, 9, 0x200001400, 0x200002200)
    ∧ (after (.capoff hd 3 1 (.imm 0x7FFFFFFF)) (thr [])).map (fun u => ((u.areg 3).cursor, (u.areg 3).tag)) = some (0x7FFFFFFF, true)
    ∧ (after (.capadd hd 3 1 (.imm 0xFFFFFFFF)) (thr [])).map (fun u => ((u.areg 3).cursor, (u.areg 3).tag)) = some (2 ^ 40 - 1, false)
    ∧ (after (.caprgt hd 3 1 (.imm 0x103)) (thr [])).map (fun u => (u.areg 3).rights) = some 3
    ∧ vAfter (.capget hd 6 3 1) (thr []) 3 = some 0 ∧ (after (.capmov hd 3 1) (thr [])).map (fun u => u.areg 3) = some cap1 := by
  decide +kernel

/-- Stacked DRAM after a step. -/
def dramAfter (i : Instr) (t : Thread) (a n : Nat) : Option Nat :=
  match step (bench i t) with
  | .next s => some (s.dram.readNat a n)
  | _ => none

/-- A store of 32 bits onto page 0 lies at its frame, a load gives the bytes there, and a store onto the deferred page 1
writes nothing. -/
theorem test_mem :
    dramAfter (.st hd ⟨.w32, .dflt, none⟩ ⟨1, .v 2, 0x10⟩ (.v 3)) (thr [(2, 0x20), (3, 0x11223344)]) 0x100030 4 = some 0x11223344
    ∧ dramAfter (.st hd ⟨.w32, .dflt, none⟩ ⟨1, .v 2, 0⟩ (.v 3)) (thr [(2, 0x10000), (3, 7)]) 0x110000 4 = some 0
    ∧ (after (.st hd ⟨.w32, .dflt, none⟩ ⟨1, .v 2, 0⟩ (.v 3)) (thr [(2, 0x10000), (3, 7)])).map (fun u => u.counts.seq) = some 1
    ∧ sent (.ld hd ⟨.w32, false, .dflt, none⟩ 4 ⟨1, .c 0, 0⟩) (thr []) = some ⟨false, [(4, 0, false)], none, 0, false⟩
    ∧ dramAfter (.stc hd ⟨1, .c 0, 0x40⟩ 1) (thr []) 0x100040 16 = some cap1.bits.toNat := by
  decide +kernel

/-- The checks of R146, in order: a null capability, a right, the window, alignment. -/
theorem test_checks :
    trapped (.ld hd ⟨.w32, false, .dflt, none⟩ 4 ⟨2, .c 0, 0⟩) (thr []) = some [0x10, 0, 0x42, 0]
    ∧ trapped (.ld hd ⟨.w32, false, .dflt, none⟩ 4 ⟨1, .c 0, 0⟩) { thr [] with a := (thr []).a.set 1 (Cap.make 1 2 0 0 0 64 true) }
        = some [0x12, 0, 2, 0]
    ∧ trapped (.ld hd ⟨.w32, false, .dflt, none⟩ 4 ⟨1, .c 2, 0x1FFFE⟩) (thr []) = some [0x11, 0, 0x20000, 0]
    ∧ trapped (.ld hd ⟨.w32, false, .dflt, none⟩ 4 ⟨1, .c 2, 0⟩) (thr []) = some [0x213, 0, 2, 0] := by
  decide +kernel

/-- Atomics: ADD, a swap that hits, one on the deferred page that traps DFETCH, a reduction there that forms a record. -/
theorem test_atm :
    dramAfter (.atom hd ⟨.w32, .add, .si, .relaxed⟩ (some 6) ⟨1, .c 0, 8⟩ (.v 3)) (thr [(3, 5)]) 0x100008 4 = some 5
    ∧ sent (.atom hd ⟨.w32, .add, .si, .relaxed⟩ (some 6) ⟨1, .c 0, 8⟩ (.v 3)) (thr [(3, 5)]) = some ⟨false, [(6, 0, false)], none, 0, false⟩
    ∧ dramAfter (.cas hd .w32 .relaxed 6 ⟨1, .c 0, 8⟩ (.c 0)) (thr [(6, 9)]) 0x100008 4 = some 9
    ∧ trapped (.atom hd ⟨.w32, .add, .si, .relaxed⟩ (some 6) ⟨1, .v 2, 0⟩ (.v 3)) (thr [(2, 0x10000)]) = some [0x14, 0, 0x10000, 1]
    ∧ dramAfter (.red hd ⟨.w32, .or, .ns, .relaxed⟩ ⟨1, .c 0, 8⟩ (.c 3)) (thr []) 0x100008 4 = some 3 := by
  decide +kernel

/-- Control: a branch to an unmarked slot traps BRTGT with its target, CALL needs a marked slot too, TRAP and an undefined
word trap, and EXIT retires. -/
theorem test_ctl :
    trapped (.bra hd 8) (thr []) = some [0x02, 0, 8, 0] ∧ (after (.bra hd 0) (thr [])).map (·.pc) = some 0
    ∧ (after (.call hd 30 0) (thr [])).map (fun u => (u.pc, u.vreg 30)) = some (0, 1)
    ∧ trapped (.ret hd 5) (thr [(5, 0x01000000)]) = some [0x02, 0, 0x01000000, 0]
    ∧ trapped (.trap hd 0xBEEF) (thr []) = some [0x20, 0, 0xBEEF, 0]
    ∧ trapped (.udf 0xD02) (thr []) = some [0x01, 0, 0xD02, 0]
    ∧ trapped (.eret hd) (thr []) = some [0x301, 0, 0x00072D00, 0]
    ∧ (after (.exit hd) (thr [])).map (·.status) = some .retired
    ∧ (after (.nop hd) (thr [])).map (fun u => (u.pc, u.nextIssue)) = some (1, 2)
    ∧ (after (.iadd ⟨2, 0, false, false, false⟩ 1 (.intc 1) (.intc 2)) (thr [])).map (fun u => (u.pc, u.vreg 1)) = some (1, 0) := by
  decide +kernel

/-- Special registers. -/
theorem test_srd :
    vAfter (.srd hd 1 0x1A) (thr []) 1 = some 0 ∧ vAfter (.srd hd 1 0x06) (thr []) 1 = some 1
    ∧ (after (.swr hd 0x19 (.c 31)) (thr [])).map (·.fpx) = some 31
    ∧ (after (.swr hd 0x22 (.v 2)) (thr [(2, 0xFFFFFFFF)])).map (fun u => u.sgen[2]) = some 0xFFFFFF := by
  decide +kernel

/-- The machine with lanes 1 to n − 1 held at the collective of slot 0 with the mask, each with its v5. -/
def held (i : Instr) (mask : Word) (vs : List Word) : State :=
  let s := bench i (thr [(5, vs.headD 0)])
  { s with blocks := Assoc.mapVals s.blocks (fun _ b => { b with threads := b.threads.mapIdx (fun k t =>
      if 0 < k ∧ k < vs.length then { thr [(5, vs.getD k 0)] with status := .held mask } else t) }) }

/-- v4 of the first lanes after a step, with their FPX. -/
def lanes (n : Nat) (o : Out) : List (Option (Word × Flags)) :=
  (List.range n).map (fun k => match o with | .next s => (threadOf s ⟨0, k⟩).map (fun u => (u.vreg 4, u.fpx)) | _ => none)

def example4 : List Word := [0x4B800000, 0x3F800000, 0x3F800000, 0xCB800000]

/-- The examples of 04_isa_integer_control.md: WSCAN.F.ADD, with EXCL, and WRED, over four lanes. -/
theorem test_wav_float :
    lanes 4 (step (held (.wscan hd 0xF (.fadd 0 false) false 4 (.v 5)) 0xF example4))
      = [some (0x4B800000, flagIX), some (0x4B800000, flagIX), some (0x4B800000, flagIX), some (0x3F800000, flagIX)]
    ∧ lanes 4 (step (held (.wscan hd 0xF (.fadd 0 false) true 4 (.v 5)) 0xF example4))
      = [some (0, flagIX), some (0x4B800000, flagIX), some (0x4B800000, flagIX), some (0x4B800000, flagIX)]
    ∧ lanes 4 (step (held (.wred hd 0xF (.fadd 0 false) 4 (.v 5)) 0xF example4)) = List.replicate 4 (some (0x3F800000, flagIX)) := by
  decide +kernel

/-- SHFL, MATCH and an integer scan over three lanes. -/
theorem test_wav_int :
    lanes 3 (step (held (.shfl hd 7 .up 4 (.v 5) (.c 1)) 7 [10, 20, 30])) = [some (10, 0), some (10, 0), some (20, 0)]
    ∧ lanes 3 (step (held (.matchEq hd 7 4 (.v 5)) 7 [10, 20, 10])) = [some (5, 0), some (2, 0), some (5, 0)]
    ∧ lanes 3 (step (held (.wscan hd 7 (.int (.max false)) true 4 (.v 5)) 7 [10, 20, 5])) = [some (0x80000000, 0), some (10, 0), some (20, 0)]
    ∧ lanes 3 (step (held (.ballot hd 7 4 7) 7 [0, 0, 0])) = [some (7, 0), some (7, 0), some (7, 0)] := by
  decide +kernel

/-- A reading of the scratchpad window after a step. -/
def spadAfter (i : Instr) (t : Thread) (b : Block) (a n : Nat) : Option Nat :=
  let s := bench i t
  match step { s with blocks := Assoc.mapVals s.blocks (fun _ x => { b with threads := x.threads }) } with
  | .next s => (blockOf s 0).map (fun c => c.spad.readNat a n)
  | _ => none

/-- Scratchpad stores, and the counters of a ring and a barrier (R192, R195). -/
theorem test_local :
    spadAfter (.stl hd ⟨.w32, .dflt, none⟩ ⟨.c 0, 0x20⟩ (.v 3)) (thr [(3, 0xAABBCCDD)]) Block.boot 0x20 4 = some 0xAABBCCDD
    ∧ trapped (.stl hd ⟨.w32, .dflt, none⟩ ⟨.c 2, 0⟩ (.v 3)) (thr []) = some [0x213, 0, 2, 0]
    ∧ spadAfter (.atoml hd ⟨.w32, .add, .si, .relaxed⟩ 6 ⟨.c 0, 0x20⟩ (.c 9)) (thr []) Block.boot 0x20 4 = some 9
    ∧ spadAfter (.binit hd ⟨.c 0, 0x20⟩ 3) (thr [(3, 7)]) Block.boot 0x22 2 = some 7 := by
  decide +kernel

/-- COMMIT.B opens a commit and counts; STEPINC counts the context's step (R178, R182). -/
theorem test_def :
    (after (.commitB hd 14) (thr [])).map (fun u => (u.counts.kb, u.tokens.length)) = some (1, 1)
    ∧ (match step (bench (.stepinc hd none) (thr [])) with | .next s => (ctxOf s 0).map (·.stepReg) | _ => none) = some 1
    ∧ trapped (.commitG hd 14) (thr []) = some [0x01, 0, 0x0E072900, 0x02000000]
    ∧ dramAfter (.dage hd ⟨1, .c 0, 8⟩ (.fltc 1)) (thr []) 0x100008 4 = some 0x3F800000 := by
  decide +kernel

/-! ### Witnesses: states and operands that meet the hypotheses of the statements -/

/-- The executing thread, with its block. -/
def cx (s : State) : Cx := (curCx s).getD ⟨tid0, Block.boot, Thread.fresh 0 0⟩

theorem executes_cx {h : Hdr} {s : State} (hs : (curCx s).isSome = true) (hg : guardOf s (cx s).thr h = true) :
    Executes h s (cx s) := by
  obtain ⟨x, hx⟩ := Option.isSome_iff_exists.mp hs
  have : cx s = x := by simp [cx, hx]
  exact ⟨by rw [this]; exact hx, hg⟩

def onBlock (f : Block → Block) (s : State) : State := { s with blocks := Assoc.mapVals s.blocks (fun _ b => f b) }
def onCtx (f : Context → Context) (s : State) : State := { s with contexts := Assoc.mapVals s.contexts (fun _ c => f c) }
def onLaunch (f : Launch → Launch) (s : State) : State := { s with launches := Assoc.mapVals s.launches (fun _ l => f l) }
def onCore (f : Core → Core) (s : State) : State := { s with cores := Assoc.mapVals s.cores (fun _ c => f c) }

/-- The form that never executes (R67). -/
def hdOff : Hdr := { hd with neg := true }
/-- A plain state: thread 0 at a NOP, with v2 = 0x20 and v3 = 1. -/
def s0 : State := bench (.nop hd) (thr [(2, 0x20), (3, 1)])
def x0 : Cx := cx s0

theorem executes0 : Executes hd s0 x0 := executes_cx (by decide +kernel) (by decide +kernel)

theorem witness_FalseGuardOnlyGoesOn :
    let i := Instr.iadd ⟨2, 7, true, false, false⟩ 1 (.v 2) (.v 3)
    i.isCode = true ∧ i.isCollective = false ∧ (∀ raw, i ≠ .udf raw) ∧ curCx s0 = some x0
      ∧ x0.thr.arrival = none ∧ guardOf s0 x0.thr (hdrOf (encode i)) = false :=
  ⟨by decide +kernel, by decide +kernel, fun _ h => (nomatch h), executes0.1, rfl, by decide +kernel⟩

/-- The hypotheses of the statements about an instruction whose operands are registers: IntegerResults, CompareResults,
FloatResults, PackedAndConversionResults, LongOperationsSendAndLand, CapabilitiesAreDerived. -/
theorem witness_register_statements : Executes hd s0 x0 ∧ (Fmt.fp64).is64 = true ∧ (Fmt.fp32).is64 = false := ⟨executes0, rfl, rfl⟩

/-- An operation of wave 0 that lane 0 signed. -/
def anOp : QOp := ⟨5, .azero false 0, 1, 0, none, none, false, false, [], 0, 0⟩

/-- A q register with these operations in its stream. -/
def stream (ops : List QOp) : QState := ⟨0, ops, [], false⟩

/-- A block with an operation in the stream of q0. -/
def signedBlock (b : Block) : Block := { b with waves := b.waves.map (fun w => { w with q := w.q.set 0 (stream [anOp]) }) }
def sSigned : State := onBlock signedBlock s0

theorem witness_PredicateAndMoveResults :
    Executes hd s0 x0 ∧ signedOn x0.blk x0.tid 0 = false
    ∧ Executes hd sSigned (cx sSigned) ∧ signedOn (cx sSigned).blk (cx sSigned).tid 0 = true :=
  ⟨executes0, by decide +kernel, executes_cx (by decide +kernel) (by decide +kernel), by decide +kernel⟩

theorem witness_RoundingAndCodesAreCorrect :
    fp32 ∈ [fp64, fp32, fp16, bf16] ∧ (∃ n' m' e' fl, roundTo fp32 .rn false (.fin true 0x2000003 0) = (.fin n' m' e', fl)
      ∧ fl &&& flagOF = 0)
    ∧ (0x7E < 2 ^ (1 + e4m3.eb + e4m3.fb) ∧ e4m3.decode 0x7E ≠ .nan) :=
  ⟨by decide +kernel, ⟨_, _, _, _, rfl, by decide +kernel⟩, by decide +kernel⟩

/-- Thread 0 with one result on its way. -/
def sPend : State := bench (.nop hd) { thr [] with pend := [⟨true, [(4, 7, false), (5, 8, true)], none, flagIX, true⟩] }

/-- A 128-bit load that is out: its second half alone is performed anew, when the scratchpad holds zeros (R150, R324). -/
theorem test_late_load :
    (threadOf (readNow (bench (.nop hd) { thr [] with
        pend := [⟨false, [(4, 1, false), (5, 2, false), (6, 3, false), (7, 4, false)], none, 0, false⟩]
        late := ⟨[⟨4, .w128, false, none, 0⟩], false, none⟩ }) tid0 4 1) tid0).map (fun t => t.pend.map (fun p => p.vals.map (fun x => x.2.1)))
      = some [[1, 2, 0, 0]] := by decide +kernel

/-- A store to the next core's slice that is performed late: the slice holds 0 until it is (R315). -/
def lateStored : State :=
  match runSlot tid0 (.stl hd ⟨.w32, .dflt, none⟩ ⟨.v 2, 0⟩ (.v 3))
    (onBlock (fun b => { b with cores := [0, 1] }) (bench (.nop hd) { thr [(2, 0x100000), (3, 5)] with late := ⟨[], true, none⟩ })) with
  | .next s => s
  | _ => State.reset

theorem test_late_store :
    (blockOf lateStored 0).map (fun b => b.spad.readNat 0x100000 4) = some 0
    ∧ (blockOf (storeNow lateStored tid0) 0).map (fun b => b.spad.readNat 0x100000 4) = some 5 := by decide +kernel

theorem witness_ResultsLand : ∃ t p, threadOf sPend tid0 = some t ∧ t.pend[0]? = some p ∧ (p.vals.map (fun x => x.1)).Nodup :=
  ⟨(cx sPend).thr, _, by decide +kernel, rfl, by decide +kernel⟩

/-- A thread whose FPX still awaits an X-pipe result. -/
theorem witness_SpecialRegistersReadAndWritten :
    Executes hd s0 x0 ∧ (ctxOf s0 x0.blk.ctx).isSome = true ∧ (launchOf s0 x0.blk.launch).isSome = true ∧ fpxBusy s0.cycle x0.thr = false
    ∧ Executes hd sPend (cx sPend) ∧ fpxBusy sPend.cycle (cx sPend).thr = true :=
  ⟨executes0, by decide +kernel, by decide +kernel, by decide +kernel, executes_cx (by decide +kernel) (by decide +kernel), by decide +kernel⟩

/-- Slot 0 of overlay 0 is marked as a target; slot 1 is not. -/
theorem witness_BranchesCallsAndReturns :
    Executes hd s0 x0 ∧ entryOk s0 x0.coreId x0.blk.ctx x0.thr.top 0 = true ∧ entryOk s0 x0.coreId x0.blk.ctx x0.thr.top 1 = false
    ∧ (let s := bench (.nop hd) { thr [] with stack := [0, 0] }
       Executes hd s (cx s) ∧ (cx s).thr.stack = (cx s).thr.top :: 0 :: []) :=
  ⟨executes0, by decide +kernel, by decide +kernel, executes_cx (by decide +kernel) (by decide +kernel), by decide +kernel⟩

/-- An entry of the overlay table for overlay 0, of a code object of one line. -/
def ovEntry : OvEntry := ⟨BitVec.ofNat 512 (2 ^ 144 + 2 ^ 128), true⟩
def sOv : State := onCtx (fun c => { c with overlays := [(0, ovEntry), (1, ovEntry)] }) s0
def sTrapMode : State := onLaunch (fun l => { l with packet := l.packet.set 0 0x400000 }) sOv

/-- Overlay 0 is resident on the core, overlay 1 is in the table only, overlay 2 is in neither. -/
theorem witness_OverlaysAreEnteredAndKept :
    Executes hd sOv (cx sOv)
    ∧ (let x := cx sOv
       ovEntryOf sOv x.blk.ctx 0 = some ovEntry ∧ ((coreOf sOv x.coreId).find (ovKey sOv x.coreId x.blk.ctx 0)).map (·.state) = some .resident
       ∧ entryOk sOv x.coreId x.blk.ctx 0 0 = true ∧ x.thr.stack.length < 8 ∧ x.thr.tokens.length < 8
       ∧ ovEntryOf sOv x.blk.ctx 1 = some ovEntry ∧ ((coreOf sOv x.coreId).find (ovKey sOv x.coreId x.blk.ctx 1)) = none
       ∧ ovEntryOf sOv x.blk.ctx 2 = none ∧ launchFlag sTrapMode x.blk Launch.ovTrap = true) :=
  ⟨executes_cx (by decide +kernel) (by decide +kernel), by decide +kernel⟩

/-- The other states of an overlay: loading and draining. -/
theorem witness_OverlaysNotEntered :
    (let s := onCore (fun c => { c with resid := c.resid ++ [⟨.priv 0 1, 1, 1, 0, .loading, 0, []⟩, ⟨.priv 0 2, 2, 1, 3, .draining, 0, []⟩] })
        (onCtx (fun c => { c with overlays := [(0, ovEntry), (1, ovEntry), (2, ovEntry)] }) s0)
     let x := cx s
     Executes hd s x ∧ ((coreOf s x.coreId).find (ovKey s x.coreId x.blk.ctx 1)).map (·.state) = some .loading
       ∧ ((coreOf s x.coreId).find (ovKey s x.coreId x.blk.ctx 2)).map (·.state) = some .draining ∧ (2 : BitVec 8) ∉ x.thr.stack) :=
  ⟨executes_cx (by decide +kernel) (by decide +kernel), by decide +kernel⟩

theorem witness_WaitsYieldsAndExit :
    Executes hd s0 x0 ∧ x0.thr.pend = [] ∧ x0.thr.tokens = [] ∧ signedPending x0.blk x0.tid = false
    ∧ Executes hd sPend (cx sPend) ∧ (cx sPend).thr.pend ≠ []
    ∧ (let s := bench (.nop hd) { thr [] with tokens := [⟨9, .copy 1, true⟩] }
       Executes hd s (cx s) ∧ 0 < (cx s).thr.tokens.length) :=
  ⟨executes0, by decide +kernel, by decide +kernel, by decide +kernel, executes_cx (by decide +kernel) (by decide +kernel), by decide +kernel,
    executes_cx (by decide +kernel) (by decide +kernel), by decide +kernel⟩

/-- No operation, token, result or flag update of the thread is outstanding. -/
theorem witness_RegisterInstructionsComplete :
    Executes hd s0 x0 ∧ fpxBusy s0.cycle x0.thr = false ∧ signedOn x0.blk x0.tid 0 = false ∧ x0.thr.pend = [] ∧ x0.thr.tokens = []
    ∧ x0.thr.tokens.length ≤ (src32 s0 x0.thr (.v 2)).toNat ∧ signedPending x0.blk x0.tid = false :=
  ⟨executes0, by decide +kernel⟩

/-- With overlay 0 as the handler a trap is delivered; without one it is fatal. -/
theorem witness_TrapsAreTaken :
    (let s := onCtx (fun c => { c with params := { c.params with handler := some 0 } }) s0
     let x := cx s
     blockOf s x.tid.slot = some x.blk ∧ x.blk.threads[x.tid.tidx]? = some x.thr ∧ ((ctxOf s 0).bind (fun c => c.params.handler)) = some 0
       ∧ x.thr.trap = none ∧ launchFlag s x.blk Launch.replay = false ∧ (coreOf s x.coreId).usable (ovKey s x.coreId x.blk.ctx 0) = true)
    ∧ ((ctxOf s0 0).bind (fun c => c.params.handler)) = none ∧ ((launchOf s0 0).bind Launch.fatal) = none
    ∧ (let l := onLaunch (fun l => { l with fatal := some ⟨0x20, 0, [], 5, 0⟩ })
       ((launchOf (l s0) 0).bind Launch.fatal).map (fun g => decide (gtsOf (l s0) < g.gts)) = some true) := by
  decide +kernel

/-- A thread in its handler, whose entry is overlay 0. -/
def inHandler : Thread := { thr [] with stack := [0, 0], trap := some ⟨0x20, 0, 5, 6, 7, 8, 3, [0]⟩ }

theorem witness_HandlersReturnAndThreadsRollBack :
    (let s := bench (.nop hd) inHandler
     Executes hd s (cx s) ∧ ∃ r, (cx s).thr.trap = some r ∧ (cx s).thr.stack.length = r.stack.length + 1 ∧ (cx s).thr.stack.tail = r.stack)
    ∧ Executes hd s0 x0 ∧ x0.thr.trap = none :=
  ⟨⟨executes_cx (by decide +kernel) (by decide +kernel), _, rfl, by decide +kernel⟩, executes0, by decide +kernel⟩

theorem mask_one {n : Nat} (h : (1 : Word).getLsbD n = true) : n = 0 := by
  have h32 : n < 32 := BitVec.lt_of_getLsbD h
  revert h; revert n; decide

/-- Thread 0 gathers an instance of its own with the mask 1. -/
theorem gathered_one {i : Instr} {h : Hdr} {s : State} (hc : (curCx s).isSome = true) (hl : (cx s).tid.tidx % 32 = 0)
    (ht : threadOf s (laneTid (cx s) 0) = some (cx s).thr)
    (hr : registerTrap s (cx s).thr (chkOf s (cx s).blk) h i = none) : Gathered i h s (cx s) 1 (fun _ => (cx s).thr) where
  cur := by obtain ⟨x, hx⟩ := Option.isSome_iff_exists.mp hc; simp [cx, hx]
  own := by rw [hl]; rfl
  me := rfl
  thread := fun n hn => by rw [mask_one hn]; exact ht
  arrived := fun n hn h0 => absurd (mask_one hn) (by rw [hl] at h0; exact h0)
  clean := fun _ _ => hr

/-- The same, from one fact that can be evaluated. -/
theorem gathered_by {i : Instr} {h : Hdr} {s : State} (hs : (curCx s).isSome = true ∧ (cx s).tid.tidx % 32 = 0
    ∧ threadOf s (laneTid (cx s) 0) = some (cx s).thr ∧ registerTrap s (cx s).thr (chkOf s (cx s).blk) h i = none) :
    Gathered i h s (cx s) 1 (fun _ => (cx s).thr) := gathered_one hs.1 hs.2.1 hs.2.2.1 hs.2.2.2

theorem witness_VotesAndShuffles : Gathered (.ballot hd 1 4 7) hd s0 x0 1 (fun _ => x0.thr) :=
  gathered_by (by decide +kernel)

theorem witness_ReductionsAndScans :
    Gathered (.wscan hd 1 (.fadd 0 false) false 4 (.v 2)) hd s0 x0 1 (fun _ => x0.thr) ∧ (∀ o, WOp.fadd 0 false ≠ .int o)
    ∧ Gathered (.wred hd 1 (.int .add) 4 (.v 2)) hd s0 x0 1 (fun _ => x0.thr) :=
  ⟨gathered_by (by decide +kernel), fun _ h => (nomatch h),
    gathered_by (by decide +kernel)⟩

/-- A state whose thread reads a poisoned predicate p1. -/
def sPoison : State := bench (.nop hd) { thr [] with poisonP := 2 }

/-- A mask without the own lane, one whose lane 1 has not arrived, one on a block of two cores, and a member whose registers
trap. -/
theorem witness_InstancesFormAndTrap :
    curCx s0 = some x0 ∧ (2 : Word).getLsbD (x0.tid.tidx % 32) = false
    ∧ registerTrap s0 x0.thr (chkOf s0 x0.blk) hd (.ballot hd 2 4 1) = none ∧ guardOf s0 x0.thr hd = true
    ∧ registerTrap s0 x0.thr (chkOf s0 x0.blk) hdOff (.ballot hdOff 2 4 1) = none ∧ guardOf s0 x0.thr hdOff = false
    ∧ (3 : Word).getLsbD 1 = true ∧ (threadOf s0 (laneTid x0 1)).map (·.status) = some .ready
    ∧ Gathered (.wsync hd 1) hd s0 x0 1 (fun _ => x0.thr) ∧ x0.blk.cores.length ≤ 1
    ∧ (let s := onBlock (fun b => { b with cores := [0, 1] }) s0
       Gathered (.wsync hd 1) hd s (cx s) 1 (fun _ => (cx s).thr) ∧ 1 < (cx s).blk.cores.length)
    ∧ (let x := cx sPoison
       curCx sPoison = some x ∧ (registerTrap sPoison x.thr (chkOf sPoison x.blk) hd (.ballot hd 1 4 1)).isSome = true) :=
  ⟨executes0.1, by decide +kernel, by decide +kernel, by decide +kernel, by decide +kernel, by decide +kernel, by decide +kernel,
    by decide +kernel,
    gathered_by (by decide +kernel), by decide +kernel,
    ⟨gathered_by (by decide +kernel), by decide +kernel⟩,
    (executes_cx (h := hd) (by decide +kernel) (by decide +kernel)).1, by decide +kernel⟩

theorem permits_of {c : Cap} {rs : List Nat} {off : Int} {n : Nat}
    (h : c.tag = true ∧ (∀ r ∈ rs, c.rights.getLsbD r = true) ∧ (c.base : Int) ≤ off ∧ off + n ≤ (c.top : Int) ∧ off % n = 0) :
    Permits c rs off n := ⟨h.1, h.2.1, h.2.2.1, h.2.2.2.1, h.2.2.2.2⟩

/-- Page 0 of object 1 at 0x20, and its deferred page 1 at 0x10000. -/
def mp0 : Mapped := ⟨object1, BitVec.ofNat 64 (2 ^ 63 + 0x100000), 0x5000, ⟨false, 0x100020⟩, 0, 0x100020, 0⟩
def mp1 : Mapped := ⟨object1, BitVec.ofNat 64 (2 ^ 63 + 2 ^ 62 + 0x110000), 0x5008, ⟨false, 0x110000⟩, 0, 0x110000, 0⟩
/-- The address [a1, v2 + 0], which is 0x20 in s0. -/
def ad : CapAddr := ⟨1, .v 2, 0⟩
/-- s0 with v2 at the deferred page. -/
def sDef : State := bench (.nop hd) (thr [(2, 0x10000), (3, 1)])

theorem wf0 : memoryWf s0 := by unfold memoryWf; decide +kernel
theorem wfDef : memoryWf sDef := by unfold memoryWf; decide +kernel

/-- An exclusive L1 copy of line 0 of object 1. -/
def sL1 : State := onCore (fun c => { c with l1 := [⟨⟨0, 1, 0, 0⟩, List.replicate 128 0, [], true, false⟩] }) s0

theorem witness_LoadsAndPrefetches :
    Executes hd s0 x0 ∧ translate s0 x0.blk.ctx (some x0.blk.launch) ⟨1, 0x20, .read, false, false⟩ = (s0, .ok mp0 false)
    ∧ (rdA s0 x0.thr 1).obj = 1 ∧ capOff s0 x0.thr ad = 0x20 ∧ Permits (rdA s0 x0.thr 1) [0] 0x20 4
    ∧ Permits (rdA s0 x0.thr 1) [0] 0x20 8 ∧ Permits (rdA s0 x0.thr 1) [0, 4] 0x20 16 ∧ mp0.loc.ws = false
    ∧ l1Copy s0 x0.coreId 0 1 0x20 mp0 .dflt false = none ∧ (l1Copy sL1 x0.coreId 0 1 0x20 mp0 .dflt false).isSome = true
    ∧ ¬ Permits (rdA s0 x0.thr 2) [0] 0 1 :=
  ⟨executes0, by decide +kernel, by decide +kernel, by decide +kernel, permits_of (by decide +kernel), permits_of (by decide +kernel),
    permits_of (by decide +kernel), rfl, by decide +kernel, by decide +kernel, fun h => absurd h.tag (by decide +kernel)⟩

theorem witness_StoresWriteObjectMemory :
    Executes hd s0 x0 ∧ memoryWf s0 ∧ mp0.loc.ws = false ∧ pageCmp mp0.pe = false ∧ migrationAt s0 mp0.peAddr = none ∧ mp0.loc.addr % 16 = 0
    ∧ Permits (rdA s0 x0.thr 1) [1] 0x20 4 ∧ Permits (rdA s0 x0.thr 1) [1, 5] 0x20 16 ∧ (rdA s0 x0.thr 1).rights.getLsbD 6 = true
    ∧ translate s0 x0.blk.ctx (some x0.blk.launch) ⟨1, 0x20, .write, false, false⟩ = (s0, .ok mp0 false)
    ∧ translate s0 x0.blk.ctx (some x0.blk.launch) ⟨1, 0x20, .write, true, false⟩ = (s0, .ok mp0 false) :=
  ⟨executes0, wf0, rfl, by decide +kernel, rfl, by decide +kernel, permits_of (by decide +kernel), permits_of (by decide +kernel),
    by decide +kernel⟩

def formed : Except StallOn State → Bool
  | .ok _ => true
  | .error _ => false

theorem witness_RecordsAreFormedOnDeferredPages :
    Executes hd sDef (cx sDef) ∧ capOff sDef (cx sDef).thr ad = 0x10000 ∧ Permits (rdA sDef (cx sDef).thr 1) [1, 3] 0x10000 4
    ∧ translate sDef 0 (some 0) ⟨1, 0x10000, .write, false, false⟩ = (sDef, .ok mp1 true)
    ∧ translate sDef 0 (some 0) ⟨1, 0x10000, .rmw, false, false⟩ = (sDef, .ok mp1 true)
    ∧ translate sDef 0 (some 0) ⟨1, 0x10000, .rmwRet, false, false⟩ = (sDef, .trap 0x14 0)
    ∧ formed (formRecs sDef tid0 mp1 (storeReqs .w32 1)) = true ∧ formed (formRecs sDef tid0 mp1 [redReq .add .si .w32 1]) = true
    ∧ (coreOf sDef 0).log.flatMap recOfLog = []
    ∧ formed (formRecs (onBlock (fun b => { b with charge := 2 ^ 60 }) sDef) tid0 mp1 (storeReqs .w32 1)) = false :=
  ⟨executes_cx (by decide +kernel) (by decide +kernel), by decide +kernel, permits_of (by decide +kernel), by decide +kernel⟩

/-- Object 1 in the weight store, version 1 of it bound to the launch (Table 17.7). -/
def object1ws : BitVec 512 := BitVec.ofNat 512 (2 ^ 31 + 2 ^ 29 + 0xFF + 131072 * 2 ^ 64 + 0x6000 * 2 ^ 128)
def sWs : State := onLaunch (fun l => { l with bound0 := [(1, 1)] })
  { s0 with dram := (s0.dram.writeNat 0x1040 64 object1ws.toNat).writeNat 0x6010 16 (0x4000 * 2 ^ 64 + 2) }
def mpWs : Mapped := ⟨object1ws, BitVec.ofNat 64 (2 ^ 63 + 0x100000), 0x5000, ⟨true, wsAt 0 0x100020⟩, 0, 0x100020, 1⟩
/-- s0 while page 0 of object 1 migrates, locked. -/
def aMigration : Migration := ⟨0, 1, 0, 0x5000, 0, 0x100000, 0x200000, 65536, true, false⟩
def sMig : State := { s0 with migrations := [aMigration] }

/-- a2 is null, a3 has no load right, a4 has a window of 64 bytes, and a5 names no object. -/
def sCaps : State := bench (.nop hd) { thr [(2, 0x42), (3, 0x40)] with
  a := ((((thr []).a.set 3 (Cap.make 1 2 0 0 0 64 true)).set 4 (Cap.make 1 3 0 0 0 64 true)).set 5 (Cap.make 5 3 0 0 0 64 true)) }

theorem witness_AccessChecksTrapInOrder :
    let x := cx sCaps
    Executes hd sCaps x ∧ (rdA sCaps x.thr 2).tag = false
    ∧ ((rdA sCaps x.thr 3).tag = true ∧ (rdA sCaps x.thr 3).rights.getLsbD 0 = false)
    ∧ ((rdA sCaps x.thr 4).tag = true ∧ (rdA sCaps x.thr 4).rights.getLsbD 0 = true
      ∧ ¬(((rdA sCaps x.thr 4).base : Int) ≤ 0x42 ∧ (0x42 : Int) + 4 ≤ (rdA sCaps x.thr 4).top))
    ∧ ((0 : Int) ≤ 2 ∧ (2 : Int) + 4 ≤ (rdA sCaps x.thr 4).top ∧ (2 : Int) % 4 ≠ 0)
    ∧ Permits (rdA sCaps x.thr 5) [0] 4 4
    ∧ translate sCaps x.blk.ctx (some x.blk.launch) ⟨5, 4, .read, false, false⟩ = (sCaps, .fault ⟨.objInv, 5, 0, 4, .read⟩)
    ∧ (Executes hd sWs (cx sWs) ∧ Permits (rdA sWs (cx sWs).thr 1) [0] 0x20 4
      ∧ translate sWs 0 (some 0) ⟨1, 0x20, .read, false, false⟩ = (sWs, .ok mpWs false) ∧ inRefresh sWs (wsDie mpWs.loc.addr) = true
      ∧ l1Copy sWs (cx sWs).coreId 0 1 0x20 mpWs .dflt false = none)
    ∧ (Executes hd sMig (cx sMig) ∧ Permits (rdA sMig (cx sMig).thr 1) [1] 0x20 4
      ∧ translate sMig 0 (some 0) ⟨1, 0x20, .write, false, false⟩ = (sMig, .ok mp0 false)
      ∧ migrationAt sMig mp0.peAddr = some aMigration ∧ aMigration.locked = true) :=
  ⟨executes_cx (by decide +kernel) (by decide +kernel), by decide +kernel, by decide +kernel, by decide +kernel, by decide +kernel,
    permits_of (by decide +kernel), by decide +kernel,
    ⟨executes_cx (by decide +kernel) (by decide +kernel), permits_of (by decide +kernel), by decide +kernel⟩,
    executes_cx (by decide +kernel) (by decide +kernel), permits_of (by decide +kernel), by decide +kernel⟩

/-- Thread 0 in a block with a ring and a barrier, with tile 0 lent; an operation that writes tile 1 has started. -/
def sLocal : State := onBlock (fun b => { objBlock b with waves := b.waves.map (fun w => { w with
    q := w.q.set 1 (stream [{ anOp with op := .azero false 2048, started := true }]) }) })
  (bench (.nop hd) { thr [(2, 0x20), (3, 1)] with lent := [⟨0, 5, [40], [0], .azero false 0, 1, false⟩] })

theorem witness_LocalStoresAreAccessed :
    let x := cx sLocal
    Executes hd sLocal x ∧ memoryWf sLocal ∧ inWindow x.blk 0x20 4 = true ∧ typedWhy x.blk 0x20 4 = none
    ∧ (x.blk.types.find? (fun p => decide (p.1 < 0x80 + 4 ∧ 0x80 < p.1 + 16))) = some (0x80, .barrier)
    ∧ inWindow x.blk (-1) 4 = false ∧ inWindow x.blk 65536 4 = false ∧ x.thr.view.tileLent 0 = true ∧ x.thr.view.tileLent 2 = false
    ∧ tileBusy x.blk x.core 1 = true ∧ tileBusy x.blk x.core 2 = false ∧ chkOf sLocal x.blk = false
    ∧ chkOf (onLaunch (fun l => { l with packet := l.packet.set 0 0x80000 }) sLocal) x.blk = true
    ∧ (∀ j, j < 4 → spadPoisoned x.blk (0x20 + j) = false) ∧ detchk sLocal x.blk .add .si = false
    ∧ detchk (onLaunch (fun l => { l with packet := l.packet.set 0 0xC0000 }) sLocal) x.blk .add .f = true :=
  ⟨executes_cx (by decide +kernel) (by decide +kernel), by unfold memoryWf; decide +kernel, by decide +kernel⟩

theorem span_of {acc : Acc} (h : translate s0 0 (some 0) ⟨1, 0x20, acc, false, false⟩ = (s0, .ok mp0 false)) :
    translateSpan s0 0 0 1 0x20 4 acc = (s0, .ok ⟨(mp0, false), none⟩) := by
  have hp : (0x20 + 4 - 1) / pageOf s0 0 1 * pageOf s0 0 1 ≤ 0x20 := by decide +kernel
  unfold translateSpan
  rw [h]
  exact if_pos hp

theorem witness_CompressStoresAndExpandLoads :
    rdV s0 x0.thr 3 = 1 ∧ presentLane s0 hd 1 (fun _ => x0.thr) 0 = true
    ∧ Gathered (.cst hd ⟨.w32, .dflt, none⟩ ad (.v 2) 3) hd s0 x0 1 (fun _ => x0.thr)
    ∧ Gathered (.xld hd ⟨.w32, false, .dflt, none⟩ 4 ad 3) hd s0 x0 1 (fun _ => x0.thr)
    ∧ translateSpan s0 0 0 1 0x20 4 .write = (s0, .ok ⟨(mp0, false), none⟩)
    ∧ translateSpan s0 0 0 1 0x20 4 .read = (s0, .ok ⟨(mp0, false), none⟩) ∧ cacheable mp0 .dflt true = false
    ∧ pageConst mp0.pe = false ∧ migrationAt s0 mp0.peAddr = none
    ∧ (∀ n, presentLane s0 ⟨2, 7, true, false, false⟩ 1 (fun _ => x0.thr) n = false) :=
  ⟨by decide +kernel, by decide +kernel, gathered_by (by decide +kernel),
    gathered_by (by decide +kernel), span_of (by decide +kernel),
    span_of (by decide +kernel), by decide +kernel, by decide +kernel, rfl, fun n => by
      have : guardOf s0 x0.thr ⟨2, 7, true, false, false⟩ = false := by decide +kernel
      unfold presentLane
      rw [this, Bool.and_false]⟩

theorem witness_AtomicsAndSwaps :
    Executes hd s0 x0 ∧ memoryWf s0 ∧ migrationAt s0 mp0.peAddr = none ∧ Permits (rdA s0 x0.thr 1) [0, 1, 3] 0x20 4 ∧ Permits (rdA s0 x0.thr 1) [0, 1, 3] 0x20 16
    ∧ translate s0 x0.blk.ctx (some x0.blk.launch) ⟨1, 0x20, .rmwRet, false, detchk s0 x0.blk .add .si⟩ = (s0, .ok mp0 false)
    ∧ translate s0 x0.blk.ctx (some x0.blk.launch) ⟨1, 0x20, .rmw, false, detchk s0 x0.blk .add .f⟩ = (s0, .ok mp0 false)
    ∧ (∀ j, j < 16 → poisonedAt s0 mp0 j = false) :=
  ⟨executes0, wf0, rfl, permits_of (by decide +kernel), permits_of (by decide +kernel), by decide +kernel⟩

/-- A group that the context has registered, in a cooperative launch. -/
def sGroup : State := onLaunch (fun l => { l with packet := l.packet.set 0 0x100000 })
  { s0 with fabric := { s0.fabric with groups := [(9, ⟨0, [0, 1], 0, 0, 0⟩)] } }

theorem witness_CommitsAgedAddsAndSteps :
    Executes hd s0 x0 ∧ x0.thr.tokens.length < 8 ∧ launchFlag s0 x0.blk Launch.coop = false ∧ groupOf s0 x0.blk.ctx 9 = none
    ∧ (ctxOf s0 x0.blk.ctx).isSome = true ∧ Permits (rdA s0 x0.thr 1) [1, 3] 0x20 8
    ∧ translate s0 x0.blk.ctx (some x0.blk.launch) ⟨1, 0x20, .rmw, false, false⟩ = (s0, .ok mp0 false)
    ∧ Executes hd sGroup (cx sGroup) ∧ launchFlag sGroup (cx sGroup).blk Launch.coop = true ∧ (groupOf sGroup 0 9).isSome = true
    ∧ (sGroup.launches.any (fun p => p.1 != (cx sGroup).blk.launch && p.2.groups.any (fun q => q.1 == 9))) = false
    ∧ formed (formRecs sDef tid0 mp1 [⟨opcAgeAdd, 0, 3, 5, 0, objL mp1.oe⟩]) = true
    ∧ (let s := bench (.nop hd) { thr [] with tokens := List.replicate 8 ⟨9, .copy 1, true⟩ }
       Executes hd s (cx s) ∧ ¬ (cx s).thr.tokens.length < 8) :=
  ⟨executes0, by decide +kernel, by decide +kernel, by decide +kernel, by decide +kernel, permits_of (by decide +kernel), by decide +kernel,
    executes_cx (by decide +kernel) (by decide +kernel), by decide +kernel, by decide +kernel, by decide +kernel, by decide +kernel,
    executes_cx (by decide +kernel) (by decide +kernel), by decide +kernel⟩

/-- The engine, ring and barrier bench: v10 the slice offset 0x200, v11 the object offset 0, v12 the length 32, v13 an index list
at 0x300, v14 = 0, v15 = 8, v16 = 2, v17 = 0x40 the ring, v18 = 1. -/
def sEng (f : Block → Block) : State := onBlock (fun b => f (objBlock b))
  (bench (.nop hd) (thr [(10, 0x200), (11, 0), (12, 32), (13, 0x300), (14, 0), (15, 8), (16, 2), (17, 0x40), (18, 1), (19, 0x40000)]))

/-- The address of a register as a local address. -/
def la (r : VReg) : LocAddr := ⟨.v r, 0⟩

/-- A ring at 0x40 of 4 slots of 16 bytes at 0x100, with its four counts. -/
def ringAt (rel con pub res : Nat) (b : Block) : Block :=
  { b with spad := b.spad.writeNat 0x40 8 (res + pub * 2 ^ 16 + con * 2 ^ 32 + rel * 2 ^ 48) }

theorem executes_eng {f : Block → Block} (hs : (curCx (sEng f)).isSome = true) (hg : guardOf (sEng f) (cx (sEng f)).thr hd = true) :
    Executes hd (sEng f) (cx (sEng f)) := executes_cx hs hg

/-- Object pages at offset 0 and 64. -/
def mq (o : Nat) : Mapped := ⟨object1, BitVec.ofNat 64 (2 ^ 63 + 0x100000), 0x5000, ⟨false, 0x100000 + o⟩, 0, 0x100000 + o, 0⟩

theorem witness_CopiesAndPacketsAreQueued :
    let s := sEng id
    let x := cx s
    let fits (e : SideOf) (rights : List Nat) (len : Option Nat) : Prop := sideWhy x.blk e rights len = none ∧ e.off % 16 = 0
    Executes hd s x ∧ x.thr.tokens.length < 8
    ∧ (fits (sideOf s x.thr (.spad 10)) [1, 7] (some 32) ∧ fits (sideOf s x.thr (.obj 1 11)) [0, 7] (some 32) ∧ (rdV s x.thr 12).toNat = 32
      ∧ typedWhy x.blk (sideOf s x.thr (.spad 10)).off.toNat 32 = none ∧ (rdV s x.thr 14).toNat = 0
      ∧ sideWhy x.blk (sideOf s x.thr (.spad 10)) [1, 7] (some 8) = none ∧ sideWhy x.blk (sideOf s x.thr (.obj 1 11)) [0, 7] (some 8) = none
      ∧ (rdV s x.thr 15).toNat = 8)
    ∧ openSide s x.blk.ctx ((sideOf s x.thr (.obj 1 11)).side x.tid.slot)
    ∧ (fits (sideOf s x.thr (.obj 1 11)) [0, 7] none ∧ fits (sideOf s x.thr (.obj 1 11)) [1, 7] none
      ∧ fits (sideOf s x.thr (.spad 10)) [0, 7] (some 32) ∧ (rdV s x.thr 16).toNat = 2 ∧ (rdV s x.thr 13).toNat = 0x300
      ∧ inWindow x.blk 0x300 8 = true)
    ∧ memoryWf s ∧ Permits (rdA s x.thr 1) [1, 3] 0 64
    ∧ translate s x.blk.ctx (some x.blk.launch) ⟨1, 0, .rmwRet, false, false⟩ = (s, .ok (mq 0) false)
    ∧ translate s x.blk.ctx (some x.blk.launch) ⟨1, 64, .cwrite, false, false⟩ = (s, .ok (mq 64) false)
    ∧ (∀ j, j < 64 → (mq 0).byte s j = 0) ∧ (∀ j, j < 8 → poisonedAt s (mq 0) j = false) ∧ (mq 0).loc.ws = false
    ∧ migrationAt s (mq 0).peAddr = none ∧ migrationAt s (mq 64).peAddr = none ∧ pageCmp (mq 0).pe = false
    ∧ (mq 0).byte { s with dram := s.dram.writeNat 0x100000 8 1 } 0 = 1
    ∧ Permits (Cap.make 1 0xFF 0 0 0 64 true) [1, 3] 0 64 ∧ (Cap.make 1 0xFF 0 0 0 64 true).top = 64 := by
  refine ⟨executes_eng (by decide +kernel) (by decide +kernel), by decide +kernel, by decide +kernel, ?_, by decide +kernel, ?_,
    permits_of (by decide +kernel), by decide +kernel, by decide +kernel, by decide +kernel, by decide +kernel, rfl, by decide +kernel,
    by decide +kernel, by decide +kernel, by decide +kernel,
    permits_of (by decide +kernel), by decide +kernel⟩
  · have : (sideOf (sEng id) (cx (sEng id)).thr (.obj 1 11)).side (cx (sEng id)).tid.slot = .obj 1 0 := by decide +kernel
    rw [this]
    show sealedBy _ _ _ = none
    decide +kernel
  · unfold memoryWf; decide +kernel

/-- The ring full and not full, its tickets waited for and in turn, and the states of a copy into it. -/
theorem witness_RingsAdvanceAndObjectsBegin :
    (∀ f ∈ [ringAt 0 0 0 1, ringAt 0 0 0 4, ringAt 0 0 1 2, ringAt 0 0 0 2, ringAt 0 2 2 2, ringAt 1 2 2 2],
      let s := sEng f
      let x := cx s
      (curCx s).isSome = true ∧ guardOf s x.thr hd = true ∧ localOff s x.thr (la 17) = 0x40 ∧ inWindow x.blk 0x40 32 = true
        ∧ isRing x.blk 0x40 = true ∧ (readRing x.blk 0x40).logn = 2 ∧ (rdV s x.thr 18).extractLsb' 0 16 = 1)
    ∧ (let r := fun f => readRing (cx (sEng f)).blk 0x40
       ((r (ringAt 0 0 0 1)).res - (r (ringAt 0 0 0 1)).rel).toNat < 4
       ∧ 4 ≤ ((r (ringAt 0 0 0 4)).res - (r (ringAt 0 0 0 4)).rel).toNat
       ∧ (r (ringAt 0 0 1 2)).con ≠ (r (ringAt 0 0 1 2)).pub ∧ (r (ringAt 0 0 0 2)).con = (r (ringAt 0 0 0 2)).pub
       ∧ (1 : BitVec 16) = (r (ringAt 0 0 1 2)).pub ∧ ((1 - (r (ringAt 0 0 1 2)).pub).toNat < ((r (ringAt 0 0 1 2)).res - (r (ringAt 0 0 1 2)).pub).toNat)
       ∧ (1 - (r (ringAt 0 0 0 2)).pub).toNat < ((r (ringAt 0 0 0 2)).res - (r (ringAt 0 0 0 2)).pub).toNat ∧ (1 : BitVec 16) ≠ (r (ringAt 0 0 0 2)).pub
       ∧ ((r (ringAt 0 2 2 2)).res - (r (ringAt 0 2 2 2)).pub).toNat ≤ (1 - (r (ringAt 0 2 2 2)).pub).toNat
       ∧ (1 : BitVec 16) = (r (ringAt 1 2 2 2)).rel ∧ ((1 - (r (ringAt 1 2 2 2)).rel).toNat < ((r (ringAt 1 2 2 2)).con - (r (ringAt 1 2 2 2)).rel).toNat)
       ∧ (1 : BitVec 16) ≠ (r (ringAt 0 2 2 2)).rel ∧ ((1 - (r (ringAt 0 2 2 2)).rel).toNat < ((r (ringAt 0 2 2 2)).con - (r (ringAt 0 2 2 2)).rel).toNat)
       ∧ ((r (ringAt 0 0 0 2)).con - (r (ringAt 0 0 0 2)).rel).toNat ≤ (1 - (r (ringAt 0 0 0 2)).rel).toNat)
    ∧ memoryWf (sEng (ringAt 0 0 0 1))
    ∧ (let s := sEng (ringAt 0 0 0 1)
       let x := cx s
       let f := sideOf s x.thr (.obj 1 11)
       sideWhy x.blk f [0, 7] (some 16) = none ∧ f.off % 16 = 0 ∧ 16 ≤ (readRing x.blk 0x40).sz.toNat
         ∧ typedWhy x.blk ((readRing x.blk 0x40).base.toNat + 16) 16 = none)
    ∧ (let s := sEng id
       let x := cx s
       granType x.blk 0xA0 ≠ some .barrier ∧ granType x.blk 0xB0 ≠ some .barrier ∧ inWindow x.blk 0xA0 32 = true
         ∧ (readRing x.blk 0x40).outc = 0 ∧ inWindow x.blk 0x400 (4 * 16) = true
         ∧ granType x.blk 0x80 = some .barrier ∧ (readBarrier x.blk 0x80).pendeng = 0 ∧ granType x.blk 0x90 ≠ some .ring
         ∧ (rdV s x.thr 14).toNat % 2 ^ 16 = 0) := by
  refine ⟨by decide +kernel, by decide +kernel, ?_, by decide +kernel⟩
  unfold memoryWf; decide +kernel

/-- A barrier at 0x80 in phase 1 that expects 2: with no arrival, and with one. -/
def barAt (arrived : Nat) (b : Block) : Block := { b with spad := b.spad.writeNat 0x80 16 (arrived * 2 ^ 32 + 2 ^ 16 * 2 + 1) }

theorem witness_BarriersFencesAndGrowth :
    (∀ f ∈ [barAt 0, barAt 1],
      let s := sEng f
      let x := cx s
      (curCx s).isSome = true ∧ guardOf s x.thr hd = true ∧ inWindow x.blk 0x80 16 = true ∧ granType x.blk 0x80 = some .barrier
        ∧ (readBarrier x.blk 0x80).expected = 2)
    ∧ memoryWf (sEng (barAt 0)) ∧ (cx (sEng (barAt 0))).thr.arrival = none
    ∧ (let r := readBarrier (cx (sEng (barAt 0))).blk 0x80
       let r1 := readBarrier (cx (sEng (barAt 1))).blk 0x80
       0 ≤ (r.phase - 0).toInt ∧ ¬ 0 ≤ (r.phase - 2).toInt ∧ ¬ 0 ≤ ((arrivedOnce r).phase - (r.phase + 1)).toInt
         ∧ 0 ≤ ((arrivedOnce r1).phase - (r1.phase + 1)).toInt)
    ∧ (∃ l, launchOf s0 x0.blk.launch = some l ∧ x0.blk.grid.2 = (1, 1) ∧ l.coop = false ∧ l.gridx < 2 ^ 32)
    ∧ (∃ l, launchOf sGroup (cx sGroup).blk.launch = some l ∧ l.coop = true) := by
  refine ⟨by decide +kernel, ?_, by decide +kernel, by decide +kernel, ⟨_, rfl, by decide +kernel⟩, ⟨_, rfl, by decide +kernel⟩⟩
  unfold memoryWf; decide +kernel

/-- A thread whose BARW has arrived, with the phase it waits for reached and not reached. -/
def sArrived (t : BitVec 16) : State := onBlock (fun b => barAt 0 (objBlock b)) (bench (.nop hd) { thr [] with arrival := some (0x80, t) })

theorem witness_ArrivedThreadsWaitOn :
    ((curCx (sArrived 1)).isSome = true ∧ guardOf (sArrived 1) (cx (sArrived 1)).thr hd = true
      ∧ (cx (sArrived 1)).thr.arrival = some (0x80, 1))
    ∧ ((curCx (sArrived 2)).isSome = true ∧ (cx (sArrived 2)).thr.arrival = some (0x80, 2))
    ∧ 0 ≤ ((readBarrier (cx (sArrived 1)).blk 0x80).phase - 1).toInt
    ∧ ¬ 0 ≤ ((readBarrier (cx (sArrived 2)).blk 0x80).phase - 2).toInt := by
  decide +kernel

/-- The matrix bench: v20 tile 0, v21 the pair of tiles at 4096, v24 = 0x1000, v25 = 64 and v26 = 0x80 with v27 = 0, v28 and v29 the
scale elements 1 and 2; SGEN0 maps elements 0 to 15 to half words at 0x2000. -/
def matThr (mask : Word) : Thread :=
  { thr [(20, 0), (21, 4096), (24, 0x1000), (25, 64), (26, 0x80), (28, 1), (29, 2), (3, mask)] with
    sgen := ((Vector.replicate 16 0).set 1 16).set 2 0x2000 }
def sMat : State := onBlock objBlock (bench (.nop hd) (matThr 1))
def xM : Cx := cx sMat

/-- Lanes 0 to 15 of one instance, lane 0 last to arrive. -/
def sSix : State := onBlock (fun b => { b with threads := b.threads.mapIdx (fun n _ =>
  if n = 0 then matThr 0xFFFF else { matThr 0xFFFF with status := .held 0xFFFF }) }) sMat
def laneThr (n : Nat) : Thread := if n = 0 then (cx sSix).thr else { matThr 0xFFFF with status := .held 0xFFFF }

theorem mask_sixteen {n : Nat} (h : (0xFFFF : Word).getLsbD n = true) : n < 16 := by
  have h32 : n < 32 := BitVec.lt_of_getLsbD h
  revert h; revert n; decide

theorem gathered_mat {i : Instr} (hr : registerTrap sMat xM.thr (chkOf sMat xM.blk) hd i = none) :
    Gathered i hd sMat xM 1 (fun _ => xM.thr) :=
  gathered_one (by decide +kernel) (by decide +kernel) (by decide +kernel) hr

/-- Operands of a signing instance, with a barrier to wait for and one to arrive on. -/
def qo (tile : VReg) : QOps := ⟨2, 24, 28, tile, 3, some 26, some 26⟩
def bwt0 : Option (Nat × BitVec 16) := some (0x80, 0)
def bar0 : Option Nat := some 0x80

def needA (fmt : Fmt) (p : Nat) : Need := ⟨⟨false, 0x1000, 64 * readPlanes fmt p⟩, 64, 0⟩

theorem witness_SigningInstances :
    guardOf sMat xM.thr hd = true ∧ memoryWf sMat ∧ xM.tid.tidx / 32 < xM.blk.waves.length ∧ rdV sMat xM.thr 3 = 1
    ∧ (streamOf xM.blk 0 2).length < 4
    ∧ (Gathered (.mma hd .int8 0 (qo 20)) hd sMat xM 1 (fun _ => xM.thr)
      ∧ prepWhy xM.blk 1 ⟨.mma .int8 8 0x1000 28 0, [needA .int8 8, tileNeed false 0], [], bwt0, bar0⟩ = none)
    ∧ (Gathered (.mmb hd .int8 0 (qo 21)) hd sMat xM 1 (fun _ => xM.thr)
      ∧ prepWhy xM.blk 1 ⟨.mmb .int8 8 0x1000 28 4096, [needA .int8 8, tileNeed true 4096], [], bwt0, bar0⟩ = none)
    ∧ (Gathered (.plane hd .int8 false 0 2 24 24 3) hd sMat xM 1 (fun _ => xM.thr)
      ∧ prepWhy xM.blk 1 ⟨.plane .int8 false 0x1000 0x1000 64 [],
          ⟨⟨false, 0x1000, 64 * allPlanes .int8⟩, 64, 0⟩ :: rowNeeds 0x1000 64 (planeRows .int8 false).1 (planeRows .int8 false).2 4,
          [], none, none⟩ = none)
    ∧ (Gathered (.acvt hd .int8 0 2 20 24 3) hd sMat xM 1 (fun _ => xM.thr)
      ∧ prepWhy xM.blk 1 ⟨.acvt .int8 0 0x1000 64 [], tileNeed false 0 :: rowNeeds 0x1000 64 16 (4 * elemWidth .int8) 16, [], none, none⟩ = none)
    ∧ (Gathered (.azero hd true 2 21 3) hd sMat xM 1 (fun _ => xM.thr)
      ∧ prepWhy xM.blk 1 ⟨.azero true 4096, [tileNeed true 4096], [], none, none⟩ = none)
    ∧ (Gathered (.amovOut hd false 2 20 24 3) hd sMat xM 1 (fun _ => xM.thr) ∧ Gathered (.amovIn hd false 2 20 24 3) hd sMat xM 1 (fun _ => xM.thr)
      ∧ prepWhy xM.blk 1 ⟨.amovOut false 0 0x1000, [tileNeed false 0, ⟨⟨false, 0x1000, 2048⟩, 16, 0⟩], [], none, none⟩ = none
      ∧ prepWhy xM.blk 1 ⟨.amovIn false 0 0x1000, [tileNeed false 0, ⟨⟨false, 0x1000, 2048⟩, 16, 0⟩], [], none, none⟩ = none) := by
  refine ⟨by decide +kernel, ?_, ?_⟩
  rotate_left
  · constructorm* _ ∧ _ <;> first | exact gathered_mat (by decide +kernel) | decide +kernel
  unfold memoryWf; decide +kernel

/-- MSCALE of a scaled format by lanes 0 to 15, and an instance that finds its stream full. -/
theorem witness_SigningInstancesAreCheckedAndEnter :
    (let x := cx sSix
     let i := Instr.mscale hd .e2m1x 0 0 ⟨2, 21, 28, 20, 3, none, none⟩
     let g := sgenOf sSix (laneThr 0) 0
     let es := (List.range 16).flatMap (fun n => [(g, 1, n), (g, 2, n)])
     let cols := (List.range 32).map (fun n => if n < 16 then some 1 else none)
     let ws := fun (l : List (Option Nat)) => l.map (fun e => (e.bind (scaleAddr g)).getD 0)
     (0xFFFF : Word).getLsbD 0 = true ∧ rdV sSix x.thr 3 = 0xFFFF ∧ Gathered i hd sSix x 0xFFFF laneThr
       ∧ (∀ n, (0xFFFF : Word).getLsbD n = true → guardOf sSix (laneThr n) hd = true ∧ sgenOf sSix (laneThr n) 0 = sgenOf sSix (laneThr 0) 0
         ∧ rdV sSix (laneThr n) 20 = rdV sSix (laneThr 0) 20 ∧ rdV sSix (laneThr n) 21 = rdV sSix (laneThr 0) 21)
       ∧ prepWhy x.blk 0xFFFF ⟨.mscale .e2m1x 4096 0 (ws cols) (ws (List.replicate 16 (some 2))),
          tileNeed true 4096 :: scaleNeeds es ++ [tileNeed false 0], scaleOutside es, none, none⟩ = none)
    ∧ (let s := onBlock (fun b => { b with waves := b.waves.map (fun w => { w with q := w.q.set 2 (stream (List.replicate 4 anOp)) }) }) sMat
       Gathered (.azero hd true 2 21 3) hd s (cx s) 1 (fun _ => (cx s).thr) ∧ 4 ≤ (streamOf (cx s).blk 0 2).length) := by
  refine ⟨⟨by decide +kernel, by decide +kernel, ⟨(executes_cx (h := hd) (by decide +kernel) (by decide +kernel)).1, by decide +kernel, rfl, ?_, ?_, ?_⟩, ?_, by decide +kernel⟩,
    gathered_by (by decide +kernel), by decide +kernel⟩
  · intro n hn
    have h := mask_sixteen hn
    have key : ∀ n, n < 16 → threadOf sSix (laneTid (cx sSix) n) = some (laneThr n) := by decide +kernel
    exact key n h
  · intro n hn
    have h := mask_sixteen hn
    have key : ∀ n, n < 16 → n ≠ (cx sSix).tid.tidx % 32 →
      (laneThr n).status = .held 0xFFFF ∧ (laneThr n).pc = (cx sSix).thr.pc ∧ (laneThr n).top = (cx sSix).thr.top := by decide +kernel
    exact key n h
  · intro n hn
    have h := mask_sixteen hn
    have key : ∀ n, n < 16 → registerTrap sSix (laneThr n) (chkOf sSix (cx sSix).blk) hd (.mscale hd .e2m1x 0 0 ⟨2, 21, 28, 20, 3, none, none⟩) = none := by
      decide +kernel
    exact key n h
  · intro n hn
    have h := mask_sixteen hn
    have key : ∀ n, n < 16 → guardOf sSix (laneThr n) hd = true ∧ sgenOf sSix (laneThr n) 0 = sgenOf sSix (laneThr 0) 0
         ∧ rdV sSix (laneThr n) 20 = rdV sSix (laneThr 0) 20 ∧ rdV sSix (laneThr n) 21 = rdV sSix (laneThr 0) 21 := by decide +kernel
    exact key n h

/-- A thread that signed on q0 and one that did not; a scale map for E2M1; a register still on its way. -/
theorem witness_MatrixWaitsAndFragmentLoads :
    (let x := cx sSigned
     (streamOf x.blk (x.tid.tidx / 32) 0).any (fun o => o.mask.getLsbD (x.tid.tidx % 32)) = true)
    ∧ Executes hd sMat xM ∧ (streamOf xM.blk (xM.tid.tidx / 32) 2).any (fun o => o.mask.getLsbD (xM.tid.tidx % 32)) = false
    ∧ (let s := bench (.nop hd) { matThr 1 with lent := [⟨2, 5, [40], [0], .azero false 0, 1, false⟩] }
       Executes hd s (cx s) ∧ ∀ y ∈ (cx s).thr.lent, y.q = 2 → y.spoiled = false)
    ∧ unlanded sMat xM.thr = none ∧ (unlanded sPend (cx sPend).thr).isSome = true
    ∧ inWindow xM.blk 0x1000 (4 * elemWidth .bf16) = true ∧ (∀ j, j < 64 → spadPoisoned xM.blk (0x1000 + j) = false)
    ∧ (let x := xM
       localOff sMat x.thr (la 28) = 1 ∧ localOff sMat x.thr (la 24) = 0x1000
       ∧ scaleAddr (sgenOf sMat x.thr 0) 0x0 = some 0x2000 ∧ inWindow x.blk 0x2000 2 = true ∧ inWindow x.blk 0 (4 * elemWidth .e2m1x) = true
       ∧ ∀ j, j < 16 → spadPoisoned x.blk j = false) :=
  ⟨by decide +kernel, executes_cx (by decide +kernel) (by decide +kernel), by decide +kernel,
    ⟨executes_cx (by decide +kernel) (by decide +kernel), by decide +kernel⟩, by decide +kernel⟩

/-- Thread 0 has been ready for 1024 cycles; thread 1 yielded at cycle 0, at cycle 256. -/
def schedThreads (b : Block) : Block := { b with
  threads := (b.threads.set 0 { thr [] with sched := ⟨none, false, 1024, none⟩ }).set 1 { thr [] with sched := ⟨some 0, true, 0, none⟩ } }
def sSched : State := { onBlock schedThreads s0 with cycle := 256 }

theorem witness_SchedulerEvents :
    (sSched.cycle + (coreOf sSched (0 / 4)).clkOff.toNat) % 4 = 0
    ∧ (∃ u, threadOf sSched tid0 = some u ∧ u.sched.aged = none ∧ 1024 ≤ u.sched.readyFor)
    ∧ (∃ u, threadOf sSched ⟨0, 1⟩ = some u ∧ u.sched.yielded = some 0 ∧ 0 + 256 ≤ sSched.cycle) :=
  ⟨by decide +kernel, ⟨_, rfl, by decide +kernel⟩, ⟨_, rfl, by decide +kernel⟩⟩

/-- An overlay load of one line from object 1, with an empty restart table behind it; a second load waits for room. -/
def aLoad (placed : Bool) : OvLoad := ⟨3, 0, 1, .priv 0 1, cap1, 1, 64, 0, 64, placed, none⟩
def sLoad (placed : Bool) : State := onBlock (fun b => { b with threads := b.threads.set 0 { thr [] with status := .parkedLoad [1] (.call 0) } })
  (onCore (fun c => { c with
    loads := [aLoad placed]
    resid := c.resid ++ (if placed then [⟨.priv 0 1, 1, 1, 0, .loading, 0, []⟩] else []) })
    (onCtx (fun c => { c with overlays := [(1, ovEntry)] }) s0))

def readsLines : State × Source → Bool
  | (_, .lines _ _) => true
  | _ => false

theorem lines_of {x : State × Source} (h : readsLines x = true) : ∃ s' bs t, x = (s', .lines bs t) := by
  obtain ⟨s', o⟩ := x
  cases o <;> first | exact ⟨_, _, _, rfl⟩ | exact absurd h (fun h => nomatch h)

def findsRoom : Core × Room → Bool
  | (_, .at _) => true
  | _ => false

theorem room_of {x : Core × Room} (h : findsRoom x = true) : ∃ c' b, x = (c', .at b) := by
  obtain ⟨c', o⟩ := x
  cases o <;> first | exact ⟨_, _, rfl⟩ | exact absurd h (fun h => nomatch h)

theorem witness_OverlayLoadsEnd :
    ((coreOf (sLoad true) 0).loads[0]? = some (aLoad true) ∧ (aLoad true).placed = true ∧ activeAt (sLoad true) (engineFor (0 / 4)) 3 = true
      ∧ (∃ s' bs table, loadSource (sLoad true) (aLoad true) = (s', .lines bs table))
      ∧ ((coreOf (loadSource (sLoad true) (aLoad true)).1 0).find (.priv 0 1)).isSome = true)
    ∧ (∃ b u, blockOf (sLoad true) 0 = some b ∧ b.threads[0]? = some u ∧ coreIdOf b tid0 = 0 ∧ u.status = .parkedLoad [1] (.call 0)
      ∧ ovKey (sLoad true) 0 b.ctx 1 = (aLoad true).key)
    ∧ (firstWaiting (coreOf (sLoad false) 0).loads = some 0
      ∧ ∃ c' base, findRoom 1 0 (aLoad false).limit false 65 (coreOf (sLoad false) 0) = (c', .at base)) :=
  ⟨⟨by decide +kernel, rfl, by decide +kernel, lines_of (by decide +kernel), by decide +kernel⟩,
    ⟨_, _, rfl, rfl, by decide +kernel, rfl, by decide +kernel⟩, by decide +kernel, room_of (by decide +kernel)⟩

/-- A copy of 32 bytes within the slice, none of it served or all of it. -/
def aCopy (served : Assoc Nat) : CopyReq :=
  ⟨7, 0, some 0, 0, .move, .spad 0 0x200, .spad 0 0x300, 32, .block, some (tid0, 9), none, none, (0, 65536), served, [], none, [], none⟩
def sCopying (served : Assoc Nat) : State := { s0 with engines := [(0, ⟨[aCopy served], []⟩)] }

theorem witness_CopiesMoveTheirBytes :
    ((engineOf (sCopying []) 0).reqs[0]? = some (aCopy []) ∧ inOrder (sCopying []) 0 (aCopy []) = true ∧ (aCopy []).served? 0 = 0
      ∧ activeAt (sCopying []) 0 7 = true ∧ (0x200 + 32 ≤ 0x300) ∧ 4096 * 0 < (aCopy []).len)
    ∧ memoryWf (sCopying []) ∧ (∃ b, blockOf (sCopying []) 0 = some b ∧ (∀ j, spadPoisoned b j = false) ∧ b.types = [])
    ∧ (aCopy [(0, 32)]).allServed = true ∧ (∃ u, threadOf (sCopying [(0, 32)]) tid0 = some u ∧ u.lent = []) := by
  refine ⟨by decide +kernel, ?_, ⟨_, rfl, fun j => rfl, rfl⟩, by decide +kernel, ⟨_, rfl, rfl⟩⟩
  unfold memoryWf; decide +kernel

/-- The first operation of q0 of wave 0, started or not. -/
def sOp (started : Bool) : State := onBlock (fun b => { b with waves := b.waves.map (fun w => { w with
  q := w.q.set 0 (stream [{ anOp with started := started }]) }) }) s0

theorem witness_MatrixOperationsRun :
    (∃ b, blockOf (sOp false) 0 = some b ∧ streamOf b 0 0 = [anOp] ∧ 0 < b.waves.length ∧ b.live = true
      ∧ (∀ t ∈ b.threads, ∀ l ∈ t.lent, l.op = anOp.id → l.spoiled = false)
      ∧ (let ck := startClock b 0 0 anOp
         let o : OnCore := ⟨(b.wave 0).core, { anOp with ordered := ck }⟩
         readsRacing b ck o = false ∧ (unordered b ck 5).all (fun r => !r.hits o && !OnCore.hits o r) = true)
      ∧ (∀ p ∈ partHeads (sOp false) b.cluster (b.wave 0).core (b.wave 0).part,
          p.op.started = false ∧ (startable p = true → anOp.id ≤ p.op.id)))
    ∧ memoryWf (sOp false) ∧ anOp.bwt = none ∧ anOp.undef = false ∧ anOp.bar = none
    ∧ (∃ b, blockOf (sOp true) 0 = some b ∧ streamOf b 0 0 = [{ anOp with started := true }]
      ∧ readsRacing b [] ⟨(b.wave 0).core, { anOp with started := true }⟩ = false) := by
  refine ⟨⟨(cx (sOp false)).blk, by decide +kernel⟩, ?_, rfl, rfl, rfl, (cx (sOp true)).blk, by decide +kernel⟩
  unfold memoryWf; decide +kernel

/-- A fault of cluster 0 on page 1 of object 1, not reported; the context's fault queue at 0x8000. -/
def aFault : PageFault := ⟨.notPres, 1, 0x20000, 0x20000, .read⟩
def sFaults (t : Thread) (mapped : Bool) : State := { onCtx (fun c => { c with faultQ := some ⟨0x8000, 4, 0, 5⟩ }) (bench (.nop hd) t) with
  clusters := [(0, ⟨some 0, if mapped then [] else [⟨0, .notPres, 1, 0x20000, 1, 1, 0, false⟩], false⟩)] }
def parkedOn (f : PageFault) (tr : Option TrapRec) : Thread := { thr [] with status := .parkedFault [f] 3, trap := tr }
/-- A fault that has been serviced: page 0 of object 1. -/
def mended : PageFault := ⟨.notPres, 1, 0, 0x20, .read⟩

theorem witness_FaultsAreReportedAndResumed :
    (let s := sFaults (thr []) false
     memoryWf s ∧ (∃ b u, ThreadIn s tid0 b u) ∧ (∃ e, (faultsAt s 0)[0]? = some e ∧ e.reported = false
       ∧ (ctxOf s e.ctx).bind Context.faultQ = some ⟨0x8000, 4, 0, 5⟩)
       ∧ (readDevNat s 0x8000 8 + 2 ^ 64 - readDevNat s (0x8000 + 8) 8) % 2 ^ 64 < 2 ^ 4)
    ∧ (∀ tr ∈ [none, some ⟨0x20, 0, 5, 6, 7, 8, 3, [0]⟩],
        let s := sFaults (parkedOn mended tr) true
        ∃ b u, ThreadIn s tid0 b u ∧ u.status = .parkedFault [mended] 3 ∧ u.runFrom = none ∧ u.pend = [] ∧ (∀ x ∈ u.lat, x.2 ≤ s.cycle)
          ∧ u.fpxAt ≤ s.cycle ∧ (∀ x ∈ u.tokens, x.inRegion = false) ∧ u.trap = tr
          ∧ outstanding s b.cluster b.ctx mended = false ∧ retranslate b.ctx (some b.launch) [mended] s = (s, [])
          ∧ entryOk s (coreIdOf b tid0) b.ctx u.top u.pc.toNat = true)
    ∧ (let s := sFaults (parkedOn aFault none) true
       (retranslate 0 (some 0) [aFault] s).2 ≠ [])
    ∧ (let s := { bench (.nop hd) { thr [] with status := .stalled (.staging 0 32) } with cycle := 400000 }
       ∃ b u, ThreadIn s tid0 b u ∧ u.status = .stalled (.staging 0 32) ∧ 0 + stgLimOf s b.ctx ≤ s.cycle
         ∧ stagingRoom s b 32 = true) := by
  refine ⟨⟨?_, ⟨_, _, rfl, rfl⟩, ⟨_, rfl, rfl, rfl⟩, by decide +kernel⟩, ?_, by decide +kernel,
    ⟨_, _, ⟨rfl, rfl⟩, rfl, by decide +kernel⟩⟩
  · unfold memoryWf; decide +kernel
  · intro tr htr
    simp only [List.mem_cons, List.not_mem_nil, or_false] at htr
    rcases htr with rfl | rfl
    · exact ⟨_, _, ⟨rfl, rfl⟩, rfl, by decide +kernel⟩
    · exact ⟨_, _, ⟨rfl, rfl⟩, rfl, by decide +kernel⟩

/-- A record of an integer add of 5 to the word at 0x110000, of thread 0, and the commit that its marker stands for. -/
def aRec (opc : BitVec 4) : Rec := ⟨5, 0, 0, 0, 0, 0, 0, 0, 0, opc, 0, 2, false, 0x110000, 0, 0, 0, 0, 0, 0, false⟩
def aCommit (formed : Bool) (left : List Nat) : Commit := ⟨3, .t, .thread 0 0 0, 0, 0, 1, 0, [(tid0, 9)], formed, left, 0⟩
def chanR : Nat := chanOf 0x110000

/-- Thread 0 retired, with records and markers on their way as given. -/
def sWay (log : List LogEntry) (cs : List Commit) (ds : Assoc Drover) : State :=
  { onCore (fun c => { c with log := log }) (bench (.nop hd) { thr [] with status := .retired, region := { (thr []).region with kt := 1 } }) with
    commits := cs, drovers := ds }

/-! A notice fits on every path of a drover whose paths are empty. -/

theorem length_filter_set {α : Type} (f : Nat × α → Bool) (a : Nat) (x : α) :
    ∀ m : Assoc α, ((Assoc.set m a x).filter f).length ≤ (m.filter f).length + 1
  | [] => by cases h : f (a, x) <;> simp [Assoc.set, h]
  | (k, v) :: m => by
    have ih := length_filter_set f a x m
    unfold Assoc.set
    split_ifs <;> simp only [List.filter_cons] <;> split_ifs <;> simp_all
    all_goals omega

theorem puts_fit {e : Entry} (he : e.isMarker = false) (hs : e.slots = 1) : ∀ (ps : List Nat) (d : Drover), ps.Nodup →
    (∀ p ∈ ps, (d.path p).entries = []) → d.bins + ps.length ≤ Config.maxBins →
    (ps.foldlM (fun (d : Drover) p => d.put p [] e) d).isSome = true
  | [], _, _, _, _ => rfl
  | p :: ps, d, hn, h0, hb => by
    have hp : (d.path p).entries = [] := h0 p (List.mem_cons_self ..)
    have hl : d.bins < Config.maxBins := by simp only [List.length_cons] at hb; omega
    have hput : d.put p [] e = some (d.setPath p { d.path p with entries := [e], carried := (d.path p).carried.dedup }) := by
      simp [Drover.put, Path.takes, Drover.hasBin, hp, hs, hl, slotsOf, Config.binSlots]
    rw [List.foldlM_cons, hput]
    refine puts_fit he hs ps _ (List.nodup_cons.mp hn).2 (fun q hq => ?_) ?_
    · have hne : q ≠ p := fun h => (List.nodup_cons.mp hn).1 (h ▸ hq)
      have := h0 q (List.mem_cons_of_mem _ hq)
      simpa [Drover.path, Drover.setPath, Assoc.getD_set, hne] using this
    · have := length_filter_set (fun x : Nat × Path => !x.2.entries.isEmpty) p { d.path p with entries := [e], carried := (d.path p).carried.dedup } d.paths
      simp only [List.length_cons] at hb
      simp only [Drover.bins, Drover.setPath] at *
      omega

/-- The machine with one entry in core 0's log, whose block's records C-die 0 may drain. -/
def sLog (e : LogEntry) : State := onBlock (fun b => { b with bound := [0] }) (sWay [e] [aCommit true [0]] [])

theorem rangeFrom_eq : ∀ n lo, rangeFrom lo n = List.range' lo n
  | 0, _ => rfl
  | n + 1, lo => by rw [rangeFrom, rangeFrom_eq n, List.range'_succ]

theorem paths_nodup : (allPaths s0).Nodup := by
  have : s0.fabric.routes = [] := by decide +kernel
  simp only [allPaths, this, List.map_nil, List.append_nil, rangeFrom_eq]
  exact List.nodup_range'

theorem notice_fits : (sendNotice s0 (x0.blk.cluster / 20) 0 ((launchOf s0 0).getD Launch.boot).lnum false).isSome = true := by
  unfold sendNotice
  rw [Option.isSome_map]
  refine puts_fit rfl rfl _ _ paths_nodup (fun p _ => ?_) (by decide +kernel)
  have : droverOf s0 (x0.blk.cluster / 20) = Drover.empty := by decide +kernel
  rw [this]
  rfl

theorem witness_RecordsTravel :
    (let s := sWay [] [aCommit false []] []
     commitById s 3 = some (aCommit false []) ∧ allPast s (aCommit false []) = true
       ∧ ∀ x ∈ s.commits, (aCommit false []).follows x = true → x.formed = true)
    ∧ (let s := sLog (.record (aRec 1) false)
       (coreOf s 0).log[0]? = some (.record (aRec 1) false) ∧ boundOn s 0 (aRec 1).bslot.toNat = true
       ∧ (∀ x ∈ ((coreOf s 0).log.take 0).flatMap recOfLog, x.sameThread (aRec 1) = false)
       ∧ ((droverOf s 0).path ((aRec 1).path s.device)).takes (Entry.record (aRec 1)).slots = true
       ∧ (droverOf s 0).hasBin ((aRec 1).path s.device) = true)
    ∧ (let s := sLog (.marker 3)
       (coreOf s 0).log[0]? = some (.marker 3) ∧ commitById s 3 = some (aCommit true [0])
       ∧ markerWaits s (aCommit true [0]) ((coreOf s 0).log.take 0) = false
       ∧ (sendMarker s (aCommit true [0]) (droverOf s 0)).isSome = true ∧ ((droverOf s 0).paths.map (·.1)).Pairwise (· < ·))
    ∧ (∃ b l, blockOf s0 0 = some b ∧ launchOf s0 b.launch = some l ∧ b.bound.contains (b.cluster / 20) = false
      ∧ (sendNotice s0 (b.cluster / 20) 0 l.lnum false).isSome = true)
    ∧ (allPaths s0).Nodup
    ∧ (let s := onBlock (fun b => { b with bound := [0], phase := .retired }) s0
       ∃ b, blockOf s 0 = some b ∧ b.phase = .retired ∧ slotRecs s 0 = [] ∧ b.bound = [b.cluster / 20])
    ∧ (let s := sWay [] [aCommit true []] [(0, ⟨[(chanR, ⟨[.record (aRec 1), .marker 3 0], 0, 0, []⟩)], []⟩)]
       (pathOf s 0 chanR).entries.any Entry.isMarker = true)
    ∧ (let w : BitVec 128 := 0
       let y := recOfBits s0.device 1 (lnumOf s0 1 (w.extractLsb' 68 15)) w 0
       1 ≠ s0.device.toNat ∧ w.extractLsb' 48 4 ≠ 0xE ∧ w.extractLsb' 48 4 ≠ 0xF ∧ w.getLsbD 42 = false ∧ onDie 0 y.paddr.toNat = true
         ∧ (pathOf s0 0 (foreignPath 1 (chanOf y.paddr.toNat))).takes (Entry.record y).slots = true
         ∧ (droverOf s0 0).hasBin (foreignPath 1 (chanOf y.paddr.toNat)) = true)
    ∧ (let s := sWay [] [] [(0, ⟨[], [⟨chanR, 0, 0, 0, [.record (aRec 1)]⟩]⟩)]
       chanR < 384 ∧ (arriving s (fun p => pathChan p == some chanR))[0]? = some (0, ⟨chanR, 0, 0, 0, [.record (aRec 1)]⟩)
         ∧ stackUse s (chanR / 32) + 16 * slotsOf [Entry.record (aRec 1)] ≤ regionBytes s) :=
  ⟨by decide +kernel, by decide +kernel, by decide +kernel, ⟨x0.blk, (launchOf s0 0).getD Launch.boot, by decide +kernel, by decide +kernel, by decide +kernel, notice_fits⟩,
    paths_nodup, ⟨_, rfl, rfl, by decide +kernel, rfl⟩, by decide +kernel⟩

/-- The record and the marker staged at their channel, whose lehr has the marker whole; opc 1 is an add, opc 15 no operator. -/
def sStaged (opc : BitVec 4) : State :=
  { onCtx (fun c => { c with otLen := 0 }) (sWay [] [aCommit true []] []) with
    staging := [(chanR, [⟨.record (aRec opc), 0, 0, 0⟩, ⟨.marker 3 0, 0, 0, 0⟩])]
    lehrs := [(chanR, [.own 3])] }

theorem witness_CommitsApplyTheirRecords :
    (∀ opc : BitVec 4,
      commitById (sStaged opc) 3 = some (aCommit true []) ∧ Assoc.getD (sStaged opc).lehrs chanR [] = [.own 3]
      ∧ Assoc.get (sStaged opc).staging chanR = some [⟨.record (aRec opc), 0, 0, 0⟩, ⟨.marker 3 0, 0, 0, 0⟩]
      ∧ earlierPending (sStaged opc) (.own 3) chanR = false ∧ covers (sStaged opc) (aCommit true []) (aRec opc) = true)
    ∧ memoryWf (sStaged 1) ∧ (aRec 1).legal = true
    ∧ (∀ t' : State, t'.contexts = (sStaged 1).contexts → ∀ h a, cmpPageOf t' h a = none)
    ∧ (let s := sWay [] [aCommit true []] []
       commitById s 3 = some (aCommit true []) ∧ marksLeft s 3 = false ∧ s.abroad = [] ∧ (threadOf s tid0).isSome = true) := by
  refine ⟨by decide +kernel, ?_, by decide +kernel, ?_, by decide +kernel⟩
  · unfold memoryWf; decide +kernel
  · intro t' h _ a
    have hc : ∀ c ∈ (sStaged 1).contexts, (ctxOf (sStaged 1) c.1).map Context.otLen = some 0 := by decide +kernel
    unfold cmpPageOf
    rw [h, List.findSome?_eq_none_iff]
    intro c hcm
    have ho : objectsOf t' c.1 = [] := by
      have hx : ctxOf t' c.1 = ctxOf (sStaged 1) c.1 := by unfold ctxOf; rw [h]
      unfold objectsOf
      obtain ⟨y, hy, hl⟩ := Option.map_eq_some_iff.mp (hc c hcm)
      rw [hx, hy]
      show (rangeFrom 0 y.otLen).filterMap _ = []
      rw [hl]
      rfl
    rw [ho]
    rfl

/-- Launch queue 2 at 0x9000 with 4 slots; WR as given, RD 0; the first packet a marker, a kernel of one thread block, or nothing. -/
def markerPacket : Nat := 0x102
/-- Grid 1 x 1 x 1, one wave, one core, overlay 0, arguments at offset 0 of object 1. -/
def kernelPacket : Nat := 0x101 + 2 ^ 32 * 1 + 2 ^ 64 * 0x10001 + 2 ^ (32 * 6) * 1
def sQueue (wr fetched completed packet : Nat) : State :=
  let s := onCtx (fun c => { c with overlays := [(0, ovEntry)] }) s0
  { s with
    dram := (s.dram.writeNat 0x9000 8 wr).writeNat 0x9040 128 packet
    launchQs := [(2, ⟨0, 0x9000, 2, 0, 7, fetched, completed, false⟩)] }
def packetOf (s : State) : List Word := bytesWords (readDev s 0x9040 128)
def aheadOf (s : State) : Nat := (readDevNat s 0x9000 8 + 2 ^ 64 - readDevNat s 0x9008 8) % 2 ^ 64

def fetches : State × Except Xl Launch → Bool
  | (_, .ok _) => true
  | _ => false

theorem fetched_of {x : State × Except Xl Launch} (h : fetches x = true) : ∃ s' l, x = (s', .ok l) := by
  obtain ⟨s', o⟩ := x
  cases o <;> first | exact ⟨_, _, rfl⟩ | exact absurd h (fun h => nomatch h)

/-- The launch of the kernel packet, fetched; with or without REPLAY. -/
def newLaunch (replay : Bool) : Launch :=
  let l := Launch.fetched 0 2 0 (packetOf (sQueue 1 0 0 kernelPacket)) none 1
  if replay then { l with packet := l.packet.set 0 0x200101 } else l
def sFetched (l : Launch) : State := let s := sQueue 1 1 0 kernelPacket; { s with launches := [(5, l)] }

theorem witness_PacketsAreFetchedAndStarted :
    aheadOf (sQueue 5 0 0 0) = 5 ∧ aheadOf (sQueue 1 0 0 0) = 1
    ∧ isMarker (packetOf (sQueue 1 0 0 markerPacket)) = true ∧ (firstBad (sQueue 1 0 0 0) 0 (packetOf (sQueue 1 0 0 0))).isSome = true
    ∧ memoryWf (sQueue 1 0 0 kernelPacket)
    ∧ (let s := sQueue 1 0 0 kernelPacket
       isMarker (packetOf s) = false ∧ firstBad s 0 (packetOf s) = none ∧ argsTaken s 0 1 = false
       ∧ (∃ s' l', fetchKernel s (newLaunch false) = (s', .ok l')) ∧ memoryWf (fetchKernel s (newLaunch false)).1)
    ∧ (let l := { newLaunch false with bad := some 0x81 }
       startsNow (sFetched l) l = true ∧ pObj l.packet 12 = 0 ∧ (pw l.packet 15).getLsbD 31 = false ∧ l.phase = .fetched)
    ∧ (∀ r ∈ [false, true], startsNow (sFetched (newLaunch r)) (newLaunch r) = true ∧ lnumFree (sFetched (newLaunch r)) 3 = true
      ∧ (newLaunch r).replay = r ∧ (newLaunch r).bad = none ∧ (newLaunch r).marker = false) :=
  ⟨by decide +kernel, by decide +kernel, by decide +kernel, by decide +kernel, by unfold memoryWf; decide +kernel,
    ⟨by decide +kernel, by decide +kernel, by decide +kernel, fetched_of (by decide +kernel), memoryWf_fetchKernel (by unfold memoryWf; decide +kernel) _⟩,
    by decide +kernel⟩

def answers {α β : Type} : State × Except α β → Bool
  | (_, .ok _) => true
  | _ => false

theorem answer_of {α β : Type} {x : State × Except α β} (h : answers x = true) : ∃ s' b, x = (s', .ok b) := by
  obtain ⟨s', o⟩ := x
  cases o <;> first | exact ⟨_, _, rfl⟩ | exact absurd h (fun h => nomatch h)

def passes {α : Type} : State × Option α → Bool
  | (_, none) => true
  | _ => false

theorem pass_of {α : Type} {x : State × Option α} (h : passes x = true) : ∃ s', x = (s', none) := by
  obtain ⟨s', o⟩ := x
  cases o <;> first | exact ⟨_, rfl⟩ | exact absurd h (fun h => nomatch h)

theorem some_of {α : Type} {x : Option α} (h : x.isSome = true) : ∃ a, x = some a := Option.isSome_iff_exists.mp h

/-- Launch 5 with a block of one wave still to place on cluster 0, beside the bench's own block in slot 0. -/
def toPlace (coop : Bool) : Launch :=
  { newLaunch false with phase := .started, packet := if coop then (newLaunch false).packet.set 0 0x100101 else (newLaunch false).packet }
def sPlace (l : Launch) (cls : List Nat) : State :=
  { onCtx (fun c => { c with params := { c.params with clusters := cls } }) s0 with
    launches := [(0, Launch.boot), (5, l)], clusters := [(0, ⟨some 0, [], false⟩)], cycle := 400000 }
def place1 : Placement := ⟨1, 0, [0], [(0, 0)]⟩

theorem witness_BlocksArePlacedAndStart :
    (∀ coop ∈ [false, true],
      let l := toPlace coop
      let s := sPlace l [0]
      launchOf s 5 = some l ∧ dispatchable s 5 l = true ∧ turnOf s l.ctx 5 = true ∧ reservedAbove s l.ctx 5 = false ∧ savedOf s 5 = []
        ∧ l.coop = coop ∧ placementOk s l place1 = true ∧ [place1].length = l.blocks - l.nextBlock
        ∧ (placeAll 5 [place1] s).isSome = true)
    ∧ (let s := sPlace (toPlace false) []
       chooseAll 5 (pendingN (toPlace false)) s = none ∧ dispatchable s 5 (toPlace false) = true ∧ turnOf s 0 5 = true)
    ∧ (let l := { toPlace false with skippedSince := some 0 }
       launchOf (sPlace l []) 5 = some l ∧ 0 + 400000 ≤ (sPlace l []).cycle)
    ∧ (let s := onBlock (fun b => { b with phase := .placed }) s0
       ∃ b l, blockOf s 0 = some b ∧ launchOf s b.launch = some l ∧ b.phase = .placed ∧ l.fatal = none ∧ l.replayWant = false
         ∧ ∀ w ∈ b.waves, (coreOf s (4 * b.cluster + w.core)).usable (ovKey s (4 * b.cluster + w.core) b.ctx ((pw l.packet 5).extractLsb' 24 8)) = true) := by
  refine ⟨by decide +kernel, by decide +kernel, by decide +kernel, ?_⟩
  exact ⟨_, _, rfl, rfl, rfl, rfl, rfl, by decide +kernel⟩

/-- Launch 0 of queue 0 with a fatal trap, and one that is ending. -/
def sEnding (phase : LPhase) (fatal : Option Fatal) : State :=
  { onLaunch (fun l => { l with phase := phase, fatal := fatal }) s0 with launchQs := [(0, ⟨0, 0x9000, 2, 0, 7, 1, 0, false⟩)] }

theorem witness_LaunchesEnd :
    (let s := sEnding .started (some ⟨0x20, 0, [], 0, 0⟩)
     ∃ l, launchOf s 0 = some l ∧ l.fatal.isSome = true ∧ l.phase = .started ∧ willReplay s l = false)
    ∧ (let s := sEnding .ending none
       ∃ l q, launchOf s 0 = some l ∧ l.phase = .ending ∧ launchBusy s 0 = false ∧ pObj l.packet 12 = 0 ∧ Assoc.get s.launchQs l.queue = some q ∧ q.completed = l.no)
    ∧ (let s := onBlock (fun b => { b with phase := .retired }) (onLaunch (fun l => { l with nextBlock := 1 }) (sEnding .started none))
       ∃ l, launchOf s 0 = some l ∧ l.phase = .started ∧ l.fatal = none ∧ allRetired s 0 l = true ∧ launchBusy s 0 = false) := by
  refine ⟨⟨_, rfl, rfl, rfl, by decide +kernel⟩, ⟨_, _, rfl, rfl, by decide +kernel, by decide +kernel, rfl, rfl⟩, ⟨_, rfl, rfl, rfl, by decide +kernel⟩⟩

/-- Doorbell 7 of the PF is launch queue 2's, doorbell 5 the fault queue's of context 0. -/
def sDoors : State :=
  let s := onCtx (fun c => { c with faultQ := some ⟨0x8000, 4, 0, 5⟩ }) (sQueue 0 0 0 0)
  { s with service := { s.service with doorbells := [(5, .fault 0), (7, .launch 2)] } }

theorem witness_DoorbellsRaiseTheirWords :
    memoryWf sDoors
    ∧ (∃ q, Assoc.get sDoors.service.doorbells (0 * 4096 + 7) = some (.launch 2) ∧ Assoc.get sDoors.launchQs 2 = some q ∧ q.addr = 0x9000)
    ∧ (∃ q, Assoc.get sDoors.service.doorbells (0 * 4096 + 5) = some (.fault 0) ∧ (ctxOf sDoors 0).bind Context.faultQ = some q
      ∧ q.addr + 8 = 0x8008) := by
  refine ⟨?_, ⟨_, rfl, rfl, rfl⟩, ⟨_, rfl, rfl, rfl⟩⟩
  unfold memoryWf; decide +kernel

/-- Bulk queue 3 in object 1 with a MOVE packet of 16 bytes from window 0 to window 0 in its first slot; window 0 is all of
object 1. -/
def movePacket : Nat := 0x401 + 2 ^ (32 * 8) * 16 + 2 ^ (32 * 4) * 0x400
def aBulk : BulkQueue := ⟨0, 1, 0, 2, 0, [cap1], 0, 9⟩
def sBulk : State := { s0 with dram := s0.dram.writeNat 0x100040 64 movePacket, bulkQs := [(3, aBulk)] }
def afterHead : State := (writeObjRange sBulk 0 none 1 64 (leBytes 4 0)).1

/-- A request of a bulk packet that asks for neither status nor signal, served whole. -/
def bulkReq : CopyReq :=
  ⟨7, 0, none, 0, .move, .obj 1 0x400, .obj 1 0, 16, .system, none, none, some ⟨3, 0, false, none, none⟩, (0, 2 ^ 40), [(0, 16)], [], none, [], none⟩

/-- Window 0 of the PF's aperture is object 1; its storage window 0 is object 1 too. -/
def sWindows : State :=
  let s := onCtx (fun c => { c with fns := [0], storage := [(0, ⟨1, 1, 0, 65536, 96, 1, 7⟩)] }) s0
  { s with
    cycle := 40000000
    service := { s.service with aperture := [(0, ⟨0, cap1⟩)], hostReads := [⟨0, 0, 0x20000, 4, 0, aFault⟩] } }

theorem witness_BulkPacketsAndHostAccesses :
    (Assoc.get sBulk.bulkQs 3 = some aBulk ∧ (∃ c, ctxOf sBulk 0 = some c ∧ c.killed = false)
      ∧ (∃ s1 r, readWaiting sBulk 0 none .read 1 8 8 = (s1, .ok r)) ∧ (∃ s2 r, readWaiting sBulk 0 none .read 1 64 64 = (s2, .ok r))
      ∧ ((match readWaiting sBulk 0 none .read 1 64 64 with
        | (_, .ok (bs, _)) => decide (pf (bytesWords bs) 0 16 16 = 0 ∧ bOp (bytesWords bs) = 1)
            && (bBad aBulk.windows (bytesWords bs)).isNone
            && (match readIndex sBulk aBulk (bytesWords bs) with | (_, .ok ([], false)) => true | _ => false)
        | _ => false) = true)
      ∧ (∃ s3, writeObjRange sBulk 0 none 1 64 (leBytes 4 0) = (s3, none))
      ∧ (∃ s4, writeObjRange afterHead 0 none 1 8 (leBytes 8 1) = (s4, none)))
    ∧ (let s := { s0 with engines := [(2, ⟨[bulkReq], []⟩)] }
       (engineOf s 2).reqs[0]? = some bulkReq ∧ bulkReq.allServed = true ∧ inOrder s 2 bulkReq = true)
    ∧ apertureAt sWindows 0 1 0 4 0 = none ∧ apertureAt sWindows 0 1 0 4 1 = none
    ∧ apertureAt sWindows 0 0 0x20 4 0 = some (0, 1, 0x20) ∧ (∃ s' r, readWaiting sWindows 0 none .read 1 0x20 4 = (s', .ok r))
    ∧ apertureAt sWindows 0 0 0x20 4 1 = some (0, 1, 0x20) ∧ (∃ s', writeObjRange sWindows 0 none 1 0x20 [1, 2, 3, 4] = (s', none))
    ∧ (∃ h, sWindows.service.hostReads[0]? = some h ∧ 10000000 ≤ (gtsOf sWindows - h.since).toNat)
    ∧ (∃ e, storageAt sWindows 0 (0x20 / 2 ^ 30) = some (0, e) ∧ inObject sWindows 0 e.obj (0x20 % 2 ^ 30) 4 1 = true)
    ∧ storageAt sWindows 0 (2 ^ 30 / 2 ^ 30) = none :=
  ⟨⟨rfl, ⟨_, rfl, rfl⟩, answer_of (by decide +kernel), answer_of (by decide +kernel), by decide +kernel, pass_of (by decide +kernel),
    pass_of (by decide +kernel)⟩, by decide +kernel, by decide +kernel, by decide +kernel, by decide +kernel, answer_of (by decide +kernel),
    by decide +kernel, pass_of (by decide +kernel), ⟨_, rfl, by decide +kernel⟩, ⟨_, rfl, by decide +kernel⟩, by decide +kernel⟩

/-- The header of a sealed image of 80 bytes, before its tag (Table 22.2). -/
def imageHead : List Byte := leBytes 64 (0x5EA1ED00 + 2 ^ 48 + 2 ^ 64 * 80)
def imageTag : List Byte := leBytes 16 (Config.hmacTag 0 imageHead).toNat

/-- Key slot 1 of context 0 is an HMAC key; functions 0 and 1 reach the context; object 2 is a weight-store object of one page. -/
def object2 : BitVec 512 := BitVec.ofNat 512 (2 ^ 31 + 2 ^ 29 + 0xFF + 65536 * 2 ^ 64 + 0x6000 * 2 ^ 128)
def sMail : State :=
  let s := onCtx (fun c => { c with fns := [0, 1], otLen := 3 }) s0
  { s with
    dram := s.dram.writeNat 0x1080 64 object2.toNat
    service := { s.service with keys := [(0, ⟨0, .xts, 0⟩), (1, ⟨0, .hmac, 0⟩)] }
    fabric := { s.fabric with groups := [(9, ⟨0, [0, 1], 0, 0, 0⟩)] } }
/-- The same with a sealed image's header at offset 0 of object 1. -/
def plainDram : Memory := sMail.dram.writeNat 0x5008 8 (2 ^ 63 + 0x110000)
def imageDram : Memory := plainDram.writeBytes 0x100000 (imageHead ++ imageTag)
def sImage : State := { sMail with dram := imageDram }
/-- The same with the capability of object 1 in granule 0 of its memory. -/
def sGranule : State := { sMail with dram := sMail.dram.writeBytes 0x100000 (leBytes 16 cap1.bits.toNat), tags := [0x10000] }

theorem mailWf : memoryWf sMail := by unfold memoryWf; decide +kernel

theorem image_length : (imageHead ++ imageTag).length = 80 := by simp [imageHead, imageTag, leBytes_length]

theorem imageDram_reads : imageDram.readBytes 0x100000 80 = imageHead ++ imageTag := by
  have := readBytes_writeBytes (Memory.writeNat_wf mailWf.1 0x5008 8 (2 ^ 63 + 0x110000)) 0x100000 (imageHead ++ imageTag)
  rw [image_length] at this
  exact this

theorem imageAddr : dramAt (objHome object1) (pagePfn (sImage.dram.read64 0x5000) + 0 % objPage object1) = 0x100000 := by decide +kernel
theorem imagePage : pageConst (sImage.dram.read64 0x5000) = false := by decide +kernel
theorem imagePoison : sImage.poison = [] := by decide +kernel

theorem headerOk_sImage : headerOk sImage 0 1 0 1 = true := by
  have hm : ∃ m, translate sImage 0 none ⟨1, 0, .read, false, false⟩ = (sImage, .ok m false) ∧ m.loc.ws = false
      ∧ m.pe = sImage.dram.read64 0x5000 ∧ m.loc.addr = dramAt (objHome object1) (pagePfn (sImage.dram.read64 0x5000) + 0 % objPage object1) :=
    by apply translate_plain <;> decide +kernel
  obtain ⟨m, h1, h2, h3, h4⟩ := hm
  have ha : m.loc.addr = 0x100000 := h4.trans imageAddr
  have hc : pageConst m.pe = false := (congrArg pageConst h3).trans imagePage
  have hf : sImage.fabric.failedPeers = [] := by decide +kernel
  have hp : anyPoison sImage m 80 = false := by
    unfold anyPoison poisonedAt Mapped.lost
    rw [imagePoison, hf]
    simp only [h2, hc, Bool.false_eq_true, if_false, NatSet.has]
    simp
  have hr : fwRead sImage 0 1 0 80 = some (imageHead ++ imageTag) := by
    have hd : sImage.dram = imageDram := by simp only [sImage]
    rw [fwRead_plain (n := 80) (by omega) (by omega) h1 h2 hc (by decide +kernel) hp, ha, hd, imageDram_reads]
  have hk : keyOf sImage 1 = 0 := by decide +kernel
  have hl : imageHead.length = 64 := leBytes_length ..
  have hn : fieldAt (imageHead ++ imageTag) 8 4 = 80 := by decide +kernel
  have h0 : fieldAt (imageHead ++ imageTag) 0 4 = 0x5EA1ED00 := by decide +kernel
  have h6 : fieldAt (imageHead ++ imageTag) 6 2 = 1 := by decide +kernel
  have ht : (imageHead ++ imageTag).drop 64 = imageTag := by rw [← hl]; exact List.drop_left ..
  have hh : (imageHead ++ imageTag).take 64 = imageHead := by rw [← hl]; exact List.take_left ..
  unfold headerOk
  rw [hr]
  simp only [hn, hr, h0, h6, ht, hh, hk]
  have : leNat imageTag = (Config.hmacTag 0 imageHead).toNat := by
    unfold imageTag
    rw [leNat_leBytes]
    exact Nat.mod_eq_of_lt (Config.hmacTag 0 imageHead).isLt
  simp [this]

def reqV : Req := ⟨1, 0, 5⟩
def reqBad : Req := ⟨2, 0, 5⟩
def bulkNew : BulkReg := ⟨1, 0x40, 2, 3, 1, 0, 1⟩
def storageNew : StorageReg := ⟨3, 1, 1, 0, 65536, 96, 1, 7, 0⟩
def bucketNew : BucketReg := ⟨4, 2, 0, 0, 1, 0x40, 128, 128, 1, 1, true, 9, 7⟩
def mintNew : MintReg := ⟨1, 3, 0, 0, 0, 64, 0, 64, 1, 0⟩
def publishNew : PublishReg := ⟨2, 1, 0x7000, [0x8000], [0], 1, 0⟩

/-- The machine of the publication, out of the refresh window of die 0. -/
def sPublish : State := { sMail with cycle := 4000 }

theorem fillBytes_sPublish : ∃ bs, fillBytes sPublish 0 1 0 65536 = some bs ∧ bs.length = 65536 := by
  have hm : ∃ m, translate sPublish 0 none ⟨1, 0, .read, false, false⟩ = (sPublish, .ok m false) ∧ m.loc.ws = false
      ∧ m.pe = sPublish.dram.read64 0x5000 ∧ m.loc.addr = dramAt (objHome object1) (pagePfn (sPublish.dram.read64 0x5000) + 0 % objPage object1) :=
    by apply translate_plain <;> decide +kernel
  obtain ⟨m, h1, h2, h3, -⟩ := hm
  have hpe : pageConst (sPublish.dram.read64 0x5000) = false := by decide +kernel
  have hc : pageConst m.pe = false := (congrArg pageConst h3).trans hpe
  have hps : sPublish.poison = [] := by decide +kernel
  have hf : sPublish.fabric.failedPeers = [] := by decide +kernel
  have hp : anyPoison sPublish m 65536 = false := by
    unfold anyPoison poisonedAt Mapped.lost
    rw [hps, hf]
    simp only [h2, hc, Bool.false_eq_true, if_false, NatSet.has]
    simp
  have hs : sealedBy sPublish 0 1 = none := by decide +kernel
  refine ⟨_, ?_, Memory.readBytes_length 65536 m.loc.addr sPublish.dram⟩
  unfold fillBytes
  rw [hs]
  exact fwRead_plain (n := 65536) (by omega) (by omega) h1 h2 hc (by decide +kernel) hp

theorem witness_MailboxRequestsAreServed :
    memoryWf sMail ∧ mayServe sMail reqV = true ∧ mayServe sMail reqBad = false ∧ (∃ d, freeDoor sMail reqV.fn = some d)
    ∧ (0xA000 % 64 = 0 ∧ 0xA000 + (64 + 128 * 2 ^ 4) ≤ 432 * 2 ^ 30 ∧ (queuesOf sMail 0).length < 32)
    ∧ (inObject sMail 0 1 0x40 (64 + 64 * 2 ^ 2) 64 = true ∧ (∃ ws, readWindows sGranule 0 1 0 1 = some ws)
      ∧ inObject sGranule 0 1 0x40 (64 + 64 * 2 ^ 2) 64 = true ∧ (∃ s', fwWrite sGranule 0 1 0x40 (bulkHeader 2) = some s')
      ∧ mayServe sGranule reqV = true ∧ (∃ d, freeDoor sGranule reqV.fn = some d))
    ∧ (∃ e, objEntry sImage 0 1 = some e ∧ objWsf e = false ∧ plainPages sImage e = true ∧ keyIs sImage 0 1 .hmac = true
      ∧ keyIs sImage 0 0 .xts = true ∧ headerOk sImage 0 1 0 1 = true ∧ mayServe sImage reqV = true)
    ∧ ((fwReadCap sGranule 0 1 0).any Cap.tag = true)
    ∧ (sMail.device.toNat ∈ [0, 1] ∧ sMail.fabric.groups.length < 64)
    ∧ (∃ g, Assoc.get sMail.fabric.groups 9 = some g ∧ g.ctx = 0 ∧ bucketRange sMail 0 1 0x40 128 = true ∧ bucketNew.len % 64 = 0
      ∧ bucketNew.expect < 2 ^ 32 ∧ ¬(bucketNew.opr = 1 ∧ bucketNew.ty = 3))
    ∧ (∃ e, objEntry sMail 0 1 = some e ∧ mintNew.rights &&& ~~~(objMaxr e) = 0 ∧ windowIn e 0 64 = true ∧ mintExact mintNew = true)
    ∧ (∃ m rc, translate sMail 0 none ⟨1, 0, .cwrite, false, false⟩ = (sMail, .ok m rc) ∧ objCapa m.oe = true)
    ∧ (∃ s'', putCap sMail 0 1 0 (mintCap mintNew) = some s'')
    ∧ (objEntry sPublish 0 2 = some object2 ∧ objWsf object2 = true ∧ (∃ c, ctxOf sPublish 0 = some c) ∧ verState (verEntry sPublish object2 1) = 0
      ∧ publishNew.frames.length = objSize object2 / 65536 ∧ publishNew.leaves.length = (objSize object2 / 65536 + 511) / 512
      ∧ (∀ a ∈ publishNew.leaves, a % 4096 = 0 ∧ a < 2 ^ 39) ∧ (∀ f ∈ publishNew.frames, f % 65536 = 0 ∧ f < 2 ^ 32)
      ∧ publishNew.l1 % 4096 = 0 ∧ objSize object2 = 65536 ∧ newFramesOk sPublish object2 publishNew.frames = true
      ∧ newTablesOk sPublish object2 (publishNew.l1 :: publishNew.leaves) = true)
    ∧ (publishNew.frames.any (fun f => inRefresh sPublish (wsDie f)) = false
      ∧ sourceRefreshes sPublish 0 1 0 65536 = false ∧ mayServe sPublish reqV = true)
    ∧ (objLocked sMail 0 1 = false ∧ objLocked { sMail with migrations := [aMigration] } 0 1 = true)
    ∧ publishNew.frames.any (fun f => inRefresh sMail (wsDie f)) = true :=
  ⟨mailWf, by decide +kernel, by decide +kernel, some_of (by decide +kernel), by decide +kernel,
    ⟨by decide +kernel, some_of (by decide +kernel), by decide +kernel, some_of (by decide +kernel), by decide +kernel, some_of (by decide +kernel)⟩,
    ⟨object1, by decide +kernel, by decide +kernel, by decide +kernel, by decide +kernel, by decide +kernel, headerOk_sImage, by decide +kernel⟩,
    by decide +kernel, by decide +kernel, ⟨_, rfl, rfl, by decide +kernel⟩, ⟨object1, by decide +kernel⟩,
    ⟨mq 0, false, by decide +kernel⟩, some_of (by decide +kernel),
    ⟨by decide +kernel, by decide +kernel, some_of (by decide +kernel), by decide +kernel⟩, by decide +kernel⟩

/-! Flits: the CRC that the model leaves open still makes good flits and bad ones. -/

theorem leBytes_mod : ∀ (n x y : Nat), x % 256 ^ n = y % 256 ^ n → leBytes n x = leBytes n y
  | 0, _, _, _ => rfl
  | n + 1, x, y, h => by
    have h1 : x % 256 = y % 256 := by
      have := congrArg (· % 256) h
      simpa [pow_succ, mul_comm, Nat.mod_mul_right_mod] using this
    have h2 : x / 256 % 256 ^ n = y / 256 % 256 ^ n := by
      have := congrArg (· / 256) h
      simpa [pow_succ, mul_comm, Nat.mod_mul_right_div_self] using this
    unfold leBytes
    rw [leBytes_mod n (x / 256) (y / 256) h2]
    congr 1
    apply BitVec.eq_of_toNat_eq
    simpa using h1

theorem crc_input (c : BitVec 64) (f : BitVec 1984) : leBytes 248 (c ++ f).toNat = leBytes 248 f.toNat := by
  apply leBytes_mod
  have : (256 : Nat) ^ 248 = 2 ^ 1984 := (pow_mul 2 8 248).symm
  rw [BitVec.toNat_append, this, Nat.shiftLeft_eq, Nat.mul_comm, Nat.or_comm]
  rw [show f.toNat ||| 2 ^ 1984 * c.toNat = 2 ^ 1984 * c.toNat + f.toNat by
    rw [Nat.or_comm, Nat.two_pow_add_eq_or_of_lt f.isLt]]
  omega

theorem crc_part (c : BitVec 64) (f : BitVec 1984) : (c ++ f).extractLsb' 1984 64 = c := by
  ext i hi
  rw [BitVec.getElem_extractLsb', BitVec.getLsbD_append, if_neg (by omega), Nat.add_sub_cancel_left, BitVec.getLsbD_eq_getElem hi]

theorem crc_good (f : BitVec 1984) : crcOk (withCrc f) = true := by
  unfold crcOk withCrc
  rw [crc_input, crc_part]
  simp

theorem crc_bad (f : BitVec 1984) : crcOk (~~~(Config.crc64 (leBytes 248 f.toNat)) ++ f) = false := by
  unfold crcOk
  rw [crc_input, crc_part]
  generalize Config.crc64 (leBytes 248 f.toNat) = c
  rw [beq_eq_false_iff_ne]
  intro h
  have := congrArg (·.getLsbD 0) h
  simp at this

theorem flit_low {c : BitVec 64} {f : BitVec 1984} {k n : Nat} (h : k + n ≤ 1984) : (c ++ f).extractLsb' k n = f.extractLsb' k n := by
  ext i hi
  simp only [BitVec.getElem_extractLsb', BitVec.getLsbD_append]
  rw [if_pos (by omega)]

theorem flit_bit {c : BitVec 64} {f : BitVec 1984} {k : Nat} (h : k < 1984) : (c ++ f).getLsbD k = f.getLsbD k := by
  rw [BitVec.getLsbD_append, if_pos h]

/-- Flits of SEQ 0, SEQ 1, and idle. -/
def flitOf (x : Nat) : BitVec 2048 := withCrc (BitVec.ofNat 1984 x)

def sPod : State := { s0 with
  cycle := 40000000
  fabric := { s0.fabric with
    ports := [(0, ⟨0, 0, [64, 64, 64, 64], [0], 0, 256, true⟩)]
    routes := [(1, 0)]
    groups := [(9, ⟨0, [0, 1], 1, 0, 0⟩)] } }

theorem witness_LinksCarryFlits :
    crcOk (flitOf 0) = true ∧ (flitOf 0).getLsbD 12 = false ∧ (flitOf 0).extractLsb' 0 12 = (portOf sPod 0).rxSeq
    ∧ crcOk (flitOf 1) = true ∧ (flitOf 1).getLsbD 12 = false ∧ (flitOf 1).extractLsb' 0 12 ≠ (portOf sPod 0).rxSeq
    ∧ crcOk (flitOf 4096) = true ∧ (flitOf 4096).getLsbD 12 = true
    ∧ (∃ f : BitVec 2048, crcOk f = false)
    ∧ ((portOf sPod 0).up = true ∧ (portOf sPod 0).replay ≠ [] ∧ 1000 ≤ (gtsOf sPod - (portOf sPod 0).lastAck).toNat
      ∧ 256 ≤ (portOf sPod 0).resends)
    ∧ (∃ g, podGroup sPod 9 = some g ∧ 10000 ≤ (gtsOf sPod - g.lastBeat).toNat ∧ 1 ∈ g.members ∧ 1 ≠ sPod.device.toNat) := by
  have h0 : ∀ x k n, k + n ≤ 1984 → (flitOf x).extractLsb' k n = (BitVec.ofNat 1984 x).extractLsb' k n := fun _ _ _ h => flit_low h
  have h1 : ∀ x k, k < 1984 → (flitOf x).getLsbD k = (BitVec.ofNat 1984 x).getLsbD k := fun _ _ h => flit_bit h
  refine ⟨crc_good _, ?_, ?_, crc_good _, ?_, ?_, crc_good _, ?_, ⟨_, crc_bad 0⟩, by decide +kernel, ⟨_, rfl, by decide +kernel⟩⟩
  · rw [h1 _ _ (by omega)]; decide +kernel
  · rw [h0 _ _ _ (by omega)]; decide +kernel
  · rw [h1 _ _ (by omega)]; decide +kernel
  · rw [h0 _ _ _ (by omega)]; decide +kernel
  · rw [h1 _ _ (by omega)]; decide +kernel

/-- A bucket of 64 bytes of object 1 in a state, its step full. -/
def aBucket (state : BitVec 2) (steps : Nat) : Bucket :=
  ⟨state, 2, steps, 0, 0, 0, 1, 0x40, 64, 64, 64, 1, 1, false, 9, 0, 0, 0, 7, List.replicate 64 0, false⟩
def sBucket (b : Bucket) : State := { sPod with fabric := { sPod.fabric with buckets := [(4, b)] } }

theorem witness_BucketsStepAndExchange :
    (∀ b ∈ [aBucket 1 0, aBucket 1 1, aBucket 2 0, aBucket 3 0],
      bucketOf (sBucket b) 4 = some b ∧ (podGroup (sBucket b) b.group).isSome = true ∧ b.expect ≤ b.count ∧ b.state ≠ 0)
    ∧ (aBucket 1 0).steps + 1 ≠ (aBucket 1 0).cad ∧ (aBucket 1 1).steps + 1 = (aBucket 1 1).cad
    ∧ (podGroup (sBucket (aBucket 2 0)) 9).map PodGroup.next = some (aBucket 2 0).seq
    ∧ (∃ s' r, readWaiting (sBucket (aBucket 2 0)) 0 none .read 1 0x40 64 = (s', .ok r))
    ∧ (let b := { aBucket 2 0 with seq := 0 }
       (podGroup (sBucket b) 9).map (fun g => decide (b.seq < g.next)) = some true ∧ b.late = false)
    ∧ (∃ g, podGroup (sBucket (aBucket 3 0)) 9 = some g
      ∧ decisionOk (sBucket (aBucket 3 0)) g (aBucket 3 0) [(1, List.replicate 64 0)] = true)
    ∧ (∃ s' ps, translateRange (sBucket (aBucket 3 0)) 0 none 1 .cwrite 0x40 64 = (s', .ok ps)) :=
  ⟨by decide +kernel, by decide +kernel, by decide +kernel, by decide +kernel, answer_of (by decide +kernel), by decide +kernel,
    ⟨_, rfl, by decide +kernel⟩, answer_of (by decide +kernel)⟩

/-- The bench at a time in, and out of, the refresh window of die 0. -/
def sRefresh (cycle : Nat) (open_ : Bool) : State := { s0 with cycle := cycle, refresh := if open_ then [0] else [] }

/-- Page 0 of object 1 migrates to 0x200000: the phases of its migration. -/
def migrating (locked copied : Bool) : Migration := { aMigration with locked := locked, copied := copied }
def sMigrates (locked copied : Bool) : State := { s0 with migrations := [migrating locked copied] }
/-- Object 1 without CAPA, since its page 1 is deferred (R356). -/
def object1plain : BitVec 512 := object1 ^^^ 2 ^ 30

theorem witness_TablesAreEdited :
    memoryWf s0 ∧ objEntry s0 0 1 = some object1 ∧ editAddr s0 object1 0 = some 0x5000
    ∧ (let pe : BitVec 64 := BitVec.ofNat 64 (2 ^ 63 + 0x200000)
       pageEntryOk object1 pe = true ∧ mappable s0 object1 0x5000 pe = true ∧ liveMigration s0 0x5000 = none
         ∧ isQuarantine s0 0 1 = false ∧ keptAttrs (pageAt s0 0x5000) = keptAttrs pe)
    ∧ mayMigrate s0 object1 0x5000 0x200000 = true
    ∧ (let s := { s0 with staging := [(0, [⟨.record { aRec 1 with paddr := 0x100000 }, 0, 0, 0⟩])] }
       frameHasRecords s (objHome object1) (pagePfn (pageAt s 0x5000)) (objPage object1) = true ∧ liveMigration s 0x5000 = none)
    ∧ (∀ x ∈ [(false, false), (true, false), (true, true)],
       let s := sMigrates x.1 x.2
       objEntry s 0 1 = some object1 ∧ editAddr s object1 0 = some 0x5000
         ∧ liveMigration s 0x5000 = some (migrating x.1 x.2) ∧ (migrating x.1 x.2).size = objPage object1
         ∧ framesMeet (migrating x.1 x.2).old 65536 0x200000 65536 = false)
    ∧ (objEntry sWs 0 1 = some object1ws ∧ objWsf object1ws = true)
    ∧ (∃ c, ctxOf s0 0 = some c ∧ 0 < 1 ∧ 1 < c.otLen ∧ objectEntryOk s0 0 1 object1plain = true)
    ∧ (let s := sRefresh 0 false
       ((gtsOf s).toNat + 32000 - 8000 * 0) % 32000 < 256 ∧ s.refresh.has 0 = false)
    ∧ (let s := sRefresh 4000 true
       ¬ ((gtsOf s).toNat + 32000 - 8000 * 0) % 32000 < 256 ∧ s.refresh.has 0 = true ∧ s.refresh.wf = true) :=
  ⟨wf0, by decide +kernel, by decide +kernel, by decide +kernel, by decide +kernel, by decide +kernel, by decide +kernel, by decide +kernel,
    ⟨_, rfl, by decide +kernel⟩, by decide +kernel⟩

/-! Drains, limits, contexts, replays, power, management, decoding and steps. -/

/-- Context 0 with limits of its own; threads 0 to 4 ready, waiting on a barrier, in BARW, retired, and drained. -/
def limited (c : Context) : Context := { c with params := { c.params with
  saveArea := some (0x10000000, 2 ^ 30), runOn := 8192, swapLim := 4096, drainLim := 400000, hangLim := 65536, clusters := [0] } }
def states : List TStatus := [.ready, .waiting (.bar 0x80 1), .waiting (.barw 0x80 1), .retired]
def mixed (b : Block) : Block := { b with threads := b.threads.mapIdx (fun n _ =>
  { thr [] with status := states.getD n .retired, rpStack := [0], runFrom := if n = 0 then some 0 else none }) }
def sDrain (phase : BPhase) (f : Block → Block) : State := { onCtx limited (onBlock (fun b => { f b with phase := phase }) s0) with
  cycle := 1000000 }
def parked (b : Block) : Block := { b with threads := b.threads.mapIdx (fun n _ =>
  { thr [] with status := if n = 0 then .parkedFault [aFault] 0 else .retired }) }
def allDrained (b : Block) : Block := { b with threads := b.threads.map (fun _ => { thr [] with status := .drained }) }
/-- The bench's block, saved. -/
def sSaved : State :=
  let s := sDrain (.draining 3 false) allDrained
  let sv := saveOf s 0 ((blockOf s 0).getD Block.boot) false (0x10000000, 0)
  { onCtx (fun c => { c with saved := [sv] }) s with blocks := [] }
/-- A block under way in a drain, thread 0 at slot 0, which is a restart point or is none. -/
def sRunsOn (atPoint : Bool) : State :=
  onCore (fun c => { c with restart := if atPoint then [0] else [] }) (sDrain (.draining 3 false) mixed)
/-- A cluster without blocks, and a second context that may run there. -/
def sIdle : State :=
  let s := onCtx limited s0
  { s with blocks := [], contexts := Assoc.set s.contexts 1 ((ctxOf s 0).getD (Context.fresh s.service.settings.defaults)) }

theorem witness_BlocksAreDrainedSavedAndResumed :
    (let s := sDrain .running mixed
     ∃ c, ctxOf s 0 = some c ∧ (∀ k ∈ [0], (clusterOf s k).ctx = some 0) ∧ c.killed = false
      ∧ requestSlots s [0] = [0] ∧ saveFits s 0 (requestSlots s [0]) = true ∧ (blockOf s 0).map Block.phase = some .running)
    ∧ (∀ p ∈ [true, false],
       let s := sRunsOn p
       (blockOf s 0).any (fun b => b.ctx == 0 && b.phase == .draining 3 false && !withheld s b
         && (b.threads[0]?).any (fun u => u.runFrom == some 0 && u.trap.isNone && u.status == .ready && arrives s b tid0 u == p)) = true
       ∧ 0 + 8192 ≤ s.cycle)
    ∧ (let s := sDrain (.draining 3 false) allDrained
       ∃ b l, blockOf s 0 = some b ∧ b.phase = .draining 3 false ∧ drained s 0 b = true ∧ isCoop s b = false ∧ launchOf s b.launch = some l
        ∧ l.fatal = none ∧ b.threads.all (fun u => u.status == .drained) = true ∧ s.service.testDue.contains b.cluster = false)
    ∧ memoryWf (sDrain (.draining 3 false) allDrained)
    ∧ (∃ area, placesFor (sDrain (.draining 3 false) allDrained) 0 [0] = some [area])
    ∧ (let s := sDrain .running parked
       ∃ b c, blockOf s 0 = some b ∧ ctxOf s 0 = some c ∧ b.phase = .running ∧ 0 < c.params.swapLim ∧ b.noSwapBefore ≤ s.cycle
        ∧ isCoop s b = false ∧ (b.threads[0]?).any (fun u => u.status == .parkedFault [aFault] 0 && u.trap.isNone) = true
        ∧ 0 + c.params.swapLim ≤ s.cycle)
    ∧ saveFits (sDrain .running parked) 0 [0] = true
    ∧ (let s := sDrain (.draining 0 true) mixed
       ∃ b c, blockOf s 0 = some b ∧ ctxOf s 0 = some c ∧ b.phase = .draining 0 true ∧ 0 + c.params.drainLim ≤ s.cycle
        ∧ drained s 0 b = false)
    ∧ (let s := sDrain (.draining 0 true) allDrained
       ∃ b, blockOf s 0 = some b ∧ b.phase = .draining 0 true ∧ drained s 0 b = true)
    ∧ (∃ c, ctxOf sIdle 0 = some c ∧ clusterIdle sIdle 0 = true ∧ (clusterOf sIdle 0).ctx = some 0 ∧ drainOn sIdle c = false
        ∧ mayRun sIdle 0 1 = true)
    ∧ (∃ c sv l, sSaved.contexts.find? (fun c => c.2.saved.any (fun b => b.slot == 0)) = some (0, c)
        ∧ c.saved.find? (fun b => b.slot == 0) = some sv ∧ launchOf sSaved sv.launch = some l ∧ dispatchable sSaved sv.launch l = true
        ∧ turnOf sSaved 0 sv.launch = true ∧ reservedAbove sSaved 0 sv.launch = false
        ∧ planSaved 0 (nextSaved sSaved sv.launch l) sSaved = some [(sv, 0)]) := by
  refine ⟨⟨_, rfl, by decide +kernel⟩, by decide +kernel, ⟨_, _, rfl, rfl, by decide +kernel, by decide +kernel, rfl, by decide +kernel⟩, ?_,
    ?_, ⟨_, _, rfl, rfl, by decide +kernel⟩, by decide +kernel, ⟨_, _, rfl, rfl, by decide +kernel⟩, ⟨_, rfl, by decide +kernel⟩,
    ⟨_, rfl, by decide +kernel⟩, ⟨_, _, _, rfl, rfl, rfl, by decide +kernel⟩⟩
  · unfold memoryWf; decide +kernel
  · refine ⟨((placesFor (sDrain (.draining 3 false) allDrained) 0 [0]).getD []).headD (0, 0), ?_⟩
    decide +kernel

def waitingAll (b : Block) : Block := { b with threads := b.threads.mapIdx (fun n _ =>
  { thr [] with status := if n = 0 then .waiting (.bar 0x80 1) else .retired }) }
def sHang : State := onCtx (fun c => { c with hang := 65536 }) (sDrain .running waitingAll)

theorem witness_LimitsEndLaunches :
    (let s := onCtx (fun c => { c with drain := some ⟨[0], [0]⟩ }) (sDrain (.draining 0 false) mixed)
     ∃ c d b, ctxOf s 0 = some c ∧ c.killed = false ∧ c.drain = some d ∧ 0 ∈ d.blocks ∧ blockOf s 0 = some b
      ∧ b.phase = .draining 0 false ∧ drained s 0 b = false ∧ 0 + c.params.drainLim ≤ s.cycle)
    ∧ (let s := onCtx (fun c => { c with drain := some ⟨[0], [0]⟩ }) (sDrain (.draining 0 false) allDrained)
       ∃ c d, ctxOf s 0 = some c ∧ c.drain = some d ∧ ∀ slot ∈ d.blocks, (blockOf s slot).all (drained s slot) = true)
    ∧ (∃ c, ctxOf sHang 0 = some c ∧ c.killed = false ∧ hangs sHang 0 c = true ∧ c.params.hangLim ≤ c.hang
      ∧ dumpHeld sHang 0 c = false ∧ (∀ l ∈ sHang.launches, l.2.ctx = 0 → l.2.fatal = none) ∧ ∃ s' n, dumpGraph sHang 0 c = (s', n)) :=
  ⟨⟨_, _, _, rfl, rfl, rfl, by decide +kernel, rfl, rfl, by decide +kernel⟩, ⟨_, _, rfl, rfl, by decide +kernel⟩,
    ⟨_, rfl, by decide +kernel, by decide +kernel, by decide +kernel, by decide +kernel, by decide +kernel, _, _, rfl⟩⟩

/-- An entry of the overlay table for one line at the start of object 1, its restart table empty behind it. -/
def ovGood : OverlayReg := ⟨3, BitVec.ofNat 512 (2 ^ 166 + 2 ^ 144 + 2 ^ 128) ||| cap1.bits.setWidth 512, true, []⟩
def ovEmpty : OverlayReg := ⟨3, 0, false, []⟩
def sQueues : State :=
  { onCtx (fun c => { c with faultQ := some ⟨0x8000, 4, 0, 5⟩ }) s0 with
    launchQs := [(0, ⟨0, 0x9000, 2, 0, 7, 1, 0, false⟩), (1, ⟨0, 0xA000, 2, 0, 8, 1, 0, false⟩)], bulkQs := [(3, aBulk)] }

theorem witness_ContextsAndOverlaysAreKept :
    (1 < 64 ∧ ctxOf s0 1 = none ∧ 0x20000 % 64 = 0 ∧ 0x20000 + 64 * 16 ≤ 432 * 2 ^ 30 ∧ 0x30000 + 8 * 4096 ≤ 432 * 2 ^ 30)
    ∧ (∃ c, ctxOf s0 0 = some c ∧ quotaKept s0 0 (.istoreQuota 0 0) = true ∧ quotaKept s0 0 (.runOn 1023) = true
      ∧ 1024 ≤ c.params.drainLim / 2 ∧ (s0.contexts.map (·.1)).Pairwise (· < ·))
    ∧ (let e : OvEntry := ⟨ovEmpty.entry, ovEmpty.srcTag⟩; e.valid = false)
    ∧ (let e : OvEntry := ⟨ovGood.entry, ovGood.srcTag⟩
       e.valid = true ∧ e.pub = false ∧ overlayOk s0 0 e ovGood.sig = true ∧ overlayOk s0 0 { e with tag := false } ovGood.sig = false)
    ∧ ((Assoc.get sQueues.launchQs 1).isSome = true ∧ (∀ l ∈ sQueues.launches, l.2.queue ≠ 1)
      ∧ (sQueues.launches.map (·.1)).Pairwise (· < ·) ∧ (Assoc.get sQueues.launchQs 0).isSome = true)
    ∧ (Assoc.get sQueues.bulkQs 3).isSome = true ∧ ((ctxOf sQueues 0).bind Context.faultQ).isSome = true := by
  refine ⟨by decide +kernel, ⟨_, rfl, by decide +kernel⟩, by decide +kernel⟩

/-- Launch 0 has trapped, and firmware replays it once. -/
def sReplay : State :=
  let s := onLaunch (fun l => { l with fatal := some ⟨0x20, 0, [], 0, 0⟩, replayWant := true }) (onBlock (fun b => { b with phase := .retired }) s0)
  { s with service := { s.service with settings := { s.service.settings with replayN := 1 } } }

theorem witness_ReplaysResetAndBoot :
    (∃ l, launchOf sReplay 0 = some l ∧ l.fatal.isSome = true ∧ l.phase = .started ∧ willReplay sReplay l = true
      ∧ launchBusy sReplay 0 = false)
    ∧ s0.service.booted = false := ⟨⟨_, rfl, by decide +kernel⟩, rfl⟩

def sHot (throttled : Bool) (tripped : Option (BitVec 64)) : State :=
  { s0 with cycle := 2000000000, service := { s0.service with power := { s0.service.power with throttled := throttled, tripped := tripped } } }

theorem witness_PowerAndTemperatureLimits :
    56 ≤ 56 ∧ s0.service.settings.plim ≤ s0.service.settings.plim ∧ 95000 ≤ 95000
    ∧ s0.service.settings.tthr ≤ s0.service.settings.tthr ∧ s0.service.power.throttled = false
    ∧ (sHot true none).service.power.throttled = true ∧ 2 + 2 ≤ (sHot true none).service.settings.tthr
    ∧ 110 ≤ 110 ∧ s0.service.power.tripped = none
    ∧ (sHot false (some 0)).service.power.tripped = some 0 ∧ (0 : BitVec 64) + 1000000 ≤ gtsOf (sHot false (some 0)) := by decide +kernel

/-! Management: an event on record, a range to seal and one to rebase. -/

def req0 : Req := ⟨0, 0, 5⟩
def sEvents : State := logEvent s0 1 0 none 0x900 3 4
def sSeal : State := { sMail with launches := [] }
def objectAged : BitVec 512 := object1 ||| BitVec.ofNat 512 (2 ^ 28)
def sAged : State := { s0 with dram := s0.dram.writeNat 0x1040 64 objectAged.toNat }
def aRecord (n : Nat) : ConfigRecord := ⟨.replayN n, 1, 4, Config.vendorKey, []⟩

theorem sealImage_length (s : State) (L skey mkey : Nat) (id : BitVec 64) (step : BitVec 16) (bs : List Byte) :
    (sealImage s false L skey mkey id step 0 bs).length = 65536 := by
  simp [sealImage, sealHeader, leBytes_length, rangeFrom]

theorem sealed_some : (sealTo sSeal 0 1 0 0 0 1 1 0 7).isSome = true := by
  have h1 : ∃ bs, sealSource sSeal 0 1 0 (65536 * 0) = some (sSeal, bs) := ⟨[], by decide +kernel⟩
  obtain ⟨bs, h1⟩ := h1
  have h2 : objEntry sSeal 0 1 = some object1 := by decide +kernel
  have h3 : objAged object1 = false := by decide +kernel
  unfold sealTo
  rw [h1, h2]
  obtain ⟨s', ps, h⟩ := answer_of (x := translateRange sSeal 0 none 1 .cwrite 0 65536) (by decide +kernel)
  have hm : (translateRange sSeal 0 none 1 .cwrite 0 65536).1.migrations = [] := by decide +kernel
  rw [h] at hm
  have hl : ps.find? (fun p => pageLocked s' p.m) = none := by
    rw [List.find?_eq_none]
    intro p _
    simp [pageLocked, migrationAt, show s'.migrations = [] from hm]
  simp only [fwWrite, writeObjRange, h3]
  rw [sealImage_length, h]
  simp only [hl]
  rfl

theorem witness_ManagementRequestsAreServed :
    (let x := sEvents.service
     ∃ e, x.eventsTotal - x.events.length ≤ 0 ∧ 0 < x.eventsTotal ∧ x.events[0 - (x.eventsTotal - x.events.length)]? = some e)
    ∧ (1000000 ≤ s0.service.settings.plimBound ∧ (ctxOf s0 req0.ctx).isSome = true ∧ 4095 < 4096)
    ∧ (Assoc.getD s0.service.counters (settingType (aRecord 1).setting) 0 ≤ (aRecord 1).counter ∧ settingOk (aRecord 1).setting = true)
    ∧ (atBoundary sSeal 0 = true ∧ (ctxOf sSeal 0).isSome = true ∧ keyIs sSeal 0 0 .xts = true ∧ keyIs sSeal 0 1 .hmac = true
      ∧ ∃ s', sealTo sSeal 0 1 0 0 0 1 1 0 7 = some s')
    ∧ (objEntry sAged 0 1 = some objectAged ∧ objAged objectAged = true ∧ (ctxOf sAged 0).isSome = true
      ∧ ∃ s', rebaseTo sAged 0 1 0 8 1 = some s')
    ∧ (1 < 80 ∧ noThreads s0 1 = true) :=
  ⟨⟨_, by decide +kernel, by decide +kernel, rfl⟩, by decide +kernel, by decide +kernel,
    ⟨by decide +kernel, by decide +kernel, by decide +kernel, by decide +kernel, some_of sealed_some⟩,
    ⟨by decide +kernel, by decide +kernel, by decide +kernel, some_of (by decide +kernel)⟩, by decide +kernel⟩

/-! Decoding, a step, and what every step keeps. -/

def aNop : Instr := .nop hd
def anAdd : Instr := .iadd { hd with stall := 0 } 1 (.v 2) (.v 3)

theorem witness_EveryInstructionDecodesFromItsWord : aNop.isCode = true ∧ aNop.wf = true ∧ anAdd.isCode = true ∧ anAdd.wf = true := by
  decide +kernel

theorem witness_DecodedWordsAreEncodings :
    decode (encode anAdd) = .ok anAdd ∧ anAdd.isUdf = false ∧ decode 0xABCD02 = .ok (.udf 0xABCD02) := by decide +kernel

/-- Thread 0 at a line, outside every restart point, the only bundle of partition 0. -/
def atLine (l : Line) (ms : List Move) : State :=
  { onCore (fun c => { c with lines := [(0, l)], restart := [] }) s0 with agenda := ms, bundles := [(0, [[tid0]])] }
/-- A line that links slots 0 and 1, two additions (R61, R62). -/
def pairLine : Line :=
  let w := encode anAdd
  let par : Nat := if oddOnes w then 0 else 0x600
  (withLpar (BitVec.ofNat 32 (0x3800 + par + 0x21))).setWidth 512 <<< 480 ||| w.setWidth 512 <<< 96 ||| w.setWidth 512
def badWord : IWord := 0xFFF

/-- The state in which thread 0 issues from a line. -/
def atIssue (l : Line) : State := begun (atLine l [.issue 0]) []

/-- What the pipes allow partition 0. -/
def pipesOf (l : Line) (js : List Nat) : Option Turn := (turnOfPart (atIssue l) 0).takeAll (atIssue l).cycle l 0 js

theorem issuesNext_line {l : Line} {js : List Nat} {turn : Turn} (h1 : isReady (atIssue l) (cx s0).blk tid0 (cx s0).thr = true)
    (h2 : lineAt (atIssue l) (cx s0).blk tid0 (cx s0).thr = some (0, l)) (h3 : groupAt (cx s0).thr l = js) (h4 : pipesOf l js = some turn)
    (h5 : arrives (issuing (atIssue l) tid0) (cx s0).blk tid0 (cx s0).thr = false)
    (h6 : groupWait (issuing (atIssue l) tid0) (cx s0).blk tid0 (cx s0).thr l = none) :
    IssuesNext (atIssue l) 0 tid0 (cx s0).blk (cx s0).thr 0 l 0 turn where
  gate := by rfl
  groups := show 0 < 2 by decide
  bundle := by rfl
  block := by rfl
  thread := by rfl
  ready := h1
  slot := by rfl
  line := h2
  pipes := by rw [h3]; exact h4
  runs := h5
  board := h6

/-- The machine without a block and outside every refresh window, where nothing issues and nothing is left to do. -/
def sQuiet : State := { State.reset with blocks := [], launches := [], cycle := 4000 }
def nothing (i : Instr) (s : State) : Bool :=
  match exec i s with
  | .next t => t == s
  | _ => false

theorem witness_StepRunsTheDecodedInstruction :
    (let l := lineWith (encode anAdd)
     let s2 := issuing (atIssue l) tid0
     (atLine l [.issue 0]).agenda = .issue 0 :: [] ∧ (∃ turn, IssuesNext (atIssue l) 0 tid0 (cx s0).blk (cx s0).thr 0 l 0 turn)
      ∧ groupAt (cx s0).thr l = [0] ∧ (cx s0).thr.snap = none ∧ atRestart s2 (cx s0).blk tid0 (cx s0).thr 0 = false
      ∧ lineCheck l 0 = none ∧ (coreOf s2 0).slotPoison.has 0 = false ∧ decode (lineSlot l 0) = .ok anAdd
      ∧ registersAllow s2 (cx s0).blk tid0 (cx s0).thr (lineSlot l 0) anAdd)
    ∧ (let l := lineWith badWord
       let s2 := issuing (atIssue l) tid0
       (∃ turn, IssuesNext (atIssue l) 0 tid0 (cx s0).blk (cx s0).thr 0 l 0 turn) ∧ groupAt (cx s0).thr l = [0]
        ∧ atRestart s2 (cx s0).blk tid0 (cx s0).thr 0 = false ∧ lineCheck l 0 = none ∧ decode (lineSlot l 0) = .bad .unassigned)
    ∧ (let s2 := issuing (atIssue pairLine) tid0
       (∃ turn, IssuesNext (atIssue pairLine) 0 tid0 (cx s0).blk (cx s0).thr 0 pairLine 0 turn)
        ∧ groupAt (cx s0).thr pairLine = 0 :: [1]
        ∧ laterWait (enterGroup s2 tid0 (cx s0).blk (cx s0).thr (atRestart s2 (cx s0).blk tid0 (cx s0).thr 0) [0, 1]) tid0 (cx s0).blk
            (cx s0).thr 0 pairLine [1] = none
        ∧ outcomeAt s2 (cx s0).blk tid0 (cx s0).thr 0 pairLine false 0 = .ok anAdd)
    ∧ (Instr.stgfullTimeout tid0).isCode = false
    ∧ (let s := begun (atLine (lineWith (encode anAdd)) []) []
       (partsOf s).find? (fun p => (issuePart s p).isSome) = some 0)
    ∧ (partsOf (begun sQuiet []) = [] ∧ (ownEvents (begun sQuiet [])).all (fun i => nothing i (begun sQuiet [])) = true) := by
  refine ⟨⟨rfl, ⟨(pipesOf (lineWith (encode anAdd)) [0]).getD ⟨false, 0, 0, 0, 0, 0⟩, issuesNext_line (js := [0]) ?_ ?_ ?_ ?_ ?_ ?_⟩, ?_, ?_, ?_, ?_, ?_, ?_, ?_⟩,
    ⟨⟨(pipesOf (lineWith badWord) [0]).getD ⟨false, 0, 0, 0, 0, 0⟩, issuesNext_line (js := [0]) ?_ ?_ ?_ ?_ ?_ ?_⟩, ?_, ?_, ?_, ?_⟩,
    ⟨⟨(pipesOf pairLine [0, 1]).getD ⟨false, 0, 0, 0, 0, 0⟩, issuesNext_line ?_ ?_ (js := [0, 1]) ?_ ?_ ?_ ?_⟩, ?_, ?_, ?_⟩, rfl, ?_, ?_⟩
  all_goals first | decide +kernel | (unfold registersAllow; decide +kernel)

def goesOn : Out → Bool
  | .next _ => true
  | _ => false

theorem goes_of {x : Out} (h : goesOn x = true) : ∃ s', x = .next s' := by
  cases x <;> first | exact ⟨_, rfl⟩ | exact absurd h (fun h => nomatch h)

theorem witness_EveryStepKeepsMemoryCanonical : memoryWf s0 ∧ ∃ t, step s0 = .next t := ⟨wf0, goes_of (by decide +kernel)⟩

/-- An instruction placed where the step fetches runs: v2 takes the sum of v2 and 1. -/
theorem test_withFetchWord_runs :
    (match step (State.reset.withFetchWord 96 (encode (.iadd hd 2 (.v 2) (.intc 1))).toNat) with
     | .next s => (threadOf s tid0).map (fun t => t.vreg 2)
     | _ => none) = some 1 := by decide +kernel

end Sys2Proof.Machine.Tests
end

section
/-! SUPPORT. Laws of the special registers (R20 to R25): what SRD answers for each kind of index, what SWR answers, and
what the two change of their thread. -/

namespace Sys2Proof.Machine

open Sys2Proof

/-! ### The values read -/

/-- A property of a block's launch is the launch's own. -/
theorem launchFlag_of_launchOf {s : State} {b : Block} {l : Launch} (hl : launchOf s b.launch = some l)
    (f : Launch → Bool) : launchFlag s b f = f l := by
  simp [launchFlag, hl]

/-- A word of the scale generators that has landed reads as it is held (R24, R83). -/
theorem rdSgen_landed {s : State} {t : Thread} {k : Nat} (hk : k < 16)
    (he : t.view.early s.cycle (sgenByte k) = false) : rdSgen s t k = t.view.sgen[k] := by
  simp [rdSgen, he, hk]

/-- Index 0x20 + 4k + w is word w of SGENk (R25). -/
theorem specialWord_sgen (s : State) (x : Cx) {k : Nat} (hk : k < 16) :
    specialWord s x (0x20 + k) = rdSgen s x.thr k := by
  interval_cases k <;> rfl

/-! ### The bits written -/

/-- FPX takes bits [5:0] of what SWR writes (R20). -/
theorem writeFpx_fpx_toNat (now : Nat) (t : Thread) (v : Word) : (writeFpx now t v).fpx.toNat = v.toNat % 64 :=
  (BitVec.toNat_append 0#2 (v.extractLsb' 0 6)).trans (by simp)

/-- The bits of an SGEN word that SWR writes are the low ones, as many as Table 1.4 gives. -/
theorem sgenMask_toNat (w : Nat) :
    (sgenMask w).toNat = 2 ^ (if w = 2 then 24 else if w = 3 then 5 else 32) - 1 := by
  unfold sgenMask; split_ifs <;> rfl

theorem toNat_and_sgenMask (v : Word) (w : Nat) :
    (v &&& sgenMask w).toNat = v.toNat % 2 ^ (if w = 2 then 24 else if w = 3 then 5 else 32) := by
  rw [BitVec.toNat_and, sgenMask_toNat, Nat.and_two_pow_sub_one_eq_mod]

/-! ### What SRD and SWR keep of their thread -/

theorem Kept.latches {c : Touch} {u w : Thread} (k : Kept c u w) (hc : Part.latches ∈ c.parts) (clkh gtsh : Word) :
    Kept c u { w with clkh := clkh, gtsh := gtsh } where
  v := k.v
  p := k.p
  a := k.a
  parts q h1 h2 := by
    cases q
    case latches => exact absurd hc h1
    all_goals exact k.parts _ h1 h2

theorem Kept.writeFpx {c : Touch} {u w : Thread} (k : Kept c u w) (hc : Part.fpx ∈ c.parts) (now : Nat) (v : Word) :
    Kept c u (writeFpx now w v) where
  v := k.v
  p := k.p
  a := k.a
  parts q h1 h2 := by
    cases q
    case fpx => exact absurd hc h1
    all_goals exact k.parts _ h1 h2

/-- A write of the scale generators sets a landing mark too, which is no part of its own (R83). -/
theorem Kept.sgen {c : Touch} {u w : Thread} (k : Kept c u w) (hc : Part.sgen ∈ c.parts) (g : Vector Word 16)
    (lat : List (BitVec 8 × Nat)) : Kept c u { w with sgen := g, lat := lat } where
  v := k.v
  p := k.p
  a := k.a
  parts q h1 h2 := by
    cases q
    case sgen => exact absurd hc h1
    all_goals exact k.parts _ h1 h2

/-! ### What SRD answers -/

variable {h : Hdr} {d : VReg} {idx : BitVec 8} {s : State} {x : Cx}

/-- The indices that SRD does not read with the integer latency (R22): the clocks and their latches, FPX and REFWIN. -/
def slowSpecials : List Nat := [0x10, 0x11, 0x12, 0x13, 0x19, 0x1B]

/-- SRD of every other index writes its destination and goes on. -/
theorem exec_srd_ready (he : Executes h s x) (hn : idx.toNat ∉ slowSpecials) :
    exec (.srd h d idx) s = goOn h s x (wrV s.cycle x.thr d (specialWord s x idx.toNat) 2) := by
  rw [exec_srd, execSrd, guarded_true he.1 he.2]
  simp only [slowSpecials, List.mem_cons, List.not_mem_nil, or_false, not_or] at hn
  obtain ⟨clk, clkh, gtsl, gtsh, fpx, refwin⟩ := hn
  split
  case h_1 e => exact absurd e clk
  case h_2 e => exact absurd e clkh
  case h_3 e => exact absurd e gtsl
  case h_4 e => exact absurd e gtsh
  case h_5 e => exact absurd e refwin
  case h_6 e => exact absurd e fpx
  case h_7 => rfl

theorem srd_writes {n : Nat} {val : Word} (he : Executes h s x) (hslow : n ∉ slowSpecials)
    (hval : specialWord s x n = val) (hn : idx.toNat = n) : WritesV (.srd h d idx) s x h d (fun v => v = val) := by
  subst hn
  refine intOp_writes (f := fun _ => specialWord s x idx.toNat) he ?_ hval
  rw [exec_srd_ready he hslow, intOp, guarded_true he.1 he.2]

/-- A read of a clock sends its low half and sets the latch of its high half (R23). -/
theorem goes_clock {i : Instr} {clkh gtsh : Word} {p : Pend} {post : Thread → Prop} (he : Executes h s x)
    (hi : exec i s = goOnPend h s x { x.thr with clkh := clkh, gtsh := gtsh } p)
    (hp : ∀ w : Thread, w.clkh = clkh → w.gtsh = gtsh → post w) :
    Goes i s x h { parts := [.pend, .latches] } (fun w => w.pend = x.thr.pend ++ [p] ∧ post w) :=
  goes_goOn he hi rfl (((Kept.refl _ x.thr).latches (by simp) clkh gtsh).pend (by simp) _) ⟨rfl, hp _ rfl rfl⟩

theorem exec_srd_clk (he : Executes h s x) (hn : idx.toNat = 0x10) :
    exec (.srd h d idx) s = goOnPend h s x { x.thr with clkh := (clkOf s x.coreId).extractLsb' 32 32 }
      (pendVals [(d, (clkOf s x.coreId).extractLsb' 0 32, false)]) := by
  rw [exec_srd, execSrd, guarded_true he.1 he.2]
  simp only [hn]

theorem exec_srd_gtsl (he : Executes h s x) (hn : idx.toNat = 0x12) :
    exec (.srd h d idx) s = goOnPend h s x { x.thr with gtsh := (gtsOf s).extractLsb' 32 32 }
      (pendVals [(d, (gtsOf s).extractLsb' 0 32, false)]) := by
  rw [exec_srd, execSrd, guarded_true he.1 he.2]
  simp only [hn]

theorem exec_srd_clkh (he : Executes h s x) (hn : idx.toNat = 0x11) :
    exec (.srd h d idx) s = goOnPend h s x x.thr (pendVals [(d, x.thr.view.clkh, false)]) := by
  rw [exec_srd, execSrd, guarded_true he.1 he.2]
  simp only [hn]

theorem exec_srd_gtsh (he : Executes h s x) (hn : idx.toNat = 0x13) :
    exec (.srd h d idx) s = goOnPend h s x x.thr (pendVals [(d, x.thr.view.gtsh, false)]) := by
  rw [exec_srd, execSrd, guarded_true he.1 he.2]
  simp only [hn]

theorem exec_srd_refwin (he : Executes h s x) (hn : idx.toNat = 0x1B) :
    exec (.srd h d idx) s
      = goOnPend h s x x.thr (pendVals [(d, refwin s (x.blk.cluster / Config.clustersPerDie), false)]) := by
  rw [exec_srd, execSrd, guarded_true he.1 he.2]
  simp only [hn]

/-- SRD of FPX waits for the updates still to come, and then sends FPX with its poison (R21, R421). -/
theorem exec_srd_fpx (he : Executes h s x) :
    exec (.srd h d 0x19) s = if fpxBusy s.cycle x.thr then waitAt s x (.stalled .fpx)
      else goOnPend h s x x.thr (pendVals [(d, x.thr.fpx.setWidth 32, x.thr.poisonF)]) := by
  rw [exec_srd, execSrd, guarded_true he.1 he.2]
  rfl

/-! ### What SWR answers -/

variable {a : RC}

/-- SWR of FPX waits for the updates still to come, and then writes (R21). -/
theorem exec_swr_fpx (he : Executes h s x) :
    exec (.swr h 0x19 a) s = if fpxBusy s.cycle x.thr then waitAt s x (.stalled .fpx)
      else goOn h s x (writeFpx s.cycle x.thr (rc32 s x.thr a)) := by
  rw [exec_swr, execSwr, guarded_true he.1 he.2]
  rfl

theorem exec_swr_sgen (he : Executes h s x) {k : Nat} (hk : k < 16) (hn : idx.toNat = 0x20 + k) :
    exec (.swr h idx a) s = goOn h s x { x.thr with
      sgen := x.thr.sgen.set k (rc32 s x.thr a &&& sgenMask (k % 4)) hk
      lat := landAt x.thr.lat (sgenByte k) (s.cycle + 2) } := by
  have hne : idx ≠ 0x19 := fun e => by simp [e] at hn; omega
  rw [exec_swr, execSwr, guarded_true he.1 he.2]
  simp only [if_neg hne, hn, Nat.add_sub_cancel_left, dif_pos hk]

end Sys2Proof.Machine
end

section
/-! PROOF. The special registers read and written (O9). -/

namespace Sys2Proof.Machine

open Sys2Proof

/-- SRD of every index of Table 1.5. -/
theorem specialRegistersRead : Claims.SpecialRegistersRead := by
  intro h d idx s x he i wave now later clock clk gts
  have ready {n : Nat} {val : Word} (hslow : n ∉ slowSpecials) (hval : specialWord s x n = val) : now n val :=
    srd_writes he hslow hval
  refine ⟨⟨?_, ?_, ?_⟩, ⟨?_, ?_, ?_⟩, ⟨?_, ?_, ?_⟩, ⟨?_, ?_, ?_, ?_, ?_⟩, ?step, ?_, ?modes, ?sgen, ?clk, ?gtsl, ?clkh,
    ?gtsh, ?refwin, ?_, ?fpx, ?fpxBusy⟩
  case step => exact fun c hc => ready (by decide) (by simp [specialWord, hc])
  case modes =>
    exact fun l hl => ⟨ready (by decide) (by simp [specialWord, detOf, launchFlag_of_launchOf hl]),
      ready (by decide) (by simp [specialWord, chkOf, launchFlag_of_launchOf hl])⟩
  case sgen =>
    intro k hk landed
    refine ready ?_ ((specialWord_sgen s x hk).trans (rdSgen_landed hk landed))
    simp only [slowSpecials, List.mem_cons, List.not_mem_nil, or_false]
    omega
  case clk => exact fun hn => goes_clock he (exec_srd_clk he hn) fun _ hc hg => ⟨hc, hg⟩
  case gtsl => exact fun hn => goes_clock he (exec_srd_gtsl he hn) fun _ hc hg => ⟨hg, hc⟩
  case clkh => exact fun hn => goOnPend_sends he (exec_srd_clkh he hn)
  case gtsh => exact fun hn => goOnPend_sends he (exec_srd_gtsh he hn)
  case refwin => exact fun hn => goOnPend_sends he (exec_srd_refwin he hn)
  case fpx =>
    rintro idle rfl
    exact goOnPend_sends he ((exec_srd_fpx he).trans (if_neg (by simp [idle])))
  case fpxBusy =>
    rintro busy rfl
    exact waits_waitAt he.1 ((exec_srd_fpx he).trans (if_pos busy))
  all_goals exact ready (by decide) rfl

/-- SWR of FPX and of every word of the scale generators. -/
theorem specialRegistersWritten : Claims.SpecialRegistersWritten := by
  intro h idx a s x he i v
  refine ⟨?fpx, ?fpxBusy, ?sgen⟩
  case fpx =>
    rintro rfl idle
    exact goes_goOn he ((exec_swr_fpx he).trans (if_neg (by simp [idle]))) rfl
      ((Kept.refl _ x.thr).writeFpx (by simp) s.cycle v) (writeFpx_fpx_toNat s.cycle x.thr v)
  case fpxBusy =>
    rintro rfl busy
    exact waits_waitAt he.1 ((exec_swr_fpx he).trans (if_pos busy))
  case sgen =>
    intro k hk hn
    refine goes_goOn he (exec_swr_sgen he hk hn) rfl ((Kept.refl _ x.thr).sgen (by simp) _ _) ⟨?_, fun j hj hne => ?_⟩
    · exact (congrArg BitVec.toNat (Vector.getElem_set_self hk)).trans (toNat_and_sgenMask v (k % 4))
    · exact Vector.getElem_set_ne hk hj hne.symm

end Sys2Proof.Machine

/-- Settles O9, index by index: SRD of a register with the integer latency is an `intOp`, the clocks, their latches, REFWIN
and FPX send their value, and SWR ends in a change of its own thread. -/
theorem specialRegistersReadAndWritten : Obligations.SpecialRegistersReadAndWritten :=
  ⟨Sys2Proof.Machine.specialRegistersRead, Sys2Proof.Machine.specialRegistersWritten⟩
end

section
/-! SUPPORT. Laws of rounding (R41, R46): what RoundInt returns about an exact magnitude, that `roundAt` is RoundInt of the
value in units of the last kept bit, and what Round delivers where it neither overflows nor flushes. -/

namespace Sys2Proof.Machine

open Sys2Proof

theorem pow2_cast {n : Int} (hn : 0 ≤ n) : (pow2 n : ℚ) = (2 : ℚ) ^ n := by
  obtain ⟨k, rfl⟩ := Int.eq_ofNat_of_zero_le hn
  simp [pow2]

/-! ### RoundInt -/

/-- The modes in which a magnitude never grows, by the sign of the value (R41). -/
def Rnd.down : Rnd → Bool → Bool
  | .rn, _ => false
  | .rz, _ => true
  | .ru, neg => neg
  | .rd, neg => !neg

/-- The modes in which a magnitude never shrinks, by the sign of the value (R41). -/
def Rnd.up : Rnd → Bool → Bool
  | .rn, _ => false
  | .rz, _ => false
  | .ru, neg => !neg
  | .rd, neg => neg

/-- What R46 asks of RoundInt(z, mode, neg), apart from the even integer on a tie. -/
structure IsRoundInt (mode : Rnd) (neg : Bool) (z : ℚ) (y : ℕ) : Prop where
  dist_lt : |(y : ℚ) - z| < 1
  le_of_down : mode.down neg = true → (y : ℚ) ≤ z
  ge_of_up : mode.up neg = true → z ≤ y
  nearest : mode = .rn → 2 * |(y : ℚ) - z| ≤ 1

variable {mode : Rnd} {neg : Bool}

theorem isRoundInt_natCast (y : ℕ) : IsRoundInt mode neg y y := by
  constructor <;> simp

/-- The integer below is a RoundInt where the mode does not ask for the other one. -/
theorem isRoundInt_floor {y : ℕ} {t : ℚ} (h0 : 0 ≤ t) (h1 : t < 1) (hup : mode.up neg = true → t = 0)
    (hrn : mode = .rn → 2 * t ≤ 1) : IsRoundInt mode neg (y + t) y := by
  have hd : |(y : ℚ) - (y + t)| = t := by rw [sub_add_cancel_left, abs_neg, abs_of_nonneg h0]
  exact ⟨hd.symm ▸ h1, fun _ => by linarith, fun h => by rw [hup h, add_zero], fun h => hd.symm ▸ hrn h⟩

/-- The integer above is a RoundInt where the mode does not ask for the other one. -/
theorem isRoundInt_ceil {y : ℕ} {t : ℚ} (h0 : 0 < t) (h1 : t < 1) (hdown : mode.down neg = false)
    (hrn : mode = .rn → 1 ≤ 2 * t) : IsRoundInt mode neg (y + t) (y + 1 : ℕ) := by
  have hd : |((y + 1 : ℕ) : ℚ) - (y + t)| = 1 - t := by
    rw [Nat.cast_succ, add_sub_add_left_eq_sub, abs_of_nonneg (by linarith)]
  exact ⟨by linarith, fun h => by simp [hdown] at h, fun _ => by push_cast; linarith,
    fun h => by linarith [hrn h]⟩

/-- An integer has no RoundInt but itself. -/
theorem IsRoundInt.eq_of_natCast {z y : ℕ} (h : IsRoundInt mode neg z y) : y = z := by
  have hlt : |(y : ℤ) - z| < 1 := by exact_mod_cast h.dist_lt
  have heq := Int.abs_lt_one_iff.mp hlt
  omega

theorem isRoundInt_roundShift (m k : ℕ) : IsRoundInt mode neg (m / 2 ^ k) (roundShift m k mode neg) := by
  have hpos : (0 : ℚ) < 2 ^ k := by positivity
  have hdiv : (m : ℚ) / 2 ^ k = (m >>> k : ℕ) + (m % 2 ^ k : ℕ) / 2 ^ k := by
    rw [Nat.shiftRight_eq_div_pow, div_eq_iff hpos.ne', add_mul, div_mul_cancel₀ _ hpos.ne']
    exact_mod_cast (Nat.div_add_mod' m (2 ^ k)).symm
  have hlt : m % 2 ^ k < 2 ^ k := Nat.mod_lt _ (by positivity)
  rw [hdiv]
  unfold roundShift
  generalize m >>> k = y at *
  generalize m % 2 ^ k = r at *
  have h0 : (0 : ℚ) ≤ r / 2 ^ k := by positivity
  have h1 : (r : ℚ) / 2 ^ k < 1 := by rw [div_lt_one hpos]; exact_mod_cast hlt
  have hzero (h : r = 0) : (r : ℚ) / 2 ^ k = 0 := by simp [h]
  have hne (h : r ≠ 0) : (0 : ℚ) < r / 2 ^ k := by positivity
  have hhalf (h : 2 * r ≤ 2 ^ k) : 2 * ((r : ℚ) / 2 ^ k) ≤ 1 := by
    rw [← mul_div_assoc, div_le_one hpos]; exact_mod_cast h
  have hhalf' (h : 2 ^ k ≤ 2 * r) : 1 ≤ 2 * ((r : ℚ) / 2 ^ k) := by
    rw [← mul_div_assoc, one_le_div hpos]; exact_mod_cast h
  cases mode with
  | rn =>
    dsimp only
    split
    · have hr : 2 ^ k ≤ 2 * r := by omega
      exact isRoundInt_ceil (by linarith [hhalf' hr]) h1 rfl fun _ => hhalf' hr
    · exact isRoundInt_floor h0 h1 nofun fun _ => hhalf (by omega)
  | rz => exact isRoundInt_floor h0 h1 nofun nofun
  | ru =>
    dsimp only
    split
    next h => exact isRoundInt_floor h0 h1 (fun hup => hzero (h.resolve_left (by simpa [Rnd.up] using hup))) nofun
    next h =>
      obtain ⟨hn, hr⟩ := not_or.mp h
      exact isRoundInt_ceil (hne hr) h1 (by simpa [Rnd.down] using hn) nofun
  | rd =>
    dsimp only
    split
    next h => exact isRoundInt_ceil (hne h.2) h1 (by simp [Rnd.down, h.1]) nofun
    next h => exact isRoundInt_floor h0 h1 (fun hup => hzero (by_contra fun hr => h ⟨hup, hr⟩)) nofun

theorem roundShift_eq_iff (m k : ℕ) : (roundShift m k mode neg : ℚ) = m / 2 ^ k ↔ m % 2 ^ k = 0 := by
  constructor
  · intro h
    rw [eq_div_iff (by positivity)] at h
    have hm : roundShift m k mode neg * 2 ^ k = m := by exact_mod_cast h
    rw [← hm, Nat.mul_mod_left]
  · intro h
    obtain ⟨z, rfl⟩ := Nat.dvd_of_mod_eq_zero h
    have hz : ((2 ^ k * z : ℕ) : ℚ) / 2 ^ k = z := by push_cast; field_simp
    have hy := isRoundInt_roundShift (mode := mode) (neg := neg) (2 ^ k * z) k
    rw [hz] at hy ⊢
    rw [hy.eq_of_natCast]

/-! ### The value in units of 2^q -/

theorem div_two_pow_eq_mul_zpow {e q : ℤ} (h : ¬e ≥ q) (m : ℕ) :
    (m : ℚ) / 2 ^ (q - e).toNat = m * (2 : ℚ) ^ (e - q) := by
  rw [div_eq_mul_inv, ← zpow_natCast, ← zpow_neg, Int.toNat_of_nonneg (by omega), neg_sub]

theorem natCast_mul_pow2 {e q : ℤ} (h : e ≥ q) (m : ℕ) :
    ((m * pow2 (e - q) : ℕ) : ℚ) = m * (2 : ℚ) ^ (e - q) := by
  rw [Nat.cast_mul, pow2_cast (sub_nonneg.mpr h)]

/-- `roundAt` is RoundInt of m × 2^e / 2^q. -/
theorem isRoundInt_roundAt (m : ℕ) (e q : ℤ) :
    IsRoundInt mode neg (m * (2 : ℚ) ^ (e - q)) (roundAt m e q mode neg).1 := by
  unfold roundAt
  split
  next h => exact natCast_mul_pow2 h m ▸ isRoundInt_natCast _
  next h => exact div_two_pow_eq_mul_zpow h m ▸ isRoundInt_roundShift m _

/-- `roundAt` answers true where nothing was rounded. -/
theorem roundAt_exact_iff (m : ℕ) (e q : ℤ) :
    (roundAt m e q mode neg).2 = true ↔ ((roundAt m e q mode neg).1 : ℚ) = m * (2 : ℚ) ^ (e - q) := by
  unfold roundAt
  split
  next h => simp [natCast_mul_pow2 h m]
  next h => rw [← div_two_pow_eq_mul_zpow h m, roundShift_eq_iff, pow2, beq_iff_eq]

/-! ### Round -/

/-- The weight of the last kept bit of m × 2^e in a format (R46). -/
def FF.lastBit (f : FF) (m : ℕ) (e : ℤ) : ℤ := max ((Nat.log2 m : ℤ) + e) f.emin - f.fb

/-- A magnitude is below 2^p in units of its last kept bit, so no RoundInt of it is above 2^p. -/
theorem roundAt_lastBit_le (f : FF) (m : ℕ) (e : ℤ) :
    (roundAt m e (f.lastBit m e) mode neg).1 ≤ 2 ^ (f.fb + 1) := by
  have hz : (m : ℚ) * 2 ^ (e - f.lastBit m e) < 2 ^ (f.fb + 1) :=
    calc (m : ℚ) * 2 ^ (e - f.lastBit m e)
        < 2 ^ (Nat.log2 m + 1) * 2 ^ (e - f.lastBit m e) := by
          gcongr
          exact_mod_cast Nat.lt_log2_self
      _ = (2 : ℚ) ^ ((Nat.log2 m + 1 : ℕ) + (e - f.lastBit m e)) := by
          rw [zpow_add₀ two_ne_zero, zpow_natCast]
      _ ≤ (2 : ℚ) ^ ((f.fb + 1 : ℕ) : ℤ) := by
          apply zpow_le_zpow_right₀ one_le_two
          unfold FF.lastBit
          push_cast
          omega
      _ = 2 ^ (f.fb + 1) := zpow_natCast _ _
  have hy := (abs_lt.mp (isRoundInt_roundAt (mode := mode) (neg := neg) m e (f.lastBit m e)).dist_lt).2
  have hlt : ((roundAt m e (f.lastBit m e) mode neg).1 : ℚ) < 2 ^ (f.fb + 1) + 1 := by linarith
  exact Nat.lt_succ_iff.mp (by exact_mod_cast hlt)

/-- The flags of a rounding that does not overflow hold IX where it was not exact. -/
theorem roundFlags_and_ix (tiny exact : Bool) :
    (flagIf (!exact) flagIX ||| flagIf (tiny && !exact) flagUF) &&& flagIX = 0 ↔ exact = true := by
  cases tiny <;> cases exact <;> decide

/-- An overflow raises OF. -/
theorem overflow_and_of (f : FF) (mode : Rnd) (neg : Bool) : (overflow f mode neg).2 &&& flagOF ≠ 0 := by
  simp [overflow, flagOF, flagIX]

/-- What Round without FTZ answers on a finite non-zero value where it raises no OF: the RoundInt in units of the last kept
bit, whose exponent is dropped with a zero, and IX where that is not exact. -/
theorem roundTo_finite {f : FF} {n n' : Bool} {m m' : ℕ} {e e' : ℤ} {fl : Flags} (hm : m ≠ 0)
    (h : roundTo f mode false (.fin n m e) = (.fin n' m' e', fl)) (hof : fl &&& flagOF = 0) :
    let y := roundAt m e (f.lastBit m e) mode n
    n' = n ∧ m' = y.1 ∧ (m' ≠ 0 → e' = f.lastBit m e) ∧ (fl &&& flagIX = 0 ↔ y.2 = true) := by
  simp only [roundTo, roundCap, if_neg hm, Bool.false_and, Bool.false_eq_true, if_false, Bool.true_and] at h
  change (if ltDyadic f.maxM f.maxE (roundAt m e (f.lastBit m e) mode n).1 (f.lastBit m e) = true then _ else _) = _ at h
  split at h
  · have hfl : (overflow f mode n).2 = fl := congrArg Prod.snd h
    exact absurd hof (hfl ▸ overflow_and_of f mode n)
  · split at h
    next h0 =>
      simp only [Prod.mk.injEq, Num.fin.injEq] at h
      obtain ⟨⟨rfl, rfl, rfl⟩, rfl⟩ := h
      exact ⟨rfl, h0.symm, by simp, roundFlags_and_ix _ _⟩
    next =>
      simp only [Prod.mk.injEq, Num.fin.injEq] at h
      obtain ⟨⟨rfl, rfl, rfl⟩, rfl⟩ := h
      exact ⟨rfl, rfl, fun _ => rfl, roundFlags_and_ix _ _⟩

/-! ### The value rounded -/

/-- A finite number as a signed count of units of 2^q. -/
theorem numVal_units (n : Bool) (m : ℕ) (e q : ℤ) :
    numVal (.fin n m e) = (if n then -1 else 1) * (m * (2 : ℚ) ^ (e - q) * 2 ^ q) := by
  rw [numVal, mul_assoc, mul_assoc, ← zpow_add₀ two_ne_zero, sub_add_cancel]

/-- The exponent that a zero is written with has no say in its value. -/
theorem numVal_congr_exp {n : Bool} {m : ℕ} {e q : ℤ} (h : m ≠ 0 → e = q) :
    numVal (.fin n m e) = (if n then -1 else 1) * (m * 2 ^ q) := by
  by_cases hm : m = 0
  · simp [numVal, hm]
  · rw [numVal, h hm, mul_assoc]

section

variable {n : Bool} {m y : ℕ} {e e' q : ℤ}

/-- The error of a rounding is the error in units of 2^q, scaled. -/
theorem numVal_dist (he : y ≠ 0 → e' = q) :
    |numVal (.fin n y e') - numVal (.fin n m e)| = |(y : ℚ) - m * 2 ^ (e - q)| * 2 ^ q := by
  have hw : (0 : ℚ) < 2 ^ q := by positivity
  rw [numVal_units n m e q, numVal_congr_exp he, ← mul_sub, ← sub_mul, abs_mul, abs_mul, abs_of_pos hw]
  cases n <;> simp

/-- A magnitude and its RoundInt with the sign put back lie on the side that the mode asks for. -/
theorem IsRoundInt.numVal_sides (h : IsRoundInt mode n (m * (2 : ℚ) ^ (e - q)) y) (he : y ≠ 0 → e' = q) :
    let x := numVal (.fin n m e)
    let r := numVal (.fin n y e')
    (mode = .rz → |r| ≤ |x|) ∧ (mode = .ru → x ≤ r) ∧ (mode = .rd → r ≤ x) := by
  intro x r
  have hx : x = _ := numVal_units n m e q
  have hr : r = _ := numVal_congr_exp he
  have hw : (0 : ℚ) < 2 ^ q := by positivity
  have hle (hd : mode.down n = true) := mul_le_mul_of_nonneg_right (h.le_of_down hd) hw.le
  have hge (hu : mode.up n = true) := mul_le_mul_of_nonneg_right (h.ge_of_up hu) hw.le
  rw [hx, hr]
  refine ⟨?rz, ?ru, ?rd⟩
  case rz =>
    rintro rfl
    have habs (a : ℚ) (ha : 0 ≤ a) : |(if n then -1 else 1) * a| = a := by cases n <;> simp [abs_of_nonneg ha]
    rw [habs _ (by positivity), habs _ (by positivity)]
    exact hle rfl
  case ru =>
    rintro rfl
    cases n with
    | false => simpa using hge rfl
    | true => simpa using hle rfl
  case rd =>
    rintro rfl
    cases n with
    | false => simpa using hle rfl
    | true => simpa using hge rfl

end

end Sys2Proof.Machine
end

section
/-! SUPPORT. Laws of the encodings (R33, R35): a code is its three fields, what they decode to, and what each kind of value
encodes to. -/

namespace Sys2Proof.Machine

open Sys2Proof

/-- The sign as an encoding holds it. -/
def FF.signBit (f : FF) (n : Bool) : ℕ := if n then 2 ^ (f.eb + f.fb) else 0

theorem FF.encode_inf (f : FF) (n : Bool) : f.encode (.inf n) = f.signBit n + (2 ^ f.eb - 1) * 2 ^ f.fb := rfl

/-- A significand without the hidden bit, at the smallest exponent, stands for itself in the fraction field. -/
theorem FF.encode_subnormal (f : FF) (n : Bool) {fr : ℕ} (hfr : fr < 2 ^ f.fb) :
    f.encode (.fin n fr f.qmin) = f.signBit n + fr := by
  by_cases h0 : fr = 0
  · simp [FF.encode, FF.signBit, h0]
  · have hlog : Nat.log2 fr < f.fb := (Nat.log2_lt h0).mpr hfr
    have hex : (Nat.log2 fr : ℤ) + f.qmin < f.emin := by unfold FF.qmin; omega
    simp [FF.encode, FF.signBit, h0, hex, pow2]

/-- A significand with the hidden bit gives its exponent and its fraction field. -/
theorem FF.encode_normal (f : FF) (n : Bool) {ef fr : ℕ} (hef : ef ≠ 0) (hfr : fr < 2 ^ f.fb) :
    f.encode (.fin n (fr + 2 ^ f.fb) (f.qmin + ef - 1)) = f.signBit n + ef * 2 ^ f.fb + fr := by
  have h0 : fr + 2 ^ f.fb ≠ 0 := by positivity
  have hlog : Nat.log2 (fr + 2 ^ f.fb) = f.fb := (Nat.log2_eq_iff h0).mpr ⟨by omega, by rw [pow_succ]; omega⟩
  have hex : (f.fb : ℤ) + (f.qmin + ef - 1) = f.emin + (ef - 1) := by unfold FF.qmin; omega
  have hnormal : ¬ f.emin + ((ef : ℤ) - 1) < f.emin := by omega
  have hq : f.emin + ((ef : ℤ) - 1) - f.fb = f.qmin + ef - 1 := by unfold FF.qmin; omega
  have hfield : (f.emin + ((ef : ℤ) - 1) - f.emin + 1).toNat = ef := by omega
  simp only [FF.encode, FF.signBit, if_neg h0, hlog, hex, if_neg hnormal, hq, hfield, le_refl, ge_iff_le, if_true, sub_self,
    pow2, Int.toNat_zero, pow_zero, mul_one, Nat.add_sub_cancel]

/-! ### Decoding -/

/-- The sign of a code (R33). -/
def FF.codeSign (f : FF) (c : ℕ) : Bool := (c >>> (f.eb + f.fb)) % 2 = 1

/-- The exponent field of a code (R33). -/
def FF.codeExp (f : FF) (c : ℕ) : ℕ := (c >>> f.fb) % 2 ^ f.eb

/-- The fraction field of a code (R33). -/
def FF.codeFrac (f : FF) (c : ℕ) : ℕ := c % 2 ^ f.fb

theorem FF.codeFrac_lt (f : FF) (c : ℕ) : f.codeFrac c < 2 ^ f.fb := Nat.mod_lt _ (by positivity)

/-- A code is its three fields. -/
theorem FF.fields_eq (f : FF) {c : ℕ} (hc : c < 2 ^ (1 + f.eb + f.fb)) :
    f.signBit (f.codeSign c) + f.codeExp c * 2 ^ f.fb + f.codeFrac c = c := by
  have htop : c >>> (f.eb + f.fb) = c >>> f.fb / 2 ^ f.eb := by
    rw [add_comm, Nat.shiftRight_add, Nat.shiftRight_eq_div_pow (c >>> f.fb)]
  have hlt : c >>> f.fb / 2 ^ f.eb < 2 := by
    rw [← htop, Nat.shiftRight_eq_div_pow, Nat.div_lt_iff_lt_mul (by positivity), ← pow_succ']
    exact lt_of_lt_of_eq hc (by ring)
  have hsign : f.signBit (f.codeSign c) = c >>> f.fb / 2 ^ f.eb * 2 ^ f.eb * 2 ^ f.fb := by
    rw [FF.signBit, FF.codeSign, htop, Nat.mod_eq_of_lt hlt, mul_assoc, ← pow_add]
    interval_cases c >>> f.fb / 2 ^ f.eb <;> simp
  rw [hsign, ← add_mul, FF.codeExp, Nat.div_add_mod', FF.codeFrac, Nat.shiftRight_eq_div_pow, Nat.div_add_mod']

/-- What a code decodes to: a NaN, an infinity, or a significand without or with the hidden bit. -/
theorem FF.decode_cases (f : FF) (c : ℕ) :
    f.decode c = .nan
    ∨ (f.codeExp c = 2 ^ f.eb - 1 ∧ f.codeFrac c = 0 ∧ f.decode c = .inf (f.codeSign c))
    ∨ (f.codeExp c = 0 ∧ f.decode c = .fin (f.codeSign c) (f.codeFrac c) f.qmin)
    ∨ (f.codeExp c ≠ 0 ∧
        f.decode c = .fin (f.codeSign c) (f.codeFrac c + 2 ^ f.fb) (f.qmin + f.codeExp c - 1)) := by
  have hdec : f.decode c =
      if f.ieee ∧ f.codeExp c = 2 ^ f.eb - 1 then (if f.codeFrac c = 0 then .inf (f.codeSign c) else .nan)
      else if f.fb = 3 ∧ f.eb = 4 ∧ f.codeExp c = 15 ∧ f.codeFrac c = 7 then .nan
      else if f.codeExp c = 0 then .fin (f.codeSign c) (f.codeFrac c) f.qmin
      else .fin (f.codeSign c) (f.codeFrac c + 2 ^ f.fb) (f.qmin + f.codeExp c - 1) := rfl
  rw [hdec]
  split
  next hmax =>
    split
    next hinf => exact .inr (.inl ⟨hmax.2, hinf, rfl⟩)
    next => exact .inl rfl
  next =>
    split
    next => exact .inl rfl
    next =>
      split
      next hsub => exact .inr (.inr (.inl ⟨hsub, rfl⟩))
      next hnormal => exact .inr (.inr (.inr ⟨hnormal, rfl⟩))

/-- R33 and R35 for all parameters a format can have: a code that is not a NaN is the encoding of its value. -/
theorem FF.encode_decode (f : FF) {c : ℕ} (hc : c < 2 ^ (1 + f.eb + f.fb)) (hnan : f.decode c ≠ .nan) :
    f.encode (f.decode c) = c := by
  refine Eq.trans ?_ (f.fields_eq hc)
  obtain h | ⟨hexp, hfrac, hinf⟩ | ⟨hexp, hsub⟩ | ⟨hexp, hnormal⟩ := f.decode_cases c
  · exact absurd h hnan
  · rw [hinf, f.encode_inf, hexp, hfrac, add_zero]
  · rw [hsub, f.encode_subnormal _ (f.codeFrac_lt c), hexp, zero_mul, add_zero]
  · rw [hnormal, f.encode_normal _ hexp (f.codeFrac_lt c)]

end Sys2Proof.Machine
end

section
/-! PROOF. Round, and the codes of the formats (O5). -/

namespace Sys2Proof.Machine

open Sys2Proof

/-- Round is RoundInt in units of the last kept bit, for any format. -/
theorem roundingIsCorrect : Claims.RoundingIsCorrect := by
  intro f mode n m e n' m' e' fl _ hm hround hof x r q
  obtain ⟨rfl, rfl, he', hix⟩ := roundTo_finite hm hround hof
  have hw : (0 : ℚ) < 2 ^ q := by positivity
  have hy : IsRoundInt mode n' (m * (2 : ℚ) ^ (e - q)) (roundAt m e q mode n').1 := isRoundInt_roundAt m e q
  have hdist : |r - x| = _ * 2 ^ q := numVal_dist he'
  obtain ⟨hrz, hru, hrd⟩ := hy.numVal_sides he'
  refine ⟨rfl, roundAt_lastBit_le f m e, hrz, hru, hrd, ?nearest, ?dist, ?exact⟩
  case nearest =>
    intro hrn
    rw [hdist, ← mul_assoc]
    exact mul_le_of_le_one_left hw.le (hy.nearest hrn)
  case dist =>
    rw [hdist]
    exact mul_lt_of_lt_one_left hw hy.dist_lt
  case exact =>
    rw [hix, roundAt_exact_iff, ← sub_eq_zero, ← abs_eq_zero, ← sub_eq_zero (a := r), ← abs_eq_zero (a := r - x), hdist,
      mul_eq_zero_iff_right hw.ne']
    rfl

/-- Every format of Table 2.2 is described by its parameters, and `FF.encode_decode` holds of all of them. -/
theorem everyCodeEncodesItsValue : Claims.EveryCodeEncodesItsValue :=
  fun f _ _ hc hnan => f.encode_decode hc hnan

end Sys2Proof.Machine

/-- Settles O5: Round by the laws of RoundInt, and the codes by what each kind of code decodes to. -/
theorem roundingAndCodesAreCorrect : Obligations.RoundingAndCodesAreCorrect :=
  ⟨Sys2Proof.Machine.roundingIsCorrect, Sys2Proof.Machine.everyCodeEncodesItsValue⟩
end

section
/-! SUPPORT. Laws of the parser (R68 to R78): what each class's parser is given, and what the fields of an instruction's
operands read back as. -/

namespace Sys2Proof

/-! ### The parser of a class (Table 3.11) -/

section
variable {op : BitVec 12} {h : Hdr} {d a b c m : BitVec 8} {x : Word}

@[simp] theorem parse_ctl (hc : op.extractLsb' 8 4 = 0#4) :
    parse ⟨op, h, d, a, b, c, m, x⟩ = parseCtl ⟨op, h, d, a, b, c, m, x⟩ (op.extractLsb' 0 8).toNat := by simp [parse, hc]
@[simp] theorem parse_int (hc : op.extractLsb' 8 4 = 1#4) :
    parse ⟨op, h, d, a, b, c, m, x⟩ = parseInt ⟨op, h, d, a, b, c, m, x⟩ (op.extractLsb' 0 8).toNat := by simp [parse, hc]
@[simp] theorem parse_prd (hc : op.extractLsb' 8 4 = 2#4) :
    parse ⟨op, h, d, a, b, c, m, x⟩ = parsePrd ⟨op, h, d, a, b, c, m, x⟩ (op.extractLsb' 0 8).toNat := by simp [parse, hc]
@[simp] theorem parse_wav (hc : op.extractLsb' 8 4 = 3#4) :
    parse ⟨op, h, d, a, b, c, m, x⟩ = parseWav ⟨op, h, d, a, b, c, m, x⟩ (op.extractLsb' 0 8).toNat := by simp [parse, hc]
@[simp] theorem parse_flt (hc : op.extractLsb' 8 4 = 4#4) :
    parse ⟨op, h, d, a, b, c, m, x⟩ = parseFlt ⟨op, h, d, a, b, c, m, x⟩ (op.extractLsb' 0 8).toNat := by simp [parse, hc]
@[simp] theorem parse_cnv (hc : op.extractLsb' 8 4 = 5#4) :
    parse ⟨op, h, d, a, b, c, m, x⟩ = parseCnv ⟨op, h, d, a, b, c, m, x⟩ (op.extractLsb' 0 8).toNat := by simp [parse, hc]
@[simp] theorem parse_mem (hc : op.extractLsb' 8 4 = 6#4) :
    parse ⟨op, h, d, a, b, c, m, x⟩ = parseMem ⟨op, h, d, a, b, c, m, x⟩ (op.extractLsb' 0 8).toNat := by simp [parse, hc]
@[simp] theorem parse_cap (hc : op.extractLsb' 8 4 = 7#4) :
    parse ⟨op, h, d, a, b, c, m, x⟩ = parseCap ⟨op, h, d, a, b, c, m, x⟩ (op.extractLsb' 0 8).toNat := by simp [parse, hc]
@[simp] theorem parse_atm (hc : op.extractLsb' 8 4 = 8#4) :
    parse ⟨op, h, d, a, b, c, m, x⟩ = parseAtm ⟨op, h, d, a, b, c, m, x⟩ (op.extractLsb' 0 8).toNat := by simp [parse, hc]
@[simp] theorem parse_def (hc : op.extractLsb' 8 4 = 9#4) :
    parse ⟨op, h, d, a, b, c, m, x⟩ = parseDef ⟨op, h, d, a, b, c, m, x⟩ (op.extractLsb' 0 8).toNat := by simp [parse, hc]
@[simp] theorem parse_asy (hc : op.extractLsb' 8 4 = 10#4) :
    parse ⟨op, h, d, a, b, c, m, x⟩ = parseAsy ⟨op, h, d, a, b, c, m, x⟩ (op.extractLsb' 0 8).toNat := by simp [parse, hc]
@[simp] theorem parse_syn (hc : op.extractLsb' 8 4 = 11#4) :
    parse ⟨op, h, d, a, b, c, m, x⟩ = parseSyn ⟨op, h, d, a, b, c, m, x⟩ (op.extractLsb' 0 8).toNat := by simp [parse, hc]
@[simp] theorem parse_mtx (hc : op.extractLsb' 8 4 = 12#4) :
    parse ⟨op, h, d, a, b, c, m, x⟩ = parseMtx ⟨op, h, d, a, b, c, m, x⟩ (op.extractLsb' 0 8).toNat := by simp [parse, hc]
@[simp] theorem parse_sys (hc : op.extractLsb' 8 4 = 13#4) :
    parse ⟨op, h, d, a, b, c, m, x⟩ = parseSys ⟨op, h, d, a, b, c, m, x⟩ (op.extractLsb' 0 8).toNat := by simp [parse, hc]

end

/-! ### Immediates (R69) -/

theorem toSrc_immOf {a b c : Src} (h : immsAgree a b c = true) : toSrc a.byte (immOf a b c) = some a
    ∧ toSrc b.byte (immOf a b c) = some b ∧ toSrc c.byte (immOf a b c) = some c := by
  simp only [immsAgree, Bool.and_eq_true] at h
  obtain ⟨⟨ha, hb⟩, hc⟩ := h
  exact ⟨toSrc_byte ha, toSrc_byte hb, toSrc_byte hc⟩

theorem toSrc_immOf_two {a b : Src} (h : immsAgree a b noSrc = true) : toSrc a.byte (immOf a b noSrc) = some a
    ∧ toSrc b.byte (immOf a b noSrc) = some b :=
  ⟨(toSrc_immOf h).1, (toSrc_immOf h).2.1⟩

/-- One source reads the I that it asks for. -/
@[simp] theorem toSrc_immOf_one (a : Src) : toSrc a.byte (immOf a noSrc noSrc) = some a :=
  toSrc_byte (by cases a <;> simp [Src.agrees, immOf, Src.immVal, noSrc])

theorem right_of_and {p q : Bool} (h : (p && q) = true) : q = true := (Bool.and_eq_true_iff.mp h).2

/-- CVT takes no immediate, since I names its formats. -/
theorem noImm_of_wfCvt {m : FMod} {df sf : Fmt} {su du : Bool} {d : VReg} {a : Src} (h : wfCvt m df sf su du d a = true) :
    a.noImm = true := by
  simp only [wfCvt, Bool.and_eq_true] at h
  exact h.1.2

theorem noImm_of_wfCvt2 {m : FMod} {df sf : Fmt} {d : VReg} {a b : Src} (h : wfCvt2 m df sf d a b = true) :
    a.noImm = true ∧ b.noImm = true := by
  simp only [wfCvt2, Bool.and_eq_true] at h
  exact ⟨h.1.1.2, h.1.2⟩

/-! ### Operands of more than one field -/

section
variable (op : BitVec 12) (h : Hdr) (d a b c m x xm : BitVec 8)

@[simp] theorem toCap_mk (x : CapAddr) : toCap ⟨op, h, d, aByte x.a, x.idx.byte, c, m, xm ++ x.disp⟩ = some x := by
  simp [toCap]

@[simp] theorem toLoc_mk (x : LocAddr) : toLoc ⟨op, h, d, a, x.idx.byte, c, m, xm ++ x.disp⟩ = some x := by simp [toLoc]

@[simp] theorem toLdMod_mk (m : LdMod) (disp : BitVec 24) : toLdMod ⟨op, h, d, a, b, c, m.m, m.xm ++ disp⟩ = some m := by
  simp [toLdMod, LdMod.m, -BitVec.getLsbD_eq_getElem]

@[simp] theorem toStMod_mk (m : StMod) (disp : BitVec 24) : toStMod ⟨op, h, d, a, b, c, m.m, m.xm ++ disp⟩ = some m := by
  simp [toStMod, StMod.m]

@[simp] theorem toAtMod_mk (w : Wid) (p : AOp) (ty : ATy) (o : AOrd) (ret : Bool) (disp : BitVec 24) :
    toAtMod ⟨op, h, d, a, b, c, atM o ret w, atXM o ty p ++ disp⟩ = some ⟨w, p, ty, o⟩ := by
  simp [toAtMod]

@[simp] theorem ovI_entry (e : BitVec 15) (o : OvSel) : (ovI e o).extractLsb' 17 15 = e := by
  cases o <;> simp

@[simp] theorem toOv_mk (o : OvSel) (e : BitVec 15) : toOv ⟨op, h, d, o.byte, b, c, m, ovI e o⟩ = some o := by
  cases o with
  | id n => simp [toOv, -BitVec.getLsbD_eq_getElem]
  | reg r => simp [toOv, OvSel.byte, -BitVec.getLsbD_eq_getElem]

@[simp] theorem toMov_mk (o : MovSrc) : toMov ⟨op, h, d, o.byte, b, c, m, o.imm⟩ = some o := by
  cases o with
  | src a => simp [toMov, MovSrc.byte, MovSrc.imm]
  | q r => simp [toMov, MovSrc.byte]

@[simp] theorem toQOps_mk (o : QOps) : toQOps ⟨op, h, qByte o.q, vByte o.a, vByte o.b, vByte o.c, m,
    xm ++ barByte o.bar ++ barByte o.bwt ++ vByte o.mask⟩ = some o := by
  simp [toQOps]

end

/-- DAGE takes a register or a floating-point constant (R179). -/
theorem noImm_of_dage {h : Hdr} {x : CapAddr} {c : Src} (hw : (Instr.dage h x c).wf = true) : c.noImm = true := by
  cases c with
  | imm y => cases hw
  | _ => rfl

/-! ### Copies (Tables 6.8, 6.9) -/

/-- KIND 3 names a copy from a ring. -/
theorem cpyKind_ne (dst src : CpySide) : cpyKind dst src ≠ 3#8 := by
  unfold cpyKind
  split_ifs <;> decide

/-- M of a scatter tells the combining operator. -/
theorem toCop_combM (k : Option CopOp) (s : Bool) :
    (if (0#4 ++ combM k ++ 0#2 ++ BitVec.ofBool s).getLsbD 3 = true then some (toCop (combCop k)) else none) = k := by
  cases k with
  | none => cases s <;> rfl
  | some c => cases s <;> simp [combM, combCop]

/-! ### Every instruction -/

/-- A well-formed instruction is read back from its fields, class by class, each operand by the law of its form. -/
theorem parse_fields {i : Instr} {f : Fields} (hf : i.fields = some f) (hw : i.wf = true) : parse f = some i := by
  cases i with
  | nop h | bra h off | brx h a | call h d off | ret h a | exit h | yield h | trap h code | bkpt h code =>
    cases hf
    simp [fSrc, fRaw, parseCtl]
  | callo h d o entry | jmpo h o entry | ovld h d o | ovrel h o | ovq h d o =>
    cases hf
    simp [fRaw, parseCtl]
  | twait h a =>
    cases hf
    simp [fSrc, parseCtl]
  | iadd h d a b | isub h d a b | imul h d a b | and h d a b | or h d a b | xor h d a b | andn h d a b | shl h d a b
  | shr h d a b | sar h d a b =>
    cases hf
    simp [fSrc, parseInt, toSrc_immOf_two hw]
  | imulh h ns d a b | imin h ns d a b | imax h ns d a b | iadds h ns d a b | isubs h ns d a b | bfe h ns d a b =>
    cases hf
    simp [fSrc, parseInt, toSrc_immOf_two hw, -BitVec.getLsbD_eq_getElem]
  | imulw h ns d a b | iadd64 h d a b | isub64 h d a b | shl64 h d a b | shr64 h d a b | sar64 h d a b =>
    cases hf
    simp [fSrc, parseInt, toSrc_immOf_two (right_of_and hw), -BitVec.getLsbD_eq_getElem]
  | imad h ns d a b c =>
    cases hf
    simp [fSrc, parseInt, toSrc_immOf (right_of_and hw), -BitVec.getLsbD_eq_getElem]
  | bfi h d a b c =>
    cases hf
    simp [fSrc, parseInt, toSrc_immOf hw]
  | iabs h d a | popc h d a | clz h d a | brev h d a =>
    cases hf
    simp [fSrc, parseInt]
  | cmpi h ns cmp k d a b | cmpf h ftz nan cmp k d a b | cmph h ftz nan cmp k d a b =>
    cases hf
    simp [parsePrd, toSrc_immOf_two hw, -BitVec.getLsbD_eq_getElem]
  | cmpd h ftz nan cmp k d a b =>
    cases hf
    simp [parsePrd, toSrc_immOf_two (right_of_and hw), -BitVec.getLsbD_eq_getElem]
  | sel h d a b c | vtop h a b =>
    cases hf
    simp [fSrc, parsePrd, toSrc_immOf_two hw]
  | pfun h d a b c t | mov h d a | movi h d x | ptov h d | srd h d x | swr h x a =>
    cases hf
    simp [fRaw, parsePrd]
  | ballot h k d a | vote h k o d a | wsync h k =>
    cases hf
    simp [fRaw, parseWav]
  | shfl h k o d a b | wred h k o d a | wscan h k o x d a | matchEq h k d a =>
    cases hf
    simp [fRaw, parseWav, toSrc_byte_noImm hw, -BitVec.getLsbD_eq_getElem]
  | fadd h m d a b | fsub h m d a b | fmul h m d a b | fdiv h m d a b | fmin h m d a b | fmax h m d a b =>
    cases hf
    simp [fSrc, parseFlt, toSrc_immOf_two (right_of_and hw)]
  | dadd h m d a b | dmul h m d a b | dmin h m d a b | dmax h m d a b | ddiv h m d a b =>
    cases hf
    simp [fSrc, parseFlt, toSrc_immOf_two (right_of_and hw)]
  | hadd2 h m d a b | hmul2 h m d a b | hmin2 h m d a b | hmax2 h m d a b | badd2 h m d a b | bmul2 h m d a b
  | bmin2 h m d a b | bmax2 h m d a b =>
    cases hf
    simp [fSrc, parseFlt, toSrc_immOf_two (right_of_and hw)]
  | ffma h m d a b c | hfma2 h m d a b c | bfma2 h m d a b c =>
    cases hf
    simp [fSrc, parseFlt, toSrc_immOf (right_of_and hw)]
  | dfma h m d a b c =>
    cases hf
    simp [fSrc, parseFlt, toSrc_immOf (right_of_and (right_of_and hw))]
  | frcp h m d a | frsq h m d a | fsqrt h m d a | fexp2 h m d a | flog2 h m d a | frnd h m d a | fcls h m d a
  | dsqrt h m d a =>
    cases hf
    simp [fSrc, parseFlt]
  | cvt h m df sf su du d a =>
    cases hf
    simp [fRaw, parseCnv, toSrc_byte_noImm (noImm_of_wfCvt hw), -BitVec.getLsbD_eq_getElem]
  | cvt2 h m df sf d a b =>
    cases hf
    simp [fRaw, parseCnv, toSrc_byte_noImm (noImm_of_wfCvt2 hw).1, toSrc_byte_noImm (noImm_of_wfCvt2 hw).2]
  | qe4 h m d a b =>
    cases hf
    simp [fRaw, parseCnv, toSrc_byte_noImm (right_of_and hw)]
  | qe2 h m hi d a b c =>
    cases hf
    obtain ⟨hb, hc⟩ : b.noImm = true ∧ c.noImm = true := by simp only [Instr.wf, Bool.and_eq_true] at hw; exact ⟨hw.1.2, hw.2⟩
    simp [fRaw, parseCnv, toSrc_byte_noImm hb, toSrc_byte_noImm hc, -BitVec.getLsbD_eq_getElem]
  | dq h m df sf el d a b =>
    cases hf
    obtain ⟨ha, hb⟩ : a.noImm = true ∧ b.noImm = true := by simp only [Instr.wf, Bool.and_eq_true] at hw; exact ⟨hw.1.2, hw.2⟩
    simp [fRaw, parseCnv, toSrc_byte_noImm ha, toSrc_byte_noImm hb]
  | bscale h fmt sp d a =>
    cases hf
    simp [fRaw, parseCnv, toSrc_byte_noImm (right_of_and hw)]
  | ld h m d x | st h m x c | ldage h d x | ldc h d x | stc h x c | prf h x | cst h m x c k | xld h m d x k =>
    cases hf
    simp [fCap, parseMem]
  | ldl h m d x | stl h m x c | lda h w d x | sta h w x c =>
    cases hf
    simp [fLoc, parseMem]
  | capoff h d a b | capadd h d a b | capnar h d a b | caprgt h d a b | capget h f d a | capchk h d a b | capmov h d a =>
    cases hf
    simp [fRaw, parseCap]
  | atom h m d x c =>
    cases d with
    | none => cases hf; simp [fCap, parseAtm, -BitVec.getLsbD_eq_getElem]
    | some d => cases hf; simp [fCap, parseAtm, -BitVec.getLsbD_eq_getElem]
  | atomf h m d x c | cas h w o d x c | cas128 h o d x c | red h m x c | redf h m x c =>
    cases hf
    simp [fCap, parseAtm]
  | atoml h m d x c | casl h w o d x c =>
    cases hf
    simp [fLoc, parseAtm]
  | commitT h d | commitB h d | commitG h d | commitP h d g | dqry h d =>
    cases hf
    simp [fRaw, parseDef]
  | dage h x c =>
    cases hf
    simp [fCap, parseDef, toSrc_byte_noImm (noImm_of_dage hw)]
  | stepinc h d =>
    cases hf
    simp [fRaw, parseDef, toOptV_optByte hw]
  | cpy h t dst src n r | cpyRing h t ring s o n r =>
    cases hf
    simp [fRaw, parseAsy, toCpy, cpyKind_ne]
  | cpyg h t dst s o x n z r =>
    cases hf
    simp [fRaw, parseAsy, toCpyg]
  | cpys h t k dc dof src x n z r =>
    cases hf
    simp [fRaw, parseAsy, toCpys, toCop_combM, -BitVec.getLsbD_eq_getElem]
  | cpyq h t a q p =>
    cases hf
    simp [fRaw, parseAsy]
  | rinit h x c | rres h d x | rpub h x c | rwait h d x | rrel h x c =>
    cases hf
    simp [fLoc, parseAsy]
  | binit h x c | bwait h x c | fence h k s | grow h d a =>
    cases hf
    simp [fLoc, fRaw, fSrc, parseSyn]
  | barv h d x | barw h d x =>
    cases hf
    simp [fLoc, parseSyn, toOptV_optByte hw]
  | mma h f p o | mmb h f p o | mscale h f sa sb o =>
    cases hf
    simp [fQ, parseMtx]
  | mwait h d q =>
    cases hf
    simp [fRaw, parseMtx, toOptV_optByte hw]
  | plane h f tr sg q a b k | azero h p q a k | acvt h f sg q a b k | amovOut h p q a b k | amovIn h p q a b k | fenceo h =>
    cases hf
    simp [fRaw, parseMtx, -BitVec.getLsbD_eq_getElem]
  | bld h f sg d x =>
    cases hf
    simp [fLoc, parseMtx]
  | eret h | eretSkip h | tinfo h w d =>
    cases hf
    simp [fRaw, parseSys]
  | _ => cases hf

end Sys2Proof
end

section
/-! PROOF. The encoder and the decoder agree (O56, O57), and the words of the worked examples (O55). -/

namespace Sys2Proof

/-! ### From an instruction to its word -/

/-- Only opcodes that Table 3.11 assigns parse. -/
theorem parse_eq_none {f : Fields} (h : assigned f.op = false) : parse f = none := by
  simp only [assigned, decide_eq_false_iff_not, not_lt] at h
  obtain ⟨k, hk⟩ := Nat.exists_eq_add_of_le' h
  simp only [parse, hk]
  split <;> rfl

theorem assigned_of_parse {f : Fields} {i : Instr} (h : parse f = some i) : assigned f.op = true := by
  by_contra ha
  rw [parse_eq_none (eq_false_of_ne_true ha)] at h
  cases h

/-- UDF is no opcode of the parser: `decode` answers it first (R86). -/
theorem op_ne_udf_of_parse {f : Fields} {i : Instr} (h : parse f = some i) : f.op ≠ 0xD02#12 := by
  intro hop
  rw [parse, hop] at h
  cases h

/-- What has a word is UDF or has fields. -/
theorem isCode_cases {i : Instr} (hc : i.isCode = true) : (∃ raw, i = .udf raw) ∨ ∃ f, i.fields = some f := by
  rw [Instr.isCode, Bool.or_eq_true] at hc
  refine hc.symm.imp (fun hu => ?_) Option.isSome_iff_exists.mp
  cases i with
  | udf raw => exact ⟨raw, rfl⟩
  | _ => cases hu

theorem decode_udf {w : IWord} (h : w.extractLsb' 0 12 = 0xD02#12) : decode w = .ok (.udf w) := by
  rw [decode, if_pos h]

/-- A well-formed instruction decodes from its word: its word's fields are its own, and they are read back. -/
theorem decode_encode {i : Instr} (hc : i.isCode = true) (hw : i.wf = true) : decode (encode i) = .ok i := by
  obtain ⟨raw, rfl⟩ | ⟨f, hf⟩ := isCode_cases hc
  · exact decode_udf (beq_iff_eq.mp hw)
  · have hp := parse_fields hf hw
    rw [encode_of_fields hf]
    exact decode_pack hf hw (op_ne_udf_of_parse hp) (assigned_of_parse hp) hp

/-! ### From a word to its instruction -/

theorem ofBool_getLsbD {n : Nat} (w : BitVec n) (k : Nat) : BitVec.ofBool (w.getLsbD k) = w.extractLsb' k 1 := by
  apply BitVec.eq_of_getLsbD_eq
  intro i hi
  obtain rfl : i = 0 := by omega
  simp

/-- A word with bits [23:22] zero is the word of its fields: they are its parts, next to each other. -/
theorem pack_fieldsOf {w : IWord} (h : w.extractLsb' 22 2 = 0#2) : (fieldsOf w).pack = w := by
  simp only [Fields.pack, Fields.low, fieldsOf, hdrOf, ← h, ofBool_getLsbD]
  simp (disch := rfl) only [BitVec.extractLsb'_append_extractLsb'_eq_extractLsb']
  exact extractLsb'_whole w

/-- A word of another opcode than UDF's that decodes has the fields of its instruction, a well-formed one. -/
theorem fields_of_decode {w : IWord} {i : Instr} (h : decode w = .ok i) (hop : w.extractLsb' 0 12 ≠ 0xD02#12) :
    i.wf = true ∧ i.fields = some (fieldsOf w) ∧ w.extractLsb' 22 2 = 0#2 := by
  simp only [decode, if_neg hop] at h
  split_ifs at h with ha hr
  split at h
  · cases h
  · split_ifs at h with hi
    cases h
    rw [Bool.and_eq_true, beq_iff_eq] at hi
    exact ⟨hi.1, hi.2, not_not.mp hr⟩

/-- A word that decodes is the word of its instruction. -/
theorem encode_of_decode {w : IWord} {i : Instr} (h : decode w = .ok i) : i.isCode = true ∧ encode i = w := by
  obtain rfl | ⟨-, hf, hr⟩ := decode_ok h
  · exact ⟨rfl, rfl⟩
  · exact ⟨by rw [Instr.isCode, hf]; rfl, (encode_of_fields hf).trans (pack_fieldsOf hr)⟩

/-- UDF decodes from the words of its opcode, and from no others (R86). -/
theorem isUdf_iff_of_decode {w : IWord} {i : Instr} (h : decode w = .ok i) :
    i.isUdf = true ↔ w.extractLsb' 0 12 = 0xD02#12 := by
  refine ⟨fun hu => ?_, fun hop => ?_⟩
  · by_contra hop
    obtain ⟨-, hf, -⟩ := fields_of_decode h hop
    cases i with
    | udf raw => cases hf
    | _ => cases hu
  · rw [decode_udf hop] at h
    cases h
    rfl

/-- The word of a well-formed instruction stands for it. -/
theorem standsFor_of_encode {w : IWord} {i : Instr} (he : encode i = w) (hc : i.isCode = true) (hw : i.wf = true) :
    Machine.StandsFor w i :=
  ⟨he ▸ decode_encode hc hw, he⟩

end Sys2Proof

/-- Settles O56: the fields of a well-formed instruction are read back class by class (`parse_fields`), and a word is packed
of its fields. -/
theorem everyInstructionDecodesFromItsWord : Obligations.EveryInstructionDecodesFromItsWord :=
  fun _ hc hw => Sys2Proof.decode_encode hc hw

open Sys2Proof in
/-- Settles O57: `decode` compares the fields of the instruction with those of the word, and a word is packed of its fields;
no other instruction has the word, since each decodes from its own (O56). -/
theorem decodedWordsAreEncodings : Obligations.DecodedWordsAreEncodings := by
  intro w i h
  obtain ⟨hc, he⟩ := encode_of_decode h
  refine ⟨hc, he, fun hu => ?_, isUdf_iff_of_decode h, fun j hjc hjw hje => ?_⟩
  · have hop : w.extractLsb' 0 12 ≠ 0xD02#12 := by rw [Ne, ← isUdf_iff_of_decode h, hu]; decide
    obtain ⟨hw, -, hr⟩ := fields_of_decode h hop
    exact ⟨hw, hr⟩
  · have hj := decode_encode hjc hjw
    rw [hje, h] at hj
    cases hj
    rfl

open Sys2Proof in
/-- Settles O55: each instruction is well-formed and is encoded as the example writes it, so that it decodes from there. -/
theorem workedWordsDecode : Obligations.WorkedWordsDecode := by
  refine ⟨?_, ?_, ?_, ?_, ?_, ?_, ?_, ?_, ?_, ?_, ?_, ?_, ?_, ?_, ?_, ?_, ?_⟩
  all_goals exact standsFor_of_encode (by decide) rfl (by decide)
end

section
/-! PROOF. A false guard (O1): every instruction but UDF and the collectives is framed by `guarded` under the header of its word. -/

namespace Sys2Proof.Machine

open Sys2Proof

theorem hdrOf_encode {i : Instr} {f : Fields} (hf : i.fields = some f) : hdrOf (encode i) = f.h := by
  rw [encode_of_fields hf, hdrOf_pack]

/-- R67: the meaning of an instruction that issues by itself runs under the guard of its own header; BARW, where the thread
has not arrived (R198). -/
theorem exec_eq_guarded {i : Instr} {f : Fields} {s : State} {x : Cx} (hf : i.fields = some f) (hc : i.isCollective = false)
    (hx : curCx s = some x) (ha : x.thr.arrival = none) : ∃ k, exec i s = guarded f.h s k := by
  cases i with
  | ballot | vote | shfl | wred | wscan | matchEq | wsync | cst | xld | mma | mmb | mscale | plane | azero | acvt | amovOut
  | amovIn => cases hc
  | barw h d y =>
    cases hf
    simp only [exec_barw, execBarw, hx, ha]
    exact ⟨_, rfl⟩
  | mov h d a => cases hf; cases a <;> exact ⟨_, rfl⟩
  | atom h m d y c => cases d <;> cases hf <;> exact ⟨_, rfl⟩
  | _ => cases hf <;> exact ⟨_, rfl⟩

end Sys2Proof.Machine

open Sys2Proof Sys2Proof.Machine in
/-- Settles O1: with a false guard `guarded` only has the thread go on, whatever the meaning it frames. -/
theorem falseGuardOnlyGoesOn : Obligations.FalseGuardOnlyGoesOn := by
  intro i s x hi hc hu hx ha hg
  obtain ⟨raw, rfl⟩ | ⟨f, hf⟩ := isCode_cases hi
  · exact absurd rfl (hu raw)
  · rw [hdrOf_encode hf] at hg ⊢
    obtain ⟨k, hk⟩ := exec_eq_guarded hf hc hx ha
    exact ⟨_, _, hk.trans (guarded_false hx hg k), did_goOn hx rfl (Kept.refl _ _)⟩
end

section
/-! PROOF. Instructions on registers of their own thread complete (O13). -/

namespace Sys2Proof.Machine

open Sys2Proof

/-- The instruction answers a next state in which its thread stands ready at the next slot, in the trap it was in, and no
other thread has changed. -/
def Completes (i : Instr) (s : State) (x : Cx) : Prop :=
  ∃ t w, exec i s = .next t ∧ threadOf t x.tid = some w ∧ w.status = .ready ∧ w.pc = nextSlot x.thr.pc
    ∧ w.trap = x.thr.trap ∧ OthersSame s t x.tid

/-- A change of a thread that leaves it at its slot and in its trap. -/
def StaysPut (x : Cx) (u : Thread) : Prop := u.pc = x.thr.pc ∧ u.trap = x.thr.trap

variable {i : Instr} {h : Hdr} {s : State} {x : Cx}

theorem completes_setThread {w : Thread} (hx : curCx s = some x) (hi : exec i s = .next (setThread s x.tid w))
    (hst : w.status = .ready) (hpc : w.pc = nextSlot x.thr.pc) (htr : w.trap = x.thr.trap) : Completes i s x :=
  ⟨_, w, hi, (onlyThread_setThread hx w).thread, hst, hpc, htr, othersSame_setThread s x.tid w⟩

theorem completes_goOn {u : Thread} (he : Executes h s x) (hi : exec i s = goOn h s x u) (hu : StaysPut x u) :
    Completes i s x :=
  completes_setThread he.1 hi rfl (congrArg nextSlot hu.1) hu.2

/-- A guarded meaning that ends in `goOn`, as those of the integer, predicate, floating-point and conversion forms do. -/
theorem completes_guarded {u : Cx → Thread} (he : Executes h s x) (hi : exec i s = guarded h s fun x => goOn h s x (u x))
    (hu : StaysPut x (u x)) : Completes i s x :=
  completes_goOn he (hi.trans (guarded_true he.1 he.2 _)) hu

/-! ### Register writes stay put -/

theorem staysPut_self : StaysPut x x.thr := ⟨rfl, rfl⟩

theorem StaysPut.wrV {u : Thread} (hu : StaysPut x u) (now : Nat) (d : VReg) (v : Word) (lat : Nat) :
    StaysPut x (wrV now u d v lat) := hu

theorem StaysPut.wrV64 {u : Thread} (hu : StaysPut x u) (now : Nat) (d : VReg) (v : DWord) (lat : Nat) :
    StaysPut x (wrV64 now u d v lat) := hu

theorem StaysPut.pendTo {u : Thread} (hu : StaysPut x u) (p : Pend) : StaysPut x (pendTo u p) := hu

theorem StaysPut.wrP {u : Thread} (hu : StaysPut x u) (now : Nat) (d : PReg) (v : Bool) (lat : Nat) :
    StaysPut x (wrP now u d v lat) := ⟨by simpa using hu.1, by simpa using hu.2⟩

theorem StaysPut.addFlags {u : Thread} (hu : StaysPut x u) (now : Nat) (f : Flags) (lat : Nat) :
    StaysPut x (addFlags now h u f lat) := ⟨by simpa using hu.1, by simpa using hu.2⟩

theorem StaysPut.foldl {α : Type} {f : Thread → α → Thread} (hf : ∀ u a, StaysPut x u → StaysPut x (f u a)) :
    ∀ (l : List α) {u : Thread}, StaysPut x u → StaysPut x (l.foldl f u)
  | [], _, hu => hu
  | a :: l, u, hu => StaysPut.foldl hf l (hf u a hu)

/-! ### Forms -/

section
variable (he : Executes h s x)
include he

theorem completes_intOp {d : VReg} {f : Thread → Word} (hi : exec i s = intOp h d s f) : Completes i s x :=
  completes_guarded he hi (staysPut_self.wrV ..)

theorem completes_intOp64 {d : VReg} {f : Thread → DWord} (hi : exec i s = intOp64 h d s f) : Completes i s x :=
  completes_guarded he hi (staysPut_self.wrV64 ..)

theorem completes_fltOp {d : VReg} {f : Thread → Nat × Flags} (hi : exec i s = fltOp h d s f) : Completes i s x :=
  completes_guarded he hi ((staysPut_self.wrV ..).addFlags ..)

theorem completes_dblOp {d : VReg} {f : Thread → Nat × Flags} (hi : exec i s = dblOp h d s f) : Completes i s x :=
  completes_guarded he hi ((staysPut_self.wrV64 ..).addFlags ..)

theorem completes_xOp {d : VReg} {f : Thread → Nat × Flags} (hi : exec i s = xOp h d s f) : Completes i s x :=
  completes_guarded he hi (staysPut_self.pendTo _)

theorem completes_xOp64 {d : VReg} {f : Thread → Nat × Flags} (hi : exec i s = xOp64 h d s f) : Completes i s x :=
  completes_guarded he hi (staysPut_self.pendTo _)

theorem completes_wrP {d : PReg} {f : Cx → Bool}
    (hi : exec i s = guarded h s fun x => goOn h s x (wrP s.cycle x.thr d (f x) 2)) :
    Completes i s x :=
  completes_guarded he hi (staysPut_self.wrP ..)

theorem completes_cmpEnd {d : PReg} {k : Comb} {f : Cx → Bool × Flags}
    (hi : exec i s = guarded h s fun x => cmpEnd h s x k d (f x)) :
    Completes i s x :=
  completes_guarded he hi ((staysPut_self.wrP ..).addFlags ..)

theorem completes_cnvEnd {d : VReg} {wide : Bool} {lat : Nat} {r : Nat × Flags}
    (hi : exec i s = cnvEnd h s x d wide lat r) :
    Completes i s x := by
  refine completes_goOn he hi ?_
  cases wide
  · exact (staysPut_self.wrV ..).addFlags ..
  · exact (staysPut_self.wrV64 ..).addFlags ..

end

/-! ### The lists of the integer, predicate, floating-point and conversion forms -/

section
variable {m : FMod} {ns ftz nan su du hi : Bool} {cmp : Cmp} {k : Comb} {df sf : Fmt} {el : BitVec 3} {spec : BitVec 5}
  {p pa pb pc : PReg} {table idx : BitVec 8} {val : Word} {d va : VReg} {a b c : Src} {r : RC} (he : Executes h s x)
include he

/-- VTOP ends in writes of predicates. -/
theorem completes_vtop : Completes (.vtop h a b) s x := by
  refine completes_guarded he (exec_vtop ..) (StaysPut.foldl (fun u n hu => ?_) _ staysPut_self)
  split_ifs
  · exact hu.wrP ..
  · exact hu

/-- Whichever way CVT2 converts, it ends as a conversion does. -/
theorem completes_cvt2 : Completes (.cvt2 h m df sf d a b) s x := by
  have hi := (exec_cvt2 h m df sf d a b s).trans (guarded_true he.1 he.2 _)
  by_cases hs : sf = .fp32
  · exact completes_cnvEnd he (hi.trans (if_pos hs))
  · by_cases hd : df = .fp32
    · exact completes_cnvEnd he (hi.trans ((if_neg hs).trans (if_pos hd)))
    · exact completes_cnvEnd he (hi.trans ((if_neg hs).trans (if_neg hd)))

/-- The integer forms end in a word or a pair of words. -/
theorem completes_integer :
    ∀ i ∈ ([.iadd h d a b, .isub h d a b, .imul h d a b, .imulh h ns d a b, .imulw h ns d a b, .imad h ns d a b c,
        .imin h ns d a b, .imax h ns d a b, .iabs h d a, .iadds h ns d a b, .isubs h ns d a b, .and h d a b, .or h d a b,
        .xor h d a b, .andn h d a b, .shl h d a b, .shr h d a b, .sar h d a b, .bfe h ns d a b, .bfi h d a b c, .popc h d a,
        .clz h d a, .brev h d a, .iadd64 h d a b, .isub64 h d a b, .shl64 h d a b, .shr64 h d a b, .sar64 h d a b] : List Instr),
      Completes i s x := by
  simp only [List.forall_mem_cons]
  exact ⟨completes_intOp he (exec_iadd ..), completes_intOp he (exec_isub ..), completes_intOp he (exec_imul ..),
    completes_intOp he (exec_imulh ..), completes_intOp64 he (exec_imulw ..), completes_intOp64 he (exec_imad ..),
    completes_intOp he (exec_imin ..), completes_intOp he (exec_imax ..), completes_intOp he (exec_iabs ..),
    completes_intOp he (exec_iadds ..), completes_intOp he (exec_isubs ..), completes_intOp he (exec_and ..),
    completes_intOp he (exec_or ..), completes_intOp he (exec_xor ..), completes_intOp he (exec_andn ..),
    completes_intOp he (exec_shl ..), completes_intOp he (exec_shr ..), completes_intOp he (exec_sar ..),
    completes_intOp he (exec_bfe ..), completes_intOp he (exec_bfi ..), completes_intOp he (exec_popc ..),
    completes_intOp he (exec_clz ..), completes_intOp he (exec_brev ..), completes_intOp64 he (exec_iadd64 ..),
    completes_intOp64 he (exec_isub64 ..), completes_intOp64 he (exec_shl64 ..), completes_intOp64 he (exec_shr64 ..),
    completes_intOp64 he (exec_sar64 ..), List.forall_mem_nil _⟩

/-- The predicate, select and move forms. -/
theorem completes_predicate :
    ∀ i ∈ ([.cmpi h ns cmp k p a b, .cmpf h ftz nan cmp k p a b, .cmpd h ftz nan cmp k p a b, .cmph h ftz nan cmp k p a b,
        .pfun h p pa pb pc table, .sel h d a b pc, .mov h d (.src a), .movi h d val, .ptov h d, .vtop h a b] : List Instr),
      Completes i s x := by
  simp only [List.forall_mem_cons]
  exact ⟨completes_wrP he (exec_cmpi ..), completes_cmpEnd he (exec_cmpf ..), completes_cmpEnd he (exec_cmpd ..),
    completes_cmpEnd he (exec_cmph ..), completes_wrP he (exec_pfun ..), completes_intOp he (exec_sel ..),
    completes_intOp he (f := fun t => src32 s t a) (exec_mov ..), completes_intOp he (exec_movi ..),
    completes_intOp he (exec_ptov ..), completes_vtop he, List.forall_mem_nil _⟩

/-- The floating-point forms. -/
theorem completes_float :
    ∀ i ∈ ([.fadd h m d a b, .fsub h m d a b, .fmul h m d a b, .ffma h m d a b c, .fmin h m d a b, .fmax h m d a b,
        .frcp h m d a, .frsq h m d a, .fsqrt h m d a, .fdiv h m d a b, .fexp2 h m d a, .flog2 h m d a, .frnd h m d a, .fcls h m d a,
        .dadd h m d a b, .dmul h m d a b, .dfma h m d a b c, .dmin h m d a b, .dmax h m d a b, .ddiv h m d a b, .dsqrt h m d a,
        .hadd2 h m d a b, .hmul2 h m d a b, .hfma2 h m d a b c, .hmin2 h m d a b, .hmax2 h m d a b, .badd2 h m d a b,
        .bmul2 h m d a b, .bfma2 h m d a b c, .bmin2 h m d a b, .bmax2 h m d a b] : List Instr),
      Completes i s x := by
  simp only [List.forall_mem_cons]
  exact ⟨completes_fltOp he (exec_fadd ..), completes_fltOp he (exec_fsub ..), completes_fltOp he (exec_fmul ..),
    completes_fltOp he (exec_ffma ..), completes_fltOp he (exec_fmin ..), completes_fltOp he (exec_fmax ..),
    completes_xOp he (exec_frcp ..), completes_xOp he (exec_frsq ..), completes_xOp he (exec_fsqrt ..),
    completes_xOp he (exec_fdiv ..), completes_xOp he (exec_fexp2 ..), completes_xOp he (exec_flog2 ..),
    completes_fltOp he (exec_frnd ..), completes_guarded he (exec_fcls ..) (staysPut_self.wrV ..),
    completes_dblOp he (exec_dadd ..), completes_dblOp he (exec_dmul ..), completes_dblOp he (exec_dfma ..),
    completes_dblOp he (exec_dmin ..), completes_dblOp he (exec_dmax ..), completes_xOp64 he (exec_ddiv ..),
    completes_xOp64 he (exec_dsqrt ..), completes_fltOp he (exec_hadd2 ..), completes_fltOp he (exec_hmul2 ..),
    completes_fltOp he (exec_hfma2 ..), completes_fltOp he (exec_hmin2 ..), completes_fltOp he (exec_hmax2 ..),
    completes_fltOp he (exec_badd2 ..), completes_fltOp he (exec_bmul2 ..), completes_fltOp he (exec_bfma2 ..),
    completes_fltOp he (exec_bmin2 ..), completes_fltOp he (exec_bmax2 ..), List.forall_mem_nil _⟩

/-- The conversion and quantise forms. -/
theorem completes_convert :
    ∀ i ∈ ([.cvt h m df sf su du d a, .cvt2 h m df sf d a b, .qe4 h m d va b, .qe2 h m hi d va b c, .dq h m df sf el d a b,
        .bscale h df spec d a] : List Instr),
      Completes i s x := by
  simp only [List.forall_mem_cons]
  exact ⟨completes_cnvEnd he ((exec_cvt ..).trans (guarded_true he.1 he.2 _)), completes_cvt2 he,
    completes_cnvEnd he ((exec_qe4 ..).trans (guarded_true he.1 he.2 _)),
    completes_cnvEnd he ((exec_qe2 ..).trans (guarded_true he.1 he.2 _)),
    completes_cnvEnd he ((exec_dq ..).trans (guarded_true he.1 he.2 _)),
    completes_guarded he (exec_bscale ..) ((staysPut_self.wrV ..).addFlags ..), List.forall_mem_nil _⟩

/-- SRD of any special register, but FPX with an update still to come (R21, R97). -/
theorem completes_srd (hf : idx = 0x19 → fpxBusy s.cycle x.thr = false) : Completes (.srd h d idx) s x := by
  by_cases hn : idx.toNat ∈ slowSpecials
  · simp only [slowSpecials, List.mem_cons, List.not_mem_nil, or_false] at hn
    obtain clk | clkh | gtsl | gtsh | fpx | refwin := hn
    · exact completes_goOn he (exec_srd_clk he clk) ⟨rfl, rfl⟩
    · exact completes_goOn he (exec_srd_clkh he clkh) (staysPut_self.pendTo _)
    · exact completes_goOn he (exec_srd_gtsl he gtsl) ⟨rfl, rfl⟩
    · exact completes_goOn he (exec_srd_gtsh he gtsh) (staysPut_self.pendTo _)
    · obtain rfl : idx = 0x19 := BitVec.eq_of_toNat_eq fpx
      exact completes_goOn he ((exec_srd_fpx he).trans (if_neg (by simp [hf rfl]))) (staysPut_self.pendTo _)
    · exact completes_goOn he (exec_srd_refwin he refwin) (staysPut_self.pendTo _)
  · exact completes_goOn he (exec_srd_ready he hn) (staysPut_self.wrV ..)

/-- SWR of any special register, but FPX with an update still to come (R21, R98). -/
theorem completes_swr (hf : idx = 0x19 → fpxBusy s.cycle x.thr = false) : Completes (.swr h idx r) s x := by
  by_cases hn : idx = 0x19
  · subst hn
    exact completes_goOn he ((exec_swr_fpx he).trans (if_neg (by rw [hf rfl]; decide))) ⟨rfl, rfl⟩
  · have hi := (exec_swr h idx r s).trans (guarded_true he.1 he.2 _)
    exact completes_goOn he (hi.trans (if_neg hn)) ⟨rfl, rfl⟩

end

/-! ### EXIT -/

theorem dropRefs_blocks (core ctx : Nat) : ∀ (ids : List (BitVec 8)) (s : State), (dropRefs s core ctx ids).blocks = s.blocks
  | [], _ => rfl
  | id :: ids, s => (dropRefs_blocks core ctx ids _).trans (by
      have hrest := congrArg State.blocks (dropRef_rest (s := s) core (ovKey s core ctx id))
      exact hrest)

theorem retireBlock_threads (b : Block) : (retireBlock b).threads = b.threads := by
  unfold retireBlock; split <;> rfl

theorem threadOf_congr {s t : State} (hb : t.blocks = s.blocks) (u : ThreadId) : threadOf t u = threadOf s u := by
  unfold threadOf blockOf; rw [hb]

/-- A block set with the threads that it had leaves every thread. -/
theorem threadOf_setBlock {s : State} {slot : Nat} {b b' : Block} (hb : blockOf s slot = some b) (ht : b'.threads = b.threads)
    (u : ThreadId) : threadOf (setBlock s slot b') u = threadOf s u := by
  unfold threadOf
  rw [blockOf_setBlock]
  split_ifs with hu
  · simp only [hu, hb, ht]
  · rfl

/-- A thread that retires has retired, and every other thread is as it was (R116, R231). -/
theorem threadOf_retireThread (s : State) (x : Cx) (u : ThreadId) : threadOf (retireThread s x) u =
    if u = x.tid then (threadOf s u).map (fun _ => { x.thr with status := .retired, trap := none, stack := [], rpStack := [] })
    else threadOf s u := by
  let released := dropRefs (closeRegion s x.tid) x.coreId x.blk.ctx (x.thr.stack ++ x.thr.rpStack)
  have hs : ∀ u, threadOf released u = threadOf s u := threadOf_congr (dropRefs_blocks ..)
  rw [← hs u, ← threadOf_setThread]
  unfold retireThread
  dsimp only
  split
  · rfl
  · rename_i b hb
    have ht := threadOf_setBlock hb (retireBlock_threads b) u
    split_ifs
    · exact (threadOf_congr (modLaunch_blocks ..) u).trans ht
    · exact ht

/-- A thread that retires, all it has issued being complete, has retired, and no other thread has changed (R116). -/
theorem exec_exit_retires (he : Executes h s x) (hp : x.thr.pend = []) (ht : x.thr.tokens = [])
    (hs : signedPending x.blk x.tid = false) : ∃ t w, exec (.exit h) s = .next t ∧ threadOf t x.tid = some w
      ∧ w.status = .retired ∧ OthersSame s t x.tid := by
  have hi : exec (.exit h) s = .next (retireThread s x) :=
    (exec_exit ..).trans ((guarded_true he.1 he.2 _).trans (if_pos (by simp [allDone, hp, ht, hs])))
  have hown := threadOf_retireThread s x x.tid
  rw [if_pos rfl, threadOf_curCx he.1] at hown
  exact ⟨_, _, hi, hown, rfl, fun u hu => (threadOf_retireThread s x u).trans (if_neg hu)⟩

end Sys2Proof.Machine

open Sys2Proof Sys2Proof.Machine in
/-- Settles O13: each form ends in a change of its own thread, which leaves it at its slot and in its trap, and in going on. -/
theorem registerInstructionsComplete : Obligations.RegisterInstructionsComplete := by
  intro h m ns ftz nan su du hi cmp k df sf el spec p pa pb pc table idx q val d va a b c r s x he
  refine ⟨?none, completes_integer he, completes_predicate he, completes_float he, completes_convert he, ?twait,
    fun hf => ⟨completes_srd he hf, completes_swr he hf⟩, ?movQ, exec_exit_retires he⟩
  case none =>
    simp only [List.forall_mem_cons]
    exact ⟨completes_guarded he (exec_nop ..) staysPut_self,
      completes_setThread he.1 ((exec_yield ..).trans (guarded_true he.1 he.2 _)) rfl rfl rfl, List.forall_mem_nil _⟩
  case twait =>
    intro hn
    exact completes_goOn he ((exec_twait ..).trans ((guarded_true he.1 he.2 _).trans (if_pos hn))) staysPut_self
  case movQ =>
    intro hq
    exact completes_goOn he ((exec_mov ..).trans ((guarded_true he.1 he.2 _).trans (if_neg (by simp [hq]))))
      (staysPut_self.pendTo _)
end

section
/-! PROOF. A step runs the decoded instruction (O58). -/

namespace Sys2Proof.Machine

open Sys2Proof

theorem andThen_next (o : Out) : andThen o .next = o := by cases o <;> rfl

/-! ### The step of an agenda -/

theorem step_cons {s : State} {m : Move} {ms : List Move} (h : s.agenda = m :: ms) :
    step s = settled (doMove (begun s ms) m) := by
  unfold step; rw [h]; rfl

theorem step_nil {s : State} (h : s.agenda = []) : step s = settled (auto (begun s [])) := by
  obtain ⟨⟩ := s
  cases h
  rfl

theorem firstIssue_eq (s : State) (ps : List Nat) :
    firstIssue s ps = (ps.find? fun p => (issuePart s p).isSome).bind (issuePart s) := by
  induction ps with
  | nil => rfl
  | cons p ps ih =>
    cases hp : issuePart s p with
    | none => simp [firstIssue, hp, ih]
    | some o => simp [firstIssue, hp]

theorem firstIssue_none {s : State} {ps : List Nat} (h : ∀ p ∈ ps, issuePart s p = none) : firstIssue s ps = none := by
  rw [firstIssue_eq, List.find?_eq_none.mpr fun p hp => by simp [h p hp]]
  rfl

theorem firstChange_none {s : State} {is : List Instr} (h : ∀ i ∈ is, exec i (beforeEvent s i) = .next s) :
    firstChange s is = none := by
  induction is with
  | nil => rfl
  | cons i is ih =>
    obtain ⟨hi, his⟩ := List.forall_mem_cons.mp h
    simp only [firstChange, hi, if_true, ih his]

/-- With an empty agenda the first partition that may issue issues (R239, log 4). -/
theorem auto_of_find {s : State} {part : Nat} {o : Out} (hf : (partsOf s).find? (fun p => (issuePart s p).isSome) = some part)
    (ho : issuePart s part = some o) : auto s = o := by
  have hfirst : firstIssue s (partsOf s) = some o := by rw [firstIssue_eq, hf]; exact ho
  simp only [auto, hfirst]

/-! ### The group that a partition issues -/

section
variable {s : State} {part : Nat} {tid : ThreadId} {b : Block} {t : Thread} {base i : Nat} {l : Line} {turn : Turn}

theorem mayIssue_of_isReady (h : isReady s b tid t = true) : mayIssue s b t = true := by
  unfold isReady at h
  simp only [Bool.and_eq_true] at h
  exact h.1.1

/-- A ready thread is not held. -/
theorem not_held_of_isReady (h : isReady s b tid t = true) (mask : Word) : t.status ≠ .held mask := by
  intro hs
  have := mayIssue_of_isReady h
  simp [mayIssue, hs] at this

theorem lenOf_isSome_of_lineAt {r : Nat × Line} (h : lineAt s b tid t = some r) :
    (lenOf s (coreIdOf b tid) b.ctx t.top).isNone = false := by
  cases hl : lenOf s (coreIdOf b tid) b.ctx t.top with
  | none => simp [lineAt, hl] at h
  | some _ => rfl

theorem IssuesNext.threadOf (hn : IssuesNext s part tid b t base l i turn) : threadOf s tid = some t := by
  simp [Machine.threadOf, hn.block, hn.thread]

theorem IssuesNext.issuers (hn : IssuesNext s part tid b t base l i turn) : issuers s b tid t [tid] = [tid] := by
  have hready := hn.ready
  unfold Machine.issuers
  split
  · rename_i mask hs
    exact absurd hs (not_held_of_isReady hready mask)
  · simp [hready, hn.block, hn.threadOf]

/-- The partition picks its only bundle. -/
theorem IssuesNext.firstPick (hn : IssuesNext s part tid b t base l i turn) :
    firstPick s (turnOfPart s part) 0 [[tid]] = some ⟨0, [tid], base, l, turn⟩ := by
  have hpipes := hn.pipes
  rw [hn.slot] at hpipes
  simp only [Machine.firstPick, pickOf, hn.block, hn.threadOf, hn.issuers, hn.line, hpipes, List.isEmpty_cons, Option.map_some]
  rfl

/-- A thread that may issue, and whose line is there, issues the group of its slot. -/
theorem IssuesNext.issueThread (hn : IssuesNext s part tid b t base l i turn) :
    issueThread s tid = issueGroup (issuing s tid) tid b t base l := by
  have hblock : blockOf (issuing s tid) tid.slot = some b := hn.block
  have hready := mayIssue_of_isReady hn.ready
  have hmay : mayIssue (issuing s tid) b t = true := hready
  have hline : lineAt (issuing s tid) b tid t = some (base, l) := hn.line
  have hlen := lenOf_isSome_of_lineAt hline
  unfold issuing at hblock hmay hline hlen
  simp [Machine.issueThread, issuing, hblock, hn.thread, hmay, hline, hlen]

theorem IssuesNext.issuePick (hn : IssuesNext s part tid b t base l i turn) :
    issuePick s ⟨0, [tid], base, l, turn⟩ = issueGroup (issuing s tid) tid b t base l := by
  rw [← hn.issueThread, ← andThen_next (Machine.issueThread s tid)]
  unfold Machine.issuePick
  simp only [List.head?_cons, Option.bind_some, hn.threadOf]
  split
  · rename_i mask _ _ hs _
    exact absurd hs (not_held_of_isReady hn.ready mask)
  · rfl

/-- A partition whose next group is one of thread `tid` issues it, and records that. -/
theorem IssuesNext.issuePart (hn : IssuesNext s part tid b t base l i turn) :
    issuePart s part = some (andThen (issueGroup (issuing s tid) tid b t base l) fun u => .next (issued s part tid turn u)) := by
  have hfree : ¬ (gated s = true ∨ 2 ≤ (turnOfPart s part).groups) := by
    rintro (hgate | hgroups)
    · exact absurd hgate (by simp [hn.gate])
    · exact absurd hn.groups (by omega)
  simp only [Machine.issuePart, if_neg hfree, hn.bundle, hn.firstPick, Option.map_some, hn.issuePick]
  rfl

theorem IssuesNext.step {s0 : State} {ms : List Move} (ha : s0.agenda = .issue part :: ms)
    (hn : IssuesNext (begun s0 ms) part tid b t base l i turn) :
    step s0 = settled (andThen (issueGroup (issuing (begun s0 ms) tid) tid b t base l) fun u =>
      .next (issued (begun s0 ms) part tid turn u)) := by
  rw [step_cons ha, doMove, hn.issuePart]
  rfl

/-- A group that waits for nothing is entered and runs. -/
theorem issueGroup_runs {js : List Nat} (hrun : arrives s b tid t = false) (hboard : groupWait s b tid t l = none)
    (hg : groupAt t l = i :: js)
    (hlater : laterWait (enterGroup s tid b t (atRestart s b tid t base) (i :: js)) tid b t base l js = none) :
    issueGroup s tid b t base l = orWaits s tid t
      (endGroup tid (runGroup tid l base t.snap.isNone i js (enterGroup s tid b t (atRestart s b tid t base) (i :: js)))) := by
  simp only [issueGroup, hrun, hboard, hg, hlater]
  rfl

/-- A group of one slot outside a restart point is entered without a change. -/
theorem enterGroup_one (s : State) (tid : ThreadId) (b : Block) (t : Thread) (i : Nat) : enterGroup s tid b t false [i] = s := by
  simp [enterGroup]

/-! ### What a slot does -/

theorem runSlot_eq_ran (tid : ThreadId) (x : Instr) (s : State) : runSlot tid x s = ran s tid x := rfl

theorem runGroup_error {first : Bool} {js : List Nat} {r : Trap} (hb : blockOf s tid.slot = some b)
    (ht : b.threads[tid.tidx]? = some t) (ho : outcomeAt s b tid t base l (!first) i = .error r) :
    runGroup tid l base first i js s = .next (takeTrap s tid r) := by
  unfold runGroup; simp only [hb, ht, ho]

theorem runGroup_nil {first : Bool} {x : Instr} (hb : blockOf s tid.slot = some b)
    (ht : b.threads[tid.tidx]? = some t) (ho : outcomeAt s b tid t base l (!first) i = .ok x) :
    runGroup tid l base first i [] s = runSlot tid x s := by
  unfold runGroup; simp only [hb, ht, ho]

theorem runGroup_cons {first : Bool} {x : Instr} {j : Nat} {js : List Nat} {s' : State} {t' : Thread}
    (hb : blockOf s tid.slot = some b) (ht : b.threads[tid.tidx]? = some t)
    (ho : outcomeAt s b tid t base l (!first) i = .ok x) (hr : runSlot tid x s = .next s') (ht' : threadOf s' tid = some t') :
    runGroup tid l base first i (j :: js) s =
      if t'.status = .ready ∧ t'.pc = nextSlot t.pc ∧ t'.stack = t.stack then
        match slotWait s' tid l j with
        | some w => .next (modThread s' tid (fun t => t.hold s.cycle w))
        | none => runGroup tid l base false j js s'
      else .next s' := by
  rw [runGroup]
  simp only [hb, ht, ho, hr, ht'] <;> rfl

theorem not_isUdf {x : Instr} (h : ∀ raw, x = .udf raw → False) : ¬ x.isUdf = true := by
  unfold Instr.isUdf
  split
  · exact (h _ rfl).elim
  · exact Bool.false_ne_true

section
variable (hp : (coreOf s (coreIdOf b tid)).slotPoison.has (8 * (base + t.pc.toNat / 8) + i) = false) (hc : lineCheck l i = none)
include hp hc

/-- The first slot of a group whose word does not decode traps ILLOP with the word (R64). -/
theorem outcomeAt_bad {why : Malformed} (hd : decode (lineSlot l i) = .bad why) :
    outcomeAt s b tid t base l false i = .error (illopTrap t.pcWord (lineSlot l i) 0) := by
  simp [outcomeAt, slotOutcome, hp, hc, hd]

/-- The first slot of a group whose word decodes is its instruction, if the registers allow it. -/
theorem outcomeAt_ok {x : Instr} (hd : decode (lineSlot l i) = .ok x) (ha : registersAllow s b tid t (lineSlot l i) x) :
    outcomeAt s b tid t base l false i = .ok x := by
  simp only [outcomeAt, slotOutcome, hp, hc, hd, Bool.false_and, Bool.false_eq_true, if_false]
  split
  · rename_i e; exact nomatch e
  · rename_i e; exact congrArg _ (Decoded.ok.inj e).symm
  · rename_i hudf e
    obtain rfl := Decoded.ok.inj e
    obtain hu | harrived | hregs := ha
    · exact absurd hu (not_isUdf hudf)
    · simp only [harrived, if_true]
    · unfold chkOf at hregs
      simp only [hregs, ite_self]

end

end

end Sys2Proof.Machine

open Sys2Proof Sys2Proof.Machine in
/-- Settles O58: a move is a case of `doMove`, and the group of a partition's only bundle is the one that `issueGroup` runs. -/
theorem stepRunsTheDecodedInstruction : Obligations.StepRunsTheDecodedInstruction := by
  intro s part tid ms s1 s2
  refine ⟨?issue, ?group, fun i ha hi => ?event, fun ha hms => ⟨fun hf => ?first, fun hp he => ?cycle⟩⟩
  case issue =>
    intro ha b t base l i turn hn ends
    refine ⟨fun hg hsnap hpoint hc hp => ?one, fun js hg hlater => ?several⟩
    case one =>
      have hb : blockOf s2 tid.slot = some b := hn.block
      have hrun := issueGroup_runs (base := base) hn.runs hn.board hg rfl
      rw [show atRestart (issuing s1 tid) b tid t base = false from hpoint, enterGroup_one] at hrun
      rw [hsnap] at hrun
      refine ⟨fun x hd hx => ?_, fun why hd => ?_⟩
      · rw [hn.step ha, hrun, runGroup_nil hb hn.thread (outcomeAt_ok hp hc hd hx)]
        rfl
      · rw [hn.step ha, hrun, runGroup_error hb hn.thread (outcomeAt_bad hp hc hd)]
        rfl
    case several => rw [hn.step ha, issueGroup_runs hn.runs hn.board hg hlater]
  case group =>
    intro b t base l i first x u hb ht ho
    exact ⟨runGroup_nil hb ht ho, fun j js u' t' hr ht' => runGroup_cons hb ht ho hr ht'⟩
  case event => rw [step_cons ha, doMove, if_neg (by simp [hi])]
  case first =>
    subst hms
    obtain ⟨o, ho⟩ := Option.isSome_iff_exists.mp (List.find?_some (p := fun p => (issuePart s1 p).isSome) hf)
    rw [step_nil ha, auto_of_find hf ho, step_cons (s := { s with agenda := [.issue part] }) rfl]
    exact congrArg (fun o => settled (o.getD (.next s1))) ho.symm
  case cycle =>
    subst hms
    rw [step_nil ha, auto, firstIssue_none hp, firstChange_none he]
end

section
/-! PROOF. Predicate functions, selects, moves and compares (O2, O4). -/

namespace Sys2Proof.Machine

open Sys2Proof

variable {h : Hdr} {s : State} {x : Cx}

/-! ### Predicates as bits of a word (R98) -/

theorem rangeFrom_eq_range' : ∀ (lo n : Nat), rangeFrom lo n = List.range' lo n
  | _, 0 => rfl
  | lo, n + 1 => congrArg (lo :: ·) (rangeFrom_eq_range' (lo + 1) n)

/-- Bits set one after another, each at most once, read back: those of the list as given, the others as before. -/
theorem getLsbD_foldl_setBit {n : Nat} (f : Nat → Bool) : ∀ (l : List Nat) (w : BitVec n) {k : Nat}, k < n →
    (l.foldl (fun w i => setBit w i (f i)) w).getLsbD k = if k ∈ l then f k else w.getLsbD k
  | [], _, _, _ => by simp
  | i :: l, w, k, hk => by
    rw [List.foldl_cons, getLsbD_foldl_setBit f l _ hk, getLsbD_setBit _ _ _ _ hk]
    by_cases hkl : k ∈ l
    · simp [hkl]
    · by_cases hki : k = i <;> simp [hkl, hki]

theorem predByte_getLsbD (t : Thread) (k : Nat) :
    (predByte s t).getLsbD k = (decide (k < 8) && rdP s t (BitVec.ofNat 3 k)) := by
  by_cases hk : k < 32
  · rw [predByte, rangeFrom_eq_range', getLsbD_foldl_setBit (fun i => rdP s t (BitVec.ofNat 3 i)) _ _ hk]
    by_cases h8 : k < 8 <;> simp [h8]
  · rw [BitVec.getLsbD_of_ge _ _ (by omega), decide_eq_false (by omega), Bool.false_and]

theorem predByte_lt (t : Thread) : (predByte s t).toNat < 256 := by
  refine Nat.lt_pow_two_of_testBit _ (n := 8) fun k hk => ?_
  have hbit := predByte_getLsbD (s := s) t k
  rwa [decide_eq_false (by omega), Bool.false_and, ← BitVec.testBit_toNat] at hbit

/-- The write of predicate i that VTOP performs where bit i of B is set (R98). -/
def vtopWrite (now : Nat) (va vb : Word) (t : Thread) (i : Nat) : Thread :=
  if vb.getLsbD i then wrP now t (BitVec.ofNat 3 i) (va.getLsbD i) 2 else t

theorem ofNat_toNat_of_lt_seven {k : Nat} (hk : k < 7) : (BitVec.ofNat 3 k).toNat = k := by
  rw [BitVec.toNat_ofNat]; omega

theorem ofNat_ne_seven {k : Nat} (hk : k < 7) : BitVec.ofNat 3 k ≠ 7#3 := fun e => by
  have := congrArg BitVec.toNat e
  rw [ofNat_toNat_of_lt_seven hk] at this
  simp at this
  omega

theorem vtopWrite_p (now : Nat) (va vb : Word) (t : Thread) {i k : Nat} (hi : i < 7) (hk : k < 7) :
    (vtopWrite now va vb t i).p.getLsbD k = if k = i ∧ vb.getLsbD k then va.getLsbD k else t.p.getLsbD k := by
  unfold vtopWrite
  by_cases hb : vb.getLsbD i = true
  · rw [if_pos hb, wrP_p _ _ _ _ _ _ hk, ofNat_toNat_of_lt_seven hi]
    by_cases hki : i = k
    · subst hki; simp [hb]
    · simp [hki, Ne.symm hki]
  · rw [if_neg hb]
    by_cases hki : k = i
    · subst hki; simp [hb]
    · simp [hki]

theorem vtopWrites_p (now : Nat) (va vb : Word) : ∀ (l : List Nat) (t : Thread) {k : Nat}, (∀ i ∈ l, i < 7) → k < 7 →
    (l.foldl (vtopWrite now va vb) t).p.getLsbD k = if k ∈ l ∧ vb.getLsbD k then va.getLsbD k else t.p.getLsbD k
  | [], _, _, _, _ => by simp
  | i :: l, t, k, hl, hk => by
    obtain ⟨hi, hl⟩ := List.forall_mem_cons.mp hl
    rw [List.foldl_cons, vtopWrites_p now va vb l _ hl hk, vtopWrite_p now va vb t hi hk]
    by_cases hkl : k ∈ l
    · by_cases hb : vb.getLsbD k = true <;> simp [hkl, hb]
    · rw [if_neg fun hk => hkl hk.1]
      by_cases hki : k = i <;> simp [hkl, hki]

/-! ### Compares (R96) -/

theorem combine_eq_combined (t : Thread) (k : Comb) (v : Bool) : combine s t k v = combined s t k v := by cases k <;> rfl

/-- CMP on the ordering of two integers is the comparison of the two. -/
theorem cmpHolds_ordInt (cmp : Cmp) (a b : Int) : cmpHolds cmp (ordInt a b) = match cmp with
    | .eq => decide (a = b) | .ne => decide (a ≠ b) | .lt => decide (a < b) | .le => decide (a ≤ b)
    | .gt => decide (a > b) | .ge => decide (a ≥ b) := by
  unfold ordInt
  obtain hab | rfl | hab := lt_trichotomy a b
  · cases cmp <;> simp [cmpHolds, hab, hab.le, hab.ne, hab.not_gt, hab.not_ge]
  · cases cmp <;> simp [cmpHolds]
  · cases cmp <;> simp [cmpHolds, hab, hab.le, hab.ne', hab.not_gt, hab.not_ge]

theorem preg_addFlags (now : Nat) (t : Thread) (f : Flags) (lat : Nat) (r : PReg) :
    (addFlags now h t f lat).preg r = t.preg r := by
  simp [Thread.preg]

theorem Num.isNaN_iff (n : Num) : n.isNaN = true ↔ n = .nan := by cases n <;> simp [Num.isNaN]

/-- A float compare writes pD with the combined truth, and raises its flag. -/
theorem floatCompares_of_exec {i : Instr} {f : FF} {ftz nan : Bool} {cmp : Cmp} {k : Comb} {d : PReg} {a b : Nat}
    (he : Executes h s x) (hi : exec i s = cmpEnd h s x k d (floatCmp f ftz nan cmp a b)) :
    floatCompares i s x h f ftz nan cmp k d a b := by
  obtain ⟨hnext, hdid⟩ := did_of_goOn (c := { p := [d], parts := [.fpx] }) he hi (by simp)
    (((Kept.refl _ x.thr).wrP (by simp) s.cycle _ 2).addFlags (by simp) s.cycle h _ 2)
  refine ⟨_, _, (floatCmp f ftz nan cmp a b).1, hnext, hdid, ?pred, fun hn => ?nan, fun hx hy => ?number, ?flags⟩
  case pred => rw [preg_done, preg_addFlags, preg_wrP, combine_eq_combined]
  case nan => exact if_pos (by simpa [Num.isNaN_iff] using hn)
  case number => exact if_neg (by simp [Num.isNaN_iff, hx, hy])
  case flags => simp [fpx_addFlags, floatCmp, ivIf, flagIf]

theorem integerCompareResult : Claims.IntegerCompareResult := by
  intro h ns cmp k d a b s x he val A B t
  have ht : combined s x.thr k t = combine s x.thr k (cmpHolds cmp (ordInt A B)) :=
    (congrArg (combined s x.thr k) (cmpHolds_ordInt cmp A B).symm).trans (combine_eq_combined ..).symm
  rw [ht]
  exact wrP_writes he ((exec_cmpi ..).trans (guarded_true he.1 he.2 _))

theorem floatCompareResults : Claims.FloatCompareResults := by
  intro h ftz nan cmp k d a b s x he
  exact ⟨floatCompares_of_exec he ((exec_cmpf ..).trans (guarded_true he.1 he.2 _)),
    floatCompares_of_exec he ((exec_cmpd ..).trans (guarded_true he.1 he.2 _)),
    floatCompares_of_exec he ((exec_cmph ..).trans (guarded_true he.1 he.2 _))⟩

/-! ### VTOP and moves -/

theorem kept_vtopWrites {c : Touch} {u : Thread} (now : Nat) (va vb : Word) : ∀ (l : List Nat) {w : Thread}, Kept c u w →
    (∀ i ∈ l, BitVec.ofNat 3 i ∈ c.p) → Kept c u (l.foldl (vtopWrite now va vb) w)
  | [], _, k, _ => k
  | i :: l, w, k, hl => by
    obtain ⟨hi, hl⟩ := List.forall_mem_cons.mp hl
    refine kept_vtopWrites now va vb l ?_ hl
    unfold vtopWrite
    split_ifs
    · exact k.wrP hi now _ 2
    · exact k

theorem vtopWrites_pc (now : Nat) (va vb : Word) : ∀ (l : List Nat) (t : Thread), (l.foldl (vtopWrite now va vb) t).pc = t.pc
  | [], _ => rfl
  | i :: l, t => (vtopWrites_pc now va vb l _).trans (by unfold vtopWrite; split_ifs <;> simp)

/-- VTOP gives each predicate below p7 that B names its bit of A, and leaves the others. -/
theorem vtop_writes {a b : Src} (he : Executes h s x) : ∃ t w, exec (.vtop h a b) s = .next t
    ∧ Did s t x h { p := (List.range 7).map (BitVec.ofNat 3) } w
    ∧ ∀ k, k < 7 → w.preg (BitVec.ofNat 3 k) =
        if (src32 s x.thr b).getLsbD k then (src32 s x.thr a).getLsbD k else x.thr.preg (BitVec.ofNat 3 k) := by
  let u := (List.range 7).foldl (vtopWrite s.cycle (src32 s x.thr a) (src32 s x.thr b)) x.thr
  have hi : exec (.vtop h a b) s = goOn h s x u := (exec_vtop ..).trans (guarded_true he.1 he.2 _)
  obtain ⟨hnext, hdid⟩ := did_of_goOn he hi (vtopWrites_pc ..)
    (kept_vtopWrites (c := { p := (List.range 7).map (BitVec.ofNat 3) }) _ _ _ _ (Kept.refl _ _)
      fun i hi => List.mem_map_of_mem hi)
  refine ⟨_, _, hnext, hdid, fun k hk => ?_⟩
  have hbit := vtopWrites_p s.cycle (src32 s x.thr a) (src32 s x.thr b) (List.range 7) x.thr
    (fun i hi => List.mem_range.mp hi) hk
  simp only [List.mem_range, hk, true_and] at hbit
  simp only [Thread.preg, ofNat_toNat_of_lt_seven hk, beq_false_of_ne (ofNat_ne_seven hk), Bool.false_or]
  exact hbit

theorem mov_q {d : VReg} {q : QReg} (he : Executes h s x) : exec (.mov h d (.q q)) s =
    if signedOn x.blk x.tid q then waitAt s x (.stalled (.stream q))
    else goOnPend h s x x.thr (pendVals [(d, qStatus x.blk x.tid q, false)]) :=
  (exec_mov ..).trans (guarded_true he.1 he.2 _)

end Sys2Proof.Machine

open Sys2Proof Sys2Proof.Machine in
/-- Settles O2: each form is an `intOp` or a write of predicates by `wrP`, but MOV from a q register, which waits for the
thread's own operations and then sends the status word. -/
theorem predicateAndMoveResults : Obligations.PredicateAndMoveResults := by
  intro h d p pa pb pc table q val a b s x he
  refine ⟨wrP_writes he ((exec_pfun ..).trans (guarded_true he.1 he.2 _)), intOp_writes he (exec_sel ..) rfl,
    intOp_writes (f := fun t => src32 s t a) he (exec_mov ..) rfl, intOp_writes he (exec_movi ..) rfl,
    intOp_writes he (exec_ptov ..) ?ptov, vtop_writes he, fun hq => goOnPend_sends he ((mov_q he).trans (if_neg (by simp [hq]))),
    fun hq => waits_waitAt he.1 ((mov_q he).trans (if_pos hq))⟩
  case ptov =>
    refine ⟨predByte_lt _, ?_, fun k hk => ?_⟩
    · rw [predByte_getLsbD]; rfl
    · rw [predByte_getLsbD, decide_eq_true (by omega), Bool.true_and]

/-- Settles O4: the compare of two integers is that of their ordering, and the float forms end in `cmpEnd`. -/
theorem compareResults : Obligations.CompareResults :=
  ⟨Sys2Proof.Machine.integerCompareResult, Sys2Proof.Machine.floatCompareResults⟩
end

section
/-! SUPPORT. Leaving a slot where cores have changed too, and the overlay stack as a part of the thread. -/

namespace Sys2Proof.Machine

open Sys2Proof

variable {h : Hdr} {s s' : State} {x : Cx} {c : Touch} {u w : Thread}

theorem Kept.stack (k : Kept c u w) (hc : Part.stack ∈ c.parts) (l : List (BitVec 8)) : Kept c u { w with stack := l } where
  v := k.v
  p := k.p
  a := k.a
  parts q h1 h2 := by
    cases q
    case stack => exact absurd hc h1
    all_goals exact k.parts _ h1 h2

/-- A state that differs in its cores has the cycle of the other. -/
theorem cycle_upToCores (hs : { s' with cores := s.cores } = s) : s'.cycle = s.cycle := by
  have := congrArg State.cycle hs
  exact this

/-- A thread that leaves for a slot, where cores have changed too. -/
theorem left_leave_cores (hs : { s' with cores := s.cores } = s) (hc : curCx s = some x) (pc : BitVec 16) (k : Kept c x.thr u) :
    Left pc s { setThread s' x.tid (u.leave s'.cycle h pc) with cores := s.cores } x h c (u.leave s'.cycle h pc) :=
  ⟨onlyThread_cores hs hc _, ⟨rfl, rfl, congrArg (· + _) (cycle_upToCores hs)⟩, k.leave ..⟩

theorem did_done_cores (hs : { s' with cores := s.cores } = s) (hc : curCx s = some x) (hpc : u.pc = x.thr.pc)
    (k : Kept c x.thr u) :
    Did s { setThread s' x.tid (u.done s'.cycle h) with cores := s.cores } x h c (u.done s'.cycle h) :=
  ⟨onlyThread_cores hs hc _, ⟨congrArg nextSlot hpc, rfl, congrArg (· + _) (cycle_upToCores hs)⟩, k.done ..⟩

theorem OnlyCore.setThread {n : Nat} {z : Core} (ho : OnlyCore s s' n z) (tid : ThreadId) (w : Thread) :
    OnlyCore s (setThread s' tid w) n z :=
  ⟨(coreOf_setThread ..).trans ho.1, fun k hk => (coreOf_setThread ..).trans (ho.2 k hk)⟩

end Sys2Proof.Machine
end

section
/-! PROOF. Branches, calls and returns (O10). -/

namespace Sys2Proof.Machine

open Sys2Proof

variable {i : Instr} {h : Hdr} {s : State} {x : Cx}

/-! ### Fields of a packed code address (R109) -/

theorem toNat_slotField (v : Word) : (v.extractLsb' 0 15).toNat = v.toNat % 2 ^ 15 := by simp

theorem overlayField_eq_iff (v : Word) (id : BitVec 8) : v.extractLsb' 24 8 = id ↔ v.toNat / 2 ^ 24 = id.toNat := by
  rw [← BitVec.toNat_inj, BitVec.extractLsb'_toNat, Nat.shiftRight_eq_div_pow, Nat.mod_eq_of_lt]
  have := v.isLt
  omega

theorem field_eq_zero_iff (v : Word) (lo n : Nat) : v.extractLsb' lo n = 0#n ↔ v.toNat / 2 ^ lo % 2 ^ n = 0 := by
  rw [← BitVec.toNat_inj, BitVec.extractLsb'_toNat, Nat.shiftRight_eq_div_pow]
  simp

/-! ### Branches within the overlay (R65, R113) -/

theorem branchTo_jumps {u : Thread} {target : Int} {c : Touch} {post : Thread → Prop} (he : Executes h s x)
    (hi : exec i s = branchTo h s x u target) (h0 : 0 ≤ target)
    (hok : entryOk s x.coreId x.blk.ctx x.thr.top target.toNat = true) (k : Kept c x.thr u)
    (hp : post (u.leave s.cycle h (BitVec.ofNat 16 target.toNat))) :
    JumpsTo i s x h (BitVec.ofNat 16 target.toNat) c post :=
  jumpsTo_jumpTo he (hi.trans (if_pos ⟨h0, hok⟩)) k hp

theorem branchTo_traps {u : Thread} {target : Int} (hi : exec i s = branchTo h s x u target)
    (hn : ¬(0 ≤ target ∧ entryOk s x.coreId x.blk.ctx x.thr.top target.toNat = true)) :
    TrapsOn i s x 0x02 0x00 (packAt x.thr.top target) 0 :=
  hi.trans (if_neg hn)

/-- BRX accepts a target of its own overlay, with bits 23 to 15 clear, that R64 and R111 accept. -/
theorem exec_brx_eq (he : Executes h s x) (a : VReg) : exec (.brx h a) s =
    let v := rdV s x.thr a
    if (v.toNat / 2 ^ 24 = x.thr.top.toNat ∧ v.toNat / 2 ^ 15 % 2 ^ 9 = 0)
        ∧ entryOk s x.coreId x.blk.ctx x.thr.top (v.toNat % 2 ^ 15) = true then
      jumpTo h s x x.thr (v.toNat % 2 ^ 15)
    else brtgt s x v := by
  rw [exec_brx, execBrx, guarded_true he.1 he.2]
  simp only [overlayField_eq_iff, field_eq_zero_iff, toNat_slotField, and_assoc]

theorem branchesGo : Claims.BranchesGo := by
  intro h off a s x he accepted pc v dest own
  have hbra : exec (.bra h off) s = branchTo h s x x.thr pc := (exec_bra ..).trans (guarded_true he.1 he.2 _)
  have hbrx := exec_brx_eq he a
  exact ⟨fun h0 hok => branchTo_jumps he hbra h0 hok (Kept.refl ..) trivial, branchTo_traps hbra,
    fun hown hok => jumpsTo_jumpTo he (hbrx.trans (if_pos ⟨hown, hok⟩)) (Kept.refl ..) trivial,
    fun hn => hbrx.trans (if_neg hn)⟩

/-! ### Returns (R114) -/

/-- The reserved bits of a return address are clear and its slot is one of a line. -/
def wellFormedReturn (v : Word) : Prop := v.toNat / 2 ^ 15 % 2 ^ 8 = 0 ∧ v.toNat % 8 ≤ 4

theorem wellFormedReturn_iff (v : Word) :
    wellFormedReturn v ↔ ¬(v.extractLsb' 15 8 ≠ 0#8 ∨ 4 < v.toNat % 2 ^ 15 % 8) := by
  rw [wellFormedReturn, Ne, field_eq_zero_iff]
  omega

section
variable {a : VReg} {v : Word} (he : Executes h s x) (hv : rdV s x.thr a = v)
include he hv

theorem exec_ret_malformed (hn : ¬ wellFormedReturn v) : exec (.ret h a) s = brtgt s x v := by
  rw [wellFormedReturn_iff, not_not] at hn
  rw [exec_ret, execRet, guarded_true he.1 he.2]
  simp only [hv, toNat_slotField, if_pos hn]

variable (hp : wellFormedReturn v)
include hp

/-- With XO = 0, RET stays in the current overlay. -/
theorem exec_ret_within (hxo : v.getLsbD 23 = false) : exec (.ret h a) s =
    if v.extractLsb' 24 8 = x.thr.top ∧ entryOk s x.coreId x.blk.ctx (v.extractLsb' 24 8) (v.toNat % 2 ^ 15) = true then
      jumpTo h s x x.thr (v.toNat % 2 ^ 15)
    else brtgt s x v := by
  rw [wellFormedReturn_iff] at hp
  rw [exec_ret, execRet, guarded_true he.1 he.2]
  simp only [hv, toNat_slotField, if_neg hp, hxo, Bool.not_false, if_true]

/-- With XO = 1, RET pops the overlay stack. -/
theorem exec_ret_across (hxo : v.getLsbD 23 = true) {top below : BitVec 8} {rest : List (BitVec 8)}
    (hst : x.thr.stack = top :: below :: rest) : exec (.ret h a) s =
    if v.extractLsb' 24 8 = below ∧ entryOk s x.coreId x.blk.ctx (v.extractLsb' 24 8) (v.toNat % 2 ^ 15) = true then
      jumpTo h (dropRef s x.coreId (ovKey s x.coreId x.blk.ctx top)) x { x.thr with stack := below :: rest } (v.toNat % 2 ^ 15)
    else brtgt s x v := by
  rw [wellFormedReturn_iff] at hp
  rw [exec_ret, execRet, guarded_true he.1 he.2]
  simp only [hv, toNat_slotField, if_neg hp, hxo, Bool.not_true, Bool.false_eq_true, if_false, hst]

theorem exec_ret_no_caller (hxo : v.getLsbD 23 = true) (hst : ∀ top below rest, x.thr.stack ≠ top :: below :: rest) :
    exec (.ret h a) s = brtgt s x v := by
  rw [wellFormedReturn_iff] at hp
  rw [exec_ret, execRet, guarded_true he.1 he.2]
  simp only [hv, toNat_slotField, if_neg hp, hxo, Bool.not_true, Bool.false_eq_true, if_false]

omit hp in
/-- RET traps on a malformed address, one that R64 and R111 refuse, and one that does not lead to the overlay it may return to. -/
theorem exec_ret_traps (hn : ¬ wellFormedReturn v
    ∨ ¬ entryOk s x.coreId x.blk.ctx (v.extractLsb' 24 8) (v.toNat % 2 ^ 15) = true
    ∨ (v.getLsbD 23 = false ∧ v.extractLsb' 24 8 ≠ x.thr.top)
    ∨ (v.getLsbD 23 = true ∧ ∀ top below rest, x.thr.stack = top :: below :: rest → v.extractLsb' 24 8 ≠ below)) :
    exec (.ret h a) s = brtgt s x v := by
  by_cases hp : wellFormedReturn v
  case neg => exact exec_ret_malformed he hv hp
  cases hxo : v.getLsbD 23 with
  | false =>
    refine (exec_ret_within he hv hp hxo).trans (if_neg fun ⟨hid, hok⟩ => ?_)
    obtain hn | hn | ⟨-, hn⟩ | ⟨hxo', -⟩ := hn
    exacts [hn hp, hn hok, hn hid, Bool.noConfusion (hxo.symm.trans hxo')]
  | true =>
    by_cases hst : ∃ top below rest, x.thr.stack = top :: below :: rest
    · obtain ⟨top, below, rest, hst⟩ := hst
      refine (exec_ret_across he hv hp hxo hst).trans (if_neg fun ⟨hid, hok⟩ => ?_)
      obtain hn | hn | ⟨hxo', -⟩ | ⟨-, hn⟩ := hn
      exacts [hn hp, hn hok, Bool.noConfusion (hxo.symm.trans hxo'), hn _ _ _ hst hid]
    · exact exec_ret_no_caller he hv hp hxo fun top below rest e => hst ⟨top, below, rest, e⟩

end

theorem callsAndReturns : Claims.CallsAndReturns := by
  intro h d off a s x he accepted pc v id dest plain key
  have hcall : exec (.call h d off) s
      = branchTo h s x (wrV s.cycle x.thr d (packAddr x.thr.top false (nextSlot x.thr.pc)) 2) pc :=
    (exec_call ..).trans (guarded_true he.1 he.2 _)
  refine ⟨fun h0 hok => ?call, branchTo_traps hcall, fun hp hxo hid hok => ?within, fun below rest hp hxo hst hid hok => ?across,
    exec_ret_traps he rfl⟩
  case call =>
    refine branchTo_jumps he hcall h0 hok ((Kept.refl _ _).wrV (by simp) ..) ?_
    exact (vreg_wrV s.cycle _ d _ 2 d).trans (if_pos rfl)
  case within =>
    exact jumpsTo_jumpTo he ((exec_ret_within he rfl hp hxo).trans (if_pos ⟨hid, hok⟩)) (Kept.refl ..) trivial
  case across =>
    have hi := (exec_ret_across he rfl hp hxo hst).trans (if_pos ⟨hid, hok⟩)
    exact ⟨_, _, hi, left_leave_cores (dropRef_rest ..) he.1 _ ((Kept.refl _ _).stack (by simp) _), rfl,
      (onlyCore_dropRef ..).setThread ..⟩

end Sys2Proof.Machine

/-- Settles O10: BRA and CALL end in `branchTo`, BRX and RET in a jump under their checks, and in BRTGT otherwise. -/
theorem branchesCallsAndReturns : Obligations.BranchesCallsAndReturns :=
  ⟨Sys2Proof.Machine.branchesGo, Sys2Proof.Machine.callsAndReturns⟩
end

section
/-! PROOF. Overlays entered, refused and kept (O11). -/

namespace Sys2Proof.Machine

open Sys2Proof

variable {i : Instr} {h : Hdr} {s : State} {x : Cx}

/-! ### The residency table -/

theorem Core.key_modResid (c : Core) (k : RKey) (f : Resid → Resid) (ctx : Nat) (id : BitVec 8) :
    (c.modResid k f).key ctx id = c.key ctx id := rfl

theorem ovKey_addRef (core : Nat) (k : RKey) (ctx : Nat) (id : BitVec 8) : ovKey (addRef s core k) core ctx id = ovKey s core ctx id := by
  unfold ovKey addRef
  rw [coreOf_setCore, if_pos rfl, Core.key_modResid]

theorem Core.find_key {c : Core} {k : RKey} {r : Resid} (hr : c.find k = some r) : r.key = k := by
  simpa using List.find?_some hr

theorem onlyCore_addRef (core : Nat) (k : RKey) :
    OnlyCore s (addRef s core k) core ((coreOf s core).modResid k (fun r => { r with refs := r.refs + 1 })) :=
  ⟨by rw [addRef, coreOf_setCore, if_pos rfl], fun j hj => by rw [addRef, coreOf_setCore, if_neg hj]⟩

theorem OnlyCore.trans {s t u : State} {n : Nat} {a b : Core} (h1 : OnlyCore s t n a) (h2 : OnlyCore t u n b) : OnlyCore s u n b :=
  ⟨h2.1, fun k hk => (h2.2 k hk).trans (h1.2 k hk)⟩

theorem upToCores_trans {s t u : State} (h1 : { t with cores := s.cores } = s) (h2 : { u with cores := t.cores } = t) :
    { u with cores := s.cores } = s :=
  (congrArg (fun z : State => { z with cores := s.cores }) h2).trans h1

/-! ### What CALLO and JMPO do (R115) -/

section
variable {d : Option VReg} {o : OvSel} {entry : BitVec 15} {w : IWord}

/-- The overlay that the operand names, and the KEY of its copy. -/
def operandKey (s : State) (x : Cx) (o : OvSel) : RKey := ovKey s x.coreId x.blk.ctx (ovidOf s x.thr o)

theorem enterOv_no_entry (hn : ovEntryOf s x.blk.ctx (ovidOf s x.thr o) = none) :
    enterOv h s x d o entry w = ovmiss s x 0x01 (ovidOf s x.thr o) entry := by
  simp only [enterOv, hn]

variable {e : OvEntry} (hent : ovEntryOf s x.blk.ctx (ovidOf s x.thr o) = some e)
include hent

/-- CALLO with a full overlay stack (R110). -/
theorem enterOv_full (hd : d.isSome = true) (hfull : stackLimit x.thr ≤ x.thr.stack.length) :
    enterOv h s x d o entry w = illop s x w 0x01 := by
  simp only [enterOv, hent, if_pos (And.intro hd hfull)]

variable (hroom : ¬(d.isSome = true ∧ stackLimit x.thr ≤ x.thr.stack.length))
include hroom

theorem enterOv_absent_trapping (hf : (coreOf s x.coreId).find (operandKey s x o) = none)
    (htrap : launchFlag s x.blk Launch.ovTrap = true) :
    enterOv h s x d o entry w = ovmiss s x 0x00 (ovidOf s x.thr o) entry := by
  rw [operandKey] at hf
  simp only [enterOv, hent, if_neg hroom, hf, htrap, Bool.not_true, Bool.not_false, if_true]

variable {r : Resid} (hf : (coreOf s x.coreId).find (operandKey s x o) = some r)
include hf

theorem enterOv_found : enterOv h s x d o entry w =
    if r.state = .resident ∨ (r.state = .draining ∧ x.thr.stack.contains (ovidOf s x.thr o) = true) then
      enterOverlay h s x d (ovidOf s x.thr o) entry
    else if r.state = .loading ∧ (!launchFlag s x.blk Launch.ovTrap) = true then
      .next (setThread s x.tid { x.thr with status := .parkedLoad [ovidOf s x.thr o] (.call entry) })
    else waitAt s x (.waiting (.overlay (ovidOf s x.thr o))) := by
  rw [operandKey] at hf
  simp only [enterOv, hent, if_neg hroom, hf]

theorem enterOv_enters (hst : r.state = .resident ∨ (r.state = .draining ∧ ovidOf s x.thr o ∈ x.thr.stack)) :
    enterOv h s x d o entry w = enterOverlay h s x d (ovidOf s x.thr o) entry :=
  (enterOv_found hent hroom hf).trans (if_pos (by simpa using hst))

/-- A copy that drains and is not on the stack is waited for. -/
theorem enterOv_draining (hst : r.state = .draining) (hid : ovidOf s x.thr o ∉ x.thr.stack) :
    enterOv h s x d o entry w = waitAt s x (.waiting (.overlay (ovidOf s x.thr o))) := by
  rw [enterOv_found hent hroom hf, if_neg (by simp [hst, hid]), if_neg (by simp [hst])]

/-- A copy that is loading is waited for under OVMODE TRAP, and parked on under AUTO. -/
theorem enterOv_loading (hst : r.state = .loading) : enterOv h s x d o entry w =
    if launchFlag s x.blk Launch.ovTrap = true then waitAt s x (.waiting (.overlay (ovidOf s x.thr o)))
    else .next (setThread s x.tid { x.thr with status := .parkedLoad [ovidOf s x.thr o] (.call entry) }) := by
  rw [enterOv_found hent hroom hf, if_neg (by simp [hst])]
  cases launchFlag s x.blk Launch.ovTrap <;> simp [hst]

end

/-! ### Arrival in an overlay -/

theorem ofNat_entry (entry : BitVec 15) : BitVec.ofNat 16 entry.toNat = 0#1 ++ entry := by
  apply BitVec.eq_of_toNat_eq
  rw [BitVec.toNat_ofNat, BitVec.toNat_append]
  simp
  omega

section
variable {id : BitVec 8} {entry : BitVec 15}

theorem enterOverlay_refused {d : Option VReg} (hok : entryOk s x.coreId x.blk.ctx id entry.toNat = false) :
    enterOverlay h s x d id entry =
      brtgt (dropRef (addRef s x.coreId (ovKey s x.coreId x.blk.ctx id)) x.coreId (ovKey s x.coreId x.blk.ctx id)) x
        (packAddr id false (0#1 ++ entry)) := by
  simp only [enterOverlay, hok, Bool.not_false, if_true]

variable (hok : entryOk s x.coreId x.blk.ctx id entry.toNat = true)
include hok

/-- CALLO takes the reference, writes its return address and pushes. -/
theorem enterOverlay_call (d : VReg) :
    let taken := addRef s x.coreId (ovKey s x.coreId x.blk.ctx id)
    let u := { wrV s.cycle x.thr d (packAddr x.thr.top true (nextSlot x.thr.pc)) 2 with stack := id :: x.thr.stack }
    enterOverlay h s x (some d) id entry = .next (setThread taken x.tid (u.leave taken.cycle h (0#1 ++ entry))) := by
  simp only [enterOverlay, hok, Bool.not_true, Bool.false_eq_true, if_false, jumpTo, ofNat_entry]
  rfl

/-- JMPO takes the reference, releases that of the overlay it leaves, and replaces the top. -/
theorem enterOverlay_jump :
    let moved := dropRef (addRef s x.coreId (ovKey s x.coreId x.blk.ctx id)) x.coreId (ovKey s x.coreId x.blk.ctx x.thr.top)
    let u := { x.thr with stack := id :: x.thr.stack.tail }
    enterOverlay h s x none id entry = .next (setThread moved x.tid (u.leave moved.cycle h (0#1 ++ entry))) := by
  simp only [enterOverlay, hok, Bool.not_true, Bool.false_eq_true, if_false, jumpTo, ofNat_entry, ovKey_addRef]

end

theorem overlaysEntered : Claims.OverlaysEntered := by
  intro h d o entry s x e r he id key taken limit hent hf hst hok
  have hcallo : exec (.callo h d o entry) s = enterOv h s x (some d) o entry (encode (.callo h d o entry)) :=
    (exec_callo ..).trans (guarded_true he.1 he.2 _)
  have hjmpo : exec (.jmpo h o entry) s = enterOv h s x none o entry (encode (.jmpo h o entry)) :=
    (exec_jmpo ..).trans (guarded_true he.1 he.2 _)
  refine ⟨fun hroom => ?call, fun hfull => hcallo.trans (enterOv_full hent rfl hfull), ?jump⟩
  case call =>
    have hi := hcallo.trans ((enterOv_enters hent (fun hfull => absurd hfull.2 (Nat.not_le.mpr hroom)) hf hst).trans
      (enterOverlay_call hok d))
    exact ⟨_, _, hi, left_leave_cores (addRef_rest ..) he.1 _ (((Kept.refl _ _).wrV (by simp) ..).stack (by simp) _),
      (vreg_wrV s.cycle _ d _ 2 d).trans (if_pos rfl), rfl, (onlyCore_addRef ..).setThread ..⟩
  case jump =>
    have hi := hjmpo.trans ((enterOv_enters hent (by simp) hf hst).trans (enterOverlay_jump hok))
    exact ⟨_, _, hi, left_leave_cores (upToCores_trans (addRef_rest ..) (dropRef_rest ..)) he.1 _
      ((Kept.refl _ _).stack (by simp) _), rfl, ((onlyCore_addRef ..).trans (onlyCore_dropRef ..)).setThread ..⟩

/-- An instruction that enters an overlay as CALLO and JMPO do, where it cannot enter it. -/
theorem notEntered {d : Option VReg} {o : OvSel} {entry : BitVec 15} {w : IWord} (hc : curCx s = some x)
    (hi : exec i s = enterOv h s x d o entry w) :
    let id := ovidOf s x.thr o
    let key := ovKey s x.coreId x.blk.ctx id
    let found := (coreOf s x.coreId).find key
    let trapping := launchFlag s x.blk Launch.ovTrap = true
    (ovEntryOf s x.blk.ctx id = none → TrapsOn i s x 0x18 0x01 (id.setWidth 32) (entry.setWidth 32))
    ∧ (∀ e, ovEntryOf s x.blk.ctx id = some e → x.thr.stack.length < stackLimit x.thr →
        (found = none → trapping → TrapsOn i s x 0x18 0x00 (id.setWidth 32) (entry.setWidth 32))
        ∧ (∀ r, found = some r → r.state = .resident → entryOk s x.coreId x.blk.ctx id entry.toNat = false →
            exec i s = .next (takeTrap (dropRef (addRef s x.coreId key) x.coreId key) x.tid
              ⟨0x02, 0x00, x.thr.pcWord, packAddr id false (0#1 ++ entry), 0⟩))
        ∧ (∀ r, found = some r → r.state = .draining → id ∉ x.thr.stack → Waits i s x (.waiting (.overlay id)))
        ∧ (∀ r, found = some r → r.state = .loading → trapping → Waits i s x (.waiting (.overlay id)))
        ∧ (∀ r, found = some r → r.state = .loading → ¬ trapping →
            ∃ t, exec i s = .next t ∧ OnlyThread s t x.tid { x.thr with status := .parkedLoad [id] (.call entry) })) := by
  intro id key found trapping
  refine ⟨fun hn => hi.trans (enterOv_no_entry hn), fun e hent hlt => ?_⟩
  have hroom : ¬(d.isSome = true ∧ stackLimit x.thr ≤ x.thr.stack.length) := fun hfull => Nat.not_le.mpr hlt hfull.2
  refine ⟨fun hf htrap => hi.trans (enterOv_absent_trapping hent hroom hf htrap), fun r hf hst hok => ?refused,
    fun r hf hst hid => waits_waitAt hc (hi.trans (enterOv_draining hent hroom hf hst hid)), fun r hf hst htrap => ?waits,
    fun r hf hst htrap => ?parks⟩
  case refused => exact hi.trans ((enterOv_enters hent hroom hf (.inl hst)).trans (enterOverlay_refused hok))
  case waits => exact waits_waitAt hc (hi.trans ((enterOv_loading hent hroom hf hst).trans (if_pos htrap)))
  case parks =>
    exact ⟨_, hi.trans ((enterOv_loading hent hroom hf hst).trans (if_neg htrap)), onlyThread_setThread hc _⟩

theorem overlaysNotEntered : Claims.OverlaysNotEntered := by
  intro h d o entry s x he id key found trapping limit
  simp only [List.forall_mem_cons]
  exact ⟨notEntered he.1 ((exec_callo ..).trans (guarded_true he.1 he.2 _)),
    notEntered he.1 ((exec_jmpo ..).trans (guarded_true he.1 he.2 _)), List.forall_mem_nil _⟩

/-! ### OVLD, OVREL and OVQ (R120) -/

section
variable {d : VReg} {o : OvSel} (he : Executes h s x)
include he

theorem exec_ovld_no_entry (hn : ovEntryOf s x.blk.ctx (ovidOf s x.thr o) = none) :
    TrapsOn (.ovld h d o) s x 0x18 0x01 ((ovidOf s x.thr o).setWidth 32) 0 := by
  rw [TrapsOn, exec_ovld, execOvld, guarded_true he.1 he.2]
  simp only [hn]
  rfl

/-- OVREL of an empty table entry, or of an overlay that is absent, only goes on. -/
theorem exec_ovrel_absent (hn : ovEntryOf s x.blk.ctx (ovidOf s x.thr o) = none
    ∨ (coreOf s x.coreId).find (operandKey s x o) = none) : exec (.ovrel h o) s = goOn h s x x.thr := by
  rw [exec_ovrel, execOvrel, guarded_true he.1 he.2]
  rw [operandKey, ovKey] at hn
  dsimp only
  split
  · rename_i e r hent hf
    simp [hent, hf] at hn
  · rfl

theorem ovq_sends {lo hi : Word}
    (hw : ovqWords (ovEntryOf s x.blk.ctx (ovidOf s x.thr o)) ((coreOf s x.coreId).find (operandKey s x o)) = (lo, hi)) :
    Sends (.ovq h d o) s x h ⟨false, [(d, lo, false), (d + 1, hi, false)], none, 0, false⟩ := by
  rw [operandKey] at hw
  refine goOnPend_sends he ?_
  rw [exec_ovq, execOvq, guarded_true he.1 he.2]
  simp only [hw]
  rfl

variable {e : OvEntry} (hent : ovEntryOf s x.blk.ctx (ovidOf s x.thr o) = some e)
include hent

theorem exec_ovld_no_room (hroom : ¬ x.thr.tokens.length < 8) : exec (.ovld h d o) s = waitAt s x (.stalled .tokenLimit) := by
  rw [exec_ovld, execOvld, guarded_true he.1 he.2]
  simp only [hent]
  exact if_neg hroom

variable {r : Resid} (hf : (coreOf s x.coreId).find (operandKey s x o) = some r)
include hf

/-- OVLD of a copy that is there: its token waits on the load, or the overlay is resident at once. -/
theorem exec_ovld_found (hroom : x.thr.tokens.length < 8) : exec (.ovld h d o) s =
    if r.state = .loading then goOn h s x (markToken x.thr d (.load (operandKey s x o)))
    else goOn h (setCore s x.coreId ((coreOf s x.coreId).modResid (operandKey s x o) (fun r => { r with state := .resident }))) x
      (wrV s.cycle x.thr d 0 0) := by
  rw [operandKey] at hf ⊢
  rw [exec_ovld, execOvld, guarded_true he.1 he.2]
  simp only [hent, hf]
  exact if_pos hroom

/-- OVREL of a copy that is there: of one of the context alone that is not loading, the copy leaves the store or drains. -/
theorem exec_ovrel_found : exec (.ovrel h o) s =
    if e.pub = true ∨ (operandKey s x o).isPub = true ∨ r.state = .loading then goOn h s x x.thr
    else if r.refs = 0 then goOn h (setCore s x.coreId ((coreOf s x.coreId).evict (operandKey s x o))) x x.thr
    else goOn h (setCore s x.coreId ((coreOf s x.coreId).modResid (operandKey s x o) (fun r => { r with state := .draining }))) x x.thr := by
  rw [operandKey, ovKey] at hf ⊢
  rw [exec_ovrel, execOvrel, guarded_true he.1 he.2]
  simp only [hent, hf, Bool.or_eq_true, beq_iff_eq, or_assoc]

end

theorem toNat_append_eq_add {n m : Nat} (a : BitVec n) (b : BitVec m) : (a ++ b).toNat = a.toNat * 2 ^ m + b.toNat := by
  rw [BitVec.toNat_append, ← Nat.shiftLeft_add_eq_or_of_lt b.isLt, Nat.shiftLeft_eq]

/-- The low word of Table 4.11: REFS and STATE. -/
theorem ovq_low_word (refs : Nat) {code : Nat} (hc : code < 2 ^ 16) :
    BitVec.ofNat 16 refs ++ BitVec.ofNat 16 code = BitVec.ofNat 32 (refs * 2 ^ 16 + code) := by
  apply BitVec.eq_of_toNat_eq
  simp only [toNat_append_eq_add, BitVec.toNat_ofNat]
  omega

/-- The high word of Table 4.11: LEN and BASE. -/
theorem ovq_high_word (len base : Nat) : 0#4 ++ BitVec.ofNat 12 len ++ 0#4 ++ BitVec.ofNat 12 base
    = BitVec.ofNat 32 (len % 2 ^ 12 * 2 ^ 16 + base % 2 ^ 12) := by
  apply BitVec.eq_of_toNat_eq
  simp only [toNat_append_eq_add, BitVec.toNat_ofNat]
  omega

theorem RState.code_lt (q : RState) : RState.code q < 4 := by cases q <;> decide

/-- Table 4.11, of a copy that is there. -/
theorem ovqWords_found (e : OvEntry) {c : Core} {k : RKey} {r : Resid} (hr : c.find k = some r) :
    ovqWords (some e) (some r) =
      (BitVec.ofNat 32 (min r.refs 0xFFFF * 2 ^ 16 + (if k.isPub then 4 else 0) + RState.code r.state),
       BitVec.ofNat 32 (r.len % 2 ^ 12 * 2 ^ 16 + (if r.state = .loading then 0 else r.base % 2 ^ 12))) := by
  have hcode := RState.code_lt r.state
  have hpub : (if k.isPub then 4 else 0) ≤ 4 := by split <;> omega
  refine Prod.ext ?_ ?_
  · simp only [ovqWords, Core.find_key hr, Nat.add_assoc]
    exact ovq_low_word _ (by omega)
  · by_cases hst : r.state = .loading
    · simp only [ovqWords, if_pos hst]
      exact ovq_high_word r.len 0
    · simp only [ovqWords, if_neg hst]
      exact ovq_high_word r.len r.base

theorem overlayTableInstructions : Claims.OverlayTableInstructions := by
  intro h d o s x he id key core room
  have hkept := Kept.refl {} x.thr
  refine ⟨fun hn => ⟨exec_ovld_no_entry he hn, ?none, ?noWords⟩, fun e hent => ⟨fun hroom => ?noRoom, fun hf => ⟨?absent, ?absentWords⟩,
    fun r hf => ⟨fun hroom hst => ?joins, fun hroom hst => ?resident, fun hkeep => ?keeps, fun hpub hkey hst => ?leaves, ?words⟩⟩⟩
  case none => exact goes_goOn he (exec_ovrel_absent he (.inl hn)) rfl hkept trivial
  case noWords => exact ovq_sends he (congrArg (ovqWords · _) hn)
  case noRoom => exact waits_waitAt he.1 (exec_ovld_no_room he hent hroom)
  case absent => exact goes_goOn he (exec_ovrel_absent he (.inr hf)) rfl hkept trivial
  case absentWords => exact ovq_sends he (congrArg₂ ovqWords hent hf)
  case joins =>
    exact goes_goOn he ((exec_ovld_found he hent hf hroom).trans (if_pos hst)) rfl ((Kept.refl _ _).tokens (by simp) _) rfl
  case resident =>
    have hi := (exec_ovld_found (d := d) he hent hf hroom).trans (if_neg hst)
    exact ⟨_, _, hi, did_done_cores (setCore_rest ..) he.1 rfl ((Kept.refl _ _).wrV (by simp) ..),
      (vreg_wrV s.cycle x.thr d 0 0 d).trans (if_pos rfl), onlyCore_setCore ..⟩
  case keeps => exact goes_goOn he ((exec_ovrel_found he hent hf).trans (if_pos hkeep)) rfl hkept trivial
  case leaves =>
    have hn : ¬(e.pub = true ∨ (operandKey s x o).isPub = true ∨ r.state = .loading) := by
      have hk : (operandKey s x o).isPub = false := hkey
      simp [hpub, hk, hst]
    have hi := (exec_ovrel_found he hent hf).trans (if_neg hn)
    by_cases hrefs : r.refs = 0
    · refine ⟨_, _, hi.trans (if_pos hrefs), did_done_cores (setCore_rest ..) he.1 rfl hkept, ?_⟩
      rw [if_pos hrefs]
      exact onlyCore_setCore ..
    · refine ⟨_, _, hi.trans (if_neg hrefs), did_done_cores (setCore_rest ..) he.1 rfl hkept, ?_⟩
      rw [if_neg hrefs]
      exact onlyCore_setCore ..
  case words => exact ovq_sends he ((congrArg₂ ovqWords hent hf).trans (ovqWords_found e hf))

end Sys2Proof.Machine

/-- Settles O11: CALLO and JMPO by what `enterOv` does in each state of the overlay, OVLD, OVREL and OVQ by that of its table
entry and its copy. -/
theorem overlaysAreEnteredAndKept : Obligations.OverlaysAreEnteredAndKept :=
  ⟨Sys2Proof.Machine.overlaysEntered, Sys2Proof.Machine.overlaysNotEntered, Sys2Proof.Machine.overlayTableInstructions⟩
end

section
/-! SUPPORT. References and logs: what taking and releasing references, and closing a region, leave of the cores and of the
machine. -/

namespace Sys2Proof.Machine

open Sys2Proof

/-! ### Cores by number -/

theorem Assoc.get_mapVals {α : Type} (f : Nat → α → α) : ∀ (m : Assoc α) (k : Nat),
    Assoc.get (Assoc.mapVals m f) k = (Assoc.get m k).map (f k)
  | [], _ => rfl
  | (j, v) :: m, k => by
    have ih := Assoc.get_mapVals f m k
    simp only [Assoc.mapVals, List.map_cons, Assoc.get] at ih ⊢
    by_cases hk : k = j
    · subst hk; simp
    · rw [if_neg hk, if_neg hk]
      split_ifs
      · rfl
      · exact ih

/-- A change of every core that leaves the empty one as it is changes each core. -/
theorem coreOf_mapVals (s : State) {f : Core → Core} (hf : f Core.empty = Core.empty) (k : Nat) :
    coreOf { s with cores := Assoc.mapVals s.cores (fun _ c => f c) } k = f (coreOf s k) := by
  simp only [coreOf, Assoc.getD, Assoc.get_mapVals]
  cases Assoc.get s.cores k with
  | none => exact hf.symm
  | some c => rfl

theorem coreOf_congr {s t : State} (h : t.cores = s.cores) (k : Nat) : coreOf t k = coreOf s k := by
  unfold coreOf; rw [h]

theorem coreOf_closeRegion (s : State) (tid : ThreadId) (k : Nat) :
    coreOf (closeRegion s tid) k = { coreOf s k with log := (coreOf s k).log.map (LogEntry.close tid) } :=
  coreOf_mapVals s (f := fun c => { c with log := c.log.map (LogEntry.close tid) }) rfl k

/-! ### References -/

/-- Beside one core, a state is as another. -/
def AtCore (n : Nat) (s t : State) : Prop := { t with cores := s.cores } = s ∧ ∀ k, k ≠ n → coreOf t k = coreOf s k

theorem AtCore.refl (n : Nat) (s : State) : AtCore n s s := ⟨rfl, fun _ _ => rfl⟩

theorem AtCore.trans {n : Nat} {s t u : State} (h1 : AtCore n s t) (h2 : AtCore n t u) : AtCore n s u :=
  ⟨upToCores_trans h1.1 h2.1, fun k hk => (h2.2 k hk).trans (h1.2 k hk)⟩

theorem AtCore.onlyCore {n : Nat} {s t : State} (h : AtCore n s t) : OnlyCore s t n (coreOf t n) := ⟨rfl, h.2⟩

theorem AtCore.blocks {n : Nat} {s t : State} (h : AtCore n s t) : t.blocks = s.blocks := by
  have := congrArg State.blocks h.1
  exact this

theorem atCore_addRef (s : State) (n : Nat) (k : RKey) : AtCore n s (addRef s n k) :=
  ⟨addRef_rest .., (onlyCore_addRef n k).2⟩

theorem atCore_dropRef (s : State) (n : Nat) (k : RKey) : AtCore n s (dropRef s n k) :=
  ⟨dropRef_rest .., (onlyCore_dropRef n k).2⟩

theorem atCore_addRefs (n ctx : Nat) : ∀ (ids : List (BitVec 8)) (s : State), AtCore n s (addRefs s n ctx ids)
  | [], s => AtCore.refl n s
  | id :: ids, s => (atCore_addRef s n (ovKey s n ctx id)).trans (atCore_addRefs n ctx ids _)

theorem atCore_dropRefs (n ctx : Nat) : ∀ (ids : List (BitVec 8)) (s : State), AtCore n s (dropRefs s n ctx ids)
  | [], s => AtCore.refl n s
  | id :: ids, s => (atCore_dropRef s n (ovKey s n ctx id)).trans (atCore_dropRefs n ctx ids _)

/-! ### Logs -/

theorem Core.evict_log (c : Core) (k : RKey) : (c.evict k).log = c.log := by unfold Core.evict; split <;> rfl

theorem addRef_log (s : State) (n : Nat) (k : RKey) (j : Nat) : (coreOf (addRef s n k) j).log = (coreOf s j).log := by
  rw [addRef, coreOf_setCore]
  split_ifs with hj
  · rw [hj]; rfl
  · rfl

theorem dropRef_log (s : State) (n : Nat) (k : RKey) (j : Nat) : (coreOf (dropRef s n k) j).log = (coreOf s j).log := by
  by_cases hj : j = n
  case neg => rw [(onlyCore_dropRef n k).2 j hj]
  subst hj
  unfold dropRef
  cases h : (coreOf s j).find k with
  | none => simp only [h]
  | some r =>
    simp only [h]
    split_ifs <;> rw [coreOf_setCore, if_pos rfl]
    · exact Core.evict_log ..
    all_goals rfl

theorem addRefs_log (n ctx j : Nat) : ∀ (ids : List (BitVec 8)) (s : State), (coreOf (addRefs s n ctx ids) j).log = (coreOf s j).log
  | [], _ => rfl
  | _ :: ids, _ => (addRefs_log n ctx j ids _).trans (addRef_log ..)

theorem dropRefs_log (n ctx j : Nat) : ∀ (ids : List (BitVec 8)) (s : State), (coreOf (dropRefs s n ctx ids) j).log = (coreOf s j).log
  | [], _ => rfl
  | _ :: ids, _ => (dropRefs_log n ctx j ids _).trans (dropRef_log ..)

end Sys2Proof.Machine
end

section
/-! PROOF. NOP, YIELD, TWAIT and EXIT (O12). -/

namespace Sys2Proof.Machine

open Sys2Proof

variable {h : Hdr} {s : State} {x : Cx}

theorem exec_twait_eq (he : Executes h s x) (a : Src) : exec (.twait h a) s =
    if x.thr.tokens.length ≤ (src32 s x.thr a).toNat then goOn h s x x.thr
    else waitAt s x (.waiting (.twait (src32 s x.thr a).toNat)) :=
  (exec_twait ..).trans (guarded_true he.1 he.2 _)

/-- YIELD goes on with its mark set (R117). -/
theorem goes_yield (he : Executes h s x) : Goes (.yield h) s x h {} (fun w => w.sched.yielded = some s.cycle) := by
  have hi : exec (.yield h) s = .next (setThread s x.tid { x.thr.done s.cycle h with
      sched := { (x.thr.done s.cycle h).sched with yielded := some s.cycle } }) := (exec_yield ..).trans (guarded_true he.1 he.2 _)
  have k : Kept {} x.thr (x.thr.done s.cycle h) := (Kept.refl _ _).done ..
  exact ⟨_, _, hi, ⟨onlyThread_setThread he.1 _, ⟨rfl, rfl, rfl⟩, ⟨k.v, k.p, k.a, fun q h1 h2 => by cases q <;> exact k.parts _ h1 h2⟩⟩, rfl⟩

theorem nopYieldAndTokenWait : Claims.NopYieldAndTokenWait := by
  intro h a s x he n
  exact ⟨goes_goOn he ((exec_nop ..).trans (guarded_true he.1 he.2 _)) rfl (Kept.refl ..) rfl, goes_yield he,
    fun hn => goes_goOn he ((exec_twait_eq he a).trans (if_pos hn)) rfl (Kept.refl ..) trivial,
    fun hn => waits_waitAt he.1 ((exec_twait_eq he a).trans (if_neg (Nat.not_le.mpr hn)))⟩

/-! ### The state that EXIT leaves (R116, R180, R231) -/

/-- A thread that has retired. -/
def Thread.retire (t : Thread) : Thread := { t with status := .retired, trap := none, stack := [], rpStack := [] }

/-- The machine with the region of a thread closed and its references released. -/
def regionClosed (s : State) (x : Cx) : State := dropRefs (closeRegion s x.tid) x.coreId x.blk.ctx (x.thr.stack ++ x.thr.rpStack)

/-- The block that a thread leaves by retiring. -/
def blockLeft (x : Cx) : Block := retireBlock (x.blk.setThread x.tid.tidx x.thr.retire)

theorem atCore_regionClosed (s : State) (x : Cx) : AtCore x.coreId (closeRegion s x.tid) (regionClosed s x) := atCore_dropRefs ..

/-- The machine with the thread retired, and the block that it leaves in its slot. -/
def threadLeft (s : State) (x : Cx) : State :=
  setBlock (setThread (regionClosed s x) x.tid x.thr.retire) x.tid.slot (blockLeft x)

theorem retireThread_eq (hc : curCx s = some x) : retireThread s x =
    if (blockLeft x).phase = .retired then
      modLaunch (threadLeft s x) (blockLeft x).launch (fun l => { l with retiredN := l.retiredN + 1 })
    else threadLeft s x := by
  obtain ⟨-, hb, -⟩ := (curCx_eq_some s x).mp hc
  have hblock : blockOf (setThread (regionClosed s x) x.tid x.thr.retire) x.tid.slot
      = some (x.blk.setThread x.tid.tidx x.thr.retire) := by
    have hs : blockOf (regionClosed s x) x.tid.slot = some x.blk := by
      rw [blockOf, (atCore_regionClosed s x).blocks]
      exact hb
    rw [blockOf_setThread, if_pos rfl, hs]
    rfl
  unfold retireThread
  dsimp only
  rw [regionClosed, Thread.retire] at hblock
  simp only [hblock]
  rfl

theorem retireBlock_launch (b : Block) : (retireBlock b).launch = b.launch := by unfold retireBlock; split <;> rfl

theorem retireThread_cores (hc : curCx s = some x) : (retireThread s x).cores = (regionClosed s x).cores := by
  rw [retireThread_eq hc]
  split_ifs <;> simp [threadLeft]

/-- Retiring changes blocks, cores and launches alone. -/
theorem retireThread_rest (hc : curCx s = some x) :
    { retireThread s x with blocks := s.blocks, cores := s.cores, launches := s.launches } = s := by
  have hclosed : { regionClosed s x with blocks := s.blocks, cores := s.cores, launches := s.launches } = s :=
    congrArg (fun z : State => { z with blocks := s.blocks, cores := s.cores, launches := s.launches }) (atCore_regionClosed s x).1
  have hset : { threadLeft s x with blocks := s.blocks, cores := s.cores, launches := s.launches } = s :=
    (congrArg (fun z : State => { z with blocks := s.blocks, cores := s.cores, launches := s.launches })
      (setThread_rest (regionClosed s x) x.tid x.thr.retire)).trans hclosed
  rw [retireThread_eq hc]
  split_ifs
  · unfold modLaunch
    split <;> exact hset
  · exact hset

theorem blockOf_retireThread (hc : curCx s = some x) (slot : Nat) :
    blockOf (retireThread s x) slot = if slot = x.tid.slot then some (blockLeft x) else blockOf s slot := by
  have hleft : blockOf (threadLeft s x) slot = if slot = x.tid.slot then some (blockLeft x) else blockOf s slot := by
    rw [threadLeft, blockOf_setBlock, blockOf_setThread]
    split_ifs
    · rfl
    · rw [blockOf, (atCore_regionClosed s x).blocks]; rfl
  rw [retireThread_eq hc, ← hleft]
  split_ifs
  · rw [blockOf, modLaunch_blocks]; rfl
  · rfl

theorem threadLeft_launches (s : State) (x : Cx) : (threadLeft s x).launches = s.launches := by
  have hset := congrArg State.launches (setThread_rest (regionClosed s x) x.tid x.thr.retire)
  have hclosed := congrArg State.launches (atCore_regionClosed s x).1
  exact hset.trans hclosed

/-- Every thread of a block has retired once one has whose fellows all have. -/
theorem all_retired_setThread (b : Block) (i : Nat) {t : Thread} (ht : t.status = .retired) :
    (b.setThread i t).threads.all (fun t => t.status == .retired) = true
      ↔ ∀ k u, b.threads[k]? = some u → k ≠ i → u.status = .retired := by
  simp only [Block.setThread, List.all_eq_true, beq_iff_eq, List.mem_iff_getElem?, listModify_get]
  constructor
  · intro hall k u hu hk
    exact hall u ⟨k, by rw [if_neg hk.symm, hu]⟩
  · rintro hall u ⟨k, hk⟩
    split_ifs at hk with hi
    · obtain ⟨-, -, rfl⟩ := Option.map_eq_some_iff.mp hk
      exact ht
    · exact hall k u hk (Ne.symm hi)

/-- The region's records are closed in whichever core's log they lie, and no core but the thread's has changed otherwise. -/
theorem retireThread_log (hc : curCx s = some x) (k : Nat) :
    (coreOf (retireThread s x) k).log = (coreOf s k).log.map (LogEntry.close x.tid) := by
  rw [coreOf_congr (retireThread_cores hc), regionClosed, dropRefs_log, coreOf_closeRegion]

theorem retireThread_other_core (hc : curCx s = some x) {k : Nat} (hk : k ≠ x.coreId) :
    { coreOf (retireThread s x) k with log := (coreOf s k).log } = coreOf s k := by
  rw [coreOf_congr (retireThread_cores hc), (atCore_regionClosed s x).2 k hk, coreOf_closeRegion]

/-- The last thread of a block retires the block, and its launch counts it (R231). -/
theorem retireThread_last (hc : curCx s = some x)
    (hall : ∀ k u, x.blk.threads[k]? = some u → k ≠ x.tid.tidx → u.status = .retired) :
    (∃ c, blockOf (retireThread s x) x.tid.slot = some c ∧ c.phase = .retired)
    ∧ ∀ l, launchOf (retireThread s x) l
        = if l = x.blk.launch then (launchOf s l).map (fun y => { y with retiredN := y.retiredN + 1 }) else launchOf s l := by
  have hphase : (blockLeft x).phase = .retired := by
    rw [blockLeft, retireBlock, if_pos ((all_retired_setThread _ _ rfl).mpr hall)]
  refine ⟨⟨_, (blockOf_retireThread hc _).trans (if_pos rfl), hphase⟩, fun l => ?_⟩
  rw [retireThread_eq hc, if_pos hphase, launchOf_modLaunch, launchOf, threadLeft_launches, blockLeft, retireBlock_launch]
  rfl

/-- Another thread leaves its block as it was, but for itself. -/
theorem retireThread_not_last (hc : curCx s = some x) (hp : x.blk.phase ≠ .retired)
    (hother : ∃ k u, x.blk.threads[k]? = some u ∧ k ≠ x.tid.tidx ∧ u.status ≠ .retired) :
    (retireThread s x).launches = s.launches
    ∧ ∃ c, blockOf (retireThread s x) x.tid.slot = some c ∧ { c with threads := x.blk.threads } = x.blk := by
  obtain ⟨k, u, hu, hk, hst⟩ := hother
  have hleft : blockLeft x = x.blk.setThread x.tid.tidx x.thr.retire := by
    rw [blockLeft, retireBlock, if_neg]
    exact fun hall => hst ((all_retired_setThread _ _ rfl).mp hall k u hu hk)
  have hphase : (blockLeft x).phase ≠ .retired := by rw [hleft]; exact hp
  refine ⟨?_, _, (blockOf_retireThread hc _).trans (if_pos rfl), by rw [hleft]; rfl⟩
  rw [retireThread_eq hc, if_neg hphase, threadLeft_launches]

theorem kept_retire (t : Thread) : Kept { parts := [.stack, .restart, .trap] } t t.retire where
  v _ _ := ⟨rfl, rfl⟩
  p _ _ := ⟨rfl, fun _ => rfl⟩
  a _ _ := ⟨rfl, rfl⟩
  parts q h1 _ := by
    have hsame := q.same_refl t
    cases q
    case stack | restart | trap => exact absurd (by simp) h1
    all_goals exact hsame

theorem allDone_iff (x : Cx) : allDone x.blk x.tid x.thr = true
    ↔ x.thr.pend = [] ∧ x.thr.tokens = [] ∧ signedPending x.blk x.tid = false := by
  simp [allDone, and_assoc]

theorem exec_exit_eq (he : Executes h s x) : exec (.exit h) s =
    if allDone x.blk x.tid x.thr = true then .next (retireThread s x) else waitAt s x (.stalled .exiting) :=
  (exec_exit ..).trans (guarded_true he.1 he.2 _)

theorem exitRetires : Claims.ExitRetires := by
  intro h s x he done
  refine ⟨fun hn => waits_waitAt he.1 ((exec_exit_eq he).trans (if_neg fun hd => hn ((allDone_iff x).mp hd))), fun hd => ?_⟩
  have hown : threadOf (retireThread s x) x.tid = some x.thr.retire :=
    (threadOf_retireThread s x x.tid).trans (by rw [if_pos rfl, threadOf_curCx he.1]; rfl)
  exact ⟨_, _, (exec_exit_eq he).trans (if_pos ((allDone_iff x).mpr hd)), hown,
    fun u hu => (threadOf_retireThread s x u).trans (if_neg hu), rfl, rfl, kept_retire _, retireThread_rest he.1,
    retireThread_log he.1, fun _ => retireThread_other_core he.1,
    fun slot hs => (blockOf_retireThread he.1 slot).trans (if_neg hs), retireThread_last he.1, retireThread_not_last he.1⟩

end Sys2Proof.Machine

/-- Settles O12: NOP, YIELD and TWAIT change their own thread alone, and EXIT leaves what `retireThread` does. -/
theorem waitsYieldsAndExit : Obligations.WaitsYieldsAndExit :=
  ⟨Sys2Proof.Machine.nopYieldAndTokenWait, Sys2Proof.Machine.exitRetires⟩
end

section
/-! PROOF. Trap instructions, delivery of a trap, and a fatal trap (O14). -/

namespace Sys2Proof.Machine

open Sys2Proof

/-! ### Setting a thread of a block -/

/-- Setting a thread that is there changes nothing else of the machine. -/
theorem onlyThread_of_threadOf {s : State} {tid : ThreadId} {t : Thread} (ht : threadOf s tid = some t) (w : Thread) :
    OnlyThread s (setThread s tid w) tid w where
  thread := by rw [threadOf_setThread, if_pos rfl, ht]; rfl
  others := othersSame_setThread s tid w
  memory := memSame_setThread ..
  rest := setThread_rest ..
  block slot b hb := by
    rw [blockOf_setThread, hb]
    split_ifs
    · exact ⟨_, rfl, rfl⟩
    · exact ⟨b, rfl, rfl⟩

theorem threadOf_of_block {s : State} {tid : ThreadId} {b : Block} {t : Thread} (hb : blockOf s tid.slot = some b)
    (ht : b.threads[tid.tidx]? = some t) : threadOf s tid = some t := by
  simp [threadOf, hb, ht]

/-! ### Taking a trap (R249 to R253) -/

section
variable {s : State} {tid : ThreadId} {b : Block} {t : Thread} {r : Trap} (hb : blockOf s tid.slot = some b)
  (ht : b.threads[tid.tidx]? = some t) (hr : ¬(r.cause = causePoison ∧ launchFlag s b Launch.replay = true))
include hb ht hr

/-- A trap that finds its handler in the store is delivered: the thread enters the handler, which takes a reference. -/
theorem takeTrap_delivered {hd : BitVec 8} (hh : handlerFor s b t = some hd)
    (hu : (coreOf s (coreIdOf b tid)).usable (ovKey s (coreIdOf b tid) b.ctx hd) = true) :
    takeTrap s tid r = addRef (setThread s tid (t.enter s.cycle (trapRec s t r) hd)) (coreIdOf b tid)
      (ovKey s (coreIdOf b tid) b.ctx hd) := by
  simp only [takeTrap, hb, ht, if_neg hr, hh, if_pos hu]

/-- A trap without a handler to go to is fatal. -/
theorem takeTrap_fatal (hh : handlerFor s b t = none) : takeTrap s tid r = fatalTrap s tid b t r := by
  simp only [takeTrap, hb, ht, if_neg hr, hh]

end

theorem handlerFor_of_ctx {s : State} {b : Block} {t : Thread} {c : Context} (hc : ctxOf s b.ctx = some c) :
    handlerFor s b t = if t.trap.isNone then c.params.handler else none := by
  unfold handlerFor
  rw [hc]
  cases t.trap <;> rfl

/-- Entering the handler changes the thread's stack and its trap words. -/
theorem kept_enter (t : Thread) (now : Nat) (r : TrapRec) (hd : BitVec 8) :
    Kept { parts := [.stack, .trap] } t (t.enter now r hd) where
  v _ _ := ⟨rfl, rfl⟩
  p _ _ := ⟨rfl, fun _ => rfl⟩
  a _ _ := ⟨rfl, rfl⟩
  parts q h1 _ := by
    have hsame := q.same_refl t
    cases q
    case stack | trap => exact absurd (by simp) h1
    all_goals exact hsame

theorem modLaunch_rest (s : State) (l : Nat) (f : Launch → Launch) : { modLaunch s l f with launches := s.launches } = s := by
  unfold modLaunch; split <;> rfl

/-! ### The fatal trap that a launch notes (R253, R343) -/

section
variable {s : State} {k : Nat} {l : Launch} (hl : launchOf s k = some l) (f : Fatal)

theorem launchOf_noteFatal_other {j : Nat} (hj : j ≠ k) : launchOf (noteFatal s k f) j = launchOf s j := by
  rw [noteFatal, launchOf_modLaunch, if_neg hj]

include hl

theorem launchOf_noteFatal_first (hf : l.fatal = none) : launchOf (noteFatal s k f) k = some { l with fatal := some f } := by
  rw [noteFatal, launchOf_modLaunch, if_pos rfl, hl]
  simp only [Option.map_some, hf]

/-- Of two fatal traps the earlier is kept, and of the same time the one of the lower source. -/
theorem launchOf_noteFatal_again {g : Fatal} (hf : l.fatal = some g) : launchOf (noteFatal s k f) k =
    some (if f.gts < g.gts ∨ (f.gts = g.gts ∧ f.src < g.src) then { l with fatal := some f } else l) := by
  rw [noteFatal, launchOf_modLaunch, if_pos rfl, hl]
  simp only [Option.map_some, hf]

end

theorem trapInstructionsTrap : Claims.TrapInstructionsTrap := by
  intro h code raw s x
  refine ⟨fun he => ⟨(exec_trap ..).trans (guarded_true he.1 he.2 _), (exec_bkpt ..).trans (guarded_true he.1 he.2 _)⟩, fun hc => ?_⟩
  rw [TrapsOn, exec_udf, execUdf, hc]
  rfl

theorem trapDelivered : Claims.TrapDelivered := by
  intro s tid b t c hd r hb ht hc hh htrap hr core key hu
  have htake := takeTrap_delivered hb ht hr ((handlerFor_of_ctx hc).trans (by rw [htrap]; exact hh)) hu
  let w := t.enter s.cycle (trapRec s t r) hd
  have hcores : (setThread s tid w).cores = s.cores := by simp [setThread]
  rw [htake]
  refine ⟨w, ?only, kept_enter .., rfl, rfl, rfl, rfl, ?core⟩
  case only =>
    have hrest := addRef_rest (s := setThread s tid w) core key
    rw [hcores] at hrest
    rw [hrest]
    exact onlyThread_of_threadOf (threadOf_of_block hb ht) w
  case core =>
    have hadd := onlyCore_addRef (s := setThread s tid w) core key
    rw [coreOf_setThread] at hadd
    exact ⟨hadd.1, fun k hk => (hadd.2 k hk).trans (coreOf_setThread ..)⟩

theorem trapFatal : Claims.TrapFatal := by
  intro s tid b t c r l hb ht hc hh hr hl src f t'
  have hnone : handlerFor s b t = none := by
    rw [handlerFor_of_ctx hc]
    cases htrap : t.trap with
    | none => exact hh.resolve_right (not_not.mpr htrap)
    | some _ => rfl
  have htake : t' = noteFatal s b.launch f := takeTrap_fatal hb ht hr hnone
  rw [htake]
  refine ⟨modLaunch_rest .., fun k hk => launchOf_noteFatal_other f hk, fun hf => launchOf_noteFatal_first hl f hf,
    fun g hf hbefore => ?_, fun g hf hafter => ?_⟩
  · rw [launchOf_noteFatal_again hl f hf, if_pos hbefore]
  · rw [launchOf_noteFatal_again hl f hf, if_neg hafter]

end Sys2Proof.Machine

/-- Settles O14: a trap is `takeTrap`, which delivers it to a handler in the store or has the launch note it as fatal. -/
theorem trapsAreTaken : Obligations.TrapsAreTaken :=
  ⟨Sys2Proof.Machine.trapInstructionsTrap, Sys2Proof.Machine.trapDelivered, Sys2Proof.Machine.trapFatal⟩
end

section
/-! PROOF. ERET, TINFO and rollback (O15). -/

namespace Sys2Proof.Machine

open Sys2Proof

variable {i : Instr} {h : Hdr} {s : State} {x : Cx}

/-! ### Return from the handler (R123) -/

theorem atCore_moveRefs (s : State) (n ctx : Nat) (old new : List (BitVec 8)) : AtCore n s (moveRefs s n ctx old new) := by
  unfold moveRefs
  split_ifs
  · exact AtCore.refl n s
  · exact (atCore_addRefs n ctx new s).trans (atCore_dropRefs n ctx old _)

/-- Overlays that are in the store need no load. -/
theorem startLoads_usable {core ctx launch : Nat} : ∀ {ids : List (BitVec 8)},
    (∀ id ∈ ids, (coreOf s core).usable (ovKey s core ctx id) = true) → startLoads core ctx launch ids s = (s, [], none)
  | [], _ => rfl
  | id :: ids, hu => by
    obtain ⟨hid, hids⟩ := List.forall_mem_cons.mp hu
    rw [startLoads, if_pos hid, startLoads_usable hids]

section
variable {skip : Bool} {w : IWord} (he : Executes h s x)
include he

theorem eretOp_outside (ht : x.thr.trap = none) : eretOp h skip w s = illop s x w 0x03 := by
  rw [eretOp, guarded_true he.1 he.2]
  simp only [ht]

variable {r : TrapRec} (ht : x.thr.trap = some r)
include ht

theorem eretOp_nested (hl : x.thr.stack.length ≠ r.stack.length + 1) : eretOp h skip w s = illop s x w 0x04 := by
  rw [eretOp, guarded_true he.1 he.2]
  simp only [ht, if_pos hl]

/-- ERET returns where the interrupted overlays lie below the handler's entry, or are in the store. -/
theorem eretOp_returns (hl : x.thr.stack.length = r.stack.length + 1) (hst : x.thr.stack.tail = r.stack
      ∨ ∀ id ∈ r.stack, (coreOf s x.coreId).usable (ovKey s x.coreId x.blk.ctx id) = true) :
    eretOp h skip w s = .next (eretTo h skip s x r) := by
  rw [eretOp, guarded_true he.1 he.2]
  simp only [ht, if_neg (not_not.mpr hl)]
  by_cases htail : x.thr.stack.tail = r.stack
  · rw [if_pos htail]
  · rw [if_neg htail, startLoads_usable fun id hid => hst.resolve_left htail id (List.mem_dedup.mp hid)]

end

/-- The thread that has returned from the handler. -/
theorem kept_returned {t : Thread} (stack : List (BitVec 8)) (run : Option Nat) :
    Kept { parts := [.stack, .trap, .drain] } t { t with stack := stack, trap := none, runFrom := run } where
  v _ _ := ⟨rfl, rfl⟩
  p _ _ := ⟨rfl, fun _ => rfl⟩
  a _ _ := ⟨rfl, rfl⟩
  parts q h1 _ := by
    have hsame := q.same_refl t
    cases q
    case stack | trap | drain => exact absurd (by simp) h1
    all_goals exact hsame

/-- The machine in which the references of the handler's stack have gone to those of the interrupted one. -/
def refsBack (s : State) (x : Cx) (r : TrapRec) : State :=
  moveRefs (dropRef s x.coreId (ovKey s x.coreId x.blk.ctx x.thr.top)) x.coreId x.blk.ctx x.thr.stack.tail r.stack

theorem atCore_refsBack (s : State) (x : Cx) (r : TrapRec) : AtCore x.coreId s (refsBack s x r) :=
  (atCore_dropRef ..).trans (atCore_moveRefs ..)

theorem eretTo_returns {skip : Bool} {r : TrapRec} (hc : curCx s = some x) : ∃ w,
    Left (if skip then nextSlot r.resume else r.resume) s { eretTo h skip s x r with cores := s.cores } x h
      { parts := [.stack, .trap, .drain] } w
    ∧ w.stack = r.stack ∧ w.trap = none
    ∧ OnlyCore s (eretTo h skip s x r) x.coreId (coreOf (refsBack s x r) x.coreId) := by
  have hat := atCore_refsBack s x r
  have hleft := left_leave_cores (h := h) hat.1 hc (if skip then nextSlot r.resume else r.resume)
    (kept_returned r.stack (x.thr.runFrom.map fun _ => (refsBack s x r).cycle))
  exact ⟨_, hleft, rfl, rfl, hat.onlyCore.setThread ..⟩

theorem handlerInstructions : Claims.HandlerInstructions := by
  intro h word d s x he key back illegal
  have returns (i : Instr) (skip : Bool) (hi : exec i s = eretOp h skip (encode i) s) (r : TrapRec) (ht : x.thr.trap = some r)
      (hl : x.thr.stack.length = r.stack.length + 1) (hst : x.thr.stack.tail = r.stack
        ∨ ∀ id ∈ r.stack, (coreOf s x.coreId).usable (ovKey s x.coreId x.blk.ctx id) = true) :
      back i r (if skip then nextSlot r.resume else r.resume) := by
    obtain ⟨w, hw⟩ := eretTo_returns (h := h) (skip := skip) (r := r) he.1
    exact ⟨_, w, hi.trans (eretOp_returns he ht hl hst), hw⟩
  refine ⟨fun r ht => ⟨fun hl hst => ⟨returns _ false (exec_eret ..) r ht hl hst, returns _ true (exec_eretSkip ..) r ht hl hst⟩,
    fun hl => ⟨(exec_eret ..).trans (eretOp_nested he ht hl), (exec_eretSkip ..).trans (eretOp_nested he ht hl)⟩, ?_⟩,
    fun ht => ⟨(exec_eret ..).trans (eretOp_outside he ht), (exec_eretSkip ..).trans (eretOp_outside he ht), ?_⟩⟩
  · refine intOp_writes (f := fun _ => r.word word.toNat) he ?_ rfl
    rw [exec_tinfo, execTinfo, intOp, guarded_true he.1 he.2, guarded_true he.1 he.2]
    simp only [ht]
  · refine intOp_writes (f := fun _ => 0) he ?_ rfl
    rw [exec_tinfo, execTinfo, intOp, guarded_true he.1 he.2, guarded_true he.1 he.2]
    simp only [ht]

/-! ### Memory and threads of machines that differ elsewhere -/

theorem MemSame.trans {s t u : State} (h1 : MemSame s t) (h2 : MemSame t u) : MemSame s u where
  dram a := (h2.dram a).trans (h1.dram a)
  ws a := (h2.ws a).trans (h1.ws a)
  spad q a := (h2.spad q a).trans (h1.spad q a)
  tiles q a := (h2.tiles q a).trans (h1.tiles q a)
  tags := h2.tags.trans h1.tags

theorem memSame_upToCores {s t : State} (h : { t with cores := s.cores } = s) : MemSame s t := by
  have hsame : MemSame s { t with cores := s.cores } := by
    rw [h]
    exact ⟨fun _ => rfl, fun _ => rfl, fun _ _ => rfl, fun _ _ => rfl, rfl⟩
  exact ⟨hsame.dram, hsame.ws, hsame.spad, hsame.tiles, hsame.tags⟩

section
variable {f : Block → Block} (slot : Nat)

/-- A change of a block that leaves its threads leaves every thread. -/
theorem threadOf_modBlock (hf : ∀ b, (f b).threads = b.threads) (s : State) (u : ThreadId) :
    threadOf (modBlock s slot f) u = threadOf s u := by
  unfold modBlock
  split
  · rfl
  · rename_i b hb; exact threadOf_setBlock hb (hf b) u

theorem memSame_modBlock (hs : ∀ b, (f b).spad = b.spad) (ht : ∀ b, (f b).tiles = b.tiles) (s : State) :
    MemSame s (modBlock s slot f) where
  dram _ := by simp
  ws _ := by simp
  spad q a := by
    unfold spadByte
    rw [blockOf_modBlock]
    split_ifs
    · cases blockOf s q with
      | none => rfl
      | some b => exact congrArg (Memory.read · a) (hs b)
    · rfl
  tiles q a := by
    unfold tileByte
    rw [blockOf_modBlock]
    split_ifs
    · cases blockOf s q with
      | none => rfl
      | some b => exact congrArg (Memory.read · a) (ht b)
    · rfl
  tags := by simp

end

/-! ### Rollback (R247) -/

/-- A thread that withdraws tokens writes 0 to their registers (R29). -/
def withdrawn (now : Nat) (gone : List Token) (t : Thread) : Thread :=
  gone.foldl (fun t k => wrV now { t with tokens := t.tokens.filter (fun x => x != k) } k.reg 0 0) t

theorem withdrawn_frame (now : Nat) : ∀ (gone : List Token) (t : Thread), let w := withdrawn now gone t
    (w.rpaddr = t.rpaddr ∧ w.rpStack = t.rpStack ∧ w.region = t.region) ∧ w.pend = t.pend ∧ w.fpx = t.fpx ∧ w.p = t.p ∧ w.a = t.a
  | [], _ => ⟨⟨rfl, rfl, rfl⟩, rfl, rfl, rfl, rfl⟩
  | _ :: gone, _ => withdrawn_frame now gone _

theorem vreg_withdrawn (now : Nat) {r : VReg} : ∀ (gone : List Token) (t : Thread), (∀ k ∈ gone, k.reg ≠ r) →
    (withdrawn now gone t).vreg r = t.vreg r
  | [], _, _ => rfl
  | k :: gone, t, hk => by
    obtain ⟨hr, hk⟩ := List.forall_mem_cons.mp hk
    refine (vreg_withdrawn now gone _ hk).trans ((vreg_wrV ..).trans (if_neg hr))

/-- Withdrawing the commits of a region changes the commits, and the thread that issued them. -/
theorem withdraw_eq (s : State) (tid : ThreadId) (t : Thread) : ∃ gone commits, (∀ k ∈ gone, k ∈ t.tokens)
    ∧ withdraw s tid t = ({ s with commits := commits }, withdrawn s.cycle gone t) :=
  ⟨_, _, fun _ hk => (List.mem_filter.mp hk).1, rfl⟩

theorem coreOf_discardOpen (s : State) (tid : ThreadId) (k : Nat) :
    coreOf (discardOpen s tid) k = { coreOf s k with log := (coreOf s k).log.filter (fun e => !e.openOf tid) } :=
  (coreOf_congr (modBlock_cores ..) k).trans
    (coreOf_mapVals s (f := fun c => { c with log := c.log.filter (fun e => !e.openOf tid) }) rfl k)

theorem threadOf_discardOpen (s : State) (tid u : ThreadId) : threadOf (discardOpen s tid) u = threadOf s u := by
  unfold discardOpen
  exact threadOf_modBlock tid.slot (fun _ => by rfl) _ u

theorem memSame_discardOpen (s : State) (tid : ThreadId) : MemSame s (discardOpen s tid) := by
  unfold discardOpen
  exact (memSame_upToCores rfl).trans (memSame_modBlock tid.slot (fun _ => by rfl) (fun _ => by rfl) _)

/-- The thread at its restart point (R247). -/
def Thread.atRestartPoint (t : Thread) (st : TStatus) : Thread :=
  { t with pc := 0#1 ++ t.rpaddr.extractLsb' 0 15, stack := t.rpStack, counts := t.region, status := st, arrival := none
           snap := none, stgOut := false }

/-- Rollback sets the thread, moves its references from one stack to the other, and discards its open records. -/
theorem rollbackTo_eq (hc : curCx s = some x) (st : TStatus) : ∃ gone commits refs, (∀ k ∈ gone, k ∈ x.thr.tokens)
    ∧ AtCore x.coreId (setThread { s with commits := commits } x.tid ((withdrawn s.cycle gone x.thr).atRestartPoint st)) refs
    ∧ (∀ k, (coreOf refs k).log = (coreOf s k).log) ∧ rollbackTo s x.tid st = discardOpen refs x.tid := by
  obtain ⟨-, hb, ht⟩ := (curCx_eq_some s x).mp hc
  obtain ⟨gone, commits, hgone, hw⟩ := withdraw_eq s x.tid x.thr
  let w := withdrawn s.cycle gone x.thr
  refine ⟨gone, commits, _, hgone, (atCore_addRefs x.coreId x.blk.ctx w.rpStack _).trans (atCore_dropRefs x.coreId x.blk.ctx w.stack _),
    fun k => ?logs, ?eq⟩
  case logs =>
    rw [dropRefs_log, addRefs_log, coreOf_setThread]
    rfl
  case eq =>
    unfold rollbackTo
    simp only [hb, ht, hw]
    rfl

theorem rollbackReturnsToTheRestartPoint : Claims.RollbackReturnsToTheRestartPoint := by
  intro s x f hc htrap
  have hroll : rollback s x f = rollbackTo s x.tid (.parkedFault [f] s.cycle) := by unfold rollback; rw [htrap]
  obtain ⟨gone, commits, refs, hgone, hat, hlog, heq⟩ := rollbackTo_eq hc (.parkedFault [f] s.cycle)
  let w := withdrawn s.cycle gone x.thr
  let at0 := w.atRestartPoint (.parkedFault [f] s.cycle)
  have hthreads (u : ThreadId) : threadOf (discardOpen refs x.tid) u = threadOf (setThread { s with commits := commits } x.tid at0) u :=
    (threadOf_discardOpen ..).trans (threadOf_congr hat.blocks u)
  obtain ⟨⟨hrpaddr, hstack, hregion⟩, hpend, hfpx, hp, ha⟩ := withdrawn_frame s.cycle gone x.thr
  rw [hroll, heq]
  refine ⟨at0, ?own, fun u hu => ?others, ?memory, ?pc, hstack, hregion, rfl, hpend, hfpx, hp, ha, fun r hr => ?vreg, fun k => ?log⟩
  case own =>
    rw [hthreads, threadOf_setThread, if_pos rfl, show threadOf { s with commits := commits } x.tid = some x.thr from threadOf_curCx hc]
    rfl
  case others =>
    rw [hthreads, threadOf_setThread, if_neg hu]
    rfl
  case memory =>
    have hcommits : MemSame s { s with commits := commits } := ⟨fun _ => rfl, fun _ => rfl, fun _ _ => rfl, fun _ _ => rfl, rfl⟩
    exact ((hcommits.trans (memSame_setThread ..)).trans (memSame_upToCores hat.1)).trans (memSame_discardOpen ..)
  case pc => exact congrArg (fun a : Word => 0#1 ++ a.extractLsb' 0 15) hrpaddr
  case vreg => exact vreg_withdrawn s.cycle gone x.thr fun k hk => hr k (hgone k hk)
  case log =>
    rw [coreOf_discardOpen, ← hlog k]
    refine List.filter_congr fun e _ => ?_
    cases e <;> rfl

end Sys2Proof.Machine

/-- Settles O15: ERET and TINFO by the thread's trap, and rollback by the machine that `rollbackTo` leaves. -/
theorem handlersReturnAndThreadsRollBack : Obligations.HandlersReturnAndThreadsRollBack :=
  ⟨Sys2Proof.Machine.handlerInstructions, Sys2Proof.Machine.rollbackReturnsToTheRestartPoint⟩
end

section
/-! SUPPORT. What the present members of a collective give and receive. -/

namespace Sys2Proof.Machine

open Sys2Proof

variable {i : Instr} {h : Hdr} {s : State} {x : Cx} {mask : Word} {T : Nat → Thread}

theorem lt_of_presentLane {n : Nat} (hn : presentLane s h mask T n = true) : n < 32 :=
  BitVec.lt_of_getLsbD (Bool.and_eq_true_iff.mp hn).1

/-- The lanes that are present, in rising order. -/
def presentLanes (s : State) (h : Hdr) (mask : Word) (T : Nat → Thread) : List Nat := (List.range 32).filter (presentLane s h mask T)

theorem mem_presentLanes {n : Nat} : n ∈ presentLanes s h mask T ↔ presentLane s h mask T n = true := by
  rw [presentLanes, List.mem_filter, List.mem_range]
  exact ⟨And.right, fun hn => ⟨lt_of_presentLane hn, hn⟩⟩

/-- A fold over the present members is one over their lanes. -/
theorem foldl_present {α : Type} (f : α → Member → α) (a : α) : (present (membersOf h s x mask T 32)).foldl f a
    = (presentLanes s h mask T).foldl (fun a n => f a ⟨n, laneTid x n, T n, true⟩) a := by
  rw [present_membersOf, List.foldl_map, presentLanes]

/-- A word that takes a bit of each present lane. -/
theorem getLsbD_foldl_present (f : Nat → Bool) (k : Nat) :
    ((presentLanes s h mask T).foldl (fun w n => setBit w n (f n)) (0 : Word)).getLsbD k = true
      ↔ presentLane s h mask T k = true ∧ f k = true := by
  by_cases hk : k < 32
  · rw [getLsbD_foldl_setBit f _ _ hk]
    split_ifs with hp <;> rw [mem_presentLanes] at hp <;> simp [hp]
  · rw [BitVec.getLsbD_of_ge _ _ (by omega)]
    simpa using fun hp => absurd (lt_of_presentLane hp) hk

theorem find?_beq_eq_ite (l : List Nat) (n : Nat) : l.find? (· == n) = if n ∈ l then some n else none := by
  cases hf : l.find? (· == n) with
  | none => rw [if_neg fun hn => by simpa using List.find?_eq_none.mp hf n hn]
  | some k =>
    obtain rfl : k = n := by simpa using List.find?_some hf
    rw [if_pos (List.mem_of_find?_eq_some hf)]

/-- A of a member is A of a lane that is present. -/
theorem laneVal_eq_leafOf (a : Src) : laneVal s (membersOf h s x mask T 32) a = leafOf s h mask T a := by
  funext n
  have hfind := find?_beq_eq_ite (presentLanes s h mask T) n
  simp only [mem_presentLanes] at hfind
  rw [laneVal, present_membersOf, List.find?_map]
  refine (congrArg _ (congrArg _ hfind)).trans ?_
  rw [leafOf]
  split_ifs <;> rfl

/-- Present members each go on with their own thread changed, absent ones only go on. -/
theorem instanceGoes_present {c : Touch} {post : Nat → Thread → Prop} {F : Member → Thread} (g : Gathered i h s x mask T)
    (hpc : ∀ m, (F m).pc = m.thr.pc) (hkept : ∀ m, Kept c m.thr (F m))
    (hpost : ∀ n, presentLane s h mask T n = true → post n ((F ⟨n, laneTid x n, T n, true⟩).done s.cycle h))
    (hi : exec i s = membersDone h s (membersOf h s x mask T 32) (fun m => if m.on then F m else m.thr)) :
    InstanceGoes i h s x mask T c post := by
  refine membersGo_membersDone (f := fun m => if m.on then F m else m.thr) g (fun n _ => ?_)
    (fun n hn => ⟨hkept ⟨n, laneTid x n, T n, true⟩, hpost n hn⟩) (fun _ _ _ => rfl) hi
  dsimp only
  split_ifs
  · exact hpc _
  · rfl

theorem instanceGoes_giveV {d : VReg} {post : Nat → Thread → Prop} {f : Member → Word} (g : Gathered i h s x mask T)
    (hpost : ∀ n w, presentLane s h mask T n = true → w.vreg d = f ⟨n, laneTid x n, T n, true⟩ → post n w)
    (hi : exec i s = giveV h s (membersOf h s x mask T 32) d f) : InstanceGoes i h s x mask T { v := [d] } post :=
  instanceGoes_present (F := fun m => wrV s.cycle m.thr d (f m) 6) g (fun _ => rfl) (fun m => (Kept.refl _ m.thr).wrV (by simp) ..)
    (fun n hn => hpost n _ hn ((vreg_wrV s.cycle (T n) d _ 6 d).trans (if_pos rfl))) hi

end Sys2Proof.Machine
end

section
/-! PROOF. Votes and shuffles (O16). -/

namespace Sys2Proof.Machine

open Sys2Proof

variable {h : Hdr} {s : State} {x : Cx} {mask : Word} {T : Nat → Thread}

theorem ballot_gives {d : VReg} {pa : PReg} (g : Gathered (.ballot h mask d pa) h s x mask T) :
    InstanceGoes (.ballot h mask d pa) h s x mask T { v := [d] } (fun _ w =>
      ∀ k, (w.vreg d).getLsbD k = true ↔ presentLane s h mask T k = true ∧ rdP s (T k) pa = true) := by
  refine instanceGoes_giveV g (fun n w _ hw k => ?_) ((exec_ballot ..).trans (collective_gathered g _ _ rfl))
  rw [hw, foldl_present]
  exact getLsbD_foldl_present (fun n => rdP s (T n) pa) k

theorem matchEq_gives {d : VReg} {a : Src} (g : Gathered (.matchEq h mask d a) h s x mask T) :
    InstanceGoes (.matchEq h mask d a) h s x mask T { v := [d] } (fun n w =>
      ∀ k, (w.vreg d).getLsbD k = true ↔ presentLane s h mask T k = true ∧ src32 s (T k) a = src32 s (T n) a) := by
  refine instanceGoes_giveV g (fun n w _ hw k => ?_) ((exec_matchEq ..).trans (collective_gathered g _ _ rfl))
  rw [hw, foldl_present, getLsbD_foldl_present (fun k => src32 s (T k) a == src32 s (T n) a), beq_iff_eq]

/-- The truth that VOTE writes, of the predicates that the present members read (R104). -/
def voteOf (op : VoteOp) (vs : List Bool) : Bool :=
  match op with
  | .all => vs.all id
  | .any => vs.any id
  | .uni => vs.all id || vs.all (fun v => !v)

/-- What VOTE asks of the present lanes (R104). -/
def voteHolds (op : VoteOp) (P f : Nat → Bool) : Prop :=
  match op with
  | .all => ∀ n, P n = true → f n = true
  | .any => ∃ n, P n = true ∧ f n = true
  | .uni => ∀ n k, P n = true → P k = true → f n = f k

theorem voteOf_iff (op : VoteOp) {P : Nat → Bool} (f : Nat → Bool) {l : List Nat} (hl : ∀ n, n ∈ l ↔ P n = true) :
    voteOf op (l.map f) = true ↔ voteHolds op P f := by
  cases op with
  | all | any => simp [voteOf, voteHolds, hl]
  | uni =>
    simp only [voteOf, voteHolds, ← hl, List.all_map, Bool.or_eq_true, List.all_eq_true, Function.comp, id, Bool.not_eq_true']
    constructor
    · rintro (hall | hall) n k hn hk <;> rw [hall n hn, hall k hk]
    · intro heq
      by_cases hone : ∃ n ∈ l, f n = true
      · obtain ⟨n, hn, htrue⟩ := hone
        exact .inl fun k hk => (heq k n hk hn).trans htrue
      · exact .inr fun k hk => by simpa using fun htrue => hone ⟨k, hk, htrue⟩

theorem exec_vote_eq {vop : VoteOp} {pd pa : PReg} (g : Gathered (.vote h mask vop pd pa) h s x mask T) :
    exec (.vote h mask vop pd pa) s = membersDone h s (membersOf h s x mask T 32) (fun m =>
      if m.on then wrP s.cycle m.thr pd (voteOf vop ((present (membersOf h s x mask T 32)).map (fun m => rdP s m.thr pa))) 6
      else m.thr) :=
  (exec_vote ..).trans (collective_gathered g _ _ rfl)

theorem vote_gives {vop : VoteOp} {pd pa : PReg} (g : Gathered (.vote h mask vop pd pa) h s x mask T) :
    InstanceGoes (.vote h mask vop pd pa) h s x mask T { p := [pd] } (fun _ w =>
      w.preg pd = true ↔ pd = 7#3 ∨ voteHolds vop (presentLane s h mask T) (fun n => rdP s (T n) pa)) := by
  refine instanceGoes_present g (fun _ => wrP_pc ..) (fun m => (Kept.refl _ m.thr).wrP (by simp) ..) (fun n _ => ?_) (exec_vote_eq g)
  rw [preg_done, preg_wrP, Bool.or_eq_true, beq_iff_eq, ← voteOf_iff vop _ fun n => mem_presentLanes (T := T), present_membersOf,
    List.map_map]
  rfl

/-! ### SHFL (R105) -/

/-- The lane that SHFL names is the one that the words of R105 give. -/
theorem shflLane_eq (op : ShflOp) (n : Nat) (v : Word) : shflLane op n v = match op with
    | .idx => (v.toNat : Int) | .up => n - v.toNat | .down => n + v.toNat | .xor => (n ^^^ (v.toNat % 32) : Nat) := by
  cases op <;> simp [shflLane]

theorem shfl_gives {sop : ShflOp} {d : VReg} {a : Src} {b : RC} (g : Gathered (.shfl h mask sop d a b) h s x mask T) :
    InstanceGoes (.shfl h mask sop d a b) h s x mask T { v := [d] } (fun n w =>
      (∀ k : Nat, shflLane sop n (rc32 s (T n) b) = k → presentLane s h mask T k = true → w.vreg d = src32 s (T k) a)
      ∧ ((∀ k : Nat, shflLane sop n (rc32 s (T n) b) = k → presentLane s h mask T k = false) → w.vreg d = src32 s (T n) a)) := by
  refine instanceGoes_giveV g (fun n w _ hw => ?_) ((exec_shfl ..).trans (collective_gathered g _ _ rfl))
  simp only [laneVal_eq_leafOf] at hw
  rw [hw]
  refine ⟨fun k hk hp => ?present, fun hk => ?absent⟩
  case present => simp [hk, leafOf, hp]
  case absent =>
    split_ifs with h0
    · have hp := hk (shflLane sop n (rc32 s (T n) b)).toNat (Int.toNat_of_nonneg h0).symm
      simp [leafOf, hp]
    · rfl

end Sys2Proof.Machine

open Sys2Proof Sys2Proof.Machine in
/-- Settles O16: the present members receive a word, or a truth, that folds what the present lanes give. -/
theorem votesAndShuffles : Obligations.VotesAndShuffles := by
  intro h mask vop sop d pd pa a b s x T P A truth from'
  refine ⟨ballot_gives, vote_gives, fun g => ?_, matchEq_gives⟩
  have hfrom : from' = fun n => shflLane sop n (rc32 s (T n) b) := funext fun n => (shflLane_eq ..).symm
  rw [hfrom]
  exact shfl_gives g
end

section
/-! SUPPORT. The tree of R56 and the scan of R57: what they give where the operator is a monoid's. -/

namespace Sys2Proof.Machine

open Sys2Proof

/-! ### Integer operators (R106, Table 4.8) -/

theorem intOf_injective (ns : Bool) : Function.Injective (intOf ns) := by
  cases ns with
  | true => exact fun a b hab => BitVec.eq_of_toNat_eq (by simpa [intOf] using hab)
  | false => exact fun a b hab => BitVec.eq_of_toInt_eq (by simpa [intOf] using hab)

/-- The identity of the minimum is the greatest value of its kind. -/
theorem intOf_le_wIdentity_min (ns : Bool) (a : Word) : intOf ns a ≤ intOf ns (wIdentity (.int (.min ns))) := by
  cases ns with
  | true => have := a.isLt; simp [intOf, wIdentity]; omega
  | false => have := a.toInt_lt; simp [intOf, wIdentity] at this ⊢; omega

/-- The identity of the maximum is the least value of its kind. -/
theorem wIdentity_max_le_intOf (ns : Bool) (a : Word) : intOf ns (wIdentity (.int (.max ns))) ≤ intOf ns a := by
  cases ns with
  | true => simp [intOf, wIdentity]
  | false => have := a.le_toInt; simp [intOf, wIdentity] at this ⊢; omega

theorem redInt_assoc (op : RedOp) (a b c : Word) : redInt op (redInt op a b) c = redInt op a (redInt op b c) := by
  cases op with
  | add => exact BitVec.add_assoc ..
  | min ns => simp only [redInt, minInt]; grind
  | max ns => simp only [redInt, maxInt]; grind
  | and => exact BitVec.and_assoc ..
  | or => exact BitVec.or_assoc ..
  | xor => exact BitVec.xor_assoc ..

theorem redInt_wIdentity (op : RedOp) (a : Word) : redInt op a (wIdentity (.int op)) = a := by
  cases op with
  | add => exact BitVec.add_zero a
  | min ns => exact if_pos (intOf_le_wIdentity_min ns a)
  | max ns =>
    simp only [redInt, maxInt]
    split_ifs with hle
    · exact intOf_injective ns (le_antisymm (wIdentity_max_le_intOf ns a) hle)
    · rfl
  | and => exact BitVec.and_allOnes
  | or => exact BitVec.or_zero
  | xor => exact BitVec.xor_zero

theorem redInt_comm (op : RedOp) (a b : Word) : redInt op a b = redInt op b a := by
  cases op with
  | add => exact BitVec.add_comm ..
  | min ns =>
    have := @intOf_injective ns a b
    simp only [redInt, minInt]; grind
  | max ns =>
    have := @intOf_injective ns a b
    simp only [redInt, maxInt]; grind
  | and => exact BitVec.and_comm ..
  | or => exact BitVec.or_comm ..
  | xor => exact BitVec.xor_comm ..

/-- The values of a list combined in its order from the identity. -/
def intTotal (op : RedOp) (l : List Word) : Word := l.foldl (redInt op) (wIdentity (.int op))

theorem intTotal_singleton (op : RedOp) (a : Word) : intTotal op [a] = a :=
  (redInt_comm ..).trans (redInt_wIdentity op a)

theorem intTotal_append (op : RedOp) (l m : List Word) : intTotal op (l ++ m) = redInt op (intTotal op l) (intTotal op m) := by
  have : Std.Associative (redInt op) := ⟨redInt_assoc op⟩
  rw [intTotal, List.foldl_append, ← redInt_wIdentity op (l.foldl _ _), List.foldl_assoc]
  rfl

/-! ### Nodes of an integer operator -/

/-- The node over the values of the leaves that are there. -/
def intNode (op : RedOp) (l : List Word) : Node := if l = [] then none else some (intTotal op l, 0)

theorem joinNodes_intNode (op : RedOp) (l m : List Word) :
    joinNodes (wOp (.int op)) (intNode op l) (intNode op m) = intNode op (l ++ m) := by
  by_cases hl : l = [] <;> by_cases hm : m = [] <;> simp [intNode, joinNodes, wOp, hl, hm, intTotal_append]

/-- The values of the leaves of n lanes from lane lo on. -/
def leavesFrom (leaf : Nat → Option Word) (lo n : Nat) : List Word := (List.range' lo n).filterMap leaf

theorem leavesFrom_append (leaf : Nat → Option Word) (lo n m : Nat) :
    leavesFrom leaf lo n ++ leavesFrom leaf (lo + n) m = leavesFrom leaf lo (n + m) := by
  rw [leavesFrom, leavesFrom, ← List.filterMap_append, List.range'_append_1, leavesFrom]

/-- Node(k, j) combines the leaves of the lanes below it (R56). -/
theorem treeNode_int (op : RedOp) (leaf : Nat → Option Word) : ∀ k j,
    treeNode (wOp (.int op)) leaf k j = intNode op (leavesFrom leaf (j * 2 ^ k) (2 ^ k))
  | 0, j => by cases hj : leaf j <;> simp [treeNode, leavesFrom, intNode, hj, intTotal_singleton]
  | k + 1, j => by
    have hsplit := leavesFrom_append leaf (2 * j * 2 ^ k) (2 ^ k) (2 ^ k)
    rw [treeNode, treeNode_int op leaf k, treeNode_int op leaf k, joinNodes_intNode, Nat.succ_mul (2 * j), hsplit]
    congr 2 <;> ring

/-- A number with its bits below k cleared is known one bit further by its bit k. -/
theorem clearLow_succ (n k : Nat) : n / 2 ^ k * 2 ^ k = n / 2 ^ (k + 1) * 2 ^ (k + 1) + if n.testBit k then 2 ^ k else 0 := by
  have hhalf : n / 2 ^ k = 2 * (n / 2 ^ (k + 1)) + n / 2 ^ k % 2 := by
    rw [Nat.pow_succ, ← Nat.div_div_eq_div_mul, Nat.div_add_mod]
  rw [Nat.testBit_eq_decide_div_mod_eq]
  obtain heven | hodd := Nat.mod_two_eq_zero_or_one (n / 2 ^ k)
  · rw [if_neg (by simp [heven]), hhalf, heven]; ring
  · rw [if_pos (by simp [hodd]), hhalf, hodd]; ring

/-- The scan goes over the lanes below n (R57): `acc` is the node of those before the bits still to come. -/
theorem scanFrom_int (op : RedOp) (leaf : Nat → Option Word) (n : Nat) : ∀ k,
    scanFrom (wOp (.int op)) leaf n k (n / 2 ^ k * 2 ^ k) (intNode op (leavesFrom leaf 0 (n / 2 ^ k * 2 ^ k)))
      = intNode op (leavesFrom leaf 0 n)
  | 0 => by simp [scanFrom]
  | k + 1 => by
    have ih := scanFrom_int op leaf n k
    rw [clearLow_succ] at ih
    rw [scanFrom]
    split_ifs with hbit
    · have hbase : n / 2 ^ (k + 1) * 2 ^ (k + 1) / 2 ^ k * 2 ^ k = n / 2 ^ (k + 1) * 2 ^ (k + 1) :=
        Nat.div_mul_cancel ((Nat.pow_dvd_pow 2 (Nat.le_succ k)).trans (Nat.dvd_mul_left ..))
      have hsplit := leavesFrom_append leaf 0 (n / 2 ^ (k + 1) * 2 ^ (k + 1)) (2 ^ k)
      rw [Nat.zero_add] at hsplit
      rw [treeNode_int, hbase, joinNodes_intNode, hsplit]
      simpa [hbit] using ih
    · simpa [hbit] using ih

theorem scanNode_int (op : RedOp) (leaf : Nat → Option Word) {n : Nat} (hn : n < 64) :
    scanNode (wOp (.int op)) leaf n = intNode op (leavesFrom leaf 0 n) := by
  have hscan := scanFrom_int op leaf n 6
  rwa [Nat.div_eq_of_lt (show n < 2 ^ 6 from hn), Nat.zero_mul] at hscan

/-! ### Where a tree has a value -/

theorem joinNodes_eq_none_iff (op : Word → Word → Word × Flags) (a b : Node) : joinNodes op a b = none ↔ a = none ∧ b = none := by
  cases a <;> cases b <;> simp [joinNodes]

/-- A node has a value where some leaf below it has one (R56). -/
theorem treeNode_ne_none (op : Word → Word → Word × Flags) {leaf : Nat → Option Word} {n : Nat} (hn : leaf n ≠ none) : ∀ k,
    treeNode op leaf k (n / 2 ^ k) ≠ none
  | 0 => by simpa [treeNode] using hn
  | k + 1 => by
    have ih := treeNode_ne_none op hn k
    have hhalf : n / 2 ^ (k + 1) = n / 2 ^ k / 2 := by rw [Nat.pow_succ, Nat.div_div_eq_div_mul]
    rw [treeNode, Ne, joinNodes_eq_none_iff, hhalf]
    rintro ⟨hleft, hright⟩
    obtain heven | hodd := Nat.mod_two_eq_zero_or_one (n / 2 ^ k)
    · exact ih (by rwa [show 2 * (n / 2 ^ k / 2) = n / 2 ^ k by omega] at hleft)
    · exact ih (by rwa [show 2 * (n / 2 ^ k / 2) + 1 = n / 2 ^ k by omega] at hright)

end Sys2Proof.Machine
end

section
/-! PROOF. Reductions and scans (O17). -/

namespace Sys2Proof.Machine

open Sys2Proof

variable {i : Instr} {h : Hdr} {s : State} {x : Cx} {mask : Word} {T : Nat → Thread}

theorem MembersGo.imp {t : State} {c : Touch} {post post' : Nat → Thread → Prop} (hm : MembersGo h s t x mask T c post)
    (hp : ∀ n w, presentLane s h mask T n = true → post n w → post' n w) : MembersGo h s t x mask T c post' where
  member n hn := by
    obtain ⟨w, hw, hat, hon, hoff⟩ := hm.member n hn
    exact ⟨w, hw, hat, fun hpr => ⟨(hon hpr).1, hp n w hpr (hon hpr).2⟩, hoff⟩
  others := hm.others
  memory := hm.memory
  block := hm.block
  rest := hm.rest

theorem InstanceGoes.imp {c : Touch} {post post' : Nat → Thread → Prop} (hi : InstanceGoes i h s x mask T c post)
    (hp : ∀ n w, presentLane s h mask T n = true → post n w → post' n w) : InstanceGoes i h s x mask T c post' := by
  obtain ⟨t, ht, hm⟩ := hi
  exact ⟨t, ht, hm.imp hp⟩

/-- Each present member receives a word of its own and raises flags. -/
theorem instanceGoes_giveF {d : VReg} {word : Member → Word} {flags : Member → Flags} (g : Gathered i h s x mask T)
    (hi : exec i s = membersDone h s (membersOf h s x mask T 32) (fun m =>
      if m.on then addFlags s.cycle h (wrV s.cycle m.thr d (word m) 6) (flags m) 6 else m.thr)) :
    InstanceGoes i h s x mask T { v := [d], parts := [.fpx] } (fun n w =>
      w.vreg d = word ⟨n, laneTid x n, T n, true⟩ ∧ w.fpx = fpxAfter h (T n).fpx (flags ⟨n, laneTid x n, T n, true⟩)) :=
  instanceGoes_present (F := fun m => addFlags s.cycle h (wrV s.cycle m.thr d (word m) 6) (flags m) 6) g
    (fun _ => addFlags_pc ..) (fun m => ((Kept.refl _ m.thr).wrV (by simp) ..).addFlags (by simp) ..)
    (fun n _ => ⟨by simp, by simp [fpx_addFlags]⟩) hi

/-- What WRED writes and raises: the node over every lane, as written (R106, R107). -/
theorem wred_gives {op : WOp} {d : VReg} {a : Src} (g : Gathered (.wred h mask op d a) h s x mask T) :
    InstanceGoes (.wred h mask op d a) h s x mask T { v := [d], parts := [.fpx] } (fun n w =>
      ∃ r, treeNode (wOp op) (leafOf s h mask T a) 5 0 = some r
        ∧ w.vreg d = (wWritten op r.1).1 ∧ w.fpx = fpxAfter h (T n).fpx (r.2 ||| (wWritten op r.1).2)) := by
  refine (instanceGoes_giveF g ((exec_wred ..).trans (collective_gathered g _ _ rfl))).imp fun n w hn hw => ?_
  rw [laneVal_eq_leafOf] at hw
  have hleaf : leafOf s h mask T a n ≠ none := by rw [leafOf, if_pos hn]; exact Option.some_ne_none _
  have hne := treeNode_ne_none (wOp op) hleaf 5
  rw [Nat.div_eq_of_lt (show n < 2 ^ 5 from lt_of_presentLane hn)] at hne
  obtain ⟨r, hr⟩ := Option.ne_none_iff_exists'.mp hne
  rw [hr] at hw
  exact ⟨r, hr, hw⟩

/-- The flags of the Ops of a node. -/
def nodeFlags : Node → Flags
  | some r => r.2
  | none => 0

/-- What a scan writes and raises for a node (R106, R107). -/
def scanWritten (op : WOp) : Node → Word × Flags
  | some r => wWritten op r.1
  | none => (wIdentity op, 0)

/-- The node of a lane's scan. -/
def scanAt (s : State) (h : Hdr) (mask : Word) (T : Nat → Thread) (op : WOp) (excl : Bool) (a : Src) (n : Nat) : Node :=
  scanNode (wOp op) (leafOf s h mask T a) (if excl then n else n + 1)

theorem wscan_gives {op : WOp} {excl : Bool} {d : VReg} {a : Src} (g : Gathered (.wscan h mask op excl d a) h s x mask T) :
    InstanceGoes (.wscan h mask op excl d a) h s x mask T { v := [d], parts := [.fpx] } (fun n w =>
      let ops := (presentLanes s h mask T).foldl (fun f k => f ||| nodeFlags (scanAt s h mask T op excl a k)) 0
      let r := scanWritten op (scanAt s h mask T op excl a n)
      w.vreg d = r.1 ∧ w.fpx = fpxAfter h (T n).fpx (ops ||| r.2)) := by
  have hscan (m : Member) : scanOf s (membersOf h s x mask T 32) op excl a m = scanAt s h mask T op excl a m.lane := by
    rw [scanOf, laneVal_eq_leafOf, scanAt]
  refine (instanceGoes_giveF g ((exec_wscan ..).trans (collective_gathered g _ _ rfl))).imp fun n w hn hw => ?_
  simp only [hscan, foldl_present] at hw
  exact hw

/-! ### Integer operators -/

theorem lanesBelow_eq {n : Nat} (a : Src) : lanesBelow s h mask T a n = leavesFrom (leafOf s h mask T a) 0 n := by
  rw [lanesBelow, leavesFrom, ← List.range_eq_range', ← List.filterMap_eq_map, List.filterMap_filter]
  rfl

theorem nodeFlags_intNode (op : RedOp) (l : List Word) : nodeFlags (intNode op l) = 0 := by
  unfold intNode; split_ifs <;> rfl

/-- A scan of no value gives the identity, which is the total of none. -/
theorem scanWritten_intNode (op : RedOp) (l : List Word) : scanWritten (.int op) (intNode op l) = (intTotal op l, 0) := by
  unfold intNode
  split_ifs with hl
  · rw [hl]; rfl
  · rfl

theorem fpxAfter_no_flags (h : Hdr) (old : Flags) : fpxAfter h old (0 ||| 0) = old := by simp [fpxAfter]

theorem foldl_or_eq_zero {α : Type} {f : α → Flags} : ∀ {l : List α}, (∀ a ∈ l, f a = 0) → l.foldl (fun g a => g ||| f a) 0 = 0
  | [], _ => rfl
  | a :: l, hl => by
    obtain ⟨ha, hl⟩ := List.forall_mem_cons.mp hl
    rw [List.foldl_cons, ha]
    exact foldl_or_eq_zero hl

theorem scanAt_int (op : RedOp) (excl : Bool) (a : Src) {n : Nat} (hn : presentLane s h mask T n = true) :
    scanAt s h mask T (.int op) excl a n = intNode op (lanesBelow s h mask T a (if excl then n else n + 1)) := by
  have := lt_of_presentLane hn
  rw [scanAt, scanNode_int op _ (by split_ifs <;> omega), lanesBelow_eq]

theorem integerReductionsAndScans : Claims.IntegerReductionsAndScans := by
  intro h mask op excl d a s x T total
  refine ⟨fun g => (wred_gives g).imp fun n w _ hw => ?red, fun g => (wscan_gives g).imp fun n w hn hw => ?scan⟩
  case red =>
    obtain ⟨r, hr, hv, hf⟩ := hw
    rw [treeNode_int, Nat.zero_mul, ← lanesBelow_eq, intNode] at hr
    split_ifs at hr
    obtain rfl := Option.some.inj hr
    exact ⟨hv, hf.trans (fpxAfter_no_flags h (T n).fpx)⟩
  case scan =>
    obtain ⟨hv, hf⟩ := hw
    rw [scanAt_int op excl a hn, scanWritten_intNode] at hv hf
    rw [foldl_or_eq_zero fun k hk => by rw [scanAt_int op excl a (mem_presentLanes.mp hk), nodeFlags_intNode]] at hf
    exact ⟨hv, hf.trans (fpxAfter_no_flags h (T n).fpx)⟩

/-! ### Float operators -/

/-- A float result as written: the canonical NaN for one, with NFR for a NaN or an infinity (R43, R107). -/
theorem wWritten_float {op : WOp} (hop : ∀ o, op ≠ .int o) (v : Word) : wWritten op v =
    (if (f32 v).isNaN then 0x7FC00000#32 else v, if (f32 v).isNaN || (f32 v).isInf then flagNFR else 0) := by
  have hfloat : WOp.isFloat op = true := by
    cases op with
    | int o => exact absurd rfl (hop o)
    | _ => rfl
  rw [wWritten, if_pos hfloat]
  rfl

theorem floatReductionsAndScans : Claims.FloatReductionsAndScans := by
  intro h mask op excl d a s x T hop P leaf written nfr scan flagsOf
  refine ⟨fun g => (wred_gives g).imp fun n w _ hw => ?red, fun g => (wscan_gives g).imp fun n w _ hw => ?scan⟩
  case red =>
    obtain ⟨r, hr, hw⟩ := hw
    rw [wWritten_float hop] at hw
    exact ⟨r, hr, hw⟩
  case scan =>
    obtain ⟨hv, hf⟩ := hw
    intro all
    have hall : all = (presentLanes s h mask T).foldl (fun f k => f ||| nodeFlags (scanAt s h mask T op excl a k)) 0 := by
      exact List.foldl_map
    refine ⟨fun r hr => ?some, fun hr => ?none⟩
    case some =>
      rw [show scanAt s h mask T op excl a n = some r from hr, scanWritten, wWritten_float hop] at hv hf
      exact ⟨hv, hall ▸ hf⟩
    case none =>
      rw [show scanAt s h mask T op excl a n = none from hr] at hv hf
      exact ⟨hv, hall ▸ hf.trans (congrArg _ (BitVec.or_zero ..))⟩

end Sys2Proof.Machine

/-- Settles O17: a tree of an associative operator with an identity gives the total of its leaves in order, and a float result is
written as R43 and R107 say. -/
theorem reductionsAndScans : Obligations.ReductionsAndScans :=
  ⟨Sys2Proof.Machine.integerReductionsAndScans, Sys2Proof.Machine.floatReductionsAndScans⟩
end

section
/-! PROOF. Arrival at a collective, WSYNC, and a trap of all members (O18). -/

namespace Sys2Proof.Machine

open Sys2Proof

variable {i : Instr} {h : Hdr} {s : State} {x : Cx} {mask : Word} {T : Nat → Thread}

/-! ### Setting the threads of a mask's lanes -/

theorem maskLanes_eq (mask : Word) : maskLanes mask = (List.range 32).filter (fun n => mask.getLsbD n) := rfl

theorem mem_maskLanes {n : Nat} : n ∈ maskLanes mask ↔ mask.getLsbD n = true := by
  rw [maskLanes_eq, List.mem_filter, List.mem_range]
  exact ⟨And.right, fun hn => ⟨BitVec.lt_of_getLsbD hn, hn⟩⟩

theorem maskLanes_nodup (mask : Word) : (maskLanes mask).Nodup := maskLanes_eq mask ▸ List.nodup_range.filter _

/-- The machine with a thread set on each lane of a mask. -/
def setLanes (s : State) (x : Cx) (mask : Word) (W : Nat → Thread) : State :=
  (maskLanes mask).foldl (fun t n => setThread t (laneTid x n) (W n)) s

theorem threadOf_setLanes (W : Nat → Thread) {n : Nat} (hn : mask.getLsbD n = true) {t : Thread}
    (ht : threadOf s (laneTid x n) = some t) : threadOf (setLanes s x mask W) (laneTid x n) = some (W n) := by
  obtain ⟨hthreads, -, -, -⟩ := foldl_setThread x W (maskLanes mask) (maskLanes_nodup mask) s
  have hfind : (maskLanes mask).find? (fun k => decide (laneTid x n = laneTid x k)) = some n := by
    have hkey : (fun k => decide (laneTid x n = laneTid x k)) = fun k => k == n := by
      funext k
      rw [Bool.eq_iff_iff, decide_eq_true_iff, beq_iff_eq]
      exact ⟨fun e => (laneTid_inj e).symm, fun e => by rw [e]⟩
    rw [hkey, find?_beq_eq_ite, if_pos (mem_maskLanes.mpr hn)]
  rw [setLanes, hthreads, if_pos ⟨n, mem_maskLanes.mpr hn, rfl⟩, ht, hfind]
  rfl

/-- Members that have each been set a thread of their own have gone on. -/
theorem membersGo_setLanes {c : Touch} {post : Nat → Thread → Prop} {W : Nat → Thread}
    (ht : ∀ n, mask.getLsbD n = true → threadOf s (laneTid x n) = some (T n))
    (hat : ∀ n, mask.getLsbD n = true → At (nextSlot x.thr.pc) s h (W n))
    (hon : ∀ n, presentLane s h mask T n = true → Kept c (T n) (W n) ∧ post n (W n))
    (hoff : ∀ n, presentLane s h mask T n = false → Kept {} (T n) (W n)) :
    MembersGo h s (setLanes s x mask W) x mask T c post := by
  obtain ⟨hthreads, hmem, hblock, hrest⟩ := foldl_setThread x W (maskLanes mask) (maskLanes_nodup mask) s
  refine ⟨fun n hn => ⟨W n, threadOf_setLanes W hn (ht n hn), hat n hn, hon n, hoff n⟩, fun u hu => ?_, hmem, hblock, hrest⟩
  rw [setLanes, hthreads, if_neg]
  rintro ⟨n, hn, rfl⟩
  exact hu n (mem_maskLanes.mp hn) rfl

/-- Setting threads one after another takes no time. -/
theorem foldl_done_cycle (b : Nat → Thread) (now : Nat) : ∀ (l : List Nat) {t : State}, t.cycle = now →
    l.foldl (fun t n => setThread t (laneTid x n) ((b n).done t.cycle h)) t
      = l.foldl (fun t n => setThread t (laneTid x n) ((b n).done now h)) t
  | [], _, _ => rfl
  | n :: l, t, ht => by
    rw [List.foldl_cons, List.foldl_cons, ht]
    exact foldl_done_cycle b now l ((modThread_cycle ..).trans ht)

theorem membersDone_eq_setLanes (s' : State) (f : Member → Thread) : membersDone h s' (membersOf h s x mask T 32) f
    = .next (setLanes s' x mask fun n => (f ⟨n, laneTid x n, T n, guardOf s (T n) h⟩).done s'.cycle h) := by
  rw [membersDone, membersOf, List.foldl_map]
  exact congrArg _ (foldl_done_cycle (fun n => f ⟨n, laneTid x n, T n, guardOf s (T n) h⟩) s'.cycle _ rfl)

theorem setLanes_cores (s : State) (x : Cx) (mask : Word) (W : Nat → Thread) : (setLanes s x mask W).cores = s.cores := by
  obtain ⟨-, -, -, hrest⟩ := foldl_setThread x W (maskLanes mask) (maskLanes_nodup mask) s
  have := congrArg State.cores hrest
  exact this

theorem foldl_setThread_upToCores (W : Nat → Thread) : ∀ (l : List Nat) {s s' : State}, { s' with cores := s.cores } = s →
    { l.foldl (fun t n => setThread t (laneTid x n) (W n)) s' with cores := s.cores }
      = l.foldl (fun t n => setThread t (laneTid x n) (W n)) s
  | [], _, _, hs => hs
  | n :: l, s, s', hs => by
    have hcores : (setThread s (laneTid x n) (W n)).cores = s.cores := modThread_cores ..
    have hset : { setThread s' (laneTid x n) (W n) with cores := (setThread s (laneTid x n) (W n)).cores }
        = setThread s (laneTid x n) (W n) := by rw [hcores, setThread_upToCores hs]
    have ih := foldl_setThread_upToCores W l hset
    rwa [hcores] at ih

/-! ### WSYNC (R108) -/

theorem Gathered.pc_eq (g : Gathered i h s x mask T) {n : Nat} (hn : mask.getLsbD n = true) : (T n).pc = x.thr.pc := by
  by_cases hown : n = x.tid.tidx % 32
  · rw [hown, g.me]
  · exact (g.arrived n hn hown).2.1

/-- Every member, present or not, goes on with its registers and parts as they were, also where cores have changed. -/
theorem membersGo_unchanged {s' : State} {f : Member → Thread} (g : Gathered i h s x mask T)
    (hs : { s' with cores := s.cores } = s) (hpc : ∀ m, (f m).pc = m.thr.pc) (hkept : ∀ m, Kept {} m.thr (f m)) : ∃ W,
    membersDone h s' (membersOf h s x mask T 32) f = .next (setLanes s' x mask W)
      ∧ MembersGo h s (setLanes s x mask W) x mask T {} (fun _ _ => True) := by
  let m (n : Nat) : Member := ⟨n, laneTid x n, T n, guardOf s (T n) h⟩
  refine ⟨_, membersDone_eq_setLanes s' f, membersGo_setLanes g.thread (fun n hn => ⟨?_, rfl, ?_⟩)
    (fun n _ => ⟨(hkept (m n)).done .., trivial⟩) (fun n _ => (hkept (m n)).done ..)⟩
  · exact congrArg nextSlot ((hpc (m n)).trans (g.pc_eq hn))
  · exact congrArg (· + _) (cycle_upToCores hs)

/-- Acquiring is no change of a register or a part. -/
theorem kept_acquire (t : Thread) (all : Clock) : Kept {} t (t.acquire all) where
  v _ _ := ⟨rfl, rfl⟩
  p _ _ := ⟨rfl, fun _ => rfl⟩
  a _ _ := ⟨rfl, rfl⟩
  parts q _ _ := by
    have hsame := q.same_refl t
    cases q <;> exact hsame

theorem exec_wsync_eq (g : Gathered (.wsync h mask) h s x mask T) : ∃ all, exec (.wsync h mask) s =
    membersDone h (acquireBlock s x.blk x.coreId) (membersOf h s x mask T 32) (fun m => m.thr.acquire all) :=
  ⟨_, (exec_wsync ..).trans (collective_gathered g _ _ rfl)⟩

/-- WSYNC within one core changes nothing but that its members go on. -/
theorem wsync_one_core (g : Gathered (.wsync h mask) h s x mask T) (hone : x.blk.cores.length ≤ 1) :
    InstanceGoes (.wsync h mask) h s x mask T {} (fun _ _ => True) := by
  obtain ⟨all, hi⟩ := exec_wsync_eq g
  rw [acquireBlock, if_neg (Nat.not_lt.mpr hone)] at hi
  obtain ⟨W, hd, hm⟩ :=
    membersGo_unchanged g (s' := s) (f := fun m => m.thr.acquire all) rfl (fun _ => rfl) (fun m => kept_acquire m.thr all)
  exact ⟨_, hi.trans hd, hm⟩

/-- WSYNC on more cores drops the shared lines of the core's L1 too (R312). -/
theorem wsync_more_cores (g : Gathered (.wsync h mask) h s x mask T) (hmore : 1 < x.blk.cores.length) :
    ∃ t, exec (.wsync h mask) s = .next t ∧ MembersGo h s { t with cores := s.cores } x mask T {} (fun _ _ => True)
      ∧ OnlyCore s t x.coreId { coreOf s x.coreId with l1 := (coreOf s x.coreId).l1.filter L1Line.excl } := by
  obtain ⟨all, hi⟩ := exec_wsync_eq g
  rw [acquireBlock, if_pos hmore] at hi
  have hs : { l1Acquire s x.coreId with cores := s.cores } = s := rfl
  obtain ⟨W, hd, hm⟩ :=
    membersGo_unchanged g (f := fun m => m.thr.acquire all) hs (fun _ => rfl) (fun m => kept_acquire m.thr all)
  refine ⟨_, hi.trans hd, ?_, ?_, fun k hk => ?_⟩
  · rw [setLanes, ← foldl_setThread_upToCores W _ hs] at hm
    exact hm
  · rw [coreOf_congr (setLanes_cores ..), l1Acquire, coreOf_setCore, if_pos rfl]
  · rw [coreOf_congr (setLanes_cores ..), l1Acquire, coreOf_setCore, if_neg hk]

/-! ### Arrival (R101, R238) -/

/-- A lane that has not arrived keeps the members from gathering. -/
theorem gather_eq_none {n : Nat} (hn : mask.getLsbD n = true) (ha : arrived s x mask h n = none) :
    ∀ k, n < k → gather s x mask h k = none
  | k + 1, hk => by
    rw [gather]
    obtain hlt | rfl := Nat.lt_succ_iff_lt_or_eq.mp hk
    · rw [gather_eq_none hn ha k hlt]
    · cases gather s x mask h n with
      | none => rfl
      | some ms => simp only [if_pos hn, ha]

theorem arrived_eq_none (hc : curCx s = some x) {n : Nat} (hown : n ≠ x.tid.tidx % 32)
    (hno : ∀ u, threadOf s (laneTid x n) = some u → ¬(u.status = .held mask ∧ u.pc = x.thr.pc ∧ u.top = x.thr.top)) :
    arrived s x mask h n = none := by
  obtain ⟨-, hb, -⟩ := (curCx_eq_some s x).mp hc
  have hne : laneTid x n ≠ x.tid := fun e => hown (laneTid_inj (e.trans (laneTid_own x).symm))
  unfold arrived
  rw [show (⟨x.tid.slot, 32 * waveIx x.tid + n⟩ : ThreadId) = laneTid x n from rfl, if_neg hne]
  have hthread : threadOf s (laneTid x n) = x.blk.threads[(laneTid x n).tidx]? := by
    rw [threadOf, show blockOf s (laneTid x n).slot = some x.blk from hb]
  cases ht : x.blk.threads[(laneTid x n).tidx]? with
  | none => rfl
  | some u => simp only [if_neg (hno u (hthread.trans ht))]

/-- Arrival at a collective: a thread outside its mask is alone with its trap or its false guard, and one whose
fellows have not all arrived is held. -/
theorem arrives_at_collective {k : Cx → List Member → Out} (hc : curCx s = some x)
    (hi : exec i s = collective i h s (fun _ => mask) k) :
    (mask.getLsbD (x.tid.tidx % 32) = false → registerTrap s x.thr (chkOf s x.blk) h i = none →
      (guardOf s x.thr h = true → TrapsOn i s x 0x01 0x02 ((encode i).extractLsb' 0 32) ((encode i).extractLsb' 32 32))
      ∧ (guardOf s x.thr h = false → ∃ t w, exec i s = .next t ∧ Did s t x h {} w))
    ∧ (mask.getLsbD (x.tid.tidx % 32) = true →
      (∃ n, mask.getLsbD n = true ∧ n ≠ x.tid.tidx % 32 ∧ ∀ u, threadOf s (laneTid x n) = some u →
        ¬(u.status = .held mask ∧ u.pc = x.thr.pc ∧ u.top = x.thr.top)) →
      ∃ t, exec i s = .next t ∧ OnlyThread s t x.tid { x.thr with status := .held mask, nextIssue := s.cycle + 1 }) := by
  refine ⟨fun hout hclean => ?outside, fun hown ⟨n, hn, hne, hno⟩ => ?held⟩
  case outside =>
    have halone : exec i s = if guardOf s x.thr h then illop s x (encode i) 0x02 else goOn h s x x.thr := by
      rw [hi, collective, hc]
      simp only [laneOf, hout, Bool.not_false, if_true, hclean]
    exact ⟨fun hg => halone.trans (if_pos hg), fun hg =>
      ⟨_, _, halone.trans (if_neg (by simp [hg])), did_goOn hc rfl (Kept.refl _ _)⟩⟩
  case held =>
    have hheld : exec i s = .next (setThread s x.tid { x.thr with status := .held mask, nextIssue := s.cycle + 1 }) := by
      rw [hi, collective, hc]
      simp only [laneOf, hown, Bool.not_true, Bool.false_eq_true, if_false,
        gather_eq_none (h := h) hn (arrived_eq_none hc hne hno) 32 (BitVec.lt_of_getLsbD hn)]
    exact ⟨_, hheld, onlyThread_setThread hc _⟩

theorem arrivalAtACollective : Claims.ArrivalAtACollective := by
  intro h mask vop sop wop excl d pd pa a b s x T hc
  refine ⟨?_, wsync_one_core, wsync_more_cores⟩
  simp only [List.forall_mem_cons]
  exact ⟨arrives_at_collective hc (exec_ballot ..), arrives_at_collective hc (exec_vote ..),
    arrives_at_collective hc (exec_shfl ..), arrives_at_collective hc (exec_wred ..),
    arrives_at_collective hc (exec_wscan ..), arrives_at_collective hc (exec_matchEq ..),
    arrives_at_collective hc (exec_wsync ..), List.forall_mem_nil _⟩

/-! ### A trap of all members (R238, R248) -/

/-- The lowest lane whose registers trap gives the trap of all members. -/
theorem findSome?_maskLanes {f : Nat → Option Trap} {k : Nat} {r : Trap} (hk : mask.getLsbD k = true) (hr : f k = some r)
    (hbelow : ∀ n, n < k → mask.getLsbD n = true → f n = none) : (maskLanes mask).findSome? f = some r := by
  obtain ⟨m, hm⟩ := Nat.exists_eq_add_of_lt (BitVec.lt_of_getLsbD hk)
  have hlanes : maskLanes mask = (List.range k).filter (fun n => mask.getLsbD n)
      ++ k :: (List.range' (k + 1) m).filter (fun n => mask.getLsbD n) := by
    have hrange : List.range 32 = List.range k ++ k :: List.range' (k + 1) m := by
      rw [hm, Nat.add_assoc, List.range_eq_range', ← List.range'_append_1, Nat.zero_add, List.range'_succ, List.range_eq_range']
    rw [maskLanes_eq, hrange, List.filter_append, List.filter_cons_of_pos hk]
  have hfirst : ((List.range k).filter (fun n => mask.getLsbD n)).findSome? f = none := by
    rw [List.findSome?_eq_none_iff]
    intro n hn
    obtain ⟨hlt, hset⟩ := List.mem_filter.mp hn
    exact hbelow n (List.mem_range.mp hlt) hset
  rw [hlanes, List.findSome?_append, hfirst, List.findSome?_cons, hr]
  rfl

theorem collective_traps {kont : Cx → List Member → Out} {ms : List Member} {r : Trap} (hc : curCx s = some x)
    (hi : exec i s = collective i h s (fun _ => mask) kont) (hown : mask.getLsbD (x.tid.tidx % 32) = true)
    (hgather : gather s x mask h 32 = some ms)
    (htrap : ms.findSome? (fun m => registerTrap s m.thr (chkOf s x.blk) h i) = some r) : exec i s = .next (trapAll s ms r) := by
  rw [hi, collective, hc]
  simp only [laneOf, hown, Bool.not_true, Bool.false_eq_true, if_false, hgather, htrap]

theorem instanceTrapsInEveryMember : Claims.InstanceTrapsInEveryMember := by
  intro h mask d pa s x T k r hc hown me hmembers hk hr hbelow
  have hgather : gather s x mask h 32 = some (membersOf h s x mask T 32) :=
    gather_of hc me (fun n hn => (hmembers n hn).1) (fun n hn hne => (hmembers n hn).2 hne) 32
  have htrap : (membersOf h s x mask T 32).findSome? (fun m => registerTrap s m.thr (chkOf s x.blk) h (.ballot h mask d pa))
      = some r := by
    rw [membersOf, List.findSome?_map]
    exact findSome?_maskLanes (f := fun n => registerTrap s (T n) (chkOf s x.blk) h (.ballot h mask d pa)) hk hr hbelow
  rw [collective_traps hc (exec_ballot ..) hown hgather htrap, trapAll, membersOf, List.foldl_map]

end Sys2Proof.Machine

/-- Settles O18: a thread comes to a collective alone, held, or as the last of its mask, and a trap of the lowest lane that
traps is taken in every lane. -/
theorem instancesFormAndTrap : Obligations.InstancesFormAndTrap :=
  ⟨Sys2Proof.Machine.arrivalAtACollective, Sys2Proof.Machine.instanceTrapsInEveryMember⟩
end

section
/-! PROOF. The end of an overlay load and of a wait for room (O34). -/

namespace Sys2Proof.Machine

open Sys2Proof

/-! ### Filling an overlay (R266, R271) -/

theorem NatSet.has_add (j n : Nat) : ∀ s : NatSet, (NatSet.add s n).has j = (j == n || s.has j)
  | [] => List.contains_cons
  | k :: s => by
    have ih := NatSet.has_add j n s
    simp only [NatSet.has] at ih ⊢
    rw [NatSet.add]
    split_ifs with hlt heq
    · rw [List.contains_cons]
    · rw [heq, List.contains_cons, ← Bool.or_assoc, Bool.or_self]
    · rw [List.contains_cons, List.contains_cons, ih, Bool.or_left_comm]

theorem NatSet.has_foldl_add {α : Type} (f : α → Nat) (j : Nat) : ∀ (l : List α) (s : NatSet),
    (l.foldl (fun r e => NatSet.add r (f e)) s).has j = (s.has j || l.any (fun e => j == f e))
  | [], s => by simp
  | e :: l, s => by rw [List.foldl_cons, NatSet.has_foldl_add f j l, NatSet.has_add, List.any_cons, Bool.or_comm (j == f e), Bool.or_assoc]

/-- Filling lines changes nothing of a core but its lines. -/
theorem fillLines_rest : ∀ (ls : List Line) (c : Core) (base : Nat), { fillLines c base ls with lines := c.lines } = c
  | [], _, _ => rfl
  | l :: ls, c, base => congrArg (fun z : Core => { z with lines := c.lines })
      (fillLines_rest ls { c with lines := Assoc.set c.lines base l } (base + 1))

/-- The lines of an overlay's bytes are in the store from its base on, and no other line has changed. -/
theorem getD_fillLines_linesOf (j : Nat) : ∀ (n : Nat) (bs : List Byte) (c : Core) (base : Nat),
    Assoc.getD (fillLines c base (linesOf bs n)).lines j 0
      = if base ≤ j ∧ j < base + n then BitVec.ofNat 512 (leNat ((bs.drop (64 * (j - base))).take 64)) else Assoc.getD c.lines j 0
  | 0, bs, c, base => by rw [if_neg (by omega)]; rfl
  | n + 1, bs, c, base => by
    rw [linesOf, fillLines, getD_fillLines_linesOf j n, Assoc.getD_set]
    by_cases hself : j = base
    · subst hself
      rw [if_neg (by omega), if_pos rfl, if_pos (by omega), Nat.sub_self, Nat.mul_zero, List.drop_zero]
    · rw [if_neg hself]
      by_cases hin : base ≤ j ∧ j < base + (n + 1)
      · have hdrop : 64 + 64 * (j - (base + 1)) = 64 * (j - base) := by omega
        rw [if_pos hin, if_pos (by omega), List.drop_drop, hdrop]
      · rw [if_neg hin, if_neg (by omega)]

section
variable (now : BitVec 32) (c : Core) (key : RKey) (base : Nat) (ls : List Line) (table : List RestartEntry)

theorem Core.fill_rest : { c.fill now key base ls table with lines := c.lines, restart := c.restart, resid := c.resid } = c :=
  congrArg (fun z : Core => { z with restart := c.restart, resid := c.resid }) (fillLines_rest ls c base)

theorem Core.fill_loads : (c.fill now key base ls table).loads = c.loads := by
  have := congrArg Core.loads (Core.fill_rest now c key base ls table)
  exact this

theorem Core.has_restart_fill (j : Nat) : (c.fill now key base ls table).restart.has j
    = (c.restart.has j || table.any (fun e => j == 8 * base + e.slot.toNat)) := by
  have hsame : (fillLines c base ls).restart = c.restart := by
    have := congrArg Core.restart (fillLines_rest ls c base)
    exact this
  rw [← hsame]
  exact NatSet.has_foldl_add (fun e : RestartEntry => 8 * base + e.slot.toNat) j table _

theorem Core.find_modResid {c : Core} {key : RKey} {r : Resid} {f : Resid → Resid} (hf : ∀ r, (f r).key = r.key)
    (hr : c.find key = some r) : (c.modResid key f).find key = some (f r) := by
  have hsame : ((fun q : Resid => q.key == key) ∘ fun q => if q.key == key then f q else q) = fun q => q.key == key := by
    funext q
    simp only [Function.comp_apply, apply_ite Resid.key, hf, ite_self]
  rw [Core.find] at hr
  rw [Core.find, Core.modResid, List.find?_map, hsame, hr, Option.map_some, if_pos (List.find?_some hr)]

theorem Core.find_fill {r : Resid} (hr : c.find key = some r) :
    (c.fill now key base ls table).find key = some { r with state := .resident, lru := now, table := table } := by
  refine Core.find_modResid (fun _ => rfl) ?_
  have hsame : (fillLines c base ls).resid = c.resid := by
    have := congrArg Core.resid (fillLines_rest ls c base)
    exact this
  rw [Core.find] at hr ⊢
  rw [hsame, hr]

end

/-! ### The end of a load (R266, R271) -/

theorem overlayLoadComplete_fills {s s' : State} {n k : Nat} {l : OvLoad} {bs : List Byte} {table : List RestartEntry}
    {r : Resid} (hl : (coreOf s n).loads[k]? = some l) (hplaced : l.placed = true) (hfault : l.fault = none)
    (hactive : activeAt s (engineFor (n / 4)) l.id = true) (hsrc : loadSource s l = (s', .lines bs table))
    (hr : (coreOf s' n).find l.key = some r) :
    let filled := (coreOf s' n).fill (lruNow s' (coreOf s' n)) l.key r.base (linesOf bs l.len) table
    let t1 := setCore (setCore s' n filled) n { filled with loads := filled.loads.eraseIdx k }
    exec (.overlayLoadComplete n k) s = .next ((allTids t1).foldl (loadEndsFor n l.key 0) t1) := by
  intro filled t1
  have hgoes : ¬(!l.placed ∨ l.fault.isSome ∨ !activeAt s (engineFor (n / 4)) l.id) := by simp [hplaced, hfault, hactive]
  rw [exec_overlayLoadComplete, execOverlayLoadComplete, hl]
  simp only [if_neg hgoes, hsrc, hr, endLoad, if_true, coreOf_setCore]
  rfl

/-! ### Threads that the load releases (R115) -/

theorem OnlyThread.trans {s t u : State} {tid : ThreadId} {w1 w2 : Thread} (h1 : OnlyThread s t tid w1)
    (h2 : OnlyThread t u tid w2) : OnlyThread s u tid w2 where
  thread := h2.thread
  others v hv := (h2.others v hv).trans (h1.others v hv)
  memory := h1.memory.trans h2.memory
  block slot b hb := by
    obtain ⟨c, hc, hcb⟩ := h1.block slot b hb
    obtain ⟨d, hd, hdc⟩ := h2.block slot c hc
    exact ⟨d, hd, (congrArg (fun z : Block => { z with threads := b.threads }) hdc).trans hcb⟩
  rest := (congrArg (fun z : State => { z with blocks := s.blocks }) h2.rest).trans h1.rest

/-- Landing a load's tokens leaves the thread in its state. -/
theorem landToken_load_status (now : Nat) (t : Thread) (key : RKey) (w : Word) :
    (landToken now t (.load key) w).status = t.status :=
  List.foldlRecOn _ _ (motive := fun u : Thread => u.status = t.status) rfl (fun _ hu _ _ => hu)

theorem ovKey_setThread (s : State) (tid : ThreadId) (t : Thread) (core ctx : Nat) (id : BitVec 8) :
    ovKey (setThread s tid t) core ctx id = ovKey s core ctx id := by
  unfold ovKey
  rw [coreOf_setThread]

theorem loadEndsFor_releases {s : State} {tid : ThreadId} {b : Block} {u : Thread} {key : RKey} {ids : List (BitVec 8)}
    {entry : BitVec 15} (hb : blockOf s tid.slot = some b) (hu : b.threads[tid.tidx]? = some u)
    (hpark : u.status = .parkedLoad ids (.call entry)) (hid : ∃ id ∈ ids, ovKey s (coreIdOf b tid) b.ctx id = key) :
    OnlyThread s (loadEndsFor (coreIdOf b tid) key 0 s tid) tid
      { landToken s.cycle u (.load key) 0 with status := .ready, nextIssue := s.cycle + 1 } := by
  let landed := landToken s.cycle u (.load key) 0
  obtain ⟨id, hfind⟩ : ∃ id, ids.find? (fun id => ovKey s (coreIdOf b tid) b.ctx id == key) = some id := by
    rw [← Option.isSome_iff_exists, List.find?_isSome]
    simpa using hid
  have hends : loadEndsFor (coreIdOf b tid) key 0 s tid = setThread (setThread s tid landed) tid
      { landed with status := .ready, nextIssue := (setThread s tid landed).cycle + 1 } := by
    unfold loadEndsFor
    simp only [hb, hu, ne_eq, not_true_eq_false, if_false, landToken_load_status, hpark, ovKey_setThread, hfind,
      releaseParked, if_true]
    rfl
  have hfirst : OnlyThread s (setThread s tid landed) tid landed := onlyThread_of_threadOf (threadOf_of_block hb hu) landed
  have hcycle : (setThread s tid landed).cycle = s.cycle := modThread_cycle ..
  rw [hends, hcycle]
  exact hfirst.trans (onlyThread_of_threadOf hfirst.thread _)

/-! ### The end of a wait for room (R268) -/

theorem overlayRoomWaitEnd_places {s : State} {n k base : Nat} {l : OvLoad} {c : Core}
    (hl : (coreOf s n).loads[k]? = some l) (hfirst : firstWaiting (coreOf s n).loads = some k)
    (hroom : findRoom l.len l.ctx l.limit l.key.isPub 65 (coreOf s n) = (c, .at base)) :
    exec (.overlayRoomWaitEnd n) s = .next (setCore { s with nextId := s.nextId + 1 } n
      ({ c with loads := c.loads.set k { l with placed := true, id := s.nextId } }.place l base)) := by
  rw [exec_overlayRoomWaitEnd, execOverlayRoomWaitEnd]
  simp only [hfirst, hl, hroom]

end Sys2Proof.Machine

open Sys2Proof Sys2Proof.Machine in
/-- Settles O34: a load that reads its source leaves the core as `Core.fill` gives it, before every thread of the device is
told of its end; a wait for room places the load where FindRoom found it. -/
theorem overlayLoadsEnd : Obligations.OverlayLoadsEnd := by
  intro s s' n k l bs table r hl
  refine ⟨fun hplaced hfault hactive hsrc hr => ?fills, ?releases, fun base c' hfirst hroom => ?places⟩
  case fills =>
    refine ⟨_, _, overlayLoadComplete_fills hl hplaced hfault hactive hsrc hr, rfl,
      ⟨by rw [coreOf_setCore, if_pos rfl], fun j hj => ?_⟩,
      ?_, ?_, fun j => ?_, fun j => ?_⟩
    · rw [coreOf_setCore, if_neg hj, coreOf_setCore, if_neg hj]
    · exact congrArg (List.eraseIdx · k) (Core.fill_loads ..)
    · exact Core.find_fill _ _ _ _ _ _ hr
    · exact getD_fillLines_linesOf j l.len bs (coreOf s' n) r.base
    · exact Core.has_restart_fill (lruNow s' (coreOf s' n)) (coreOf s' n) l.key r.base (linesOf bs l.len) table j
  case releases =>
    rintro tid b u ids entry hb hu rfl hpark hid
    exact loadEndsFor_releases hb hu hpark hid
  case places =>
    refine ⟨_, _, overlayRoomWaitEnd_places hl hfirst hroom, rfl, ⟨by rw [coreOf_setCore, if_pos rfl], fun j hj => ?_⟩, rfl, rfl⟩
    rw [coreOf_setCore, if_neg hj]
    rfl
end

section
/-! SUPPORT. Laws of the floating-point and conversion forms at any latency, and of the halves and fields of a word that the
packed and conversion instructions take apart (R34, R38). -/

namespace Sys2Proof.Machine

open Sys2Proof

variable {i : Instr} {h : Hdr} {s : State} {x : Cx} {d : VReg} {lat : Nat} {r : Nat × Flags}

/-! ### Results and flags -/

/-- A meaning that writes one v register and goes on. -/
theorem wrV_writes {v : Word} {post : Word → Prop} (he : Executes h s x)
    (hi : exec i s = goOn h s x (wrV s.cycle x.thr d v lat)) (hp : post v) : WritesV i s x h d post := by
  obtain ⟨hnext, hdid⟩ := did_of_goOn (c := { v := [d] }) he hi rfl ((Kept.refl _ x.thr).wrV (by simp) s.cycle v lat)
  exact ⟨_, _, hnext, hdid, by simpa using hp⟩

/-- A meaning that writes a 32-bit result, raises its flags and goes on. -/
theorem fResult_writes (he : Executes h s x) (hi : exec i s = goOn h s x (fResult s.cycle h x.thr d r lat)) :
    WritesF i s x h d r := by
  obtain ⟨hnext, hdid⟩ := did_of_goOn (c := { v := [d], parts := [.fpx] }) he hi (by simp [fResult])
    (((Kept.refl _ x.thr).wrV (by simp) s.cycle _ lat).addFlags (by simp) s.cycle h _ lat)
  exact ⟨_, _, hnext, hdid, by simp [fResult], by simp [fResult, fpx_addFlags]⟩

/-- A meaning that writes a 64-bit result, raises its flags and goes on. -/
theorem dResult_writes (he : Executes h s x) (hi : exec i s = goOn h s x (dResult s.cycle h x.thr d r lat)) :
    WritesD i s x h d r := by
  obtain ⟨hnext, hdid⟩ := did_of_goOn (c := { v := [d, d + 1], parts := [.fpx] }) he hi (by simp [dResult])
    (((Kept.refl _ x.thr).wrV64 (by simp) (by simp) s.cycle _ lat).addFlags (by simp) s.cycle h _ lat)
  exact ⟨_, _, hnext, hdid, by simp [dResult], by simp [dResult, fpx_addFlags]⟩

/-- A conversion to 32 bits or fewer writes its register. -/
theorem cnvEnd_writes_word {wide : Bool} (he : Executes h s x) (hw : wide = false)
    (hi : exec i s = cnvEnd h s x d wide lat r) : WritesF i s x h d r :=
  fResult_writes he (hw ▸ hi)

/-- A conversion to 64 bits writes its pair. -/
theorem cnvEnd_writes_pair {wide : Bool} (he : Executes h s x) (hw : wide = true)
    (hi : exec i s = cnvEnd h s x d wide lat r) : WritesD i s x h d r :=
  dResult_writes he (hw ▸ hi)

/-! ### Halves and fields of a word -/

theorem lowHalf_toNat (w : Word) : (w.extractLsb' 0 16).toNat = w.toNat % 2 ^ 16 := BitVec.extractLsb'_toNat ..

theorem highHalf_toNat (w : Word) : (w.extractLsb' 16 16).toNat = w.toNat / 2 ^ 16 := by
  rw [BitVec.extractLsb'_toNat, Nat.shiftRight_eq_div_pow, Nat.mod_eq_of_lt (by omega)]

/-- Element k of a word of n-bit elements (R38). -/
theorem element_toNat (w : Word) (n k : Nat) : (w.extractLsb' (n * k) n).toNat = w.toNat / (2 ^ n) ^ k % 2 ^ n := by
  rw [BitVec.extractLsb'_toNat, Nat.shiftRight_eq_div_pow, pow_mul]

/-- A packed operation of two operands works on the halves of its own index, and ORs the flags (R20, R34). -/
theorem packed2_eq (g : Nat → Nat → Nat × Flags) (a b : Word) :
    packed2 g a b =
      ((g (a.toNat % 2 ^ 16) (b.toNat % 2 ^ 16)).1 + 2 ^ 16 * (g (a.toNat / 2 ^ 16) (b.toNat / 2 ^ 16)).1,
       (g (a.toNat % 2 ^ 16) (b.toNat % 2 ^ 16)).2 ||| (g (a.toNat / 2 ^ 16) (b.toNat / 2 ^ 16)).2) := by
  simp only [packed2, lowHalf_toNat, highHalf_toNat]

/-- The same of three operands. -/
theorem packed3_eq (g : Nat → Nat → Nat → Nat × Flags) (a b c : Word) :
    packed3 g a b c =
      ((g (a.toNat % 2 ^ 16) (b.toNat % 2 ^ 16) (c.toNat % 2 ^ 16)).1
          + 2 ^ 16 * (g (a.toNat / 2 ^ 16) (b.toNat / 2 ^ 16) (c.toNat / 2 ^ 16)).1,
       (g (a.toNat % 2 ^ 16) (b.toNat % 2 ^ 16) (c.toNat % 2 ^ 16)).2
          ||| (g (a.toNat / 2 ^ 16) (b.toNat / 2 ^ 16) (c.toNat / 2 ^ 16)).2) := by
  simp only [packed3, lowHalf_toNat, highHalf_toNat]

end Sys2Proof.Machine
end

section
/-! PROOF. FP32 and FP64 instructions of the A pipe, and the class word of FCLS (O6). -/

namespace Sys2Proof.Machine

open Sys2Proof

/-! ### FP32 as fields of a word (R33) -/

theorem fp32_codeSign (A : Word) : fp32.codeSign A.toNat = A.msb := by
  have hlt := A.isLt
  rw [BitVec.msb_eq_decide, FF.codeSign, Nat.shiftRight_eq_div_pow]
  exact decide_eq_decide.mpr (by simp only [fp32]; omega)

theorem fp32_codeExp (A : Word) : fp32.codeExp A.toNat = (A.extractLsb' 23 8).toNat := (BitVec.extractLsb'_toNat ..).symm

theorem fraction_eq_zero_iff (A : Word) : (A.extractLsb' 0 23).toNat = 0 ↔ A.extractLsb' 0 23 = 0#23 :=
  BitVec.toNat_inj (y := 0#23)

theorem fp32_codeFrac (A : Word) : fp32.codeFrac A.toNat = (A.extractLsb' 0 23).toNat := by
  rw [BitVec.extractLsb'_toNat, Nat.shiftRight_zero]; rfl

/-- Negation and absolute value change the sign alone (R125). -/
theorem prep_inf {f : FF} {c : Nat} {n : Bool} (hd : f.decode c = .inf n) (abs neg : Bool) :
    prep f false abs neg c = .inf ((n && !abs) != neg) := by
  rw [prep, hd]
  cases abs <;> cases neg <;> simp [Num.abs, Num.neg]

theorem prep_fin {f : FF} {c m : Nat} {e : Int} {n : Bool} (hd : f.decode c = .fin n m e) (abs neg : Bool) :
    prep f false abs neg c = .fin ((n && !abs) != neg) m e := by
  rw [prep, hd]
  cases abs <;> cases neg <;> simp [Num.abs, Num.neg]

theorem prep_nan {f : FF} {c : Nat} (hd : f.decode c = .nan) (ftz abs neg : Bool) : prep f ftz abs neg c = .nan := by
  rw [prep, hd]
  cases abs <;> cases neg <;> rfl

/-- An FP32 value by the fields of its word (R33). -/
theorem decode_fp32 (A : Word) : fp32.decode A.toNat =
    if A.extractLsb' 23 8 = 0xFF#8 then (if A.extractLsb' 0 23 = 0#23 then .inf A.msb else .nan)
    else if A.extractLsb' 23 8 = 0#8 then .fin A.msb (A.extractLsb' 0 23).toNat fp32.qmin
    else .fin A.msb ((A.extractLsb' 0 23).toNat + 2 ^ 23) (fp32.qmin + (A.extractLsb' 23 8).toNat - 1) := by
  have hdec : fp32.decode A.toNat =
      if true = true ∧ fp32.codeExp A.toNat = 255 then
        (if fp32.codeFrac A.toNat = 0 then .inf (fp32.codeSign A.toNat) else .nan)
      else if fp32.fb = 3 ∧ fp32.eb = 4 ∧ fp32.codeExp A.toNat = 15 ∧ fp32.codeFrac A.toNat = 7 then .nan
      else if fp32.codeExp A.toNat = 0 then .fin (fp32.codeSign A.toNat) (fp32.codeFrac A.toNat) fp32.qmin
      else .fin (fp32.codeSign A.toNat) (fp32.codeFrac A.toNat + 2 ^ 23) (fp32.qmin + fp32.codeExp A.toNat - 1) := rfl
  rw [hdec, fp32_codeSign, fp32_codeExp, fp32_codeFrac]
  simp only [← BitVec.toNat_inj, BitVec.toNat_ofNat, true_and, show ¬ fp32.fb = 3 by decide, false_and, if_false]

/-- A NaN is signalling where its highest fraction bit is clear (R33). -/
theorem fp32_signalling_of_nan {A : Word} (hexp : A.extractLsb' 23 8 = 0xFF#8) (hfrac : A.extractLsb' 0 23 ≠ 0#23) :
    fp32.signalling A.toNat = !A.getLsbD 22 := by
  have hsig : fp32.signalling A.toNat = (true && fp32.codeExp A.toNat == 255 && fp32.codeFrac A.toNat != 0
      && (A.toNat >>> 22) % 2 == 0) := rfl
  have hquiet : A.getLsbD 22 = decide ((A.toNat >>> 22) % 2 = 1) := by
    rw [Nat.shiftRight_eq_div_pow]
    exact Nat.testBit_eq_decide_div_mod_eq
  have hzero : fp32.codeFrac A.toNat ≠ 0 := by
    rwa [fp32_codeFrac, ne_eq, fraction_eq_zero_iff]
  rw [hsig, hquiet, fp32_codeExp, hexp]
  obtain hbit | hbit := Nat.mod_two_eq_zero_or_one (A.toNat >>> 22) <;> simp [hbit, hzero]

/-! ### The class word (R131) -/

theorem classWord_of_nan {m : FMod} {a : Nat} (hd : fp32.decode a = .nan) :
    classWord m a = if fp32.signalling a then 1 else 2 := by
  rw [classWord, prep_nan hd]

theorem classWord_of_inf {m : FMod} {a : Nat} {n : Bool} (hd : fp32.decode a = .inf n) :
    classWord m a = if (n && !m.absA) != m.negA then 4 else 0x200 := by
  rw [classWord, prep_inf hd]

theorem classWord_of_fin {m : FMod} {a k : Nat} {e : Int} {n : Bool} (hd : fp32.decode a = .fin n k e) :
    classWord m a =
      if k = 0 then (if (n && !m.absA) != m.negA then 0x20 else 0x40)
      else if k < 2 ^ 23 then (if (n && !m.absA) != m.negA then 0x10 else 0x80)
      else (if (n && !m.absA) != m.negA then 8 else 0x100) := by
  rw [classWord, prep_fin hd]

/-- The class follows the exponent and fraction fields, and the sign after the modifiers. -/
theorem classWord_eq (m : FMod) (A : Word) : classWord m A.toNat = 1#32 <<<
    (if A.extractLsb' 23 8 = 0xFF#8 then
      (if A.extractLsb' 0 23 ≠ 0#23 then (if A.getLsbD 22 then 1 else 0) else if (A.msb && !m.absA) != m.negA then 2 else 9)
    else if A.extractLsb' 23 8 = 0#8 then
      (if A.extractLsb' 0 23 = 0#23 then (if (A.msb && !m.absA) != m.negA then 5 else 6)
        else if (A.msb && !m.absA) != m.negA then 4 else 7)
    else if (A.msb && !m.absA) != m.negA then 3 else 8) := by
  have hdec := decode_fp32 A
  by_cases hmax : A.extractLsb' 23 8 = 0xFF#8
  · by_cases hfrac : A.extractLsb' 0 23 = 0#23
    · rw [if_pos hmax, if_pos hfrac] at hdec
      rw [classWord_of_inf hdec, if_pos hmax, if_neg (not_not.mpr hfrac)]
      split_ifs <;> rfl
    · rw [if_pos hmax, if_neg hfrac] at hdec
      rw [classWord_of_nan hdec, fp32_signalling_of_nan hmax hfrac, if_pos hmax, if_pos hfrac]
      cases A.getLsbD 22 <;> rfl
  · rw [if_neg hmax] at hdec ⊢
    by_cases hmin : A.extractLsb' 23 8 = 0#8
    · rw [if_pos hmin] at hdec ⊢
      rw [classWord_of_fin hdec, if_congr (fraction_eq_zero_iff A) rfl rfl]
      by_cases hfrac : A.extractLsb' 0 23 = 0#23
      · rw [if_pos hfrac, if_pos hfrac]
        split_ifs <;> rfl
      · rw [if_neg hfrac, if_pos (BitVec.isLt _), if_neg hfrac]
        split_ifs <;> rfl
    · rw [if_neg hmin] at hdec ⊢
      rw [classWord_of_fin hdec, if_neg (by omega), if_neg (by omega)]
      split_ifs <;> rfl

theorem singlePrecisionResults : Claims.SinglePrecisionResults := by
  intro h m d a b c s x he A B C
  exact ⟨fltOp_writes he (exec_fadd ..), fltOp_writes he (exec_fsub ..), fltOp_writes he (exec_fmul ..),
    fltOp_writes he (exec_ffma ..), fltOp_writes he (exec_fmin ..), fltOp_writes he (exec_fmax ..),
    fltOp_writes he (exec_frnd ..)⟩

theorem doublePrecisionResults : Claims.DoublePrecisionResults := by
  intro h m d a b c s x he A B C
  exact ⟨dblOp_writes he (exec_dadd ..), dblOp_writes he (exec_dmul ..), dblOp_writes he (exec_dfma ..),
    dblOp_writes he (exec_dmin ..), dblOp_writes he (exec_dmax ..)⟩

theorem classWordIsOneHot : Claims.ClassWordIsOneHot := by
  intro h m d a s x he A e f neg k
  exact wrV_writes he ((exec_fcls ..).trans (guarded_true he.1 he.2 _)) (classWord_eq m A)

end Sys2Proof.Machine

open Sys2Proof Sys2Proof.Machine in
/-- Settles O6: the A-pipe forms are `fltOp` and `dblOp`, and FCLS writes the bit that the fields of its operand name. -/
theorem floatResults : Obligations.FloatResults :=
  ⟨singlePrecisionResults, doublePrecisionResults, classWordIsOneHot⟩
end

section
/-! PROOF. Packed and conversion instructions (O7). -/

namespace Sys2Proof.Machine

open Sys2Proof

theorem packedResults : Claims.PackedResults := by
  intro h m d a b c s x he lo hi two three H B
  have htwo (g : Nat → Nat → Nat × Flags) (v w : Word) : two g v w = packed2 g v w := (packed2_eq g v w).symm
  have hthree (g : Nat → Nat → Nat → Nat × Flags) (u v w : Word) : three g u v w = packed3 g u v w :=
    (packed3_eq g u v w).symm
  simp only [htwo, hthree]
  exact ⟨fltOp_writes he (exec_hadd2 ..), fltOp_writes he (exec_hmul2 ..), fltOp_writes he (exec_hfma2 ..),
    fltOp_writes he (exec_hmin2 ..), fltOp_writes he (exec_hmax2 ..), fltOp_writes he (exec_badd2 ..),
    fltOp_writes he (exec_bmul2 ..), fltOp_writes he (exec_bfma2 ..), fltOp_writes he (exec_bmin2 ..),
    fltOp_writes he (exec_bmax2 ..)⟩

/-! ### The CNV class -/

section
variable {h : Hdr} {m : FMod} {df sf : Fmt} {d : VReg} {a b : Src} {s : State} {x : Cx}

/-- CVT2 of two FP32 sources (R140). -/
theorem exec_cvt2_narrow (he : Executes h s x) (hs : sf = .fp32) : exec (.cvt2 h m df sf d a b) s =
    let lo := cvtElem m (fmtFF df) (fmtFF sf) m.absA m.negA (src32 s x.thr a).toNat
    let hi := cvtElem m (fmtFF df) (fmtFF sf) false m.negB (src32 s x.thr b).toNat
    cnvEnd h s x d false 4 (lo.1 + 2 ^ 16 * hi.1, lo.2 ||| hi.2) :=
  (exec_cvt2 ..).trans ((guarded_true he.1 he.2 _).trans (if_pos hs))

/-- CVT2 of a packed source: to FP32 it gives a pair, to the other packed format a word (R140). -/
theorem exec_cvt2_packed (he : Executes h s x) (hs : sf ≠ .fp32) : exec (.cvt2 h m df sf d a b) s =
    let w := packedSrc s x.thr sf a
    let lo := cvtElem m (fmtFF df) (fmtFF sf) m.absA m.negA (w.extractLsb' 0 16).toNat
    let hi := cvtElem m (fmtFF df) (fmtFF sf) m.absA m.negA (w.extractLsb' 16 16).toNat
    if df = .fp32 then cnvEnd h s x d true 4 (lo.1 + 2 ^ 32 * hi.1, lo.2 ||| hi.2)
    else cnvEnd h s x d false 4 (lo.1 + 2 ^ 16 * hi.1, lo.2 ||| hi.2) :=
  (exec_cvt2 ..).trans ((guarded_true he.1 he.2 _).trans (if_neg hs))

end

/-- The code that DQ reads, by position (R38, R144). -/
theorem dqCode_eq (sf : Fmt) (el : BitVec 3) (w : Word) :
    (if sf == .e2m1x then (w.extractLsb' (4 * el.toNat) 4).toNat else (w.extractLsb' (8 * el.toNat) 8).toNat)
      = if sf = .e2m1x then w.toNat / 16 ^ el.toNat % 16 else w.toNat / 256 ^ el.toNat % 256 := by
  simp only [beq_iff_eq, element_toNat]
  rfl

/-- The word of BScale field by field, and its flag (R141). -/
theorem bscaleVal_eq (e2 : Bool) (spec : BitVec 5) (a : Word) : bscaleVal e2 spec a =
    let A := (f32 a).abs
    (0#19 ++ (if e2 then spec else 0) ++ (if A.isNaN ∨ A.isInf then 0xFF#8 else BitVec.ofNat 8 (blockScaleE e2 A)),
      if A.isNaN ∨ A.isInf then flagIV else 0) := by
  simp only [bscaleVal, Bool.or_eq_true]
  split_ifs <;> rfl

theorem conversionResults : Claims.ConversionResults := by
  intro h m df sf su du hi el spec d va a b c s x he w16 r el2 lo hi2 q4 q2 codes old
  have hcvt := (exec_cvt h m df sf su du d a s).trans (guarded_true he.1 he.2 _)
  refine ⟨fun h64 => cnvEnd_writes_pair he h64 hcvt, fun h32 => cnvEnd_writes_word he h32 hcvt,
    fun hd hs => ?widen, fun hds => ?two,
    cnvEnd_writes_word he rfl ((exec_qe4 ..).trans (guarded_true he.1 he.2 _)),
    cnvEnd_writes_word he rfl ((exec_qe2 ..).trans (guarded_true he.1 he.2 _)), ?dq, ?bscale⟩
  case widen =>
    have hexec := (exec_cvt2_packed (m := m) (d := d) (a := a) (b := b) he hs).trans (if_pos hd)
    simp only [lo, hi2, if_neg hs]
    exact cnvEnd_writes_pair he rfl hexec
  case two =>
    by_cases hs : sf = .fp32
    · simp only [lo, hi2, if_pos hs]
      exact cnvEnd_writes_word he rfl (exec_cvt2_narrow he hs)
    · have hexec := (exec_cvt2_packed (m := m) (d := d) (a := a) (b := b) he hs).trans (if_neg (hds.resolve_right hs))
      simp only [lo, hi2, if_neg hs]
      exact cnvEnd_writes_word he rfl hexec
  case dq =>
    rw [← dqCode_eq]
    exact cnvEnd_writes_word he rfl ((exec_dq ..).trans (guarded_true he.1 he.2 _))
  case bscale =>
    have hexec : exec (.bscale h df spec d a) s = goOn h s x (fResult s.cycle h x.thr d
        ((bscaleVal (df == .e2m1x) spec (src32 s x.thr a)).1.toNat, (bscaleVal (df == .e2m1x) spec (src32 s x.thr a)).2) 4) := by
      rw [fResult, BitVec.ofNat_toNat, BitVec.setWidth_eq]
      exact (exec_bscale ..).trans (guarded_true he.1 he.2 _)
    rw [bscaleVal_eq] at hexec
    exact fResult_writes he hexec

end Sys2Proof.Machine

open Sys2Proof Sys2Proof.Machine in
/-- Settles O7: the packed forms are `fltOp` on the halves of their operands, and the CNV class ends in `cnvEnd`. -/
theorem packedAndConversionResults : Obligations.PackedAndConversionResults := ⟨packedResults, conversionResults⟩
end

section
/-! SUPPORT. Laws of landing results (R84, R133) and of engine results that a thread has made undefined (R214): what they
write of the thread, and what they leave of it and of its block. -/

namespace Sys2Proof.Machine

open Sys2Proof

/-! ### One register -/

theorem vreg_landV (now : Nat) (t : Thread) (y : VReg × Word × Bool) : (landV now t y).vreg y.1 = y.2.1 :=
  (vreg_wrV now t y.1 y.2.1 0 y.1).trans (if_pos rfl)

theorem poisonV_landV (now : Nat) (t : Thread) (y : VReg × Word × Bool) :
    (landV now t y).poisonV.getLsbD y.1.toNat = y.2.2 :=
  (getLsbD_setBit _ _ _ _ y.1.isLt).trans (if_pos rfl)

theorem Kept.landV {c : Touch} {u w : Thread} (k : Kept c u w) {y : VReg × Word × Bool} (hy : y.1 ∈ c.v) (now : Nat) :
    Kept c u (landV now w y) := by
  have hwrite := k.wrV hy now y.2.1 0
  refine ⟨fun r hr => ⟨(hwrite.v r hr).1, ?_⟩, hwrite.p, hwrite.a, fun q => ?_⟩
  · have hne : r.toNat ≠ y.1.toNat := fun e => hr (BitVec.eq_of_toNat_eq e ▸ hy)
    exact (getLsbD_setBit _ _ _ _ r.isLt).trans ((if_neg hne).trans (hwrite.v r hr).2)
  · have hparts := hwrite.parts q
    cases q <;> exact hparts

/-! ### The registers of a result -/

theorem Kept.landVs {c : Touch} {u : Thread} (now : Nat) : ∀ (ys : List (VReg × Word × Bool)) {w : Thread}, Kept c u w →
    (∀ y ∈ ys, y.1 ∈ c.v) → Kept c u (ys.foldl (Machine.landV now) w)
  | [], _, k, _ => k
  | y :: ys, w, k, hys => by
    obtain ⟨hy, hys⟩ := List.forall_mem_cons.mp hys
    exact Kept.landVs now ys (k.landV hy now) hys

/-- Landing registers touches them and their loans alone. -/
theorem kept_landVs (now : Nat) (ys : List (VReg × Word × Bool)) (t : Thread) :
    Kept { v := ys.map (fun y => y.1), parts := [.lent] } t (ys.foldl (landV now) t) :=
  (Kept.refl _ t).landVs now ys fun _ hy => List.mem_map_of_mem hy

/-- Registers that land, each named once, hold their words and their poison. -/
theorem landVs_holds (now : Nat) (ys : List (VReg × Word × Bool)) (t : Thread) (hnd : (ys.map (fun y => y.1)).Nodup)
    {y : VReg × Word × Bool} (hy : y ∈ ys) :
    (ys.foldl (landV now) t).vreg y.1 = y.2.1 ∧ (ys.foldl (landV now) t).poisonV.getLsbD y.1.toNat = y.2.2 := by
  induction ys generalizing t with
  | nil => exact absurd hy List.not_mem_nil
  | cons z ys ih =>
    obtain ⟨hz, hnd⟩ := List.nodup_cons.mp hnd
    obtain rfl | hy := List.mem_cons.mp hy
    · obtain ⟨hreg, hbad⟩ := (kept_landVs now ys (landV now t y)).v y.1 hz
      exact ⟨hreg.trans (vreg_landV ..), hbad.trans (poisonV_landV ..)⟩
    · exact ih (landV now t z) hnd hy

theorem landVs_pc (now : Nat) (ys : List (VReg × Word × Bool)) (t : Thread) : (ys.foldl (landV now) t).pc = t.pc :=
  List.foldlRecOn _ _ (motive := fun u : Thread => u.pc = t.pc) rfl (fun _ hu _ _ => hu)

theorem landVs_status (now : Nat) (ys : List (VReg × Word × Bool)) (t : Thread) :
    (ys.foldl (landV now) t).status = t.status :=
  List.foldlRecOn _ _ (motive := fun u : Thread => u.status = t.status) rfl (fun _ hu _ _ => hu)

/-- Where no register that lands is lent, the loans are as before. -/
theorem landVs_lent (now : Nat) (ys : List (VReg × Word × Bool)) (t : Thread)
    (ht : ∀ l ∈ t.lent, ∀ y ∈ ys, y.1 ∉ l.frag) : (ys.foldl (landV now) t).lent = t.lent := by
  refine List.foldlRecOn _ _ (motive := fun u : Thread => u.lent = t.lent) rfl (fun u hu y hy => ?_)
  change spoil u.lent _ = t.lent
  rw [hu, spoil, List.map_congr_left (g := id) fun l hl => ?_, List.map_id]
  exact if_neg (by simpa using ht l hl y hy)

/-! ### The whole result -/

/-- The capability of a result, where it has one. -/
def landCap (now : Nat) (t : Thread) : Option (AReg × Cap × Bool) → Thread
  | some y => { wrA now t y.1 y.2.1 0 with poisonA := setBit (wrA now t y.1 y.2.1 0).poisonA y.1.toNat y.2.2 }
  | none => t

theorem land_eq (now : Nat) (t : Thread) (p : Pend) :
    land now t p =
      let u := landCap now (p.vals.foldl (landV now) t) p.cap
      { u with fpx := if p.setsFpx then u.fpx ||| p.flags else u.fpx } := by
  unfold land landCap
  cases p.cap <;> dsimp only <;> split_ifs <;> rfl

theorem areg_landCap (now : Nat) (t : Thread) (y : AReg × Cap × Bool) : (landCap now t (some y)).areg y.1 = y.2.1 :=
  (areg_wrA now t y.1 y.2.1 0 y.1).trans (if_pos rfl)

theorem poisonA_landCap (now : Nat) (t : Thread) (y : AReg × Cap × Bool) :
    (landCap now t (some y)).poisonA.getLsbD y.1.toNat = y.2.2 :=
  (getLsbD_setBit _ _ _ _ y.1.isLt).trans (if_pos rfl)

theorem Kept.landCap {c : Touch} {u w : Thread} (k : Kept c u w) (now : Nat) {y : Option (AReg × Cap × Bool)}
    (hy : ∀ z ∈ y, z.1 ∈ c.a) : Kept c u (landCap now w y) := by
  cases y with
  | none => exact k
  | some z =>
    have hz := hy z rfl
    have hwrite := k.wrA hz now z.2.1 0
    refine ⟨hwrite.v, hwrite.p, fun r hr => ⟨(hwrite.a r hr).1, ?_⟩, fun q => ?_⟩
    · have hne : r.toNat ≠ z.1.toNat := fun e => hr (BitVec.eq_of_toNat_eq e ▸ hz)
      exact (getLsbD_setBit _ _ _ _ r.isLt).trans ((if_neg hne).trans (hwrite.a r hr).2)
    · have hparts := hwrite.parts q
      cases q <;> exact hparts

theorem Kept.fpx {c : Touch} {u w : Thread} (k : Kept c u w) (hc : Part.fpx ∈ c.parts) (f : Flags) :
    Kept c u { w with fpx := f } where
  v := k.v
  p := k.p
  a := k.a
  parts q h1 h2 := by
    cases q
    case fpx => exact absurd hc h1
    all_goals exact k.parts _ h1 h2

theorem Kept.lent {c : Touch} {u w : Thread} (k : Kept c u w) (hc : Part.lent ∈ c.parts) (ls : List Lent) :
    Kept c u { w with lent := ls } where
  v := k.v
  p := k.p
  a := k.a
  parts q h1 h2 := by
    cases q
    case lent => exact absurd hc h1
    all_goals exact k.parts _ h1 h2

section
variable (now : Nat) (t : Thread) (p : Pend)

/-- A result that lands touches its registers, their loans, its capability register and FPX alone. -/
theorem kept_land :
    Kept { v := p.vals.map (fun y => y.1), a := (p.cap.map (fun y => y.1)).toList, parts := [.fpx, .pend, .lent] } t
      (land now t p) := by
  rw [land_eq]
  refine Kept.fpx (Kept.landCap ?_ now fun z hz => ?_) (by simp) _
  · exact (Kept.refl _ t).landVs now p.vals fun _ hy => List.mem_map_of_mem hy
  · simp [Option.mem_def.mp hz]

theorem land_vreg (r : VReg) : (land now t p).vreg r = (p.vals.foldl (landV now) t).vreg r
    ∧ (land now t p).poisonV.getLsbD r.toNat = (p.vals.foldl (landV now) t).poisonV.getLsbD r.toNat := by
  rw [land_eq]
  cases p.cap <;> exact ⟨rfl, rfl⟩

theorem land_areg {y : AReg × Cap × Bool} (hy : p.cap = some y) :
    (land now t p).areg y.1 = y.2.1 ∧ (land now t p).poisonA.getLsbD y.1.toNat = y.2.2 := by
  rw [land_eq, hy]
  exact ⟨areg_landCap now _ y, poisonA_landCap now _ y⟩

theorem land_fpx : (land now t p).fpx = if p.setsFpx then t.fpx ||| p.flags else t.fpx := by
  have hvals : (p.vals.foldl (landV now) t).fpx = t.fpx := (kept_landVs now p.vals t).parts .fpx (by simp) nofun
  rw [land_eq, ← hvals]
  cases p.cap <;> rfl

theorem land_pc : (land now t p).pc = t.pc := by
  rw [land_eq, ← landVs_pc now p.vals t]
  cases p.cap <;> rfl

theorem land_status : (land now t p).status = t.status := by
  rw [land_eq, ← landVs_status now p.vals t]
  cases p.cap <;> rfl

theorem land_lent (ht : ∀ l ∈ t.lent, ∀ y ∈ p.vals, y.1 ∉ l.frag) : (land now t p).lent = t.lent := by
  rw [land_eq, ← landVs_lent now p.vals t ht]
  cases p.cap <;> rfl

end

/-- The thread after its k-th outstanding result has landed. -/
def landed (now : Nat) (t : Thread) (k : Nat) (p : Pend) : Thread := { land now t p with pend := t.pend.eraseIdx k }

theorem kept_landed (now : Nat) (t : Thread) (k : Nat) (p : Pend) :
    Kept { v := p.vals.map (fun y => y.1), a := (p.cap.map (fun y => y.1)).toList, parts := [.fpx, .pend, .lent] } t
      (landed now t k p) :=
  (kept_land now t p).pend (by simp) _

/-! ### Engine results that a thread has made undefined (R214) -/

/-- A fold of block changes that keep the threads keeps the threads. -/
theorem foldl_threads {α : Type} {f : Block → α → Block} (hf : ∀ b y, (f b y).threads = b.threads) (ys : List α) (b : Block) :
    (ys.foldl f b).threads = b.threads :=
  List.foldlRecOn ys f (motive := fun c : Block => c.threads = b.threads) rfl (fun c hc y _ => (hf c y).trans hc)

theorem putWrite_threads (core : Nat) (b : Block) (w : MatWrite) : (putWrite core b w).threads = b.threads := by
  unfold putWrite writePlain
  split_ifs <;> rfl

theorem poisonTile_threads (b : Block) (k n : Nat) : (poisonTile b k n).threads = b.threads := rfl

theorem poisonSpad_threads (b : Block) (a n : Nat) : (poisonSpad b a n).threads = b.threads := rfl

theorem putPoison_threads (core : Nat) (b : Block) (w : MatWrite) : (putPoison core b w).threads = b.threads := by
  unfold putPoison
  split_ifs
  · rfl
  · exact poisonTile_threads ..
  · exact poisonSpad_threads ..

theorem clearDests_threads (core : Nat) (b : Block) (rs : List Rng) : (clearDests core b rs).threads = b.threads :=
  foldl_threads (fun b r => by split_ifs <;> rfl) rs b

theorem setFlags_threads (b : Block) (core tile : Nat) (f : BitVec 3) : (setFlags b core tile f).threads = b.threads := rfl

/-- An engine result leaves the threads of its block. -/
theorem putMat_threads (core : Nat) (b : Block) (rs : List Rng) (o : MatOut) : (putMat core b rs o).threads = b.threads := by
  unfold putMat
  rw [foldl_threads fun b y => setFlags_threads .., foldl_threads fun b y => setFlags_threads ..,
    foldl_threads (putPoison_threads core), clearDests_threads, foldl_threads (putWrite_threads core)]

theorem spoilResults_threads (ctr : Nat) (b : Block) (ls : List Lent) : (spoilResults ctr b ls).threads = b.threads := by
  refine foldl_threads (fun b l => ?_) ls b
  dsimp only
  split
  · rfl
  · exact foldl_threads (fun b y => putMat_threads ..) _ b

variable {s : State} {tid : ThreadId} {t : Thread}

theorem settleSpoil_of_clean (ht : threadOf s tid = some t) (hl : ∀ l ∈ t.lent, l.spoiled = false) : settleSpoil s tid = s := by
  unfold settleSpoil
  simp only [ht]
  exact if_pos (by simpa using hl)

theorem threadOf_eq_some (ht : threadOf s tid = some t) :
    ∃ b, blockOf s tid.slot = some b ∧ b.threads[tid.tidx]? = some t := by
  unfold threadOf at ht
  split at ht
  · cases ht
  · exact ⟨_, ‹_›, ht⟩

/-- Rewriting a block with its threads kept, and setting a thread of it. -/
theorem threadOf_modBlock_setThread {b : Block} {f : Block → Block} {g : Block → Thread} (hb : blockOf s tid.slot = some b)
    (hu : b.threads[tid.tidx]? = some t) (hf : (f b).threads = b.threads) :
    threadOf (modBlock s tid.slot fun b => (f b).setThread tid.tidx (g b)) tid = some (g b) := by
  refine threadOf_of_block (b := (f b).setThread tid.tidx (g b)) ?_ ?_
  · rw [blockOf_modBlock, if_pos rfl, hb]; rfl
  · rw [Block.setThread, listModify_get, if_pos rfl, hf, hu]; rfl

/-- Settling may reset the marks of loans, and leaves all else of the thread. -/
theorem threadOf_settleSpoil (ht : threadOf s tid = some t) :
    ∃ ls, threadOf (settleSpoil s tid) tid = some { t with lent := ls } := by
  obtain ⟨b, hb, hu⟩ := threadOf_eq_some ht
  unfold settleSpoil
  simp only [ht]
  split_ifs
  · exact ⟨t.lent, ht⟩
  · exact ⟨_, threadOf_modBlock_setThread hb hu (spoilResults_threads ..)⟩

/-! ### The landing of a result -/

/-- Rewriting a thread that is there is setting it. -/
theorem modThread_eq_setThread (ht : threadOf s tid = some t) (f : Thread → Thread) :
    modThread s tid f = setThread s tid (f t) := by
  obtain ⟨b, hb, hu⟩ := threadOf_eq_some ht
  have hlist : listModify b.threads tid.tidx f = listModify b.threads tid.tidx fun _ => f t := by
    refine List.ext_getElem? fun j => ?_
    rw [listModify_get, listModify_get]
    split_ifs with hj
    · rw [← hj, hu]; rfl
    · rfl
  simp only [modThread, setThread, modBlock, Block.setThread, hb, hlist]

theorem landOne_eq {k : Nat} {p : Pend} (ht : threadOf s tid = some t) (hk : t.pend[k]? = some p) :
    landOne p.xpipe s tid k = settleSpoil (setThread s tid (landed s.cycle t k p)) tid := by
  rw [landOne, modThread_eq_setThread ht]
  simp only [hk, if_true, landed]

/-- The two landing events run the landing of their kind of result. -/
theorem exec_land (xpipe : Bool) (tid : ThreadId) (k : Nat) (s : State) :
    exec (if xpipe then .xpipeComplete tid k else .loadResultLand tid k) s = .next (landOne xpipe s tid k) := by
  cases xpipe
  · rw [if_neg Bool.false_ne_true]
    exact exec_loadResultLand ..
  · rw [if_pos rfl]
    exact exec_xpipeComplete ..

end Sys2Proof.Machine
end

section
/-! PROOF. X-pipe operations and outstanding results (O8). -/

namespace Sys2Proof.Machine

open Sys2Proof

theorem longOperationsSendTheirResults : Claims.LongOperationsSendTheirResults := by
  intro h m d a b s x he A B one two
  exact ⟨xOp_sends he (exec_frcp ..), xOp_sends he (exec_frsq ..), xOp_sends he (exec_fsqrt ..), xOp_sends he (exec_fdiv ..),
    xOp_sends he (exec_fexp2 ..), xOp_sends he (exec_flog2 ..), xOp64_sends he (exec_ddiv ..), xOp64_sends he (exec_dsqrt ..)⟩

theorem resultsLand : Claims.ResultsLand := by
  intro s tid t k p ht hk hnd
  have hset := onlyThread_of_threadOf ht (landed s.cycle t k p)
  obtain ⟨ls, hthread⟩ := threadOf_settleSpoil hset.thread
  rw [← landOne_eq ht hk] at hthread
  refine ⟨_, _, exec_land .., hthread, fun hlent => ?only, fun r v bad hy => ?vals, fun r c bad hy => ?cap,
    (kept_landed s.cycle t k p).lent (by simp) ls, land_fpx s.cycle t p, rfl, land_pc s.cycle t p, land_status s.cycle t p⟩
  case only =>
    have hclean : ∀ l ∈ (landed s.cycle t k p).lent, l.spoiled = false := by
      change ∀ l ∈ (land s.cycle t p).lent, l.spoiled = false
      rw [land_lent _ _ _ fun l hl => (hlent l hl).2]
      exact fun l hl => (hlent l hl).1
    have hsame : landOne p.xpipe s tid k = setThread s tid (landed s.cycle t k p) :=
      (landOne_eq ht hk).trans (settleSpoil_of_clean hset.thread hclean)
    rw [hsame] at hthread ⊢
    exact Option.some.inj (hset.thread.symm.trans hthread) ▸ hset
  case vals =>
    obtain ⟨hreg, hbad⟩ := land_vreg s.cycle t p r
    obtain ⟨hv, hb⟩ := landVs_holds s.cycle p.vals t hnd hy
    exact ⟨hreg.trans hv, hbad.trans hb⟩
  case cap => exact land_areg s.cycle t p hy

end Sys2Proof.Machine

open Sys2Proof Sys2Proof.Machine in
/-- Settles O8: X-pipe forms append to the outstanding results, and a landing sets its thread, whose writes make engine
results undefined only through the registers that it has lent. -/
theorem longOperationsSendAndLand : Obligations.LongOperationsSendAndLand := ⟨longOperationsSendTheirResults, resultsLand⟩
end

section
/-! SUPPORT. Laws of a thread's access to object memory (R146, R363): a thread set in a state that translation or an L1 has
changed, the checks that a permitted access passes, and how an access goes on. -/

namespace Sys2Proof.Machine

open Sys2Proof

variable {s s' t : State} {x : Cx}

/-! ### One thread, set in a changed state -/

/-- The blocks of a state with one thread set. -/
def putThread (bs : Assoc Block) (tid : ThreadId) (w : Thread) : Assoc Block :=
  match Assoc.get bs tid.slot with
  | none => bs
  | some b => Assoc.set bs tid.slot (b.setThread tid.tidx w)

/-- Setting a thread changes the blocks alone, so that it commutes with a change of any other field. -/
theorem setThread_eq_putThread (s : State) (tid : ThreadId) (w : Thread) :
    setThread s tid w = { s with blocks := putThread s.blocks tid w } := by
  unfold setThread modBlock putThread blockOf
  cases Assoc.get s.blocks tid.slot <;> rfl

theorem blockOf_congr (hb : t.blocks = s.blocks) (slot : Nat) : blockOf t slot = blockOf s slot :=
  congrArg (Assoc.get · slot) hb

theorem curCx_congr (hb : t.blocks = s.blocks) (hcur : t.cur = s.cur) : curCx t = curCx s := by
  simp only [curCx, hcur, blockOf_congr hb]

/-! ### Registers, read in a state with the same clock and free values -/

theorem rdV_congr (hc : t.cycle = s.cycle) (hf : t.freeCtr = s.freeCtr) : rdV t = rdV s := by
  funext u r; simp only [rdV, hc, hf]

theorem rdVs_congr (hc : t.cycle = s.cycle) (hf : t.freeCtr = s.freeCtr) (u : Thread) :
    ∀ (n : Nat) (r : VReg), rdVs t u r n = rdVs s u r n
  | 0, _ => rfl
  | n + 1, r => by rw [rdVs, rdVs, rdV_congr hc hf, rdVs_congr hc hf u n]

theorem dataOf_congr (hc : t.cycle = s.cycle) (hf : t.freeCtr = s.freeCtr) (u : Thread) (w : Wid) (v : RC) :
    dataOf t u w v = dataOf s u w v := by
  cases v <;> simp only [dataOf, rdVs_congr hc hf]

theorem src32_congr (hc : t.cycle = s.cycle) (hf : t.freeCtr = s.freeCtr) (u : Thread) (a : Src) : src32 t u a = src32 s u a := by
  cases a <;> simp only [src32, rdV_congr hc hf]

/-! ### What translation leaves (R363, R376) -/

/-- As translation leaves a state: only the pins of versions, which lie in memory, and what launches have bound may differ. -/
def Translated (s t : State) : Prop := { t with dram := s.dram, launches := s.launches } = s

namespace Translated

theorem rest (h : Translated s t) : { t with dram := s.dram, launches := s.launches } = s := h
theorem blocks (h : Translated s t) : t.blocks = s.blocks := (congrArg State.blocks h.rest :)
theorem cur (h : Translated s t) : t.cur = s.cur := (congrArg State.cur h.rest :)
theorem cycle (h : Translated s t) : t.cycle = s.cycle := (congrArg State.cycle h.rest :)
theorem freeCtr (h : Translated s t) : t.freeCtr = s.freeCtr := (congrArg State.freeCtr h.rest :)
theorem contexts (h : Translated s t) : t.contexts = s.contexts := (congrArg State.contexts h.rest :)
theorem curCx (h : Translated s t) : curCx t = curCx s := curCx_congr h.blocks h.cur
theorem dataOf (h : Translated s t) : dataOf t = dataOf s := by
  funext u w v; exact dataOf_congr h.cycle h.freeCtr u w v

end Translated

theorem bindVersion_translated (s : State) (l : Option Nat) (obj : Nat) (e : BitVec 512) (v : Nat) :
    Translated s (bindVersion s l obj e v).1 := by
  unfold bindVersion
  dsimp only
  split
  · split <;> rfl
  · split
    · split
      · rfl
      · split
        · unfold modLaunch; split <;> rfl
        · rfl
    · rfl

theorem translate_translated (s : State) (ctx : Nat) (l : Option Nat) (w : Want) : Translated s (translate s ctx l w).1 := by
  unfold translate
  split
  · rfl
  · extract_lets pg flt
    split
    · rfl
    · split
      rename_i s1 root o e
      have h1 : Translated s s1 := by
        split at e
        · cases e; exact bindVersion_translated ..
        · cases e; rfl
      split
      · exact h1
      · split
        · exact h1
        · extract_lets pe paddr deferred
          split_ifs <;> exact h1

theorem translated_of_eq {ctx : Nat} {l : Option Nat} {w : Want} {r : Xl} (h : translate s ctx l w = (t, r)) : Translated s t := by
  have := translate_translated s ctx l w; rwa [h] at this

/-! ### Checks (R146) -/

theorem Wid.bytes_eq_two_pow (w : Wid) : w.bytes = 2 ^ w.code.toNat := by cases w <;> rfl

theorem missingRight_eq_none {r : BitVec 8} : ∀ {ns : List Nat}, (∀ n ∈ ns, r.getLsbD n = true) → missingRight r ns = none
  | [], _ => rfl
  | n :: ns, h => by
    obtain ⟨hn, hns⟩ := List.forall_mem_cons.mp h
    rw [missingRight, if_pos hn, missingRight_eq_none hns]

section
variable {c : Cap} {rights : List Nat} {off : Int} {n : Nat}

theorem Permits.checkTag (p : Permits c rights off n) (spec : BitVec 8) : checkTag c spec rights = none := by
  simp only [Machine.checkTag, p.tag, missingRight_eq_none p.rights, Bool.not_true, Bool.false_eq_true, if_false]

theorem Permits.checkBound (p : Permits c rights off n) : checkBound c off n = none := if_pos ⟨p.lo, p.hi⟩

theorem Permits.checkAlign (p : Permits c rights off n) (sub : BitVec 8) : checkAlign off n sub = none := if_pos p.align

theorem Permits.checkCap {wid : Nat} (p : Permits c rights off (2 ^ wid)) (spec : BitVec 8) : checkCap c spec rights off wid = none := by
  rw [Machine.checkCap, p.checkTag, p.checkBound, p.checkAlign]; rfl

theorem Permits.checkWid {w : Wid} (p : Permits c rights off w.bytes) (spec : BitVec 8) :
    Machine.checkCap c spec rights off w.code.toNat = none :=
  Permits.checkCap (Wid.bytes_eq_two_pow w ▸ p) spec

end

/-! ### How an access goes on -/

section
variable {w : Want} {rights : BitVec 8} {k : State → Mapped → Bool → Out}

/-- An access that translates goes on, unless it is a write that forms no record and meets a migration. -/
theorem access_ok {mp : Mapped} {recd : Bool} (ht : translate s x.blk.ctx (some x.blk.launch) w = (t, .ok mp recd))
    (hm : w.acc.writes = true → recd = false → migrationAt t mp.peAddr = none) : access s x w rights k = k t mp recd := by
  unfold access
  rw [ht]
  dsimp only
  split_ifs with hw
  · obtain ⟨hacc, hrec⟩ := Bool.and_eq_true_iff.mp hw
    rw [writing, hm hacc (by simpa using hrec)]
  · rfl

theorem access_fault {f : PageFault} (ht : translate s x.blk.ctx (some x.blk.launch) w = (t, .fault f)) :
    access s x w rights k = .next (rollback (clusterFault t x.blk.cluster x.blk.ctx f) x f) := by
  unfold access; rw [ht]

theorem access_trap {cause sub : BitVec 8} (ht : translate s x.blk.ctx (some x.blk.launch) w = (t, .trap cause sub))
    (hc : cause ≠ causeCaprgt) :
    access s x w rights k = trapOn t x cause sub (BitVec.ofNat 32 w.off) (BitVec.ofNat 32 w.obj) := by
  unfold access; rw [ht]; exact if_neg hc

/-- A write that forms no record waits at a page whose directory holds writes (R322, R373). -/
theorem access_held {mp : Mapped} {g : Migration} (ht : translate s x.blk.ctx (some x.blk.launch) w = (t, .ok mp false))
    (hw : w.acc.writes = true) (hg : migrationAt t mp.peAddr = some g) (hl : g.locked = true) :
    access s x w rights k = waitPage t x g.obj g.off := by
  unfold access
  rw [ht]
  simp only [hw, Bool.not_false, Bool.and_self, if_true, writing, hg, Migration.lets, hl, Bool.not_true, Bool.false_and,
    Bool.false_eq_true, if_false]

end

/-! ### The executing thread after an access -/

/-- A meaning that ends in going on after a translation. -/
theorem did_translated {h : Hdr} {c : Touch} {u : Thread} (ht : Translated s t) (hc : curCx s = some x) (hpc : u.pc = x.thr.pc)
    (k : Kept c x.thr u) : Did t (setThread t x.tid (u.done t.cycle h)) x h c (u.done t.cycle h) :=
  did_goOn (ht.curCx.trans hc) hpc k

end Sys2Proof.Machine
end

section
/-! SUPPORT. Laws of stacked DRAM read and written as object memory under a key (R153, R154, R160, R367). -/

namespace Sys2Proof.Machine

open Sys2Proof

variable {s t u : State} {x : Cx} {key : BitVec 512}

/-! ### Bytes of a number -/

theorem leBytes_eq_map : ∀ (n v : Nat), leBytes n v = (List.range n).map (fun j => BitVec.ofNat 8 (v / 256 ^ j))
  | 0, _ => rfl
  | n + 1, v => by
    rw [leBytes, leBytes_eq_map n, List.range_succ_eq_map, List.map_cons, List.map_map, Nat.pow_zero, Nat.div_one]
    refine congrArg _ (List.map_congr_left fun j _ => ?_)
    simp only [Function.comp_apply, Nat.div_div_eq_div_mul, Nat.pow_succ, Nat.mul_comm]

theorem leBytes_getD {n j : Nat} (hj : j < n) (v : Nat) : (leBytes n v).getD j 0 = BitVec.ofNat 8 (v / 256 ^ j) := by
  rw [leBytes_eq_map, List.getD_eq_getElem?_getD, List.getElem?_map, List.getElem?_range hj]; rfl

theorem rdVs_getElem? (s : State) (u : Thread) : ∀ (n : Nat) (r : VReg) (k : Nat), k < n →
    (rdVs s u r n)[k]? = some (rdV s u (r + BitVec.ofNat 6 k))
  | n + 1, r, 0, _ => by simp [rdVs]
  | n + 1, r, k + 1, hk => by
    rw [rdVs, List.getElem?_cons_succ, rdVs_getElem? s u n (r + 1) k (by omega)]
    rw [BitVec.add_assoc, Nat.add_comm k 1, BitVec.ofNat_add]; rfl

/-- Byte j of words laid out little-endian is a byte of word j / 4. -/
theorem wordsNat_byte : ∀ (ws : List Word) (j : Nat),
    BitVec.ofNat 8 (wordsNat ws / 256 ^ j) = (ws.getD (j / 4) 0).extractLsb' (8 * (j % 4)) 8
  | [], j => by simp [wordsNat]
  | w :: ws, j => by
    apply BitVec.eq_of_toNat_eq
    have hpow : 256 ^ j = 2 ^ (8 * j) := by rw [Nat.pow_mul]
    by_cases hj : j < 4
    · have hw := w.isLt
      have hmod : j % 4 = j := Nat.mod_eq_of_lt hj
      have hdiv : j / 4 = 0 := Nat.div_eq_of_lt hj
      simp only [wordsNat, hdiv, hmod, List.getD_cons_zero, BitVec.toNat_ofNat, BitVec.extractLsb'_toNat, Nat.shiftRight_eq_div_pow]
      interval_cases j <;> omega
    · have ih := congrArg BitVec.toNat (wordsNat_byte ws (j - 4))
      have hsplit : 256 ^ j = 2 ^ 32 * 256 ^ (j - 4) := by
        rw [hpow, Nat.pow_mul, show (2 : Nat) ^ 32 = 256 ^ 4 by rfl, ← Nat.pow_add]; congr 1; omega
      have hdiv : j / 4 = (j - 4) / 4 + 1 := by omega
      have hmod : j % 4 = (j - 4) % 4 := by omega
      have hw : wordsNat (w :: ws) / 2 ^ 32 = wordsNat ws := by
        have := w.isLt; rw [wordsNat]; omega
      rw [hsplit, ← Nat.div_div_eq_div_mul, hw, hdiv, hmod, List.getD_cons_succ, ih]

theorem Wid.four_mul_regs (w : Wid) : w.regs = (w.bytes + 3) / 4 := by cases w <;> rfl

/-- The bytes of store data are those that R151 names. -/
theorem dataOf_byte (s : State) (u : Thread) (w : Wid) (v : RC) {j : Nat} (hj : j < w.bytes) :
    BitVec.ofNat 8 (dataOf s u w v / 256 ^ j) = storeByte s u v j := by
  cases v with
  | v r =>
    have hlow (m : Nat) : BitVec.ofNat 8 (m % 2 ^ (8 * w.bytes) / 256 ^ j) = BitVec.ofNat 8 (m / 256 ^ j) := by
      apply BitVec.eq_of_toNat_eq
      obtain ⟨d, hd⟩ : ∃ d, w.bytes = j + 1 + d := ⟨w.bytes - (j + 1), by omega⟩
      have hsplit : 2 ^ (8 * w.bytes) = 256 ^ j * (256 * 256 ^ d) := by
        rw [Nat.pow_mul, hd, Nat.pow_add, Nat.pow_succ, Nat.mul_assoc]
      rw [BitVec.toNat_ofNat, BitVec.toNat_ofNat, hsplit, Nat.mod_mul_right_div_self, Nat.mod_mul_right_mod]
    have hk : j / 4 < w.regs := by rw [Wid.four_mul_regs]; omega
    simp only [dataOf, storeByte, hlow, wordsNat_byte, List.getD_eq_getElem?_getD, rdVs_getElem? s u _ r _ hk, Option.getD_some]
  | c n =>
    have hn : n.toNat < 256 := by have := n.isLt; omega
    simp only [dataOf, storeByte]
    rcases Nat.eq_zero_or_pos j with rfl | hpos
    · rw [if_pos rfl, Nat.pow_zero, Nat.div_one]; exact BitVec.eq_of_toNat_eq (by simp)
    · have : n.toNat < 256 ^ j := lt_of_lt_of_le hn (Nat.le_self_pow (by omega) 256)
      rw [if_neg (by omega), Nat.div_eq_of_lt this]; rfl

theorem dataOf_lt (s : State) (u : Thread) (w : Wid) (v : RC) : dataOf s u w v < 2 ^ (8 * w.bytes) := by
  cases v with
  | v r => exact Nat.mod_lt _ (Nat.two_pow_pos _)
  | c n => exact lt_of_lt_of_le n.isLt (by cases w <;> decide)

/-! ### Number sets -/

theorem NatSet.has_delRange (ps : NatSet) (lo n g : Nat) :
    (NatSet.delRange ps lo n).has g = (ps.has g && decide (g < lo ∨ lo + n ≤ g)) := by
  apply Bool.eq_iff_iff.mpr
  simp [NatSet.has, NatSet.delRange, List.mem_filter]

theorem has_clearTags (tags : NatSet) (a : Nat) {n : Nat} (hn : 0 < n) (g : Nat) :
    (clearTags tags a n).has g = if a / 16 ≤ g ∧ g ≤ (a + n - 1) / 16 then false else tags.has g := by
  rw [clearTags, NatSet.has_delRange]
  split_ifs with hg
  · rw [decide_eq_false (by omega), Bool.and_false]
  · rw [decide_eq_true (by omega), Bool.and_true]

/-- A write of fewer bytes than a granule has covers none. -/
theorem clearPoison_short (ps : NatSet) {g a n : Nat} (hn : n < g) : clearPoison ps g a n = ps := by
  have hle : (a + n) / g ≤ (a + g - 1) / g := Nat.div_le_div_right (by omega)
  have hzero : (a + n) / g - ceilDiv a g = 0 := Nat.sub_eq_zero_of_le hle
  refine List.filter_eq_self.mpr fun k _ => ?_
  simp only [hzero, decide_eq_true_eq]
  omega

/-! ### Lines under a key -/

theorem lineUnder_length (s : State) (key : BitVec 512) (line : Nat) : (lineUnder s key line).length = 64 := by
  unfold lineUnder
  dsimp only
  split
  · exact Memory.readBytes_length ..
  · split
    · exact Memory.readBytes_length ..
    · exact leBytes_length ..

theorem lineUnder_of_same {line : Nat} (hk : keyDiffers s key line = false) :
    lineUnder s key line = s.dram.readBytes (64 * line) 64 := by
  unfold keyDiffers at hk
  unfold lineUnder
  cases hg : Assoc.get s.lineKey line with
  | none => rfl
  | some k => rw [hg] at hk; exact if_pos (by simpa using hk)

theorem lineUnder_getD {line i : Nat} (hi : i < 64) : (lineUnder s key line).getD i 0 = seenByte s key (64 * line + i) := by
  have hline : (64 * line + i) / 64 = line := by omega
  have hat : (64 * line + i) % 64 = i := by omega
  unfold seenByte
  rw [hline, hat]
  split_ifs with hk
  · rfl
  · rw [lineUnder_of_same (by simpa using hk), readBytes_eq_map, List.getD_eq_getElem?_getD, List.getElem?_map,
      List.getElem?_range hi]; rfl

theorem lineUnder_eq_map (s : State) (key : BitVec 512) (line : Nat) :
    lineUnder s key line = (List.range' (64 * line) 64).map (seenByte s key) := by
  refine List.ext_getElem (by rw [lineUnder_length, List.length_map, List.length_range']) fun i hi _ => ?_
  have hlt : i < 64 := lineUnder_length s key line ▸ hi
  rw [List.getElem_map, List.getElem_range', Nat.one_mul, ← lineUnder_getD hlt, List.getD_eq_getElem _ _ hi]

theorem flatMap_lineUnder (s : State) (key : BitVec 512) : ∀ (n lo : Nat),
    (List.range' lo n).flatMap (lineUnder s key) = (List.range' (64 * lo) (64 * n)).map (seenByte s key)
  | 0, _ => rfl
  | n + 1, lo => by
    rw [List.range'_succ, List.flatMap_cons, flatMap_lineUnder s key n, lineUnder_eq_map, ← List.map_append,
      show 64 * (lo + 1) = 64 * lo + 64 by omega, List.range'_append_1, show 64 + 64 * n = 64 * (n + 1) by omega]

theorem mem_linesAt {a n l : Nat} (hn : 0 < n) : l ∈ linesAt a n ↔ a / 64 ≤ l ∧ l ≤ (a + n - 1) / 64 := by
  have hle : a / 64 ≤ (a + n - 1) / 64 := Nat.div_le_div_right (by omega)
  rw [linesAt, if_neg (by omega), rangeFrom_eq_range', List.mem_range'_1]
  omega

/-- What a key sees of memory is read byte by byte. -/
theorem readUnder_eq_map (s : State) (key : BitVec 512) (a n : Nat) :
    readUnder s key a n = (List.range' a n).map (seenByte s key) := by
  rcases Nat.eq_zero_or_pos n with rfl | hn
  · rfl
  · unfold readUnder
    split_ifs with hd
    · rw [linesAt, if_neg (by omega), rangeFrom_eq_range', flatMap_lineUnder, ← List.map_drop, ← List.map_take,
        List.drop_range', List.take_range'_of_length_ge (by omega)]
      congr 2; omega
    · rw [readBytes_eq_map, List.range'_eq_map_range, List.map_map]
      refine List.map_congr_left fun j hj => ?_
      have hj := List.mem_range.mp hj
      have hmem : (a + j) / 64 ∈ linesAt a n :=
        (mem_linesAt hn).mpr ⟨Nat.div_le_div_right (by omega), Nat.div_le_div_right (by omega)⟩
      have hsame : keyDiffers s key ((a + j) / 64) = false := by
        simpa using (List.any_eq_false.mp (by simpa using hd)) _ hmem
      simp [seenByte, hsame]

/-- A mapped access reads the bytes from its place on. -/
theorem readMapped_eq_map (s : State) (m : Mapped) (n : Nat) : readMapped s m n = (List.range n).map (m.byte s) := by
  unfold readMapped
  split_ifs with hc hw
  · rw [rangeFrom_eq_range', List.range'_eq_map_range, List.map_map]
    refine List.map_congr_left fun j _ => ?_
    simp only [Function.comp_apply, Mapped.byte, hc, if_true]
    rw [Nat.mod_add_mod]
  · rw [readBytes_eq_map]
    exact List.map_congr_left fun j _ => by simp only [Mapped.byte, hc, hw, if_true, if_false, Bool.false_eq_true]
  · rw [readUnder_eq_map, List.range'_eq_map_range, List.map_map]
    exact List.map_congr_left fun j _ => by
      simp only [Function.comp_apply, Mapped.byte, Mapped.key, hc, hw, if_false, Bool.false_eq_true]

theorem keyDiffers_of_get {line : Nat} (hk : Assoc.get s.lineKey line = some key) : keyDiffers s key line = false := by
  simp [keyDiffers, hk]

/-- What a key sees of a byte depends on its line alone. -/
theorem seenByte_congr {k : Nat} (hk : Assoc.get t.lineKey (k / 64) = Assoc.get s.lineKey (k / 64))
    (hd : ∀ j, j / 64 = k / 64 → t.dram.read j = s.dram.read j) : seenByte t key k = seenByte s key k := by
  have hbytes : t.dram.readBytes (64 * (k / 64)) 64 = s.dram.readBytes (64 * (k / 64)) 64 := by
    rw [readBytes_eq_map, readBytes_eq_map]
    exact List.map_congr_left fun i hi => hd _ (by have := List.mem_range.mp hi; omega)
  have hdiff : keyDiffers t key (k / 64) = keyDiffers s key (k / 64) := by rw [keyDiffers, hk, keyDiffers]
  unfold seenByte
  rw [hdiff, hd k rfl]
  unfold lineUnder
  rw [hk, hbytes]

/-! ### Lines come under a key -/

/-- One line comes under a key, as `rekey` has each. -/
def rekeyLine (key : BitVec 512) (s : State) (line : Nat) : State :=
  { s with
    dram := if keyDiffers s key line then s.dram.writeBytes (64 * line) (lineUnder s key line) else s.dram
    lineKey := Assoc.set s.lineKey line key }

theorem rekey_eq_foldl (s : State) (key : BitVec 512) (a n : Nat) : rekey s key a n = (linesAt a n).foldl (rekeyLine key) s := rfl

/-- In t, the lines L of s have come under a key: it sees every byte as before, and other lines have not changed. -/
structure Rekeyed (s t : State) (key : BitVec 512) (L : List Nat) : Prop where
  rest : { t with dram := s.dram, lineKey := s.lineKey } = s
  wf : t.dram.wf = true
  seen : ∀ k, seenByte t key k = seenByte s key k
  own : ∀ l ∈ L, Assoc.get t.lineKey l = some key
  other : ∀ k, k / 64 ∉ L → t.dram.read k = s.dram.read k ∧ Assoc.get t.lineKey (k / 64) = Assoc.get s.lineKey (k / 64)

theorem rekeyLine_dram (hwf : s.dram.wf = true) (line k : Nat) :
    (rekeyLine key s line).dram.read k = if k / 64 = line then seenByte s key k else s.dram.read k := by
  have hlen := lineUnder_length s key line
  simp only [rekeyLine]
  split_ifs with hd hk hk
  · rw [Memory.read_writeBytes _ hwf, if_pos (by omega), lineUnder_getD (by omega), Nat.add_sub_cancel' (by omega)]
  · rw [Memory.read_writeBytes _ hwf, if_neg (by omega)]
  · subst hk; exact (if_neg hd).symm
  · rfl

theorem rekeyLine_seen (hwf : s.dram.wf = true) (line k : Nat) : seenByte (rekeyLine key s line) key k = seenByte s key k := by
  by_cases hk : k / 64 = line
  · have hown : keyDiffers (rekeyLine key s line) key (k / 64) = false :=
      keyDiffers_of_get (by rw [hk]; exact Assoc.get_set_self ..)
    have hread := rekeyLine_dram (key := key) hwf line k
    rw [if_pos hk] at hread
    simpa [seenByte, hown] using hread
  · refine seenByte_congr (Assoc.get_set_ne _ _ hk) fun j hj => ?_
    rw [rekeyLine_dram hwf, if_neg (by omega)]

theorem rekeyLine_wf (hwf : s.dram.wf = true) (line : Nat) : (rekeyLine key s line).dram.wf = true := by
  simp only [rekeyLine]
  split_ifs
  · exact Memory.writeBytes_wf _ hwf _
  · exact hwf

theorem rekeyed_foldl : ∀ (L : List Nat) {s : State}, s.dram.wf = true → Rekeyed s (L.foldl (rekeyLine key) s) key L
  | [], _, hwf => ⟨rfl, hwf, fun _ => rfl, fun _ h => (List.not_mem_nil h).elim, fun _ _ => ⟨rfl, rfl⟩⟩
  | l :: L, s, hwf => by
    have ih := rekeyed_foldl L (rekeyLine_wf (key := key) hwf l)
    refine ⟨?_, ih.wf, fun k => (ih.seen k).trans (rekeyLine_seen hwf l k), fun j hj => ?_, fun k hk => ?_⟩
    · exact congrArg (fun z : State => { z with dram := s.dram, lineKey := s.lineKey }) ih.rest
    · rcases List.mem_cons.mp hj with rfl | hmem
      · by_cases hmem : j ∈ L
        · exact ih.own j hmem
        · have hkept := (ih.other (64 * j) (by rwa [Nat.mul_div_cancel_left j (by omega)])).2
          rw [Nat.mul_div_cancel_left j (by omega)] at hkept
          exact hkept.trans (Assoc.get_set_self ..)
      · exact ih.own j hmem
    · obtain ⟨hne, hmem⟩ := not_or.mp (List.mem_cons.not.mp hk)
      obtain ⟨hread, hkey⟩ := ih.other k hmem
      exact ⟨hread.trans ((rekeyLine_dram hwf l k).trans (if_neg hne)), hkey.trans (Assoc.get_set_ne _ _ hne)⟩

theorem rekeyed_rekey (hwf : s.dram.wf = true) (key : BitVec 512) (a n : Nat) : Rekeyed s (rekey s key a n) key (linesAt a n) :=
  rekeyed_foldl _ hwf

/-! ### A write of object bytes -/

/-- Stacked DRAM after a write of n bytes from an address under a key, with the tags of the granules it touches; beside them, only
poison, L1 copies and the byte counts of the collective engine may differ. -/
structure ObjWrite (s t : State) (key : BitVec 512) (a n : Nat) (val : Nat → Byte) (tag : Bool) : Prop where
  rest : { t with
    dram := s.dram, tags := s.tags, lineKey := s.lineKey, poison := s.poison, cores := s.cores
    fabric := { t.fabric with buckets := s.fabric.buckets } } = s
  wf : t.dram.wf = true
  bytes : ∀ k, seenByte t key k = if a ≤ k ∧ k < a + n then val (k - a) else seenByte s key k
  lines : ∀ k, k / 64 < a / 64 ∨ (a + n - 1) / 64 < k / 64 →
    t.dram.read k = s.dram.read k ∧ Assoc.get t.lineKey (k / 64) = Assoc.get s.lineKey (k / 64)
  tags : ∀ g, t.tags.has g = if a / 16 ≤ g ∧ g ≤ (a + n - 1) / 16 then tag else s.tags.has g

theorem writeDram_of_pos (s : State) (a : Nat) {bs : List Byte} (hn : 0 < bs.length) :
    writeDram s a bs = { s with
      dram := s.dram.writeBytes a bs, tags := clearTags s.tags a bs.length, poison := clearPoison s.poison 64 a bs.length } :=
  if_neg (by simpa [List.isEmpty_iff, ← List.length_eq_zero_iff] using hn.ne')

theorem objWrite_rekey_writeDram (hwf : s.dram.wf = true) (key : BitVec 512) (a : Nat) {bs : List Byte} (hn : 0 < bs.length) :
    ObjWrite s (writeDram (rekey s key a bs.length) a bs) key a bs.length (fun j => bs.getD j 0) false := by
  have re := rekeyed_rekey hwf key a bs.length
  rw [writeDram_of_pos _ a hn]
  set u := rekey s key a bs.length
  have hread : ∀ k, Memory.read (u.dram.writeBytes a bs) k = if a ≤ k ∧ k < a + bs.length then bs.getD (k - a) 0 else u.dram.read k :=
    Memory.read_writeBytes bs re.wf a
  have htouch : ∀ k, a ≤ k ∧ k < a + bs.length → k / 64 ∈ linesAt a bs.length := fun k hk =>
    (mem_linesAt hn).mpr ⟨Nat.div_le_div_right hk.1, Nat.div_le_div_right (by omega)⟩
  refine ⟨?rest, Memory.writeBytes_wf _ re.wf _, fun k => ?bytes, fun k hk => ?lines, fun g => ?tags⟩
  case rest =>
    exact congrArg (fun z : State => { z with tags := s.tags, poison := s.poison, cores := s.cores, fabric := { z.fabric with buckets := s.fabric.buckets } }) re.rest
  case bytes =>
    by_cases hmem : k / 64 ∈ linesAt a bs.length
    · have hsame : keyDiffers u key (k / 64) = false := keyDiffers_of_get (re.own _ hmem)
      have hseen : u.dram.read k = seenByte s key k := by
        rw [← re.seen k]; simp [seenByte, hsame]
      rw [← hseen, ← hread k]
      exact if_neg (by simpa [keyDiffers] using hsame)
    · have hout : ¬(a ≤ k ∧ k < a + bs.length) := fun hk => hmem (htouch k hk)
      rw [if_neg hout, ← re.seen k]
      refine seenByte_congr rfl fun j hj => (hread j).trans (if_neg fun hin => hmem ?_)
      rw [← hj]; exact htouch j hin
  case lines =>
    have hmem : k / 64 ∉ linesAt a bs.length := fun h => by rw [mem_linesAt hn] at h; omega
    have hout : ¬(a ≤ k ∧ k < a + bs.length) := fun hk => hmem (htouch k hk)
    obtain ⟨hr, hk⟩ := re.other k hmem
    exact ⟨((hread k).trans (if_neg hout)).trans hr, hk⟩
  case tags =>
    have htags : u.tags = s.tags := (congrArg State.tags re.rest :)
    rw [← htags]; exact has_clearTags _ _ hn _

/-! ### Changes of the cores and the counts alone -/

theorem recallLine_rest (s : State) (keep : Nat) (k : LineId) : { recallLine s keep k with cores := s.cores } = s := rfl

theorem l1Write_rest (s : State) (core : Option Nat) (k : LineId) (i : Nat) (bs : List Byte) (ch : CacheHint) :
    { l1Write s core k i bs ch with cores := s.cores } = s := by
  unfold l1Write
  cases core with
  | none => rfl
  | some n => dsimp only; split_ifs <;> rfl

theorem l1Fill_rest (s : State) (core : Nat) (k : LineId) (off : Nat) (m : Mapped) (excl : Bool) (ch : CacheHint) :
    { l1Fill s core k off m excl ch with cores := s.cores } = s := by
  unfold l1Fill
  dsimp only
  split_ifs <;> rfl

theorem l1Acquire_rest (s : State) (core : Nat) : { l1Acquire s core with cores := s.cores } = s := rfl

theorem acquireBlock_rest (s : State) (b : Block) (core : Nat) : { acquireBlock s b core with cores := s.cores } = s := by
  unfold acquireBlock; split_ifs <;> rfl

theorem acquireAt_rest (s : State) (b : Block) (core : Nat) (sc : Option Scope) :
    { acquireAt s b core sc with cores := s.cores } = s := by
  unfold acquireAt
  split
  · rfl
  · exact acquireBlock_rest ..
  · rfl

namespace ObjWrite

variable {a n : Nat} {val val' : Nat → Byte} {tag : Bool}

theorem congr (ow : ObjWrite s t key a n val tag) (h : ∀ j, j < n → val j = val' j) : ObjWrite s t key a n val' tag :=
  ⟨ow.rest, ow.wf, fun k => (ow.bytes k).trans (by
    split_ifs with hk
    · exact h _ (by omega)
    · rfl), ow.lines, ow.tags⟩

/-- Beside its cores and byte counts the state is as after the write. -/
theorem upToCores (ow : ObjWrite s t key a n val tag)
    (hu : { u with cores := t.cores, fabric := { u.fabric with buckets := t.fabric.buckets } } = t) :
    ObjWrite s u key a n val tag := by
  have hd : u.dram = t.dram := (congrArg State.dram hu :)
  have hk : u.lineKey = t.lineKey := (congrArg State.lineKey hu :)
  have ht : u.tags = t.tags := (congrArg State.tags hu :)
  refine ⟨?_, hd ▸ ow.wf, fun k => ?_, fun k => ?_, fun g => ?_⟩
  · exact (congrArg (fun z : State => { z with dram := s.dram, tags := s.tags, lineKey := s.lineKey, poison := s.poison, cores := s.cores, fabric := { z.fabric with buckets := s.fabric.buckets } }) hu).trans ow.rest
  · rw [← ow.bytes k]; exact seenByte_congr (by rw [hk]) fun j _ => by rw [hd]
  · rw [hd, hk]; exact ow.lines k
  · rw [ht]; exact ow.tags g

theorem cores (ow : ObjWrite s t key a n val tag) (hu : { u with cores := t.cores } = t) : ObjWrite s u key a n val tag :=
  ow.upToCores (congrArg (fun z : State => { z with cores := t.cores, fabric := { z.fabric with buckets := t.fabric.buckets } }) hu)

/-- The write of the executing thread's instruction, once the thread has gone on. -/
theorem dramWrite (ow : ObjWrite s t key a n val tag) (hp : t.poison = s.poison) (hc : curCx s = some x) (w : Thread) :
    DramWrite s (setThread t x.tid w) x w key a n val tag := by
  have hb : t.blocks = s.blocks := (congrArg State.blocks ow.rest :)
  rw [setThread_eq_putThread, hb]
  refine ⟨?_, fun k => ?_, ow.lines, ow.tags⟩
  · have hset := onlyThread_setThread hc w
    rw [setThread_eq_putThread] at hset
    have heq : { t with
        blocks := putThread s.blocks x.tid w, dram := s.dram, tags := s.tags, lineKey := s.lineKey, cores := s.cores
        fabric := { t.fabric with buckets := s.fabric.buckets } } = { s with blocks := putThread s.blocks x.tid w } := by
      rw [hp]; exact congrArg (fun z : State => { z with blocks := putThread s.blocks x.tid w }) ow.rest
    exact heq ▸ hset
  · rw [← ow.bytes k]; exact seenByte_congr rfl fun _ _ => rfl

end ObjWrite

/-- A write of object bytes to stacked DRAM outside compressed pages. -/
theorem objWrite_writeObj (hwf : s.dram.wf = true) {m : Mapped} (hws : m.loc.ws = false) (hcmp : pageCmp m.pe = false)
    (core : Option Nat) (ctx obj off : Nat) {bs : List Byte} (hn : 0 < bs.length) (ch : CacheHint) :
    ObjWrite s (writeObj s core ctx obj off m bs ch) (m.key s) m.loc.addr bs.length (fun j => bs.getD j 0) false := by
  have hw : writeMapped s m bs = writeDram (rekey s (m.key s) m.loc.addr bs.length) m.loc.addr bs := by
    rw [writeMapped, if_neg (by simp [hws])]; rfl
  have ow := objWrite_rekey_writeDram hwf (m.key s) m.loc.addr hn
  rw [← hw] at ow
  have hplace : placeObj s core ctx obj off m bs ch =
      l1Write (writeMapped s m bs) core (m.lineId ctx obj off) (off % 128) bs ch := by
    rw [placeObj]; simp only [hcmp, Bool.false_eq_true, if_false]
  have ow' := ow.cores (l1Write_rest _ core (m.lineId ctx obj off) (off % 128) bs ch)
  rw [← hplace] at ow'
  exact ow'.upToCores rfl

/-- A short write leaves the poison of every line. -/
theorem poison_writeObj {m : Mapped} (hws : m.loc.ws = false) (hcmp : pageCmp m.pe = false) (core : Option Nat)
    (ctx obj off : Nat) {bs : List Byte} (hn : bs.length < 64) (ch : CacheHint) :
    (writeObj s core ctx obj off m bs ch).poison = s.poison := by
  have hrekey : (rekey s (keyOf s (objKey m.oe)) m.loc.addr bs.length).poison = s.poison :=
    List.foldlRecOn _ _ (motive := fun u : State => u.poison = s.poison) rfl (fun _ hu _ _ => hu)
  have hl1 := congrArg State.poison (l1Write_rest (writeMapped s m bs) core (m.lineId ctx obj off) (off % 128) bs ch)
  simp only [writeObj, countBuckets, placeObj, hcmp, Bool.false_eq_true, if_false]
  refine hl1.trans ?_
  rw [writeMapped, if_neg (by simp [hws]), writeDram]
  split_ifs
  · exact hrekey
  · exact (clearPoison_short _ hn).trans hrekey

/-- The n low bytes of a number, written as object bytes. -/
theorem objWrite_leBytes (hwf : s.dram.wf = true) {m : Mapped} (hws : m.loc.ws = false) (hcmp : pageCmp m.pe = false)
    (core : Option Nat) (ctx obj off : Nat) {n : Nat} (hn : 0 < n) (hn64 : n < 64) (v : Nat) (ch : CacheHint) :
    ObjWrite s (writeObj s core ctx obj off m (leBytes n v) ch) (m.key s) m.loc.addr n (fun j => BitVec.ofNat 8 (v / 256 ^ j)) false
      ∧ (writeObj s core ctx obj off m (leBytes n v) ch).poison = s.poison := by
  have hlen : (leBytes n v).length = n := leBytes_length ..
  have ow := (objWrite_writeObj hwf hws hcmp core ctx obj off (hlen.symm ▸ hn) ch).congr fun j hj => leBytes_getD (hlen ▸ hj) v
  rw [hlen] at ow
  exact ⟨ow, poison_writeObj hws hcmp core ctx obj off (hlen.symm ▸ hn64) ch⟩

end Sys2Proof.Machine
end

section
/-! SUPPORT. Laws of the registers that an access gives (R151, R153), of writes to scratchpad and tiles (R154), and of an atomic at
its point of coherence (R174). -/

namespace Sys2Proof.Machine

open Sys2Proof

variable {s t : State} {x : Cx}

/-! ### Words of a result -/

theorem leNat_byte : ∀ (bs : List Byte) (j : Nat), BitVec.ofNat 8 (leNat bs / 256 ^ j) = bs.getD j 0
  | [], j => by simp [leNat]
  | b :: bs, 0 => by
    apply BitVec.eq_of_toNat_eq
    have := b.isLt
    simp only [leNat, Nat.pow_zero, Nat.div_one, BitVec.toNat_ofNat, List.getD_cons_zero]
    omega
  | b :: bs, j + 1 => by
    have hshift : leNat (b :: bs) / 256 = leNat bs := by have := b.isLt; rw [leNat]; omega
    rw [Nat.pow_succ, Nat.mul_comm, ← Nat.div_div_eq_div_mul, hshift, List.getD_cons_succ, leNat_byte bs j]

theorem leNat_lt : ∀ bs : List Byte, leNat bs < 256 ^ bs.length
  | [] => Nat.one_pos
  | b :: bs => by
    have := leNat_lt bs; have := b.isLt
    rw [leNat, List.length_cons, Nat.pow_succ]
    omega

theorem natWords_eq_map : ∀ (n v : Nat), natWords v n = (List.range n).map (fun k => BitVec.ofNat 32 (v / 2 ^ (32 * k)))
  | 0, _ => rfl
  | n + 1, v => by
    rw [natWords, natWords_eq_map n, List.range_succ_eq_map, List.map_cons, List.map_map, Nat.mul_zero, Nat.pow_zero, Nat.div_one]
    refine congrArg _ (List.map_congr_left fun k _ => ?_)
    simp only [Function.comp_apply, Nat.div_div_eq_div_mul, ← Nat.pow_add, Nat.mul_succ, Nat.add_comm]

theorem landRegs_getElem? : ∀ (ws : List Word) (ps : List Bool) (d : VReg) (k : Nat),
    (landRegs d ws ps)[k]? = ws[k]?.map (fun w => (d + BitVec.ofNat 6 k, w, ps.getD k false))
  | [], _, _, _ => rfl
  | w :: ws, ps, d, 0 => by cases ps <;> simp [landRegs]
  | w :: ws, ps, d, k + 1 => by
    have hreg : d + 1 + BitVec.ofNat 6 k = d + BitVec.ofNat 6 (k + 1) := by
      rw [BitVec.add_assoc, Nat.add_comm k 1, BitVec.ofNat_add]; rfl
    rw [landRegs, List.getElem?_cons_succ, List.getElem?_cons_succ, landRegs_getElem? ws ps.tail (d + 1) k, hreg]
    cases ps <;> rfl

theorem landRegs_length : ∀ (ws : List Word) (ps : List Bool) (d : VReg), (landRegs d ws ps).length = ws.length
  | [], _, _ => rfl
  | _ :: ws, ps, d => congrArg (· + 1) (landRegs_length ws ps.tail (d + 1))

theorem wordAny_iff (n k : Nat) (p : Nat → Bool) : wordAny n k p = true ↔ ∃ i, i < 4 ∧ 4 * k + i < n ∧ p (4 * k + i) = true := by
  simp only [wordAny, rangeFrom_eq_range', List.any_eq_true, List.mem_range'_1, Bool.and_eq_true, decide_eq_true_eq]
  constructor
  · rintro ⟨i, ⟨hlo, hhi⟩, hn, hp⟩
    exact ⟨i - 4 * k, by omega, by omega, by rwa [Nat.add_sub_cancel' hlo]⟩
  · rintro ⟨i, hi, hn, hp⟩
    exact ⟨4 * k + i, ⟨by omega, by omega⟩, hn, hp⟩

/-- Byte i of word k of a number is its byte 4k + i. -/
theorem word_byte (v k : Nat) {i : Nat} (hi : i < 4) :
    (BitVec.ofNat 32 (v / 2 ^ (32 * k))).extractLsb' (8 * i) 8 = BitVec.ofNat 8 (v / 256 ^ (4 * k + i)) := by
  have hsplit : 256 ^ (4 * k + i) = 2 ^ (32 * k) * 256 ^ i := by
    rw [Nat.pow_add, show 32 * k = 8 * (4 * k) by omega, Nat.pow_mul 2 8]
  apply BitVec.eq_of_toNat_eq
  rw [hsplit, ← Nat.div_div_eq_div_mul]
  generalize v / 2 ^ (32 * k) = y
  simp only [BitVec.extractLsb'_toNat, BitVec.toNat_ofNat, Nat.shiftRight_eq_div_pow]
  interval_cases i <;> omega

theorem extended_false (w : Wid) (v : Nat) : extended w false v = v := by simp [extended]

/-- Sign extension keeps the loaded bytes. -/
theorem extended_byte (w : Wid) (sx : Bool) (v : Nat) {j : Nat} (hj : j < w.bytes) :
    BitVec.ofNat 8 (extended w sx v / 256 ^ j) = BitVec.ofNat 8 (v / 256 ^ j) := by
  unfold extended
  split_ifs with hx
  · have hw : w = .w8 ∨ w = .w16 := by cases w <;> simp at hx ⊢
    apply BitVec.eq_of_toNat_eq
    rw [BitVec.toNat_ofNat, BitVec.toNat_ofNat]
    obtain rfl | rfl := hw
    · obtain rfl : j = 0 := Nat.lt_one_iff.mp hj
      simp only [Wid.bytes]; omega
    · have hj : j < 2 := hj
      simp only [Wid.bytes]
      interval_cases j <;> omega
  · rfl

/-- A narrow load is extended by its sign under SX, else by zeros. -/
theorem extended_bit {w : Wid} (hw : w.bytes < 4) (sx : Bool) (bs : List Byte) (hlen : bs.length = w.bytes) {j : Nat}
    (hlo : 8 * w.bytes ≤ j) (hhi : j < 32) :
    (BitVec.ofNat 32 (extended w sx (leNat bs))).getLsbD j = (sx && (bs.getD (w.bytes - 1) 0).msb) := by
  have hpos : 0 < w.bytes := by cases w <;> decide
  have hnarrow : (w == .w8 || w == .w16) = true := by cases w <;> simp [Wid.bytes] at hw ⊢
  have hlt : leNat bs < 2 ^ (8 * w.bytes) := by rw [Nat.pow_mul]; exact hlen ▸ leNat_lt bs
  have hsign : (bs.getD (w.bytes - 1) 0).msb = (BitVec.ofNat (8 * w.bytes) (leNat bs)).msb := by
    rw [← leNat_byte, BitVec.msb_eq_getLsbD_last, BitVec.msb_eq_getLsbD_last, BitVec.getLsbD_ofNat, BitVec.getLsbD_ofNat,
      show (256 : Nat) = 2 ^ 8 by rfl, ← Nat.pow_mul, Nat.testBit_div_two_pow, show 8 - 1 + 8 * (w.bytes - 1) = 8 * w.bytes - 1 by omega]
    simp; omega
  have hext : BitVec.ofNat 32 (extended w sx (leNat bs)) =
      if sx then (BitVec.ofNat (8 * w.bytes) (leNat bs)).signExtend 32 else BitVec.ofNat 32 (leNat bs) := by
    have hbit : (leNat bs).testBit (8 * w.bytes - 1) = (BitVec.ofNat (8 * w.bytes) (leNat bs)).msb := by
      rw [BitVec.msb_eq_getLsbD_last, BitVec.getLsbD_ofNat]; simp; omega
    cases sx
    · rw [extended_false]; rfl
    · rw [extended, hnarrow, hbit, if_pos rfl]
      apply BitVec.eq_of_toNat_eq
      rw [BitVec.toNat_signExtend, BitVec.toNat_setWidth, BitVec.toNat_ofNat, BitVec.toNat_ofNat, Nat.mod_eq_of_lt hlt]
      simp only [Bool.true_and]
      split_ifs
      all_goals (cases w <;> simp [Wid.bytes] at hw hlt ⊢ <;> omega)
  rw [hext, hsign]
  cases sx
  · simp only [Bool.false_eq_true, if_false, Bool.false_and]
    rw [BitVec.getLsbD_ofNat, Nat.testBit_lt_two_pow (lt_of_lt_of_le hlt (Nat.pow_le_pow_right (by omega) hlo)), Bool.and_false]
  · simp only [if_true, Bool.true_and]
    rw [BitVec.getLsbD_signExtend, if_neg (by omega), decide_eq_true hhi, Bool.true_and]

/-- A load gives the registers that R151 and R153 say. -/
theorem lands_loadVals (d : VReg) (w : Wid) (sx : Bool) (byte : Nat → Byte) (bad : Nat → Bool) :
    Lands d w.bytes sx byte bad (loadVals d w sx ((List.range w.bytes).map byte) bad) := by
  have hlen : ((List.range w.bytes).map byte).length = w.bytes := by simp
  have hget : ∀ j, j < w.bytes → ((List.range w.bytes).map byte).getD j 0 = byte j := fun j hj => by
    rw [List.getD_eq_getElem?_getD, List.getElem?_map, List.getElem?_range hj]; rfl
  refine ⟨by simp [loadVals, landRegs_length, natWords_eq_map, Wid.four_mul_regs], fun k hk => ?_⟩
  rw [← Wid.four_mul_regs] at hk
  refine ⟨BitVec.ofNat 32 (extended w sx (leNat ((List.range w.bytes).map byte)) / 2 ^ (32 * k)), wordAny w.bytes k bad, ?_,
    fun i hi hn => ?_, fun j hn hlo hhi => ?_, wordAny_iff ..⟩
  · rw [loadVals, landRegs_getElem?, natWords_eq_map, List.getElem?_map, List.getElem?_range hk, List.getD_eq_getElem?_getD,
      List.getElem?_map, rangeFrom_eq_range', List.getElem?_range' hk]
    simp
  · rw [word_byte _ _ hi, extended_byte w sx _ hn, leNat_byte, hget _ hn]
  · have hk0 : k = 0 := by rw [Wid.four_mul_regs] at hk; omega
    subst hk0
    rw [Nat.mul_zero, Nat.pow_zero, Nat.div_one, extended_bit hn sx _ hlen hlo hhi]
    rw [hget _ (by cases w <;> decide)]

/-- The old value of an atomic is a load of its bytes. -/
theorem landRegs_eq_loadVals (d : VReg) (w : Wid) (bs : List Byte) (bad : Nat → Bool) :
    landRegs d (natWords (leNat bs) w.regs) ((rangeFrom 0 w.regs).map (fun k => wordAny w.bytes k bad)) =
      loadVals d w false bs bad := by
  rw [loadVals, extended_false]

theorem atomOld_eq_loadVals (s : State) (m : Mapped) (d : VReg) (w : Wid) :
    atomOld s m d w.bytes = loadVals d w false ((List.range w.bytes).map (m.byte s)) (poisonedAt s m) := by
  have hregs : ceilDiv w.bytes 4 = w.regs := by cases w <;> rfl
  rw [atomOld, hregs, landRegs_eq_loadVals, readMapped_eq_map]

/-- Bytes without poison give registers without. -/
theorem Lands.clean {d : VReg} {n : Nat} {sx : Bool} {byte : Nat → Byte} {bad : Nat → Bool} {vals : List (VReg × Word × Bool)}
    (l : Lands d n sx byte bad vals) (h : ∀ j, j < n → bad j = false) : Lands d n sx byte (fun _ => false) vals := by
  refine ⟨l.1, fun k hk => ?_⟩
  obtain ⟨v, b, hget, hbyte, hsx, hbad⟩ := l.2 k hk
  refine ⟨v, b, hget, hbyte, hsx, hbad.trans ⟨?_, ?_⟩⟩
  · rintro ⟨i, _, hn, hp⟩; rw [h _ hn] at hp; exact absurd hp Bool.false_ne_true
  · rintro ⟨_, _, _, hp⟩; exact absurd hp Bool.false_ne_true

/-! ### Scratchpad and tiles -/

theorem spadByte_curCx (hc : curCx s = some x) : spadByte s x.tid.slot = x.blk.spad.read := by
  obtain ⟨_, hb, _⟩ := (curCx_eq_some s x).mp hc
  funext a; rw [spadByte, hb]

theorem tileByte_curCx (hc : curCx s = some x) : tileByte s x.tid.slot = x.blk.tiles.read := by
  obtain ⟨_, hb, _⟩ := (curCx_eq_some s x).mp hc
  funext a; rw [tileByte, hb]

theorem memWf_curCx (hc : curCx s = some x) (hwf : memoryWf s) : x.blk.memWf := by
  obtain ⟨_, hb, _⟩ := (curCx_eq_some s x).mp hc
  exact memoryWf_block hwf hb

theorem patched_congr {old : Nat → Byte} {a n : Nat} {val val' : Nat → Byte} (h : ∀ j, j < n → val j = val' j) :
    patched old a n val = patched old a n val' := by
  funext k
  unfold patched
  split_ifs with hk
  · exact h _ (by omega)
  · rfl

/-- A run of bytes of a memory is as written, every other byte as before. -/
theorem read_writeBytes_eq_patched {m : Memory} (hm : m.wf = true) (a : Nat) (bs : List Byte) :
    Memory.read (m.writeBytes a bs) = patched (Memory.read m) a bs.length (fun j => bs.getD j 0) :=
  funext fun k => Memory.read_writeBytes bs hm a k

theorem read_writeBytes_leBytes {m : Memory} (hm : m.wf = true) (a n v : Nat) :
    Memory.read (m.writeBytes a (leBytes n v)) = patched (Memory.read m) a n (fun j => BitVec.ofNat 8 (v / 256 ^ j)) := by
  rw [read_writeBytes_eq_patched hm, leBytes_length]
  exact patched_congr fun j hj => leBytes_getD hj v

/-- Storing a value of a width writes the bytes that R151 names. -/
theorem read_writeBytes_dataOf {m : Memory} (hm : m.wf = true) (a : Nat) (u : Thread) (w : Wid) (v : RC) :
    Memory.read (m.writeBytes a (leBytes w.bytes (dataOf s u w v))) = patched (Memory.read m) a w.bytes (storeByte s u v) :=
  (read_writeBytes_leBytes hm ..).trans (patched_congr fun _ hj => dataOf_byte s u w v hj)

/-- The current thread's block set with the thread changed sets the thread. -/
theorem threadOf_setBlock_own {c : Block} {w : Thread} (hc : curCx s = some x)
    (hthreads : c.threads = listModify x.blk.threads x.tid.tidx (fun _ => w)) :
    threadOf (setBlock s x.tid.slot c) x.tid = some w := by
  obtain ⟨_, _, ht⟩ := (curCx_eq_some s x).mp hc
  unfold threadOf
  rw [blockOf_setBlock, if_pos rfl]
  simp only [hthreads, listModify_get, if_true, ht, Option.map_some]

theorem othersSame_setBlock_own {c : Block} {w : Thread} (hc : curCx s = some x)
    (hthreads : c.threads = listModify x.blk.threads x.tid.tidx (fun _ => w)) :
    OthersSame s (setBlock s x.tid.slot c) x.tid := by
  obtain ⟨_, hb, _⟩ := (curCx_eq_some s x).mp hc
  intro u hu
  unfold threadOf
  rw [blockOf_setBlock]
  split_ifs with hs
  · have hne : x.tid.tidx ≠ u.tidx := fun he => hu (congrArg₂ ThreadId.mk hs he.symm)
    simp only [hs, hb, hthreads, listModify_get, if_neg hne]
  · rfl

/-- The current thread's block with the thread and the contents of its stores changed, and its order and granules. -/
theorem localWrite_setBlock {c : Block} {w : Thread} (hc : curCx s = some x)
    (hthreads : c.threads = listModify x.blk.threads x.tid.tidx (fun _ => w))
    (hrest : { c with
        threads := x.blk.threads, spad := x.blk.spad, tiles := x.blk.tiles, types := x.blk.types
        spadPoison := x.blk.spadPoison, tilePoison := x.blk.tilePoison, order := x.blk.order } = x.blk) :
    LocalWrite s (setBlock s x.tid.slot c) x w c.spad.read c.tiles.read := by
  have hown : blockOf (setBlock s x.tid.slot c) x.tid.slot = some c := by rw [blockOf_setBlock, if_pos rfl]
  refine ⟨threadOf_setBlock_own hc hthreads, othersSame_setBlock_own hc hthreads, fun slot hs => ?slots, ⟨c, hown, hrest⟩,
    fun k => ?spad, fun k => ?tiles, rfl⟩
  case slots => rw [blockOf_setBlock, if_neg hs]
  case spad => rw [spadByte, hown]
  case tiles => rw [tileByte, hown]

/-- The same, where cores have changed too. -/
theorem localWrite_cores {c : Block} {w : Thread} {f g : Nat → Byte} (ht : { t with cores := s.cores } = setBlock s x.tid.slot c)
    (lw : LocalWrite s (setBlock s x.tid.slot c) x w f g) : LocalWrite s { t with cores := s.cores } x w f g := ht ▸ lw

/-! ### An atomic at its point of coherence (R174) -/

/-- An atomic ends with its line held exclusive, where the page may be cached. -/
theorem exclusiveFill_rest (s : State) (core : Nat) (k : LineId) (off : Nat) (m : Mapped) :
    { (if cacheable m .dflt false then l1Fill (recallLine s core k) core k off m true .dflt else s) with cores := s.cores } = s := by
  split_ifs
  · exact (congrArg (fun z : State => { z with cores := s.cores }) (l1Fill_rest (recallLine s core k) core k off m true .dflt) :)
  · rfl

theorem objWrite_performAtomic (hwf : s.dram.wf = true) {m : Mapped} (hws : m.loc.ws = false) (hcmp : pageCmp m.pe = false)
    (obj off : Nat) {n : Nat} (hn : 0 < n) (hn64 : n < 64) (hbad : ∀ j, j < n → poisonedAt s m j = false) (v : Nat) :
    ObjWrite s (performAtomic s x m obj off n (some v)) (m.key s) m.loc.addr n (fun j => BitVec.ofNat 8 (v / 256 ^ j)) false
      ∧ (performAtomic s x m obj off n (some v)).poison = s.poison := by
  have hclean : (rangeFrom 0 n).any (poisonedAt s m) = false := by
    rw [List.any_eq_false, rangeFrom_eq_range']
    intro j hj
    rw [hbad j (by simpa using hj)]; exact Bool.false_ne_true
  obtain ⟨ow, hp⟩ := objWrite_leBytes hwf hws hcmp (some x.coreId) x.blk.ctx obj off hn hn64 v .dflt
  simp only [performAtomic, hclean, Bool.false_eq_true, if_false]
  generalize writeObj s (some x.coreId) x.blk.ctx obj off m (leBytes n v) .dflt = t at ow hp
  have hrest := exclusiveFill_rest t x.coreId (m.lineId x.blk.ctx obj off) off m
  exact ⟨ow.cores hrest, (congrArg State.poison hrest :).trans hp⟩

/-- A compare-and-swap that fails changes L1 copies alone. -/
theorem performAtomic_none_rest (s : State) (x : Cx) (m : Mapped) (obj off n : Nat) :
    { performAtomic s x m obj off n none with cores := s.cores } = s := exclusiveFill_rest ..

end Sys2Proof.Machine
end

section
/-! PROOF. Stores to object memory (O19). -/

namespace Sys2Proof.Machine

open Sys2Proof

variable {i : Instr} {h : Hdr} {s s' t : State} {x : Cx} {key : BitVec 512} {a n : Nat} {val : Nat → Byte} {tag : Bool}

theorem checked_of_none {c : Option Why} (hc : c = none) (k : Out) : checked s x c k = k := by rw [hc]; rfl

theorem checked_of_some {c : Option Why} {w : Why} (hc : c = some w) (k : Out) : checked s x c k = trapWhy s x w := by rw [hc]; rfl

/-- A byte of a bit vector. -/
theorem extractLsb'_byte {k : Nat} (v : BitVec k) (j : Nat) : v.extractLsb' (8 * j) 8 = BitVec.ofNat 8 (v.toNat / 256 ^ j) := by
  apply BitVec.eq_of_toNat_eq
  rw [BitVec.extractLsb'_toNat, BitVec.toNat_ofNat, Nat.shiftRight_eq_div_pow, Nat.pow_mul]

/-- A meaning that ends in going on after a write of object memory. -/
theorem goOn_written {c : Touch} {u : Thread} (tr : Translated s s') (he : Executes h s x) (ow : ObjWrite s' t key a n val tag)
    (hp : t.poison = s'.poison) (hi : exec i s = goOn h t x u) (hpc : u.pc = x.thr.pc) (k : Kept c x.thr u) :
    exec i s = .next (setThread t x.tid (u.done s.cycle h)) ∧ At (nextSlot x.thr.pc) s h (u.done s.cycle h)
      ∧ Kept c x.thr (u.done s.cycle h) ∧ DramWrite s' (setThread t x.tid (u.done s.cycle h)) x (u.done s.cycle h) key a n val tag := by
  have hcycle : t.cycle = s.cycle := ((congrArg State.cycle ow.rest :)).trans tr.cycle
  exact ⟨hi.trans (by rw [goOn, hcycle]), at_done s h u x.thr hpc, k.done _ _, ow.dramWrite hp (tr.curCx.trans he.1) _⟩

/-- The tag of the one granule that a capability fills (R160). -/
theorem ObjWrite.setTag {m : Mapped} (ow : ObjWrite s t key m.loc.addr 16 val false) (ha : m.loc.addr % 16 = 0)
    (core ctx obj off : Nat) : ObjWrite s (setTag t core ctx obj off m) key m.loc.addr 16 val true := by
  refine ⟨ow.rest, ow.wf, fun k => ?_, ow.lines, fun g => ?_⟩
  · rw [← ow.bytes k]; exact seenByte_congr rfl fun _ _ => rfl
  · have hadd := NatSet.has_add g (m.loc.addr / 16) t.tags
    rw [ow.tags g] at hadd
    refine hadd.trans ?_
    by_cases hg : g = m.loc.addr / 16
    · rw [if_pos (by omega), if_pos (by omega), hg, beq_self_eq_true, Bool.true_or]
    · rw [if_neg (by omega), if_neg (by omega), beq_eq_false_iff_ne.mpr hg, Bool.false_or]

theorem Wid.bytes_pos (w : Wid) : 0 < w.bytes := by cases w <;> decide
theorem Wid.bytes_lt (w : Wid) : w.bytes < 64 := by cases w <;> decide

/-- ST of a permitted access that translates ends in `storing` (R154). -/
theorem exec_st_storing {m : StMod} {ad : CapAddr} {v : RC} {mp : Mapped} {recd : Bool} (he : Executes h s x)
    (hp : Permits (rdA s x.thr ad.a) [1] (capOff s x.thr ad) m.wid.bytes)
    (ht : translate s x.blk.ctx (some x.blk.launch)
      ⟨(rdA s x.thr ad.a).obj, (capOff s x.thr ad).toNat, .write, false, false⟩ = (s', .ok mp recd))
    (hmig : recd = false → migrationAt s' mp.peAddr = none) :
    exec (.st h m ad v) s = storing h s' x mp recd (rdA s x.thr ad.a).obj (capOff s x.thr ad).toNat m.wid m.ch
      (dataOf s x.thr m.wid v) := by
  rw [exec_st, execSt, guarded_true he.1 he.2]
  refine (checked_of_none (hp.checkWid _) _).trans ((access_ok ht fun _ => hmig).trans ?_)
  rw [(translated_of_eq ht).dataOf]

theorem exec_st_writes {m : StMod} {ad : CapAddr} {v : RC} {mp : Mapped} (he : Executes h s x) (hwf : memoryWf s')
    (hws : mp.loc.ws = false) (hcmp : pageCmp mp.pe = false) (hmig : migrationAt s' mp.peAddr = none)
    (hp : Permits (rdA s x.thr ad.a) [1] (capOff s x.thr ad) m.wid.bytes)
    (ht : translate s x.blk.ctx (some x.blk.launch)
      ⟨(rdA s x.thr ad.a).obj, (capOff s x.thr ad).toNat, .write, false, false⟩ = (s', .ok mp false)) :
    ∃ t w, exec (.st h m ad v) s = .next t ∧ At (nextSlot x.thr.pc) s h w ∧ Kept {} x.thr w
      ∧ DramWrite s' t x w (mp.key s') mp.loc.addr m.wid.bytes (storeByte s x.thr v) false ∧ t.poison = s'.poison := by
  obtain ⟨ow, hpoison⟩ := objWrite_leBytes hwf.1 hws hcmp (some x.coreId) x.blk.ctx (rdA s x.thr ad.a).obj
    (capOff s x.thr ad).toNat (Wid.bytes_pos m.wid) (Wid.bytes_lt m.wid) (dataOf s x.thr m.wid v) m.ch
  have ow := ow.congr fun j hj => dataOf_byte s x.thr m.wid v hj
  obtain ⟨hnext, hat, hkept, hdram⟩ := goOn_written (translated_of_eq ht) he ow hpoison
    ((exec_st_storing he hp ht fun _ => hmig).trans (if_neg Bool.false_ne_true)) rfl (Kept.refl {} _)
  exact ⟨_, _, hnext, hat, hkept, hdram, (setThread_poison ..).trans hpoison⟩

theorem exec_stc_writes {ad : CapAddr} {va : AReg} {mp : Mapped} (he : Executes h s x) (hwf : memoryWf s')
    (hws : mp.loc.ws = false) (hcmp : pageCmp mp.pe = false) (hmig : migrationAt s' mp.peAddr = none)
    (hp : Permits (rdA s x.thr ad.a) [1, 5] (capOff s x.thr ad) 16)
    (hglobal : (rdA s x.thr va).tag = true → (rdA s x.thr va).rights.getLsbD 6 = true) (ha : mp.loc.addr % 16 = 0)
    (ht : translate s x.blk.ctx (some x.blk.launch)
      ⟨(rdA s x.thr ad.a).obj, (capOff s x.thr ad).toNat, .write, true, false⟩ = (s', .ok mp false)) :
    ∃ t w, exec (.stc h ad va) s = .next t ∧ At (nextSlot x.thr.pc) s h w ∧ Kept {} x.thr w
      ∧ DramWrite s' t x w (mp.key s') mp.loc.addr 16 (fun j => (rdA s x.thr va).bits.extractLsb' (8 * j) 8)
          (rdA s x.thr va).tag ∧ t.poison = s'.poison := by
  have hwhy : globalWhy (rdA s x.thr va) = none := if_neg (by simpa using hglobal)
  have hi : exec (.stc h ad va) s = goOn h
      (let s1 := writeObj s' (some x.coreId) x.blk.ctx (rdA s x.thr ad.a).obj (capOff s x.thr ad).toNat mp
        (leBytes 16 (rdA s x.thr va).bits.toNat) .dflt
       if (rdA s x.thr va).tag then setTag s1 x.coreId x.blk.ctx (rdA s x.thr ad.a).obj (capOff s x.thr ad).toNat mp else s1) x x.thr := by
    rw [exec_stc, execStc, guarded_true he.1 he.2]
    refine (checked_of_none ?_ _).trans ((access_ok ht fun _ _ => hmig).trans (if_neg Bool.false_ne_true))
    rw [Permits.checkCap (wid := 4) hp, hwhy]; rfl
  obtain ⟨ow, hpoison⟩ := objWrite_leBytes hwf.1 hws hcmp (some x.coreId) x.blk.ctx (rdA s x.thr ad.a).obj
    (capOff s x.thr ad).toNat (n := 16) (by decide) (by decide) (rdA s x.thr va).bits.toNat .dflt
  have ow := ow.congr fun j _ => (extractLsb'_byte (rdA s x.thr va).bits j).symm
  cases htag : (rdA s x.thr va).tag with
  | false =>
    rw [htag] at hi
    obtain ⟨hnext, hat, hkept, hdram⟩ := goOn_written (translated_of_eq ht) he ow hpoison hi rfl (Kept.refl {} _)
    exact ⟨_, _, hnext, hat, hkept, hdram, (setThread_poison ..).trans hpoison⟩
  | true =>
    rw [htag] at hi
    obtain ⟨hnext, hat, hkept, hdram⟩ := goOn_written (translated_of_eq ht) he (ObjWrite.setTag ow ha ..) hpoison hi rfl (Kept.refl {} _)
    exact ⟨_, _, hnext, hat, hkept, hdram, (setThread_poison ..).trans hpoison⟩

end Sys2Proof.Machine

open Sys2Proof Sys2Proof.Machine in
/-- Settles O19: a store that passes its checks and translates ends in one write of object bytes, which `objWrite_writeObj`
describes, and in going on; STC sets its granule's tag afterwards. -/
theorem storesWriteObjectMemory : Obligations.StoresWriteObjectMemory := by
  intro h m a v va s s' x mp he c off n val hwf hws hcmp hmig
  exact ⟨exec_st_writes he hwf hws hcmp hmig, exec_stc_writes he hwf hws hcmp hmig⟩
end

section
/-! PROOF. Capability derivations and narrowing (O25). -/

namespace Sys2Proof.Machine

open Sys2Proof

variable {i : Instr} {h : Hdr} {s : State} {x : Cx}

/-! ### Fields of a derived capability (R166 to R168) -/

theorem extractLsb'_of_extractLsb' {n : Nat} (a : BitVec n) {i m k l : Nat} (h : k + l ≤ m) :
    (a.extractLsb' i m).extractLsb' k l = a.extractLsb' (i + k) l := by
  apply BitVec.eq_of_getLsbD_eq; intro j hj
  have hlt : k + j < m := by omega
  simp only [BitVec.getLsbD_extractLsb', hj, hlt, decide_true, Bool.true_and, Nat.add_assoc]

section
variable (c : Cap) (y : Int) (e lo len : Nat) (mask : BitVec 8)

theorem Cap.withCursor_obj : (c.withCursor y).obj = c.obj := by
  unfold Cap.obj Cap.withCursor
  rw [extractLsb'_append_high _ _ _ _ (by decide), extractLsb'_append_high _ _ _ _ (by decide), extractLsb'_of_extractLsb' _ (by decide)]

theorem Cap.withCursor_rights : (c.withCursor y).rights = c.rights := by
  unfold Cap.rights Cap.withCursor
  rw [extractLsb'_append_high _ _ _ _ (by decide), extractLsb'_append_high _ _ _ _ (by decide), extractLsb'_of_extractLsb' _ (by decide)]

theorem Cap.withCursor_cursor : (c.withCursor y).cursor = (BitVec.ofInt 40 y).toNat := by
  unfold Cap.cursor Cap.withCursor
  rw [extractLsb'_append_high _ _ _ _ (by decide), extractLsb'_append_low _ _ _ _ (by decide)]
  exact congrArg BitVec.toNat (extractLsb'_whole _)

theorem Cap.withCursor_exp : (c.withCursor y).exp = c.exp := by
  unfold Cap.exp Cap.withCursor
  rw [extractLsb'_append_low _ _ _ _ (by decide), extractLsb'_of_extractLsb' _ (by decide)]

theorem Cap.withCursor_lo : (c.withCursor y).lo = c.lo := by
  unfold Cap.lo Cap.withCursor
  rw [extractLsb'_append_low _ _ _ _ (by decide), extractLsb'_of_extractLsb' _ (by decide)]

theorem Cap.withCursor_len : (c.withCursor y).len = c.len := by
  unfold Cap.len Cap.withCursor
  rw [extractLsb'_append_low _ _ _ _ (by decide), extractLsb'_of_extractLsb' _ (by decide)]

theorem Cap.withCursor_tag : (c.withCursor y).tag = true ↔ c.tag = true ∧ 0 ≤ y ∧ y < 2 ^ 40 := by
  simp only [Cap.withCursor, Bool.and_eq_true, decide_eq_true_eq]

theorem Cap.withWindow_obj : (c.withWindow e lo len).obj = c.obj := by
  unfold Cap.obj Cap.withWindow
  rw [extractLsb'_append_high _ _ _ _ (by decide), extractLsb'_append_high _ _ _ _ (by decide),
    extractLsb'_append_high _ _ _ _ (by decide), extractLsb'_of_extractLsb' _ (by decide)]

theorem Cap.withWindow_rights : (c.withWindow e lo len).rights = c.rights := by
  unfold Cap.rights Cap.withWindow
  rw [extractLsb'_append_high _ _ _ _ (by decide), extractLsb'_append_high _ _ _ _ (by decide),
    extractLsb'_append_high _ _ _ _ (by decide), extractLsb'_of_extractLsb' _ (by decide)]

theorem Cap.withWindow_cursor : (c.withWindow e lo len).cursor = c.cursor := by
  unfold Cap.cursor Cap.withWindow
  rw [extractLsb'_append_high _ _ _ _ (by decide), extractLsb'_append_high _ _ _ _ (by decide),
    extractLsb'_append_high _ _ _ _ (by decide), extractLsb'_of_extractLsb' _ (by decide)]

theorem Cap.withWindow_exp : (c.withWindow e lo len).exp = e % 2 ^ 5 := by
  unfold Cap.exp Cap.withWindow
  rw [extractLsb'_append_high _ _ _ _ (by decide), extractLsb'_append_high _ _ _ _ (by decide),
    extractLsb'_append_low _ _ _ _ (by decide)]
  exact (congrArg BitVec.toNat (extractLsb'_whole _)).trans (BitVec.toNat_ofNat ..)

theorem Cap.withWindow_lo : (c.withWindow e lo len).lo = lo % 2 ^ 25 := by
  unfold Cap.lo Cap.withWindow
  rw [extractLsb'_append_high _ _ _ _ (by decide), extractLsb'_append_low _ _ _ _ (by decide)]
  exact (congrArg BitVec.toNat (extractLsb'_whole _)).trans (BitVec.toNat_ofNat ..)

theorem Cap.withWindow_len : (c.withWindow e lo len).len = len % 2 ^ 26 := by
  unfold Cap.len Cap.withWindow
  rw [extractLsb'_append_low _ _ _ _ (by decide)]
  exact (congrArg BitVec.toNat (extractLsb'_whole _)).trans (BitVec.toNat_ofNat ..)

/-- Bits below the rights are copied. -/
theorem Cap.restrict_low {k l : Nat} (hk : k + l ≤ 96) : (c.restrict mask).bits.extractLsb' k l = c.bits.extractLsb' k l := by
  unfold Cap.restrict
  rw [extractLsb'_append_low _ _ _ _ hk, extractLsb'_of_extractLsb' _ hk, Nat.zero_add]

theorem Cap.restrict_obj : (c.restrict mask).obj = c.obj := by
  unfold Cap.obj Cap.restrict
  rw [extractLsb'_append_high _ _ _ _ (by decide), extractLsb'_append_high _ _ _ _ (by decide), extractLsb'_of_extractLsb' _ (by decide)]

theorem Cap.restrict_rights : (c.restrict mask).rights = c.rights &&& mask := by
  unfold Cap.restrict
  conv_lhs => unfold Cap.rights
  rw [extractLsb'_append_high _ _ _ _ (by decide), extractLsb'_append_low _ _ _ _ (by decide)]
  exact extractLsb'_whole _

theorem Cap.restrict_cursor : (c.restrict mask).cursor = c.cursor := congrArg BitVec.toNat (c.restrict_low mask (by decide))
theorem Cap.restrict_exp : (c.restrict mask).exp = c.exp := congrArg BitVec.toNat (c.restrict_low mask (by decide))
theorem Cap.restrict_lo : (c.restrict mask).lo = c.lo := congrArg BitVec.toNat (c.restrict_low mask (by decide))
theorem Cap.restrict_len : (c.restrict mask).len = c.len := congrArg BitVec.toNat (c.restrict_low mask (by decide))

theorem Cap.toNat_field (fld : BitVec 3) : (c.field fld).toNat =
    match fld.toNat with
    | 0 => c.obj | 1 => c.rights.toNat | 2 => c.cursor % 2 ^ 32 | 3 => c.cursor / 2 ^ 32
    | 4 => c.lo | 5 => c.len | 6 => c.exp | _ => c.tag.toNat := by
  have wide {k : Nat} (v : BitVec k) (hk : k ≤ 32) : (v.setWidth 32).toNat = v.toNat := by
    rw [BitVec.toNat_setWidth, Nat.mod_eq_of_lt (lt_of_lt_of_le v.isLt (Nat.pow_le_pow_right (by decide) hk))]
  unfold Cap.field
  generalize fld.toNat = n
  rcases n with _ | _ | _ | _ | _ | _ | _ | n
  · exact wide (c.bits.extractLsb' 104 24) (by decide)
  · exact wide c.rights (by decide)
  · simp only [Cap.cursor, BitVec.extractLsb'_toNat, Nat.shiftRight_eq_div_pow]; omega
  · refine (wide (c.bits.extractLsb' 88 8) (by decide)).trans ?_
    simp only [Cap.cursor, BitVec.extractLsb'_toNat, Nat.shiftRight_eq_div_pow]; omega
  · exact wide (c.bits.extractLsb' 26 25) (by decide)
  · exact wide (c.bits.extractLsb' 0 26) (by decide)
  · exact wide (c.bits.extractLsb' 51 5) (by decide)
  · exact (wide (BitVec.ofBool c.tag) (by decide)).trans (BitVec.toNat_ofBool _)

theorem Cap.exactly_eq_decide (l : Nat) :
    c.exactly l = decide (c.tag = true ∧ c.base = c.cursor ∧ c.top = c.cursor + l) := by
  simp only [Cap.exactly, Bool.decide_and, Bool.decide_eq_true]

end

/-! ### The fit of a narrowed window (R167) -/

/-- The window [x, y) at an exponent: the fields hold its start and its length. -/
theorem Cap.withWindow_bounds (c : Cap) {e lo len : Nat} (he : e < 32) (hlo : lo < 2 ^ 25) (hlen : len < 2 ^ 26) :
    (c.withWindow e lo len).base = lo * 2 ^ e ∧ (c.withWindow e lo len).top = (lo + len) * 2 ^ e := by
  have h1 := c.withWindow_exp e lo len
  have h2 := c.withWindow_lo e lo len
  have h3 := c.withWindow_len e lo len
  rw [Nat.mod_eq_of_lt (by omega)] at h1 h2 h3
  simp only [Cap.base, Cap.top, h1, h2, h3, and_self]

theorem exactFit_bounds {x y e : Nat} (hxy : x ≤ y) (hf : exactFit x y e = true) (he : e < 32) (c : Cap) :
    (c.withWindow e (x / 2 ^ e) ((y - x) / 2 ^ e)).base = x ∧ (c.withWindow e (x / 2 ^ e) ((y - x) / 2 ^ e)).top = y := by
  simp only [exactFit, decide_eq_true_eq] at hf
  obtain ⟨hx, hy, hlo, hlen⟩ := hf
  have hdx := Nat.dvd_of_mod_eq_zero hx
  have hdy := Nat.dvd_of_mod_eq_zero hy
  obtain ⟨hb, ht⟩ := c.withWindow_bounds he hlo hlen
  rw [hb, ht, Nat.add_mul, Nat.div_mul_cancel hdx, Nat.div_mul_cancel (Nat.dvd_sub hdy hdx)]
  exact ⟨rfl, by omega⟩

theorem inwardFit_bounds {x y e : Nat} (hf : inwardFit x y e = true) (he : e < 32) (c : Cap) :
    let r := c.withWindow e (inwardLo x e) (inwardHi x y e - inwardLo x e)
    r.len = 0 ∨ x ≤ r.base ∧ r.top ≤ y := by
  simp only [inwardFit, decide_eq_true_eq] at hf
  obtain ⟨hlo, hlen⟩ := hf
  obtain ⟨hb, ht⟩ := c.withWindow_bounds he hlo hlen
  have hpos := Nat.two_pow_pos e
  dsimp only
  by_cases hle : y / 2 ^ e ≤ inwardLo x e
  · left
    have hz : inwardHi x y e - inwardLo x e = 0 := by rw [inwardHi]; omega
    rw [Cap.withWindow_len, hz]; rfl
  · right
    have hhi : inwardLo x e + (inwardHi x y e - inwardLo x e) = y / 2 ^ e := by rw [inwardHi]; omega
    rw [hb, ht, hhi]
    refine ⟨?_, Nat.div_mul_le_self ..⟩
    rw [inwardLo, ceilDiv]
    have := Nat.div_add_mod (x + 2 ^ e - 1) (2 ^ e)
    have := Nat.mod_lt (x + 2 ^ e - 1) hpos
    rw [Nat.mul_comm]
    omega

/-- The fit of [x, y): exact at some exponent, or else inward at one, or else empty. -/
theorem narrowFit_cases {wlo whi b l x y : Nat} (hx : x = max b wlo) (hy : y = max x (min (b + l) whi)) :
    (∃ e < 32, exactFit x y e = true ∧ narrowFit wlo whi b l = (e, x / 2 ^ e, (y - x) / 2 ^ e))
    ∨ (∀ e < 32, exactFit x y e = false) ∧ ((∃ e < 32, inwardFit x y e = true
        ∧ narrowFit wlo whi b l = (e, inwardLo x e, inwardHi x y e - inwardLo x e)) ∨ narrowFit wlo whi b l = (31, 0, 0)) := by
  have hmem : ∀ e, e ∈ rangeFrom 0 32 ↔ e < 32 := fun e => by simp [rangeFrom_eq_range']
  unfold narrowFit
  dsimp only
  rw [← hx, ← hy]
  cases hexact : (rangeFrom 0 32).find? (exactFit x y) with
  | some e => exact .inl ⟨e, (hmem e).mp (List.mem_of_find?_eq_some hexact), List.find?_some hexact, rfl⟩
  | none =>
    refine .inr ⟨fun e he => by simpa using List.find?_eq_none.mp hexact e ((hmem e).mpr he), ?_⟩
    cases hin : (rangeFrom 0 32).find? (inwardFit x y) with
    | some e => exact .inl ⟨e, (hmem e).mp (List.mem_of_find?_eq_some hin), List.find?_some hin, rfl⟩
    | none => exact .inr rfl

/-- A narrowed window lies in the request's part of the old one, and is it where some exponent represents that. -/
theorem Cap.narrow_window (c : Cap) {l x y : Nat} (hx : x = max c.cursor c.base) (hy : y = max x (min (c.cursor + l) c.top)) :
    ((c.narrow l).len = 0 ∨ x ≤ (c.narrow l).base ∧ (c.narrow l).top ≤ y)
      ∧ (∀ e, e < 32 → exactFit x y e = true → (c.narrow l).base = x ∧ (c.narrow l).top = y) := by
  have hxy : x ≤ y := hy ▸ le_max_left ..
  unfold Cap.narrow
  rcases narrowFit_cases hx hy with ⟨e, he, hf, heq⟩ | ⟨hnone, ⟨e, he, hf, heq⟩ | heq⟩
  · obtain ⟨hb, ht⟩ := exactFit_bounds hxy hf he c
    rw [heq]
    exact ⟨.inr ⟨hb.ge, ht.le⟩, fun _ _ _ => ⟨hb, ht⟩⟩
  · rw [heq]
    exact ⟨inwardFit_bounds hf he c, fun e he hf => absurd hf (by rw [hnone e he]; exact Bool.false_ne_true)⟩
  · rw [heq]
    exact ⟨.inl (Cap.withWindow_len ..), fun e he hf => absurd hf (by rw [hnone e he]; exact Bool.false_ne_true)⟩

/-! ### The instructions -/

/-- A derivation writes its destination and goes on. -/
theorem capEnd_goes {d : AReg} {c : Cap} (he : Executes h s x) (hi : exec i s = capEnd h s x d c) (post : Cap → Prop)
    (hp : post c) : Goes i s x h { a := [d] } (fun w => post (w.areg d)) :=
  goes_goOn he hi rfl ((Kept.refl _ x.thr).wrA (List.mem_singleton_self d) s.cycle c 4) (by simpa using hp)

theorem capabilityDerivations : Claims.CapabilityDerivations := by
  intro h d a vd pd fld b s x he c B same window moved derives
  have ends {i : Instr} {c : Cap} (hi : exec i s = capEnd h s x d c) (post : Cap → Prop) (hp : post c) : derives i post :=
    capEnd_goes he hi post hp
  clear_value derives
  have runs := guarded_true he.1 he.2
  refine ⟨?capoff, ?capadd, ?caprgt, ?capmov, ?capget, ?capchk⟩
  case capoff =>
    refine ends ((exec_capoff ..).trans (runs _)) _ ?_
    refine ⟨c.withCursor_obj _,
      ⟨c.withCursor_exp _, c.withCursor_lo _, c.withCursor_len _⟩, c.withCursor_rights _, ?_, ?_⟩
    · rw [Cap.withCursor_cursor, BitVec.ofInt_natCast, BitVec.toNat_ofNat]
    · rw [Cap.withCursor_tag]
      exact and_congr_right fun _ => ⟨fun hb => by exact_mod_cast hb.2, fun hb => ⟨Int.natCast_nonneg _, by exact_mod_cast hb⟩⟩
  case capadd =>
    refine ends ((exec_capadd ..).trans (runs _)) _ ?_
    refine ⟨c.withCursor_obj _,
      ⟨c.withCursor_exp _, c.withCursor_lo _, c.withCursor_len _⟩, c.withCursor_rights _, ?_, c.withCursor_tag _⟩
    rw [Cap.withCursor_cursor, BitVec.toNat_ofInt, Int.toNat_of_nonneg (Int.emod_nonneg _ (by decide))]; rfl
  case caprgt =>
    refine ends ((exec_caprgt ..).trans (runs _)) _ ?_
    refine ⟨c.restrict_obj _,
      ⟨c.restrict_exp _, c.restrict_lo _, c.restrict_len _⟩, c.restrict_cursor _, rfl, fun k hk => ?_⟩
    rw [Cap.restrict_rights, BitVec.getLsbD_and, BitVec.getLsbD_extractLsb', Nat.zero_add, decide_eq_true hk, Bool.true_and]
  case capmov => exact ends ((exec_capmov ..).trans (runs _)) (fun r => r = c) rfl
  case capget =>
    obtain ⟨hnext, hdid⟩ := did_of_goOn (u := wrV s.cycle x.thr vd (c.field fld) 4) he ((exec_capget ..).trans (runs _)) rfl
      ((Kept.refl { v := [vd] } x.thr).wrV (List.mem_singleton_self vd) s.cycle _ 4)
    refine ⟨_, _, hnext, hdid, ?_⟩
    rw [vreg_done, vreg_wrV, if_pos rfl]; exact c.toNat_field fld
  case capchk =>
    obtain ⟨hnext, hdid⟩ := did_of_goOn (u := wrP s.cycle x.thr pd (c.exactly B.toNat) 4) he ((exec_capchk ..).trans (runs _))
      (by simp) ((Kept.refl { p := [pd] } x.thr).wrP (List.mem_singleton_self pd) s.cycle _ 4)
    exact ⟨_, _, hnext, hdid, (preg_done ..).trans ((preg_wrP ..).trans (congrArg (pd == 7#3 || ·) (c.exactly_eq_decide _)))⟩

theorem capabilityNarrowing : Claims.CapabilityNarrowing := by
  intro h d a b s x he c l lo hi
  obtain ⟨hin, hexact⟩ := c.narrow_window (l := l) (x := lo) (y := hi) rfl rfl
  exact capEnd_goes he ((exec_capnar ..).trans (guarded_true he.1 he.2 _))
    (fun r => r.obj = c.obj ∧ r.rights = c.rights ∧ r.cursor = c.cursor ∧ r.tag = c.tag ∧ (r.len = 0 ∨ lo ≤ r.base ∧ r.top ≤ hi)
      ∧ (∀ e, e < 32 → lo % 2 ^ e = 0 → hi % 2 ^ e = 0 → lo / 2 ^ e < 2 ^ 25 → (hi - lo) / 2 ^ e < 2 ^ 26 →
        r.base = lo ∧ r.top = hi))
    ⟨c.withWindow_obj .., c.withWindow_rights .., c.withWindow_cursor .., rfl, hin,
      fun e he h1 h2 h3 h4 => hexact e he (decide_eq_true ⟨h1, h2, h3, h4⟩)⟩

end Sys2Proof.Machine

/-- Settles O25: a derivation is a concatenation of fields of the old capability, and the fit of R167 is exact or rounds inward. -/
theorem capabilitiesAreDerived : Obligations.CapabilitiesAreDerived :=
  ⟨Sys2Proof.Machine.capabilityDerivations, Sys2Proof.Machine.capabilityNarrowing⟩
end

section
/-! SUPPORT. Going on where cores or a block have changed too, and the checks of scratchpad and accumulator accesses (R148). -/

namespace Sys2Proof.Machine

open Sys2Proof

variable {i : Instr} {h : Hdr} {s t : State} {x : Cx}

/-! ### What an instruction keeps of its thread -/

theorem Kept.known {c : Touch} {u w : Thread} (k : Kept c u w) (kn : Known) : Kept c u { w with known := kn } where
  v := k.v
  p := k.p
  a := k.a
  parts q h1 h2 := by have := k.parts q h1 h2; cases q <;> exact this

theorem Kept.arrival {c : Touch} {u w : Thread} (k : Kept c u w) (ar : Option (Nat × BitVec 16)) :
    Kept c u { w with arrival := ar } where
  v := k.v
  p := k.p
  a := k.a
  parts q h1 h2 := by have := k.parts q h1 h2; cases q <;> exact this

/-! ### Going on in a state that has changed elsewhere -/

/-- A meaning that changes cores and sends a result on its way. -/
theorem sends_cores {p : Pend} (he : Executes h s x) (ht : { t with cores := s.cores } = s)
    (hi : exec i s = goOnPend h t x x.thr p) :
    ∃ t' w, exec i s = .next t' ∧ Did s { t' with cores := s.cores } x h { parts := [.pend] } w ∧ w.pend = x.thr.pend ++ [p] := by
  have hcycle : t.cycle = s.cycle := (congrArg State.cycle ht :)
  refine ⟨_, (pendTo x.thr p).done s.cycle h, hi.trans (by rw [goOnPend, goOn, hcycle]),
    ⟨onlyThread_cores ht he.1 _, at_done s h (pendTo x.thr p) x.thr rfl, ?_⟩, rfl⟩
  exact ((Kept.refl _ x.thr).pend (List.mem_singleton_self _) _).done _ _

/-- A trap of a check is a trap on the thread's slot. -/
theorem trapsOn_checked {c : Option Why} {w : Why} {k : Out} (hc : c = some w) (hi : exec i s = checked s x c k) :
    TrapsOn i s x w.cause w.sub w.arg0 w.arg1 :=
  hi.trans (checked_of_some hc k)

/-! ### Checks of the local spaces (R148, R157) -/

theorem checkSpad_eq_none {b : Block} {off : Int} {w : Wid} (hwin : inWindow b off w.bytes = true) (hal : off % w.bytes = 0) :
    checkSpad b off w = none := by
  rw [checkSpad, spadBound, if_pos hwin, localAlign, if_pos hal]; rfl

theorem objectWhy_eq_none {b : Block} {off : Int} {n : Nat} (hwin : inWindow b off n = true) (hal : off % n = 0) (sub : BitVec 8) :
    objectWhy b off n sub = none := by
  rw [objectWhy, spadBound, if_pos hwin, localAlign, if_pos hal]; rfl

theorem inWindow_nonneg {b : Block} {off : Int} {n : Nat} (hwin : inWindow b off n = true) : 0 ≤ off := by
  simp only [inWindow, Bool.and_eq_true, decide_eq_true_eq] at hwin
  exact hwin.1.1.1

theorem checkAcc_eq_none {b : Block} {off : Int} {w : Wid} (h0 : 0 ≤ off) (h1 : off < 2 ^ 18) (h2 : off + w.bytes ≤ 2048 * b.tilesN)
    (hal : off % w.bytes = 0) : checkAcc b off w = none := by
  rw [checkAcc, accBound, if_pos ⟨h0, h1, by omega⟩, localAlign, if_pos hal]; rfl

theorem typedWhy_of_find {b : Block} {a n : Nat} {p : Nat × GType}
    (hp : b.types.find? (fun p => decide (p.1 < a + n ∧ a < p.1 + 16)) = some p) :
    typedWhy b a n = some ⟨causeBarwr, if p.2 = .barrier then 0 else 1,
      BitVec.ofNat 32 (if p.2 = .barrier then p.1 else p.1 / 32 * 32), 0⟩ := by
  rw [typedWhy, hp]
  obtain ⟨a', g⟩ := p
  cases g <;> rfl

theorem tileLent_view (u : Thread) (tile : Nat) : u.view.tileLent tile = u.lent.any (fun l => l.tiles.contains tile) := by
  unfold Thread.view Snap.tileLent; cases u.snap <;> rfl

/-- A write that hits no loan leaves the loans. -/
theorem spoil_of_none {ls : List Lent} {hit : Lent → Bool} (hn : ls.any hit = false) : spoil ls hit = ls := by
  unfold spoil
  exact (List.map_congr_left (g := id) fun l hl => if_neg (by simpa using List.any_eq_false.mp hn l hl)).trans (List.map_id _)

theorem loadVals_length (d : VReg) (w : Wid) (sx : Bool) (bs : List Byte) (bad : Nat → Bool) :
    (loadVals d w sx bs bad).length = (w.bytes + 3) / 4 := by
  rw [loadVals, landRegs_length, natWords_eq_map, List.length_map, List.length_range, Wid.four_mul_regs]

end Sys2Proof.Machine
end

section
/-! PROOF. Loads, stores and atomics of the scratchpad and the tiles (O24). -/

namespace Sys2Proof.Machine

open Sys2Proof

variable {h : Hdr} {s : State} {x : Cx} {a : LocAddr}

/-! ### Scratchpad (R153, R154, R157) -/

theorem exec_ldl_sends (he : Executes h s x) {l : LdMod} {d : VReg} (hwin : inWindow x.blk (localOff s x.thr a) l.wid.bytes = true)
    (hal : localOff s x.thr a % l.wid.bytes = 0) :
    ∃ t w p, exec (.ldl h l d a) s = .next t ∧ Did s { t with cores := s.cores } x h { parts := [.pend] } w
      ∧ w.pend = x.thr.pend ++ [p] ∧ p.cap = none ∧ p.setsFpx = false
      ∧ Lands d l.wid.bytes l.sx (fun j => spadByte s x.tid.slot ((localOff s x.thr a).toNat + j))
          (fun j => spadPoisoned x.blk ((localOff s x.thr a).toNat + j)) p.vals := by
  obtain ⟨t, w, hnext, hdid, hpend⟩ := sends_cores he (acquireAt_rest s x.blk x.coreId l.acq)
    ((exec_ldl ..).trans ((guarded_true he.1 he.2 _).trans (checked_of_none (checkSpad_eq_none hwin hal) _)))
  refine ⟨t, w, _, hnext, hdid, hpend, rfl, rfl, ?_⟩
  rw [spadByte_curCx he.1, readBytes_eq_map]
  exact lands_loadVals ..

theorem exec_stl_writes (he : Executes h s x) (hwf : memoryWf s) {st : StMod} {v : RC}
    (hwin : inWindow x.blk (localOff s x.thr a) st.wid.bytes = true) (hal : localOff s x.thr a % st.wid.bytes = 0)
    (hty : typedWhy x.blk (localOff s x.thr a).toNat st.wid.bytes = none) :
    ∃ t w, exec (.stl h st a v) s = .next t ∧ At (nextSlot x.thr.pc) s h w ∧ Kept {} x.thr w
      ∧ LocalWrite s t x w (patched (spadByte s x.tid.slot) (localOff s x.thr a).toNat st.wid.bytes (storeByte s x.thr v))
          (tileByte s x.tid.slot) := by
  have hcheck : Why.first (checkSpad x.blk (localOff s x.thr a) st.wid) (typedWhy x.blk (localOff s x.thr a).toNat st.wid.bytes) = none := by
    rw [checkSpad_eq_none hwin hal, hty]; rfl
  refine ⟨_, (x.thr.wrote x.tid.tidx).done s.cycle h,
    (exec_stl ..).trans ((guarded_true he.1 he.2 _).trans (checked_of_none hcheck _)),
    at_done s h (x.thr.wrote x.tid.tidx) x.thr rfl,
    ((Kept.refl {} x.thr).known _).done _ _, ?_⟩
  rw [spadByte_curCx he.1, tileByte_curCx he.1, ← read_writeBytes_dataOf (memWf_curCx he.1 hwf).1]
  exact localWrite_setBlock he.1 rfl rfl

/-! ### Accumulator tiles (R153, R154, R214) -/

/-- No check stops an access to the tiles but the one for a lent tile in a checked launch. -/
theorem accWhy_eq_none {w : Wid} (h0 : 0 ≤ localOff s x.thr a) (h1 : localOff s x.thr a < 2 ^ 18)
    (h2 : localOff s x.thr a + w.bytes ≤ 2048 * x.blk.tilesN) (hal : localOff s x.thr a % w.bytes = 0)
    (hl : ¬(x.thr.view.tileLent ((localOff s x.thr a).toNat / 2048) = true ∧ chkOf s x.blk = true)) :
    Why.first (lentWhy s x a.idx (localOff s x.thr a)) (checkAcc x.blk (localOff s x.thr a) w) = none := by
  rw [checkAcc_eq_none h0 h1 h2 hal, lentWhy, if_neg]
  · rfl
  · simp only [Bool.and_eq_true, not_and]
    exact fun hc htile => hl ⟨htile, hc.2⟩

theorem exec_lda_eq (he : Executes h s x) {w : Wid} (d : VReg)
    (hc : Why.first (lentWhy s x a.idx (localOff s x.thr a)) (checkAcc x.blk (localOff s x.thr a) w) = none) {lent : Bool}
    (hl : (x.thr.view.tileLent ((localOff s x.thr a).toNat / 2048) || tileBusy x.blk x.core ((localOff s x.thr a).toNat / 2048)) = lent) :
    exec (.lda h w d a) s = goOnPend h s x x.thr (pendVals (loadVals d w false
      (if lent then (rangeFrom 0 w.bytes).map (fun i => Config.freeByte s.freeCtr i)
        else x.blk.tiles.readBytes (accKey x.core (localOff s x.thr a).toNat) w.bytes)
      (fun i => !lent && tilePoisoned x.blk (accKey x.core (localOff s x.thr a).toNat + i)))) := by
  rw [exec_lda, execLda, guarded_true he.1 he.2, ← hl]
  exact checked_of_none hc _

theorem exec_sta_writes (he : Executes h s x) (hwf : memoryWf s) {w : Wid} {v : RC}
    (hc : Why.first (lentWhy s x a.idx (localOff s x.thr a)) (checkAcc x.blk (localOff s x.thr a) w) = none) :
    ∃ t u, exec (.sta h w a v) s = .next t ∧ At (nextSlot x.thr.pc) s h u ∧ Kept { parts := [.lent] } x.thr u
      ∧ LocalWrite s t x u (spadByte s x.tid.slot) (patched (tileByte s x.tid.slot) (x.core * 2 ^ 18 + (localOff s x.thr a).toNat)
          w.bytes (storeByte s x.thr v))
      ∧ (¬ x.thr.view.tileLent ((localOff s x.thr a).toNat / 2048) = true → x.thr.snap = none → u.lent = x.thr.lent) := by
  let lent := spoil x.thr.lent (fun l => l.tiles.contains ((localOff s x.thr a).toNat / 2048))
  refine ⟨_, ({ x.thr with lent := lent }.wrote x.tid.tidx).done s.cycle h,
    (exec_sta ..).trans ((guarded_true he.1 he.2 _).trans (checked_of_none hc _)),
    at_done s h ({ x.thr with lent := lent }.wrote x.tid.tidx) x.thr rfl,
    (((Kept.refl _ x.thr).lent (List.mem_singleton_self _) lent).known _).done _ _, ?_, fun hn _ => spoil_of_none ?_⟩
  · rw [spadByte_curCx he.1, tileByte_curCx he.1, ← read_writeBytes_dataOf (memWf_curCx he.1 hwf).2]
    exact localWrite_setBlock he.1 rfl rfl
  · rw [tileLent_view] at hn; simpa using hn

theorem lentWhy_eq_some (h0 : 0 ≤ localOff s x.thr a) (hl : x.thr.view.tileLent ((localOff s x.thr a).toNat / 2048) = true)
    (hchk : chkOf s x.blk = true) :
    lentWhy s x a.idx (localOff s x.thr a) = some ⟨causeSbchk, 0x01, a.idx.byte.setWidth 32, 0⟩ := by
  rw [lentWhy, if_pos]; simp only [decide_eq_true h0, hchk, hl, Bool.and_self]

theorem localLoadsAndStores : Claims.LocalLoadsAndStores := by
  intro h l st wd d a v s x he hwf off o slot tile key inAcc lent
  refine ⟨exec_ldl_sends he, exec_stl_writes he hwf, fun hwin hal p hp => ?typed, fun hwin => ?bound, fun hin hl hbusy => ?lda,
    fun hin hor hnc => ?undefined, fun hin hnc => ?sta, fun h0 hl hchk => ⟨?ldaLent, ?staLent⟩⟩
  case typed =>
    have hwhy : Why.first (checkSpad x.blk off st.wid) (typedWhy x.blk o st.wid.bytes) = typedWhy x.blk o st.wid.bytes := by
      rw [checkSpad_eq_none hwin hal]; rfl
    have hwhy := hwhy.trans (typedWhy_of_find hp)
    exact trapsOn_checked hwhy ((exec_stl ..).trans (guarded_true he.1 he.2 _))
  case bound =>
    have hwhy : Why.first (checkSpad x.blk off st.wid) (typedWhy x.blk o st.wid.bytes) = some ⟨causeCapbnd, 0x01, offLo off, 0⟩ := by
      rw [checkSpad, spadBound, hwin]; rfl
    exact trapsOn_checked hwhy ((exec_stl ..).trans (guarded_true he.1 he.2 _))
  case lda =>
    obtain ⟨h0, h1, h2, hal⟩ := hin
    have hfree : (x.thr.view.tileLent tile || tileBusy x.blk x.core tile) = false := by rw [hbusy, Bool.or_false]; exact Bool.eq_false_iff.mpr hl
    obtain ⟨t, w, hnext, hdid, hpend⟩ :=
      goOnPend_sends he (exec_lda_eq he d (accWhy_eq_none h0 h1 h2 hal fun hc => hl hc.1) hfree)
    refine ⟨t, w, _, hnext, hdid, hpend, rfl, rfl, ?_⟩
    rw [if_neg Bool.false_ne_true, tileByte_curCx he.1, readBytes_eq_map]
    exact lands_loadVals ..
  case undefined =>
    obtain ⟨h0, h1, h2, hal⟩ := hin
    obtain ⟨t, w, hnext, hdid, hpend⟩ := goOnPend_sends he (exec_lda_eq he d (accWhy_eq_none h0 h1 h2 hal hnc) rfl)
    exact ⟨t, w, _, hnext, hdid, hpend, rfl, rfl, loadVals_length ..⟩
  case sta =>
    obtain ⟨h0, h1, h2, hal⟩ := hin
    exact exec_sta_writes he hwf (accWhy_eq_none h0 h1 h2 hal hnc)
  case ldaLent =>
    have hwhy : Why.first (lentWhy s x a.idx off) (checkAcc x.blk off wd) = some ⟨causeSbchk, 0x01, a.idx.byte.setWidth 32, 0⟩ := by
      rw [lentWhy_eq_some h0 hl hchk]; rfl
    exact trapsOn_checked hwhy ((exec_lda ..).trans (guarded_true he.1 he.2 _))
  case staLent =>
    have hwhy : Why.first (lentWhy s x a.idx off) (checkAcc x.blk off wd) = some ⟨causeSbchk, 0x01, a.idx.byte.setWidth 32, 0⟩ := by
      rw [lentWhy_eq_some h0 hl hchk]; rfl
    exact trapsOn_checked hwhy ((exec_sta ..).trans (guarded_true he.1 he.2 _))

/-! ### Scratchpad atomics (R173, R157) -/

/-- A scratchpad atomic on an aligned range of the slice that meets no typed object and no poison. -/
theorem localAtomic_returns {i : Instr} (he : Executes h s x) (hwf : memoryWf s) {wid : Wid} {ord : AOrd} {d : VReg} {fpx : Bool}
    {f : Nat → Option Nat × Flags} (hi : exec i s = localAtomic h s x wid ord d a false fpx f)
    (hwin : inWindow x.blk (localOff s x.thr a) wid.bytes = true) (hal : localOff s x.thr a % wid.bytes = 0)
    (hty : typedWhy x.blk (localOff s x.thr a).toNat wid.bytes = none)
    (hclean : ∀ j, j < wid.bytes → spadPoisoned x.blk ((localOff s x.thr a).toNat + j) = false) :
    ∃ t w q, exec i s = .next t ∧ At (nextSlot x.thr.pc) s h w ∧ Kept { parts := [.pend] } x.thr w
      ∧ (w.pend = x.thr.pend ++ [q] ∧ q.cap = none ∧ q.setsFpx = fpx
        ∧ q.flags = (if h.nf then 0 else (f (x.blk.spad.readNat (localOff s x.thr a).toNat wid.bytes)).2)
        ∧ Lands d wid.bytes false (fun j => spadByte s x.tid.slot ((localOff s x.thr a).toNat + j)) (fun _ => false) q.vals)
      ∧ LocalWrite s { t with cores := s.cores } x w
          (match (f (x.blk.spad.readNat (localOff s x.thr a).toNat wid.bytes)).1 with
            | none => spadByte s x.tid.slot
            | some v => patched (spadByte s x.tid.slot) (localOff s x.thr a).toNat wid.bytes (fun j => BitVec.ofNat 8 (v / 256 ^ j)))
          (tileByte s x.tid.slot) := by
  obtain ⟨o, ho⟩ : ∃ o, o = (localOff s x.thr a).toNat := ⟨_, rfl⟩
  obtain ⟨r, hr⟩ : ∃ r, r = f (x.blk.spad.readNat o wid.bytes) := ⟨_, rfl⟩
  have hcheck : Why.first (checkSpad x.blk (localOff s x.thr a) wid) (Why.first (if false = true then some ⟨causeDetchk, 0,
      offLo (localOff s x.thr a), 0⟩ else none) (typedWhy x.blk o wid.bytes)) = none := by
    rw [checkSpad_eq_none hwin hal, ho, hty]; rfl
  have hbad : (rangeFrom 0 wid.bytes).any (fun i => spadPoisoned x.blk (o + i)) = false := by
    rw [List.any_eq_false, rangeFrom_eq_range']
    intro j hj
    rw [ho, hclean j (by simpa using hj)]; exact Bool.false_ne_true
  have hlands : Lands d wid.bytes false (fun j => spadByte s x.tid.slot (o + j)) (fun _ => false)
      (landRegs d (natWords (x.blk.spad.readNat o wid.bytes) wid.regs)
        ((rangeFrom 0 wid.regs).map (fun k => wordAny wid.bytes k (fun i => spadPoisoned x.blk (o + i))))) := by
    rw [Memory.readNat, landRegs_eq_loadVals, readBytes_eq_map, spadByte_curCx he.1]
    exact (lands_loadVals ..).clean fun j hj => by rw [ho]; exact hclean j hj
  unfold localAtomic at hi
  simp only [← ho, ← hr] at hi hcheck ⊢
  rw [checked_of_none hcheck, hbad] at hi
  simp only [Bool.false_eq_true, if_false] at hi
  rw [spadByte_curCx he.1, tileByte_curCx he.1] at *
  obtain ⟨hspad, _⟩ := memWf_curCx he.1 hwf
  obtain ⟨v?, f'⟩ := r
  generalize landRegs d _ _ = vals at hi hlands
  let q : Pend := ⟨false, vals, none, if h.nf then 0 else f', fpx⟩
  cases v? with
  | none =>
    refine ⟨_, _, q, hi, at_done s h (pendTo x.thr q) x.thr rfl, ((Kept.refl _ x.thr).pend (List.mem_singleton_self _) _).done _ _,
      ⟨rfl, rfl, rfl, rfl, hlands⟩, localWrite_cores (acquireAt_rest _ x.blk x.coreId (acquires ord)) ?_⟩
    exact localWrite_setBlock he.1 rfl rfl
  | some v =>
    refine ⟨_, _, q, hi, at_done s h (pendTo (x.thr.wrote x.tid.tidx) q) x.thr rfl,
      (((Kept.refl _ x.thr).known _).pend (List.mem_singleton_self _) _).done _ _,
      ⟨rfl, rfl, rfl, rfl, hlands⟩, localWrite_cores (acquireAt_rest _ x.blk x.coreId (acquires ord)) ?_⟩
    dsimp only
    rw [← read_writeBytes_leBytes hspad]
    exact localWrite_setBlock he.1 rfl rfl

theorem scratchpadAtomics : Claims.ScratchpadAtomics := by
  intro h m wid ord d a v s x he hwf off o slot old r ready returns
  refine ⟨fun ⟨hwin, hal, hty, hclean⟩ hdet => ?atoml, fun ⟨hwin, hal, hty, hclean⟩ => ?casl, fun hwin hal p hp => ?typed,
    fun hwin hal hdet => ?detchk⟩
  case atoml =>
    have hi := (exec_atoml h m d a v s).trans (guarded_true he.1 he.2 _)
    rw [hdet] at hi
    exact localAtomic_returns he hwf hi hwin hal hty hclean
  case casl =>
    obtain ⟨t, w, q, hnext, hat, hkept, hret, hwrite⟩ :=
      localAtomic_returns he hwf ((exec_casl ..).trans (guarded_true he.1 he.2 _)) hwin hal hty hclean
    refine ⟨t, w, q, hnext, hat, hkept, hret, ?_⟩
    split_ifs at hwrite ⊢ with hhit
    · exact (patched_congr fun j hj => dataOf_byte s x.thr wid (.v d) hj) ▸ hwrite
    · exact hwrite
  case typed =>
    have hwhy : Why.first (checkSpad x.blk off wid) (Why.first (if false = true then some ⟨causeDetchk, 0, offLo off, 0⟩ else none)
        (typedWhy x.blk o wid.bytes)) = typedWhy x.blk o wid.bytes := by
      rw [checkSpad_eq_none hwin hal]; rfl
    have hwhy := hwhy.trans (typedWhy_of_find hp)
    exact trapsOn_checked hwhy ((exec_casl ..).trans (guarded_true he.1 he.2 _))
  case detchk =>
    have hwhy : Why.first (checkSpad x.blk off m.wid) (Why.first (if detchk s x.blk m.op m.ty then
        some ⟨causeDetchk, 0, offLo off, 0⟩ else none) (typedWhy x.blk o m.wid.bytes)) = some ⟨causeDetchk, 0, offLo off, 0⟩ := by
      rw [checkSpad_eq_none hwin hal, hdet]; rfl
    exact trapsOn_checked hwhy ((exec_atoml ..).trans (guarded_true he.1 he.2 _))

end Sys2Proof.Machine

/-- Settles O24: an access within its slice or its tiles reads and writes its block's stores, and a check that fails traps. -/
theorem localStoresAreAccessed : Obligations.LocalStoresAreAccessed :=
  ⟨Sys2Proof.Machine.localLoadsAndStores, Sys2Proof.Machine.scratchpadAtomics⟩
end

section
/-! PROOF. The checks of an access in their order, its faults and its waits (O20). -/

namespace Sys2Proof.Machine

open Sys2Proof

variable {i : Instr} {h : Hdr} {s s' : State} {x : Cx} {c : Cap} {right : Nat} {off : Int} {w : Wid} {a : CapAddr}

/-! ### The four checks, each when the ones before it pass (R146, Table 6.10) -/

theorem aByte_eq_add : ∀ r : AReg, aByte r = 0x40#8 + r.setWidth 8 := by decide

/-- Bits 40 to 32 of an offset. -/
theorem offHi_eq (off : Int) : offHi off = BitVec.ofNat 32 (off / 2 ^ 32 % 2 ^ 9).toNat := by
  apply BitVec.eq_of_toNat_eq
  rw [offHi, BitVec.toNat_setWidth, BitVec.extractLsb'_toNat, BitVec.toNat_ofInt, BitVec.toNat_ofNat, Nat.shiftRight_eq_div_pow]
  omega

theorem checkCap_untagged (ht : c.tag = false) (spec : BitVec 8) (rights : List Nat) (off : Int) (wid : Nat) :
    checkCap c spec rights off wid = some ⟨causeCapinv, 0, spec.setWidth 32, 0⟩ := by
  rw [checkCap, checkTag, ht]; rfl

theorem checkCap_unentitled (ht : c.tag = true) (hr : c.rights.getLsbD right = false) (spec : BitVec 8) (off : Int) (wid : Nat) :
    checkCap c spec [right] off wid = some ⟨causeCaprgt, BitVec.ofNat 8 right, c.rights.setWidth 32, 0⟩ := by
  rw [checkCap, checkTag, ht, missingRight, hr]; rfl

theorem checkTag_single (ht : c.tag = true) (hr : c.rights.getLsbD right = true) (spec : BitVec 8) :
    checkTag c spec [right] = none := by
  rw [checkTag, ht, missingRight, hr]; rfl

theorem checkCap_outside (ht : c.tag = true) (hr : c.rights.getLsbD right = true)
    (hout : ¬((c.base : Int) ≤ off ∧ off + w.bytes ≤ (c.top : Int))) (spec : BitVec 8) :
    checkCap c spec [right] off w.code.toNat = some ⟨causeCapbnd, 0, offLo off, offHi off⟩ := by
  rw [checkCap, checkTag_single ht hr, ← Wid.bytes_eq_two_pow, checkBound, if_neg hout]; rfl

theorem checkCap_misaligned (ht : c.tag = true) (hr : c.rights.getLsbD right = true)
    (hin : (c.base : Int) ≤ off ∧ off + w.bytes ≤ (c.top : Int)) (ha : off % w.bytes ≠ 0) (spec : BitVec 8) :
    checkCap c spec [right] off w.code.toNat = some ⟨causeAlign, w.code.setWidth 8, offLo off, offHi off⟩ := by
  rw [checkCap, checkTag_single ht hr, ← Wid.bytes_eq_two_pow, checkBound, if_pos hin, checkAlign, if_neg ha]
  cases w <;> rfl

/-! ### An access that these checks guard -/

/-- The instruction checks one right on its capability, its window and its alignment, then accesses. -/
def Guards (i : Instr) (s : State) (x : Cx) (a : CapAddr) (right : Nat) (w : Wid) (acc : Acc) (k : State → Mapped → Bool → Out) : Prop :=
  exec i s = checked s x (checkCap (rdA s x.thr a.a) (aByte a.a) [right] (capOff s x.thr a) w.code.toNat)
    (access s x (want (rdA s x.thr a.a) (capOff s x.thr a) acc) (rdA s x.thr a.a).rights k)

variable {acc : Acc} {k : State → Mapped → Bool → Out}

theorem Guards.untagged (g : Guards i s x a right w acc k) (ht : (rdA s x.thr a.a).tag = false) :
    TrapsOn i s x 0x10 0 ((0x40#8 + a.a.setWidth 8).setWidth 32) 0 :=
  aByte_eq_add a.a ▸ trapsOn_checked (checkCap_untagged ht ..) g

theorem Guards.unentitled (g : Guards i s x a right w acc k) (ht : (rdA s x.thr a.a).tag = true)
    (hr : (rdA s x.thr a.a).rights.getLsbD right = false) :
    TrapsOn i s x 0x12 (BitVec.ofNat 8 right) ((rdA s x.thr a.a).rights.setWidth 32) 0 :=
  trapsOn_checked (checkCap_unentitled ht hr ..) g

theorem Guards.outside (g : Guards i s x a right w acc k) (ht : (rdA s x.thr a.a).tag = true)
    (hr : (rdA s x.thr a.a).rights.getLsbD right = true)
    (hout : ¬(((rdA s x.thr a.a).base : Int) ≤ capOff s x.thr a ∧ capOff s x.thr a + w.bytes ≤ ((rdA s x.thr a.a).top : Int))) :
    TrapsOn i s x 0x11 0 (BitVec.ofInt 32 (capOff s x.thr a))
      (BitVec.ofNat 32 (capOff s x.thr a / 2 ^ 32 % 2 ^ 9).toNat) :=
  offHi_eq _ ▸ trapsOn_checked (checkCap_outside ht hr hout _) g

theorem Guards.misaligned (g : Guards i s x a right w acc k) (ht : (rdA s x.thr a.a).tag = true)
    (hr : (rdA s x.thr a.a).rights.getLsbD right = true)
    (hin : ((rdA s x.thr a.a).base : Int) ≤ capOff s x.thr a ∧ capOff s x.thr a + w.bytes ≤ ((rdA s x.thr a.a).top : Int))
    (ha : capOff s x.thr a % w.bytes ≠ 0) :
    TrapsOn i s x 0x13 (w.code.setWidth 8) (BitVec.ofInt 32 (capOff s x.thr a))
      (BitVec.ofNat 32 (capOff s x.thr a / 2 ^ 32 % 2 ^ 9).toNat) :=
  offHi_eq _ ▸ trapsOn_checked (checkCap_misaligned ht hr hin ha _) g

theorem Guards.permitted (g : Guards i s x a right w acc k)
    (hp : Permits (rdA s x.thr a.a) [right] (capOff s x.thr a) w.bytes) :
    exec i s = access s x (want (rdA s x.thr a.a) (capOff s x.thr a) acc) (rdA s x.thr a.a).rights k :=
  Eq.trans g (checked_of_none (hp.checkWid _) _)

theorem Guards.faults (g : Guards i s x a right w acc k)
    (hp : Permits (rdA s x.thr a.a) [right] (capOff s x.thr a) w.bytes) {f : PageFault}
    (ht : translate s x.blk.ctx (some x.blk.launch) (want (rdA s x.thr a.a) (capOff s x.thr a) acc) = (s', .fault f)) :
    exec i s = .next (rollback (clusterFault s' x.blk.cluster x.blk.ctx f) x f) :=
  (g.permitted hp).trans (access_fault ht)

/-! ### Loads and stores -/

theorem ld_guards (he : Executes h s x) (l : LdMod) (d : VReg) (a : CapAddr) :
    Guards (.ld h l d a) s x a 0 l.wid .read fun s' mp _ =>
      loading s' x mp (rdA s x.thr a.a).obj (capOff s x.thr a).toNat l.wid.bytes l.ch (coherent l.acq) fun s r =>
        goOnPend h (acquireAt s x.blk x.coreId l.acq) x x.thr (pendVals (loadVals d l.wid l.sx r.bytes r.bad)) :=
  (exec_ld ..).trans (guarded_true he.1 he.2 _)

theorem st_guards (he : Executes h s x) (st : StMod) (a : CapAddr) (v : RC) :
    Guards (.st h st a v) s x a 1 st.wid .write fun s' mp recd =>
      storing h s' x mp recd (rdA s x.thr a.a).obj (capOff s x.thr a).toNat st.wid st.ch (dataOf s' x.thr st.wid v) :=
  (exec_st ..).trans (guarded_true he.1 he.2 _)

/-- A load that no L1 line serves waits for the end of its die's refresh window (R378). -/
theorem loading_refresh {mp : Mapped} {obj off n : Nat} {ch : CacheHint} {coh : Bool} {k : State → Loaded → Out}
    (hws : mp.loc.ws = true) (hr : inRefresh s (wsDie mp.loc.addr) = true)
    (hl : l1Copy s x.coreId x.blk.ctx obj off mp ch coh = none) :
    loading s x mp obj off n ch coh k = waitAt s x (.stalled (.refresh (wsDie mp.loc.addr))) := by
  have hrefresh : refreshes s mp = true := by rw [refreshes, hws, hr]; rfl
  unfold loading
  rw [hl]
  exact if_pos hrefresh

end Sys2Proof.Machine

open Sys2Proof Sys2Proof.Machine in
/-- Settles O20: LD and ST guard their access with the same checks, and the four outcomes of a translation follow. -/
theorem accessChecksTrapInOrder : Obligations.AccessChecksTrapInOrder := by
  intro h l st d a v s x he c off lo hi p hp
  rcases List.mem_cons.mp hp with rfl | hp
  · have g := ld_guards he l d a
    refine ⟨g.untagged, g.unentitled, g.outside, g.misaligned, fun s' f hpm ht => g.faults hpm ht, fun s' mp mig recd hpm ht =>
      ⟨fun _ hws hr hl => ?_, fun h1 => absurd h1 Nat.zero_ne_one⟩⟩
    exact ⟨_, ((g.permitted hpm).trans (access_ok ht fun hw => absurd hw Bool.false_ne_true)).trans (loading_refresh hws hr hl),
      by rw [setThread_eq_putThread]⟩
  · obtain rfl := List.mem_singleton.mp hp
    have g := st_guards he st a v
    refine ⟨g.untagged, g.unentitled, g.outside, g.misaligned, fun s' f hpm ht => g.faults hpm ht, fun s' mp mig recd hpm ht =>
      ⟨fun h0 => absurd h0 Nat.one_ne_zero, fun _ hrec hmig hlock => ?_⟩⟩
    subst hrec
    exact ⟨_, _, (g.permitted hpm).trans (access_held ht rfl hmig hlock),
      onlyThread_setThread ((translated_of_eq ht).curCx.trans he.1) _⟩
end

section
/-! SUPPORT. An instruction that forms one record (R277, R282, R285): the record, the log it goes into, and the thread. -/

namespace Sys2Proof.Machine

open Sys2Proof

variable {i : Instr} {h : Hdr} {s s' t : State} {x : Cx} {mp : Mapped} {q : RecReq}

/-! ### The log (R285) -/

theorem coalesce_no_record (r : Rec) : ∀ (left : Nat) (es : List LogEntry), es.flatMap recOfLog = [] → coalesce r left es = none
  | _, [], _ => rfl
  | left, .record _ _ :: _, h => by cases h
  | left, .marker m :: es, h => by
    have ih := coalesce_no_record r (left - (LogEntry.marker m).bytes) es h
    simp only [coalesce, ih, Option.map_none, ite_self]

/-- The log with an open record behind it. -/
def Core.logged (c : Core) (r : Rec) : Core := { c with log := c.log ++ [.record r true] }

theorem appendRec_appends {c : Core} {r : Rec} (hr : coalesces r.det r = false ∨ c.log.flatMap recOfLog = []) :
    appendRec c r = (c.logged r, r.charge) := by
  have hmerged : (if coalesces r.det r then coalesce r Config.logBytes c.log.reverse else none) = none := by
    rcases hr with hr | hr
    · rw [hr]; rfl
    · have hrev : c.log.reverse.flatMap recOfLog = [] := by simpa [List.flatMap_eq_nil_iff] using hr
      rw [coalesce_no_record r _ _ hrev, ite_self]
  unfold appendRec
  rw [hmerged]; rfl

/-! ### The thread and its block -/

/-- The thread after it has formed a record. -/
def Thread.formed (u : Thread) : Thread := { u with counts := { u.counts with seq := u.counts.seq + 1 } }

/-- The state after the current thread has formed one record. -/
def formedState (s : State) (x : Cx) (r : Rec) : State :=
  setBlock (setCore s x.coreId ((coreOf s x.coreId).logged r)) x.tid.slot
    { x.blk.setThread x.tid.tidx x.thr.formed with charge := x.blk.charge + (0 + r.charge) }

theorem formRecs_one (hc : curCx s = some x)
    (hr : coalesces (detOf s x.blk) (mkRec s x.tid x.blk x.thr mp q) = false ∨ (coreOf s x.coreId).log.flatMap recOfLog = [])
    (hok : formRecs s x.tid mp [q] = .ok t) : t = formedState s x (mkRec s x.tid x.blk x.thr mp q) := by
  obtain ⟨_, hb, ht⟩ := (curCx_eq_some s x).mp hc
  have happ := appendRec_appends hr
  unfold formRecs at hok
  simp only [hb, ht, List.foldl_cons, List.foldl_nil] at hok
  split_ifs at hok
  rw [← Except.ok.inj hok, formedState]
  unfold Cx.coreId at happ
  rw [happ]; rfl

section
variable {r : Rec}

theorem threadOf_formedState (hc : curCx s = some x) : threadOf (formedState s x r) x.tid = some x.thr.formed :=
  threadOf_setBlock_own (s := setCore s x.coreId _) (curCx_congr rfl rfl ▸ hc) rfl

theorem othersSame_formedState (hc : curCx s = some x) : OthersSame s (formedState s x r) x.tid :=
  othersSame_setBlock_own (s := setCore s x.coreId _) (curCx_congr rfl rfl ▸ hc) rfl

theorem memSame_formedState (hc : curCx s = some x) : MemSame s (formedState s x r) := by
  obtain ⟨_, hb, _⟩ := (curCx_eq_some s x).mp hc
  refine ⟨fun _ => rfl, fun _ => rfl, fun slot a => ?_, fun slot a => ?_, rfl⟩
  all_goals
    simp only [spadByte, tileByte, formedState, blockOf_setBlock]
    split_ifs with hs
    · rw [hs, hb]; rfl
    · rfl

theorem log_formedState : (coreOf (formedState s x r) x.coreId).log = (coreOf s x.coreId).log ++ [.record r true] := by
  have hcore : coreOf (formedState s x r) x.coreId = coreOf (setCore s x.coreId ((coreOf s x.coreId).logged r)) x.coreId :=
    coreOf_congr rfl _
  rw [hcore, coreOf_setCore, if_pos rfl]; rfl

end

/-! ### Going on after a record -/

/-- Only cores' L1 copies differ. -/
structure L1Only (s t : State) : Prop where
  rest : { t with cores := s.cores } = s
  log : ∀ n, (coreOf t n).log = (coreOf s n).log

theorem l1Only_acquireAt (s : State) (b : Block) (core : Nat) (sc : Option Scope) : L1Only s (acquireAt s b core sc) := by
  have hl1 : L1Only s (l1Acquire s core) :=
    ⟨rfl, fun n => by rw [l1Acquire, coreOf_setCore]; split_ifs with hn <;> [rw [hn]; rfl]⟩
  refine ⟨acquireAt_rest .., ?_⟩
  unfold acquireAt acquireBlock
  split
  · exact fun _ => rfl
  · split_ifs
    · exact hl1.log
    · exact fun _ => rfl
  · exact hl1.log

/-- The instruction forms one record and goes on. -/
def Forms (i : Instr) (h : Hdr) (s s' : State) (x : Cx) (r : Rec) : Prop :=
  ∃ t w, exec i s = .next t ∧ threadOf t x.tid = some w ∧ At (nextSlot x.thr.pc) s h w ∧ OthersSame s' t x.tid ∧ MemSame s' t
    ∧ Kept { parts := [.counts] } x.thr w ∧ w.counts = { x.thr.counts with seq := x.thr.counts.seq + 1 }
    ∧ (coreOf t x.coreId).log = (coreOf s' x.coreId).log ++ [.record r true]

theorem forms_of_recording {f : State → State} (tr : Translated s s') (he : Executes h s x) (hf : ∀ u, L1Only u (f u))
    (hi : exec i s = recording s' x mp [q] (fun s t => goOn h (f s) x t)) (hok : formRecs s' x.tid mp [q] = .ok t)
    (hr : coalesces (detOf s' x.blk) (mkRec s' x.tid x.blk x.thr mp q) = false ∨ (coreOf s' x.coreId).log.flatMap recOfLog = []) :
    Forms i h s s' x (mkRec s' x.tid x.blk x.thr mp q) := by
  have hc : curCx s' = some x := tr.curCx.trans he.1
  rw [recording, hok] at hi
  rw [formRecs_one hc hr hok] at hi
  generalize mkRec s' x.tid x.blk x.thr mp q = r at hi
  obtain ⟨hrest, hlog⟩ := hf (formedState s' x r)
  have hthread := threadOf_formedState (r := r) hc
  have hcycle : (f (formedState s' x r)).cycle = s.cycle := (congrArg State.cycle hrest :).trans tr.cycle
  have hblocks : (f (formedState s' x r)).blocks = (formedState s' x r).blocks := (congrArg State.blocks hrest :)
  refine ⟨setThread (f (formedState s' x r)) x.tid (x.thr.formed.done s.cycle h), x.thr.formed.done s.cycle h, hi.trans ?_, ?_, at_done s h x.thr.formed x.thr rfl, fun u hu => ?_, ?_,
    ((Kept.refl _ x.thr).counts (List.mem_singleton_self _) _).done _ _, rfl, ?_⟩
  · dsimp only
    rw [hthread, Option.getD_some, goOn, hcycle]
  · rw [threadOf_setThread, if_pos rfl, threadOf_congr hblocks, hthread]; rfl
  · rw [threadOf_setThread, if_neg hu, threadOf_congr hblocks, othersSame_formedState hc u hu]
  · exact ((memSame_formedState hc).trans (memSame_upToCores hrest)).trans (memSame_setThread ..)
  · rw [coreOf_setThread, hlog, log_formedState]

end Sys2Proof.Machine
end

section
/-! PROOF. Records of stores and reductions on a deferred page (O23). -/

namespace Sys2Proof.Machine

open Sys2Proof

variable {i : Instr} {h : Hdr} {s s' t : State} {x : Cx} {mp : Mapped} {m : AtMod} {a : CapAddr} {v : RC}

/-! ### The value of a record (Tables 10.2, 10.3) -/

theorem recVal_split {n : Nat} (hn : n < 2 ^ 64) :
    (BitVec.ofNat 32 n).toNat + 2 ^ 32 * (BitVec.ofNat 32 (n / 2 ^ 32)).toNat = n := by
  simp only [BitVec.toNat_ofNat]; omega

/-- A value of up to eight bytes lies whole in a record. -/
theorem mkRec_val {q : RecReq} (hq : q.val < 2 ^ 64) (s : State) (tid : ThreadId) (b : Block) (u : Thread) (mp : Mapped) :
    (mkRec s tid b u mp q).val = q.val := recVal_split hq

theorem dataOf_lt_word {w : Wid} (hw : w ≠ .w128) (s : State) (u : Thread) (v : RC) : dataOf s u w v < 2 ^ 64 :=
  lt_of_lt_of_le (dataOf_lt s u w v) (by cases w <;> first | exact absurd rfl hw | decide)

theorem storeReqs_one {w : Wid} (hw : w ≠ .w128) (val : Nat) : storeReqs w val = [⟨opcStore, 0, w.code.toNat, val, 0, 0⟩] := if_neg hw

/-! ### Stores -/

theorem storesOnDeferredPagesFormRecords : Claims.StoresOnDeferredPagesFormRecords := by
  intro h m a v s s' s'' x mp he c off val hp hw ht
  have hi : exec (.st h m a v) s = recording s' x mp (storeReqs m.wid val) fun s t => goOn h s x t :=
    (exec_st_storing he hp ht fun hrec => absurd hrec (by decide)).trans (if_pos rfl)
  have tr := translated_of_eq ht
  refine ⟨fun e herr hcalm => ?stalls, fun e herr hst hout => ?traps, fun hok hlog => ?forms⟩
  case stalls =>
    rw [recording, herr] at hi
    have hcond : ¬(e.isStaging && x.thr.stgOut) = true := by rcases hcalm with hc | hc <;> rw [hc] <;> simp
    exact ⟨_, hi.trans (if_neg hcond), onlyThread_setThread (tr.curCx.trans he.1) _⟩
  case traps =>
    rw [recording, herr] at hi
    refine hi.trans (if_pos ?_)
    rw [hst, hout]; rfl
  case forms =>
    rw [storeReqs_one hw] at hi hok
    obtain ⟨t, w, hnext, hthread, hat, hothers, hmem, hkept, hcounts, hlogged⟩ :=
      forms_of_recording tr he (fun _ => ⟨rfl, fun _ => rfl⟩) hi hok (.inr hlog)
    exact ⟨t, w, _, hnext, hthread, hat, hothers, hmem, hkept, hcounts, hlogged, mkRec_val (dataOf_lt_word hw ..) .., rfl, rfl,
      rfl, rfl, rfl, rfl, rfl, rfl, rfl, rfl, rfl, rfl⟩

/-! ### Reductions -/

/-- A reduction of a permitted access that translates (R177). -/
theorem reduce_translated {recd : Bool} (hp : Permits (rdA s x.thr a.a) [1, 3] (capOff s x.thr a) m.wid.bytes)
    (ht : translate s x.blk.ctx (some x.blk.launch)
      ⟨(rdA s x.thr a.a).obj, (capOff s x.thr a).toNat, .rmw, false, detchk s x.blk m.op m.ty⟩ = (s', .ok mp recd))
    (hmig : recd = false → migrationAt s' mp.peAddr = none) :
    reduce h s x m a v =
      if recd then
        recording s' x mp [redReq m.op m.ty m.wid (dataOf s x.thr m.wid v)] fun s t =>
          goOn h (acquireAt s x.blk x.coreId (acquires m.ord)) x t
      else goOn h (acquireAt (performAtomic s' x mp (rdA s x.thr a.a).obj (capOff s x.thr a).toNat m.wid.bytes
        (some (atomicOp m.op m.ty (8 * m.wid.bytes) (leNat (readMapped s' mp m.wid.bytes)) (dataOf s x.thr m.wid v)).1))
          x.blk x.coreId (acquires m.ord)) x x.thr := by
  rw [reduce, atomic, (translated_of_eq ht).dataOf.symm]
  exact (checked_of_none (hp.checkWid _) _).trans (access_ok ht fun _ => hmig)

/-- The three instructions that reduce. -/
theorem exec_reduces (he : Executes h s x) (hi : i ∈ [Instr.atom h m none a v, .red h m a v, .redf h m a v]) :
    exec i s = reduce h s x m a v := by
  simp only [List.mem_cons, List.not_mem_nil, or_false] at hi
  rcases hi with rfl | rfl | rfl <;> exact guarded_true he.1 he.2 _

/-- The two instructions that return the old value. -/
theorem exec_fetches {d : VReg} {fpx : Bool} (he : Executes h s x)
    (hi : (i, fpx) ∈ [(Instr.atom h m (some d) a v, false), (.atomf h m d a v, true)]) :
    exec i s = fetchOp h s x m d a v fpx := by
  simp only [List.mem_cons, List.not_mem_nil, or_false, Prod.mk.injEq] at hi
  rcases hi with ⟨rfl, rfl⟩ | ⟨rfl, rfl⟩ <;> exact guarded_true he.1 he.2 _

theorem redReq_val (op : AOp) (ty : ATy) (w : Wid) (n : Nat) : (redReq op ty w n).val = n := by unfold redReq; split_ifs <;> rfl

theorem redReq_opc (op : AOp) (ty : ATy) (w : Wid) (n : Nat) : (redReq op ty w n).opc = op.opc := by
  unfold redReq
  split_ifs with hop
  · rw [hop]; rfl
  · rfl

theorem redReq_ty {op : AOp} (hop : op ≠ .exch) (ty : ATy) (w : Wid) (n : Nat) : (redReq op ty w n).ty = ty.code := by
  rw [redReq, if_neg hop]

theorem reductionsOnDeferredPages : Claims.ReductionsOnDeferredPages := by
  intro h m d a v s s' s'' x mp he c off val want
  refine ⟨fun hp hw ht hok hlog i hi => ?forms, fun hp ht i hi => ?traps⟩
  case forms =>
    obtain ⟨t, w, hnext, hthread, hat, hothers, hmem, hkept, hcounts, hlogged⟩ :=
      forms_of_recording (translated_of_eq ht) he (fun u => l1Only_acquireAt u x.blk x.coreId (acquires m.ord))
        ((exec_reduces he hi).trans ((reduce_translated hp ht fun hrec => absurd hrec (by decide)).trans (if_pos rfl)))
        hok (.inr hlog)
    refine ⟨t, w, _, hnext, hthread, hat, hothers, hmem, hkept, hlogged, redReq_opc .., fun hop => redReq_ty hop .., ?_, rfl⟩
    rw [mkRec_val (redReq_val m.op m.ty m.wid val ▸ dataOf_lt_word hw ..), redReq_val]
  case traps =>
    have hfetch : ∃ fpx, exec i s = fetchOp h s x m d a v fpx := by
      simp only [List.mem_cons, List.not_mem_nil, or_false] at hi
      rcases hi with rfl | rfl <;> exact ⟨_, guarded_true he.1 he.2 _⟩
    obtain ⟨fpx, hfetch⟩ := hfetch
    rw [fetchOp, atomic] at hfetch
    exact hfetch.trans ((checked_of_none (hp.checkWid _) _).trans (access_trap ht (by decide)))

end Sys2Proof.Machine

/-- Settles O23: on a deferred page a store or a reduction forms one record, which `forms_of_recording` describes. -/
theorem recordsAreFormedOnDeferredPages : Obligations.RecordsAreFormedOnDeferredPages :=
  ⟨Sys2Proof.Machine.storesOnDeferredPagesFormRecords, Sys2Proof.Machine.reductionsOnDeferredPages⟩
end

section
/-! PROOF. Atomics and swaps on object memory, and the integer operators (O26). -/

namespace Sys2Proof.Machine

open Sys2Proof

variable {i : Instr} {h : Hdr} {s s' t : State} {x : Cx} {mp : Mapped} {m : AtMod} {a : CapAddr} {v : RC}

/-! ### Atomics (R173, R174) -/

/-- The words of an old value that holds no poison. -/
theorem lands_atomOld {d : VReg} {w : Wid} (hclean : ∀ j, j < w.bytes → poisonedAt s mp j = false) :
    Lands d w.bytes false (mp.byte s) (fun _ => false) (atomOld s mp d w.bytes) := by
  rw [atomOld_eq_loadVals]
  exact (lands_loadVals ..).clean hclean

/-- An atomic that writes, and the acquire of its order. -/
theorem objWrite_atomic (hwf : memoryWf s) (hws : mp.loc.ws = false) (hcmp : pageCmp mp.pe = false) (obj off : Nat) (w : Wid)
    (hclean : ∀ j, j < w.bytes → poisonedAt s mp j = false) (new : Nat) (sc : Option Scope) :
    ObjWrite s (acquireAt (performAtomic s x mp obj off w.bytes (some new)) x.blk x.coreId sc) (mp.key s) mp.loc.addr w.bytes
        (fun j => BitVec.ofNat 8 (new / 256 ^ j)) false
      ∧ (acquireAt (performAtomic s x mp obj off w.bytes (some new)) x.blk x.coreId sc).poison = s.poison := by
  obtain ⟨ow, hpoison⟩ := objWrite_performAtomic (x := x) hwf.1 hws hcmp obj off (Wid.bytes_pos w) (Wid.bytes_lt w) hclean new
  have hrest := acquireAt_rest (performAtomic s x mp obj off w.bytes (some new)) x.blk x.coreId sc
  exact ⟨ow.cores hrest, (congrArg State.poison hrest :).trans hpoison⟩

/-- An atomic of a permitted access that translates. -/
theorem atomic_translated {w : Wid} {ret fadd recd : Bool} {k : State → Mapped → Bool → Cap → Nat → Out}
    (hp : Permits (rdA s x.thr a.a) (if ret then [0, 1, 3] else [1, 3]) (capOff s x.thr a) w.bytes)
    (ht : translate s x.blk.ctx (some x.blk.launch)
      ⟨(rdA s x.thr a.a).obj, (capOff s x.thr a).toNat, if ret then .rmwRet else .rmw, false, fadd⟩ = (s', .ok mp recd))
    (hmig : recd = false → migrationAt s' mp.peAddr = none) :
    atomic s x a w ret fadd k = k s' mp recd (rdA s x.thr a.a) (capOff s x.thr a).toNat :=
  (checked_of_none (hp.checkWid _) _).trans (access_ok ht fun _ => hmig)

theorem atomicsOnObjectMemory : Claims.AtomicsOnObjectMemory := by
  intro h m d a v s s' x mp he c off n old r new reaches hwf hws hcmp hmig hclean
  have hold : leNat (readMapped s' mp n) = old := by rw [readMapped_eq_map]
  have hwrite := objWrite_atomic (x := x) hwf hws hcmp c.obj off.toNat m.wid hclean r.1 (acquires m.ord)
  refine ⟨fun hp ht p hi => ?returns, fun hp ht i hi => ?reduces⟩
  case returns =>
    obtain ⟨i, fpx⟩ := p
    let q : Pend := ⟨false, atomOld s' mp d n, none, if h.nf then 0 else r.2, fpx⟩
    have hgo : exec i s = goOn h (acquireAt (performAtomic s' x mp c.obj off.toNat n (some r.1)) x.blk x.coreId (acquires m.ord)) x
        (pendTo x.thr q) := by
      rw [exec_fetches he hi, fetchOp, atomic_translated (ret := true) hp ht fun _ => hmig, (translated_of_eq ht).dataOf]
      dsimp only
      rw [hold]; rfl
    obtain ⟨hnext, hat, hkept, hdram⟩ := goOn_written (translated_of_eq ht) he hwrite.1 hwrite.2 hgo rfl
      ((Kept.refl { parts := [.pend] } x.thr).pend (List.mem_singleton_self _) _)
    exact ⟨_, _, q, hnext, hat, hkept, hdram, rfl, rfl, rfl, rfl, lands_atomOld hclean⟩
  case reduces =>
    have hgo : exec i s = goOn h (acquireAt (performAtomic s' x mp c.obj off.toNat n (some r.1)) x.blk x.coreId (acquires m.ord)) x
        x.thr := by
      rw [exec_reduces he hi, reduce_translated hp ht fun _ => hmig, if_neg Bool.false_ne_true, hold]
    obtain ⟨hnext, hat, hkept, hdram⟩ := goOn_written (translated_of_eq ht) he hwrite.1 hwrite.2 hgo rfl (Kept.refl {} _)
    exact ⟨_, _, hnext, hat, hkept, hdram⟩

/-! ### Compare-and-swap (R173) -/

theorem compareSwap_swaps {w : Wid} {ord : AOrd} {d : VReg} {cmp : Nat} (he : Executes h s x)
    (hi : exec i s = compareSwap h s x w ord d a cmp (dataOf s x.thr w (.v d)))
    (hwf : memoryWf s') (hws : mp.loc.ws = false) (hcmp : pageCmp mp.pe = false) (hmig : migrationAt s' mp.peAddr = none)
    (ht : translate s x.blk.ctx (some x.blk.launch)
      ⟨(rdA s x.thr a.a).obj, (capOff s x.thr a).toNat, .rmwRet, false, false⟩ = (s', .ok mp false))
    (hp : Permits (rdA s x.thr a.a) [0, 1, 3] (capOff s x.thr a) w.bytes)
    (hclean : ∀ j, j < w.bytes → poisonedAt s' mp j = false) :
    ∃ t u q, exec i s = .next t ∧ At (nextSlot x.thr.pc) s h u ∧ Kept { parts := [.pend] } x.thr u
      ∧ u.pend = x.thr.pend ++ [q] ∧ q.cap = none ∧ q.setsFpx = false ∧ Lands d w.bytes false (mp.byte s') (fun _ => false) q.vals
      ∧ (leNat ((List.range w.bytes).map (mp.byte s')) = cmp →
          DramWrite s' t x u (mp.key s') mp.loc.addr w.bytes (storeByte s x.thr (.v d)) false)
      ∧ (¬ leNat ((List.range w.bytes).map (mp.byte s')) = cmp → OnlyThread s' { t with cores := s'.cores } x.tid u) := by
  have tr := translated_of_eq ht
  let q : Pend := pendVals (atomOld s' mp d w.bytes)
  let done : Thread := (pendTo x.thr q).done s.cycle h
  have hkept : Kept { parts := [.pend] } x.thr (pendTo x.thr q) := (Kept.refl _ x.thr).pend (List.mem_singleton_self _) _
  rw [compareSwap, atomic_translated (ret := true) hp ht fun _ => hmig, readMapped_eq_map] at hi
  by_cases hhit : leNat ((List.range w.bytes).map (mp.byte s')) = cmp
  · obtain ⟨ow, hpoison⟩ := objWrite_atomic (x := x) hwf hws hcmp (rdA s x.thr a.a).obj (capOff s x.thr a).toNat w hclean
      (dataOf s x.thr w (.v d)) (acquires ord)
    simp only [hhit, if_true] at hi
    obtain ⟨hnext, hat, hkept, hdram⟩ := goOn_written tr he (ow.congr fun j hj => dataOf_byte s x.thr w (.v d) hj) hpoison hi rfl hkept
    exact ⟨_, _, q, hnext, hat, hkept, rfl, rfl, rfl, lands_atomOld hclean, fun _ => hdram, fun hmiss => absurd hhit hmiss⟩
  · simp only [hhit, if_false] at hi
    have hrest : { acquireAt (performAtomic s' x mp (rdA s x.thr a.a).obj (capOff s x.thr a).toNat w.bytes none) x.blk x.coreId
        (acquires ord) with cores := s'.cores } = s' :=
      (congrArg (fun z : State => { z with cores := s'.cores }) (acquireAt_rest ..) :).trans (performAtomic_none_rest ..)
    generalize acquireAt _ _ _ _ = t at hi hrest
    have hcycle : t.cycle = s.cycle := (congrArg State.cycle hrest :).trans tr.cycle
    refine ⟨_, done, q, hi.trans (by rw [goOnPend, goOn, hcycle]), at_done s h (pendTo x.thr q) x.thr rfl, hkept.done _ _, rfl, rfl, rfl,
      lands_atomOld hclean, fun hh => absurd hh hhit, fun _ => ?_⟩
    exact onlyThread_cores hrest (tr.curCx.trans he.1) _

theorem compareAndSwap : Claims.CompareAndSwap := by
  intro h wid ord d a v vc s s' x mp he c off hwf hws hcmp hmig ht p hp
  rcases List.mem_cons.mp hp with rfl | hp
  · exact compareSwap_swaps he (guarded_true he.1 he.2 _) hwf hws hcmp hmig ht
  · obtain rfl := List.mem_singleton.mp hp
    exact compareSwap_swaps he (guarded_true he.1 he.2 _) hwf hws hcmp hmig ht

/-! ### The integer operators (R173) -/

/-- The number that an integer atomic compares. -/
def atomVal (ty : ATy) (w n : Nat) : Int :=
  if ty = .si then (if n < 2 ^ (w - 1) then n else (n : Int) - 2 ^ w) else n

theorem toInt_ofNat_lt {w n : Nat} (hw : 0 < w) (hn : n < 2 ^ w) : (BitVec.ofNat w n).toInt = atomVal .si w n := by
  have hpow : 2 ^ w = 2 * 2 ^ (w - 1) := by rw [← Nat.pow_succ', Nat.succ_eq_add_one, Nat.sub_add_cancel hw]
  have hneg : 2 * n < 2 ^ w ↔ n < 2 ^ (w - 1) := by omega
  rw [BitVec.toInt_eq_toNat_cond, BitVec.toNat_ofNat, Nat.mod_eq_of_lt hn, atomVal, if_pos rfl, Nat.cast_pow, Nat.cast_ofNat]
  simp only [hneg]

/-- Whether an integer atomic takes the old value for the less. -/
def atomLe (sgn : Bool) (w old v : Nat) : Bool :=
  if sgn then decide ((BitVec.ofNat w old).toInt ≤ (BitVec.ofNat w v).toInt) else decide (old ≤ v)

theorem atomLe_iff {w old v : Nat} (hw : 0 < w) (ho : old < 2 ^ w) (hv : v < 2 ^ w) (ty : ATy) (hty : ty = .si ∨ ty = .ns) :
    atomLe (ty == .si) w old v = true ↔ atomVal ty w old ≤ atomVal ty w v := by
  rcases hty with rfl | rfl
  · rw [← toInt_ofNat_lt hw ho, ← toInt_ofNat_lt hw hv]
    exact decide_eq_true_iff
  · exact decide_eq_true_iff.trans Int.ofNat_le.symm

theorem atomicOp_integer (op : AOp) {ty : ATy} (hty : ty = .si ∨ ty = .ns) (w old v : Nat) :
    atomicOp op ty w old v = (atomInt op (ty == .si) w old v, 0) := by
  rcases hty with rfl | rfl <;> rfl

theorem atomInt_min (sgn : Bool) (w old v : Nat) : atomInt .min sgn w old v = if atomLe sgn w old v then old else v := rfl
theorem atomInt_max (sgn : Bool) (w old v : Nat) : atomInt .max sgn w old v = if atomLe sgn w old v then v else old := rfl

theorem integerAtomicOperators : Claims.IntegerAtomicOperators := by
  intro w old v ty hw ho hv hty val r
  have hr : ∀ op, r op = atomInt op (ty == .si) w old v := fun op => congrArg Prod.fst (atomicOp_integer op hty w old v)
  have hle := atomLe_iff hw ho hv ty hty
  have hval : val = atomVal ty w := rfl
  clear_value r val
  subst hval
  refine ⟨(hr _).trans rfl, fun k => by rw [hr]; exact Nat.testBit_and .., fun k => by rw [hr]; exact Nat.testBit_or ..,
    fun k => by rw [hr]; exact Nat.testBit_xor .., (hr _).trans rfl, ?_, ?_, ?_, ?_, fun op => by rw [atomicOp_integer op hty]⟩
  all_goals
    rw [hr]
    simp only [atomInt_min, atomInt_max]
    split_ifs with hb
  · exact .inl rfl
  · exact .inr rfl
  · rw [min_eq_left (hle.mp hb)]
  · rw [min_eq_right (le_of_lt (not_le.mp (hle.not.mp hb)))]
  · exact .inr rfl
  · exact .inl rfl
  · rw [max_eq_right (hle.mp hb)]
  · rw [max_eq_left (le_of_lt (not_le.mp (hle.not.mp hb)))]

end Sys2Proof.Machine

/-- Settles O26: an atomic reads and writes its location at once, and the compares of integer MIN and MAX are those of their values. -/
theorem atomicsAndSwaps : Obligations.AtomicsAndSwaps :=
  ⟨Sys2Proof.Machine.atomicsOnObjectMemory, Sys2Proof.Machine.compareAndSwap, Sys2Proof.Machine.integerAtomicOperators⟩
end

section
/-! PROOF. COMMIT, DAGE, STEPINC and DQRY (O27). -/

namespace Sys2Proof.Machine

open Sys2Proof

variable {i : Instr} {h : Hdr} {s s' t : State} {x : Cx}

theorem Kept.region {c : Touch} {u w : Thread} (k : Kept c u w) (hc : Part.restart ∈ c.parts) (r : Counts) :
    Kept c u { w with region := r } where
  v := k.v
  p := k.p
  a := k.a
  parts q h1 h2 := by
    cases q
    case restart => exact absurd hc h1
    all_goals exact k.parts _ h1 h2

theorem Kept.markToken {c : Touch} {u w : Thread} (k : Kept c u w) (hc : Part.tokens ∈ c.parts) (r : VReg) (of : TokenOf) :
    Kept c u (markToken w r of) := k.tokens hc _

/-! ### Commits (R26, R178, R179) -/

theorem tokenRoom_room (hr : x.thr.tokens.length < 8) (k : Out) : tokenRoom s x k = k := if_pos hr

theorem tokenRoom_full (hr : ¬ x.thr.tokens.length < 8) (k : Out) : tokenRoom s x k = waitAt s x (.stalled .tokenLimit) := if_neg hr

/-- A commit is in progress or is opened; nothing else changes. -/
theorem openCommit_eq (s : State) (x : Cx) (scope : CommitScope) (owner : Owner) (k : Nat) :
    ∃ n cs, (openCommit s x scope owner k).1 = { s with nextId := n, commits := cs }
      ∧ ∃ c ∈ cs, c.id = (openCommit s x scope owner k).2 ∧ c.scope = scope ∧ c.owner = owner ∧ c.k = k := by
  unfold openCommit
  split
  next c hc =>
    have hkey := List.find?_some hc
    simp only [Bool.and_eq_true, beq_iff_eq] at hkey
    exact ⟨s.nextId, s.commits, rfl, c, List.mem_of_find?_eq_some hc, rfl, hkey.1.1, hkey.1.2, hkey.2⟩
  next => exact ⟨_, _, rfl, _, List.mem_append_right _ (List.mem_singleton_self _), rfl, rfl, rfl, rfl⟩

/-- A state with the commits of another, and perhaps its launches. -/
def withoutCommits (s : State) (keepL : Bool) (t : State) : State :=
  { t with commits := s.commits, nextId := s.nextId, launches := if keepL then t.launches else s.launches }

/-- COMMIT with room for a token (R179): its commit holds the token, and the thread counts it. -/
theorem commitOf_opens {s1 : State} {d : VReg} {scope : CommitScope} {group : Nat} {keepL : Bool} (he : Executes h s x)
    (hs1 : { s1 with launches := if keepL then s1.launches else s.launches } = s)
    (hi : exec i s = commitOf h s1 x d scope group) :
    ∃ t w id, exec i s = .next t
      ∧ Did s (withoutCommits s keepL t) x h { parts := [.counts, .tokens, .restart] } w
      ∧ w.rpaddr = x.thr.rpaddr ∧ w.rpStack = x.thr.rpStack
      ∧ w.region = (if x.thr.trap.isSome ∧ x.thr.region.k scope = x.thr.counts.k scope then x.thr.region.bump scope else x.thr.region)
      ∧ w.counts = x.thr.counts.bump scope ∧ w.tokens = x.thr.tokens ++ [⟨d, .commit id, true⟩]
      ∧ ∃ c ∈ t.commits, c.id = id ∧ c.scope = scope ∧ c.owner = ownerOf x group scope ∧ c.k = (x.thr.counts.bump scope).k scope
          ∧ (x.tid, d) ∈ c.tokens := by
  obtain ⟨n, cs, hopen, c, hmem, hid, hscope, howner, hk⟩ :=
    openCommit_eq s1 x scope (ownerOf x group scope) ((x.thr.counts.bump scope).k scope)
  unfold commitOf commitCounts at hi
  dsimp only at hi
  rw [hopen] at hi
  generalize (openCommit s1 x scope (ownerOf x group scope) ((x.thr.counts.bump scope).k scope)).2 = id at hi hid
  let mark (c : Commit) : Commit := if c.id = id then { c with tokens := c.tokens ++ [(x.tid, d)] } else c
  let region := if x.thr.trap.isSome ∧ x.thr.region.k scope = x.thr.counts.k scope then x.thr.region.bump scope else x.thr.region
  let u := markToken { x.thr with counts := x.thr.counts.bump scope, region := region } d (.commit id)
  have hcycle : s1.cycle = s.cycle := (congrArg State.cycle hs1 :)
  have hput : withoutCommits s keepL (setThread { s1 with nextId := n, commits := cs.map mark } x.tid (u.done s.cycle h)) =
      setThread s x.tid (u.done s.cycle h) := by
    have hblocks : s1.blocks = s.blocks := (congrArg State.blocks hs1 :)
    rw [setThread_eq_putThread, setThread_eq_putThread]
    refine (?_ : _ = { withoutCommits s keepL s1 with blocks := putThread s1.blocks x.tid (u.done s.cycle h) }).trans ?_
    · rfl
    · have hs1' : withoutCommits s keepL s1 = s :=
        (congrArg (fun z : State => { z with commits := s.commits, nextId := s.nextId }) hs1 :)
      rw [hs1', hblocks]
  have hmark : mark c = { c with tokens := c.tokens ++ [(x.tid, d)] } := if_pos hid
  have hkept : Kept { parts := [.counts, .tokens, .restart] } x.thr u :=
    (((Kept.refl { parts := [.counts, .tokens, .restart] } x.thr).counts (by decide) (x.thr.counts.bump scope)).region (by decide)
      region).markToken (by decide) d (.commit id)
  refine ⟨setThread { s1 with nextId := n, commits := cs.map mark } x.tid (u.done s.cycle h), u.done s.cycle h, id,
    hi.trans (by rw [← hcycle]; rfl), hput.symm ▸ did_goOn he.1 rfl hkept, rfl, rfl, rfl, rfl, rfl,
    mark c, ?_, ?_⟩
  · rw [setThread_eq_putThread]; exact List.mem_map_of_mem hmem
  · rw [hmark]
    exact ⟨hid, hscope, howner, hk, List.mem_append_right _ (List.mem_singleton_self _)⟩

theorem commitsOpenTokens : Claims.CommitsOpenTokens := by
  intro h d group s x he room coop me k opens
  have hT := (exec_commitT h d s).trans (guarded_true he.1 he.2 _)
  have hB := (exec_commitB h d s).trans (guarded_true he.1 he.2 _)
  have hG := (exec_commitG h d s).trans (guarded_true he.1 he.2 _)
  have hP := (exec_commitP h d group s).trans (guarded_true he.1 he.2 _)
  refine ⟨fun hr => ?t, fun hr => ?b, fun hr hc => ?g, fun hr i hi => ?full, fun hc => ?illegal, fun hr hg => ?peer,
    fun g hr hg => ⟨fun hj => ?p, fun hj => ?joined⟩⟩
  case t => exact commitOf_opens he rfl (hT.trans (tokenRoom_room hr _))
  case b => exact commitOf_opens he rfl (hB.trans (tokenRoom_room hr _))
  case g => exact commitOf_opens he rfl (hG.trans ((if_pos hc).trans (tokenRoom_room hr _)))
  case full =>
    simp only [List.mem_cons, List.not_mem_nil, or_false] at hi
    rcases hi with rfl | rfl | rfl
    · exact waits_waitAt he.1 (hT.trans (tokenRoom_full hr _))
    · exact waits_waitAt he.1 (hB.trans (tokenRoom_full hr _))
    · exact waits_waitAt he.1 (hP.trans (tokenRoom_full hr _))
  case illegal => exact hG.trans (if_neg hc)
  case peer =>
    rw [tokenRoom_room hr, hg] at hP
    refine goes_goOn he hP rfl (((Kept.refl _ x.thr).counts (by simp) _).wrV (by simp) ..) ⟨?_, rfl⟩
    rw [vreg_done, vreg_wrV, if_pos rfl]; rfl
  case p =>
    rw [tokenRoom_room hr, hg] at hP
    refine commitOf_opens he ?_ (hP.trans (if_neg (by rw [hj]; exact Bool.false_ne_true)))
    exact modLaunch_rest ..
  case joined =>
    rw [tokenRoom_room hr, hg] at hP
    exact waits_waitAt he.1 (hP.trans (if_pos hj))

/-! ### Aged adds, steps and the query (R181 to R183) -/

theorem stepOf_eq {n : Nat} {ctx : Context} (hc : ctxOf s n = some ctx) : stepOf s n = ctx.stepReg := by rw [stepOf, hc]

theorem exec_dage_writes {a : CapAddr} {v : Src} {mp : Mapped} {ctx : Context} (he : Executes h s x) (hctx : ctxOf s x.blk.ctx = some ctx)
    (hp : Permits (rdA s x.thr a.a) [1, 3] (capOff s x.thr a) 8)
    (ht : translate s x.blk.ctx (some x.blk.launch)
      ⟨(rdA s x.thr a.a).obj, (capOff s x.thr a).toNat, .rmw, false, false⟩ = (s', .ok mp false))
    (hwf : memoryWf s') (hws : mp.loc.ws = false) (hcmp : pageCmp mp.pe = false) (hmig : migrationAt s' mp.peAddr = none)
    (hclean : ∀ j, j < 8 → poisonedAt s' mp j = false) {r : DWord}
    (hr : r = agedAdd (BitVec.ofNat 64 (leNat ((List.range 8).map (mp.byte s')))) (src32 s x.thr v) (ctx.stepReg.extractLsb' 0 16)
      (objL mp.oe).toNat) :
    ∃ t w, exec (.dage h a v) s = .next t ∧ At (nextSlot x.thr.pc) s h w ∧ Kept {} x.thr w
      ∧ DramWrite s' t x w (mp.key s') mp.loc.addr 8 (fun j => r.extractLsb' (8 * j) 8) false := by
  have tr := translated_of_eq ht
  have hstep : stepOf s' x.blk.ctx = ctx.stepReg := stepOf_eq (by rw [ctxOf, tr.contexts]; exact hctx)
  obtain ⟨ow, hpoison⟩ := objWrite_performAtomic (x := x) hwf.1 hws hcmp (rdA s x.thr a.a).obj (capOff s x.thr a).toNat
    (n := 8) (by decide) (by decide) hclean r.toNat
  have hgo : exec (.dage h a v) s =
      goOn h (performAtomic s' x mp (rdA s x.thr a.a).obj (capOff s x.thr a).toNat 8 (some r.toNat)) x x.thr := by
    rw [exec_dage, execDage, guarded_true he.1 he.2, atomic_translated (w := .w64) (ret := false) hp ht fun _ => hmig,
      if_neg Bool.false_ne_true, hstep, readMapped_eq_map, src32_congr tr.cycle tr.freeCtr, hr]
  obtain ⟨hnext, hat, hkept, hdram⟩ := goOn_written tr he (ow.congr fun j _ => (extractLsb'_byte r j).symm) hpoison hgo rfl (Kept.refl {} _)
  exact ⟨_, _, hnext, hat, hkept, hdram⟩

/-- The record of an aged add: the value in its low word, the stamp in its high one. -/
theorem aged_words (v : Word) (stamp : BitVec 16) :
    BitVec.ofNat 32 (v.toNat + 2 ^ 32 * stamp.toNat) = v
      ∧ BitVec.ofNat 32 ((v.toNat + 2 ^ 32 * stamp.toNat) / 2 ^ 32) = stamp.setWidth 32 := by
  constructor <;> apply BitVec.eq_of_toNat_eq <;> simp only [BitVec.toNat_ofNat, BitVec.toNat_setWidth] <;> omega

theorem exec_dage_records {a : CapAddr} {v : Src} {mp : Mapped} {ctx : Context} (he : Executes h s x) (hctx : ctxOf s x.blk.ctx = some ctx)
    (hp : Permits (rdA s x.thr a.a) [1, 3] (capOff s x.thr a) 8)
    (ht : translate s x.blk.ctx (some x.blk.launch)
      ⟨(rdA s x.thr a.a).obj, (capOff s x.thr a).toNat, .rmw, false, false⟩ = (s', .ok mp true)) {q : RecReq}
    (hq : q = ⟨opcAgeAdd, 0, 3, (src32 s x.thr v).toNat + 2 ^ 32 * (ctx.stepReg.extractLsb' 0 16).toNat, 0, objL mp.oe⟩)
    (hok : formRecs s' x.tid mp [q] = .ok t) :
    Forms (.dage h a v) h s s' x (mkRec s' x.tid x.blk x.thr mp q) := by
  have tr := translated_of_eq ht
  have hstep : stepOf s' x.blk.ctx = ctx.stepReg := stepOf_eq (by rw [ctxOf, tr.contexts]; exact hctx)
  refine forms_of_recording (f := id) tr he (fun _ => ⟨rfl, fun _ => rfl⟩) ?_ hok (.inl (by rw [hq]; rfl))
  rw [exec_dage, execDage, guarded_true he.1 he.2, atomic_translated (w := .w64) (ret := false) hp ht fun hrec => absurd hrec (by decide),
    if_pos rfl, hstep, src32_congr tr.cycle tr.freeCtr, hq]
  rfl

/-- STEPINC, with and without a destination. -/
theorem stepinc_counts {u : Thread} {parts : List Part} {ctx : Context} (he : Executes h s x) (hctx : ctxOf s x.blk.ctx = some ctx)
    (hi : exec i s = goOn h (modCtx s x.blk.ctx (fun c => { c with stepReg := stepOf s x.blk.ctx + 1 })) x u)
    (hpc : u.pc = x.thr.pc) (k : Kept { parts := parts } x.thr u) :
    ∃ t, exec i s = .next t ∧ Did s { t with contexts := s.contexts } x h { parts := parts } (u.done s.cycle h)
      ∧ ctxOf t x.blk.ctx = some { ctx with stepReg := ctx.stepReg + 1 } ∧ ∀ n, n ≠ x.blk.ctx → ctxOf t n = ctxOf s n := by
  have hmod := ctxOf_modCtx s x.blk.ctx
  have hrest : modCtx s x.blk.ctx (fun c => { c with stepReg := stepOf s x.blk.ctx + 1 }) =
      setCtx s x.blk.ctx { ctx with stepReg := ctx.stepReg + 1 } := by rw [modCtx, hctx, stepOf_eq hctx]
  rw [hrest] at hi
  refine ⟨_, hi, ?_, ?_, fun n hn => ?_⟩
  · have hput : { setThread (setCtx s x.blk.ctx { ctx with stepReg := ctx.stepReg + 1 }) x.tid (u.done s.cycle h) with
        contexts := s.contexts } = setThread s x.tid (u.done s.cycle h) := by rw [setThread_eq_putThread, setThread_eq_putThread]; rfl
    exact hput ▸ did_goOn he.1 hpc k
  · rw [setThread_eq_putThread]; exact Assoc.get_set_self ..
  · rw [setThread_eq_putThread]; exact Assoc.get_set_ne _ _ hn

theorem agedAddsStepAndQuery : Claims.AgedAddsStepAndQuery := by
  intro h a v d s s' s'' x mp ctx he hctx c off val stamp next reaches counted
  refine ⟨fun ⟨hp, ht⟩ hwf hws hcmp hmig hclean => ?writes, fun ⟨hp, ht⟩ hok => ?records, ?step, ?stepRet, ?query⟩
  case writes => exact exec_dage_writes he hctx hp ht hwf hws hcmp hmig hclean rfl
  case records =>
    obtain ⟨t, w, hnext, hthread, hat, hothers, hmem, hkept, _, hlogged⟩ := exec_dage_records he hctx hp ht rfl hok
    obtain ⟨hvalue, hvalhi⟩ := aged_words val stamp
    exact ⟨t, w, _, hnext, hthread, hat, hothers, hmem, hkept, hlogged, rfl, hvalue, hvalhi, rfl, by simp [mkRec]⟩
  case step =>
    obtain ⟨t, hnext, hdid, hctx'⟩ := stepinc_counts he hctx ((exec_stepinc h none s).trans (guarded_true he.1 he.2 _)) rfl (Kept.refl _ _)
    exact ⟨t, _, hnext, hdid, trivial, hctx'⟩
  case stepRet =>
    obtain ⟨t, hnext, hdid, hctx'⟩ := stepinc_counts he hctx ((exec_stepinc h (some d) s).trans (guarded_true he.1 he.2 _)) rfl
      ((Kept.refl _ x.thr).pend (List.mem_singleton_self _) _)
    refine ⟨t, _, hnext, hdid, ?_, hctx'⟩
    rw [stepOf_eq hctx]; rfl
  case query =>
    have hquota : quotaBytes s x.blk / 4096 = ctx.params.quota := by rw [quotaBytes, hctx]; exact Nat.mul_div_cancel_left _ (by decide)
    have hi := (exec_dqry h d s).trans (guarded_true he.1 he.2 _)
    rw [hquota] at hi
    exact goOnPend_sends he hi

end Sys2Proof.Machine

/-- Settles O27: a COMMIT's token stands for a commit that is in progress or opened, and the rest of the class is as its rules give it. -/
theorem commitsAgedAddsAndSteps : Obligations.CommitsAgedAddsAndSteps :=
  ⟨Sys2Proof.Machine.commitsOpenTokens, Sys2Proof.Machine.agedAddsStepAndQuery⟩
end

section
/-! SUPPORT. Copy requests at their engine (R186, R394), and fields and packets as bytes (R190). -/

namespace Sys2Proof.Machine

open Sys2Proof

variable {i : Instr} {h : Hdr} {s t : State} {x : Cx}

/-! ### Requests -/

theorem sealOf_open {ctx : Nat} {src : Side} (ho : openSide s ctx src) (kind : CopyKind) (dst : Side) (len : Nat) :
    sealOf s ctx kind dst src len = .plain := by
  cases src with
  | spad slot a => rfl
  | obj o off =>
    have hsealed : sealedBy s ctx o = none := ho
    rw [sealOf, hsealed]

/-- A request whose source no storage window seals goes to its engine as it is, with a number of its own. -/
theorem sendReq_open {q : CopyReq} (ho : openSide s q.ctx q.src) (e : Nat) :
    sendReq s e q = setEngine { s with nextId := s.nextId + 1 } e
      { engineOf s e with reqs := (engineOf s e).reqs ++ [{ q with id := s.nextId }] } := by
  rw [sendReq, sealOf_open ho]

theorem sendCopy_done {tok : VReg} {q : CopyReq} (he : Executes h s x) (hi : exec i s = sendCopy h s x tok q) (hlen : q.len = 0) :
    Goes i s x h { v := [tok] } (fun w => w.vreg tok = 0) := by
  rw [sendCopy, if_pos hlen] at hi
  refine goes_goOn he hi rfl ((Kept.refl _ x.thr).wrV (List.mem_singleton_self _) ..) ?_
  rw [vreg_done, vreg_wrV, if_pos rfl]

theorem sendCopy_requests {tok : VReg} {q : CopyReq} {post : CopyReq → Prop} (he : Executes h s x)
    (hi : exec i s = sendCopy h s x tok q) (hlen : q.len ≠ 0) (ho : openSide s q.ctx q.src) (hctx : q.ctx = x.blk.ctx)
    (hlaunch : q.launch = some x.blk.launch) (htok : q.token = some (x.tid, tok)) (hfail : q.fail = none) (hsealed : q.sealed = none)
    (hpost : post { q with id := s.nextId }) : Requests i s x h tok post := by
  rw [sendCopy, if_neg hlen, sendReq_open ho] at hi
  let u := markToken x.thr tok (.copy s.nextId)
  let sent := setEngine { s with nextId := s.nextId + 1 } (engineFor x.blk.cluster)
    { engineOf s (engineFor x.blk.cluster) with reqs := (engineOf s (engineFor x.blk.cluster)).reqs ++ [{ q with id := s.nextId }] }
  have hput : { setThread sent x.tid (u.done s.cycle h) with engines := s.engines, nextId := s.nextId } =
      setThread s x.tid (u.done s.cycle h) := by rw [setThread_eq_putThread, setThread_eq_putThread]; rfl
  refine ⟨setThread sent x.tid (u.done s.cycle h), u.done s.cycle h, { q with id := s.nextId }, hi, ?_, rfl, ?_, fun e => ?_, rfl, hctx,
    hlaunch, htok, hfail, hsealed, hpost⟩
  · exact hput.symm ▸ did_goOn he.1 rfl ((Kept.refl _ x.thr).markToken (List.mem_singleton_self _) ..)
  · rw [setThread_eq_putThread]; rfl
  · rw [setThread_eq_putThread]
    refine (engineOf_setEngine { s with nextId := s.nextId + 1 } (engineFor x.blk.cluster) e _).trans ?_
    split_ifs with he
    · rw [he]
    · rfl

/-! ### The checks of R186 that pass -/

theorem Why.first_none {a b : Option Why} (ha : a = none) : Why.first a b = b := by rw [ha]; rfl

theorem Why.first_some {a b : Option Why} {w : Why} (ha : a = some w) : Why.first a b = some w := by rw [ha]; rfl

theorem offsetAlign_none {d : SideOf} (ha : d.off % 16 = 0) : offsetAlign d = none := if_pos ha

theorem lengthAlign_none {n : Nat} (hn : n % 16 = 0) : lengthAlign n = none := if_pos hn

theorem destTyped_none {b : Block} {d : SideOf} {n : Nat} (hd : d.cap = none → typedWhy b d.off.toNat n = none) :
    destTyped b d n = none := by
  unfold destTyped
  cases hc : d.cap with
  | none => exact hd hc
  | some c => rfl

theorem indexWhy_none {b : Block} {a n : Nat} (hw : inWindow b (a : Int) (4 * n) = true) : indexWhy b a n = none := by
  rw [indexWhy, spadBound, if_pos hw]

theorem indexAlign_none {a : Nat} (ha : a % 4 = 0) : indexAlign a = none := if_pos ha

theorem indices_eq_map (b : Block) (a n : Nat) : indices b a n = (List.range n).map (fun k => b.spad.readNat (a + 4 * k) 4) := by
  rw [indices, rangeFrom_eq_range', List.range_eq_range']

/-! ### A field of bytes, and the bytes of words -/

/-- A field of a little-endian number is the number of its bytes. -/
theorem leNat_field (f : Nat → Byte) {N o n : Nat} (hn : o + n ≤ N) :
    leNat ((List.range N).map f) / 256 ^ o % 256 ^ n = leNat ((List.range n).map (fun j => f (o + j))) := by
  rw [← leNat_leBytes, leBytes_eq_map]
  refine congrArg leNat (List.map_congr_left fun j hj => ?_)
  have hlt : o + j < N := by have := List.mem_range.mp hj; omega
  rw [Nat.div_div_eq_div_mul, ← Nat.pow_add, leNat_byte, List.getD_eq_getElem?_getD, List.getElem?_map, List.getElem?_range hlt]; rfl

theorem wordBytes_length : ∀ ws : List Word, (wordBytes ws).length = 4 * ws.length
  | [] => rfl
  | w :: ws => by
    have ih := wordBytes_length ws
    rw [wordBytes] at ih
    rw [wordBytes, List.flatMap_cons, List.length_append, ih, leBytes_length, List.length_cons]; omega

theorem wordBytes_getD : ∀ (ws : List Word) (j : Nat), (wordBytes ws).getD j 0 = (ws.getD (j / 4) 0).extractLsb' (8 * (j % 4)) 8
  | [], j => by simp [wordBytes]
  | w :: ws, j => by
    rw [wordBytes, List.flatMap_cons]
    have hlen : (leBytes 4 w.toNat).length = 4 := leBytes_length ..
    by_cases hj : j < 4
    · rw [List.getD_append _ _ _ _ (by omega), leBytes_getD hj, Nat.div_eq_of_lt hj, Nat.mod_eq_of_lt hj, List.getD_cons_zero,
        extractLsb'_byte]
    · have ih := wordBytes_getD ws (j - 4)
      rw [wordBytes] at ih
      rw [List.getD_append_right _ _ _ _ (by omega), hlen, ih, show j / 4 = (j - 4) / 4 + 1 by omega, List.getD_cons_succ,
        show j % 4 = (j - 4) % 4 by omega]

end Sys2Proof.Machine
end

section
/-! PROOF. CPY, CPYG, CPYS and CPYQ (O28). -/

namespace Sys2Proof.Machine

open Sys2Proof

variable {h : Hdr} {s t : State} {x : Cx}

theorem elems_ne_zero {n : Nat} (hn : n ≠ 0) (k : Nat) : n * (4 * 2 ^ k) ≠ 0 :=
  Nat.mul_ne_zero hn (Nat.mul_ne_zero (by decide) (Nat.two_pow_pos k).ne')

theorem copiesAreRequested : Claims.CopiesAreRequested := by
  intro h tok dst src cap off idx cnt esz comb rsc s x he room d f g slot n es a list fits listed untyped done cpy cpyg cpys
  have hlist : indices x.blk a n = list := indices_eq_map ..
  have h1 : exec cpy s = _ := (exec_cpy ..).trans (guarded_true he.1 he.2 _)
  have h2 : exec cpyg s = _ := (exec_cpyg ..).trans (guarded_true he.1 he.2 _)
  have h3 : exec cpys s = _ := (exec_cpys ..).trans (guarded_true he.1 he.2 _)
  refine ⟨fun hr i hi => ?full, fun hr ⟨hd, hdal⟩ ⟨hf, hfal⟩ hn hty => ?cpy, fun hr hd hf hdal hfal hn => ?length,
    fun hr ⟨hd, hdal⟩ ⟨hg, hgal⟩ ⟨hwin, hal⟩ hty => ?cpyg, fun hr ⟨hg, hgal⟩ ⟨hf, hfal⟩ ⟨hwin, hal⟩ => ?cpys⟩
  case full =>
    simp only [List.mem_cons, List.not_mem_nil, or_false] at hi
    rcases hi with rfl | rfl | rfl
    · exact waits_waitAt he.1 (h1.trans (tokenRoom_full hr _))
    · exact waits_waitAt he.1 (h2.trans (tokenRoom_full hr _))
    · exact waits_waitAt he.1 (h3.trans (tokenRoom_full hr _))
  case cpy =>
    have hi := (h1.trans (tokenRoom_room hr _)).trans (checked_of_none ((Why.first_none hd).trans ((Why.first_none hf).trans
      ((Why.first_none (offsetAlign_none hdal)).trans ((Why.first_none (offsetAlign_none hfal)).trans
        ((Why.first_none (lengthAlign_none hn)).trans (destTyped_none hty)))))) _)
    exact ⟨sendCopy_done he hi, fun hn ho => sendCopy_requests he hi hn ho rfl rfl rfl rfl rfl ⟨rfl, rfl, rfl, rfl, rfl⟩⟩
  case length =>
    have hlen : lengthAlign n = some ⟨causeAlign, 0x11, BitVec.ofNat 32 n, 0⟩ := if_neg hn
    exact trapsOn_checked ((Why.first_none hd).trans ((Why.first_none hf).trans ((Why.first_none (offsetAlign_none hdal)).trans
      ((Why.first_none (offsetAlign_none hfal)).trans (Why.first_some hlen))))) (h1.trans (tokenRoom_room hr _))
  case cpyg =>
    have hi := (h2.trans (tokenRoom_room hr _)).trans (checked_of_none ((Why.first_none hd).trans ((Why.first_none hg).trans
      ((Why.first_none (indexWhy_none hwin)).trans ((Why.first_none (offsetAlign_none hdal)).trans
        ((Why.first_none (offsetAlign_none hgal)).trans ((Why.first_none (indexAlign_none hal)).trans (destTyped_none hty))))))) _)
    exact ⟨fun hn => sendCopy_done he hi (hn ▸ Nat.zero_mul _), fun hn ho =>
      sendCopy_requests he hi (elems_ne_zero hn _) ho rfl rfl rfl rfl rfl ⟨congrArg _ hlist, rfl, rfl, rfl, rfl, rfl⟩⟩
  case cpys =>
    have hi := (h3.trans (tokenRoom_room hr _)).trans (checked_of_none ((Why.first_none hg).trans ((Why.first_none hf).trans
      ((Why.first_none (indexWhy_none hwin)).trans ((Why.first_none (offsetAlign_none hgal)).trans
        ((Why.first_none (offsetAlign_none hfal)).trans (indexAlign_none hal)))))) _)
    exact ⟨fun hn => sendCopy_done he hi (hn ▸ Nat.zero_mul _), fun hn ho =>
      sendCopy_requests he hi (elems_ne_zero hn _) ho rfl rfl rfl rfl rfl
        ⟨congrArg (CopyKind.scatter es · comb) hlist, rfl, rfl, rfl, rfl, rfl⟩⟩

end Sys2Proof.Machine
end

section
/-! PROOF. The queue packet (O28). -/

namespace Sys2Proof.Machine

open Sys2Proof

variable {i : Instr} {h : Hdr} {s s' t : State} {x : Cx} {m ms : Mapped}

/-- A translated access is to the object that its entry describes. -/
theorem translate_entry {ctx : Nat} {l : Option Nat} {w : Want} {recd : Bool} (ht : translate s ctx l w = (t, .ok m recd)) :
    objEntry s ctx w.obj = some m.oe := by
  unfold translate at ht
  split at ht
  · cases ht
  next oe hoe =>
    rw [(Option.filter_eq_some_iff.mp hoe).1]
    extract_lets pg flt at ht
    split at ht
    · cases ht
    · split at ht
      split at ht
      · cases ht
      · split at ht
        · cases ht
        · extract_lets pe paddr deferred at ht
          split_ifs at ht <;> simp only [Prod.mk.injEq, Xl.ok.injEq, reduceCtorEq, and_false] at ht
          all_goals rw [← ht.2.1]

/-! ### The header and the packet (R190) -/

theorem two_pow_512 : (2 : Nat) ^ 512 = 256 ^ 64 := Nat.pow_mul 2 8 64

/-- A field of bytes of a queue's header. -/
theorem header_field {X : Nat} (hX : X < 256 ^ 64) (o n : Nat) :
    ((BitVec.ofNat 512 X).extractLsb' (8 * o) (8 * n)).toNat = X / 256 ^ o % 256 ^ n := by
  rw [BitVec.extractLsb'_toNat, BitVec.toNat_ofNat, two_pow_512, Nat.mod_eq_of_lt hX, Nat.shiftRight_eq_div_pow, Nat.pow_mul, Nat.pow_mul]

theorem header_size {X : Nat} (hX : X < 256 ^ 64) :
    ((BitVec.ofNat 512 X).extractLsb' (8 * 16) 5).toNat = X / 256 ^ 16 % 256 ^ 1 % 32 := by
  rw [BitVec.extractLsb'_toNat, BitVec.toNat_ofNat, two_pow_512, Nat.mod_eq_of_lt hX, Nat.shiftRight_eq_div_pow, Nat.pow_mul]
  generalize X / _ = y
  omega

/-- The number of n bytes of a mapped access. -/
def fieldOf (s : State) (m : Mapped) (o n : Nat) : Nat := leNat ((List.range n).map (fun j => m.byte s (o + j)))

theorem readMapped_field (s : State) (m : Mapped) {o n : Nat} (hn : o + n ≤ 64) :
    leNat (readMapped s m 64) / 256 ^ o % 256 ^ n = fieldOf s m o n := by
  rw [readMapped_eq_map, leNat_field _ hn, fieldOf]

theorem readMapped_lt (s : State) (m : Mapped) : leNat (readMapped s m 64) < 256 ^ 64 := by
  have hlen : (readMapped s m 64).length = 64 := by rw [readMapped_eq_map, List.length_map, List.length_range]
  exact lt_of_lt_of_eq (leNat_lt _) (congrArg (256 ^ ·) hlen)

/-- Byte j of a packet: SEQ in bytes 2 and 3, the thread's registers elsewhere. -/
def packetByte (s : State) (u : Thread) (p : VReg) (wr j : Nat) : Byte :=
  if j = 2 ∨ j = 3 then BitVec.ofNat 8 (wr / 256 ^ (j - 2)) else storeByte s u (.v (p + BitVec.ofNat 6 (j / 4))) (j % 4)

theorem withSeq_length (ws : List Word) (k : Nat) : (withSeq ws k).length = ws.length := by cases ws <;> rfl

theorem rdVs_length (s : State) (u : Thread) : ∀ (n : Nat) (r : VReg), (rdVs s u r n).length = n
  | 0, _ => rfl
  | n + 1, r => congrArg (· + 1) (rdVs_length s u n (r + 1))

theorem seq_byte (w : Word) (k : Nat) {j : Nat} (hj : j < 4) :
    (BitVec.ofNat 16 k ++ w.extractLsb' 0 16 : Word).extractLsb' (8 * j) 8 =
      if j = 2 ∨ j = 3 then BitVec.ofNat 8 (k / 256 ^ (j - 2)) else w.extractLsb' (8 * j) 8 := by
  split_ifs with hseq
  · rw [extractLsb'_append_high _ _ _ _ (by omega), show 8 * j - 16 = 8 * (j - 2) by omega, extractLsb'_byte, BitVec.toNat_ofNat]
    apply BitVec.eq_of_toNat_eq
    rw [BitVec.toNat_ofNat, BitVec.toNat_ofNat]
    rcases hseq with rfl | rfl <;> omega
  · rw [extractLsb'_append_low _ _ _ _ (by omega), extractLsb'_of_extractLsb' _ (by omega), Nat.zero_add]

theorem packet_byte (s : State) (u : Thread) (p : VReg) (wr : Nat) {j : Nat} (hj : j < 64) :
    (wordBytes (withSeq (rdVs s u p 16) wr)).getD j 0 = packetByte s u p wr j := by
  have hreg : ∀ k, k < 16 → (rdVs s u p 16).getD k 0 = rdV s u (p + BitVec.ofNat 6 k) := fun k hk => by
    rw [List.getD_eq_getElem?_getD, rdVs_getElem? s u 16 p k hk]; rfl
  have hstore : storeByte s u (.v (p + BitVec.ofNat 6 (j / 4))) (j % 4) = (rdV s u (p + BitVec.ofNat 6 (j / 4))).extractLsb' (8 * (j % 4)) 8 := by
    have hdiv : j % 4 / 4 = 0 := by omega
    simp only [storeByte, hdiv, Nat.mod_mod, BitVec.add_zero]
  rw [wordBytes_getD, packetByte, hstore]
  by_cases hlow : j < 4
  · have h0 := hreg 0 (by decide)
    rw [Nat.div_eq_of_lt hlow, Nat.mod_eq_of_lt hlow, ← h0]
    exact seq_byte _ wr hlow
  · rw [if_neg (by omega), ← hreg _ (by omega)]
    obtain ⟨k, hk⟩ : ∃ k, j / 4 = k + 1 := ⟨j / 4 - 1, by omega⟩
    rw [hk]; rfl

/-! ### CPYQ (R190) -/

section
variable {tok q p : VReg} {a : AReg} {recd : Bool}

/-- The offset that CPYQ names. -/
def queueOff (s : State) (u : Thread) (a : AReg) (q : VReg) : Int := (rdA s u a).cursor + (rdV s u q).toNat

/-- The slot of the packet that a queue's write index names. -/
def queueSlot (s : State) (m : Mapped) (off : Nat) : Nat := off + 64 + 64 * (fieldOf s m 0 8 % 2 ^ (fieldOf s m 16 1 % 32))

/-- The state after CPYQ has claimed index `wr` and written its packet. -/
def queueState (s : State) (x : Cx) (m ms : Mapped) (obj off slot wr : Nat) (p : VReg) : State :=
  let s := performAtomic s x m obj off 8 (some ((wr + 1) % 2 ^ 64))
  writeObj s (some x.coreId) x.blk.ctx obj slot ms (wordBytes (withSeq (rdVs s x.thr p 16) wr)) .dflt

/-- CPYQ whose header translates: it completes with TQFULL or TBOUND, or it accesses its slot. -/
theorem exec_cpyq_header (he : Executes h s x) (hr : x.thr.tokens.length < 8)
    (hp : Permits (rdA s x.thr a) [1, 3] (queueOff s x.thr a q) 64) (hmig : migrationAt s m.peAddr = none)
    (ht : translate s x.blk.ctx (some x.blk.launch) ⟨(rdA s x.thr a).obj, (queueOff s x.thr a q).toNat, .rmwRet, false, false⟩ =
      (s, .ok m recd)) :
    exec (.cpyq h tok a q p) s =
      if 2 ^ (fieldOf s m 16 1 % 32) ≤ (fieldOf s m 0 8 + 2 ^ 64 - fieldOf s m 8 8) % 2 ^ 64 then
        goOn h s x (wrV s.cycle x.thr tok 0xA05 0)
      else if (checkBound (rdA s x.thr a) (queueSlot s m (queueOff s x.thr a q).toNat : Nat) 64).isSome then
        goOn h s x (wrV s.cycle x.thr tok 0xA04 0)
      else access s x (want (rdA s x.thr a) (queueSlot s m (queueOff s x.thr a q).toNat : Nat) .cwrite) (rdA s x.thr a).rights
        fun s1 ms _ =>
          let t := queueState s1 x m ms (rdA s x.thr a).obj (queueOff s x.thr a q).toNat
            (queueSlot s m (queueOff s x.thr a q).toNat) (fieldOf s m 0 8) p
          goOn h t x (wrV t.cycle x.thr tok 0 0) := by
  have hX := readMapped_lt s m
  have hwr : ((BitVec.ofNat 512 (leNat (readMapped s m 64))).extractLsb' 0 64).toNat = fieldOf s m 0 8 :=
    (header_field hX 0 8).trans (readMapped_field s m (by decide))
  have hrd : ((BitVec.ofNat 512 (leNat (readMapped s m 64))).extractLsb' 64 64).toNat = fieldOf s m 8 8 :=
    (header_field hX 8 8).trans (readMapped_field s m (by decide))
  have hsize : ((BitVec.ofNat 512 (leNat (readMapped s m 64))).extractLsb' 128 5).toNat = fieldOf s m 16 1 % 32 :=
    (header_size hX).trans (congrArg (· % 32) (readMapped_field s m (by decide)))
  rw [exec_cpyq, execCpyq, guarded_true he.1 he.2, tokenRoom_room hr]
  refine (checked_of_none ((Why.first_none (hp.checkTag _)).trans ((Why.first_none hp.checkBound).trans (hp.checkAlign _))) _).trans
    ((access_ok ht fun _ _ => hmig).trans ?_)
  dsimp only
  rw [hwr, hrd, hsize]
  rfl

/-- The object bytes after CPYQ, as its key sees them. -/
theorem queueState_write {obj off slot wr : Nat} (hwf : memoryWf s) (hws : m.loc.ws = false) (hcmp : pageCmp m.pe = false)
    (hws' : ms.loc.ws = false) (hcmp' : pageCmp ms.pe = false) (hclean : ∀ j, j < 8 → poisonedAt s m j = false) (hoe : ms.oe = m.oe) :
    (queueState s x m ms obj off slot wr p).blocks = s.blocks ∧ (queueState s x m ms obj off slot wr p).cycle = s.cycle
      ∧ ∀ k, seenByte (queueState s x m ms obj off slot wr p) (m.key s) k =
          if ms.loc.addr ≤ k ∧ k < ms.loc.addr + 64 then packetByte s x.thr p wr (k - ms.loc.addr)
          else if m.loc.addr ≤ k ∧ k < m.loc.addr + 8 then BitVec.ofNat 8 ((wr + 1) % 2 ^ 64 / 256 ^ (k - m.loc.addr))
          else seenByte s (m.key s) k := by
  obtain ⟨ow1, -⟩ := objWrite_performAtomic (x := x) hwf.1 hws hcmp obj off (n := 8) (by decide) (by decide) hclean ((wr + 1) % 2 ^ 64)
  unfold queueState
  generalize performAtomic s x m obj off 8 (some ((wr + 1) % 2 ^ 64)) = s1 at ow1 ⊢
  have hregs : rdVs s1 x.thr p 16 = rdVs s x.thr p 16 :=
    rdVs_congr (t := s1) (congrArg State.cycle ow1.rest :) (congrArg State.freeCtr ow1.rest :) ..
  have hkey : ms.key s1 = m.key s := by
    have hservice : s1.service = s.service := (congrArg State.service ow1.rest :)
    rw [Mapped.key, Mapped.key, keyOf, keyOf, hservice, hoe]
  have hlen : (wordBytes (withSeq (rdVs s1 x.thr p 16) wr)).length = 64 := by rw [wordBytes_length, withSeq_length, rdVs_length]
  have ow2 := (objWrite_writeObj ow1.wf hws' hcmp' (some x.coreId) x.blk.ctx obj slot (bs := wordBytes (withSeq (rdVs s1 x.thr p 16) wr))
    (by rw [hlen]; decide) .dflt).congr (val' := packetByte s x.thr p wr) fun j hj => by rw [hregs]; exact packet_byte s x.thr p wr (hlen ▸ hj)
  rw [hlen, hkey] at ow2
  refine ⟨(congrArg State.blocks ow2.rest :).trans (congrArg State.blocks ow1.rest :),
    (congrArg State.cycle ow2.rest :).trans (congrArg State.cycle ow1.rest :), fun k => (ow2.bytes k).trans ?_⟩
  rw [ow1.bytes k]

theorem queuePacketsAreAppended : Claims.QueuePacketsAreAppended := by
  intro h tok a q p s x m ms r1 r2 he c off i field wr rd size slot packet hr hp hwf hmig ht
  have hi := exec_cpyq_header (tok := tok) (p := p) he hr hp hmig ht
  refine ⟨fun hfull => ?full, fun hroom => ⟨fun hout => ?outside, fun hlo hhi hts hmigs hws hws' hcmp hcmp' hapart hclean => ?appended⟩⟩
  case full =>
    have hi := hi.trans (if_pos hfull)
    refine goes_goOn he hi rfl ((Kept.refl _ x.thr).wrV (List.mem_singleton_self _) ..) ?_
    rw [vreg_done, vreg_wrV, if_pos rfl]
  case outside =>
    have hb : checkBound c (slot : Int) 64 = some ⟨causeCapbnd, 0, offLo slot, offHi slot⟩ := if_neg hout
    have hi := hi.trans ((if_neg (not_le.mpr hroom)).trans (if_pos (congrArg Option.isSome hb)))
    refine goes_goOn he hi rfl ((Kept.refl _ x.thr).wrV (List.mem_singleton_self _) ..) ?_
    rw [vreg_done, vreg_wrV, if_pos rfl]
  case appended =>
    have hb : ¬(checkBound c (slot : Int) 64).isSome = true := by
      rw [show checkBound c (slot : Int) 64 = none from if_pos ⟨hlo, hhi⟩]; exact Bool.false_ne_true
    have hi := (hi.trans ((if_neg (not_le.mpr hroom)).trans (if_neg hb))).trans (access_ok hts fun _ _ => hmigs)
    have hentry : objEntry s x.blk.ctx c.obj = some m.oe := translate_entry ht
    have hentry' : objEntry s x.blk.ctx c.obj = some ms.oe := translate_entry hts
    have hoe : ms.oe = m.oe := Option.some.inj (hentry'.symm.trans hentry)
    obtain ⟨hblocks, hcycle, hbytes⟩ := queueState_write (x := x) (p := p) (obj := c.obj) (off := off.toNat) (slot := slot) (wr := wr)
      hwf hws hcmp hws' hcmp' hclean hoe
    have hi : exec i s = goOn h (queueState s x m ms c.obj off.toNat slot wr p) x
        (wrV (queueState s x m ms c.obj off.toNat slot wr p).cycle x.thr tok 0 0) := hi
    generalize queueState s x m ms c.obj off.toNat slot wr p = t at hi hblocks hcycle hbytes
    rw [goOn, hcycle] at hi
    let u := wrV s.cycle x.thr tok 0 0
    refine ⟨setThread t x.tid (u.done s.cycle h), u.done s.cycle h, hi, ?_, at_done s h u x.thr rfl, fun v hv => ?_,
      ((Kept.refl _ x.thr).wrV (List.mem_singleton_self _) ..).done _ _, ?_, fun k => ?_⟩
    · rw [threadOf_setThread, if_pos rfl, threadOf_congr hblocks, threadOf_curCx he.1]; rfl
    · rw [threadOf_setThread, if_neg hv, threadOf_congr hblocks]
    · rw [vreg_done, vreg_wrV, if_pos rfl]
    · rw [setThread_eq_putThread]
      refine (seenByte_congr rfl fun _ _ => rfl).trans ((hbytes k).trans ?_)
      by_cases hhead : m.loc.addr ≤ k ∧ k < m.loc.addr + 8
      · rw [if_neg (by omega), if_pos hhead, if_pos hhead]
      · rw [if_neg hhead, if_neg hhead]; rfl

end

end Sys2Proof.Machine

/-- Settles O28: a copy whose checks pass is one request at its engine, and a queue's packet is two writes of one object. -/
theorem copiesAndPacketsAreQueued : Obligations.CopiesAndPacketsAreQueued :=
  ⟨Sys2Proof.Machine.copiesAreRequested, Sys2Proof.Machine.queuePacketsAreAppended⟩
end

section
/-! SUPPORT. Barrier and ring objects of a scratchpad (Tables 9.2, 9.3): what is written reads back, and an instruction that writes
one object. -/

namespace Sys2Proof.Machine

open Sys2Proof

variable {i : Instr} {h : Hdr} {s t u : State} {x : Cx} {b c d : Block} {o n : Nat}

/-! ### Objects read back -/

theorem readNat_writeBytes {m : Memory} (hm : m.wf = true) (a n v : Nat) (hv : v < 256 ^ n) :
    (m.writeBytes a (leBytes n v)).readNat a n = v := by
  have hread := readBytes_writeBytes hm a (leBytes n v)
  rw [leBytes_length] at hread
  rw [Memory.readNat, hread, leNat_leBytes, Nat.mod_eq_of_lt hv]

theorem Barrier.bits_lt (r : Barrier) : r.bits.toNat < 256 ^ 16 := lt_of_lt_of_eq r.bits.isLt (Nat.pow_mul 2 8 16)
theorem Ring.bits_lt (r : Ring) : r.bits.toNat < 256 ^ 32 := lt_of_lt_of_eq r.bits.isLt (Nat.pow_mul 2 8 32)

theorem readBarrier_writeBarrier (hb : b.spad.wf = true) (a : Nat) (r : Barrier) : readBarrier (writeBarrier b a r) a = r := by
  have hspad : (writeBarrier b a r).spad = b.spad.writeBytes a (leBytes 16 r.bits.toNat) := by
    simp only [writeBarrier, writeSpadNat, writeSpad]
  have hread : (writeBarrier b a r).spad.readNat a 16 = r.bits.toNat := by rw [hspad, readNat_writeBytes hb a 16 _ r.bits_lt]
  have hwt : r.bits.getLsbD 66 = r.wt := by
    rw [Barrier.bits]; simp (disch := decide) only [getLsbD_append_high, getLsbD_append_low]; cases r.wt <;> rfl
  unfold readBarrier
  rw [hread, BitVec.ofNat_toNat, BitVec.setWidth_eq]
  dsimp only
  rw [hwt]
  simp (disch := decide) only [Barrier.bits, extractLsb'_append_high, extractLsb'_append_low, extractLsb'_whole, Nat.sub_self]

theorem readRing_writeRing (hb : b.spad.wf = true) (a : Nat) (r : Ring) : readRing (writeRing b a r) a = r := by
  have hspad : (writeRing b a r).spad = b.spad.writeBytes a (leBytes 32 r.bits.toNat) := by
    simp only [writeRing, writeSpadNat, writeSpad]
  have hread : (writeRing b a r).spad.readNat a 32 = r.bits.toNat := by
    have hlt := r.bits_lt
    rw [hspad]
    generalize r.bits.toNat = v at hlt ⊢
    exact readNat_writeBytes hb a 32 v hlt
  unfold readRing
  rw [hread, BitVec.ofNat_toNat, BitVec.setWidth_eq]
  simp (disch := decide) only [Ring.bits, extractLsb'_append_high, extractLsb'_append_low, extractLsb'_whole, Nat.sub_self]

/-! ### A block with one object written -/

theorem Assoc.set_set {α : Type} (a : Nat) (x y : α) : ∀ m : Assoc α, Assoc.set (Assoc.set m a x) a y = Assoc.set m a y
  | [] => by simp [Assoc.set]
  | (k, v) :: m => by
    have ih := Assoc.set_set a x y m
    simp only [Assoc.set]
    split_ifs with hlt heq
    · simp [Assoc.set]
    · simp [Assoc.set]
    · simp [Assoc.set, hlt, heq, ih]

/-- c is b with n bytes of its scratchpad written, and perhaps other threads, types, poison and order of writes. -/
structure ObjectIn (b c : Block) (o n : Nat) : Prop where
  rest : { c with
    threads := b.threads, spad := b.spad, tiles := b.tiles, types := b.types
    spadPoison := b.spadPoison, tilePoison := b.tilePoison, order := b.order } = b
  wf : c.spad.wf = true
  spad : ∀ k, ¬(o ≤ k ∧ k < o + n) → c.spad.read k = b.spad.read k
  tiles : c.tiles = b.tiles

theorem ObjectIn.trans (h1 : ObjectIn b c o n) (h2 : ObjectIn c d o n) : ObjectIn b d o n where
  rest := (congrArg (fun z : Block => { z with
    threads := b.threads, spad := b.spad, tiles := b.tiles, types := b.types
    spadPoison := b.spadPoison, tilePoison := b.tilePoison, order := b.order }) h2.rest :).trans h1.rest
  wf := h2.wf
  spad k hk := (h2.spad k hk).trans (h1.spad k hk)
  tiles := h2.tiles.trans h1.tiles

/-- A block whose scratchpad and tiles are as before. -/
theorem ObjectIn.of_same (hrest : { c with
    threads := b.threads, spad := b.spad, tiles := b.tiles, types := b.types
    spadPoison := b.spadPoison, tilePoison := b.tilePoison, order := b.order } = b) (hb : b.spad.wf = true)
    (hs : c.spad = b.spad) (ht : c.tiles = b.tiles) : ObjectIn b c o n := ⟨hrest, hs ▸ hb, fun _ _ => by rw [hs], ht⟩

theorem objectIn_writeSpadNat (hb : b.spad.wf = true) (o n v : Nat) : ObjectIn b (writeSpadNat b o n v) o n :=
  ⟨rfl, Memory.writeBytes_wf _ hb _, fun k hk =>
    (Memory.read_writeBytes (leBytes n v) hb o k).trans (if_neg (by rwa [leBytes_length])), rfl⟩

theorem setThread_setBlock (s : State) (tid : ThreadId) (b : Block) (w : Thread) :
    setThread (setBlock s tid.slot b) tid w = setBlock s tid.slot (b.setThread tid.tidx w) := by
  have hown : blockOf (setBlock s tid.slot b) tid.slot = some b := by rw [blockOf_setBlock, if_pos rfl]
  rw [setThread, modBlock, hown]
  simp only [setBlock, Assoc.set_set]

theorem setBlock_upToCores (hu : { u with cores := s.cores } = s) (slot : Nat) (c : Block) :
    { setBlock u slot c with cores := s.cores } = setBlock s slot c := (congrArg (fun z : State => setBlock z slot c) hu :)

/-- The current thread's block, set with one object written, is a local write of the object's bytes. -/
theorem ObjectIn.localWrite {w : Thread} (ob : ObjectIn x.blk c o n) (hc : curCx s = some x)
    (hthreads : c.threads = listModify x.blk.threads x.tid.tidx (fun _ => w)) :
    LocalWrite s (setBlock s x.tid.slot c) x w (patched (spadByte s x.tid.slot) o n (fun j => c.spad.read (o + j)))
      (tileByte s x.tid.slot) := by
  have hspad : c.spad.read = patched (spadByte s x.tid.slot) o n (fun j => c.spad.read (o + j)) := by
    funext k
    rw [spadByte_curCx hc, patched]
    split_ifs with hk
    · rw [Nat.add_sub_cancel' hk.1]
    · exact ob.spad k hk
  have htiles : c.tiles.read = tileByte s x.tid.slot := by rw [tileByte_curCx hc, ob.tiles]
  have lw := localWrite_setBlock hc hthreads ob.rest
  rwa [hspad, htiles] at lw

/-- An instruction that ends in its block set with one object written. -/
theorem objectGoes_setBlock {w : Thread} {parts : List Part} {post : Thread → Prop} {after : Block → Prop} (he : Executes h s x)
    (hu : { u with cores := s.cores } = s) (hi : exec i s = .next (setBlock u x.tid.slot c))
    (hthreads : c.threads = listModify x.blk.threads x.tid.tidx (fun _ => w.done s.cycle h)) (hpc : w.pc = x.thr.pc)
    (k : Kept { parts := parts } x.thr w) (ob : ObjectIn x.blk c o n) (hpost : post (w.done s.cycle h)) (hafter : after c) :
    ObjectGoes i s x h parts o n post after := by
  refine ⟨setBlock u x.tid.slot c, w.done s.cycle h, c, fun j => c.spad.read (o + j), hi, at_done s h w x.thr hpc, k.done _ _, hpost, ?_, ?_, hafter⟩
  · exact localWrite_cores (setBlock_upToCores hu _ _) (ob.localWrite he.1 hthreads)
  · rw [blockOf_setBlock, if_pos rfl]

theorem ObjectIn.setThread (ob : ObjectIn b c o n) (k : Nat) (w : Thread) : ObjectIn b (c.setThread k w) o n :=
  ⟨ob.rest, ob.wf, ob.spad, ob.tiles⟩

theorem ObjectIn.order (ob : ObjectIn b c o n) (r : Order) : ObjectIn b { c with order := r } o n := ⟨ob.rest, ob.wf, ob.spad, ob.tiles⟩

theorem readRing_congr (hs : c.spad = b.spad) (a : Nat) : readRing c a = readRing b a := by unfold readRing; rw [hs]

theorem readBarrier_congr (hs : c.spad = b.spad) (a : Nat) : readBarrier c a = readBarrier b a := by unfold readBarrier; rw [hs]

theorem objectIn_writeRing (hb : b.spad.wf = true) (a : Nat) (r : Ring) : ObjectIn b (writeRing b a r) a 32 :=
  objectIn_writeSpadNat hb a 32 r.bits.toNat

theorem objectIn_writeBarrier (hb : b.spad.wf = true) (a : Nat) (r : Barrier) : ObjectIn b (writeBarrier b a r) a 16 :=
  objectIn_writeSpadNat hb a 16 r.bits.toNat

/-- An instruction that goes on with its block changed. -/
theorem objectGoes_goOnBlock {w : Thread} {parts : List Part} {post : Thread → Prop} {after : Block → Prop} (he : Executes h s x)
    (hu : { u with cores := s.cores } = s) (hi : exec i s = goOnBlock h u x c w) (hthreads : c.threads = x.blk.threads)
    (hpc : w.pc = x.thr.pc) (k : Kept { parts := parts } x.thr w) (ob : ObjectIn x.blk c o n) (hpost : post (w.done s.cycle h))
    (hafter : after (c.setThread x.tid.tidx (w.done s.cycle h))) : ObjectGoes i s x h parts o n post after := by
  have hcycle : u.cycle = s.cycle := (congrArg State.cycle hu :)
  rw [goOnBlock, hcycle] at hi
  exact objectGoes_setBlock he hu hi (by rw [← hthreads]; rfl) hpc k (ob.setThread ..) hpost hafter

end Sys2Proof.Machine
end

section
/-! PROOF. Rings, CPY.RING, RINIT and BINIT (O29). -/

namespace Sys2Proof.Machine

open Sys2Proof

variable {i : Instr} {h : Hdr} {s t u : State} {x : Cx} {b c : Block} {a : LocAddr} {r r' : Ring} {o : Int}

/-! ### A ring object that its instruction may use (R191) -/

/-- The checks of a ring instruction pass on its object. -/
structure RingAt (b : Block) (o : Int) : Prop where
  window : inWindow b o 32 = true
  align : o % 32 = 0
  typed : isRing b o.toNat = true

theorem RingAt.objectWhy (ra : RingAt b o) (sub : BitVec 8) : objectWhy b o 32 sub = none := objectWhy_eq_none ra.window ra.align sub

theorem RingAt.ringTyped (ra : RingAt b o) : ringTyped b o = none := by rw [Machine.ringTyped, if_pos ra.typed]

theorem ringOp_ring (ra : RingAt x.blk (localOff s x.thr a)) (k : Int → Ring → Out) :
    ringOp s x a k = k (localOff s x.thr a) (readRing x.blk (localOff s x.thr a).toNat) :=
  checked_of_none ((Why.first_none (ra.objectWhy 0)).trans ra.ringTyped) _

/-! ### Tickets and room (R192) -/

theorem ticketWord_eq (r : Ring) (t : BitVec 16) :
    r.ticketWord t = BitVec.ofNat 32 (t.toNat % 2 ^ r.logn.toNat * 2 ^ 16 + t.toNat) := by
  have ht := t.isLt
  have hslot : t.toNat % 2 ^ r.logn.toNat < 2 ^ 16 := lt_of_le_of_lt (Nat.mod_le ..) ht
  rw [Ring.ticketWord, Ring.slot, Ring.n]
  generalize t.toNat % 2 ^ r.logn.toNat = k at hslot ⊢
  apply BitVec.eq_of_toNat_eq
  rw [BitVec.toNat_append, BitVec.toNat_ofNat, Nat.mod_eq_of_lt hslot, Nat.shiftLeft_eq, Nat.or_comm, ← Nat.mul_comm,
    Nat.or_comm, ← Nat.two_pow_add_eq_or_of_lt ht, BitVec.toNat_ofNat, Nat.mod_eq_of_lt (by omega), Nat.mul_comm]

theorem hasRoom_iff (r : Ring) : r.hasRoom = true ↔ (r.res - r.rel).toNat < 2 ^ r.logn.toNat := decide_eq_true_iff

theorem ticketWhy_inside {t low high : BitVec 16} (ht : (t - low).toNat < (high - low).toNat) : ticketWhy o t low high = none :=
  if_neg (not_le.mpr ht)

theorem ticketWhy_outside {t low high : BitVec 16} (ht : (high - low).toNat ≤ (t - low).toNat) :
    ticketWhy o t low high = some ⟨causeRingerr, 0x04, offLo o, t.setWidth 32⟩ := if_pos ht

/-! ### Moving a count -/

/-- The block with a ring object written, and perhaps another order of writes. -/
structure RingIn (b c : Block) (n : Nat) (r : Ring) : Prop where
  object : ObjectIn b c n 32
  threads : c.threads = b.threads
  read : readRing c n = r

theorem ringIn_writeRing (hb : b.spad.wf = true) (n : Nat) (r : Ring) : RingIn b (writeRing b n r) n r :=
  ⟨objectIn_writeRing hb n r, by simp only [writeRing, writeSpadNat, writeSpad], readRing_writeRing hb n r⟩

theorem RingIn.order {n : Nat} (ri : RingIn b c n r) (ord : Order) : RingIn b { c with order := ord } n r :=
  ⟨ri.object.order ord, ri.threads, ri.read⟩

/-- A ring instruction that goes on with a new ring object. -/
theorem ring_moves {w : Thread} {parts : List Part} {post : Thread → Prop} {n : Nat} (he : Executes h s x)
    (hu : { u with cores := s.cores } = s) (hi : exec i s = goOnBlock h u x c w) (ri : RingIn x.blk c n r') (hpc : w.pc = x.thr.pc)
    (k : Kept { parts := parts } x.thr w) (hpost : post (w.done s.cycle h)) :
    ObjectGoes i s x h parts n 32 post (fun b => readRing b n = r') :=
  objectGoes_goOnBlock he hu hi ri.threads hpc k ri.object hpost ri.read

/-- RRES and RWAIT acquire, move a count and send a ticket. -/
theorem ring_sends {d : VReg} {t : BitVec 16} {clk : Clock} {n : Nat} (he : Executes h s x)
    (hi : exec i s = goOnBlock h (acquireBlock s x.blk x.coreId) x c
      (pendTo (x.thr.acquire clk) (pendVals [(d, r.ticketWord t, false)]))) (ri : RingIn x.blk c n r') :
    ObjectGoes i s x h [.pend] n 32 (fun w => w.pend = x.thr.pend ++
      [⟨false, [(d, BitVec.ofNat 32 (t.toNat % 2 ^ r.logn.toNat * 2 ^ 16 + t.toNat), false)], none, 0, false⟩])
      (fun b => readRing b n = r') := by
  rw [ticketWord_eq] at hi
  exact ring_moves he (acquireBlock_rest ..) hi ri rfl
    (((Kept.refl { parts := [.pend] } x.thr).known _).pend (List.mem_singleton_self _) _) rfl

/-! ### The six instructions of R189 and R192 -/

section
variable {d tok rr cnt off cr : VReg} {cap : AReg} {rsc : Scope}

theorem exec_rres_ring (he : Executes h s x) (hwf : memoryWf s) (ra : RingAt x.blk (localOff s x.thr a))
    (hr : r = readRing x.blk (localOff s x.thr a).toNat) :
    ((r.res - r.rel).toNat < 2 ^ r.logn.toNat → ObjectGoes (.rres h d a) s x h [.pend] (localOff s x.thr a).toNat 32
        (fun w => w.pend = x.thr.pend ++
          [⟨false, [(d, BitVec.ofNat 32 (r.res.toNat % 2 ^ r.logn.toNat * 2 ^ 16 + r.res.toNat), false)], none, 0, false⟩])
        (fun b => readRing b (localOff s x.thr a).toNat = { r with res := r.res + 1 }))
    ∧ (2 ^ r.logn.toNat ≤ (r.res - r.rel).toNat → Waits (.rres h d a) s x (.waiting (.rres (localOff s x.thr a).toNat))) := by
  have hi := (exec_rres h d a s).trans ((guarded_true he.1 he.2 _).trans (ringOp_ring ra _))
  rw [← hr] at hi
  refine ⟨fun hroom => ?_, fun hfull => ?_⟩
  · exact ring_sends he (hi.trans (if_pos ((hasRoom_iff r).mpr hroom))) (ringIn_writeRing (memWf_curCx he.1 hwf).1 ..)
  · exact waits_waitAt he.1 (hi.trans (if_neg (mt (hasRoom_iff r).mp (not_lt.mpr hfull))))

theorem exec_rwait_ring (he : Executes h s x) (hwf : memoryWf s) (ra : RingAt x.blk (localOff s x.thr a))
    (hr : r = readRing x.blk (localOff s x.thr a).toNat) :
    (r.con ≠ r.pub → ObjectGoes (.rwait h d a) s x h [.pend] (localOff s x.thr a).toNat 32
        (fun w => w.pend = x.thr.pend ++
          [⟨false, [(d, BitVec.ofNat 32 (r.con.toNat % 2 ^ r.logn.toNat * 2 ^ 16 + r.con.toNat), false)], none, 0, false⟩])
        (fun b => readRing b (localOff s x.thr a).toNat = { r with con := r.con + 1 }))
    ∧ (r.con = r.pub → Waits (.rwait h d a) s x (.waiting (.rwait (localOff s x.thr a).toNat))) := by
  have hi := (exec_rwait h d a s).trans ((guarded_true he.1 he.2 _).trans (ringOp_ring ra _))
  rw [← hr] at hi
  refine ⟨fun hne => ?_, fun heq => ?_⟩
  · exact ring_sends he (hi.trans (if_neg hne)) (ringIn_writeRing (memWf_curCx he.1 hwf).1 ..)
  · exact waits_waitAt he.1 (hi.trans (if_pos heq))

/-- RPUB and RREL: `low` is the count that the ticket must meet, `high` the end of its window. -/
theorem ticket_moves {t low high : BitVec 16} {n : Nat} {st : TStatus} (he : Executes h s x)
    (hi : exec i s = checked s x (ticketWhy o t low high) (if low = t then goOnBlock h s x c x.thr else waitAt s x st))
    (ri : RingIn x.blk c n r') :
    ((t - low).toNat < (high - low).toNat →
      (t = low → ObjectGoes i s x h [] n 32 (fun _ => True) (fun b => readRing b n = r')) ∧ (t ≠ low → Waits i s x st))
    ∧ ((high - low).toNat ≤ (t - low).toNat → TrapsOn i s x 0x1A 0x04 (BitVec.ofInt 32 o) (t.setWidth 32)) := by
  refine ⟨fun hin => ⟨fun heq => ?_, fun hne => ?_⟩, fun hout => trapsOn_checked (ticketWhy_outside hout) hi⟩
  · exact ring_moves he rfl (hi.trans ((checked_of_none (ticketWhy_inside hin) _).trans (if_pos heq.symm))) ri rfl (Kept.refl _ _) trivial
  · exact waits_waitAt he.1 (hi.trans ((checked_of_none (ticketWhy_inside hin) _).trans (if_neg (Ne.symm hne))))

/-- A ring copy that is sent with its slot reserved. -/
theorem ringCopy_sends {i : Instr} {q : CopyReq} {n : Nat} (he : Executes h s x)
    (hi : exec i s = goOn h (sendReq (setBlock s x.tid.slot b) (engineFor x.blk.cluster) q) x (markToken x.thr tok (.copy s.nextId)))
    (ri : RingIn x.blk b n r) (ho : openSide s q.ctx q.src) :
    ∃ t w c fn, exec i s = .next t ∧ At (nextSlot x.thr.pc) s h w ∧ Kept { parts := [.tokens] } x.thr w
      ∧ LocalWrite s { t with engines := s.engines, nextId := s.nextId } x w (patched (spadByte s x.tid.slot) n 32 fn)
          (tileByte s x.tid.slot)
      ∧ blockOf t x.tid.slot = some c ∧ readRing c n = r ∧ w.tokens = x.thr.tokens ++ [⟨tok, .copy s.nextId, true⟩]
      ∧ (engineOf t (engineFor x.blk.cluster)).reqs = (engineOf s (engineFor x.blk.cluster)).reqs ++ [{ q with id := s.nextId }] := by
  let w := (markToken x.thr tok (.copy s.nextId)).done s.cycle h
  let c := b.setThread x.tid.tidx w
  let e := engineFor x.blk.cluster
  let sent := setEngine { setBlock s x.tid.slot b with nextId := s.nextId + 1 } e
    { engineOf s e with reqs := (engineOf s e).reqs ++ [{ q with id := s.nextId }] }
  have hsent : sendReq (setBlock s x.tid.slot b) e q = sent := sendReq_open (s := setBlock s x.tid.slot b) ho e
  have hput : { setThread sent x.tid w with engines := s.engines, nextId := s.nextId } = setBlock s x.tid.slot c := by
    rw [← setThread_setBlock, setThread_eq_putThread, setThread_eq_putThread]; rfl
  have hblocks : (setThread sent x.tid w).blocks = (setBlock s x.tid.slot c).blocks := (congrArg State.blocks hput :)
  rw [hsent] at hi
  refine ⟨setThread sent x.tid w, w, c, fun j => c.spad.read (n + j), hi, at_done s h (markToken x.thr tok (.copy s.nextId)) x.thr rfl,
    ((Kept.refl _ x.thr).markToken (List.mem_singleton_self _) ..).done _ _, ?_, ?_, ri.read, rfl, ?_⟩
  · exact hput.symm ▸ (ri.object.setThread ..).localWrite he.1 (by rw [← ri.threads]; rfl)
  · rw [blockOf_congr hblocks, blockOf_setBlock, if_pos rfl]
  · rw [setThread_eq_putThread]
    refine congrArg Engine.reqs ((engineOf_setEngine { setBlock s x.tid.slot b with nextId := s.nextId + 1 } e e _).trans (if_pos rfl))

/-- CPY.RING whose checks pass (R189): it waits for a slot, or it tests its slot and is sent. -/
theorem exec_cpyRing_ring {rr : VReg} {f : SideOf} {n : Nat} (he : Executes h s x) (hr : x.thr.tokens.length < 8)
    (ra : RingAt x.blk ((rdV s x.thr rr).toNat : Int)) (hf : f = sideOf s x.thr (.obj cap off)) (hn : n = (rdV s x.thr cnt).toNat)
    (hside : sideWhy x.blk f [0, 7] (some n) = none) (hoff : f.off % 16 = 0) (hlen : n % 16 = 0)
    (hg : r = readRing x.blk (rdV s x.thr rr).toNat) (hsz : n ≤ r.sz.toNat) :
    exec (.cpyRing h tok rr cap off cnt rsc) s =
      if !r.hasRoom then waitAt s x (.waiting (.ringCopy (rdV s x.thr rr).toNat))
      else checked s x (typedWhy x.blk (r.slotAddr r.res) n)
        (goOn h (sendReq (setBlock s x.tid.slot (writeRing x.blk (rdV s x.thr rr).toNat { r with res := r.res + 1, outc := r.outc + 1 }))
          (engineFor x.blk.cluster) { threadReq x .move (.spad x.tid.slot (r.slotAddr r.res)) (f.side x.tid.slot) n rsc tok with
            ring := some ((rdV s x.thr rr).toNat, r.res) }) x (markToken x.thr tok (.copy s.nextId))) := by
  subst hf hn hg
  exact (exec_cpyRing ..).trans ((guarded_true he.1 he.2 _).trans ((tokenRoom_room hr _).trans (checked_of_none
    ((Why.first_none (ra.objectWhy 0x10)).trans ((Why.first_none ra.ringTyped).trans ((Why.first_none (if_pos hsz)).trans
      ((Why.first_none hside).trans ((Why.first_none (offsetAlign_none hoff)).trans (lengthAlign_none hlen)))))) _)))

end

theorem ringsAdvance : Claims.RingsAdvance := by
  intro h d tok rr cnt off cap a c rsc s x he hwf o r ok ticket sends moves addr g n f copy
  refine ⟨fun ⟨hwin, hal, hty⟩ => ?ring, fun hr hwin hal hty hside hoff hlen hsz => ?copy⟩
  case ring =>
    have ra : RingAt x.blk o := ⟨hwin, hal, hty⟩
    obtain ⟨hspad, -⟩ := memWf_curCx he.1 hwf
    obtain ⟨hres, hresFull⟩ := exec_rres_ring (d := d) he hwf ra rfl
    obtain ⟨hcon, hconEmpty⟩ := exec_rwait_ring (d := d) he hwf ra rfl
    obtain ⟨hpub, hpubOut⟩ := ticket_moves he
      ((exec_rpub h a c s).trans ((guarded_true he.1 he.2 _).trans (ringOp_ring ra _))) ((ringIn_writeRing hspad ..).order _)
    obtain ⟨hrel, hrelOut⟩ := ticket_moves he
      ((exec_rrel h a c s).trans ((guarded_true he.1 he.2 _).trans (ringOp_ring ra _))) ((ringIn_writeRing hspad ..).order _)
    exact ⟨hres, hresFull, hcon, hconEmpty, hpub, hpubOut, hrel, hrelOut⟩
  case copy =>
    obtain ⟨hspad, -⟩ := memWf_curCx he.1 hwf
    have ra : RingAt x.blk (addr : Int) := ⟨hwin, by omega, hty⟩
    have hi := exec_cpyRing_ring (tok := tok) (rsc := rsc) he hr ra rfl rfl hside hoff hlen rfl hsz
    refine ⟨fun hfull => ?_, fun hroom ho hslot => ?_⟩
    · have hno : (!g.hasRoom) = true := by
        rw [Bool.eq_false_iff.mpr (mt (hasRoom_iff g).mp (not_lt.mpr hfull))]; rfl
      exact waits_waitAt he.1 (hi.trans (if_pos hno))
    · have hyes : ¬(!g.hasRoom) = true := by rw [(hasRoom_iff g).mpr hroom]; exact Bool.false_ne_true
      obtain ⟨t, w, b, fn, hnext, hat, hkept, hlocal, hblock, hread, htokens, hreqs⟩ :=
        ringCopy_sends he (hi.trans ((if_neg hyes).trans (checked_of_none hslot _))) (ringIn_writeRing hspad ..) ho
      exact ⟨t, w, b, fn, _, hnext, hat, hkept, hlocal, hblock, hread, htokens, hreqs, rfl, rfl, rfl, rfl, rfl⟩

end Sys2Proof.Machine
end

section
/-! SUPPORT. Barrier objects and their waiters (R194, R195, Table 9.2). -/

namespace Sys2Proof.Machine

open Sys2Proof

variable {s : State} {x : Cx} {b c : Block} {n : Nat} {r : Barrier} {o : Int}

theorem writeBarrier_threads (b : Block) (a : Nat) (r : Barrier) : (writeBarrier b a r).threads = b.threads := by
  simp only [writeBarrier, writeSpadNat, writeSpad]

theorem writeBarrier_types (b : Block) (a : Nat) (r : Barrier) : (writeBarrier b a r).types = b.types := by
  simp only [writeBarrier, writeSpadNat, writeSpad]

theorem granType_congr (ht : c.types = b.types) (a : Nat) : granType c a = granType b a := by rw [granType, granType, ht]

theorem noteWaiters_threads (b : Block) (a : Nat) : (noteWaiters b a).threads = b.threads := by
  unfold noteWaiters
  split_ifs
  · exact writeBarrier_threads ..
  · rfl

/-- c is b with a barrier object at n, which reads r but for its WT, which follows the waiters. -/
structure BarrierIn (b c : Block) (n : Nat) (r : Barrier) : Prop where
  object : ObjectIn b c n 16
  typed : granType c n = some .barrier
  read : ∃ wt, readBarrier c n = { r with wt := wt }

theorem barrierIn_refl (hb : b.spad.wf = true) (ht : granType b n = some .barrier) : BarrierIn b b n (readBarrier b n) :=
  ⟨ObjectIn.of_same rfl hb rfl rfl, ht, _, rfl⟩

theorem BarrierIn.setThread (bi : BarrierIn b c n r) (k : Nat) (w : Thread) : BarrierIn b (c.setThread k w) n r :=
  ⟨bi.object.setThread k w, bi.typed, bi.read⟩

/-- A barrier written over the block. -/
theorem barrierIn_writeBarrier (ob : ObjectIn b c n 16) (ht : granType c n = some .barrier) (r : Barrier) :
    BarrierIn b (writeBarrier c n r) n r :=
  ⟨ob.trans (objectIn_writeBarrier ob.wf n r), (granType_congr (writeBarrier_types ..) n).trans ht, _, readBarrier_writeBarrier ob.wf n r⟩

theorem BarrierIn.noteWaiters (bi : BarrierIn b c n r) : BarrierIn b (noteWaiters c n) n r := by
  obtain ⟨wt, hread⟩ := bi.read
  have hbi := barrierIn_writeBarrier bi.object bi.typed { readBarrier c n with wt := waitsOn c n }
  rw [Machine.noteWaiters, if_pos bi.typed]
  obtain ⟨wt', hread'⟩ := hbi.read
  exact ⟨hbi.object, hbi.typed, wt', hread'.trans (by rw [hread])⟩

/-- One arrival (R195), with what it releases. -/
theorem barrierIn_arriveAt (hb : b.spad.wf = true) (ht : granType b n = some .barrier) (u : Thread) :
    BarrierIn b (arriveAt b u n) n (arrivedOnce (readBarrier b n)) := by
  unfold arriveAt
  dsimp only
  generalize b.order.arrive n _ _ _ = ord
  exact barrierIn_writeBarrier (c := { b with order := ord }) (ObjectIn.of_same rfl hb rfl rfl) ht (arrivedOnce (readBarrier b n))

theorem arriveAt_threads (b : Block) (u : Thread) (n : Nat) : (arriveAt b u n).threads = b.threads := writeBarrier_threads ..

end Sys2Proof.Machine
end

section
/-! PROOF. RINIT and BINIT (O29). -/

namespace Sys2Proof.Machine

open Sys2Proof

variable {h : Hdr} {s : State} {x : Cx} {b : Block} {o : Int} {c0 c1 : Word}

theorem extractLsb'_toNat_div (w : Word) (k l : Nat) : (w.extractLsb' k l).toNat = w.toNat / 2 ^ k % 2 ^ l := by
  rw [BitVec.extractLsb'_toNat, Nat.shiftRight_eq_div_pow]

theorem extractLsb'_eq_zero (w : Word) (k l : Nat) : w.extractLsb' k l = 0#l ↔ w.toNat / 2 ^ k % 2 ^ l = 0 := by
  rw [← BitVec.toNat_inj, extractLsb'_toNat_div, BitVec.toNat_ofNat, Nat.zero_mod]

theorem extractLsb'_eq_ofNat (w : Word) (k l : Nat) : w.extractLsb' k l = BitVec.ofNat l (w.toNat / 2 ^ k % 2 ^ l) := by
  rw [← extractLsb'_toNat_div, BitVec.ofNat_toNat, BitVec.setWidth_eq]

theorem ringConfig_none (hsz : c0.toNat % 2 ^ 16 ≠ 0) (hmul : c0.toNat % 2 ^ 16 % 16 = 0) (hlogn : c0.toNat / 2 ^ 20 % 16 ≤ 8)
    (h16 : c0.toNat / 2 ^ 16 % 16 = 0) (h24 : c0.toNat / 2 ^ 24 = 0) (h1 : c1.toNat / 2 ^ 24 = 0) (hbase : c1.toNat % 2 ^ 24 % 16 = 0)
    (hwin : inWindow b ((c1.toNat % 2 ^ 24 : Nat) : Int) (2 ^ (c0.toNat / 2 ^ 20 % 16) * (c0.toNat % 2 ^ 16)) = true) :
    ringConfig b c0 c1 = none := by
  have e1 : (c0.extractLsb' 0 16).toNat = c0.toNat % 2 ^ 16 := by rw [extractLsb'_toNat_div, Nat.pow_zero, Nat.div_one]
  have e2 : (c0.extractLsb' 20 4).toNat = c0.toNat / 2 ^ 20 % 16 := extractLsb'_toNat_div ..
  have e3 : (c1.extractLsb' 0 24).toNat = c1.toNat % 2 ^ 24 := by rw [extractLsb'_toNat_div, Nat.pow_zero, Nat.div_one]
  have z1 : c0.extractLsb' 16 4 = 0#4 := (extractLsb'_eq_zero ..).mpr h16
  have z2 : c0.extractLsb' 24 8 = 0#8 := (extractLsb'_eq_zero ..).mpr (by rw [h24, Nat.zero_mod])
  have z3 : c1.extractLsb' 24 8 = 0#8 := (extractLsb'_eq_zero ..).mpr (by rw [h1, Nat.zero_mod])
  unfold ringConfig
  dsimp only
  rw [e1, e2, e3, z1, z2, z3, hwin, if_neg, if_neg]
  · simp only [ne_eq, not_true, hbase, Bool.not_true, Bool.false_eq_true, or_self, not_false_eq_true]
  · simp only [ne_eq, not_true, hsz, hmul, not_lt.mpr hlogn, or_self, not_false_eq_true]

theorem rinitWhy_none (h1 : granType b o.toNat ≠ some .barrier) (h2 : granType b (o.toNat + 16) ≠ some .barrier)
    (hcfg : ringConfig b c0 c1 = none) (hout : isRing b o.toNat = true → (readRing b o.toNat).outc = 0) : rinitWhy b o c0 c1 = none := by
  have hidle : ¬((isRing b o.toNat && (readRing b o.toNat).outc != 0) = true) := by
    rw [Bool.and_eq_true, bne_iff_ne, not_and, not_ne_iff]; exact hout
  unfold rinitWhy
  dsimp only
  rw [if_neg (not_or.mpr ⟨h1, h2⟩), hcfg]
  exact if_neg hidle

theorem binitWhy_none (hring : granType b o.toNat ≠ some .ring) (hlo : 0 < c0.toNat) (hhi : c0.toNat < 2 ^ 16)
    (hidle : granType b o.toNat = some .barrier → (readBarrier b o.toNat).pendeng = 0) : binitWhy b o c0 = none := by
  have e1 : c0.extractLsb' 0 16 ≠ 0#16 := (extractLsb'_eq_zero ..).not.mpr (by omega)
  have e2 : c0.extractLsb' 16 16 = 0#16 := (extractLsb'_eq_zero ..).mpr (by omega)
  rw [binitWhy, if_neg hring, if_neg (not_or.mpr ⟨e1, not_not.mpr e2⟩), if_neg (fun hh => hh.2 (hidle hh.1))]

theorem binitWhy_range (hring : granType b o.toNat ≠ some .ring) (hbad : c0.toNat % 2 ^ 16 = 0 ∨ c0.toNat / 2 ^ 16 ≠ 0) :
    binitWhy b o c0 = some ⟨causeRingerr, 0x02, offLo o, c0⟩ := by
  have hlt := c0.isLt
  have hrange : c0.extractLsb' 0 16 = 0#16 ∨ c0.extractLsb' 16 16 ≠ 0#16 :=
    hbad.imp (fun hz => (extractLsb'_eq_zero ..).mpr (by omega)) (fun hz => (extractLsb'_eq_zero ..).not.mpr (by omega))
  rw [binitWhy, if_neg hring, if_pos hrange]; rfl

/-- A ring object and its types, set afresh. -/
theorem freshRing (hb : b.spad.wf = true) (n : Nat) (ord : Order) (r : Ring) :
    let c := writeRing { b with types := Assoc.set (Assoc.set b.types n .ring) (n + 16) .ring, order := ord } n r
    ObjectIn b c n 32 ∧ c.threads = b.threads ∧ isRing c n = true ∧ readRing c n = r := by
  intro c
  obtain ⟨hob, hthreads, hread⟩ := ringIn_writeRing
    (b := { b with types := Assoc.set (Assoc.set b.types n .ring) (n + 16) .ring, order := ord }) hb n r
  have hbare : ObjectIn b { b with types := Assoc.set (Assoc.set b.types n .ring) (n + 16) .ring, order := ord } n 32 :=
    ObjectIn.of_same rfl hb rfl rfl
  refine ⟨hbare.trans hob, hthreads, ?_, hread⟩
  have htypes : c.types = Assoc.set (Assoc.set b.types n .ring) (n + 16) .ring := by simp only [c, writeRing, writeSpadNat, writeSpad]
  rw [isRing, granType, granType, htypes, Assoc.get_set_self, Assoc.get_set_ne _ _ (by omega), Assoc.get_set_self]
  rfl

/-- A barrier object and its type, set afresh. -/
theorem freshBarrier (hb : b.spad.wf = true) (n : Nat) (ord : Order) (r : Barrier) :
    let c := noteWaiters (writeBarrier { b with types := Assoc.set b.types n .barrier, order := ord } n r) n
    BarrierIn b c n r ∧ c.threads = b.threads := by
  intro c
  have hob : ObjectIn b { b with types := Assoc.set b.types n .barrier, order := ord } n 16 := ObjectIn.of_same rfl hb rfl rfl
  exact ⟨(barrierIn_writeBarrier hob (Assoc.get_set_self ..) r).noteWaiters, (noteWaiters_threads ..).trans (writeBarrier_threads ..)⟩

theorem objectsAreInitialised : Claims.ObjectsAreInitialised := by
  intro h a c s x he hwf o c0 c1 sz logn base barrier
  obtain ⟨hspad, -⟩ := memWf_curCx he.1 hwf
  refine ⟨fun hwin hal hnb hnb' hidle hsz hmul hlogn h16 h24 h1 hbase hslots => ?rinit, fun hwin hal hring hlo hhi hidle => ?binit,
    fun hwin hal hring hbad => ?range⟩
  case rinit =>
    have h0 := inWindow_nonneg hwin
    have hnext : (o + 16).toNat = o.toNat + 16 := by omega
    have hnb' : granType x.blk (o.toNat + 16) ≠ some .barrier := fun hh => hnb' (by show granType x.blk (o + 16).toNat = _; rw [hnext]; exact hh)
    have hi := ((exec_rinit h a c s).trans (guarded_true he.1 he.2 _)).trans (checked_of_none
      ((Why.first_none (objectWhy_eq_none hwin hal 0)).trans
        (rinitWhy_none hnb hnb' (ringConfig_none hsz hmul hlogn h16 h24 h1 hbase hslots) hidle)) _)
    obtain ⟨hob, hthreads, hty, hread⟩ := freshRing hspad o.toNat (x.blk.order.initRing o.toNat)
      ⟨0, 0, 0, 0, c0.extractLsb' 0 16, c0.extractLsb' 20 4, c1.extractLsb' 0 24, 0⟩
    have hi : exec (.rinit h a c) s = goOnBlock h s x _ x.thr := hi
    generalize writeRing _ _ _ = b at hi hob hthreads hty hread
    refine objectGoes_goOnBlock he rfl hi hthreads rfl (Kept.refl _ _) hob trivial ⟨hty, hread.trans ?_⟩
    have e1 := extractLsb'_eq_ofNat c0 0 16
    have e3 := extractLsb'_eq_ofNat c1 0 24
    rw [Nat.pow_zero, Nat.div_one] at e1 e3
    rw [e1, e3, extractLsb'_eq_ofNat c0 20 4]; rfl
  case binit =>
    have hi := ((exec_binit h a c s).trans (guarded_true he.1 he.2 _)).trans (checked_of_none
      ((Why.first_none (objectWhy_eq_none hwin hal 0)).trans (binitWhy_none hring hlo hhi hidle)) _)
    obtain ⟨bi, hthreads⟩ := freshBarrier hspad o.toNat (x.blk.order.initBarrier o.toNat) ⟨0, c0.extractLsb' 0 16, 0, 0, false⟩
    have hi : exec (.binit h a c) s = goOnBlock h s x _ x.thr := hi
    generalize noteWaiters _ _ = b at hi bi hthreads
    obtain ⟨wt, hread⟩ := bi.read
    have e1 := extractLsb'_eq_ofNat c0 0 16
    rw [Nat.pow_zero, Nat.div_one, Nat.mod_eq_of_lt hhi] at e1
    refine objectGoes_goOnBlock he rfl hi hthreads rfl (Kept.refl _ _) bi.object trivial ⟨bi.typed, wt, hread.trans ?_⟩
    rw [e1]
  case range =>
    exact trapsOn_checked ((Why.first_none (objectWhy_eq_none hwin hal 0)).trans (binitWhy_range hring hbad))
      ((exec_binit h a c s).trans (guarded_true he.1 he.2 _))

end Sys2Proof.Machine

/-- Settles O29: a ring instruction writes one ring object, CPY.RING reserves a slot and sends, and RINIT and BINIT write fresh objects. -/
theorem ringsAdvanceAndObjectsBegin : Obligations.RingsAdvanceAndObjectsBegin :=
  ⟨Sys2Proof.Machine.ringsAdvance, Sys2Proof.Machine.objectsAreInitialised⟩
end

section
/-! PROOF. BARV, BWAIT, BARW, FENCE and GROW (O30). -/

namespace Sys2Proof.Machine

open Sys2Proof

variable {i : Instr} {h : Hdr} {s t : State} {x : Cx} {b : Block} {a : LocAddr} {n : Nat} {r : Barrier} {d : VReg}

/-! ### A barrier that its instruction may use (R194, R195) -/

theorem reached_iff (r : Barrier) (t : BitVec 16) : r.reached t = true ↔ 0 ≤ (r.phase - t).toInt := by
  rw [Barrier.reached, BitVec.msb_eq_toInt, Bool.not_eq_true', decide_eq_false_iff_not, not_lt]

theorem barOp_barrier (hwin : inWindow x.blk (localOff s x.thr a) 16 = true) (hal : localOff s x.thr a % 16 = 0)
    (hty : granType x.blk (localOff s x.thr a).toNat = some .barrier) (k : Int → Barrier → Out) :
    barOp s x a k = k (localOff s x.thr a) (readBarrier x.blk (localOff s x.thr a).toNat) :=
  checked_of_none ((Why.first_none (objectWhy_eq_none hwin hal 0)).trans (if_pos hty)) _

theorem Kept.targetPend {c : Touch} {u w : Thread} (k : Kept c u w) (d : Option VReg) (hd : d.isSome → Part.pend ∈ c.parts)
    (target : BitVec 16) : Kept c u (targetPend w d target) := by
  cases d with
  | none => exact k
  | some d => exact k.pend (hd rfl) _

/-- An arrival that goes on. -/
theorem barrier_goes {w : Thread} {parts : List Part} {post : Thread → Prop} (he : Executes h s x)
    (hi : exec i s = goOnBlock h s x b w) (bi : BarrierIn x.blk b n r) (hthreads : b.threads = x.blk.threads) (hpc : w.pc = x.thr.pc)
    (k : Kept { parts := parts } x.thr w) (hpost : post (w.done s.cycle h)) :
    ObjectGoes i s x h parts n 16 post (fun c => ∃ wt, readBarrier c n = { r with wt := wt }) :=
  objectGoes_goOnBlock he rfl hi hthreads hpc k bi.object hpost (bi.setThread ..).read

/-- A wait that has ended. -/
theorem barrier_passes {w : Thread} {target : BitVec 16} {parts : List Part} {post : Thread → Prop} (he : Executes h s x)
    (hi : exec i s = passBarrier h s x b n target w) (bi : BarrierIn x.blk b n r) (hthreads : b.threads = x.blk.threads)
    (hpc : w.pc = x.thr.pc) (k : Kept { parts := parts } x.thr w) (hpost : post ((w.acquire (b.order.upTo n target)).done s.cycle h)) :
    ObjectGoes i s x h parts n 16 post (fun c => ∃ wt, readBarrier c n = { r with wt := wt }) := by
  have bi' := (bi.setThread x.tid.tidx ((w.acquire (b.order.upTo n target)).done s.cycle h)).noteWaiters
  refine objectGoes_setBlock (w := w.acquire (b.order.upTo n target)) he (acquireBlock_rest s x.blk x.coreId) hi ?_ hpc (k.known _) bi'.object hpost bi'.read
  rw [noteWaiters_threads, ← hthreads]; rfl

/-- The thread waits on a barrier, keeping its arrival. -/
def WaitsAt (i : Instr) (s : State) (x : Cx) (n : Nat) (on : WaitOn) (arrival : Option (Nat × BitVec 16)) (r : Barrier) : Prop :=
  ∃ t b f, exec i s = .next t
    ∧ LocalWrite s t x ({ x.thr with arrival := arrival }.hold s.cycle (.waiting on)) (patched (spadByte s x.tid.slot) n 16 f)
        (tileByte s x.tid.slot)
    ∧ blockOf t x.tid.slot = some b ∧ ∃ wt, readBarrier b n = { r with wt := wt }

theorem barrier_waits {on : WaitOn} {arrival : Option (Nat × BitVec 16)} (he : Executes h s x)
    (hi : exec i s = waitBarrier s x b n { x.thr with arrival := arrival } on) (bi : BarrierIn x.blk b n r)
    (hthreads : b.threads = x.blk.threads) : WaitsAt i s x n on arrival r := by
  have bi' := (bi.setThread x.tid.tidx ({ x.thr with arrival := arrival }.hold s.cycle (.waiting on))).noteWaiters
  refine ⟨_, _, _, hi, bi'.object.localWrite he.1 ?_, by rw [blockOf_setBlock, if_pos rfl], bi'.read⟩
  rw [noteWaiters_threads, ← hthreads]; rfl

/-! ### The three instructions -/

section
variable {e : Option VReg} {target : BitVec 16}

/-- The result of an arrival is on its way, where a register takes it. -/
def SendsTarget (e : Option VReg) (target : BitVec 16) (x : Cx) (w : Thread) : Prop :=
  ∀ d, e = some d → w.pend = x.thr.pend ++ [⟨false, [(d, target.setWidth 32, false)], none, 0, false⟩]

/-- The parts of its thread that an arrival touches. -/
def arrivalParts (e : Option VReg) : List Part := if e.isSome then [.pend] else []

theorem kept_targetPend {w : Thread} (k : ∀ c, Kept c x.thr w) : Kept { parts := arrivalParts e } x.thr (targetPend w e target) :=
  (k _).targetPend e (fun he => by rw [arrivalParts, if_pos he]; exact List.mem_singleton_self _) target

theorem sendsTarget_done {w : Thread} {c : Clock} (hp : w.pend = x.thr.pend) :
    SendsTarget e target x (((targetPend w e target).acquire c).done s.cycle h) := by
  rintro d rfl
  exact congrArg (· ++ [⟨false, [(d, target.setWidth 32, false)], none, 0, false⟩]) hp

theorem exec_barv_barrier (he : Executes h s x) (hwf : memoryWf s) (hwin : inWindow x.blk (localOff s x.thr a) 16 = true)
    (hal : localOff s x.thr a % 16 = 0) (hty : granType x.blk (localOff s x.thr a).toNat = some .barrier)
    (hr : r = readBarrier x.blk (localOff s x.thr a).toNat) (e : Option VReg) :
    ObjectGoes (.barv h e a) s x h (arrivalParts e) (localOff s x.thr a).toNat 16 (SendsTarget e (r.phase + 1) x)
      (fun c => ∃ wt, readBarrier c (localOff s x.thr a).toNat = { arrivedOnce r with wt := wt }) := by
  subst hr
  refine barrier_goes he ((exec_barv ..).trans ((guarded_true he.1 he.2 _).trans (barOp_barrier hwin hal hty _)))
    (barrierIn_arriveAt (memWf_curCx he.1 hwf).1 hty x.thr) (arriveAt_threads ..) (by cases e <;> rfl)
    (kept_targetPend fun c => Kept.refl c x.thr) ?_
  rintro d rfl; rfl

theorem exec_bwait_barrier {c : VReg} (he : Executes h s x) (hwf : memoryWf s) (hwin : inWindow x.blk (localOff s x.thr a) 16 = true)
    (hal : localOff s x.thr a % 16 = 0) (hty : granType x.blk (localOff s x.thr a).toNat = some .barrier)
    (hr : r = readBarrier x.blk (localOff s x.thr a).toNat) (ht : target = (rdV s x.thr c).extractLsb' 0 16) :
    (0 ≤ (r.phase - target).toInt → ObjectGoes (.bwait h a c) s x h [] (localOff s x.thr a).toNat 16 (fun _ => True)
      (fun b => ∃ wt, readBarrier b (localOff s x.thr a).toNat = { r with wt := wt }))
    ∧ (¬ 0 ≤ (r.phase - target).toInt →
      WaitsAt (.bwait h a c) s x (localOff s x.thr a).toNat (.bar (localOff s x.thr a).toNat target) x.thr.arrival r) := by
  subst hr ht
  have hi := (exec_bwait h a c s).trans ((guarded_true he.1 he.2 _).trans (barOp_barrier hwin hal hty _))
  have bi := barrierIn_refl (memWf_curCx he.1 hwf).1 hty
  refine ⟨fun hreached => ?_, fun hnot => ?_⟩
  · exact barrier_passes he (hi.trans (if_pos ((reached_iff ..).mpr hreached))) bi rfl rfl (Kept.refl _ _) trivial
  · exact barrier_waits he (hi.trans (if_neg ((reached_iff ..).not.mpr hnot))) bi rfl

/-- BARW after its arrival. -/
theorem barwWait_barrier (he : Executes h s x) (hi : exec i s = barwWait h e s x b n target) (bi : BarrierIn x.blk b n r)
    (hthreads : b.threads = x.blk.threads) :
    (0 ≤ (r.phase - target).toInt → ObjectGoes i s x h (arrivalParts e) n 16 (fun w => w.arrival = none ∧ SendsTarget e target x w)
      (fun c => ∃ wt, readBarrier c n = { r with wt := wt }))
    ∧ (¬ 0 ≤ (r.phase - target).toInt → WaitsAt i s x n (.barw n target) (some (n, target)) r) := by
  obtain ⟨wt, hread⟩ := bi.read
  have hphase : (readBarrier b n).reached target = r.reached target := by rw [hread]; rfl
  rw [barwWait, hphase] at hi
  refine ⟨fun hreached => ?_, fun hnot => ?_⟩
  · refine barrier_passes he (hi.trans (if_pos ((reached_iff ..).mpr hreached))) bi hthreads (by cases e <;> rfl)
      (kept_targetPend fun c => (Kept.refl c x.thr).arrival none) ⟨by cases e <;> rfl, sendsTarget_done rfl⟩
  · exact barrier_waits he (hi.trans (if_neg ((reached_iff ..).not.mpr hnot))) bi hthreads

theorem exec_barw_arrives (he : Executes h s x) (hwin : inWindow x.blk (localOff s x.thr a) 16 = true)
    (hal : localOff s x.thr a % 16 = 0) (hty : granType x.blk (localOff s x.thr a).toNat = some .barrier)
    (harr : x.thr.arrival = none) (e : Option VReg) :
    exec (.barw h e a) s = barwWait h e s x (arriveAt x.blk x.thr (localOff s x.thr a).toNat) (localOff s x.thr a).toNat
      ((readBarrier x.blk (localOff s x.thr a).toNat).phase + 1) := by
  rw [exec_barw, execBarw, he.1]
  dsimp only
  rw [harr]
  exact (guarded_true he.1 he.2 _).trans (barOp_barrier hwin hal hty _)

theorem exec_barw_arrived (he : Executes h s x) (harr : x.thr.arrival = some (n, target)) (e : Option VReg) (a : LocAddr) :
    exec (.barw h e a) s = barwWait h e s x x.blk n target := by
  rw [exec_barw, execBarw, he.1]
  dsimp only
  rw [harr]

end

theorem ObjectGoes.mono {o n : Nat} {parts : List Part} {post post' : Thread → Prop} {after : Block → Prop}
    (og : ObjectGoes i s x h parts o n post after) (hp : ∀ w, post w → post' w) : ObjectGoes i s x h parts o n post' after := by
  obtain ⟨t, w, c, f, hnext, hat, hkept, hpost, hrest⟩ := og
  exact ⟨t, w, c, f, hnext, hat, hkept, hp w hpost, hrest⟩

theorem barriersCountAndWait : Claims.BarriersCountAndWait := by
  intro h d a c s x he hwf o n r target next reached sends upto waits hwin hal hty
  have hbarv := fun e => exec_barv_barrier he hwf hwin hal hty rfl e
  obtain ⟨hpass, hwait⟩ := exec_bwait_barrier (c := c) he hwf hwin hal hty rfl rfl
  refine ⟨(hbarv none).mono fun _ _ => trivial, (hbarv (some d)).mono fun w hw => hw d rfl, hpass, hwait, fun harr => ?_,
    fun t harr b => ?_⟩
  · have bi := barrierIn_arriveAt (memWf_curCx he.1 hwf).1 hty x.thr
    have hbarw := fun e => barwWait_barrier he (exec_barw_arrives he hwin hal hty harr e) bi (arriveAt_threads ..)
    exact ⟨fun hr => ⟨((hbarw none).1 hr).mono fun _ _ => trivial, ((hbarw (some d)).1 hr).mono fun w hw => hw.2 d rfl⟩,
      fun hr e _ => (hbarw e).2 hr⟩
  · have hbarw := barwWait_barrier he (exec_barw_arrived he harr none b) (barrierIn_refl (memWf_curCx he.1 hwf).1 hty) rfl
    exact ⟨fun hr => (hbarw.1 hr).mono fun _ hw => hw.1, hbarw.2⟩

/-! ### FENCE and GROW (R196, R197) -/

/-- An acquiring fence. -/
theorem fence_acquires {sc : Scope} (he : Executes h s x) (hi : exec i s = goOn h (acquireAt s x.blk x.coreId (some sc)) x x.thr) :
    ∃ t w, exec i s = .next t ∧ Did s { t with cores := s.cores } x h {} w
      ∧ (sc ≠ .block → OnlyCore s t x.coreId { coreOf s x.coreId with l1 := (coreOf s x.coreId).l1.filter L1Line.excl }) := by
  have hrest := acquireAt_rest s x.blk x.coreId (some sc)
  have hcycle : (acquireAt s x.blk x.coreId (some sc)).cycle = s.cycle := (congrArg State.cycle hrest :)
  rw [goOn, hcycle] at hi
  refine ⟨_, x.thr.done s.cycle h, hi, ⟨onlyThread_cores hrest he.1 _, at_done s h x.thr x.thr rfl, (Kept.refl {} x.thr).done _ _⟩,
    fun hsc => ?_⟩
  have hl1 : acquireAt s x.blk x.coreId (some sc) = l1Acquire s x.coreId := by cases sc <;> first | exact absurd rfl hsc | rfl
  rw [hl1]
  exact onlyCore_setCore ..

theorem modLaunch_some {k : Nat} {l : Launch} (hl : launchOf s k = some l) (f : Launch → Launch) : modLaunch s k f = setLaunch s k (f l) := by
  rw [modLaunch, hl]

/-- GROW that sends the dimension and raises it. -/
theorem launch_grows {l : Launch} {m : Nat} (he : Executes h s x) (hx : l.gridx < 2 ^ 32)
    (hi : exec i s = goOnPend h (setLaunch s x.blk.launch { l with gridx := l.gridx + min m (0xFFFFFFFF - l.gridx) }) x x.thr
      (pendVals [(d, BitVec.ofNat 32 l.gridx, false)])) :
    ∃ t w, exec i s = .next t ∧ Did s { t with launches := s.launches } x h { parts := [.pend] } w
      ∧ w.pend = x.thr.pend ++ [⟨false, [(d, BitVec.ofNat 32 l.gridx, false)], none, 0, false⟩]
      ∧ launchOf t x.blk.launch = some { l with gridx := min (l.gridx + m) (2 ^ 32 - 1) }
      ∧ ∀ k, k ≠ x.blk.launch → launchOf t k = launchOf s k := by
  have hmin : l.gridx + min m (0xFFFFFFFF - l.gridx) = min (l.gridx + m) (2 ^ 32 - 1) := by omega
  rw [hmin] at hi
  let grown := setLaunch s x.blk.launch { l with gridx := min (l.gridx + m) (2 ^ 32 - 1) }
  let w := (pendTo x.thr (pendVals [(d, BitVec.ofNat 32 l.gridx, false)])).done s.cycle h
  have hput : { setThread grown x.tid w with launches := s.launches } = setThread s x.tid w := by
    rw [setThread_eq_putThread, setThread_eq_putThread]; rfl
  refine ⟨setThread grown x.tid w, w, hi, ?_, rfl, ?_, fun k hk => ?_⟩
  · exact hput.symm ▸ did_goOn he.1 rfl ((Kept.refl { parts := [.pend] } x.thr).pend (List.mem_singleton_self _) _)
  · rw [setThread_eq_putThread]; exact Assoc.get_set_self ..
  · rw [setThread_eq_putThread]; exact Assoc.get_set_ne _ _ hk

theorem fencesAndGrowth : Claims.FencesAndGrowth := by
  intro h kind scope d a s x l he hl n grows
  have hcoop : launchFlag s x.blk Launch.coop = l.coop := launchFlag_of_launchOf hl _
  have hgrow := (exec_grow h d a s).trans (guarded_true he.1 he.2 _)
  rw [hcoop] at hgrow
  refine ⟨?fence, fun ⟨hdim, hnc⟩ hx => ?grow, fun hno => ?illegal⟩
  case fence =>
    have hf := (exec_fence h kind scope s).trans (guarded_true he.1 he.2 _)
    cases kind with
    | rel =>
      obtain ⟨hnext, hdid⟩ := did_of_goOn he hf rfl (Kept.refl {} x.thr)
      have hrest : { s with cores := s.cores } = s := rfl
      exact ⟨_, _, hnext, (setThread_upToCores hrest ..).symm ▸ hdid, fun _ => by rw [setThread_eq_putThread], fun hne => absurd rfl hne⟩
    | acq =>
      obtain ⟨t, w, hnext, hdid, hcore⟩ := fence_acquires he hf
      exact ⟨t, w, hnext, hdid, (fun hk => by cases hk), fun _ => hcore⟩
    | full =>
      obtain ⟨t, w, hnext, hdid, hcore⟩ := fence_acquires he hf
      exact ⟨t, w, hnext, hdid, (fun hk => by cases hk), fun _ => hcore⟩
  case grow =>
    have hyes : x.blk.grid.2 = (1, 1) ∧ (!l.coop) = true := ⟨hdim, by rw [hnc]; rfl⟩
    have hi := hgrow.trans (if_pos hyes)
    dsimp only at hi
    rw [hl, modLaunch_some hl] at hi
    exact launch_grows he hx hi
  case illegal =>
    have hnot : ¬(x.blk.grid.2 = (1, 1) ∧ (!l.coop) = true) := fun hh => hno ⟨hh.1, by simpa using hh.2⟩
    exact hgrow.trans (if_neg hnot)

end Sys2Proof.Machine

/-- Settles O30: an arrival and a wait write one barrier object and its thread, a fence only L1 copies, and GROW the launch's grid. -/
theorem barriersFencesAndGrowth : Obligations.BarriersFencesAndGrowth :=
  ⟨Sys2Proof.Machine.barriersCountAndWait, Sys2Proof.Machine.fencesAndGrowth⟩
end

section
/-! PROOF. Parts of a plain copy between scratchpads, and the end of a copy (O35). -/

namespace Sys2Proof.Machine

open Sys2Proof

variable {s t : State} {q : CopyReq} {e k chunk slotD slotS d a c n : Nat} {bd bs : Block}

/-! ### What a part moves (R187) -/

theorem le_toPageEnd {off : Nat} (hn : 0 < n) (h : off + n ≤ 2 ^ 32) : n ≤ toPageEnd (2 ^ 32) off := by
  rw [toPageEnd, Nat.mod_eq_of_lt (by omega)]; omega

/-- A run that lies in one page of each side is not cut. -/
theorem cutSeg_whole {pg : Pages} {dst src : Nat} (hd : n ≤ toPageEnd pg.dst dst) (hs : n ≤ toPageEnd pg.src src) :
    cutSeg pg ⟨n, dst, [src]⟩ = [⟨n, dst, [src]⟩] := by
  have hk : n ≤ ([src].map (toPageEnd pg.src)).foldl min (min n (toPageEnd pg.dst dst)) := le_min (le_min le_rfl hd) hs
  rw [cutSeg, cutRun, if_pos hk]

/-- A move between scratchpads. -/
structure SpadMove (q : CopyReq) (slotD d slotS a : Nat) : Prop where
  kind : q.kind = .move
  dst : q.dst = .spad slotD d
  src : q.src = .spad slotS a

namespace SpadMove

variable (mv : SpadMove q slotD d slotS a)
include mv

theorem pages (s : State) : q.pages s = ⟨2 ^ 32, 2 ^ 32⟩ := by rw [CopyReq.pages, mv.dst, mv.src]; rfl

theorem part (hc : c = 4096 * chunk + q.served? chunk) (hn : n = q.chunkLen chunk - q.served? chunk) (hpos : 0 < n)
    (hd : d + c + n ≤ 2 ^ 32) (ha : a + c + n ≤ 2 ^ 32) : q.part (q.pages s) chunk = (c, n) := by
  rw [CopyReq.part, mv.pages, mv.kind, mv.dst, mv.src, ← hc, ← hn]
  have hdst : min n (toPageEnd (2 ^ 32) (d + c)) = n := min_eq_left (le_toPageEnd hpos hd)
  have hsrc : min n (toPageEnd (2 ^ 32) (a + c)) = n := min_eq_left (le_toPageEnd hpos ha)
  simp only [Side.start, hdst, hsrc]

theorem segs (hpos : 0 < n) (hd : d + c + n ≤ 2 ^ 32) (ha : a + c + n ≤ 2 ^ 32) :
    q.segs (q.pages s) c n = [⟨n, d + c, [a + c]⟩] := by
  rw [CopyReq.segs, mv.pages, mv.kind, mv.dst, mv.src]
  exact cutSeg_whole (le_toPageEnd hpos hd) (le_toPageEnd hpos ha)

/-- Bytes outside the source range of the same scratchpad do not overlap (R188). -/
theorem overlaps {b : Nat} (hb : slotD = slotS → ¬(a ≤ b ∧ b < a + q.len)) : q.overlaps b = false := by
  rw [CopyReq.overlaps, mv.kind, mv.dst, mv.src]
  simp only [Side.start]
  by_cases hs : slotD = slotS
  · exact Bool.and_eq_false_iff.mpr (.inr (decide_eq_false (hb hs)))
  · exact Bool.and_eq_false_iff.mpr (.inl (beq_eq_false_iff_ne.mpr (Ne.symm hs)))

theorem blur (ctr : Nat) {at0 : Nat} {bytes : List Byte}
    (hb : ∀ i, i < bytes.length → slotD = slotS → ¬(a ≤ at0 + i ∧ at0 + i < a + q.len)) : q.blur ctr at0 bytes = bytes := by
  refine List.ext_getElem (by rw [CopyReq.blur, List.length_mapIdx]) fun i _ hi => ?_
  simp only [CopyReq.blur, List.getElem_mapIdx, mv.overlaps (hb i hi), Bool.false_eq_true, if_false]

/-- The part that is served next: its bytes are read before any is written. -/
theorem servePart (hc : c = 4096 * chunk + q.served? chunk) (hn : n = q.chunkLen chunk - q.served? chunk) (hpos : 0 < n)
    (hd : d + c + n ≤ 2 ^ 32) (ha : a + c + n ≤ 2 ^ 32) (hS : blockOf s slotS = some bs) (hclean : ∀ j, spadPoisoned bs j = false)
    (hover : ∀ i, i < n → slotD = slotS → ¬(a ≤ d + c + i ∧ d + c + i < a + q.len)) :
    servePart s e k q chunk = .next (setReq (modBlock s slotD fun b =>
        (writePlain b (d + c) (bs.spad.readBytes (a + c) n)).wroteOp [(agentOf q.id, 1)] q.id false (d + c) n) e k
      { q with served := Assoc.set q.served chunk (q.served? chunk + n) }) := by
  have hread : readTarget s (.spad slotS (a + c)) n = (bs.spad.readBytes (a + c) n, false) := by
    simp only [readTarget, hS, hclean, Prod.mk.injEq, true_and]
    exact List.any_eq_false.mpr fun _ _ => Bool.false_ne_true
  have hplace : placeSegs q [⟨n, d + c, [a + c]⟩] s = (s, [⟨n, .spad slotD (d + c), [.spad slotS (a + c)]⟩], []) := by
    simp only [placeSegs, targets, targetOf, mv.dst, mv.src, List.append_nil]
  have hlen : (bs.spad.readBytes (a + c) n).length = n := Memory.readBytes_length ..
  have hblur : q.blur s.freeCtr (d + c) (bs.spad.readBytes (a + c) n) = bs.spad.readBytes (a + c) n :=
    mv.blur s.freeCtr fun i hi => hover i (hlen ▸ hi)
  have hreads : ∀ ps own, q.reads s ps own n = q := fun ps own => by rw [CopyReq.reads, mv.kind]; rfl
  have hsource : q.source s (.spad slotS (a + c)) n = (bs.spad.readBytes (a + c) n, false) := by
    rw [CopyReq.source, mv.kind, ← hread]; rfl
  have hskips : q.skips c n = false := by rw [CopyReq.skips, mv.kind]
  have hmove : moveRuns q s.freeCtr false s [⟨n, .spad slotD (d + c), [.spad slotS (a + c)]⟩] s = modBlock s slotD fun b =>
      (writePlain b (d + c) (bs.spad.readBytes (a + c) n)).wroteOp [(agentOf q.id, 1)] q.id false (d + c) n := by
    simp only [moveRuns, List.foldl_cons, List.foldl_nil, List.map_cons, List.map_nil, hsource, CopyReq.value, mv.kind, List.headD_cons,
      Target.at, hblur, List.any_cons, List.any_nil, Bool.or_false, writeTarget, Bool.false_eq_true, if_false, hlen]
  have hquiet : refreshing s [⟨n, .spad slotD (d + c), [.spad slotS (a + c)]⟩] = false := rfl
  have hfree : heldUp s [⟨n, .spad slotD (d + c), [.spad slotS (a + c)]⟩] = false := rfl
  have hpeer : peerGone s [⟨n, .spad slotD (d + c), [.spad slotS (a + c)]⟩] = false := rfl
  have hfaults : faultsOf ([] ++ []) = [] := rfl
  unfold Machine.servePart
  simp only [mv.part hc hn hpos hd ha, mv.segs hpos hd ha, mv.kind, targets, hplace, hreads, hsource, hskips, hmove, hquiet, hfree, hpeer,
    hfaults, List.any_cons, List.any_nil, Bool.or_self, Bool.false_eq_true, if_false, ne_eq, not_true]
  rfl

end SpadMove

/-! ### COPY_CHUNK_PART (R187, R394) -/

/-- The chunk's next part is served: the request is active, in order and waits on no fault. -/
theorem exec_copyChunkPart_serves (hq : (engineOf s e).reqs[k]? = some q) (hplain : q.sealed = none)
    (hact : activeAt s e q.id = true) (hlen : 4096 * chunk < q.len) (hleft : q.served? chunk ≠ q.chunkLen chunk)
    (hf : ∀ f ∈ q.faults, f.1 ≠ chunk) (hord : inOrder s e q = true) : exec (.copyChunkPart e k chunk) s = servePart s e k q chunk := by
  have hfaults : q.faults.any (fun f => f.1 == chunk) = false :=
    List.any_eq_false.mpr fun f hmem => by rw [beq_eq_false_iff_ne.mpr (hf f hmem)]; exact Bool.false_ne_true
  rw [exec_copyChunkPart, execCopyChunkPart, hq]
  dsimp only
  rw [hact, hord, hfaults, hplain, if_neg]
  simp only [Bool.not_true, Bool.false_eq_true, not_le.mpr hlen, hleft, or_self, not_false_eq_true]

theorem writePlain_untyped {b : Block} {addr : Nat} {bytes : List Byte} (ht : typedWhy b addr bytes.length = none) :
    writePlain b addr bytes = writeSpad b addr bytes := by rw [writePlain, ht]; rfl

theorem typedWhy_none {b : Block} {addr len : Nat} (ht : ∀ y ∈ b.types, ¬(y.1 < addr + len ∧ addr < y.1 + 16)) :
    typedWhy b addr len = none := by
  have hfind : b.types.find? (fun p => decide (p.1 < addr + len ∧ addr < p.1 + 16)) = none :=
    List.find?_eq_none.mpr fun y hy => by rw [decide_eq_true_eq]; exact ht y hy
  rw [typedWhy, hfind]

/-- The state after a part has moved from scratchpad bytes to a scratchpad. -/
theorem movedPart {q' : CopyReq} {addr : Nat} {ord : Block → Order} (hwf : memoryWf s) (hD : blockOf s slotD = some bd)
    (hS : blockOf s slotS = some bs) (ht : typedWhy bd addr n = none) {src : Nat}
    (hm : t = setReq (modBlock s slotD fun b => { writePlain b addr (bs.spad.readBytes src n) with order := ord b }) e k q') :
    (∀ j, spadByte t slotD j = if addr ≤ j ∧ j < addr + n then spadByte s slotS (src + (j - addr)) else spadByte s slotD j)
      ∧ (∀ slot, slot ≠ slotD → blockOf t slot = blockOf s slot) ∧ { t with blocks := s.blocks, engines := s.engines } = s
      ∧ (engineOf t e).reqs = (engineOf s e).reqs.set k q' := by
  have hlen : (bs.spad.readBytes src n).length = n := Memory.readBytes_length ..
  have hset : t = setReq (setBlock s slotD { writeSpad bd addr (bs.spad.readBytes src n) with order := ord bd }) e k q' := by
    rw [hm, modBlock, hD]
    dsimp only
    rw [writePlain_untyped (hlen.symm ▸ ht)]
  subst hset
  have hown : ∀ c slot, blockOf (setReq (setBlock s slotD c) e k q') slot = if slot = slotD then some c else blockOf s slot :=
    fun c slot => (blockOf_congr rfl slot).trans (blockOf_setBlock s slotD slot c)
  refine ⟨fun j => ?_, fun slot hs => by rw [hown, if_neg hs], rfl, ?_⟩
  · have hread : spadByte s slotS = bs.spad.read := by funext i; rw [spadByte, hS]
    have hold : spadByte s slotD = bd.spad.read := by funext i; rw [spadByte, hD]
    rw [spadByte, hown, if_pos rfl, hread, hold]
    refine (Memory.read_writeBytes _ (memoryWf_block hwf hD).1 addr j).trans ?_
    rw [hlen]
    split_ifs with hj
    · rw [readBytes_eq_map, List.getD_eq_getElem?_getD, List.getElem?_map, List.getElem?_range (by omega)]; rfl
    · rfl
  · exact congrArg Engine.reqs ((engineOf_setEngine _ e e _).trans (if_pos rfl))

/-! ### COPY_COMPLETE (R26) -/

section
variable {tid : ThreadId} {reg : VReg} {u : Thread} {of : TokenOf}

theorem settleSpoil_rest (s : State) (tid : ThreadId) : { settleSpoil s tid with blocks := s.blocks } = s := by
  unfold settleSpoil
  split
  · rfl
  · dsimp only
    split_ifs
    · rfl
    · exact modBlock_rest ..

/-- Landing tokens leaves the loans where none of their registers is lent. -/
theorem landToken_lent (now : Nat) (w : Word) (hl : ∀ l ∈ u.lent, ∀ y ∈ u.tokens, y.reg ∉ l.frag) :
    (landToken now u of w).lent = u.lent := by
  unfold landToken
  refine List.foldlRecOn _ _ (motive := fun v : Thread => v.lent = u.lent) rfl fun v hv y hy => ?_
  have hspoil : spoil v.lent (fun l => l.frag.contains y.reg) = u.lent := by
    rw [hv]
    refine spoil_of_none (List.any_eq_false.mpr fun l hmem => ?_)
    simpa using hl l hmem y (List.mem_filter.mp hy).1
  cases of <;> exact hspoil

/-- A copy that a thread waits for ends by landing its token. -/
theorem exec_copyComplete_lands (hq : (engineOf s e).reqs[k]? = some q) (hall : q.allServed = true) (hpkt : q.packet = none)
    (hring : q.ring = none) (htok : q.token = some (tid, reg)) (hdst : q.dst = .spad slotD d) (hu : threadOf s tid = some u)
    {s1 : State} (hs1 : s1 = setEngine s e { engineOf s e with reqs := (engineOf s e).reqs.eraseIdx k }) :
    exec (.copyComplete e k) s =
      .next (settleSpoil (setThread s1 tid (landToken s.cycle u (.copy q.id) q.status)) tid) := by
  have hnext : ringNext s q = true := by rw [ringNext, hring]
  have hpublish : publishRing s1 q = s1 := by rw [publishRing, hring]
  have hdrop : ∀ n, dropDest s1 n q = s1 := fun n => by rw [dropDest, hdst]
  have hlost : q.endStatus s1 = q.status := by
    have hkept : q.lost s1 = false := by rw [CopyReq.lost, hdst]
    rw [CopyReq.endStatus, hkept]; rfl
  have hthread : threadOf s1 tid = some u := (threadOf_congr (by rw [hs1]; rfl) tid).trans hu
  have hcycle : s1.cycle = s.cycle := by rw [hs1]; rfl
  rw [exec_copyComplete, execCopyComplete, hq]
  dsimp only
  rw [hall, hpkt, hnext, if_neg (by decide), ← hs1, hpublish, htok]
  dsimp only
  have hland : modThread s1 tid (fun t => landToken s1.cycle t (.copy q.id) (q.endStatus s1)) =
      setThread s1 tid (landToken s.cycle u (.copy q.id) q.status) := by rw [modThread_eq_setThread hthread, hlost, hcycle]
  cases blockOf s1 tid.slot with
  | none =>
    dsimp only
    rw [hland]
  | some b =>
    dsimp only
    rw [hdrop, hland]

end

theorem copiesMoveTheirBytes_part (hq : (engineOf s e).reqs[k]? = some q) (hplain : q.sealed = none) (hwf : memoryWf s)
    (hD : blockOf s slotD = some bd) (hS : blockOf s slotS = some bs) (mv : SpadMove q slotD d slotS a)
    (hapart : slotD = slotS → d + q.len ≤ a ∨ a + q.len ≤ d) (hact : activeAt s e q.id = true) (hchunk : 4096 * chunk < q.len)
    (hord : inOrder s e q = true) (hd : d + q.len ≤ 2 ^ 32) (ha : a + q.len ≤ 2 ^ 32) (hf : ∀ f ∈ q.faults, f.1 ≠ chunk)
    (hclean : ∀ j, spadPoisoned bs j = false) (hty : ∀ y ∈ bd.types, ¬(y.1 < d + q.len ∧ d < y.1 + 16)) {start : Nat}
    (hstart : start = 4096 * chunk + q.served? chunk) (hn : n = min 4096 (q.len - 4096 * chunk) - q.served? chunk) (hpos : 0 < n) :
    ∃ t, exec (.copyChunkPart e k chunk) s = .next t
      ∧ (∀ j, spadByte t slotD j = if d + start ≤ j ∧ j < d + start + n then spadByte s slotS (a + start + (j - (d + start)))
          else spadByte s slotD j)
      ∧ (∀ slot, slot ≠ slotD → blockOf t slot = blockOf s slot)
      ∧ { t with blocks := s.blocks, engines := s.engines } = s
      ∧ (engineOf t e).reqs = (engineOf s e).reqs.set k { q with served := Assoc.set q.served chunk (q.served? chunk + n) } := by
  have hlast : start + n ≤ q.len := by omega
  have hleft : q.served? chunk ≠ q.chunkLen chunk := by rw [CopyReq.chunkLen]; omega
  have hserve := (exec_copyChunkPart_serves hq hplain hact hchunk hleft hf hord).trans
    (mv.servePart hstart hn hpos (by omega) (by omega) hS hclean fun i hi hs => by have := hapart hs; omega)
  have htyped : typedWhy bd (d + start) n = none :=
    typedWhy_none fun y hy hmeets => hty y hy ⟨by omega, by omega⟩
  exact ⟨_, hserve, movedPart (ord := fun b => (writePlain b (d + start) (bs.spad.readBytes (a + start) n)).order.note
    [(agentOf q.id, 1)] ⟨false, d + start, n, agentOf q.id, 1⟩) hwf hD hS htyped rfl⟩

theorem copiesMoveTheirBytes_end {tid : ThreadId} {reg : VReg} {u : Thread} (hq : (engineOf s e).reqs[k]? = some q)
    (hall : q.allServed = true) (hpkt : q.packet = none) (hring : q.ring = none) (htok : q.token = some (tid, reg))
    (hdst : q.dst = .spad slotD d) (hu : threadOf s tid = some u) :
    ∃ t w, exec (.copyComplete e k) s = .next t ∧ (engineOf t e).reqs = (engineOf s e).reqs.eraseIdx k
      ∧ (∀ e', e' ≠ e → engineOf t e' = engineOf s e') ∧ threadOf t tid = some w
      ∧ { w with lent := u.lent } = { landToken s.cycle u (.copy q.id) q.status with lent := u.lent }
      ∧ ((∀ l ∈ u.lent, l.spoiled = false ∧ ∀ x ∈ u.tokens, x.reg ∉ l.frag) → OnlyThread s { t with engines := s.engines } tid w) := by
  let s1 := setEngine s e { engineOf s e with reqs := (engineOf s e).reqs.eraseIdx k }
  let v := landToken s.cycle u (.copy q.id) q.status
  have hexec : exec (.copyComplete e k) s = .next (settleSpoil (setThread s1 tid v) tid) :=
    exec_copyComplete_lands hq hall hpkt hring htok hdst hu rfl
  have hthread : threadOf s1 tid = some u := (threadOf_congr rfl tid).trans hu
  have hset : threadOf (setThread s1 tid v) tid = some v := by
    rw [threadOf_setThread, if_pos rfl, hthread]; rfl
  have hengines : (settleSpoil (setThread s1 tid v) tid).engines = s1.engines := by
    have hrest := congrArg State.engines (settleSpoil_rest (setThread s1 tid v) tid)
    exact hrest.trans (by rw [setThread_eq_putThread])
  have hengine : ∀ e', engineOf (settleSpoil (setThread s1 tid v) tid) e' = engineOf s1 e' := fun e' => by
    rw [engineOf, engineOf, hengines]
  obtain ⟨ls, hw⟩ := threadOf_settleSpoil hset
  refine ⟨_, { v with lent := ls }, hexec, ?_, fun e' he' => ?_, hw, rfl, fun hclean => ?_⟩
  · rw [hengine, engineOf_setEngine, if_pos rfl]
  · rw [hengine, engineOf_setEngine, if_neg he']
  · have hlent : v.lent = u.lent := landToken_lent s.cycle q.status fun l hl => (hclean l hl).2
    have hsettled : settleSpoil (setThread s1 tid v) tid = setThread s1 tid v :=
      settleSpoil_of_clean hset (by rw [hlent]; exact fun l hl => (hclean l hl).1)
    have hput : { setThread s1 tid v with engines := s.engines } = setThread s tid v := by
      rw [setThread_eq_putThread, setThread_eq_putThread]; rfl
    rw [hsettled] at hw ⊢
    rw [hput, ← Option.some.inj (hset.symm.trans hw)]
    exact onlyThread_of_threadOf hu v

end Sys2Proof.Machine

open Sys2Proof Sys2Proof.Machine in
/-- Settles O35: a part between scratchpads is one run, read before it is written, and a copy that ends lands its token's status. -/
theorem copiesMoveTheirBytes : Obligations.CopiesMoveTheirBytes := by
  intro s e k chunk q slotD slotS d a bd bs hq hplain hwf hD hS
  constructor
  case left =>
    intro hkind hdst hsrc hapart hact hchunk hord hd ha hf hclean hty start n hpos _
    exact copiesMoveTheirBytes_part hq hplain hwf hD hS ⟨hkind, hdst, hsrc⟩ hapart hact hchunk hord hd ha hf hclean hty rfl rfl hpos
  case right =>
    intro tid reg u hall hpkt hring htok hdst hu
    exact copiesMoveTheirBytes_end hq hall hpkt hring htok hdst hu
end

section
/-! SUPPORT. Waves and their streams (R210), and what an engine result leaves of its block (R201, R421). -/

namespace Sys2Proof.Machine

open Sys2Proof

variable {b c : Block} {w n : Nat} {q r : QReg}

/-! ### Waves and streams -/

/-- Setting a wave that the block has sets it alone. -/
theorem wave_setWave (hw : w < b.waves.length) (x : Wave) (k : Nat) : (b.setWave w x).wave k = if k = w then x else b.wave k := by
  rw [Block.wave, Block.setWave, List.getD_eq_getElem?_getD, listModify_get]
  split_ifs with h1 h2 h2
  · rw [← h1, List.getElem?_eq_getElem hw]; rfl
  · exact absurd h1.symm h2
  · exact absurd h2.symm h1
  · rw [Block.wave, List.getD_eq_getElem?_getD]

theorem setWave_waves_length (w : Nat) (x : Wave) : (b.setWave w x).waves.length = b.waves.length := listModify_length ..

theorem qstate_set (v : Vector QState 16) (q r : QReg) (y : QState) :
    (v.set q.toNat y (qreg_lt q))[r.toNat]'(qreg_lt r) = if r = q then y else v[r.toNat]'(qreg_lt r) := by
  rw [Vector.getElem_set]
  by_cases h : r = q
  · rw [if_pos h, if_pos (congrArg BitVec.toNat h.symm)]
  · rw [if_neg h, if_neg fun e => h (BitVec.eq_of_toNat_eq e.symm)]

/-- Rewriting a stream sets its wave. -/
theorem modStream_eq_setWave (b : Block) (w : Nat) (q : QReg) (f : QState → QState) : modStream b w q.toNat f =
    b.setWave w { b.wave w with q := (b.wave w).q.set q.toNat (f ((b.wave w).q[q.toNat]'(qreg_lt q))) (qreg_lt q) } := by
  rw [modStream, dif_pos (qreg_lt q)]

theorem modStream_congr {f g : QState → QState} (h : f ((b.wave w).q[q.toNat]'(qreg_lt q)) = g ((b.wave w).q[q.toNat]'(qreg_lt q))) :
    modStream b w q.toNat f = modStream b w q.toNat g := by
  rw [modStream_eq_setWave, modStream_eq_setWave, h]

/-! ### What an engine result leaves -/

/-- c is b but for the bytes of its stores, their poison, and the flags of its tiles. -/
def ResultIn (b c : Block) : Prop := { c with
  spad := b.spad, tiles := b.tiles, tflags := b.tflags, spadPoison := b.spadPoison, tilePoison := b.tilePoison } = b

theorem ResultIn.trans {d : Block} (h1 : ResultIn b c) (h2 : ResultIn c d) : ResultIn b d :=
  (congrArg (fun z : Block => { z with
    spad := b.spad, tiles := b.tiles, tflags := b.tflags, spadPoison := b.spadPoison, tilePoison := b.tilePoison }) h2 :).trans h1

theorem ResultIn.waves (h : ResultIn b c) : c.waves = b.waves := (congrArg Block.waves h :)
theorem ResultIn.order (h : ResultIn b c) : c.order = b.order := (congrArg Block.order h :)

theorem resultIn_foldl {α : Type} {f : Block → α → Block} (hf : ∀ b y, ResultIn b (f b y)) (ys : List α) (b : Block) :
    ResultIn b (ys.foldl f b) :=
  List.foldlRecOn ys f (motive := fun c : Block => ResultIn b c) rfl (fun _ hc y _ => hc.trans (hf _ y))

theorem resultIn_putWrite (core : Nat) (b : Block) (m : MatWrite) : ResultIn b (putWrite core b m) := by
  unfold putWrite writePlain
  split_ifs <;> rfl

theorem resultIn_putPoison (core : Nat) (b : Block) (m : MatWrite) : ResultIn b (putPoison core b m) := by
  unfold putPoison
  split_ifs
  · rfl
  · unfold poisonTile; rfl
  · unfold poisonSpad; rfl

theorem resultIn_clearDests (core : Nat) (b : Block) (rs : List Rng) : ResultIn b (clearDests core b rs) :=
  resultIn_foldl (fun b r => by split_ifs <;> rfl) rs b

theorem resultIn_putMat (core : Nat) (b : Block) (rs : List Rng) (o : MatOut) : ResultIn b (putMat core b rs o) := by
  have hclear := (resultIn_foldl (resultIn_putWrite core) o.writes b).trans (resultIn_clearDests core _ rs)
  have hpoison := hclear.trans (resultIn_foldl (resultIn_putPoison core) o.writes _)
  have hflags := hpoison.trans (resultIn_foldl (f := fun b k => setFlags b core k 0) (fun _ _ => rfl) o.clear _)
  exact hflags.trans (resultIn_foldl (f := fun b p => setFlags b core p.1 (flagsOf b core p.1 ||| p.2)) (fun _ _ => rfl) o.orTiles _)

end Sys2Proof.Machine
end

section
/-! PROOF. MATRIX_OP_START and MATRIX_OP_COMPLETE (O36). -/

namespace Sys2Proof.Machine

open Sys2Proof

variable {s : State} {b : Block} {slot w : Nat} {q : QReg} {o : QOp} {rest : List QOp}

/-! ### The head of a stream -/

/-- The operations of a wave's stream, with its head. -/
theorem ops_eq (hs : streamOf b w q = o :: rest) : ((b.wave w).q[q.toNat]'(qreg_lt q)).ops = o :: rest := hs

theorem memberSpoiled_eq_false {id : Nat} (h : ∀ t ∈ b.threads, ∀ l ∈ t.lent, l.op = id → l.spoiled = false) :
    memberSpoiled b id = false := by
  refine List.any_eq_false.mpr fun t ht => Bool.eq_false_iff.mp (List.any_eq_false.mpr fun l hl => ?_)
  simpa using h t ht l hl

/-! ### The start (R210, R212, R214) -/

/-- Noting the writes of a result changes the order of writes alone. -/
theorem foldl_wroteOp (c : Clock) (id : Nat) (b : Block) (rs : List Rng) (ord : Order) :
    { rs.foldl (fun b r => b.wroteOp c id r.tile r.addr r.len) b with order := ord } = { b with order := ord } := by
  induction rs generalizing b with
  | nil => rfl
  | cons r rs ih => exact ih (b.wroteOp c id r.tile r.addr r.len)

theorem modStream_order (b : Block) (w q : Nat) (f : QState → QState) (ord : Order) :
    { modStream b w q f with order := ord } = modStream { b with order := ord } w q f := by
  unfold modStream
  split_ifs <;> rfl

/-- An operation whose inputs are ordered before it, and that no rival meets, writes its result and is marked as started. -/
theorem startOp_defined (ctr : Nat) (hs : streamOf b w q = o :: rest) (hbwt : o.bwt = none) (hundef : o.undef = false)
    (hspoil : memberSpoiled b o.id = false)
    (hrace : readsRacing b (startClock b w q o) ⟨(b.wave w).core, { o with ordered := startClock b w q o }⟩ = false)
    (hrivals : ∀ r ∈ unordered b (startClock b w q o) o.id, r.hits ⟨(b.wave w).core, { o with ordered := startClock b w q o }⟩ = false
      ∧ OnCore.hits ⟨(b.wave w).core, { o with ordered := startClock b w q o }⟩ r = false) :
    let out := runMat ctr b (b.wave w).core w o.mask o.op
    { startOp ctr b w q o with order := b.order } = modStream (putMat (b.wave w).core b (o.op.dests o.mask) out) w q.toNat (fun x =>
      { x with ops := { o with ordered := startClock b w q o, started := true, flags := out.flags, err := out.err } :: rest }) := by
  intro out
  have hnone : (unordered b (startClock b w q o) o.id).filter
      (OnCore.hits ⟨(b.wave w).core, { o with ordered := startClock b w q o }⟩) = [] :=
    List.filter_eq_nil_iff.mpr fun r hr => by rw [(hrivals r hr).2]; exact Bool.false_ne_true
  have hany : (unordered b (startClock b w q o) o.id).any
      (fun r => r.hits ⟨(b.wave w).core, { o with ordered := startClock b w q o }⟩) = false :=
    List.any_eq_false.mpr fun r hr => by rw [(hrivals r hr).1]; exact Bool.false_ne_true
  have hin := resultIn_putMat (b.wave w).core b (o.op.dests o.mask) out
  have hstream : (((putMat (b.wave w).core b (o.op.dests o.mask) out).wave w).q[q.toNat]'(qreg_lt q)).ops = o :: rest := by
    rw [← hs, streamOf, Block.wave, hin.waves]; rfl
  have hdefined : (o.undef || memberSpoiled b o.id
      || readsRacing b (startClock b w q o) ⟨(b.wave w).core, { o with ordered := startClock b w q o }⟩
      || (unordered b (startClock b w q o) o.id).any
        (fun r => r.hits ⟨(b.wave w).core, { o with ordered := startClock b w q o }⟩)) = false := by
    rw [hany, hrace, hspoil, hundef]; rfl
  unfold startOp
  dsimp only
  rw [hdefined, hnone]
  dsimp only [List.foldl_nil]
  rw [if_neg Bool.false_ne_true]
  split
  · next hsome => rw [hbwt] at hsome; contradiction
  refine (modStream_order ..).trans ?_
  rw [foldl_wroteOp, ← hin.order]
  refine modStream_congr ?_
  rw [hstream, ← hundef]
  rfl

theorem exec_matrixOpStart_head (hb : blockOf s slot = some b) (hs : streamOf b w q = o :: rest) (hbwt : o.bwt = none)
    (hnot : o.started = false) (hlive : b.live = true)
    (hheads : ∀ p ∈ partHeads s b.cluster (b.wave w).core (b.wave w).part,
      p.op.started = false ∧ (startable p = true → o.id ≤ p.op.id)) :
    exec (.matrixOpStart slot w q) s = .next (setBlock s slot (startOp s.freeCtr b w q o)) := by
  have hstart : startable ⟨slot, w, q.toNat, b, o⟩ = true := by
    simp only [startable, hlive, hnot, hbwt, Bool.not_false, Bool.and_self]
  have hfirst : (partHeads s b.cluster (b.wave w).core (b.wave w).part).all
      (fun p => !p.op.started && (!startable p || decide (o.id ≤ p.op.id))) = true :=
    List.all_eq_true.mpr fun p hp => by
      obtain ⟨hidle, hlater⟩ := hheads p hp
      cases hsp : startable p with
      | false => rw [hidle]; rfl
      | true => rw [hidle, decide_eq_true (hlater hsp)]; rfl
  rw [exec_matrixOpStart, execMatrixOpStart, hb]
  dsimp only
  rw [hs]
  dsimp only [List.head?_cons]
  rw [hstart, hfirst]
  rfl

/-! ### The completion (R211, R215, R217) -/

/-- The fields of a status word after a completion (Table 1.2). -/
theorem qStatusAfter_fields (st : Word) (flags : BitVec 3) (err : BitVec 8) :
    (qStatusAfter st flags err).extractLsb' 16 16 = st.extractLsb' 16 16 + 1
      ∧ (qStatusAfter st flags err).extractLsb' 0 3 = st.extractLsb' 0 3 ||| flags
      ∧ (qStatusAfter st flags err).extractLsb' 3 5 = 0
      ∧ (qStatusAfter st flags err).extractLsb' 8 8 = if err = 0 then st.extractLsb' 8 8 else err := by
  unfold qStatusAfter
  generalize (if err = 0 then st.extractLsb' 8 8 else err) = e
  refine ⟨?count, ?flags, ?reserved, ?code⟩
  case count =>
    exact (extractLsb'_append_high (_ ++ e ++ 0#5) _ 16 16 (by decide)).trans
      ((extractLsb'_append_high (_ ++ e) 0#5 13 16 (by decide)).trans
        ((extractLsb'_append_high _ e 8 16 (by decide)).trans (extractLsb'_whole _)))
  case flags => exact (extractLsb'_append_low (_ ++ e ++ 0#5) _ 0 3 (by decide)).trans (extractLsb'_whole _)
  case reserved =>
    exact (extractLsb'_append_high (_ ++ e ++ 0#5) _ 3 5 (by decide)).trans
      ((extractLsb'_append_low (_ ++ e) 0#5 0 5 (by decide)).trans (extractLsb'_whole _))
  case code =>
    exact (extractLsb'_append_high (_ ++ e ++ 0#5) _ 8 8 (by decide)).trans
      ((extractLsb'_append_high (_ ++ e) 0#5 5 8 (by decide)).trans
        ((extractLsb'_append_low _ e 0 8 (by decide)).trans (extractLsb'_whole _)))

/-- Where no loan of an operation is spoiled, its end leaves the threads (R214). -/
theorem unspoil_threads {n : Nat} (h : ∀ t ∈ b.threads, ∀ l ∈ t.lent, l.op = n → l.spoiled = false) :
    b.threads.map (fun t => { t with lent := t.lent.map (fun l => if l.op = n then { l with spoiled := false } else l) }) = b.threads := by
  refine (List.map_congr_left (g := id) fun t ht => ?_).trans (List.map_id _)
  have hlent : t.lent.map (fun l => if l.op = n then { l with spoiled := false } else l) = t.lent := by
    refine (List.map_congr_left (g := id) fun l hl => ?_).trans (List.map_id _)
    split_ifs with ho
    · rw [← h t ht l hl ho]; rfl
    · rfl
  rw [hlent]; rfl

/-- The q register after an operation of it has completed (R215). -/
def QState.completed (o : QOp) (st : QState) : QState :=
  { status := qStatusAfter st.status o.flags o.err, ops := st.ops.drop 1, clock := o.ordered, poison := st.poison }

/-- The wave after an operation of one of its q registers has completed. -/
def Wave.completed (q : QReg) (o : QOp) (v : Wave) : Wave :=
  { v with q := v.q.set q.toNat ((v.q[q.toNat]'(qreg_lt q)).completed o) (qreg_lt q), finished := v.finished ++ [o] }

/-- The block after the operation at the head of a stream has completed. -/
def Block.completed (b : Block) (w : Nat) (q : QReg) (o : QOp) : Block :=
  (modStream b w q.toNat (QState.completed o)).setWave w ((b.wave w).completed q o)

theorem completed_wave (hw : w < b.waves.length) : (b.completed w q o).wave w = (b.wave w).completed q o := by
  rw [Block.completed, wave_setWave (by rw [modStream_eq_setWave, setWave_waves_length]; exact hw), if_pos rfl]

theorem completed_qstate (hw : w < b.waves.length) :
    ((b.completed w q o).wave w).q[q.toNat]'(qreg_lt q) = ((b.wave w).q[q.toNat]'(qreg_lt q)).completed o := by
  simp only [completed_wave hw, Wave.completed, Vector.getElem_set_self]

theorem completed_stores : (b.completed w q o).threads = b.threads ∧ (b.completed w q o).spad = b.spad
    ∧ (b.completed w q o).tiles = b.tiles := by
  simp only [Block.completed, modStream_eq_setWave]
  exact ⟨rfl, rfl, rfl⟩

/-- An operation that nothing has made undefined, and that arrives on no barrier, only ends at its wave. -/
theorem finishOp_wave (ctr : Nat) (hw : w < b.waves.length) (hbar : o.bar = none)
    (hlent : ∀ t ∈ b.threads, ∀ l ∈ t.lent, l.op = o.id → l.spoiled = false)
    (hrace : readsRacing b o.ordered ⟨(b.wave w).core, o⟩ = false) :
    finishOp ctr b w q o = b.completed w q o := by
  have hwave : (modStream b w q.toNat (QState.completed o)).wave w =
      { b.wave w with q := (b.wave w).q.set q.toNat (((b.wave w).q[q.toNat]'(qreg_lt q)).completed o) (qreg_lt q) } := by
    rw [modStream_eq_setWave, wave_setWave hw, if_pos rfl]
  simp only [finishOp, memberSpoiled_eq_false hlent, hrace, Bool.or_self, Bool.false_eq_true, if_false, unspoil_threads hlent, engineArrive, hbar]
  change (modStream b w q.toNat (QState.completed o)).setWave w { (modStream b w q.toNat (QState.completed o)).wave w with
    finished := ((modStream b w q.toNat (QState.completed o)).wave w).finished ++ [o] } = _
  rw [hwave]
  rfl

theorem exec_matrixOpComplete_head (hb : blockOf s slot = some b) (hs : streamOf b w q = o :: rest) (hstarted : o.started = true) :
    exec (.matrixOpComplete slot w q) s = .next (setBlock s slot (finishOp s.freeCtr b w q o)) := by
  rw [exec_matrixOpComplete, execMatrixOpComplete, hb]
  dsimp only
  rw [hs]
  exact if_pos hstarted

/-- The block in a slot is set: no other block and nothing else has changed. -/
theorem setBlock_keeps (s : State) (slot : Nat) (c : Block) : blockOf (setBlock s slot c) slot = some c
    ∧ { setBlock s slot c with blocks := s.blocks } = s ∧ ∀ k, k ≠ slot → blockOf (setBlock s slot c) k = blockOf s k :=
  ⟨by rw [blockOf_setBlock, if_pos rfl], rfl, fun k hk => by rw [blockOf_setBlock, if_neg hk]⟩

end Sys2Proof.Machine

open Sys2Proof Sys2Proof.Machine in
/-- Settles O36: a start that nothing makes undefined is `startOp_defined`, and a completion ends at the wave (`finishOp_wave`). -/
theorem matrixOperationsRun : Obligations.MatrixOperationsRun := by
  intro s slot w q b o rest hb hs hw hbwt _ hlent st core ck begun keeps
  refine ⟨fun hnot hlive hundef hrace hrivals hheads => ?start, fun hstarted hbar hrace => ?complete⟩
  case start =>
    exact ⟨_, _, exec_matrixOpStart_head hb hs hbwt hnot hlive hheads, setBlock_keeps ..,
      startOp_defined s.freeCtr hs hbwt hundef (memberSpoiled_eq_false hlent) hrace hrivals⟩
  case complete =>
    have hq := completed_qstate (q := q) (o := o) hw
    obtain ⟨hthreads, hspad, htiles⟩ := completed_stores (b := b) (w := w) (q := q) (o := o)
    have hexec := exec_matrixOpComplete_head hb hs hstarted
    rw [finishOp_wave s.freeCtr hw hbar hlent hrace] at hexec
    refine ⟨_, _, hexec, setBlock_keeps .., ?_, hthreads, ?_, fun k => ?_, fun k => ?_, ?_⟩
    · rw [streamOf, hq, QState.completed, ops_eq hs]; rfl
    · rw [hq]; exact qStatusAfter_fields ..
    · rw [spadByte, spadByte, (setBlock_keeps s slot _).1, hb]; exact congrArg (Memory.read · k) hspad
    · rw [tileByte, tileByte, (setBlock_keeps s slot _).1, hb]; exact congrArg (Memory.read · k) htiles
    · rw [completed_wave hw]; rfl
end

section
/-! PROOF. MWAIT, FENCEO and BLD (O31). -/

namespace Sys2Proof.Machine

open Sys2Proof

variable {h : Hdr} {s : State} {x : Cx} {q : QReg}

/-! ### MWAIT (R216) -/

/-- The status word of a q register is on its way, where a register takes it. -/
def sendStatus (t : Thread) (d : Option VReg) (st : Word) : Thread :=
  match d with
  | some d => pendTo t (pendVals [(d, st, false)])
  | none => t

theorem Kept.sendStatus {c : Touch} {u w : Thread} (k : Kept c u w) (d : Option VReg) (hd : d.isSome → Part.pend ∈ c.parts)
    (st : Word) : Kept c u (sendStatus w d st) := by
  cases d with
  | none => exact k
  | some d => exact k.pend (hd rfl) _

/-- The thread after an MWAIT: the loans of the q register have ended. -/
def mwaitThread (t : Thread) (q : QReg) (got : Clock) (d : Option VReg) (st : Word) : Thread :=
  sendStatus (({ t with lent := t.lent.filter (fun l => l.q != q) } : Thread).acquire got) d st

theorem mwaitThread_lent (t : Thread) (q : QReg) (got : Clock) (d : Option VReg) (st : Word) :
    (mwaitThread t q got d st).lent = t.lent.filter (fun l => l.q != q) := by cases d <;> rfl

theorem mwaitThread_pc (t : Thread) (q : QReg) (got : Clock) (d : Option VReg) (st : Word) :
    (mwaitThread t q got d st).pc = t.pc := by cases d <;> rfl

theorem kept_mwaitThread (t : Thread) (q : QReg) (got : Clock) (d : Option VReg) (st : Word) :
    Kept { parts := .lent :: arrivalParts d } t (mwaitThread t q got d st) := by
  have hlent : Kept { parts := .lent :: arrivalParts d } t { t with lent := t.lent.filter (fun l => l.q != q) } :=
    (Kept.refl _ t).lent (List.mem_cons_self ..) _
  refine (hlent.known _).sendStatus d (fun hd => ?_) st
  rw [arrivalParts, if_pos hd]
  exact List.mem_cons_of_mem _ (List.mem_singleton_self _)

/-- What the completed operations that borrowed from a thread on q are ordered after (R212). -/
def lentClock (x : Cx) (q : QReg) : Clock :=
  ((x.blk.wave (waveIx x.tid)).finished.filter (fun o => (x.thr.lent.filter (fun l => l.q == q)).any (fun l => l.op == o.id))).foldl
    (fun c o => c.join o.ordered) []

/-- No operation that the thread signed on the q register is left, and no result of it is undefined. -/
theorem exec_mwait_returns (he : Executes h s x)
    (hdone : (streamOf x.blk (x.tid.tidx / 32) q).any (fun o => o.mask.getLsbD (x.tid.tidx % 32)) = false)
    (hclean : ∀ y ∈ x.thr.lent, y.q = q → y.spoiled = false) (d : Option VReg) : exec (.mwait h d q) s =
      goOnBlock h (acquireBlock s x.blk x.coreId) x x.blk
        (mwaitThread x.thr q (lentClock x q) d ((x.blk.wave (x.tid.tidx / 32)).q[q.toNat]'(qreg_lt q)).status) := by
  have hnone : (x.thr.lent.filter (fun l => l.q == q)).filter Lent.spoiled = [] := by
    refine List.filter_eq_nil_iff.mpr fun y hy => ?_
    obtain ⟨hmem, hq⟩ := List.mem_filter.mp hy
    rw [hclean y hmem (beq_iff_eq.mp hq)]
    exact Bool.false_ne_true
  have hsigned : signedOn' x.blk x.tid q = false := hdone
  refine (exec_mwait ..).trans ((guarded_true he.1 he.2 _).trans ?_)
  dsimp only
  rw [hsigned, hnone]
  cases d <;> rfl

/-- A thread of the current block that goes on, with cores changed too. -/
theorem goOnBlock_own {u : State} {w : Thread} (hu : { u with cores := s.cores } = s) (hc : curCx s = some x) :
    let t := setBlock u x.tid.slot (x.blk.setThread x.tid.tidx (w.done u.cycle h))
    goOnBlock h u x x.blk w = .next t ∧ threadOf t x.tid = some (w.done s.cycle h) ∧ OthersSame s t x.tid
      ∧ { t with blocks := s.blocks, cores := s.cores } = s
      ∧ blockOf t x.tid.slot = some (x.blk.setThread x.tid.tidx (w.done s.cycle h))
      ∧ ∀ k, k ≠ x.tid.slot → blockOf t k = blockOf s k := by
  have hcycle : u.cycle = s.cycle := (congrArg State.cycle hu :)
  rw [hcycle]
  have hblocks : (setBlock u x.tid.slot (x.blk.setThread x.tid.tidx (w.done s.cycle h))).blocks =
      (setBlock s x.tid.slot (x.blk.setThread x.tid.tidx (w.done s.cycle h))).blocks :=
    (congrArg State.blocks (setBlock_upToCores hu _ _) :)
  refine ⟨by rw [goOnBlock, hcycle], (threadOf_congr hblocks _).trans (threadOf_setBlock_own hc rfl), fun v hv => ?_,
    (congrArg (fun z : State => { z with blocks := s.blocks }) hu :), ?_, fun k hk => ?_⟩
  · exact (threadOf_congr hblocks v).trans (othersSame_setBlock_own hc rfl v hv)
  · rw [blockOf_congr hblocks, blockOf_setBlock, if_pos rfl]
  · rw [blockOf_congr hblocks, blockOf_setBlock, if_neg hk]

/-! ### Words of a fragment (R224) -/

/-- Registers without poison, one for each word. -/
theorem landRegs_clean (d : VReg) (ws : List Word) (k : Nat) :
    (landRegs d ws (ws.map fun _ => false))[k]? = ws[k]?.map (fun v => (d + BitVec.ofNat 6 k, v, false)) := by
  have hbad : (ws.map fun _ => false).getD k false = false := by
    rw [List.getD_eq_getElem?_getD, List.getElem?_map]; cases ws[k]? <;> rfl
  rw [landRegs_getElem?, hbad]

theorem natWords_getElem? {k n : Nat} (hk : k < n) (v : Nat) : (natWords v n)[k]? = some (BitVec.ofNat 32 (v / 2 ^ (32 * k))) := by
  rw [natWords_eq_map, List.getElem?_map, List.getElem?_range hk]; rfl

/-- Bytes as words of registers. -/
theorem lands_natWords (d : VReg) (m : Nat) (byte : Nat → Byte) {ws : List Word}
    (hws : ws = natWords (leNat ((List.range (4 * m)).map byte)) m) :
    Lands d (4 * m) false byte (fun _ => false) (landRegs d ws (ws.map fun _ => false)) := by
  subst hws
  have hm : (4 * m + 3) / 4 = m := by omega
  refine ⟨by rw [landRegs_length, natWords_eq_map, List.length_map, List.length_range, hm], fun k hk => ?_⟩
  rw [hm] at hk
  refine ⟨BitVec.ofNat 32 (leNat ((List.range (4 * m)).map byte) / 2 ^ (32 * k)), false, ?_, fun i hi hn => ?_,
    fun _ _ _ _ => by omega, ?_⟩
  · rw [landRegs_clean, natWords_getElem? hk]; rfl
  · rw [word_byte _ _ hi, leNat_byte, List.getD_eq_getElem?_getD, List.getElem?_map, List.getElem?_range hn]; rfl
  · exact ⟨fun hf => absurd hf Bool.false_ne_true, fun ⟨_, _, _, hf⟩ => absurd hf Bool.false_ne_true⟩

/-- Element k of packed elements. -/
theorem packElems_getD (w : Nat) : ∀ (xs : List Nat) (k : Nat), packElems w xs / (2 ^ w) ^ k % 2 ^ w = xs.getD k 0 % 2 ^ w
  | [], k => by simp [packElems]
  | y :: ys, 0 => by simp [packElems]
  | y :: ys, k + 1 => by
    have hshift : (y % 2 ^ w + 2 ^ w * packElems w ys) / 2 ^ w = packElems w ys := by
      rw [Nat.add_mul_div_left _ _ (by positivity), Nat.div_eq_of_lt (Nat.mod_lt _ (by positivity)), Nat.zero_add]
    rw [packElems, Nat.pow_succ', ← Nat.div_div_eq_div_mul, hshift, packElems_getD w ys k, List.getD_cons_succ]

/-- The eight words of 32 signed images (R224). -/
def imageWords (g : Nat → Int) : List Word := natWords (packElems 8 ((rangeFrom 0 32).map (fun k => (BitVec.ofInt 8 (g k)).toNat))) 8

theorem imageWords_byte (g : Nat → Int) {k : Nat} (hk : k < 32) :
    ∃ v, (imageWords g)[k / 4]? = some v ∧ v.extractLsb' (8 * (k % 4)) 8 = BitVec.ofInt 8 (g k) := by
  refine ⟨_, natWords_getElem? (by omega) _, ?_⟩
  rw [word_byte _ _ (Nat.mod_lt k (by decide)), Nat.div_add_mod]
  have hget : ((rangeFrom 0 32).map (fun k => (BitVec.ofInt 8 (g k)).toNat)).getD k 0 = (BitVec.ofInt 8 (g k)).toNat := by
    rw [List.getD_eq_getElem?_getD, List.getElem?_map, rangeFrom_eq_range', List.getElem?_range' hk, Nat.one_mul, Nat.zero_add]; rfl
  have helem := packElems_getD 8 ((rangeFrom 0 32).map (fun k => (BitVec.ofInt 8 (g k)).toNat)) k
  rw [hget] at helem
  apply BitVec.eq_of_toNat_eq
  rw [BitVec.toNat_ofNat]
  exact helem.trans (Nat.mod_eq_of_lt (BitVec.isLt _))

/-- The signed image of a code of 2 or 4 bits. -/
def codeImage (fmt : Fmt) (w : BitVec 16) (bs : List Byte) (k : Nat) : Int :=
  let c := packedElem (elemWidth fmt) bs k
  if fmt = .int2 then (BitVec.ofNat 2 c).toInt else if fmt = .int4 then (BitVec.ofNat 4 c).toInt else e2m1Img (BitVec.ofNat 4 c) w

theorem bldWords_narrow {fmt : Fmt} (hn : fmt = .int2 ∨ fmt = .int4 ∨ fmt = .e2m1x) (w : BitVec 16) (bs : List Byte) :
    bldWords fmt (if fmt = .e2m1x then w else 0) bs = imageWords (codeImage fmt w bs) := by
  obtain rfl | rfl | rfl := hn <;> rfl

theorem bldWords_wide {fmt : Fmt} (hw : ¬(fmt = .int2 ∨ fmt = .int4 ∨ fmt = .e2m1x)) (w : BitVec 16) (bs : List Byte) :
    bldWords fmt w bs = natWords (leNat bs) (if fmt.isMma then 16 else 8) := by
  cases fmt
  case int2 | int4 | e2m1x => exact absurd (by decide) hw
  all_goals rfl

/-! ### BLD -/

/-- A scratchpad range without a poisoned granule. -/
theorem rngBad_spad {b : Block} {addr len : Nat} (hlen : 0 < len) (hclean : ∀ j, j < len → spadPoisoned b (addr + j) = false) (core : Nat) :
    rngBad b core ⟨false, addr, len⟩ = false := by
  refine List.any_eq_false.mpr fun i _ hbad => ?_
  simp only [Bool.and_eq_true, decide_eq_true_eq, Bool.false_eq_true, if_false] at hbad
  obtain ⟨hend, hpoison⟩ := hbad
  by_cases ha : addr ≤ addr / 8 * 8 + 8 * i
  · obtain ⟨j, hj⟩ := Nat.exists_eq_add_of_le ha
    rw [hj, hclean j (by omega)] at hpoison
    exact Bool.false_ne_true hpoison
  · have hgran : (addr / 8 * 8 + 8 * i) / 8 = (addr + 0) / 8 := by omega
    have hfirst := hclean 0 hlen
    rw [spadPoisoned, hgran] at hpoison
    exact Bool.false_ne_true (hfirst.symm.trans hpoison)

/-- The scale word of a BLD of E2M1X (R224): its address lies in the slice, is even, and is not poisoned. -/
structure ScaleAt (b : Block) (g : List Word) (o addr : Nat) : Prop where
  found : scaleAddr g o = some addr
  even : addr % 2 = 0
  window : inWindow b (addr : Int) 2 = true
  clean : ∀ j, j < 2 → spadPoisoned b (addr + j) = false

section
variable {fmt : Fmt} {sg : BitVec 2} {a : LocAddr} {addr : Nat}

/-- BLD sends the words of its fragment. -/
theorem exec_bld_eq (he : Executes h s x) (d : VReg) (hwin : inWindow x.blk (localOff s x.thr a) (4 * elemWidth fmt) = true)
    (hal : localOff s x.thr a % (4 * elemWidth fmt : Nat) = 0)
    (hclean : ∀ j, j < 4 * elemWidth fmt → spadPoisoned x.blk ((localOff s x.thr a).toNat + j) = false)
    (hscale : fmt = .e2m1x → ScaleAt x.blk (sgenOf s x.thr sg) (localOff s x.thr a).toNat addr) :
    let ws := bldWords fmt (if fmt = .e2m1x then scaleWord x.blk addr else 0)
      (x.blk.spad.readBytes (localOff s x.thr a).toNat (4 * elemWidth fmt))
    exec (.bld h fmt sg d a) s = goOnPend h s x x.thr (pendVals (landRegs d ws (ws.map fun _ => false))) := by
  have hbad := rngBad_spad (by cases fmt <;> decide) hclean 0
  have hbound : spadBound x.blk (localOff s x.thr a) (bldLen fmt) = none := if_pos hwin
  have halign : localAlign (localOff s x.thr a) (bldLen fmt) 0 = none := if_pos hal
  have hi := (exec_bld h fmt sg d a s).trans (guarded_true he.1 he.2 _)
  dsimp only at hi
  rw [hbound, halign] at hi
  by_cases he2 : fmt = .e2m1x
  · obtain ⟨haddr, heven, hwindow, hpoison⟩ := hscale he2
    have hsalign : localAlign (addr : Int) 2 0 = none := if_pos (by omega)
    have hsbound : spadBound x.blk (addr : Int) 2 = none := if_pos hwindow
    have hsbad := rngBad_spad (by decide) hpoison 0
    simp only [bldLen, he2, beq_self_eq_true, if_true, haddr, hsalign, hsbound, Option.getD_some, hsbad] at hi hbad ⊢
    rw [hi, hbad]; rfl
  · simp only [bldLen, beq_eq_false_iff_ne.mpr he2, Bool.false_eq_true, if_false, if_neg he2, hbad] at hi ⊢
    exact hi

theorem bld_sends (he : Executes h s x) (d : VReg) (hwin : inWindow x.blk (localOff s x.thr a) (4 * elemWidth fmt) = true)
    (hal : localOff s x.thr a % (4 * elemWidth fmt : Nat) = 0)
    (hclean : ∀ j, j < 4 * elemWidth fmt → spadPoisoned x.blk ((localOff s x.thr a).toNat + j) = false)
    (hscale : fmt = .e2m1x → ScaleAt x.blk (sgenOf s x.thr sg) (localOff s x.thr a).toNat addr) {ws : List Word}
    (hws : bldWords fmt (if fmt = .e2m1x then scaleWord x.blk addr else 0)
      (x.blk.spad.readBytes (localOff s x.thr a).toNat (4 * elemWidth fmt)) = ws) :
    Sends (.bld h fmt sg d a) s x h (pendVals (landRegs d ws (ws.map fun _ => false))) :=
  hws ▸ goOnPend_sends he (exec_bld_eq he d hwin hal hclean hscale)

/-- A fragment that is sent as the words of signed images. -/
theorem images_sent {i : Instr} {d : VReg} {g : Nat → Int}
    (hs : Sends i s x h (pendVals (landRegs d (imageWords g) ((imageWords g).map fun _ => false)))) :
    ∃ t w p, exec i s = .next t ∧ Did s t x h { parts := [.pend] } w ∧ w.pend = x.thr.pend ++ [p] ∧ p.cap = none
      ∧ p.setsFpx = false ∧ p.vals.length = 8
      ∧ ∀ k, k < 32 → ∃ v, p.vals[k / 4]? = some (d + BitVec.ofNat 6 (k / 4), v, false)
        ∧ v.extractLsb' (8 * (k % 4)) 8 = BitVec.ofInt 8 (g k) := by
  obtain ⟨t, w, hnext, hdid, hpend⟩ := hs
  refine ⟨t, w, _, hnext, hdid, hpend, rfl, rfl, ?_, fun k hk => ?_⟩
  · rw [pendVals, landRegs_length, imageWords, natWords_eq_map, List.length_map, List.length_range]
  · obtain ⟨v, hv, hbyte⟩ := imageWords_byte g hk
    exact ⟨v, by rw [pendVals, landRegs_clean, hv]; rfl, hbyte⟩

end

end Sys2Proof.Machine

open Sys2Proof Sys2Proof.Machine in
/-- Settles O31: MWAIT goes on with its loans ended (`exec_mwait_returns`), FENCEO with its thread's writes offered, and BLD sends
the bytes it reads, or the signed images of their codes. -/
theorem matrixWaitsAndFragmentLoads : Obligations.MatrixWaitsAndFragmentLoads := by
  intro h d q fmt sg a s x he lane signed status handsBack off o n bytes e2 narrow scale scaled image
  refine ⟨fun hs => ?waits, fun hs hclean => ?returns, fun hl => ?fenceo, fun sp hl => ?stalls, fun hwin hal hclean => ?bld⟩
  case waits =>
    have hsigned : signedOn' x.blk x.tid q = true := hs
    have hwait : ∀ e, exec (.mwait h e q) s = waitAt s x (.waiting (.mwait q)) := fun e =>
      (exec_mwait ..).trans ((guarded_true he.1 he.2 _).trans (if_pos hsigned))
    exact ⟨waits_waitAt he.1 (hwait _), waits_waitAt he.1 (hwait _)⟩
  case returns =>
    have hback : ∀ (e : Option VReg) (post : Thread → Prop), post ((mwaitThread x.thr q (lentClock x q) e status).done s.cycle h) →
        handsBack (.mwait h e q) (arrivalParts e) post := fun e post hpost => by
      obtain ⟨hnext, hthread, hothers, hrest, hblock, hslots⟩ :=
        goOnBlock_own (h := h) (w := mwaitThread x.thr q (lentClock x q) e status) (acquireBlock_rest s x.blk x.coreId) he.1
      exact ⟨_, _, _, (exec_mwait_returns he hs hclean e).trans hnext, hthread, at_done s h _ x.thr (mwaitThread_pc ..), hothers,
        (kept_mwaitThread ..).done .., mwaitThread_lent .., hpost, hrest, hblock, hslots, rfl, fun _ => rfl⟩
    exact ⟨hback none _ trivial, hback (some d) _ rfl⟩
  case fenceo =>
    have hi : exec (.fenceo h) s = goOn h s x x.thr.offer := by
      rw [exec_fenceo, execFenceo, guarded_true he.1 he.2, hl]
    exact goes_goOn he hi rfl ((Kept.refl {} x.thr).known _) trivial
  case stalls =>
    refine waits_waitAt he.1 ?_
    rw [exec_fenceo, execFenceo, guarded_true he.1 he.2, hl]
  case bld =>
    refine ⟨fun hwide => ?wide, fun hnarrow addr hscale => ?narrow⟩
    case wide =>
      have hno : fmt ≠ .e2m1x := fun hf => hwide (.inr (.inr hf))
      obtain ⟨t, w, hnext, hdid, hpend⟩ := bld_sends (addr := 0) he d hwin hal hclean (fun hf => absurd hf hno) (bldWords_wide hwide ..)
      refine ⟨t, w, _, hnext, hdid, hpend, rfl, rfl, fun hn => ?_⟩
      have hlen : n = 4 * (if fmt.isMma then 16 else 8) := by rw [hn]; split_ifs <;> rfl
      rw [hlen]
      refine lands_natWords d _ _ ?_
      rw [spadByte_curCx he.1, ← readBytes_eq_map, ← hlen]
    case narrow =>
      have hat : fmt = .e2m1x → ScaleAt x.blk (sgenOf s x.thr sg) o addr := fun hf => by
        obtain ⟨⟨haddr, heven, hwindow⟩, hpoison⟩ := hscale hf
        exact ⟨haddr, heven, hwindow, hpoison⟩
      exact images_sent (bld_sends he d hwin hal hclean hat (bldWords_narrow hnarrow ..))
end

section
/-! SUPPORT. Setting the threads of a mask's lanes one after another (R238), and a block with an operation entered into a
stream, a barrier's pending arrivals counted, and its waiters noted (R210, R211). -/

namespace Sys2Proof.Machine

open Sys2Proof

variable {s t u : State} {x : Cx} {mask : Word} {b : Block}

/-! ### Threads of lanes -/

/-- Between s and t no more than the threads of a mask's lanes has changed. -/
structure LanesOnly (x : Cx) (mask : Word) (s t : State) : Prop where
  others : ∀ v, (∀ n, mask.getLsbD n = true → v ≠ laneTid x n) → threadOf t v = threadOf s v
  block : ∀ slot b, blockOf s slot = some b → ∃ c, blockOf t slot = some c ∧ { c with threads := b.threads } = b
  rest : { t with blocks := s.blocks } = s

theorem LanesOnly.trans (h1 : LanesOnly x mask s t) (h2 : LanesOnly x mask t u) : LanesOnly x mask s u where
  others v hv := (h2.others v hv).trans (h1.others v hv)
  block slot b hb := by
    obtain ⟨c, hc, hcb⟩ := h1.block slot b hb
    obtain ⟨d, hd, hdc⟩ := h2.block slot c hc
    exact ⟨d, hd, (congrArg (fun z : Block => { z with threads := b.threads }) hdc :).trans hcb⟩
  rest := (congrArg (fun z : State => { z with blocks := s.blocks }) h2.rest :).trans h1.rest

theorem lanesOnly_setLanes (s : State) (x : Cx) (mask : Word) (W : Nat → Thread) : LanesOnly x mask s (setLanes s x mask W) := by
  obtain ⟨hthreads, -, hblock, hrest⟩ := foldl_setThread x W (maskLanes mask) (maskLanes_nodup mask) s
  refine ⟨fun v hv => ?_, hblock, hrest⟩
  rw [setLanes, hthreads, if_neg]
  rintro ⟨n, hn, rfl⟩
  exact hv n (mem_maskLanes.mp hn) rfl

/-- Steps that each set the thread of one lane, as a function of the thread found there. -/
theorem foldl_eq_setThreads {F : State → Nat → State} {V W : Nat → Thread} {now : Nat}
    (hF : ∀ t n, t.cycle = now → threadOf t (laneTid x n) = some (V n) → F t n = setThread t (laneTid x n) (W n)) :
    ∀ (l : List Nat) {t : State}, l.Nodup → t.cycle = now → (∀ n ∈ l, threadOf t (laneTid x n) = some (V n)) →
      l.foldl F t = l.foldl (fun t n => setThread t (laneTid x n) (W n)) t
  | [], _, _, _, _ => rfl
  | n :: l, t, hnd, hnow, ht => by
    obtain ⟨hn, hnd⟩ := List.nodup_cons.mp hnd
    obtain ⟨hhead, htail⟩ := List.forall_mem_cons.mp ht
    rw [List.foldl_cons, List.foldl_cons, hF t n hnow hhead]
    refine foldl_eq_setThreads hF l hnd ((modThread_cycle ..).trans hnow) fun k hk => ?_
    have hne : laneTid x k ≠ laneTid x n := fun e => hn (laneTid_inj e ▸ hk)
    rw [threadOf_setThread, if_neg hne]
    exact htail k hk

/-! ### The block of a signing instance -/

theorem writeBarrier_waves (b : Block) (a : Nat) (r : Barrier) : (writeBarrier b a r).waves = b.waves := by
  simp only [writeBarrier, writeSpadNat, writeSpad]

theorem readNat_congr {m m' : Memory} {a n : Nat} (h : ∀ j, j < n → m.read (a + j) = m'.read (a + j)) :
    m.readNat a n = m'.readNat a n := by
  rw [Memory.readNat, Memory.readNat, readBytes_eq_map, readBytes_eq_map]
  exact congrArg leNat (List.map_congr_left fun j hj => h j (List.mem_range.mp hj))

/-- The threads, the tiles, and beside the barriers at some addresses the scratchpad bytes of c are those of b. -/
structure BarriersIn (b c : Block) (bars : List Nat) : Prop where
  wf : c.spad.wf = true
  spad : ∀ k, (∀ a ∈ bars, k < a ∨ a + 16 ≤ k) → c.spad.read k = b.spad.read k
  tiles : c.tiles = b.tiles
  threads : c.threads = b.threads

theorem barriersIn_writeBarrier (hb : b.spad.wf = true) (a : Nat) (r : Barrier) : BarriersIn b (writeBarrier b a r) [a] := by
  obtain ⟨-, hwf, hspad, htiles⟩ := objectIn_writeBarrier hb a r
  refine ⟨hwf, fun k hk => hspad k ?_, htiles, writeBarrier_threads ..⟩
  have := hk a (List.mem_singleton_self a)
  omega

theorem BarriersIn.trans {c d : Block} {l m : List Nat} (h1 : BarriersIn b c l) (h2 : BarriersIn c d m) : BarriersIn b d (m ++ l) where
  wf := h2.wf
  spad k hk := (h2.spad k fun a ha => hk a (List.mem_append_left _ ha)).trans (h1.spad k fun a ha => hk a (List.mem_append_right _ ha))
  tiles := h2.tiles.trans h1.tiles
  threads := h2.threads.trans h1.threads

/-- One pending engine arrival more at the barrier that an operation will arrive on (R211). -/
def countPending (b : Block) (bar : Option Nat) : Block :=
  match bar with
  | some a => writeBarrier b a { readBarrier b a with pendeng := (readBarrier b a).pendeng + 1 }
  | none => b

theorem barriersIn_countPending (hb : b.spad.wf = true) (bar : Option Nat) : BarriersIn b (countPending b bar) bar.toList := by
  cases bar with
  | none => exact ⟨hb, fun _ _ => rfl, rfl, rfl⟩
  | some a => exact barriersIn_writeBarrier hb a _

theorem countPending_waves (b : Block) (bar : Option Nat) : (countPending b bar).waves = b.waves := by
  cases bar with
  | none => rfl
  | some a => exact writeBarrier_waves ..

/-- The waiters noted at the barrier that an operation waits for. -/
def noteBwt (b : Block) (bwt : Option (Nat × BitVec 16)) : Block :=
  match bwt with
  | some (a, _) => noteWaiters b a
  | none => b

theorem barriersIn_noteWaiters (hb : b.spad.wf = true) (a : Nat) : BarriersIn b (noteWaiters b a) [a] := by
  rw [noteWaiters]
  split_ifs
  · exact barriersIn_writeBarrier hb a _
  · exact ⟨hb, fun _ _ => rfl, rfl, rfl⟩

theorem barriersIn_noteBwt (hb : b.spad.wf = true) (bwt : Option (Nat × BitVec 16)) :
    BarriersIn b (noteBwt b bwt) (bwt.map Prod.fst).toList := by
  cases bwt with
  | none => exact ⟨hb, fun _ _ => rfl, rfl, rfl⟩
  | some y => exact barriersIn_noteWaiters hb y.1

theorem noteBwt_waves (b : Block) (bwt : Option (Nat × BitVec 16)) : (noteBwt b bwt).waves = b.waves := by
  cases bwt with
  | none => rfl
  | some y =>
    rw [noteBwt, noteWaiters]
    split_ifs
    · exact writeBarrier_waves ..
    · rfl

/-- Noting the waiters of a barrier leaves the pending arrivals of every barrier. -/
theorem pendeng_noteWaiters (hb : b.spad.wf = true) {a n : Nat} (ha : a % 16 = 0) (hn : n % 16 = 0) :
    (readBarrier (noteWaiters b n) a).pendeng = (readBarrier b a).pendeng := by
  rw [noteWaiters]
  split_ifs
  · by_cases he : n = a
    · rw [he, readBarrier_writeBarrier hb]
    · have hread : (writeBarrier b n { readBarrier b n with wt := waitsOn b n }).spad.readNat a 16 = b.spad.readNat a 16 :=
        readNat_congr fun j hj => (objectIn_writeBarrier hb n _).spad _ (by omega)
      simp only [readBarrier] at hread ⊢
      rw [hread]
  · rfl

theorem pendeng_noteBwt (hb : b.spad.wf = true) {a : Nat} (ha : a % 16 = 0) {bwt : Option (Nat × BitVec 16)}
    (hbwt : ∀ y ∈ bwt, y.1 % 16 = 0) : (readBarrier (noteBwt b bwt) a).pendeng = (readBarrier b a).pendeng := by
  cases bwt with
  | none => rfl
  | some y => exact pendeng_noteWaiters hb ha (hbwt y rfl)

/-- An operation at the end of a stream. -/
def pushOp (b : Block) (w : Nat) (q : QReg) (o : QOp) : Block :=
  let st := (b.wave w).q[q.toNat]'(qreg_lt q)
  b.setWave w { b.wave w with q := (b.wave w).q.set q.toNat { st with ops := st.ops ++ [o] } (qreg_lt q) }

theorem streamOf_pushOp {w : Nat} (hw : w < b.waves.length) (q : QReg) (o : QOp) (k : Nat) (r : QReg) :
    streamOf (pushOp b w q o) k r = if k = w ∧ r = q then streamOf b k r ++ [o] else streamOf b k r := by
  rw [streamOf, pushOp, wave_setWave hw]
  by_cases hk : k = w
  · subst hk
    simp only [if_true, qstate_set, true_and]
    by_cases hr : r = q
    · subst hr; rw [if_pos rfl, if_pos rfl]; rfl
    · rw [if_neg hr, if_neg hr]; rfl
  · rw [if_neg hk, if_neg fun hh => hk hh.1]; rfl

theorem barriersIn_pushOp (hb : b.spad.wf = true) (w : Nat) (q : QReg) (o : QOp) : BarriersIn b (pushOp b w q o) [] :=
  ⟨hb, fun _ _ => rfl, rfl, rfl⟩

/-- The block of a signing instance once its operation has entered its stream (R210, R211). -/
def signedBlock (b : Block) (w : Nat) (q : QReg) (o : QOp) : Block := noteBwt (pushOp (countPending b o.bar) w q o) o.bwt

section
variable {w : Nat} {q : QReg} {o : QOp}

theorem barriersIn_signedBlock (hb : b.spad.wf = true) :
    BarriersIn b (signedBlock b w q o) ((o.bwt.map Prod.fst).toList ++ o.bar.toList) := by
  have hcount := barriersIn_countPending hb o.bar
  have hpush := barriersIn_pushOp hcount.wf w q o
  simpa only [signedBlock, List.append_nil] using hcount.trans (hpush.trans (barriersIn_noteBwt hpush.wf o.bwt))

theorem streamOf_signedBlock (hw : w < b.waves.length) (k : Nat) (r : QReg) :
    streamOf (signedBlock b w q o) k r = if k = w ∧ r = q then streamOf b k r ++ [o] else streamOf b k r := by
  have hstream : ∀ c d : Block, c.waves = d.waves → streamOf c k r = streamOf d k r := fun c d hcd => by
    rw [streamOf, Block.wave, hcd]; rfl
  rw [signedBlock, hstream _ _ (noteBwt_waves ..), streamOf_pushOp (by rwa [countPending_waves]), hstream _ _ (countPending_waves ..)]

theorem pendeng_signedBlock (hb : b.spad.wf = true) {a : Nat} (hbar : o.bar = some a) (ha : a % 16 = 0)
    (hbwt : ∀ y ∈ o.bwt, y.1 % 16 = 0) : (readBarrier (signedBlock b w q o) a).pendeng = (readBarrier b a).pendeng + 1 := by
  have hcount := barriersIn_countPending hb o.bar
  rw [signedBlock, pendeng_noteBwt (barriersIn_pushOp hcount.wf w q o).wf ha hbwt]
  change (readBarrier (countPending b o.bar) a).pendeng = _
  rw [hbar, countPending, readBarrier_writeBarrier hb]

end

end Sys2Proof.Machine
end

section
/-! PROOF. The checks of R209 on the ranges of a signing instance (O32). -/

namespace Sys2Proof.Machine

open Sys2Proof

variable {b : Block}

theorem Why.first_eq_none {c d : Option Why} : Why.first c d = none ↔ c = none ∧ d = none := by
  cases c <;> simp [Why.first]

theorem needAlign_eq_none {n : Need} : needAlign n = none ↔ n.rng.addr % n.align = 0 := by
  unfold needAlign; split_ifs with h <;> simp [h]

theorem needBound_eq_none {n : Need} : needBound b n = none ↔
    (n.rng.tile = true → n.rng.addr < 2 ^ 18 ∧ n.rng.addr + n.rng.len ≤ 2048 * b.tilesN)
      ∧ (n.rng.tile = false → inWindow b (n.rng.addr : Int) n.rng.len = true) := by
  cases htile : n.rng.tile with
  | true =>
    rw [needBound, if_pos htile, accBound]
    simp only [ite_eq_left_iff, reduceCtorEq, imp_false, not_not, true_imp_iff, false_imp_iff, Bool.true_eq_false, and_true]
    omega
  | false =>
    rw [needBound, if_neg (htile ▸ Bool.false_ne_true), spadBound]
    simp only [Option.map_eq_none_iff, ite_eq_left_iff, reduceCtorEq, imp_false, not_not, true_imp_iff, false_imp_iff,
      Bool.false_eq_true, true_and]

theorem typedWhy_eq_none {a n : Nat} : typedWhy b a n = none ↔ ∀ y ∈ b.types, ¬(y.1 < a + n ∧ a < y.1 + 16) := by
  refine ⟨fun h y hy hmeets => ?_, typedWhy_none⟩
  cases hf : b.types.find? (fun p => decide (p.1 < a + n ∧ a < p.1 + 16)) with
  | none => simpa [hmeets] using List.find?_eq_none.mp hf y hy
  | some p => rw [typedWhy_of_find hf] at h; cases h

theorem matrixRangesAccepted : Claims.MatrixRangesAccepted := by
  intro b mask p
  simp only [prepWhy, Why.first_eq_none, List.findSome?_eq_none_iff, needAlign_eq_none, needBound_eq_none, Option.map_eq_none_iff,
    List.head?_eq_none_iff, List.mem_filter, Bool.not_eq_true', typedWhy_eq_none, ite_eq_left_iff, reduceCtorEq, imp_false, not_not,
    and_imp, forall_and, and_assoc]

end Sys2Proof.Machine
end

section
/-! PROOF. Signing instances enter their streams (O32). -/

namespace Sys2Proof.Machine

open Sys2Proof

variable {i : Instr} {h : Hdr} {s : State} {x : Cx} {mask : Word} {T : Nat → Thread} {l : Nat} {q : QReg} {kr : VReg} {p : Prep}

/-! ### Members and shared operands (R207) -/

/-- The member of a lane. -/
def memberAt (h : Hdr) (s : State) (x : Cx) (T : Nat → Thread) (n : Nat) : Member := ⟨n, laneTid x n, T n, guardOf s (T n) h⟩

theorem membersOf_eq_map : membersOf h s x mask T 32 = (maskLanes mask).map (memberAt h s x T) := rfl

/-- The lowest lane of a mask comes first. -/
theorem maskLanes_cons (hl : mask.getLsbD l = true) (hlow : ∀ n, n < l → mask.getLsbD n = false) : ∃ ns, maskLanes mask = l :: ns := by
  obtain ⟨m, hm⟩ := Nat.exists_eq_add_of_lt (BitVec.lt_of_getLsbD hl)
  have hrange : List.range 32 = List.range l ++ l :: List.range' (l + 1) m := by
    rw [hm, Nat.add_assoc, List.range_eq_range', ← List.range'_append_1, Nat.zero_add, List.range'_succ, List.range_eq_range']
  have hbelow : (List.range l).filter (fun n => mask.getLsbD n) = [] :=
    List.filter_eq_nil_iff.mpr fun n hn => by rw [hlow n (List.mem_range.mp hn)]; exact Bool.false_ne_true
  exact ⟨_, by rw [maskLanes_eq, hrange, List.filter_append, hbelow, List.nil_append, List.filter_cons_of_pos hl]⟩

theorem find?_membersOf (n : Nat) : (membersOf h s x mask T 32).find? (fun m => m.lane == n) =
    if mask.getLsbD n = true then some (memberAt h s x T n) else none := by
  have hfind := find?_beq_eq_ite (maskLanes mask) n
  simp only [mem_maskLanes] at hfind
  rw [membersOf_eq_map, List.find?_map]
  refine (congrArg _ hfind).trans ?_
  split_ifs <;> rfl

theorem differing_eq_zero {ms : List Member} {f : Member → Bool} (hf : ∀ m ∈ ms, f m = false) : differing ms f = 0 :=
  List.foldlRecOn ms _ (motive := fun w : Word => w = 0) rfl fun w hw m hm => by
    rw [hw, hf m hm]
    simp [setBit]

/-- Members that agree in every shared operand have no mismatch. -/
theorem mismatch_eq_none {lo : Member} {ms : List Member} : ∀ {sh : List Shared}, (∀ y ∈ sh, ∀ m ∈ ms, y.val m = y.val lo) →
    mismatch lo ms sh = none
  | [], _ => rfl
  | y :: sh, hsh => by
    obtain ⟨hy, hsh⟩ := List.forall_mem_cons.mp hsh
    have hzero : differing ms (fun m => y.val m != y.val lo) = 0 := differing_eq_zero fun m hm => by rw [hy m hm, bne_self_eq_false]
    rw [mismatch, hzero, if_pos rfl]
    exact mismatch_eq_none hsh

/-- An instance with every guard true is held on a full stream, and enters its operation where nothing stops it. -/
theorem signAll_present {lo : Member} {ms : List Member} {sh : List Shared} {lack : Bool} {prep : Member → List Member → Prep}
    (hon : ∀ m ∈ lo :: ms, m.on = true) :
    (4 ≤ (streamOf x.blk (x.tid.tidx / 32) q).length → signAll i h s x (lo :: ms) q mask sh lack prep = waitAt s x (.held mask))
    ∧ ((streamOf x.blk (x.tid.tidx / 32) q).length < 4 → (∀ y ∈ sh, ∀ m ∈ lo :: ms, y.val m = y.val lo) → lack = false →
      prepWhy x.blk mask (prep lo (lo :: ms)) = none → signAll i h s x (lo :: ms) q mask sh lack prep =
        membersGoOn h (enterStream s x (lo :: ms) q mask (prep lo (lo :: ms)) false) (lo :: ms)) := by
  have hsome : (lo :: ms).all (fun m => !m.on) = false := by
    rw [List.all_cons, hon lo (List.mem_cons_self ..)]; rfl
  have hsame : (lo :: ms).any (fun m => m.on != lo.on) = false :=
    List.any_eq_false.mpr fun m hm => by rw [hon m hm, hon lo (List.mem_cons_self ..)]; exact Bool.false_ne_true
  unfold signAll
  dsimp only
  rw [hsome, hsame]
  refine ⟨fun hfull => if_pos hfull, fun hroom hsh hlack hprep => ?_⟩
  rw [mismatch_eq_none hsh, ite_self, hlack, hprep]
  exact if_neg (Nat.not_le.mpr hroom)

/-! ### The state that an instance leaves (R208, R210, R214) -/

/-- The operation of a signing instance: its operands as captured, and what its members' last FENCEOs made available. -/
def signedOp (s : State) (x : Cx) (mask : Word) (T : Nat → Thread) (p : Prep) : QOp :=
  ⟨s.nextId, p.op, mask, x.thr.pcWord, p.bwt, p.bar, false,
    (maskLanes mask).any (fun n => p.op.frag.any (fun r => (T n).known.dirty.getLsbD r.toNat)),
    (maskLanes mask).foldl (fun k n => k.join (T n).known.offered) [], 0, 0⟩

/-- The machine with an instance's operation in its stream. -/
def entered (s : State) (x : Cx) (mask : Word) (T : Nat → Thread) (q : QReg) (p : Prep) : State :=
  setBlock { s with nextId := s.nextId + 1 } x.tid.slot (signedBlock x.blk (x.tid.tidx / 32) q (signedOp s x mask T p))

/-- A member that lends to the operation. -/
def lends (s : State) (mask : Word) (q : QReg) (p : Prep) (t : Thread) : Thread :=
  { t with lent := t.lent ++ [⟨q, s.nextId, p.op.frag, p.op.tiles, p.op, mask, false⟩] }

theorem threadOf_entered (hc : curCx s = some x) (hwf : memoryWf s) (u : ThreadId) :
    threadOf (entered s x mask T q p) u = threadOf s u := by
  obtain ⟨_, hb, _⟩ := (curCx_eq_some s x).mp hc
  exact (threadOf_setBlock (s := { s with nextId := s.nextId + 1 }) hb (barriersIn_signedBlock (memWf_curCx hc hwf).1).threads u).trans
    (threadOf_congr rfl u)

/-- The machine once every member lends to the operation. -/
def lentState (s : State) (x : Cx) (mask : Word) (T : Nat → Thread) (q : QReg) (p : Prep) : State :=
  setLanes (entered s x mask T q p) x mask (fun n => lends s mask q p (T n))

/-- The machine once every member has gone on. -/
def signedState (h : Hdr) (s : State) (x : Cx) (mask : Word) (T : Nat → Thread) (q : QReg) (p : Prep) : State :=
  setLanes (lentState s x mask T q p) x mask (fun n => (lends s mask q p (T n)).done s.cycle h)

theorem lanesOnly_signedState : LanesOnly x mask (entered s x mask T q p) (signedState h s x mask T q p) :=
  (lanesOnly_setLanes ..).trans (lanesOnly_setLanes ..)

theorem threadOf_lentState (g : Gathered i h s x mask T) (hwf : memoryWf s) {n : Nat} (hn : mask.getLsbD n = true) :
    threadOf (lentState s x mask T q p) (laneTid x n) = some (lends s mask q p (T n)) :=
  threadOf_setLanes _ hn ((threadOf_entered g.cur hwf _).trans (g.thread n hn))

theorem threadOf_signedState (g : Gathered i h s x mask T) (hwf : memoryWf s) {n : Nat} (hn : mask.getLsbD n = true) :
    threadOf (signedState h s x mask T q p) (laneTid x n) = some ((lends s mask q p (T n)).done s.cycle h) :=
  threadOf_setLanes _ hn (threadOf_lentState g hwf hn)

theorem enterStream_eq_lentState (g : Gathered i h s x mask T) (hwf : memoryWf s) :
    enterStream s x (membersOf h s x mask T 32) q mask p false = lentState s x mask T q p := by
  obtain ⟨_, hb, _⟩ := (curCx_eq_some s x).mp g.cur
  have hblock : modBlock { s with nextId := s.nextId + 1 } x.tid.slot
      (fun b => signedBlock b (x.tid.tidx / 32) q (signedOp s x mask T p)) = entered s x mask T q p := by
    rw [modBlock, show blockOf { s with nextId := s.nextId + 1 } x.tid.slot = some x.blk from hb]; rfl
  have hop : enterStream s x (membersOf h s x mask T 32) q mask p false = (membersOf h s x mask T 32).foldl
      (fun t m => modThread t m.tid (lends s mask q p)) (modBlock { s with nextId := s.nextId + 1 } x.tid.slot
        (fun b => signedBlock b (x.tid.tidx / 32) q (signedOp s x mask T p))) := by
    have hlate : (membersOf h s x mask T 32).any (fun m => p.op.frag.any (fun r => m.thr.known.dirty.getLsbD r.toNat)) =
        (maskLanes mask).any (fun n => p.op.frag.any (fun r => (T n).known.dirty.getLsbD r.toNat)) := by
      rw [membersOf_eq_map, List.any_map]; rfl
    have hordered : (membersOf h s x mask T 32).foldl (fun (k : Clock) m => k.join m.thr.known.offered) [] =
        (maskLanes mask).foldl (fun (k : Clock) n => k.join (T n).known.offered) [] := by
      rw [membersOf_eq_map, List.foldl_map]; rfl
    rw [signedOp, ← hlate, ← hordered]
    rfl
  rw [hop, hblock, membersOf_eq_map, List.foldl_map]
  exact foldl_eq_setThreads (now := (entered s x mask T q p).cycle) (fun t n _ ht => modThread_eq_setThread ht _) _ (maskLanes_nodup mask) rfl
    fun n hn => (threadOf_entered g.cur hwf _).trans (g.thread n (mem_maskLanes.mp hn))

theorem membersGoOn_eq_setLanes {u : State} {W : Nat → Thread}
    (hW : ∀ n, mask.getLsbD n = true → threadOf u (laneTid x n) = some (W n)) :
    membersGoOn h u (membersOf h s x mask T 32) = .next (setLanes u x mask (fun n => (W n).done u.cycle h)) := by
  rw [membersGoOn, membersOf_eq_map, List.foldl_map]
  refine congrArg _ (foldl_eq_setThreads (V := W) (now := u.cycle) (fun t n hnow ht => ?_) _ (maskLanes_nodup mask) rfl
    fun n hn => hW n (mem_maskLanes.mp hn))
  rw [memberDone, memberAt, ht, hnow]; rfl

theorem membersGoOn_enterStream (g : Gathered i h s x mask T) (hwf : memoryWf s) :
    membersGoOn h (enterStream s x (membersOf h s x mask T 32) q mask p false) (membersOf h s x mask T 32) =
      .next (signedState h s x mask T q p) := by
  have hcycle : (lentState s x mask T q p).cycle = s.cycle := (congrArg State.cycle (lanesOnly_setLanes ..).rest :)
  rw [enterStream_eq_lentState g hwf, membersGoOn_eq_setLanes fun n hn => threadOf_lentState g hwf hn, hcycle, signedState]

/-- The barriers of an instance are its BWT and BAR. -/
theorem bars_eq (p : Prep) : p.bars = (p.bwt.map Prod.fst).toList ++ p.bar.toList := by rw [Prep.bars]; cases p.bwt <;> rfl

theorem mem_bars_of_bar {a : Nat} (ha : p.bar = some a) : a ∈ p.bars := by
  rw [bars_eq, ha]; exact List.mem_append_right _ (List.mem_singleton_self a)

theorem mem_bars_of_bwt {y : Nat × BitVec 16} (hy : p.bwt = some y) : y.1 ∈ p.bars := by
  rw [bars_eq, hy]; exact List.mem_append_left _ (List.mem_singleton_self y.1)

/-- An instance whose ranges are accepted, and whose members go on once its operation has entered its stream. -/
theorem signs_of_entered (g : Gathered i h s x mask T) (hwf : memoryWf s) (hw : x.tid.tidx / 32 < x.blk.waves.length)
    (hp : prepWhy x.blk mask p = none)
    (hi : exec i s = membersGoOn h (enterStream s x (membersOf h s x mask T 32) q mask p false) (membersOf h s x mask T 32)) :
    Signs i h s x mask T q p := by
  obtain ⟨hspad, _⟩ := memWf_curCx g.cur hwf
  obtain ⟨hneeds, -, -, -⟩ := (matrixRangesAccepted x.blk mask p).mp hp
  have halign : ∀ a ∈ p.bars, a % 16 = 0 := fun a ha =>
    (hneeds (barNeed a) (List.mem_append_right _ (List.mem_map_of_mem ha))).1
  have hin := barriersIn_signedBlock (w := x.tid.tidx / 32) (q := q) (o := signedOp s x mask T p) hspad
  have hlanes : LanesOnly x mask (entered s x mask T q p) (signedState h s x mask T q p) := lanesOnly_signedState
  obtain ⟨c, hc, hcb⟩ := hlanes.block x.tid.slot _ ((blockOf_setBlock ..).trans (if_pos rfl))
  have hcspad : c.spad = (signedBlock x.blk (x.tid.tidx / 32) q (signedOp s x mask T p)).spad := (congrArg Block.spad hcb :)
  have hctiles : c.tiles = (signedBlock x.blk (x.tid.tidx / 32) q (signedOp s x mask T p)).tiles := (congrArg Block.tiles hcb :)
  have hcwaves : c.waves = (signedBlock x.blk (x.tid.tidx / 32) q (signedOp s x mask T p)).waves := (congrArg Block.waves hcb :)
  refine ⟨_, c, (signedOp s x mask T p).undef, hi.trans (membersGoOn_enterStream g hwf), (congrArg State.nextId hlanes.rest :), ?rest,
    ?late, fun n hn => ?member, fun u hu => ?others, hc, fun w r => ?stream, fun a ha => ?pending, fun k hk => ?spad, fun k => ?tiles⟩
  case rest => exact (congrArg (fun z : State => { z with blocks := s.blocks, nextId := s.nextId }) hlanes.rest :)
  case late =>
    simp only [signedOp, List.any_eq_true, mem_maskLanes]
    exact ⟨fun ⟨n, hn, r, hr, hd⟩ => ⟨n, r, BitVec.lt_of_getLsbD hn, hn, hr, hd⟩, fun ⟨n, r, _, hn, hr, hd⟩ => ⟨n, hn, r, hr, hd⟩⟩
  case member =>
    exact ⟨_, threadOf_signedState g hwf hn, at_done s h (lends s mask q p (T n)) x.thr (g.pc_eq hn),
      ((Kept.refl { parts := [.lent] } (T n)).lent (List.mem_singleton_self _) _).done _ _, rfl⟩
  case others => exact (hlanes.others u hu).trans (threadOf_entered g.cur hwf u)
  case stream =>
    rw [streamOf, Block.wave, hcwaves]
    exact streamOf_signedBlock hw w r
  case pending =>
    rw [readBarrier_congr hcspad]
    exact pendeng_signedBlock hspad ha (halign a (mem_bars_of_bar ha)) fun y hy => halign y.1 (mem_bars_of_bwt hy)
  case spad =>
    rw [spadByte, hc, spadByte_curCx g.cur]
    exact (congrArg (Memory.read · k) hcspad).trans (hin.spad k fun a ha => hk a (bars_eq p ▸ ha))
  case tiles =>
    rw [tileByte, hc, tileByte_curCx g.cur]
    exact congrArg (Memory.read · k) (hctiles.trans hin.tiles)

/-! ### The eight instructions -/

/-- A register's value is the same in every member. -/
def SameReg (s : State) (mask : Word) (T : Nat → Thread) (l : Nat) (r : VReg) : Prop :=
  ∀ n, mask.getLsbD n = true → rdV s (T n) r = rdV s (T l) r

/-- A scale generator is the same in every member. -/
def SameGen (s : State) (mask : Word) (T : Nat → Thread) (l : Nat) (k : BitVec 2) : Prop :=
  ∀ n, mask.getLsbD n = true → sgenOf s (T n) k = sgenOf s (T l) k

/-- A shared operand is the same in every member. -/
def Agrees (h : Hdr) (s : State) (x : Cx) (mask : Word) (T : Nat → Thread) (l : Nat) (y : Shared) : Prop :=
  ∀ n, mask.getLsbD n = true → y.val (memberAt h s x T n) = y.val (memberAt h s x T l)

/-- A signing instruction enters its operation: on a full stream its instance stays held, and where there is room, with its shared
operands agreeing and its ranges accepted, it signs. -/
def Enters (i : Instr) (h : Hdr) (s : State) (x : Cx) (mask : Word) (T : Nat → Thread) (l : Nat) (q : QReg) (kr : VReg)
    (regs : List VReg) (gens : List (BitVec 2)) (p : Prep) : Prop :=
  rdV s x.thr kr = mask → Gathered i h s x mask T →
    (4 ≤ (streamOf x.blk (x.tid.tidx / 32) q).length → Waits i s x (.held mask))
    ∧ ((streamOf x.blk (x.tid.tidx / 32) q).length < 4 → (∀ r ∈ regs, SameReg s mask T l r) → (∀ g ∈ gens, SameGen s mask T l g) →
      prepWhy x.blk mask p = none → Signs i h s x mask T q p)

/-- The registers of BWT and BAR (R211). -/
def QOps.waits (o : QOps) : List VReg := (match o.bwt with | some r => [r, r + 1] | none => []) ++ o.bar.toList

section
variable {r : VReg}

theorem agrees_reg (hr : SameReg s mask T l r) : Agrees h s x mask T l (sharedReg s r 1) := fun n hn => congrArg (fun v => [v]) (hr n hn)

theorem agrees_pair (hr : SameReg s mask T l r) (hr1 : SameReg s mask T l (r + 1)) : Agrees h s x mask T l (sharedReg s r 2) :=
  fun n hn => congrArg₂ (fun v w => [v, w]) (hr n hn) (hr1 n hn)

theorem agrees_base {a b : VReg} (hr : ∀ r ∈ [a, b], SameReg s mask T l r) :
    ∀ y ∈ [sharedReg s a 1, sharedReg s b 1], Agrees h s x mask T l y := fun y hy => by
  obtain ⟨ha, hb⟩ := List.forall_mem_cons.mp hr
  obtain rfl | hy := List.mem_cons.mp hy
  · exact agrees_reg ha
  · exact List.mem_singleton.mp hy ▸ agrees_reg (List.forall_mem_singleton.mp hb)

theorem agrees_rows {a b : VReg} (hr : ∀ r ∈ [a, b, b + 1], SameReg s mask T l r) :
    ∀ y ∈ [sharedReg s a 1, sharedReg s b 2], Agrees h s x mask T l y := fun y hy => by
  obtain ⟨ha, hr⟩ := List.forall_mem_cons.mp hr
  obtain ⟨hb, hb1⟩ := List.forall_mem_cons.mp hr
  obtain rfl | hy := List.mem_cons.mp hy
  · exact agrees_reg ha
  · exact List.mem_singleton.mp hy ▸ agrees_pair hb (List.forall_mem_singleton.mp hb1)

/-- Scale generators that an operation takes only in some formats. -/
theorem agrees_gens {c : Prop} [Decidable c] {gs : List (BitVec 2)} (hg : ∀ k ∈ (if c then gs else []), SameGen s mask T l k) :
    ∀ y ∈ (if c then gs.map (sharedGen s) else []), Agrees h s x mask T l y := fun y hy => by
  split_ifs at hg hy
  · obtain ⟨k, hk, rfl⟩ := List.mem_map.mp hy
    exact fun n hn => hg k hk n hn
  · exact absurd hy List.not_mem_nil

theorem agrees_qShared {o : QOps} (ho : ∀ r ∈ [o.a, o.c] ++ QOps.waits o, SameReg s mask T l r) :
    ∀ y ∈ qShared s o, Agrees h s x mask T l y := by
  obtain ⟨hac, hwaits⟩ := List.forall_mem_append.mp ho
  obtain ⟨hbwt, hbar⟩ := List.forall_mem_append.mp hwaits
  obtain ⟨ha, hc⟩ := List.forall_mem_cons.mp hac
  have hbwt' : ∀ y ∈ sharedOpt s o.bwt 2, Agrees h s x mask T l y := by
    cases hb : o.bwt with
    | none => exact fun y hy => absurd hy List.not_mem_nil
    | some r =>
      rw [hb] at hbwt
      obtain ⟨hr, hr1⟩ := List.forall_mem_cons.mp hbwt
      exact List.forall_mem_singleton.mpr (agrees_pair hr (List.forall_mem_singleton.mp hr1))
  have hbar' : ∀ y ∈ sharedOpt s o.bar 1, Agrees h s x mask T l y := by
    cases hb : o.bar with
    | none => exact fun y hy => absurd hy List.not_mem_nil
    | some r =>
      rw [hb] at hbar
      exact List.forall_mem_singleton.mpr (agrees_reg (List.forall_mem_singleton.mp hbar))
  refine List.forall_mem_append.mpr ⟨List.forall_mem_append.mpr ⟨List.forall_mem_cons.mpr ⟨agrees_reg ha, ?_⟩, hbwt'⟩, hbar'⟩
  exact List.forall_mem_singleton.mpr (agrees_reg (List.forall_mem_singleton.mp hc))

end

theorem rangeFrom_zero (n : Nat) : rangeFrom 0 n = List.range n := (rangeFrom_eq_range' 0 n).trans (List.range_eq_range' ..).symm

/-- The scale addresses of 16 rows. -/
theorem scaleList_rows (g : List Word) (elem : Nat → Nat) : scaleList g 16 (fun m => some (elem m)) =
    ((List.range 16).map (fun m => (g, elem m, 0))).map (fun e : List Word × Nat × Nat => (scaleAddr g e.2.1).getD 0) := by
  rw [scaleList, rangeFrom_zero, List.map_map]; rfl

/-- The scale addresses of the lanes of a mask. -/
theorem scaleList_lanes (g : List Word) (n : Nat) (r : VReg) :
    scaleList g n (fun k => ((membersOf h s x mask T 32).find? (fun m => m.lane == k)).map (fun m => addrOf s m r)) =
      ((List.range n).map (fun k => if mask.getLsbD k then some (rdV s (T k) r).toNat else none)).map
        (fun e => (e.bind (scaleAddr g)).getD 0) := by
  have hlane : ∀ k, ((membersOf h s x mask T 32).find? (fun m => m.lane == k)).map (fun m => addrOf s m r) =
      if mask.getLsbD k then some (rdV s (T k) r).toNat else none := fun k => by
    rw [find?_membersOf]
    split_ifs <;> rfl
  simp only [scaleList, rangeFrom_zero, List.map_map, hlane]
  rfl

section
variable {sh : List Shared} {lack : Word → Bool} {prep : Member → List Member → Prep} {regs : List VReg} {gens : List (BitVec 2)}

/-- A signing instruction of which every member is present, with the lowest lane of its mask. -/
structure Presents (h : Hdr) (s : State) (x : Cx) (mask : Word) (T : Nat → Thread) (l : Nat) : Prop where
  lane : mask.getLsbD l = true
  lowest : ∀ n, n < l → mask.getLsbD n = false
  on : ∀ n, mask.getLsbD n = true → guardOf s (T n) h = true
  wf : memoryWf s
  wave : x.tid.tidx / 32 < x.blk.waves.length

theorem Presents.enters (pr : Presents h s x mask T l) (hi : exec i s = signing i h s q kr sh lack prep) (hlack : lack mask = false)
    (hprep : prep (memberAt h s x T l) (membersOf h s x mask T 32) = p)
    (hsh : (∀ r ∈ regs, SameReg s mask T l r) → (∀ g ∈ gens, SameGen s mask T l g) → ∀ y ∈ sh, Agrees h s x mask T l y) :
    Enters i h s x mask T l q kr regs gens p := by
  intro hmask g
  obtain ⟨ns, hns⟩ := maskLanes_cons pr.lane pr.lowest
  have hms : membersOf h s x mask T 32 = memberAt h s x T l :: ns.map (memberAt h s x T) := by
    rw [membersOf_eq_map, hns, List.map_cons]
  have hmem : ∀ m ∈ membersOf h s x mask T 32, ∃ n, mask.getLsbD n = true ∧ memberAt h s x T n = m := fun m hm => by
    obtain ⟨n, hn, rfl⟩ := List.mem_map.mp (membersOf_eq_map ▸ hm)
    exact ⟨n, mem_maskLanes.mp hn, rfl⟩
  have hon : ∀ m ∈ membersOf h s x mask T 32, m.on = true := fun m hm => by
    obtain ⟨n, hn, rfl⟩ := hmem m hm
    exact pr.on n hn
  have hrun : exec i s = signAll i h s x (membersOf h s x mask T 32) q mask sh (lack mask) prep := by
    rw [hi, signing, collective_gathered g _ _ hmask]
    simp only [hmask]
  rw [hms] at hon hrun hprep
  obtain ⟨hfull, hroom⟩ := signAll_present (i := i) (h := h) (s := s) (q := q) (mask := mask) (sh := sh) (lack := lack mask) (prep := prep) hon
  refine ⟨fun h4 => waits_waitAt g.cur (hrun.trans (hfull h4)), fun h4 hregs hgens hwhy => ?_⟩
  have hagree := hsh hregs hgens
  refine signs_of_entered g pr.wf pr.wave hwhy ?_
  rw [hrun, hroom h4 (fun y hy m hm => ?_) hlack (hprep ▸ hwhy), hprep, hms]
  obtain ⟨n, hn, rfl⟩ := hmem m (hms ▸ hm)
  exact hagree y hy n hn

end

section
variable (pr : Presents h s x mask T l) {fmt : Fmt} {tr : Bool} {sa sb : BitVec 2} {a b k : VReg} {o : QOps}
include pr

/-- MMA and MMB (R220, R221). -/
theorem enters_product {i : Instr} {prec : BitVec 4} {p64 : Bool} {mk : Nat → Nat → Nat → MatOp}
    (hi : exec i s = product i h fmt prec o p64 mk s) :
    Enters i h s x mask T l o.q o.mask ([o.a, o.c] ++ QOps.waits o) []
    (let p := declaredPlanes fmt prec
     let a := (rdV s (T l) o.a).toNat
     let c := (rdV s (T l) o.c).toNat
     ⟨mk p a c, [⟨⟨false, a, 64 * readPlanes fmt p⟩, 64, 0⟩, tileNeed p64 c], [],
      bwtOf s (memberAt h s x T l) o, barOf s (memberAt h s x T l) o⟩) := by
  rw [product] at hi
  exact pr.enters hi rfl rfl fun hregs _ => agrees_qShared hregs

/-- The element addresses of PLANE (R223). -/
def planeElems (fmt : Fmt) (tr : Bool) (g : List Word) (src stride : Nat) : List (List Word × Nat × Nat) :=
  if fmt = .e2m1x then (List.range 16).map (fun m => (g, if tr then src + m / 2 else src + m * stride, 0)) else []

theorem enters_plane : Enters (.plane h fmt tr sa q a b k) h s x mask T l q k [a, b, b + 1] (if fmt = .e2m1x then [sa] else [])
    (let src := (rdV s (T l) b).toNat
     let stride := (rdV s (T l) (b + 1)).toNat
     let g := sgenOf s (T l) sa
     let es := planeElems fmt tr g src stride
     ⟨.plane fmt tr (rdV s (T l) a).toNat src stride (if fmt = .e2m1x then es.map (fun e => (scaleAddr g e.2.1).getD 0) else []),
      ⟨⟨false, (rdV s (T l) a).toNat, 64 * allPlanes fmt⟩, 64, 0⟩ :: rowNeeds src stride (planeRows fmt tr).1 (planeRows fmt tr).2 4
        ++ scaleNeeds es, scaleOutside es, none, none⟩) := by
  have hi := exec_plane h fmt tr sa q a b k s
  rw [execPlane] at hi
  dsimp only at hi
  refine pr.enters hi rfl ?_ fun hregs hgens => ?_
  · simp only [beq_iff_eq, rangeFrom_zero, scaleList_rows, planeElems]
    split_ifs <;> rfl
  · simp only [beq_iff_eq]
    exact List.forall_mem_append.mpr ⟨agrees_rows hregs, agrees_gens (gs := [sa]) hgens⟩

/-- The element addresses of ACVT (R225). -/
def acvtElems (fmt : Fmt) (g : List Word) (dst stride : Nat) : List (List Word × Nat × Nat) :=
  if fmt.isBlock then (List.range 16).map (fun m => (g, dst + m * stride, 0)) else []

theorem enters_acvt : Enters (.acvt h fmt sa q a b k) h s x mask T l q k [a, b, b + 1] (if fmt.isBlock then [sa] else [])
    (let dst := (rdV s (T l) b).toNat
     let stride := (rdV s (T l) (b + 1)).toNat
     let g := sgenOf s (T l) sa
     let es := acvtElems fmt g dst stride
     ⟨.acvt fmt (rdV s (T l) a).toNat dst stride (if fmt.isBlock then es.map (fun e => (scaleAddr g e.2.1).getD 0) else []),
      tileNeed false (rdV s (T l) a).toNat :: rowNeeds dst stride 16 (4 * elemWidth fmt) 16 ++ scaleNeeds es,
      scaleOutside es, none, none⟩) := by
  have hi := exec_acvt h fmt sa q a b k s
  rw [execAcvt] at hi
  dsimp only at hi
  refine pr.enters hi rfl ?_ fun hregs hgens => ?_
  · simp only [rangeFrom_zero, scaleList_rows, acvtElems]
    split_ifs <;> rfl
  · exact List.forall_mem_append.mpr ⟨agrees_rows hregs, agrees_gens (gs := [sa]) hgens⟩

/-- The element addresses of MSCALE (R222). -/
def mscaleElems (fmt : Fmt) (ga gb : List Word) (lanes : List Nat) (row col : Nat → Nat) : List (List Word × Nat × Nat) :=
  if fmt.isBlock then lanes.flatMap (fun n => (gb, row n, n) :: (if n < 16 then [(ga, col n, n)] else [])) else []

theorem enters_mscale (hlow : fmt.isBlock = true → mask.toNat % 2 ^ 16 = 2 ^ 16 - 1) :
    Enters (.mscale h fmt sa sb o) h s x mask T l o.q o.mask ([o.a, o.c] ++ QOps.waits o) (if fmt.isBlock then [sa, sb] else [])
    (let p := (rdV s (T l) o.a).toNat
     let c := (rdV s (T l) o.c).toNat
     let ga := sgenOf s (T l) sa
     let gb := sgenOf s (T l) sb
     let addr (r : VReg) (n : Nat) := if mask.getLsbD n then some (rdV s (T n) r).toNat else none
     let scales (g : List Word) (n : Nat) (r : VReg) := ((List.range n).map (addr r)).map (fun e => (e.bind (scaleAddr g)).getD 0)
     let es := mscaleElems fmt ga gb (maskLanes mask) (fun n => (rdV s (T n) o.b).toNat) (fun n => (rdV s (T n) (o.b + 1)).toNat)
     ⟨if fmt.isBlock then .mscale fmt p c (scales gb 32 o.b) (scales ga 16 (o.b + 1)) else .mscale fmt p c [] [],
      tileNeed true p :: scaleNeeds es ++ [tileNeed false c], scaleOutside es,
      bwtOf s (memberAt h s x T l) o, barOf s (memberAt h s x T l) o⟩) := by
  have hi := exec_mscale h fmt sa sb o s
  rw [execMscale] at hi
  dsimp only at hi
  refine pr.enters hi ?_ ?_ fun hregs hgens => ?_
  · cases hblock : fmt.isBlock with
    | false => rfl
    | true =>
      have hlanes : mask.extractLsb' 0 16 = 0xFFFF#16 := BitVec.eq_of_toNat_eq (by
        rw [BitVec.extractLsb'_toNat, Nat.shiftRight_zero, hlow hblock]; rfl)
      rw [hlanes]; rfl
  · simp only [scaleList_lanes]
    simp only [membersOf_eq_map, List.flatMap_map, mscaleElems]
    rfl
  · exact List.forall_mem_append.mpr ⟨agrees_qShared hregs, agrees_gens (gs := [sa, sb]) hgens⟩

end

theorem signingInstancesEnterTheirStreams : Claims.SigningInstancesEnterTheirStreams := by
  intro h fmt prec sa sb tr p64 o q a b k s x mask T l hl hlow hon hwf hw A same bwt bar waits p e2 ga gb lanes at' rows planeEs acvtEs
    scaleEs words planes enters
  have pr : Presents h s x mask T l := ⟨hl, hlow, hon, hwf, hw⟩
  refine ⟨?mma, ?mmb, fun hlow16 => ?mscale, ?plane, ?acvt, ?azero, ?amovOut, ?amovIn⟩
  case mma =>
    have hi := exec_mma h fmt prec o s
    rw [execMma] at hi
    exact (enters_product pr hi :)
  case mmb =>
    have hi := exec_mmb h fmt prec o s
    rw [execMmb] at hi
    exact (enters_product pr hi :)
  case mscale => exact enters_mscale pr hlow16
  case plane => exact enters_plane pr
  case acvt => exact enters_acvt pr
  case azero =>
    exact pr.enters (exec_azero h p64 q a k s) rfl rfl fun hregs _ =>
      List.forall_mem_singleton.mpr (agrees_reg (List.forall_mem_singleton.mp hregs))
  case amovOut => exact pr.enters (exec_amovOut h p64 q a b k s) rfl rfl fun hregs _ => agrees_base hregs
  case amovIn => exact pr.enters (exec_amovIn h p64 q a b k s) rfl rfl fun hregs _ => agrees_base hregs

end Sys2Proof.Machine

/-- Settles O32: an instance enters its operation where its members agree and its ranges are accepted, which is so where every check
of R209 holds of them. -/
theorem signingInstancesAreCheckedAndEnter : Obligations.SigningInstancesAreCheckedAndEnter :=
  ⟨Sys2Proof.Machine.signingInstancesEnterTheirStreams, Sys2Proof.Machine.matrixRangesAccepted⟩
end

section
/-! PROOF. Regroups, ageing and the end of a yield (O33). -/

namespace Sys2Proof.Machine

open Sys2Proof

variable {s t : State} {tid : ThreadId} {part : Nat}

/-! ### What threads change that come to their next groups (R101, R242) -/

/-- Threads of a set have come to their next groups: no byte of memory, no other thread and no bundle has changed. -/
structure CameTo (P : ThreadId → Prop) (s t : State) : Prop where
  memory : MemSame s t
  others : ∀ u, ¬ P u → threadOf t u = threadOf s u
  bundles : t.bundles = s.bundles

theorem CameTo.refl (P : ThreadId → Prop) (s : State) : CameTo P s s :=
  ⟨⟨fun _ => rfl, fun _ => rfl, fun _ _ => rfl, fun _ _ => rfl, rfl⟩, fun _ _ => rfl, rfl⟩

theorem CameTo.trans {P : ThreadId → Prop} {s t u : State} (h1 : CameTo P s t) (h2 : CameTo P t u) : CameTo P s u :=
  ⟨h1.memory.trans h2.memory, fun v hv => (h2.others v hv).trans (h1.others v hv), h2.bundles.trans h1.bundles⟩

theorem cameTo_upToCores (P : ThreadId → Prop) (h : { t with cores := s.cores } = s) : CameTo P s t :=
  ⟨memSame_upToCores h, fun u _ => threadOf_congr (congrArg State.blocks h :) u, (congrArg State.bundles h :)⟩

theorem cameTo_modThread {P : ThreadId → Prop} (hP : P tid) (f : Thread → Thread) : CameTo P s (modThread s tid f) :=
  ⟨memSame_modBlock (f := fun b => { b with threads := listModify b.threads tid.tidx f }) tid.slot (fun _ => rfl) (fun _ => rfl) s,
    fun u hu => by rw [threadOf_modThread, if_neg (fun h : u = tid => hu (h ▸ hP))], modThread_bundles ..⟩

theorem cameTo_setThread {P : ThreadId → Prop} (hP : P tid) (w : Thread) : CameTo P s (setThread s tid w) :=
  cameTo_modThread hP fun _ => w

theorem closeRegion_rest (s : State) (tid : ThreadId) : { closeRegion s tid with cores := s.cores } = s := rfl

theorem cameTo_passRestart {P : ThreadId → Prop} (hP : P tid) (b : Block) (u : Thread) : CameTo P s (passRestart s tid b u) :=
  (cameTo_setThread hP _).trans
    (((cameTo_upToCores P (atCore_addRefs ..).1).trans (cameTo_upToCores P (atCore_dropRefs ..).1)).trans
      (cameTo_upToCores P (closeRegion_rest ..)))

theorem cameTo_approach {P : ThreadId → Prop} (hP : P tid) : CameTo P s (approach s tid) := by
  unfold approach
  split
  · exact .refl P s
  split
  · exact .refl P s
  rename_i b _ _ u _
  split
  · exact (cameTo_passRestart hP b u).trans (cameTo_modThread hP _)
  split
  · exact .refl P s
  split
  · exact .refl P s
  split
  · refine CameTo.trans ?_ (cameTo_modThread hP _)
    split
    · exact cameTo_passRestart hP b u
    · exact .refl P s
  split
  · split
    · exact cameTo_setThread hP _
    · exact .refl P s
  · exact .refl P s

theorem cameTo_approaches {P : ThreadId → Prop} : ∀ (tids : List ThreadId) (s : State), (∀ u ∈ tids, P u) →
    CameTo P s (tids.foldl approach s)
  | [], s, _ => .refl P s
  | u :: us, s, hP => by
    obtain ⟨hu, hus⟩ := List.forall_mem_cons.mp hP
    exact (cameTo_approach hu).trans (cameTo_approaches us _ hus)

/-! ### The threads of a partition -/

theorem mem_block_tids {slot : Nat} {b : Block} {u : ThreadId} {w : Thread} :
    (u, w) ∈ b.tids slot ↔ u.slot = slot ∧ b.threads[u.tidx]? = some w := by
  obtain ⟨k, i⟩ := u
  simp only [Block.tids, rangeFrom_zero, List.mem_filterMap, List.mem_range, Option.map_eq_some_iff, Prod.mk.injEq,
    ThreadId.mk.injEq]
  constructor
  · rintro ⟨j, -, v, hv, ⟨rfl, rfl⟩, rfl⟩
    exact ⟨rfl, hv⟩
  · rintro ⟨rfl, hw⟩
    exact ⟨i, (List.getElem?_eq_some_iff.mp hw).1, w, hw, ⟨rfl, rfl⟩, rfl⟩

theorem mem_tidsIn {b : Block} {u : ThreadId} {w : Thread} : (b, u, w) ∈ tidsIn s part ↔
    (u.slot, b) ∈ s.blocks ∧ b.threads[u.tidx]? = some w ∧ inPart b u part = true := by
  simp only [tidsIn, List.mem_flatMap, List.mem_map, List.mem_filter, Prod.mk.injEq, Prod.exists]
  constructor
  · rintro ⟨k, b, hb, v, w, ⟨hvw, hin⟩, rfl, rfl, rfl⟩
    obtain ⟨rfl, hw⟩ := mem_block_tids.mp hvw
    exact ⟨hb, hw, hin⟩
  · rintro ⟨hb, hw, hin⟩
    exact ⟨u.slot, b, hb, u, w, ⟨mem_block_tids.mpr ⟨rfl, hw⟩, hin⟩, rfl, rfl, rfl⟩

/-! ### Orders of candidates and of bundles keep them all (R239, R240) -/

theorem insertCand_perm (c : Cand) : ∀ l, (insertCand c l).Perm (c :: l)
  | [] => .refl _
  | x :: xs => by
    unfold insertCand
    split_ifs
    · exact .refl _
    · exact ((insertCand_perm c xs).cons x).trans (.swap ..)

theorem behindLast_perm (p : Cand → Bool) (c : Cand) : ∀ l, (behindLast p c l).Perm (c :: l)
  | [] => .refl _
  | x :: xs => by
    unfold behindLast
    split_ifs
    · exact ((behindLast_perm p c xs).cons x).trans (.swap ..)
    · exact .refl _

theorem sinkLow_perm : ∀ l, (sinkLow l).Perm l
  | [] => .refl _
  | c :: cs => by
    unfold sinkLow
    split_ifs
    · exact (behindLast_perm _ c _).trans ((sinkLow_perm cs).cons c)
    · exact (sinkLow_perm cs).cons c

theorem insertFormed_perm (le : Formed → Formed → Bool) (c : Formed) : ∀ l, (insertFormed le c l).Perm (c :: l)
  | [] => .refl _
  | x :: xs => by
    unfold insertFormed
    split_ifs
    · exact .refl _
    · exact ((insertFormed_perm le c xs).cons x).trans (.swap ..)

/-- Inserting one after another keeps every element. -/
theorem foldr_perm {α : Type} {ins : α → List α → List α} (h : ∀ x l, (ins x l).Perm (x :: l)) :
    ∀ l : List α, (l.foldr ins []).Perm l
  | [] => .refl _
  | x :: xs => (h x _).trans ((foldr_perm h xs).cons x)

theorem sortFormed_perm (le : Formed → Formed → Bool) (l : List Formed) : (sortFormed le l).Perm l :=
  foldr_perm (insertFormed_perm le) l

theorem mem_readyOf {c : Cand} (hc : c ∈ readyOf s part) : ∃ b u w, (u.slot, b) ∈ s.blocks ∧ b.threads[u.tidx]? = some w
    ∧ isReady s b u w = true ∧ inPart b u part = true ∧ candOf s (b, u, w) = c := by
  rw [readyOf, (sinkLow_perm _).mem_iff, (foldr_perm insertCand_perm _).mem_iff] at hc
  obtain ⟨⟨b, u, w⟩, hx, hcand⟩ := List.mem_map.mp hc
  obtain ⟨hin, hready⟩ := List.mem_filter.mp hx
  obtain ⟨hb, hw, hpart⟩ := mem_tidsIn.mp hin
  exact ⟨b, u, w, hb, hw, hready, hpart, hcand⟩

/-! ### Instances (R101, R238) -/

/-- The members of a formed instance are the threads of a mask's lanes, all of whom stand held at it. -/
def IsInstance (s : State) (part : Nat) (ms : List ThreadId) : Prop :=
  ∃ lead b w mask, (lead.slot, b) ∈ s.blocks ∧ b.threads[lead.tidx]? = some w ∧ w.status = .held mask
    ∧ complete? s b lead w = true ∧ inPart b lead part = true ∧ ∀ m, m ∈ ms ↔ m ∈ maskTids lead mask

/-- The members of a bundle are ready threads of a partition at one code address, no two of one lane. -/
def IsBundle (s : State) (part : Nat) (ms : List ThreadId) : Prop :=
  (ms.map laneOf).Nodup ∧ ∃ pc, ∀ m ∈ ms, ∃ b w, (m.slot, b) ∈ s.blocks ∧ b.threads[m.tidx]? = some w
    ∧ isReady s b m w = true ∧ inPart b m part = true ∧ w.pcWord = pc

theorem isInstance_of_mem {f : Formed} (hf : f ∈ instancesOf s part) : IsInstance s part f.members := by
  rw [instancesOf, (sortFormed_perm _ _).mem_iff] at hf
  obtain ⟨⟨b, lead, w⟩, hx, hlead⟩ := List.mem_filterMap.mp hf
  obtain ⟨hin, hheld⟩ := List.mem_filter.mp hx
  obtain ⟨hb, hw, hpart⟩ := mem_tidsIn.mp hin
  obtain ⟨hfirst, hcomplete⟩ := Bool.and_eq_true_iff.mp hheld
  obtain ⟨mask, hst⟩ : ∃ mask, w.status = .held mask := by
    cases hst : w.status with
    | held mask => exact ⟨mask, rfl⟩
    | _ => simp [hst] at hfirst
  simp only [hst, Option.map_eq_some_iff] at hlead
  obtain ⟨c, hc, rfl⟩ := hlead
  refine ⟨lead, b, w, mask, hb, hw, hst, hcomplete, hpart, fun m => ?_⟩
  have hmem := List.mem_of_mem_head? (Option.mem_def.mpr hc)
  rw [(foldr_perm insertCand_perm _).mem_iff] at hmem
  obtain ⟨u, hu, hcand⟩ := List.mem_filterMap.mp hmem
  obtain ⟨v, -, rfl⟩ := Option.map_eq_some_iff.mp hcand
  have hown : (candOf s (b, u, v)).tid = u := rfl
  simp only [hown, List.mem_cons, List.mem_filter, bne_iff_ne]
  by_cases hm : m = u <;> simp [hm, hu]

/-! ### Bundles (R236) -/

theorem map_filterMap_sublist {α : Type} {f : Nat → Option α} {g : α → Nat} (h : ∀ n a, f n = some a → g a = n) :
    ∀ l : List Nat, ((l.filterMap f).map g).Sublist l
  | [] => .slnil
  | n :: ns => by
    have ih := map_filterMap_sublist h ns
    rw [List.filterMap_cons]
    split
    · exact ih.cons n
    · rename_i a ha
      rw [List.map_cons, h n a ha]
      exact ih.cons_cons n

theorem firstAt_eq_some {pc : Word} {lane : Nat} {cs : List Cand} {c : Cand} (h : firstAt pc lane cs = some c) :
    c ∈ cs ∧ c.lane = lane ∧ c.pc = pc := by
  have hp := List.find?_some h
  simp only [Bool.and_eq_true, beq_iff_eq] at hp
  exact ⟨List.mem_of_find?_eq_some h, hp⟩

theorem mem_bundleOf {lead : Cand} {cs : List Cand} {m : ThreadId} (hm : m ∈ bundleOf lead cs) :
    ∃ c ∈ lead :: cs, c.tid = m ∧ c.pc = lead.pc := by
  rcases List.mem_cons.mp hm with rfl | hm
  · exact ⟨lead, List.mem_cons_self, rfl, rfl⟩
  · obtain ⟨lane, -, hl⟩ := List.mem_filterMap.mp hm
    obtain ⟨c, hc, rfl⟩ := Option.map_eq_some_iff.mp hl
    obtain ⟨hcs, -, hpc⟩ := firstAt_eq_some hc
    exact ⟨c, List.mem_cons_of_mem _ hcs, rfl, hpc⟩

theorem bundleOf_lanes_nodup {lead : Cand} {cs : List Cand} (hlane : ∀ c ∈ lead :: cs, c.lane = laneOf c.tid) :
    ((bundleOf lead cs).map laneOf).Nodup := by
  obtain ⟨hlead, hcs⟩ := List.forall_mem_cons.mp hlane
  have hsub := map_filterMap_sublist (f := fun l => (firstAt lead.pc l cs).map Cand.tid) (g := laneOf) (fun n a ha => by
    obtain ⟨c, hc, rfl⟩ := Option.map_eq_some_iff.mp ha
    obtain ⟨hmem, hl, -⟩ := firstAt_eq_some hc
    exact (hcs c hmem).symm.trans hl) ((rangeFrom 0 32).filter (fun l => l != lead.lane))
  have hrange : (rangeFrom 0 32).Nodup := by rw [rangeFrom_zero]; exact List.nodup_range
  rw [bundleOf, List.map_cons, List.nodup_cons, ← hlead]
  refine ⟨fun hmem => ?_, (hrange.filter _).sublist hsub⟩
  simpa using (List.mem_filter.mp (hsub.subset hmem)).2

theorem formBundles_length : ∀ (n : Nat) (cs : List Cand), (formBundles n cs).length ≤ n
  | 0, _ => by simp [formBundles]
  | _ + 1, [] => by simp [formBundles]
  | n + 1, c :: cs => Nat.succ_le_succ (formBundles_length n _)

/-- A bundle formed is led by one of the candidates, and takes its other members from among them. -/
theorem mem_formBundles {f : Formed} : ∀ {n : Nat} {cs : List Cand}, f ∈ formBundles n cs →
    ∃ lead cs', (∀ c ∈ lead :: cs', c ∈ cs) ∧ f.members = bundleOf lead cs'
  | 0, _, hf => by simp [formBundles] at hf
  | _ + 1, [], hf => by simp [formBundles] at hf
  | n + 1, c :: cs, hf => by
    rcases List.mem_cons.mp hf with rfl | hf
    · exact ⟨c, cs, fun _ hx => hx, rfl⟩
    · obtain ⟨lead, cs', hsub, hmembers⟩ := mem_formBundles hf
      exact ⟨lead, cs', fun x hx => List.mem_cons_of_mem _ (List.mem_of_mem_filter (hsub x hx)), hmembers⟩

theorem isBundle_of_mem {f : Formed} {n : Nat} (hf : f ∈ formBundles n (readyOf s part)) : IsBundle s part f.members := by
  obtain ⟨lead, cs, hsub, hmembers⟩ := mem_formBundles hf
  rw [hmembers]
  refine ⟨bundleOf_lanes_nodup fun c hc => ?_, lead.pc, fun m hm => ?_⟩
  · obtain ⟨b, u, w, -, -, -, -, rfl⟩ := mem_readyOf (hsub c hc)
    rfl
  · obtain ⟨c, hc, rfl, hpc⟩ := mem_bundleOf hm
    obtain ⟨b, u, w, hb, hw, hready, hin, rfl⟩ := mem_readyOf (hsub c hc)
    exact ⟨b, w, hb, hw, hready, hin, hpc⟩

/-! ### A regroup (R235, R236) -/

theorem bundlesOf_length (s : State) (part : Nat) : (bundlesOf s part).length ≤ 8 := by
  have hformed := formBundles_length (Config.maxBundles - ((instancesOf s part).take Config.maxBundles).length) (readyOf s part)
  have hinst : ((instancesOf s part).take Config.maxBundles).length ≤ 8 := List.length_take_le ..
  have hmax : Config.maxBundles = 8 := rfl
  rw [bundlesOf, List.length_map, (sortFormed_perm _ _).length_eq, List.length_append]
  omega

theorem mem_bundlesOf {ms : List ThreadId} (h : ms ∈ bundlesOf s part) : IsInstance s part ms ∨ IsBundle s part ms := by
  obtain ⟨f, hf, rfl⟩ := List.mem_map.mp h
  rw [(sortFormed_perm _ _).mem_iff] at hf
  rcases List.mem_append.mp hf with hf | hf
  · exact .inl (isInstance_of_mem (List.mem_of_mem_take hf))
  · exact .inr (isBundle_of_mem hf)

/-- The state in which every thread of a partition has come to its next group. -/
def cameToGroups (s : State) (part : Nat) : State := ((tidsIn s part).map (fun x => x.2.1)).foldl approach s

theorem cameTo_cameToGroups (s : State) (part : Nat) :
    CameTo (fun u => ∃ b, (u.slot, b) ∈ s.blocks ∧ inPart b u part = true) s (cameToGroups s part) :=
  cameTo_approaches _ s fun u hu => by
    obtain ⟨⟨b, u, w⟩, hx, rfl⟩ := List.mem_map.mp hu
    obtain ⟨hb, -, hin⟩ := mem_tidsIn.mp hx
    exact ⟨b, hb, hin⟩

theorem regroup_eq (hturn : (turnOfPart s part).regrouped = false) (hcycle : (s.cycle + (coreOf s (part / 4)).clkOff.toNat) % 4 = 0) :
    regroup s part = { cameToGroups s part with
      bundles := Assoc.set (cameToGroups s part).bundles part (bundlesOf (cameToGroups s part) part)
      turns := Assoc.set (cameToGroups s part).turns part { turnOfPart s part with regrouped := true } } := by
  unfold regroup
  simp only [hturn, hcycle]
  rfl

/-! ### Ageing and yields (R117, R240) -/

theorem threadOnly_modThread {i : Instr} {u : Thread} {f : Thread → Thread} (hu : threadOf s tid = some u)
    (hi : exec i s = .next (modThread s tid f)) : ThreadOnly i s tid (f u) :=
  ⟨_, hi, by rw [modThread_eq_setThread hu]; exact onlyThread_of_threadOf hu _⟩

theorem threadAged_ages {u : Thread} (hu : threadOf s tid = some u) (ha : u.sched.aged = none) (hr : 1024 ≤ u.sched.readyFor) :
    ThreadOnly (.threadAged tid) s tid { u with sched := { u.sched with aged := some s.cycle } } := by
  have hage : u.age s.cycle = { u with sched := { u.sched with aged := some s.cycle } } :=
    if_pos ⟨by rw [ha]; rfl, hr⟩
  rw [← hage]
  exact threadOnly_modThread hu (exec_threadAged ..)

theorem yieldExpiry_ends {u : Thread} {c : Nat} (hu : threadOf s tid = some u) (hy : u.sched.yielded = some c)
    (hc : c + 256 ≤ s.cycle) : ThreadOnly (.yieldExpiry tid) s tid { u with sched := { u.sched with yielded := none } } := by
  have h := threadOnly_modThread hu (exec_yieldExpiry tid s)
  simp only [hy] at h
  rwa [if_pos (show c + Config.yieldCycles ≤ s.cycle from hc)] at h

end Sys2Proof.Machine

open Sys2Proof Sys2Proof.Machine in
/-- Settles O33: a regroup first lets every thread of the partition come to its next group, which changes no other thread, and then
forms the bundles from what stands there. -/
theorem schedulerEvents : Obligations.SchedulerEvents := by
  intro s part tid u
  refine ⟨fun hcycle hturn => ?regroup, fun hu => ⟨threadAged_ages hu, fun c => yieldExpiry_ends hu⟩⟩
  have came := cameTo_cameToGroups s part
  refine ⟨_, (exec_regroup part s).trans (congrArg Host.Outcome.next (regroup_eq hturn hcycle)), ?_, fun v hv => ?_, fun p hp => ?_, ?_, ?_⟩
  · exact ⟨came.memory.dram, came.memory.ws, came.memory.spad, came.memory.tiles, came.memory.tags⟩
  · refine came.others v fun ⟨b, hb, hin⟩ => ?_
    rw [hv b hb] at hin
    exact Bool.false_ne_true hin
  · rw [Assoc.getD_set, if_neg hp, came.bundles]
  · rw [Assoc.getD_set, if_pos rfl]
    exact bundlesOf_length ..
  · intro ms hms
    rw [Assoc.getD_set, if_pos rfl] at hms
    exact mem_bundlesOf hms
end

section
/-! SUPPORT. Writes of device memory by the command processor and firmware (R338, R370), and translations one after another. -/

namespace Sys2Proof.Machine

open Sys2Proof

variable {s t u : State}

/-! ### Bytes written to this device -/

theorem writeDev_dram (s : State) (a : Nat) (bs : List Byte) : (writeDev s a bs).dram = s.dram.writeBytes (here s a) bs := by
  cases bs <;> rfl

/-- As a write of device memory leaves a state: only stacked DRAM with its tags and poison, and copies in L1s may differ. -/
def DevWritten (s t : State) : Prop := { t with dram := s.dram, tags := s.tags, poison := s.poison, cores := s.cores } = s

namespace DevWritten

theorem rest (h : DevWritten s t) : { t with dram := s.dram, tags := s.tags, poison := s.poison, cores := s.cores } = s := h
theorem device (h : DevWritten s t) : t.device = s.device := (congrArg State.device h.rest :)
theorem clusters (h : DevWritten s t) : t.clusters = s.clusters := (congrArg State.clusters h.rest :)
theorem engines (h : DevWritten s t) : t.engines = s.engines := (congrArg State.engines h.rest :)
theorem service (h : DevWritten s t) : t.service = s.service := (congrArg State.service h.rest :)

end DevWritten

theorem devWritten_writeDev (s : State) (a : Nat) (bs : List Byte) : DevWritten s (writeDev s a bs) := by
  cases bs <;> rfl

theorem writeDev_wf (h : s.dram.wf = true) (a : Nat) (bs : List Byte) : (writeDev s a bs).dram.wf = true := by
  rw [writeDev_dram]; exact Memory.writeBytes_wf _ h _

theorem read_writeDevNat (h : s.dram.wf = true) (a n x : Nat) :
    (writeDevNat s a n x).dram.read = withNat x n (here s a) s.dram.read := by
  rw [writeDevNat, writeDev_dram, read_writeBytes_leBytes h, withNat]

theorem read_writeDev_words (h : s.dram.wf = true) (a : Nat) (ws : List Word) :
    (writeDev s a (wordsBytes ws)).dram.read = withWords ws (here s a) s.dram.read := by
  have hlen : (wordsBytes ws).length = 4 * ws.length := wordBytes_length ws
  rw [writeDev_dram, read_writeBytes_eq_patched h, withWords, hlen]
  exact patched_congr fun j _ => wordBytes_getD ws j

theorem here_congr (h : t.device = s.device) (a : Nat) : here t a = here s a := by unfold here; rw [h]

/-! ### Translations one after another -/

theorem Translated.trans (h1 : Translated s t) (h2 : Translated t u) : Translated s u :=
  (congrArg (fun z : State => { z with dram := s.dram, launches := s.launches }) h2 :).trans h1

end Sys2Proof.Machine
end

section
/-! PROOF. Fault records posted, and threads resumed (O37). -/

namespace Sys2Proof.Machine

open Sys2Proof

variable {s s' : State} {tid : ThreadId} {b : Block} {u : Thread}

/-! ### The tables of faults (R368, R370) -/

theorem setFaults_rest (s : State) (src : Nat) (fs : List FaultEntry) :
    { setFaults s src fs with clusters := s.clusters, engines := s.engines } = s := by
  unfold setFaults; split_ifs <;> rfl

theorem faultsAt_congr {t : State} (hc : t.clusters = s.clusters) (he : t.engines = s.engines) (n : Nat) :
    faultsAt t n = faultsAt s n := by
  unfold faultsAt clusterOf engineOf; rw [hc, he]

theorem faultsAt_setFaults (s : State) (src n : Nat) (fs : List FaultEntry) :
    faultsAt (setFaults s src fs) n = if n = src then fs else faultsAt s n := by
  unfold faultsAt setFaults
  by_cases hsrc : src < Config.numClusters
  · rw [if_pos hsrc, clusterOf_setCluster]
    by_cases hn : n = src
    · rw [if_pos hn, if_pos hn, if_pos (hn ▸ hsrc)]
    · rw [if_neg hn, if_neg hn]; rfl
  · rw [if_neg hsrc, engineOf_setEngine]
    by_cases hn : n = src
    · rw [if_pos hn, if_pos (congrArg (· - Config.numClusters) hn), if_neg (hn ▸ hsrc)]
    · rw [if_neg hn]
      by_cases hlt : n < Config.numClusters
      · rw [if_pos hlt, if_pos hlt]; rfl
      · rw [if_neg hlt, if_neg hlt, if_neg (by omega)]

/-! ### FAULT_RECORD_POST (R370) -/

/-- The state with a fault marked as reported. -/
def reported (s : State) (src k : Nat) (e : FaultEntry) : State :=
  setFaults s src ((faultsAt s src).set k { e with reported := true })

/-- The state with the record of a fault in its queue's slot, before the queue's WR is raised. -/
def recorded (s : State) (src k : Nat) (e : FaultEntry) (q : FaultQueue) : State :=
  writeDev (reported s src k e) (q.addr + 64 + 32 * (readDevNat s q.addr 8 % 2 ^ q.logn)) (wordsBytes (e.words (faultSrc src)))

/-- The state with the record in its queue, whose WR is raised. -/
def raised (s : State) (src k : Nat) (e : FaultEntry) (q : FaultQueue) : State :=
  writeDevNat (recorded s src k e q) q.addr 8 ((readDevNat s q.addr 8 + 1) % 2 ^ 64)

section
variable {src k : Nat} {e : FaultEntry} {q : FaultQueue}

theorem faultRecordPost_posts (hk : (faultsAt s src)[k]? = some e) (hr : e.reported = false)
    (hq : (ctxOf s e.ctx).bind Context.faultQ = some q)
    (hroom : (readDevNat s q.addr 8 + 2 ^ 64 - readDevNat s (q.addr + 8) 8) % 2 ^ 64 < 2 ^ q.logn) :
    exec (.faultRecordPost src k) s = .next (sendMsix (raised s src k e q) q.fn 3) := by
  have hgo : ¬(e.reported || decide (2 ^ q.logn ≤ (readDevNat s q.addr 8 + 2 ^ 64 - readDevNat s (q.addr + 8) 8) % 2 ^ 64)) = true := by
    rw [hr, Bool.false_or, decide_eq_true_eq]; exact Nat.not_le.mpr hroom
  rw [exec_faultRecordPost, execFaultRecordPost]
  simp only [hk, hq, if_neg hgo]
  rfl

/-- Device memory as it reads behind a message to a function. -/
theorem memoryBecomes_sendMsix {z : State} {byte : Nat → Byte} (fn v : Nat) (hread : z.dram.read = byte)
    (hrest : { sendMsix z fn v with
      dram := s.dram, tags := s.tags, poison := s.poison, cores := s.cores
      clusters := s.clusters, engines := s.engines, service := s.service } = s) :
    MemoryBecomes s { sendMsix z fn v with clusters := s.clusters, engines := s.engines, service := s.service } byte :=
  ⟨congrFun hread, hrest⟩

/-- What is the same where faults are marked, device memory is written twice, and a message is sent. -/
theorem rest_of_posting {s1 s2 s3 : State} (h1 : { s1 with clusters := s.clusters, engines := s.engines } = s)
    (h2 : DevWritten s1 s2) (h3 : DevWritten s2 s3) (fn v : Nat) : { sendMsix s3 fn v with
      dram := s.dram, tags := s.tags, poison := s.poison, cores := s.cores
      clusters := s.clusters, engines := s.engines, service := s.service } = s := by
  let outside (z : State) : State := { z with
    dram := s.dram, tags := s.tags, poison := s.poison, cores := s.cores
    clusters := s.clusters, engines := s.engines, service := s.service }
  exact ((congrArg outside h3.rest :).trans (congrArg outside h2.rest :)).trans (congrArg outside h1 :)

variable (s src k e q)

theorem devWritten_recorded : DevWritten (reported s src k e) (recorded s src k e q) := devWritten_writeDev ..
theorem devWritten_raised : DevWritten (recorded s src k e q) (raised s src k e q) := devWritten_writeDev ..

theorem reported_device : (reported s src k e).device = s.device := (congrArg State.device (setFaults_rest ..) :)
theorem reported_dram : (reported s src k e).dram = s.dram := (congrArg State.dram (setFaults_rest ..) :)
theorem reported_service : (reported s src k e).service = s.service := (congrArg State.service (setFaults_rest ..) :)

theorem faultsAt_raised (n : Nat) : faultsAt (raised s src k e q) n =
    if n = src then (faultsAt s src).set k { e with reported := true } else faultsAt s n := by
  have hrecord := devWritten_recorded s src k e q
  have hraise := devWritten_raised s src k e q
  rw [faultsAt_congr (hraise.clusters.trans hrecord.clusters) (hraise.engines.trans hrecord.engines), reported, faultsAt_setFaults]

theorem faultsAt_sendMsix (t : State) (fn v n : Nat) : faultsAt (sendMsix t fn v) n = faultsAt t n := rfl

theorem msixOf_sendMsix (t : State) (fn v : Nat) : msixOf (sendMsix t fn v) fn v = msixOf t fn v + 1 :=
  (Assoc.getD_set ..).trans (if_pos rfl)

theorem msixOf_raised (fn v : Nat) : msixOf (raised s src k e q) fn v = msixOf s fn v := by
  rw [msixOf, (devWritten_raised s src k e q).service, (devWritten_recorded s src k e q).service, reported_service, msixOf]

theorem read_recorded (h : s.dram.wf = true) : (recorded s src k e q).dram.read =
    withWords (e.words (faultSrc src)) (here s (q.addr + 64 + 32 * (readDevNat s q.addr 8 % 2 ^ q.logn))) s.dram.read := by
  rw [recorded, read_writeDev_words (by rw [reported_dram]; exact h), here_congr (reported_device s src k e), reported_dram]

theorem read_raised (h : s.dram.wf = true) : (raised s src k e q).dram.read =
    withNat ((readDevNat s q.addr 8 + 1) % 2 ^ 64) 8 (here s q.addr)
      (withWords (e.words (faultSrc src)) (here s (q.addr + 64 + 32 * (readDevNat s q.addr 8 % 2 ^ q.logn))) s.dram.read) := by
  have hwf : (recorded s src k e q).dram.wf = true := writeDev_wf (by rw [reported_dram]; exact h) ..
  rw [raised, read_writeDevNat hwf, read_recorded s src k e q h,
    here_congr ((devWritten_recorded s src k e q).device.trans (reported_device s src k e))]

theorem memoryBecomes_posted (hwf : memoryWf s) : MemoryBecomes s
    { sendMsix (raised s src k e q) q.fn 3 with clusters := s.clusters, engines := s.engines, service := s.service }
    (withNat ((readDevNat s q.addr 8 + 1) % 2 ^ 64) 8 (here s q.addr)
      (withWords (e.words (faultSrc src)) (here s (q.addr + 64 + 32 * (readDevNat s q.addr 8 % 2 ^ q.logn))) s.dram.read)) :=
  memoryBecomes_sendMsix q.fn 3 (read_raised s src k e q hwf.1) <|
    rest_of_posting (setFaults_rest ..) (devWritten_recorded s src k e q) (devWritten_raised s src k e q) q.fn 3

end

/-! ### FAULT_RESUME (R247, R250, R371) -/

theorem retranslate_translated (ctx : Nat) (l : Option Nat) : ∀ (fs : List PageFault) (s : State),
    Translated s (retranslate ctx l fs s).1
  | [], _ => rfl
  | f :: fs, s => by
    have h1 := translate_translated s ctx l ⟨f.obj, f.off, f.acc, false, false⟩
    have h2 := h1.trans (retranslate_translated ctx l fs _)
    rw [retranslate]
    dsimp only
    split <;> exact h2

theorem clusterFaults_blocks (cl ctx : Nat) (fs : List PageFault) (s : State) :
    (fs.foldl (fun s f => clusterFault s cl ctx f) s).blocks = s.blocks :=
  List.foldlRecOn (motive := fun t : State => t.blocks = s.blocks) fs _ rfl fun t ht f _ => by
    unfold clusterFault
    dsimp only
    split_ifs <;> exact ht

section
variable {fs gs : List PageFault} {since : Nat} (hin : ThreadIn s tid b u) (hst : u.status = .parkedFault fs since)
  (hdone : u.trap = none → u.runFrom = none ∧ u.pend = [] ∧ (∀ x ∈ u.lat, x.2 ≤ s.cycle) ∧ u.fpxAt ≤ s.cycle
    ∧ ∀ x ∈ u.tokens, x.inRegion = false)
  (hserviced : ∀ f ∈ fs, outstanding s b.cluster b.ctx f = false) (htr : retranslate b.ctx (some b.launch) fs s = (s', gs))
include hin hst hdone hserviced htr

/-- Once its faults are serviced and what it had issued has completed, a parked thread translates them again. -/
theorem faultResume_retranslates : exec (.faultResume tid) s = .next (match gs with
    | [] => if u.trap.isSome then setThread s' tid { u with status := .ready, nextIssue := s'.cycle + 1 } else enterRestart s' tid
    | gs => setThread (gs.foldl (fun s f => clusterFault s b.cluster b.ctx f) s') tid { u with status := .parkedFault gs since }) := by
  obtain ⟨hb, hu⟩ := hin
  have hgo : ¬(fs.any (outstanding s b.cluster b.ctx) || (u.trap.isNone && (!u.recovered s.cycle || u.runFrom.isSome))) = true := by
    have hfs : fs.any (outstanding s b.cluster b.ctx) = false := List.any_eq_false.mpr fun f hf => by rw [hserviced f hf]; decide
    cases htrap : u.trap with
    | some r => simp [hfs]
    | none =>
      obtain ⟨hrun, hpend, hlat, hfpx, htokens⟩ := hdone htrap
      have hlanded : u.landed s.cycle = true := by simpa [Thread.landed, hpend, hfpx] using hlat
      have hregion : (u.tokens.all fun k => !k.inRegion) = true := by simpa using htokens
      simp [hfs, hrun, Thread.recovered, hlanded, hregion]
  rw [exec_faultResume, execFaultResume]
  simp only [hb, hu, hst, if_neg hgo, htr]
  cases gs with
  | nil => dsimp only; split <;> rfl
  | cons g gs => rfl

end

theorem threadIn_translated (h : Translated s s') (hin : ThreadIn s tid b u) : ThreadIn s' tid b u :=
  ⟨(blockOf_congr h.blocks tid.slot).trans hin.1, hin.2⟩

/-- A thread whose restart point carries the TGT bit enters it. -/
theorem enterRestart_enters (hin : ThreadIn s tid b u) (hok : entryOk s (coreIdOf b tid) b.ctx u.top u.pc.toNat = true) :
    enterRestart s tid = setThread s tid { u with
      status := .ready, arrival := none, nextIssue := s.cycle + 1, sched := ⟨none, false, 0, none⟩ } := by
  have hsame (w : Thread) : entryOk (setThread s tid w) (coreIdOf b tid) b.ctx u.top u.pc.toNat = true := by
    rw [← hok]
    simp only [entryOk, lenOf, coreOf_setThread, ovKey_setThread]
  obtain ⟨hb, hu⟩ := hin
  unfold enterRestart
  simp only [hb, hu, hsame, if_true]

/-! ### Staging stalls (R299) -/

theorem endStaging_ends {i : Instr} {since need : Nat} {cond : Block → Nat → Nat → Bool} {late : Bool} (hin : ThreadIn s tid b u)
    (hst : u.status = .stalled (.staging since need)) (hc : cond b since need = true) (hi : exec i s = endStaging tid s cond late) :
    ThreadOnly i s tid { u with status := .ready, nextIssue := min u.nextIssue s.cycle, stgOut := late } := by
  obtain ⟨hb, hu⟩ := hin
  refine ⟨_, hi.trans ?_, onlyThread_of_threadOf (threadOf_of_block hb hu) _⟩
  simp only [endStaging, hb, hu, hst, hc, if_true]

end Sys2Proof.Machine

open Sys2Proof Sys2Proof.Machine in
/-- Settles O37: a record is posted behind its fault's mark, a parked thread translates its faults again and goes on or reports
again, and a staging stall ends on its condition. -/
theorem faultsAreReportedAndResumed : Obligations.FaultsAreReportedAndResumed := by
  intro s src k e q tid b u hwf hin
  refine ⟨fun hk hr hq => ?posts, fun fs since s' hst hdone hserviced => ⟨fun htr => ?resumes, fun g gs htr => ?again⟩,
    fun since need hst => ⟨fun hlim => ?timeout, fun hroom => ?room⟩⟩
  case posts =>
    dsimp only
    intro hroom
    have hmem := memoryBecomes_posted s src k e q hwf
    rw [FaultEntry.words] at hmem
    refine ⟨sendMsix (raised s src k e q) q.fn 3, faultRecordPost_posts hk hr hq hroom, hmem, ?_, fun n hn => ?_, ?_⟩
    · rw [faultsAt_sendMsix, faultsAt_raised, if_pos rfl]
    · rw [faultsAt_sendMsix, faultsAt_raised, if_neg hn]
    · rw [msixOf_sendMsix, msixOf_raised]
  case resumes =>
    have htranslated := retranslate_translated b.ctx (some b.launch) fs s
    rw [htr] at htranslated
    have hin' := threadIn_translated htranslated hin
    have hres := faultResume_retranslates hin hst hdone hserviced htr
    rw [← htranslated.cycle]
    refine ⟨fun htrap => ⟨_, hres.trans (congrArg _ (if_pos htrap)), onlyThread_of_threadOf (threadOf_of_block hin'.1 hin'.2) _⟩,
      fun htrap hok => ?_⟩
    have hnone : ¬u.trap.isSome = true := by rw [htrap]; decide
    exact ⟨_, hres.trans (congrArg _ ((if_neg hnone).trans (enterRestart_enters hin' hok))),
      onlyThread_of_threadOf (threadOf_of_block hin'.1 hin'.2) _⟩
  case again =>
    have htranslated := retranslate_translated b.ctx (some b.launch) fs s
    rw [htr] at htranslated
    have hin' := threadIn_translated htranslated hin
    refine ⟨_, faultResume_retranslates hin hst hdone hserviced htr, ?_⟩
    rw [threadOf_setThread, if_pos rfl, threadOf_congr (clusterFaults_blocks ..), threadOf_of_block hin'.1 hin'.2]
    rfl
  case timeout => exact endStaging_ends hin hst (decide_eq_true hlim) (exec_stgfullTimeout ..)
  case room => exact endStaging_ends hin hst hroom (exec_stagingRoomFreed ..)
end

section
/-! SUPPORT. What the end of a launch keeps of the machine, step by step (R253, R339, R343, R352). -/

namespace Sys2Proof.Machine

open Sys2Proof

variable {s t u : State} {id : Nat}

/-! ### Lists by number -/

theorem Assoc.keys_mapVals {α : Type} (m : Assoc α) (f : Nat → α → α) : (Assoc.mapVals m f).map (·.1) = m.map (·.1) := by
  rw [Assoc.mapVals, List.map_map]; rfl

/-- A number that is listed keeps its place. -/
theorem Assoc.keys_set {α : Type} (x : α) (k : Nat) : ∀ m : Assoc α, (Assoc.get m k).isSome = true →
    (Assoc.set m k x).map (·.1) = m.map (·.1)
  | [], h => by cases h
  | (j, v) :: m, h => by
    rw [Assoc.get] at h
    rw [Assoc.set]
    by_cases hk : k = j
    · subst hk; simp
    · rw [if_neg hk] at h
      by_cases hlt : k < j
      · rw [if_pos hlt] at h; cases h
      · rw [if_neg hlt] at h
        rw [if_neg hlt, if_neg hk, List.map_cons, List.map_cons, Assoc.keys_set x k m h]

/-- What the values give one after another, where the new value gives what the old one gave. -/
theorem Assoc.flatMap_set {α β : Type} (g : α → List β) (d x : α) (k : Nat) (hd : g d = []) : ∀ m : Assoc α,
    g x = g (Assoc.getD m k d) → (Assoc.set m k x).flatMap (fun p => g p.2) = m.flatMap (fun p => g p.2)
  | [], h => by
    have hx : g x = [] := h.trans hd
    simp [Assoc.set, hx]
  | (j, v) :: m, h => by
    rw [Assoc.getD, Assoc.get] at h
    rw [Assoc.set]
    by_cases hk : k = j
    · subst hk
      rw [if_pos rfl] at h
      simpa using h
    · rw [if_neg hk] at h
      by_cases hlt : k < j
      · rw [if_pos hlt] at h
        have hx : g x = [] := h.trans hd
        rw [if_pos hlt, List.flatMap_cons, hx, List.nil_append]
      · rw [if_neg hlt] at h
        rw [if_neg hlt, if_neg hk, List.flatMap_cons, List.flatMap_cons, Assoc.flatMap_set g d x k hd m h]

/-! ### References of overlays -/

/-- Only residents of cores change: every log and every L1 is as before. -/
structure ResidentsOnly (s t : State) : Prop where
  rest : { t with cores := s.cores } = s
  logs : logRecs t = logRecs s
  l1 : ∀ k, (coreOf t k).l1 = (coreOf s k).l1

theorem ResidentsOnly.refl (s : State) : ResidentsOnly s s := ⟨rfl, rfl, fun _ => rfl⟩

theorem ResidentsOnly.trans (h1 : ResidentsOnly s t) (h2 : ResidentsOnly t u) : ResidentsOnly s u :=
  ⟨upToCores_trans h1.rest h2.rest, h2.logs.trans h1.logs, fun k => (h2.l1 k).trans (h1.l1 k)⟩

theorem logRecs_setCore (n : Nat) {c : Core} (hlog : c.log = (coreOf s n).log) : logRecs (setCore s n c) = logRecs s :=
  Assoc.flatMap_set (fun c : Core => c.log.flatMap recOfLog) Core.empty c n rfl s.cores (congrArg (·.flatMap recOfLog) hlog)

theorem residentsOnly_setCore (n : Nat) {c : Core} (hlog : c.log = (coreOf s n).log) (hl1 : c.l1 = (coreOf s n).l1) :
    ResidentsOnly s (setCore s n c) where
  rest := rfl
  logs := logRecs_setCore n hlog
  l1 k := by
    rw [coreOf_setCore]
    split_ifs with hk
    · rw [hl1, hk]
    · rfl

theorem Core.evict_l1 (c : Core) (k : RKey) : (c.evict k).l1 = c.l1 := by unfold Core.evict; split <;> rfl

theorem residentsOnly_dropRef (s : State) (n : Nat) (k : RKey) : ResidentsOnly s (dropRef s n k) := by
  unfold dropRef
  cases h : (coreOf s n).find k with
  | none => simp only [h]; exact ResidentsOnly.refl s
  | some r =>
    simp only [h]
    split_ifs
    · exact residentsOnly_setCore n (Core.evict_log ..) (Core.evict_l1 ..)
    · exact residentsOnly_setCore n rfl rfl
    · exact residentsOnly_setCore n rfl rfl

theorem residentsOnly_dropRefs (n ctx : Nat) : ∀ (ids : List (BitVec 8)) (s : State), ResidentsOnly s (dropRefs s n ctx ids)
  | [], s => ResidentsOnly.refl s
  | _ :: ids, _ => (residentsOnly_dropRef ..).trans (residentsOnly_dropRefs n ctx ids _)

theorem residentsOnly_releaseRefs (s : State) (slot : Nat) (b : Block) : ResidentsOnly s (releaseRefs s slot b) :=
  List.foldlRecOn (motive := ResidentsOnly s) _ _ (ResidentsOnly.refl s) fun _ ht i _ => by
    split
    · exact ht.trans (residentsOnly_dropRefs ..)
    · exact ht

theorem residentsOnly_releaseBlocks (bs : List (Nat × Block)) (s : State) :
    ResidentsOnly s (bs.foldl (fun s b => releaseRefs s b.1 b.2) s) :=
  List.foldlRecOn (motive := ResidentsOnly s) _ _ (ResidentsOnly.refl s) fun _ ht _ _ => ht.trans (residentsOnly_releaseRefs ..)

/-! ### What outlives a launch -/

theorem launchRecs_congr (id : Nat) (hstaging : t.staging = s.staging) (habroad : t.abroad = s.abroad) (hdrovers : t.drovers = s.drovers)
    (hdevice : t.device = s.device) (hlogs : logRecs t = logRecs s) : launchRecs t id = launchRecs s id := by
  simp only [launchRecs, stagedRecs, abroadRecs, hstaging, habroad, hdrovers, hdevice, hlogs]

theorem ResidentsOnly.launchRecs (h : ResidentsOnly s t) (id : Nat) : launchRecs t id = launchRecs s id :=
  launchRecs_congr id (congrArg State.staging h.rest :) (congrArg State.abroad h.rest :) (congrArg State.drovers h.rest :)
    (congrArg State.device h.rest :) h.logs

/-- Launches, queues and contexts stay listed; what is gone of a launch stays gone, and an empty L1 stays empty. -/
structure Outlives (id : Nat) (s t : State) : Prop where
  launches : t.launches = s.launches
  queues : t.launchQs = s.launchQs
  contexts : t.contexts.map (·.1) = s.contexts.map (·.1)
  recs : launchRecs s id = [] → launchRecs t id = []
  l1 : ∀ k, (coreOf s k).l1 = [] → (coreOf t k).l1 = []
  gone : (∀ p ∈ s.blocks, p.2.launch ≠ id) → ∀ p ∈ t.blocks, p.2.launch ≠ id

theorem Outlives.refl (id : Nat) (s : State) : Outlives id s s := ⟨rfl, rfl, rfl, fun h => h, fun _ h => h, fun h => h⟩

theorem Outlives.trans (h1 : Outlives id s t) (h2 : Outlives id t u) : Outlives id s u where
  launches := h2.launches.trans h1.launches
  queues := h2.queues.trans h1.queues
  contexts := h2.contexts.trans h1.contexts
  recs h := h2.recs (h1.recs h)
  l1 k h := h2.l1 k (h1.l1 k h)
  gone h := h2.gone (h1.gone h)

theorem Outlives.foldl {α : Type} {f : State → α → State} (hf : ∀ (s : State) (a : α), Outlives id s (f s a))
    (as : List α) (s : State) :
    Outlives id s (as.foldl f s) :=
  List.foldlRecOn (motive := Outlives id s) as f (Outlives.refl id s) fun t ht a _ => ht.trans (hf t a)

theorem ResidentsOnly.outlives (h : ResidentsOnly s t) : Outlives id s t where
  launches := (congrArg State.launches h.rest :)
  queues := (congrArg State.launchQs h.rest :)
  contexts := congrArg (List.map Prod.fst) (congrArg State.contexts h.rest :)
  recs hs := (h.launchRecs id).trans hs
  l1 k hk := (h.l1 k).trans hk
  gone hs := by
    have hblocks : t.blocks = s.blocks := (congrArg State.blocks h.rest :)
    rwa [hblocks]

/-- A change of memory, of firmware's account and of the fabric. -/
theorem outlives_of_memory
    (h : { t with dram := s.dram, tags := s.tags, poison := s.poison, service := s.service, fabric := s.fabric } = s) :
    Outlives id s t where
  launches := (congrArg State.launches h :)
  queues := (congrArg State.launchQs h :)
  contexts := congrArg (List.map Prod.fst) (congrArg State.contexts h :)
  recs hs := (launchRecs_congr id (congrArg State.staging h :) (congrArg State.abroad h :) (congrArg State.drovers h :)
    (congrArg State.device h :) (congrArg (fun s : State => s.cores.flatMap (fun c => c.2.log.flatMap recOfLog)) h :)).trans hs
  l1 k hk := (congrArg Core.l1 (coreOf_congr (congrArg State.cores h :) k)).trans hk
  gone hs := by
    have hblocks : t.blocks = s.blocks := (congrArg State.blocks h :)
    rwa [hblocks]

theorem outlives_writeDram (a : Nat) (bs : List Byte) : Outlives id s (writeDram s a bs) :=
  outlives_of_memory (by unfold writeDram; split_ifs <;> rfl)

/-- A change of every core that keeps logs, and keeps an L1 that is empty. -/
theorem outlives_mapCores {f : Core → Core} (hf : f Core.empty = Core.empty) (hlog : ∀ c, (f c).log = c.log)
    (hl1 : ∀ c, c.l1 = [] → (f c).l1 = []) : Outlives id s { s with cores := Assoc.mapVals s.cores (fun _ c => f c) } where
  launches := rfl
  queues := rfl
  contexts := rfl
  recs hs := by
    refine Eq.trans (launchRecs_congr (s := s) id rfl rfl rfl rfl ?_) hs
    simp only [logRecs, Assoc.mapVals, List.flatMap_map, hlog]
  l1 k hk := by rw [coreOf_mapVals s hf]; exact hl1 _ hk
  gone hs := hs

theorem outlives_dropExclusives : Outlives id s (dropExclusives s) :=
  outlives_mapCores (f := fun c => { c with l1 := c.l1.filter (fun l => !l.excl) }) rfl (fun _ => rfl)
    fun c hc => by rw [hc]; rfl

theorem outlives_modCtx (ctx : Nat) (f : Context → Context) : Outlives id s (modCtx s ctx f) := by
  unfold modCtx
  split
  case h_1 => exact Outlives.refl id s
  case h_2 c hc =>
    exact ⟨rfl, rfl, Assoc.keys_set _ ctx s.contexts (Option.isSome_iff_exists.mpr ⟨c, hc⟩), fun h => h, fun _ h => h, fun h => h⟩

theorem outlives_logEvent (cls code : BitVec 8) (ctx : Option Nat) (src : BitVec 16) (a b : Word) :
    Outlives id s (logEvent s cls code ctx src a b) := outlives_of_memory rfl

theorem outlives_writeDev (a : Nat) (bs : List Byte) : Outlives id s (writeDev s a bs) :=
  outlives_dropExclusives.trans (outlives_writeDram ..)

/-! ### Records applied and discarded (R281, R291, R343) -/

theorem outlives_applyRec (s : State) (r : Rec) : Outlives id s (applyRec s r) := by
  unfold applyRec
  split_ifs
  · exact (outlives_of_memory (t := foldRec s r) rfl).trans (outlives_of_memory rfl)
  · exact Outlives.refl id s

theorem outlives_applyRecs (s : State) (rs : List Rec) : Outlives id s (applyRecs s rs) :=
  Outlives.foldl (fun s _ => Outlives.foldl outlives_applyRec _ s) _ s

theorem outlives_expandFor (s : State) (r : Rec) : Outlives id s (expandFor s r) := by
  unfold expandFor
  split
  case h_1 => exact Outlives.refl id s
  case h_2 ctx obj page pa _ =>
    unfold expandPage
    dsimp only
    split_ifs
    · exact outlives_of_memory rfl
    · exact Outlives.refl id s

theorem outlives_uncharge (s : State) (rs : List Rec) : Outlives id s (uncharge s rs) where
  launches := rfl
  queues := rfl
  contexts := by
    unfold uncharge
    dsimp only
    exact Assoc.keys_mapVals ..
  recs hs := hs
  l1 _ hk := hk
  gone hs := by
    simp only [uncharge, Assoc.mapVals, List.mem_map]
    rintro _ ⟨p, hp, rfl⟩
    exact hs p hp

theorem outlives_applyAll (s : State) (rs : List Rec) : Outlives id s (applyAll s rs) :=
  ((outlives_applyRecs s rs).trans (Outlives.foldl outlives_expandFor rs _)).trans (outlives_uncharge ..)

theorem recOfEntry_dropped {e : Entry} {r : Rec} (he : (!entryOfLaunch s id e) = true) (hr : r ∈ recOfEntry e) :
    ¬(r.srcDev == s.device && r.launch == id) = true := by
  cases e with
  | record x =>
    rw [List.mem_singleton.mp hr]
    exact Bool.eq_false_iff.mp ((Bool.not_eq_true' _).mp he)
  | marker => cases hr
  | notice => cases hr
  | foreign => cases hr

theorem recOfLog_dropped {e : LogEntry} {r : Rec} (he : (!logOfLaunch s id e) = true) (hr : r ∈ recOfLog e) :
    ¬(r.srcDev == s.device && r.launch == id) = true := by
  cases e with
  | record x isOpen =>
    rw [List.mem_singleton.mp hr]
    exact Bool.eq_false_iff.mp ((Bool.not_eq_true' _).mp he)
  | marker => cases hr

/-- No record of a launch is left where its records are discarded. -/
theorem launchRecs_dropRecords (s : State) : launchRecs (dropRecords s id) id = [] := by
  rw [launchRecs, List.filter_eq_nil_iff]
  intro r hr
  change ¬(r.srcDev == s.device && r.launch == id) = true
  simp only [dropRecords, uncharge, stagedRecs, abroadRecs, logRecs, Assoc.mapVals, List.mem_append, List.mem_flatMap, List.mem_map,
    List.mem_filter] at hr
  obtain ((((⟨c, ⟨_, _, rfl⟩, e, he, hr⟩ | ⟨e, ⟨_, he⟩, hr⟩) | ⟨d, ⟨_, _, rfl⟩, b, hb, e, he, hr⟩) |
    ⟨d, ⟨_, _, rfl⟩, p, hp, e, he, hr⟩) | ⟨c, ⟨_, _, rfl⟩, e, he, hr⟩) := hr
  · exact recOfEntry_dropped (List.mem_filter.mp he).2 hr
  · exact recOfEntry_dropped he hr
  · obtain ⟨_, _, rfl⟩ := List.mem_map.mp hb
    exact recOfEntry_dropped (List.mem_filter.mp he).2 hr
  · obtain ⟨_, _, rfl⟩ := List.mem_map.mp hp
    exact recOfEntry_dropped (List.mem_filter.mp he).2 hr
  · exact recOfLog_dropped (List.mem_filter.mp he).2 hr

theorem outlives_dropRecords (s : State) : Outlives id s (dropRecords s id) := by
  have hrecs := launchRecs_dropRecords (id := id) s
  have hl1 (k : Nat) (hk : (coreOf s k).l1 = []) : (coreOf (dropRecords s id) k).l1 = [] :=
    (congrArg Core.l1 (coreOf_mapVals s (f := fun c => { c with log := c.log.filter (fun e => !logOfLaunch s id e) }) rfl k)).trans hk
  unfold dropRecords at hrecs hl1 ⊢
  exact ⟨rfl, rfl, (outlives_uncharge (id := id) ..).contexts, fun _ => hrecs, hl1, (outlives_uncharge (id := id) ..).gone⟩

theorem outlives_gridCommit (s : State) : Outlives id s (gridCommit s id) :=
  (outlives_dropRecords s).trans (outlives_applyAll ..)

/-! ### The L1s of a launch (R253) -/

theorem outlives_clearL1At (s : State) (k : Nat) : Outlives id s (setCore s k { coreOf s k with l1 := [] }) where
  launches := rfl
  queues := rfl
  contexts := rfl
  recs hs := Eq.trans (launchRecs_congr (s := s) id rfl rfl rfl rfl (logRecs_setCore k rfl)) hs
  l1 n hn := by
    rw [coreOf_setCore]
    split_ifs
    · rfl
    · exact hn
  gone hs := hs

theorem outlives_clearL1 (s : State) (l : Launch) : Outlives id s (clearL1 s l) := Outlives.foldl outlives_clearL1At _ s

theorem clearL1_l1 (s : State) {l : Launch} {k : Nat} (hk : k ∈ l.cores) : (coreOf (clearL1 s l) k).l1 = [] := by
  obtain ⟨before, after, hcores⟩ := List.append_of_mem hk
  rw [clearL1, hcores, List.foldl_append, List.foldl_cons]
  refine (Outlives.foldl (id := 0) outlives_clearL1At after _).l1 k ?_
  rw [coreOf_setCore, if_pos rfl]

/-! ### Sweeps, pins and snapshots (R334, R417, R435) -/

theorem outlives_sweepRun (step : BitVec 16) (L : Nat) : ∀ (n addr : Nat) (a : State × Nat), Outlives id a.1 (sweepRun step L n addr a).1
  | 0, _, a => Outlives.refl id a.1
  | n + 1, addr, (s, k) => by
    rw [sweepRun]
    cases sweepWord step L (s.dram.read64 addr) with
    | none => exact outlives_sweepRun step L n (addr + 8) (s, k)
    | some x =>
      obtain ⟨y, late⟩ := x
      exact (outlives_writeDram addr (leBytes 8 y.toNat)).trans (outlives_sweepRun step L n (addr + 8) (_, if late then k + 1 else k))

theorem outlives_sweepObject (s : State) (ctx obj : Nat) (oe : BitVec 512) (step : Word) :
    Outlives id s (sweepObject s ctx obj oe step) := by
  have hpages := List.foldlRecOn (motive := fun a : State × Nat => Outlives id s a.1)
    ((pagesOf s oe).filter (fun p => pagePresent (pageAt s p.2) && !pageConst (pageAt s p.2))) (fun a p =>
      sweepRun (step.extractLsb' 0 16) (objL oe).toNat (objPage oe / 8) (dramAt (objHome oe) (pagePfn (pageAt a.1 p.2))) a)
    (b := (dropExclusives s, 0)) outlives_dropExclusives fun a ha p _ => ha.trans (outlives_sweepRun ..)
  have hstep := hpages.trans (outlives_modCtx ctx (fun c => { c with swsteps := Assoc.set c.swsteps obj step }))
  unfold sweepObject
  dsimp only
  split_ifs
  · exact hstep
  · exact hstep.trans (outlives_logEvent ..)

theorem outlives_sweeps (s : State) (ctx launch : Nat) : Outlives id s (sweeps s ctx launch) := by
  unfold sweeps
  split
  · exact Outlives.refl id s
  · refine Outlives.foldl (fun t o => ?_) _ s
    dsimp only
    split_ifs
    · exact Outlives.refl id t
    · exact outlives_sweepObject ..

theorem eraseBlocks_gone (s : State) : ∀ p ∈ (eraseBlocks s id).blocks, p.2.launch ≠ id := by
  intro p hp
  simpa using (List.mem_filter.mp hp).2

theorem outlives_eraseBlocks (s : State) : Outlives id s (eraseBlocks s id) := by
  have hfreed := (residentsOnly_releaseBlocks (blocksOf s id) s).outlives (id := id)
  have hbegun := hfreed.trans (outlives_mapCores (f := fun c => { c with begun := c.begun.filter (· != id) })
    rfl (fun _ => rfl) (fun _ h => h))
  exact ⟨hbegun.launches, hbegun.queues, hbegun.contexts, hbegun.recs, hbegun.l1, fun _ => eraseBlocks_gone s⟩

theorem outlives_releasePins (s : State) (l : Launch) : Outlives id s (releasePins s l) := by
  refine Outlives.foldl (fun t p => ?_) _ s
  split
  · exact Outlives.refl id t
  · unfold freeVersion
    dsimp only
    split_ifs <;> exact outlives_of_memory rfl

theorem outlives_releaseSnapshots (s : State) (l : Launch) : Outlives id s (releaseSnapshots s l) := by
  refine Outlives.foldl (fun t p => ?_) _ s
  split
  · exact Outlives.refl id t
  · split_ifs
    · exact outlives_of_memory rfl
    · exact Outlives.refl id t

/-! ### The end of a packet (R344) -/

theorem writeRecord_none {p : List Word} (h : pObj p 12 = 0) (s : State) (ctx : Nat) (ws : List Word) :
    writeRecord s ctx p ws = (s, none) :=
  if_pos (Or.inl h)

theorem outlives_raiseCpl (s : State) (queue : Nat) :
    Outlives id { s with launchQs := (raiseCpl s queue).launchQs } (raiseCpl s queue) := by
  unfold raiseCpl
  split
  · exact Outlives.refl id s
  case h_2 q _ =>
    have hwrite := outlives_writeDev (id := id)
      (s := { s with launchQs := Assoc.set s.launchQs queue { q with completed := q.completed + 1 } })
      (q.addr + 16) (leBytes 8 ((readDevNat s (q.addr + 16) 8 + 1) % 2 ^ 64))
    unfold writeDevNat
    rw [hwrite.queues]
    exact hwrite

theorem raiseCpl_queues {queue : Nat} {q : LaunchQueue} (hq : Assoc.get s.launchQs queue = some q) :
    Assoc.get (raiseCpl s queue).launchQs queue = some { q with completed := q.completed + 1 } := by
  have hwrite := outlives_writeDev (id := 0)
    (s := { s with launchQs := Assoc.set s.launchQs queue { q with completed := q.completed + 1 } })
    (q.addr + 16) (leBytes 8 ((readDevNat s (q.addr + 16) 8 + 1) % 2 ^ 64))
  unfold raiseCpl
  rw [hq]
  dsimp only [writeDevNat]
  rw [hwrite.queues, Assoc.get_set_self]

theorem outlives_signalOf (s : State) (ctx : Nat) (p : List Word) : Outlives id s (signalOf s ctx p) := by
  unfold signalOf
  split_ifs
  · unfold signalCounter writeDevNat
    exact outlives_writeDev ..
  · exact Outlives.refl id s

/-- What is left of a launch that has ended: its number is free, and its queue counts one packet more. -/
structure Ended (id : Nat) (l : Launch) (s t : State) : Prop where
  launches : t.launches = Assoc.erase s.launches id
  contexts : t.contexts.map (·.1) = s.contexts.map (·.1)
  recs : launchRecs s id = [] → launchRecs t id = []
  l1 : ∀ k, (coreOf s k).l1 = [] → (coreOf t k).l1 = []
  gone : (∀ p ∈ s.blocks, p.2.launch ≠ id) → ∀ p ∈ t.blocks, p.2.launch ≠ id
  queue : ∀ q, Assoc.get s.launchQs l.queue = some q → Assoc.get t.launchQs l.queue = some { q with completed := q.completed + 1 }

theorem Outlives.ended {l : Launch} (h1 : Outlives id s t) (h2 : Ended id l t u) : Ended id l s u where
  launches := h2.launches.trans (congrArg (Assoc.erase · id) h1.launches)
  contexts := h2.contexts.trans h1.contexts
  recs h := h2.recs (h1.recs h)
  l1 k h := h2.l1 k (h1.l1 k h)
  gone h := h2.gone (h1.gone h)
  queue q hq := h2.queue q (by rwa [h1.queues])

theorem endPacket_ends {l : Launch} (hpacket : pObj l.packet 12 = 0) (s : State) (status : BitVec 8) (block : Nat) (tinfo : List Word) :
    ∃ t, endPacket s id l status block tinfo = (t, none) ∧ Ended id l s t := by
  have hend := (outlives_raiseCpl (id := id) s l.queue).trans (outlives_signalOf _ l.ctx l.packet)
  refine ⟨_, by rw [endPacket, writeRecord_none hpacket], ?_⟩
  exact {
    launches := congrArg (Assoc.erase · id) hend.launches
    contexts := hend.contexts
    recs := hend.recs
    l1 := hend.l1
    gone := hend.gone
    queue := fun q hq => by
      refine Eq.trans ?_ (raiseCpl_queues hq)
      exact congrArg (Assoc.get · l.queue) hend.queues }

/-- The state in which the packet of a launch ends: its records applied or discarded, its L1s clear, its blocks, pins and snapshots
gone. -/
def cleaned (s : State) (id : Nat) (l : Launch) : State :=
  let s := if l.fatal.isSome then dropRecords s id else gridCommit s id
  releaseSnapshots (releasePins (eraseBlocks (sweeps (clearL1 s l) l.ctx id) id) l) l

theorem complete_eq (s : State) (id : Nat) (l : Launch) : complete s id l = endPacket (cleaned s id l) id l
    ((l.fatal.map Fatal.status).getD 0) ((l.fatal.map Fatal.block).getD 0) ((l.fatal.map Fatal.words).getD []) := by
  unfold complete cleaned
  cases l.fatal <;> rfl

theorem outlives_released (s : State) (l : Launch) : Outlives id s (releaseSnapshots (releasePins s l) l) :=
  (outlives_releasePins s l).trans (outlives_releaseSnapshots ..)

theorem outlives_sweptAndErased (s : State) (l : Launch) :
    Outlives id s (releaseSnapshots (releasePins (eraseBlocks (sweeps s l.ctx id) id) l) l) :=
  ((outlives_sweeps s l.ctx id).trans (outlives_eraseBlocks _)).trans (outlives_released _ l)

/-- The records of a launch are applied or discarded. -/
theorem recs_cleaned (s : State) (l : Launch) : Outlives id s (if l.fatal.isSome then dropRecords s id else gridCommit s id)
    ∧ launchRecs (if l.fatal.isSome then dropRecords s id else gridCommit s id) id = [] := by
  split_ifs
  · exact ⟨outlives_dropRecords s, launchRecs_dropRecords s⟩
  · exact ⟨outlives_gridCommit s, (outlives_applyAll ..).recs (launchRecs_dropRecords s)⟩

theorem outlives_cleaned (s : State) (l : Launch) : Outlives id s (cleaned s id l) :=
  ((recs_cleaned s l).1.trans (outlives_clearL1 _ l)).trans (outlives_sweptAndErased _ l)

theorem launchRecs_cleaned (s : State) (l : Launch) : launchRecs (cleaned s id l) id = [] :=
  ((outlives_clearL1 _ l).trans (outlives_sweptAndErased _ l)).recs (recs_cleaned s l).2

theorem cleaned_gone (s : State) (l : Launch) : ∀ p ∈ (cleaned s id l).blocks, p.2.launch ≠ id :=
  (outlives_released _ l).gone (eraseBlocks_gone _)

theorem cleaned_l1 (s : State) {l : Launch} {k : Nat} (hk : k ∈ l.cores) : (coreOf (cleaned s id l) k).l1 = [] :=
  (outlives_sweptAndErased (id := id) _ l).l1 k (clearL1_l1 _ hk)

theorem complete_ends {l : Launch} (hpacket : pObj l.packet 12 = 0) (s : State) : ∃ t, complete s id l = (t, none) ∧ Ended id l s t
    ∧ launchRecs t id = [] ∧ (∀ p ∈ t.blocks, p.2.launch ≠ id) ∧ ∀ k ∈ l.cores, (coreOf t k).l1 = [] := by
  obtain ⟨t, ht, hend⟩ := endPacket_ends (id := id) hpacket (cleaned s id l)
    ((l.fatal.map Fatal.status).getD 0) ((l.fatal.map Fatal.block).getD 0) ((l.fatal.map Fatal.words).getD [])
  exact ⟨t, (complete_eq s id l).trans ht, (outlives_cleaned s l).ended hend, hend.recs (launchRecs_cleaned s l),
    hend.gone (cleaned_gone s l), fun k hk => hend.l1 k (cleaned_l1 s hk)⟩

end Sys2Proof.Machine
end

section
/-! PROOF. Launches that end (O42). -/

namespace Sys2Proof.Machine

open Sys2Proof

variable {id : Nat}

/-! ### The end of a grid (R253, R343) -/

theorem endGrid_rest (s : State) : { endGrid s id with
    blocks := s.blocks, contexts := s.contexts, unbinding := s.unbinding, cores := s.cores } = s :=
  have hrest := (residentsOnly_releaseBlocks (blocksOf s id) s).rest
  congrArg (fun z : State => { z with blocks := s.blocks, contexts := s.contexts, unbinding := s.unbinding, cores := s.cores }) hrest

theorem launchRecs_endGrid (s : State) : launchRecs (endGrid s id) id = launchRecs s id :=
  (residentsOnly_releaseBlocks (blocksOf s id) s).launchRecs id

theorem endGrid_saved (s : State) : ∀ c ∈ (endGrid s id).contexts, ∀ b ∈ c.2.saved, b.launch ≠ id := by
  intro c hc b hb
  obtain ⟨_, _, rfl⟩ := List.mem_map.mp hc
  simpa using (List.mem_filter.mp hb).2

theorem endGrid_cut (s : State) :
    ∀ p ∈ (endGrid s id).blocks, p.2.launch = id → ∀ u ∈ p.2.threads, u.stack = [] ∧ u.rpStack = [] := by
  intro p hp hlaunch u hu
  obtain ⟨x, _, rfl⟩ := List.mem_map.mp hp
  dsimp only at hlaunch hu
  split_ifs at hlaunch hu with hx
  · obtain ⟨v, _, rfl⟩ := List.mem_map.mp hu
    exact ⟨rfl, rfl⟩
  · exact absurd hlaunch hx

end Sys2Proof.Machine

open Sys2Proof Sys2Proof.Machine in
/-- Settles O42: the end of a grid keeps records and commits and cuts threads and saved blocks off; the end of a launch discards or
applies its records, clears its L1s and erases its blocks, and its packet ends. -/
theorem launchesEnd : Obligations.LaunchesEnd := by
  intro s id l hl
  refine ⟨fun hfatal hphase hreplay => ?fatal, fun q hended hbusy hpacket hq hturn => ?ends⟩
  case fatal =>
    have hgo : ¬(l.fatal.isNone = true ∨ l.phase ≠ .started ∨ willReplay s l = true) := by
      rw [hphase, hreplay, Option.isNone_eq_false_iff.mpr hfatal]; decide
    refine ⟨setLaunch (endGrid s id) id { l with phase := .ending }, ?_, (congrArg State.dram (endGrid_rest s) :), launchRecs_endGrid s,
      (congrArg State.commits (endGrid_rest s) :), ?_, endGrid_saved s, endGrid_cut s⟩
    · rw [exec_fatalTrapEnd, execFatalTrapEnd]
      simp only [hl, if_neg hgo]
    · rw [launchOf_setLaunch, if_pos rfl]
  case ends =>
    have hgo : ¬((!decide (l.phase = .ending ∨ (l.phase = .started ∧ l.fatal.isNone = true ∧ allRetired s id l = true))) = true
        ∨ launchBusy s id = true ∨ (!inTurn s l) = true) := by
      simp only [hbusy, inTurn, hq, hturn]
      simpa [or_iff_not_imp_left] using hended
    obtain ⟨t, ht, hend, hrecs, hgone, hl1⟩ := complete_ends (id := id) hpacket s
    refine ⟨t, ?_, hend.launches, hgone, hrecs, hend.queue q hq, hl1⟩
    rw [exec_launchComplete, execLaunchComplete]
    simp only [hl, if_neg hgo, ht]
    rfl
end

section
/-! SUPPORT. References added to the overlays of cores (R264), and threads of a block that come in and start together (R440). -/

namespace Sys2Proof.Machine

open Sys2Proof

variable {s t u : State} {ctx slot i n : Nat} {ov : BitVec 8}

/-! ### References -/

/-- An overlay has c more references on each core; its keys are as before, and an empty L1 stays empty. -/
structure Referred (ctx : Nat) (ov : BitVec 8) (c : Nat → Nat) (s t : State) : Prop where
  key : ∀ k, ovKey t k ctx ov = ovKey s k ctx ov
  find : ∀ k, (coreOf t k).find (ovKey s k ctx ov) =
    ((coreOf s k).find (ovKey s k ctx ov)).map (fun r => { r with refs := r.refs + c k })
  l1 : ∀ k, (coreOf s k).l1 = [] → (coreOf t k).l1 = []

theorem referred_of_cores (h : t.cores = s.cores) : Referred ctx ov (fun _ => 0) s t where
  key k := by rw [ovKey, coreOf_congr h, ovKey]
  find k := by rw [coreOf_congr h]; exact Option.map_id'.symm
  l1 k hk := by rwa [coreOf_congr h]

theorem Referred.trans {c d : Nat → Nat} (h1 : Referred ctx ov c s t) (h2 : Referred ctx ov d t u) :
    Referred ctx ov (fun k => c k + d k) s u where
  key k := (h2.key k).trans (h1.key k)
  find k := by
    rw [← h1.key k, h2.find k, h1.key k, h1.find k, Option.map_map]
    simp only [Function.comp_def, Nat.add_assoc]
  l1 k hk := h2.l1 k (h1.l1 k hk)

theorem Referred.congr {c d : Nat → Nat} (h : Referred ctx ov c s t) (hcd : ∀ k, d k = c k) : Referred ctx ov d s t := by
  rwa [funext hcd]

/-- What an added reference leaves usable, and what it does not make so. -/
theorem Referred.usable {c : Nat → Nat} (h : Referred ctx ov c s t) (k : Nat) :
    (coreOf t k).usable (ovKey t k ctx ov) = (coreOf s k).usable (ovKey s k ctx ov) := by
  rw [Core.usable, h.key, h.find, Core.usable]
  cases (coreOf s k).find (ovKey s k ctx ov) <;> rfl

theorem referred_addRef (s : State) (core : Nat) :
    Referred ctx ov (fun k => if core = k then 1 else 0) s (addRef s core (ovKey s core ctx ov)) where
  key k := by
    by_cases hk : core = k
    · rw [← hk, ovKey_addRef]
    · rw [ovKey, (atCore_addRef s core _).2 k (Ne.symm hk), ovKey]
  find k := by
    by_cases hk : core = k
    · subst hk
      rw [(onlyCore_addRef core _).1, if_pos rfl]
      cases hr : (coreOf s core).find (ovKey s core ctx ov) with
      | none =>
        rw [Core.find, List.find?_eq_none] at hr
        rw [Option.map_none, Core.find, List.find?_eq_none]
        intro q hq
        obtain ⟨r, hmem, rfl⟩ := List.mem_map.mp hq
        rw [if_neg (hr r hmem)]
        exact hr r hmem
      | some r => exact Core.find_modResid (fun _ => rfl) hr
    · rw [(atCore_addRef s core _).2 k (Ne.symm hk), if_neg hk]
      exact Option.map_id'.symm
  l1 k h1 := by
    by_cases hk : core = k
    · subst hk
      rw [(onlyCore_addRef core _).1]
      exact h1
    · rw [(atCore_addRef s core _).2 k (Ne.symm hk), h1]

theorem referred_addRefs_twice (s : State) (core : Nat) :
    Referred ctx ov (fun k => if core = k then 2 else 0) s (addRefs s core ctx [ov, ov]) :=
  ((referred_addRef s core).trans (referred_addRef _ core)).congr fun k => by split_ifs <;> rfl

/-! ### Threads that come in -/

/-- What becomes of a block when its threads may start together (R440). -/
def Block.together (cycle : Nat) (b : Block) : Block :=
  if b.threads.any (fun t => t.status.starting) then b
  else { b with threads := b.threads.map (fun t =>
    if t.status = .parkedLoad [] .start then
      { t with status := if t.runFrom.isSome then .drained else .ready, nextIssue := cycle + 1 }
    else t) }

theorem startTogether_eq (s : State) (slot : Nat) : startTogether s slot = modBlock s slot (Block.together s.cycle) := rfl

/-- A thread that waits for the overlays given, to start with its block. -/
def Thread.awaiting (u : Thread) (ids : List (BitVec 8)) : Thread := { u with status := .parkedLoad ids .start }

/-- A thread whose overlay is in the store comes in with two references of it, and its block starts if it was the last. -/
theorem comeIn_start {b : Block} {v : Thread} (hb : blockOf s slot = some b) (hv : b.threads[i]? = some v) (hstack : v.stack = [ov])
    (hrp : v.rpStack = [ov]) (hus : (coreOf s (coreIdOf b ⟨slot, i⟩)).usable (ovKey s (coreIdOf b ⟨slot, i⟩) b.ctx ov) = true) :
    comeIn s ⟨slot, i⟩ .start = startTogether (modThread
      (addRefs (setThread s ⟨slot, i⟩ (v.awaiting [])) (coreIdOf b ⟨slot, i⟩) b.ctx [ov, ov])
      ⟨slot, i⟩ (·.awaiting [])) slot := by
  have hids : stackIds v = [ov] := by simp [stackIds, hstack, hrp]
  have hload : ∀ launch, startLoads (coreIdOf b ⟨slot, i⟩) b.ctx launch [ov] (setThread s ⟨slot, i⟩ (v.awaiting []))
      = (setThread s ⟨slot, i⟩ (v.awaiting []), [], none) := fun launch => startLoads_usable fun id hid => by
    rw [List.mem_singleton.mp hid, ovKey_setThread, coreOf_setThread, hus]
  unfold comeIn
  simp only [hb, hv, hids]
  unfold Thread.awaiting at hload ⊢
  rw [hload b.launch, hstack, hrp]
  rfl

theorem listModify_const {α : Type} (f : α → α) (a : α) : ∀ (l : List α) (n : Nat),
    listModify (listModify l n (fun _ => a)) n f = listModify l n (fun _ => f a)
  | [], _ => rfl
  | _ :: _, 0 => rfl
  | x :: xs, n + 1 => congrArg (x :: ·) (listModify_const f a xs n)

/-- What a thread that comes in changes before its block is looked at: its own wait, and two references on its core. -/
theorem cameIn_changes (s : State) (slot i core ctx : Nat) (ov : BitVec 8) (w : Thread) (hw : w.awaiting [] = w) :
    ∃ t, t = modThread (addRefs (setThread s ⟨slot, i⟩ w) core ctx [ov, ov]) ⟨slot, i⟩ (·.awaiting [])
      ∧ { t with blocks := s.blocks, cores := s.cores } = s
      ∧ (∀ k, blockOf t k = if k = slot then (blockOf s k).map (·.setThread i w) else blockOf s k)
      ∧ Referred ctx ov (fun k => if core = k then 2 else 0) s t := by
  obtain ⟨t1, ht1⟩ : ∃ t1, t1 = setThread s ⟨slot, i⟩ w := ⟨_, rfl⟩
  obtain ⟨t2, ht2⟩ : ∃ t2, t2 = addRefs t1 core ctx [ov, ov] := ⟨_, rfl⟩
  have hadded : AtCore core t1 t2 := ht2 ▸ atCore_addRefs ..
  refine ⟨_, rfl, ?_, fun k => ?_, ?_⟩ <;> rw [← ht1, ← ht2]
  · have h1 : { t1 with blocks := s.blocks } = s := by rw [ht1]; exact modBlock_rest ..
    have h2 : ({ t2 with blocks := s.blocks, cores := s.cores } : State) = { t1 with blocks := s.blocks, cores := s.cores } :=
      congrArg (fun z : State => { z with blocks := s.blocks, cores := s.cores }) hadded.1
    have h3 : ({ modThread t2 ⟨slot, i⟩ (·.awaiting []) with blocks := s.blocks, cores := s.cores } : State) =
        { t2 with blocks := s.blocks, cores := s.cores } :=
      congrArg (fun z : State => { z with blocks := s.blocks, cores := s.cores }) (modBlock_rest ..)
    exact h3.trans (h2.trans (congrArg (fun z : State => { z with blocks := s.blocks, cores := s.cores }) h1))
  · rw [modThread, blockOf_modBlock, blockOf_congr hadded.blocks, ht1, blockOf_setThread]
    by_cases hk : k = slot
    · simp only [if_pos hk, Option.map_map]
      refine congrArg (Option.map · (blockOf s k)) (funext fun b => ?_)
      simp only [Function.comp_apply, Block.setThread, listModify_const, hw]
    · simp only [if_neg hk]
  · have h1 : t1.cores = s.cores := by rw [ht1, setThread_cores]
    have h2 : Referred ctx ov (fun k => if core = k then 2 else 0) t1 t2 := ht2 ▸ referred_addRefs_twice ..
    exact (((referred_of_cores h1).trans h2).trans (referred_of_cores (modThread_cores ..))).congr fun k => by simp

theorem listModify_replicate_append {α : Type} (f : α → α) (a x : α) (l : List α) :
    ∀ n, listModify (List.replicate n a ++ x :: l) n f = List.replicate n a ++ f x :: l
  | 0 => rfl
  | n + 1 => congrArg (a :: ·) (listModify_replicate_append f a x l n)

/-- The threads of a block after the first i of n have come in; with the last, all start. -/
def comingIn (u : Thread) (ov : BitVec 8) (cycle n i : Nat) : List Thread :=
  if i = n then List.replicate n { u with nextIssue := cycle + 1 }
  else List.replicate i (u.awaiting []) ++ List.replicate (n - i) (u.awaiting [ov])

theorem comingIn_get {v : Thread} {cycle : Nat} (h : i < n) : (comingIn v ov cycle n i)[i]? = some (v.awaiting [ov]) := by
  have hlen : (List.replicate i (v.awaiting [])).length = i := List.length_replicate
  rw [comingIn, if_neg (by omega), List.getElem?_append_right (by omega), hlen, List.getElem?_replicate, if_pos (by omega)]

theorem starting_awaiting (v : Thread) (ids : List (BitVec 8)) : (v.awaiting ids).status.starting = !ids.isEmpty := by
  cases ids <;> rfl

/-- The next thread comes in. -/
theorem comingIn_succ {v : Thread} {cycle : Nat} (b : Block) (hready : v.status = .ready) (hrun : v.runFrom = none) (h : i < n) :
    Block.together cycle { b with threads := listModify (comingIn v ov cycle n i) i (fun _ => v.awaiting []) } =
      { b with threads := comingIn v ov cycle n (i + 1) } := by
  have hrest : List.replicate (n - i) (v.awaiting [ov]) = v.awaiting [ov] :: List.replicate (n - (i + 1)) (v.awaiting [ov]) := by
    rw [← List.replicate_succ]; congr 1; omega
  have hset : listModify (comingIn v ov cycle n i) i (fun _ => v.awaiting []) =
      List.replicate (i + 1) (v.awaiting []) ++ List.replicate (n - (i + 1)) (v.awaiting [ov]) := by
    rw [comingIn, if_neg (by omega), hrest, listModify_replicate_append, List.replicate_succ', List.append_assoc]; rfl
  rw [hset, Block.together]
  by_cases hlast : i + 1 = n
  · subst hlast
    have hnone : ((List.replicate (i + 1) (v.awaiting [])).any fun t => t.status.starting) = false := by
      simp [starting_awaiting]
    rw [Nat.sub_self, List.replicate_zero, List.append_nil, if_neg (by rw [hnone]; decide), List.map_replicate, comingIn, if_pos rfl]
    have hstarts : (v.awaiting []).status = .parkedLoad [] .start := rfl
    have hnotrun : (v.awaiting []).runFrom.isSome = false := by rw [Thread.awaiting, hrun]; rfl
    rw [if_pos hstarts, hnotrun, ← hready]
    rfl
  · have hany : ((List.replicate (i + 1) (v.awaiting []) ++ List.replicate (n - (i + 1)) (v.awaiting [ov])).any
        fun t => t.status.starting) = true :=
      List.any_eq_true.mpr ⟨v.awaiting [ov], by simp; omega, starting_awaiting v [ov]⟩
    rw [if_pos hany, comingIn, if_neg hlast]

/-- The first i of n threads of a block have come in. -/
structure ComesIn (s : State) (slot : Nat) (b : Block) (v : Thread) (ov : BitVec 8) (n i : Nat) (t : State) : Prop where
  rest : { t with blocks := s.blocks, cores := s.cores } = s
  others : ∀ k, k ≠ slot → blockOf t k = blockOf s k
  block : blockOf t slot = some { b with threads := comingIn v ov s.cycle n i }
  cores : Referred b.ctx ov (fun k => 2 * (List.range i).countP (fun j => coreIdOf b ⟨slot, j⟩ == k)) s t

theorem ComesIn.succ {b : Block} {v : Thread} (h : ComesIn s slot b v ov n i t) (hi : i < n) (hready : v.status = .ready)
    (hrun : v.runFrom = none) (hstack : v.stack = [ov]) (hrp : v.rpStack = [ov])
    (hus : (coreOf s (coreIdOf b ⟨slot, i⟩)).usable (ovKey s (coreIdOf b ⟨slot, i⟩) b.ctx ov) = true) :
    ComesIn s slot b v ov n (i + 1) (comeIn t ⟨slot, i⟩ .start) := by
  obtain ⟨t', ht', hrest, hblocks, hrefs⟩ := cameIn_changes t slot i (coreIdOf b ⟨slot, i⟩) b.ctx ov (v.awaiting []) rfl
  have hcycle : t'.cycle = s.cycle := (congrArg State.cycle hrest :).trans (congrArg State.cycle h.rest :)
  have hcome : comeIn t ⟨slot, i⟩ .start = modBlock t' slot (Block.together t'.cycle) := by
    rw [comeIn_start h.block (comingIn_get hi) hstack hrp ((h.cores.usable _).trans hus), startTogether_eq, ht']; rfl
  rw [hcome, hcycle]
  refine ⟨?rest, fun k hk => ?others, ?block, ?cores⟩
  case rest =>
    have h1 : ({ modBlock t' slot (Block.together s.cycle) with blocks := s.blocks, cores := s.cores } : State) =
        { t' with blocks := s.blocks, cores := s.cores } :=
      congrArg (fun z : State => { z with blocks := s.blocks, cores := s.cores }) (modBlock_rest ..)
    exact h1.trans ((congrArg (fun z : State => { z with blocks := s.blocks, cores := s.cores }) hrest :).trans h.rest)
  case others => rw [blockOf_modBlock, if_neg hk, hblocks, if_neg hk, h.others k hk]
  case block =>
    rw [blockOf_modBlock, if_pos rfl, hblocks, if_pos rfl, h.block]
    exact congrArg some (comingIn_succ b hready hrun hi)
  case cores =>
    refine ((h.cores.trans hrefs).trans (referred_of_cores (modBlock_cores ..))).congr fun k => ?_
    rw [List.range_succ, List.countP_append, List.countP_singleton]
    by_cases hk : coreIdOf b ⟨slot, i⟩ = k
    · simp [hk]; omega
    · simp [hk]

/-! ### Cores that begin a launch (R351) -/

theorem beginOn_rest (s : State) (id core : Nat) : { beginOn s id core with cores := s.cores } = s := by
  unfold beginOn
  dsimp only
  split_ifs <;> rfl

theorem coreOf_beginOn (s : State) (id core k : Nat) : coreOf (beginOn s id core) k =
    if k = core ∧ (coreOf s k).begun.contains id = false then { coreOf s k with l1 := [], begun := (coreOf s k).begun ++ [id] }
    else coreOf s k := by
  unfold beginOn
  dsimp only
  by_cases hk : k = core
  · subst hk
    cases hbegun : (coreOf s k).begun.contains id with
    | true => rw [if_pos rfl, if_neg (fun h => Bool.noConfusion h.2)]
    | false => rw [if_neg (by decide), if_pos ⟨rfl, rfl⟩, coreOf_setCore, if_pos rfl]
  · rw [if_neg (fun h : k = core ∧ _ => hk h.1)]
    split_ifs
    · rfl
    · rw [coreOf_setCore, if_neg hk]

theorem referred_beginOn (s : State) (id core : Nat) : Referred ctx ov (fun _ => 0) s (beginOn s id core) where
  key k := by simp only [ovKey, coreOf_beginOn]; split_ifs <;> rfl
  find k := by
    rw [coreOf_beginOn]
    split_ifs <;> exact Option.map_id'.symm
  l1 k hk := by rw [coreOf_beginOn]; split_ifs; exacts [rfl, hk]

/-- The start acquire of a launch on the cores of a block. -/
def beginAll (s : State) (id cluster : Nat) (cores : List Nat) : State := cores.foldl (fun s k => beginOn s id (4 * cluster + k)) s

theorem beginAll_rest (id cluster : Nat) (cores : List Nat) (s : State) : { beginAll s id cluster cores with cores := s.cores } = s :=
  List.foldlRecOn (motive := fun t : State => { t with cores := s.cores } = s) cores _ rfl fun t ht k _ =>
    (congrArg (fun z : State => { z with cores := s.cores }) (beginOn_rest t id (4 * cluster + k)) :).trans ht

theorem referred_beginAll (id cluster : Nat) (cores : List Nat) (s : State) :
    Referred ctx ov (fun _ => 0) s (beginAll s id cluster cores) :=
  List.foldlRecOn (motive := Referred ctx ov (fun _ => 0) s) cores _ (referred_of_cores rfl) fun t ht k _ =>
    ht.trans (referred_beginOn t id (4 * cluster + k))

theorem beginAll_cons (s : State) (id cluster j : Nat) (cores : List Nat) :
    beginAll s id cluster (j :: cores) = beginAll (beginOn s id (4 * cluster + j)) id cluster cores := rfl

theorem beginAll_l1 {id cluster k : Nat} {cores : List Nat} (hk : k ∈ cores) :
    ∀ {s : State}, (coreOf s (4 * cluster + k)).begun.contains id = false →
      (coreOf (beginAll s id cluster cores) (4 * cluster + k)).l1 = [] := by
  induction cores with
  | nil => cases hk
  | cons j cores ih =>
    intro s hnew
    rw [beginAll_cons]
    by_cases hj : k = j
    · subst hj
      refine (referred_beginAll (ctx := 0) (ov := 0) ..).l1 _ ?_
      rw [coreOf_beginOn, if_pos ⟨rfl, hnew⟩]
    · refine ih ((List.mem_cons.mp hk).resolve_left hj) ?_
      rw [coreOf_beginOn, if_neg (fun h => hj (Nat.add_left_cancel h.1))]
      exact hnew

/-! ### The threads of a wave -/

theorem countP_div_32 (p : Nat → Bool) : ∀ m, (List.range (32 * m)).countP (fun j => p (j / 32)) = 32 * (List.range m).countP p
  | 0 => rfl
  | m + 1 => by
    have hwave : ((List.range 32).map (32 * m + ·)).countP (fun j => p (j / 32)) = if p m then 32 else 0 := by
      rw [List.countP_map, List.countP_congr (q := fun _ => p m) fun j hj => ?_]
      · cases p m <;> simp
      · have hlt := List.mem_range.mp hj
        rw [Function.comp_apply, show (32 * m + j) / 32 = m by omega]
    rw [Nat.mul_succ, List.range_add, List.countP_append, hwave, countP_div_32 p m, List.range_succ, List.countP_append,
      List.countP_singleton]
    split_ifs <;> omega

theorem waves_eq_map (b : Block) : b.waves = (List.range b.waves.length).map b.wave := by
  refine List.ext_getElem (by simp) fun i h1 h2 => ?_
  simp [Block.wave, h1]

/-- A wave brings 32 threads to its core. -/
theorem countP_coreIdOf (b : Block) (slot k : Nat) : (List.range (32 * b.waves.length)).countP (fun j => coreIdOf b ⟨slot, j⟩ == k) =
    32 * (b.waves.filter (fun w => 4 * b.cluster + w.core == k)).length := by
  have hwaves : (b.waves.filter (fun w => 4 * b.cluster + w.core == k)).length =
      (List.range b.waves.length).countP (fun i => 4 * b.cluster + (b.wave i).core == k) := by
    rw [← List.countP_eq_length_filter]
    conv_lhs => rw [waves_eq_map b]
    rw [List.countP_map]; rfl
  rw [hwaves, ← countP_div_32]
  rfl

/-- Every thread of a block has come in. -/
theorem comesIn_all {b : Block} {v : Thread} (hb : blockOf s slot = some { b with threads := List.replicate n (v.awaiting [ov]) })
    (hready : v.status = .ready) (hrun : v.runFrom = none) (hstack : v.stack = [ov]) (hrp : v.rpStack = [ov])
    (hus : ∀ i, i < n → (coreOf s (coreIdOf b ⟨slot, i⟩)).usable (ovKey s (coreIdOf b ⟨slot, i⟩) b.ctx ov) = true) :
    ∀ m, m ≤ n → ComesIn s slot b v ov n m ((List.range m).foldl (fun s i => comeIn s ⟨slot, i⟩ .start) s)
  | 0, _ => by
    refine ⟨rfl, fun _ _ => rfl, ?_, referred_of_cores rfl⟩
    rw [List.range_zero, List.foldl_nil, hb, comingIn]
    split_ifs with hn
    · rw [← hn]; rfl
    · rfl
  | m + 1, hm => by
    rw [List.range_succ, List.foldl_append]
    exact (comesIn_all hb hready hrun hstack hrp hus m (by omega)).succ (by omega) hready hrun hstack hrp (hus m (by omega))

end Sys2Proof.Machine
end

section
/-! PROOF. Dispatch passes and the start of a block (O41). -/

namespace Sys2Proof.Machine

open Sys2Proof

variable {s s' : State} {id slot : Nat} {l : Launch} {b : Block} {pl : Placement} {pls : List Placement}

/-! ### Passes (R347 to R350) -/

theorem placeAll_rest : ∀ {pls : List Placement} {s s' : State}, placeAll id pls s = some s' →
    { s' with blocks := s.blocks, launches := s.launches } = s
  | [], s, s', h => by cases h; rfl
  | pl :: pls, s, s', h => by
    rw [placeAll] at h
    split at h
    · cases h
    · split_ifs at h
      exact (congrArg (fun z : State => { z with blocks := s.blocks, launches := s.launches }) (placeAll_rest h) :)

theorem placeAll_one (hl : launchOf s id = some l) (hok : placementOk s l pl = true) : placeAll id [pl] s = some (placeNext s id l pl) := by
  simp only [placeAll, hl, if_pos hok]

/-- The pass comes to a launch: beside blocks and launches only contexts change, and they change as here. -/
theorem comeTo_placing {t : State} (ctx : Nat) (h : { t with blocks := s.blocks, launches := s.launches } = s) :
    { comeTo t ctx id with blocks := s.blocks, launches := s.launches, contexts := s.contexts } = s := by
  have hcome : { comeTo t ctx id with contexts := t.contexts } = t := by
    unfold comeTo modCtx
    split <;> rfl
  exact (congrArg (fun z : State => { z with blocks := s.blocks, launches := s.launches, contexts := s.contexts }) hcome :).trans
    (congrArg (fun z : State => { z with contexts := s.contexts }) h :)

theorem launchOf_comeTo (t : State) (ctx k : Nat) : launchOf (comeTo t ctx id) k = launchOf t k := by
  unfold launchOf comeTo; rw [modCtx_launches]

theorem blocks_comeTo (t : State) (ctx : Nat) : (comeTo t ctx id).blocks = t.blocks := modCtx_blocks ..

section
variable (hl : launchOf s id = some l) (hdis : dispatchable s id l = true) (hturn : turnOf s l.ctx id = true)
  (habove : reservedAbove s l.ctx id = false) (hsaved : savedOf s id = [])
include hl hdis hturn habove hsaved

theorem dispatchPass_places (hne : pls ≠ []) (hlen : pls.length = pendingN l) (hplace : placeAll id pls s = some s') :
    exec (.dispatchPass id pls) s = .next (comeTo (unskip s' id) l.ctx id) := by
  rw [exec_dispatchPass, execDispatchPass]
  simp [hl, hdis, hturn, habove, hsaved, hne, hlen, hplace]

theorem dispatchPass_skips (hnone : chooseAll id (pendingN l) s = none) :
    exec (.dispatchPass id []) s = .next (comeTo (skip s id) l.ctx id) := by
  rw [exec_dispatchPass, execDispatchPass]
  simp [hl, hdis, hturn, habove, hsaved, hnone]

end

/-! ### The start of a block (R231, R351, R440) -/

theorem blockStart_starts (hb : blockOf s slot = some b) (hl : launchOf s b.launch = some l) (hphase : b.phase = .placed)
    (hfatal : l.fatal = none) (hreplay : l.replayWant = false) :
    exec (.blockStart slot) s = .next ((List.range (32 * b.waves.length)).foldl (fun s i => comeIn s ⟨slot, i⟩ .start)
      (setBlock (beginAll s b.launch b.cluster b.cores) slot (b.begin l))) := by
  rw [exec_blockStart, execBlockStart, startBlock]
  simp only [hb, hl, hphase, hfatal, hreplay, rangeFrom_zero]
  rfl

/-- The first thread of a block as R13 says, with its first cycle of issue still open. -/
abbrev Launch.thread (l : Launch) : Thread := Thread.fresh l.argObj (pw l.packet 5)

/-- The overlay of a launch's entry slot. -/
abbrev Launch.entryOv (l : Launch) : BitVec 8 := (pw l.packet 5).extractLsb' 24 8

/-- A block whose entry overlay is in the store of its cores has every thread come in. -/
theorem blockStart_comesIn (hus : ∀ w ∈ b.waves, (coreOf s (4 * b.cluster + w.core)).usable
      (ovKey s (4 * b.cluster + w.core) b.ctx l.entryOv) = true) :
    ComesIn (setBlock (beginAll s b.launch b.cluster b.cores) slot (b.begin l)) slot (b.begin l) l.thread l.entryOv
      (32 * b.waves.length) (32 * b.waves.length)
      ((List.range (32 * b.waves.length)).foldl (fun s i => comeIn s ⟨slot, i⟩ .start)
        (setBlock (beginAll s b.launch b.cluster b.cores) slot (b.begin l))) := by
  refine comesIn_all ?_ rfl rfl rfl rfl (fun i hi => ?_) _ (Nat.le_refl _)
  · rw [blockOf_setBlock, if_pos rfl]; rfl
  · have hwave : b.wave (i / 32) ∈ b.waves := by
      rw [Block.wave, List.getD_eq_getElem _ _ (by omega)]
      exact List.getElem_mem _
    exact ((referred_beginAll b.launch b.cluster b.cores s).usable _).trans (hus _ hwave)

end Sys2Proof.Machine

open Sys2Proof Sys2Proof.Machine in
/-- Settles O41: a pass that may place does so and comes to its launch, one that finds no place skips it, and the threads of a placed
block come in one after another, each with two references of the entry overlay, until the last lets all start. -/
theorem blocksArePlacedAndStart : Obligations.BlocksArePlacedAndStart := by
  intro s id slot l pl b hl placing
  refine ⟨fun hdis hturn habove hsaved => ⟨fun hcoop hok => ?one, fun pls s' hcoop hne hlen hplace => ?all, fun hnone => ?skips⟩,
    fun c hskip hlate => ?reserving, fun hb hid hphase hfatal hreplay => ?starts⟩
  case one =>
    have hlen : [pl].length = pendingN l := by rw [pendingN, hcoop]; rfl
    have hrest : { unskip (placeNext s id l pl) id with blocks := s.blocks, launches := s.launches } = s :=
      (congrArg (fun z : State => { z with blocks := s.blocks, launches := s.launches }) (modLaunch_rest (placeNext s id l pl) id _) :)
    refine ⟨_, dispatchPass_places hl hdis hturn habove hsaved (List.cons_ne_nil _ _) hlen (placeAll_one hl hok),
      comeTo_placing _ hrest, fun k => ?_, fun k hk => ?_, ?_⟩
    · rw [blockOf_congr (blocks_comeTo ..), unskip, blockOf_congr (modLaunch_blocks ..), placeNext]
      exact blockOf_setBlock ..
    · rw [launchOf_comeTo, unskip, launchOf_modLaunch, if_neg hk, placeNext, launchOf_setLaunch, if_neg hk]; rfl
    · rw [launchOf_comeTo, unskip, launchOf_modLaunch, if_pos rfl, placeNext, launchOf_setLaunch, if_pos rfl]; rfl
  case all =>
    have hlen' : pls.length = pendingN l := by rw [pendingN, hcoop]; exact hlen
    have hrest : { unskip s' id with blocks := s.blocks, launches := s.launches } = s :=
      (congrArg (fun z : State => { z with blocks := s.blocks, launches := s.launches }) (modLaunch_rest s' id _) :).trans
        (placeAll_rest hplace)
    refine ⟨_, dispatchPass_places hl hdis hturn habove hsaved hne hlen' hplace, comeTo_placing _ hrest, ?_⟩
    rw [blocks_comeTo, unskip, modLaunch_blocks]
  case skips =>
    have hrest : { skip s id with blocks := s.blocks, launches := s.launches } = s :=
      (congrArg (fun z : State => { z with blocks := s.blocks }) (modLaunch_rest s id _) :)
    refine ⟨_, dispatchPass_skips hl hdis hturn habove hsaved hnone, comeTo_placing _ hrest, ?_, ?_⟩
    · rw [blocks_comeTo, skip, modLaunch_blocks]
    · rw [launchOf_comeTo, skip, launchOf_modLaunch, if_pos rfl, hl]; rfl
  case reserving =>
    refine ⟨_, rfl, modLaunch_rest .., ?_, fun k hk => ?_⟩
    · rw [launchOf_modLaunch, if_pos rfl, hl, Option.map_some, hskip]
      exact congrArg some (if_pos hlate)
    · rw [launchOf_modLaunch, if_neg hk]
  case starts =>
    subst hid
    intro entry key hus
    have hin := blockStart_comesIn (slot := slot) hus
    have hstart := blockStart_starts hb hl hphase hfatal hreplay
    have hbegun := beginAll_rest b.launch b.cluster b.cores s
    have hcores := referred_beginAll (ctx := b.ctx) (ov := l.entryOv) b.launch b.cluster b.cores s
    have hl1 := fun k hk => beginAll_l1 (id := b.launch) (cluster := b.cluster) (k := k) (cores := b.cores) hk (s := s)
    revert hin hstart
    generalize beginAll s b.launch b.cluster b.cores = s1 at *
    generalize (List.range (32 * b.waves.length)).foldl (fun s i => comeIn s ⟨slot, i⟩ .start) (setBlock s1 slot (b.begin l)) = t
    intro hin hstart
    have hrefs := (hcores.trans (referred_of_cores (t := setBlock s1 slot (b.begin l)) rfl)).trans hin.cores
    have hcycle : s1.cycle = s.cycle := (congrArg State.cycle hbegun :)
    have hthreads : comingIn l.thread l.entryOv (setBlock s1 slot (b.begin l)).cycle (32 * b.waves.length) (32 * b.waves.length) =
        List.replicate (32 * b.waves.length) { l.thread with nextIssue := s.cycle + 1 } := by
      rw [comingIn, if_pos rfl, setBlock_cycle, hcycle]
    refine ⟨t, _, hstart, ?_, fun k hk => ?_, hin.block, rfl, rfl, rfl, rfl, rfl, rfl, rfl, ?_,
      fun u hu => ?_, fun k hk hnew => ?_, fun k => ?_⟩
    · exact (congrArg (fun z : State => { z with blocks := s.blocks, cores := s.cores }) hin.rest :).trans
        (congrArg (fun z : State => { z with blocks := s.blocks }) hbegun :)
    · have hblocks : s1.blocks = s.blocks := (congrArg State.blocks hbegun :)
      rw [hin.others k hk, blockOf_setBlock, if_neg hk, blockOf_congr hblocks]
    · rw [hthreads, List.length_replicate]
    · rw [hthreads] at hu
      exact List.eq_of_mem_replicate hu
    · exact hin.cores.l1 _ (hl1 k hk hnew)
    · rw [hrefs.find k, Option.map_map]
      refine congrArg (Option.map · _) (funext fun r => ?_)
      change r.refs + (0 + 0 + 2 * (List.range (32 * b.waves.length)).countP (fun j => coreIdOf b ⟨slot, j⟩ == k)) = _
      rw [countP_coreIdOf, Nat.add_zero, Nat.zero_add, ← Nat.mul_assoc]
end

section
/-! SUPPORT. What of the lists of launches and contexts a cancelled launch and an ended load keep (R264, R371, R379). -/

namespace Sys2Proof.Machine

open Sys2Proof

variable {s t u : State} {id ctx : Nat}

/-! ### Lists by ascending number -/

/-- A list whose numbers ascend. -/
def Assoc.Ascending {α : Type} (m : Assoc α) : Prop := (m.map (·.1)).Pairwise (· < ·)

theorem Assoc.Ascending.tail {α : Type} {p : Nat × α} {m : Assoc α} (h : Assoc.Ascending (p :: m)) : Assoc.Ascending m :=
  (List.pairwise_cons.mp h).2

theorem Assoc.Ascending.head_lt {α : Type} {p q : Nat × α} {m : Assoc α} (h : Assoc.Ascending (p :: m)) (hq : q ∈ m) : p.1 < q.1 :=
  (List.pairwise_cons.mp h).1 q.1 (List.mem_map_of_mem hq)

theorem Assoc.erase_sublist {α : Type} (k : Nat) : ∀ m : Assoc α, (Assoc.erase m k).Sublist m
  | [] => List.Sublist.slnil
  | (j, v) :: m => by
    rw [Assoc.erase]
    split_ifs
    · exact List.sublist_cons_self ..
    · exact (Assoc.erase_sublist k m).cons_cons _

theorem Assoc.Ascending.erase {α : Type} {m : Assoc α} (h : Assoc.Ascending m) (k : Nat) : Assoc.Ascending (Assoc.erase m k) :=
  h.sublist ((Assoc.erase_sublist k m).map _)

theorem Assoc.Ascending.mem_erase_ne {α : Type} {k : Nat} : ∀ {m : Assoc α}, Assoc.Ascending m → ∀ p ∈ Assoc.erase m k, p.1 ≠ k
  | [], _, _, hp => absurd hp List.not_mem_nil
  | (j, v) :: m, h, p, hp => by
    rw [Assoc.erase] at hp
    split_ifs at hp with hk
    · have := h.head_lt hp
      exact fun he => by omega
    · rcases List.mem_cons.mp hp with rfl | hp
      · exact fun he => hk he.symm
      · exact h.tail.mem_erase_ne p hp

theorem Assoc.get_none_of_keys {α : Type} {k : Nat} : ∀ {m : Assoc α}, (∀ p ∈ m, p.1 ≠ k) → Assoc.get m k = none := fun h =>
  Option.eq_none_iff_forall_ne_some.mpr fun _ hx => h _ (Assoc.mem_of_get hx) rfl

theorem Assoc.Ascending.keys_of_get_none {α : Type} {k : Nat} : ∀ {m : Assoc α}, Assoc.Ascending m → Assoc.get m k = none →
    ∀ p ∈ m, p.1 ≠ k
  | [], _, _, _, hp => absurd hp List.not_mem_nil
  | (j, v) :: m, h, hnone, p, hp => by
    rw [Assoc.get] at hnone
    by_cases hk : k = j
    · rw [if_pos hk] at hnone; cases hnone
    · rw [if_neg hk] at hnone
      rcases List.mem_cons.mp hp with rfl | hp
      · exact fun he => hk he.symm
      · by_cases hlt : k < j
        · have := h.head_lt hp
          exact fun he => by dsimp only at this; omega
        · rw [if_neg hlt] at hnone
          exact h.tail.keys_of_get_none hnone p hp

theorem Assoc.erase_of_keys {α : Type} {k : Nat} : ∀ {m : Assoc α}, (∀ p ∈ m, p.1 ≠ k) → Assoc.erase m k = m
  | [], _ => rfl
  | (j, v) :: m, h => by
    have hj : k ≠ j := fun hk => h (j, v) List.mem_cons_self hk.symm
    rw [Assoc.erase, if_neg hj, Assoc.erase_of_keys fun p hp => h p (List.mem_cons_of_mem _ hp)]

/-- What is left where numbers are taken out one after another. -/
theorem Assoc.Ascending.mem_foldl_erase {α : Type} {p : Nat × α} : ∀ (ks : List Nat) {m : Assoc α}, Assoc.Ascending m →
    p ∈ ks.foldl Assoc.erase m → p ∈ m ∧ p.1 ∉ ks
  | [], _, _, hp => ⟨hp, List.not_mem_nil⟩
  | k :: ks, m, h, hp => by
    obtain ⟨hmem, hks⟩ := (h.erase k).mem_foldl_erase ks hp
    refine ⟨Assoc.mem_erase hmem, fun hin => ?_⟩
    rcases List.mem_cons.mp hin with hk | hin
    · exact h.mem_erase_ne p hmem hk
    · exact hks hin

/-! ### Writes of objects without a launch -/

/-- A translation for no launch binds nothing. -/
theorem translate_unbound (s : State) (ctx : Nat) (w : Want) : (translate s ctx none w).1 = s := by
  have hbind (oe : BitVec 512) (v : Nat) : (bindVersion s none w.obj oe v).1 = s := by
    unfold bindVersion
    dsimp only
    split <;> rfl
  unfold translate
  split
  · rfl
  · extract_lets pg flt
    split
    · rfl
    · split
      rename_i s1 root o e
      have h1 : s1 = s := by
        split at e
        · cases e; exact hbind ..
        · cases e; rfl
      split
      · exact h1
      · split
        · exact h1
        · simp only [apply_ite Prod.fst, ite_self, h1]

theorem translatePieces_unbound (ctx obj : Nat) (acc : Acc) : ∀ (ps : List (Nat × Nat)) (s : State),
    (translatePieces ctx none obj acc ps s).1 = s
  | [], _ => rfl
  | (off, n) :: ps, s => by
    have hfirst := translate_unbound s ctx ⟨obj, off, acc, false, false⟩
    rw [translatePieces]
    split
    · rename_i s1 m d heq
      rw [heq] at hfirst
      have hrest := translatePieces_unbound ctx obj acc ps s1
      split
      · rename_i heq'
        rw [heq'] at hrest
        exact hrest.trans hfirst
      · rename_i heq'
        rw [heq'] at hrest
        exact hrest.trans hfirst
    · rename_i heq
      rw [heq] at hfirst
      exact hfirst

/-- Launches and contexts are as before. -/
def SameLists (s t : State) : Prop := t.launches = s.launches ∧ t.contexts = s.contexts

theorem SameLists.trans (h1 : SameLists s t) (h2 : SameLists t u) : SameLists s u := ⟨h2.1.trans h1.1, h2.2.trans h1.2⟩

theorem sameLists_rekey (s : State) (key : BitVec 512) (a n : Nat) : SameLists s (rekey s key a n) :=
  List.foldlRecOn (motive := SameLists s) _ _ ⟨rfl, rfl⟩ fun _ ht _ _ => ht

theorem sameLists_writeMapped (s : State) (m : Mapped) (bs : List Byte) : SameLists s (writeMapped s m bs) := by
  unfold writeMapped
  split_ifs
  · exact ⟨rfl, rfl⟩
  · have hkeyed := sameLists_rekey s (keyOf s (objKey m.oe)) m.loc.addr bs.length
    unfold writeDram
    split_ifs <;> exact hkeyed

theorem sameLists_l1Write (s : State) (core : Option Nat) (k : LineId) (i : Nat) (bs : List Byte) (ch : CacheHint) :
    SameLists s (l1Write s core k i bs ch) := by
  unfold l1Write
  dsimp only
  split
  · exact ⟨rfl, rfl⟩
  · split_ifs <;> exact ⟨rfl, rfl⟩

theorem sameLists_expandPage (s : State) (ctx : Option Nat) (pa paddr obj page : Nat) :
    SameLists s (expandPage s ctx pa paddr obj page) := by
  unfold expandPage
  dsimp only
  split_ifs <;> exact ⟨rfl, rfl⟩

theorem sameLists_writeObj (s : State) (core : Option Nat) (ctx obj off : Nat) (m : Mapped) (bs : List Byte) (ch : CacheHint) :
    SameLists s (writeObj s core ctx obj off m bs ch) := by
  have hmem := sameLists_writeMapped s m bs
  unfold writeObj placeObj
  dsimp only
  split_ifs
  · exact (hmem.trans (sameLists_expandPage ..)).trans (sameLists_l1Write ..)
  · exact hmem.trans (sameLists_l1Write ..)

theorem sameLists_writePieces (ctx obj : Nat) : ∀ (ps : List Piece) (bs : List Byte) (s : State),
    SameLists s (writePieces ctx obj ps bs s)
  | [], _, _ => ⟨rfl, rfl⟩
  | _ :: ps, _, _ => (sameLists_writeObj ..).trans (sameLists_writePieces ctx obj ps _ _)

theorem sameLists_writeObjRange (s : State) (ctx obj off : Nat) (bs : List Byte) : SameLists s (writeObjRange s ctx none obj off bs).1 := by
  have htr : (translateRange s ctx none obj .cwrite off bs.length).1 = s := translatePieces_unbound ..
  unfold writeObjRange
  split
  · rename_i s1 ps heq
    rw [heq] at htr
    dsimp only at htr
    subst htr
    split
    · exact ⟨rfl, rfl⟩
    · exact sameLists_writePieces ..
  · rename_i heq
    rw [heq] at htr
    dsimp only at htr
    subst htr
    exact ⟨rfl, rfl⟩

theorem sameLists_writeRecord (s : State) (ctx : Nat) (p ws : List Word) : SameLists s (writeRecord s ctx p ws).1 := by
  unfold writeRecord
  split_ifs
  · exact ⟨rfl, rfl⟩
  · exact sameLists_writeObjRange ..

/-! ### Launches cancelled (R371) -/

/-- A launch is off the list, and the contexts listed are the same. -/
structure Delisted (id : Nat) (s t : State) : Prop where
  launches : t.launches = Assoc.erase s.launches id
  contexts : t.contexts.map (·.1) = s.contexts.map (·.1)

theorem delisted_endPacket {l : Launch} {status : BitVec 8} {block : Nat} {tinfo : List Word}
    (h : endPacket s id l status block tinfo = (t, none)) : Delisted id s t := by
  rw [endPacket] at h
  split at h
  · cases h
  · rename_i s1 heq
    have hrec := sameLists_writeRecord s l.ctx l.packet (recordWords l.lnum status block tinfo)
    rw [heq] at hrec
    have hend := (outlives_raiseCpl (id := id) s1 l.queue).trans (outlives_signalOf _ l.ctx l.packet)
    cases h
    exact ⟨congrArg (Assoc.erase · id) (hend.launches.trans hrec.1), hend.contexts.trans (congrArg (List.map Prod.fst) hrec.2)⟩

theorem Outlives.delisted (h1 : Outlives id s t) (h2 : Delisted id t u) : Delisted id s u :=
  ⟨h2.launches.trans (congrArg (Assoc.erase · id) h1.launches), h2.contexts.trans h1.contexts⟩

theorem delisted_complete {l : Launch} (h : complete s id l = (t, none)) : Delisted id s t := by
  rw [complete_eq] at h
  exact (outlives_cleaned s l).delisted (delisted_endPacket h)

theorem endGrid_launches (s : State) : (endGrid s id).launches = s.launches := (congrArg State.launches (endGrid_rest s) :)

theorem endGrid_contexts (s : State) : (endGrid s id).contexts.map (·.1) = s.contexts.map (·.1) := by
  have hreleased : ((blocksOf s id).foldl (fun s b => releaseRefs s b.1 b.2) s).contexts = s.contexts :=
    (congrArg State.contexts (residentsOnly_releaseBlocks (blocksOf s id) s).rest :)
  unfold endGrid
  dsimp only
  rw [Assoc.keys_mapVals, hreleased]

theorem delisted_cancelEnd {l : Launch} (h : cancelEnd s id l = (t, none)) : Delisted id s t := by
  unfold cancelEnd at h
  split_ifs at h
  · exact delisted_endPacket h
  · have hend := delisted_complete h
    exact ⟨hend.launches.trans (congrArg (Assoc.erase · id) (endGrid_launches s)), hend.contexts.trans (endGrid_contexts s)⟩

theorem pObj_unrecorded (l : Launch) : pObj l.unrecorded.packet 12 = 0 := by
  have hword : pw l.unrecorded.packet 12 = 0 := by
    rw [pw, Launch.unrecorded, List.getD_eq_getElem?_getD, List.getElem?_set, if_pos rfl]
    split_ifs <;> rfl
  rw [pObj, pf, hword]
  rfl

/-- Without a completion record the end of a launch is not refused. -/
theorem cancelEnd_unrecorded (s : State) (id : Nat) (l : Launch) : (cancelEnd s id l.unrecorded).2 = none := by
  unfold cancelEnd
  split_ifs
  · obtain ⟨t, ht, _⟩ := endPacket_ends (id := id) (pObj_unrecorded l) s stCancel 0 []
    exact congrArg Prod.snd ht
  · obtain ⟨t, ht, _⟩ := complete_ends (id := id)
      (l := { l.unrecorded with fatal := some ⟨stCancel, 0, [], gtsOf (endGrid s id), 0⟩ }) (pObj_unrecorded l) (endGrid s id)
    exact congrArg Prod.snd ht

theorem delisted_cancelLaunch {l : Launch} (hl : launchOf s id = some l) : Delisted id s (cancelLaunch s id) := by
  have hwork {z : State} (h : Delisted id (dropWork s id) z) : Delisted id s z := ⟨h.launches, h.contexts⟩
  unfold cancelLaunch
  rw [hl]
  dsimp only
  split
  · rename_i heq
    exact hwork (delisted_cancelEnd heq)
  · refine hwork (delisted_cancelEnd (l := l.unrecorded) ?_)
    exact Prod.ext rfl (cancelEnd_unrecorded ..)

/-- A cancelled launch is off the list; one that is not listed changes nothing. -/
theorem cancelLaunch_contexts (s : State) (id : Nat) : (cancelLaunch s id).contexts.map (·.1) = s.contexts.map (·.1) := by
  cases hl : launchOf s id with
  | none => unfold cancelLaunch; rw [hl]
  | some l => exact (delisted_cancelLaunch hl).contexts

theorem cancelLaunch_launches (h : Assoc.Ascending s.launches) (id : Nat) : (cancelLaunch s id).launches = Assoc.erase s.launches id := by
  cases hl : launchOf s id with
  | none => unfold cancelLaunch; rw [hl, Assoc.erase_of_keys (h.keys_of_get_none hl)]
  | some l => exact (delisted_cancelLaunch hl).launches

theorem cancelLaunches_contexts (ids : List Nat) (s : State) : (ids.foldl cancelLaunch s).contexts.map (·.1) = s.contexts.map (·.1) :=
  List.foldlRecOn (motive := fun t : State => t.contexts.map (·.1) = s.contexts.map (·.1)) ids _ rfl fun t ht id _ =>
    (cancelLaunch_contexts t id).trans ht

theorem cancelLaunches_launches : ∀ (ids : List Nat) {s : State}, Assoc.Ascending s.launches →
    (ids.foldl cancelLaunch s).launches = ids.foldl Assoc.erase s.launches
  | [], _, _ => rfl
  | id :: ids, s, h => by
    have hfirst := cancelLaunch_launches h id
    rw [List.foldl_cons, List.foldl_cons, ← hfirst]
    exact cancelLaunches_launches ids (hfirst ▸ h.erase id)

/-! ### Loads that end with their context (R264) -/

theorem startLoad_contexts (s : State) (core ctx launch : Nat) (ov : BitVec 8) (e : OvEntry) :
    (startLoad s core ctx launch ov e).1.contexts = s.contexts := by
  unfold startLoad
  dsimp only
  split
  · rfl
  · split_ifs
    · rfl
    · rfl
    · rfl
    · split <;> rfl

theorem startLoads_contexts (core ctx launch : Nat) : ∀ (ids : List (BitVec 8)) (s : State),
    (startLoads core ctx launch ids s).1.contexts = s.contexts
  | [], _ => rfl
  | id :: ids, s => by
    rw [startLoads]
    split_ifs
    · exact startLoads_contexts core ctx launch ids s
    · split
      · rfl
      · rename_i e _
        have hload := startLoad_contexts s core ctx launch id e
        split
        · rename_i s1 heq
          rw [heq] at hload
          exact (startLoads_contexts core ctx launch ids s1).trans hload
        · rename_i s1 code heq
          rw [heq] at hload
          split_ifs
          · exact (startLoads_contexts core ctx launch ids s1).trans hload
          · exact hload

theorem addRefs_contexts (core ctx : Nat) (ids : List (BitVec 8)) (s : State) : (addRefs s core ctx ids).contexts = s.contexts :=
  (congrArg State.contexts (atCore_addRefs core ctx ids s).1 :)

theorem fatalTrap_contexts (s : State) (tid : ThreadId) (b : Block) (v : Thread) (r : Trap) :
    (fatalTrap s tid b v r).contexts = s.contexts :=
  modLaunch_contexts ..

theorem addRef_contexts (s : State) (core : Nat) (k : RKey) : (addRef s core k).contexts = s.contexts := rfl

theorem takeTrap_contexts (s : State) (tid : ThreadId) (r : Trap) : (takeTrap s tid r).contexts = s.contexts := by
  unfold takeTrap
  split
  case h_1 => rfl
  case h_2 b _ =>
    split
    case h_1 => rfl
    case h_2 v _ =>
      split
      case isTrue => rw [modLaunch_contexts, fatalTrap_contexts]
      case isFalse =>
        split
        case h_1 => exact fatalTrap_contexts ..
        case h_2 hd _ =>
          dsimp only
          split
          case isTrue => rw [addRef_contexts, setThread_contexts]
          case isFalse =>
            split
            case h_1 => exact fatalTrap_contexts ..
            case h_2 e _ =>
              have hload := startLoad_contexts s (coreIdOf b tid) b.ctx b.launch hd e
              split <;> rename_i heq <;> rw [heq] at hload
              · split
                · rw [addRef_contexts, setThread_contexts]; exact hload
                · rw [fatalTrap_contexts]; exact hload
              · rw [setThread_contexts]; exact hload

theorem enterRestart_contexts (s : State) (tid : ThreadId) : (enterRestart s tid).contexts = s.contexts := by
  unfold enterRestart
  split
  · rfl
  · split
    · rfl
    · dsimp only
      split_ifs
      · exact setThread_contexts ..
      · rw [takeTrap_contexts, setThread_contexts]

theorem goIn_contexts (s : State) (tid : ThreadId) (why : LoadWhy) : (goIn s tid why).contexts = s.contexts := by
  unfold goIn
  cases why with
  | resume =>
    dsimp only
    split_ifs
    · exact modThread_contexts ..
    · exact enterRestart_contexts ..
  | start => exact (modBlock_contexts ..).trans (modThread_contexts ..)
  | call => exact modThread_contexts ..
  | handler => exact modThread_contexts ..
  | rewait => exact modThread_contexts ..

theorem comeIn_contexts (s : State) (tid : ThreadId) (why : LoadWhy) : (comeIn s tid why).contexts = s.contexts := by
  unfold comeIn
  split
  case h_1 => rfl
  case h_2 b _ =>
    split
    case h_1 => rfl
    case h_2 v _ =>
      dsimp only
      have hload := startLoads_contexts (coreIdOf b tid) b.ctx b.launch (stackIds v)
        (setThread s tid { v with status := .parkedLoad [] why })
      rw [setThread_contexts] at hload
      split <;> rename_i heq <;> rw [heq] at hload
      · exact (fatalTrap_contexts ..).trans hload
      · rw [goIn_contexts, addRefs_contexts]; exact hload
      · rw [modThread_contexts]; exact hload

theorem releaseParked_contexts (s : State) (tid : ThreadId) (b : Block) (v : Thread) (id code : BitVec 8) (why : LoadWhy) :
    (releaseParked s tid b v id code why).contexts = s.contexts := by
  have hother : (if code = 0 then comeIn s tid why else fatalOvmiss s tid b v (ovmissSub code) id).contexts = s.contexts := by
    split_ifs
    · exact comeIn_contexts ..
    · exact fatalTrap_contexts ..
  unfold releaseParked
  cases why with
  | call entry =>
    dsimp only
    split_ifs
    · exact setThread_contexts ..
    · rw [takeTrap_contexts, setThread_contexts]
  | handler =>
    dsimp only
    split_ifs
    · rw [addRef_contexts, setThread_contexts]
    · cases v.trap with
      | none => rfl
      | some r => exact modLaunch_contexts ..
  | resume => exact hother
  | start => exact hother
  | rewait => exact hother

theorem loadEndsFor_contexts (core : Nat) (key : RKey) (code : BitVec 8) (s : State) (tid : ThreadId) :
    (loadEndsFor core key code s tid).contexts = s.contexts := by
  unfold loadEndsFor
  split
  · rfl
  · split_ifs
    · rfl
    · split
      · rfl
      · dsimp only
        split
        · split
          · rw [releaseParked_contexts, setThread_contexts]
          · exact setThread_contexts ..
        · exact setThread_contexts ..

theorem endLoad_contexts (s : State) (core k : Nat) (key : RKey) (code : BitVec 8) : (endLoad s core k key code).contexts = s.contexts := by
  have hends (z : State) : ((allTids z).foldl (loadEndsFor core key code) z).contexts = z.contexts :=
    List.foldlRecOn (motive := fun t : State => t.contexts = z.contexts) _ _ rfl fun t ht tid _ => (loadEndsFor_contexts ..).trans ht
  unfold endLoad
  dsimp only
  split_ifs
  · exact hends _
  · exact hends _

theorem endLoadsOf_contexts (ctx core : Nat) : ∀ (n : Nat) (s : State), (endLoadsOf ctx core n s).contexts = s.contexts
  | 0, _ => rfl
  | n + 1, s => by
    rw [endLoadsOf]
    split
    · rfl
    · split
      · rfl
      · exact (endLoadsOf_contexts ctx core n _).trans (endLoad_contexts ..)

theorem endAllLoadsOf_contexts (s : State) (ctx : Nat) : (endAllLoadsOf s ctx).contexts = s.contexts :=
  List.foldlRecOn (motive := fun t : State => t.contexts = s.contexts) _ _ rfl fun _ ht _ _ => (endLoadsOf_contexts ..).trans ht

/-! ### Queues removed and contexts destroyed (R371, R379, R405) -/

theorem removeLaunchQueue_contexts (s : State) (queue : Nat) : (removeLaunchQueue s queue).contexts.map (·.1) = s.contexts.map (·.1) := by
  unfold removeLaunchQueue
  split
  · rfl
  · exact cancelLaunches_contexts ..

theorem removeBulkQueue_contexts (s : State) (queue : Nat) : (removeBulkQueue s queue).contexts = s.contexts := by
  unfold removeBulkQueue
  split <;> rfl

theorem removeFaultQueue_contexts (s : State) (ctx : Nat) : (removeFaultQueue s ctx).contexts.map (·.1) = s.contexts.map (·.1) := by
  unfold removeFaultQueue
  split
  · rfl
  · exact (outlives_modCtx (id := 0) ctx (fun c => { c with faultQ := none })).contexts

/-- Before a context leaves the list, the list is as it was. -/
theorem destroyContext_eq (s : State) (ctx : Nat) : ∃ t, destroyContext s ctx = removeContext t ctx
    ∧ t.contexts.map (·.1) = s.contexts.map (·.1) := by
  have hfold {f : State → Nat → State} (hf : ∀ z k, (f z k).contexts.map (·.1) = z.contexts.map (·.1)) (ks : List Nat) (z : State) :
      (ks.foldl f z).contexts.map (·.1) = z.contexts.map (·.1) :=
    List.foldlRecOn (motive := fun t : State => t.contexts.map (·.1) = z.contexts.map (·.1)) ks f rfl fun t ht k _ => (hf t k).trans ht
  refine ⟨_, rfl, ?_⟩
  rw [endAllLoadsOf_contexts]
  dsimp only
  rw [removeFaultQueue_contexts, hfold fun z k => congrArg (List.map Prod.fst) (removeBulkQueue_contexts z k),
    hfold removeLaunchQueue_contexts, cancelLaunches_contexts]

end Sys2Proof.Machine
end

section
/-! PROOF. Contexts, queues and overlay entries as firmware keeps them (O51). -/

namespace Sys2Proof.Machine

open Sys2Proof

variable {s : State} {ctx queue : Nat} {c : Context}

/-! ### Context records (R379, R380) -/

theorem ctxOf_setCtx_other (x : Context) : ∀ k, k ≠ ctx → ctxOf (setCtx s ctx x) k = ctxOf s k := fun k hk => by
  rw [ctxOf_setCtx, if_neg hk]

theorem ctxOf_setCtx_same (x : Context) : ctxOf (setCtx s ctx x) ctx = some x := by rw [ctxOf_setCtx, if_pos rfl]

theorem modCtx_of_some (hc : ctxOf s ctx = some c) (f : Context → Context) : modCtx s ctx f = setCtx s ctx (f c) := by
  unfold modCtx; rw [hc]

theorem contextCreate_creates {x : CtxNew} (hctx : ctx < 64) (hfree : ctxOf s ctx = none) (hfns : ∀ f ∈ x.fns, f ≤ 16)
    (hot : x.otBase % 64 = 0) (hotEnd : x.otBase + 64 * x.otLen ≤ 432 * 2 ^ 30) (hpos : 1 ≤ x.otLen) (hlen : x.otLen ≤ 2 ^ 24)
    (hev : x.evBase % 64 = 0) (hevEnd : x.evBase + 8 * 4096 ≤ 432 * 2 ^ 30) :
    exec (.contextCreate ctx x) s = .next (setCtx s ctx (x.params.foldl Context.put { Context.fresh s.service.settings.defaults with
      otBase := x.otBase, otLen := x.otLen, evBase := x.evBase, fns := x.fns })) := by
  have hot' : regionOk x.otBase (64 * x.otLen) = true := decide_eq_true ⟨hot, hotEnd⟩
  have hev' : regionOk x.evBase (8 * 4096) = true := decide_eq_true ⟨hev, hevEnd⟩
  have hfns' : x.fns.any (fun f => decide (16 < f)) = false := List.any_eq_false.mpr fun f hf => by
    rw [decide_eq_true_eq]; exact Nat.not_lt.mpr (hfns f hf)
  rw [exec_contextCreate, execContextCreate, if_neg]
  rintro (h | h | h | h | h | h | h)
  · omega
  · rw [hfns'] at h; cases h
  · rw [hfree] at h; cases h
  · rw [hot'] at h; cases h
  · omega
  · omega
  · rw [hev'] at h; cases h

/-- A change of every cluster that leaves the empty one as it is changes each cluster. -/
theorem clusterOf_mapVals (s : State) {f : Cluster → Cluster} (hf : f Cluster.empty = Cluster.empty) (n : Nat) :
    clusterOf { s with clusters := Assoc.mapVals s.clusters (fun _ c => f c) } n = f (clusterOf s n) := by
  simp only [clusterOf, Assoc.getD, Assoc.get_mapVals]
  cases Assoc.get s.clusters n with
  | none => exact hf.symm
  | some c => rfl

/-- What is gone with a context that is removed. -/
theorem removeContext_gone (s : State) (ctx : Nat) (hasc : Assoc.Ascending s.contexts) :
    ctxOf (removeContext s ctx) ctx = none ∧ (∀ b ∈ (removeContext s ctx).blocks, b.2.ctx ≠ ctx)
      ∧ (∀ k ∈ (removeContext s ctx).service.keys, k.2.owner ≠ ctx)
      ∧ (∀ n, (clusterOf (removeContext s ctx) n).ctx ≠ some ctx)
      ∧ (∀ a ∈ (removeContext s ctx).service.aperture, a.2.ctx ≠ ctx) := by
  refine ⟨Assoc.get_none_of_keys (hasc.mem_erase_ne), fun b hb => ?_, fun k hk => ?_, fun n => ?_, fun a ha => ?_⟩
  · simpa using (List.mem_filter.mp hb).2
  · simpa using (List.mem_filter.mp hk).2
  · have hcl : (clusterOf (removeContext s ctx) n).ctx = if (clusterOf s n).ctx = some ctx then none else (clusterOf s n).ctx :=
      congrArg Cluster.ctx (clusterOf_mapVals s (f := fun c => { c with
        ctx := if c.ctx = some ctx then none else c.ctx
        faults := c.faults.filter (fun f => f.ctx != ctx) }) rfl n)
    rw [hcl]
    split_ifs with h
    · exact Option.some_ne_none ctx |>.symm
    · exact h
  · simpa using (List.mem_filter.mp ha).2

/-! ### Overlay entries (R243, R264) -/

theorem noteHash_notes (s : State) (h : BitVec 256) : h ∈ (noteHash s h).service.settings.publicHashes := by
  unfold noteHash
  split_ifs with hin
  · exact List.contains_iff_mem.mp hin
  · exact List.mem_append_right _ (List.mem_singleton_self h)

theorem noteHash_contexts (s : State) (h : BitVec 256) : (noteHash s h).contexts = s.contexts := by
  unfold noteHash
  split_ifs <;> rfl

section
variable {ov : OverlayReg} (hc : ctxOf s ctx = some c)
include hc

theorem overlayRegister_empties (hinvalid : OvEntry.valid ⟨ov.entry, ov.srcTag⟩ = false) :
    exec (.overlayRegister ctx ov) s = .next (setCtx s ctx { c with overlays := Assoc.erase c.overlays ov.ovid.toNat }) := by
  rw [exec_overlayRegister, execOverlayRegister]
  simp only [hc, hinvalid]
  rfl

theorem overlayRegister_accepts (hvalid : OvEntry.valid ⟨ov.entry, ov.srcTag⟩ = true)
    (hok : overlayOk s ctx ⟨ov.entry, ov.srcTag⟩ ov.sig = true) : exec (.overlayRegister ctx ov) s = .next
      (if OvEntry.pub ⟨ov.entry, ov.srcTag⟩ then
        noteHash (setCtx s ctx { c with overlays := Assoc.set c.overlays ov.ovid.toNat ⟨ov.entry, ov.srcTag⟩ })
          (OvEntry.hash ⟨ov.entry, ov.srcTag⟩)
      else setCtx s ctx { c with overlays := Assoc.set c.overlays ov.ovid.toNat ⟨ov.entry, ov.srcTag⟩ }) := by
  rw [exec_overlayRegister, execOverlayRegister]
  simp only [hc, hvalid, hok]
  rfl

theorem overlayRegister_refuses (hvalid : OvEntry.valid ⟨ov.entry, ov.srcTag⟩ = true)
    (hok : ¬overlayOk s ctx ⟨ov.entry, ov.srcTag⟩ ov.sig = true) : exec (.overlayRegister ctx ov) s = .next s := by
  rw [exec_overlayRegister, execOverlayRegister]
  simp only [hc, hvalid, hok]
  rfl

end

/-! ### Queues (R371, R405) -/

theorem removeLaunchQueue_empty {q : LaunchQueue} (hq : Assoc.get s.launchQs queue = some q)
    (h : ∀ l ∈ s.launches, l.2.queue ≠ queue) :
    removeLaunchQueue s queue = freeDoorbell { s with launchQs := Assoc.erase s.launchQs queue } q.fn q.doorbell := by
  have hnone : launchesOf s (fun l => l.queue == queue) = [] := by
    rw [launchesOf, List.filter_eq_nil_iff.mpr fun l hl => by simpa using h l hl]
    rfl
  unfold removeLaunchQueue
  rw [hq, hnone]
  rfl

/-- A change of every engine that leaves the empty one as it is changes each engine. -/
theorem engineOf_mapVals (s : State) {f : Engine → Engine} (hf : f Engine.empty = Engine.empty) (n : Nat) :
    engineOf { s with engines := Assoc.mapVals s.engines (fun _ e => f e) } n = f (engineOf s n) := by
  simp only [engineOf, Assoc.getD, Assoc.get_mapVals]
  cases Assoc.get s.engines n with
  | none => exact hf.symm
  | some e => rfl

/-- The state without a bulk queue and what its packets ask of engines; its doorbell is still bound. -/
def withoutBulk (s : State) (queue : Nat) : State := { s with
  bulkQs := Assoc.erase s.bulkQs queue
  engines := Assoc.mapVals s.engines (fun _ e => { e with reqs := e.reqs.filter (fun r => !(r.packet.any (fun p => p.queue == queue))) }) }

theorem removeBulkQueue_of_some {q : BulkQueue} (hq : Assoc.get s.bulkQs queue = some q) :
    removeBulkQueue s queue = freeDoorbell (withoutBulk s queue) q.fn q.doorbell := by
  unfold removeBulkQueue
  rw [hq]
  rfl

theorem reqs_removedBulk (s : State) (queue n : Nat) : (engineOf (withoutBulk s queue) n).reqs =
    (engineOf s n).reqs.filter (fun r => !(r.packet.any (fun p => p.queue == queue))) :=
  congrArg Engine.reqs (engineOf_mapVals s
    (f := fun e => { e with reqs := e.reqs.filter (fun r => !(r.packet.any (fun p => p.queue == queue))) }) rfl n)

theorem removeFaultQueue_of_some {q : FaultQueue} (hq : (ctxOf s queue).bind Context.faultQ = some q) :
    removeFaultQueue s queue = freeDoorbell (modCtx s queue (fun c => { c with faultQ := none })) q.fn q.doorbell := by
  unfold removeFaultQueue
  rw [hq]

theorem removeLaunchQueue_launches (hasc : Assoc.Ascending s.launches) (hq : (Assoc.get s.launchQs queue).isSome = true) :
    ∀ l ∈ (removeLaunchQueue s queue).launches, l.2.queue ≠ queue := by
  obtain ⟨q, hq⟩ := Option.isSome_iff_exists.mp hq
  unfold removeLaunchQueue
  rw [hq]
  intro l hl hqueue
  change l ∈ ((launchesOf s (fun l => l.queue == queue)).foldl cancelLaunch s).launches at hl
  rw [cancelLaunches_launches _ hasc] at hl
  obtain ⟨hmem, hnot⟩ := hasc.mem_foldl_erase _ hl
  exact hnot (List.mem_map_of_mem (List.mem_filter.mpr ⟨hmem, beq_iff_eq.mpr hqueue⟩))

end Sys2Proof.Machine

open Sys2Proof Sys2Proof.Machine in
/-- Settles O51: records and entries are written in their place, a context's destruction ends in the removal of all that names it, and a
removed queue takes its launches off the list one by one and frees its doorbell. -/
theorem contextsAndOverlaysAreKept : Obligations.ContextsAndOverlaysAreKept := by
  intro s ctx queue n x p ov c w h only
  refine ⟨fun hctx hfree hfns hot hotEnd hpos hlen hev hevEnd => ?create,
    fun hc => ⟨fun hkept => ?update, rfl, rfl, fun hn => ?drainLim, fun hlow hhigh => ?runOn, fun hlow => ?runOnLow,
      fun hasc => ?destroy, ?overlay⟩,
    fun q hq hnone => ?emptyQueue, fun hasc hq => ?launchQueue,
    fun q hq => ?bulkQueue, fun q hq => ?faultQueue⟩
  case create =>
    exact ⟨_, contextCreate_creates hctx hfree hfns hot hotEnd hpos hlen hev hevEnd,
      ⟨rfl, ctxOf_setCtx_other _⟩, ctxOf_setCtx_same _⟩
  case update =>
    refine ⟨_, (if_pos hkept).trans (congrArg _ (modCtx_of_some hc _)), ⟨rfl, ctxOf_setCtx_other _⟩, ctxOf_setCtx_same _⟩
  case drainLim => exact if_pos hn
  case runOn => exact if_pos ⟨hlow, hhigh⟩
  case runOnLow =>
    have hlow' : ¬(1024 ≤ n ∧ n ≤ c.params.drainLim / 2) := fun h => by omega
    exact congrArg (fun y => { c with params := y }) (if_neg hlow')
  case destroy =>
    obtain ⟨t, ht, hkeys⟩ := destroyContext_eq s ctx
    have hasc' : Assoc.Ascending t.contexts := by rw [Assoc.Ascending, hkeys]; exact hasc
    refine ⟨_, ?_, removeContext_gone t ctx hasc'⟩
    rw [exec_contextDestroy, execContextDestroy, hc, ← ht]
  case overlay =>
    refine ⟨fun hinvalid => ?_, fun hvalid => ?_⟩
    · refine ⟨_, overlayRegister_empties hc hinvalid, ⟨rfl, ctxOf_setCtx_other _⟩, ctxOf_setCtx_same _⟩
    · by_cases hok : overlayOk s ctx ⟨ov.entry, ov.srcTag⟩ ov.sig = true
      · have haccepts := overlayRegister_accepts hc hvalid hok
        rw [if_pos hok]
        by_cases hpub : OvEntry.pub ⟨ov.entry, ov.srcTag⟩ = true
        · rw [if_pos hpub] at haccepts
          refine ⟨_, haccepts, ?_, (if_pos hpub).mpr (noteHash_notes ..)⟩
          rw [ctxOf, noteHash_contexts]
          exact ctxOf_setCtx_same _
        · rw [if_neg hpub] at haccepts
          exact ⟨_, haccepts, ctxOf_setCtx_same _, (if_neg hpub).mpr ⟨rfl, ctxOf_setCtx_other _⟩⟩
      · rw [if_neg hok]
        exact overlayRegister_refuses hc hvalid hok
  case emptyQueue =>
    refine ⟨_, rfl, ?_⟩
    rw [removeLaunchQueue_empty hq hnone]
    exact ⟨rfl, rfl, rfl⟩
  case launchQueue => exact ⟨_, rfl, removeLaunchQueue_launches hasc hq⟩
  case bulkQueue =>
    refine ⟨_, congrArg Host.Outcome.next (removeBulkQueue_of_some hq), rfl, fun e r hr y hy hqueue => ?_, rfl, rfl⟩
    have hkept := (List.mem_filter.mp (reqs_removedBulk s queue e ▸ hr)).2
    rw [hy, Option.any_some, hqueue, beq_self_eq_true] at hkept
    cases hkept
  case faultQueue =>
    refine ⟨_, congrArg Host.Outcome.next (removeFaultQueue_of_some hq), ?_, ?_⟩
    · change (ctxOf (modCtx s queue (fun c => { c with faultQ := none })) queue).bind Context.faultQ = none
      rw [ctxOf_modCtx, if_pos rfl]
      cases ctxOf s queue <;> rfl
    · change Assoc.erase (modCtx s queue (fun c => { c with faultQ := none })).service.doorbells (doorKey q.fn q.doorbell) = _
      rw [modCtx_service]
      rfl
end

section
/-! SUPPORT. The record path: markers that lehrs note (R291), entries that join the paths of a drover (R286, R293), and the charge
of records (R299). -/

namespace Sys2Proof.Machine

open Sys2Proof

variable {s t : State}

/-! ### Markers noted by lehrs (R291) -/

theorem noteChannel_rest (s : State) (chan : Nat) (es : List Staged) : { noteChannel s chan es with lehrs := s.lehrs } = s := by
  unfold noteChannel
  refine List.foldlRecOn _ _ (motive := fun t : State => { t with lehrs := s.lehrs } = s) rfl fun t ht m _ => ?_
  dsimp only
  split_ifs
  · exact ht
  · exact ht

theorem noteComplete_rest (s : State) : { noteComplete s with lehrs := s.lehrs } = s :=
  List.foldlRecOn (motive := fun t : State => { t with lehrs := s.lehrs } = s) _ _ rfl fun t ht p _ =>
    (congrArg (fun z : State => { z with lehrs := s.lehrs }) (noteChannel_rest t p.1 p.2)).trans ht

@[simp] theorem noteComplete_cores (s : State) : (noteComplete s).cores = s.cores := (congrArg State.cores (noteComplete_rest s) :)
@[simp] theorem noteComplete_drovers (s : State) : (noteComplete s).drovers = s.drovers := (congrArg State.drovers (noteComplete_rest s) :)
@[simp] theorem noteComplete_commits (s : State) : (noteComplete s).commits = s.commits := (congrArg State.commits (noteComplete_rest s) :)
@[simp] theorem noteComplete_staging (s : State) : (noteComplete s).staging = s.staging := (congrArg State.staging (noteComplete_rest s) :)
@[simp] theorem noteComplete_service (s : State) : (noteComplete s).service = s.service := (congrArg State.service (noteComplete_rest s) :)

theorem commitById_id {id : Nat} {c : Commit} (hc : commitById s id = some c) : c.id = id := by
  simpa using List.find?_some hc

/-! ### Drovers and their paths -/

theorem droverOf_congr (h : t.drovers = s.drovers) (die : Nat) : droverOf t die = droverOf s die := by unfold droverOf; rw [h]

theorem droverOf_setDrover (s : State) (a die : Nat) (d : Drover) :
    droverOf (setDrover s a d) die = if die = a then d else droverOf s die := Assoc.getD_set ..

theorem pathOf_congr (h : t.drovers = s.drovers) (die p : Nat) : pathOf t die p = pathOf s die p := by
  rw [pathOf, droverOf_congr h, pathOf]

theorem pathOf_setDrover (s : State) (a die p : Nat) (d : Drover) :
    pathOf (setDrover s a d) die p = if die = a then d.path p else pathOf s die p := by
  unfold pathOf
  rw [droverOf_setDrover]
  split_ifs <;> rfl

theorem Drover.path_setPath (d : Drover) (a p : Nat) (x : Path) : (d.setPath a x).path p = if p = a then x else d.path p :=
  Assoc.getD_set ..

theorem Drover.path_of_get {d : Drover} {p : Nat} {x : Path} (h : Assoc.get d.paths p = some x) : d.path p = x :=
  congrArg (Option.getD · Path.empty) h

/-- A path with an entry more, of these owners. -/
def Path.joined (x : Path) (owners : List (CommitScope × Owner)) (e : Entry) : Path :=
  { x with entries := x.entries ++ [e], carried := (x.carried ++ owners).dedup }

theorem Drover.put_of_room {d : Drover} {p : Nat} {e : Entry} (hroom : (d.path p).takes e.slots = true) (hbin : d.hasBin p = true)
    (owners : List (CommitScope × Owner)) : d.put p owners e = some (d.setPath p ((d.path p).joined owners e)) := by
  simp only [Drover.put, hroom, hbin, Bool.and_self, if_true, Path.joined]

theorem Drover.path_of_put {d d' : Drover} {p : Nat} {owners : List (CommitScope × Owner)} {e : Entry} (h : d.put p owners e = some d')
    (x : Nat) : d'.path x = if x = p then (d.path x).joined owners e else d.path x := by
  unfold Drover.put at h
  dsimp only at h
  split_ifs at h
  · cases h
    rw [Drover.path_setPath]
    split_ifs with hx
    · rw [hx]; rfl
    · rfl

/-- What joins a path that has room is the only change of every drover's paths. -/
theorem appends_put {die p : Nat} {d : Drover} {owners : List (CommitScope × Owner)} {e : Entry} (hdrovers : t.drovers = s.drovers)
    (hput : (droverOf s die).put p owners e = some d) : Appends s (setDrover t die d) die p owners e := fun n x => by
  rw [pathOf_setDrover, pathOf_congr hdrovers]
  by_cases hn : n = die
  · subst hn
    rw [if_pos rfl, Drover.path_of_put hput]
    simp only [true_and]
    rfl
  · rw [if_neg hn, if_neg fun h => hn h.1]

/-- Changes of one path each, one after another: each path named once is changed once, and the others are as before. -/
theorem Drover.path_foldlM {α : Type} {f : Drover → α → Option Drover} {key : α → Nat} {g : α → Path → Path}
    (hf : ∀ d a d', f d a = some d' → ∀ x, d'.path x = if x = key a then g a (d.path x) else d.path x) :
    ∀ (as : List α) {d d' : Drover}, (as.map key).Nodup → as.foldlM f d = some d' →
      (∀ a ∈ as, d'.path (key a) = g a (d.path (key a))) ∧ ∀ x, x ∉ as.map key → d'.path x = d.path x
  | [], _, _, _, h => by cases h; exact ⟨fun _ ha => absurd ha List.not_mem_nil, fun _ _ => rfl⟩
  | a :: as, d, d', hnodup, h => by
    rw [List.foldlM_cons] at h
    obtain ⟨d1, h1, hrest⟩ := Option.bind_eq_some_iff.mp h
    rw [List.map_cons, List.nodup_cons] at hnodup
    obtain ⟨hnew, hnodup⟩ := hnodup
    obtain ⟨hin, hout⟩ := Drover.path_foldlM hf as hnodup hrest
    have hfirst := hf d a d1 h1
    refine ⟨fun b hb => ?_, fun x hx => ?_⟩
    · rcases List.mem_cons.mp hb with rfl | hb
      · rw [hout _ hnew, hfirst, if_pos rfl]
      · have hne : key b ≠ key a := fun he => hnew (he ▸ List.mem_map_of_mem hb)
        rw [hin b hb, hfirst, if_neg hne]
    · rw [List.map_cons, List.mem_cons, not_or] at hx
      rw [hout x hx.2, hfirst, if_neg hx.1]

theorem Assoc.Ascending.get_of_mem {α : Type} {k : Nat} {v : α} : ∀ {m : Assoc α}, Assoc.Ascending m → (k, v) ∈ m → Assoc.get m k = some v
  | (j, w) :: m, h, hm => by
    rw [Assoc.get]
    rcases List.mem_cons.mp hm with he | hm
    · cases he; exact if_pos rfl
    · have hlt := h.head_lt hm
      dsimp only at hlt
      rw [if_neg (by omega), if_neg (by omega), h.tail.get_of_mem hm]

/-- A path that has taken a marker of an owner. -/
def Path.withMark (x : Path) (o : CommitScope × Owner) (e : Entry) : Path :=
  { x with entries := x.entries ++ [e], mseq := x.mseq + 1, carried := x.carried.dedup.filter (fun z => z != o) }

/-- A marker goes down those of the chosen paths that carried records of its owner. -/
theorem path_of_sendMark {mark : Path → Entry} {o : CommitScope × Owner} {mine : Nat → Bool} {d d' : Drover}
    (hasc : Assoc.Ascending d.paths) (h : sendMark mark o mine d = some d') {x : Nat} {y : Path} (hy : Assoc.get d.paths x = some y) :
    d'.path x = if mine x && y.carried.contains o then y.withMark o (mark y) else y := by
  have hstep : ∀ (d : Drover) (p : Nat × Path) (d' : Drover),
      (d.put p.1 [] (mark p.2)).map (fun d => d.setPath p.1 ((d.path p.1).marked o)) = some d' →
      ∀ x, d'.path x = if x = p.1 then (d.path x).withMark o (mark p.2) else d.path x := by
    intro d p d' h x
    obtain ⟨d1, hput, rfl⟩ := Option.map_eq_some_iff.mp h
    have hpath := Drover.path_of_put hput
    rw [Drover.path_setPath, hpath, hpath, if_pos rfl]
    split_ifs with hx
    · rw [hx, Path.marked, Path.joined, List.append_nil]; rfl
    · rfl
  have hnodup : ((d.paths.filter (fun p => mine p.1 && p.2.carried.contains o)).map (·.1)).Nodup :=
    (hasc.imp fun hlt => Nat.ne_of_lt hlt).sublist (List.filter_sublist.map _)
  obtain ⟨hin, hout⟩ := Drover.path_foldlM (g := fun p x => x.withMark o (mark p.2)) hstep _ hnodup h
  have hpath : d.path x = y := Drover.path_of_get hy
  split_ifs with hmine
  · have := hin (x, y) (List.mem_filter.mpr ⟨Assoc.mem_of_get hy, hmine⟩)
    rwa [hpath] at this
  · rw [hout x, hpath]
    intro hx
    obtain ⟨⟨x', y'⟩, hmem, rfl⟩ := List.mem_map.mp hx
    obtain ⟨hmem, hmine'⟩ := List.mem_filter.mp hmem
    have hsame : y = y' := Option.some.inj (hy.symm.trans (hasc.get_of_mem hmem))
    exact hmine (hsame ▸ hmine')

/-! ### Cores changed one after another -/

theorem foldl_setCore_rest (f : Core → Core) (ns : List Nat) (s : State) :
    { ns.foldl (fun s k => setCore s k (f (coreOf s k))) s with cores := s.cores } = s :=
  List.foldlRecOn (motive := fun t : State => { t with cores := s.cores } = s) _ _ rfl fun _ ht _ _ => ht

theorem coreOf_foldl_setCore (f : Core → Core) (m : Nat) : ∀ (ns : List Nat), ns.Nodup → ∀ s : State,
    coreOf (ns.foldl (fun s k => setCore s k (f (coreOf s k))) s) m = if m ∈ ns then f (coreOf s m) else coreOf s m
  | [], _, _ => rfl
  | n :: ns, hn, s => by
    obtain ⟨hnew, hn⟩ := List.nodup_cons.mp hn
    rw [List.foldl_cons, coreOf_foldl_setCore f m ns hn, coreOf_setCore]
    by_cases hm : m = n
    · subst hm; rw [if_neg hnew, if_pos rfl, if_pos List.mem_cons_self]
    · rw [if_neg hm]; simp only [List.mem_cons, hm, false_or]

/-! ### The charge of records (R299) -/

theorem uncharge_nil (s : State) : uncharge s [] = s := by
  have hblocks (m : Assoc Block) : Assoc.mapVals m (fun _ b => { b with charge := b.charge - 0 }) = m := List.map_id' m
  have hsaved (l : List SavedBlock) : l.map (fun b => { b with charge := b.charge - 0 }) = l := List.map_id' l
  have hcontexts (m : Assoc Context) :
      Assoc.mapVals m (fun _ c => { c with saved := c.saved.map (fun b => { b with charge := b.charge - 0 }) }) = m := by
    simp only [hsaved]
    exact List.map_id' m
  simp only [uncharge, List.filter_nil, List.map_nil, List.foldl_nil, hblocks, hcontexts]

theorem blockOf_uncharge_single (s : State) (r : Rec) (slot : Nat) : blockOf (uncharge s [r]) slot = (blockOf s slot).map (fun b =>
    { b with charge := if r.srcDev = s.device ∧ r.bslot.toNat = slot then b.charge - r.charge else b.charge }) := by
  rw [blockOf, uncharge]
  dsimp only
  rw [Assoc.get_mapVals]
  refine congrArg (Option.map · _) (funext fun b => ?_)
  by_cases hmine : r.srcDev = s.device ∧ r.bslot.toNat = slot
  · obtain ⟨hdev, hslot⟩ := hmine
    simp [hdev, hslot]
  · rw [if_neg hmine, List.filter_cons_of_neg (by simpa using hmine)]
    rfl

end Sys2Proof.Machine
end

section
/-! PROOF. Records, markers, notices and bins on their way (O38). -/

namespace Sys2Proof.Machine

open Sys2Proof

variable {s : State} {id n k die d x slot chan : Nat} {c : Commit} {r : Rec} {b : Block} {l : Launch}

/-! ### From the logs to the drovers (R284, R293) -/

/-- The state in which a commit's marker stands in the logs of its cores, before the lehrs look at it. -/
def markerFormed (s : State) (c : Commit) : State :=
  (markerCores s c).dedup.foldl (fun s m => setCore s m { coreOf s m with log := (coreOf s m).log ++ [.marker c.id] })
    (setCommit s { c with formed := true, coresLeft := (markerCores s c).dedup })

theorem exec_markerForm_forms (hc : commitById s id = some c) (hformed : c.formed = false) (hpast : allPast s c = true)
    (hfirst : ∀ x ∈ s.commits, c.follows x = true → x.formed = true) :
    exec (.markerForm id) s = .next (noteComplete (markerFormed s c)) := by
  have hfollow : s.commits.any (fun x => c.follows x && !x.formed) = false := by
    rw [List.any_eq_false]
    intro x hx
    by_cases hf : c.follows x = true
    · simp [hfirst x hx hf]
    · simp [hf]
  rw [exec_markerForm, execMarkerForm, hc]
  dsimp only
  rw [hformed, hpast, hfollow, ← commitById_id hc]
  rfl

theorem markerFormed_rest (s : State) (c : Commit) : { markerFormed s c with cores := s.cores, commits := s.commits } = s :=
  (congrArg (fun z : State => { z with commits := s.commits })
    (foldl_setCore_rest (fun y => { y with log := y.log ++ [.marker c.id] }) (markerCores s c).dedup _) :)

theorem markerFormed_commits (s : State) (c : Commit) : (markerFormed s c).commits =
    s.commits.map (fun x => if x.id = c.id then { c with formed := true, coresLeft := (markerCores s c).dedup } else x) :=
  (congrArg State.commits (foldl_setCore_rest (fun y => { y with log := y.log ++ [.marker c.id] }) (markerCores s c).dedup _) :)

theorem coreOf_markerFormed (s : State) (c : Commit) (m : Nat) : coreOf (markerFormed s c) m =
    { coreOf s m with log := if m ∈ markerCores s c then (coreOf s m).log ++ [.marker c.id] else (coreOf s m).log } := by
  rw [markerFormed, coreOf_foldl_setCore (fun y => { y with log := y.log ++ [.marker c.id] }) m _ (List.nodup_dedup _), coreOf_congr rfl]
  simp only [List.mem_dedup]
  split_ifs <;> rfl

/-- An entry has left a core's log. -/
def leftLog (s : State) (n k : Nat) : State := setCore s n { coreOf s n with log := (coreOf s n).log.eraseIdx k }

theorem onlyCore_leftLog {t : State} (h : t.cores = (leftLog s n k).cores) :
    OnlyCore s t n { coreOf s n with log := (coreOf s n).log.eraseIdx k } := by
  refine ⟨?_, fun m hm => ?_⟩
  · rw [coreOf_congr h, leftLog, coreOf_setCore, if_pos rfl]
  · rw [coreOf_congr h, leftLog, coreOf_setCore, if_neg hm]

theorem exec_logDrain_record {d' : Drover} (hlog : (coreOf s n).log[k]? = some (.record r false))
    (hfirst : ∀ x ∈ ((coreOf s n).log.take k).flatMap recOfLog, x.sameThread r = false)
    (hbound : boundOn s (n / 4 / 20) r.bslot.toNat = true)
    (hput : (droverOf s (n / 4 / 20)).put (r.path s.device) (ownersOf s r) (.record r) = some d') :
    exec (.logDrain n k) s = .next (setDrover (leftLog s n k) (n / 4 / 20) d') := by
  have hnone : (((coreOf s n).log.take k).flatMap recOfLog).any (fun x => x.sameThread r) = false := by
    rw [List.any_eq_false]
    exact fun x hx => by rw [hfirst x hx]; exact Bool.false_ne_true
  rw [exec_logDrain, execLogDrain]
  simp only [hlog, hnone, hbound, hput, Config.clustersPerDie]
  rfl

/-- A core's log has sent its part of a commit's marker, before the lehrs look at it. -/
def markerSent (s : State) (n k : Nat) (c : Commit) (d : Drover) : State :=
  setDrover (setCommit (leftLog s n k) { c with coresLeft := c.coresLeft.erase n }) (n / 4 / 20) d

theorem exec_logDrain_marker {d' : Drover} (hlog : (coreOf s n).log[k]? = some (.marker id)) (hc : commitById s id = some c)
    (hwaits : markerWaits s c ((coreOf s n).log.take k) = false) (hsend : sendMarker s c (droverOf s (n / 4 / 20)) = some d') :
    exec (.logDrain n k) s = .next (noteComplete (markerSent s n k c d')) := by
  rw [exec_logDrain, execLogDrain]
  simp only [hlog, hc, hwaits, hsend, Config.clustersPerDie]
  rfl

theorem recordsAndMarkersLeaveTheirLogs : Claims.RecordsAndMarkersLeaveTheirLogs := by
  intro s id n k c r d'
  refine ⟨fun hc hformed hpast hfirst => ?form, fun hlog hfirst hbound haccepts => ?record, fun hlog hc hwaits hsend hasc => ?marker⟩
  case form =>
    have hid := commitById_id hc
    refine ⟨_, exec_markerForm_forms hc hformed hpast hfirst, ?_, fun m => ?_, ?_⟩
    · exact (congrArg (fun z : State => { z with cores := s.cores, commits := s.commits, lehrs := s.lehrs })
        (noteComplete_rest (markerFormed s c)) :).trans
          (congrArg (fun z : State => { z with lehrs := s.lehrs }) (markerFormed_rest s c) :)
    · rw [coreOf_congr (noteComplete_cores _), coreOf_markerFormed, hid]
    · rw [noteComplete_commits, markerFormed_commits]
  case record =>
    obtain ⟨hroom, hbin⟩ := haccepts
    have hput := Drover.put_of_room hroom hbin (ownersOf s r)
    exact ⟨_, exec_logDrain_record hlog hfirst hbound hput, rfl, onlyCore_leftLog rfl, appends_put rfl hput⟩
  case marker =>
    refine ⟨_, exec_logDrain_marker hlog hc hwaits hsend, ?_, onlyCore_leftLog (noteComplete_cores _), fun x y hy => ?_, ?_⟩
    · exact (congrArg (fun z : State => { z with cores := s.cores, drovers := s.drovers, commits := s.commits, lehrs := s.lehrs })
        (noteComplete_rest (markerSent s n k c d')) :)
    · rw [pathOf_congr (noteComplete_drovers _), markerSent, pathOf_setDrover, if_pos rfl, path_of_sendMark hasc hsend hy]
      simp only [Bool.and_eq_true, decide_eq_true_eq]
      rfl
    · rw [noteComplete_commits]
      rfl

/-! ### Notices (R283) -/

/-- A notice that goes down every path of a drover changes that drover alone, and each of the paths by one entry. -/
theorem sendNotice_sends {unbind : Bool} {lnum : BitVec 16} (hpaths : (allPaths s).Nodup)
    (hsend : (sendNotice s die slot lnum unbind).isSome = true) :
    ∃ d', sendNotice s die slot lnum unbind = some (setDrover s die d')
      ∧ ∀ x ∈ allPaths s, (d'.path x).entries = (pathOf s die x).entries ++ [.notice (BitVec.ofNat 15 slot) lnum unbind] := by
  obtain ⟨s', hs'⟩ := Option.isSome_iff_exists.mp hsend
  obtain ⟨d', hfold, hset⟩ := Option.map_eq_some_iff.mp hs'
  refine ⟨d', hset ▸ hs', fun p hp => ?_⟩
  have hjoin := (Drover.path_foldlM (key := fun p => p) (g := fun _ x => x.joined [] (.notice (BitVec.ofNat 15 slot) lnum unbind))
    (fun _ _ _ hput => Drover.path_of_put hput) (allPaths s) (by rwa [List.map_id']) hfold).1 p hp
  exact congrArg Path.entries hjoin

theorem notifies_of_sent {t : State} {d' : Drover} {unbind : Bool} {lnum : BitVec 16} (ht : t.drovers = (setDrover s die d').drovers)
    (hsent : ∀ x ∈ allPaths s, (d'.path x).entries = (pathOf s die x).entries ++ [.notice (BitVec.ofNat 15 slot) lnum unbind]) :
    Notifies s t die slot lnum unbind := fun x hx => by
  rw [pathOf_congr ht, pathOf_setDrover, if_pos rfl, hsent x hx]

theorem lnumAt_of_launch (hl : launchOf s n = some l) : lnumAt s n = l.lnum := by rw [lnumAt, hl]; rfl

theorem noticeDue_bind (hb : blockOf s slot = some b) (hl : launchOf s b.launch = some l)
    (hnew : b.bound.contains (b.cluster / 20) = false) :
    noticeDue s (b.cluster / 20) slot false = some (l.lnum, fun s => setBlock s slot { b with bound := b.bound ++ [b.cluster / 20] }) := by
  have hbinds : bindsOn s (b.cluster / 20) slot = true := by
    simp [bindsOn, hb, Config.clustersPerDie]
  simp only [noticeDue, hb, hbinds, hnew, lnumAt_of_launch hl]
  rfl

theorem noticeDue_unbind (hb : blockOf s slot = some b) (hl : launchOf s b.launch = some l) (hphase : b.phase = .retired)
    (hclean : slotRecs s slot = []) (hbound : b.bound = [die]) :
    noticeDue s die slot true = some (l.lnum, fun s => { s with blocks := Assoc.erase s.blocks slot }) := by
  simp [noticeDue, hb, hphase, hclean, hbound, lnumAt_of_launch hl]

theorem exec_slotBindingNotice_sends {unbind : Bool} {lnum : BitVec 16} {sent : State → State} {s' : State}
    (hdue : noticeDue s die slot unbind = some (lnum, sent)) (hsend : sendNotice s die slot lnum unbind = some s') :
    exec (.slotBindingNotice die slot unbind) s = .next (sent s') := by
  rw [exec_slotBindingNotice, execSlotBindingNotice, hdue]
  dsimp only
  rw [hsend]

theorem slotsAreBoundAndUnbound : Claims.SlotsAreBoundAndUnbound := by
  intro s slot b l hb hl hpaths
  refine ⟨fun hnew hsend => ?bind, fun hphase hclean hbound hsend => ?unbind⟩
  case bind =>
    obtain ⟨d', hd', hsent⟩ := sendNotice_sends hpaths hsend
    refine ⟨_, exec_slotBindingNotice_sends (noticeDue_bind hb hl hnew) hd', rfl, fun j => ?_, notifies_of_sent rfl hsent⟩
    exact blockOf_setBlock ..
  case unbind =>
    obtain ⟨d', hd', hsent⟩ := sendNotice_sends hpaths hsend
    exact ⟨_, exec_slotBindingNotice_sends (noticeDue_unbind hb hl hphase hclean hbound) hd', rfl, rfl, notifies_of_sent rfl hsent⟩

/-! ### Bins that ship (R287 to R289) -/

/-- A path's entries have left in a bin, whose merged entries are these. -/
def binShipped (s : State) (d x : Nat) (es : List Entry) : State :=
  let p := pathOf s d x
  let y := (droverOf s d).setPath x { p with entries := [], bseq := p.bseq + 1 }
  setDrover s d { y with inFlight := y.inFlight ++ [⟨x, d, pathSrc s x, p.bseq, es⟩] }

theorem exec_binShip_ships (hfull : (pathOf s d x).entries.any Entry.isMarker = true ∨ 252 ≤ slotsOf (pathOf s d x).entries + 1) :
    exec (.binShip d x) s = .next (uncharge (binShipped s d x (mergeBin s (pathOf s d x).entries).1)
      (mergeBin s (pathOf s d x).entries).2) := by
  have hships : ((droverOf s d).path x).ships = true := by
    rw [Path.ships, Bool.or_eq_true, decide_eq_true_eq]; exact hfull
  rw [exec_binShip, execBinShip]
  simp only [hships]
  rfl

theorem pathOf_binShipped (s : State) (d x : Nat) (es : List Entry) (y : Nat) : pathOf (binShipped s d x es) d y =
    if y = x then { pathOf s d x with entries := [], bseq := (pathOf s d x).bseq + 1 } else pathOf s d y := by
  rw [binShipped, pathOf_setDrover, if_pos rfl]
  exact Drover.path_setPath ..

/-! ### Bins from other devices (R288) -/

/-- A route bin with one short record for a die of this device. -/
theorem exec_remoteRebin_record {src : Nat} {w : BitVec 128} {d' : Drover} (hd : d < 4) (hsrc : src < 1024) (hdev : src ≠ s.device.toNat)
    (hnotice : w.extractLsb' 48 4 ≠ 0xE#4) (hmarker : w.extractLsb' 48 4 ≠ 0xF#4) (hshort : w.getLsbD 42 = false)
    (hr : r = recOfBits s.device (BitVec.ofNat 10 src) (lnumOf s (BitVec.ofNat 10 src) (w.extractLsb' 68 15)) w 0)
    (hdie : onDie d r.paddr.toNat = true)
    (hput : (droverOf s d).put (foreignPath (BitVec.ofNat 10 src) (chanOf r.paddr.toNat)) (foreignOwners r) (.record r) = some d') :
    exec (.remoteRebin d ⟨src, [w]⟩) s = .next (setDrover s d d') := by
  have hok : ¬(Config.numDies ≤ d ∨ Config.numDevices ≤ src ∨ src = s.device.toNat) := by
    rw [Config.numDies, Config.numDevices]; omega
  have hrec : rebinRec d (BitVec.ofNat 10 src) r s = some (setDrover s d d') := by rw [rebinRec, if_pos hdie, hput]; rfl
  have hbin : rebin d (BitVec.ofNat 10 src) [w] s = some (setDrover s d d') := by
    rw [rebin]
    dsimp only
    rw [if_neg hnotice, if_neg hmarker, hshort, if_neg Bool.false_ne_true, ← hr, hrec, Option.bind_some, rebin]
  rw [exec_remoteRebin, execRemoteRebin, if_neg hok, hbin]
  rfl

/-! ### Staging (R281, R290) -/

theorem foldl_reportRec_rest (rs : List Rec) (s : State) : { rs.foldl reportRec s with service := s.service } = s :=
  List.foldlRecOn (motive := fun t : State => { t with service := s.service } = s) _ _ rfl fun t ht r _ => by
    unfold reportRec
    split_ifs
    · exact ht
    · exact ht

/-- Every lawless record is one event. -/
theorem foldl_reportRec_eventsTotal : ∀ (rs : List Rec) (s : State), (∀ r ∈ rs, r.legal = false) →
    (rs.foldl reportRec s).service.eventsTotal = s.service.eventsTotal + rs.length
  | [], _, _ => rfl
  | r :: rs, s, h => by
    have hone : (reportRec s r).service.eventsTotal = s.service.eventsTotal + 1 := by
      rw [reportRec, h r List.mem_cons_self]
      rfl
    rw [List.foldl_cons, foldl_reportRec_eventsTotal rs _ fun x hx => h x (List.mem_cons_of_mem _ hx), hone, List.length_cons]
    omega

/-- The records of a bin that no lehr applies. -/
def Bin.lawless (z : Bin) : List Rec := (z.entries.flatMap recOfEntry).filter (fun r => !r.legal)

/-- An entry that is staged where its bin arrives: a notice ends there, and a lawless record is dropped. -/
def Entry.staged : Entry → Bool
  | .notice _ _ _ => false
  | e => (recOfEntry e).all Rec.legal

theorem arrived_legal (z : Bin) : z.arrived.filter (fun e => (recOfEntry e).all Rec.legal) = z.entries.filter Entry.staged := by
  rw [Bin.arrived, List.filter_filter]
  refine List.filter_congr fun e _ => ?_
  cases e with
  | notice => exact Bool.and_false _
  | record => exact Bool.and_true _
  | marker => exact Bool.and_true _
  | foreign => exact Bool.and_true _

/-- A bin has left its drover, and its entries are staged. -/
def binStaged (s : State) (chan stack die : Nat) (z : Bin) : State :=
  { takeBin s die z with
    staging := Assoc.set s.staging chan (Assoc.getD s.staging chan [] ++ (z.entries.filter Entry.staged).map (fun e => ⟨e, stack, die, z.srcDev⟩)) }

theorem stageBin_eq (s : State) (chan stack die : Nat) (z : Bin) :
    stageBin chan stack die z s = noteComplete (uncharge (z.lawless.foldl reportRec (binStaged s chan stack die z)) z.lawless) := by
  rw [binStaged, ← arrived_legal]; rfl

theorem exec_binStage_stages {z : Bin} (hchan : chan < 384)
    (hz : (arriving s (fun p => pathChan p == some chan))[k]? = some (die, z))
    (hroom : stackUse s (chan / 32) + 16 * slotsOf z.entries ≤ regionBytes s) :
    exec (.binStage chan k (chan / 32)) s = .next (stageBin chan (chan / 32) die z s) := by
  rw [exec_binStage, execBinStage, if_neg (by omega), hz]
  simp only [stackOf, if_true, hroom, decide_true]

theorem stageBin_drovers (s : State) (chan stack die : Nat) (z : Bin) :
    (stageBin chan stack die z s).drovers = (takeBin s die z).drovers := by
  rw [stageBin_eq, noteComplete_drovers]
  exact (congrArg State.drovers (foldl_reportRec_rest z.lawless (binStaged s chan stack die z)) :)

theorem stageBin_staging (s : State) (chan stack die : Nat) (z : Bin) :
    (stageBin chan stack die z s).staging = (binStaged s chan stack die z).staging := by
  rw [stageBin_eq, noteComplete_staging]
  exact (congrArg State.staging (foldl_reportRec_rest z.lawless (binStaged s chan stack die z)) :)

theorem stageBin_eventsTotal (s : State) (chan stack die : Nat) (z : Bin) :
    (stageBin chan stack die z s).service.eventsTotal = s.service.eventsTotal + z.lawless.length := by
  rw [stageBin_eq, noteComplete_service]
  refine foldl_reportRec_eventsTotal _ (binStaged s chan stack die z) fun r hr => ?_
  simpa using (List.mem_filter.mp hr).2

theorem stageBin_lawful_rest {z : Bin} (h : z.lawless = []) (s : State) (chan stack die : Nat) :
    { stageBin chan stack die z s with drovers := s.drovers, staging := s.staging, lehrs := s.lehrs } = s := by
  rw [stageBin_eq, h, uncharge_nil]
  exact (congrArg (fun t : State => { t with drovers := s.drovers, staging := s.staging, lehrs := s.lehrs })
    (noteComplete_rest (binStaged s chan stack die z)) :)

theorem binsTravel : Claims.BinsTravel := by
  intro s d x chan k die z p
  refine ⟨fun hfull => ?ship, fun src w hd hsrc hdev hnotice hmarker hshort hdie haccepts => ?rebin,
    fun hchan hz hroom => ?stage⟩
  case ship =>
    refine ⟨_, (mergeBin s p.entries).1, (mergeBin s p.entries).2, exec_binShip_ships hfull, rfl, rfl, fun hgone => ?_, fun y => ?_, ?_⟩
    · rw [hgone, uncharge_nil]
      exact ⟨rfl, rfl⟩
    · exact (pathOf_congr rfl d y).trans (pathOf_binShipped ..)
    · exact congrArg Drover.inFlight (((droverOf_congr rfl d).trans (droverOf_setDrover s d d _)).trans (if_pos rfl))
  case rebin =>
    obtain ⟨hroom, hbin⟩ := haccepts
    have hput := Drover.put_of_room hroom hbin
    exact ⟨_, exec_remoteRebin_record hd hsrc hdev hnotice hmarker hshort rfl hdie (hput _), rfl, appends_put rfl (hput _)⟩
  case stage =>
    refine ⟨_, exec_binStage_stages hchan hz hroom, fun hnone => stageBin_lawful_rest hnone .., stageBin_eventsTotal .., ?_, fun j => ?_⟩
    · rw [droverOf_congr (stageBin_drovers ..), takeBin, droverOf_setDrover, if_pos rfl]
    · rw [stageBin_staging]
      exact Assoc.getD_set ..

end Sys2Proof.Machine

open Sys2Proof Sys2Proof.Machine in
/-- Settles O38: what leaves a log or arrives joins paths entry by entry (`appends_put`, `path_of_sendMark`, `sendNotice_sends`), and a
bin's entries move on whole, but for the lawless records of a bin that is staged. -/
theorem recordsTravel : Obligations.RecordsTravel :=
  ⟨recordsAndMarkersLeaveTheirLogs, slotsAreBoundAndUnbound, binsTravel⟩
end

section
/-! PROOF. Markers applied and commits completed (O39). -/

namespace Sys2Proof.Machine

open Sys2Proof

variable {s t : State} {id n chan st st' die slot : Nat} {c : Commit} {r : Rec} {src : BitVec 10} {bits : BitVec 128} {tid : ThreadId}
  {b : Block} {u : Thread}

/-! ### One record applied (R291, R296) -/

/-- What a record leaves in the bytes that it acts on (R296). -/
def Rec.result (r : Rec) (old : Nat) : Nat :=
  if r.opc = 0 then r.val
  else if r.opc = 7 then (agedAdd (BitVec.ofNat 64 old) r.value (r.valhi.extractLsb' 0 16) r.decay.toNat).toNat
  else (atomicOp (opOfOpc r.opc) (tyOfCode r.ty) (8 * r.size) old r.val).1

theorem foldRec_dram (s : State) (r : Rec) :
    (foldRec s r).dram = s.dram.writeNat r.addr r.size (r.result (s.dram.readNat r.addr r.size)) := rfl

theorem foldOrder_single (s : State) (r : Rec) : foldOrder s [r] = [r] := by
  unfold foldOrder
  cases h : r.sorts s [r] <;> simp [h, sortRecs, issueOrder, insertRec, insertIssued]

/-- A fold of one record applies it once. -/
theorem applyRecs_single (s : State) (r : Rec) : applyRecs s [r] = applyRec s r := by
  unfold applyRecs
  rw [foldOrder_single]
  simp [NatSet.add]

theorem applyRecs_nil (s : State) : applyRecs s [] = s := rfl

theorem expandFor_of_plain (h : cmpPageOf s r.home.toNat r.paddr.toNat = none) : expandFor s r = s := by
  unfold expandFor
  rw [h, ite_self]

/-- A lawful record of a page that is not compressed: it acts on its bytes, and its charge is taken away. -/
theorem applyAll_single (hlegal : r.legal = true)
    (hplain : cmpPageOf (countRec (foldRec s r) r) r.home.toNat r.paddr.toNat = none) :
    applyAll s [r] = uncharge (countRec (foldRec s r) r) [r] := by
  have happly : applyRecs s [r] = countRec (foldRec s r) r := by rw [applyRecs_single, applyRec, if_pos hlegal]
  rw [applyAll, happly, List.foldl_cons, List.foldl_nil, expandFor_of_plain hplain]

theorem applyAll_nil (s : State) : applyAll s [] = s := by
  rw [applyAll, applyRecs_nil, List.foldl_nil, uncharge_nil]

/-! ### A marker and a record that it covers (R291) -/

theorem partOf_marker (s : State) (id : Nat) (src : BitVec 10) (bits : BitVec 128) : partOf s (.own id) src (.marker id bits) = true := by
  rw [partOf, markOf]; exact beq_self_eq_true _

/-- A record with a part of a marker that covers it behind it: the record is taken out, and nothing stays. -/
theorem splitStaged_covered (hc : commitById s id = some c) (hcovers : covers s c r = true) :
    splitStaged s (.own id) [⟨.record r, st, die, src⟩, ⟨.marker id bits, st', die, src⟩] = ([r], []) := by
  have hcovering : Entry.covering s r (.marker id bits) = true := by rw [Entry.covering, hc]; exact hcovers
  have hpart := partOf_marker s id src bits
  simp [splitStaged, hpart, hcovering]

theorem nextMark_staged (hstaged : Assoc.get s.staging chan = some [⟨.record r, st, die, src⟩, ⟨.marker id bits, st', die, src⟩])
    (hmarks : Assoc.getD s.lehrs chan [] = [.own id]) (hfirst : earlierPending s (.own id) chan = false) :
    nextMark s chan = some (.own id) := by
  have hmark : stagedMark s (.own id) chan = true := by
    rw [stagedMark, Assoc.getD, hstaged]
    simp [partOf_marker]
  rw [nextMark, hmarks, List.find?_cons_of_pos (by rw [hmark, hfirst]; rfl)]

/-- A channel has nothing staged any more, and its lehr no marker. -/
def channelCleared (s : State) (chan : Nat) : State := { s with
  staging := Assoc.set s.staging chan []
  lehrs := Assoc.set s.lehrs chan [] }

theorem exec_markerApply_single (hc : commitById s id = some c)
    (hstaged : Assoc.get s.staging chan = some [⟨.record r, st, die, src⟩, ⟨.marker id bits, st', die, src⟩])
    (hmarks : Assoc.getD s.lehrs chan [] = [.own id]) (hfirst : earlierPending s (.own id) chan = false)
    (hcovers : covers s c r = true) : exec (.markerApply id chan) s = .next (applyAll (channelCleared s chan) [r]) := by
  have hnamed : LehrMark.named s id (.own id) = true := beq_self_eq_true id
  have hlist : Assoc.getD s.staging chan [] = [⟨.record r, st, die, src⟩, ⟨.marker id bits, st', die, src⟩] := by rw [Assoc.getD, hstaged]; rfl
  have happly : applyMark s chan (.own id) = applyAll (channelCleared s chan) [r] := by
    simp [applyMark, hlist, splitStaged_covered hc hcovers, hmarks, channelCleared]
  rw [exec_markerApply, execMarkerApply, nextMark_staged hstaged hmarks hfirst]
  dsimp only
  rw [if_pos hnamed, happly]

/-- A record that its marker covers acts on its bytes, and no other byte changes. -/
theorem markerApply_applies (hwf : memoryWf s) (hc : commitById s id = some c)
    (hstaged : Assoc.get s.staging chan = some [⟨.record r, st, die, src⟩, ⟨.marker id bits, st', die, src⟩])
    (hmarks : Assoc.getD s.lehrs chan [] = [.own id]) (hfirst : earlierPending s (.own id) chan = false)
    (hcovers : covers s c r = true) (hlegal : r.legal = true)
    (hplain : ∀ t' : State, t'.contexts = s.contexts → t'.device = s.device →
      t'.dram = s.dram ∨ t'.dram = s.dram.writeNat r.addr r.size (r.result (s.dram.readNat r.addr r.size)) →
      cmpPageOf t' r.home.toNat r.paddr.toNat = none) :
    ∃ t, exec (.markerApply id chan) s = .next t
      ∧ MemoryBecomes s { t with
          staging := s.staging, lehrs := s.lehrs, blocks := s.blocks, contexts := s.contexts
          fabric := { t.fabric with buckets := s.fabric.buckets } }
            (withNat (r.result (s.dram.readNat r.addr r.size)) r.size r.addr s.dram.read)
      ∧ Assoc.getD t.staging chan [] = [] ∧ Assoc.getD t.lehrs chan [] = []
      ∧ ∀ slot b, blockOf s slot = some b → ∃ b', blockOf t slot = some b' ∧ { b' with charge := b.charge } = b
          ∧ b'.charge = if r.srcDev = s.device ∧ r.bslot.toNat = slot then b.charge - r.charge else b.charge := by
  have happly := applyAll_single (s := channelCleared s chan) hlegal (hplain _ rfl rfl (.inr (foldRec_dram (channelCleared s chan) r)))
  refine ⟨_, (exec_markerApply_single hc hstaged hmarks hfirst hcovers).trans (congrArg _ happly), ⟨fun k => ?_, rfl⟩, ?_, ?_, fun slot b hb => ?_⟩
  · exact congrFun (read_writeBytes_leBytes hwf.1 ..) k
  · exact (Assoc.getD_set ..).trans (if_pos rfl)
  · exact (Assoc.getD_set ..).trans (if_pos rfl)
  · refine ⟨_, (blockOf_uncharge_single ..).trans (congrArg (Option.map _) ((blockOf_congr rfl slot).trans hb)), rfl, rfl⟩

/-! ### Tokens that land (R26) -/

theorem landToken_commit_tokens (now : Nat) (u : Thread) (id : Nat) (w : Word) :
    ∀ k ∈ (landToken now u (.commit id) w).tokens, (k.of == .commit id) = false := by
  have hfold : ∀ (ks : List Token) (u : Thread) (k : Token),
      k ∈ (ks.foldl (fun t k => wrV now { t with tokens := t.tokens.filter (fun x => x != k) } k.reg w 0) u).tokens →
        k ∈ u.tokens ∧ k ∉ ks := by
    intro ks
    induction ks with
    | nil => exact fun u k hk => ⟨hk, List.not_mem_nil⟩
    | cons a ks ih =>
      intro u k hk
      obtain ⟨hmem, hnot⟩ := ih _ k hk
      obtain ⟨hmem, hne⟩ := List.mem_filter.mp hmem
      exact ⟨hmem, fun h => (List.mem_cons.mp h).elim (fun he => by simp [he] at hne) hnot⟩
  intro k hk
  obtain ⟨hmem, hnot⟩ := hfold _ u k hk
  exact Bool.eq_false_iff.mpr fun h => hnot (List.mem_filter.mpr ⟨hmem, h⟩)

/-- A commit's tokens land once. -/
theorem landToken_commit_twice (now : Nat) (u : Thread) (id : Nat) (w : Word) :
    landToken now (landToken now u (.commit id) w) (.commit id) w = landToken now u (.commit id) w := by
  have hnone : (landToken now u (.commit id) w).tokens.filter (fun k => k.of == .commit id) = [] :=
    List.filter_eq_nil_iff.mpr fun k hk => by rw [landToken_commit_tokens now u id w k hk]; exact Bool.false_ne_true
  rw [landToken, hnone, List.foldl_nil]

/-! ### The tokens of a commit (R306) -/

/-- A thread after its tokens of a commit have landed. -/
def landedFor (now : Nat) (c : Commit) (u : Thread) : Thread := landToken now u (.commit c.id) (statusWord 0 0x9 c.code)

/-- Each block's own state is as it was; its threads may differ. -/
def BlocksKept (s t : State) : Prop :=
  ∀ slot b, blockOf s slot = some b → ∃ b', blockOf t slot = some b' ∧ { b' with threads := b.threads } = b

theorem coreIdOf_of_threads {b b' : Block} (h : { b' with threads := b.threads } = b) (tid : ThreadId) : coreIdOf b' tid = coreIdOf b tid :=
  (congrArg (coreIdOf · tid) h :)

theorem blocksKept_modThread (s : State) (tid : ThreadId) (f : Thread → Thread) : BlocksKept s (modThread s tid f) := fun slot b hb => by
  rw [modThread, blockOf_modBlock, hb]
  split_ifs
  · exact ⟨_, rfl, rfl⟩
  · exact ⟨b, rfl, rfl⟩

theorem landFor_rest (s : State) (c : Commit) (tid : ThreadId) :
    { landFor s c tid with blocks := s.blocks, cores := s.cores } = s := by
  have hmod : { modThread s tid (landedFor s.cycle c) with blocks := s.blocks } = s := modBlock_rest ..
  unfold landFor
  dsimp only
  split
  · exact (congrArg (fun z : State => { z with cores := s.cores }) hmod :)
  · exact (congrArg (fun z : State => { z with cores := s.cores }) hmod :)

theorem landFor_blocks (s : State) (c : Commit) (tid : ThreadId) :
    (landFor s c tid).blocks = (modThread s tid (landedFor s.cycle c)).blocks := by
  unfold landFor
  dsimp only
  split <;> rfl

theorem blocksKept_landFor (s : State) (c : Commit) (tid : ThreadId) : BlocksKept s (landFor s c tid) := fun slot b hb => by
  rw [blockOf_congr (landFor_blocks s c tid)]
  exact blocksKept_modThread s tid _ slot b hb

theorem threadOf_landFor (s : State) (c : Commit) (a tid : ThreadId) :
    threadOf (landFor s c a) tid = if tid = a then (threadOf s tid).map (landedFor s.cycle c) else threadOf s tid := by
  rw [threadOf_congr (landFor_blocks s c a), threadOf_modThread]

/-- A core holds only exclusive copies, as after an acquire (R312). -/
def OnlyExclusive (s : State) (n : Nat) : Prop := ∀ l ∈ (coreOf s n).l1, l.excl = true

theorem OnlyExclusive.congr (h : OnlyExclusive s n) (hcores : t.cores = s.cores) : OnlyExclusive t n := by
  rw [OnlyExclusive, coreOf_congr hcores]; exact h

theorem onlyExclusive_l1Acquire_self (s : State) (n : Nat) : OnlyExclusive (l1Acquire s n) n := fun l hl => by
  rw [l1Acquire, coreOf_setCore, if_pos rfl] at hl
  exact (List.mem_filter.mp hl).2

theorem OnlyExclusive.l1Acquire (h : OnlyExclusive s n) (m : Nat) : OnlyExclusive (l1Acquire s m) n := by
  by_cases hn : n = m
  · rw [hn]; exact onlyExclusive_l1Acquire_self s m
  · rw [OnlyExclusive, Machine.l1Acquire, coreOf_setCore, if_neg hn]; exact h

theorem OnlyExclusive.landFor (h : OnlyExclusive s n) (c : Commit) (tid : ThreadId) : OnlyExclusive (landFor s c tid) n := by
  have hmod : OnlyExclusive (modThread s tid (landedFor s.cycle c)) n := h.congr (modThread_cores ..)
  unfold Machine.landFor
  dsimp only
  split
  · exact hmod
  · exact hmod.l1Acquire _

theorem landFor_of_block (c : Commit) (hb : blockOf s tid.slot = some b) :
    landFor s c tid = l1Acquire (modThread s tid (landedFor s.cycle c)) (coreIdOf b tid) := by
  obtain ⟨b', hb', hthreads⟩ := blocksKept_modThread s tid (fun t => landToken s.cycle t (.commit c.id) (statusWord 0 0x9 c.code)) _ _ hb
  unfold landFor
  simp only [hb']
  exact congrArg (l1Acquire _) (coreIdOf_of_threads hthreads tid)

theorem onlyExclusive_landFor_self (c : Commit) (hb : blockOf s tid.slot = some b) : OnlyExclusive (landFor s c tid) (coreIdOf b tid) := by
  rw [landFor_of_block c hb]
  exact onlyExclusive_l1Acquire_self _ _

/-- The tokens of some threads land one after another. -/
def landAll (c : Commit) (s : State) (xs : List (ThreadId × VReg)) : State := xs.foldl (fun s x => landFor s c x.1) s

theorem landAll_cons (c : Commit) (s : State) (x : ThreadId × VReg) (xs : List (ThreadId × VReg)) :
    landAll c s (x :: xs) = landAll c (landFor s c x.1) xs := rfl

theorem landAll_rest (c : Commit) : ∀ (xs : List (ThreadId × VReg)) (s : State),
    { landAll c s xs with blocks := s.blocks, cores := s.cores } = s
  | [], _ => rfl
  | x :: xs, s =>
    (congrArg (fun z : State => { z with blocks := s.blocks, cores := s.cores }) (landAll_rest c xs (landFor s c x.1)) :).trans
      (landFor_rest s c x.1)

theorem threadOf_landAll (c : Commit) (tid : ThreadId) : ∀ (xs : List (ThreadId × VReg)) (s : State), threadOf (landAll c s xs) tid =
    if xs.any (fun x => x.1 == tid) then (threadOf s tid).map (landedFor s.cycle c) else threadOf s tid
  | [], _ => rfl
  | x :: xs, s => by
    have hcycle : (landFor s c x.1).cycle = s.cycle := (congrArg State.cycle (landFor_rest s c x.1) :)
    have htwice : landedFor s.cycle c ∘ landedFor s.cycle c = landedFor s.cycle c := funext fun u => landToken_commit_twice ..
    rw [landAll_cons, threadOf_landAll c tid xs, threadOf_landFor, hcycle, List.any_cons]
    by_cases hx : x.1 = tid
    · rw [if_pos hx.symm, beq_iff_eq.mpr hx, Bool.true_or, if_pos rfl, Option.map_map, htwice, ite_self]
    · have hne : ¬tid = x.1 := fun h => hx h.symm
      rw [if_neg hne, beq_eq_false_iff_ne.mpr hx, Bool.false_or]

theorem OnlyExclusive.landAll (c : Commit) : ∀ (xs : List (ThreadId × VReg)) {s : State}, OnlyExclusive s n → OnlyExclusive (landAll c s xs) n
  | [], _, h => h
  | x :: xs, _, h => by
    rw [landAll_cons]
    exact OnlyExclusive.landAll c xs (h.landFor c x.1)

/-- The core of every thread whose tokens land has acquired. -/
theorem onlyExclusive_landAll_of_mem (c : Commit) {xs : List (ThreadId × VReg)} {x : ThreadId × VReg} (hx : x ∈ xs)
    (hb : blockOf s x.1.slot = some b) : OnlyExclusive (landAll c s xs) (coreIdOf b x.1) := by
  induction xs generalizing s b with
  | nil => exact absurd hx List.not_mem_nil
  | cons y ys ih =>
    rw [landAll_cons]
    rcases List.mem_cons.mp hx with rfl | hx
    · exact OnlyExclusive.landAll c ys (onlyExclusive_landFor_self c hb)
    · obtain ⟨b', hb', hthreads⟩ := blocksKept_landFor s c y.1 _ _ hb
      rw [← coreIdOf_of_threads hthreads]
      exact ih hx hb'

/-! ### The end of a commit (R293, R294) -/

theorem countGroup_rest (s : State) (c : Commit) : { countGroup s c with fabric := s.fabric } = s := by
  unfold countGroup
  split
  · split <;> rfl
  · rfl

theorem groups_countGroup {g : Nat} {p : PodGroup} (howner : c.owner = .group g) (hp : Assoc.get s.fabric.groups g = some p) :
    Assoc.get (countGroup s c).fabric.groups g = some { p with commits := p.commits + 1 } := by
  unfold countGroup
  rw [howner]
  dsimp only
  rw [hp]
  exact Assoc.get_set_self ..

theorem applyAbroad_of_none (habroad : s.abroad = []) (c : Commit) : applyAbroad s c = s := by
  have hsame : { s with abroad := [] } = s := by rw [← habroad]
  unfold applyAbroad
  rw [habroad]
  exact (applyAll_nil _).trans hsame

/-- A commit's tokens have landed and its group has counted it; it is listed still. -/
def commitLanded (s : State) (c : Commit) : State := countGroup (landAll c s c.tokens) c

theorem commitLanded_rest (s : State) (c : Commit) :
    { commitLanded s c with blocks := s.blocks, cores := s.cores, fabric := s.fabric } = s :=
  (congrArg (fun z : State => { z with blocks := s.blocks, cores := s.cores, fabric := s.fabric })
    (countGroup_rest (landAll c s c.tokens) c) :).trans
      (congrArg (fun z : State => { z with fabric := s.fabric }) (landAll_rest c c.tokens s) :)

theorem exec_commitComplete_ends (hc : commitById s id = some c) (hleft : c.coresLeft = []) (hformed : c.formed = true)
    (hmarks : marksLeft s id = false) (habroad : s.abroad = []) : exec (.commitComplete id) s =
      .next { commitLanded s c with commits := (commitLanded s c).commits.filter (fun x => x.id != id) } := by
  rw [exec_commitComplete, execCommitComplete, hc]
  dsimp only
  rw [hformed, hleft, hmarks, applyAbroad_of_none habroad]
  rfl

end Sys2Proof.Machine

open Sys2Proof Sys2Proof.Machine in
/-- Settles O39: the marker takes its one record out of the channel (`splitStaged_covered`) and the record acts on its bytes once
(`applyAll_single`); at the commit's end its tokens land thread by thread, each with an acquire (`threadOf_landAll`,
`onlyExclusive_landAll_of_mem`). -/
theorem commitsApplyTheirRecords : Obligations.CommitsApplyTheirRecords := by
  intro s id chan c r st st' die src bits hc hleft hwf
  refine ⟨fun hstaged hmarks hfirst hcovers hlegal hplain => ?apply, fun hformed hmarks habroad => ?complete⟩
  case apply => exact markerApply_applies hwf hc hstaged hmarks hfirst hcovers hlegal hplain
  case complete =>
    have hrest := commitLanded_rest s c
    have hcounted := countGroup_rest (landAll c s c.tokens) c
    have hblocks : (commitLanded s c).blocks = (landAll c s c.tokens).blocks := (congrArg State.blocks hcounted :)
    have hcores : (commitLanded s c).cores = (landAll c s c.tokens).cores := (congrArg State.cores hcounted :)
    refine ⟨_, exec_commitComplete_ends hc hleft hformed hmarks habroad, ?_, ?_, fun tid u hu => ?_, fun x hx b hb => ?_,
      fun g p howner hp => groups_countGroup howner ?_⟩
    · exact congrArg (fun z : State => z.commits.filter (fun x => x.id != id)) hrest
    · exact (congrArg (fun z : State => { z with commits := s.commits }) hrest :)
    · refine ((threadOf_congr hblocks tid).trans (threadOf_landAll c tid c.tokens s)).trans ?_
      rw [hu]
      rfl
    · exact (onlyExclusive_landAll_of_mem c hx hb).congr hcores
    · rw [(congrArg State.fabric (landAll_rest c c.tokens s) :)]
      exact hp
end

section
/-! PROOF. Packets fetched (O40): a queue of 2^63 slots or more may be full, which its counts do not tell from WR below RD. -/

namespace Sys2Proof.Machine

open Sys2Proof

/-- A WR half the numbers of 64 bits or more ahead of RD counts as below it, and fetches nothing (log 107). -/
theorem packetFetch_behind {s : State} {n : Nat} {q : LaunchQueue} (argObj : BitVec 24) (hq : Assoc.get s.launchQs n = some q)
    (hbehind : 2 ^ 63 ≤ (readDevNat s q.addr 8 + 2 ^ 64 - readDevNat s (q.addr + 8) 8) % 2 ^ 64) :
    exec (.packetFetch n argObj) s = .next s := by
  rw [exec_packetFetch, execPacketFetch, hq]
  dsimp only
  rw [if_pos hbehind, ite_self]

/-- A queue of 2^63 slots at address 0. R338 registers none with more than 2^16; a `LaunchQueue` may have any LOGN. -/
def vastQueue : LaunchQueue := ⟨0, 0, 63, 0, 0, 0, 0, false⟩

/-- The machine at reset with that queue full: WR is 2^63 and RD 0, and the packet at RD is all zero, which is BADPKT. -/
def sVast : State := { State.reset with dram := Memory.writeNat [] 0 8 (2 ^ 63), launchQs := [(0, vastQueue)] }

theorem memoryWf_sVast : memoryWf sVast :=
  ⟨Memory.writeNat_wf rfl .., rfl, fun _ h => (nomatch h), fun _ h => (nomatch h), fun _ h => (nomatch h)⟩

theorem ahead_sVast : (readDevNat sVast vastQueue.addr 8 + 2 ^ 64 - readDevNat sVast (vastQueue.addr + 8) 8) % 2 ^ 64 = 2 ^ 63 := by
  decide

theorem firstBad_sVast : (firstBad sVast 0 (bytesWords (readDev sVast 64 128))).isSome = true := by decide +kernel

end Sys2Proof.Machine

open Sys2Proof Sys2Proof.Machine in
/-- Refutes O40: it puts no bound on LOGN, and where 2^LOGN is 2^63 or more, a full queue holds packets that PACKET_FETCH does not
take: its WR, 2^63 above RD, counts as below it (`packetFetch_behind`), so that the failed packet at RD of `sVast` never leaves its
slot, and the launches are as before. -/
theorem not_packetsAreFetchedAndStarted : ¬ Obligations.PacketsAreFetchedAndStarted := by
  intro h
  obtain ⟨hfetch, -⟩ := h sVast 0 0 0 0 vastQueue (Launch.fetched 0 0 0 [] none 0) memoryWf_sVast rfl
  have hahead := ahead_sVast
  have hstays : exec (.packetFetch 0 0) sVast = .next sVast := packetFetch_behind (q := vastQueue) 0 rfl hahead.ge
  obtain ⟨hfailed, -⟩ := (hfetch rfl).2 (hahead ▸ by decide) (hahead ▸ Nat.le_refl _) (by decide)
  obtain ⟨t, ht, -, -, hnext, -⟩ := hfailed (.inr firstBad_sVast)
  obtain rfl : sVast = t := Host.Outcome.next.inj (hstays.symm.trans ht)
  exact absurd hnext (Nat.succ_ne_self _).symm
end

section
/-! SUPPORT. Requests of the firmware mailbox: what is answered, and what a request that its function may make does (R404). -/

namespace Sys2Proof.Machine

open Sys2Proof

variable {s t s' z : State} {r : Req} {i : Instr} {w : Word}

/-! ### Answers -/

theorem boxOf_answer (s : State) (r : Req) (code : BitVec 8) (w : Word) :
    boxOf (answer s r code w) r.fn = (boxOf s r.fn).answer (response r code w []) :=
  (Assoc.getD_set ..).trans (if_pos rfl)

/-- A request is answered in a state whose mailboxes and messages are those of the request; the rest may have changed by then. -/
theorem answered_answer (hboxes : t.service.mailboxes = s.service.mailboxes) (hmsix : t.service.msix = s.service.msix)
    (code : Nat) (w : Word) : Answered s (answer t r (BitVec.ofNat 8 code) w) r code w := by
  have hbox : boxOf t r.fn = boxOf s r.fn := by unfold boxOf; rw [hboxes]
  have hsent : msixOf t r.fn 0 = msixOf s r.fn 0 := by unfold msixOf; rw [hmsix]
  refine ⟨?_, ?_, ?_, (Assoc.getD_set ..).trans ((if_pos rfl).trans (congrArg (· + 1) hsent))⟩ <;> rw [boxOf_answer, hbox]
  · exact Assoc.get_set_self ..
  · rfl
  · rfl

theorem answer_rest (s : State) (r : Req) (code : BitVec 8) (w : Word) (y : Service) :
    { answer s r code w with service := y } = { s with service := y } := rfl

/-! ### Requests granted and refused -/

theorem firstRefused_eq_none : ∀ {cs : List Bool} (n : Nat), cs.all id = true → firstRefused n cs = none
  | [], _, _ => rfl
  | c :: cs, n, h => by
    obtain ⟨hc, hcs⟩ := Bool.and_eq_true_iff.mp (List.all_cons ▸ h)
    exact (if_pos hc).trans (firstRefused_eq_none (n + 1) hcs)

section
variable {checks : List Bool} {act : State → State × Word}

theorem request_acts (hserve : mayServe s r = true) (hchecks : checks.all id = true) :
    request s r checks act = .next (answer (act s).1 r 0 (act s).2) := by
  rw [request, firstRefused_eq_none 1 (by rw [List.all_cons, hchecks, hserve]; rfl)]

theorem serves_of_act (hi : exec i s = request s r checks act) (hserve : mayServe s r = true) (hchecks : checks.all id = true)
    (hact : act s = (s', w)) (hboxes : s'.service.mailboxes = s.service.mailboxes) (hmsix : s'.service.msix = s.service.msix) :
    Serves i s s' r 0 w :=
  ⟨answer s' r 0 w, by rw [hi, request_acts hserve hchecks, hact], answered_answer hboxes hmsix 0 w, rfl⟩

/-- The first check of every request is its context. -/
theorem serves_refused (hi : exec i s = request s r checks act) (hserve : mayServe s r = false) : Serves i s s r 1 0 :=
  ⟨answer s r 1 0, by rw [hi, request, firstRefused, hserve]; rfl, answered_answer rfl rfl 1 0, rfl⟩

end

/-! ### What is registered (R338, R370, R396) -/

/-- The state with a launch queue registered under a number, its doorbell d (R338). -/
def withLaunchQueue (s : State) (r : Req) (addr logn d id : Nat) : State :=
  { bindDoor s r.fn d (.launch id) with launchQs := Assoc.set s.launchQs id ⟨r.ctx, addr, logn, r.fn, d, 0, 0, false⟩ }

/-- The state with the doorbell of a context's fault queue unbound, where it has one. -/
def withoutFaultDoor (s : State) (ctx : Nat) : State :=
  match (ctxOf s ctx).bind Context.faultQ with
  | some q => freeDoorbell s q.fn q.doorbell
  | none => s

/-- The state with a fault queue registered, its doorbell d (R370). -/
def withFaultQueue (s : State) (r : Req) (addr logn d : Nat) : State :=
  modCtx (bindDoor s r.fn d (.fault r.ctx)) r.ctx (fun c => { c with faultQ := some ⟨addr, logn, r.fn, d⟩ })

/-- The state with a bulk queue registered under a number, its windows ws and its doorbell d (R396). -/
def withBulkQueue (s : State) (r : Req) (x : BulkReg) (ws : List Cap) (d id : Nat) : State :=
  let s := bindDoor s r.fn d (.bulk id)
  { s with bulkQs := Assoc.set s.bulkQs id ⟨r.ctx, x.obj, x.off, x.logn, x.engine, ws, r.fn, d⟩ }

theorem registerLaunchQueue_registers {addr logn d : Nat} (hserve : mayServe s r = true) (hd : freeDoor s r.fn = some d)
    (hlow : 1 ≤ logn) (hhigh : logn ≤ 16) (halign : addr % 64 = 0) (hend : addr + (64 + 128 * 2 ^ logn) ≤ 432 * 2 ^ 30)
    (hroom : (queuesOf s r.ctx).length < 32) :
    exec (.registerLaunchQueue r addr logn) s = .next (answer (withLaunchQueue (writeDevNat s addr 64 0) r addr logn d
      ((Assoc.freeKey s.launchQs 0 4096).getD 0)) r 0 (BitVec.ofNat 32 d)) := by
  have hregion : regionOk addr (64 + 128 * 2 ^ logn) = true := decide_eq_true ⟨halign, hend⟩
  refine (exec_registerLaunchQueue ..).trans ((request_acts hserve ?_).trans ?_)
  · simp [hlow, hhigh, hregion, hroom, hd]
  · rw [hd]; rfl

theorem registerFaultQueue_registers {addr logn d : Nat} (hserve : mayServe s r = true) (hd : freeDoor s r.fn = some d)
    (hlow : 4 ≤ logn) (hhigh : logn ≤ 16) (halign : addr % 64 = 0) (hend : addr + (64 + 32 * 2 ^ logn) ≤ 432 * 2 ^ 30) :
    exec (.registerFaultQueue r addr logn) s = .next (answer
      (withFaultQueue (writeDevNat (withoutFaultDoor s r.ctx) addr 64 0) r addr logn d) r 0 (BitVec.ofNat 32 d)) := by
  have hregion : regionOk addr (64 + 32 * 2 ^ logn) = true := decide_eq_true ⟨halign, hend⟩
  refine (exec_registerFaultQueue ..).trans ((request_acts hserve ?_).trans ?_)
  · simp [hlow, hhigh, hregion, hd]
  · rw [hd]; rfl

theorem registerBulkQueue_registers {x : BulkReg} {ws : List Cap} {d : Nat} (hserve : mayServe s r = true)
    (hd : freeDoor s r.fn = some d) (hfields : x.off % 64 = 0 ∧ 1 ≤ x.logn ∧ x.logn ≤ 16 ∧ x.engine < 16 ∧ x.winCount ≤ 16)
    (hlocked : objLocked s r.ctx x.obj = false) (hin : inObject s r.ctx x.obj x.off (64 + 64 * 2 ^ x.logn) 64 = true)
    (hws : readWindows s r.ctx x.winObj x.winOff x.winCount = some ws)
    (hs' : fwWrite s r.ctx x.obj x.off (bulkHeader x.logn) = some s') : exec (.registerBulkQueue r x) s =
      .next (answer (withBulkQueue s' r x ws d ((Assoc.freeKey s.bulkQs 0 4096).getD 0)) r 0 (BitVec.ofNat 32 d)) := by
  refine (exec_registerBulkQueue ..).trans ((if_neg (Bool.eq_false_iff.mp hlocked)).trans ((request_acts hserve ?_).trans ?_))
  · simp [hfields, hin, hws, hd, hs']
  · rw [hd, hws, hs']; rfl

/-! ### What a registration leaves -/

theorem exists_ctx_of_mayServe (h : mayServe s r = true) : ∃ c, ctxOf s r.ctx = some c := by
  unfold mayServe at h
  cases hc : ctxOf s r.ctx with
  | none => rw [hc] at h; cases h
  | some c => exact ⟨c, rfl⟩

theorem modCtx_rest (s : State) (ctx : Nat) (f : Context → Context) : { modCtx s ctx f with contexts := s.contexts } = s := by
  unfold modCtx; split <;> rfl

/-- As a write of device memory leaves a state, but for doorbells. -/
def HeaderWritten (s z : State) : Prop := { z with
  dram := s.dram, tags := s.tags, poison := s.poison, cores := s.cores
  service := { z.service with doorbells := s.service.doorbells } } = s

theorem HeaderWritten.mailboxes (h : HeaderWritten s z) : z.service.mailboxes = s.service.mailboxes :=
  (congrArg (fun y : State => y.service.mailboxes) h :)

theorem HeaderWritten.msix (h : HeaderWritten s z) : z.service.msix = s.service.msix :=
  (congrArg (fun y : State => y.service.msix) h :)

theorem DevWritten.header (h : DevWritten s z) : HeaderWritten s z :=
  (congrArg (fun y : State => { y with service := { y.service with doorbells := s.service.doorbells } }) h.rest :)

/-- An unbound doorbell changes nothing else. -/
theorem withoutFaultDoor_rest (s : State) (ctx : Nat) : { withoutFaultDoor s ctx with service :=
    { (withoutFaultDoor s ctx).service with doorbells := s.service.doorbells } } = s := by
  unfold withoutFaultDoor; split <;> rfl

theorem withoutFaultDoor_dram (s : State) (ctx : Nat) : (withoutFaultDoor s ctx).dram = s.dram :=
  (congrArg State.dram (withoutFaultDoor_rest s ctx) :)

theorem withoutFaultDoor_device (s : State) (ctx : Nat) : (withoutFaultDoor s ctx).device = s.device :=
  (congrArg State.device (withoutFaultDoor_rest s ctx) :)

theorem HeaderWritten.behind {y : State} (h : HeaderWritten y z)
    (hy : { y with service := { y.service with doorbells := s.service.doorbells } } = s) : HeaderWritten s z :=
  (congrArg (fun x : State => { x with
    dram := s.dram, tags := s.tags, poison := s.poison, cores := s.cores
    service := { x.service with doorbells := s.service.doorbells } }) h :).trans
  (congrArg (fun x : State => { x with dram := s.dram, tags := s.tags, poison := s.poison, cores := s.cores }) hy :)

/-- Beside its queue, a registration leaves memory as its header does, whatever is answered behind it. -/
theorem withLaunchQueue_memory {byte : Nat → Byte} {addr logn d id : Nat} (hread : z.dram.read = byte) (hz : HeaderWritten s z)
    (ht : { t with service := z.service } = { withLaunchQueue z r addr logn d id with service := z.service }) :
    MemoryBecomes s { t with service := s.service, launchQs := s.launchQs } byte := by
  let outside (y : State) : State := { y with service := s.service, launchQs := s.launchQs }
  have hqueue : outside t = outside z := (congrArg outside ht :)
  refine ⟨fun k => (congrArg (fun y : State => y.dram.read k) hqueue :).trans (congrFun hread k), ?_⟩
  exact (congrArg (fun y : State => { y with dram := s.dram, tags := s.tags, poison := s.poison, cores := s.cores }) hqueue :).trans
    (congrArg outside hz :)

theorem withFaultQueue_memory {byte : Nat → Byte} {addr logn d : Nat} (hread : z.dram.read = byte) (hz : HeaderWritten s z)
    (ht : { t with service := z.service } = { withFaultQueue z r addr logn d with service := z.service }) :
    MemoryBecomes s { t with service := s.service, contexts := s.contexts } byte := by
  let outside (y : State) : State := { y with service := s.service, contexts := s.contexts }
  have hqueue : outside t = outside z :=
    (congrArg outside ht :).trans (congrArg outside (modCtx_rest (bindDoor z r.fn d (.fault r.ctx)) r.ctx _) :)
  refine ⟨fun k => (congrArg (fun y : State => y.dram.read k) hqueue :).trans (congrFun hread k), ?_⟩
  exact (congrArg (fun y : State => { y with dram := s.dram, tags := s.tags, poison := s.poison, cores := s.cores }) hqueue :).trans
    (congrArg outside hz :)

theorem withBulkQueue_rest (s : State) (r : Req) (x : BulkReg) (ws : List Cap) (d id : Nat) (code : BitVec 8) (w : Word) :
    { answer (withBulkQueue s r x ws d id) r code w with service := s.service, bulkQs := s.bulkQs } = s :=
  congrArg (fun y : State => { y with bulkQs := s.bulkQs }) (answer_rest (withBulkQueue s r x ws d id) r code w s.service)

theorem withFaultQueue_service (z : State) (r : Req) (addr logn d : Nat) :
    (withFaultQueue z r addr logn d).service = (bindDoor z r.fn d (.fault r.ctx)).service := modCtx_service ..

theorem withFaultQueue_faultQ {c : Context} (hc : ctxOf z r.ctx = some c) (addr logn d : Nat) :
    (ctxOf (withFaultQueue z r addr logn d) r.ctx).bind Context.faultQ = some ⟨addr, logn, r.fn, d⟩ := by
  have hkept : ctxOf (bindDoor z r.fn d (.fault r.ctx)) r.ctx = some c := hc
  rw [withFaultQueue, ctxOf_modCtx, if_pos rfl, hkept]
  rfl

end Sys2Proof.Machine
end

section
/-! SUPPORT. Versions of weight-store objects as firmware writes and publishes them (R375 to R377). -/

namespace Sys2Proof.Machine

open Sys2Proof

variable {s t u : State}

/-! ### Tables and states of versions -/

/-- Only stacked DRAM changes, and keeps its canonical form. -/
structure TablesWritten (s t : State) : Prop where
  rest : { t with dram := s.dram } = s
  wf : s.dram.wf = true → t.dram.wf = true

theorem TablesWritten.trans (h1 : TablesWritten s t) (h2 : TablesWritten t u) : TablesWritten s u :=
  ⟨(congrArg (fun z : State => { z with dram := s.dram }) h2.rest :).trans h1.rest, h2.wf ∘ h1.wf⟩

theorem tablesWritten_dram {d : Memory} (hd : s.dram.wf = true → d.wf = true) : TablesWritten s { s with dram := d } := ⟨rfl, hd⟩

theorem tablesWritten_openVersion (s : State) (oe : BitVec 512) (v root : Nat) : TablesWritten s (openVersion s oe v root) := by
  unfold openVersion
  exact ⟨rfl, fun h => Memory.writeNat_wf h ..⟩

theorem tablesWritten_setVerState (s : State) (oe : BitVec 512) (v st : Nat) : TablesWritten s (setVerState s oe v st) :=
  ⟨rfl, fun h => Memory.writeNat_wf h ..⟩

theorem tablesWritten_freeVersion (s : State) (oe : BitVec 512) (v : Nat) : TablesWritten s (freeVersion s oe v) := by
  unfold freeVersion
  dsimp only
  split_ifs
  · exact tablesWritten_setVerState ..
  · exact ⟨rfl, id⟩

theorem tablesWritten_writeTables (oe : BitVec 512) (l1 : Nat) : ∀ (leaves : List Nat) (j : Nat) (frames : List Nat) (s : State),
    TablesWritten s (writeTables s oe l1 j leaves frames)
  | [], _, _, s => ⟨rfl, id⟩
  | leaf :: leaves, j, frames, s => by
    unfold writeTables
    exact (tablesWritten_dram fun h => Memory.writeBytes_wf _ (Memory.writeNat_wf h ..) _).trans
      (tablesWritten_writeTables oe l1 leaves (j + 1) (frames.drop 512) _)

/-! ### Frames of the weight store -/

theorem writeFrames_rest (home : Nat) : ∀ (fs : List Nat) (bs : List Byte) (s : State),
    { writeFrames s home fs bs with ws := s.ws, wsPoison := s.wsPoison } = s
  | [], _, _ => rfl
  | f :: fs, bs, s =>
    (congrArg (fun z : State => { z with ws := s.ws, wsPoison := s.wsPoison })
      (writeFrames_rest home fs (bs.drop 65536) (writeWs s (wsAt home f) (bs.take 65536))) :)

/-- Frames of 64 KiB that differ lie apart. -/
theorem read_writeFrames_outside {home f j : Nat} (hf : f % 65536 = 0) (hj : j < 65536) : ∀ (fs : List Nat) (bs : List Byte) (s : State),
    s.ws.wf = true → f ∉ fs → (∀ g ∈ fs, g % 65536 = 0) →
    (writeFrames s home fs bs).ws.read (wsAt home f + j) = s.ws.read (wsAt home f + j)
  | [], _, _, _, _, _ => rfl
  | g :: fs, bs, s, hwf, hmem, haligned => by
    obtain ⟨hne, hmem⟩ := not_or.mp (mt List.mem_cons.mpr hmem)
    obtain ⟨hg, haligned⟩ := List.forall_mem_cons.mp haligned
    have hlen : (bs.take 65536).length ≤ 65536 := List.length_take_le ..
    rw [writeFrames, read_writeFrames_outside hf hj fs _ _ (Memory.writeBytes_wf _ hwf _) hmem haligned]
    refine (Memory.read_writeBytes _ hwf ..).trans (if_neg ?_)
    unfold wsAt
    omega

/-- Byte 65536 p + j of what is written into frames is byte j of frame p. -/
theorem read_writeFrames (home : Nat) {f j : Nat} (hj : j < 65536) (fs : List Nat) : ∀ (bs : List Byte) (s : State) (p : Nat),
    s.ws.wf = true → fs.Nodup → (∀ g ∈ fs, g % 65536 = 0) → 65536 * fs.length ≤ bs.length → fs[p]? = some f →
    (writeFrames s home fs bs).ws.read (wsAt home f + j) = bs.getD (65536 * p + j) 0 := by
  induction fs with
  | nil => exact fun _ _ _ _ _ _ _ hp => (nomatch hp)
  | cons g fs ih =>
    intro bs s p hwf hnodup haligned hlen hp
    obtain ⟨hnot, hnodup⟩ := List.nodup_cons.mp hnodup
    obtain ⟨hg, haligned⟩ := List.forall_mem_cons.mp haligned
    have hwf' : (writeWs s (wsAt home g) (bs.take 65536)).ws.wf = true := Memory.writeBytes_wf _ hwf _
    rw [List.length_cons] at hlen
    rw [writeFrames]
    cases p with
    | zero =>
      obtain rfl : g = f := Option.some.inj hp
      have htake : (bs.take 65536).length = 65536 := List.length_take_of_le (by omega)
      have hread := Memory.read_writeBytes (bs.take 65536) hwf (wsAt home g) (wsAt home g + j)
      rw [if_pos (by omega), Nat.add_sub_cancel_left] at hread
      rw [read_writeFrames_outside hg hj fs _ _ hwf' hnot haligned]
      refine hread.trans ?_
      rw [List.getD_eq_getElem?_getD, List.getD_eq_getElem?_getD, List.getElem?_take_of_lt hj, Nat.mul_zero, Nat.zero_add]
    | succ p =>
      rw [ih (bs.drop 65536) _ p hwf' hnodup haligned (by rw [List.length_drop]; omega) hp, List.getD_eq_getElem?_getD,
        List.getD_eq_getElem?_getD, List.getElem?_drop, Nat.mul_succ, Nat.add_comm (65536 * p) 65536, Nat.add_assoc]

/-! ### Publication (R377) -/

/-- The state with the old current version retired, and freed where nothing holds it. -/
def retired (s : State) (oe : BitVec 512) (v : Nat) : State :=
  let s := setVerState s oe v 2
  if objCur oe = 0 then s else freeVersion (setVerState s oe (objCur oe) 3) oe (objCur oe)

theorem tablesWritten_retired (s : State) (oe : BitVec 512) (v : Nat) : TablesWritten s (retired s oe v) := by
  unfold retired
  dsimp only
  split_ifs
  · exact tablesWritten_setVerState ..
  · exact ((tablesWritten_setVerState ..).trans (tablesWritten_setVerState ..)).trans (tablesWritten_freeVersion ..)

theorem publish_of_some {ctx : Nat} {c : Context} (hc : ctxOf s ctx = some c) (obj : Nat) (oe : BitVec 512) (v : Nat) :
    publish s ctx obj oe v = l1Invalidate (writeDev (retired s oe v) (c.otBase + 64 * obj + 27) (leBytes 1 v)) ctx obj none := by
  have hkept : ctxOf (retired s oe v) ctx = some c :=
    (congrArg (Assoc.get · ctx) (congrArg State.contexts (tablesWritten_retired s oe v).rest :)).trans hc
  unfold publish
  unfold retired at hkept ⊢
  dsimp only at hkept ⊢
  rw [hkept]

theorem publish_ws {ctx : Nat} {c : Context} (hc : ctxOf s ctx = some c) (obj : Nat) (oe : BitVec 512) (v : Nat) :
    (publish s ctx obj oe v).ws = s.ws := by
  rw [publish_of_some hc]
  exact (congrArg State.ws (devWritten_writeDev ..).rest :).trans (congrArg State.ws (tablesWritten_retired s oe v).rest :)

/-- CUR of the object names the version. -/
theorem publish_cur {ctx : Nat} {c : Context} (hwf : s.dram.wf = true) (hc : ctxOf s ctx = some c) (obj : Nat) (oe : BitVec 512) (v : Nat) :
    (publish s ctx obj oe v).dram.read (here s (c.otBase + 64 * obj + 27)) = BitVec.ofNat 8 v := by
  have hdevice : (retired s oe v).device = s.device := (congrArg State.device (tablesWritten_retired s oe v).rest :)
  have hread := congrFun (read_writeDevNat ((tablesWritten_retired s oe v).wf hwf) (c.otBase + 64 * obj + 27) 1 v)
    (here s (c.otBase + 64 * obj + 27))
  rw [publish_of_some hc]
  refine hread.trans ?_
  rw [here_congr hdevice, withNat, patched, if_pos ⟨Nat.le_refl _, Nat.lt_succ_self _⟩, Nat.sub_self, pow_zero, Nat.div_one]

end Sys2Proof.Machine
end

section
/-! PROOF. Requests of the mailbox, served, refused and put off (O44). -/

namespace Sys2Proof.Machine

open Sys2Proof

variable {s s' : State} {r : Req}

/-! ### Requests that wait (R322, R378) -/

/-- A die that a publication reads or writes is in its refresh window. -/
def Refreshing (s : State) (r : Req) (x : PublishReg) : Prop :=
  x.frames.any (fun f => inRefresh s (wsDie f)) = true ∨
    sourceRefreshes s r.ctx x.srcObj x.srcOff (objSize ((objEntry s r.ctx x.obj).getD 0)) = true

theorem publishVersion_waits {x : PublishReg} (h : Refreshing s r x) : exec (.publishVersion r x) s = .next s :=
  if_pos (Bool.or_eq_true_iff.mpr h)

theorem publishVersion_refused {x : PublishReg} (h : ¬Refreshing s r x) (hserve : mayServe s r = false) :
    Serves (.publishVersion r x) s s r 1 0 :=
  serves_refused (if_neg (mt Bool.or_eq_true_iff.mp h)) hserve

/-! ### Resolve (R371) -/

theorem faults_resolve_cluster (s : State) (ctx obj page n : Nat) :
    (clusterOf (resolve s ctx obj page) n).faults = resolveIn (clusterOf s n).faults ctx obj page :=
  congrArg Cluster.faults (clusterOf_mapVals s (f := fun c => { c with faults := resolveIn c.faults ctx obj page }) rfl n)

theorem faults_resolve_engine (s : State) (ctx obj page n : Nat) :
    (engineOf (resolve s ctx obj page) n).faults = resolveIn (engineOf s n).faults ctx obj page :=
  congrArg Engine.faults (engineOf_mapVals s (f := fun e : Engine => ⟨e.reqs.map (fun q : CopyReq =>
    if q.ctx = ctx then { q with faults := q.faults.filter (fun f => !f.2.on obj page) } else q), resolveIn e.faults ctx obj page⟩) rfl n)

/-! ### Capabilities (R355) -/

theorem mintCapability_mints {x : MintReg} {e : BitVec 512} {t : State} (hserve : mayServe s r = true)
    (he : objEntry s r.ctx x.obj = some e) (hrights : x.rights &&& ~~~(objMaxr e) = 0)
    (hwindow : windowIn e x.base (x.base + x.size) = true) (hexact : mintExact x = true) (hlocked : objLocked s r.ctx x.dstObj = false)
    (hput : putCap s r.ctx x.dstObj x.dstOff (mintCap x) = some t) :
    exec (.mintCapability r x) s = .next (answer t r 0 0) := by
  refine (exec_mintCapability ..).trans ((if_neg (Bool.eq_false_iff.mp hlocked)).trans ((request_acts hserve ?_).trans ?_))
  · simp [he, hrights, hwindow, hexact, hput]
  · rw [hput]; rfl

theorem putCap_tags {ctx obj off : Nat} {c : Cap} {m : Mapped} {rc : Bool} {t : State}
    (htranslate : translate s ctx none ⟨obj, off, .cwrite, false, false⟩ = (s', .ok m rc)) (hput : putCap s ctx obj off c = some t) :
    t.tags.has (m.loc.addr / 16) = true := by
  unfold putCap at hput
  rw [htranslate] at hput
  dsimp only at hput
  split_ifs at hput
  obtain rfl := Option.some.inj hput
  rw [NatSet.has_add, beq_self_eq_true, Bool.true_or]

/-! ### Publication (R377) -/

/-- The state in which a version has its tables and its bytes, and is not yet published. -/
def filled (s : State) (e : BitVec 512) (x : PublishReg) (bs : List Byte) : State :=
  writeFrames (writeTables (openVersion s e x.ver x.l1) e x.l1 0 x.leaves x.frames) (objHome e) x.frames bs

theorem tablesWritten_laid (s : State) (e : BitVec 512) (x : PublishReg) :
    TablesWritten s (writeTables (openVersion s e x.ver x.l1) e x.l1 0 x.leaves x.frames) :=
  (tablesWritten_openVersion ..).trans (tablesWritten_writeTables ..)

theorem filled_rest (s : State) (e : BitVec 512) (x : PublishReg) (bs : List Byte) :
    { filled s e x bs with dram := s.dram, ws := s.ws, wsPoison := s.wsPoison } = s :=
  (congrArg (fun z : State => { z with dram := s.dram, ws := s.ws, wsPoison := s.wsPoison }) (writeFrames_rest ..) :).trans
    (congrArg (fun z : State => { z with ws := s.ws, wsPoison := s.wsPoison }) (tablesWritten_laid s e x).rest :)

theorem filled_dram (s : State) (e : BitVec 512) (x : PublishReg) (bs : List Byte) : (filled s e x bs).dram =
    (writeTables (openVersion s e x.ver x.l1) e x.l1 0 x.leaves x.frames).dram :=
  (congrArg State.dram (writeFrames_rest ..) :)

/-- CUR of the object names the version. -/
theorem published_cur {c : Context} (hwf : memoryWf s) (hc : ctxOf s r.ctx = some c) (e : BitVec 512) (x : PublishReg) (bs : List Byte) :
    (publish (filled s e x bs) r.ctx x.obj e x.ver).dram.read (here s (c.otBase + 64 * x.obj + 27)) = BitVec.ofNat 8 x.ver := by
  have hrest := filled_rest s e x bs
  have hc' : ctxOf (filled s e x bs) r.ctx = some c := (congrArg (Assoc.get · r.ctx) (congrArg State.contexts hrest :)).trans hc
  have hwf' : (filled s e x bs).dram.wf = true := by rw [filled_dram]; exact (tablesWritten_laid s e x).wf hwf.1
  rw [← here_congr (congrArg State.device hrest :)]
  exact publish_cur hwf' hc' ..

theorem newFramesOk_aligned {e : BitVec 512} {fs : List Nat} (h : newFramesOk s e fs = true) :
    fs.Nodup ∧ ∀ f ∈ fs, f % 65536 = 0 := by
  simp only [newFramesOk, Bool.and_eq_true, decide_eq_true_eq, List.all_eq_true] at h
  obtain ⟨hnodup, hfree⟩ := h
  exact ⟨hnodup, fun f hf => (hfree f hf).1.1⟩

/-- Each frame has its 64 KiB of the bytes. -/
theorem published_frames {c : Context} {e : BitVec 512} {x : PublishReg} {bs : List Byte} {p f j : Nat} (hwf : memoryWf s)
    (hc : ctxOf s r.ctx = some c) (hnew : newFramesOk s e x.frames = true) (hfits : 65536 * x.frames.length ≤ bs.length)
    (hp : x.frames[p]? = some f) (hj : j < 65536) :
    (publish (filled s e x bs) r.ctx x.obj e x.ver).ws.read (wsAt (objHome e) f + j) = bs.getD (65536 * p + j) 0 := by
  have hc' : ctxOf (filled s e x bs) r.ctx = some c :=
    (congrArg (Assoc.get · r.ctx) (congrArg State.contexts (filled_rest s e x bs) :)).trans hc
  have hwf' : (writeTables (openVersion s e x.ver x.l1) e x.l1 0 x.leaves x.frames).ws.wf = true := by
    rw [(congrArg State.ws (tablesWritten_laid s e x).rest :)]; exact hwf.2.1
  obtain ⟨hnodup, haligned⟩ := newFramesOk_aligned hnew
  rw [publish_ws hc']
  exact read_writeFrames _ hj _ _ _ _ hwf' hnodup haligned hfits hp

theorem publishVersion_publishes {x : PublishReg} {e : BitVec 512} {bs : List Byte} (hserve : mayServe s r = true)
    (he : objEntry s r.ctx x.obj = some e) (hws : objWsf e = true) (hver : 0 < x.ver ∧ x.ver < 256)
    (hfree : verState (verEntry s e x.ver) = 0) (hframes : x.frames.length = objSize e / 65536)
    (hleaves : x.leaves.length = (objSize e / 65536 + 511) / 512) (hbytes : fillBytes s r.ctx x.srcObj x.srcOff (objSize e) = some bs)
    (hnew : newFramesOk s e x.frames = true) (htables : newTablesOk s e (x.l1 :: x.leaves) = true) (hclear : ¬Refreshing s r x) :
    exec (.publishVersion r x) s = .next (answer (publish (filled s e x bs) r.ctx x.obj e x.ver) r 0 0) := by
  refine (exec_publishVersion ..).trans ((if_neg (mt Bool.or_eq_true_iff.mp hclear)).trans ((request_acts hserve ?_).trans ?_))
  · simp [he, hws, hver, hfree, hframes, hleaves, ceilDiv, hnew, htables, hbytes]
  · rw [he]
    dsimp only [Option.getD_some]
    rw [hbytes]
    rfl

end Sys2Proof.Machine

open Sys2Proof Sys2Proof.Machine in
/-- Settles O44: a request outside its function's contexts fails its first check (`serves_refused`), one whose checks hold acts and
answers (`request_acts`), and what each act leaves is a law of its own. -/
theorem mailboxRequestsAreServed : Obligations.MailboxRequestsAreServed := by
  intro s r addr logn k obj off page group members bulk st bk mint pub code hwf reg all refreshing
  refine ⟨⟨_, rfl, answered_answer rfl rfl 1 0, rfl⟩, fun hlocked => if_pos hlocked, fun hlocked => if_pos hlocked,
    publishVersion_waits, fun hserve hbulk hmint hclear => ?refused, fun hserve => ?served⟩
  case refused =>
    simp only [all, List.forall_mem_cons, List.not_mem_nil, false_implies, implies_true, and_true]
    exact ⟨serves_refused (exec_registerLaunchQueue ..) hserve, serves_refused (exec_registerFaultQueue ..) hserve,
      serves_refused ((exec_registerBulkQueue ..).trans (if_neg (Bool.eq_false_iff.mp hbulk))) hserve,
      serves_refused (exec_registerStorageWindow ..) hserve, serves_refused (exec_fillApertureWindow ..) hserve,
      serves_refused (exec_registerPodGroup ..) hserve, serves_refused (exec_registerBucket ..) hserve,
      serves_refused (exec_resolve ..) hserve,
      serves_refused ((exec_mintCapability ..).trans (if_neg (Bool.eq_false_iff.mp hmint))) hserve,
      publishVersion_refused hclear hserve⟩
  obtain ⟨c, hc⟩ := exists_ctx_of_mayServe hserve
  refine ⟨fun d hd => ⟨fun hlow hhigh halign hend hroom => ?launchQueue, fun hlow hhigh halign hend => ?faultQueue,
      fun ws s' halign hlow hhigh hengine hcount hlocked hin hws hs' => ?bulkQueue⟩,
    fun e hk he hplain hpages hmkey hskey hdata htag hheader => ?storage,
    fun cap hk hcap htag => ?aperture,
    fun hgroup hmembers hself hroom => ?podGroup,
    fun g hidx hty hopr hexp hexpEnd hsidx hrange hlen hlenEnd hop hcad hcadEnd hg hctx => ?bucket,
    ?resolve,
    fun e s' s'' m rc he hrights hwindow hexact htranslate hcapa halign hlocked hput => ?mint,
    fun e c bs he hwsf hc hpos hver hfree hframes hleaves hl1 hleafAddrs hframeAddrs hbytes hnew htables hlen hclear => ?publish⟩
  case launchQueue =>
    have hexec := registerLaunchQueue_registers hserve hd hlow hhigh halign hend hroom
    have hread := read_writeDevNat hwf.1 addr 64 0
    have hz : HeaderWritten s (writeDevNat s addr 64 0) := (devWritten_writeDev ..).header
    generalize writeDevNat s addr 64 0 = z at hexec hread hz
    exact ⟨_, _, hexec, answered_answer (t := withLaunchQueue z r addr logn d _) hz.mailboxes hz.msix 0 _,
      withLaunchQueue_memory hread hz (answer_rest ..), Assoc.get_set_self .., Assoc.get_set_self ..⟩
  case faultQueue =>
    have hexec := registerFaultQueue_registers hserve hd hlow hhigh halign hend
    have hread := read_writeDevNat (s := withoutFaultDoor s r.ctx) ((withoutFaultDoor_dram s r.ctx).symm ▸ hwf.1) addr 64 0
    rw [withoutFaultDoor_dram, here_congr (withoutFaultDoor_device s r.ctx)] at hread
    have hz : HeaderWritten s (writeDevNat (withoutFaultDoor s r.ctx) addr 64 0) :=
      (devWritten_writeDev ..).header.behind (withoutFaultDoor_rest s r.ctx)
    generalize writeDevNat (withoutFaultDoor s r.ctx) addr 64 0 = z at hexec hread hz
    have hcz : ctxOf z r.ctx = some c := (congrArg (Assoc.get · r.ctx) (congrArg State.contexts hz :)).trans hc
    have hservice := withFaultQueue_service z r addr logn d
    exact ⟨_, hexec,
      answered_answer (t := withFaultQueue z r addr logn d) ((congrArg Service.mailboxes hservice).trans hz.mailboxes)
        ((congrArg Service.msix hservice).trans hz.msix) 0 _,
      withFaultQueue_memory hread hz (answer_rest ..), withFaultQueue_faultQ hcz ..,
      (congrArg (fun y : Service => Assoc.get y.doorbells (doorKey r.fn d)) hservice).trans (Assoc.get_set_self ..)⟩
  case bulkQueue =>
    exact ⟨_, _, registerBulkQueue_registers hserve hd ⟨halign, hlow, hhigh, hengine, hcount⟩ hlocked hin hws hs',
      withBulkQueue_rest .., Assoc.get_set_self .., Assoc.get_set_self ..⟩
  case storage =>
    refine serves_of_act (exec_registerStorageWindow ..) hserve ?_ rfl (congrArg Service.mailboxes (modCtx_service ..))
      (congrArg Service.msix (modCtx_service ..))
    simp [hk, he, hplain, hpages, hmkey, hskey, hdata, htag, hheader]
  case aperture =>
    refine serves_of_act (exec_fillApertureWindow ..) hserve ?_ ?_ rfl rfl
    · simp [hk, hcap, htag]
    · rw [hcap]
  case podGroup =>
    refine serves_of_act (exec_registerPodGroup ..) hserve ?_ rfl rfl rfl
    simpa [hself, hroom] using And.intro hgroup hmembers
  case bucket =>
    refine ⟨Bucket.registered r.ctx bk, serves_of_act (exec_registerBucket ..) hserve ?_ rfl rfl rfl, rfl, rfl, rfl, rfl, rfl, rfl, rfl,
      rfl, rfl, rfl, rfl, rfl, rfl, rfl, rfl, rfl, rfl, rfl, rfl⟩
    simpa [hidx, hty, hopr, hexp, hsidx, hrange, hlen, hcad, hcadEnd, hg, hctx] using
      And.intro hexpEnd (And.intro hlenEnd (not_and_or.mp hop))
  case resolve =>
    exact ⟨_, (exec_resolve ..).trans (request_acts hserve rfl),
      answered_answer (s := s) (t := resolve s r.ctx obj page) rfl rfl 0 0, faults_resolve_cluster s r.ctx obj page,
      faults_resolve_engine s r.ctx obj page, rfl⟩
  case mint =>
    exact ⟨_, mintCapability_mints hserve he hrights hwindow hexact hlocked hput, rfl, (putCap_tags htranslate hput :)⟩
  case publish =>
    refine ⟨_, publishVersion_publishes hserve he hwsf ⟨hpos, hver⟩ hfree hframes hleaves hbytes hnew htables hclear,
      published_cur hwf hc e pub bs, fun p f j hp hj => ?_⟩
    have hfits : 65536 * pub.frames.length ≤ bs.length := by rw [hframes, hlen]; exact Nat.mul_div_le ..
    exact published_frames hwf hc hnew hfits hp hj
end

section
/-! SUPPORT. Lines that leave the L1s, numbers that leave a set, and the bytes of a frame that is copied: what an edit of a table, a
step of a migration and the end of a refresh window go through. -/

namespace Sys2Proof.Machine

open Sys2Proof

variable {s t : State}

/-! ### Lines that leave the L1s (R365 step 3) -/

/-- No L1 holds a line of an object that a condition picks. -/
def NoLine (s : State) (ctx obj : Nat) (hit : LineId → Prop) : Prop :=
  ∀ k, ∀ l ∈ (coreOf s k).l1, l.id.ctx = ctx → l.id.obj = obj → ¬hit l.id

theorem NoLine.congr {ctx obj : Nat} {hit : LineId → Prop} (h : NoLine s ctx obj hit) (hcores : t.cores = s.cores) :
    NoLine t ctx obj hit := fun k => by rw [coreOf_congr hcores]; exact h k

theorem l1_l1Invalidate_object (s : State) (ctx obj k : Nat) : (coreOf (l1Invalidate s ctx obj none) k).l1 =
    (coreOf s k).l1.filter (fun l => !(l.id.ctx == ctx && l.id.obj == obj)) :=
  congrArg Core.l1 (coreOf_mapVals s
    (f := fun c => { c with l1 := c.l1.filter (fun l => !(l.id.ctx == ctx && l.id.obj == obj)) }) rfl k)

theorem l1_l1Invalidate_range (s : State) (ctx obj ver a n k : Nat) : (coreOf (l1Invalidate s ctx obj (some (ver, a, n))) k).l1 =
    (coreOf s k).l1.filter (fun l => !l.id.meets ctx obj ver a n) :=
  congrArg Core.l1 (coreOf_mapVals s (f := fun c => { c with l1 := c.l1.filter (fun l => !l.id.meets ctx obj ver a n) }) rfl k)

theorem noLine_l1Invalidate_object (s : State) (ctx obj : Nat) : NoLine (l1Invalidate s ctx obj none) ctx obj (fun _ => True) :=
  fun k l hl hctx hobj _ => by
    rw [l1_l1Invalidate_object] at hl
    simpa [hctx, hobj] using (List.mem_filter.mp hl).2

theorem noLine_l1Invalidate_range (s : State) (ctx obj ver a n : Nat) : NoLine (l1Invalidate s ctx obj (some (ver, a, n))) ctx obj
    (fun l => l.ver = ver ∧ a < 128 * (l.line + 1) ∧ 128 * l.line < a + n) := fun k l hl hctx hobj ⟨hver, hmeet⟩ => by
  rw [l1_l1Invalidate_range] at hl
  simpa [LineId.meets, hctx, hobj, hver, hmeet] using (List.mem_filter.mp hl).2

/-! ### Numbers of a set -/

theorem NatSet.del_eq_erase (n : Nat) : ∀ s : NatSet, NatSet.del s n = List.erase s n
  | [] => rfl
  | k :: s => by
    rw [NatSet.del, List.erase_cons, NatSet.del_eq_erase n s]
    exact if_congr (eq_comm.trans beq_iff_eq.symm) rfl rfl

theorem NatSet.pairwise_of_wf : ∀ {s : NatSet}, s.wf = true → List.Pairwise (· < ·) s
  | [], _ => .nil
  | [a], _ => List.pairwise_singleton ..
  | a :: b :: s, h => by
    obtain ⟨hab, hs⟩ := (Bool.and_eq_true_iff.mp h : _ ∧ NatSet.wf (b :: s) = true)
    have hab : a < b := of_decide_eq_true hab
    have ih := NatSet.pairwise_of_wf hs
    refine .cons (List.forall_mem_cons.mpr ⟨hab, fun c hc => ?_⟩) ih
    exact hab.trans (List.rel_of_pairwise_cons ih hc)

theorem NatSet.has_del {s : NatSet} (h : s.wf = true) (n d : Nat) : (NatSet.del s n).has d = (d != n && s.has d) := by
  have hnodup : List.Nodup s := (NatSet.pairwise_of_wf h).imp Nat.ne_of_lt
  rw [Bool.eq_iff_iff, NatSet.del_eq_erase]
  simp [NatSet.has, hnodup.mem_erase_iff]

/-! ### A range of memory copied (R322 step 4) -/

theorem Memory.wfFrom_filter (p : Nat × Byte → Bool) : ∀ (m : Memory) (lo : Option Nat), Memory.wfFrom lo m = true →
    Memory.wfFrom lo (List.filter p m) = true
  | [], _, _ => rfl
  | (k, v) :: m, lo, h => by
    obtain ⟨hlo, hv, hm⟩ := (Memory.wfFrom_cons ..).mp h
    have ih := Memory.wfFrom_filter p m (some k) hm
    rw [List.filter_cons]
    split_ifs
    · exact (Memory.wfFrom_cons ..).mpr ⟨hlo, hv, ih⟩
    · exact Memory.wfFrom_weaken ih lo fun l hl => (hlo l hl).le

/-- Of the entries that a condition on addresses keeps, every byte reads as before; the others read as unlisted. -/
theorem Memory.read_filter (p : Nat → Bool) (a : Nat) : ∀ (m : Memory) (lo : Option Nat), Memory.wfFrom lo m = true →
    Memory.read (List.filter (fun c => p c.1) m) a = if p a then Memory.read m a else unlisted
  | [], _, _ => (ite_self _).symm
  | (k, v) :: m, lo, h => by
    obtain ⟨-, -, hm⟩ := (Memory.wfFrom_cons ..).mp h
    have ih := Memory.read_filter p a m (some k) hm
    have hbelow : a ≤ k → Memory.read m a = unlisted := Memory.read_below hm
    rw [List.filter_cons]
    by_cases hk : p k = true
    · rw [if_pos hk, Memory.read, Memory.read, ih]
      by_cases hak : a = k
      · rw [if_pos hak, if_pos hak, if_pos (hak ▸ hk)]
      · rw [if_neg hak, if_neg hak]
        split_ifs <;> rfl
    · rw [if_neg hk, ih, Memory.read]
      by_cases hak : a = k
      · rw [hak, if_neg hk, if_neg hk]
      · rw [if_neg hak]
        split_ifs with hpa hlt
        · exact hbelow hlt.le
        · rfl
        · rfl

/-- Entries written at other addresses, each as far on as the others: they read there where they are listed. -/
theorem Memory.read_foldl_write {src dst : Nat} (a : Nat) : ∀ (l : Memory) (m : Memory) (lo : Option Nat), m.wf = true →
    Memory.wfFrom lo l = true → (∀ c ∈ l, src ≤ c.1) →
    Memory.read (List.foldl (fun m c => Memory.write m (c.1 - src + dst) c.2) m l) a =
      if dst ≤ a ∧ Memory.read l (a - dst + src) ≠ unlisted then Memory.read l (a - dst + src) else Memory.read m a
  | [], m, _, _, _, _ => by simp [Memory.read]
  | (k, v) :: l, m, lo, hwf, h, hsrc => by
    obtain ⟨-, hv, hl⟩ := (Memory.wfFrom_cons ..).mp h
    obtain ⟨hk, hsrc⟩ := List.forall_mem_cons.mp hsrc
    have hbelow : a - dst + src ≤ k → Memory.read l (a - dst + src) = unlisted := Memory.read_below hl
    rw [List.foldl_cons, Memory.read_foldl_write a l _ (some k) (Memory.write_wf hwf ..) hl hsrc, Memory.read_write hwf, Memory.read]
    dsimp only at hk ⊢
    by_cases hak : dst ≤ a ∧ a - dst + src = k
    · rw [hbelow hak.2.le, if_neg (fun h => h.2 rfl), if_pos (by omega), if_pos hak.2, if_pos ⟨hak.1, hv⟩]
    · have hne : a ≠ k - src + dst := by omega
      rw [if_neg hne]
      by_cases hd : dst ≤ a
      · rw [if_neg (fun h => hak ⟨hd, h⟩)]
        by_cases hlt : a - dst + src < k
        · rw [if_pos hlt, hbelow hlt.le]
        · rw [if_neg hlt]
      · rw [if_neg (fun h => hd h.1), if_neg (fun h => hd h.1)]

theorem Memory.read_copyRange {m : Memory} (h : m.wf = true) (src dst n : Nat) :
    Memory.read (m.copyRange src dst n) = patched (Memory.read m) dst n (fun j => Memory.read m (src + j)) := by
  funext a
  let inSrc (k : Nat) : Bool := decide (src ≤ k ∧ k < src + n)
  let offDst (k : Nat) : Bool := decide (k < dst ∨ dst + n ≤ k)
  have hkept : Memory.read (List.filter (fun c => offDst c.1) m) a = if offDst a then Memory.read m a else unlisted :=
    Memory.read_filter offDst a m none h
  have hmoved := Memory.read_filter inSrc (a - dst + src) m none h
  have hfold := Memory.read_foldl_write (src := src) (dst := dst) a (List.filter (fun c => inSrc c.1) m)
    (List.filter (fun c => offDst c.1) m) none (Memory.wfFrom_filter _ m none h) (Memory.wfFrom_filter _ m none h)
    (fun c hc => (of_decide_eq_true (List.mem_filter.mp hc).2 : _ ∧ _).1)
  rw [hkept, hmoved] at hfold
  refine hfold.trans ?_
  rw [patched, Nat.add_comm (a - dst)]
  by_cases ha : dst ≤ a ∧ a < dst + n
  · have hin : inSrc (src + (a - dst)) = true := decide_eq_true (by omega)
    have hoff : ¬offDst a = true := fun h => absurd (of_decide_eq_true h : _ ∨ _) (by omega)
    rw [if_pos ha, if_pos hin, if_neg hoff]
    split_ifs with hlisted
    · rfl
    · exact (not_not.mp fun hne => hlisted ⟨ha.1, hne⟩).symm
  · have hoff : offDst a = true := decide_eq_true (by omega)
    rw [if_neg ha, if_pos hoff]
    refine if_neg fun ⟨hd, hne⟩ => hne (if_neg fun hin => ?_)
    have := (of_decide_eq_true hin : _ ∧ _)
    omega

end Sys2Proof.Machine
end

section
/-! PROOF. Table edits and migrations take effect, and refresh windows open and close (O48). -/

namespace Sys2Proof.Machine

open Sys2Proof

variable {s : State} {ctx obj page a frame : Nat} {oe : BitVec 512} {pe : BitVec 64} {g g' : Migration}

/-! ### Page entries (R358, R365) -/

theorem read_setPage (h : s.dram.wf = true) (a : Nat) (pe : BitVec 64) :
    (setPage s a pe).dram.read = withNat pe.toNat 8 a s.dram.read := read_writeBytes_leBytes h a 8 pe.toNat

theorem l1Invalidate_rest (s : State) (ctx obj : Nat) (lines : Option (Nat × Nat × Nat)) :
    { l1Invalidate s ctx obj lines with cores := s.cores } = s := rfl

/-- An entry of a page written, and lines dropped: only stacked DRAM and L1s change. -/
theorem l1Invalidate_setPage_rest (s : State) (a : Nat) (pe : BitVec 64) (ctx obj : Nat) (lines : Option (Nat × Nat × Nat)) :
    { l1Invalidate (setPage s a pe) ctx obj lines with dram := s.dram, cores := s.cores } = s :=
  (congrArg (fun z : State => { z with dram := s.dram }) (l1Invalidate_rest (setPage s a pe) ctx obj lines) :)

/-- The version of a page, its first byte there, and its bytes; a weight-store page number has the version on top. -/
def pageRange (oe : BitVec 512) (page : Nat) : Nat × Nat × Nat :=
  if objWsf oe then (page / 2 ^ 16, page % 2 ^ 16 * objPage oe, objPage oe) else (0, page * objPage oe, objPage oe)

/-- A line has a byte of a page. -/
def OnPage (oe : BitVec 512) (page : Nat) (l : LineId) : Prop :=
  let first := if objWsf oe then page % 2 ^ 16 else page
  l.ver = (if objWsf oe then page / 2 ^ 16 else 0)
    ∧ first * objPage oe < 128 * (l.line + 1) ∧ 128 * l.line < first * objPage oe + objPage oe

theorem noLine_l1Invalidate_page (s : State) (ctx obj : Nat) (oe : BitVec 512) (page : Nat) :
    NoLine (l1Invalidate s ctx obj (some (pageRange oe page))) ctx obj (OnPage oe page) := by
  unfold pageRange OnPage
  split_ifs
  · exact noLine_l1Invalidate_range s ctx obj _ _ _
  · exact noLine_l1Invalidate_range s ctx obj _ _ _

theorem pageRange_of_dram (h : objWsf oe = false) (page : Nat) : pageRange oe page = (0, page * objPage oe, objPage oe) :=
  if_neg (Bool.eq_false_iff.mp h)

theorem editPage_accepted (ha : editAddr s oe page = some a) (hpe : pageEntryOk oe pe = true) (hmap : mappable s oe a pe = true)
    (hlive : liveMigration s a = none)
    (hplain : isQuarantine s ctx obj = true → pageDef pe = false ∧ pageCmp pe = false ∧ pageConst pe = false)
    (hkept : frameHasRecords s (objHome oe) (pagePfn (pageAt s a)) (objPage oe) = true → pagePresent (pageAt s a) = true →
      objWsf oe = false → keptAttrs (pageAt s a) = keptAttrs pe) :
    editPage s ctx obj page oe pe = l1Invalidate (setPage s a pe) ctx obj (some (pageRange oe page)) := by
  have hquarantine : (isQuarantine s ctx obj && (pageDef pe || pageCmp pe || pageConst pe)) = false :=
    Bool.and_eq_false_imp.mpr fun h => by obtain ⟨hdef, hcmp, hconst⟩ := hplain h; rw [hdef, hcmp, hconst]; rfl
  rw [editPage, ha]
  dsimp only
  rw [hpe, hmap, hlive, hquarantine, if_neg (by decide), if_neg, pageRange]
  simp only [Bool.and_eq_true, decide_eq_true_eq, Bool.not_eq_true']
  rintro ⟨⟨⟨hpresent, hws⟩, hne⟩, hrecords⟩
  exact hne (hkept hrecords hpresent hws)

/-! ### Object entries (R358, R365) -/

/-- The state with an object entry written, and SWSTEP of an object that becomes aged at STEP (R435). -/
def withObject (s : State) (ctx obj : Nat) (c : Context) (e : BitVec 512) : State :=
  let z := writeDevNat s (c.otBase + 64 * obj) 64 (e &&& objFields).toNat
  if objValid e && objAged e && !(match objEntry s ctx obj with | some o => objAged o | none => false) then
    modCtx z ctx (fun c => { c with swsteps := Assoc.set c.swsteps obj c.stepReg })
  else z

theorem editObject_accepted {c : Context} {e : BitVec 512} (hc : ctxOf s ctx = some c) (hpos : 0 < obj) (hlt : obj < c.otLen)
    (he : objectEntryOk s ctx obj e = true)
    (hover : ∀ g ∈ s.migrations, g.ctx = ctx → g.obj = obj → g.locked = false ∧ g.copied = true) :
    editObject s ctx obj e = l1Invalidate (withObject s ctx obj c e) ctx obj none := by
  have hmoving : s.migrations.any (fun g => g.ctx == ctx && g.obj == obj && (g.locked || !g.copied)) = false :=
    List.any_eq_false.mpr fun g hg h => by
      obtain ⟨⟨hctx, hobj⟩, hmoves⟩ : (g.ctx = ctx ∧ g.obj = obj) ∧ _ := by simpa using h
      obtain ⟨hlocked, hcopied⟩ := hover g hg hctx hobj
      simp [hlocked, hcopied] at hmoves
  have hgo : ¬((!objectEntryOk s ctx obj e) = true ∨ obj = 0 ∨ c.otLen ≤ obj
      ∨ s.migrations.any (fun g => g.ctx == ctx && g.obj == obj && (g.locked || !g.copied)) = true) := by
    rw [he, hmoving]; simp; omega
  rw [editObject, hc]
  exact if_neg hgo

theorem withObject_dram (s : State) (ctx obj : Nat) (c : Context) (e : BitVec 512) : (withObject s ctx obj c e).dram =
    (writeDevNat s (c.otBase + 64 * obj) 64 (e &&& objFields).toNat).dram := by
  unfold withObject
  dsimp only
  split_ifs
  · exact modCtx_dram ..
  · rfl

theorem withObject_rest (s : State) (ctx obj : Nat) (c : Context) (e : BitVec 512) : { withObject s ctx obj c e with
    contexts := s.contexts, dram := s.dram, tags := s.tags, poison := s.poison, cores := s.cores } = s := by
  have hwrite := devWritten_writeDev s (c.otBase + 64 * obj) (leBytes 64 (e &&& objFields).toNat)
  unfold withObject writeDevNat
  dsimp only
  split_ifs
  · have hmod := modCtx_rest (writeDev s (c.otBase + 64 * obj) (leBytes 64 (e &&& objFields).toNat)) ctx
      (fun c => { c with swsteps := Assoc.set c.swsteps obj c.stepReg })
    exact (congrArg (fun z : State => { z with
      contexts := s.contexts, dram := s.dram, tags := s.tags, poison := s.poison, cores := s.cores }) hmod :).trans
      (congrArg (fun z : State => { z with contexts := s.contexts }) hwrite.rest :)
  · exact (congrArg (fun z : State => { z with contexts := s.contexts }) hwrite.rest :)

/-! ### HOLD of a version (R375, R376) -/

theorem readNat_succ (m : Memory) (a n : Nat) : m.readNat a (n + 1) = (m.read a).toNat + 256 * m.readNat (a + 1) n := rfl

theorem verState_ofNat (n : Nat) : verState (BitVec.ofNat 128 n) = n % 4 := by
  simp only [verState, BitVec.extractLsb'_toNat, BitVec.toNat_ofNat]; omega

theorem verHold_ofNat (n : Nat) : verHold (BitVec.ofNat 128 n) = decide (n / 4 % 2 = 1) := by
  rw [verHold, BitVec.getLsbD_ofNat, Nat.testBit_eq_decide_div_mod_eq]; rfl

theorem verPins_ofNat (n : Nat) : verPins (BitVec.ofNat 128 n) = n / 2 ^ 16 % 2 ^ 16 := by
  simp only [verPins, BitVec.extractLsb'_toNat, BitVec.toNat_ofNat, Nat.shiftRight_eq_div_pow]; omega

/-- The state with the first byte of a version's entry written. -/
def withVerByte (s : State) (oe : BitVec 512) (ver x : Nat) : State := { s with dram := s.dram.writeNat (verAddr oe ver) 1 x }

theorem read_withVerByte (h : s.dram.wf = true) (oe : BitVec 512) (ver x k : Nat) : (withVerByte s oe ver x).dram.read k =
    if k = verAddr oe ver then BitVec.ofNat 8 x else s.dram.read k := Memory.read_write h ..

/-- With STATE and HOLD written, the entry has them, and its PINS. -/
theorem verEntry_withVerByte (h : s.dram.wf = true) (oe : BitVec 512) (ver : Nat) {st : Nat} (hst : st < 4) (on : Bool) :
    let x := verEntry (withVerByte s oe ver (st + if on then 4 else 0)) oe ver
    verState x = st ∧ verHold x = on ∧ verPins x = verPins (verEntry s oe ver) := by
  have htail : (withVerByte s oe ver (st + if on then 4 else 0)).dram.readNat (verAddr oe ver + 1) 15 =
      s.dram.readNat (verAddr oe ver + 1) 15 :=
    readNat_congr fun j _ => by rw [read_withVerByte h, if_neg (by omega)]
  have hold := (s.dram.read (verAddr oe ver)).isLt
  have hbyte : (BitVec.ofNat 8 (st + if on then 4 else 0)).toNat = st + if on then 4 else 0 := by
    rw [BitVec.toNat_ofNat]; exact Nat.mod_eq_of_lt (by split_ifs <;> omega)
  intro x
  simp only [x, verEntry, verState_ofNat, verHold_ofNat, verPins_ofNat, readNat_succ _ _ 15, htail, read_withVerByte h, if_true, hbyte]
  cases on <;> simp <;> omega

/-- HOLD is written, and a retired version without pins is free once it is clear. -/
theorem editHold_writes (h : s.dram.wf = true) (hws : objWsf oe = true) {ver : Nat} (hpos : 0 < ver) (hlt : ver < 256) (on : Bool) :
    let x := verEntry s oe ver
    { editHold s ver on oe with dram := s.dram } = s ∧ ∀ k, (editHold s ver on oe).dram.read k =
      if k = verAddr oe ver then BitVec.ofNat 8 (if on then verState x + 4 else if verState x = 3 ∧ verPins x = 0 then 0 else verState x)
      else s.dram.read k := by
  intro x
  have hgo : ¬((!objWsf oe) = true ∨ ver = 0 ∨ 255 < ver) := by rw [hws]; simp; omega
  have hst : verState x < 4 := (x.extractLsb' 0 2).isLt
  have hedit : editHold s ver on oe = freeVersion (withVerByte s oe ver (verState x + if on then 4 else 0)) oe ver := if_neg hgo
  obtain ⟨hstate, hhold, hpins⟩ := verEntry_withVerByte h oe ver hst on
  have hwf : (withVerByte s oe ver (verState x + if on then 4 else 0)).dram.wf = true := Memory.writeNat_wf h ..
  have hrest : { withVerByte s oe ver (verState x + if on then 4 else 0) with dram := s.dram } = s := rfl
  have hread := read_withVerByte h oe ver (verState x + if on then 4 else 0)
  rw [hedit]
  generalize withVerByte s oe ver (verState x + if on then 4 else 0) = z at hstate hhold hpins hwf hrest hread ⊢
  have hfree : freeVersion z oe ver = if verState x = 3 ∧ verPins x = 0 ∧ (!on) = true then setVerState z oe ver 0 else z := by
    rw [freeVersion, hstate, hhold, hpins]
  cases on with
  | true =>
    rw [hfree, if_neg (by simp)]
    simp only [if_true] at hread ⊢
    exact ⟨hrest, hread⟩
  | false =>
    simp only [Bool.false_eq_true, if_false, Nat.add_zero] at hread ⊢
    by_cases hretired : verState x = 3 ∧ verPins x = 0
    · have hset : setVerState z oe ver 0 = withVerByte z oe ver 0 := by rw [setVerState, hhold]; rfl
      rw [hfree, if_pos ⟨hretired.1, hretired.2, rfl⟩, hset]
      refine ⟨hrest, fun k => ?_⟩
      rw [read_withVerByte hwf, hread, if_pos hretired]
      split_ifs <;> rfl
    · rw [hfree, if_neg fun h => hretired ⟨h.1, h.2.1⟩, if_neg hretired]
      exact ⟨hrest, hread⟩

/-! ### Migrations by the entry of their page (R322, R373) -/

theorem peAddr_of_migrationAt (h : migrationAt s a = some g) : g.peAddr = a := by simpa using List.find?_some h

theorem migrationAt_of_live (h : liveMigration s a = some g) : migrationAt s a = some g := (Option.filter_eq_some_iff.mp h).1

/-- What a migration becomes where that of a page comes to another phase. -/
def Migration.turned (g x : Migration) : Migration := if x.peAddr == g.peAddr then g else x

/-- The state with the migration of a page in another phase. -/
def withMigration (s : State) (g : Migration) : State := { s with migrations := s.migrations.map g.turned }

theorem Migration.peAddr_turned (g x : Migration) : (g.turned x).peAddr = x.peAddr := by
  unfold turned
  split_ifs with h
  · exact (eq_of_beq h).symm
  · rfl

theorem migrationAt_withMigration (h : migrationAt s g.peAddr = some g') : migrationAt (withMigration s g) g.peAddr = some g := by
  have hsame : ((fun x : Migration => x.peAddr == g.peAddr) ∘ g.turned) = fun x => x.peAddr == g.peAddr :=
    funext fun x => congrArg (· == g.peAddr) (g.peAddr_turned x)
  have hmap : migrationAt (withMigration s g) g.peAddr = (migrationAt s g.peAddr).map g.turned :=
    List.find?_map.trans (by rw [hsame]; rfl)
  rw [hmap, h, Option.map_some, Migration.turned, if_pos (beq_of_eq (peAddr_of_migrationAt h))]

theorem endHeld_rest (s : State) (g : Migration) (tid : ThreadId) : { endHeld s g tid with migrations := s.migrations } = s := by
  unfold endHeld; split_ifs <;> rfl

/-- A migration that is over holds no write of its page, whether it stays listed or not. -/
theorem pageLocked_endHeld {m : Mapped} (hm : m.peAddr = g.peAddr) (hlocked : pageLocked s m = false) (tid : ThreadId) :
    pageLocked (endHeld s g tid) m = false := by
  unfold endHeld
  split_ifs
  · have hnone : (s.migrations.filter (fun x => x.peAddr != g.peAddr)).find? (fun x => x.peAddr == m.peAddr) = none :=
      List.find?_eq_none.mpr fun x hx => by simpa [hm] using (List.mem_filter.mp hx).2
    rw [pageLocked, migrationAt, hnone]; rfl
  · exact hlocked

/-! ### The steps of a migration (R322) -/

theorem execMigration_begins (hoe : objEntry s ctx obj = some oe) (ha : editAddr s oe page = some a) (hnone : liveMigration s a = none) :
    exec (.migration ctx obj page frame) s =
      if mayMigrate s oe a frame then .next (beginMigration s ctx obj page frame oe a) else .next s := by
  rw [exec_migration, execMigration]
  simp only [hoe, ha, hnone]

theorem execMigration_goesOn (hoe : objEntry s ctx obj = some oe) (ha : editAddr s oe page = some a) (hlive : liveMigration s a = some g)
    (hnew : g.new = frame) : exec (.migration ctx obj page frame) s = .next (migrate s g) := by
  rw [exec_migration, execMigration]
  simp only [hoe, ha, hlive, if_pos hnew]

theorem not_mayMigrate_of_records (h : frameHasRecords s (objHome oe) (pagePfn (pageAt s a)) (objPage oe) = true) :
    mayMigrate s oe a frame = false := by simp [mayMigrate, h]

theorem dram_of_mayMigrate (h : mayMigrate s oe a frame = true) : objWsf oe = false :=
  Bool.eq_false_iff.mpr fun hws => by simp [mayMigrate, hws] at h

/-- The migration of a page to a frame, as it begins. -/
def Migration.begun (s : State) (ctx obj page frame : Nat) (oe : BitVec 512) (a : Nat) : Migration :=
  ⟨ctx, obj, page, a, objHome oe, pagePfn (pageAt s a), frame, objPage oe, false, false⟩

/-- The state with a migration listed anew. -/
def listed (s : State) (g : Migration) : State :=
  { s with migrations := s.migrations.filter (fun x => x.peAddr != g.peAddr) ++ [g] }

theorem listed_rest (s : State) (g : Migration) : { listed s g with migrations := s.migrations } = s := rfl

theorem migrationAt_listed (s : State) (g : Migration) : migrationAt (listed s g) g.peAddr = some g := by
  have hothers : (s.migrations.filter (fun x => x.peAddr != g.peAddr)).find? (fun x => x.peAddr == g.peAddr) = none :=
    List.find?_eq_none.mpr fun x hx => by simpa using (List.mem_filter.mp hx).2
  refine (List.find?_append ..).trans ?_
  rw [hothers, Option.none_or, List.find?_cons_of_pos (by simp)]

theorem beginMigration_eq (s : State) (ctx obj page frame : Nat) (oe : BitVec 512) (a : Nat) : beginMigration s ctx obj page frame oe a =
    l1Invalidate (setPage (listed s (.begun s ctx obj page frame oe a)) a (setBit (pageAt s a) 58 true)) ctx obj
      (some (0, page * objPage oe, objPage oe)) := rfl

theorem migrationAt_beginMigration (s : State) (ctx obj page frame : Nat) (oe : BitVec 512) (a : Nat) :
    migrationAt (beginMigration s ctx obj page frame oe a) a = some (.begun s ctx obj page frame oe a) :=
  migrationAt_listed s (.begun s ctx obj page frame oe a)

theorem read_beginMigration (h : s.dram.wf = true) (ctx obj page frame : Nat) (oe : BitVec 512) (a : Nat) :
    (beginMigration s ctx obj page frame oe a).dram.read = withNat (setBit (pageAt s a) 58 true).toNat 8 a s.dram.read :=
  read_setPage h a (setBit (pageAt s a) 58 true)

theorem beginMigration_rest (s : State) (ctx obj page frame : Nat) (oe : BitVec 512) (a : Nat) :
    { beginMigration s ctx obj page frame oe a with dram := s.dram, cores := s.cores, migrations := s.migrations } = s := by
  have hedit := l1Invalidate_setPage_rest (listed s (.begun s ctx obj page frame oe a)) a (setBit (pageAt s a) 58 true) ctx obj
    (some (0, page * objPage oe, objPage oe))
  rw [← beginMigration_eq] at hedit
  exact (congrArg (fun z : State => { z with migrations := s.migrations }) hedit :).trans (listed_rest ..)

theorem noLine_beginMigration (h : objWsf oe = false) (s : State) (ctx obj page frame a : Nat) :
    NoLine (beginMigration s ctx obj page frame oe a) ctx obj (OnPage oe page) := by
  rw [beginMigration_eq, ← pageRange_of_dram h]
  exact noLine_l1Invalidate_page _ ctx obj oe page

theorem migrate_locks (hlocked : g.locked = false) (hcopied : g.copied = false) :
    migrate s g = withMigration s { g with locked := true } := by rw [migrate, hlocked, hcopied]; rfl

theorem migrate_copies (hlocked : g.locked = true) (hcopied : g.copied = false) : migrate s g =
    withMigration (copyFrame s (dramAt g.home g.old) (dramAt g.home g.new) g.size) { g with copied := true } := by
  rw [migrate, hlocked, hcopied]; rfl

theorem migrate_ends (hlocked : g.locked = true) (hcopied : g.copied = true) : migrate s g = endMigration s g := by
  rw [migrate, hlocked, hcopied]; rfl

/-- The entry of the page that moved has its frame, and no L1 a line of the page (R365). -/
def switched (s : State) (g : Migration) : State :=
  l1Invalidate (setPage s g.peAddr (movedEntry (pageAt s g.peAddr) g.new)) g.ctx g.obj (some (0, g.page * g.size, g.size))

theorem endMigration_eq (s : State) (g : Migration) : endMigration s g =
    endHeld (withMigration (moveSnapshots (switched s g) g) { g with locked := false }) { g with locked := false } ⟨2 ^ 15, 0⟩ := rfl

theorem endMigration_keeps (s : State) (g : Migration) : { endMigration s g with migrations := s.migrations } =
    moveSnapshots (switched s g) g := by
  rw [endMigration_eq]
  exact (congrArg (fun z : State => { z with migrations := s.migrations }) (endHeld_rest ..) :)

theorem read_endMigration (h : s.dram.wf = true) (g : Migration) :
    (endMigration s g).dram.read = withNat (movedEntry (pageAt s g.peAddr) g.new).toNat 8 g.peAddr s.dram.read :=
  (congrArg (fun z : State => z.dram.read) (endMigration_keeps s g) :).trans (read_setPage h g.peAddr _)

theorem noLine_endMigration (hsize : g.size = objPage oe) (hws : objWsf oe = false) (s : State) :
    NoLine (endMigration s g) g.ctx g.obj (OnPage oe g.page) := by
  have hlines := noLine_l1Invalidate_page (setPage s g.peAddr (movedEntry (pageAt s g.peAddr) g.new)) g.ctx g.obj oe g.page
  rw [pageRange_of_dram hws, ← hsize] at hlines
  exact hlines.congr (congrArg State.cores (endMigration_keeps s g) :)

theorem moveSnapshots_rest (s : State) (g : Migration) : { moveSnapshots s g with launches := s.launches } = s := rfl

theorem switched_rest (s : State) (g : Migration) : { switched s g with dram := s.dram, cores := s.cores } = s :=
  l1Invalidate_setPage_rest ..

theorem endMigration_rest (s : State) (g : Migration) : { endMigration s g with
    dram := s.dram, cores := s.cores, launches := s.launches, migrations := s.migrations } = s :=
  calc { endMigration s g with dram := s.dram, cores := s.cores, launches := s.launches, migrations := s.migrations }
    _ = { moveSnapshots (switched s g) g with dram := s.dram, cores := s.cores, launches := s.launches } :=
      (congrArg (fun z : State => { z with dram := s.dram, cores := s.cores, launches := s.launches }) (endMigration_keeps s g) :)
    _ = { switched s g with dram := s.dram, cores := s.cores } :=
      (congrArg (fun z : State => { z with dram := s.dram, cores := s.cores }) (moveSnapshots_rest (switched s g) g) :)
    _ = s := switched_rest s g

theorem pageLocked_endMigration {m : Mapped} (hm : m.peAddr = g.peAddr) (hg : migrationAt s g.peAddr = some g) :
    pageLocked (endMigration s g) m = false := by
  have hat := migrationAt_withMigration (s := moveSnapshots (switched s g) g) (g := { g with locked := false }) hg
  rw [endMigration_eq]
  exact pageLocked_endHeld (g := { g with locked := false }) hm (by rw [pageLocked, hm, hat]; rfl) _

/-! ### Refresh windows (R378) -/

theorem refreshWindow_opens {die : Nat} (hdie : die < 4) (hin : inRefresh s die = true) (hout : s.refresh.has die = false) :
    exec (.refreshWindow die) s = .next { s with refresh := NatSet.add s.refresh die } :=
  if_pos ⟨hdie, hin, by rw [hout]; rfl⟩

theorem refreshWindowEnd_closes {die : Nat} (hin : ¬inRefresh s die = true) (hopen : s.refresh.has die = true) :
    exec (.refreshWindowEnd die) s = .next { s with refresh := NatSet.del s.refresh die } :=
  if_pos ⟨hopen, by simpa using hin⟩

end Sys2Proof.Machine

open Sys2Proof Sys2Proof.Machine in
/-- Settles O48: an edit that firmware accepts is a write of its entry behind which the L1s are filtered (`editPage_accepted`,
`editObject_accepted`), a migration goes on by one phase (`migrate_locks`, `migrate_copies`, `migrate_ends`), and a copied frame
reads as the old one (`Memory.read_copyRange`). -/
theorem tablesAreEdited : Obligations.TablesAreEdited := by
  intro s ctx obj page frame die ver on pe e oe c a hwf noLine
  have hd : s.dram.wf = true := hwf.1
  refine ⟨fun hoe ha => ⟨fun hpe hmap hlive hplain hkept => ?page, fun hlive => ⟨fun hmay => ?begins, fun hrecords => ?waits⟩,
      fun g hlive hctx hobj hpage hsize hnew => ⟨fun hlocked hcopied => ?locks, fun hlocked hcopied _ => ?copies,
        fun hlocked hcopied hws => ?ends⟩⟩,
    fun hoe hws hpos hlt => ?hold, fun hc hpos hlt he hover => ?object,
    fun hdie => ⟨fun hin hout => ?opens, fun hin hopen hset => ?closes⟩⟩
  case page =>
    have hexec : exec (.invalidation ctx (.page obj page pe)) s = .next (editPage s ctx obj page oe pe) := by
      rw [exec_invalidation, execInvalidation, hoe]; rfl
    rw [editPage_accepted ha hpe hmap hlive hplain hkept] at hexec
    exact ⟨_, hexec, congrFun (read_setPage hd a pe), l1Invalidate_setPage_rest ..,
      noLine_l1Invalidate_page (setPage s a pe) ctx obj oe page⟩
  case begins =>
    have hexec := (execMigration_begins hoe ha hlive).trans (if_pos hmay)
    exact ⟨_, hexec, congrFun (read_beginMigration hd ..), noLine_beginMigration (dram_of_mayMigrate hmay) s ctx obj page frame a,
      migrationAt_beginMigration .., beginMigration_rest ..⟩
  case waits =>
    exact (execMigration_begins hoe ha hlive).trans (if_neg (Bool.eq_false_iff.mp (not_mayMigrate_of_records hrecords)))
  case locks =>
    have hexec := execMigration_goesOn hoe ha hlive hnew
    have hg := migrationAt_of_live hlive
    obtain rfl := peAddr_of_migrationAt hg
    rw [migrate_locks hlocked hcopied] at hexec
    exact ⟨_, hexec, migrationAt_withMigration hg, rfl⟩
  case copies =>
    obtain rfl := hnew
    have hexec := execMigration_goesOn hoe ha hlive rfl
    have hg := migrationAt_of_live hlive
    obtain rfl := peAddr_of_migrationAt hg
    have hread := Memory.read_copyRange hd (dramAt g.home g.old) (dramAt g.home g.new) g.size
    rw [migrate_copies hlocked hcopied] at hexec
    exact ⟨_, hexec, migrationAt_withMigration (g := { g with copied := true }) hg, congrFun (hsize ▸ hread), rfl⟩
  case ends =>
    obtain rfl := hnew
    have hexec := execMigration_goesOn hoe ha hlive rfl
    have hg := migrationAt_of_live hlive
    obtain rfl := peAddr_of_migrationAt hg
    rw [migrate_ends hlocked hcopied] at hexec
    have hlines := noLine_endMigration (hsize : g.size = objPage oe) hws s
    rw [hctx, hobj, hpage] at hlines
    exact ⟨_, hexec, congrFun (read_endMigration hd g), hlines, fun m hm => pageLocked_endMigration hm hg, endMigration_rest s g⟩
  case hold =>
    have hexec : exec (.invalidation ctx (.hold obj ver on)) s = .next (editHold s ver on oe) := by
      rw [exec_invalidation, execInvalidation, hoe]; rfl
    obtain ⟨hrest, hread⟩ := editHold_writes hd hws hpos hlt on
    exact ⟨_, hexec, hrest, (hread _).trans (if_pos rfl), fun k hk => (hread k).trans (if_neg hk)⟩
  case object =>
    have hexec : exec (.invalidation ctx (.object obj e)) s = .next (editObject s ctx obj e) := rfl
    rw [editObject_accepted hc hpos hlt he hover] at hexec
    have hread : (withObject s ctx obj c e).dram.read = _ :=
      (congrArg Memory.read (withObject_dram ..)).trans (read_writeDevNat hd ..)
    exact ⟨_, hexec, ⟨congrFun hread, withObject_rest s ctx obj c e⟩, noLine_l1Invalidate_object (withObject s ctx obj c e) ctx obj⟩
  case opens =>
    have hhas := fun d => NatSet.has_add d die s.refresh
    refine ⟨_, refreshWindow_opens hdie (decide_eq_true hin) hout, (hhas die).trans (by simp), fun d hne => (hhas d).trans ?_, rfl⟩
    rw [beq_false_of_ne hne, Bool.false_or]
  case closes =>
    have hhas := NatSet.has_del hset die
    refine ⟨_, refreshWindowEnd_closes (mt of_decide_eq_true hin) hopen, (hhas die).trans (by simp),
      fun d hne => (hhas d).trans ?_, rfl⟩
    rw [bne_iff_ne.mpr hne, Bool.true_and]
end
